-- ==== Sys2Proof/Word.lean ====
section
/-! DEFINITION. The word types of the machine (R5, R25, R41) and nothing else. -/

namespace Sys2Proof

/-- A byte of memory (R5). -/
abbrev Byte := BitVec 8
/-- One lane of a window or global register (R39). -/
abbrev Word := BitVec 32
/-- A scalar register, a register pair, a virtual address (R39, R41, R60). -/
abbrev Dword := BitVec 64
/-- One Herjo instruction word (R25). -/
abbrev InstrWord := BitVec 96
/-- One bit per lane, lane l at bit l (R29). -/
abbrev Mask := BitVec 64
/-- The 128 bytes of a line, byte k at bits [8k+7:8k] (R76). -/
abbrev LineData := BitVec 1024
/-- One bit per byte of a line (R139). -/
abbrev ByteMask := BitVec 128

end Sys2Proof
end

