-- ==== Sys2Proof/Syntax.lean ====
section
/-! DEFINITION. The syntax of the machine: one constructor of `Instr` per row of spec/opcode_table.json. The rows of
the table are of two kinds. 129 rows are Herjo instructions (R47) and carry the fields of their format's word (R28,
R31, R35, R37, R38), as the word holds them. 132 rows are the part's other whole steps, called events here (the table
of 95_what_each_step_holds.md): a request applied at a slice, a reply that arrives, a command of the host, a timer
that elapses. An event carries what the step is about: which unit, and which operation in flight. -/

namespace Sys2Proof

/-- The guard and the rejoin mark, in the same place in every format (R28 to R30). -/
structure Guard where
  /-- guard predicate p0 to p7 -/
  pi : BitVec 3
  /-- the guard predicate is inverted -/
  pn : Bool
  /-- rejoin mark -/
  rj : Bool
deriving DecidableEq, Repr, Inhabited

/-- Format V (R31): integer, floating-point, predicate and warp-data instructions. -/
structure VF where
  g : Guard
  fn : BitVec 6
  ty : BitVec 4
  d : BitVec 10
  a : BitVec 10
  b : BitVec 10
  c : BitVec 10
  bk : BitVec 2
  fa : Bool
  fb : Bool
  fc : Bool
  rm : BitVec 3
  sat : Bool
  mod : BitVec 4
  w : BitVec 20
deriving DecidableEq, Repr, Inhabited

/-- Format M (R35): memory, atomic, key, copy, locket, matrix, scheduling, refinement and system instructions. -/
structure MF where
  g : Guard
  fn : BitVec 6
  ty : BitVec 4
  d : BitVec 10
  a : BitVec 10
  b : BitVec 10
  pk : BitVec 4
  ck : BitVec 4
  sc : BitVec 3
  ord : BitVec 2
  sp : BitVec 2
  fa : Bool
  fb : Bool
  ch : BitVec 2
  w : BitVec 20
deriving DecidableEq, Repr, Inhabited

/-- Format C (R37): control instructions. -/
structure CF where
  g : Guard
  fn : BitVec 6
  d : BitVec 10
  a : BitVec 10
  b : BitVec 10
  j : BitVec 20
  t : BitVec 20
deriving DecidableEq, Repr, Inhabited

/-- Format X (R38): MMA. -/
structure XF where
  g : Guard
  fn : BitVec 6
  ac : BitVec 3
  aslot : BitVec 5
  wslot : BitVec 5
  mr : BitVec 4
  fw : BitVec 10
  pk : BitVec 4
  ck : BitVec 4
  acc : Bool
deriving DecidableEq, Repr, Inhabited

/-- A warp of a team, by the team's number in the machine and the warp's index in the team. -/
structure WarpRef where
  team : Nat
  warp : Nat
deriving DecidableEq, Repr, Inhabited

/-- A split of a warp (R293). -/
structure SplitRef where
  team : Nat
  warp : Nat
  split : Nat
deriving DecidableEq, Repr, Inhabited

/-- One request of an operation in flight: the operation's number in the reply tables and the line, lane or chunk of it
that the request is about. -/
structure Req where
  op : Nat
  part : Nat
deriving DecidableEq, Repr, Inhabited

/-- What a host command record carries in every case: the session and stream it came on and the tag it is answered
with (R373). -/
structure Cmd where
  session : Nat
  stream : Nat
  tag : Dword
deriving DecidableEq, Repr, Inhabited

/-- A GCT datagram as received from UDP (R370): its source address, its 32-byte header's fields and its body. For the
protected types the body is the ciphertext with its 16-byte tag. -/
structure Datagram where
  src : Nat
  ver : Byte
  type : Byte
  session : BitVec 16
  stream : Byte
  rsv1 : BitVec 24
  seq : Dword
  ackseq : Dword
  len : BitVec 32
  rsv2 : BitVec 32
  body : List Byte
deriving DecidableEq, Repr, Inhabited

/-- One lane of an ATOMIC packet: lane, byte offset in the line, operand and, for ATOMC, new value (R360). -/
structure AtomLane where
  lane : Nat
  off : Nat
  b : Dword
  c : Dword
deriving DecidableEq, Repr, Inhabited

/-- The kinds of Frauk packet (R360), with those that the stream reset of R363 needs, and the notice by which a node
learns that another package has been reset. -/
inductive PacketKind where
  | read | readReply | write | atomic | atomicReply | rwrite | token | kick | ack | streamReset | streamResetAck
  | resetNotice
deriving DecidableEq, Repr, Inhabited

/-- A Frauk packet (R360). -/
structure Packet where
  kind : PacketKind
  src : BitVec 16
  dst : BitVec 16
  /-- 24-bit stream sequence number (R192), and how often its stream's numbering had begun again (R363) -/
  seq : Nat
  epoch : Nat := 0
  addr : Nat
  count : Nat
  /-- HOME value the request carries (R65) -/
  home : Nat
  fn : Nat
  ty : Nat
  /-- the packet comes from an ATOMC; from a RED, which an ACK answers -/
  cas : Bool
  red : Bool
  /-- a checked access (R91) -/
  checked : Bool
  bmask : ByteMask
  data : LineData
  lanes : List AtomLane
  /-- signet of RWRITE and TOKEN -/
  sig : BitVec 128
  /-- sender's lanes and the lane mask of RWRITE -/
  width : Nat
  lmask : Mask
  values : List Word
  /-- scope of a KSEND (TOKEN) -/
  scope : Nat
  /-- die, slot and tail of KICK, and the sender's context -/
  die : Nat
  slot : Nat
  tail : Dword
  ctx : Nat
  /-- completion code of ACK; 0 in requests -/
  code : Nat
  /-- fault kind a refused request completes with, a class-3 code of R381; 0 for none -/
  fault : Nat
  /-- tag in the header of ATOMIC-REPLY -/
  linetag : BitVec 16
deriving DecidableEq, Repr, Inhabited

/-- A firmware image (R417). -/
structure FwImage where
  version : Word
  svn : Word
  key : List Byte
  sig : List Byte
  body : List Byte
deriving DecidableEq, Repr, Inhabited

/-- The whole steps of the part, one constructor per row of spec/opcode_table.json, in the table's
order but for the last group. -/
inductive Instr where
  -- the package and the host link
  | thermalThrottle (die : Nat)
  | helloForgetTimeout (src : Nat)
  | sessionIdleTimeout (session : Nat)
  | dataRetransmitTimeout (session stream : Nat) (seq : Nat)
  | memoryReadVirtual (c : Cmd) (ctx : Nat) (addr : Dword) (count : Nat)
  | memoryReadPhysical (c : Cmd) (pol : Nat) (addr : Dword) (count : Nat)
  | memoryWriteVirtual (c : Cmd) (ctx : Nat) (addr : Dword) (data : List Byte)
  | memoryWritePhysical (c : Cmd) (pol : Nat) (addr : Dword) (data : List Byte)
  | kick (c : Cmd) (ctx qid : Nat) (value : Dword)
  | createContext (c : Cmd)
  | destroyContext (c : Cmd) (ctx : Nat)
  | setRootTable (c : Cmd) (ctx : Nat) (addr : Dword)
  | setEventCount (c : Cmd) (ctx : Nat) (count : Nat) (backing : Dword)
  | setRefinableSet (c : Cmd) (ctx first n value : Nat)
  | shootdown (c : Cmd) (ctx : Nat) (base length : Dword)
  | grantContext (c : Cmd) (ctx session : Nat)
  | bindUserQueue (c : Cmd) (ctx qid logcap : Nat) (ring : Dword)
  | unbindUserQueue (c : Cmd) (ctx qid : Nat)
  | resumeQueueRetry (c : Cmd) (ctx qid : Nat)
  | resumeQueueSkip (c : Cmd) (ctx qid : Nat)
  | setHostEventRing (c : Cmd) (ctx logn stream : Nat)
  | advanceReadIndex (c : Cmd) (ctx : Nat) (index : Dword)
  | assignNodeId (c : Cmd) (node : BitVec 16)
  | writeRouteTable (c : Cmd) (die : Nat) (node mask : BitVec 16)
  | writeExport (c : Cmd) (index : Nat) (flags : Byte) (src : BitVec 16) (base size : Dword)
  | streamReset (c : Cmd) (node : BitVec 16)
  | readForeignKickCounters (c : Cmd)
  | controlResume (team : Nat)
  | controlAbandon (team : Nat)
  | controlStep (team : Nat)
  | teamHeaderWrite (team : Nat) (offset : Nat) (data : List Byte)
  -- the fabric
  | fraukLinkUp (port : Nat)
  | linkReplayRequest (port : Nat) (flit : Nat)
  | linkReset (port : Nat)
  | fabricRetransmitTimeout (node : BitVec 16) (seq : Nat)
  -- the slices
  | sliceLoad (r : Req)
  | sliceStore (r : Req)
  | sliceAtomic (r : Req)
  | checkRequest (r : Req)
  | writeBackArrival (core home : Nat) (line : Nat) (data : LineData) (bmask : ByteMask) (ops : List Nat)
  | updateOnlyObtain (r : Req)
  | partialResultCombine (core home : Nat) (line : Nat) (data : LineData) (bmask : ByteMask) (fn ty : Nat) (ops : List Nat)
  | recallDelivery (core : Nat) (line : Nat)
  | sliceFillComplete (home : Nat) (line : Nat)
  | hostAccessAtSlice (acc : Nat) (part : Nat)
  | remoteWriteApply (op : Nat)
  | tokenApply (op : Nat)
  | emptyRequestApply (op : Nat)
  | mintRequestApply (op : Nat)
  | saveRecordRemove (w : WarpRef)
  | restoreRecordInstall (w : WarpRef)
  | imageWrite (op : Nat)
  | watchRequest (s : SplitRef)
  | pushReservation (op : Nat)
  | pushWrite (op : Nat)
  | popReservation (op : Nat)
  | popRead (op : Nat)
  | heldRequestResend (op : Nat)
  | tableWalkStep (core : Nat) (ctx : Nat) (va : Dword) (level : Nat) (table : Nat)
  | constLineFetch (s : SplitRef) (vline : Nat)
  -- the core's side of operations in flight
  | replyArrival (r : Req)
  | locketDelivery (w : WarpRef) (locket : Nat) (mask : Mask) (values : List Word)
  | flushMarkerArrival (w : WarpRef)
  | wokenDelivery (s : SplitRef)
  | waitmTimeout (s : SplitRef)
  | ksendTokenSend (op : Nat)
  | copyDescriptorEnqueue (op : Nat)
  | copyStart (die eng : Nat)
  | copyChunk (op : Nat) (chunk : Nat)
  | copyQueryRequest (op : Nat)
  | spillStep (w : WarpRef)
  | refillRow (w : WarpRef) (row : Nat)
  | windowConflictTimeout (s : SplitRef)
  | arenaWritePerformed (w : WarpRef) (row : Nat)
  | mmaExecute (op : Nat)
  | acczExecute (op : Nat)
  | accldExecute (op : Nat)
  | accrdExecute (op : Nat)
  | accqExecute (op : Nat)
  | drainExecute (op : Nat)
  | xshflPosting (op : Nat) (lane : Nat)
  | xshflDelivery (op : Nat) (lane : Nat) (value : Dword)
  | laneExitNotice (w : WarpRef) (lane : Nat)
  | partnerScratchpadAccess (op : Nat)
  -- launches, placement and issue
  | launchCommand (die slot : Nat) (index : Dword)
  | nullCommand (die slot : Nat) (index : Dword)
  | teamPlace (die : Nat)
  | priorityAging (launch die : Nat)
  | reservationTimeout (die : Nat)
  | preemptDrainDeadline (request : Nat)
  | preemptSaveDeadline (request : Nat)
  | warpIssueSelect (core quad : Nat)
  | forcedDemotionTimeout (core quad : Nat)
  | parkCountExpiry (s : SplitRef)
  | eventChangeApply (ctx event : Nat) (n : Word)
  | pubvApply (op : Nat)
  | stoprefApply (ctx event : Nat)
  | vchkRead (op : Nat)
  | consumerFire (launch : Nat)
  | ownerRetire (launch : Nat)
  | commandSettle (launch : Nat)
  | queueBindPending (ctx qid : Nat)
  | queueCommandPull (die slot : Nat)
  | teamHalt (team : Nat)
  | teamSave (team : Nat)
  | teamRestore (team : Nat)
  | warpRelease (w : WarpRef)
  | hangReport (w : WarpRef)
  | powerGate (core : Nat)
  | coreWake (core : Nat)
  -- control (0x00 to 0x0B)
  | nop (f : CF) | bra (f : CF) | brx (f : CF) | call (f : CF) | callx (f : CF) | enter (f : CF) | leave (f : CF)
  | ret (f : CF) | exit (f : CF) | waitm (f : CF) | yield (f : CF) | brk (f : CF)
  -- integer, logic and bit fields (0x10 to 0x2C)
  | mov (f : VF) | movi (f : VF) | sel (f : VF) | iadd (f : VF) | isub (f : VF) | iaddc (f : VF) | isubb (f : VF)
  | imul (f : VF) | imulh (f : VF) | imad (f : VF) | imadw (f : VF) | imin (f : VF) | imax (f : VF) | iabs (f : VF)
  | ineg (f : VF) | idot4 (f : VF) | lop3 (f : VF) | shl (f : VF) | shr (f : VF) | sha (f : VF) | rot (f : VF)
  | fshf (f : VF) | bfe (f : VF) | bfi (f : VF) | popc (f : VF) | clz (f : VF) | brev (f : VF) | idiv (f : VF)
  | irem (f : VF)
  -- floating point and conversions (0x30 to 0x44)
  | fadd (f : VF) | fsub (f : VF) | fmul (f : VF) | ffma (f : VF) | fmin (f : VF) | fmax (f : VF) | frcp (f : VF)
  | frsq (f : VF) | fsqrt (f : VF) | fdiv (f : VF) | fexp2 (f : VF) | flog2 (f : VF) | fsin (f : VF) | fcos (f : VF)
  | ftanh (f : VF) | fscale (f : VF) | fclass (f : VF) | frnd (f : VF) | cvt (f : VF) | pack (f : VF) | unpack (f : VF)
  -- predicates and work across lanes (0x50 to 0x56)
  | setp (f : VF) | plop (f : VF) | vote (f : VF) | shfl (f : VF) | wred (f : VF) | wscan (f : VF) | xshfl (f : VF)
  -- lane loads and stores, atomics (0x60 to 0x67)
  | ld (f : MF) | st (f : MF) | stT (f : MF) | ldu (f : MF) | pref (f : MF) | discard (f : MF)
  | atom (f : MF) | atomT (f : MF) | atomc (f : MF) | atomcT (f : MF) | red (f : MF)
  -- keys (0x70 to 0x77)
  | kcopy (f : MF) | kjoin (f : MF) | kclr (f : MF) | kwait (f : MF) | kpoll (f : MF) | fence (f : MF) | ksend (f : MF)
  | krecv (f : MF)
  -- copies (0x78 to 0x7C)
  | cpy (f : MF) | cpyt (f : MF) | cpyr (f : MF) | cpyf (f : MF) | cpyqQuery (f : MF) | cpyqCancel (f : MF)
  -- lockets (0x80 to 0x84)
  | mint (f : MF) | rwr (f : MF) | rwrb (f : MF) | empty (f : MF) | emptyMask (f : MF) | fullq (f : MF)
  -- the matrix engine (0x88 to 0x8F)
  | torcTake (f : MF) | torcPass (f : MF) | slotClaim (f : MF) | slotRelease (f : MF) | accz (f : MF) | accld (f : MF)
  | mma (f : XF) | accrd (f : MF) | drain (f : MF) | accqStatus (f : MF) | accqRsum (f : MF)
  -- barriers, launches, events and queues (0x90 to 0x96)
  | barArrive (f : MF) | barWait (f : MF) | barSync (f : MF) | spawn (f : MF) | evsig (f : MF) | evwait (f : MF)
  | qpush (f : MF) | qpop (f : MF) | qkick (f : MF)
  -- versioned results (0x97 to 0x99)
  | pubv (f : MF) | pubvFinal (f : MF) | stopref (f : MF) | vchk (f : MF) | vchkX (f : MF)
  -- system (0xA0 to 0xA2)
  | trap (f : MF) | csrr (f : MF) | csrw (f : MF) | csrwIndclr (f : MF)
  -- steps the table lists last
  | spawnRequest (s : SplitRef) (addr : Dword)
  | eventWaiterEntry (s : SplitRef) (ctx event : Nat) (threshold : Word)
  | sliceWriteBackComplete (home : Nat) (line : Nat)
  | flitReplay (port : Nat) (flit : Nat)
  | instructionFetch (s : SplitRef)
  -- inputs from outside whose content waits in the State's own queues (the head of the queue of received datagrams or
  -- of received packets, the package itself); they stand last because Lean's runtime numbers constructors that carry
  -- data only up to 244
  | packageReset
  | thermalTrip
  | gctHello
  | gctAuth
  | gctData
  | gctAck
  | gctClose
  | fabricStreamResetReceived
  | fabricRead
  | fabricWrite
  | fabricAtomic
  | fabricRwrite
  | fabricToken
  | fabricKick
  | fabricReplyArrival
  | targetPackageReset
  | streamResetAck
deriving DecidableEq, Repr

end Sys2Proof
end

