-- ==== Sys2Proof/Config.lean ====
section
/-! DEFINITION. The free values: what the spec leaves open, as constants without a body. Nothing can evaluate one or
prove a value of one, so a statement that holds of the machine holds whatever they are. Those that take a number are
applied to the State's own counter of free values, so that each use is a fresh one. -/

namespace Sys2Proof.Config

/-- A contained result (R4) or another unspecified value; the machine takes as many of its bits as it needs. -/
opaque freeValue : Nat → Nat

/-- An unspecified byte of a store that starts with contained results: a scratchpad region, an operand slot, a tile, a
row that enters the window range (R142, R268, R299). First the number of the store, then the byte's or word's place. -/
opaque freeByte : Nat → Nat → Nat

/-- Which of several possible next steps comes first where no rule orders them (R19, R23, R117). -/
opaque pick : Nat → Nat

/-- What ECC finds when a line is read from memory (R58): 0 nothing, 1 an error that it corrects, 2 one that it cannot. -/
opaque eccError : Nat → Nat

/-- The cycles that one step takes (R7); the model has no cycle times. -/
opaque cycles : Nat → Nat

/-- The value of an approximate function (R256): function number, operand bits, FTZ. The machine keeps it only where
it lies within the bound of R256. -/
opaque approx : Nat → Nat → Bool → Nat

/-- The per-boot signet secret of the n-th reset (R212). -/
opaque bootSecret : Nat → BitVec 256

/-- The device's 32-byte nonce of the n-th handshake (R371). -/
opaque deviceNonce : Nat → List Byte

/-- The key digest fused at manufacture (R417). -/
opaque fusedKeyDigest : List Byte

/-- The identity public key of the package, 1,312 bytes (R419). -/
opaque identityKey : List Byte

/-- The ML-DSA-44 signature by the identity key over a digest (R419). -/
opaque identitySign : List Byte → List Byte

/-- ML-DSA-44 verification: public key, message, signature (R366, R417). -/
opaque mldsaVerify : List Byte → List Byte → List Byte → Bool

/-- The ML-KEM-768 encapsulation key of the n-th handshake (R371). -/
opaque mlkemKey : Nat → List Byte

/-- The ML-KEM-768 shared secret that the n-th handshake's key decapsulates from a ciphertext (R371). -/
opaque mlkemDecap : Nat → List Byte → List Byte

/-- AES-256-GCM opening: key, nonce, associated data, ciphertext with its tag; none where the tag is wrong (R370). -/
opaque gcmOpen : List Byte → List Byte → List Byte → List Byte → Option (List Byte)

/-- AES-256-GCM sealing: key, nonce, associated data, plaintext (R370). -/
opaque gcmSeal : List Byte → List Byte → List Byte → List Byte → List Byte

/-- The enrolled host keys, by key index 0 to 7: public key and whether it is privileged (R366). -/
opaque hostKey : Nat → Option (List Byte × Bool)

/-- The MAC address of the Ethernet port, and the hop limit of the IPv6 packets that it sends (R365). -/
opaque portMac : BitVec 48
opaque hopLimit : Byte

/-- The physical address of the first queue record: those of a die's 64 slots follow each other, and die by die (R375,
R380). -/
opaque queueRecords : BitVec 42

/-- The port that the hash of a physical line number chooses among those of a route mask (R358). -/
opaque portHash : Nat → Nat

/-- The minimum SVN fused before power-on (R417). -/
opaque fusedMinimum : Word

/-- The command-core firmware image that the part has stored at power-on (R1, R417). -/
opaque bootFirmware : FwImage

end Sys2Proof.Config
end

