-- ==== Sys2Proof/Machine/Keccak.lean ====
section
/-! DEFINITION. The Keccak sponge: SHA3-256 (R366, R417, R419) and KMAC128 (R212), as FIPS 202 and NIST SP 800-185
define them. A state is its 25 lanes, lane x + 5y at place x + 5y. -/

namespace Sys2Proof.Machine

/-- The round constants of Keccak-f[1600]. -/
def keccakRC : List Nat :=
  [0x0000000000000001, 0x0000000000008082, 0x800000000000808A, 0x8000000080008000, 0x000000000000808B,
   0x0000000080000001, 0x8000000080008081, 0x8000000000008009, 0x000000000000008A, 0x0000000000000088,
   0x0000000080008009, 0x000000008000000A] ++
  [0x000000008000808B, 0x800000000000008B, 0x8000000000008089, 0x8000000000008003, 0x8000000000008002,
   0x8000000000000080, 0x000000000000800A, 0x800000008000000A, 0x8000000080008081, 0x8000000000008080,
   0x0000000080000001, 0x8000000080008008]

/-- The rotation of each lane. -/
def keccakRot : List Nat :=
  [0, 1, 62, 28, 27, 36, 44, 6, 55, 20, 3, 10, 43] ++ [25, 39, 41, 45, 15, 21, 8, 18, 2, 61, 56, 14]

def rotl64 (x n : Nat) : Nat := (x * 2 ^ n) % 2 ^ 64 + x / 2 ^ (64 - n)

/-- One round. -/
def keccakRound (a : List Nat) (rc : Nat) : List Nat :=
  let at_ := fun (l : List Nat) (i : Nat) => l.getD i 0
  let c := (List.range 5).map (fun x => (List.range 5).foldl (fun r y => Nat.xor r (at_ a (x + 5 * y))) 0)
  let d := (List.range 5).map (fun x => Nat.xor (at_ c ((x + 4) % 5)) (rotl64 (at_ c ((x + 1) % 5)) 1))
  let b0 := (List.range 25).map (fun i => rotl64 (Nat.xor (at_ a i) (at_ d (i % 5))) (at_ keccakRot i))
  let b := (List.range 25).map (fun i => at_ b0 ((i % 5 + 3 * (i / 5)) % 5 + 5 * (i % 5)))
  (List.range 25).map (fun i =>
    let y := 5 * (i / 5)
    let v := Nat.xor (at_ b i)
      (Nat.land (2 ^ 64 - 1 - at_ b ((i + 1) % 5 + y)) (at_ b ((i + 2) % 5 + y)))
    if i = 0 then Nat.xor v rc else v)

def keccakF (a : List Nat) : List Nat := keccakRC.foldl keccakRound a

/-- The number of eight bytes, lowest first. -/
def laneOf : List Byte → Nat
  | [] => 0
  | b :: bs => b.toNat + 256 * laneOf bs

/-- One block of rate bytes taken in. -/
def absorbBlock (a : List Nat) (blk : List Byte) : List Nat :=
  keccakF (a.zipIdx.map (fun e => Nat.xor e.1 (laneOf ((blk.drop (8 * e.2)).take 8))))

def absorb (rate : Nat) : Nat → List Nat → List Byte → List Nat
  | 0, a, _ => a
  | n + 1, a, bs => absorb rate n (absorbBlock a (bs.take rate)) (bs.drop rate)

/-- The first n bytes, n no more than the rate, of the sponge over a message with a domain suffix. -/
def keccakHash (rate : Nat) (suffix : Byte) (n : Nat) (msg : List Byte) : List Byte :=
  let pad := rate - msg.length % rate
  let tail := if pad = 1 then [suffix ^^^ 0x80#8] else suffix :: (List.replicate (pad - 2) 0 ++ [0x80#8])
  let bs := msg ++ tail
  let st := absorb rate (bs.length / rate) (List.replicate 25 0) bs
  (List.range n).map (fun k => BitVec.ofNat 8 (st.getD (k / 8) 0 / 256 ^ (k % 8)))

/-- SHA3-256. -/
def sha3_256 (msg : List Byte) : List Byte := keccakHash 136 6 32 msg

/-- left_encode of SP 800-185 for numbers below 2^16. -/
def leftEncode (n : Nat) : List Byte :=
  if n < 256 then [1, BitVec.ofNat 8 n] else [2, BitVec.ofNat 8 (n / 256), BitVec.ofNat 8 n]

def rightEncode (n : Nat) : List Byte :=
  if n < 256 then [BitVec.ofNat 8 n, 1] else [BitVec.ofNat 8 (n / 256), BitVec.ofNat 8 n, 2]

def encodeString (bs : List Byte) : List Byte := leftEncode (8 * bs.length) ++ bs

def bytepad (bs : List Byte) (w : Nat) : List Byte :=
  let z := leftEncode w ++ bs
  z ++ List.replicate ((w - z.length % w) % w) 0

/-- KMAC128 of a key, data, n output bytes and a customisation string. -/
def kmac128 (key msg : List Byte) (n : Nat) (custom : List Byte) : List Byte :=
  keccakHash 168 4 n
    (bytepad (encodeString [0x4B, 0x4D, 0x41, 0x43] ++ encodeString custom) 168 ++ bytepad (encodeString key) 168
      ++ msg ++ rightEncode (8 * n))

end Sys2Proof.Machine
end

