-- ==== Sys2Proof/Machine/Tab.lean ====
section
/-! DEFINITION. A sparse table: the plain-data form in which the machine holds anything indexed by a number
(registers, lines, teams). A number that is not listed reads as the table's default. Keys rise; a write never
drops an entry, so a free value can stand in a table. -/

namespace Sys2Proof.Machine

/-- A sparse table of values by number. -/
abbrev Tab (α : Type) := List (Nat × α)

/-- The entry of k, if one is listed. -/
def Tab.find? {α : Type} : Tab α → Nat → Option α
  | [], _ => none
  | (k', v) :: t, k => if k' = k then some v else Tab.find? t k

/-- The value at k; d where nothing is listed. -/
def Tab.get {α : Type} (d : α) (t : Tab α) (k : Nat) : α := (Tab.find? t k).getD d

/-- t with v at k: the first entry of k replaced, or a new one put before the first larger key. -/
def Tab.set {α : Type} : Tab α → Nat → α → Tab α
  | [], k, v => [(k, v)]
  | (k', v') :: t, k, v =>
    if k' = k then (k, v) :: t
    else if k < k' then (k, v) :: (k', v') :: t
    else (k', v') :: Tab.set t k v

/-- t without any entry of k. -/
def Tab.erase {α : Type} (t : Tab α) (k : Nat) : Tab α := t.filter (fun e => e.1 ≠ k)

/-- t with the value at k changed by f, read as d where nothing is listed. -/
def Tab.modify {α : Type} (d : α) (t : Tab α) (k : Nat) (f : α → α) : Tab α := t.set k (f (t.get d k))

/-- t with the listed value at k changed by f; t itself where nothing is listed. -/
def Tab.adjust {α : Type} (t : Tab α) (k : Nat) (f : α → α) : Tab α :=
  match t.find? k with
  | some v => t.set k (f v)
  | none => t

/-- The listed values, in key order. -/
def Tab.values {α : Type} (t : Tab α) : List α := t.map (·.2)

/-- The listed keys. -/
def Tab.keys {α : Type} (t : Tab α) : List Nat := t.map (·.1)

/-- The lowest number from n on that is not listed, among fuel candidates. -/
def Tab.freeFrom {α : Type} (t : Tab α) : Nat → Nat → Nat
  | 0, n => n
  | fuel + 1, n => if (t.find? n).isSome then t.freeFrom fuel (n + 1) else n

/-- A number that is not listed: one above the largest key. -/
def Tab.fresh {α : Type} (t : Tab α) : Nat := t.foldl (fun m e => max m (e.1 + 1)) 0

/-- The keys rise strictly. -/
def Tab.sorted {α : Type} : Tab α → Bool
  | [] => true
  | [_] => true
  | (k, _) :: (k', v') :: t => k < k' && Tab.sorted ((k', v') :: t)

end Sys2Proof.Machine
end

