-- ==== Sys2Proof/Machine/State.lean ====
section
/-! DEFINITION. Everything the spec gives the machine, as plain data, and the machine right after package reset
(R416). Numbering follows R13: die d is 0 to 3, core 16d + c, pair 8d + i, slice 512d + s, engine 12d + n, port
16d + n. Times are cycles of R7. -/

namespace Sys2Proof.Machine

/-- Memory: listed bytes, addresses rising, no listed byte 0. -/
abbrev Memory := List Host.Cell

/-! ## A warp's registers, keys and splits -/

/-- One row of the register file (R200): its full bit and its lanes' words. A lane that is not listed reads as 0 when
seed is 0, and as the contained results of that seed otherwise (R204, R299). -/
structure Row where
  full : Bool := true
  seed : Nat := 0
  vals : Tab Word := []
deriving DecidableEq, Repr, Inhabited

/-- One scalar register (R39) with its full bit (R42). -/
structure SReg where
  full : Bool := true
  val : Dword := 0
deriving DecidableEq, Repr, Inhabited

/-- A leading completion count with the completions held ahead of it (R96). -/
structure Count where
  lead : BitVec 16 := 0
  early : List (BitVec 16) := []
deriving DecidableEq, Repr, Inhabited

/-- One key of the key file (R92); c is indexed by scope code, t by key number. codes holds the failure codes of
completions not yet taken into the leading count (R103). -/
structure Key where
  p : BitVec 16 := 0
  c : Tab Count := []
  t : Tab (BitVec 16) := []
  l : BitVec 32 := 0
  stat : BitVec 32 := 0
  codes : List (BitVec 16 × Nat) := []
deriving DecidableEq, Repr, Inhabited

/-- One FENCE class: its issue count and its leading completion count at each scope (R92, R111). -/
structure FClass where
  q : BitVec 16 := 0
  d : Tab Count := []
deriving DecidableEq, Repr, Inhabited

/-- A pending fence point (R112). -/
structure FenceSlot where
  scope : Nat := 0
  pred : BitVec 7 := 0
  succ : BitVec 7 := 0
  n : Tab (BitVec 16) := []
deriving DecidableEq, Repr, Inhabited

/-- A path (R294). -/
structure Path where
  pc : BitVec 32 := 0
  mask : Mask := 0
  b : Nat := 0
  e : Nat := 2
  depth : Nat := 0
deriving DecidableEq, Repr, Inhabited

/-- An entry of a path stack (R294): rjpc none means no rejoin point. -/
structure Entry where
  path : Path := {}
  rjpc : Option (BitVec 32) := none
  arrived : Bool := false
deriving DecidableEq, Repr, Inhabited

/-- What a split waits for when it does not compete for issue. -/
inductive Wait where
  | none
  /-- parked on a watch (R311); the predicate is written when it ends -/
  | watch (pred : Nat) (id : Nat)
  /-- parked on an event's threshold (R339) -/
  | event (ctx event : Nat) (t : Word)
  /-- waits on a barrier phase (R336) -/
  | barrier (b : Nat) (phase : BitVec 32)
  /-- waits on the reply of the operation: EMPTY, QPUSH, QPOP, PUBV, VCHK, MINT, cancel -/
  | reply (op : Nat)
  /-- waits on the dispatcher's answer to SPAWN (R337) -/
  | spawn
  /-- waits on a grant of the torc (R279) -/
  | torc
  /-- waits on a slot claim (R280) -/
  | slot (weight : Bool) (n : Nat)
  /-- waits on a constant line (R146) or on an instruction fetch -/
  | line
  /-- waits on table walks for these 64 KiB pages (R69) -/
  | walk (pages : List Nat)
  /-- CALL or ENTER waits until the ring has room for its new frame (R299) -/
  | grow (base top : Nat)
deriving DecidableEq, Repr, Inhabited

/-- A trap or fault with what the fault record says of it (R385). -/
structure Trap where
  cls : Nat := 0
  code : Nat := 0
  addr : Dword := 0
  lmask : Mask := 0
  aux : Dword := 0
  pc : BitVec 32 := 0
deriving DecidableEq, Repr, Inhabited

/-- A translation (R61 to R65) as a TLB holds it. -/
structure Trans where
  page : Nat := 0
  node : Option (BitVec 16) := none
  rosh : Bool := false
  ctx : Bool := false
  arena : Bool := false
  home : Nat := 0
  x : Bool := false
  w : Bool := false
  r : Bool := false
  level : Nat := 1
deriving DecidableEq, Repr, Inhabited

/-- What a table walk found for a 64 KiB page, kept for a split that waited for it (R69): a leaf, or a fault's class-3 code
and AUX. -/
structure Walked where
  page : Nat := 0
  tr : Option Trans := none
  code : Nat := 0
  aux : Dword := 0
deriving DecidableEq, Repr, Inhabited

/-- The result of a walk that an event in flight uses, for a page of a context (R68, R70). -/
structure Pin where
  e : Instr
  ctx : Nat
  walked : Walked
deriving DecidableEq, Repr

/-- A split (R293, R294). -/
structure Split where
  path : Path := {}
  stack : List Entry := []
  backCount : Nat := 0
  parkCount : Nat := 0
  wait : Wait := .none
  /-- the rejoin of R296 has been settled for the instruction at the path's pc -/
  settled : Bool := false
  /-- parked at a rejoin mark (R296) -/
  park : Bool := false
  /-- first issue since a restore (R394) -/
  fresh : Bool := false
  /-- the path waits on its barrier without arriving again (R391, WAITONLY) -/
  waitOnly : Bool := false
  skid : Nat := 0
  own : Option Trap := none
  /-- an exit by VCHK.X is pending (R385) -/
  vexit : Bool := false
  /-- the place of its last issue or stall in the machine's order of issues (R327) -/
  last : Nat := 0
  /-- results of table walks that its instruction has waited for (R69) -/
  held : List Walked := []
  /-- an instruction word read from another node, with its PC (R27, R65) -/
  code : Option (BitVec 32 × InstrWord) := none
  /-- clock since when it has waited for the window engine (R299) -/
  blocked : Option Nat := none
deriving DecidableEq, Repr, Inhabited

/-- A held KSEND token (R113). -/
structure Token where
  op : Nat
  key : Nat
  scope : Nat
deriving DecidableEq, Repr, Inhabited

/-- One entry of the indeterminate-outcome list (R387). -/
structure Indet where
  node : BitVec 16 := 0
  op : Nat := 0
  fn : Nat := 0
  ty : Nat := 0
  pk : Nat := 0
  lane : Nat := 0
  pa : Nat := 0
  b : Dword := 0
  c : Dword := 0
deriving DecidableEq, Repr, Inhabited

/-- A warp (R199, R200, R293). -/
structure Warp where
  core : Nat := 0
  quad : Nat := 0
  slot : Nat := 0
  /-- byte offset of its region in the quadrant's register file (R200) -/
  region : Nat := 0
  rows : Tab Row := []
  sregs : Tab SReg := []
  /-- p1 to p7; p0 reads as ones (R29) -/
  preds : Tab Mask := []
  rmode : BitVec 3 := 0
  ftz : Bool := false
  keys : Tab Key := []
  classes : Tab FClass := []
  fences : Tab FenceSlot := []
  tokens : List Token := []
  splits : Tab Split := []
  launchMask : Mask := 0
  live : Mask := 0
  /-- the resident range (R298) -/
  lo : Nat := 0
  hi : Nat := 0
  /-- rows from hi up to this one are in the arena: the conflict rule spilled them (R299) -/
  upTo : Nat := 0
  /-- a spill or refill has faulted since the warp was last restored (R301) -/
  moveFault : Bool := false
  /-- absolute rows still to be refilled, and to be spilled (R299) -/
  refill : List Nat := []
  spill : List Nat := []
  indet : List Indet := []
  /-- XSHFL exchanges issued, by lane (R266) -/
  xchg : Tab Nat := []
  imageBase : Dword := 0
  /-- clock of the last issue of any of its splits, or of its placement (R396) -/
  timer : Nat := 0
  /-- a hang has been reported since (R397); the report is being written -/
  hung : Bool := false
  reporting : Bool := false
  active : Bool := false
  /-- when it entered the active or the pending set (R328) -/
  since : Nat := 0
  flushed : Bool := false
  marked : Bool := false
  installed : Bool := false
  /-- the anchor slice and physical base of its locket area as last translated (R87), and remote writes into its image
  between the removal of its record and the arrival of the flush marker (R88) -/
  anchor : Option (Nat × Nat) := none
  late : List (Nat × Mask × List Word) := []
  /-- flags and slot claims as its control block holds them (R391) -/
  torcFlags : Nat := 0
  claims : Dword := 0
  ended : Bool := false
  released : Bool := false
deriving DecidableEq, Repr, Inhabited

/-! ## Operations in flight -/

/-- A register that an operation fills: a physical row, or a scalar register. -/
inductive PReg where
  | row (k : Nat)
  | s (n : Nat)
deriving DecidableEq, Repr, Inhabited

/-- One lane of an operation: its virtual address, its translation and its operands. -/
structure Acc where
  lane : Nat := 0
  va : Dword := 0
  pa : Nat := 0
  /-- the node that owns the page, where it is not this one (R65) -/
  rem : Option (BitVec 16) := none
  b : Dword := 0
  b2 : Dword := 0
  c : Dword := 0
deriving DecidableEq, Repr, Inhabited

/-- One line, chunk or request of an operation. -/
structure Part where
  line : Nat := 0
  home : Nat := 0
  ctxPage : Bool := false
  /-- the owner of a REM page (R65) and the HOME field its requests carry -/
  rem : Option (BitVec 16) := none
  homeField : Nat := 0
  /-- the core's L1 comes first: the access is performed there, or finds what to ask of the home slice (R119) -/
  l1 : Bool := false
  /-- its request has left the core and holds a permit; it has been performed; its reply has reached the core (R81) -/
  sent : Bool := false
  done : Bool := false
  back : Bool := false
  /-- its request met a fault, which has been reported (R102) -/
  bad : Bool := false
  /-- what its slice has answered instead of performing it, until the reply reaches the core (R82, R91) -/
  refusal : Option Trap := none
  /-- the sequence tag returned (R86) -/
  tag : BitVec 16 := 0
  /-- its line is written in the L1 and waits for a write-back or a combine (R95) -/
  wb : Bool := false
  /-- sequence number on its fabric stream (R192) -/
  seq : Nat := 0
  /-- the line as the home slice gave it (R120) -/
  ldata : LineData := 0
  /-- its reply fills a line of the L1 (R119); it is gathered in the L1 (R186) -/
  fill : Bool := false
  gather : Bool := false
  /-- only its scope is checked at the slice (R125); that check has passed -/
  check : Bool := false
  passed : Bool := false
  /-- of a copy: the chunk that it is about (R166) -/
  chunk : Nat := 0
deriving DecidableEq, Repr, Inhabited

inductive OpKind where
  | load | store | storeT | atomic | atomc | red | pref | discard | check
  | copy | copyQuery | ksend | rwr | mint | empty
  | accz | accld | mma | accrd | drain | accq
  | qpush | qpop | pubv | vchk | xshfl | partner | kick | ev | spill | refill
  /-- a read from another node (R65): of an instruction word, of a constant line where order is 1, and of a record for a
  dispatcher, whose event is instr, where order is 2 -/
  | fetch
deriving DecidableEq, Repr, Inhabited

/-- An operation in flight: an entry of a reply table, an engine's queue or a tracker (R89, R96, R166, R276). -/
structure Op where
  kind : OpKind := .load
  instr : Instr := .packageReset
  word : InstrWord := 0
  ref : SplitRef := ⟨0, 0, 0⟩
  ctx : Nat := 0
  core : Nat := 0
  pc : BitVec 32 := 0
  pk : Nat := 0
  /-- production number in its key (R94) and in each of its FENCE classes -/
  prodn : BitVec 16 := 0
  cls : List (Nat × BitVec 16) := []
  produces : Bool := false
  scope : Nat := 0
  order : Nat := 0
  fn : Nat := 0
  ty : Nat := 0
  size : Nat := 4
  hint : Nat := 0
  lanes : List Acc := []
  parts : List Part := []
  /-- descriptor registers, signet, record payload, as the instruction read them -/
  regs : List Dword := []
  dests : List PReg := []
  /-- the lanes that all receive the one lane's result (R44, R151, R159); 0 where each lane has its own -/
  bcast : Mask := 0
  /-- result words by place 8 × lane + index in dests; a scalar result stands at lane 0 -/
  data : Tab Dword := []
  /-- completed at CORE; completed at the wider scopes; class CR counted (R95) -/
  doneCore : Bool := false
  doneWide : Bool := false
  readDone : Bool := false
  code : Nat := 0
  fault : Option Trap := none
  running : Bool := false
  /-- engine and ticket of a copy (R175) -/
  eng : Nat := 0
  ticket : Nat := 0
  /-- CDONE, rows written, exchange count (R386) -/
  prog : Nat := 0
  mask : BitVec 16 := 0
  cancelled : Bool := false
  /-- a copy that starts no further chunk: it stops at a chunk boundary (R173, R174, R179) -/
  stopping : Bool := false
  /-- a copy's place in its engine's order of acceptance (R179), the area of its core, and the claim of the destination
  slot that it was issued under (R272) -/
  entered : Nat := 0
  area : Nat := 0
  epoch : Nat := 0
  val : Dword := 0
  rm : Nat := 0
  ftz : Bool := false
  /-- of a saved warp's operation: the scopes and the predicate value that its image has still to take (R89, R104), whether
  OUTSTANDING counts it no longer, and whether its result is at hand though its image refused it (R58) -/
  owed : List Nat := []
  owedPred : Option Bool := none
  counted : Bool := false
  kept : Bool := false
deriving DecidableEq, Repr, Inhabited

/-! ## Teams, launches and contexts -/

/-- The state of one of a team's barriers (R329); lmask and wph are indexed by warp. -/
structure Barrier where
  ph : BitVec 32 := 0
  exp : Nat := 0
  cnt : Nat := 0
  amask : Mask := 0
  lmask : Tab Mask := []
  wph : Tab (BitVec 32) := []
deriving DecidableEq, Repr, Inhabited

/-- A store that starts with contained results: a byte that is not listed reads as the contained result of its seed. -/
structure Store where
  seed : Nat := 0
  bytes : Tab Byte := []
deriving DecidableEq, Repr, Inhabited

/-- An accumulator tile with its side record (R149, R150). -/
structure Tile where
  seed : Nat := 0
  words : Tab Dword := []
  rowSums : Tab Dword := []
  rsv : Bool := false
  nanf : Bool := false
  satf : Bool := false
  eovf : Bool := false
  mode : Nat := 0
  e : BitVec 16 := 0
  /-- no ACCZ or ACCLD yet: its contents are contained results -/
  fresh : Bool := true
deriving DecidableEq, Repr, Inhabited

/-- A slot's claim (R271): who holds it, by claim of a warp or free, and who waits for it. -/
structure Claim where
  holder : Option Nat := none
  waiting : List SplitRef := []
  /-- a release waits on this key state before the slot passes on (R272) -/
  releasing : Option (Nat × Nat) := none
  /-- the number of times that the slot has been released -/
  epoch : Nat := 0
deriving DecidableEq, Repr, Inhabited

/-- The team's area on one core (R390). -/
structure Area where
  scratch : Store := {}
  aslots : Tab Store := []
  wslots : Tab Store := []
  tiles : Tab Tile := []
  aclaims : Tab Claim := []
  wclaims : Tab Claim := []
  /-- first byte of the scratchpad region on the core (R322) -/
  base : Nat := 0
deriving DecidableEq, Repr, Inhabited

inductive TeamStatus where
  /-- waits in a pending list for a core: not yet placed, or saved by pre-emption -/
  | pending | restoring | running
  /-- halt raised; halt broadcast; being saved -/
  | raised | skidding | saving
  | halted
  /-- every warp released, or abandoned -/
  | ended
deriving DecidableEq, Repr, Inhabited

/-- An entry of a fault record's event list (R387). -/
structure EvEntry where
  event : Nat := 0
  kind : Nat := 0
  value : Word := 0
deriving DecidableEq, Repr, Inhabited

structure Team where
  launch : Nat := 0
  /-- linear number in the launch (R321) -/
  index : Nat := 0
  die : Nat := 0
  cores : List Nat := []
  status : TeamStatus := .pending
  warps : Tab Warp := []
  bars : Tab Barrier := []
  /-- by place in cores: 0, and 1 in a paired team -/
  areas : Tab Area := []
  /-- image slot in the save pool (R388) -/
  slot : Option Nat := none
  halt : Option (Trap × Nat × Nat) := none
  /-- STATE of the team header: 0, 1 or 2 (R389) -/
  hstate : Nat := 0
  restores : Nat := 0
  events : List EvEntry := []
  /-- breakpoints in force and the split that a single step may issue (R394, R395) -/
  bps : Tab (BitVec 32) := []
  step : Option (Nat × Nat) := none
  stepped : Bool := false
  /-- saved by pre-emption rather than by a halt, and whether it is then discarded (R393) -/
  preempted : Bool := false
  discard : Bool := false
  /-- a team exit by VCHK.X is under way (R352) -/
  vexit : Bool := false
  /-- it has an image in memory -/
  saved : Bool := false
  /-- the saving of its L1 has been started -/
  flushing : Bool := false
  /-- operations listed in its image that a restore acts on (R386) -/
  incs : List Nat := []
  oldCores : List Nat := []
  /-- the clock when it was halted (R385) -/
  haltAt : Nat := 0
  /-- another team has held its image slot beside it (R388) -/
  shared : Bool := false
  /-- a poisoned line that its restore found in its image (R58) -/
  ill : Option Nat := none
deriving DecidableEq, Repr, Inhabited

/-- A wait condition (R316). -/
structure WaitCond where
  event : Nat := 0
  mode : Nat := 0
  vmin : Word := 0
deriving DecidableEq, Repr, Inhabited

/-- A launch record (R315). -/
structure LaunchRec where
  entry : BitVec 32 := 0
  lanes : Nat := 32
  warps : Nat := 1
  paired : Bool := false
  spread : Bool := false
  prio : Nat := 0
  tx : Nat := 1
  ty : Nat := 1
  tz : Nat := 1
  ring : Nat := 64
  globals : Nat := 0
  acct : Nat := 0
  aslots : Nat := 0
  wslots : Nat := 0
  scratch : Nat := 0
  arenaBase : Dword := 0
  arenaSize : Nat := 0
  savePool : Dword := 0
  wait0 : WaitCond := {}
  wait1 : WaitCond := {}
  refine : List Nat := []
  cwBase : List Dword := []
  cwSize : List Nat := []
  param : List Dword := []
deriving DecidableEq, Repr, Inhabited

inductive Consumer where
  | waiting | running | idle | done
deriving DecidableEq, Repr, Inhabited

/-- A launch (R315 to R323, R350). -/
structure Launch where
  desc : LaunchRec := {}
  ctx : Nat := 0
  /-- the launch at the root of its tree, and its depth (R320) -/
  root : Nat := 0
  depth : Nat := 0
  /-- home die of the accepting dispatcher -/
  die : Nat := 0
  /-- of a root: its queue as (queue id, command index), DONEEV and DONEN, and the spawn-tree counter -/
  queue : Option (Nat × Nat) := none
  doneEv : Nat := 0xFFFF
  doneN : Word := 0
  counter : Nat := 0
  settled : Bool := false
  /-- every event owned in the tree since the command was accepted (R353) -/
  treeEvents : List Nat := []
  state : Consumer := .waiting
  fired : Word := 0
  /-- the VER each condition's event last fired with (R351) -/
  lastVer : Tab Nat := []
  /-- its ONCE conditions on plain events that have been met (R316, R331), and whether it is released to fire (R350) -/
  met0 : Bool := false
  met1 : Bool := false
  due : Bool := false
  owned : List Nat := []
  /-- teams placed by each die, and teams that have ended, in this instance (R321) -/
  nextTeam : Tab Nat := []
  endedTeams : Nat := 0
  /-- a team of the instance left by VCHK.X (R352) -/
  stopped : Bool := false
  /-- effective priority by die and the order in which it became pending (R323) -/
  prio : Tab Nat := []
  age : Nat := 0
  retired : Bool := false
  /-- code memory as it stood when the launch was dispatched (R27) -/
  code : Memory := []
deriving DecidableEq, Repr, Inhabited

/-- An event with its waiters (R330) and its refinement record (R345). -/
structure Event where
  count : Word := 0
  owner : Option Nat := none
  stop : Bool := false
  waiters : List (SplitRef × Word) := []
  refinable : Bool := false
deriving DecidableEq, Repr, Inhabited

/-- A user queue of a context (R375, R378). -/
structure UserQueue where
  ring : Dword := 0
  logcap : Nat := 1
  slot : Option (Nat × Nat) := none
  pending : Option Dword := none
  /-- HEAD, ERR and whether it is stopped, while no slot holds it -/
  head : Nat := 0
  err : Dword := 0
  stopped : Bool := false
deriving DecidableEq, Repr, Inhabited

/-- A context (R74, R213, R379). -/
structure Context where
  live : Bool := false
  gen : BitVec 8 := 0
  retired : Bool := false
  root : Option Nat := none
  evCount : Nat := 0
  backing : Dword := 0
  events : Tab Event := []
  /-- sessions that may act on it (R367) -/
  sessions : List Nat := []
  queues : Tab UserQueue := []
  /-- the host event ring: LOGN, session and stream, read index, write index (R379) -/
  ringLog : Option (Nat × Nat × Nat) := none
  ringRead : Nat := 0
  ringWrite : Nat := 0
deriving DecidableEq, Repr, Inhabited

/-! ## Cores, slices, dies -/

inductive L1State where
  | inv | cln | dty | uo
deriving DecidableEq, Repr, Inhabited

/-- A line of an L1 (R139); a set lists its lines from the least recent to the most recent. line is the key of lineKey. -/
structure L1Line where
  state : L1State := .inv
  line : Nat := 0
  home : Nat := 0
  ctx : Nat := 0
  data : LineData := 0
  bmask : ByteMask := 0
  kmask : BitVec 15 := 0
  scope : Nat := 0
  hint : Nat := 0
  /-- scope and instance of an update-only line, with the function and type it gathers (R91, R187) -/
  rsv : Option (Nat × Nat) := none
  fn : Nat := 0
  ty : Nat := 0
  /-- the operations whose completion at the wider scopes waits on the line -/
  ops : List Nat := []
deriving DecidableEq, Repr, Inhabited

/-- A TLB entry: context, virtual page number of the level's page size, translation. -/
structure TlbEntry where
  ctx : Nat := 0
  vpage : Nat := 0
  tr : Trans := {}
deriving DecidableEq, Repr, Inhabited

/-- A line of a constant cache: context, virtual line, contents. -/
structure ConstLine where
  ctx : Nat := 0
  vline : Nat := 0
  data : LineData := 0
deriving DecidableEq, Repr, Inhabited

/-- A miss entry of a die (R69): context, 64 KiB page, the cores and the events of engines and other agents that have
joined it, and whether a walker has it. -/
structure DieMiss where
  ctx : Nat := 0
  page : Nat := 0
  cores : List Nat := []
  events : List Instr := []
  walking : Bool := false
deriving DecidableEq, Repr, Inhabited

structure Core where
  l1 : List L1Line := []
  const : List ConstLine := []
  tlb : List TlbEntry := []
  /-- miss entries: context and 64 KiB page (R69) -/
  misses : List (Nat × Nat) := []
  /-- the torc's holder and the warps that wait for it (R269) -/
  torc : Option WarpRef := none
  torcQ : List SplitRef := []
  /-- operations of the matrix engine in issue order (R276) and DRAINs waiting for or in the drain unit -/
  matrix : List Nat := []
  /-- watches of the core's address monitors (R311) -/
  monitors : Nat := 0
  /-- clock- and power-gating (R396) -/
  powered : Bool := true
  throttled : Bool := false
deriving DecidableEq, Repr, Inhabited

inductive SliceState where
  | inv | cln | dty | busy
deriving DecidableEq, Repr, Inhabited

/-- A line of a cache slice (R84): its state, its update-only mask by core of the die, and the requests that wait for
it in arrival order. -/
structure SliceLine where
  state : SliceState := .inv
  uo : BitVec 16 := 0
  waiters : List Instr := []
  /-- while it is busy: newer than memory, and being evicted (R84) -/
  dirty : Bool := false
  leaving : Bool := false
  /-- placed first for replacement (R141) -/
  first : Bool := false
deriving DecidableEq, Repr, Inhabited

/-- A record of a sync table (R90), the most recently used last. -/
structure SyncRec where
  scope : Nat := 0
  inst : Nat := 0
  line : Nat := 0
deriving DecidableEq, Repr, Inhabited

/-- A residency record (R87): context, base of the locket area, core, warp, and the locket mask of R209. -/
structure ResRec where
  ctx : Nat := 0
  base : Nat := 0
  core : Nat := 0
  warp : WarpRef := ⟨0, 0⟩
  mask : BitVec 32 := 0
deriving DecidableEq, Repr, Inhabited

/-- A watch held at a slice (R311). -/
structure Watch where
  id : Nat := 0
  split : SplitRef := ⟨0, 0, 0⟩
  core : Nat := 0
  line : Nat := 0
deriving DecidableEq, Repr, Inhabited

/-- A posting of one lane of an exchange in a reflector slice's exchange buffer: its count and value (R78, R266). -/
structure Posting where
  op : Nat := 0
  warp : WarpRef := ⟨0, 0⟩
  lane : Nat := 0
  count : Dword := 0
  val : Dword := 0
deriving DecidableEq, Repr, Inhabited

/-- A slice, beside the data, which the machine's one memory holds (R78, R84, R87, R90, R333). -/
structure Slice where
  lines : Tab SliceLine := []
  sync : List SyncRec := []
  res : List ResRec := []
  reserved : Nat := 0
  watches : List Watch := []
  held : List Instr := []
  /-- the exchange buffer of a reflector slice (R78): unmatched postings, and the operations whose accesses to the partner
  core's scratchpad cross it, in the order in which they came -/
  exch : List Posting := []
  crossing : List Nat := []
deriving DecidableEq, Repr, Inhabited

/-- A copy engine (R163 to R165). -/
structure Engine where
  fifo : List Nat := []
  running : List Nat := []
  ticket : Nat := 0
  /-- copies that have entered it so far -/
  accepted : Nat := 0
  /-- finished copies a query still finds: matching fields of the handle, place in the order of acceptance, status word
  (R179) -/
  retained : List (Nat × Nat × Dword) := []
deriving DecidableEq, Repr, Inhabited

/-- A hardware queue slot's record (R375) and what the owner keeps beside it. -/
structure QueueRec where
  ring : Dword := 0
  ctx : Nat := 0
  qid : Nat := 0
  logcap : Nat := 1
  state : Nat := 0
  version : BitVec 16 := 0
  head : Nat := 0
  kick : Nat := 0
  err : Dword := 0
  /-- order of its last kick -/
  last : Nat := 0
  /-- a command of it is being read or accepted, and its bytes -/
  busy : Bool := false
  cmd : List Byte := []
deriving DecidableEq, Repr, Inhabited

/-- What a command leads its core to (R369). -/
inductive GuardObject where
  | packet | ring | queueRecord | launchRecord | contextRecord
deriving DecidableEq, Repr, Inhabited

/-- An access window of a command core's guard (R369): the slot whose command it was opened for and the object, the base,
length and context, and the permissions to read, write and execute. -/
structure GuardWindow where
  slot : Nat := 0
  object : GuardObject := .packet
  base : Nat := 0
  len : Nat := 0
  ctx : Nat := 0
  r : Bool := false
  w : Bool := false
  x : Bool := false
deriving DecidableEq, Repr, Inhabited

/-- A die's replica of a queue record, as far as kicks are checked against it (R376). -/
structure Replica where
  version : BitVec 16 := 0
  bound : Bool := false
  ctx : Nat := 0
deriving DecidableEq, Repr, Inhabited

structure Die where
  tlb : List TlbEntry := []
  /-- miss entries in arrival order (R69) -/
  misses : List DieMiss := []
  /-- walk cache (R67): context, level, virtual prefix, table address -/
  walks : List (Nat × Nat × Nat × Nat) := []
  engines : Tab Engine := []
  queues : Tab QueueRec := []
  /-- launches in the dispatcher's pending list, and saved teams in it (R323, R326) -/
  pending : List Nat := []
  savedTeams : List Nat := []
  lastCore : Nat := 15
  /-- the launch whose next team the dispatcher is placing, the entries passed over in this scan, by launch and saved team, and
  the image slots to be freed: context, pool and slot (R322, R323, R388) -/
  placing : Option Nat := none
  skip : List (Nat × Option Nat) := []
  freeing : List (Nat × Dword × Nat) := []
  /-- the reserved core, or pair's first core, with its launch and the clock it was made (R324) -/
  reservation : Option (Nat × Nat × Nat) := none
  routes : Tab (BitVec 16) := []
  foreignKicks : Nat := 0
  /-- the open access windows of its command cores (R369) -/
  guard : List GuardWindow := []
  /-- the valid replicas of queue records, by 64 times the owning die plus the slot (R376) -/
  replicas : Tab Replica := []
  /-- the resident events of its event table: context and event, the least recently used first (R330) -/
  resident : List (Nat × Nat) := []
deriving DecidableEq, Repr, Inhabited

/-! ## The fabric and the host -/

/-- A request sent on a fabric stream and not yet answered (R192, R363), with the die that it left from. -/
structure Unacked where
  seq : Nat := 0
  die : Nat := 0
  pkt : Packet
  op : Nat := 0
  part : Nat := 0
  retries : Nat := 0
deriving DecidableEq, Repr

/-- The ends of the streams to and from one node (R192, R363). -/
structure Stream where
  nextSeq : Nat := 0
  /-- how often the numbering of the stream to the node has begun again (R363) -/
  epoch : Nat := 0
  unacked : List Unacked := []
  /-- the numbering of the requests received: none until the first one after a break at this end -/
  inEpoch : Option Nat := none
  /-- requests received: the last 4,096 numbers applied, and the last 64 replies (R192) -/
  seen : List Nat := []
  replies : List Packet := []
  used : Bool := false
deriving DecidableEq, Repr, Inhabited

/-- One of the 256 exports (R359). -/
structure Export where
  any : Bool := false
  src : BitVec 16 := 0
  base : Nat := 0
  size : Nat := 0
  r : Bool := false
  w : Bool := false
  a : Bool := false
deriving DecidableEq, Repr, Inhabited

/-- A flit received on a link: its number, its packet and whether it is the packet's last, and whether its CRC is right. -/
structure Flit where
  num : Nat
  pkt : Packet
  last : Bool := true
  ok : Bool := true
deriving DecidableEq, Repr

/-- One direction of a Frauk link (R362): the flit last asked for again, and how often in a row. -/
structure Repeats where
  flit : Nat := 0
  times : Nat := 0
deriving DecidableEq, Repr, Inhabited

/-- The flit is asked for once more. -/
def Repeats.again (r : Repeats) (flit : Nat) : Repeats := ⟨flit, if r.flit = flit then r.times + 1 else 1⟩

/-- 16 replays of one flit in a row have failed: it has been asked for 17 times (R362). -/
def Repeats.over (r : Repeats) : Bool := 16 < r.times

/-- A Frauk port (R357, R362). -/
structure Port where
  up : Bool := false
  /-- sending: the flits in the replay buffer, by number, and the number of the next; the other end's requests for replay -/
  buffer : List (Nat × Packet) := []
  nextFlit : Nat := 0
  sent : Repeats := {}
  /-- receiving: flits that have come in and have not been passed upward, and the number of the next; this end's requests for
  replay, by the flit that each begins at -/
  rx : List Flit := []
  rxNext : Nat := 0
  received : Repeats := {}
  asks : List Nat := []
deriving DecidableEq, Repr, Inhabited

/-- A handshake begun by HELLO (R371). -/
structure Hello where
  body : List Byte := []
  reply : List Byte := []
  keyIndex : Nat := 0
  number : Nat := 0
deriving DecidableEq, Repr, Inhabited

/-- One stream of a session (R372). -/
structure HostStream where
  inSeq : Nat := 0
  ahead : List Datagram := []
  outSeq : Nat := 0
  unacked : List Datagram := []
deriving DecidableEq, Repr, Inhabited

structure Session where
  src : Nat := 0
  key : List Byte := []
  priv : Bool := false
  streams : Tab HostStream := []
deriving DecidableEq, Repr, Inhabited

/-- A station on the Ethernet link that a datagram has come from: MAC address, 802.1Q tag, IPv6 address, UDP port, and
the device's address that it used (R365). -/
structure Peer where
  mac : List Byte := []
  tag : Option (List Byte) := none
  addr : List Byte := []
  port : Nat := 0
  here : List Byte := []
deriving DecidableEq, Repr, Inhabited

/-- A host access in flight (R75): its command, direction, parts and data, and the context whose tables translated it. -/
structure HostAcc where
  cmd : Cmd := ⟨0, 0, 0⟩
  opc : Nat := 0
  ctx : Option Nat := none
  write : Bool := false
  addr : Nat := 0
  /-- physical byte addresses in order -/
  bytes : List Nat := []
  parts : List Part := []
  data : List Byte := []
  got : Tab Byte := []
  /-- the fault that one of its requests met -/
  fault : Nat := 0
deriving DecidableEq, Repr, Inhabited

/-- A pre-emption under way (R393). -/
structure Preempt where
  ctx : Nat := 0
  cores : List Nat := []
  destroy : Option Cmd := none
  saving : Bool := false
deriving DecidableEq, Repr, Inhabited

/-- A command of the host waiting for its effect to be complete before it is answered: shootdown, destroy, stream
reset. -/
structure Waiting where
  cmd : Cmd := ⟨0, 0, 0⟩
  opc : Nat := 0
  ctx : Nat := 0
  node : BitVec 16 := 0
  /-- the operations, host accesses and other events that a shootdown waits for -/
  ops : List Nat := []
  accs : List Nat := []
  events : List Instr := []
deriving DecidableEq, Repr, Inhabited

/-! ## Requests on the networks -/

/-- The requesters of R81. -/
inductive Requester where
  /-- lane operations, spills, refills and image writes of a core -/
  | core (c : Nat)
  /-- a core's returns that answer a recall -/
  | recall (c : Nat)
  /-- a copy engine, by its number in the package -/
  | engine (e : Nat)
  /-- the table walkers of a die -/
  | walker (die : Nat)
  /-- Frauk and host ingress of a die -/
  | ingress (die : Nat)
  /-- context engine, dispatcher and command cores of a die -/
  | command (die : Nat)
deriving DecidableEq, Repr

/-- How far a request has come: on its way to its slice, at the slice, on its way back as a reply, or done, the reply
having reached the requester. -/
inductive Stage where
  | going | there | back | done
deriving DecidableEq, Repr

/-- What a request is for: the line, or the first of some lines of one 16 KiB block, and their home slice. -/
structure Stop where
  home : Nat
  line : Nat := 0
  span : Nat := 1
deriving DecidableEq, Repr, Inhabited

/-- A request that has left its requester. It holds a permit until its reply arrives (R20, R81). Its number is one that no
operation has. -/
structure Trip where
  id : Nat
  e : Instr
  who : Requester
  stop : Stop
  stage : Stage := .going
  /-- the line that the reply carries, or the bytes of a block -/
  data : LineData := 0
  bytes : List Byte := []
  /-- it met a memory error (R58) -/
  bad : Bool := false
deriving DecidableEq, Repr

def Trip.home (t : Trip) : Nat := t.stop.home
def Trip.line (t : Trip) : Nat := t.stop.line

/-- The slice has performed or refused the request. -/
def Trip.performed (t : Trip) : Bool := t.stage = .back || t.stage = .done

/-! ## The whole part -/

structure State where
  /-- the split whose instruction issues next, once WARP_ISSUE_SELECT has chosen it -/
  cur : Option SplitRef := none
  /-- events in flight, in the order they were raised: requests, replies, deliveries, timers, inputs -/
  agenda : List Instr := []
  /-- requests on the networks, in the order in which they left (R19, R80) -/
  trips : List Trip := []
  /-- translations that events in flight use: what each of them found for a page (R68, R69) -/
  pins : List Pin := []
  /-- the model's own counter of free values -/
  free : Nat := 0
  /-- cycles since package reset (R202) -/
  clock : Nat := 0
  /-- the model's own count of issues and placements, for "least recently" and "longest" -/
  tick : Nat := 0
  mem : Memory := []
  poison : List Nat := []
  /-- correctable ECC errors counted (R58) -/
  corrected : Nat := 0
  /-- the home slices through which each line has been accessed since reset (R59) -/
  homes : Tab (List Nat) := []
  tags : Tab (BitVec 16) := []
  teams : Tab Team := []
  launches : Tab Launch := []
  contexts : Tab Context := []
  cores : Tab Core := []
  slices : Tab Slice := []
  dies : Tab Die := []
  ops : Tab Op := []
  nextOp : Nat := 0
  /-- Frauk node id, once assigned (R357) -/
  nodeId : Option (BitVec 16) := none
  ports : Tab Port := []
  exports : Tab Export := []
  streams : Tab Stream := []
  txPackets : List (Nat × Packet) := []
  rxPackets : List (Nat × Packet) := []
  /-- the reply to the first of the packets received, performed at its slice, which has yet to come back to the ingress -/
  replyPacket : Option Packet := none
  /-- the Ethernet port (R365): frames received and not yet looked at, frames sent, those not accepted; the address set
  through GCT; and the stations that datagrams have come from, by source address -/
  rxFrames : List (List Byte) := []
  txFrames : List (List Byte) := []
  framesDropped : Nat := 0
  globalAddr : Option (List Byte) := none
  peers : Tab Peer := []
  /-- GCT datagrams received, sent, and dropped (R370) -/
  rxDatagrams : List Datagram := []
  txDatagrams : List Datagram := []
  dropped : Nat := 0
  hellos : Tab Hello := []
  sessions : Tab Session := []
  hostAccs : Tab HostAcc := []
  waitingCmds : List Waiting := []
  preempts : Tab Preempt := []
  /-- firmware in force, staged image and staging buffer, fused minimum SVN, recovery (R417, R418) -/
  firmware : Option FwImage := none
  stored : Option FwImage := none
  staging : Tab Byte := []
  fusedSvn : Word := 0
  recovery : Bool := false
  stopped : Bool := false
  /-- per-boot signet secret of R212 and the number of resets so far -/
  secret : BitVec 256 := 0
  boots : Nat := 0
  handshakes : Nat := 0
deriving DecidableEq, Repr

/-- Where the machine ends: only in states that no run from reset reaches. Each stop is safe: a claim about a next
state says nothing there. -/
inductive Fault where
  /-- an instruction word is executed while no split has been chosen to issue, or the chosen split does not exist;
  raised by the shared issue gate. Safe. -/
  | noIssuingSplit
  /-- an event names a unit, team, operation or request that does not exist or is of another kind; raised by the
  meanings of the events. Safe. -/
  | noSuchUnit
deriving DecidableEq, Repr

/-- What the model does not model. -/
inductive Refusal where
  /-- raised by an arm of exec that has no meaning yet. Safe. -/
  | notModelled (mnemonic : String)
deriving DecidableEq, Repr

/-- The three checks of R417. -/
def imageOk (fused : Word) (f : FwImage) : Bool :=
  sha3_256 f.key = Config.fusedKeyDigest && Config.mldsaVerify f.key (sha3_256 f.body) f.sig && fused.toNat ≤ f.svn.toNat

/-- The machine right after package reset (R416), before its firmware has accepted any session: every unit stopped or
idle, no context live, no memory listed. The boot ROM has looked at the stored image: it is in force, and the fused minimum is
its SVN, or the package is in recovery (R417, R418). -/
def State.reset : State :=
  let f := Config.bootFirmware
  let ok := imageOk Config.fusedMinimum f
  { secret := Config.bootSecret 0, firmware := if ok then some f else none, stored := some f,
    fusedSvn := if ok then f.svn else Config.fusedMinimum, recovery := !ok }

end Sys2Proof.Machine
end

