-- ==== Sys2Proof/Machine/Mem.lean ====
section
/-! DEFINITION. Memory as the home slices show it (R17, R76): one byte a physical address, little-endian words (R5),
and stores that start with contained results (R4). -/

namespace Sys2Proof.Machine

/-- What a byte of memory reads as while nothing has written it since reset (R416 leaves it unspecified). -/
def unwrittenByte : Byte := 0

/-- One byte of memory. -/
def Memory.byte : Memory → Nat → Byte
  | [], _ => unwrittenByte
  | c :: m, a => if c.1 = a then c.2 else Memory.byte m a

/-- m with byte b at address a, in canonical form. -/
def Memory.put : Memory → Nat → Byte → Memory
  | [], a, b => if b = unwrittenByte then [] else [⟨a, b⟩]
  | c :: m, a, b =>
    if a = c.1 then (if b = unwrittenByte then m else ⟨a, b⟩ :: m)
    else if a < c.1 then (if b = unwrittenByte then c :: m else ⟨a, b⟩ :: c :: m)
    else c :: Memory.put m a b

/-- The canonical form: addresses rise strictly and no listed byte is what an unlisted one reads as. -/
def Memory.wf : Memory → Bool
  | [] => true
  | [c] => c.2 ≠ unwrittenByte
  | c :: c' :: m => c.2 ≠ unwrittenByte && c.1 < c'.1 && Memory.wf (c' :: m)

/-- The bytes at a list of addresses. -/
def Memory.bytesAt (m : Memory) (as : List Nat) : List Byte := as.map m.byte

/-- n bytes from address a on. -/
def Memory.read (m : Memory) (a n : Nat) : List Byte := (List.range n).map (fun k => m.byte (a + k))

/-- m with the bytes written from address a on. -/
def Memory.write (m : Memory) (a : Nat) : List Byte → Memory
  | [] => m
  | b :: bs => Memory.write (m.put a b) (a + 1) bs

/-- The number that bytes make up, lowest first (R5). -/
def leNat : List Byte → Nat
  | [] => 0
  | b :: bs => b.toNat + 256 * leNat bs

/-- n bytes of a number, lowest first (R5). -/
def leBytes (n v : Nat) : List Byte := (List.range n).map (fun k => BitVec.ofNat 8 (v / 256 ^ k))

/-- The n-byte number at address a. -/
def Memory.nat (m : Memory) (a n : Nat) : Nat := leNat (m.read a n)

/-- m with an n-byte number at address a. -/
def Memory.putNat (m : Memory) (a n v : Nat) : Memory := m.write a (leBytes n v)

/-- The bits that bytes make up. -/
def bitsOfBytes (w : Nat) (bs : List Byte) : BitVec w := BitVec.ofNat w (leNat bs)

/-- A line's bytes as data, byte k at bits [8k+7:8k]. -/
def Memory.line (m : Memory) (line : Nat) : LineData := bitsOfBytes 1024 (m.read (128 * line) 128)

/-- Byte k of line data. -/
def lineByte (d : LineData) (k : Nat) : Byte := d.extractLsb' (8 * k) 8

/-- d with byte b at place k. -/
def lineSetByte (d : LineData) (k : Nat) (b : Byte) : LineData :=
  (d &&& ~~~ (BitVec.ofNat 1024 (255 * 2 ^ (8 * k)))) ||| BitVec.ofNat 1024 (b.toNat * 2 ^ (8 * k))

/-- m with the bytes of a line that a byte mask selects, from place k on for fuel bytes. -/
def Memory.mergeLine (m : Memory) (line : Nat) (d : LineData) (bm : ByteMask) : Nat → Nat → Memory
  | 0, _ => m
  | n + 1, k =>
    Memory.mergeLine (if bm.getLsbD k then m.put (128 * line + k) (lineByte d k) else m) line d bm n (k + 1)

/-- m with a whole line's masked bytes written. -/
def Memory.putLine (m : Memory) (line : Nat) (d : LineData) (bm : ByteMask) : Memory := m.mergeLine line d bm 128 0

/-- One byte of a store that started with contained results. -/
def Store.byte (st : Store) (k : Nat) : Byte :=
  (st.bytes.find? k).getD (BitVec.ofNat 8 (Config.freeByte st.seed k))

def Store.putByte (st : Store) (k : Nat) (b : Byte) : Store := { st with bytes := st.bytes.set k b }

def Store.read (st : Store) (a n : Nat) : List Byte := (List.range n).map (fun k => st.byte (a + k))

def Store.write (st : Store) (a : Nat) : List Byte → Store
  | [] => st
  | b :: bs => Store.write (st.putByte a b) (a + 1) bs

/-- One lane's word of a row. -/
def Row.lane (r : Row) (l : Nat) : Word :=
  (r.vals.find? l).getD (if r.seed = 0 then 0 else BitVec.ofNat 32 (Config.freeByte r.seed l))

def Row.putLane (r : Row) (l : Nat) (v : Word) : Row := { r with vals := r.vals.set l v }

/-- One word of a tile. -/
def Tile.word (t : Tile) (k : Nat) : Dword :=
  (t.words.find? k).getD (if t.seed = 0 then 0 else BitVec.ofNat 64 (Config.freeByte t.seed k))

/-- A fresh free value and the state that has used it (R4). -/
def State.fresh (s : State) : Nat × State := (Config.freeValue s.free, { s with free := s.free + 1 })

/-- A fresh seed for a store of contained results; never 0. -/
def State.freshSeed (s : State) : Nat × State := (s.free + 1, { s with free := s.free + 1 })

/-- A choice that no rule makes: one of n, and the state that has made it. -/
def State.choose (s : State) (n : Nat) : Nat × State :=
  if n ≤ 1 then (0, s) else (Config.pick s.free % n, { s with free := s.free + 1 })

end Sys2Proof.Machine
end

