-- ==== Sys2Proof/Machine/Access.lean ====
section
/-! DEFINITION. Reading and changing parts of the state by number, and what an instruction that issues sees: its
split, warp, team and launch (R293, R294), and the registers in its window (R199 to R202). -/

namespace Sys2Proof.Machine

/-! ## Parts of the state -/

def State.modTeam (s : State) (t : Nat) (f : Team → Team) : State := { s with teams := s.teams.adjust t f }

def State.modWarp (s : State) (w : WarpRef) (f : Warp → Warp) : State :=
  s.modTeam w.team (fun t => { t with warps := t.warps.adjust w.warp f })

def warpOf (r : SplitRef) : WarpRef := ⟨r.team, r.warp⟩

def State.modSplit (s : State) (r : SplitRef) (f : Split → Split) : State :=
  s.modWarp (warpOf r) (fun w => { w with splits := w.splits.adjust r.split f })

def State.team? (s : State) (t : Nat) : Option Team := s.teams.find? t

def State.warp? (s : State) (w : WarpRef) : Option Warp := (s.team? w.team).bind (·.warps.find? w.warp)

def State.split? (s : State) (r : SplitRef) : Option Split := (s.warp? (warpOf r)).bind (·.splits.find? r.split)

def State.core (s : State) (c : Nat) : Core := s.cores.get {} c
def State.modCore (s : State) (c : Nat) (f : Core → Core) : State := { s with cores := s.cores.modify {} c f }
def State.die (s : State) (d : Nat) : Die := s.dies.get {} d
def State.modDie (s : State) (d : Nat) (f : Die → Die) : State := { s with dies := s.dies.modify {} d f }
def State.slice (s : State) (h : Nat) : Slice := s.slices.get {} h
def State.modSlice (s : State) (h : Nat) (f : Slice → Slice) : State := { s with slices := s.slices.modify {} h f }
def State.context (s : State) (c : Nat) : Context := s.contexts.get {} c
def State.modContext (s : State) (c : Nat) (f : Context → Context) : State :=
  { s with contexts := s.contexts.modify {} c f }
def State.modLaunch (s : State) (l : Nat) (f : Launch → Launch) : State := { s with launches := s.launches.adjust l f }
def State.modOp (s : State) (o : Nat) (f : Op → Op) : State := { s with ops := s.ops.adjust o f }
def State.dropOp (s : State) (o : Nat) : State := { s with ops := s.ops.erase o }

/-- The slice line of a line at its home. -/
def State.sline (s : State) (home line : Nat) : SliceLine := (s.slice home).lines.get {} line
def State.modSline (s : State) (home line : Nat) (f : SliceLine → SliceLine) : State :=
  s.modSlice home (fun sl => { sl with lines := sl.lines.modify {} line f })

/-- The lines that hold one of a slice's 2,048 places, but for those on their way out (R84). -/
def Slice.staying (sl : Slice) : Tab SliceLine := sl.lines.filter (fun e => e.2.state ≠ .inv && !e.2.leaving)

/-- The places taken in a slice. -/
def Slice.taken (sl : Slice) : Nat := (sl.lines.filter (fun e => e.2.state ≠ .inv)).length

/-- A line that may be chosen for eviction. -/
def SliceLine.idle (l : SliceLine) : Bool := (l.state = .cln || l.state = .dty) && l.waiters.isEmpty

/-- A slice has a free place, or an idle line that may leave for another one. -/
def Slice.mayPlace (sl : Slice) : Bool := sl.taken < 2048 || (2048 ≤ sl.staying.length && sl.lines.any (fun e => e.2.idle))

/-- The events are raised, in this order. -/
def State.push (s : State) (es : List Instr) : State := { s with agenda := s.agenda ++ es }

/-- Drops the listed event once. -/
def State.cancel (s : State) (e : Instr) : State := { s with agenda := s.agenda.erase e }

/-! ## Lanes -/

/-- The lanes of a mask, ascending. -/
def lanesOf (m : Mask) : List Nat := (List.range 64).filter (fun l => m.getLsbD l)

/-- The lowest lane of a mask. -/
def lowLane (m : Mask) : Option Nat := (List.range 64).find? (fun l => m.getLsbD l)

/-- The mask with one lane. -/
def laneBit (l : Nat) : Mask := BitVec.ofNat 64 (2 ^ l)

/-- Lanes 0 to n − 1. -/
def firstLanes (n : Nat) : Mask := BitVec.ofNat 64 (2 ^ n - 1)

/-- The lanes of a mask for which p holds. -/
def lanesWhere (m : Mask) (p : Nat → Bool) : Mask :=
  (lanesOf m).foldl (fun acc l => if p l then acc ||| laneBit l else acc) 0

def maskCount (m : Mask) : Nat := (lanesOf m).length

/-! ## What an issuing instruction sees -/

/-- The split that issues, with its warp, team and launch. -/
structure Cx where
  ref : SplitRef
  split : Split
  warp : Warp
  team : Team
  launch : Launch
deriving DecidableEq, Repr

def State.cxOf (s : State) (r : SplitRef) : Option Cx :=
  match s.team? r.team with
  | none => none
  | some t =>
    match t.warps.find? r.warp, s.launches.find? t.launch with
    | some w, some l => (w.splits.find? r.split).map (fun sp => ⟨r, sp, w, t, l⟩)
    | _, _ => none

/-- A frame lies within the resident range (R298). -/
def Warp.holds (w : Warp) (p : Path) : Bool := w.lo ≤ p.b && p.b + p.e ≤ w.hi

/-- The frame, by its first row and its end, that a split needs and the range does not hold: a new one that its CALL or
ENTER waits for, or its running path's (R298, R299). -/
def Warp.wants (w : Warp) (sp : Split) : Option (Nat × Nat) :=
  match sp.wait with
  | .grow b t => some (b, t)
  | .none => if w.holds sp.path then none else some (sp.path.b, sp.path.b + sp.path.e)
  | _ => none

/-- A waiting split among others, behind none that has waited for a shorter time. -/
def insertBlocked (x : Nat × Split) : List (Nat × Split) → List (Nat × Split)
  | [] => [x]
  | y :: ys => if x.2.blocked.getD 0 ≤ y.2.blocked.getD 0 then x :: y :: ys else y :: insertBlocked x ys

/-- The splits that wait for the window engine, the one that has waited longest first (R299). -/
def Warp.queue (w : Warp) : List (Nat × Split) := (w.splits.filter (fun e => (w.wants e.2).isSome)).foldr insertBlocked []

/-- The split that the window engine's moves are for: the one that has waited longest, or else the lowest one. -/
def Warp.served (w : Warp) : Option (Nat × Split) := w.queue.head? <|> w.splits.head?

def Cx.path (c : Cx) : Path := c.split.path
def Cx.active (c : Cx) : Mask := c.split.path.mask
def Cx.lanes (c : Cx) : Nat := c.launch.desc.lanes
def Cx.globals (c : Cx) : Nat := c.launch.desc.globals
def Cx.ring (c : Cx) : Nat := c.launch.desc.ring
def Cx.ctx (c : Cx) : Nat := c.launch.ctx
def Cx.core (c : Cx) : Nat := c.warp.core
def Cx.wref (c : Cx) : WarpRef := warpOf c.ref
/-- The place of the warp's core among the team's areas. -/
def Cx.area (c : Cx) : Nat := if c.team.cores.head? = some c.warp.core then 0 else c.team.cores.length - 1

/-- The lanes where predicate p holds; p0 holds in every lane (R29). -/
def Warp.pred (w : Warp) (p : Nat) : Mask := if p = 0 then BitVec.allOnes 64 else w.preds.get 0 p

/-- The active lanes whose guard holds (R29). -/
def Cx.exec (c : Cx) (g : Guard) : Mask :=
  let p := c.warp.pred g.pi.toNat
  c.active &&& (if g.pn then ~~~ p else p)

/-! ## Register fields -/

def isW (n : Nat) : Bool := n < 512
def isG (n : Nat) : Bool := 512 ≤ n && n < 640
def isS (n : Nat) : Bool := 640 ≤ n && n < 704
def isSpecial (n : Nat) : Bool := 704 ≤ n && n < 768
def isVec (n : Nat) : Bool := n < 640

/-- The storage a register field names: a ring row by R200 and R298, a global row, or a scalar register. -/
def Cx.preg (c : Cx) (n : Nat) : PReg :=
  if n < 512 then .row ((c.path.b + n) % max 1 c.ring)
  else if n < 640 then .row (c.ring + (n - 512))
  else .s (n - 640)

/-- The row of a locket g(96 + j) (R200). -/
def Cx.locketRow (c : Cx) (j : Nat) : Nat := c.ring + 96 + j

/-- The register is a locket of the team (R199). -/
def Cx.isLocket (c : Cx) (n : Nat) : Bool := 608 ≤ n && n < 512 + c.globals

def Warp.row (w : Warp) (k : Nat) : Row := w.rows.get {} k
def Warp.sreg (w : Warp) (n : Nat) : SReg := w.sregs.get {} n

def Warp.full (w : Warp) : PReg → Bool
  | .row k => (w.row k).full
  | .s n => (w.sreg n).full

/-- Width in bits of the special registers that have 64 (R202). -/
def special64 (n : Nat) : Bool := n = 718 || n = 719 || n = 720 || n = 723

/-- The lockets that are full (R202, register 724). -/
def Warp.lockets (w : Warp) (ring globals : Nat) : Nat :=
  (List.range (globals - 96)).foldl (fun acc j => if (w.row (ring + 96 + j)).full then acc + 2 ^ j else acc) 0

/-- A special register's value in lane l (R202). -/
def specialVal (s : State) (c : Cx) (n l : Nat) : Nat :=
  let d := c.launch.desc
  let t := c.team.index
  if n = 704 then l
  else if n = 705 then c.ref.warp
  else if n = 706 then t % max 1 d.tx
  else if n = 707 then t / max 1 d.tx % max 1 d.ty
  else if n = 708 then t / max 1 d.tx / max 1 d.ty
  else if n = 709 then d.tx
  else if n = 710 then d.ty
  else if n = 711 then d.tz
  else if n = 712 then d.lanes
  else if n = 713 then d.warps
  else if n = 714 then c.warp.core
  else if n = 715 then c.warp.core / 2
  else if n = 716 then c.warp.core / 16
  else if n = 717 then (match s.nodeId with | some i => i.toNat + 65536 | none => 0)
  else if n = 718 then c.active.toNat
  else if n = 719 then s.clock % 2 ^ 64
  else if n = 720 then c.warp.imageBase.toNat
  else if n = 721 then c.launch.fired.toNat
  else if n = 722 then c.launch.ctx
  else if n = 723 then c.warp.launchMask.toNat
  else if n = 724 then c.warp.lockets d.ring d.globals
  else 0

/-- A register read as a 32-bit source in lane l (R39, R41, R203). -/
def readW (s : State) (c : Cx) (n l : Nat) : Word :=
  if isSpecial n then BitVec.ofNat 32 (specialVal s c n l)
  else match c.preg n with
    | .row k => (c.warp.row k).lane l
    | .s m => (c.warp.sreg m).val.setWidth 32

/-- A register or pair read as a 64-bit source in lane l (R41, R203). -/
def readD (s : State) (c : Cx) (n l : Nat) : Dword :=
  if isSpecial n then BitVec.ofNat 64 (specialVal s c n l)
  else match c.preg n with
    | .row k =>
      let hi := match c.preg (n + 1) with
        | .row k' => (c.warp.row k').lane l
        | .s _ => 0
      hi ++ (c.warp.row k).lane l
    | .s m => (c.warp.sreg m).val

/-- An s register's value by its field. -/
def readS (c : Cx) (n : Nat) : Dword := (c.warp.sreg (n - 640)).val

/-! ## Writing registers and predicates -/

/-- The executing lanes of a row take new words and the row is full (R205, R207). -/
def writeRow (w : WarpRef) (k : Nat) (m : Mask) (f : Nat → Word) (s : State) : State :=
  s.modWarp w (fun wp =>
    let r := wp.row k
    { wp with rows := wp.rows.set k ((lanesOf m).foldl (fun r l => r.putLane l (f l)) { r with full := true }) })

/-- A scalar register takes a value and is full. -/
def writeS (w : WarpRef) (n : Nat) (v : Dword) (s : State) : State :=
  s.modWarp w (fun wp => { wp with sregs := wp.sregs.set n ⟨true, v⟩ })

/-- A register's full bit is set or cleared; its value stays. -/
def setFull (w : WarpRef) (p : PReg) (b : Bool) (s : State) : State :=
  s.modWarp w (fun wp =>
    match p with
    | .row k => { wp with rows := wp.rows.set k { wp.row k with full := b } }
    | .s n => { wp with sregs := wp.sregs.set n { wp.sreg n with full := b } })

def setFulls (w : WarpRef) (ps : List PReg) (b : Bool) (s : State) : State :=
  ps.foldl (fun s p => setFull w p b s) s

/-- A 32-bit result to an s register (R41): s32 copies bit 31 up, every other type zero-extends. -/
def sOf32 (signed : Bool) (v : Word) : Dword := if signed then v.signExtend 64 else v.setWidth 64

/-- The predicate p takes v in the lanes of m; a write to p0 is discarded (R29). -/
def writePred (w : WarpRef) (p : Nat) (m : Mask) (v : Mask) (s : State) : State :=
  if p = 0 then s
  else s.modWarp w (fun wp => { wp with preds := wp.preds.set p ((wp.preds.get 0 p &&& ~~~ m) ||| (v &&& m)) })

/-- A 32-bit result, by lane, to the destination field (R41, R44); of a scalar destination lane 0's value counts. -/
def writeDst32 (c : Cx) (n : Nat) (m : Mask) (signed : Bool) (f : Nat → Word) (s : State) : State :=
  match c.preg n with
  | .row k => writeRow c.wref k m f s
  | .s j => writeS c.wref j (sOf32 signed (f ((lowLane m).getD 0))) s

/-- A 64-bit result, by lane, to the destination pair or s register (R41). -/
def writeDst64 (c : Cx) (n : Nat) (m : Mask) (f : Nat → Dword) (s : State) : State :=
  match c.preg n, c.preg (n + 1) with
  | .row k, .row k' =>
    writeRow c.wref k' m (fun l => (f l).extractLsb' 32 32) (writeRow c.wref k m (fun l => (f l).setWidth 32) s)
  | .s j, _ => writeS c.wref j (f ((lowLane m).getD 0)) s
  | .row k, .s _ => writeRow c.wref k m (fun l => (f l).setWidth 32) s

end Sys2Proof.Machine
end

