-- ==== Sys2Proof/Machine/Float.lean ====
section
/-! DEFINITION. Number formats, decoding, rounding and the exact arithmetic behind it (R224 to R235, R184, R256). A
finite value is a sign, a natural number m and an exponent e: ± m × 2^e. -/

namespace Sys2Proof.Machine

/-- A floating-point format (R224). -/
structure Fmt where
  width : Nat
  ebits : Nat
  fbits : Nat
  bias : Nat
  hasInf : Bool
deriving DecidableEq, Repr

def fmtF64 : Fmt := ⟨64, 11, 52, 1023, true⟩
def fmtF32 : Fmt := ⟨32, 8, 23, 127, true⟩
def fmtF16 : Fmt := ⟨16, 5, 10, 15, true⟩
def fmtBF16 : Fmt := ⟨16, 8, 7, 127, true⟩
def fmtE4M3 : Fmt := ⟨8, 4, 3, 7, false⟩
def fmtE5M2 : Fmt := ⟨8, 5, 2, 15, true⟩

/-- A decoded value (R225). -/
inductive FV where
  | nan
  | inf (neg : Bool)
  | fin (neg : Bool) (m : Nat) (e : Int)
deriving DecidableEq, Repr, Inhabited

/-- FTZ acts on this format (R233). -/
def Fmt.ftz (f : Fmt) : Bool := f.width ≥ 16

def Fmt.signBit (f : Fmt) (neg : Bool) : Nat := if neg then 2 ^ (f.width - 1) else 0

/-- The bits of the largest finite magnitude (R225). -/
def Fmt.maxBits (f : Fmt) : Nat := (2 ^ f.ebits - 1) * 2 ^ f.fbits - 1 + (if f.hasInf then 0 else 2 ^ f.fbits - 1)

/-- The canonical NaN (R225, R226). -/
def Fmt.nan (f : Fmt) : Nat :=
  (2 ^ f.ebits - 1) * 2 ^ f.fbits + (if f.hasInf then 2 ^ (f.fbits - 1) else 2 ^ f.fbits - 1)

def Fmt.infBits (f : Fmt) : Nat := (2 ^ f.ebits - 1) * 2 ^ f.fbits

/-- R225. -/
def Fmt.decode (f : Fmt) (x : Nat) : FV :=
  let neg := x / 2 ^ (f.width - 1) % 2 = 1
  let e := x / 2 ^ f.fbits % 2 ^ f.ebits
  let fr := x % 2 ^ f.fbits
  if e = 0 then .fin neg fr (1 - (f.bias : Int) - f.fbits)
  else if e = 2 ^ f.ebits - 1 && f.hasInf then (if fr = 0 then .inf neg else .nan)
  else if e = 2 ^ f.ebits - 1 && fr = 2 ^ f.fbits - 1 then .nan
  else .fin neg (2 ^ f.fbits + fr) ((e : Int) - f.bias - f.fbits)

/-- A subnormal operand read with FTZ set is a zero of its own sign (R233). -/
def Fmt.read (f : Fmt) (ftz : Bool) (x : Nat) : FV :=
  let v := f.decode x
  match v with
  | .fin neg _ _ => if ftz && f.ftz && x / 2 ^ f.fbits % 2 ^ f.ebits = 0 then .fin neg 0 0 else v
  | v => v

/-! ## Rounding -/

/-- The candidate of R229 is the upper neighbour in magnitude: q units below it, the rest of the value compared with
half a unit. Modes: 0 RNE, 1 RTZ, 2 RUP, 3 RDN, 4 RNA. -/
def roundsUp (mode : Nat) (neg : Bool) (q : Nat) (cmpHalf : Ordering) (exact : Bool) : Bool :=
  if exact then false
  else match mode with
    | 0 => cmpHalf = .gt || (cmpHalf = .eq && q % 2 = 1)
    | 1 => false
    | 2 => !neg
    | 3 => neg
    | _ => cmpHalf ≠ .lt

/-- The units of 2^g nearest by the mode to (m + δ) × 2^e, where 0 < δ < 1 if sticky holds and δ = 0 otherwise; with
sticky, g must exceed e. -/
def roundGrid (mode : Nat) (neg : Bool) (m : Nat) (e : Int) (sticky : Bool) (g : Int) : Nat :=
  if g ≤ e then m * 2 ^ (e - g).toNat
  else
    let k := (g - e).toNat
    let q := m / 2 ^ k
    let r := m % 2 ^ k
    let c := if r = 2 ^ (k - 1) then (if sticky then Ordering.gt else .eq) else compare r (2 ^ (k - 1))
    if roundsUp mode neg q c (r = 0 && !sticky) then q + 1 else q

/-- An overflow's result by mode and SAT (R230). -/
def Fmt.overflow (f : Fmt) (mode : Nat) (sat neg : Bool) : Nat :=
  let toInf := match mode with
    | 1 => false
    | 2 => !neg
    | 3 => neg
    | _ => true
  if toInf && !sat then (if f.hasInf then f.signBit neg + f.infBits else f.nan)
  else f.signBit neg + f.maxBits

/-- Round of R229 for a nonzero magnitude (m + δ) × 2^e, with R230 and, of the result, R233. -/
def Fmt.round (f : Fmt) (mode : Nat) (sat ftz neg : Bool) (m : Nat) (e : Int) (sticky : Bool) : Nat :=
  let top := e + Nat.log2 m
  let emin : Int := 1 - f.bias
  let g := (if top < emin then emin else top) - f.fbits
  let q := roundGrid mode neg m e sticky g
  let b := (g + f.fbits + f.bias - 1).toNat * 2 ^ f.fbits + q
  if b > f.maxBits then f.overflow mode sat neg
  else if ftz && f.ftz && b < 2 ^ f.fbits then f.signBit neg
  else f.signBit neg + b

/-- An exact infinity as a result: R230's last sentences. -/
def Fmt.exactInf (f : Fmt) (sat neg : Bool) : Nat :=
  if f.hasInf then f.signBit neg + f.infBits else if sat then f.signBit neg + f.maxBits else f.nan

/-- A value becomes bits of a format, by one rounding; a zero keeps the sign it carries. -/
def Fmt.encode (f : Fmt) (mode : Nat) (sat ftz : Bool) (v : FV) : Nat :=
  match v with
  | .nan => f.nan
  | .inf neg => f.exactInf sat neg
  | .fin neg m e => if m = 0 then f.signBit neg else f.round mode sat ftz neg m e false

/-! ## Exact arithmetic -/

def FV.neg : FV → FV
  | .nan => .nan
  | .inf n => .inf (!n)
  | .fin n m e => .fin (!n) m e

def FV.isNaN : FV → Bool
  | .nan => true
  | _ => false

/-- The sum of finite values as a signed count of 2^e units. -/
def signed (neg : Bool) (m : Nat) : Int := if neg then -(m : Int) else m

/-- Exact sum, a zero result signed by R231. -/
def FV.add (mode : Nat) (a b : FV) : FV :=
  match a, b with
  | .nan, _ => .nan
  | _, .nan => .nan
  | .inf n, .inf n' => if n = n' then .inf n else .nan
  | .inf n, _ => .inf n
  | _, .inf n => .inf n
  | .fin n m e, .fin n' m' e' =>
    let g := if e ≤ e' then e else e'
    let t := signed n (m * 2 ^ (e - g).toNat) + signed n' (m' * 2 ^ (e' - g).toNat)
    if t = 0 then .fin (if m = 0 && m' = 0 && n = n' then n else mode = 3) 0 0
    else .fin (decide (t < 0)) t.natAbs g

/-- Exact product (R231). -/
def FV.mul (a b : FV) : FV :=
  match a, b with
  | .nan, _ => .nan
  | _, .nan => .nan
  | .inf n, .inf n' => .inf (n != n')
  | .inf n, .fin n' m _ => if m = 0 then .nan else .inf (n != n')
  | .fin n m _, .inf n' => if m = 0 then .nan else .inf (n != n')
  | .fin n m e, .fin n' m' e' => .fin (n != n') (m * m') (e + e')

/-- Quotient with one rounding (R255, R256). -/
def Fmt.div (f : Fmt) (mode : Nat) (sat ftz : Bool) (a b : FV) : Nat :=
  match a, b with
  | .nan, _ => f.nan
  | _, .nan => f.nan
  | .inf _, .inf _ => f.nan
  | .inf n, .fin n' _ _ => f.signBit (n != n') + f.infBits
  | .fin n _ _, .inf n' => f.signBit (n != n')
  | .fin n m e, .fin n' m' e' =>
    if m' = 0 then (if m = 0 then f.nan else f.signBit (n != n') + f.infBits)
    else if m = 0 then f.signBit (n != n')
    else
      let k := f.fbits + 4 + Nat.log2 m'
      let t := m * 2 ^ k
      f.round mode sat ftz (n != n') (t / m') (e - e' - k) (t % m' ≠ 0)

/-- The integer square root, bit by bit. -/
def sqrtBits (n : Nat) : Nat → Nat → Nat
  | 0, r => r
  | k + 1, r => sqrtBits n k (if (r + 2 ^ k) * (r + 2 ^ k) ≤ n then r + 2 ^ k else r)

def natSqrt (n : Nat) : Nat := sqrtBits n (Nat.log2 n / 2 + 1) 0

/-- Square root with one rounding (R255, R256). -/
def Fmt.sqrt (f : Fmt) (mode : Nat) (ftz : Bool) (a : FV) : Nat :=
  match a with
  | .nan => f.nan
  | .inf n => if n then f.nan else f.infBits
  | .fin n m e =>
    if m = 0 then f.signBit n
    else if n then f.nan
    else
      let k : Nat := 2 * (f.fbits + 4) + (if e % 2 = 0 then 0 else 1)
      let t := m * 2 ^ k
      let r := natSqrt t
      f.round mode false ftz false r ((e - k) / 2) (r * r ≠ t)

/-- Which of two non-NaN values is smaller; −0 lies below +0 (R184). -/
def FV.ltNum (a b : FV) : Bool :=
  match a, b with
  | .inf n, .inf n' => n && !n'
  | .inf n, _ => n
  | _, .inf n => !n
  | .fin n m e, .fin n' m' e' =>
    let g := if e ≤ e' then e else e'
    let x := signed n (m * 2 ^ (e - g).toNat)
    let y := signed n' (m' * 2 ^ (e' - g).toNat)
    x < y || (x = y && x = 0 && n && !n')
  | _, _ => false

/-- Numeric comparison, −0 equal to +0; meaningful without NaN. -/
def FV.eqNum (a b : FV) : Bool :=
  match a, b with
  | .inf n, .inf n' => n = n'
  | .fin n m e, .fin n' m' e' =>
    let g := if e ≤ e' then e else e'
    signed n (m * 2 ^ (e - g).toNat) = signed n' (m' * 2 ^ (e' - g).toNat)
  | _, _ => false

/-- FMinNum and FMaxNum (R184) on bits, operands read as FTZ says. -/
def Fmt.minMax (f : Fmt) (ftz isMax : Bool) (x y : Nat) : Nat :=
  let a := f.read ftz x
  let b := f.read ftz y
  let bits := fun (v : FV) => f.encode 0 false false v
  if a.isNaN then (if b.isNaN then f.nan else bits b)
  else if b.isNaN then bits a
  else if isMax then (if a.ltNum b then bits b else bits a)
  else (if b.ltNum a then bits b else bits a)

/-- RoundToInteger of a finite value (R229), as an integer. -/
def toInt (mode : Nat) (neg : Bool) (m : Nat) (e : Int) : Int := signed neg (roundGrid mode neg m e false 0)

/-- RoundToInteger kept in the format (R255, FRND). -/
def Fmt.toIntegral (f : Fmt) (mode : Nat) (ftz : Bool) (a : FV) : Nat :=
  match a with
  | .fin n m e =>
    let q := roundGrid mode n m e false 0
    if q = 0 then f.signBit n else f.round mode false ftz n q 0 false
  | v => f.encode mode false false v

/-! ## The approximate functions (R256)

Each exact value is enclosed between two numbers lo and hi, by fixed-point arithmetic of 128 fraction bits that rounds down
and is in error by at most 2^30 units; where it lies beside a number of the format by less than that, the enclosure ends at
this number. A part's own value is the free value of Config where that lies within the bound of all the enclosure. -/

/-- 2^128 units. -/
def fixOne : Int := 2 ^ 128

def fixMul (a b : Int) : Int := a * b / fixOne

/-- ln 2 × 2^128, rounded down. -/
def fixLn2 : Int := 235865763225513294137944142764154484399

/-- π × 2^128, rounded down. -/
def fixPi : Int := 1069028584064966747859680373161870783301

/-- The sum of x^k / k! for k below n + 1, as 1 + x/1 (1 + x/2 (…)), from term i on. -/
def expTail (x : Int) : Nat → Nat → Int
  | 0, _ => fixOne
  | n + 1, i => fixOne + fixMul x (expTail x n (i + 1)) / (i : Int)

/-- e^x for |x| ≤ 1. -/
def fixExp (x : Int) : Int := expTail x 40 1

/-- sin x, |x| ≤ 4, as x (1 − x²/(2·3) (1 − x²/(4·5) …)). -/
def sinTail (x2 : Int) : Nat → Nat → Int
  | 0, _ => fixOne
  | n + 1, i => fixOne - fixMul x2 (sinTail x2 n (i + 2)) / ((i * (i + 1) : Nat) : Int)

def fixSin (x : Int) : Int := fixMul x (sinTail (fixMul x x) 30 2)
def fixCos (x : Int) : Int := sinTail (fixMul x x) 30 1

/-- A finite value as a fixed-point number, rounded down. -/
def toFix (neg : Bool) (m : Nat) (e : Int) : Int :=
  if 0 ≤ e + 128 then signed neg (m * 2 ^ (e + 128).toNat) else signed neg m / 2 ^ (-(e + 128)).toNat

/-- 2^a: an integer power and a fixed-point factor from 1 to 2. -/
def exp2Parts (x : Int) : Int × Int :=
  let n := x / fixOne
  (n, fixExp (fixMul (x - n * fixOne) fixLn2))

/-- log₂ of m × 2^e for m > 0, by squaring the mantissa bit by bit: 100 fraction bits. -/
def log2Frac : Nat → Int → Int → Int → Int
  | 0, _, _, acc => acc
  | n + 1, x, w, acc =>
    let y := fixMul x x
    if 2 * fixOne ≤ y then log2Frac n (y / 2) (w / 2) (acc + w) else log2Frac n y (w / 2) acc

def fixLog2 (m : Nat) (e : Int) : Int :=
  let k := Nat.log2 m
  let x : Int := (m * 2 ^ 128 / 2 ^ k : Nat)
  (e + k) * fixOne + log2Frac 100 x (fixOne / 2) 0

/-- The remainder of x by 2π, between −π and π. -/
def fixReduce (x : Int) : Int :=
  let t := 2 * fixPi
  let r := x - x / t * t
  if fixPi < r then r - t else r

/-- tanh x for x ≥ 0, as (1 − u) / (1 + u) with u = e^(−2x). -/
def fixTanh (x : Int) : Int :=
  let y := fixMul (-2 * x) (fixOne * fixOne / fixLn2)
  let p := exp2Parts y
  let u := if p.1 ≤ -200 then 0 else p.2 / 2 ^ (-p.1).toNat
  (fixOne - u) * fixOne / (fixOne + u)

/-- The exponent of an ulp of an exact value m × 2^e (R256). -/
def Fmt.ulpExp (f : Fmt) (m : Nat) (e : Int) : Int := max (e + Nat.log2 m) (1 - (f.bias : Int)) - f.fbits

/-- An exact value, not known better than that it lies between lo × 2^e and hi × 2^e. -/
structure Enclosure where
  lo : Int
  hi : Int
  e : Int := -128
deriving DecidableEq, Repr

/-- The fixed-point value x, computed with downward rounding. -/
def encl (x : Int) : Enclosure := { lo := x, hi := x + 2 ^ 30 }

/-- The fixed-point value x, in error either way. -/
def enclBoth (x : Int) : Enclosure := { lo := x - 2 ^ 30, hi := x + 2 ^ 30 }

def Enclosure.neg (r : Enclosure) : Enclosure := { lo := -r.hi, hi := -r.lo, e := r.e }

/-- A result's distance from the exact value is at most k × 2^u; an infinity stands for the overflow that it comes from. -/
def Fmt.near (f : Fmt) (k : Nat) (u : Int) (r : Enclosure) (v : Nat) : Bool :=
  let dist := fun (nv : Bool) (mv : Nat) (ev : Int) =>
    let g := min (min r.e ev) u
    let x := signed nv (mv * 2 ^ (ev - g).toNat)
    let d : Int := (k * 2 ^ (u - g).toNat : Nat)
    x - d ≤ r.lo * 2 ^ (r.e - g).toNat && r.hi * 2 ^ (r.e - g).toNat ≤ x + d
  match f.decode v with
  | .fin nv mv ev => dist nv mv ev
  | .inf nv => dist nv 1 (f.bias + 1)
  | .nan => false

/-- A result is within 2 ulp of the exact value (R256). -/
def Fmt.within2 (f : Fmt) (r : Enclosure) (v : Nat) : Bool := f.near 2 (f.ulpExp (min r.lo.natAbs r.hi.natAbs) r.e) r v

/-- A binary32 result's absolute distance from the exact value is at most 2^−22 (R256). -/
def nearAbs (r : Enclosure) (v : Nat) : Bool := fmtF32.near 1 (-22) r v

/-- A positive result is within 1 ulp of 1 / √(m × 2^e): its square, an ulp less and an ulp more, on the two sides of
1 / (m × 2^e). -/
def Fmt.nearRsqrt (f : Fmt) (m : Nat) (e : Int) (v : Nat) : Bool :=
  let la := e + Nat.log2 m
  let u := (if m = 2 ^ Nat.log2 m then -la / 2 else (-la - 1) / 2) - f.fbits
  match f.decode v with
  | .fin false mv ev =>
    let g := min ev u
    let x := mv * 2 ^ (ev - g).toNat
    let d := 2 ^ (u - g).toNat
    let k := 2 * g + e
    let up := if 0 ≤ k then 2 ^ k.toNat else 1
    let one := if 0 ≤ k then 1 else 2 ^ (-k).toNat
    (x - d) * (x - d) * m * up ≤ one && one ≤ (x + d) * (x + d) * m * up
  | _ => false

/-- A subnormal result is written as a zero of its sign where FTZ is set, FEXP2's as +0 (R233, R256). -/
def Fmt.flush (f : Fmt) (fn : Nat) (ftz : Bool) (v : Nat) : Nat :=
  if ftz && v % 2 ^ (f.width - 1) < 2 ^ f.fbits then f.signBit (fn ≠ 1 && v / 2 ^ (f.width - 1) % 2 = 1) else v

/-- The part's own value where the bound admits it, the reference otherwise. -/
def Fmt.allow (f : Fmt) (fn bits : Nat) (ftz : Bool) (ok : Nat → Bool) (ref : Nat) : Nat :=
  let v := Config.approx fn bits ftz % 2 ^ f.width
  f.flush fn ftz (if ok v then v else ref)

/-- 1 / √a with one rounding to nearest, the reference of FRSQ: √(1 / a). -/
def Fmt.rsqrt (f : Fmt) (ftz : Bool) (m : Nat) (e : Int) : Nat :=
  let k : Nat := 2 * (f.fbits + 8) + 2 * Nat.log2 m + (if e % 2 = 0 then 0 else 1)
  let t := 2 ^ k / m
  let r := natSqrt t
  f.round 0 false ftz false r ((-(e : Int) - k) / 2) true

/-- 1 − x² for the size m × 2^e of a number below 2^−20, in 2^−128, rounded down: a bound below tanh x / x, sin x / x and
cos x. -/
def belowOne (m : Nat) (e : Int) : Int := fixOne - (m * m * 2 ^ 128 / 2 ^ (-2 * e).toNat : Nat) - 1

/-- tanh of m × 2^e > 0, which is less than the number itself and less than 1. -/
def enclTanh (m : Nat) (e : Int) : Enclosure :=
  if e + Nat.log2 m < -20 then { lo := m * belowOne m e, hi := m * fixOne, e := e - 128 }
  else
    let x := fixTanh (toFix false m e)
    { lo := min x fixOne - 2 ^ 30, hi := min (x + 2 ^ 30) fixOne }

/-- sin or cos of ± m × 2^e. A small number's sine is less than the number, and its cosine less than 1. -/
def enclSinCos (cosine n : Bool) (m : Nat) (e : Int) : Enclosure :=
  if e + Nat.log2 m < -20 then
    if cosine then { lo := belowOne m e, hi := fixOne }
    else
      let r : Enclosure := { lo := m * belowOne m e, hi := m * fixOne, e := e - 128 }
      if n then r.neg else r
  else
    let x := fixReduce (toFix n m e)
    enclBoth (if cosine then fixCos x else fixSin x)

/-- 2^a for a number between −1,024 and 1,024, in fixed point: the power is at least 2^⌊a⌋ and less than 2^(⌊a⌋ + 1). -/
def enclExp2 (p : Int × Int) : Enclosure := { lo := p.2, hi := min (p.2 + 2 ^ 30) (2 * fixOne), e := p.1 - 128 }

/-- The result of rounding the lower bound of an enclosure to nearest: the reference of a function. -/
def roundLo (ftz : Bool) (r : Enclosure) : Nat :=
  if r.lo = 0 then fmtF32.signBit false else fmtF32.round 0 false ftz (decide (r.lo < 0)) r.lo.natAbs r.e true

/-- The approximate functions: 0 FRSQ, 1 FEXP2, 2 FLOG2, 3 FSIN, 4 FCOS, 5 FTANH, with R256's special values. -/
def approxFn (fn : Nat) (f : Fmt) (ftz : Bool) (bits : Nat) : Nat :=
  match f.read ftz bits with
  | .nan => f.nan
  | .inf n =>
    match fn with
    | 0 => if n then f.nan else 0
    | 1 => if n then 0 else f.infBits
    | 2 => if n then f.nan else f.infBits
    | 5 => f.signBit n + f.bias * 2 ^ f.fbits
    | _ => f.nan
  | .fin n m e =>
    if m = 0 then
      match fn with
      | 0 => f.signBit n + f.infBits
      | 1 => f.bias * 2 ^ f.fbits
      | 2 => f.signBit true + f.infBits
      | 4 => f.bias * 2 ^ f.fbits
      | _ => f.signBit n
    else
      match fn with
      | 0 => if n then f.nan else f.allow fn bits ftz (f.nearRsqrt m e) (f.rsqrt ftz m e)
      | 1 =>
        let big := 2 ^ 10 ≤ (if 0 ≤ e then m * 2 ^ e.toNat else m / 2 ^ (-e).toNat)
        if big && !n then f.infBits
        else
          let x := toFix n m e
          let p := exp2Parts x
          let r : Enclosure := if big then { lo := 0, hi := 1, e := -1024 } else enclExp2 p
          if !big && x % fixOne = 0 && -149 ≤ p.1 && p.1 ≤ 127 && (e ≥ -128 || m % 2 ^ (-(e + 128)).toNat = 0) then
            f.round 0 false ftz false 1 p.1 false
          else f.allow fn bits ftz (f.within2 r) (roundLo ftz r)
      | 2 =>
        if n then f.nan
        else if m = 2 ^ Nat.log2 m then
          (let k := e + Nat.log2 m
           if k = 0 then 0 else f.round 0 false ftz (decide (k < 0)) k.natAbs 0 false)
        else
          let r := encl (fixLog2 m e)
          let inside := (e + Nat.log2 m = -1) || (e + Nat.log2 m = 0)
          f.allow fn bits ftz (if inside then nearAbs r else f.within2 r) (roundLo ftz r)
      | 5 =>
        let r := if n then (enclTanh m e).neg else enclTanh m e
        f.allow fn bits ftz (f.within2 r) (roundLo ftz r)
      | _ =>
        if e + Nat.log2 m < 16 || (m = 2 ^ Nat.log2 m && e + Nat.log2 m = 16) then
          let r := enclSinCos (fn ≠ 3) n m e
          f.allow fn bits ftz (nearAbs r) (roundLo ftz r)
        else f.allow fn bits ftz (fun v => v % 2 ^ 31 ≤ 127 * 2 ^ 23) 0

/-! ## Conversions (R234) -/

/-- A numeric type: float of a format, or integer of a width, signed or not. -/
inductive NTy where
  | flt (f : Fmt)
  | int (w : Nat) (signed : Bool)
deriving DecidableEq, Repr

/-- The integer an n-bit pattern stands for (R228). -/
def intOf (w : Nat) (sgn : Bool) (x : Nat) : Int :=
  if sgn && 2 ^ (w - 1) ≤ x % 2 ^ w then (x % 2 ^ w : Int) - 2 ^ w else (x % 2 ^ w : Nat)

def intMin (w : Nat) (sgn : Bool) : Int := if sgn then -(2 ^ (w - 1) : Nat) else 0
def intMax (w : Nat) (sgn : Bool) : Int := if sgn then (2 ^ (w - 1) : Nat) - 1 else (2 ^ w : Nat) - 1

def clampInt (w : Nat) (sgn : Bool) (x : Int) : Int :=
  if x < intMin w sgn then intMin w sgn else if intMax w sgn < x then intMax w sgn else x

/-- The low w bits of an integer, as a number (R228). -/
def wrapInt (w : Nat) (x : Int) : Nat := (x % (2 ^ w : Nat)).toNat

/-- An exact integer result wrapped, or clamped where SAT is set (R228). -/
def putInt (w : Nat) (sgn sat : Bool) (x : Int) : Nat := wrapInt w (if sat then clampInt w sgn x else x)

/-- A value read in its type, before MOD: exact. -/
inductive NV where
  | f (v : FV)
  | i (x : Int)
deriving DecidableEq, Repr

def NTy.readVal (t : NTy) (ftz : Bool) (x : Nat) : NV :=
  match t with
  | .flt f => .f (f.read ftz x)
  | .int w s => .i (intOf w s x)

/-- Convert of R234 from a value to a type. -/
def convert (dt : NTy) (mode : Nat) (sat ftz : Bool) (v : NV) : Nat :=
  match v, dt with
  | .f v, .flt f => f.encode mode sat ftz v
  | .f v, .int w s =>
    match v with
    | .nan => 0
    | .inf n => wrapInt w (if n then intMin w s else intMax w s)
    | .fin n m e => wrapInt w (clampInt w s (toInt mode n m e))
  | .i x, .flt f => if x = 0 then 0 else f.round mode sat ftz (decide (x < 0)) x.natAbs 0 false
  | .i x, .int w s => putInt w s sat x

end Sys2Proof.Machine
end

