-- ==== Sys2Proof/Machine/Flags.lean ====
section
/-! DEFINITION. Predicates and the modifiers that shape a result: comparisons (R261), tables of three bits (R251, R262),
MOD, and the rounding mode in force (R232, R246). -/

namespace Sys2Proof.Machine

/-- The result of SETP's relation on integers or bits (R261). -/
def relInt (rel : Nat) (a b : Int) : Bool :=
  match rel with
  | 0 => a = b
  | 1 => a ≠ b
  | 2 => a < b
  | 3 => a ≤ b
  | 4 => b < a
  | 5 => b ≤ a
  | _ => false

/-- The result of SETP's relation on floating-point values (R261). -/
def relFlt (rel : Nat) (ifnan : Bool) (a b : FV) : Bool :=
  let nan := a.isNaN || b.isNaN
  match rel with
  | 0 => if nan then ifnan else a.eqNum b
  | 1 => nan || !a.eqNum b
  | 2 => if nan then ifnan else a.ltNum b && !a.eqNum b
  | 3 => if nan then ifnan else a.ltNum b || a.eqNum b
  | 4 => if nan then ifnan else b.ltNum a && !a.eqNum b
  | 5 => if nan then ifnan else b.ltNum a || a.eqNum b
  | 6 => !nan
  | _ => nan

/-- One bit of a table of three inputs: a selects the lowest index bit (R251, R262). -/
def lutBit (lut : Nat) (a b c : Bool) : Bool := lut / 2 ^ (a.toNat + 2 * b.toNat + 4 * c.toNat) % 2 = 1

/-- The table over the bits of three numbers of n bits, bits i and above (R251). -/
def lutBits (lut a b c : Nat) : Nat → Nat → Nat
  | 0, _ => 0
  | n + 1, i =>
    (if lutBit lut (a / 2 ^ i % 2 = 1) (b / 2 ^ i % 2 = 1) (c / 2 ^ i % 2 = 1) then 2 ^ i else 0)
      + lutBits lut a b c n (i + 1)

/-- The table in bits [75:68] of a word: MOD above SAT above RM (R251). -/
def lutOf (f : VF) : Nat := f.mod.toNat * 16 + f.sat.toNat * 8 + f.rm.toNat

/-- MOD on a value read as a number: |x| first, then −x (R31, R246). -/
def modVal (absBit negBit : Bool) (v : NV) : NV :=
  match v with
  | .i x =>
    let x := if absBit then (x.natAbs : Int) else x
    .i (if negBit then -x else x)
  | .f v =>
    let v := match v with
      | .inf n => if absBit then .inf false else .inf n
      | .fin n m e => .fin (n && !absBit) m e
      | .nan => .nan
    .f (if negBit then v.neg else v)

/-- MOD on A, and on B (R31). -/
def modA (f : VF) (v : NV) : NV := modVal (f.mod.getLsbD 1) (f.mod.getLsbD 0) v
def modB (f : VF) (v : NV) : NV := modVal (f.mod.getLsbD 3) (f.mod.getLsbD 2) v

/-- The rounding mode of a field that allows one: RM 5 takes the warp's RMODE (R32, R232, R398). -/
def roundMode (rm rmode : BitVec 3) : Nat := if rm.toNat = 5 then rmode.toNat else rm.toNat

/-- The lanes of a mask for which a predicate value holds. -/
def predMask (m : Mask) (p : Nat → Bool) : Mask := lanesWhere m p

end Sys2Proof.Machine
end

