-- ==== Sys2Proof/Machine/Encoding.lean ====
section
/-! DEFINITION. Which words are legal: what each instruction's entry does with each field of its format (R45), and
the checks of R46 step 1 and of R40's illegal-instruction cases. Everything here raises the illegal-instruction trap. -/

namespace Sys2Proof.Machine

/-- The fields of an instruction word, with its major opcode. -/
inductive Fields where
  | v (op : Nat) (f : VF)
  | m (op : Nat) (f : MF)
  | c (op : Nat) (f : CF)
  | x (f : XF)
deriving DecidableEq, Repr

/-- The four formats. -/
inductive Format where
  | v | m | c | x
deriving DecidableEq, Repr

/-- The format of each major opcode, none for the opcodes of R48. -/
def formatOf (op : Nat) : Option Format :=
  if op ≤ 0x0B then some .c
  else if 0x10 ≤ op && op ≤ 0x2C then some .v
  else if 0x30 ≤ op && op ≤ 0x44 then some .v
  else if 0x50 ≤ op && op ≤ 0x56 then some .v
  else if op = 0x8C then some .x
  else if 0x60 ≤ op && op ≤ 0x67 then some .m
  else if 0x70 ≤ op && op ≤ 0x7C then some .m
  else if 0x80 ≤ op && op ≤ 0x84 then some .m
  else if 0x88 ≤ op && op ≤ 0x8F then some .m
  else if 0x90 ≤ op && op ≤ 0x99 then some .m
  else if 0xA0 ≤ op && op ≤ 0xA2 then some .m
  else none

/-- Why a word is no instruction. Every one raises the illegal-instruction trap (R45, R48). -/
inductive DecodeError where
  /-- a major opcode of R48 -/
  | opcode
  /-- an unassigned FN -/
  | function
  /-- a type code the entry does not accept -/
  | type
  /-- a nonzero bit that must be 0 -/
  | reserved
  /-- a reserved encoding: RM 6 or 7, BK 3, SP 3, SC 5 to 7, a value outside an entry's table -/
  | encoding
  /-- a register field of 725 to 1023 (R40, R202) -/
  | register
deriving DecidableEq, Repr

/-- How an entry uses a 10-bit field. -/
inductive Use where
  /-- not at all: it must be 0 -/
  | none
  /-- a register (R39) -/
  | reg
  /-- a predicate number in bits [2:0] (R245) -/
  | pred
  /-- two predicate numbers in bits [5:0] (R249) -/
  | predPair
  /-- a number that is no register -/
  | num
deriving DecidableEq, Repr

/-- A register field names a register (R39, R40, R202). -/
def regNamed (x : BitVec 10) : Bool := x.toNat ≤ 724

/-- What the field holds is legal for its use, as far as the illegal-instruction checks go. -/
def useOk (u : Use) (x : BitVec 10) : Except DecodeError Unit :=
  match u with
  | .none => if x = 0 then .ok () else .error .reserved
  | .reg => if regNamed x then .ok () else .error .register
  | .pred => if x.toNat < 8 then .ok () else .error .reserved
  | .predPair => if x.toNat < 64 then .ok () else .error .reserved
  | .num => .ok ()

/-- An error unless b. -/
def need (b : Bool) (e : DecodeError) : Except DecodeError Unit := if b then .ok () else .error e

/-- The type sets of R247, as type codes of R43. -/
def setI : List Nat := [1, 2, 5, 6]
/-- R247, IP. -/
def setIP : List Nat := [1, 2, 5, 6, 10, 11, 12, 13]
/-- R247, IS: the signed types. -/
def setIS : List Nat := [1, 5, 10, 12]
/-- R247, X. -/
def setX : List Nat := [0, 4]
/-- R247, F. -/
def setF : List Nat := [3, 7, 8, 9]
/-- R247, F1. -/
def setF1 : List Nat := [3, 7]
/-- The types whose sources carry a sign that MOD can act on (R246). -/
def setMod : List Nat := [1, 5, 10, 12, 3, 7, 8, 9]

/-- How operand B is formed from W (R33, R252, R259). -/
inductive BForm where
  | byType | word32 | packSrc
deriving DecidableEq, Repr

/-- What an entry of format V does with its fields. -/
structure VSpec where
  types : List Nat
  fns : List Nat := [0]
  d : Use := .reg
  a : Use := .reg
  b : Use := .reg
  c : Use := .none
  modA : List Nat := []
  modB : List Nat := []
  sat : Bool := false
  rm : Bool := false
  lut : Bool := false
  bForm : BForm := .byType
deriving DecidableEq, Repr

/-- The entries of format V: R50, R248, R255, R258 to R266. IDOT4 is none of the exceptions that R33 lists, though it reads
B as four bytes (R250): that its immediate is formed by TY, with no bit that must be 0, is the model's choice (log entry
109). So is it that A of BFE, read bit by bit with sign fill, is no source read as a signed integer, so that R246 lets no MOD
act on it and every MOD traps (log entry 124). -/
def vSpec (op : Nat) : Option VSpec :=
  match op with
  | 0x10 => some { types := setX, a := .none }
  | 0x11 => some { types := List.range 16, a := .num, b := .num, c := .num }
  | 0x12 => some { types := setX, c := .pred }
  | 0x13 => some { types := setIP, modA := setIS, modB := setIS, sat := true }
  | 0x14 => some { types := setIP, modA := setIS, modB := setIS, sat := true }
  | 0x15 => some { types := setI, c := .predPair }
  | 0x16 => some { types := setI, c := .predPair }
  | 0x17 => some { types := setIP, modA := setIS, modB := setIS, sat := true }
  | 0x18 => some { types := setI, modA := setIS, modB := setIS }
  | 0x19 => some { types := setIP, c := .reg, modA := setIS, modB := setIS, sat := true }
  | 0x1A => some { types := [1, 2], c := .reg, modA := setIS, modB := setIS, sat := true }
  | 0x1B => some { types := setIP, modA := setIS, modB := setIS }
  | 0x1C => some { types := setIP, modA := setIS, modB := setIS }
  | 0x1D => some { types := setIS, b := .none, modA := setIS, sat := true }
  | 0x1E => some { types := setIS, b := .none, modA := setIS, sat := true }
  -- IDOT4, PACK: whether MOD may act on a source turns on FN, checked by vExtra (R246, R250, R259)
  | 0x1F => some { types := [1, 2], fns := [0, 1, 2, 3], c := .reg, modA := List.range 16, modB := List.range 16, sat := true }
  | 0x20 => some { types := setX, c := .reg, lut := true }
  | 0x21 => some { types := setX, bForm := .word32 }
  | 0x22 => some { types := setX, bForm := .word32 }
  | 0x23 => some { types := setX, bForm := .word32 }
  | 0x24 => some { types := setX, fns := [0, 1], bForm := .word32 }
  | 0x25 => some { types := [0], fns := [0, 1], c := .reg, bForm := .word32 }
  | 0x26 => some { types := setI, bForm := .word32 }
  | 0x27 => some { types := setX, c := .reg, bForm := .word32 }
  | 0x28 => some { types := setX, b := .none }
  | 0x29 => some { types := setX, b := .none }
  | 0x2A => some { types := setX, b := .none }
  | 0x2B => some { types := setI, modA := setIS, modB := setIS, sat := true }
  | 0x2C => some { types := setI, modA := setIS, modB := setIS }
  | 0x30 => some { types := setF, modA := setF, modB := setF, sat := true, rm := true }
  | 0x31 => some { types := setF, modA := setF, modB := setF, sat := true, rm := true }
  | 0x32 => some { types := setF, modA := setF, modB := setF, sat := true, rm := true }
  | 0x33 => some { types := setF, c := .reg, modA := setF, modB := setF, sat := true, rm := true }
  | 0x34 => some { types := setF, modA := setF, modB := setF }
  | 0x35 => some { types := setF, modA := setF, modB := setF }
  | 0x36 => some { types := setF1, b := .none, modA := setF, rm := true }
  | 0x37 => some { types := setF1, b := .none, modA := setF }
  | 0x38 => some { types := setF1, b := .none, modA := setF, rm := true }
  | 0x39 => some { types := setF1, modA := setF, modB := setF, sat := true, rm := true }
  | 0x3A => some { types := [3], b := .none, modA := setF }
  | 0x3B => some { types := [3], b := .none, modA := setF }
  | 0x3C => some { types := [3], b := .none, modA := setF }
  | 0x3D => some { types := [3], b := .none, modA := setF }
  | 0x3E => some { types := [3], b := .none, modA := setF }
  | 0x3F => some { types := setF1, modA := setF, sat := true, rm := true, bForm := .word32 }
  | 0x40 => some { types := setF1, b := .none, modA := setF }
  | 0x41 => some { types := setF, b := .none, modA := setF, rm := true }
  -- CVT: the types MOD may act on are those of the source, checked by vExtra (R258)
  | 0x42 => some { types := [1, 2, 3, 5, 6, 7], fns := [1, 2, 3, 5, 6, 7], b := .none, modA := List.range 16,
                   sat := true, rm := true }
  | 0x43 => some { types := [8, 9, 10, 11, 12, 13, 14, 15], fns := List.range 32, c := .reg, modA := List.range 16,
                   modB := List.range 16, sat := true, rm := true, bForm := .packSrc }
  | 0x44 => some { types := [8, 9, 10, 11, 12, 13, 14, 15], fns := List.range 64, b := .none }
  | 0x50 => some { types := List.range 8, fns := List.range 16, d := .pred, modA := setMod, modB := setMod }
  | 0x51 => some { types := [0], d := .pred, a := .pred, b := .pred, c := .pred, lut := true }
  -- VOTE: D is a register for FN 3 and 4, checked by vExtra (R263)
  | 0x52 => some { types := [0, 2, 4], fns := [0, 1, 2, 3, 4], d := .num, a := .pred, b := .none }
  | 0x53 => some { types := setX, fns := [0, 1, 2, 3], c := .pred, bForm := .word32 }
  | 0x54 => some { types := List.range 8, fns := List.range 9, b := .none, modA := setMod, sat := true, rm := true }
  | 0x55 => some { types := List.range 8, fns := List.range 9 ++ (List.range 9).map (· + 32), b := .none, modA := setMod,
                   sat := true, rm := true }
  | 0x56 => some { types := setX, b := .none }
  | _ => none

/-- The types an operation of WRED and WSCAN accepts (R265). -/
def wopTypes (fn : Nat) : List Nat :=
  if fn % 16 < 3 then setI else if fn % 16 < 6 then setX else setF1

/-- The checks that relate FN, TY and the other fields of one entry. -/
def vExtra (op : Nat) (f : VF) : Except DecodeError Unit :=
  let ty := f.ty.toNat
  let fn := f.fn.toNat
  match op with
  | 0x11 => do
    -- R50: the fields are MOVI's long immediate; a 32-bit or packed type has L[49:32] = 0
    need (4 ≤ ty && ty ≤ 7 || f.w.toNat < 4) .reserved
  | 0x1F => do
    need (f.mod.extractLsb' 0 2 = 0 || fn % 2 = 1) .reserved
    need (f.mod.extractLsb' 2 2 = 0 || 2 ≤ fn) .reserved
  | 0x42 => need (f.mod = 0 || setMod.contains fn) .reserved
  | 0x43 => do
    let st := fn % 16
    need (f.mod = 0 || setMod.contains st) .reserved
    need (if ty = 8 || ty = 9 || ty = 14 || ty = 15 then st = 3 else st = 1 || st = 2) .function
    need (12 ≤ ty || (fn < 16 && f.c = 0 && !f.fc)) .reserved
  | 0x44 => do
    let dt := fn % 16
    need (if ty = 8 || ty = 9 || ty = 14 || ty = 15 then dt = 3
          else if ty = 10 || ty = 12 then dt = 1 else dt = 2) .function
    need (12 ≤ ty || fn / 16 < 2) .function
  | 0x50 => do
    let rel := fn % 8
    need (if rel < 2 then true else if rel < 6 then setI.contains ty || setF1.contains ty else setF1.contains ty) .type
    need (fn < 8 || (setF1.contains ty && (rel = 0 || (2 ≤ rel && rel ≤ 5)))) .function
    need (f.mod = 0 || setMod.contains ty) .reserved
  | 0x52 => do
    need (if fn < 3 then ty = 0 else if fn = 3 then ty = 4 else ty = 2) .type
    useOk (if fn < 3 then .pred else .reg) f.d
  | 0x54 => do
    need ((wopTypes fn).contains ty) .type
    need (!f.sat || fn % 16 = 0) .reserved
    need (f.rm = 0 || fn % 16 = 6) .reserved
  | 0x55 => do
    need ((wopTypes fn).contains ty) .type
    need (!f.sat || fn % 16 = 0) .reserved
    need (f.rm = 0 || fn % 16 = 6) .reserved
  | _ => .ok ()

/-- W as an immediate of type code ty has no bit set that must be 0 (R33). -/
def immOk (ty : Nat) (w : BitVec 20) : Bool :=
  if ty < 8 then true else if ty < 12 then w.toNat < 2 ^ 16 else w.toNat < 2 ^ 8

/-- Operand B's fields: its kind, its register or immediate, and its policy bit (R31, R33, R34, R42). -/
def bOk (s : VSpec) (f : VF) : Except DecodeError Unit :=
  match s.b with
  | .reg => do
    need (f.bk.toNat < 3) .encoding
    if f.bk = 0 then
      need (regNamed f.b) .register
      need (f.w = 0) .reserved
    else do
      need (f.b = 0 && !f.fb) .reserved
      need (f.bk = 2 || s.bForm ≠ .byType || immOk f.ty.toNat f.w) .reserved
  | u => do
    need (f.bk = 0) .reserved
    useOk u f.b
    need (!f.fb) .reserved
    need (u = .num || f.w = 0) .reserved

/-- Every check of R45 and R40 on a word of format V. -/
def vCheck (op : Nat) (f : VF) : Except DecodeError Unit :=
  match vSpec op with
  | none => .error .opcode
  | some s => do
    need (s.fns.contains f.fn.toNat) .function
    need (s.types.contains f.ty.toNat) .type
    vExtra op f
    bOk s f
    useOk s.d f.d
    useOk s.a f.a
    useOk s.c f.c
    need (s.a = .reg || !f.fa) .reserved
    need (s.c = .reg || !f.fc) .reserved
    if s.lut then .ok ()
    else do
      need (f.rm = 0 || (s.rm && f.rm.toNat < 6)) .encoding
      need (!f.sat || s.sat) .reserved
      need (f.mod.extractLsb' 0 2 = 0 || s.modA.contains f.ty.toNat) .reserved
      need (f.mod.extractLsb' 2 2 = 0 || s.modB.contains f.ty.toNat) .reserved

/-- What an entry of format M does with its fields. -/
structure MSpec where
  types : List Nat := [0]
  d : Use := .none
  a : Use := .none
  b : Use := .none
  /-- the bits of W the entry uses -/
  wmask : Nat := 0
  pk : Bool := false
  ck : Bool := false
  sc : Bool := false
  ords : List Nat := [0]
  sps : List Nat := [0]
  chs : List Nat := [0]
  fa : Bool := false
  fb : Bool := false
deriving DecidableEq, Repr

/-- An element type accepted by an atomic operation (R183), as type codes of R36. -/
def atomTypes (fn : Nat) : List Nat :=
  match fn with
  | 0 => [0, 4]
  | 1 => [1, 2, 5, 6]
  | 2 => [3, 7, 9]
  | 3 => [1, 2, 5, 6]
  | 4 => [1, 2, 5, 6]
  | 5 => [3, 7, 9]
  | 6 => [3, 7, 9]
  | 7 => [0, 4]
  | 8 => [0, 4]
  | 9 => [0, 4]
  | _ => []

/-- The fields a copy posts with (R175): D is the handle register when W[5] = 1. -/
def copySpec (f : MF) (ch : List Nat) : MSpec :=
  { d := if f.w.getLsbD 5 then .reg else .none, b := .reg, wmask := 0x3F, pk := true, ck := true, sc := true, chs := ch,
    fb := true }

/-- The entries of format M, by major opcode and the fields that choose among an entry's forms. -/
def mSpec (op : Nat) (f : MF) : Option MSpec :=
  let fn := f.fn.toNat
  let stat : Use := if f.w.getLsbD 0 then .reg else .none
  let full := 0xFFFFF
  match op with
  -- R155
  | 0x60 => if fn = 0 then some { types := List.range 15, d := .reg, a := .reg, wmask := full, pk := true, ck := true, sc := true, ords := [0, 1], sps := [0, 1, 2], chs := [0, 1, 2, 3], fa := true } else none
  | 0x61 =>
    if fn = 0 then some { types := List.range 15, a := .reg, b := .reg, wmask := full, pk := true, ck := true, sc := true, ords := [0, 2], sps := [0, 1, 2], chs := [0, 1, 2, 3], fa := true, fb := true }
    else if fn = 1 then some { types := List.range 14, d := .reg, a := .reg, b := .reg, wmask := full, pk := true, ck := true, sc := true, ords := [0, 2], chs := [0, 1, 2, 3], fa := true, fb := true }
    else none
  | 0x62 => if fn = 0 then some { types := List.range 15, d := .reg, a := .reg, wmask := full, pk := true, ck := true, sc := true, ords := [0, 1], sps := [0, 1, 2], chs := [0, 1, 2, 3], fa := true } else none
  | 0x63 => if fn = 0 then some { a := .reg, wmask := full, pk := true, ck := true, sc := true, chs := [0, 1, 2, 3], fa := true } else none
  | 0x64 => if fn = 0 then some { a := .reg, wmask := full, pk := true, ck := true, sc := true, ords := [0, 2], chs := [0, 1, 2, 3], fa := true } else none
  -- R195
  | 0x65 => if fn < 10 || (32 ≤ fn && fn < 42) then some { types := atomTypes (fn % 32), d := .reg, a := .reg, b := .reg, wmask := full, pk := true, ck := true, sc := true, ords := [0, 1, 2, 3], fa := true, fb := true } else none
  | 0x66 => if fn = 0 || fn = 32 then some { types := [0, 4], d := .reg, a := .reg, b := .reg, wmask := 0x3FF, pk := true, ck := true, sc := true, ords := [0, 1, 2, 3], fa := true, fb := true } else none
  | 0x67 => if 1 ≤ fn && fn < 10 then some { types := atomTypes fn, a := .reg, b := .reg, wmask := full, pk := true, ck := true, sc := true, ords := [0, 2], fa := true, fb := true } else none
  -- R107 to R114
  | 0x70 => if fn = 0 then some { wmask := 0xFF } else none
  | 0x71 => if fn = 0 then some { wmask := 0xFF } else none
  | 0x72 => if fn = 0 then some { wmask := 0xF } else none
  | 0x73 => if fn = 0 then some { d := stat, wmask := 1, ck := true, sc := true } else none
  | 0x74 => if fn = 0 then some { wmask := 7, ck := true, sc := true } else none
  | 0x75 => if fn = 0 then some { wmask := 0x3FFF, sc := true } else none
  | 0x76 => if fn = 0 then some { d := stat, a := .reg, wmask := 1, pk := true, ck := true, sc := true, fa := true }
      else none
  | 0x77 => if fn = 0 then some { b := .reg, wmask := 0xF } else none
  -- R175
  | 0x78 => if fn = 0 then some (copySpec f [0, 3]) else none
  | 0x79 => if fn = 0 then some (copySpec f [0, 3]) else none
  | 0x7A => if fn = 0 then some (copySpec f [0]) else none
  | 0x7B => if fn = 0 then some (copySpec f [0, 3]) else none
  | 0x7C => if fn = 0 then some { d := .reg, b := .reg, wmask := 1, pk := true, ck := true, sc := true, fb := true }
      else none
  -- R218
  | 0x80 => if fn = 0 then some { d := .reg, b := .reg, wmask := 7 } else none
  | 0x81 => if fn = 0 then some { d := stat, a := .reg, b := .reg, wmask := 1, pk := true, ck := true, sc := true, fa := true, fb := true } else none
  | 0x82 => if fn = 0 then some { d := stat, a := .reg, b := .reg, wmask := 1, pk := true, ck := true, sc := true, fa := true, fb := true } else none
  | 0x83 => if fn = 0 then some { b := .reg } else if fn = 1 then some { b := .reg, fb := true } else none
  | 0x84 => if fn = 0 then some { b := .reg, wmask := 7 } else none
  -- R278
  | 0x88 => if fn < 2 then some {} else none
  | 0x89 => if fn = 0 then some { wmask := 0x3F } else if fn = 1 then some { wmask := 0x3F, ck := true, sc := true }
      else none
  | 0x8A => if fn = 0 then some { b := .num, wmask := 0x3FFFF } else none
  | 0x8B => if fn = 0 then some { a := .reg, b := .num, wmask := full, pk := true, ck := true, sc := true, sps := [0, 1, 2], chs := [0, 3], fa := true } else none
  | 0x8D => if fn = 0 then some { types := [3, 7, 1, 5, 4], d := .reg, a := if f.w.getLsbD 14 then .reg else .none, b := .num, wmask := 0x7FFFF, fa := f.w.getLsbD 14 } else none
  | 0x8E => if fn = 0 then some { b := .reg, wmask := 7, pk := true, ck := true, sc := true, sps := [0, 1, 2], chs := [0, 3], fb := true } else none
  | 0x8F => if fn = 0 then some { d := .reg, b := .num } else if fn = 1 then some { d := .reg, b := .num, wmask := 0x7F }
      else none
  -- R335
  | 0x90 => if fn = 0 || fn = 2 then some { wmask := 0x7FF, ck := true, sc := true }
      else if fn = 1 then some { wmask := 0xF } else none
  | 0x91 => if fn = 0 then some { a := .reg, ck := true, sc := true, fa := true } else none
  | 0x92 => if fn = 0 then some { b := .reg, wmask := 0xFFFF, ck := true, sc := true, fb := true }
      else if fn = 1 then some { a := .reg, b := .reg, ck := true, sc := true, fa := true, fb := true } else none
  | 0x93 => if fn = 0 then some { b := .reg, wmask := 0xFFFF, fb := true }
      else if fn = 1 then some { a := .reg, b := .reg, fa := true, fb := true } else none
  | 0x94 => if fn = 0 then some { a := .reg, b := .reg, wmask := 7, pk := true, ck := true, sc := true, fa := true, fb := true } else none
  | 0x95 => if fn = 0 then some { d := .reg, a := .reg, wmask := 7, pk := true, ck := true, sc := true, fa := true }
      else none
  | 0x96 => if fn = 0 then some { a := .reg, b := .reg, ck := true, sc := true, fa := true, fb := true } else none
  -- R355
  | 0x97 => if fn < 4 then some { a := if fn < 2 then .none else .reg, b := .reg, wmask := if fn < 2 then 0x7FFFF else 0x70000, pk := true, ck := true, sc := true, fa := 2 ≤ fn, fb := true }
      else none
  | 0x98 => if fn = 0 || fn = 2 then some { a := if fn < 2 then .none else .reg, wmask := if fn < 2 then 0xFFFF else 0, ck := true, sc := true, fa := 2 ≤ fn } else none
  | 0x99 => if fn < 4 then some { a := if fn < 2 then .none else .reg, wmask := if fn < 2 then 0x7FFFF else 0x70000, fa := 2 ≤ fn } else none
  -- R399
  | 0xA0 => if fn = 0 then some { wmask := 0xFFFF } else none
  | 0xA1 => if fn = 0 then some { d := .reg, wmask := 0xFFF } else none
  | 0xA2 => if fn = 0 then some { b := .reg, wmask := 0xFFF, fb := true } else none
  | _ => none

/-- A control and status register number of R398. -/
def csrNamed (n : Nat) : Bool := n = 0 || n = 1 || (0x10 ≤ n && n < 0x20) || n = 0x20 || n = 0x21

/-- The checks that relate several fields of one entry of format M. -/
def mExtra (op : Nat) (f : MF) : Except DecodeError Unit :=
  let w := f.w.toNat
  -- R144, R155: a scratchpad access has OR = 0, CH = 0 and SC CORE or PAIR
  let scratch : Except DecodeError Unit :=
    need (f.sp = 0 || (f.ord = 0 && f.ch = 0 && f.sc.toNat < 2)) .encoding
  match op with
  | 0x60 => scratch
  | 0x61 => if f.fn = 0 then scratch else need (f.sc ≠ 0) .encoding
  | 0x62 => scratch
  | 0x78 => need (w % 32 < 12 || w % 32 = 31) .encoding
  | 0x79 => need (w % 32 < 12 || w % 32 = 31) .encoding
  | 0x7A => need (w % 32 < 12 || w % 32 = 31) .encoding
  | 0x7B => need (w % 32 < 12 || w % 32 = 31) .encoding
  | 0x8A => do
    need (f.b.toNat < 8) .encoding
    need (w / 2 ^ 16 = 0 || w % 2 ^ 16 = 0) .reserved
  | 0x8B => need (f.b.toNat < 8) .encoding
  | 0x8D => do
    need (f.b.toNat < 8) .encoding
    need (w / 2 ^ 15 % 8 < 6) .encoding
    need (w / 2 ^ 18 = 0 || f.ty.toNat ≠ 4) .encoding
  | 0x8F => need (f.b.toNat < 8) .encoding
  | 0x90 => need (w / 16 ≤ 64) .encoding
  | 0xA1 => need (csrNamed w) .encoding
  | 0xA2 => need (csrNamed w) .encoding
  | _ => .ok ()

/-- Every check of R45 and R40 on a word of format M. -/
def mCheck (op : Nat) (f : MF) : Except DecodeError Unit :=
  match mSpec op f with
  | none => .error .function
  | some s => do
    need (s.types.contains f.ty.toNat) .type
    need (f.w.toNat &&& (0xFFFFF ^^^ s.wmask) = 0) .reserved
    need (f.sc.toNat < 5) .encoding
    need (f.sp.toNat < 3) .encoding
    need (s.ords.contains f.ord.toNat && s.sps.contains f.sp.toNat && s.chs.contains f.ch.toNat) .encoding
    need (s.pk || f.pk = 0) .reserved
    need (s.ck || f.ck = 0) .reserved
    need (s.sc || f.sc = 0) .reserved
    need (s.fa || !f.fa) .reserved
    need (s.fb || !f.fb) .reserved
    mExtra op f
    useOk s.d f.d
    useOk s.a f.a
    useOk s.b f.b
    need (op ≠ 0x66 || regNamed (f.w.extractLsb' 0 10)) .register

/-- What an entry of format C does with its fields (R49, R304). -/
def cSpec (op : Nat) : Option (Use × Use × Use × Bool × Bool) :=
  match op with
  | 0x00 => some (.none, .none, .none, false, false)
  | 0x01 => some (.none, .none, .none, true, true)
  | 0x02 => some (.none, .reg, .none, true, false)
  | 0x03 => some (.none, .none, .num, true, true)
  | 0x04 => some (.none, .reg, .num, true, false)
  | 0x05 => some (.none, .none, .num, false, false)
  | 0x06 => some (.none, .none, .num, false, false)
  | 0x07 => some (.none, .none, .none, true, false)
  | 0x08 => some (.none, .none, .none, false, false)
  | 0x09 => some (.pred, .reg, .reg, true, false)
  | 0x0A => some (.none, .none, .none, false, false)
  | 0x0B => some (.none, .none, .num, false, false)
  | _ => none

/-- Every check of R45 and R40 on a word of format C. -/
def cCheck (op : Nat) (f : CF) : Except DecodeError Unit :=
  match cSpec op with
  | none => .error .opcode
  | some (d, a, b, j, t) => do
    need (f.fn = 0) .function
    useOk d f.d
    useOk a f.a
    useOk b f.b
    need (j || f.j = 0) .reserved
    need (t || f.t = 0) .reserved

/-- Every check on MMA's word (R38, R40). -/
def xCheck (f : XF) : Except DecodeError Unit := do
  need (f.fn = 0) .function
  useOk .reg f.fw

/-- Every illegal-instruction check of R46 on an instruction's fields. -/
def fieldsCheck : Fields → Except DecodeError Unit
  | .v op f => vCheck op f
  | .m op f => mCheck op f
  | .c op f => cCheck op f
  | .x f => xCheck f

end Sys2Proof.Machine
end

