-- ==== Sys2Proof/Machine/Names.lean ====
section
/-! DEFINITION. Which instruction a word's opcode and fields name (R47 and the FN values of the entries), and the
opcode and fields of each instruction. -/

namespace Sys2Proof.Machine

/-- The instruction that an opcode of format C names. -/
def nameC (op : Nat) (f : CF) : Option Instr :=
  match op with
  | 0x00 => some (.nop f) | 0x01 => some (.bra f) | 0x02 => some (.brx f) | 0x03 => some (.call f)
  | 0x04 => some (.callx f) | 0x05 => some (.enter f) | 0x06 => some (.leave f) | 0x07 => some (.ret f)
  | 0x08 => some (.exit f) | 0x09 => some (.waitm f) | 0x0A => some (.yield f) | 0x0B => some (.brk f)
  | _ => none

/-- The instruction that an opcode of format V names. -/
def nameV (op : Nat) (f : VF) : Option Instr :=
  match op with
  | 0x10 => some (.mov f) | 0x11 => some (.movi f) | 0x12 => some (.sel f) | 0x13 => some (.iadd f)
  | 0x14 => some (.isub f) | 0x15 => some (.iaddc f) | 0x16 => some (.isubb f) | 0x17 => some (.imul f)
  | 0x18 => some (.imulh f) | 0x19 => some (.imad f) | 0x1A => some (.imadw f) | 0x1B => some (.imin f)
  | 0x1C => some (.imax f) | 0x1D => some (.iabs f) | 0x1E => some (.ineg f) | 0x1F => some (.idot4 f)
  | 0x20 => some (.lop3 f) | 0x21 => some (.shl f) | 0x22 => some (.shr f) | 0x23 => some (.sha f)
  | 0x24 => some (.rot f) | 0x25 => some (.fshf f) | 0x26 => some (.bfe f) | 0x27 => some (.bfi f)
  | 0x28 => some (.popc f) | 0x29 => some (.clz f) | 0x2A => some (.brev f) | 0x2B => some (.idiv f)
  | 0x2C => some (.irem f)
  | 0x30 => some (.fadd f) | 0x31 => some (.fsub f) | 0x32 => some (.fmul f) | 0x33 => some (.ffma f)
  | 0x34 => some (.fmin f) | 0x35 => some (.fmax f) | 0x36 => some (.frcp f) | 0x37 => some (.frsq f)
  | 0x38 => some (.fsqrt f) | 0x39 => some (.fdiv f) | 0x3A => some (.fexp2 f) | 0x3B => some (.flog2 f)
  | 0x3C => some (.fsin f) | 0x3D => some (.fcos f) | 0x3E => some (.ftanh f) | 0x3F => some (.fscale f)
  | 0x40 => some (.fclass f) | 0x41 => some (.frnd f) | 0x42 => some (.cvt f) | 0x43 => some (.pack f)
  | 0x44 => some (.unpack f)
  | 0x50 => some (.setp f) | 0x51 => some (.plop f) | 0x52 => some (.vote f) | 0x53 => some (.shfl f)
  | 0x54 => some (.wred f) | 0x55 => some (.wscan f) | 0x56 => some (.xshfl f)
  | _ => none

/-- The instruction that an opcode of format M names, by the form its FN and W choose. -/
def nameM (op : Nat) (f : MF) : Option Instr :=
  match op with
  | 0x60 => some (.ld f)
  | 0x61 => some (if f.fn = 1 then .stT f else .st f)
  | 0x62 => some (.ldu f) | 0x63 => some (.pref f) | 0x64 => some (.discard f)
  | 0x65 => some (if f.fn.getLsbD 5 then .atomT f else .atom f)
  | 0x66 => some (if f.fn.getLsbD 5 then .atomcT f else .atomc f)
  | 0x67 => some (.red f)
  | 0x70 => some (.kcopy f) | 0x71 => some (.kjoin f) | 0x72 => some (.kclr f) | 0x73 => some (.kwait f)
  | 0x74 => some (.kpoll f) | 0x75 => some (.fence f) | 0x76 => some (.ksend f) | 0x77 => some (.krecv f)
  | 0x78 => some (.cpy f) | 0x79 => some (.cpyt f) | 0x7A => some (.cpyr f) | 0x7B => some (.cpyf f)
  | 0x7C => some (if f.w.getLsbD 0 then .cpyqCancel f else .cpyqQuery f)
  | 0x80 => some (.mint f) | 0x81 => some (.rwr f) | 0x82 => some (.rwrb f)
  | 0x83 => some (if f.fn = 1 then .emptyMask f else .empty f)
  | 0x84 => some (.fullq f)
  | 0x88 => some (if f.fn = 1 then .torcPass f else .torcTake f)
  | 0x89 => some (if f.fn = 1 then .slotRelease f else .slotClaim f)
  | 0x8A => some (.accz f) | 0x8B => some (.accld f) | 0x8D => some (.accrd f) | 0x8E => some (.drain f)
  | 0x8F => some (if f.fn = 1 then .accqRsum f else .accqStatus f)
  | 0x90 => some (if f.fn = 0 then .barArrive f else if f.fn = 1 then .barWait f else .barSync f)
  | 0x91 => some (.spawn f) | 0x92 => some (.evsig f) | 0x93 => some (.evwait f) | 0x94 => some (.qpush f)
  | 0x95 => some (.qpop f) | 0x96 => some (.qkick f)
  | 0x97 => some (if f.fn.getLsbD 0 then .pubvFinal f else .pubv f)
  | 0x98 => some (.stopref f)
  | 0x99 => some (if f.fn.getLsbD 0 then .vchkX f else .vchk f)
  | 0xA0 => some (.trap f) | 0xA1 => some (.csrr f)
  | 0xA2 => some (if f.w = 0x21 then .csrwIndclr f else .csrw f)
  | _ => none

/-- The instruction that a word's fields name. -/
def Fields.name : Fields → Option Instr
  | .v op f => nameV op f
  | .m op f => nameM op f
  | .c op f => nameC op f
  | .x f => some (.mma f)

/-- The opcode and fields of an instruction; none for an event. -/
def fieldsOf (i : Instr) : Option Fields :=
  match i with
  | .nop f => some (.c 0x00 f) | .bra f => some (.c 0x01 f) | .brx f => some (.c 0x02 f) | .call f => some (.c 0x03 f)
  | .callx f => some (.c 0x04 f) | .enter f => some (.c 0x05 f) | .leave f => some (.c 0x06 f)
  | .ret f => some (.c 0x07 f) | .exit f => some (.c 0x08 f) | .waitm f => some (.c 0x09 f)
  | .yield f => some (.c 0x0A f) | .brk f => some (.c 0x0B f)
  | .mov f => some (.v 0x10 f) | .movi f => some (.v 0x11 f) | .sel f => some (.v 0x12 f) | .iadd f => some (.v 0x13 f)
  | .isub f => some (.v 0x14 f) | .iaddc f => some (.v 0x15 f) | .isubb f => some (.v 0x16 f)
  | .imul f => some (.v 0x17 f) | .imulh f => some (.v 0x18 f) | .imad f => some (.v 0x19 f)
  | .imadw f => some (.v 0x1A f) | .imin f => some (.v 0x1B f) | .imax f => some (.v 0x1C f)
  | .iabs f => some (.v 0x1D f) | .ineg f => some (.v 0x1E f) | .idot4 f => some (.v 0x1F f)
  | .lop3 f => some (.v 0x20 f) | .shl f => some (.v 0x21 f) | .shr f => some (.v 0x22 f) | .sha f => some (.v 0x23 f)
  | .rot f => some (.v 0x24 f) | .fshf f => some (.v 0x25 f) | .bfe f => some (.v 0x26 f) | .bfi f => some (.v 0x27 f)
  | .popc f => some (.v 0x28 f) | .clz f => some (.v 0x29 f) | .brev f => some (.v 0x2A f)
  | .idiv f => some (.v 0x2B f) | .irem f => some (.v 0x2C f)
  | .fadd f => some (.v 0x30 f) | .fsub f => some (.v 0x31 f) | .fmul f => some (.v 0x32 f)
  | .ffma f => some (.v 0x33 f) | .fmin f => some (.v 0x34 f) | .fmax f => some (.v 0x35 f)
  | .frcp f => some (.v 0x36 f) | .frsq f => some (.v 0x37 f) | .fsqrt f => some (.v 0x38 f)
  | .fdiv f => some (.v 0x39 f) | .fexp2 f => some (.v 0x3A f) | .flog2 f => some (.v 0x3B f)
  | .fsin f => some (.v 0x3C f) | .fcos f => some (.v 0x3D f) | .ftanh f => some (.v 0x3E f)
  | .fscale f => some (.v 0x3F f) | .fclass f => some (.v 0x40 f) | .frnd f => some (.v 0x41 f)
  | .cvt f => some (.v 0x42 f) | .pack f => some (.v 0x43 f) | .unpack f => some (.v 0x44 f)
  | .setp f => some (.v 0x50 f) | .plop f => some (.v 0x51 f) | .vote f => some (.v 0x52 f)
  | .shfl f => some (.v 0x53 f) | .wred f => some (.v 0x54 f) | .wscan f => some (.v 0x55 f)
  | .xshfl f => some (.v 0x56 f)
  | .ld f => some (.m 0x60 f) | .st f => some (.m 0x61 f) | .stT f => some (.m 0x61 f) | .ldu f => some (.m 0x62 f)
  | .pref f => some (.m 0x63 f) | .discard f => some (.m 0x64 f)
  | .atom f => some (.m 0x65 f) | .atomT f => some (.m 0x65 f) | .atomc f => some (.m 0x66 f)
  | .atomcT f => some (.m 0x66 f) | .red f => some (.m 0x67 f)
  | .kcopy f => some (.m 0x70 f) | .kjoin f => some (.m 0x71 f) | .kclr f => some (.m 0x72 f)
  | .kwait f => some (.m 0x73 f) | .kpoll f => some (.m 0x74 f) | .fence f => some (.m 0x75 f)
  | .ksend f => some (.m 0x76 f) | .krecv f => some (.m 0x77 f)
  | .cpy f => some (.m 0x78 f) | .cpyt f => some (.m 0x79 f) | .cpyr f => some (.m 0x7A f)
  | .cpyf f => some (.m 0x7B f) | .cpyqQuery f => some (.m 0x7C f) | .cpyqCancel f => some (.m 0x7C f)
  | .mint f => some (.m 0x80 f) | .rwr f => some (.m 0x81 f) | .rwrb f => some (.m 0x82 f)
  | .empty f => some (.m 0x83 f) | .emptyMask f => some (.m 0x83 f) | .fullq f => some (.m 0x84 f)
  | .torcTake f => some (.m 0x88 f) | .torcPass f => some (.m 0x88 f) | .slotClaim f => some (.m 0x89 f)
  | .slotRelease f => some (.m 0x89 f) | .accz f => some (.m 0x8A f) | .accld f => some (.m 0x8B f)
  | .mma f => some (.x f) | .accrd f => some (.m 0x8D f) | .drain f => some (.m 0x8E f)
  | .accqStatus f => some (.m 0x8F f) | .accqRsum f => some (.m 0x8F f)
  | .barArrive f => some (.m 0x90 f) | .barWait f => some (.m 0x90 f) | .barSync f => some (.m 0x90 f)
  | .spawn f => some (.m 0x91 f) | .evsig f => some (.m 0x92 f) | .evwait f => some (.m 0x93 f)
  | .qpush f => some (.m 0x94 f) | .qpop f => some (.m 0x95 f) | .qkick f => some (.m 0x96 f)
  | .pubv f => some (.m 0x97 f) | .pubvFinal f => some (.m 0x97 f) | .stopref f => some (.m 0x98 f)
  | .vchk f => some (.m 0x99 f) | .vchkX f => some (.m 0x99 f)
  | .trap f => some (.m 0xA0 f) | .csrr f => some (.m 0xA1 f) | .csrw f => some (.m 0xA2 f)
  | .csrwIndclr f => some (.m 0xA2 f)
  | _ => none

/-- The encoding checks of an instruction; an event has none. -/
def encodingCheck (i : Instr) : Except DecodeError Unit :=
  match fieldsOf i with
  | none => .ok ()
  | some fs => if fs.name = some i then fieldsCheck fs else .error .function

end Sys2Proof.Machine
end

