-- ==== Sys2Proof/Machine/Addr.lean ====
section
/-! DEFINITION. The physical map (R56), home slices (R59, R76), page tables (R60 to R66) and translation as the TLBs and
the walk cache keep it (R67 to R71). -/

namespace Sys2Proof.Machine

/-! ## The physical map and home slices -/

def gib24 : Nat := 24 * 2 ^ 30

/-- The address lies in near memory of the local package (R56). -/
def inNear (pa : Nat) : Bool := pa < 4 * 2 ^ 36 && pa % 2 ^ 36 < gib24

/-- The address lies in far memory of the local package (R56). -/
def inFar (pa : Nat) : Bool := 2 ^ 40 ≤ pa && pa < 2 ^ 41

/-- Every other address is a hole (R56, R57). -/
def isHole (pa : Nat) : Bool := !(inNear pa || inFar pa)

/-- The die whose window holds the address (R56, R76). -/
def owningDie (pa : Nat) : Nat := if 2 ^ 40 ≤ pa then (pa - 2 ^ 40) / 2 ^ 38 % 4 else pa / 2 ^ 36 % 4

/-- Fold of R76 over the groups of n bits of a 45-bit number. -/
def foldBits (x n : Nat) : Nat → Nat
  | 0 => 0
  | fuel + 1 => Nat.xor (x % 2 ^ n) (foldBits (x / 2 ^ n) n fuel)

/-- HomeSlice of R76 as package-wide slice number: policy 0 die-local, 1 spread, 2 far. -/
def homeSlice (pa policy : Nat) (ctx : Bool) : Nat :=
  let line := pa / 128 % 2 ^ 45
  let line := if ctx then line - line % 128 else line
  if policy = 1 then foldBits line 11 5 % 2048
  else 512 * owningDie pa + foldBits line 9 5 % 512

def sliceDie (h : Nat) : Nat := h / 512
def coreDie (c : Nat) : Nat := c / 16

/-- The reflector slice of the pair of a core (R78). -/
def reflector (core : Nat) : Nat := 512 * (core / 16) + 64 * (core % 16 / 2) + 63

/-- The effective policy of R59: none for the home-mismatch case. -/
def effPolicy (pa home : Nat) : Option Nat :=
  if inFar pa then some 2 else if home = 2 then none else some home

/-! ## The tables -/

/-- A fault of R72: its class-3 code of R381 and, of a malformed entry, the entry read. -/
structure TFault where
  code : Nat
  aux : Dword := 0
deriving DecidableEq, Repr, Inhabited

def tNonCanonical : Nat := 1
def tNotPresent : Nat := 2
def tMalformed : Nat := 3
def tPermission : Nat := 4
def tAttribute : Nat := 5
def tHomeMismatch : Nat := 6
def tHole : Nat := 7
def tRemote : Nat := 8
def tMisaligned : Nat := 9
def tBounds : Nat := 10
def tConstant : Nat := 11
def tFetch : Nat := 12
def tMemory : Nat := 13
def tScope : Nat := 14
def tRoute : Nat := 15

/-- What an entry is, by R61 to R64, at its level. -/
inductive PteKind where
  | table (base : Nat)
  | leaf (t : Trans)
deriving DecidableEq, Repr

/-- Bits that must be 0 in the page address of a leaf at a level (R61). -/
def leafAligned (level page : Nat) : Bool :=
  if level = 3 then page % 2 ^ 42 = 0 else if level = 2 then page % 2 ^ 29 = 0 else true

/-- One entry decoded (R62 to R64). -/
def decodePte (level : Nat) (e : Dword) : Except TFault PteKind :=
  let page := (e.extractLsb' 16 32).toNat * 65536
  let node := e.extractLsb' 48 16
  let rem := e.getLsbD 10
  if !e.getLsbD 0 then .error ⟨tNotPresent, 0⟩
  else if e.getLsbD 1 then
    if e.extractLsb' 11 5 ≠ 0 || (!rem && node ≠ 0) || e.extractLsb' 5 2 = 3
        || (e.getLsbD 7 && e.getLsbD 8) || (e.getLsbD 9 && e.getLsbD 3)
        || (rem && (e.getLsbD 7 || e.getLsbD 8)) || !leafAligned level page then .error ⟨tMalformed, e⟩
    else .ok (.leaf
      { page := page, node := if rem then some node else none, rosh := e.getLsbD 9, ctx := e.getLsbD 8,
        arena := e.getLsbD 7, home := (e.extractLsb' 5 2).toNat, x := e.getLsbD 4, w := e.getLsbD 3,
        r := e.getLsbD 2, level := level })
  else if level = 1 || e.extractLsb' 1 15 ≠ 0 || node ≠ 0 then .error ⟨tMalformed, e⟩
  else .ok (.table page)

/-- The index of a virtual address at a level (R60). -/
def vaIndex (va : Dword) (level : Nat) : Nat := va.toNat / 2 ^ (16 + 13 * (level - 1)) % 8192

/-- The size in bits of a page whose leaf stands at the level (R61). -/
def pageBits (level : Nat) : Nat := 16 + 13 * (level - 1)

/-- The entries of a table that are not 0. -/
def tableEntries (m : Memory) (table : Nat) : List Dword :=
  ((m.filterMap (fun c => if table ≤ c.1 && c.1 < table + 65536 then some (c.1 / 8 * 8) else none)).dedup).map
    (fun a => BitVec.ofNat 64 (m.nat a 8))

/-- The leaves that are reached from a table at a level. -/
def leavesFrom (m : Memory) : Nat → Nat → List Trans
  | 0, _ => []
  | level + 1, table => (tableEntries m table).flatMap (fun e =>
      match decodePte (level + 1) e with
      | .ok (.leaf t) => [t]
      | .ok (.table b) => leavesFrom m level b
      | .error _ => [])

/-- The home slice that a leaf gives a line of its page. -/
def leafHome (line : Nat) (t : Trans) : Option Nat :=
  let pa := 128 * line
  if t.node.isNone && t.page ≤ pa && pa < t.page + 2 ^ pageBits t.level then
    (effPolicy pa t.home).map (fun p => homeSlice pa p t.ctx)
  else none

/-- The home slices of a line: those that the mappings of live contexts give it, and those through which it has been
accessed since reset (R59). -/
def lineHomes (s : State) (line : Nat) : List Nat :=
  (Tab.get [] s.homes line ++ s.contexts.flatMap (fun c =>
    if c.2.live then
      (match c.2.root with
        | some root => (leavesFrom s.mem 3 root).filterMap (leafHome line)
        | none => [])
    else [])).dedup

/-- The line has another home slice too: it is mapped through two effective policies, and every access to it gives
contained results (R59). -/
def mixedHome (s : State) (home line : Nat) : Bool := (lineHomes s line).any (fun h => h ≠ home)

/-- The line has two home slices (R59). -/
def twoHomes (s : State) (line : Nat) : Bool := 2 ≤ (lineHomes s line).length

/-- The entry read at a level from a table (R62), with the hole and memory errors of the read; a contained result where its
line has two homes (R59). -/
def readPte (s : State) (table : Nat) (va : Dword) (level : Nat) : Except TFault Dword :=
  let a := table + 8 * vaIndex va level
  if isHole a then .error ⟨tHole, 0⟩
  else if s.poison.contains (a / 128) then .error ⟨tMemory, 0⟩
  else if twoHomes s (a / 128) then .ok (BitVec.ofNat 64 (Config.freeValue s.free))
  else .ok (BitVec.ofNat 64 (s.mem.nat a 8))

/-- The walk of R62 from a table at a level downward. -/
def walkFrom (s : State) (va : Dword) : Nat → Nat → Except TFault Trans
  | 0, _ => .error ⟨tMalformed, 0⟩
  | level + 1, table =>
    match readPte s table va (level + 1) with
    | .error f => .error f
    | .ok e =>
      match decodePte (level + 1) e with
      | .error f => .error f
      | .ok (.leaf t) => .ok t
      | .ok (.table b) => walkFrom s va level b

/-- The whole walk of a context. One without a root table has no translation, whatever the address (R62, R74). -/
def walk (s : State) (ctx : Nat) (va : Dword) : Except TFault Trans :=
  match (s.context ctx).root with
  | none => .error ⟨tNotPresent, 0⟩
  | some root => if va.extractLsb' 55 9 ≠ 0 then .error ⟨tNonCanonical, 0⟩ else walkFrom s va 3 root

/-! ## Cached translations -/

def tlbHit (tlb : List TlbEntry) (ctx : Nat) (va : Dword) : Option Trans :=
  (tlb.find? (fun e => e.ctx = ctx && e.vpage = va.toNat / 2 ^ pageBits e.tr.level)).map (·.tr)

/-- The walks that begin at a table pointer cached on a die (R67). -/
def walkHits (s : State) (die ctx : Nat) (va : Dword) : List (Except TFault Trans) :=
  ((s.die die).walks.filter (fun w => w.1 = ctx && w.2.2.1 = va.toNat / 2 ^ pageBits (w.2.1 + 1))).map
    (fun w => walkFrom s va w.2.1 w.2.2.2)

def sameTrans (a b : Except TFault Trans) : Bool :=
  match a, b with
  | .ok x, .ok y => x = y
  | .error x, .error y => x = y
  | _, _ => false

/-- The leaf used by one access of a core: the tables as they stand, or any cached translation that differs from them
(R70, R71); k numbers the pages that choose for themselves. -/
def lookup (s : State) (core ctx : Nat) (va : Dword) (k : Nat) : Except TFault Trans :=
  let now := walk s ctx va
  if (s.context ctx).root.isNone || va.extractLsb' 55 9 ≠ 0 then now
  else
    let old := ((tlbHit (s.core core).tlb ctx va).toList ++ (tlbHit (s.die (coreDie core)).tlb ctx va).toList).map
      Except.ok ++ walkHits s (coreDie core) ctx va
    let diff := old.filter (fun o => !sameTrans o now)
    if diff.isEmpty then now else ((now :: diff)[Config.pick (s.free + k) % (diff.length + 1)]?).getD now

/-- The leaf used by an access of a split: what the walk that it waited for found, or a lookup (R68, R69). -/
def lookupHeld (held : List Walked) (s : State) (core ctx : Nat) (va : Dword) (k : Nat) : Except TFault Trans :=
  match held.find? (fun h => h.page = va.toNat / 65536) with
  | some h =>
    match h.tr with
    | some t => .ok t
    | none => .error ⟨h.code, h.aux⟩
  | none => lookup s core ctx va k

/-- Who accesses, for the permissions of R66. -/
inductive Agent where
  | fetch | load | store | atomic | spill | image | mint | const | host
  /-- a read of the matrix engine or the drain unit (R282, R287) -/
  | tile
deriving DecidableEq, Repr

/-- R66: the fault code of an access that the leaf does not permit; the attribute fault comes first. -/
def permFault (a : Agent) (store : Bool) (t : Trans) : Option Nat :=
  match a with
  | .fetch => if t.x then none else some tPermission
  | .load => if t.arena then some tAttribute else if t.r then none else some tPermission
  | .tile => if t.arena || t.ctx then some tAttribute else if t.r then none else some tPermission
  | .store => if t.arena || t.ctx then some tAttribute else if t.w then none else some tPermission
  | .atomic => if t.arena || t.ctx then some tAttribute else if t.r && t.w then none else some tPermission
  | .spill => if !t.arena then some tAttribute else if t.r && t.w then none else some tPermission
  | .image => if !t.ctx then some tAttribute else if t.r && t.w then none else some tPermission
  | .mint => if t.ctx then none else some tAttribute
  | .const => if t.arena then some tAttribute else if t.r then none else some tPermission
  | .host => if store then (if t.w then none else some tPermission) else (if t.r then none else some tPermission)

/-- A translated address: physical address, leaf, and home slice where the page is local. -/
structure Phys where
  pa : Nat
  tr : Trans
  home : Nat
deriving DecidableEq, Repr, Inhabited

/-- The physical address and home slice that a leaf gives, with the faults of R57 and R59. -/
def place (t : Trans) (va : Dword) : Except TFault Phys :=
  let pa := t.page + va.toNat % 2 ^ pageBits t.level
  if t.node.isSome then .ok ⟨pa, t, 0⟩
  else if isHole pa then .error ⟨tHole, 0⟩
  else match effPolicy pa t.home with
    | none => .error ⟨tHomeMismatch, 0⟩
    | some p => .ok ⟨pa, t, homeSlice pa p t.ctx⟩

/-- Translation of one access, with the permissions of R66. Which fault is reported of an access that both lacks a
permission and meets a hole or a home mismatch is the model's choice: the permission or attribute fault (log entry 95). -/
def translateHeld (held : List Walked) (s : State) (core ctx : Nat) (a : Agent) (store : Bool) (va : Dword) (k : Nat) :
    Except TFault Phys :=
  match lookupHeld held s core ctx va k with
  | .error f => .error f
  | .ok t =>
    match permFault a store t with
    | some c => .error ⟨c, 0⟩
    | none => place t va

/-- Translation for an agent that keeps no walk results. -/
def translate (s : State) (core ctx : Nat) (a : Agent) (store : Bool) (va : Dword) (k : Nat) : Except TFault Phys :=
  translateHeld [] s core ctx a store va k

/-- The entries of a TLB that may hold a page's translation: all of a core's, those of one of 2,048 sets of 8 of a die's
(R67). The set is the model's choice: the page number's low bits (log entry 96). -/
def TlbEntry.set (e : TlbEntry) : Nat := e.vpage % 2048

/-- A core TLB keeps 256 entries. Which one leaves is the model's choice, the oldest: R67 gives no order (log entry 96). -/
def tlbInsert (tlb : List TlbEntry) (e : TlbEntry) : List TlbEntry :=
  let rest := tlb.filter (fun x => x ≠ e && !(x.ctx = e.ctx && x.vpage = e.vpage && x.tr.level = e.tr.level))
  (rest ++ [e]).drop (rest.length + 1 - 256)

/-- A die TLB keeps 8 entries in each of 2,048 sets, the oldest of a set leaving first (R67, log entry 96). -/
def dieTlbInsert (tlb : List TlbEntry) (e : TlbEntry) : List TlbEntry :=
  let rest := tlb.filter (fun x => x ≠ e && !(x.ctx = e.ctx && x.vpage = e.vpage && x.tr.level = e.tr.level))
  let set := rest.filter (fun x => x.set = e.set)
  (if set.length < 8 then rest else match set.head? with | some v => rest.erase v | none => rest) ++ [e]

/-- Translations found in the die's TLB come into the core's (R67). -/
def touchTlb (core ctx : Nat) (va : Dword) (s : State) : State :=
  if (tlbHit (s.core core).tlb ctx va).isSome then s
  else match tlbHit (s.die (coreDie core)).tlb ctx va with
    | some t => s.modCore core (fun c => { c with tlb := tlbInsert c.tlb ⟨ctx, va.toNat / 2 ^ pageBits t.level, t⟩ })
    | none => s

/-- The 64 KiB pages of some addresses, each once. -/
def pagesOf (vas : List Dword) : List Nat := (vas.map (fun v => v.toNat / 65536)).dedup

/-- The translations of an instruction's pages have been used, and the choices of those accesses too. -/
def touchTlbs (core ctx : Nat) (vas : List Dword) (s : State) : State :=
  let s' := (pagesOf vas).foldl (fun s p => touchTlb core ctx (BitVec.ofNat 64 (p * 65536)) s) s
  { s' with free := s'.free + vas.length }

/-- The pages that a split's instruction has no translation for (R67, R69): neither TLB holds one and no walk has ended
for it. An address that needs no walk, by R60 and R74, misses nothing. -/
def pagesMissing (s : State) (held : List Walked) (core ctx : Nat) (vas : List Dword) : List Nat :=
  if (s.context ctx).root.isNone then []
  else (pagesOf (vas.filter (fun v => v.extractLsb' 55 9 = 0))).filter (fun p =>
    let va := BitVec.ofNat 64 (p * 65536)
    !held.any (fun h => h.page = p) && (tlbHit (s.core core).tlb ctx va).isNone
      && (tlbHit (s.die (coreDie core)).tlb ctx va).isNone)

/-- An entry matches a shootdown of a context and range (R70); length 0 is the whole range. -/
def shot (ctx : Nat) (base length : Nat) (ectx lo bits : Nat) : Bool :=
  ectx = ctx && (length = 0 || (lo < base + length && base < lo + 2 ^ bits))

/-- A split forgets the walk results of a range, and asks again for the pages of it that it waits for. -/
def Split.forget (sp : Split) (hit : Nat → Bool) : Split :=
  { sp with
    held := sp.held.filter (fun h => !hit h.page)
    wait := match sp.wait with
      | .walk ps => if ps.any hit then .none else sp.wait
      | w => w }

/-- Every split of a context's warps changed. -/
def State.mapSplits (s : State) (ctx : Nat) (f : Warp → Split → Split) : State :=
  { s with teams := s.teams.map (fun t =>
      if (s.launches.find? t.2.launch).any (fun l => l.ctx = ctx) then
        (t.1, { t.2 with warps := t.2.warps.map (fun w => (w.1, { w.2 with splits := w.2.splits.map (fun x => (x.1, f w.2 x.2)) })) })
      else t) }

/-- Every core TLB, die TLB and walk cache drops the matching entries, and the walks in progress for the range end
(R71). -/
def dropTranslations (ctx base length : Nat) (s : State) : State :=
  let keep := fun (e : TlbEntry) =>
    !shot ctx base length e.ctx (e.vpage * 2 ^ pageBits e.tr.level) (pageBits e.tr.level)
  let hit := fun (p : Nat) => shot ctx base length ctx (65536 * p) 16
  let s := s.mapSplits ctx (fun _ sp => sp.forget hit)
  { s with
    cores := s.cores.map (fun p => (p.1, { p.2 with
      tlb := p.2.tlb.filter keep, misses := p.2.misses.filter (fun m => !(m.1 = ctx && hit m.2)) }))
    dies := s.dies.map (fun p => (p.1, { p.2 with
      tlb := p.2.tlb.filter keep
      misses := p.2.misses.filter (fun m => !(m.ctx = ctx && hit m.page))
      walks := p.2.walks.filter (fun w =>
        !shot ctx base length w.1 (w.2.2.1 * 2 ^ pageBits (w.2.1 + 1)) (pageBits (w.2.1 + 1))) })) }

end Sys2Proof.Machine
end

