-- ==== Sys2Proof/Machine/Keys.lean ====
section
/-! DEFINITION. The key file of a warp: production (R94), completion in production order (R96, R103), consumption
(R97, R98), the FENCE classes (R111, R112) and promotion's demand (R100). -/

namespace Sys2Proof.Machine

/-- The five scopes, as codes of R35. -/
def allScopes : List Nat := [0, 1, 2, 3, 4]
def wideScopes : List Nat := [1, 2, 3, 4]

def clsLL : Nat := 0
def clsLS : Nat := 1
def clsCR : Nat := 2
def clsCW : Nat := 3
def clsMR : Nat := 4
def clsMW : Nat := 5
def clsAT : Nat := 6

def Warp.key (w : Warp) (k : Nat) : Key := w.keys.get {} k
def Warp.cls (w : Warp) (x : Nat) : FClass := w.classes.get {} x
def Key.lead (k : Key) (sc : Nat) : BitVec 16 := (k.c.get {} sc).lead
def FClass.lead (x : FClass) (sc : Nat) : BitVec 16 := (x.d.get {} sc).lead

/-- The leading count takes every held completion that follows it (R96); fuel bounds the run. -/
def Count.run : Nat → Count → Count
  | 0, c => c
  | n + 1, c =>
    if c.early.contains (c.lead + 1) then Count.run n ⟨c.lead + 1, c.early.erase (c.lead + 1)⟩ else c

/-- Production n is complete (R96). -/
def Count.add (c : Count) (n : BitVec 16) : Count :=
  Count.run (c.early.length + 1) { c with early := c.early ++ [n] }

/-- STAT takes one failure code (R103): FCOUNT saturates, FIRST keeps the first code. -/
def statTake (st : BitVec 32) (code : Nat) : BitVec 32 :=
  let fc := (st.extractLsb' 16 16).toNat
  let fc' := BitVec.ofNat 16 (if fc = 65535 then fc else fc + 1)
  let indet := st.getLsbD 9 || code = 6
  let fail := st.getLsbD 8 || code ≠ 6
  let first := if st.extractLsb' 0 8 = 0 then BitVec.ofNat 8 code else st.extractLsb' 0 8
  fc' ++ (BitVec.ofNat 6 0 ++ (BitVec.ofBool indet ++ (BitVec.ofBool fail ++ first)))

/-- The codes of the productions taken into the leading count, in production order (R103). -/
def Key.takeCodes : Nat → BitVec 16 → Key → Key
  | 0, _, k => k
  | n + 1, from_, k =>
    let i := from_ + 1
    Key.takeCodes n i
      (match k.codes.find? (fun e => e.1 = i) with
       | some e => { k with stat := statTake k.stat e.2, codes := k.codes.filter (fun x => x.1 ≠ i) }
       | none => k)

/-- Production n of the key is complete at the scopes, with a code of R103. -/
def Key.complete (k : Key) (n : BitVec 16) (scopes : List Nat) (code : Nat) : Key :=
  let old := k.lead 0
  let k := if code ≠ 0 && scopes.contains 0 then { k with codes := k.codes ++ [(n, code)] } else k
  let k := { k with c := scopes.foldl (fun t sc => t.set sc ((t.get {} sc).add n)) k.c }
  Key.takeCodes (k.lead 0 - old).toNat old k

def FClass.complete (x : FClass) (n : BitVec 16) (scopes : List Nat) : FClass :=
  { x with d := scopes.foldl (fun t sc => t.set sc ((t.get {} sc).add n)) x.d }

/-- The warp's key and classes take a completion of an operation (R95, R96). -/
def Warp.complete (w : Warp) (pk : Nat) (prodn : BitVec 16) (cls : List (Nat × BitVec 16)) (scopes : List Nat)
    (code : Nat) : Warp :=
  { w with
    keys := w.keys.set pk ((w.key pk).complete prodn scopes code)
    classes := cls.foldl (fun t e => t.set e.1 ((t.get {} e.1).complete e.2 scopes)) w.classes }

/-- The classes alone: a copy's reads (R95). -/
def Warp.completeCls (w : Warp) (cls : List (Nat × BitVec 16)) (scopes : List Nat) : Warp :=
  { w with classes := cls.foldl (fun t e => t.set e.1 ((t.get {} e.1).complete e.2 scopes)) w.classes }

/-- P_pk rises by one, its own target element follows (R94), and the class counts rise (R111). -/
def Warp.produce (w : Warp) (pk : Nat) (cls : List Nat) : Warp :=
  let k := w.key pk
  let p := k.p + 1
  let k' := { k with p := p, t := if pk = 0 then k.t else k.t.set pk p }
  { w with
    keys := w.keys.set pk k'
    classes := cls.foldl (fun t x => t.modify {} x (fun c => { c with q := c.q + 1 })) w.classes }

/-- C has reached T, both taken by their distance behind P (R98). -/
def reached (p c t : BitVec 16) : Bool := (p - c).toNat ≤ (p - t).toNat

/-- Element j of a key's target is met at a scope (R97). -/
def Warp.targetMet (w : Warp) (c sc j : Nat) : Bool :=
  let kj := w.key j
  reached kj.p (kj.lead sc) ((w.key c).t.get 0 j)

/-- Satisfied(c, S) of R97; lockets are rows ring + 96 + n. -/
def Warp.satisfied (w : Warp) (ring c sc : Nat) : Bool :=
  c = 0 || (List.range 16).all (fun j => w.targetMet c sc j)
    && (List.range 32).all (fun n => !(w.key c).l.getLsbD n || (w.row (ring + 96 + n)).full)

/-- The keys whose unmet targets a wait at scope sc promotes (R100). -/
def Warp.unmet (w : Warp) (c sc : Nat) : List Nat :=
  if c = 0 then [] else (List.range 16).filter (fun j => !w.targetMet c sc j)

/-- A production into the key has to stall (R98). -/
def Warp.keyStalls (w : Warp) (pk : Nat) : Bool := ((w.key pk).p - (w.key pk).lead 4).toNat = 65535

/-- A production into the class has to stall (R98). -/
def Warp.classStalls (w : Warp) (x : Nat) : Bool := ((w.cls x).q - (w.cls x).lead 4).toNat = 65535

/-- A production into the key, or into one of the classes, has to stall (R98). -/
def Warp.productionStalls (w : Warp) (pk : Nat) (cls : List Nat) : Bool := w.keyStalls pk || cls.any w.classStalls

/-- A fence point's condition holds (R112). -/
def Warp.fenceMet (w : Warp) (f : FenceSlot) : Bool :=
  (List.range 7).all (fun x => !f.pred.getLsbD x
    || reached (w.cls x).q ((w.cls x).lead f.scope) (f.n.get 0 x))

/-- The fence slots whose condition holds are free again (R112). -/
def Warp.freeFences (w : Warp) : Warp := { w with fences := w.fences.filter (fun e => !w.fenceMet e.2) }

/-- A memory-class operation of these classes waits on a fence slot (R112). -/
def Warp.fenceHolds (w : Warp) (cls : List Nat) : Bool :=
  w.fences.any (fun e => cls.any (fun x => e.2.succ.getLsbD x) && !w.fenceMet e.2)

/-- FENCE takes the lowest free slot (R112). -/
def Warp.addFence (w : Warp) (slot sc : Nat) (pred succ : BitVec 7) : Warp :=
  { w with fences := w.fences.set slot ⟨sc, pred, succ,
      (List.range 7).foldl (fun t x => if pred.getLsbD x then t.set x (w.cls x).q else t) []⟩ }

/-- The lowest free fence slot, if there is one. -/
def Warp.freeFence (w : Warp) : Option Nat := (List.range 4).find? (fun i => (w.fences.find? i).isNone)

/-- The later of two targets by distance behind P (R98, R108). -/
def laterTarget (p a b : BitVec 16) : BitVec 16 := if (p - a).toNat ≤ (p - b).toNat then a else b

end Sys2Proof.Machine
end

