-- ==== Sys2Proof/Machine/L1.lean ====
section
/-! DEFINITION. The L1 data cache of a core (R119, R139 to R141), its update-only lines (R186 to R188), and what sends
lines back: promotion (R100), FENCE (R112), bypassing accesses, eviction and saves. A set lists its lines from the
least to the most recent. -/

namespace Sys2Proof.Machine

/-- How a core names a line: by its number, and by the node that owns it where that is another one. R139 gives the tag
of a line no node; log entry 94. -/
def lineKey (rem : Option (BitVec 16)) (line : Nat) : Nat :=
  match rem with
  | none => line
  | some n => line + 2 ^ 45 * (n.toNat + 1)

def Part.key (p : Part) : Nat := lineKey p.rem p.line
def Acc.key (a : Acc) : Nat := lineKey a.rem (a.pa / 128)

def l1Set (line : Nat) : Nat := line % 128

def Core.l1Find (c : Core) (line : Nat) : Option L1Line := c.l1.find? (fun x => x.line = line)

/-- The line's copy replaced in its place. -/
def Core.l1Replace (c : Core) (l : L1Line) : Core :=
  { c with l1 := c.l1.map (fun x => if x.line = l.line then l else x) }

def Core.l1Drop (c : Core) (line : Nat) : Core := { c with l1 := c.l1.filter (fun x => x.line ≠ line) }

/-- HINT after an access with hint ch (R141). -/
def Core.newHint (c : Core) (line ch old : Nat) : Nat :=
  if ch = 0 then old
  else if ch = 2 && 8 ≤ (c.l1.filter (fun x => l1Set x.line = l1Set line && x.line ≠ line && x.hint = 2)).length then 0
  else ch

/-- An access makes a line the most recent and sets its hint (R141). -/
def Core.l1Touch (c : Core) (line ch : Nat) : Core :=
  match c.l1Find line with
  | none => c
  | some l => { c with l1 := (c.l1.filter (fun x => x.line ≠ line)) ++ [{ l with hint := c.newHint line ch l.hint }] }

/-- The victim of R141 in the set of a line. -/
def Core.l1Victim (c : Core) (line : Nat) : Option L1Line :=
  let set := c.l1.filter (fun x => l1Set x.line = l1Set line)
  if set.length < 16 then none
  else match set.find? (fun x => x.hint = 1 || x.hint = 3) with
    | some v => some v
    | none => match set.find? (fun x => x.hint = 0) with
      | some v => some v
      | none => set.head?

/-- A copy is sent back: a dirty line writes back and stays clean (R140), an update-only line returns its partial result
and leaves (R188). -/
def sendBack (core : Nat) (line : Nat) (s : State) : State :=
  match (s.core core).l1Find line with
  | none => s
  | some l =>
    match l.state with
    | .dty =>
      (s.modCore core (fun c => c.l1Replace { l with state := .cln, bmask := 0, kmask := 0, ops := [] })).push
        [.writeBackArrival core l.home line l.data l.bmask l.ops]
    | .uo =>
      (s.modCore core (fun c => c.l1Drop line)).push
        [.partialResultCombine core l.home line l.data l.bmask l.fn l.ty l.ops]
    | _ => s

def sendBackAll (core : Nat) (lines : List Nat) (s : State) : State := lines.foldl (fun s l => sendBack core l s) s

/-- The copy leaves the L1, sent back first if it is dirty or update-only (R119, R187). -/
def returnLine (core line : Nat) (s : State) : State := (sendBack core line s).modCore core (fun c => c.l1Drop line)

/-- A line takes a place in the L1, its set's victim leaving first (R141); an L1 holds at most 256 update-only lines
(R187). -/
def l1Alloc (core : Nat) (l : L1Line) (ch : Nat) (s : State) : State :=
  let s := if ((s.core core).l1Find l.line).isSome then returnLine core l.line s else s
  let s := match (s.core core).l1Victim l.line with
    | some v => returnLine core v.line s
    | none => s
  let uo := (s.core core).l1.filter (fun x => x.state = .uo)
  let s := if l.state = .uo && 256 ≤ uo.length then
      (match uo.head? with | some v => sendBack core v.line s | none => s) else s
  s.modCore core (fun c => { c with l1 := c.l1 ++ [{ l with hint := c.newHint l.line ch 0 }] })

/-- The line is to go back: its mask holds one of the keys (R100), or its class is one whose count
stalls a production: LS of a dirty line, AT of an update-only one, whatever its mask (R98). -/
def L1Line.wanted (keys cls : List Nat) (l : L1Line) : Bool :=
  keys.any (fun j => 1 ≤ j && l.kmask.getLsbD (j - 1))
    || l.state = .dty && cls.contains clsLS || l.state = .uo && cls.contains clsAT

/-- Promotion of R100, and of R98 for a class: every dirty or update-only line that is wanted goes back. -/
def promote (core : Nat) (keys cls : List Nat) (s : State) : State :=
  sendBackAll core (((s.core core).l1.filter (fun l => l.wanted keys cls)).map (·.line)) s

/-- Every dirty and update-only line goes back, whatever its mask (R104, R112). -/
def flushL1 (core : Nat) (s : State) : State := sendBackAll core ((s.core core).l1.map (·.line)) s

/-- Every clean line is invalidated (R106). -/
def dropClean (core : Nat) (s : State) : State :=
  s.modCore core (fun c => { c with l1 := c.l1.filter (fun l => l.state ≠ .cln) })

/-- The core's copy is dirty or update-only. -/
def Core.owes (c : Core) (line : Nat) : Bool := (c.l1Find line).any (fun l => l.state = .dty || l.state = .uo)

/-- The bytes of an update of n bytes at a place, as data and mask. -/
def placeBytes (off : Nat) (bs : List Byte) (d : LineData) (m : ByteMask) : LineData × ByteMask :=
  (bs.zipIdx).foldl (fun p e => (lineSetByte p.1 (off + e.2) e.1, p.2 ||| BitVec.ofNat 128 (2 ^ (off + e.2)))) (d, m)

/-- A line's bytes overlaid with those that a mask names. -/
def overlay (old new : LineData) (bm : ByteMask) : LineData :=
  (List.range 128).foldl (fun x k => if bm.getLsbD k then lineSetByte x k (lineByte new k) else x) old

/-- A CORE-scope store merges its bytes into the core's copy (R119, R139, R99). -/
def l1Write (core line : Nat) (d : LineData) (bm : ByteMask) (pk op : Nat) (s : State) : State :=
  match (s.core core).l1Find line with
  | none => s
  | some l =>
    s.modCore core (fun c => c.l1Replace
      { l with
        state := .dty, data := overlay l.data d bm, bmask := l.bmask ||| bm, scope := 0, ops := l.ops ++ [op],
        kmask := if pk = 0 then l.kmask else l.kmask ||| BitVec.ofNat 15 (2 ^ (pk - 1)) })

/-- A store at a wider scope updates the core's copy, which keeps its state (R99, R119, R139); it touches the line
(R141). -/
def l1Update (core line : Nat) (d : LineData) (bm : ByteMask) (scope ch : Nat) (s : State) : State :=
  match (s.core core).l1Find line with
  | none => s
  | some l =>
    s.modCore core (fun c => (c.l1Replace { l with data := overlay l.data d bm, scope := scope }).l1Touch line ch)

end Sys2Proof.Machine
end

