-- ==== Sys2Proof/Machine/Net.lean ====
section
/-! DEFINITION. Sending on the fabric: routes (R358), streams (R192, R363) and ports (R362). -/

namespace Sys2Proof.Machine

/-- What becomes of a request for another node: sent, waiting for one of the 64 places of its stream (R192), or failing
with a remote-access fault (R357, R358). -/
inductive Sent where
  | ok (s : State) (seq : Nat)
  | full
  | noRoute
deriving DecidableEq, Repr

def State.stream (s : State) (n : BitVec 16) : Stream := s.streams.get {} n.toNat
def State.modStream (s : State) (n : BitVec 16) (f : Stream → Stream) : State :=
  { s with streams := s.streams.modify {} n.toNat f }

/-- The port of a die that a request for a line leaves by: one of the route mask's that are up, by a hash of the line
(R358, R362). -/
def routePort (s : State) (die : Nat) (mask : BitVec 16) (line : Nat) : Option Nat :=
  let ps := (List.range 16).filter (fun i => mask.getLsbD i && (s.ports.get {} (16 * die + i)).up)
  (ps[Config.portHash line % max 1 ps.length]?).map (fun p => 16 * die + p)

/-- The element size in bytes of an access type (R36). -/
def tySize (ty : Nat) : Nat :=
  if ty = 14 then 16
  else if 4 ≤ ty && ty ≤ 7 then 8
  else if ty = 10 || ty = 11 then 2
  else if ty = 12 || ty = 13 then 1
  else 4

/-- The 64-byte flits of a packet (R360). -/
def flitsOf (p : Packet) : Nat :=
  let up := fun (n : Nat) => (n + 63) / 64
  match p.kind with
  | .readReply | .write => 3
  | .atomic => 1 + up (p.lanes.length * (1 + (if p.cas then 2 else 1) * tySize p.ty))
  | .atomicReply => 1 + up (p.lanes.length * tySize p.ty)
  | .rwrite => 1 + up (4 * p.values.length)
  | _ => 1

/-- A packet leaves through a port, and its flits stand in the replay buffer, which holds 256 (R362). -/
def emit (port : Nat) (pkt : Packet) (s : State) : State :=
  let n := flitsOf pkt
  { s with
    txPackets := s.txPackets ++ [(port, pkt)]
    ports := s.ports.modify {} port (fun p =>
      let buf := p.buffer ++ (List.range n).map (fun i => (p.nextFlit + i, pkt))
      { p with buffer := buf.drop (buf.length - 256), nextFlit := p.nextFlit + n }) }

/-- A request of an operation's part is sent to a node from a die (R192, R358, R360). -/
def fabricSend (die : Nat) (node : BitVec 16) (pkt : Packet) (op part : Nat) (s : State) : Sent :=
  match s.nodeId with
  | none => .noRoute
  | some me =>
    let mask := (s.die die).routes.get 0 node.toNat
    if mask = 0 then .noRoute
    else match routePort s die mask (pkt.addr / 128) with
    | none => .full
    | some port =>
      let st := s.stream node
      if 64 ≤ st.unacked.length then .full
      else
        let pkt := { pkt with src := me, dst := node, seq := st.nextSeq, epoch := st.epoch }
        let s := s.modStream node (fun st =>
          { st with nextSeq := (st.nextSeq + 1) % 2 ^ 24, used := true,
                    unacked := st.unacked ++ [⟨pkt.seq, die, pkt, op, part, 0⟩] })
        .ok ((emit port pkt s).push [.fabricRetransmitTimeout node pkt.seq]) pkt.seq

/-- A reply or other packet that takes no place in the sender's window. -/
def fabricReply (port : Nat) (pkt : Packet) (s : State) : State := emit port pkt s

/-- A DISCARD leaves a contained result in every byte of a line: of its operation's seed, by the byte's place (R161). -/
def discardData (seed line : Nat) : LineData :=
  (List.range 128).foldl (fun d k => lineSetByte d k (BitVec.ofNat 8 (Config.freeByte seed (128 * line + k)))) 0

/-- The lanes of an operation on one line, by its key, ascending. -/
def lanesOn (o : Op) (key : Nat) : List Acc := o.lanes.filter (fun a => a.key = key)

/-- The bytes an operation's lanes store to one line: ascending lanes, so the highest lane's byte stays (R154). -/
def storeData (o : Op) (key : Nat) : LineData × ByteMask :=
  if o.kind = .discard then (discardData o.val.toNat key, BitVec.allOnes 128)
  else (lanesOn o key).foldl (fun p a =>
    placeBytes (a.pa % 128) (leBytes o.size (a.b.toNat + 2 ^ 64 * a.b2.toNat)) p.1 p.2) (0, 0)

/-- The lanes that one listed access stands for: all executing lanes where an s register base gives them one address
(R151), the lane itself otherwise; LDU's access is of its one lane (R159). -/
def accLanes (o : Op) (a : Acc) : Mask :=
  match o.instr with
  | .ldu _ => BitVec.ofNat 64 (2 ^ a.lane)
  | _ => if o.bcast = 0 then BitVec.ofNat 64 (2 ^ a.lane) else o.bcast

/-- The failing lanes as a fault names them (R152), for an instruction with one access for all lanes. -/
def faultLanes (o : Op) (bad : Mask) : Mask :=
  match o.instr with
  | .ldu _ => bad
  | _ => if o.bcast = 0 then bad else o.bcast

/-- The signet that an operation carries, in its first two registers (R211). -/
def sigOf (o : Op) : BitVec 128 := o.regs.getD 1 0 ++ o.regs.getD 0 0

/-- A request for a locket, which no scope check concerns; an RWRB is marked by order 1. -/
def Op.isLocket (o : Op) : Bool := o.kind = .rwr || o.kind = .ksend

/-- A checked access (R91): one with OR, an atomic, or a RED that the home slice applies. -/
def Op.checked (o : Op) : Bool := (o.order ≠ 0 && o.kind ≠ .fetch) || o.kind = .atomic || o.kind = .atomc || o.kind = .red

/-- The packet that carries one part of an operation to the owner of its line (R360); an access that needs a check is
checked there as SYS (R128). -/
def partPacket (o : Op) (p : Part) : Packet :=
  let base := { (default : Packet) with
    addr := 128 * p.line, home := p.homeField, fn := o.fn, ty := o.ty, scope := o.scope, ctx := o.ctx,
    checked := o.checked && !o.isLocket }
  match o.kind with
  | .store | .storeT | .discard | .drain =>
    let d := storeData o p.key
    { base with kind := .write, data := d.1, bmask := d.2, count := 128 }
  | .atomic | .atomc | .red =>
    { base with
      kind := .atomic, cas := o.kind = .atomc, red := o.kind = .red
      lanes := (lanesOn o p.key).map (fun a => ⟨a.lane, a.pa % 128, a.b, a.c⟩) }
  | .rwr =>
    { base with
      kind := .rwrite, sig := sigOf o, width := if o.order = 1 then 0 else o.size
      lmask := (o.lanes.map (fun a => BitVec.ofNat 64 (2 ^ a.lane))).foldl (· ||| ·) 0
      values := o.lanes.map (fun a => a.b.setWidth 32) }
  | .ksend => { base with kind := .token, sig := sigOf o }
  | .kick =>
    { base with
      kind := .kick, die := (o.regs.getD 0 0).toNat, slot := (o.regs.getD 1 0).toNat, tail := o.regs.getD 2 0 }
  | _ => { base with kind := .read, count := 128 }

end Sys2Proof.Machine
end

