-- ==== Sys2Proof/Machine/Permits.lean ====
section
/-! DEFINITION. Who makes requests, by which path they reach a slice, and how many may be on their way (R19, R20, R78 to
R82). Each request that has left its requester and has no reply yet is one of the State's trips: it holds a permit, keeps
its place on the one path to its slice, stands in the slice's input buffer, and comes back by the same path. -/

namespace Sys2Proof.Machine

/-! ## Requesters and routes -/

def Requester.die : Requester → Nat
  | .core c | .recall c => coreDie c
  | .engine e => e / 12
  | .walker d | .ingress d | .command d => d

/-- The permits for each slice of the requester's own die; those of the engines are the die's together (R81). -/
def Requester.near : Requester → Nat
  | .core _ | .ingress _ => 4
  | .recall _ => 1
  | .engine _ => 8
  | .walker _ | .command _ => 2

/-- The permits for each remote die (R81). -/
def Requester.far : Requester → Nat
  | .core _ | .ingress _ | .engine _ => 64
  | .recall _ => 1
  | .walker _ | .command _ => 16

/-- The unit whose port a requester's traffic leaves by: a core's returns leave by the core's (R79). -/
def Requester.unit : Requester → Requester
  | .recall c => .core c
  | q => q

/-- The route of a requester to a slice (R79): the unit and its port, and the die and number of the bridge egress and
ingress ports where the slice lies on another die. A reply takes it in reverse. -/
structure Route where
  who : Requester
  port : Nat
  bridge : Option (Nat × Nat)
  slice : Nat
deriving DecidableEq, Repr

def routeTo (q : Requester) (home : Nat) : Route :=
  ⟨q.unit, home % 8, if sliceDie home = q.die then none else some (sliceDie home, home % 32), home⟩

def Trip.route (t : Trip) : Route := routeTo t.who t.home

/-- An engine's number in the package. -/
def engineOf (o : Op) : Nat := 12 * coreDie o.core + o.eng

/-- The part of an operation that an event carries to a slice. -/
def lanePart (e : Instr) : Option Req :=
  match e with
  | .sliceLoad r | .sliceStore r | .sliceAtomic r | .checkRequest r | .updateOnlyObtain r => some r
  | .remoteWriteApply o | .tokenApply o | .emptyRequestApply o | .mintRequestApply o | .pushReservation o
  | .popReservation o | .partnerScratchpadAccess o => some ⟨o, 0⟩
  | .pushWrite o | .popRead o => some ⟨o, 1⟩
  | _ => none

/-- The operation and part of a request. -/
def State.reqPart (s : State) (r : Req) : Option (Op × Part) :=
  (s.ops.find? r.op).bind (fun o => (o.parts[r.part]?).map (fun p => (o, p)))

def State.warpCore (s : State) (w : WarpRef) : Nat := ((s.warp? w).map (·.core)).getD 0

/-! ## Permits -/

/-- Two requesters share the permits for a slice of their own die: the engines of a die do (R81). -/
def sharesPermits (q r : Requester) : Bool :=
  match q, r with
  | .engine a, .engine b => a / 12 = b / 12
  | _, _ => q = r

/-- A slice is counted together with another one for a requester's permits: itself on the requester's die, all slices of a
remote die (R20, R81). -/
def samePermit (q : Requester) (home h : Nat) : Bool :=
  if sliceDie home = q.die then h = home else sliceDie h = sliceDie home

/-- Permits in use by a requester for a slice, or for its die where that is another one (R20, R81). -/
def permitsUsed (s : State) (q : Requester) (home : Nat) : Nat :=
  (s.trips.filter (fun t => t.stage ≠ .done && samePermit q home t.home
    && (if sliceDie home = q.die then sharesPermits q t.who else q = t.who))).length

/-- The permits that a requester has for a slice or its die (R81). -/
def permits (q : Requester) (home : Nat) : Nat := if sliceDie home = q.die then q.near else q.far

/-- A permit is free: the request may leave (R20). -/
def permitFree (s : State) (q : Requester) (home : Nat) : Bool := permitsUsed s q home < permits q home

/-! ## The way of a request -/

/-- The entries of a slice's input buffer (R81). -/
def inputEntries : Nat := 108

/-- The slice takes a request in: from another die once one of that bridge's 4 ingress permits is free, and in no case
beyond its input buffer (R80, R81). -/
def slotFree (s : State) (q : Requester) (home : Nat) : Bool :=
  let w := s.trips.filter (fun t => t.home = home && t.stage = .there)
  w.length < inputEntries && (sliceDie home = q.die || (w.filter (fun t => t.who.die = q.die)).length < 4)

/-- The first request on a path that has not arrived yet (R19, R80). -/
def firstGoing (s : State) (r : Route) : Option Trip := s.trips.find? (fun t => t.stage = .going && t.route = r)

/-- A request may be at its slice now: it is there, or it is the first on its path and the slice takes it in. -/
def mayArrive (s : State) (t : Trip) : Bool :=
  t.stage = .there || (firstGoing s t.route = some t && slotFree s t.who t.home)

/-- The requests of an event. -/
def State.tripsOf (s : State) (e : Instr) : List Trip := s.trips.filter (fun t => t.e = e)

/-- Requests of an event leave. -/
def State.depart (s : State) (e : Instr) (q : Requester) (stops : List Stop) : State :=
  { s with
    trips := s.trips ++ stops.zipIdx.map (fun x => { id := s.nextOp + x.2, e := e, who := q, stop := x.1 })
    nextOp := s.nextOp + stops.length }

/-- One request changed. -/
def State.modTrip (s : State) (id : Nat) (f : Trip → Trip) : State :=
  { s with trips := s.trips.map (fun t => if t.id = id then f t else t) }

/-- The replies to an event's requests have arrived, or no one waits for them any more. -/
def State.endTrips (s : State) (e : Instr) : State := { s with trips := s.trips.filter (fun t => t.e ≠ e) }

/-- The trip of a lane operation's request. -/
def isTripOf (r : Req) (t : Trip) : Bool := lanePart t.e = some r

def State.endTrip (s : State) (r : Req) : State := { s with trips := s.trips.filter (fun t => !isTripOf r t) }

/-- A request arrives; its slice answers it. -/
def State.arrive (s : State) (r : Req) : State :=
  { s with trips := s.trips.map (fun t => if isTripOf r t then { t with stage := .there } else t) }

def State.answer (s : State) (r : Req) : State :=
  { s with trips := s.trips.map (fun t => if isTripOf r t then { t with stage := .back } else t) }

/-! ## Events that make requests of their own -/

/-- The slice has answered a request: the reply leaves with what f puts into it. -/
def returned (t : Trip) (f : Trip → Trip) (s : State) : State :=
  (s.modTrip t.id (fun x => { f x with stage := .back })).push [.replyArrival ⟨t.id, 0⟩]

/-- A reply has reached the requester: its permit is free. -/
def State.replied (s : State) (id : Nat) : State := s.modTrip id (fun t => { t with stage := .done })

/-- A line that a waiting request e wants: it is e's turn, and the line stands in the slice or can be brought in (R84). -/
def lineOpen (s : State) (home line : Nat) (e : Instr) : Bool :=
  let l := s.sline home line
  l.state ≠ .busy && l.waiters.head?.all (fun h => h = e) && (l.state ≠ .inv || (s.slice home).mayPlace)

/-- A request at its slice has its turn at each line where it waits. -/
def turnOpen (s : State) (t : Trip) : Bool :=
  (List.range t.stop.span).all (fun k =>
    !(s.sline t.home (t.line + k)).waiters.contains t.e || lineOpen s t.home (t.line + k) t.e)

/-- What may come next of an event's requests: one leaves, or one arrives or has its turn at its slice. -/
inductive Act where
  | leave (x : Stop)
  | go (t : Trip)
deriving DecidableEq, Repr

/-- The request of an event for a stop. -/
def tripFor (ts : List Trip) (x : Stop) : Option Trip := ts.find? (fun t => t.stop = x)

/-- What may come next of the requests of an event of q for some stops. -/
def actsOf (s : State) (e : Instr) (q : Requester) (stops : List Stop) : List Act :=
  let ts := s.tripsOf e
  (stops.filter (fun x => (tripFor ts x).isNone && permitFree s q x.home)).map .leave
    ++ (ts.filter (fun t => t.stage = .going && mayArrive s t || t.stage = .there && turnOpen s t)).map .go

/-- The replies to all requests have arrived. -/
def allBack (ts : List Trip) (stops : List Stop) : Bool := stops.all (fun x => (tripFor ts x).any (fun t => t.stage = .done))

/-- An event that makes requests, one for each stop. Each leaves once a permit is free, arrives, has its turn at the slice,
where look performs it, and comes back, in whatever order that goes; when every reply has arrived the event has its own
effect. The event stands for each of these steps in turn. -/
def journey (e : Instr) (q : Requester) (stops : List Stop) (look : Trip → State → Host.Outcome State Fault Refusal)
    (home : List Trip → State → Host.Outcome State Fault Refusal) (s : State) : Host.Outcome State Fault Refusal :=
  if allBack (s.tripsOf e) stops then home (s.tripsOf e) (s.endTrips e)
  else
    let p := s.choose (actsOf s e q stops).length
    match (actsOf s e q stops)[p.1]? with
    | none => .next (s.push [e])
    | some (.leave x) => .next ((p.2.depart e q [x]).push [e])
    | some (.go t) =>
      match look t (p.2.modTrip t.id (fun x => { x with stage := .there })) with
      | .next s => .next (s.push [e])
      | o => o

/-- A step of the event's requests, or its effect, may come next. -/
def journeyReady (s : State) (e : Instr) (q : Requester) (stops : List Stop) : Bool :=
  allBack (s.tripsOf e) stops || !(actsOf s e q stops).isEmpty

/-- The line data that an event's replies have brought. -/
def tripData (ts : List Trip) (line : Nat) : LineData := ((ts.find? (fun t => t.line = line)).map (·.data)).getD 0

/-- The bytes of some physical addresses in what replies have brought. -/
def tripBytes (ts : List Trip) (as : List Nat) : List Byte := as.map (fun a => lineByte (tripData ts (a / 128)) (a % 128))

end Sys2Proof.Machine
end

