-- ==== Sys2Proof/Machine/Ops.lean ====
section
/-! DEFINITION. The shared operations of the meanings: taking a trap and returning from a halt (R24, R382, R389), the
issue of an instruction and its waits (R46, R97, R206), and operations in flight: their start (R94), the sending of
their requests (R20, R81), their replies, completions and faults (R95, R102, R103). -/

namespace Sys2Proof.Machine

abbrev Out := Host.Outcome State Fault Refusal

/-! ## Traps and faults -/

/-- A trap is a team's primary one so far: it is the first, or comes in the same cycle as that from a lower warp, or from a
lower split of the warp (R383). -/
def Team.firstTrap (tm : Team) (r : SplitRef) (now : Nat) : Bool :=
  tm.halt.all (fun h => tm.haltAt = now && (r.warp < h.2.1 || r.warp = h.2.1 && r.split < h.2.2))

/-- A team takes note of a trap (R383, R385): the first becomes the primary one, and its moment the halt's. -/
def Team.noteTrap (r : SplitRef) (t : Trap) (now : Nat) (tm : Team) : Team :=
  if tm.firstTrap r now then { tm with halt := some (t, r.warp, r.split), haltAt := now } else tm

/-- A trap or fault is raised in a split (R24, R382, R383). The first of a team becomes its primary trap and starts the
halt; a later one is entered in its split's record. That of a pre-empted team stands so too while its image is not final
(R393); once it is, only the operation's own record says it. -/
def raiseTrap (r : SplitRef) (t : Trap) (s : State) : State :=
  let s := { s with cur := none }
  match s.team? r.team with
  | none => s
  | some tm =>
    match tm.status with
    | .running =>
      (s.modTeam r.team (fun tm => { Team.noteTrap r t s.clock { tm with halt := none } with status := .raised })
        |>.modSplit r (fun sp => { sp with own := some t })).push [.teamHalt r.team]
    | .raised | .skidding | .saving =>
      if tm.saved then s
      else (s.modTeam r.team (Team.noteTrap r t s.clock)).modSplit r (fun sp => { sp with own := sp.own <|> some t })
    | _ => s

/-- The trap of the issuing instruction, precise at it (R46). -/
def trapAt (c : Cx) (cls code : Nat) (addr : Dword := 0) (lmask : Mask := 0) (aux : Dword := 0) (s : State) : Out :=
  .next (raiseTrap c.ref ⟨cls, code, addr, lmask, aux, c.path.pc⟩ s)

def illegalInstruction (c : Cx) (s : State) : Out := trapAt c 1 1 0 0 0 s
def illegalOperand (c : Cx) (s : State) : Out := trapAt c 1 2 0 0 0 s

/-- The return from a halt: the team goes back to its dispatcher's pending list (R326, R389). -/
def resumeTeam (t : Nat) (s : State) : State :=
  match s.team? t with
  | none => s
  | some tm =>
    (s.modTeam t (fun tm => { tm with status := .pending, halt := none, step := none })).modDie tm.die
      (fun d => { d with savedTeams := (d.savedTeams.filter (fun x => x ≠ t)) ++ [t] })

/-! ## Issue and waits -/

/-- A split has issued an instruction: its warp's timer restarts (R396), and after the halt has reached it its skid counts
one more (R382). -/
def noteIssue (c : Cx) (s : State) : State :=
  (s.modWarp c.wref (fun w => { w with timer := s.clock, hung := false })).modSplit c.ref (fun sp =>
    { sp with skid := if c.team.status = .skidding then sp.skid + 1 else sp.skid })

/-- The split's instruction has issued: its path moves on by f, and it becomes the last to issue (R327). A single step halts
the team again (R395). -/
def issued (c : Cx) (f : Path → Path) (s : State) : State :=
  let s := noteIssue c { s with cur := none, tick := s.tick + 1 }
  let s := s.modSplit c.ref (fun sp =>
    { sp with path := f sp.path, settled := false, fresh := false, waitOnly := false, held := [], code := none, last := s.tick })
  if c.team.step.isSome then
    raiseTrap c.ref ⟨6, 3, 0, 0, 0, c.path.pc⟩ s
  else s

/-- The path goes on at the next instruction. -/
def pcNext (p : Path) : Path := { p with pc := p.pc + 1 }

def advance (c : Cx) (s : State) : State := issued c pcNext s

/-- The split stalls at its instruction, which has no effect yet (R97, R206). -/
def stall (c : Cx) (s : State) : State :=
  ({ s with cur := none, tick := s.tick + 1 }).modSplit c.ref (fun sp => { sp with last := s.tick })

/-- A wait of an instruction that has issued and has done something already: a watch, an event, a barrier, a spawn. -/
def Wait.begun (w : Wait) : Bool :=
  match w with
  | .watch _ _ | .event _ _ _ | .barrier _ _ | .spawn => true
  | .none | .reply _ | .torc | .slot _ _ | .line | .walk _ | .grow _ _ => false

/-- The split stalls at its instruction until something ends the wait. -/
def parkAt (c : Cx) (w : Wait) (s : State) : State :=
  (if w.begun then noteIssue c (stall c s) else stall c s).modSplit c.ref (fun sp => { sp with wait := w })

/-- The instruction has issued and its split waits for an answer. -/
def issueAndWait (c : Cx) (w : Wait) (s : State) : State :=
  (advance c s).modSplit c.ref (fun sp => { sp with wait := w })

/-- The split's wait is over. -/
def endWait (r : SplitRef) (s : State) : State := s.modSplit r (fun sp => { sp with wait := .none })

/-- What an instruction needs before it issues. -/
structure Need where
  g : Guard
  /-- the source registers it reads, each with its empty-source policy (R42); none: it waits until full -/
  srcs : List (Nat × Option Bool) := []
  /-- a field holds a value that the instruction's table does not list (R45, R278) -/
  illegal : Bool := false
  /-- the registers it writes -/
  dsts : List Nat := []
  /-- an operand breaks the pair, quad, class or shape rules (R41, R44) -/
  bad : Bool := false
  /-- consume key and scope (R97) -/
  key : Option (Nat × Nat) := none
  /-- produce key (R94) and FENCE classes (R111) of a memory-class instruction -/
  pk : Option Nat := none
  cls : List Nat := []
deriving DecidableEq, Repr, Inhabited

/-- What the checks of R46 and the waits before issue come to. -/
inductive Gate where
  /-- a trap of class 1 with this code -/
  | trap (code : Nat)
  /-- a wait; long by R328; the keys that it promotes (R100), and the classes (R98) -/
  | wait (long : Bool) (keys cls : List Nat)
  /-- the guard holds in no active lane -/
  | skip
  | go (m : Mask)
deriving DecidableEq, Repr

/-- A destination that no instruction may name: a special register (R40), a global beyond G, a locket (R208). -/
def badDst (c : Cx) (n : Nat) : Bool := isSpecial n || (isG n && 512 + c.globals ≤ n) || c.isLocket n

/-- A source beyond the declared globals (R40). -/
def badSrc (c : Cx) (n : Nat) : Bool := isG n && 512 + c.globals ≤ n

def isEmpty (c : Cx) (n : Nat) : Bool := !isSpecial n && !c.warp.full (c.preg n)

/-- The wait on an empty register is long: a locket, or an operation of a long-latency class fills it, or a refill
(R83, R206, R328). The register filled by a remote write is read as the locket; the status register of an RWR is long
where its own request goes that far (log entry 110). -/
def longReg (s : State) (c : Cx) (n : Nat) : Bool :=
  let p := c.preg n
  c.isLocket n
    || s.ops.any (fun o => o.2.ref.team = c.ref.team && o.2.ref.warp = c.ref.warp && o.2.dests.contains p
        && o.2.parts.any (fun q => q.rem.isSome || inFar (128 * q.line) || sliceDie q.home ≠ coreDie c.core))
    || (match p with
        | .row k => c.warp.refill.any (fun j => j % max 1 c.ring = k)
        | .s _ => false)

/-- The waits of a production: a fence point (R112), or a count at its bound, whose lines are promoted (R98). -/
def produceGate (c : Cx) (n : Need) (m : Mask) : Gate :=
  if c.warp.fenceHolds n.cls then .wait false [] []
  else if n.pk.any (fun k => c.warp.productionStalls k n.cls) then
    .wait false (n.pk.toList.filter c.warp.keyStalls) (n.cls.filter c.warp.classStalls)
  else .go m

/-- R46 steps 1 to 4 and the waits of R97, R98, R112 and R206. -/
def gate (s : State) (c : Cx) (n : Need) : Gate :=
  if n.illegal then .trap 1
  else if n.dsts.any (badDst c) || n.srcs.any (fun e => badSrc c e.1) || n.bad then .trap 2
  else
    let m := c.exec n.g
    if m = 0 then .skip
    else if n.srcs.any (fun e => e.2 = some true && isEmpty c e.1) then .trap 3
    else
      let es := (n.srcs.filter (fun e => isEmpty c e.1)).map (·.1) ++ n.dsts.filter (isEmpty c)
      if !es.isEmpty then .wait (es.any (longReg s c)) [] []
      else match n.key with
        | some (k, sc) =>
          if !c.warp.satisfied c.ring k sc then .wait false (if sc = 0 then [] else c.warp.unmet k sc) []
          else produceGate c n m
        | none => produceGate c n m

/-- An instruction through its checks and waits to its own effect; skip says what it does where its guard holds in no
active lane. -/
def gatedOr (need : Cx → Need) (s : State) (skip : Cx → State → Out) (body : Cx → Mask → State → Out) : Out :=
  match s.cur.bind s.cxOf with
  | none => .fault .noIssuingSplit
  | some c =>
    match gate s c (need c) with
    | .trap k => trapAt c 1 k 0 0 0 s
    | .wait _ keys cls => .next (stall c (promote c.core keys cls s))
    | .skip => skip c s
    | .go m => body c m s

/-- An instruction that its guard skips whole goes on at the next one (R29, R94). -/
def gated (need : Cx → Need) (s : State) (body : Cx → Mask → State → Out) : Out :=
  gatedOr need s (fun c s => .next (advance c s)) body

/-! ## Operations in flight -/

/-- The warp is resident on a core, its registers and keys in State. -/
def State.resident (s : State) (t : Nat) : Bool :=
  match s.team? t with
  | none => false
  | some tm => tm.status = .running || tm.status = .raised || tm.status = .skidding || (tm.status = .saving && !tm.saved)

/-- An operation starts: production and class counts (R94, R111), destinations emptied (R153), an entry made. -/
def startOp (c : Cx) (o : Op) (cls : List Nat) (s : State) : Nat × State :=
  let s := if o.produces then s.modWarp c.wref (fun w => w.produce o.pk cls) else s
  let w := (s.warp? c.wref).getD c.warp
  let o := { o with
    ref := c.ref, ctx := c.ctx, core := c.core, pc := c.path.pc
    prodn := (w.key o.pk).p, cls := if o.produces then cls.map (fun x => (x, (w.cls x).q)) else [] }
  let s := setFulls c.wref o.dests false s
  (s.nextOp, { s with ops := s.ops.set s.nextOp o, nextOp := s.nextOp + 1 })

/-- Beyond every line number of memory: the part of an access to the core's own scratchpad, and of one to the partner core's,
which travels through the reflector slice (R78, R143). -/
def scratchLine : Nat := 2 ^ 53
def partnerLine : Nat := 2 ^ 53 + 1

/-- The part is an access to a scratchpad. -/
def Part.isScratch (p : Part) : Bool := p.line = scratchLine || p.line = partnerLine

/-- The event by which a part of an operation is performed: in the core's L1 or scratchpad, or at its home slice, in which
case the event stands first for the request that leaves and then for its arrival. -/
def partEvent (o : Op) (id k : Nat) (p : Part) : Instr :=
  if p.l1 then .replyArrival ⟨id, k⟩
  else if p.line = partnerLine then .partnerScratchpadAccess id
  else if p.gather then .updateOnlyObtain ⟨id, k⟩
  else if p.check then .checkRequest ⟨id, k⟩
  else match o.kind with
    | .atomic | .atomc | .red => .sliceAtomic ⟨id, k⟩
    | .check => .checkRequest ⟨id, k⟩
    | .store | .storeT | .discard => if p.fill then .sliceLoad ⟨id, k⟩ else .sliceStore ⟨id, k⟩
    | .qpush => if o.prog = 0 then .pushReservation id else .pushWrite id
    | .qpop => if o.prog = 0 then .popReservation id else .popRead id
    | .copyQuery => .copyQueryRequest id
    | .rwr => .remoteWriteApply id
    | .ksend => .tokenApply id
    | .mint => .mintRequestApply id
    | .empty => .emptyRequestApply id
    | _ => .sliceLoad ⟨id, k⟩

/-- Part k of an operation changed. -/
def State.modPart (s : State) (id k : Nat) (f : Part → Part) : State :=
  s.modOp id (fun o => { o with parts := o.parts.modify k f })

/-- An operation faults: its first fault stays, and its team halts (R102). -/
def faultOp (id cls code : Nat) (addr : Dword) (lmask : Mask) (aux : Dword) (s : State) : State :=
  match s.ops.find? id with
  | none => s
  | some o =>
    let t : Trap := ⟨cls, code, addr, lmask, aux, o.pc⟩
    let s' := { raiseTrap o.ref t (s.modOp id (fun o => { o with fault := o.fault <|> some t })) with cur := s.cur }
    -- of a saved team's operation only the image's list of incomplete operations says it (R392)
    if s.resident o.ref.team || (s.team? o.ref.team).isNone then s' else s'.push [.imageWrite id]

/-- An operation is given up with its requests. -/
def abandon (id : Nat) (s : State) : State :=
  ({ s with
    agenda := s.agenda.filter (fun e => !(lanePart e).any (fun r => r.op = id))
    trips := s.trips.filter (fun t => !(lanePart t.e).any (fun r => r.op = id)) } : State).dropOp id

/-- A read of code or of a constant line from another node is refused: its instruction, which has not issued, faults
(R27, R146). A dispatcher's read of a record is over, and its event learns why. -/
def refuseFetch (id : Nat) (o : Op) (code : Nat) (s : State) : State :=
  if o.order = 2 then (s.modOp id (fun o => { o with code := code })).push [o.instr]
  else
  let t : Trap := if o.order = 0 then { cls := 3, code := 12, addr := o.val, pc := o.pc }
    else { cls := 3, code := 11, addr := o.val, aux := BitVec.ofNat 64 code, pc := o.pc }
  { raiseTrap o.ref t (abandon id (endWait o.ref s)) with cur := s.cur }

/-- The core learns that part k of an operation is refused: the fault is reported once, and the part is performed again only
when the operation is taken up (R73, R102). -/
def refusePart (r : Req) (cls code : Nat) (addr : Dword) (lmask : Mask) (aux : Dword) (s : State) : State :=
  match s.ops.find? r.op with
  | none => s
  | some o =>
    if o.kind = .fetch then refuseFetch r.op o code s
    else faultOp r.op cls code addr lmask aux
      (s.modPart r.op r.part (fun p => { p with
        sent := false, fill := false, gather := false, check := false, bad := true, refusal := none }))

/-- Plain lane accesses (R118). -/
def plainAccess (o : Op) : Bool := o.order = 0 && (o.kind = .load || o.kind = .store || o.kind = .storeT)

/-- Two operations touch a byte of a line, by its key, in one lane at one virtual address, and one of them stores. -/
def sameBytes (a b : Op) (line : Nat) : Bool :=
  !(a.kind = .load && b.kind = .load)
    && (lanesOn a line).any (fun x => (lanesOn b line).any (fun y =>
      accLanes a x &&& accLanes b y ≠ 0 && x.va.toNat < y.va.toNat + b.size && y.va.toNat < x.va.toNat + a.size))

/-- An earlier plain access of the warp to the same bytes is still to be performed (R118). -/
def blockedPart (s : State) (id : Nat) (o : Op) (p : Part) : Bool :=
  plainAccess o && s.ops.any (fun e => e.1 < id && warpOf e.2.ref = warpOf o.ref && plainAccess e.2
    && e.2.parts.any (fun q => q.key = p.key && !q.done) && sameBytes e.2 o p.key)

/-- A token that the key tracker still holds (R113). -/
def heldToken (s : State) (id : Nat) (o : Op) : Bool :=
  o.kind = .ksend && (s.warp? (warpOf o.ref)).any (fun w => w.tokens.any (fun t => t.op = id))

/-- The events of an operation's parts that are still to be performed are raised. No rule orders them (R117). -/
def sendParts (id : Nat) (s : State) : State :=
  match s.ops.find? id with
  | none => s
  | some o => s.push (o.parts.zipIdx.filterMap (fun e =>
      if e.1.sent || e.1.done || heldToken s id o then none else some (partEvent o id e.2 e.1)))

/-- A production completes at the scopes with a code (R95, R96, R103): in the warp's key file while it is resident,
otherwise in its image (R104). -/
def completeAt (id : Nat) (scopes : List Nat) (code : Nat) (s : State) : State :=
  match s.ops.find? id with
  | none => s
  | some o =>
    if !o.produces then s
    else if s.resident o.ref.team then
      s.modWarp (warpOf o.ref) (fun w =>
        (w.complete o.pk o.prodn (if o.readDone then o.cls.filter (fun x => x.1 ≠ clsCR) else o.cls) scopes code).freeFences)
    else (s.modOp id (fun o => { o with owed := o.owed ++ scopes })).push [.imageWrite id]

/-- The ring of a warp's team. -/
def ringOf (s : State) (w : WarpRef) : Nat :=
  (((s.team? w.team).bind (fun t => s.launches.find? t.launch)).map (fun l => l.desc.ring)).getD 0

/-- A ring row waits for its words from the arena (R299): what else arrives there leaves it empty. -/
def Warp.refilling (w : Warp) (ring k : Nat) : Bool := w.refill.any (fun j => j % max 1 ring = k)

/-- The words of an operation's reply, put into one destination register of a warp (R153, R205, R207). -/
def fillReg (ring : Nat) (o : Op) (w : Warp) (e : PReg × Nat) : Warp :=
  match e.1 with
  | .s n => { w with sregs := w.sregs.set n ⟨true, o.data.get 0 e.2⟩ }
  | .row k =>
    let from_ := (o.lanes.head?.map (·.lane)).getD 0
    let pairs := if o.bcast = 0 then o.lanes.map (fun a => (a.lane, a.lane)) else (lanesOf o.bcast).map (fun l => (l, from_))
    { w with rows := w.rows.set k (pairs.foldl
        (fun r a => r.putLane a.1 ((o.data.get 0 (8 * a.2 + e.2)).setWidth 32)) { w.row k with full := !w.refilling ring k }) }

/-- Every destination of the operation is filled. -/
def fillDests (ring : Nat) (o : Op) (w : Warp) : Warp := o.dests.zipIdx.foldl (fillReg ring o) w

/-- A split that waits on the operation's answer goes on. -/
def wakeReply (id : Nat) (o : Op) (s : State) : State :=
  s.modSplit o.ref (fun sp => if sp.wait = .reply id then { sp with wait := .none } else sp)

/-- An operation is over at every scope: destinations filled, production complete with its code, entry gone; for a saved
warp both are written into the image (R89, R104, R205). -/
def finishOp (id : Nat) (s : State) : State :=
  match s.ops.find? id with
  | none => s
  | some o =>
    if s.resident o.ref.team then
      let s := s.modWarp (warpOf o.ref) (fillDests (ringOf s (warpOf o.ref)) o)
      let s := completeAt id (if o.doneCore then wideScopes else allScopes) o.code s
      (wakeReply id o s).dropOp id
    else
      (s.modOp id (fun o => { o with
        running := false, doneWide := true, owed := o.owed ++ if o.doneCore then wideScopes else allScopes })).push [.imageWrite id]

/-- The parts of an operation that the core has no answer for yet. -/
def Op.pendingParts (o : Op) : Bool := o.parts.any (fun p => !p.back)

/-- The slice answers part k of an operation. -/
def answerPart (r : Req) (f : Part → Part) (s : State) : State :=
  ((s.modPart r.op r.part f).answer r).push [.replyArrival r]

/-- The slice refuses part k of an operation: its reply says so (R82, R91). -/
def refuseAt (r : Req) (cls code : Nat) (addr : Dword) (lmask : Mask) (aux : Dword) (s : State) : State :=
  answerPart r (fun p => { p with refusal := some { cls := cls, code := code, addr := addr, lmask := lmask, aux := aux } }) s

/-- Part k has been performed and is answered. -/
def partDone (id k : Nat) (f : Part → Part) (s : State) : State :=
  answerPart ⟨id, k⟩ (fun p => { f p with done := true }) s

/-- The issuing instruction starts an operation that its split does not wait for. -/
def launchOp (c : Cx) (o : Op) (cls : List Nat) (s : State) : Out :=
  let p := startOp c o cls s
  .next (advance c (sendParts p.1 p.2))

/-- The issuing instruction starts an operation and its split waits for the answer. -/
def launchAndWait (c : Cx) (o : Op) (cls : List Nat) (s : State) : Out :=
  let p := startOp c o cls s
  .next (issueAndWait c (.reply p.1) (sendParts p.1 p.2))

/-- The operation of an event, or the fault of an event that names none. -/
def withOp (id : Nat) (s : State) (f : Op → State → Out) : Out :=
  match s.ops.find? id with
  | none => .fault .noSuchUnit
  | some o => f o s

/-- The operation of an event that makes requests; one that is over by now leaves a reply that no one waits for. -/
def withTripOp (id : Nat) (e : Instr) (s : State) (f : Op → State → Out) : Out :=
  match s.ops.find? id with
  | none => if (s.tripsOf e).isEmpty then .fault .noSuchUnit else .next (s.endTrips e)
  | some o => f o s

/-- One part of the operation of an event. -/
def withPart (r : Req) (s : State) (f : Op → Part → State → Out) : Out :=
  match s.ops.find? r.op with
  | none => .fault .noSuchUnit
  | some o =>
    match o.parts[r.part]? with
    | none => .fault .noSuchUnit
    | some p => f o p s

/-! ## Uniform operands -/

/-- The lanes of m whose value differs from the lowest lane's (R21). -/
def disagree {α : Type} [DecidableEq α] (m : Mask) (f : Nat → α) : Mask :=
  match lowLane m with
  | none => 0
  | some l0 => lanesWhere m (fun l => f l ≠ f l0)

end Sys2Proof.Machine
end

