-- ==== Sys2Proof/Machine/Operands.lean ====
section
/-! DEFINITION. Operand forms: type codes (R43), register operands of one, two or four words (R41), immediates (R33,
R50), constant windows (R34, R146) and the addresses and lane checks of lane memory instructions (R151, R152). -/

namespace Sys2Proof.Machine

/-! ## Types -/

def is64 (ty : Nat) : Bool := 4 ≤ ty && ty ≤ 7
def tyWords (ty : Nat) : Nat := if is64 ty then 2 else 1

/-- Elements of a type code of R43: how many, and how each is read. -/
def elems (ty : Nat) : Nat × NTy :=
  match ty with
  | 0 => (1, .int 32 false) | 1 => (1, .int 32 true) | 2 => (1, .int 32 false) | 3 => (1, .flt fmtF32)
  | 4 => (1, .int 64 false) | 5 => (1, .int 64 true) | 6 => (1, .int 64 false) | 7 => (1, .flt fmtF64)
  | 8 => (2, .flt fmtF16) | 9 => (2, .flt fmtBF16) | 10 => (2, .int 16 true) | 11 => (2, .int 16 false)
  | 12 => (4, .int 8 true) | 13 => (4, .int 8 false) | 14 => (4, .flt fmtE4M3) | _ => (4, .flt fmtE5M2)

def NTy.width : NTy → Nat
  | .flt f => f.width
  | .int w _ => w

/-- A result built element by element (R227). -/
def mapElems (ty : Nat) (a b c : Nat) (f : NTy → Nat → Nat → Nat → Nat) : Nat :=
  let e := elems ty
  let w := e.2.width
  (List.range e.1).foldl (fun r i =>
    r + f e.2 (a / 2 ^ (w * i) % 2 ^ w) (b / 2 ^ (w * i) % 2 ^ w) (c / 2 ^ (w * i) % 2 ^ w) % 2 ^ w * 2 ^ (w * i)) 0

/-! ## Register operands -/

/-- The single registers of an operand of n words (R41). -/
def regsOf (field n : Nat) : List Nat := if isVec field then (List.range n).map (field + ·) else [field]

/-- A pair or quad names an aligned register (R41, R36). -/
def aligned (field n : Nat) : Bool := !isVec field || field % n = 0

/-- The operand differs from lane to lane: a w or g register, or laneid (R44, R202). -/
def isVector (field : Nat) : Bool := isVec field || field = 704

/-- The operand's bits in a lane: one or two words (R41). -/
def readReg (s : State) (c : Cx) (field n l : Nat) : Nat :=
  if n = 2 then (readD s c field l).toNat else (readW s c field l).toNat

/-! ## Operand B of format V -/

/-- B as an immediate of a type (R33). -/
def immB (ty : Nat) (w : BitVec 20) : Nat :=
  if ty = 0 || ty = 1 then (w.signExtend 32).toNat
  else if ty = 2 then w.toNat
  else if ty = 3 then w.toNat * 2 ^ 12
  else if ty = 4 || ty = 5 then (w.signExtend 64).toNat
  else if ty = 6 then w.toNat
  else if ty = 7 then w.toNat * 2 ^ 44
  else if ty < 12 then w.toNat % 2 ^ 16 * (2 ^ 16 + 1)
  else w.toNat % 2 ^ 8 * 0x01010101

/-- The type in which an instruction forms B from W (R33, R252, R259). -/
def bType (sp : VSpec) (f : VF) : Nat :=
  match sp.bForm with
  | .byType => f.ty.toNat
  | .word32 => 2
  | .packSrc => f.fn.toNat % 16

/-- Words of an operand of a constant window. -/
def bWords (sp : VSpec) (f : VF) : Nat := tyWords (bType sp f)

/-- A read of a constant window: a value, a line to be fetched, or a fault with its address (R34, R146). -/
inductive CRead where
  | val (x : Nat)
  | miss (vline : Nat)
  | fault (addr : Nat)
deriving DecidableEq, Repr

/-- The constant cache's line, if it holds it. -/
def Core.constFind (c : Core) (ctx vline : Nat) : Option ConstLine :=
  c.const.find? (fun l => l.ctx = ctx && l.vline = vline)

/-- R34, R146: words of window W[19:17] at offset W[16:0]. -/
def readConst (s : State) (c : Cx) (w : BitVec 20) (n : Nat) : CRead :=
  let win := (w.extractLsb' 17 3).toNat
  let off := (w.extractLsb' 0 17).toNat
  let size := (c.launch.desc.cwSize[win]?).getD 0
  let va := ((c.launch.desc.cwBase[win]?).getD 0).toNat + 4 * off
  if size < off + n then .fault va
  else match (s.core c.core).constFind c.ctx (va / 128) with
    | none => .miss (va / 128)
    | some l => .val (l.data.toNat / 2 ^ (8 * (va % 128)) % 2 ^ (32 * n))

/-- Operand B by lane. -/
inductive BRes where
  | ok (f : Nat → Nat)
  | miss (vline : Nat)
  | fault (addr : Nat)

def readB (s : State) (c : Cx) (sp : VSpec) (f : VF) : BRes :=
  let n := bWords sp f
  if sp.b ≠ .reg then .ok (fun _ => 0)
  else if f.bk = 0 then .ok (fun l => readReg s c f.b.toNat n l)
  else if f.bk = 1 then .ok (fun _ => immB (bType sp f) f.w)
  else match readConst s c f.w n with
    | .val x => .ok (fun _ => x)
    | .miss v => .miss v
    | .fault a => .fault a

/-- Operand B is a vector. -/
def bVector (sp : VSpec) (f : VF) : Bool := sp.b = .reg && f.bk = 0 && isVector f.b.toNat

/-! ## MOVI's immediate (R50) -/

def moviBits (f : VF) : Nat :=
  f.a.toNat + 2 ^ 10 * f.b.toNat + 2 ^ 20 * f.c.toNat + 2 ^ 30 * f.w.toNat

def moviValue (f : VF) : Nat :=
  let l := moviBits f
  match f.ty.toNat with
  | 4 | 5 => ((BitVec.ofNat 50 l).signExtend 64).toNat
  | 6 => l
  | 7 => l * 2 ^ 14
  | _ => l % 2 ^ 32

/-! ## Lane addresses -/

/-- One lane's address (R151). -/
def laneAddr (s : State) (c : Cx) (f : MF) (l : Nat) : Dword := readD s c f.a.toNat l + f.w.signExtend 64

/-- The address of ATOMC, which has no offset (R35, R195). -/
def laneBase (s : State) (c : Cx) (f : MF) (l : Nat) : Dword := readD s c f.a.toNat l

/-- The lanes whose check fails, with the lowest one's fault. -/
structure LaneFault where
  code : Nat
  addr : Dword
  mask : Mask
  aux : Dword
deriving DecidableEq, Repr

/-- Every executing lane's address checked (R68, R152), in each lane alignment first, then translation; the lanes of one
page share one lookup. Either all lanes are translated, or the lowest failing lane's fault stands with the mask of failing lanes. -/
def checkLanes (s : State) (c : Cx) (a : Agent) (align : Nat) (ls : List (Nat × Dword)) :
    Except LaneFault (List (Nat × Dword × Phys)) :=
  let pages := pagesOf (ls.map (·.2))
  let rs := ls.map (fun e => (e.1, e.2,
    if e.2.toNat % align ≠ 0 then .error ⟨tMisaligned, 0⟩
    else translateHeld c.split.held s c.core c.ctx a false e.2 (pages.idxOf (e.2.toNat / 65536))))
  let bad := rs.filterMap (fun r => match r.2.2 with
    | .error (f : TFault) => some (r.1, r.2.1, f)
    | .ok _ => none)
  match bad with
  | b :: _ => .error ⟨b.2.2.code, b.2.1, (bad.map (fun x => laneBit x.1)).foldl (· ||| ·) 0, b.2.2.aux⟩
  | [] => .ok (rs.filterMap (fun r => match r.2.2 with
      | .ok (p : Phys) => some (r.1, r.2.1, p)
      | .error _ => none))

/-- One agent's single access to n bytes at an aligned address. -/
def checkOne (s : State) (c : Cx) (a : Agent) (align : Nat) (va : Dword) : Except LaneFault Phys :=
  match checkLanes s c a align [(0, va)] with
  | .error f => .error f
  | .ok [(_, _, p)] => .ok p
  | .ok _ => .error ⟨tNotPresent, va, 0, 0⟩

/-- The lanes of an access by an s-register base make one access; each lane still has its address (R151). -/
def partsOf (rs : List (Nat × Dword × Phys)) : List Part :=
  let ps := rs.map (fun r => r.2.2)
  (ps.map (fun p => (p.pa / 128, p.tr.node))).dedup.filterMap (fun k =>
    (ps.find? (fun p => p.pa / 128 = k.1 && p.tr.node = k.2)).map (fun p =>
      { line := k.1, home := p.home, ctxPage := p.tr.ctx, rem := p.tr.node, homeField := p.tr.home }))

/-- R36: bytes read into a register's bits. -/
def extendTo (ty n : Nat) : Nat :=
  if ty = 10 then ((BitVec.ofNat 16 n).signExtend 32).toNat
  else if ty = 12 then ((BitVec.ofNat 8 n).signExtend 32).toNat
  else n

end Sys2Proof.Machine
end

