-- ==== Sys2Proof/Machine/Need.lean ====
section
/-! DEFINITION. What each instruction reads, writes, consumes and produces, and which operand shapes it refuses: the
checks of R46 steps 2 and 3 and the waits before issue, entry by entry. The issue of an instruction and the readiness
that the warp scheduler tests (R302) use the same needs. -/

namespace Sys2Proof.Machine

/-! ## Format V -/

/-- Words of D, A and C of an entry of format V (R41, R248, R250, R257 to R266); B's are bWords. -/
def vWords (op : Nat) (f : VF) : Nat × Nat × Nat :=
  let n := tyWords f.ty.toNat
  match op with
  | 0x1A => (2, 1, 2)
  | 0x28 | 0x29 => (1, n, n)
  | 0x40 => (1, n, n)
  | 0x42 => (n, tyWords (f.fn.toNat % 16), n)
  | 0x43 | 0x44 => (1, 1, 1)
  | 0x50 | 0x51 => (1, n, 1)
  | 0x52 => (if f.fn = 3 then 2 else 1, 1, 1)
  | _ => (n, n, n)

/-- Words of B: IMADW reads one register, the others by their type (R250). -/
def vbWords (op : Nat) (sp : VSpec) (f : VF) : Nat := if op = 0x1A then 1 else bWords sp f

def dIsReg (op : Nat) (sp : VSpec) (f : VF) : Bool := sp.d = .reg || (op = 0x52 && 3 ≤ f.fn.toNat)

/-- PACK reads C only for the ×4 types (R259). -/
def cIsReg (op : Nat) (sp : VSpec) (f : VF) : Bool := sp.c = .reg && !(op = 0x43 && f.ty.toNat < 12)

/-- R41, R44 and the entries' own shape rules. -/
def vBad (c : Cx) (op : Nat) (sp : VSpec) (f : VF) : Bool :=
  let w := vWords op f
  let bw := vbWords op sp f
  let d := f.d.toNat
  let a := f.a.toNat
  let cReg := cIsReg op sp f
  let aReg := sp.a = .reg
  let bReg := sp.b = .reg && f.bk = 0
  let vec := (aReg && isVector a) || (bReg && isVector f.b.toNat) || (cReg && isVector f.c.toNat)
  (dIsReg op sp f && !aligned d w.1)
    || (aReg && !aligned a w.2.1)
    || (bReg && !aligned f.b.toNat bw)
    || (cReg && !aligned f.c.toNat w.2.2)
    || (sp.b = .reg && f.bk = 2 && bw = 2 && f.w.getLsbD 0)
    || (dIsReg op sp f && isS d && vec && op ≠ 0x54)
    || ((op = 0x53 || op = 0x55 || op = 0x56) && isS d)
    || ((op = 0x54 || op = 0x55) && !isVector a)
    || (op = 0x56 && !c.launch.desc.paired)

def needV (c : Cx) (op : Nat) (f : VF) : Need :=
  match vSpec op with
  | none => { g := f.g, bad := true }
  | some sp =>
    let w := vWords op f
    { g := f.g
      srcs := (if sp.a = .reg then (regsOf f.a.toNat w.2.1).map (·, some f.fa) else [])
        ++ (if sp.b = .reg && f.bk = 0 then (regsOf f.b.toNat (vbWords op sp f)).map (·, some f.fb) else [])
        ++ (if cIsReg op sp f then (regsOf f.c.toNat w.2.2).map (·, some f.fc) else [])
      dsts := if dIsReg op sp f then regsOf f.d.toNat w.1 else []
      bad := vBad c op sp f }

/-! ## Format M -/

/-- Words of an access type in registers (R36). -/
def accWords (ty : Nat) : Nat := if ty = 14 then 4 else if is64 ty then 2 else 1

/-- A data register of a load, store or atomic: w, g or s, aligned (R36, R41, R156). -/
def dataOk (r n : Nat) : Bool := (isVec r || isS r) && aligned r n

/-- A base: an even w or g pair, or an s register (R35). -/
def baseOk (r : Nat) : Bool := (isVec r || isS r) && aligned r 2

/-- A register field that must name an even s register (R218). -/
def evenS (r : Nat) : Bool := isS r && r % 2 = 0

/-- A first s register of n whose field is 640 plus a multiple of k (R169, R335). -/
def sRun (r n k : Nat) : Bool := isS r && (r - 640) % k = 0 && r + n ≤ 704

def isLocketField (c : Cx) (r : Nat) : Bool := c.isLocket r

/-- Consume, produce and classes of a memory-class instruction. -/
def memNeed (f : MF) (cls : List Nat) (n : Need) : Need :=
  { n with key := some (f.ck.toNat, f.sc.toNat), pk := some f.pk.toNat, cls := cls }

def keyNeed (f : MF) (n : Need) : Need := { n with key := some (f.ck.toNat, f.sc.toNat) }

/-- LD and LDU (R156, R159). -/
def needLoad (f : MF) (u : Bool) : Need :=
  let n := accWords f.ty.toNat
  let d := f.d.toNat
  let a := f.a.toNat
  memNeed f [clsLL]
    { g := f.g, srcs := (regsOf a 2).map (·, some f.fa), dsts := regsOf d n
      bad := !baseOk a || (!isSpecial d && !aligned d n) || (isS d && (f.ty = 14 || (!u && !isS a))) }

/-- ST and ST.T (R157, R158). ST with a vector base and an s register b stores one value from every executing lane, as R157's
Operands say, where its Fates, those of LD, would trap: the model's choice (log entry 120). -/
def needStore (f : MF) (t : Bool) : Need :=
  let n := accWords f.ty.toNat
  let a := f.a.toNat
  let b := f.b.toNat
  let d := f.d.toNat
  memNeed f [clsLS]
    { g := f.g, srcs := (regsOf a 2).map (·, some f.fa) ++ (regsOf b n).map (·, some f.fb)
      dsts := if t then [d] else []
      bad := !baseOk a || !dataOk b n || (isS b && f.ty = 14) || (t && isS d && (!isS a || !isS b)) }

/-- PREF and DISCARD (R160, R161). -/
def needLine (f : MF) (cls : Nat) : Need :=
  memNeed f [cls] { g := f.g, srcs := (regsOf f.a.toNat 2).map (·, some f.fa), bad := !baseOk f.a.toNat }

/-- ATOM and RED (R195). -/
def needAtom (f : MF) (tagForm red : Bool) : Need :=
  let n := accWords f.ty.toNat
  let a := f.a.toNat
  let b := f.b.toNat
  let d := f.d.toNat
  let dn := if tagForm then 2 * n else n
  memNeed f [clsAT]
    { g := f.g, srcs := (regsOf a 2).map (·, some f.fa) ++ (regsOf b n).map (·, some f.fb)
      dsts := if red then [] else regsOf d dn
      bad := !baseOk a || !dataOk b n || (!red && !isSpecial d && !aligned d dn)
        || (!red && isS d && (tagForm || !isS a || !isS b)) }

/-- ATOMC (R195): C, in W[9:0], has no policy bit. -/
def atomcC (f : MF) : Nat := f.w.toNat % 1024

def needAtomc (f : MF) (tagForm : Bool) : Need :=
  let n := accWords f.ty.toNat
  let base := needAtom f tagForm false
  { base with
    srcs := base.srcs ++ (regsOf (atomcC f) n).map (·, none)
    bad := base.bad || !dataOk (atomcC f) n || (isS f.d.toNat && !isS (atomcC f)) }

def kd (f : MF) : Nat := f.w.toNat % 16
def ka (f : MF) : Nat := f.w.toNat / 16 % 16

/-- A status register that W[0] asks for (R109, R113, R220). -/
def statDst (f : MF) : List Nat := if f.w.getLsbD 0 then [f.d.toNat] else []
def statBad (f : MF) : Bool := f.w.getLsbD 0 && !isS f.d.toNat && !isSpecial f.d.toNat

/-- A copy descriptor of n registers (R169, R175). -/
def needCopy (f : MF) (n : Nat) (cls : List Nat) : Need :=
  memNeed f cls
    { g := f.g, srcs := (List.range n).map (fun i => (f.b.toNat + i, some f.fb))
      dsts := if f.w.getLsbD 5 then [f.d.toNat] else []
      bad := !sRun f.b.toNat n n || (f.w.getLsbD 5 && !isS f.d.toNat) }

def needQuery (f : MF) : Need :=
  memNeed f []
    { g := f.g, srcs := [(f.b.toNat, some f.fb)], dsts := [f.d.toNat], bad := !isS f.b.toNat || !isS f.d.toNat }

/-- RWR and RWRB (R218, R220). -/
def needRwr (f : MF) (bcast : Bool) : Need :=
  let a := f.a.toNat
  let b := f.b.toNat
  memNeed f [clsAT]
    { g := f.g, srcs := [(a, some f.fa), (a + 1, some f.fa), (b, some f.fb)], dsts := statDst f
      bad := !evenS a || statBad f || (if bcast then isVector b else !(isVec b || isS b)) }

/-- An s register operand with a policy bit. -/
def sSrc (r : BitVec 10) (pol : Bool) : List (Nat × Option Bool) := [(r.toNat, some pol)]

/-- The id of an event: in W, or in s(A) when the form says so (R335, R355). -/
def evNeed (f : MF) (inA : Bool) (n : Need) : Need :=
  if inA then { n with srcs := n.srcs ++ sSrc f.a f.fa, bad := n.bad || !isS f.a.toNat } else n

def seven (r : Nat) : List Nat := (List.range 7).map (r + ·)

def isQueueOp (f : MF) : Bool := baseOk f.a.toNat

/-- Format C needs (R42, R304): the registers that control instructions read have no policy. -/
def ctlReg (f : CF) : Need :=
  { g := f.g, srcs := [(f.a.toNat, none)], bad := !(isVec f.a.toNat || isS f.a.toNat) }

def shiftOk (f : CF) : Bool := 1 ≤ f.b.toNat && f.b.toNat ≤ 511
def extentOk (f : CF) : Bool := 2 ≤ f.b.toNat && f.b.toNat ≤ 512

/-- The number of a tile or slot lies beyond the team's count (R268). R283 places this check after MMA's split-mask and torc
checks; for the other matrix instructions no rule gives it a step of R46, and the model's choice is that of the shape checks,
steps 2 and 3, whatever the guard and before the split-mask and torc traps (log entry 117). -/
def badTile (c : Cx) (n : Nat) : Bool := c.launch.desc.acct ≤ n
def badSlot (c : Cx) (f : MF) : Bool :=
  (if f.w.getLsbD 5 then c.launch.desc.wslots else c.launch.desc.aslots) ≤ f.w.toNat % 32

/-- ACCRD (R285). -/
def needAccrd (c : Cx) (f : MF) : Need :=
  let n := tyWords f.ty.toNat
  { g := f.g
    srcs := if f.w.getLsbD 14 then [(f.a.toNat, some f.fa)] else []
    dsts := regsOf f.d.toNat n
    illegal := f.w.getLsbD 14 && !isS f.a.toNat
    bad := !isVec f.d.toNat || !aligned f.d.toNat n
      || 128 < f.w.toNat / 128 % 128 + c.lanes || badTile c f.b.toNat }

/-- The needs of every instruction; an event has none. -/
def needOf (c : Cx) (i : Instr) : Need :=
  match i with
  -- control
  | .nop f | .bra f | .exit f | .yield f | .brk f => { g := f.g }
  | .brx f => ctlReg f
  | .call f => { g := f.g, bad := !shiftOk f }
  | .callx f => { ctlReg f with bad := (ctlReg f).bad || !shiftOk f }
  | .enter f => { g := f.g, bad := !extentOk f }
  | .leave f => { g := f.g, bad := !extentOk f }
  | .ret f => { g := f.g, srcs := if c.path.depth = 0 then [] else [(0, none), (1, none)] }
  | .waitm f =>
    { g := f.g, srcs := [(f.a.toNat, none), (f.b.toNat, none)], bad := !isS f.a.toNat || !isS f.b.toNat }
  -- memory
  | .ld f => needLoad f false
  | .ldu f => needLoad f true
  | .st f => needStore f false
  | .stT f => needStore f true
  | .pref f => needLine f clsLL
  | .discard f => needLine f clsLS
  | .atom f => needAtom f false false
  | .atomT f => needAtom f true false
  | .atomc f => needAtomc f false
  | .atomcT f => needAtomc f true
  | .red f => needAtom f false true
  -- keys
  | .kcopy f | .kjoin f | .kclr f => { g := f.g, bad := kd f = 0 }
  | .kwait f => keyNeed f { g := f.g, dsts := statDst f, bad := statBad f }
  | .kpoll f => { g := f.g }
  | .fence f => { g := f.g }
  | .ksend f =>
    { g := f.g, srcs := [(f.a.toNat, some f.fa), (f.a.toNat + 1, some f.fa)], dsts := statDst f
      bad := !evenS f.a.toNat || statBad f, pk := some f.pk.toNat, cls := [clsAT] }
  | .krecv f => { g := f.g, bad := kd f = 0 || !isLocketField c f.b.toNat }
  -- copies
  | .cpy f => needCopy f 4 [clsCR, clsCW]
  | .cpyt f => needCopy f 8 [clsCR, clsCW]
  | .cpyr f => needCopy f 4 [clsCR, clsCW]
  | .cpyf f => needCopy f 4 [clsCW]
  | .cpyqQuery f | .cpyqCancel f => needQuery f
  -- lockets
  | .mint f =>
    { g := f.g, dsts := [f.d.toNat, f.d.toNat + 1], bad := !evenS f.d.toNat || !isLocketField c f.b.toNat }
  | .rwr f => needRwr f false
  | .rwrb f => needRwr f true
  | .empty f => { g := f.g, bad := !isLocketField c f.b.toNat }
  | .emptyMask f => { g := f.g, srcs := sSrc f.b f.fb, bad := !isS f.b.toNat }
  | .fullq f => { g := f.g, bad := badSrc c f.b.toNat }
  -- the matrix engine
  | .torcTake f | .torcPass f => { g := f.g }
  | .slotClaim f => { g := f.g, bad := badSlot c f }
  | .slotRelease f => keyNeed f { g := f.g, bad := badSlot c f }
  | .accz f => { g := f.g, bad := badTile c f.b.toNat }
  | .accld f =>
    memNeed f [clsMR] { g := f.g, srcs := sSrc f.a f.fa, bad := !isS f.a.toNat || badTile c f.b.toNat }
  | .accrd f => needAccrd c f
  | .drain f =>
    memNeed f [clsMW]
      { g := f.g, srcs := (List.range 4).map (fun i => (f.b.toNat + i, some f.fb))
        illegal := !sRun f.b.toNat 4 4, bad := badTile c (f.w.toNat % 8) }
  | .accqStatus f => { g := f.g, dsts := [f.d.toNat], bad := !isS f.d.toNat || badTile c f.b.toNat }
  | .accqRsum f =>
    { g := f.g, dsts := regsOf f.d.toNat 2
      bad := !isVec f.d.toNat || !aligned f.d.toNat 2 || 128 < f.w.toNat % 128 + c.lanes || badTile c f.b.toNat }
  | .mma f =>
    { g := f.g, srcs := [(f.fw.toNat, none)], bad := f.fw = 704, key := some (f.ck.toNat, 0)
      pk := some f.pk.toNat, cls := [clsMR] }
  -- scheduling
  | .barArrive f => keyNeed f { g := f.g }
  | .barSync f => if c.split.waitOnly then { g := f.g } else keyNeed f { g := f.g }
  | .barWait f => { g := f.g }
  | .spawn f => keyNeed f { g := f.g, srcs := sSrc f.a f.fa, bad := !isS f.a.toNat }
  | .evsig f => keyNeed f (evNeed f (f.fn = 1) { g := f.g, srcs := sSrc f.b f.fb, bad := !isS f.b.toNat })
  | .evwait f => evNeed f (f.fn = 1) { g := f.g, srcs := sSrc f.b f.fb, bad := !isS f.b.toNat }
  | .qpush f =>
    memNeed f [clsLS]
      { g := f.g
        srcs := (regsOf f.a.toNat 2).map (·, some f.fa) ++ (seven f.b.toNat).map (·, some f.fb)
        bad := !isQueueOp f || !sRun f.b.toNat 7 8 }
  | .qpop f =>
    memNeed f [clsLL]
      { g := f.g, srcs := (regsOf f.a.toNat 2).map (·, some f.fa), dsts := seven f.d.toNat
        bad := !isQueueOp f || !sRun f.d.toNat 7 8 }
  | .qkick f =>
    keyNeed f { g := f.g, srcs := sSrc f.a f.fa ++ sSrc f.b f.fb, bad := !isS f.a.toNat || !isS f.b.toNat }
  | .pubv f | .pubvFinal f =>
    memNeed f [clsLS] (evNeed f (f.fn.getLsbD 1) { g := f.g, srcs := sSrc f.b f.fb, bad := !isS f.b.toNat })
  | .stopref f => keyNeed f (evNeed f (f.fn.getLsbD 1) { g := f.g })
  | .vchk f | .vchkX f => evNeed f (f.fn.getLsbD 1) { g := f.g }
  -- system
  | .trap f => { g := f.g }
  | .csrr f => { g := f.g, dsts := [f.d.toNat] }
  | .csrw f | .csrwIndclr f => { g := f.g, srcs := sSrc f.b f.fb, bad := !isS f.b.toNat }
  | i =>
    match fieldsOf i with
    | some (.v op f) => needV c op f
    | some (.m _ f) => { g := f.g }
    | some (.x f) => { g := f.g }
    | _ => { g := ⟨0, false, false⟩ }

/-- An instruction through the checks and waits that its needs ask for. -/
def run (i : Instr) (s : State) (body : Cx → Mask → State → Out) : Out := gated (fun c => needOf c i) s body

/-- A branching instruction: an empty taken set is no skip but a fall-through (R295). -/
def runBranch (i : Instr) (s : State) (body : Cx → Mask → State → Out) : Out :=
  gatedOr (fun c => needOf c i) s (fun c s => body c 0 s) body

end Sys2Proof.Machine
end

