-- ==== Sys2Proof/Machine/Requests.lean ====
section
/-! DEFINITION. A core's requests: when one may leave (R20, R117, R118), what the core's L1 does first (R119, R187), and
its way to the slice or onto the fabric (R19, R65). A request's event comes twice: once when it leaves, which puts it on
its path, and once when it arrives. The spec leaves the order in which unrelated requests leave open (R117), and so does
the model: any event that may leave is as likely to be the next step as another. -/

namespace Sys2Proof.Machine

/-- The fault address of a line found at a slice: physical (R385). -/
def lineAddr (line : Nat) : Dword := BitVec.ofNat 64 (128 * line)

/-- The lanes of an operation on a line, by its key, as a mask. -/
def lineMask (o : Op) (key : Nat) : Mask := ((lanesOn o key).map (accLanes o)).foldl (· ||| ·) 0

/-- An event returns a core's dirty or update-only copy of a line. -/
def isReturn (core line : Nat) (e : Instr) : Bool :=
  match e with
  | .writeBackArrival c _ l _ _ _ => c = core && l = line
  | .partialResultCombine c _ l _ _ _ _ _ => c = core && l = line
  | _ => false

/-- A copy that a core has sent back has yet to be applied at the line's home slice: it has not left, or is on its way, or
waits there. -/
def returning (s : State) (core line : Nat) : Bool :=
  s.agenda.any (fun e => isReturn core line e && !(s.tripsOf e).any Trip.performed)
    || s.trips.any (fun t => isReturn core line t.e && !t.performed)

/-- A store, of one kind or another. -/
def OpKind.stores (k : OpKind) : Bool := k = .store || k = .storeT || k = .discard

/-- Another access of the core has yet to leave its mark on the L1's copy of the line: a fill or an update-only line asked
for, or a release sent to the home slice that has not been answered yet (R91, R119, R126). -/
def linePending (s : State) (core key : Nat) (r : Req) : Bool :=
  s.ops.any (fun e => e.2.core = core && e.2.parts.zipIdx.any (fun q =>
    q.1.key = key && (q.1.fill || q.1.gather || (e.2.kind.stores && e.2.order ≠ 0 && q.1.sent && !q.1.check)) && !q.1.back
      && (⟨e.1, q.2⟩ : Req) ≠ r))

/-- The operation accesses lines of memory that an L1 may hold. -/
def Op.lineAccess (o : Op) : Bool :=
  match o.kind with
  | .load | .store | .storeT | .discard | .atomic | .atomc | .red | .pref => true
  | _ => false

/-- The core's copy before a request leaves for the line: a load that bypasses the L1 has a dirty copy written back, and so
has a release, which changes the copy only once it has not been refused; an atomic or a RED finds no copy, a store finds
no update-only one (R91, R119, R187). -/
def copyFirst (o : Op) (p : Part) (s : State) : State :=
  match o.kind with
  | .load => if p.fill || p.check then s else sendBack o.core p.key s
  | .atomic | .atomc | .red => returnLine o.core p.key s
  | .store | .storeT | .discard =>
    if ((s.core o.core).l1Find p.key).any (fun l => l.state = .uo || (o.order ≠ 0 && l.state = .dty && !p.fill && !p.check))
    then sendBack o.core p.key s else s
  | _ => s

/-- A plain store that goes through to the home slice also updates the core's copy (R119, R139); a release does so only
when it has not been refused (R91, R126). -/
def storeThrough (o : Op) (p : Part) (s : State) : State :=
  match o.kind with
  | .store | .storeT | .discard =>
    if p.fill || p.check then s
    else
      let d := storeData o p.key
      l1Update o.core p.key d.1 d.2 o.scope o.hint s
  | _ => s

/-- A request leaves its core: onto its path to the home slice, or onto the fabric (R65). One to another node that has
no route faults (R357, R358). -/
def leaveCore (r : Req) (e : Instr) (o : Op) (p : Part) (s : State) : State :=
  let s := if o.lineAccess then copyFirst o p s else s
  let through := fun (s : State) => if o.order = 0 then storeThrough o p s else s
  match p.rem with
  | none =>
    if o.lineAccess && returning s o.core p.key then s.push [e]
    else
      (((through s).modPart r.op r.part (fun p => { p with sent := true })).depart e (.core o.core) [⟨p.home, p.line, 1⟩]).push [e]
  | some node =>
    match fabricSend (coreDie o.core) node (partPacket o p) r.op r.part s with
    | .ok s seq => (through s).modPart r.op r.part (fun p => { p with sent := true, seq := seq })
    | .full => s.push [e]
    | .noRoute => refusePart r 3 tRemote (lineAddr p.line) (lineMask o p.key) 0 s

/-- The event of a core's request: it leaves, or k is its arrival. -/
def request (r : Req) (e : Instr) (s : State) (k : Op → Part → State → Out) : Out :=
  withPart r s (fun o p s => if p.sent then k o p (s.arrive r) else .next (leaveCore r e o p s))

/-- A place on the stream to a node, or no route at all, which the request finds out by leaving (R192, R358). -/
def fabricRoom (s : State) (core : Nat) (node : BitVec 16) (line : Nat) : Bool :=
  let mask := (s.die (coreDie core)).routes.get 0 node.toNat
  s.nodeId.isNone || mask = 0
    || ((routePort s (coreDie core) mask line).isSome && (s.stream node).unacked.length < 64)

/-- A part that has not left may leave now, or be performed in the L1. -/
def mayLeave (s : State) (r : Req) (o : Op) (p : Part) : Bool :=
  o.fault.isNone && !heldToken s r.op o && !blockedPart s r.op o p
    && (p.rem.isSome && !p.l1 || !o.lineAccess || !(returning s o.core p.key))
    && (!o.lineAccess || o.kind = .pref && !p.l1 && !p.fill || o.kind = .load && !p.l1 && !p.fill && !p.check
        || !linePending s o.core p.key r)
    && (p.l1 || (match p.rem with
        | none => permitFree s (.core o.core) p.home
        | some node => fabricRoom s o.core node p.line))

/-- The event of a core's request would do something: leave, or arrive. -/
def requestReady (s : State) (r : Req) : Bool :=
  match s.reqPart r with
  | none => true
  | some (o, p) =>
    if p.sent then (s.trips.find? (isTripOf r)).all (mayArrive s) else mayLeave s r o p

/-- The requester of a core's return of a copy: one that answers a recall has a permit of its own (R81, R85). -/
def returnBy (s : State) (core home line : Nat) : Requester :=
  if (s.sline home line).state = .busy then .recall core else .core core

/-- A core's return of a copy may go on: it leaves after every earlier return of the line. -/
def returnReady (s : State) (e : Instr) (core home line : Nat) : Bool :=
  (!(s.tripsOf e).isEmpty
    || (s.agenda.find? (fun x => isReturn core line x && (s.tripsOf x).isEmpty) = some e
      && !s.trips.any (fun t => isReturn core line t.e && t.stage = .going)))
    && journeyReady s e (returnBy s core home line) [⟨home, line, 1⟩]

end Sys2Proof.Machine
end

