-- ==== Sys2Proof/Machine/Slices.lean ====
section
/-! DEFINITION. The home slices: arrival and waiting (R84, R85), scope checks (R90, R91), tags (R86), poison (R58), the
requests of lane operations (R120, R121, R182 to R189), write-backs and partial results (R140, R188). -/

namespace Sys2Proof.Machine

/-! ## Arrival, fills, recalls and evictions -/

/-- The lowest core of a die whose bit stands in an update-only mask. -/
def lowUo (die : Nat) (m : BitVec 16) : Option Nat := ((List.range 16).find? (fun i => m.getLsbD i)).map (16 * die + ·)

/-- The line is busy until the update-only copies that its mask names have come back, the lowest core's first (R85). -/
def recallCopies (home line : Nat) (s : State) : State :=
  let l := s.sline home line
  (s.modSline home line (fun l => { l with state := .busy, dirty := l.state = .dty })).push
    ((lowUo (sliceDie home) l.uo).toList.map (fun c => .recallDelivery c line))

/-- A line that is not busy and has no update-only copies leaves: a clean one at once, a dirty one once it is written back
(R84). -/
def dropLine (home line : Nat) (dirty : Bool) (s : State) : State :=
  if dirty then
    (s.modSline home line (fun l => { l with state := .busy, dirty := true, leaving := true })).push
      [.sliceWriteBackComplete home line]
  else s.modSline home line (fun l => { l with state := .inv, dirty := false, leaving := false, first := false })

/-- A line chosen for eviction, its update-only copies recalled first (R84, R85). -/
def evictLine (home line : Nat) (s : State) : State :=
  let l := s.sline home line
  if l.uo ≠ 0 then recallCopies home line (s.modSline home line (fun l => { l with leaving := true }))
  else dropLine home line (l.state = .dty) s

/-- A full slice evicts a line: one placed first for replacement if there is one (R141), else any that is idle. The spec
fixes no other order (log entry 25). -/
def sliceEvict (home : Nat) (s : State) : State :=
  let sl := s.slice home
  if sl.staying.length < 2048 then s
  else
    let idle := sl.lines.filter (fun e => e.2.idle)
    let first := idle.filter (fun e => e.2.first)
    let cand := if first.isEmpty then idle else first
    let p := s.choose cand.length
    match cand[p.1]? with
    | none => s
    | some e => evictLine home e.1 p.2

/-- The next waiting request of a line has its turn. -/
def nextWaiter (home line : Nat) (s : State) : State :=
  match (s.sline home line).waiters with
  | [] => s
  | e :: _ => if s.agenda.contains e then s else { s with agenda := e :: s.agenda }

/-- The requests for lines that wait for a place in a slice have another turn, if it may have one for them. -/
def wakeRoom (home : Nat) (s : State) : State :=
  if !(s.slice home).mayPlace then s
  else
  let es := (s.slice home).lines.filterMap (fun e => if e.2.state = .inv then e.2.waiters.head? else none)
  { s with agenda := es.filter (fun e => !s.agenda.contains e) ++ s.agenda }

/-- A request has been dealt with: the next one of its line follows, and a line that waits for a place may find one. -/
def afterTurn (home line : Nat) (s : State) : State := wakeRoom home (nextWaiter home line s)

/-- The home slices through which a line has been accessed (R59). -/
def noteHome (home line : Nat) (s : State) : State :=
  let hs := Tab.get [] s.homes line
  if hs.contains home then s else { s with homes := s.homes.set line (hs ++ [home]) }

/-- What a request needs of its line. -/
structure Ask where
  home : Nat
  line : Nat
  /-- update-only copies are recalled first (R85) -/
  rcl : Bool := true
  /-- the line must stand in the slice; an absent one is filled from memory -/
  hold : Bool := true
  fill : Bool := true
  /-- a line filled for it is placed first for replacement (R141) -/
  stream : Bool := false
  /-- it comes through a mapping of the line, or through a policy of its own (R59) -/
  note : Bool := true
deriving DecidableEq, Repr

/-- A request e reaches its home slice: it waits behind earlier requests of the line and while the line is busy (R84). In
its turn it may be refused, with no other effect (R91); or update-only copies are recalled first (R85); or an absent line
comes in, once the slice has a place for it. Then k performs it. -/
def atSliceWith (a : Ask) (e : Instr) (s : State) (refuse : State → Option State) (k : State → Out) : Out :=
  let l := s.sline a.home a.line
  let wait := fun (s : State) => s.modSline a.home a.line (fun l =>
    { l with waiters := if l.waiters.contains e then l.waiters else l.waiters ++ [e] })
  let leave := fun (s : State) => s.modSline a.home a.line (fun l => { l with waiters := l.waiters.erase e })
  if l.state = .busy || (l.waiters.head?.any (fun h => h ≠ e)) then .next (wait s)
  else match refuse s with
    | some s' => .next (afterTurn a.home a.line (leave s'))
    | none =>
      if a.rcl && l.uo ≠ 0 then .next (recallCopies a.home a.line (wait s))
      else if a.hold && l.state = .inv && 2048 ≤ (s.slice a.home).taken then .next (wakeRoom a.home (sliceEvict a.home (wait s)))
      else if a.hold && a.fill && l.state = .inv then
        .next ((wait (s.modSline a.home a.line (fun l => { l with state := .busy, first := a.stream }))).push
          [.sliceFillComplete a.home a.line])
      else
        let s := if a.hold && l.state = .inv then s.modSline a.home a.line (fun l => { l with state := .cln }) else s
        match k (if a.note then noteHome a.home a.line (leave s) else leave s) with
        | .next s => .next (afterTurn a.home a.line s)
        | o => o

/-- A request that nothing refuses. -/
def atSlice (home line : Nat) (rcl : Bool) (e : Instr) (s : State) (k : State → Out) : Out :=
  atSliceWith { home := home, line := line, rcl := rcl } e s (fun _ => none) k

/-- SLICE_FILL_COMPLETE (R84): the line is clean and the waiting requests proceed. ECC may have corrected an error in
what memory held, which is counted, or have found one that it cannot correct, which poisons the line (R58). -/
def execSliceFillComplete (home line : Nat) (s : State) : Out :=
  if (s.sline home line).state = .busy then
    let found := Config.eccError s.free
    let s := { s with
      free := s.free + 1
      corrected := if found = 1 then s.corrected + 1 else s.corrected
      poison := if found = 2 && !s.poison.contains line then s.poison ++ [line] else s.poison }
    .next (afterTurn home line (s.modSline home line (fun l => { l with state := .cln, dirty := false })))
  else .fault .noSuchUnit

/-- SLICE_WRITE_BACK_COMPLETE (R84): the evicted line is gone; a request that came for it meanwhile brings it back. -/
def execSliceWriteBackComplete (home line : Nat) (s : State) : Out :=
  if (s.sline home line).state = .busy then .next (wakeRoom home (dropLine home line false s))
  else .fault .noSuchUnit

/-! ## Requests that are given up -/

/-- The operation that an event belongs to. -/
def eventOp (e : Instr) : Option Nat :=
  match e with
  | .sliceLoad r | .sliceStore r | .sliceAtomic r | .checkRequest r | .updateOnlyObtain r | .replyArrival r => some r.op
  | .remoteWriteApply o | .tokenApply o | .emptyRequestApply o | .mintRequestApply o | .imageWrite o | .pushReservation o
  | .pushWrite o | .popReservation o | .popRead o | .heldRequestResend o | .ksendTokenSend o
  | .copyDescriptorEnqueue o | .copyQueryRequest o | .mmaExecute o | .acczExecute o | .accldExecute o | .accrdExecute o
  | .accqExecute o | .drainExecute o | .partnerScratchpadAccess o | .pubvApply o | .vchkRead o => some o
  | .copyChunk o _ => some o
  | .xshflPosting o _ => some o
  | .xshflDelivery o _ _ => some o
  | _ => none

/-- One line without the waiting requests that p names. -/
def purgeLine (p : Instr → Bool) (home line : Nat) (s : State) : State :=
  let l := s.sline home line
  if l.waiters.any p then
    let first := l.waiters.head?.any p
    let s := s.modSline home line (fun l => { l with waiters := l.waiters.filter (fun e => !p e) })
    if first && l.state ≠ .busy then afterTurn home line s else s
  else s

/-- Events that will not take place: dropped from the agenda, from the slices' queues and from the held requests. -/
def purgeEvents (p : Instr → Bool) (s : State) : State :=
  let slices : Tab Slice := s.slices.map (fun (e : Nat × Slice) => (e.1, { e.2 with held := e.2.held.filter (fun x => !p x) }))
  let s := { s with
    agenda := s.agenda.filter (fun e => !p e), slices := slices
    trips := s.trips.filter (fun t => !p t.e), pins := s.pins.filter (fun x => !p x.e) }
  s.slices.foldl (fun s e => e.2.lines.foldl (fun s l => purgeLine p e.1 l.1 s) s) s

/-- An event that waits at lines no longer matters. -/
def forget (e : Instr) (s : State) : State := purgeEvents (fun x => x = e) s

/-! ## Scopes, tags, watches -/

/-- The instance of a scope that holds a core (R91, R115). -/
def instOf (scope core : Nat) : Nat :=
  match scope with
  | 0 => core
  | 1 => core / 2
  | 2 => core / 16
  | _ => 0

/-- Contains of R91. -/
def contains (s1 i1 s2 i2 : Nat) : Bool :=
  if s1 < s2 then false
  else match s1 with
    | 0 => i1 = i2
    | 1 => i1 = (if s2 = 0 then i2 / 2 else i2)
    | 2 => i1 = (match s2 with | 0 => i2 / 16 | 1 => i2 / 8 | _ => i2)
    | _ => true

/-- The record as a fault reports it (R90). -/
def syncWord (r : SyncRec) : Dword :=
  BitVec.ofNat 64 (2 ^ 63 + r.scope * 2 ^ 60 + r.inst * 2 ^ 53 + r.line)

/-- A checked access: the new table, or the record that refuses it (R91). A set of 4 replaces its least recently used
record (R90). -/
def scopeCheck (s : State) (home line scope inst : Nat) : Except SyncRec State :=
  let t := (s.slice home).sync
  match t.find? (fun r => r.line = line) with
  | some r =>
    if contains scope inst r.scope r.inst then
      .ok (s.modSlice home (fun sl => { sl with sync := sl.sync.filter (fun x => x.line ≠ line) ++ [⟨scope, inst, line⟩] }))
    else .error r
  | none =>
    let set := t.filter (fun r => r.line % 1024 = line % 1024)
    let t := if set.length < 4 then t else (match set.head? with | some r => t.erase r | none => t)
    .ok (s.modSlice home (fun sl => { sl with sync := t ++ [⟨scope, inst, line⟩] }))

/-- A conditional request held at a slice concerns the line (R333). -/
def heldOn (s : State) (line : Nat) (e : Instr) : Bool :=
  match e with
  | .pushWrite id | .popRead id => (s.ops.find? id).any (fun o => o.parts.any (fun p => p.line = line && !p.done))
  | _ => false

/-- A line newer than memory. -/
def SliceLine.dirtied (l : SliceLine) : SliceLine :=
  match l.state with
  | .inv => l
  | .busy => { l with dirty := true }
  | _ => { l with state := .dty }

/-- A request has changed the line: its tag rises (R86), it is dirty (R84), its watches wake (R311), and the requests
held for it are tested again (R333). -/
def lineChanged (home line : Nat) (s : State) : State :=
  let woken := (s.slice home).watches.filter (fun w => w.line = line)
  let s := { s with tags := s.tags.modify 0 line (· + 1) }
  let s := s.modSlice home (fun sl => { sl with watches := sl.watches.filter (fun w => w.line ≠ line) })
  let s := s.modSline home line SliceLine.dirtied
  let again := (s.slice home).held.filter (heldOn s line)
  let s := s.modSlice home (fun sl => { sl with held := sl.held.filter (fun e => !heldOn s line e) })
  s.push (woken.map (fun w => .wokenDelivery w.split) ++ again)

/-- The team runs on its cores, or is being saved from them. -/
def Team.onCore (t : Team) : Bool := t.status = .running || t.status = .raised || t.status = .skidding || t.status = .saving

/-- The line lies in the image of a resident warp, whose lines hold nothing that a load may rely on (R66). -/
def residentImage (s : State) (line : Nat) : Bool :=
  s.teams.any (fun t => t.2.onCore && (s.launches.find? t.2.launch).any (fun l => t.2.warps.any (fun w =>
    (List.range (2 + (l.desc.ring + min l.desc.globals 96 + 62) / 63)).any (fun b =>
      match translate s w.2.core l.ctx .image false (w.2.imageBase + BitVec.ofNat 64 (16384 * b)) 0 with
      | .ok p => p.tr.node.isNone && p.pa / 16384 = line / 128
      | .error _ => false))))

/-- Data for the bytes an access touches: contained results where the line has two homes (R59). -/
def homeData (home line : Nat) (d : LineData) (s : State) : LineData × State :=
  if mixedHome s home line then
    let p := s.fresh
    (BitVec.ofNat 1024 p.1, p.2)
  else (d, s)

/-- A line as a load sees it: contained results where it has two homes, or lies in a resident warp's image (R59, R66). -/
def lineView (p : Part) (d : LineData) (s : State) : LineData × State :=
  if p.rem.isSome then (d, s)
  else if p.ctxPage && residentImage s p.line then
    let f := s.fresh
    (BitVec.ofNat 1024 f.1, f.2)
  else homeData p.home p.line d s

/-- A write of masked bytes to a line; a whole-line write clears its poison (R58). -/
def writeLine (home line : Nat) (d : LineData) (bm : ByteMask) (s : State) : State :=
  let p := homeData home line d s
  let s := { p.2 with mem := p.2.mem.putLine line p.1 bm }
  let s := if bm = BitVec.allOnes 128 then { s with poison := s.poison.filter (fun x => x ≠ line) } else s
  lineChanged home line s

def poisoned (s : State) (line : Nat) : Bool := s.poison.contains line

/-- A request meets an uncorrectable error (R58). -/
def memoryError (r : Req) (o : Op) (p : Part) (s : State) : State :=
  refuseAt r 3 tMemory (lineAddr p.line) (lineMask o p.key) 0 s

/-- The refusal of an operation's checked access by the line's record, if it is one (R91). -/
def scopeRefusal (r : Req) (o : Op) (p : Part) (checked : Bool) (s : State) : Option State :=
  if !checked || p.passed then none
  else match scopeCheck s p.home p.line o.scope (instOf o.scope o.core) with
    | .error rec => some (refuseAt r 3 tScope (lineAddr p.line) (lineMask o p.key) (syncWord rec) s)
    | .ok _ => none

/-- The record of a checked access that has not been refused (R91). -/
def scopeRecord (o : Op) (p : Part) (checked : Bool) (s : State) : State :=
  if !checked || p.passed then s
  else match scopeCheck s p.home p.line o.scope (instOf o.scope o.core) with
    | .error _ => s
    | .ok s => s

/-! ## The requests of lane operations -/

/-- What a request of part p needs of its line. -/
def Part.ask (p : Part) : Ask := { home := p.home, line := p.line }

/-- SLICE_LOAD (R120): the whole line as it stands in slice order; a load's value is thereby fixed. A prefetch has no
fault, and leaves update-only copies where they are (R160, R187). -/
def execSliceLoad (r : Req) (s : State) : Out :=
  request r (.sliceLoad r) s (fun o p s =>
    let chk := o.order ≠ 0
    atSliceWith { p.ask with rcl := o.kind ≠ .pref, stream := o.hint = 3 } (.sliceLoad r) s (scopeRefusal r o p chk) (fun s =>
      if poisoned s p.line then
        .next (if o.kind = .pref then partDone r.op r.part (fun p => { p with fill := false }) s else memoryError r o p s)
      else
        let d := lineView p (s.mem.line p.line) (scopeRecord o p chk s)
        .next (answerPart r (fun p => { p with ldata := d.1, passed := true, done := o.kind = .load || o.kind = .pref }) d.2)))

/-- SLICE_STORE (R119, R154): the bytes of all lanes at one position; DISCARD brings no line in (R161). -/
def execSliceStore (r : Req) (s : State) : Out :=
  request r (.sliceStore r) s (fun o p s =>
    let chk := o.order ≠ 0
    atSliceWith { p.ask with stream := o.hint = 3, fill := o.kind ≠ .discard } (.sliceStore r) s (scopeRefusal r o p chk) (fun s =>
      let d := storeData o p.key
      if poisoned s p.line && d.2 ≠ BitVec.allOnes 128 then .next (memoryError r o p s)
      else
        let s := writeLine p.home p.line d.1 d.2 (scopeRecord o p chk s)
        .next (partDone r.op r.part (fun p => { p with tag := s.tags.get 0 p.line }) s)))

/-- CHECK_REQUEST (R125): the scope of an access whose data stays in the L1, tested in its turn like any other. -/
def execCheckRequest (r : Req) (s : State) : Out :=
  request r (.checkRequest r) s (fun o p s =>
    atSliceWith { p.ask with rcl := false, hold := false } (.checkRequest r) s (scopeRefusal r o p true) (fun s =>
      .next (answerPart r (fun p => { p with passed := true }) (scopeRecord o p true s))))

/-- An element's new value (R183, R184): fn, type code of R36, old bits, operand, new value of a compare. -/
def atomNew (cas : Bool) (fn ty v b x : Nat) : Nat :=
  let w := if is64c ty then 64 else 32
  let sg := ty = 1 || ty = 5
  let fm := if ty = 7 then fmtF64 else if ty = 9 then fmtBF16 else fmtF32
  let flt := fun (g : Fmt → Nat → Nat → Nat) =>
    if ty = 9 then g fm (v % 2 ^ 16) (b % 2 ^ 16) + 2 ^ 16 * g fm (v / 2 ^ 16) (b / 2 ^ 16) else g fm v b
  if cas then (if v = b then x else v)
  else match fn with
    | 0 => b
    | 1 => (v + b) % 2 ^ w
    | 2 => flt (fun fm v b => fm.encode 0 false false (FV.add 0 (fm.decode v) (fm.decode b)))
    | 3 => if intOf w sg b < intOf w sg v then b else v
    | 4 => if intOf w sg v < intOf w sg b then b else v
    | 5 => flt (fun fm v b => fm.minMax false false v b)
    | 6 => flt (fun fm v b => fm.minMax false true v b)
    | 7 => Nat.land v b
    | 8 => Nat.lor v b
    | _ => Nat.xor v b
where
  is64c (ty : Nat) : Bool := 4 ≤ ty && ty ≤ 7

/-- The lanes of one line, ascending, one at a time: memory and the old values (R185). -/
def atomLanes (cas : Bool) (fn ty size : Nat) : List Acc → Memory → Tab Dword → Memory × Tab Dword
  | [], m, t => (m, t)
  | a :: as, m, t =>
    let v := m.nat a.pa size
    let n := atomNew cas fn ty v (a.b.toNat % 2 ^ (8 * size)) (a.c.toNat % 2 ^ (8 * size))
    atomLanes cas fn ty size as (m.putNat a.pa size n) (t.set (8 * a.lane) (BitVec.ofNat 64 v))

/-- The bytes of a line that lanes of a size address. -/
def lanesBytes (size : Nat) (ls : List Acc) : ByteMask :=
  ls.foldl (fun m a => (placeBytes (a.pa % 128) (leBytes size 0) 0 m).2) 0

/-- The lanes of an atomic applied to one line at one position, with the old values (R185); all of it contained results
where the line has two homes (R59). -/
def applyAtomic (home line : Nat) (cas : Bool) (fn ty size : Nat) (ls : List Acc) (s : State) : Tab Dword × State :=
  if mixedHome s home line then
    let p := s.fresh
    (ls.map (fun a => (8 * a.lane, BitVec.ofNat 64 (p.1 / 2 ^ (64 * a.lane)))),
      writeLine home line 0 (lanesBytes size ls) p.2)
  else
    let res := atomLanes cas (fn % 32) ty size ls s.mem []
    (res.2, lineChanged home line { s with mem := res.1 })

/-- SLICE_ATOMIC (R181, R196, R197): every lane of the line at one position; the tag rises once (R182). -/
def execSliceAtomic (r : Req) (s : State) : Out :=
  request r (.sliceAtomic r) s (fun o p s =>
    atSliceWith p.ask (.sliceAtomic r) s (scopeRefusal r o p true) (fun s =>
      if poisoned s p.line then .next (memoryError r o p s)
      else
        let a := applyAtomic p.home p.line (o.kind = .atomc) o.fn o.ty o.size (lanesOn o p.key) (scopeRecord o p true s)
        let s := a.2.modOp r.op (fun o => { o with data := a.1.foldl (fun t e => t.set e.1 e.2) o.data })
        .next (partDone r.op r.part (fun p => { p with tag := s.tags.get 0 p.line }) s)))

/-! ## Update-only lines (R186 to R188) -/

/-- One operand merged into an update-only line: the first contribution as it stands, later ones combined (R187). -/
def mergeLane (l : L1Line) (size : Nat) (a : Acc) : L1Line :=
  let off := a.pa % 128
  let have_ := l.bmask.getLsbD off
  let old := l.data.toNat / 2 ^ (8 * off) % 2 ^ (8 * size)
  let b := a.b.toNat % 2 ^ (8 * size)
  let n := if have_ then atomNew false l.fn l.ty old b 0 else b
  let p := placeBytes off (leBytes size n) l.data l.bmask
  { l with data := p.1, bmask := p.2 }

/-- A RED merged into the core's update-only copy (R187, R99). -/
def mergeRed (id : Nat) (o : Op) (line : Nat) (s : State) : State :=
  match (s.core o.core).l1Find line with
  | none => s
  | some l =>
    let l := (lanesOn o line).foldl (fun l a => mergeLane l o.size a) l
    let l := { l with
      ops := l.ops ++ [id]
      kmask := if o.pk = 0 then l.kmask else l.kmask ||| BitVec.ofNat 15 (2 ^ (o.pk - 1)) }
    s.modCore o.core (fun c => (c.l1Replace l).l1Touch line 0)

/-- UPDATE_ONLY_OBTAIN (R187): a checked request that sets the core's bit; gathering begins when the grant arrives. -/
def execUpdateOnlyObtain (r : Req) (s : State) : Out :=
  request r (.updateOnlyObtain r) s (fun o p s =>
    atSliceWith { p.ask with rcl := false } (.updateOnlyObtain r) s (scopeRefusal r o p true) (fun s =>
      let s := (scopeRecord o p true s).modSline p.home p.line
        (fun l => { l with uo := l.uo ||| BitVec.ofNat 16 (2 ^ (o.core % 16)) })
      .next (answerPart r (fun p => { p with passed := true }) s)))

/-- The slices of a core's die that have asked it for its copy of a line (R85): one, or none, unless the line has two
homes. -/
def recallers (s : State) (core line : Nat) : List Nat :=
  (s.slices.filter (fun x =>
    let l := Tab.get ({} : SliceLine) x.2.lines line
    l.state = .busy && sliceDie x.1 = coreDie core && lowUo (sliceDie x.1) l.uo = some core)).map (·.1)

/-- A core's partial result of a line is on its way to a slice. -/
def combining (s : State) (core line home : Nat) : Bool :=
  s.agenda.any (fun e => match e with
    | .partialResultCombine c h l _ _ _ _ _ =>
      c = core && h = home && l = line && !(s.tripsOf e).any Trip.performed
    | _ => false)

/-- RECALL_DELIVERY (R85, R82): the core returns its partial result to the slice that asks. One already on its way answers
for itself; a core that holds none returns an empty one. -/
def execRecallDelivery (core line : Nat) (s : State) : Out :=
  let homes := recallers s core line
  let s := if ((s.core core).l1Find line).any (fun l => l.state = .uo && homes.contains l.home) then sendBack core line s else s
  .next (s.push ((homes.filter (fun h => !combining s core line h)).map (fun h => .partialResultCombine core h line 0 0 0 0 [])))

/-! ## Write-backs and combines -/

/-- The line of an operation has been performed at the wider scopes. -/
def wbDone (line id : Nat) (s : State) : State :=
  let s := s.modOp id (fun o => { o with parts := o.parts.map (fun p => if p.key = line then { p with wb := false } else p) })
  match s.ops.find? id with
  | none => s
  | some o => if o.doneCore && !o.parts.any (fun p => p.wb || !p.back) then finishOp id s else s

/-- A poisoned line refuses a write-back or a combine: a memory-error fault against each operation (R58, R188), whose
access to the line is not performed. -/
def wbFault (line : Nat) (ops : List Nat) (s : State) : State :=
  ops.foldl (fun s id =>
    faultOp id 3 tMemory (lineAddr line) (((s.ops.find? id).map (fun o => lineMask o line)).getD 0) 0
      (s.modOp id (fun o => { o with parts := o.parts.map (fun p =>
        if p.key = line && p.wb then { p with wb := false, done := false, back := false, bad := true } else p) }))) s

/-- A core's return of a copy, a request to its home slice that done performs or refuses; with the reply the core learns
what has become of the operations that wait on it (R82, R95). -/
def returnTrip (e : Instr) (core home line : Nat) (ops : List Nat) (look : Trip → State → Out) (s : State) : Out :=
  journey e (returnBy s core home line) [⟨home, line, 1⟩] look
    (fun ts s => .next (if ts.any (·.bad) then wbFault line ops s else ops.foldl (fun s id => wbDone line id s) s)) s

/-- WRITE_BACK_ARRIVAL (R140): only the bytes that BMASK names are written. -/
def execWriteBackArrival (core home line : Nat) (data : LineData) (bmask : ByteMask) (ops : List Nat) (s : State) : Out :=
  let e : Instr := .writeBackArrival core home line data bmask ops
  returnTrip e core home line ops (fun t s =>
    atSlice home line true e s (fun s =>
      if poisoned s line && bmask ≠ BitVec.allOnes 128 then .next (returned t (fun x => { x with bad := true }) s)
      else .next (returned t (fun x => x) (writeLine home line data bmask s)))) s

/-- The elements that BMASK names, combined with memory (R188). -/
def combineLine (fn ty size line : Nat) (d : LineData) (bm : ByteMask) : Nat → Memory → Memory
  | 0, m => m
  | n + 1, m =>
    let off := size * n
    let m := combineLine fn ty size line d bm n m
    if bm.getLsbD off then
      let a := 128 * line + off
      m.putNat a size (atomNew false fn ty (m.nat a size) (d.toNat / 2 ^ (8 * off) % 2 ^ (8 * size)) 0)
    else m

/-- A partial result combined with its line as one request (R188); contained results where the line has two homes
(R59). -/
def combine (home line : Nat) (data : LineData) (bmask : ByteMask) (fn ty : Nat) (s : State) : State :=
  if mixedHome s home line then writeLine home line 0 bmask s
  else lineChanged home line { s with mem := combineLine fn ty (tySize ty) line data bmask (128 / tySize ty) s.mem }

/-- A core's update-only copy is no longer held. The last one of a recall lets the waiting request or the eviction
proceed, and before it the next core is asked in ascending order (R85). -/
def copyReturned (core home line : Nat) (s : State) : State :=
  let s := s.modSline home line (fun l => { l with uo := l.uo &&& ~~~ BitVec.ofNat 16 (2 ^ (core % 16)) })
  let l := s.sline home line
  if l.state = .busy then
    match lowUo (sliceDie home) l.uo with
    | some c => s.push [.recallDelivery c line]
    | none =>
      if l.leaving then wakeRoom home (dropLine home line l.dirty s)
      else afterTurn home line (s.modSline home line (fun l => { l with state := if l.dirty then .dty else .cln, dirty := false }))
  else s

/-- PARTIAL_RESULT_COMBINE (R188). A poisoned line refuses it and stays as it is; an empty one changes nothing. -/
def execPartialResultCombine (core home line : Nat) (data : LineData) (bmask : ByteMask) (fn ty : Nat) (ops : List Nat)
    (s : State) : Out :=
  let e : Instr := .partialResultCombine core home line data bmask fn ty ops
  returnTrip e core home line ops (fun t s =>
    let bad := bmask ≠ 0 && poisoned s line
    .next (returned t (fun x => { x with bad := bad })
      (copyReturned core home line (if bmask = 0 || bad then s else combine home line data bmask fn ty s)))) s

/-! ## Watches (R311) -/

/-- WATCH_REQUEST: in its turn at the slice, a watch waits for the next request that changes the line, unless the word
differs already or the slice's 256 watches are taken; then the split is woken at once. Its address and value stand in the
operation. A watch of a line of another node wakes at once. -/
def execWatchRequest (r : SplitRef) (s : State) : Out :=
  match (s.split? r).map Split.wait with
  | some (.watch _ id) =>
    withOp id s (fun o s =>
      match o.parts.head?, o.lanes.head? with
      | some p, some a =>
        if p.rem.isSome then .next (s.push [.wokenDelivery r])
        else
          let e : Instr := .watchRequest r
          journey e (.core o.core) [⟨p.home, p.line, 1⟩] (fun t s =>
            atSlice p.home p.line true e s (fun s =>
              if poisoned s p.line then .next (returned t (fun x => { x with bad := true }) s)
              else
                let d := homeData p.home p.line (s.mem.line p.line) s
                let s := returned t (fun x => x) d.2
                if d.1.toNat / 2 ^ (8 * (a.pa % 128)) % 2 ^ 32 ≠ a.b.toNat % 2 ^ 32
                    || 256 ≤ (s.slice p.home).watches.length then .next (s.push [.wokenDelivery r])
                else .next (s.modSlice p.home (fun sl => { sl with watches := sl.watches ++ [⟨id, r, o.core, p.line⟩] }))))
            (fun ts s => .next (if ts.any (·.bad) then faultOp id 3 tMemory (lineAddr p.line) (lineMask o p.key) 0 s else s)) s
      | _, _ => .fault .noSuchUnit)
  | _ => .next (s.endTrips (.watchRequest r))

end Sys2Proof.Machine
end

