-- ==== Sys2Proof/Machine/Walks.lean ====
section
/-! DEFINITION. Table walks (R62, R67 to R69): the miss entries of cores and dies, the walkers, and instructions that wait
for a translation. -/

namespace Sys2Proof.Machine

/-- Where a walk of a page begins: at the lowest table that the die's walk cache knows, or at the root (R62, R67). -/
def walkStart (s : State) (die ctx page : Nat) : Option (Nat × Nat) :=
  let va := 65536 * page
  let hits := (s.die die).walks.filter (fun w => w.1 = ctx && w.2.2.1 = va / 2 ^ pageBits (w.2.1 + 1))
  match hits.find? (fun w => w.2.1 = 1), hits.find? (fun w => w.2.1 = 2), (s.context ctx).root with
  | some w, _, _ => some (1, w.2.2.2)
  | none, some w, _ => some (2, w.2.2.2)
  | none, none, root => root.map (fun r => (3, r))

/-- A split takes the result of a walk that it waits for. -/
def Split.take (sp : Split) (h : Walked) : Split :=
  match sp.wait with
  | .walk ps =>
    if ps.contains h.page then
      let ps := ps.filter (· ≠ h.page)
      { sp with held := sp.held ++ [h], wait := if ps.isEmpty then .none else .walk ps }
    else sp
  | _ => sp

/-- An event waits for a walk. -/
def State.awaits (s : State) (e : Instr) : Bool := s.dies.any (fun d => d.2.misses.any (fun m => m.events.contains e))

/-- An event that joined a miss entry has the result of its walk; once it waits for no other page it goes on. -/
def wakeEvent (ctx : Nat) (h : Walked) (s : State) (e : Instr) : State :=
  let s := { s with pins := s.pins ++ [⟨e, ctx, h⟩] }
  if s.awaits e || s.agenda.contains e then s else s.push [e]

/-- A walk is over (R67, R69): a leaf goes into the TLBs of the die and of the cores that joined, and the splits and events
that wait for the page have their result. What faults is not cached. -/
def walkEnd (die ctx : Nat) (h : Walked) (s : State) : State :=
  match (s.die die).misses.find? (fun m => m.ctx = ctx && m.page = h.page) with
  | none => s
  | some m =>
    let s := s.modDie die (fun d => { d with
      misses := d.misses.filter (fun m => !(m.ctx = ctx && m.page = h.page))
      tlb := match h.tr with
        | some t => dieTlbInsert d.tlb ⟨ctx, 65536 * h.page / 2 ^ pageBits t.level, t⟩
        | none => d.tlb })
    let s := m.cores.foldl (fun s core => s.modCore core (fun c => { c with
      misses := c.misses.filter (· ≠ (ctx, h.page))
      tlb := match h.tr with
        | some t => tlbInsert c.tlb ⟨ctx, 65536 * h.page / 2 ^ pageBits t.level, t⟩
        | none => c.tlb })) s
    m.events.foldl (wakeEvent ctx h) (s.mapSplits ctx (fun w sp => if m.cores.contains w.core then sp.take h else sp))

/-- Walkers take die entries in arrival order: 64 of the first 2,048 are walked at a time (R69). -/
def startWalkers (die : Nat) (s : State) : State :=
  ((s.die die).misses.take 2048).foldl (fun s m =>
    if m.walking || 64 ≤ ((s.die die).misses.filter (·.walking)).length then s
    else match walkStart s die m.ctx m.page with
      | none => walkEnd die m.ctx { page := m.page, code := tNotPresent } s
      | some (level, table) =>
        (s.modDie die (fun d => { d with
          misses := d.misses.map (fun x => if x.ctx = m.ctx && x.page = m.page then { x with walking := true } else x) })).push
          [.tableWalkStep (m.cores.headD (16 * die)) m.ctx (BitVec.ofNat 64 (65536 * m.page)) level table]) s

/-- A core's miss for one page: it joins the core's entry, and the core's joins the die's, where there is one (R69). -/
def missPage (core ctx page : Nat) (s : State) : State :=
  if (s.core core).misses.contains (ctx, page) then s
  else
    (s.modCore core (fun c => { c with misses := c.misses ++ [(ctx, page)] })).modDie (coreDie core) (fun d =>
      if d.misses.any (fun m => m.ctx = ctx && m.page = page) then
        { d with misses := d.misses.map (fun m =>
            if m.ctx = ctx && m.page = page then { m with cores := m.cores ++ [core] } else m) }
      else { d with misses := d.misses ++ [{ ctx := ctx, page := page, cores := [core] }] })

/-- The split waits for walks of some pages, or stalls while the core has no miss entry for one of them (R69). An instruction
that misses on more pages than a core has entries waits for the first 64, whose results it keeps, and then for the rest. -/
def waitPages (c : Cx) (missing : List Nat) (s : State) : State :=
  let pages := missing.take 64
  let new := pages.filter (fun p => !(s.core c.core).misses.contains (c.ctx, p))
  if 64 < (s.core c.core).misses.length + new.length then stall c s
  else startWalkers (coreDie c.core) (pages.foldl (fun s p => missPage c.core c.ctx p s) (parkAt c (.walk pages) s))

/-- An instruction that needs the translations of some addresses: k once they are there. -/
def withPages (c : Cx) (vas : List Dword) (s : State) (k : State → Out) : Out :=
  match pagesMissing s c.split.held c.core c.ctx vas with
  | [] => k s
  | ps => .next (waitPages c ps s)

/-! ## Translation for events: copies, spills, refills, images, records, host accesses (R68, R69) -/

/-- The results that an event has for its pages in a context. -/
def State.heldFor (s : State) (e : Instr) (ctx : Nat) : List Walked :=
  (s.pins.filter (fun x => x.e = e && x.ctx = ctx)).map (·.walked)

/-- The pages that an event has no result for yet. -/
def unpinned (s : State) (e : Instr) (ctx : Nat) (vas : List Dword) : List Nat :=
  if (s.context ctx).root.isNone then []
  else (pagesOf (vas.filter (fun v => v.extractLsb' 55 9 = 0))).filter (fun p => !(s.heldFor e ctx).any (fun h => h.page = p))

/-- The result for a page, held already or looked up, chosen once for the event (R70). -/
def pinOf (held : List Walked) (s : State) (core ctx page k : Nat) : Walked :=
  match lookupHeld held s core ctx (BitVec.ofNat 64 (65536 * page)) k with
  | .ok t => { page := page, tr := some t }
  | .error f => { page := page, code := f.code, aux := f.aux }

def pinPages (e : Instr) (held : List Walked) (core ctx : Nat) (pages : List Nat) (s : State) : State :=
  { s with
    pins := s.pins ++ pages.zipIdx.map (fun p => (⟨e, ctx, pinOf held s core ctx p.1 p.2⟩ : Pin))
    free := s.free + pages.length }

/-- An event's miss joins the die's entry for the page, or makes one (R69). -/
def missFor (die ctx : Nat) (e : Instr) (s : State) (page : Nat) : State :=
  s.modDie die (fun d =>
    if d.misses.any (fun m => m.ctx = ctx && m.page = page) then
      { d with misses := d.misses.map (fun m =>
          if m.ctx = ctx && m.page = page && !m.events.contains e then { m with events := m.events ++ [e] } else m) }
    else { d with misses := d.misses ++ [{ ctx := ctx, page := page, events := [e] }] })

/-- The pages of an event that neither TLB holds. -/
def pagesWalked (s : State) (e : Instr) (core ctx : Nat) (vas : List Dword) : List Nat :=
  (unpinned s e ctx vas).filter (fun p =>
    let va := BitVec.ofNat 64 (p * 65536)
    (tlbHit (s.core core).tlb ctx va).isNone && (tlbHit (s.die (coreDie core)).tlb ctx va).isNone)

/-- The core has miss entries for some pages (R69); units outside the cores take none of them. -/
def missRoom (s : State) (q : Requester) (ctx : Nat) (pages : List Nat) : Bool :=
  match q with
  | .core c => (s.core c).misses.length + (pages.filter (fun p => !(s.core c).misses.contains (ctx, p))).length ≤ 64
  | _ => true

/-- An event of a requester that needs the translations of some addresses: k once it has them, each chosen once for all its
steps. The misses of a core's own units take the core's entries too (R69). -/
def withPins (e : Instr) (q : Requester) (core ctx : Nat) (vas : List Dword) (s : State) (k : State → Out) : Out :=
  match unpinned s e ctx vas, (pagesWalked s e core ctx vas).take 64 with
  | [], _ => k s
  | ps, [] => .next ((pinPages e [] core ctx ps s).push [e])
  | _, ps =>
    let die := coreDie core
    if !missRoom s q ctx ps then .next (s.push [e])
    else
      let s := match q with
        | .core c => ps.foldl (fun s p => missPage c ctx p s) s
        | _ => s
      .next (startWalkers die (ps.foldl (missFor die ctx e) s))

/-- What an event needs: the translations of some addresses, and requests to some slices. -/
structure Plan where
  who : Requester
  core : Nat := 0
  ctx : Nat := 0
  vas : List Dword := []
  stops : List Stop := []
deriving DecidableEq, Repr

/-- An event with a plan would do something now. -/
def planReady (s : State) (e : Instr) (p : Plan) : Bool :=
  if !(unpinned s e p.ctx p.vas).isEmpty then
    missRoom s p.who p.ctx ((pagesWalked s e p.core p.ctx p.vas).take 64)
  else journeyReady s e p.who p.stops

/-- The event makes no further use of its translations. -/
def unpin (e : Instr) (s : State) : State := { s with pins := s.pins.filter (fun x => x.e ≠ e) }

/-- One access of an event under the translations that it has. -/
def translateFor (s : State) (e : Instr) (core ctx : Nat) (a : Agent) (store : Bool) (va : Dword) : Except TFault Phys :=
  translateHeld (s.heldFor e ctx) s core ctx a store va 0

/-- Every core TLB, die TLB and walk cache drops the entries of a range, its walks end, what waited for them asks again, and
the walkers take the next entries (R69, R71). -/
def endWalks (ctx base length : Nat) (s : State) : State :=
  let hit := fun (m : DieMiss) => m.ctx = ctx && shot ctx base length ctx (65536 * m.page) 16
  let woken := s.dies.flatMap (fun d => (d.2.misses.filter hit).flatMap (·.events))
  let s := purgeEvents (fun e => match e with
    | .tableWalkStep _ x va _ _ => x = ctx && shot ctx base length x va.toNat 16
    | _ => false) (dropTranslations ctx base length s)
  (List.range 4).foldl (fun s d => startWalkers d s) (s.push ((woken.dedup).filter (fun e => !s.agenda.contains e)))

/-! ## The walkers -/

/-- The slice that a walker reads an entry at: the one that the line's mappings or accesses give, and else the one that
policy 0 gives. The spec does not say which policy a table's page has (log entry 97). -/
def tableHome (s : State) (pa : Nat) : Nat :=
  ((lineHomes s (pa / 128)).head?).getD (homeSlice pa ((effPolicy pa 0).getD 0) false)

/-- A walk has read an entry (R62, R67): a table pointer goes into the die's walk cache and the walk goes on; a leaf or a
fault ends it. -/
def walkOn (core ctx : Nat) (va : Dword) (level : Nat) (r : Except TFault Dword) (s : State) : State :=
  let die := coreDie core
  let page := va.toNat / 65536
  let finish := fun (h : Walked) => startWalkers die (walkEnd die ctx { h with page := page } s)
  match r with
  | .error f => finish { code := f.code, aux := f.aux }
  | .ok e =>
    match decodePte level e with
    | .error f => finish { code := f.code, aux := f.aux }
    | .ok (.leaf t) => finish { tr := some t }
    | .ok (.table b) =>
      let entry := (ctx, level - 1, va.toNat / 2 ^ pageBits level, b)
      (s.modDie die (fun d =>
        let rest := d.walks.filter (fun w => !(w.1 = entry.1 && w.2.1 = entry.2.1 && w.2.2.1 = entry.2.2.1))
        { d with walks := (rest ++ [entry]).drop (rest.length + 1 - 1024) })).push
        [.tableWalkStep core ctx va (level - 1) b]

/-- Where the read of a walk's event goes: chosen once. -/
def walkStops (s : State) (e : Instr) (a : Nat) : List Stop :=
  match (s.tripsOf e).map (·.stop) with
  | [] => [⟨tableHome s a, a / 128, 1⟩]
  | xs => xs

/-- TABLE_WALK_STEP (R62, R67): one entry read at its home slice. -/
def execTableWalkStep (core ctx : Nat) (va : Dword) (level table : Nat) (s : State) : Out :=
  let a := table + 8 * vaIndex va level
  if isHole a then .next (walkOn core ctx va level (.error ⟨tHole, 0⟩) s)
  else
    let e : Instr := .tableWalkStep core ctx va level table
    journey e (.walker (coreDie core)) (walkStops s e a)
      (fun t s => atSliceWith { home := t.home, line := t.line, note := false } e s (fun _ => none) (fun s =>
        match readPte s table va level with
        | .error _ => .next (returned t (fun x => { x with bad := true }) s)
        | .ok v => .next (returned t (fun x => { x with data := v.setWidth 1024 }) { s with free := s.free + 1 })))
      (fun ts s => .next (walkOn core ctx va level
        (if ts.any (·.bad) then .error ⟨tMemory, 0⟩ else .ok ((tripData ts (a / 128)).setWidth 64)) s)) s

/-- A line comes into a core's constant cache of 512 lines in 8 ways (R146). The set is that of the virtual line's low
bits, and the oldest line of a full set leaves: R146 fixes neither (log entry 103). -/
def constInsert (core : Nat) (l : ConstLine) (s : State) : State :=
  s.modCore core (fun k =>
    let rest := k.const.filter (fun x => !(x.ctx = l.ctx && x.vline = l.vline))
    let set := rest.filter (fun x => x.vline % 64 = l.vline % 64)
    { k with const := (if set.length < 8 then rest else match set.head? with | some v => rest.erase v | none => rest) ++ [l] })

end Sys2Proof.Machine
end

