-- ==== Sys2Proof/Machine/VectorOps.lean ====
section
/-! DEFINITION. What the instructions of format V share: operand B with its constant window, the loop over lanes and
elements, and the arithmetic of R248 to R265. -/

namespace Sys2Proof.Machine

/-- A missing constant line: the split stalls for its page's translation, and then while the line is fetched (R146). -/
def missConst (c : Cx) (vline : Nat) (s : State) : Out :=
  let va := BitVec.ofNat 64 (128 * vline)
  withPages c [va] s (fun s =>
    let e : Instr := .constLineFetch c.ref vline
    .next ((pinPages e c.split.held c.core c.ctx (pagesOf [va]) (parkAt c .line (touchTlbs c.core c.ctx [va] s))).push [e]))

/-- Operand B of an instruction of format V is read (R33, R34, R46 step 6). -/
def withB (op : Nat) (f : VF) (c : Cx) (m : Mask) (s : State) (k : (Nat → Nat) → State → Out) : Out :=
  match vSpec op with
  | none => .fault .noSuchUnit
  | some sp =>
    match readB s c sp f with
    | .miss v => missConst c v s
    | .fault a => trapAt c 3 tConstant (BitVec.ofNat 64 a) m 0 s
    | .ok b => k b s

/-- An instruction of format V through its checks, with operand B read. -/
def vRun (i : Instr) (op : Nat) (f : VF) (s : State) (k : Cx → Mask → (Nat → Nat) → State → Out) : Out :=
  run i s (fun c m s => withB op f c m s (k c m))

/-- The destination takes results of dw words by lane (R41, R44). -/
def vPut (c : Cx) (f : VF) (m : Mask) (dw : Nat) (sgn : Bool) (r : Nat → Nat) (s : State) : State :=
  if dw = 2 then writeDst64 c f.d.toNat m (fun l => BitVec.ofNat 64 (r l)) s
  else writeDst32 c f.d.toNat m sgn (fun l => BitVec.ofNat 32 (r l)) s

/-- A per-lane instruction: its result from the bits of a, b and c (R44). sgn: the result type is s32 (R41). -/
def vMap (i : Instr) (op : Nat) (f : VF) (sgn : Bool) (s : State) (r : Cx → Nat → Nat → Nat → Nat) : Out :=
  vRun i op f s (fun c m b s =>
    let w := vWords op f
    .next (advance c (vPut c f m w.1 sgn
      (fun l => r c (readReg s c f.a.toNat w.2.1 l) (b l) (readReg s c f.c.toNat w.2.2 l)) s)))

/-- The integer of a value read as an integer. -/
def NV.int : NV → Int
  | .i x => x
  | .f _ => 0

/-- The value of a value read as floating point. -/
def NV.flt : NV → FV
  | .f v => v
  | .i _ => .nan

/-- One element of integer arithmetic: exact, then wrapped or clamped (R228, R246, R248). -/
def intElem (f : VF) (g : Nat → Int → Int → Int → Int) (t : NTy) (a b x : Nat) : Nat :=
  match t with
  | .int w sg =>
    putInt w sg f.sat (g w (modA f (.i (intOf w sg a))).int (modB f (.i (intOf w sg b))).int (intOf w sg x))
  | .flt _ => 0

/-- Element-wise integer arithmetic. -/
def vInt (i : Instr) (op : Nat) (f : VF) (s : State) (g : Nat → Int → Int → Int → Int) : Out :=
  vMap i op f (f.ty = 1) s (fun _ a b x => mapElems f.ty.toNat a b x (intElem f g))

/-- The state of the warp that arithmetic reads: rounding mode and FTZ (R232, R233). -/
def modeOf (c : Cx) (f : VF) : Nat := roundMode f.rm c.warp.rmode

/-- A floating-point element read with MOD and FTZ. MOD changes only the sign, so it may follow FTZ (R246). -/
def readMod (md : NV → NV) (fm : Fmt) (ftz : Bool) (x : Nat) : FV := (md (.f (fm.read ftz x))).flt

/-- One element of floating-point arithmetic on values (R246, R255). -/
def fltElem (c : Cx) (f : VF) (g : Fmt → Nat → Bool → FV → FV → FV → Nat) (t : NTy) (a b x : Nat) : Nat :=
  match t with
  | .flt fm =>
    g fm (modeOf c f) c.warp.ftz (readMod (modA f) fm c.warp.ftz a) (readMod (modB f) fm c.warp.ftz b)
      (fm.read c.warp.ftz x)
  | .int _ _ => 0

/-- Element-wise floating-point arithmetic on values. -/
def vFlt (i : Instr) (op : Nat) (f : VF) (s : State) (g : Fmt → Nat → Bool → FV → FV → FV → Nat) : Out :=
  vMap i op f false s (fun c a b x => mapElems f.ty.toNat a b x (fltElem c f g))

/-- An element after MOD, as bits: FMIN, FMAX, FCLASS and the approximate functions read bits (R246). -/
def modBits (fm : Fmt) (absBit negBit : Bool) (x : Nat) : Nat :=
  let top := 2 ^ (fm.width - 1)
  let x := if absBit then x % top else x
  if negBit then (if x < top then x + top else x - top) else x

/-- One element of an operation on floating-point bits after MOD. -/
def bitsElem (c : Cx) (f : VF) (g : Fmt → Bool → Nat → Nat → Nat) (t : NTy) (a b _x : Nat) : Nat :=
  match t with
  | .flt fm =>
    g fm c.warp.ftz (modBits fm (f.mod.getLsbD 1) (f.mod.getLsbD 0) a) (modBits fm (f.mod.getLsbD 3) (f.mod.getLsbD 2) b)
  | .int _ _ => 0

/-- Element-wise operations on floating-point bits after MOD. -/
def vBits (i : Instr) (op : Nat) (f : VF) (s : State) (g : Fmt → Bool → Nat → Nat → Nat) : Out :=
  vMap i op f false s (fun c a b _ => mapElems f.ty.toNat a b 0 (bitsElem c f g))

/-- Width of a 32- or 64-bit type. -/
def bitsOf (f : VF) : Nat := if is64 f.ty.toNat then 64 else 32

/-! ## Shifts, fields and counts (R252, R253) -/

def shaNat (n a k : Nat) : Nat := wrapInt n (intOf n true a / (2 ^ (min k n) : Nat))

def rotl (n a k : Nat) : Nat :=
  let k := k % n
  (a * 2 ^ k % 2 ^ n) + a / 2 ^ (n - k) % 2 ^ k

def bfe (n : Nat) (sg : Bool) (a b : Nat) : Nat :=
  let p := b % 256
  let q := min (b / 256 % 256) n
  if q = 0 then 0
  else
    let src : Nat := wrapInt (2 * 256) (intOf n sg a)
    let fld := src / 2 ^ p % 2 ^ q
    wrapInt n (intOf q sg fld)

def bfi (n a b x : Nat) : Nat :=
  let p := b % 256
  let q := if p < n then min (b / 256 % 256) (n - p) else 0
  if q = 0 then x else x - (x / 2 ^ p % 2 ^ q) * 2 ^ p + (a % 2 ^ q) * 2 ^ p

def popCount (a : Nat) : Nat → Nat
  | 0 => 0
  | n + 1 => a / 2 ^ n % 2 + popCount a n

def clzNat (n a : Nat) : Nat := if a = 0 then n else n - 1 - Nat.log2 a

def brevNat (n a : Nat) : Nat := (List.range n).foldl (fun r i => r + a / 2 ^ i % 2 * 2 ^ (n - 1 - i)) 0

/-! ## Division (R254) -/

def idivInt (w : Nat) (sg sat : Bool) (a b : Int) : Int :=
  if b = 0 then
    (if sg then
      (if sat then (if a < 0 then intMin w true else if a = 0 then 0 else intMax w true) else -1)
     else intMax w false)
  else Int.tdiv a b

def iremInt (a b : Int) : Int := if b = 0 then a else Int.tmod a b

/-! ## Across lanes (R265) -/

/-- The bits of the identity that WSCAN's exclusive form writes (R265). -/
def scanIdentity (fn ty : Nat) : Nat :=
  let w := if is64 ty then 64 else 32
  let sg := ty = 1 || ty = 5
  let fm := if ty = 7 then fmtF64 else fmtF32
  match fn with
  | 1 => wrapInt w (intMax w sg)
  | 2 => wrapInt w (intMin w sg)
  | 3 => 2 ^ w - 1
  | 6 => fm.signBit true
  | 7 => fm.infBits
  | 8 => fm.signBit true + fm.infBits
  | _ => 0

/-- The running value of WRED and WSCAN: integers exact, everything else as bits. -/
structure Scan where
  exact : Int
  bits : Nat
deriving DecidableEq, Repr

/-- A lane's value of A after MOD, as a number and as bits (R246). -/
def scanElem (f : VF) (a : Nat) : Scan :=
  let fm := if f.ty = 7 then fmtF64 else fmtF32
  ⟨(modA f (.i (intOf (bitsOf f) (f.ty = 1 || f.ty = 5) a))).int, modBits fm (f.mod.getLsbD 1) (f.mod.getLsbD 0) a⟩

/-- The first lane's value, read as an operand (R265). -/
def scanFirst (fn ty : Nat) (ftz : Bool) (a : Scan) : Scan :=
  let fm := if ty = 7 then fmtF64 else fmtF32
  let bits := match fn with
    | 6 => fm.encode 0 false ftz (fm.read ftz a.bits)
    | 7 | 8 => if (fm.decode a.bits).isNaN then fm.nan else a.bits
    | _ => a.bits
  ⟨a.exact, bits⟩

/-- Combine of R265. -/
def scanStep (fn ty mode : Nat) (ftz : Bool) (r a : Scan) : Scan :=
  let fm := if ty = 7 then fmtF64 else fmtF32
  match fn with
  | 0 => ⟨r.exact + a.exact, 0⟩
  | 1 => ⟨if a.exact < r.exact then a.exact else r.exact, 0⟩
  | 2 => ⟨if r.exact < a.exact then a.exact else r.exact, 0⟩
  | 3 => ⟨0, Nat.land r.bits a.bits⟩
  | 4 => ⟨0, Nat.lor r.bits a.bits⟩
  | 5 => ⟨0, Nat.xor r.bits a.bits⟩
  | 6 => ⟨0, fm.encode mode false ftz (FV.add mode (fm.read ftz r.bits) (fm.read ftz a.bits))⟩
  | 7 => ⟨0, fm.minMax false false r.bits a.bits⟩
  | _ => ⟨0, fm.minMax false true r.bits a.bits⟩

/-- The result bits of a running value. -/
def scanOut (fn ty : Nat) (sat : Bool) (r : Scan) : Nat :=
  let w := if is64 ty then 64 else 32
  if fn < 3 then putInt w (ty = 1 || ty = 5) sat r.exact else r.bits

/-- The running values after each participating lane (R265, R236). -/
def scanAll (fn ty mode : Nat) (ftz : Bool) : Option Scan → List (Nat × Scan) → List (Nat × Scan)
  | _, [] => []
  | none, (l, a) :: t =>
    let r := scanFirst fn ty ftz a
    (l, r) :: scanAll fn ty mode ftz (some r) t
  | some p, (l, a) :: t =>
    let r := scanStep fn ty mode ftz p a
    (l, r) :: scanAll fn ty mode ftz (some r) t

end Sys2Proof.Machine
end

