-- ==== Sys2Proof/Machine/Lanes.lean ====
section
/-! DEFINITION. Predicates and work across lanes: opcodes 0x50 to 0x56 (R261 to R266), with the events of the exchange
between paired warps. -/

namespace Sys2Proof.Machine

/-- SETP (R261). -/
def execSetp (f : VF) (s : State) : Out :=
  vRun (.setp f) 0x50 f s (fun c m b s =>
    let ty := f.ty.toNat
    let n := tyWords ty
    let t := (elems ty).2
    let z := c.warp.ftz
    let rel := f.fn.toNat % 8
    let res := fun l =>
      match modA f (t.readVal z (readReg s c f.a.toNat n l)), modB f (t.readVal z (b l)) with
      | .f x, .f y => relFlt rel (f.fn.getLsbD 3) x y
      | .i x, .i y => relInt rel x y
      | _, _ => false
    .next (advance c (writePred c.wref f.d.toNat m (lanesWhere m res) s)))

/-- PLOP (R262). -/
def execPlop (f : VF) (s : State) : Out :=
  run (.plop f) s (fun c m s =>
    let a := c.warp.pred f.a.toNat
    let b := c.warp.pred f.b.toNat
    let x := c.warp.pred f.c.toNat
    let res := fun l => lutBit (lutOf f) (a.getLsbD l) (b.getLsbD l) (x.getLsbD l)
    .next (advance c (writePred c.wref f.d.toNat m (lanesWhere m res) s)))

/-- VOTE (R263). -/
def execVote (f : VF) (s : State) : Out :=
  run (.vote f) s (fun c m s =>
    let p := c.warp.pred f.a.toNat &&& m
    let n := maskCount p
    let flag := fun (b : Bool) => writePred c.wref f.d.toNat m (if b then m else 0) s
    let s := match f.fn.toNat with
      | 0 => flag (p = m)
      | 1 => flag (p ≠ 0)
      | 2 => flag (p = m || p = 0)
      | 3 => writeDst64 c f.d.toNat m (fun _ => p) s
      | _ => writeDst32 c f.d.toNat m false (fun _ => BitVec.ofNat 32 n) s
    .next (advance c s))

/-- The source lane of SHFL, exact (R264). -/
def shflSrc (mode lanes l b : Nat) : Int :=
  let off := intOf 8 true b
  match mode with
  | 0 => (b : Int)
  | 1 => (l : Int) + off
  | 2 => (Nat.xor l b : Nat)
  | _ => ((l : Int) + off) % (lanes : Int)

/-- SHFL (R264): every source is read before any lane is written. -/
def execShfl (f : VF) (s : State) : Out :=
  vRun (.shfl f) 0x53 f s (fun c m b s =>
    let n := tyWords f.ty.toNat
    let src := fun l => shflSrc f.fn.toNat c.lanes l (b l)
    let ok := fun l => 0 ≤ src l && src l < c.lanes && m.getLsbD (src l).toNat
    let s' := vPut c f m n false
      (fun l => readReg s c f.a.toNat n (if ok l then (src l).toNat else l)) s
    .next (advance c (writePred c.wref f.c.toNat m (lanesWhere m ok) s')))

/-- The running values of WRED and WSCAN over the participating lanes (R265). -/
def scanLanes (c : Cx) (f : VF) (m : Mask) (s : State) : List (Nat × Scan) :=
  let n := tyWords f.ty.toNat
  scanAll (f.fn.toNat % 16) f.ty.toNat (modeOf c f) c.warp.ftz none
    ((lanesOf m).map (fun l => (l, scanElem f (readReg s c f.a.toNat n l))))

/-- WRED (R265). -/
def execWred (f : VF) (s : State) : Out :=
  run (.wred f) s (fun c m s =>
    match (scanLanes c f m s).getLast? with
    | none => .next (advance c s)
    | some r =>
      let v := scanOut (f.fn.toNat % 16) f.ty.toNat f.sat r.2
      .next (advance c (vPut c f m (tyWords f.ty.toNat) (f.ty = 1) (fun _ => v) s)))

/-- The value before each lane's own, for the exclusive form (R265). -/
def shiftScan (first : Nat) : List (Nat × Nat) → List (Nat × Nat)
  | [] => []
  | (l, v) :: t => (l, first) :: shiftScan v t

/-- WSCAN (R265). -/
def execWscan (f : VF) (s : State) : Out :=
  run (.wscan f) s (fun c m s =>
    let fn := f.fn.toNat % 16
    let rs := (scanLanes c f m s).map (fun r => (r.1, scanOut fn f.ty.toNat f.sat r.2))
    let rs := if f.fn.getLsbD 5 then shiftScan (scanIdentity fn f.ty.toNat) rs else rs
    .next (advance c (vPut c f m (tyWords f.ty.toNat) (f.ty = 1) (fun l => Tab.get 0 rs l) s)))

/-! ## XSHFL (R266)

An exchange is an operation of the posting warp. In each of its lanes, b is the posted value, c the lane's exchange
count, and va 2 once it is answered. Postings and notices of exits travel to the reflector slice of the pair in the order
in which their core issued them, and those that stand there are in its exchange buffer (R19, R78). -/

def Acc.answered (a : Acc) : Bool := a.va = 2

def Op.setLane (o : Op) (l : Nat) (f : Acc → Acc) : Op :=
  { o with lanes := o.lanes.map (fun a => if a.lane = l then f a else a) }

def Op.lane? (o : Op) (l : Nat) : Option Acc := o.lanes.find? (fun a => a.lane = l)

/-- An exchange of a warp is still open. -/
def openXshfl (s : State) (w : WarpRef) : Option (Nat × Op) :=
  List.find? (fun (o : Nat × Op) => o.2.kind = .xshfl && o.2.ref.team = w.team && o.2.ref.warp = w.warp) s.ops

def partner (w : WarpRef) : WarpRef := ⟨w.team, Nat.xor w.warp 1⟩

def execXshfl (f : VF) (s : State) : Out :=
  run (.xshfl f) s (fun c m s =>
    if (openXshfl s c.wref).isSome then .next (stall c s)
    else
      let n := tyWords f.ty.toNat
      let s := s.modWarp c.wref (fun w =>
        { w with xchg := (lanesOf m).foldl (fun t l => t.set l (t.get 0 l + 1)) w.xchg })
      let w := (s.warp? c.wref).getD c.warp
      let lanes := (lanesOf m).map (fun l =>
        { lane := l, b := BitVec.ofNat 64 (readReg s c f.a.toNat n l), c := BitVec.ofNat 64 (w.xchg.get 0 l) : Acc })
      let o : Op := { kind := .xshfl, instr := .xshfl f, ty := f.ty.toNat, lanes := lanes,
                      dests := (regsOf f.d.toNat n).map c.preg }
      let p := startOp c o [] s
      .next (advance c (p.2.push (lanes.map (fun a => .xshflPosting p.1 a.lane)))))

/-- An event has yet to reach the slice that its request goes to. -/
def underWay (s : State) (e : Instr) : Bool :=
  (s.agenda.contains e && (s.tripsOf e).isEmpty) || (s.tripsOf e).any (fun t => t.stage = .going)

/-- The reflector slice knows that the partner's lane has exited: neither the notice of its exit nor a posting that it made
before is still under way (R19, R266). -/
def partnerGone (s : State) (w : WarpRef) (l : Nat) : Bool :=
  match s.warp? (partner w) with
  | none => true
  | some p => !p.live.getLsbD l && !underWay s (.laneExitNotice (partner w) l)
      && !(openXshfl s (partner w)).any (fun o => underWay s (.xshflPosting o.1 l))

/-- The reflector slice of a warp's core. -/
def reflectorOf (s : State) (w : WarpRef) : Nat := reflector (s.warpCore w)

/-- The posting of a warp's lane in the exchange buffer of a slice. -/
def postingOf (s : State) (home : Nat) (w : WarpRef) (l : Nat) : Option Posting :=
  (s.slice home).exch.find? (fun p => p.warp = w && p.lane = l)

/-- The delivery of a lane is on its way; the posting's entry is free. -/
def answerLane (home op l : Nat) (v : Dword) (s : State) : State :=
  ((s.modOp op (fun o => o.setLane l (fun a => { a with va := 2 }))).modSlice home (fun sl =>
    { sl with exch := sl.exch.filter (fun p => !(p.op = op && p.lane = l)) })).push [.xshflDelivery op l v]

/-- A request that concerns the exchange buffer of a core's reflector slice: it takes its path and a permit as every request
does (R19, R81), and arrive is what it does there. -/
def reflectTrip (e : Instr) (core : Nat) (arrive : Nat → State → State) (s : State) : Out :=
  let home := reflector core
  journey e (.core core) [⟨home, partnerLine, 1⟩] (fun t s => .next (returned t (fun x => x) (arrive home s)))
    (fun _ s => .next s) s

/-- A posting that has come to the reflector slice is matched with the partner's posting of an equal count, answered with
its own value where the partner's lane has exited, or held (R266). -/
def post (op l : Nat) (w : WarpRef) (a : Acc) (home : Nat) (s : State) : State :=
  match (postingOf s home (partner w) l).filter (fun b => b.count = a.c) with
  | some b => answerLane home op l b.val (answerLane home b.op l a.b s)
  | none =>
    if partnerGone s w l then answerLane home op l a.b s
    else s.modSlice home (fun sl => { sl with exch := sl.exch ++ [⟨op, w, l, a.c, a.b⟩] })

/-- XSHFL_POSTING. What a posting does that finds the 8 KiB of R78 full is not said: the model refuses none (log entry 115). -/
def execXshflPosting (op l : Nat) (s : State) : Out :=
  withTripOp op (.xshflPosting op l) s (fun o s =>
    match o.lane? l with
    | none => .fault .noSuchUnit
    | some a => reflectTrip (.xshflPosting op l) o.core (post op l (warpOf o.ref) a) s)

/-- A delivery of exchange data reaches the core; the last one fills the destination (R266, R207). -/
def execXshflDelivery (op l : Nat) (v : Dword) (s : State) : Out :=
  withOp op s (fun o s =>
    let o' := { o with
      data := (o.data.set (8 * l) (v.setWidth 32 |>.setWidth 64)).set (8 * l + 1) (v >>> 32)
      prog := o.prog + 1 }
    let s := s.modOp op (fun _ => o')
    .next (if o'.prog = o'.lanes.length then finishOp op s else s))

/-- LANE_EXIT_NOTICE: the reflector slice learns that a lane of a warp has exited, and the partner's unmatched posting of
that lane is answered with its own value (R266). -/
def execLaneExitNotice (w : WarpRef) (l : Nat) (s : State) : Out :=
  reflectTrip (.laneExitNotice w l) (s.warpCore w) (fun home s =>
    match postingOf s home (partner w) l with
    | none => s
    | some p => answerLane home p.op l p.val s) s

end Sys2Proof.Machine
end

