-- ==== Sys2Proof/Machine/Memory.lean ====
section
/-! DEFINITION. Lane loads and stores, atomics and reductions: opcodes 0x60 to 0x67 (R142 to R144, R151 to R161, R181 to
R197), where their requests go by R119, and the replies that end them. -/

namespace Sys2Proof.Machine

/-! ## Scratchpad accesses (R142 to R144) -/

/-- Every executing lane's offset checked: alignment, then bounds; SP = 2 needs a paired team (R143, R152). -/
def checkScratch (c : Cx) (sp size : Nat) (ls : List (Nat × Dword)) : Option LaneFault :=
  let lim := c.launch.desc.scratch
  let code := fun (a : Dword) =>
    if a.toNat % size ≠ 0 then tMisaligned
    else if (sp = 2 && !c.launch.desc.paired) || lim < a.toNat + size then tBounds else 0
  let bad := ls.filter (fun e => code e.2 ≠ 0)
  match bad with
  | [] => none
  | e :: _ => some ⟨code e.2, e.2, (bad.map (fun x => laneBit x.1)).foldl (· ||| ·) 0, 0⟩

/-- The area of the team that an access reaches: its own core's, or the partner core's. -/
def scratchArea (c : Cx) (sp : Nat) : Nat := if sp = 2 then 1 - c.area else c.area

def readScratch (s : State) (t a off n : Nat) : Nat :=
  match s.team? t with
  | none => 0
  | some tm => leNat ((tm.areas.get {} a).scratch.read off n)

/-- A team's area changed. -/
def modArea (t a : Nat) (f : Area → Area) (s : State) : State :=
  s.modTeam t (fun tm => { tm with areas := Tab.modify ({} : Area) tm.areas a f })

def writeScratch (t a off : Nat) (bs : List Byte) (s : State) : State :=
  modArea t a (fun ar => { ar with scratch := ar.scratch.write off bs }) s

/-- A load's value in the places of its destination (R36, R41, R156). -/
def putResult (o : Op) (lane : Nat) (v : Nat) : Op :=
  match o.dests with
  | [.s _] =>
    let x := if tyWords o.ty = 2 then BitVec.ofNat 64 v else sOf32 (o.ty = 1) (BitVec.ofNat 32 (extendTo o.ty v))
    { o with data := o.data.set 0 x }
  | ds =>
    let v := extendTo o.ty v
    let data := (List.range ds.length).foldl
      (fun t i => t.set (8 * lane + i) (BitVec.ofNat 64 (v / 2 ^ (32 * i) % 2 ^ 32))) o.data
    { o with data := data }
where
  tyWords (ty : Nat) : Nat := if 4 ≤ ty && ty ≤ 7 then 2 else 1

/-- A scratchpad access of an operation, in its lanes' order (R120, R154): offsets stand in va. -/
def scratchAccess (id a : Nat) (o : Op) (s : State) : State :=
  if o.kind = .load then
    s.modOp id (fun o => o.lanes.foldl (fun o x => putResult o x.lane (readScratch s o.ref.team a x.va.toNat o.size)) o)
  else
    o.lanes.foldl (fun s x =>
      writeScratch o.ref.team a x.va.toNat (leBytes o.size (x.b.toNat + 2 ^ 64 * x.b2.toNat)) s) s

/-- The part of an access to a scratchpad: performed at the core by SP = 1, through the reflector slice of the core's pair
by SP = 2 (R78, R143). -/
def scratchPart (sp core : Nat) : Part :=
  { line := if sp = 2 then partnerLine else scratchLine, home := reflector core, l1 := sp ≠ 2 }

/-- A scratchpad access starts. It is performed by an event of its own, for unrelated accesses take effect in any order
(R23, R117); each lane's key is the part's, so that R118 orders it. -/
def scratchOp (c : Cx) (sp : Nat) (o : Op) (cls : List Nat) (s : State) : Out :=
  let p := scratchPart sp c.core
  launchOp c { o with
    prog := scratchArea c sp, parts := [p], lanes := o.lanes.map (fun a => { a with pa := 128 * p.line }) } cls s

/-- PARTNER_SCRATCHPAD_ACCESS (R78, R142, R144): a request that comes to the reflector slice enters its exchange buffer, and
crosses to the partner core in the order in which it came. -/
def execPartnerScratchpadAccess (id : Nat) (s : State) : Out :=
  request ⟨id, 0⟩ (.partnerScratchpadAccess id) s (fun o p s =>
    if (s.slice p.home).crossing.contains id then
      .next (partDone id 0 (fun p => p) ((scratchAccess id o.prog o s).modSlice p.home (fun sl =>
        { sl with crossing := sl.crossing.filter (· ≠ id) })))
    else
      .next ((s.modSlice p.home (fun sl => { sl with crossing := sl.crossing ++ [id] })).push [.partnerScratchpadAccess id]))

/-! ## Loads (R119) -/

/-- A part's line lies on a ROSH page. -/
def roshLine (rs : List (Nat × Dword × Phys)) (p : Part) : Bool :=
  rs.any (fun r => r.2.2.pa / 128 = p.line && r.2.2.tr.node = p.rem && r.2.2.tr.rosh)

/-- The accesses of translated lanes. -/
def accOf (r : Nat × Dword × Phys) : Acc := { lane := r.1, va := r.2.1, pa := r.2.2.pa, rem := r.2.2.tr.node }

/-- Whether an access to a line begins in its core's L1: at CORE scope the load, store, DISCARD or PREF of a local line,
any load on a ROSH page (R119), and a RED that is gathered (R186). -/
def startsInL1 (core : Nat) (o : Op) (rs : List (Nat × Dword × Phys)) (p : Part) : Bool :=
  match o.kind with
  | .load => (o.scope = 0 && p.rem.isNone) || roshLine rs p
  | .store | .discard => o.scope = 0 && p.rem.isNone
  | .pref => o.scope = 0
  | .red => o.order = 0 && p.rem.isNone && sliceDie p.home = coreDie core && !roshLine rs p
  | _ => false

/-- The parts of a lane operation, one a line. -/
def lineParts (core : Nat) (o : Op) (rs : List (Nat × Dword × Phys)) : List Part :=
  (partsOf rs).map (fun p => { p with l1 := startsInL1 core o rs p })

/-- Lanes that reach one line through two home slices (R59). -/
def noteHomes (rs : List (Nat × Dword × Phys)) (s : State) : State :=
  rs.foldl (fun s r => if r.2.2.tr.node.isSome then s else noteHome r.2.2.home (r.2.2.pa / 128) s) s

/-- A lane operation starts: its translations are used, its parts go to the L1 or the slices. -/
def launchLanes (c : Cx) (o : Op) (cls : List Nat) (rs : List (Nat × Dword × Phys)) (s : State) : Out :=
  launchOp c { o with parts := lineParts c.core o rs } cls (noteHomes rs (touchTlbs c.core c.ctx (rs.map (·.2.1)) s))

/-- The operation's requests leave; one with nothing left to be performed is answered. -/
def sendOrReply (id : Nat) (s : State) : State :=
  match s.ops.find? id with
  | none => s
  | some o => if o.pendingParts then sendParts id s else s.push [.replyArrival ⟨id, 0⟩]

/-- LD and LDU from global memory (R156, R159). -/
def loadGlobal (c : Cx) (o : Op) (ls : List (Nat × Dword)) (s : State) : Out :=
  withPages c (ls.map (·.2)) s (fun s =>
    match checkLanes s c .load o.size ls with
    | .error e => trapAt c 3 e.code e.addr (faultLanes o e.mask) e.aux s
    | .ok rs =>
      launchLanes c { o with lanes := rs.map accOf } [clsLL] rs s)

/-- The lanes that make accesses: the lowest alone where one access serves them all (R151, R159). -/
def accessLanes (m : Mask) (one : Bool) : List Nat := if one then (lowLane m).toList else lanesOf m

/-- LD (once = false) and LDU. -/
def loadOp (i : Instr) (f : MF) (u : Bool) (s : State) : Out :=
  run i s (fun c m s =>
    let one := u || !isVector f.a.toNat
    let ls := (accessLanes m one).map (fun l => (l, laneAddr s c f l))
    let o : Op :=
      { kind := .load, instr := i, pk := f.pk.toNat, produces := true, scope := f.sc.toNat, order := f.ord.toNat,
        ty := f.ty.toNat, size := tySize f.ty.toNat, hint := f.ch.toNat,
        dests := (regsOf f.d.toNat (accWords f.ty.toNat)).map c.preg, bcast := if one then m else 0 }
    if f.sp = 0 then loadGlobal c o ls s
    else match checkScratch c f.sp.toNat o.size ls with
      | some e => trapAt c 3 e.code e.addr (faultLanes o e.mask) 0 s
      | none => scratchOp c f.sp.toNat { o with lanes := ls.map (fun x => { lane := x.1, va := x.2 }) } [clsLL] s)

def execLd (f : MF) (s : State) : Out := loadOp (.ld f) f false s
def execLdu (f : MF) (s : State) : Out := loadOp (.ldu f) f true s

/-! ## Stores -/

/-- The value a lane stores: up to 16 bytes of consecutive registers, or an s register (R36, R157). -/
def storeVal (s : State) (c : Cx) (b n l : Nat) : Dword × Dword :=
  if n = 4 then (readD s c b l, readD s c (b + 2) l)
  else if n = 2 then (readD s c b l, 0)
  else ((readW s c b l).setWidth 64, 0)

/-- A store to global memory, its addresses translated (R157, R158, R161): at CORE scope a local line is written in the
L1, any other one at its home slice (R119). -/
def storeGlobal (c : Cx) (o : Op) (align : Nat) (ls : List (Nat × Dword × Dword × Dword)) (s : State) : Out :=
  withPages c (ls.map (·.2.1)) s (fun s =>
    match checkLanes s c .store align (ls.map (fun x => (x.1, x.2.1))) with
    | .error e => trapAt c 3 e.code e.addr (faultLanes o e.mask) e.aux s
    | .ok rs =>
      let lanes := (ls.zip rs).map (fun x => { accOf x.2 with b := x.1.2.2.1, b2 := x.1.2.2.2 })
      launchLanes c { o with lanes := lanes } [clsLS] rs s)

/-- ST and ST.T. -/
def storeOp (i : Instr) (f : MF) (t : Bool) (s : State) : Out :=
  run i s (fun c m s =>
    let n := accWords f.ty.toNat
    let one := !isVector f.a.toNat && !isVector f.b.toNat
    let ls := (accessLanes m one).map (fun l => (l, laneAddr s c f l, storeVal s c f.b.toNat n l))
    let o : Op :=
      { kind := if t then .storeT else .store, instr := i, pk := f.pk.toNat, produces := true, scope := f.sc.toNat,
        order := f.ord.toNat, ty := f.ty.toNat, size := tySize f.ty.toNat, hint := f.ch.toNat,
        dests := if t then [c.preg f.d.toNat] else [], bcast := if one then m else 0 }
    if f.sp = 0 then storeGlobal c o o.size ls s
    else match checkScratch c f.sp.toNat o.size (ls.map (fun x => (x.1, x.2.1))) with
      | some e => trapAt c 3 e.code e.addr (faultLanes o e.mask) 0 s
      | none =>
        scratchOp c f.sp.toNat
          { o with lanes := ls.map (fun x => { lane := x.1, va := x.2.1, b := x.2.2.1, b2 := x.2.2.2 }) } [clsLS] s)

def execSt (f : MF) (s : State) : Out := storeOp (.st f) f false s
def execStT (f : MF) (s : State) : Out := storeOp (.stT f) f true s

/-- DISCARD (R161): each byte of the line holds a contained result until it is next written. -/
def execDiscard (f : MF) (s : State) : Out :=
  run (.discard f) s (fun c m s =>
    let one := !isVector f.a.toNat
    let ls := (accessLanes m one).map (fun l => (l, laneAddr s c f l, (0 : Dword), (0 : Dword)))
    let fr := s.freshSeed
    storeGlobal c
      { kind := .discard, instr := .discard f, pk := f.pk.toNat, produces := true, scope := f.sc.toNat,
        order := f.ord.toNat, hint := f.ch.toNat, val := BitVec.ofNat 64 fr.1, bcast := if one then m else 0 } 1 ls fr.2)

/-- PREF (R160): a lane whose address is not aligned to 4 bytes (R152), or does not translate with R on a local page that is
no arena page, is dropped. At CORE scope a line goes into the L1, at a wider one only the home slice fills it. -/
def execPref (f : MF) (s : State) : Out :=
  run (.pref f) s (fun c m s =>
    let ls := ((lanesOf m).map (fun l => (l, laneAddr s c f l))).filter (fun e => e.2.toNat % 4 = 0)
    withPages c (ls.map (·.2)) s (fun s =>
      let pages := pagesOf (ls.map (·.2))
      let rs := ls.filterMap (fun e =>
        match translateHeld c.split.held s c.core c.ctx .load false e.2 (pages.idxOf (e.2.toNat / 65536)) with
        | .ok p => if p.tr.node.isNone then some (e.1, e.2, p) else none
        | .error _ => none)
      let o : Op := { kind := .pref, instr := .pref f, pk := f.pk.toNat, produces := true, scope := f.sc.toNat,
                      hint := f.ch.toNat }
      let q := startOp c { o with parts := lineParts c.core o rs } [clsLL] (noteHomes rs <| touchTlbs c.core c.ctx (ls.map (·.2)) s)
      -- it produces and completes at issue (R95)
      let s := completeAt q.1 allScopes 0 q.2
      let s := s.modOp q.1 (fun o => { o with produces := false })
      .next (advance c (sendOrReply q.1 s))))

/-! ## Atomics and reductions -/

/-- The operands of ATOM, ATOMC and RED; all scalar, it executes once (R29, R44). -/
def atomLanesOf (s : State) (c : Cx) (f : MF) (m : Mask) (addr : Nat → Dword) (cReg : Option Nat) :
    Bool × List (Nat × Dword × Dword × Dword) :=
  let n := accWords f.ty.toNat
  let one := !isVector f.a.toNat && !isVector f.b.toNat && !(cReg.any isVector)
  (one, (accessLanes m one).map (fun l =>
    (l, addr l, (storeVal s c f.b.toNat n l).1, (cReg.map (fun r => (storeVal s c r n l).1)).getD 0)))

/-- ATOM and ATOMC (R196). -/
def atomOp (i : Instr) (f : MF) (cas tagForm : Bool) (s : State) : Out :=
  run i s (fun c m s =>
    let n := accWords f.ty.toNat
    let cReg := if cas then some (atomcC f) else none
    let x := atomLanesOf s c f m (fun l => if cas then laneBase s c f l else laneAddr s c f l) cReg
    let size := tySize f.ty.toNat
    withPages c (x.2.map (·.2.1)) s (fun s =>
      match checkLanes s c .atomic size (x.2.map (fun e => (e.1, e.2.1))) with
      | .error e => trapAt c 3 e.code e.addr (if x.1 then m else e.mask) e.aux s
      | .ok rs =>
        let lanes := (x.2.zip rs).map (fun e => { accOf e.2 with b := e.1.2.2.1, c := e.1.2.2.2 })
        launchLanes c
          { kind := if cas then .atomc else .atomic, instr := i, pk := f.pk.toNat, produces := true,
            scope := f.sc.toNat, order := f.ord.toNat, fn := f.fn.toNat, ty := f.ty.toNat, size := size,
            lanes := lanes, bcast := if x.1 then m else 0,
            dests := (regsOf f.d.toNat (if tagForm then 2 * n else n)).map c.preg } [clsAT] rs s))

def execAtom (f : MF) (s : State) : Out := atomOp (.atom f) f false false s
def execAtomT (f : MF) (s : State) : Out := atomOp (.atomT f) f false true s
def execAtomc (f : MF) (s : State) : Out := atomOp (.atomc f) f true false s
def execAtomcT (f : MF) (s : State) : Out := atomOp (.atomcT f) f true true s

/-- RED (R197). -/
def execRed (f : MF) (s : State) : Out :=
  run (.red f) s (fun c m s =>
    let x := atomLanesOf s c f m (fun l => laneAddr s c f l) none
    let size := tySize f.ty.toNat
    withPages c (x.2.map (·.2.1)) s (fun s =>
      match checkLanes s c .atomic size (x.2.map (fun e => (e.1, e.2.1))) with
      | .error e => trapAt c 3 e.code e.addr (if x.1 then m else e.mask) e.aux s
      | .ok rs =>
        let lanes := (x.2.zip rs).map (fun e => { accOf e.2 with b := e.1.2.2.1 })
        launchLanes c
          { kind := .red, instr := .red f, pk := f.pk.toNat, produces := true, scope := f.sc.toNat,
            order := f.ord.toNat, fn := f.fn.toNat, ty := f.ty.toNat, size := size, lanes := lanes,
            bcast := if x.1 then m else 0 } [clsAT] rs s))

/-! ## The access in the L1 (R119, R186, R187) -/

/-- Part of an operation changed, and the event by which it goes on raised. -/
def goOn (r : Req) (f : Part → Part) (s : State) : State :=
  let s := s.modPart r.op r.part f
  match s.reqPart r with
  | some (o, p) => s.push [partEvent o r.op r.part p]
  | none => s

/-- The line is asked for: it will be filled into the L1. -/
def missLine (r : Req) (s : State) : State := goOn r (fun p => { p with l1 := false, fill := true }) s

/-- A load: a hit returns the copy, whose scope is still to be checked if the load is an acquire (R125); an update-only
copy goes back first; a miss fills the line. -/
def l1Load (r : Req) (o : Op) (p : Part) (s : State) : State :=
  match (s.core o.core).l1Find p.key with
  | none => missLine r s
  | some l =>
    if l.state = .uo then missLine r (sendBack o.core p.key s)
    else
      let d := lineView p l.data (s.modCore o.core (fun c => c.l1Touch p.key o.hint))
      if o.order = 0 then d.2.modPart r.op r.part (fun p => { p with l1 := false, ldata := d.1, done := true, back := true })
      else goOn r (fun p => { p with l1 := false, ldata := d.1, done := true, check := true }) d.2

/-- A store has been written into the L1, where it waits for its line's write-back (R95). -/
def written (p : Part) : Part :=
  { p with l1 := false, fill := false, check := false, gather := false, done := true, back := true, wb := true }

/-- A store's bytes go into the copy that the L1 holds. -/
def storeCopy (r : Req) (o : Op) (p : Part) (s : State) : State :=
  let d := storeData o p.key
  let s := s.modCore o.core (fun c => c.l1Touch p.key o.hint)
  (l1Write o.core p.key d.1 d.2 o.pk r.op s).modPart r.op r.part written

/-- A copy of a line as an operation brings it into the L1. -/
def newCopy (o : Op) (p : Part) : L1Line :=
  { state := .cln, line := p.key, home := p.home, ctx := o.ctx, data := p.ldata }

/-- A CORE-scope store or DISCARD (R119, R161): a release has its scope checked first (R125); a line that is not there is
filled first, but for DISCARD. -/
def l1Store (r : Req) (o : Op) (p : Part) (s : State) : State :=
  if o.order ≠ 0 && !p.passed then goOn r (fun p => { p with l1 := false, check := true }) s
  else
    let uo := ((s.core o.core).l1Find p.key).any (fun l => l.state = .uo)
    let s := if uo then sendBack o.core p.key s else s
    if ((s.core o.core).l1Find p.key).isSome then storeCopy r o p s
    else if o.kind = .discard then storeCopy r o p (l1Alloc o.core (newCopy o p) o.hint s)
    else missLine r s

/-- A RED merges into a copy held for it; any other copy leaves, and the line is obtained (R187). Where the line that was
obtained for it has been returned before it could gather, it is applied at the home slice (R191). -/
def l1Red (r : Req) (o : Op) (p : Part) (s : State) : State :=
  let fits := ((s.core o.core).l1Find p.key).any (fun l =>
    l.state = .uo && l.fn = o.fn && l.ty = o.ty && l.rsv = some (o.scope, instOf o.scope o.core))
  if fits then (mergeRed r.op o p.key s).modPart r.op r.part written
  else if p.passed then
    goOn r (fun p => { p with l1 := false, gather := false, passed := false }) (returnLine o.core p.key s)
  else goOn r (fun p => { p with l1 := false, gather := true }) (returnLine o.core p.key s)

/-- PREF at CORE scope (R160): an access that touches a line that the L1 holds (R141); an update-only line stays as it is
(R187). -/
def l1Pref (r : Req) (o : Op) (p : Part) (s : State) : State :=
  match (s.core o.core).l1Find p.key with
  | some l =>
    (if l.state = .uo then s else s.modCore o.core (fun c => c.l1Touch p.key o.hint)).modPart r.op r.part
      (fun p => { p with l1 := false, done := true, back := true })
  | none => missLine r s

/-- An access to the core's own scratchpad is performed (R144). -/
def ownScratch (r : Req) (o : Op) (s : State) : State :=
  (scratchAccess r.op o.prog o s).modPart r.op r.part (fun p => { p with l1 := false, done := true, back := true })

/-- An access is performed at its core, in the L1 or the scratchpad, or goes on to the line's home slice. -/
def l1Step (r : Req) (o : Op) (p : Part) (s : State) : State :=
  if p.isScratch then ownScratch r o s
  else
  let s := if p.rem.isNone then noteHome p.home p.line s else s
  match o.kind with
  | .store | .storeT | .discard => l1Store r o p s
  | .red => l1Red r o p s
  | .pref => l1Pref r o p s
  | _ => l1Load r o p s

/-! ## The answers to requests (R119, R187) -/

/-- A line that a fill brought goes into the L1, unless the L1 holds it by now. -/
def fillCopy (o : Op) (p : Part) (s : State) : State :=
  if ((s.core o.core).l1Find p.key).isSome then s else l1Alloc o.core (newCopy o p) o.hint s

/-- The answer to one part of an operation reaches the core: a filled line goes into the L1 and a store into it; a store
whose scope has been checked goes on in the L1, and so does a RED whose update-only line has been granted; a release at a wider
scope, not refused, updates the core's copy (R126). -/
def takeAnswer (r : Req) (o : Op) (p : Part) (s : State) : State :=
  match o.kind with
  | .store | .storeT | .discard =>
    if p.fill then storeCopy r o p (fillCopy o p s)
    else if p.check then goOn r (fun p => { p with check := false, sent := false, l1 := true }) s
    else
      let s := if o.order = 0 then s else storeThrough o p s
      s.modPart r.op r.part (fun p => { p with back := true })
  | .red =>
    if p.gather then
      let l : L1Line :=
        { state := .uo, line := p.key, home := p.home, fn := o.fn, ty := o.ty, scope := o.scope
          rsv := some (o.scope, instOf o.scope o.core) }
      goOn r (fun p => { p with sent := false, l1 := true }) (l1Alloc o.core l 0 s)
    else s.modPart r.op r.part (fun p => { p with back := true })
  | .load | .pref =>
    (if p.fill then fillCopy o p s else s).modPart r.op r.part (fun p => { p with fill := false, back := true })
  | _ => s.modPart r.op r.part (fun p => { p with back := true })

/-! ## Replies (R153, R95) -/

/-- The bytes of a lane in the line its part brought. -/
def laneBytes (o : Op) (a : Acc) : Nat :=
  match o.parts.find? (fun p => p.key = a.key) with
  | none => 0
  | some p => p.ldata.toNat / 2 ^ (8 * (a.pa % 128)) % 2 ^ (8 * o.size)

/-- The tag of a lane's line. -/
def laneTag (o : Op) (a : Acc) : Dword :=
  ((o.parts.find? (fun p => p.key = a.key)).map (fun p => p.tag.setWidth 64)).getD 0

/-- The results of an operation in the places of its destinations, by its kind. -/
def assemble (o : Op) : Op :=
  match o.kind with
  | .load => if o.parts.any Part.isScratch then o else o.lanes.foldl (fun o a => putResult o a.lane (laneBytes o a)) o
  | .storeT => { o with data := o.lanes.foldl (fun t a =>
      t.set (match o.dests with | [.s _] => 0 | _ => 8 * a.lane) (laneTag o a)) o.data }
  | .atomic | .atomc =>
    match o.dests with
    | [.s _] =>
      match o.lanes with
      | a :: _ =>
        let v := o.data.get 0 (8 * a.lane)
        { o with data := o.data.set 0 (if is64 o.ty then v else sOf32 (o.ty = 1) (v.setWidth 32)) }
      | [] => o
    | _ =>
      let n := if is64 o.ty then 2 else 1
      { o with data := o.lanes.foldl (fun t a =>
          let v := t.get 0 (8 * a.lane)
          let t := t.set (8 * a.lane) (v.setWidth 32 |>.setWidth 64)
          let t := if n = 2 then t.set (8 * a.lane + 1) (v >>> 32) else t
          if 32 ≤ o.fn then (t.set (8 * a.lane + n) (laneTag o a)).set (8 * a.lane + 3)
              (if n = 2 then 0 else t.get 0 (8 * a.lane + 3)) else t) o.data }
  | _ => o

end Sys2Proof.Machine
end

