-- ==== Sys2Proof/Machine/Copies.lean ====
section
/-! DEFINITION. The copy engines: opcodes 0x78 to 0x7C and the engines' own steps (R163 to R179). -/

namespace Sys2Proof.Machine

/-! ## Descriptors (R169 to R172) -/

/-- A copy as its descriptor states it; node is the remote side of a CPYR, dir true when the destination is remote. -/
structure CopyShape where
  fill : Option Dword := none
  srck : Nat := 0
  dstk : Nat := 0
  src : Nat := 0
  dst : Nat := 0
  x : Nat := 0
  y : Nat := 1
  z : Nat := 1
  sys : Dword := 0
  szs : Dword := 0
  syd : Dword := 0
  szd : Dword := 0
  node : Option (BitVec 16) := none
  dir : Bool := false
deriving DecidableEq, Repr, Inhabited

def copyShape (i : Instr) (r : List Dword) : CopyShape :=
  let g := fun (k : Nat) => r.getD k 0
  let base : CopyShape :=
    { srck := ((g 3).extractLsb' 0 3).toNat, dstk := ((g 3).extractLsb' 3 3).toNat, src := (g 0).toNat,
      dst := (g 1).toNat, x := ((g 2).extractLsb' 0 40).toNat }
  match i with
  | .cpyt _ =>
    { base with
      x := ((g 2).extractLsb' 0 24).toNat, y := ((g 2).extractLsb' 24 16).toNat, z := ((g 2).extractLsb' 40 16).toNat
      sys := g 4, szs := g 5, syd := g 6, szd := g 7 }
  | .cpyr _ => { base with node := some ((g 3).extractLsb' 48 16), dir := (g 3).getLsbD 6 }
  | .cpyf _ => { base with fill := some (g 0) }
  | _ => base

def CopyShape.empty (h : CopyShape) : Bool := h.x = 0 || h.y = 0 || h.z = 0

/-- A bit that R169 to R171 require to be 0 is set. -/
def copyBits (i : Instr) (r : List Dword) : Bool :=
  let c := r.getD 3 0
  let n := r.getD 2 0
  match i with
  | .cpyt _ => n.extractLsb' 56 8 ≠ 0 || c.extractLsb' 6 58 ≠ 0
  | .cpyr _ => n.extractLsb' 40 24 ≠ 0 || c.extractLsb' 7 41 ≠ 0
  | .cpyf _ => n.extractLsb' 40 24 ≠ 0 || c.extractLsb' 6 58 ≠ 0 || c.extractLsb' 0 3 ≠ 0
  | _ => n.extractLsb' 40 24 ≠ 0 || c.extractLsb' 6 58 ≠ 0

/-- Sizes of a slot's layout (R147, R148). -/
def aslotSize : Nat := 16896
def wslotSize : Nat := 16448

/-- Every row of a strided range lies in 0 to lim. -/
def rowsWithin (h : CopyShape) (base : Nat) (sy sz : Dword) (lim : Nat) : Bool :=
  h.empty
    || (let dy := ((h.y - 1 : Nat) : Int) * sy.toInt
        let dz := ((h.z - 1 : Nat) : Int) * sz.toInt
        0 ≤ (base : Int) + min 0 dy + min 0 dz && (base : Int) + max 0 dy + max 0 dz + h.x ≤ lim)

/-- The claim of a slot in the area of the issuing core; weight or activation. -/
def slotClaim (c : Cx) (weight : Bool) (n : Nat) : Claim :=
  let a := c.team.areas.get {} c.area
  if weight then a.wclaims.get {} n else a.aclaims.get {} n

def slotCount (c : Cx) (weight : Bool) : Nat := if weight then c.launch.desc.wslots else c.launch.desc.aslots

/-- One endpoint's checks (R172). -/
def endpointOk (c : Cx) (h : CopyShape) (kind base : Nat) (sy sz : Dword) : Bool :=
  match kind with
  | 0 => true
  | 1 => rowsWithin h base sy sz c.launch.desc.scratch
  | 2 => c.launch.desc.paired && rowsWithin h base sy sz c.launch.desc.scratch
  | 3 => base / 2 ^ 21 = 0 && base / 65536 < slotCount c false && (slotClaim c false (base / 65536)).holder.isSome
      && rowsWithin h (base % 65536) sy sz aslotSize
  | 4 => base / 2 ^ 21 = 0 && base / 65536 < slotCount c true && (slotClaim c true (base / 65536)).holder.isSome
      && rowsWithin h (base % 65536) sy sz wslotSize
  | _ => false

/-- The copy-descriptor checks of R172. -/
def copyOk (c : Cx) (i : Instr) (r : List Dword) : Bool :=
  let h := copyShape i r
  !copyBits i r
    && (h.fill.isSome || endpointOk c h h.srck h.src h.sys h.szs)
    && endpointOk c h h.dstk h.dst h.syd h.szd
    && (h.node.isNone || (if h.dir then h.dstk = 0 else h.srck = 0))

/-! ## Engines (R163 to R165) -/

def State.engine (s : State) (e : Nat) : Engine := (s.die (e / 12)).engines.get {} e
def State.modEngine (s : State) (e : Nat) (f : Engine → Engine) : State :=
  s.modDie (e / 12) (fun d => { d with engines := Tab.modify ({} : Engine) d.engines e f })

/-- Descriptors on their way to an engine. -/
def enRoute (s : State) (e : Nat) : Nat :=
  (s.agenda.filter (fun ev => match ev with
    | .copyDescriptorEnqueue id => (s.ops.find? id).any (fun o => engineOf o = e)
    | _ => false)).length

/-- The descriptors that count when the die chooses an engine: queued and running ones (R164), and those on their way to
it, which R164 does not speak of: that is the model's choice (log entry 98). -/
def engineLoad (s : State) (e : Nat) : Nat := (s.engine e).fifo.length + (s.engine e).running.length + enRoute s e

/-- The engine that a copy names, or that the die chooses (R164). -/
def chooseEngine (s : State) (die w : Nat) : Nat :=
  if w < 12 then w
  else (List.range 12).foldl
    (fun best e => if engineLoad s (12 * die + e) < engineLoad s (12 * die + best) then e else best) 0

/-- A handle (R175). -/
def copyHandle (die eng ticket : Nat) : Dword := BitVec.ofNat 64 (2 ^ 56 * die + 2 ^ 52 * eng + ticket % 2 ^ 32)

/-- How often the slot that a copy writes has been released so far. -/
def slotEpoch (c : Cx) (h : CopyShape) : Nat :=
  if 3 ≤ h.dstk then (slotClaim c (h.dstk = 4) (h.dst / 65536)).epoch else 0

/-- CPY, CPYT, CPYR and CPYF at issue (R163, R172, R175). -/
def copyIssue (i : Instr) (f : MF) (n : Nat) (cls : List Nat) (s : State) : Out :=
  run i s (fun c _ s =>
    let regs := (List.range n).map (fun k => readS c (f.b.toNat + k))
    if !copyOk c i regs then trapAt c 4 1 0 0 0 s
    else
      let die := coreDie c.core
      let eng := chooseEngine s die (f.w.toNat % 32)
      let e := 12 * die + eng
      if 64 ≤ (s.engine e).fifo.length + enRoute s e then .next (stall c s)
      else
        let ticket := (s.engine e).ticket
        let h := copyHandle die eng ticket
        let p := startOp c
          { kind := .copy, instr := i, pk := f.pk.toNat, produces := true, regs := regs, eng := eng, ticket := ticket
            val := h, hint := f.ch.toNat, area := c.area, epoch := slotEpoch c (copyShape i regs) } cls s
        let s := p.2.modEngine e (fun g => { g with ticket := (g.ticket + 1) % 2 ^ 32 })
        let s := if f.w.getLsbD 5 then writeS c.wref (f.d.toNat - 640) h s else s
        .next (advance c (s.push [.copyDescriptorEnqueue p.1])))

def execCpy (f : MF) (s : State) : Out := copyIssue (.cpy f) f 4 [clsCR, clsCW] s
def execCpyt (f : MF) (s : State) : Out := copyIssue (.cpyt f) f 8 [clsCR, clsCW] s
def execCpyr (f : MF) (s : State) : Out := copyIssue (.cpyr f) f 4 [clsCR, clsCW] s
def execCpyf (f : MF) (s : State) : Out := copyIssue (.cpyf f) f 4 [clsCW] s

/-! ## Chunks (R166) -/

/-- Chunks of a row of x bytes whose destination is d. -/
def rowChunks (d x : Nat) : Nat := (d % 128 + x + 127) / 128

/-- Where row r starts, at one end of the copy (R171). -/
def rowStart (h : CopyShape) (base : Nat) (sy sz : Dword) (r : Nat) : Nat :=
  (BitVec.ofNat 64 base + BitVec.ofNat 64 (r / h.y) * sz + BitVec.ofNat 64 (r % h.y) * sy).toNat

def dstRow (h : CopyShape) (r : Nat) : Nat := rowStart h h.dst h.syd h.szd r
def srcRow (h : CopyShape) (r : Nat) : Nat := rowStart h h.src h.sys h.szs r

def rows (h : CopyShape) : Nat := if h.empty then 0 else h.y * h.z

/-- The number of chunks in rows r to r + fuel − 1. -/
def chunkTotal (h : CopyShape) : Nat → Nat → Nat
  | 0, _ => 0
  | n + 1, r => rowChunks (dstRow h r) h.x + chunkTotal h n (r + 1)

def CopyShape.chunks (h : CopyShape) : Nat := chunkTotal h (rows h) 0

/-- The row of chunk k and its place in it, from row r on. -/
def locate (h : CopyShape) : Nat → Nat → Nat → Option (Nat × Nat)
  | 0, _, _ => none
  | n + 1, r, k =>
    if k < rowChunks (dstRow h r) h.x then some (r, k) else locate h n (r + 1) (k - rowChunks (dstRow h r) h.x)

/-- Source address, destination address and length of chunk k, and the place of its first byte in its row. -/
def CopyShape.chunk (h : CopyShape) (k : Nat) : Option (Nat × Nat × Nat × Nat) :=
  (locate h (rows h) 0 k).map (fun p =>
    let d := dstRow h p.1
    let x0 := if p.2 = 0 then 0 else 128 * p.2 - d % 128
    let x1 := min h.x (128 * (p.2 + 1) - d % 128)
    ((srcRow h p.1 + x0) % 2 ^ 64, (d + x0) % 2 ^ 64, x1 - x0, x0))

/-! ## One chunk -/

/-- A range of virtual addresses cut at line ends. -/
def segsOf (va n : Nat) : List (Nat × Nat) :=
  if n = 0 then []
  else if va % 128 + n ≤ 128 then [(va, n)]
  else [(va, 128 - va % 128), ((va + (128 - va % 128)) % 2 ^ 64, n - (128 - va % 128))]

/-- One translated piece of a chunk's global range. -/
structure Seg where
  va : Nat
  n : Nat
  pa : Nat
  home : Nat
  homeField : Nat
deriving DecidableEq, Repr, Inhabited

/-- One piece translated for an engine's event; the page must lie on node's side of the fabric (R173, R177). -/
def segPhys (s : State) (ev : Instr) (o : Op) (store : Bool) (node : Option (BitVec 16)) (e : Nat × Nat) :
    Except (Nat × TFault) Seg :=
  match translateFor s ev o.core o.ctx (if store then .store else .load) store (BitVec.ofNat 64 e.1) with
  | .error f => .error (e.1, f)
  | .ok p => if p.tr.node ≠ node then .error (e.1, ⟨tRoute, 0⟩) else .ok ⟨e.1, e.2, p.pa, p.home, p.tr.home⟩

def segsPhys (s : State) (ev : Instr) (o : Op) (store : Bool) (node : Option (BitVec 16)) :
    List (Nat × Nat) → Except (Nat × TFault) (List Seg)
  | [] => .ok []
  | e :: es =>
    match segPhys s ev o store node e, segsPhys s ev o store node es with
    | .error f, _ => .error f
    | .ok _, .error f => .error f
    | .ok g, .ok gs => .ok (g :: gs)

/-- The store that an endpoint of kind 1 to 4 names, in the area of the issuing core or its partner. -/
def localStore (s : State) (o : Op) (kind addr : Nat) : Store :=
  match s.team? o.ref.team with
  | none => {}
  | some t =>
    let ar := t.areas.get {} (if kind = 2 then 1 - o.area else o.area)
    if kind = 3 then ar.aslots.get {} (addr / 65536 % 32)
    else if kind = 4 then ar.wslots.get {} (addr / 65536 % 32) else ar.scratch

def localOff (kind addr : Nat) : Nat := if 3 ≤ kind then addr % 65536 else addr

def setLocalStore (o : Op) (kind addr : Nat) (st : Store) (s : State) : State :=
  modArea o.ref.team (if kind = 2 then 1 - o.area else o.area) (fun ar =>
    if kind = 3 then { ar with aslots := ar.aslots.set (addr / 65536 % 32) st }
    else if kind = 4 then { ar with wslots := ar.wslots.set (addr / 65536 % 32) st } else { ar with scratch := st }) s

/-- The home slices and lines of some pieces. -/
def segStops (gs : List Seg) : List Stop := (gs.map (fun g => (⟨g.home, g.pa / 128, 1⟩ : Stop))).dedup

/-- The bytes of some pieces in what replies have brought. -/
def segBytes (ts : List Trip) (gs : List Seg) : List Byte :=
  gs.flatMap (fun g => tripBytes ts ((List.range g.n).map (fun k => g.pa + k)))

/-- An event reads lines at their home slices, each in its turn (R62, R120, R167): done has the replies, or fail the address of
a line that met a memory error (R58). -/
def readLines (e : Instr) (q : Requester) (stops : List Stop) (stream : Bool) (s : State)
    (fail : Nat → State → Out) (done : List Trip → State → Out) : Out :=
  journey e q stops
    (fun t s => atSliceWith { home := t.home, line := t.line, stream := stream } e s (fun _ => none) (fun s =>
      if poisoned s t.line then .next (returned t (fun x => { x with bad := true }) s)
      else
        let d := homeData t.home t.line (s.mem.line t.line) s
        .next (returned t (fun x => { x with data := d.1 }) d.2)))
    (fun ts s => match ts.find? (·.bad) with
      | some t => fail (128 * t.line) s
      | none => done ts s) s

/-- An event writes lines at their home slices, each in its turn; write performs one of them, or refuses it where the line is
poisoned and it does not cover the line (R58). -/
def writeLines (e : Instr) (q : Requester) (stops : List Stop) (stream : Bool) (write : Trip → State → Option State)
    (s : State) (fail : Nat → State → Out) (done : State → Out) : Out :=
  journey e q stops
    (fun t s => atSliceWith { home := t.home, line := t.line, stream := stream } e s (fun _ => none) (fun s =>
      match write t s with
      | some s => .next (returned t (fun x => x) s)
      | none => .next (returned t (fun x => { x with bad := true }) s)))
    (fun ts s => match ts.find? (·.bad) with
      | some t => fail (128 * t.line) s
      | none => done s) s

/-- A global piece takes bytes as a copy-engine write (R86, R167). -/
def writeSeg (g : Seg) (bs : List Byte) (s : State) : State :=
  let p := placeBytes (g.pa % 128) bs 0 0
  writeLine g.home (g.pa / 128) p.1 p.2 s

/-- The pieces that lie in one line take their bytes, of those of all pieces in order; none where the line is poisoned and a
part of it would stay (R58). -/
def writePieces (gs : List Seg) (bs : List Byte) (t : Trip) (s : State) : Option State :=
  let ps := (gs.foldl (fun (p : List Byte × List (Seg × List Byte)) g => (p.1.drop g.n, p.2 ++ [(g, p.1.take g.n)])) (bs, [])).2
  let mine := ps.filter (fun x => x.1.home = t.home && x.1.pa / 128 = t.line)
  if poisoned s t.line && mine.any (fun x => x.1.n < 128) then none
  else some (mine.foldl (fun s x => writeSeg x.1 x.2 s) s)

/-- A write by a unit of the package that raises no fault: a poisoned line takes only a whole one (R58). -/
def quietWrite (g : Seg) (bs : List Byte) (s : State) : State :=
  if poisoned s (g.pa / 128) && bs.length < 128 then s else writeSeg g bs (noteHome g.home (g.pa / 128) s)

/-- A home slice and line among others, in rising order. -/
def insertLine (x : Nat × Nat) : List (Nat × Nat) → List (Nat × Nat)
  | [] => [x]
  | y :: ys => if x.1 < y.1 || (x.1 = y.1 && x.2 ≤ y.2) then x :: y :: ys else y :: insertLine x ys

/-- The turn at each line of a list, one after the other. -/
def atEach (stream : Bool) (e : Instr) : List (Nat × Nat) → State → (State → Out) → Out
  | [], s, k => k s
  | (h, l) :: r, s, k =>
    atSliceWith { home := h, line := l, stream := stream } e s (fun _ => none) (fun s => atEach stream e r s k)

/-- Requests for several lines take their turn at each (R84, R85), in one order for all, so that no two wait for each
other; those of a copy with CH = 3 fill their lines so that they are replaced first (R141). -/
def atSlices (stream : Bool) (e : Instr) (ls : List (Nat × Nat)) (s : State) (k : State → Out) : Out :=
  atEach stream e (ls.foldr insertLine []) s k

/-- The engine gives a copy's place up: it leaves the running set or the FIFO, and the next descriptor starts. -/
def leaveEngine (id : Nat) (o : Op) (s : State) : State :=
  let s := s.modEngine (engineOf o) (fun g =>
    { g with fifo := g.fifo.filter (fun x => x ≠ id), running := g.running.filter (fun x => x ≠ id) })
  let s := purgeEvents (fun e => match e with | .copyChunk i _ => i = id | _ => false) s
  (s.modOp id (fun o => { o with running := false, stopping := false })).push [.copyStart (coreDie o.core) o.eng]

/-- Key of a retained outcome: the handle's matching fields with the poster's context (R179). -/
def copyKey (ctx : Nat) (h : Dword) : Nat :=
  (h &&& 0x03F00000FFFFFFFF#64).toNat + 2 ^ 64 * ctx

/-- The status word of R179. -/
def statusWord (state code done : Nat) : Dword := BitVec.ofNat 64 (2 ^ 62 * state + 2 ^ 40 * code + done % 2 ^ 40)

/-- A copy is over with a code of R103 and a count of leading chunks: its outcome is retained and its production completes
(R95, R179). -/
def endCopyAt (id code done : Nat) (s : State) : State :=
  match s.ops.find? id with
  | none => s
  | some o =>
    let s := leaveEngine id o s
    let s := s.modEngine (engineOf o) (fun g =>
      let r := g.retained ++ [(copyKey o.ctx o.val, o.entered, statusWord 2 code done)]
      { g with retained := r.drop (r.length - 256) })
    finishOp id (s.modOp id (fun o => { o with code := code }))

def endCopy (id code : Nat) (s : State) : State := endCopyAt id code ((s.ops.get {} id).prog) s

/-- The descriptor enters its engine: into the FIFO, or, of a copy that moves no bytes, to its end at once (R163, R171).
A restored copy enters too (R174); that it does so even where the FIFO holds 64 already is the model's choice (log entry
99). -/
def enterEngine (id : Nat) (o : Op) (s : State) : State :=
  let e := engineOf o
  let s := (s.modOp id (fun o => { o with entered := (s.engine e).accepted })).modEngine e
    (fun g => { g with accepted := g.accepted + 1 })
  if (copyShape o.instr o.regs).empty then endCopy id 0 s
  else (s.modEngine e (fun g => { g with fifo := g.fifo ++ [id] })).push [.copyStart (coreDie o.core) o.eng]

/-- COPY_DESCRIPTOR_ENQUEUE (R163). -/
def execCopyDescriptorEnqueue (id : Nat) (s : State) : Out := withOp id s (fun o s => .next (enterEngine id o s))

/-- The requests of a chunk that are under way: what it has read, or its requests on the fabric. -/
def chunkParts (o : Op) (k : Nat) : List Part := o.parts.filter (fun p => p.chunk = k)

/-- The parts of a chunk are gone. -/
def dropChunk (id k : Nat) (s : State) : State :=
  s.modOp id (fun o => { o with parts := o.parts.filter (fun p => p.chunk ≠ k) })

/-- A chunk of a copy has requests on the networks. -/
def chunksUnderWay (s : State) (id : Nat) : Bool :=
  s.trips.any (fun t => match t.e with
    | .copyChunk i _ => i = id
    | _ => false)

/-- A copy that starts no further chunk and has none under way has come to a chunk boundary: cancelled, it is over with
code 7; otherwise it leaves its engine (R173, R174, R179). -/
def settleCopy (id : Nat) (s : State) : State :=
  match s.ops.find? id with
  | none => s
  | some o =>
    if !o.stopping || !o.parts.isEmpty || chunksUnderWay s id then s
    else if o.cancelled && o.fault.isNone then endCopy id 7 s
    else leaveEngine id o s

/-- A running copy stops at its next chunk boundary. -/
def stopCopy (id : Nat) (s : State) : State := settleCopy id (s.modOp id (fun o => { o with stopping := true }))

/-- A copy's fault stops it at the faulting chunk (R173); AUX holds the handle, of a malformed entry too, for which R385 names
the entry read as well: that is the model's choice (log entry 116). Requests of the chunk that are still on the fabric are
awaited. -/
def copyFault (id k : Nat) (o : Op) (code addr : Nat) (s : State) : State :=
  let s := faultOp id 3 code (BitVec.ofNat 64 addr) 0 o.val (unpin (.copyChunk id k) s)
  stopCopy id (s.modOp id (fun o => { o with
    parts := (o.parts.filter (fun p => p.chunk ≠ k || p.rem.isSome && !p.done)).map (fun p =>
      if p.chunk = k then { p with bad := true } else p) }))

/-- Contained results (R4) as bytes. -/
def freeBytes (n : Nat) (s : State) : List Byte × State :=
  let p := s.fresh
  ((List.range n).map (fun k => BitVec.ofNat 8 (p.1 / 256 ^ k)), p.2)

/-- The bytes of a chunk go to its destination. In a slot that has been released since the copy was issued they leave
contained results (R272). -/
def putChunk (o : Op) (h : CopyShape) (dst : Nat) (segs : List Seg) (bs : List Byte) (s : State) : State :=
  if h.dstk = 0 then
    (segs.foldl (fun (p : List Byte × State) g => (p.1.drop g.n, writeSeg g (p.1.take g.n) p.2)) (bs, s)).2
  else
    let released := 3 ≤ h.dstk && (s.team? o.ref.team).any (fun t =>
      let ar := t.areas.get {} o.area
      ((if h.dstk = 4 then ar.wclaims else ar.aclaims).get {} (h.dst / 65536)).epoch ≠ o.epoch)
    let p := if released then freeBytes bs.length s else (bs, s)
    setLocalStore o h.dstk dst ((localStore p.2 o h.dstk dst).write (localOff h.dstk dst) p.1) p.2

/-- A local destination of a copy whose stream broke holds contained results in every byte (R177). -/
def spoilCopy (id : Nat) (o : Op) (h : CopyShape) : Nat → State → State
  | 0, s => s
  | k + 1, s =>
    let s := spoilCopy id o h k s
    match h.chunk k with
    | none => s
    | some (_, d, n, _) =>
      let p := freeBytes n s
      match (if h.dstk = 0 then segsPhys s (.copyChunk id k) o true none (segsOf d n) else .ok []) with
      | .error _ => s
      | .ok gs => putChunk o h d gs p.1 p.2

/-- Leading chunks done, and the mask of those done after them, once one more is done. -/
def progress : Nat → Nat → BitVec 16 → Nat × BitVec 16
  | 0, d, m => (d, m)
  | n + 1, d, m => if m.getLsbD 0 then progress n (d + 1) (m >>> 1) else (d, m)

/-- Every source read of the copy has been performed: the reads of each chunk, or the chunk. -/
def readsPerformed (o : Op) (h : CopyShape) : Bool :=
  h.chunks ≤ o.prog + 16 && (List.range (h.chunks - o.prog)).all (fun i =>
    o.mask.getLsbD i || (let ps := chunkParts o (o.prog + i)
      !ps.isEmpty && (h.dir || ps.all (·.done))))

/-- The copy's reads count in class CR once the last one has been performed (R95). -/
def noteReads (id : Nat) (s : State) : State :=
  match s.ops.find? id with
  | none => s
  | some o =>
    let h := copyShape o.instr o.regs
    if o.readDone || h.fill.isSome || !readsPerformed o h then s
    else
      (s.modOp id (fun o => { o with readDone := true })).modWarp (warpOf o.ref) (fun w =>
        (w.completeCls (o.cls.filter (fun x => x.1 = clsCR)) allScopes).freeFences)

/-- Chunk k is complete: progress moves on, further chunks start, and the last one ends the copy (R166). -/
def chunkDone (id k : Nat) (s : State) : State :=
  match s.ops.find? id with
  | none => s
  | some o =>
    let h := copyShape o.instr o.regs
    let p := progress 16 o.prog (o.mask ||| BitVec.ofNat 16 (2 ^ (k - o.prog)))
    let s := (dropChunk id k (unpin (.copyChunk id k) s)).modOp id (fun o => { o with prog := p.1, mask := p.2 })
    if h.chunks ≤ p.1 then
      let s := if o.code = 6 && h.node.isSome && !h.dir then spoilCopy id o h h.chunks s else s
      endCopy id (if o.cancelled then 7 else o.code) s
    else if o.stopping then settleCopy id s
    else s.push (((List.range (p.1 - o.prog)).map (fun i => o.prog + 16 + i)).filterMap
      (fun j => if j < h.chunks then some (.copyChunk id j) else none))

/-- COPY_START (R165): the head of the FIFO starts while fewer than four copies run. -/
def execCopyStart (die eng : Nat) (s : State) : Out :=
  let e := 12 * die + eng
  let g := s.engine e
  match g.fifo with
  | [] => .next s
  | id :: rest =>
    if 4 ≤ g.running.length then .next s
    else match s.ops.find? id with
      | none => .next (s.modEngine e (fun g => { g with fifo := rest }))
      | some o =>
        let h := copyShape o.instr o.regs
        if h.chunks ≤ o.prog then .next (endCopy id o.code s)
        else
          let s := s.modEngine e (fun g => { g with fifo := rest, running := g.running ++ [id] })
          let s := s.modOp id (fun o => { o with running := true })
          let ks := (List.range 16).filter (fun i => o.prog + i < h.chunks && !o.mask.getLsbD i)
          .next (s.push (ks.map (fun i => .copyChunk id (o.prog + i)) ++ [.copyStart die eng]))

/-- What a chunk has read from this package waits for its write. -/
def holdRead (id k : Nat) (bs : List Byte) (s : State) : State :=
  let s := s.modOp id (fun o => { o with parts := o.parts ++
    [{ chunk := k, sent := true, done := true, ldata := bitsOfBytes 1024 bs }] })
  (noteReads id s).push [.copyChunk id k]

/-- The addresses of some pieces. -/
def pieceVas (es : List (Nat × Nat)) : List Dword := es.map (fun e => BitVec.ofNat 64 e.1)

/-- A chunk's reads from this package: one access for each source line (R166, R167). -/
def readChunk (id k : Nat) (o : Op) (h : CopyShape) (src n : Nat) (s : State) : Out :=
  let e : Instr := .copyChunk id k
  if h.srck ≠ 0 then .next (holdRead id k ((localStore s o h.srck src).read (localOff h.srck src) n) s)
  else withPins e (.engine (engineOf o)) o.core o.ctx (pieceVas (segsOf src n)) s (fun s =>
    match segsPhys s e o false none (segsOf src n) with
    | .error f => .next (copyFault id k o f.2.code f.1 s)
    | .ok ss => readLines e (.engine (engineOf o)) (segStops ss) (o.hint = 3) s
        (fun a s => .next (copyFault id k o tMemory a s)) (fun ts s => .next (holdRead id k (segBytes ts ss) s)))

/-- A chunk's write in this package: one request (R166, R167). -/
def writeChunk (id k : Nat) (o : Op) (h : CopyShape) (dst : Nat) (bs : List Byte) (s : State) : Out :=
  let e : Instr := .copyChunk id k
  if h.dstk ≠ 0 then .next (chunkDone id k (putChunk o h dst [] bs s))
  else withPins e (.engine (engineOf o)) o.core o.ctx (pieceVas (segsOf dst bs.length)) s (fun s =>
    match segsPhys s e o true none (segsOf dst bs.length) with
    | .error f => .next (copyFault id k o f.2.code f.1 s)
    | .ok ds => writeLines e (.engine (engineOf o)) (segStops ds) (o.hint = 3) (writePieces ds bs) s
        (fun a s => .next (copyFault id k o tMemory a s)) (fun s => .next (chunkDone id k s)))

/-- One request of a remote chunk is sent; the state tells whether it could be. -/
def sendRemote (id k : Nat) (node : BitVec 16) (pkt : Packet) (o : Op) (s : State) : Sent :=
  match fabricSend (coreDie o.core) node pkt id 0 s with
  | .ok s seq =>
    .ok (s.modOp id (fun o => { o with parts := o.parts ++
      [{ line := pkt.addr / 128, chunk := k, rem := some node, sent := true, seq := seq }] })) seq
  | r => r

def sendRemotes (id k : Nat) (node : BitVec 16) (o : Op) : List Packet → State → Sent
  | [], s => .ok s 0
  | p :: ps, s =>
    match sendRemote id k node p o s with
    | .ok s _ => sendRemotes id k node o ps s
    | r => r

/-- A chunk's requests on the fabric: reads of its source lines, or writes of the bytes that it has read (R177). All of
them leave, or none. -/
def fabricChunk (id k : Nat) (o : Op) (h : CopyShape) (node : BitVec 16) (theirs n : Nat) (bs : List Byte) (s : State) : Out :=
  withPins (.copyChunk id k) (.engine (engineOf o)) o.core o.ctx (pieceVas (segsOf theirs n)) s (fun s =>
  match segsPhys s (.copyChunk id k) o h.dir (some node) (segsOf theirs n) with
  | .error f => .next (copyFault id k o f.2.code f.1 s)
  | .ok rs =>
    let pkt := fun (g : Seg) =>
      let base := { (default : Packet) with addr := g.pa / 128 * 128, count := 128, home := g.homeField }
      if h.dir then
        let off := (g.va + 2 ^ 64 - theirs) % 2 ^ 64
        let d := placeBytes (g.pa % 128) ((bs.drop off).take g.n) 0 0
        { base with kind := .write, data := d.1, bmask := d.2 }
      else { base with kind := .read }
    match sendRemotes id k node o (rs.map pkt) (if h.dir then dropChunk id k s else s) with
    | .ok s _ => .next s
    | .full => .next (s.push [.copyChunk id k])
    | .noRoute => .next (copyFault id k o tRemote theirs s))

/-- The bytes that the answers to a chunk's reads of another node brought, one for each piece of its source in order (R177). -/
def answeredBytes (src n : Nat) (ps : List Part) : List Byte :=
  ((segsOf src n).zip ps).flatMap (fun x => (List.range x.1.2).map (fun i => lineByte x.2.ldata (x.1.1 % 128 + i)))

/-- COPY_CHUNK (R166): a chunk's source reads, then its write, each an event of its own. A copy that is stopping starts no
chunk. -/
def execCopyChunk (id k : Nat) (s : State) : Out :=
  match s.ops.find? id with
  | none => .next s
  | some o =>
    let h := copyShape o.instr o.regs
    let ps := chunkParts o k
    match h.chunk k with
    | none => .next s
    | some (src, dst, n, x0) =>
      let held := (List.range n).map (fun i => lineByte ((ps.headD {}).ldata) i)
      if !o.running then .next s
      else if ps.isEmpty then
        if o.stopping && (s.tripsOf (.copyChunk id k)).isEmpty then .next (unpin (.copyChunk id k) s)
        else match h.fill, h.node with
          | some v, _ => writeChunk id k o h dst ((List.range n).map (fun i => v.extractLsb' (8 * ((x0 + i) % 8)) 8)) s
          | none, some node => if h.dir then readChunk id k o h src n s else fabricChunk id k o h node src n [] s
          | none, none => readChunk id k o h src n s
      else match h.node with
        | none => writeChunk id k o h dst held s
        | some node =>
          if ps.any (fun p => !p.done || p.bad) then .next s
          else if !h.dir then writeChunk id k o h dst (answeredBytes src n ps) s
          else if ps.any (fun p => p.rem.isSome) then .next (chunkDone id k s)
          else fabricChunk id k o h node dst n held s

/-- A request of a remote chunk is answered: with the line read, with a code, or with a fault. -/
def copyAnswered (id seq : Nat) (data : LineData) (code fault : Nat) (s : State) : State :=
  match s.ops.find? id with
  | none => s
  | some o =>
    let mine := fun (p : Part) => p.rem.isSome && p.seq = seq && !p.done
    match o.parts.find? mine with
    | none => s
    | some p =>
      let s := s.modOp id (fun o =>
        { o with code := if o.code = 0 then code else o.code,
                 parts := o.parts.map (fun p => if mine p then { p with done := true, ldata := data } else p) })
      let o := s.ops.get {} id
      if fault ≠ 0 then copyFault id p.chunk o fault (128 * p.line) s
      else if (chunkParts o p.chunk).any (fun p => !p.done) then s
      else if (chunkParts o p.chunk).any (·.bad) then settleCopy id (dropChunk id p.chunk s)
      else (noteReads id s).push [.copyChunk id p.chunk]

/-- The copy with a key that entered the engine last, among some descriptors (R179). -/
def lastMatch (s : State) (key : Nat) (ids : List Nat) : Option (Nat × Op) :=
  let ms := (ids.filterMap (fun id => (s.ops.find? id).map (fun o => (id, o)))).filter (fun e => copyKey e.2.ctx e.2.val = key)
  ms.foldl (fun (best : Option (Nat × Op)) e => match best with
    | some b => if b.2.entered < e.2.entered then some e else best
    | none => some e) none

/-- A query's answer does not wait for a copy that is still coming to its chunk boundary. -/
def queryReady (s : State) (id : Nat) : Bool :=
  match s.ops.find? id with
  | none => true
  | some o =>
    !o.cancelled || !(lastMatch s (copyKey o.ctx o.val)
      (let g := s.engine (12 * coreDie o.core + (o.val.extractLsb' 52 4).toNat); g.fifo ++ g.running)).any (fun q => q.2.stopping)

/-- What a chunk's next requests need. -/
def chunkPlan (s : State) (id k : Nat) (o : Op) : Plan :=
  let q : Requester := .engine (engineOf o)
  let h := copyShape o.instr o.regs
  match h.chunk k with
  | none => { who := q }
  | some (src, dst, n, _) =>
    let first := (chunkParts o k).isEmpty && h.fill.isNone
    let remote := h.node.isSome && (first ≠ h.dir)
    let kind := if first then h.srck else h.dstk
    if kind ≠ 0 then { who := q }
    else
      let es := if first then segsOf src n else segsOf dst n
      match (if remote then .ok [] else segsPhys s (.copyChunk id k) o (!first) none es) with
      | .ok gs => { who := q, core := o.core, ctx := o.ctx, vas := pieceVas es, stops := segStops gs }
      | .error _ => { who := q, core := o.core, ctx := o.ctx, vas := pieceVas es }

/-! ## CPYQ (R179) -/

/-- CPYQ at issue. Its request has no order with descriptors still on their way to the engine, and may overtake the one
that it asks about: R179 gives none, and this is the model's choice (log entry 100). -/
def queryOp (i : Instr) (f : MF) (s : State) : Out :=
  run i s (fun c _ s =>
    let p := startOp c
      { kind := .copyQuery, instr := i, pk := f.pk.toNat, produces := true, val := readS c f.b.toNat
        dests := [.s (f.d.toNat - 640)], cancelled := f.w.getLsbD 0, parts := [{ line := 2 ^ 52 }] } [] s
    .next (advance c (p.2.push [.copyQueryRequest p.1])))

def execCpyqQuery (f : MF) (s : State) : Out := queryOp (.cpyqQuery f) f s
def execCpyqCancel (f : MF) (s : State) : Out := queryOp (.cpyqCancel f) f s

/-- COPY_QUERY_REQUEST (R179): the engine of the issuing die looks among its queued, running and retained copies, and of
several with the handle takes the one that it accepted last. A cancelled running copy comes to its chunk boundary before
the answer. -/
def execCopyQueryRequest (id : Nat) (s : State) : Out :=
  withOp id s (fun o s =>
    let eng := (o.val.extractLsb' 52 4).toNat
    let e := 12 * coreDie o.core + eng
    let g := if eng < 12 then s.engine e else {}
    let key := copyKey o.ctx o.val
    let answer := fun (st : Dword) (s : State) =>
      Host.Outcome.next (answerPart ⟨id, 0⟩ (fun p => { p with sent := true, done := true })
        (s.modOp id (fun o => { o with data := o.data.set 0 st })))
    let old := (g.retained.filter (fun x => x.1 = key)).foldl (fun (b : Option (Nat × Nat × Dword)) x =>
      if b.any (fun y => x.2.1 < y.2.1) then b else some x) none
    match lastMatch s key (g.fifo ++ g.running) with
    | some q =>
      if old.any (fun x => q.2.entered < x.2.1) then answer ((old.map (·.2.2)).getD 0) s
      else if !q.2.running then
        if o.cancelled then answer (statusWord 2 7 0) (endCopyAt q.1 7 0 s) else answer (statusWord 0 0 q.2.prog) s
      else if o.cancelled then
        .next ((stopCopy q.1 (s.modOp q.1 (fun x => { x with cancelled := true }))).push [.copyQueryRequest id])
      else answer (statusWord 1 0 q.2.prog) s
    | none => answer ((old.map (·.2.2)).getD (statusWord 3 0 0)) s)

end Sys2Proof.Machine
end

