-- ==== Sys2Proof/Machine/Matrix.lean ====
section
/-! DEFINITION. The matrix engine, its torc, slots and tiles, and the drain unit: opcodes 0x88 to 0x8F and the steps by
which issued instructions act at their place in tile order (R147 to R150, R237 to R243, R268 to R290). -/

namespace Sys2Proof.Machine

/-! ## Whole-warp and torc checks (R278) -/

/-- The executing split holds every lane of the warp's launch mask. -/
def wholeWarp (c : Cx) : Bool := c.active = c.warp.launchMask

def splitMaskTrap (c : Cx) (s : State) : Out := trapAt c 2 7 0 0 0 s

def holdsTorc (s : State) (c : Cx) : Bool := (s.core c.core).torc = some c.wref

/-- The torc-not-held trap (R278). -/
def torcTrap (c : Cx) (s : State) : Out := trapAt c 4 6 0 0 0 s

/-- A matrix instruction issues; none does while its warp, restored, waits in the torc queue (R270). -/
def matrixRun (i : Instr) (s : State) (body : Cx → Mask → State → Out) : Out :=
  run i s (fun c m s =>
    if (s.core c.core).torcQ.any (fun r => warpOf r = c.wref) then .next (stall c s) else body c m s)

def slotTrap (c : Cx) (s : State) : Out := trapAt c 4 7 0 0 0 s

/-! ## The torc (R269, R270, R279) -/

/-- The head of a core's torc queue is granted a free torc; the split that waits for it issues its TAKE again. -/
def grantTorc (core : Nat) (s : State) : State :=
  let co := s.core core
  match co.torc, co.torcQ with
  | none, r :: q =>
    (s.modCore core (fun c => { c with torc := some (warpOf r), torcQ := q })).modSplit r
      (fun sp => if sp.wait = .torc then { sp with wait := .none } else sp)
  | _, _ => s

/-- The torc passes on from a warp that holds it. -/
def passTorc (core : Nat) (w : WarpRef) (s : State) : State :=
  if (s.core core).torc = some w then grantTorc core (s.modCore core (fun c => { c with torc := none })) else s

/-- A warp leaves a core's torc and its queue (R270). -/
def leaveTorc (core : Nat) (w : WarpRef) (s : State) : State :=
  passTorc core w (s.modCore core (fun c => { c with torcQ := c.torcQ.filter (fun r => warpOf r ≠ w) }))

/-- TORC.TAKE (R279). -/
def execTorcTake (f : MF) (s : State) : Out :=
  run (.torcTake f) s (fun c _ s =>
    if !wholeWarp c then splitMaskTrap c s
    else if holdsTorc s c then .next (advance c s)
    else if (s.core c.core).torc = none && (s.core c.core).torcQ.isEmpty then
      .next (advance c (s.modCore c.core (fun co => { co with torc := some c.wref })))
    else
      let s := s.modCore c.core (fun co =>
        { co with torcQ := if co.torcQ.any (fun r => warpOf r = c.wref) then co.torcQ else co.torcQ ++ [c.ref] })
      .next (parkAt c .torc s))

/-- TORC.PASS (R279). -/
def execTorcPass (f : MF) (s : State) : Out :=
  matrixRun (.torcPass f) s (fun c _ s =>
    if !wholeWarp c then splitMaskTrap c s
    else if !holdsTorc s c then torcTrap c s
    else .next (advance c (passTorc c.core c.wref s)))

/-! ## Slot claims (R271, R272, R280) -/

/-- A slot is released (R272): what a copy of the claim that ends writes into it from now on is contained. -/
def Claim.release (x : Claim) : Claim := { x with holder := none, epoch := x.epoch + 1 }

def modClaim (t a : Nat) (weight : Bool) (n : Nat) (f : Claim → Claim) (s : State) : State :=
  modArea t a (fun ar =>
    if weight then { ar with wclaims := Tab.modify ({} : Claim) ar.wclaims n f }
    else { ar with aclaims := Tab.modify ({} : Claim) ar.aclaims n f }) s

/-- A slot is free: the oldest waiting claim of a running team is granted, and its instruction is done. -/
def grantSlot (t a : Nat) (weight : Bool) (n : Nat) (s : State) : State :=
  match s.team? t with
  | none => s
  | some tm =>
    let ar := tm.areas.get {} a
    let cl := (if weight then ar.wclaims else ar.aclaims).get {} n
    match cl.waiting with
    | [] => s
    | r :: q =>
      if cl.holder.isSome || tm.status ≠ .running then s
      else
        let s := modClaim t a weight n (fun c => { c with holder := some r.warp, waiting := q }) s
        let cur := s.cur
        match s.cxOf r with
        | none => s
        | some c => { (endWait r (advance c s)) with cur := cur }

/-- SLOT.claim. -/
def execSlotClaim (f : MF) (s : State) : Out :=
  matrixRun (.slotClaim f) s (fun c _ s =>
    let wt := f.w.getLsbD 5
    let n := f.w.toNat % 32
    let cl := slotClaim c wt n
    if !wholeWarp c then splitMaskTrap c s
    else if cl.holder = some c.ref.warp then slotTrap c s
    else if cl.holder = none && cl.waiting.all (fun r => r.warp = c.ref.warp) then
      .next (advance c (modClaim c.ref.team c.area wt n (fun x => { x with holder := some c.ref.warp, waiting := [] }) s))
    else
      .next (parkAt c (.slot wt n) (modClaim c.ref.team c.area wt n (fun x =>
        { x with waiting := if x.waiting.contains c.ref then x.waiting else x.waiting ++ [c.ref] }) s)))

/-- An MMA of the team issued on the core has still to read the slot. -/
def slotInUse (s : State) (c : Cx) (weight : Bool) (n : Nat) : Bool :=
  (s.core c.core).matrix.any (fun id => (s.ops.find? id).any (fun o =>
    o.kind = .mma && o.ref.team = c.ref.team && (if weight then o.size else o.ty) = n))

/-- SLOT.release: it waits until no issued MMA has still to read the slot. -/
def execSlotRelease (f : MF) (s : State) : Out :=
  matrixRun (.slotRelease f) s (fun c _ s =>
    let wt := f.w.getLsbD 5
    let n := f.w.toNat % 32
    if !wholeWarp c then splitMaskTrap c s
    else if (slotClaim c wt n).holder ≠ some c.ref.warp then slotTrap c s
    else if slotInUse s c wt n then .next (stall c s)
    else
      let s := modClaim c.ref.team c.area wt n Claim.release s
      .next (grantSlot c.ref.team c.area wt n (advance c s)))

/-! ## Tile order (R276)

The operations issued on a core and not yet finished stand in issue order in its list. An operation holds its tile in
fn, its area in eng, its slots in ty and size. -/

def isEngine (k : OpKind) : Bool := k = .mma || k = .accz || k = .accld
def isReader (k : OpKind) : Bool := k = .accrd || k = .accq || k = .drain

/-- The operations issued before one on its core. -/
def earlier (s : State) (core id : Nat) : List Op :=
  ((s.core core).matrix.takeWhile (fun x => x ≠ id)).filterMap s.ops.find?

/-- An operation that was issued earlier must act first: on the matrix engine, on the drain unit, or on the same tile
unless both only read it (R276, R291). -/
def comesFirst (e o : Op) : Bool :=
  (isEngine e.kind && isEngine o.kind) || (e.kind = .drain && o.kind = .drain)
    || (e.ref.team = o.ref.team && e.fn = o.fn && !(isReader e.kind && isReader o.kind))

/-- An operation may act: nothing issued earlier that must come first is still to act. -/
def matrixTurn (s : State) (id : Nat) (o : Op) : Bool := (earlier s o.core id).all (fun e => !comesFirst e o)

/-- A team's operations on a core that cannot act before the team is restored: its stopped DRAINs, and those that come
after one in tile order (R277). -/
def stuckOps (s : State) (t core : Nat) : List Nat :=
  (s.core core).matrix.foldl (fun st id =>
    match s.ops.find? id with
    | some o =>
      if o.ref.team = t && ((o.kind = .drain && o.stopping) || (st.filterMap s.ops.find?).any (fun e => comesFirst e o)) then
        st ++ [id]
      else st
    | none => st) []

def leaveMatrix (core id : Nat) (s : State) : State :=
  s.modCore core (fun c => { c with matrix := c.matrix.filter (fun x => x ≠ id) })

/-- An instruction of the engine or drain unit issues; a full queue of 4 stalls it (R291). -/
def matrixIssue (c : Cx) (o : Op) (cls : List Nat) (ev : Nat → Instr) (s : State) : Out :=
  let q := (s.core c.core).matrix.filterMap s.ops.find?
  let full := if isEngine o.kind then 4 ≤ (q.filter (fun x => isEngine x.kind)).length
    else if o.kind = .drain then 4 ≤ (q.filter (fun x => x.kind = .drain)).length else false
  if full then .next (stall c s)
  else
    let p := startOp c { o with eng := c.area } cls s
    let s := p.2.modCore c.core (fun co => { co with matrix := co.matrix ++ [p.1] })
    .next (advance c (s.push [ev p.1]))

/-- An operation acts at its turn, and is tried again until then. -/
def atTurn (id : Nat) (ev : Instr) (s : State) (k : Op → State → Out) : Out :=
  withOp id s (fun o s => if matrixTurn s id o then k o s else .next (s.push [ev]))

/-! ## Tiles (R149, R150) -/

def tileOf (s : State) (o : Op) : Tile :=
  ((s.team? o.ref.team).map (fun t => (t.areas.get {} o.eng).tiles.get {} o.fn)).getD {}

def setTile (o : Op) (t : Tile) (s : State) : State :=
  modArea o.ref.team o.eng (fun ar => { ar with tiles := ar.tiles.set o.fn t }) s

/-- The mantissa of a word in the BFP and wrap modes, the value in the saturating mode. -/
def wordInt (mode : Nat) (w : Dword) : Int :=
  if mode = 2 then intOf 32 true (w.toNat % 2 ^ 32) else intOf 48 true (w.toNat % 2 ^ 48)

/-- A word that holds an integer, its upper bits copies of the sign. -/
def intWord (x : Int) : Dword := BitVec.ofInt 64 x

def statusOf (t : Tile) : Dword :=
  BitVec.ofNat 64 (t.e.toNat + 2 ^ 16 * t.mode + (if t.eovf then 2 ^ 20 else 0) + (if t.satf then 2 ^ 21 else 0)
    + (if t.nanf then 2 ^ 22 else 0) + (if t.rsv then 2 ^ 23 else 0))

/-- AccValue of R243. -/
def accValue (t : Tile) (i j : Nat) : FV :=
  let w := t.word (128 * i + j)
  if t.mode = 3 then fmtF64.decode w.toNat
  else
    let x := wordInt t.mode w
    .fin (decide (x < 0)) x.natAbs (if t.mode = 0 then t.e.toInt else 0)

/-- The words of a tile that p names are contained results (R168, R282). -/
def spoilWords (p : Nat → Bool) (t : Tile) (s : State) : Tile × State :=
  let q := s.freshSeed
  let ws := ((List.range 16384).filter p).foldl (fun ws k => Tab.set ws k (Tile.word { seed := q.1 } k)) t.words
  ({ t with words := ws }, q.2)

/-! ## ACCZ (R281) and ACCLD (R282) -/

def execAccz (f : MF) (s : State) : Out :=
  matrixRun (.accz f) s (fun c _ s =>
    if !holdsTorc s c then torcTrap c s
    else matrixIssue c { kind := .accz, instr := .accz f, fn := f.b.toNat, prog := f.w.toNat } [] .acczExecute s)

/-- ACCZ_EXECUTE. -/
def execAcczExecute (id : Nat) (s : State) : Out :=
  atTurn id (.acczExecute id) s (fun o s =>
    let t : Tile := { mode := o.prog / 65536 % 4, e := BitVec.ofNat 16 o.prog, fresh := false }
    .next (finishOp id (leaveMatrix o.core id (setTile o t s))))

/-- Bytes of a raw tile (R282). -/
def rawSize : Nat := 132104

/-- The 64 KiB granules that a range of virtual addresses touches. -/
def granules (va n : Nat) : List Nat :=
  if n = 0 then [] else (List.range ((va % 65536 + n + 65535) / 65536)).map (fun k => (va / 65536 * 65536 + 65536 * k) % 2 ^ 64)

/-- One granule of a matrix operation's memory side, translated at issue: no REM page (R173). It becomes an Acc of the
operation: mark, granule address, physical address, effective policy. A DRAIN meets a physical hole only when it comes
to it (R289). -/
def granuleAcc (s : State) (held : List Walked) (core ctx : Nat) (a : Agent) (mark k g : Nat) : Except TFault Acc :=
  let va := BitVec.ofNat 64 g
  match lookupHeld held s core ctx va k with
  | .error f => .error f
  | .ok t =>
    let pa := t.page + g % 2 ^ pageBits t.level
    let acc : Acc := { lane := mark, va := va, pa := pa, b := BitVec.ofNat 64 ((effPolicy pa t.home).getD 0) }
    match permFault a false t with
    | some f => .error ⟨f, 0⟩
    | none =>
      if t.node.isSome then .error ⟨tRoute, 0⟩
      else match place t va with
        | .error f => if f.code = tHole && mark ≠ accldMark then .ok acc else .error f
        | .ok _ => .ok acc
where
  /-- The mark of ACCLD's granules; DRAIN's output has 0 and its column records 1. -/
  accldMark : Nat := 2

/-- Granules translated at issue, each with its own lookup (R68); k numbers them. -/
def granuleAccs (s : State) (c : Cx) (a : Agent) (mark : Nat) : Nat → List Nat → Except (Nat × TFault) (List Acc)
  | _, [] => .ok []
  | k, g :: gs =>
    match granuleAcc s c.split.held c.core c.ctx a mark k g, granuleAccs s c a mark (k + 1) gs with
    | .error f, _ => .error (g, f)
    | .ok _, .error e => .error e
    | .ok x, .ok xs => .ok (x :: xs)

/-- The first address of a range in a granule, where it has one. -/
def firstIn (g : Nat) (r : Nat × Nat) : Option Nat :=
  if (granules r.1 r.2).contains g then some (if r.1 / 65536 * 65536 = g then r.1 else g) else none

/-- The fault of a granule, at the lowest address of some ranges that lies in it. -/
def granuleTrap (c : Cx) (ranges : List (Nat × Nat)) (e : Nat × TFault) (s : State) : Out :=
  trapAt c 3 e.2.code (BitVec.ofNat 64 (((ranges.filterMap (firstIn e.1)).min?).getD e.1)) 0 e.2.aux s

/-- The physical place of a virtual address in an operation's translated granules. -/
def granulePhys (o : Op) (mark va : Nat) : Option Seg :=
  (o.lanes.find? (fun a => a.lane = mark && a.va.toNat = va / 65536 * 65536)).map (fun a =>
    let pa := a.pa + va % 65536
    ⟨va, 0, pa, homeSlice pa a.b.toNat false, a.b.toNat⟩)

/-- The pieces of a range, line by line. -/
def granuleSegs (o : Op) (mark : Nat) : Nat → Nat → Nat → List Seg
  | 0, _, _ => []
  | fuel + 1, va, n =>
    if n = 0 then []
    else
      let k := min n (128 - va % 128)
      match granulePhys o mark va with
      | none => granuleSegs o mark fuel ((va + k) % 2 ^ 64) (n - k)
      | some g => { g with n := k } :: granuleSegs o mark fuel ((va + k) % 2 ^ 64) (n - k)

def segsIn (o : Op) (mark va n : Nat) : List Seg := granuleSegs o mark (n / 128 + 2) va n

def execAccld (f : MF) (s : State) : Out :=
  matrixRun (.accld f) s (fun c m s =>
    let va := laneAddr s c f ((lowLane m).getD 0)
    if !holdsTorc s c then torcTrap c s
    else if va.toNat % 128 ≠ 0 then trapAt c 3 tMisaligned va 0 0 s
    else
      let o : Op := { kind := .accld, instr := .accld f, pk := f.pk.toNat, produces := true, fn := f.b.toNat
                      regs := [va], scope := f.sc.toNat, order := f.sp.toNat, hint := f.ch.toNat }
      if f.sp = 0 then
        let gs := granules va.toNat rawSize
        let vas := gs.map (BitVec.ofNat 64)
        withPages c vas s (fun s =>
          match granuleAccs s c .tile 2 0 gs with
          | .error e => granuleTrap c [(va.toNat, rawSize)] e s
          | .ok as => matrixIssue c { o with lanes := as } [clsMR] .accldExecute (touchTlbs c.core c.ctx vas s))
      else if (f.sp = 2 && !c.launch.desc.paired) || c.launch.desc.scratch < va.toNat + rawSize then
        trapAt c 3 tBounds va 0 0 s
      else matrixIssue c o [clsMR] .accldExecute s)

/-- The area index that an SP code reaches (R142). -/
def areaOf (o : Op) : Nat := if o.order = 2 then 1 - o.eng else o.eng

/-- A tile as its raw form gives it (R282). E is taken from the loaded status word in the integer modes too, where R150 and R241
say that it is 0: the model's choice (log entry 123). -/
def tileOfRaw (bs : List Byte) : Tile :=
  let w := fun (k : Nat) => leNat ((bs.drop (8 * k)).take 8)
  let st := w (16384 + 128)
  let mode := st / 65536 % 4
  let word := fun (x : Nat) =>
    if mode = 3 then BitVec.ofNat 64 x else intWord (wordInt mode (BitVec.ofNat 64 x))
  { words := (List.range 16384).map (fun k => (k, word (w k)))
    rowSums := (List.range 128).map (fun i => (i, BitVec.ofNat 64 (w (16384 + i))))
    mode := mode, e := BitVec.ofNat 16 st, eovf := st / 2 ^ 20 % 2 = 1, satf := st / 2 ^ 21 % 2 = 1
    nanf := st / 2 ^ 22 % 2 = 1, rsv := st / 2 ^ 23 % 2 = 1, fresh := false }

/-- A raw word's bytes (R286). -/
def rawWord (t : Tile) (k : Nat) : Dword :=
  if k < 16384 then t.word k else if k < 16512 then t.rowSums.get 0 (k - 16384) else statusOf t

/-- A matrix operation stops on a fault precise by key (R102). A DRAIN keeps its place in tile order, so that its tile
stays as it is until the DRAIN goes on (R277). -/
def matrixFault (id cls code addr : Nat) (s : State) : State :=
  faultOp id cls code (BitVec.ofNat 64 addr) 0 0 (s.modOp id (fun o => { o with stopping := true }))

/-- A raw tile's words in an operation's data, from word k on. -/
def putRaw (k : Nat) (bs : List Byte) (o : Op) : Op :=
  let word := fun (i : Nat) => BitVec.ofNat 64 (leNat ((bs.drop (8 * i)).take 8))
  { o with data := (List.range (bs.length / 8)).foldl (fun t i => t.set (k + i) (word i)) o.data }

/-- ACCLD has read everything: its production is complete (R95). -/
def accldRead (id : Nat) (s : State) : State :=
  (completeAt id allScopes 0 (s.modOp id (fun o => { o with readDone := true }))).push [.accldExecute id]

/-- ACCLD reads its source line by line at the home slices (R167, R282); prog counts the lines. -/
def accldLine (id : Nat) (o : Op) (s : State) : Out :=
  let va := (o.regs.getD 0 0).toNat + 128 * o.prog
  let gs := segsIn o 2 va (min 128 (rawSize - 128 * o.prog))
  readLines (.accldExecute id) (.core o.core) (segStops gs) (o.hint = 3) s
    (fun a s => .next ((matrixFault id 3 tMemory a s).push [.accldExecute id]))
    (fun ts s =>
      let s := s.modOp id (fun o => { putRaw (16 * o.prog) (segBytes ts gs) o with prog := o.prog + 1 })
      .next (if rawSize ≤ 128 * (o.prog + 1) then accldRead id s else s.push [.accldExecute id]))

/-- ACCLD_EXECUTE: first the reads, which complete its production (R95); then, at its place in tile order, the tile: as
it was read, or with contained results for words where a memory error was found (R282). -/
def execAccldExecute (id : Nat) (s : State) : Out :=
  withOp id s (fun o s =>
    let place := fun (k : State → State) =>
      Host.Outcome.next (if matrixTurn s id o then leaveMatrix o.core id (k s) else s.push [.accldExecute id])
    if o.stopping then
      place (fun s => let p := spoilWords (fun _ => true) (tileOf s o) s; setTile o p.1 p.2)
    else if o.readDone then
      place (fun s => (setTile o (tileOfRaw ((List.range 16513).flatMap (fun k => leBytes 8 (o.data.get 0 k).toNat))) s).dropOp id)
    else if o.order ≠ 0 then
      let bs := readScratch s o.ref.team (areaOf o) (o.regs.getD 0 0).toNat rawSize
      .next (accldRead id (s.modOp id (putRaw 0 (leBytes rawSize bs))))
    else accldLine id o s)

/-! ## MMA (R273 to R275, R283, R284) -/

def fwRsum (w : Word) : Bool := w.getLsbD 13
def fwScale (w : Word) : Bool := w.getLsbD 12
def fwMode (w : Word) : Nat := (w.extractLsb' 10 2).toNat
def fwB (w : Word) : Nat := (w.extractLsb' 4 4).toNat
def fwA (w : Word) : Nat := (w.extractLsb' 0 4).toNat

/-- The legal format words of R274. -/
def fwOk (w : Word) : Bool :=
  let a := fwA w
  let b := fwB w
  let mode := fwMode w
  w.extractLsb' 14 18 = 0
    && ((a < 2 && b < 2 && mode = 0 && !fwRsum w && !w.getLsbD 8 && !w.getLsbD 9)
      || (a = 2 && b = 2 && (mode = 1 || mode = 2) && !fwScale w)
      || ((a = 3 || a = 4) && (b = 3 || b = 4) && mode = 0 && !fwScale w && !fwRsum w && !w.getLsbD 8 && !w.getLsbD 9)
      || (a = 5 && b = 5 && mode = 3 && !fwScale w && !fwRsum w && !w.getLsbD 8 && !w.getLsbD 9))

/-- An ACCLD to a tile has still to take its status word, one that a memory error has stopped too (R282, R283). -/
def accldPending (s : State) (c : Cx) (n : Nat) : Bool :=
  s.ops.any (fun o => o.2.kind = .accld && o.2.ref.team = c.ref.team && o.2.eng = c.area && o.2.fn = n)

/-- The MODE that every ACCZ and ACCLD issued earlier leaves in a tile; none while an ACCLD has still to load it
(R283). -/
def tileMode (s : State) (c : Cx) (n : Nat) : Option Nat :=
  let pend := ((s.core c.core).matrix.filterMap s.ops.find?).filter (fun o =>
    o.ref.team = c.ref.team && o.fn = n && o.kind = .accz)
  if accldPending s c n then none
  else match pend.getLast? with
  | some o => some (o.prog / 65536 % 4)
  | none => some ((c.team.areas.get {} c.area).tiles.get {} n).mode

def execMma (f : XF) (s : State) : Out :=
  matrixRun (.mma f) s (fun c m s =>
    let fw := f.fw.toNat
    let dis := disagree c.active (fun l => readW s c fw l)
    let w := readW s c fw ((lowLane c.active).getD ((lowLane m).getD 0))
    let x := f.aslot.toNat
    let y := f.wslot.toNat
    if !wholeWarp c then splitMaskTrap c s
    else if dis ≠ 0 then trapAt c 4 4 0 dis 0 s
    else if !holdsTorc s c then torcTrap c s
    else if badTile c f.ac.toNat || slotCount c false ≤ x || slotCount c true ≤ y then illegalOperand c s
    else if (slotClaim c false x).holder = none || (slotClaim c true y).holder = none then slotTrap c s
    else if !fwOk w then trapAt c 4 3 0 0 0 s
    else match tileMode s c f.ac.toNat with
      | none => .next (stall c s)
      | some mode =>
        if fwMode w ≠ mode then trapAt c 4 5 0 0 0 s
        else matrixIssue c
          { kind := .mma, instr := .mma f, pk := f.pk.toNat, produces := true, fn := f.ac.toNat, ty := x, size := y
            hint := 8 * (f.mr.toNat + 1), order := if f.acc then 1 else 0, val := w.setWidth 64 } [clsMR] .mmaExecute s)

/-- An element of a slot at a byte offset, in a format of R273; a NaN or infinity reads as 0 in BFP mode (R237). -/
def elemVal (st : Store) (fmt : Nat) (sgn bfp : Bool) (off : Nat) : FV :=
  let v := match fmt with
    | 0 => fmtE4M3.decode (leNat (st.read off 1))
    | 1 => fmtE5M2.decode (leNat (st.read off 1))
    | 2 =>
      let x := intOf 8 sgn (leNat (st.read off 1))
      .fin (decide (x < 0)) x.natAbs 0
    | 3 => fmtBF16.decode (leNat (st.read off 2))
    | 4 => fmtF16.decode (leNat (st.read off 2))
    | _ => fmtF64.decode (leNat (st.read off 8))
  if bfp then finiteOr0 v else v
where
  finiteOr0 (v : FV) : FV :=
    match v with
    | .fin n m e => .fin n m e
    | _ => .fin false 0 0

/-- Bytes of an element and elements of a sum (R274). -/
def fmtBytes (fmt : Nat) : Nat := if fmt < 3 then 1 else if fmt < 5 then 2 else 8
def fmtK (fmt : Nat) : Nat := if fmt < 3 then 128 else if fmt < 5 then 64 else 16

/-- A binary32 scale (R237). -/
def scaleVal (st : Store) (off : Nat) : FV := elemVal.finiteOr0 (fmtF32.decode (leNat (st.read off 4)))

/-- Row i of A and column j of B. -/
def aRow (st : Store) (w : Word) (i : Nat) : List FV :=
  let e := fmtBytes (fwA w)
  (List.range (fmtK (fwA w))).map (fun k => elemVal st (fwA w) (w.getLsbD 8) (fwMode w = 0) (128 * i + e * k))

def bCol (st : Store) (w : Word) (j : Nat) : List FV :=
  let e := fmtBytes (fwB w)
  let stride := 16384 / fmtK (fwB w)
  (List.range (fmtK (fwB w))).map (fun k => elemVal st (fwB w) (w.getLsbD 9) (fwMode w = 0) (stride * k + e * j))

/-- The exact sum of products (R236, R238). -/
def dot (a b : List FV) : FV := (a.zip b).foldl (fun acc p => FV.add 0 acc (FV.mul p.1 p.2)) (.fin false 0 0)

/-- RoundToGrid (R229). -/
def toGrid (v : FV) (e : Int) : Int :=
  match v with
  | .fin n m x => toInt 0 n m (x - e)
  | _ => 0

/-- ShiftAll on mantissas (R239). -/
def shiftAll (ms : List Int) : List Int := ms.map (fun m => toInt 0 (decide (m < 0)) m.natAbs (-1))

/-- Pre-alignment of R239: how far E must grow; fuel 65536 covers the range of E. -/
def preAlign (xs : List FV) : Nat → Int → Nat
  | 0, _ => 0
  | n + 1, e =>
    if e < 32767 && xs.any (fun x => 2 ^ 47 ≤ (toGrid x e).natAbs) then preAlign xs n (e + 1) + 1 else 0

def iterate {α : Type} (f : α → α) : Nat → α → α
  | 0, x => x
  | n + 1, x => iterate f n (f x)

/-- A contribution placed on the grid, clamped below 2^47 (R239). -/
def placeX (x : FV) (e : Int) : Int × Bool :=
  let q := toGrid x e
  if 2 ^ 47 ≤ q.natAbs then ((if q < 0 then -(2 ^ 47 - 1) else 2 ^ 47 - 1), true) else (q, false)

/-- Renormalisation of R239: mantissas, exponent, and whether the exponent saturated. -/
def renorm : Nat → List Int → Int → List Int × Int × Bool
  | 0, ms, e => (ms, e, false)
  | n + 1, ms, e =>
    if ms.any (fun m => 2 ^ 46 ≤ m.natAbs) then
      if e = 32767 then
        (ms.map (fun m => if 2 ^ 46 ≤ m.natAbs then (if m < 0 then -(2 ^ 46 - 1) else 2 ^ 46 - 1) else m), e, true)
      else renorm n (shiftAll ms) (e + 1)
    else (ms, e, false)

/-- BfpStep of R239: x holds rows 0 to M − 1, row by row. -/
def bfpStep (t : Tile) (xs : List FV) (acc : Bool) : Tile :=
  let e0 := t.e.toInt
  let up := preAlign xs 65536 e0
  let ms := iterate shiftAll up ((List.range 16384).map (fun k => wordInt 0 (t.word k)))
  let e := e0 + up
  let qs := xs.map (fun x => placeX x e)
  let new := ((ms.take xs.length).zip qs).map (fun p => (if acc then p.1 else 0) + p.2.1)
  let r := renorm 65536 (new ++ ms.drop xs.length) e
  { t with
    seed := 0, words := r.1.zipIdx.map (fun p => (p.2, intWord p.1)), e := BitVec.ofInt 16 r.2.1
    eovf := t.eovf || qs.any (·.2) || r.2.2, fresh := false }

/-- One element of an integer-mode step, and whether it was clamped (R241). -/
def intStep (mode : Nat) (acc : Bool) (old : Int) (p : FV) : Int × Bool :=
  let x := (if acc then old else 0) + toGrid p 0
  if mode = 1 then (intOf 48 true (wrapInt 48 x), false)
  else (clampInt 32 true x, decide (x < intMin 32 true) || decide (intMax 32 true < x))

/-- One element of an FP64 step (R242), and whether a step gave a NaN. -/
def fp64Step (start : Nat) (a b : List FV) : Nat × Bool :=
  (a.zip b).foldl (fun c p =>
    let r := fmtF64.encode 0 false false (FV.add 0 (FV.mul p.1 p.2) (fmtF64.decode c.1))
    (r, c.2 || (fmtF64.decode r).isNaN)) (start, false)

/-- The words of rows 0 to M − 1 replaced. -/
def putWords (t : Tile) (ws : List Dword) : Tile :=
  { t with words := ws.zipIdx.foldl (fun tab p => tab.set p.2 p.1) t.words }

/-- The tile after an MMA (R284). -/
def mmaTile (t : Tile) (sa sb : Store) (w : Word) (m : Nat) (acc : Bool) : Tile :=
  let as := (List.range m).map (aRow sa w)
  let bs := (List.range 128).map (bCol sb w)
  match fwMode w with
  | 0 =>
    let ts := if fwScale w then scaleVal sb 16384 else .fin false 1 0
    let xs := as.zipIdx.flatMap (fun a =>
      let rs := if fwScale w then scaleVal sa (16384 + 4 * a.2) else .fin false 1 0
      bs.map (fun b => FV.mul (FV.mul (dot a.1 b) rs) ts))
    bfpStep t xs acc
  | 3 =>
    let rs := as.zipIdx.flatMap (fun a => bs.zipIdx.map (fun b =>
      fp64Step (if acc then (t.word (128 * a.2 + b.2)).toNat else 0) a.1 b.1))
    { putWords t (rs.map (fun r => BitVec.ofNat 64 r.1)) with nanf := t.nanf || rs.any (·.2), fresh := false }
  | mode =>
    let rs := as.zipIdx.flatMap (fun a => bs.zipIdx.map (fun b =>
      intStep mode acc (wordInt mode (t.word (128 * a.2 + b.2))) (dot a.1 b.1)))
    let t' := { putWords t (rs.map (fun r => intWord r.1)) with
      satf := t.satf || rs.any (·.2), fresh := false }
    if fwRsum w then
      let sums := as.zipIdx.foldl (fun tab a =>
        tab.set a.2 ((if acc then t.rowSums.get 0 a.2 else 0)
          + BitVec.ofInt 64 (a.1.foldl (fun x v => x + toGrid v 0) 0))) t.rowSums
      { t' with rowSums := sums, rsv := true }
    else t'

/-- The copies that are writing a slot (R168). -/
def slotCopies (s : State) (o : Op) (weight : Bool) (n : Nat) : List CopyShape :=
  s.ops.filterMap (fun e =>
    let h := copyShape e.2.instr e.2.regs
    if e.2.kind = .copy && e.2.ref.team = o.ref.team && e.2.area = o.eng && e.2.running
        && h.dstk = (if weight then 4 else 3) && h.dst / 65536 % 32 = n then some h else none)

/-- A copy writes one of n bytes of a slot from an offset on. -/
def CopyShape.writes (h : CopyShape) (off n : Nat) : Bool :=
  (List.range (rows h)).any (fun r => dstRow h r % 65536 < off + n && off < dstRow h r % 65536 + h.x)

/-- The row of A or its scale, and the column of B or the tile's scale, that a copy writes while an MMA reads it. -/
def rowWritten (w : Word) (hs : List CopyShape) (i : Nat) : Bool :=
  hs.any (fun h => h.writes (128 * i) 128 || (fwScale w && h.writes (16384 + 4 * i) 4))

def colWritten (w : Word) (hs : List CopyShape) (j : Nat) : Bool :=
  let e := fmtBytes (fwB w)
  hs.any (fun h => (fwScale w && h.writes 16384 4)
    || (List.range (fmtK (fwB w))).any (fun k => h.writes (16384 / fmtK (fwB w) * k + e * j) e))

/-- MMA_EXECUTE (R284): at its place in tile order, reads and tile step together. Of elements whose operands a copy that
no key relates to the MMA is writing, the words are contained results (R168). -/
def execMmaExecute (id : Nat) (s : State) : Out :=
  atTurn id (.mmaExecute id) s (fun o s =>
    let ar := ((s.team? o.ref.team).map (fun t => t.areas.get {} o.eng)).getD {}
    let w := o.val.setWidth 32
    let t := mmaTile (tileOf s o) (ar.aslots.get {} o.ty) (ar.wslots.get {} o.size) w o.hint (o.order = 1)
    let as := slotCopies s o false o.ty
    let bs := slotCopies s o true o.size
    let r : Tile × State :=
      if as.isEmpty && bs.isEmpty then (t, s)
      else
        let rs := (List.range o.hint).filter (rowWritten w as)
        let cs := (List.range 128).filter (colWritten w bs)
        spoilWords (fun k => k < 128 * o.hint && (rs.contains (k / 128) || cs.contains (k % 128))) t s
    .next (finishOp id (leaveMatrix o.core id (setTile o r.1 r.2))))

/-! ## ACCRD and ACCQ (R285, R290) -/

def execAccrd (f : MF) (s : State) : Out :=
  matrixRun (.accrd f) s (fun c m s =>
    let w := f.w.toNat
    let row := if f.w.getLsbD 14 then ((readS c f.a.toNat).toNat + w % 128) % 128 else w % 128
    matrixIssue c
      { kind := .accrd, instr := .accrd f, fn := f.b.toNat, ty := f.ty.toNat, prog := row, size := w / 128 % 128
        rm := roundMode (f.w.extractLsb' 15 3) c.warp.rmode, cancelled := f.w.getLsbD 18
        lanes := (lanesOf m).map (fun l => { lane := l }), dests := (regsOf f.d.toNat (tyWords f.ty.toNat)).map c.preg }
      [] .accrdExecute s)

/-- One element as ACCRD gives it (R285). -/
def accrdVal (t : Tile) (ty rm : Nat) (sat : Bool) (i j : Nat) : Nat :=
  match ty with
  | 3 => fmtF32.encode rm sat false (accValue t i j)
  | 7 => fmtF64.encode rm sat false (accValue t i j)
  | 1 => convert (.int 32 true) rm sat false (.f (accValue t i j))
  | 5 => convert (.int 64 true) rm sat false (.f (accValue t i j))
  | _ => (t.word (128 * i + j)).toNat

/-- Values by lane in the places of an operation's destinations. -/
def putLanes (o : Op) (f : Nat → Nat) : Op :=
  let data := o.lanes.foldl (fun (t : Tab Dword) a =>
    (t.set (8 * a.lane) (BitVec.ofNat 64 (f a.lane % 2 ^ 32))).set (8 * a.lane + 1) (BitVec.ofNat 64 (f a.lane / 2 ^ 32)))
    o.data
  { o with data := data }

/-- ACCRD_EXECUTE. -/
def execAccrdExecute (id : Nat) (s : State) : Out :=
  atTurn id (.accrdExecute id) s (fun o s =>
    let t := tileOf s o
    let s := s.modOp id (fun o => putLanes o (fun l => accrdVal t o.ty o.rm o.cancelled o.prog (o.size + l)))
    .next (finishOp id (leaveMatrix o.core id s)))

def execAccqStatus (f : MF) (s : State) : Out :=
  matrixRun (.accqStatus f) s (fun c _ s =>
    matrixIssue c { kind := .accq, instr := .accqStatus f, fn := f.b.toNat, order := 0
                    dests := [.s (f.d.toNat - 640)] } [] .accqExecute s)

def execAccqRsum (f : MF) (s : State) : Out :=
  matrixRun (.accqRsum f) s (fun c m s =>
    matrixIssue c { kind := .accq, instr := .accqRsum f, fn := f.b.toNat, order := 1, prog := f.w.toNat % 128
                    lanes := (lanesOf m).map (fun l => { lane := l })
                    dests := (regsOf f.d.toNat 2).map c.preg } [] .accqExecute s)

/-- ACCQ_EXECUTE. -/
def execAccqExecute (id : Nat) (s : State) : Out :=
  atTurn id (.accqExecute id) s (fun o s =>
    let t := tileOf s o
    let s := s.modOp id (fun o =>
      if o.order = 0 then { o with data := o.data.set 0 (statusOf t) }
      else putLanes o (fun l => (t.rowSums.get 0 (o.prog + l)).toNat))
    .next (finishOp id (leaveMatrix o.core id s)))

/-! ## DRAIN (R286 to R289) -/

/-- A DRAIN descriptor (R286). -/
structure DrainDesc where
  dst : Nat
  pitch : Dword
  cols : Nat
  ozp : Int
  csp : Bool
  rm : Nat
  zpc : Bool
  bias : Bool
  mul : Bool
  ofmt : Nat
  ncol : Nat
  nrow : Nat
  row0 : Nat
  ctl : Dword
deriving DecidableEq, Repr, Inhabited

def drainDesc (r : List Dword) : DrainDesc :=
  let c := r.getD 3 0
  { dst := (r.getD 0 0).toNat, pitch := r.getD 1 0, cols := (r.getD 2 0).toNat
    ozp := (c.extractLsb' 32 32).toInt, csp := c.getLsbD 31, rm := (c.extractLsb' 28 3).toNat, zpc := c.getLsbD 27
    bias := c.getLsbD 26, mul := c.getLsbD 25, ofmt := (c.extractLsb' 21 4).toNat
    ncol := (c.extractLsb' 14 7).toNat + 1, nrow := (c.extractLsb' 7 7).toNat + 1, row0 := (c.extractLsb' 0 7).toNat
    ctl := c }

/-- Output element size. -/
def outSize (ofmt : Nat) : Nat :=
  match ofmt with
  | 0 | 1 | 5 | 6 => 1
  | 2 | 3 | 7 | 8 => 2
  | 10 => 8
  | _ => 4

def DrainDesc.raw (d : DrainDesc) : Bool := d.ofmt = 11

/-- Column records are read. -/
def DrainDesc.records (d : DrainDesc) : Bool := d.bias || d.zpc || d.mul

/-- Rows written, one step each; the raw form is written in 129 pieces (R286). -/
def DrainDesc.rows (d : DrainDesc) : Nat := if d.raw then 129 else d.nrow

/-- Address and bytes of output row i, counted from 0. -/
def DrainDesc.row (d : DrainDesc) (i : Nat) : Nat × Nat :=
  if d.raw then ((d.dst + 1024 * i) % 2 ^ 64, if i = 128 then 1032 else 1024)
  else ((BitVec.ofNat 64 d.dst + BitVec.ofNat 64 i * d.pitch).toNat, d.ncol * outSize d.ofmt)

/-- A range of rows lies in the scratchpad region. -/
def DrainDesc.within (d : DrainDesc) (lim : Nat) : Bool :=
  if d.raw then d.dst + rawSize ≤ lim
  else
    let dy := ((d.nrow - 1 : Nat) : Int) * d.pitch.toInt
    0 ≤ (d.dst : Int) + min 0 dy && (d.dst : Int) + max 0 dy + ((d.ncol * outSize d.ofmt : Nat) : Int) ≤ lim

/-- The drain-descriptor checks of R289. -/
def drainOk (c : Cx) (sp : Nat) (d : DrainDesc) : Bool :=
  d.ofmt < 12
    && (if d.raw then d.dst % 128 = 0 && d.ctl = BitVec.ofNat 64 (11 * 2 ^ 21)
        else d.row0 + d.nrow ≤ 128 && (d.ofmt < 5 || d.ozp = 0) && d.rm < 6
          && d.dst % outSize d.ofmt = 0 && d.pitch.toNat % outSize d.ofmt = 0
          && (!d.records || d.cols % 4 = 0))
    && (sp = 0 || ((sp = 1 || c.launch.desc.paired) && d.within c.launch.desc.scratch))
    && (!(d.records && d.csp) || d.cols + 16 * d.ncol ≤ c.launch.desc.scratch)

/-- The output rows. -/
def DrainDesc.ranges (d : DrainDesc) : List (Nat × Nat) := (List.range d.rows).map d.row

/-- Every granule of some ranges. -/
def granulesOf (rs : List (Nat × Nat)) : List Nat := (rs.flatMap (fun r => granules r.1 r.2)).dedup

def execDrain (f : MF) (s : State) : Out :=
  matrixRun (.drain f) s (fun c _ s =>
    let regs := (List.range 4).map (fun k => readS c (f.b.toNat + k))
    let d := drainDesc regs
    if !drainOk c f.sp.toNat d then trapAt c 4 2 0 0 0 s
    else
      let outs := if f.sp = 0 then d.ranges else []
      let cols := if d.records && !d.csp then [(d.cols, 16 * d.ncol)] else []
      let vas := (granulesOf outs ++ granulesOf cols).map (BitVec.ofNat 64)
      withPages c vas s (fun s =>
        match granuleAccs s c .store 0 0 (granulesOf outs),
            granuleAccs s c .tile 1 (granulesOf outs).length (granulesOf cols) with
        | .error e, _ => granuleTrap c outs e s
        | .ok _, .error e => granuleTrap c cols e s
        | .ok as, .ok bs =>
          matrixIssue c
            { kind := .drain, instr := .drain f, pk := f.pk.toNat, produces := true, scope := f.sc.toNat
              fn := f.w.toNat % 8, regs := regs, lanes := as ++ bs, order := f.sp.toNat, hint := f.ch.toNat
              rm := roundMode (BitVec.ofNat 3 d.rm) c.warp.rmode } [clsMW] .drainExecute (touchTlbs c.core c.ctx vas s)))

/-- A column record (R287). -/
structure ColRec where
  bias : Nat := 0
  zb : Nat := 0
  mult : Nat := 0
  shift : Nat := 0
deriving DecidableEq, Repr, Inhabited

def colRec (bs : List Byte) (j : Nat) : ColRec :=
  let g := fun (k n : Nat) => leNat ((bs.drop (16 * j + k)).take n)
  ⟨g 0 4, g 4 4, g 8 4, g 12 1 % 64⟩

def ofInt (x : Int) : FV := .fin (decide (x < 0)) x.natAbs 0

/-- v × 2^k, exact. -/
def FV.scale (v : FV) (k : Int) : FV :=
  match v with
  | .fin n m e => .fin n m (e + k)
  | v => v

/-- Bits and sign of the integer outputs. -/
def outInt (ofmt : Nat) : Nat × Bool :=
  match ofmt with
  | 0 => (8, true) | 1 => (8, false) | 2 => (16, true) | 3 => (16, false) | _ => (32, true)

def outFlt (ofmt : Nat) : Fmt :=
  match ofmt with
  | 5 => fmtE4M3 | 6 => fmtE5M2 | 7 => fmtBF16 | 8 => fmtF16 | 9 => fmtF32 | _ => fmtF64

/-- DrainElement of R288. -/
def drainElem (t : Tile) (d : DrainDesc) (rm : Nat) (r : ColRec) (i j : Nat) : Nat :=
  let isInt := t.mode = 1 || t.mode = 2
  let v := accValue t i j
  let v := if d.bias then
      FV.add rm v (if isInt then ofInt (intOf 32 true r.bias) else fmtF32.decode r.bias) else v
  let v := if d.zpc then FV.add rm v (ofInt (intOf 32 true r.zb * (t.rowSums.get 0 i).toInt)).neg else v
  if d.ofmt < 5 then
    let w := outInt d.ofmt
    let v := if d.mul then (FV.mul v (ofInt (intOf 32 true r.mult))).scale (-r.shift) else v
    match v with
    | .nan => wrapInt w.1 (clampInt w.1 w.2 d.ozp)
    | .inf n => wrapInt w.1 (if n then intMin w.1 w.2 else intMax w.1 w.2)
    | .fin n m e => wrapInt w.1 (clampInt w.1 w.2 (toInt rm n m e + d.ozp))
  else
    let v := if d.mul then (FV.mul v (fmtF32.decode r.mult)).scale (-r.shift) else v
    (outFlt d.ofmt).encode rm true false v

/-- The bytes of output row k (R286, R288). -/
def drainBytes (t : Tile) (d : DrainDesc) (rm : Nat) (recs : List Byte) (k : Nat) : List Byte :=
  if d.raw then
    (List.range (if k = 128 then 129 else 128)).flatMap (fun j => leBytes 8 (rawWord t (128 * k + j)).toNat)
  else
    (List.range d.ncol).flatMap (fun j =>
      leBytes (outSize d.ofmt) (drainElem t d rm (colRec recs j) (d.row0 + k) j))

/-- One row is written; the last one ends the DRAIN. -/
def drainRowDone (id : Nat) (d : DrainDesc) (o : Op) (s : State) : State :=
  if d.rows ≤ o.prog + 1 then finishOp id (leaveMatrix o.core id s)
  else (s.modOp id (fun o => { o with prog := o.prog + 1, readDone := false })).push [.drainExecute id]

/-- The global pieces of a DRAIN's next step: column records read, and output row written. -/
def drainSegs (o : Op) (d : DrainDesc) : List Seg × List Seg :=
  let r := d.row o.prog
  (if d.records && !d.csp then segsIn o 1 d.cols (16 * d.ncol) else [], if o.order = 0 then segsIn o 0 r.1 r.2 else [])

/-- Operations issued after a DRAIN that cannot act before it does, directly or behind one another (R276, R291). -/
def behind (s : State) (id : Nat) (o : Op) : List Op :=
  (((s.core o.core).matrix.reverse.takeWhile (fun x => x ≠ id)).reverse.filterMap s.ops.find?).foldl
    (fun st e => if (o :: st).any (fun b => comesFirst b e) then st ++ [e] else st) []

/-- A matrix instruction issued later, which the save awaits, waits for a DRAIN: the DRAIN runs to its end before it
(R276, R277). -/
def awaited (s : State) (id : Nat) (o : Op) : Bool := (behind s id o).any (fun e => e.ref.team = o.ref.team && e.kind ≠ .drain)

/-- The column records of a DRAIN's row as it holds them (R287). -/
def recordsOf (s : State) (o : Op) (d : DrainDesc) : List Byte :=
  if !d.records then []
  else if d.csp then leBytes (16 * d.ncol) (readScratch s o.ref.team o.eng d.cols (16 * d.ncol))
  else (List.range (2 * d.ncol)).flatMap (fun k => leBytes 8 (o.data.get 0 k).toNat)

/-- A DRAIN's next row: global records are read at their home slices first, then the output row is written, at its home
slices or in the scratchpad (R287 to R289). -/
def drainRow (id : Nat) (o : Op) (d : DrainDesc) (gs : List Seg × List Seg) (s : State) : Out :=
  let e : Instr := .drainExecute id
  let q : Requester := .core o.core
  let stop := fun (a : Nat) (s : State) => Host.Outcome.next (matrixFault id 3 tMemory a s)
  if !gs.1.isEmpty && !o.readDone then
    readLines e q (segStops gs.1) (o.hint = 3) s stop (fun ts s =>
      .next ((s.modOp id (fun o => { putRaw 0 (segBytes ts gs.1) o with readDone := true })).push [e]))
  else
    let bs := drainBytes (tileOf s o) d o.rm (recordsOf s o d) o.prog
    if o.order = 0 then
      writeLines e q (segStops gs.2) (o.hint = 3) (writePieces gs.2 bs) s stop (fun s => .next (drainRowDone id d o s))
    else .next (drainRowDone id d o (writeScratch o.ref.team (areaOf o) (d.row o.prog).1 bs s))

/-- DRAIN_EXECUTE (R289): the next output row, at the DRAIN's place in tile order. A fault, or a save, stops it at the
row's start (R277). -/
def execDrainExecute (id : Nat) (s : State) : Out :=
  atTurn id (.drainExecute id) s (fun o s =>
    let d := drainDesc o.regs
    let t := tileOf s o
    let gs := drainSegs o d
    if !(s.tripsOf (.drainExecute id)).isEmpty then drainRow id o d gs s
    else if o.stopping then .next s
    else if (s.team? o.ref.team).any (fun t => t.status = .saving) && !awaited s id o then
      .next (s.modOp id (fun o => { o with stopping := true, readDone := false }))
    else if d.zpc && !d.raw && (t.mode = 0 || t.mode = 3) then .next (matrixFault id 4 9 0 s)
    else match (gs.1 ++ gs.2).find? (fun g => isHole g.pa) with
      | some g => .next (matrixFault id 3 tHole g.va s)
      | none => drainRow id o d gs s)

/-- What a DRAIN's or ACCLD's next requests need. -/
def matrixStops (o : Op) : List Stop :=
  match o.kind with
  | .accld =>
    if o.stopping || o.readDone || o.order ≠ 0 then []
    else segStops (segsIn o 2 ((o.regs.getD 0 0).toNat + 128 * o.prog) (min 128 (rawSize - 128 * o.prog)))
  | .drain =>
    let gs := drainSegs o (drainDesc o.regs)
    if o.stopping then [] else segStops (if !gs.1.isEmpty && !o.readDone then gs.1 else gs.2)
  | _ => []

end Sys2Proof.Machine
end

