-- ==== Sys2Proof/Machine/Port.lean ====
section
/-! DEFINITION. The Ethernet port (R365): MAC frames with their check sequence, IPv6 and UDP, from a received frame to
the GCT datagram that it carries, and from a datagram of the device to the frame that carries it. -/

namespace Sys2Proof.Machine

/-! ## Numbers and checks on the wire -/

/-- A number from bytes, the most significant first. -/
def beNat (bs : List Byte) : Nat := bs.foldl (fun n b => 256 * n + b.toNat) 0

/-- n bytes of a number, the most significant first. -/
def beBytes (n v : Nat) : List Byte := (leBytes n v).reverse

def slice (bs : List Byte) (o n : Nat) : List Byte := (bs.drop o).take n

/-- One bit of the CRC-32 of IEEE 802.3. -/
def crcBit (c : BitVec 32) : BitVec 32 := if c.getLsbD 0 then (c >>> 1) ^^^ 0xEDB88320 else c >>> 1

def crcByte (c : BitVec 32) (b : Byte) : BitVec 32 :=
  (List.range 8).foldl (fun c _ => crcBit c) (c ^^^ b.setWidth 32)

/-- The frame check sequence of a frame's other bytes, in the order in which it stands in the frame (IEEE 802.3). -/
def fcs (bs : List Byte) : List Byte := leBytes 4 (~~~ (bs.foldl crcByte (BitVec.allOnes 32))).toNat

/-- The sum of the 16-bit words of some bytes, an odd last byte padded. -/
def wordSum : List Byte → Nat
  | a :: b :: r => 256 * a.toNat + b.toNat + wordSum r
  | [a] => 256 * a.toNat
  | [] => 0

/-- A ones' complement sum, folded to 16 bits. -/
def foldSum (n : Nat) : Nat := if n = 0 then 0 else (n - 1) % 65535 + 1

/-- The sum that a UDP checksum is taken over: the IPv6 pseudo-header and the UDP header and payload. -/
def udpSum (src dst udp : List Byte) : Nat := foldSum (wordSum src + wordSum dst + udp.length + 17 + wordSum udp)

/-! ## Addresses -/

/-- The UDP port of GCT (R365). -/
def gctPort : Nat := 47240

/-- The link-local address formed from the port's MAC address: fe80::/64 and its modified EUI-64. -/
def linkLocal : List Byte :=
  let m := beBytes 6 Config.portMac.toNat
  [0xFE, 0x80] ++ List.replicate 6 0 ++ [(m.getD 0 0) ^^^ 2] ++ slice m 1 2 ++ [0xFF, 0xFE] ++ slice m 3 3

/-- An address of the device (R365). -/
def State.ownAddress (s : State) (a : List Byte) : Bool := a = linkLocal || s.globalAddr = some a

/-! ## Receiving -/

/-- What an accepted frame carries: where it came from, and the payload of its UDP datagram. -/
structure Arrival where
  peer : Peer
  payload : List Byte
deriving DecidableEq, Repr

/-- A frame that the port accepts (R365): at most 9,216 bytes, untagged or with one 802.1Q tag, sent to the port, with a
right check sequence; IPv6 with no extension header to one of the device's addresses; UDP to GCT's port. -/
def acceptFrame (s : State) (fr : List Byte) : Option Arrival :=
  let tagged := beNat (slice fr 12 2) = 0x8100
  let net := fr.drop (if tagged then 16 else 12)
  let ip := (net.drop 2).take (net.length - 6)
  let n := beNat (slice ip 4 2)
  let src := slice ip 8 16
  let dst := slice ip 24 16
  let udp := slice ip 40 n
  if 64 ≤ fr.length && fr.length ≤ 9216 && fcs (fr.take (fr.length - 4)) = fr.drop (fr.length - 4)
      && beNat (fr.take 6) = Config.portMac.toNat && beNat (net.take 2) = 0x86DD
      && (ip.getD 0 0).toNat / 16 = 6 && ip.getD 6 0 = 17 && 40 + n ≤ ip.length && s.ownAddress dst
      && 8 ≤ n && beNat (slice udp 4 2) = n && beNat (slice udp 2 2) = gctPort
      && beNat (slice udp 6 2) ≠ 0 && udpSum src dst udp = 0xFFFF then
    some
      { peer := { mac := slice fr 6 6, tag := if tagged then some (slice fr 14 2) else none, addr := src
                  port := beNat (udp.take 2), here := dst }
        payload := udp.drop 8 }
  else none

/-- The source address of a datagram: IPv6 address and UDP port (R370, log entry 112). -/
def Peer.source (p : Peer) : Nat := beNat p.addr * 65536 + p.port

/-- The GCT datagram in a UDP payload (R370); one without a whole header is none. -/
def datagramOf (src : Nat) (bs : List Byte) : Option Datagram :=
  let u := fun (o n : Nat) => leNat (slice bs o n)
  if bs.length < 32 then none
  else some
    { src := src, ver := BitVec.ofNat 8 (u 0 1), type := BitVec.ofNat 8 (u 1 1), session := BitVec.ofNat 16 (u 2 2)
      stream := BitVec.ofNat 8 (u 4 1), rsv1 := BitVec.ofNat 24 (u 5 3), seq := BitVec.ofNat 64 (u 8 8)
      ackseq := BitVec.ofNat 64 (u 16 8), len := BitVec.ofNat 32 (u 24 4), rsv2 := BitVec.ofNat 32 (u 28 4), body := bs.drop 32 }

/-- What an accepted frame carried: its datagram waits to be taken up; its sender is known from now on (R370). -/
def receive (a : Arrival) (s : State) : State :=
  let s := { s with peers := s.peers.set a.peer.source a.peer }
  match datagramOf a.peer.source a.payload with
  | some d => { s with rxDatagrams := s.rxDatagrams ++ [d] }
  | none => { s with dropped := s.dropped + 1 }

/-- One frame arrives: it is accepted, or counted and dropped (R365). -/
def takeFrame (s : State) (fr : List Byte) : State :=
  match acceptFrame s fr with
  | none => { s with framesDropped := s.framesDropped + 1 }
  | some a => receive a s

/-- The frames that have come in are taken, in order; a package that has stopped takes none (R420). -/
def takeFrames (s : State) : State := if s.stopped then s else s.rxFrames.foldl takeFrame { s with rxFrames := [] }

/-! ## Frauk ports (R362) -/

/-- The flits that may be passed upward: in the order of their numbers, up to one whose CRC is wrong. -/
def Port.upward (p : Port) : Nat → List Flit → List Packet × Port
  | n, [] => ([], { p with rx := [], rxNext := n })
  | n, f :: fs =>
    if !f.ok then ([], { p with rx := f :: fs, rxNext := n })
    else if f.num ≠ n then p.upward n fs
    else
      let r := p.upward (n + 1) fs
      (if f.last then f.pkt :: r.1 else r.1, r.2)

/-- The flits that have come in on the ports are passed upward, each exactly once (R362). -/
def takeFlits (s : State) : State :=
  s.ports.foldl (fun s e =>
    if e.2.up && !e.2.rx.isEmpty then
      let r := e.2.upward e.2.rxNext e.2.rx
      { s with ports := s.ports.set e.1 r.2, rxPackets := s.rxPackets ++ r.1.map (fun p => (e.1, p)) }
    else s) s

/-- What has come in from outside is taken: frames and flits. A package that has stopped takes neither. -/
def takeInputs (s : State) : State := if s.stopped then s else takeFlits (takeFrames s)

/-! ## Sending -/

/-- The 32 bytes of a datagram's header (R370). -/
def headerBytes (d : Datagram) : List Byte :=
  [d.ver, d.type] ++ leBytes 2 d.session.toNat ++ [d.stream] ++ leBytes 3 d.rsv1.toNat ++ leBytes 8 d.seq.toNat
    ++ leBytes 8 d.ackseq.toNat ++ leBytes 4 d.len.toNat ++ leBytes 4 d.rsv2.toNat

/-- The UDP datagram that carries a payload from the device to a peer, with its checksum. -/
def udpTo (p : Peer) (payload : List Byte) : List Byte :=
  let head := fun (c : Nat) => beBytes 2 gctPort ++ beBytes 2 p.port ++ beBytes 2 (8 + payload.length) ++ beBytes 2 c
  let c := 65535 - udpSum p.here p.addr (head 0 ++ payload)
  head (if c = 0 then 65535 else c) ++ payload

/-- The frame that carries a datagram to a peer: to the station, and with the tag, that the peer's last frame came from
and with (log entry 112). -/
def frameTo (p : Peer) (d : Datagram) : List Byte :=
  let udp := udpTo p (headerBytes d ++ d.body)
  let ip := [0x60, 0, 0, 0] ++ beBytes 2 udp.length ++ [17, Config.hopLimit] ++ p.here ++ p.addr ++ udp
  let bs := p.mac ++ beBytes 6 Config.portMac.toNat ++ (p.tag.map (fun t => [0x81, 0] ++ t)).getD [] ++ [0x86, 0xDD] ++ ip
  let bs := bs ++ List.replicate (60 - bs.length) 0
  bs ++ fcs bs

/-- A datagram leaves the device (R365, R370). -/
def transmit (d : Datagram) (s : State) : State :=
  { s with
    txDatagrams := s.txDatagrams ++ [d]
    txFrames := s.txFrames ++ ((s.peers.find? d.src).map (fun p => frameTo p d)).toList }

end Sys2Proof.Machine
end

