-- ==== Sys2Proof/Machine/Queues.lean ====
section
/-! DEFINITION. What the package sends to the host (R370, R372, R373), the host event ring (R379, R380), and the
hardware queue slots with their kicks and errors (R375 to R378). -/

namespace Sys2Proof.Machine

/-! ## Datagrams to the host -/

/-- The 12-byte nonce of R370. -/
def gcmNonce (dir stream : Nat) (seq : Nat) : List Byte :=
  [BitVec.ofNat 8 dir, BitVec.ofNat 8 stream, 0, 0] ++ leBytes 8 seq

/-- A datagram from the device, its body sealed for the protected types (R370). -/
def sealDatagram (key : List Byte) (d : Datagram) : Datagram :=
  if 4 ≤ d.type.toNat then
    { d with body := Config.gcmSeal key (gcmNonce 1 d.stream.toNat d.seq.toNat) (headerBytes d) d.body }
  else d

def emptyDatagram (src type session stream : Nat) (body : List Byte) : Datagram :=
  { src := src, ver := 1, type := BitVec.ofNat 8 type, session := BitVec.ofNat 16 session, stream := BitVec.ofNat 8 stream
    rsv1 := 0, seq := 0, ackseq := 0, len := BitVec.ofNat 32 body.length, rsv2 := 0, body := body }

def State.modSession (s : State) (n : Nat) (f : Session → Session) : State := { s with sessions := s.sessions.adjust n f }

def Session.stream (x : Session) (n : Nat) : HostStream := x.streams.get {} n
def Session.modStream (x : Session) (n : Nat) (f : HostStream → HostStream) : Session :=
  { x with streams := Tab.modify ({} : HostStream) x.streams n f }

/-- A DATA datagram goes out on a session's stream and waits for its acknowledgement (R372). -/
def sendData (session stream : Nat) (body : List Byte) (s : State) : State :=
  match s.sessions.find? session with
  | none => s
  | some x =>
    let st := x.stream stream
    let d := { emptyDatagram x.src 5 session stream body with
      seq := BitVec.ofNat 64 st.outSeq, ackseq := BitVec.ofNat 64 st.inSeq }
    let d := sealDatagram x.key d
    let s := s.modSession session (fun x => x.modStream stream (fun st =>
      { st with outSeq := st.outSeq + 1, unacked := st.unacked ++ [d] }))
    (transmit d s).push [.dataRetransmitTimeout session stream st.outSeq]

/-- An ACK datagram (R372). -/
def sendAck (session stream : Nat) (s : State) : State :=
  match s.sessions.find? session with
  | none => s
  | some x =>
    let st := x.stream stream
    let d := { emptyDatagram x.src 6 session stream [] with
      seq := BitVec.ofNat 64 st.outSeq, ackseq := BitVec.ofNat 64 st.inSeq }
    transmit (sealDatagram x.key d) s

def padTo8 (bs : List Byte) : List Byte := bs ++ List.replicate ((8 - bs.length % 8) % 8) 0

/-- A record of R373, padded. -/
def recordBytes (opc status detail : Nat) (tag : Dword) (payload : List Byte) : List Byte :=
  padTo8 (leBytes 2 opc ++ [BitVec.ofNat 8 status, BitVec.ofNat 8 detail] ++ leBytes 4 payload.length
    ++ leBytes 8 tag.toNat ++ payload)

/-- The one reply of a command (R367, R373). -/
def reply (c : Cmd) (opc status detail : Nat) (payload : List Byte) (s : State) : State :=
  sendData c.session c.stream (recordBytes (0x8000 + opc) status detail c.tag payload) s

def replyOk (c : Cmd) (opc : Nat) (payload : List Byte) (s : State) : State := reply c opc 0 0 payload s
def replyErr (c : Cmd) (opc code : Nat) (s : State) : State := reply c opc code 0 [] s

/-! ## Queue records (R375 to R377) -/

def State.queue (s : State) (die slot : Nat) : QueueRec := (s.die die).queues.get {} slot

/-- The number of a slot's replicas. -/
def replicaIndex (die slot : Nat) : Nat := 64 * die + slot

/-- One update of a record by its owner: every replica is invalidated, and then come the change and a new VERSION (R376). -/
def updateQueue (die slot : Nat) (f : QueueRec → QueueRec) (s : State) : State :=
  let s := { s with dies := s.dies.map (fun (d : Nat × Die) =>
    (d.1, { d.2 with replicas := d.2.replicas.erase (replicaIndex die slot) })) }
  s.modDie die (fun d =>
    let queues := Tab.modify ({} : QueueRec) d.queues slot (fun q => { f q with version := q.version + 1 })
    { d with queues := queues })

/-- A change that is no update in the sense of R376: the kick register and ERR. -/
def modQueue (die slot : Nat) (f : QueueRec → QueueRec) (s : State) : State :=
  s.modDie die (fun d => { d with queues := Tab.modify ({} : QueueRec) d.queues slot f })

/-- ERR takes an error of KIND 2 (R380). -/
def errTake (err : Dword) (code cidx : Nat) : Dword :=
  let first := (err.extractLsb' 0 8).toNat
  let cnt := (err.extractLsb' 32 16).toNat
  let ovf := (err.extractLsb' 48 16).toNat
  let ci := (err.extractLsb' 8 24).toNat
  BitVec.ofNat 64 (2 ^ 48 * ovf + 2 ^ 32 * (if cnt = 65535 then cnt else cnt + 1)
    + 2 ^ 8 * (if first = 0 then cidx % 2 ^ 24 else ci) + (if first = 0 then code else first))

/-- ERR counts an entry that was not written (R380). -/
def errOvf (err : Dword) : Dword :=
  let ovf := (err.extractLsb' 48 16).toNat
  if ovf = 65535 then err else err + BitVec.ofNat 64 (2 ^ 48)

/-- The slot that a context's user queue is bound to (R375). -/
def slotOf (s : State) (ctx qid : Nat) : Option (Nat × Nat) := ((s.context ctx).queues.find? qid).bind (·.slot)

def modUserQueue (ctx qid : Nat) (f : UserQueue → UserQueue) (s : State) : State :=
  s.modContext ctx (fun c => { c with queues := c.queues.adjust qid f })

/-- A queue's ERR changed: in its slot's record, or where it is kept while no slot holds the queue (R375, R380). -/
def modErr (ctx qid : Nat) (f : Dword → Dword) (s : State) : State :=
  match slotOf s ctx qid with
  | some (d, n) => modQueue d n (fun q => { q with err := f q.err }) s
  | none => modUserQueue ctx qid (fun u => { u with err := f u.err }) s

/-- An entry of R379. -/
structure RingEntry where
  kind : Nat
  code : Nat := 0
  qid : Nat := 0xFFFF
  cidx : Nat := 0
  arg : Nat := 0
deriving DecidableEq, Repr, Inhabited

/-- An entry's 32 bytes (R379). -/
def entryBytes (ctx time : Nat) (e : RingEntry) : List Byte :=
  [BitVec.ofNat 8 e.kind, BitVec.ofNat 8 e.code] ++ leBytes 2 ctx ++ leBytes 2 e.qid ++ leBytes 2 0
    ++ leBytes 8 e.cidx ++ leBytes 8 e.arg ++ leBytes 8 time

/-- The device writes an entry to a context's host event ring, or counts it in the queue's ERR word when the ring is
full or was never set (R379, R380). -/
def ringWrite (ctx : Nat) (e : RingEntry) (s : State) : State :=
  let c := s.context ctx
  match c.ringLog with
  | some (logn, session, stream) =>
    if c.ringWrite - c.ringRead < 2 ^ logn then
      let payload := leBytes 2 ctx ++ leBytes 6 0 ++ leBytes 8 c.ringWrite ++ entryBytes ctx s.clock e
      sendData session stream (recordBytes 0x8040 0 0 0 payload)
        (s.modContext ctx (fun c => { c with ringWrite := c.ringWrite + 1 }))
    else modErr ctx e.qid errOvf s
  | none => modErr ctx e.qid errOvf s

/-! ## The command guard (R369) -/

/-- The windows open on the command core that handles a slot's commands, core slot mod 4 of the die (log entry 113). -/
def coreWindows (s : State) (die slot : Nat) : List GuardWindow := (s.die die).guard.filter (fun w => w.slot % 4 = slot % 4)

/-- Firmware opens a window: one of the core's 32. -/
def openWindow (die : Nat) (s : State) (w : GuardWindow) : State :=
  let others := (s.die die).guard.filter (fun x => !(x.slot = w.slot && x.object = w.object))
  if 32 ≤ (others.filter (fun x => x.slot % 4 = w.slot % 4)).length then s
  else s.modDie die (fun d => { d with guard := others ++ [w] })

/-- The windows of a slot's command are closed. -/
def closeWindows (die slot : Nat) (s : State) : State :=
  s.modDie die (fun d => { d with guard := d.guard.filter (fun w => w.slot ≠ slot) })

/-- The core has windows for a slot's command: the 5 that one may need, beside those of the others that it handles. -/
def guardRoom (s : State) (die slot : Nat) : Bool :=
  ((coreWindows s die slot).filter (fun w => w.slot ≠ slot)).length + 5 ≤ 32

/-- A load or store of a command core: the object that it names, offset and bytes. -/
structure GuardAccess where
  object : GuardObject
  off : Nat := 0
  n : Nat
  store : Bool := false

/-- The check before an access for a slot's command: the base of the window, or none where it is a guard fault (R369). -/
def guardCheck (s : State) (die slot ctx : Nat) (a : GuardAccess) : Option Nat :=
  ((s.die die).guard.find? (fun w => w.slot = slot && w.object = a.object)).bind (fun w =>
    if a.off + a.n ≤ w.len && w.ctx = ctx && (if a.store then w.w else w.r) then some w.base else none)

/-- The guard lets all accesses of a command pass. -/
def guardPasses (s : State) (die slot ctx : Nat) (as : List GuardAccess) : Bool :=
  as.all (fun a => (guardCheck s die slot ctx a).isSome)

/-- A command error stops its queue (R377, R380). -/
def queueError (die slot code cidx : Nat) (s : State) : State :=
  let q := s.queue die slot
  let s := updateQueue die slot (fun q => { q with state := 2, busy := false, err := errTake q.err code cidx }) (closeWindows die slot s)
  ringWrite q.ctx { kind := 2, code := code, qid := q.qid, cidx := cidx } s

/-- A kick merges into a slot's kick register by maximum and the owner's dispatcher looks for commands (R377). -/
def mergeKick (die slot value : Nat) (s : State) : State :=
  let s := modQueue die slot (fun q => { q with kick := max q.kick value, last := s.tick }) s
  ({ s with tick := s.tick + 1 }).push [.queueCommandPull die slot]

/-- A QKICK at its slot's owner, checked (R342, R377): one from a context that the slot is not bound to is dropped and
counted. -/
def kickOwner (die slot value : Nat) (ours : Bool) (s : State) : State :=
  let q := s.queue die slot
  if ours then mergeKick die slot value s
  else
    let s := s.modDie die (fun d => { d with foreignKicks := d.foreignKicks + 1 })
    let p := s.fresh
    if q.state ≠ 0 then modQueue die slot (fun q => { q with err := errTake q.err 10 p.1 }) p.2 else s

/-- A QKICK that is checked against the record itself. -/
def kickSlot (die slot ctx value : Nat) (s : State) : State :=
  let q := s.queue die slot
  kickOwner die slot value (q.state ≠ 0 && q.ctx = ctx) s

/-- The replica that a die checks a kick against: one that is not valid is fetched from the owner first (R376). -/
def replicaOf (s : State) (at_ die slot : Nat) : Replica :=
  match (s.die at_).replicas.find? (replicaIndex die slot) with
  | some r => r
  | none => let q := s.queue die slot
    { version := q.version, bound := q.state ≠ 0, ctx := q.ctx }

def fetchReplica (at_ die slot : Nat) (s : State) : State :=
  s.modDie at_ (fun d => { d with replicas := d.replicas.set (replicaIndex die slot) (replicaOf s at_ die slot) })

/-- A QKICK reaches its slot's owner with the VERSION that it was checked against: one that is stale by now is checked again
(R376). -/
def checkedKick (die slot ctx value : Nat) (version : BitVec 16) (ours : Bool) (s : State) : State :=
  if version = (s.queue die slot).version then kickOwner die slot value ours s else kickSlot die slot ctx value s

end Sys2Proof.Machine
end

