-- ==== Sys2Proof/Machine/Events.lean ====
section
/-! DEFINITION. Event tables with their waiters (R330, R331) and the barriers of a team (R329, R336), as the
instructions of later files use them. -/

namespace Sys2Proof.Machine

/-! ## Waits that end -/

/-- A split that waits at its instruction for w has it done: it goes on at the next instruction. -/
def releaseSplit (r : SplitRef) (w : Wait) (s : State) : State :=
  s.modSplit r (fun sp =>
    if sp.wait = w then
      { sp with wait := .none, path := pcNext sp.path, settled := false, fresh := false, waitOnly := false }
    else sp)

/-! ## Events -/

/-- An event of the agenda is raised unless it stands there already. -/
def State.pushOnce (s : State) (e : Instr) : State := if s.agenda.contains e then s else s.push [e]

/-- R331. -/
def meets (c t : Word) : Bool := (c - t).toNat < 2 ^ 31

def State.event (s : State) (ctx e : Nat) : Event := (s.context ctx).events.get {} e

def modEvent (ctx e : Nat) (f : Event → Event) (s : State) : State :=
  s.modContext ctx (fun c => { c with events := Tab.modify ({} : Event) c.events e f })

/-- The dispatcher of a die translates in the name of its first core. -/
def dispatchCore (die : Nat) : Nat := 16 * die

/-- An event's 8 bytes of backing memory take what the table writes there when it evicts the event. The spec gives them no
layout, so they are contained results, and the machine keeps the event itself (R330, log entry 88). -/
def writeBacking (ctx e : Nat) (s : State) : State :=
  let va := (s.context ctx).backing + BitVec.ofNat 64 (8 * e)
  match translate s (dispatchCore (e % 4)) ctx .host true va 0 with
  | .error _ => s
  | .ok p =>
    if p.tr.node.isSome then s
    else
      let b := freeBytes 8 s
      quietWrite ⟨va.toNat, 8, p.pa, p.home, p.tr.home⟩ b.1 b.2

/-- Event e is used at its home table, which holds 4,096 and evicts the least recently used one (R330). -/
def touchEvent (ctx e : Nat) (s : State) : State :=
  let die := e % 4
  let rs := (s.die die).resident.filter (· ≠ (ctx, e)) ++ [(ctx, e)]
  let s := s.modDie die (fun d => { d with resident := rs.drop (rs.length - 4096) })
  (rs.take (rs.length - 4096)).foldl (fun s x => writeBacking x.1 x.2 s) s

/-! ## Version words (R345) -/

def verOf (w : Word) : Nat := (w.extractLsb' 0 15).toNat
def isFinal (w : Word) : Bool := w.getLsbD 15
def verWord (v : Nat) (final : Bool) : Word := BitVec.ofNat 32 (v % 2 ^ 15 + if final then 2 ^ 15 else 0)

/-! ## Consumers (R316, R350, R351) -/

/-- A wait condition is in force and names an event. -/
def WaitCond.names (w : WaitCond) (e : Nat) : Bool := w.mode ≠ 0 && w.event = e

def verAt (s : State) (ctx e : Nat) : Nat := verOf (s.event ctx e).count
def finalAt (s : State) (ctx e : Nat) : Bool := isFinal (s.event ctx e).count

/-- A condition holds as the event stands. -/
def condHolds (s : State) (ctx : Nat) (w : WaitCond) : Bool :=
  let ev := s.event ctx w.event
  match w.mode with
  | 0 => true
  | 3 => isFinal ev.count
  | _ => if ev.refinable then w.vmin.toNat ≤ verOf ev.count || isFinal ev.count else meets ev.count w.vmin

/-- The conditions of a launch whose mode is CHASE. -/
def chases (l : Launch) : List WaitCond := [l.desc.wait0, l.desc.wait1].filter (fun w => w.mode = 2)

/-- Some CHASE event has moved past the version fired on. -/
def newer (s : State) (l : Launch) : Bool :=
  (chases l).any (fun w => l.lastVer.get 0 w.event < verAt s l.ctx w.event)

/-- Every CHASE event is FINAL at the version fired on. -/
def onFinal (s : State) (l : Launch) : Bool :=
  (chases l).all (fun w => finalAt s l.ctx w.event && l.lastVer.get 0 w.event = verAt s l.ctx w.event)

/-- A met condition that stays met: a waiter released on a plain event (R316, R331). -/
def latches (s : State) (ctx : Nat) (w : WaitCond) : Bool := w.mode = 1 && !(s.event ctx w.event).refinable && condHolds s ctx w

/-- A launch with a FINAL condition fires again only while that holds too (R350). -/
def finalsHold (s : State) (l : Launch) : Bool :=
  [l.desc.wait0, l.desc.wait1].all (fun w => w.mode ≠ 3 || condHolds s l.ctx w)

/-- The launch enters DONE: it retires, and then leaves the count of its tree. -/
def finishLaunch (id : Nat) (s : State) : State := (s.modLaunch id (fun l => { l with state := .done })).push [.ownerRetire id]

/-- A launch's conditions are compared, by the home tables, with the words as they stand: one that waits or is idle is
released to fire, and an idle one that has run on the final versions is done (R350, R351). -/
def evalLaunch (id : Nat) (s : State) : State :=
  match s.launches.find? id with
  | none => s
  | some l =>
    if l.due then s
    else
      let met0 := l.met0 || latches s l.ctx l.desc.wait0
      let met1 := l.met1 || latches s l.ctx l.desc.wait1
      let release := fun (s : State) => (s.modLaunch id (fun l => { l with due := true })).push [.consumerFire id]
      let s := s.modLaunch id (fun l => { l with met0 := met0, met1 := met1 })
      match l.state with
      | .waiting =>
        if (met0 || condHolds s l.ctx l.desc.wait0) && (met1 || condHolds s l.ctx l.desc.wait1) then release s else s
      | .idle =>
        if newer s l && finalsHold s l then release s else if onFinal s l then finishLaunch id s else s
      | _ => s

/-- The launches of a context whose conditions name an event. -/
def watchers (s : State) (ctx e : Nat) : List Nat :=
  (s.launches.filter (fun l => l.2.ctx = ctx && !l.2.retired && (l.2.state = .waiting || l.2.state = .idle)
    && (l.2.desc.wait0.names e || l.2.desc.wait1.names e))).map (·.1)

/-! ## Changes to events -/

/-- The waiters of an event whose threshold its count meets are released, and the consumers that name it evaluated
(R331, R350). -/
def settleEvent (ctx e : Nat) (s : State) : State :=
  let ev := s.event ctx e
  let go := ev.waiters.filter (fun w => meets ev.count w.2)
  let s := modEvent ctx e (fun x => { x with waiters := x.waiters.filter (fun w => !meets x.count w.2) }) s
  let s := go.foldl (fun s w => releaseSplit w.1 (.event ctx e w.2) s) s
  (watchers s ctx e).foldl (fun s l => evalLaunch l s) s

/-- A change to an event's count at its home table. -/
def changeEvent (ctx e : Nat) (f : Event → Event) (s : State) : State := settleEvent ctx e (modEvent ctx e f (touchEvent ctx e s))

/-- A change to an ordinary event's count is under way to its home table. -/
def signalEvent (ctx e : Nat) (n : Word) (s : State) : State := s.push [.eventChangeApply ctx e n]

/-- EVENT_CHANGE_APPLY (R330, R338). A change under way when the event becomes refinable leaves its version word as it
is (R345). -/
def execEventChangeApply (ctx event : Nat) (n : Word) (s : State) : Out :=
  .next (changeEvent ctx event (fun e => { e with count := if e.refinable then e.count else e.count + n }) s)

/-- EVENT_WAITER_ENTRY (R339): the split goes on at once where the count meets its threshold. -/
def execEventWaiterEntry (r : SplitRef) (ctx event : Nat) (t : Word) (s : State) : Out :=
  match s.split? r with
  | none => .next s
  | some sp =>
    if sp.wait ≠ .event ctx event t then .next s
    else if meets (s.event ctx event).count t then .next (releaseSplit r (.event ctx event t) s)
    else .next (modEvent ctx event (fun e => { e with waiters := e.waiters ++ [(r, t)] }) (touchEvent ctx event s))

/-- A team's record of an event it has changed (R387): EVSIG adds, PUBV replaces. -/
def noteEvent (t e kind : Nat) (v : Word) (s : State) : State :=
  s.modTeam t (fun tm =>
    if tm.events.any (fun x => x.event = e && x.kind = kind) then
      { tm with events := tm.events.map (fun x =>
          if x.event = e && x.kind = kind then { x with value := if kind = 1 then x.value + v else v } else x) }
    else { tm with events := tm.events ++ [⟨e, kind, v⟩] })

/-! ## Barriers (R329) -/

/-- A warp that has arrived by some lane has arrived in full when no live lane is missing. -/
def arrivedInFull (b : Barrier) (w : Nat) (live : Mask) : Bool :=
  b.lmask.get 0 w ≠ 0 && live &&& ~~~ (b.lmask.get 0 w) = 0

/-- One warp's full arrival enters the phase. -/
def enterArrival (b : Barrier) (e : Nat × Warp) : Barrier :=
  if !b.amask.getLsbD e.1 && arrivedInFull b e.1 e.2.live then
    { b with cnt := b.cnt + 1, amask := b.amask ||| BitVec.ofNat 64 (2 ^ e.1), wph := b.wph.set e.1 b.ph }
  else b

/-- The phase is complete: EXP arrivals, or every warp that has a live lane. -/
def phaseComplete (b : Barrier) (ws : Tab Warp) : Bool :=
  if b.exp = 0 then b.cnt ≠ 0 && ws.all (fun e => e.2.live = 0 || b.amask.getLsbD e.1)
  else b.exp ≤ b.cnt

/-- The completion rule. -/
def evalBarrier (ws : Tab Warp) (b : Barrier) : Barrier :=
  let b := ws.foldl enterArrival b
  if phaseComplete b ws then { b with ph := b.ph + 1, cnt := 0, amask := 0, lmask := [] } else b

/-- A barrier of a team takes the completion rule, and splits that wait for a phase now complete go on. -/
def settleBarrier (t n : Nat) (s : State) : State :=
  match s.team? t with
  | none => s
  | some tm =>
    let old := tm.bars.get {} n
    let new := evalBarrier tm.warps old
    let s := s.modTeam t (fun tm => { tm with bars := tm.bars.set n new })
    if new.ph = old.ph then s
    else tm.warps.foldl (fun s w => w.2.splits.foldl (fun s sp =>
      releaseSplit ⟨t, w.1, sp.1⟩ (.barrier n old.ph) s) s) s

/-- Every barrier of a team, after an exit. -/
def settleBarriers (t : Nat) (s : State) : State :=
  match s.team? t with
  | none => s
  | some tm => tm.bars.keys.foldl (fun s n => settleBarrier t n s) s

end Sys2Proof.Machine
end

