-- ==== Sys2Proof/Machine/Sched.lean ====
section
/-! DEFINITION. Barriers, launches, events and device queues: opcodes 0x90 to 0x96 (R335 to R342), and the requests of
the device queues at their slices (R332, R333). -/

namespace Sys2Proof.Machine

/-! ## BAR (R336) -/

def barrierTrap (c : Cx) (s : State) : Out := trapAt c 5 1 0 0 0 s

def barNum (f : MF) : Nat := f.w.toNat % 16
def barExp (f : MF) : Nat := f.w.toNat / 16 % 128

/-- An arrival that R336 refuses. -/
def arriveBad (c : Cx) (b : Barrier) (n : Nat) : Bool :=
  (b.lmask.get 0 c.ref.warp &&& c.active ≠ 0) || (b.cnt ≠ 0 && n ≠ b.exp)
    || (n ≠ 0 && (n < b.cnt + 1 || c.launch.desc.warps < n))

/-- The arrival of the active lanes, and the completion rule. -/
def arrive (c : Cx) (k n : Nat) (s : State) : State :=
  let b := c.team.bars.get {} k
  let b := { b with
    exp := if b.cnt = 0 then n else b.exp, lmask := b.lmask.set c.ref.warp (b.lmask.get 0 c.ref.warp ||| c.active) }
  settleBarrier c.ref.team k (s.modTeam c.ref.team (fun t => { t with bars := t.bars.set k b }))

/-- The wait for the phase of the warp's last arrival, if it is not complete. -/
def barrierWait (c : Cx) (k : Nat) (sync : Bool) (s : State) : Out :=
  let b := ((s.team? c.ref.team).getD c.team).bars.get {} k
  match b.wph.find? c.ref.warp with
  | some ph =>
    if b.ph = ph then
      .next ((parkAt c (.barrier k ph) s).modSplit c.ref (fun sp => { sp with waitOnly := sync }))
    else .next (advance c s)
  | none => .next (advance c s)

def execBarArrive (f : MF) (s : State) : Out :=
  run (.barArrive f) s (fun c _ s =>
    if arriveBad c (c.team.bars.get {} (barNum f)) (barExp f) then barrierTrap c s
    else .next (advance c (arrive c (barNum f) (barExp f) s)))

def execBarWait (f : MF) (s : State) : Out := run (.barWait f) s (fun c _ s => barrierWait c (barNum f) false s)

/-- BAR.sync; once its arrival has taken effect only the wait is left (R391, R392). -/
def execBarSync (f : MF) (s : State) : Out :=
  run (.barSync f) s (fun c _ s =>
    if c.split.waitOnly then barrierWait c (barNum f) true s
    else if arriveBad c (c.team.bars.get {} (barNum f)) (barExp f) then barrierTrap c s
    else barrierWait c (barNum f) true (arrive c (barNum f) (barExp f) s))

/-! ## SPAWN (R337), EVSIG (R338), EVWAIT (R339) -/

/-- SPAWN: the record's address goes to the dispatcher of the core's die. -/
def execSpawn (f : MF) (s : State) : Out :=
  run (.spawn f) s (fun c _ s =>
    .next ((parkAt c .spawn s).push [.spawnRequest c.ref (readS c f.a.toNat)]))

/-- The event an instruction names, in W or in an s register (R335, R355). -/
def eventId (c : Cx) (f : MF) (inA : Bool) : Nat :=
  if inA then (readS c f.a.toNat).toNat % 65536 else f.w.toNat % 65536

def eventRangeTrap (c : Cx) (e : Nat) (s : State) : Out := trapAt c 5 3 (BitVec.ofNat 64 e) 0 0 s
def eventKindTrap (c : Cx) (e : Nat) (s : State) : Out := trapAt c 5 4 (BitVec.ofNat 64 e) 0 0 s

def execEvsig (f : MF) (s : State) : Out :=
  run (.evsig f) s (fun c _ s =>
    let e := eventId c f (f.fn = 1)
    let n := (readS c f.b.toNat).setWidth 32
    if (s.context c.ctx).evCount ≤ e then eventRangeTrap c e s
    else if (s.event c.ctx e).refinable then eventKindTrap c e s
    else .next (advance c (signalEvent c.ctx e n (noteEvent c.ref.team e 1 n s))))

def execEvwait (f : MF) (s : State) : Out :=
  run (.evwait f) s (fun c _ s =>
    let e := eventId c f (f.fn = 1)
    let t := (readS c f.b.toNat).setWidth 32
    if (s.context c.ctx).evCount ≤ e then eventRangeTrap c e s
    else .next ((parkAt c (.event c.ctx e t) s).push [.eventWaiterEntry c.ref c.ctx e t]))

/-! ## QPUSH and QPOP (R332, R333, R340, R341)

In such an operation the descriptor's place stands in its lane, the active lanes in bcast, the predicate in rm, and in
data: 0 granted, 1 index, 2 RING, 3 the exponent of the capacity, 4 whether LOGCAP was out of range. -/

/-- The lanes that disagree on a queue operand held in a pair (R335). -/
def queueDisagree (s : State) (c : Cx) (f : MF) : Mask :=
  if isVec f.a.toNat then disagree c.active (fun l => readD s c f.a.toNat l) else 0

/-- The checks of the descriptor at issue (R340). No packet of the fabric carries a queue's requests (R360), so there is
nothing to ask the owner of a REM page (R65): a descriptor on one faults as remote access (log entry 32). -/
def queueIssue (i : Instr) (f : MF) (mk : Cx → Op) (cls : List Nat) (s : State) : Out :=
  run i s (fun c m s =>
    let dis := queueDisagree s c f
    if dis ≠ 0 then trapAt c 5 5 0 dis 0 s
    else
      let va := readD s c f.a.toNat ((lowLane m).getD 0)
      withPages c [va] s (fun s =>
        match checkOne s c .atomic 64 va with
        | .error e => trapAt c 3 e.code e.addr 0 e.aux s
        | .ok p =>
          if p.tr.node.isSome then trapAt c 3 tRemote va 0 0 s
          else
            let part : Part := { line := p.pa / 128, home := p.home, homeField := p.tr.home }
            launchAndWait c
              { mk c with
                instr := i, pk := f.pk.toNat, produces := true, scope := f.sc.toNat, order := 1, bcast := c.active
                rm := f.w.toNat % 8, lanes := [{ lane := 0, va := va, pa := p.pa }], parts := [part] } cls
              (touchTlbs c.core c.ctx [va] s)))

def execQpush (f : MF) (s : State) : Out :=
  queueIssue (.qpush f) f (fun c => { kind := .qpush, regs := (seven f.b.toNat).map (readS c) }) [clsLS] s

def execQpop (f : MF) (s : State) : Out :=
  queueIssue (.qpop f) f (fun c =>
    { kind := .qpop, regs := (seven f.d.toNat).map (readS c), dests := (seven f.d.toNat).map (fun r => .s (r - 640)) })
    [clsLL] s

/-- The exponent of a queue's capacity: LOGCAP in range, a contained result otherwise (R332). -/
def queueCap (logcap : Nat) (s : State) : Nat × Bool × State :=
  if 1 ≤ logcap && logcap ≤ 20 then (logcap, false, s)
  else (s.fresh.1 % 21, true, s.fresh.2)

def boolD (b : Bool) : Dword := if b then 1 else 0

/-- A number of n bytes in a line. -/
def lineNum (d : LineData) (off n : Nat) : Nat := d.toNat / 2 ^ (8 * off) % 2 ^ (8 * n)

/-- A checked request of a device queue at its line (R333): refused, stopped by a memory error, or performed by k on the
line as its home slice gives it (R59). -/
def queueRequest (r : Req) (e : Instr) (s : State) (k : Op → Part → LineData → State → State) : Out :=
  request r e s (fun o p s =>
    atSliceWith p.ask e s (scopeRefusal r o p true) (fun s =>
      if poisoned s p.line then .next (memoryError r o p s)
      else
        let d := homeData p.home p.line (s.mem.line p.line) s
        .next (k o p d.1 d.2)))

/-- A reservation at the descriptor's line (R333): push compares against the capacity and takes TAIL, pop against 0 and
takes HEAD. -/
def reserve (push : Bool) (e : Instr) (id : Nat) (s : State) : Out :=
  queueRequest ⟨id, 0⟩ e s (fun o p d s =>
    let off := (o.lanes.headD {}).pa % 128
    let q := queueCap (lineNum d (off + 8) 4) s
    let head := lineNum d (off + 16) 8
    let tail := lineNum d (off + 24) 8
    let held := (tail + 2 ^ 64 - head) % 2 ^ 64
    let ok := if push then held < 2 ^ q.1 else 0 < held
    let i := if push then tail else head
    let s := scopeRecord o p true q.2.2
    let w := placeBytes (off + if push then 24 else 16) (leBytes 8 ((i + 1) % 2 ^ 64)) 0 0
    let s := if ok then writeLine p.home p.line w.1 w.2 s else s
    let data : Tab Dword := [(0, boolD ok), (1, BitVec.ofNat 64 i), (2, BitVec.ofNat 64 (lineNum d off 8)),
      (3, BitVec.ofNat 64 q.1), (4, boolD q.2.1)]
    partDone id 0 (fun p => p) (s.modOp id (fun o => { o with prog := 1, data := data })))

def execPushReservation (id : Nat) (s : State) : Out := reserve true (.pushReservation id) id s
def execPopReservation (id : Nat) (s : State) : Out := reserve false (.popReservation id) id s

/-- A conditional request whose condition does not hold: held, or returned to its core where 64 are held (R333). -/
def holdRequest (home : Nat) (e : Instr) (r : Req) (s : State) : State :=
  if (s.slice home).held.length < 64 then s.modSlice home (fun sl => { sl with held := sl.held ++ [e] })
  else ((s.modPart r.op r.part (fun p => { p with sent := false })).endTrip r).push [.heldRequestResend r.op]

/-- The eight words of a record, or contained results in their place where LOGCAP was out of range (R332). -/
def recordWords (bad : Bool) (ws : List Dword) (s : State) : List Dword × State :=
  if bad then ((List.range 8).map (fun k => BitVec.ofNat 64 (Config.freeValue (s.free + k))), { s with free := s.free + 8 })
  else (ws, s)

/-- A record's request at its line: the push write once SEQ is the index, the pop read once SEQ is one more (R333). -/
def recordRequest (push : Bool) (e : Instr) (id : Nat) (s : State) : Out :=
  queueRequest ⟨id, 1⟩ e s (fun o p d s =>
    let off := o.eng % 128
    let i := (o.data.get 0 1).toNat
    let bad := o.data.get 0 4 = 1
    let old := (List.range 7).map (fun k => BitVec.ofNat 64 (lineNum d (off + 8 * k) 8))
    if lineNum d (off + 56) 8 ≠ (if push then i else (i + 1) % 2 ^ 64) then holdRequest p.home e ⟨id, 1⟩ s
    else
      let seq := if push then i + 1 else i + 2 ^ (o.data.get 0 3).toNat
      let new := recordWords bad ((if push then o.regs else old) ++ [BitVec.ofNat 64 seq]) (scopeRecord o p true s)
      let from_ := if push || bad then 0 else 7
      let w := placeBytes (off + 8 * from_) ((new.1.drop from_).flatMap (fun x => leBytes 8 x.toNat)) 0 0
      let s := writeLine p.home p.line w.1 w.2 new.2
      let got := recordWords bad old s
      let s := if push then s
        else got.2.modOp id (fun o => { o with data := got.1.zipIdx.map (fun x => (x.2, x.1)) })
      partDone id 1 (fun p => p) s)

/-- The address of the record that a granted reservation names (R332). -/
def recordVaddr (o : Op) : Dword :=
  o.data.get 0 2 + BitVec.ofNat 64 (64 * ((o.data.get 0 1).toNat % 2 ^ (o.data.get 0 3).toNat))

/-- The record's page is translated and checked before its request is made (R340). -/
def recordPlace (e : Instr) (id : Nat) (o : Op) (s : State) : Out :=
  let va := recordVaddr o
  withPins e (.core o.core) o.core o.ctx [va] s (fun s =>
    let r := translateFor s e o.core o.ctx .atomic false va
    let s := unpin e s
    match r with
    | .error f => .next (faultOp id 3 f.code va 0 f.aux s)
    | .ok p =>
      if p.tr.node.isSome then .next (faultOp id 3 tRemote va 0 0 s)
      else
        let part : Part := { line := p.pa / 128, home := p.home, homeField := p.tr.home }
        .next ((touchTlb o.core o.ctx va (s.modOp id (fun o =>
          { o with prog := 2, eng := p.pa, parts := o.parts ++ [part] }))).push [e]))

/-- A record's event: its page first, then its request. -/
def recordEvent (push : Bool) (e : Instr) (id : Nat) (s : State) : Out :=
  withOp id s (fun o s => if o.parts.length = 1 then recordPlace e id o s else recordRequest push e id s)

def execPushWrite (id : Nat) (s : State) : Out := recordEvent true (.pushWrite id) id s
def execPopRead (id : Nat) (s : State) : Out := recordEvent false (.popRead id) id s

/-- What a record's event needs before its request stands. -/
def recordPlan (o : Op) : Plan := { who := .core o.core, core := o.core, ctx := o.ctx, vas := [recordVaddr o] }

/-- HELD_REQUEST_RESEND (R333): the core sends a returned request again. -/
def execHeldRequestResend (id : Nat) (s : State) : Out :=
  withPart ⟨id, 1⟩ s (fun o p s => .next (if p.sent || p.done then s else s.push [partEvent o id 1 p]))

/-- After a granted reservation the record's request is made (R340). -/
def recordIssue (id : Nat) (o : Op) (s : State) : State :=
  if (recordVaddr o).toNat % 64 ≠ 0 then faultOp id 3 tMisaligned (recordVaddr o) 0 0 s
  else s.push [if o.kind = .qpush then .pushWrite id else .popRead id]

/-! ## QKICK (R342) -/

/-- QKICK: a kick of this package is checked against the issuing die's replica and carries its VERSION to the owner (R376). -/
def execQkick (f : MF) (s : State) : Out :=
  run (.qkick f) s (fun c _ s =>
    let a := readS c f.a.toNat
    let tail := readS c f.b.toNat
    let node := a.extractLsb' 48 16
    let die := (a.extractLsb' 8 2).toNat
    let slot := (a.extractLsb' 0 6).toNat
    if a.extractLsb' 10 38 ≠ 0 || a.extractLsb' 6 2 ≠ 0 then illegalOperand c s
    else
      let o : Op := { kind := .kick, instr := .qkick f, regs := [BitVec.ofNat 64 die, BitVec.ofNat 64 slot, tail] }
      if node = s.nodeId.getD 0 then
        let r := replicaOf s (coreDie c.core) die slot
        launchOp c { o with
          val := r.version.setWidth 64, order := if r.bound && r.ctx = c.ctx then 1 else 0, parts := [{ line := 0, l1 := true }] }
          [] (fetchReplica (coreDie c.core) die slot s)
      else launchOp c { o with parts := [{ line := 0, rem := some node }] } [] s)

/-- A kick of this package reaches its slot's owner (R376, R377). -/
def kickArrives (id : Nat) (o : Op) (s : State) : State :=
  checkedKick (o.regs.getD 0 0).toNat (o.regs.getD 1 0).toNat o.ctx (o.regs.getD 2 0).toNat (o.val.setWidth 16) (o.order = 1)
    (s.dropOp id)

end Sys2Proof.Machine
end

