-- ==== Sys2Proof/Machine/Refine.lean ====
section
/-! DEFINITION. Versioned results: opcodes 0x97 to 0x99 and their requests at the event tables (R345 to R349, R352,
R355), and the end of a warp's lanes that an exit shares with EXIT (R310). -/

namespace Sys2Proof.Machine

/-! ## The end of lanes -/

/-- The lanes of a warp that exit are told to the reflector slice of a paired team (R266). -/
def exitNotices (w : WarpRef) (m : Mask) (s : State) : State :=
  match (s.team? w.team).bind (fun t => s.launches.find? t.launch) with
  | none => s
  | some l => if l.desc.paired then s.push ((lanesOf m).map (fun k => .laneExitNotice w k)) else s

/-- Every lane of a warp ends (R310). -/
def endWarp (w : WarpRef) (s : State) : State :=
  match s.warp? w with
  | none => s
  | some wp =>
    if wp.ended then s
    else
      let s := exitNotices w wp.live s
      (s.modWarp w (fun wp => { wp with live := 0, splits := [], ended := true })).push [.warpRelease w]

/-- Each live lane of each warp of a team ends as by EXIT (R352, R389). -/
def exitTeam (t : Nat) (s : State) : State :=
  match s.team? t with
  | none => s
  | some tm => tm.warps.foldl (fun s w => endWarp ⟨t, w.1⟩ s) s

/-! ## PUBV, STOPREF, VCHK -/

/-- The checks of an event id by PUBV, STOPREF and VCHK (R355). -/
def withRefinable (c : Cx) (f : MF) (s : State) (k : Nat → State → Out) : Out :=
  let e := eventId c f (f.fn.getLsbD 1)
  if (s.context c.ctx).evCount ≤ e then eventRangeTrap c e s
  else if !(s.event c.ctx e).refinable then eventKindTrap c e s
  else k e s

/-- PUBV (R347). -/
def pubvOp (i : Instr) (f : MF) (final : Bool) (s : State) : Out :=
  run i s (fun c _ s =>
    withRefinable c f s (fun e s =>
      let v := (readS c f.b.toNat).toNat
      if v = 0 || 2 ^ 15 ≤ v then trapAt c 5 6 (BitVec.ofNat 64 e) 0 0 s
      else
        let p := startOp c
          { kind := .pubv, instr := i, pk := f.pk.toNat, produces := true, scope := f.sc.toNat, val := BitVec.ofNat 64 v
            prog := e, order := if final then 1 else 0, bcast := c.active, rm := f.w.toNat / 65536 % 8 } [clsLS] s
        .next ((issueAndWait c (.reply p.1) p.2).push [.pubvApply p.1])))

def execPubv (f : MF) (s : State) : Out := pubvOp (.pubv f) f false s
def execPubvFinal (f : MF) (s : State) : Out := pubvOp (.pubvFinal f) f true s

/-- PUBV_APPLY (R347): at the event's home table, in its order. -/
def execPubvApply (id : Nat) (s : State) : Out :=
  withOp id s (fun o s =>
    let e := o.prog
    let ev := s.event o.ctx e
    let v := o.val.toNat
    match s.team? o.ref.team with
    | none => .next (s.dropOp id)
    | some t =>
      if ev.owner ≠ some t.launch then .next (faultOp id 5 7 (BitVec.ofNat 64 e) 0 0 s)
      else if isFinal ev.count || v ≤ verOf ev.count then .next (faultOp id 5 8 (BitVec.ofNat 64 e) 0 0 s)
      else
        let s := changeEvent o.ctx e (fun x => { x with count := verWord v (o.order = 1 || x.stop) }) s
        let s := noteEvent o.ref.team e 2 (BitVec.ofNat 32 v) s
        .next ((s.modOp id (fun o => { o with data := o.data.set 0 (boolD ev.stop) })).push [.replyArrival ⟨id, 0⟩]))

/-- STOPREF (R349). -/
def execStopref (f : MF) (s : State) : Out :=
  run (.stopref f) s (fun c _ s =>
    withRefinable c f s (fun e s => .next (advance c (s.push [.stoprefApply c.ctx e]))))

/-- STOPREF_APPLY. -/
def execStoprefApply (ctx event : Nat) (s : State) : Out :=
  .next (modEvent ctx event (fun e => if isFinal e.count then e else { e with stop := true }) (touchEvent ctx event s))

/-- VCHK (R352). -/
def vchkOp (i : Instr) (f : MF) (x : Bool) (s : State) : Out :=
  run i s (fun c _ s =>
    withRefinable c f s (fun e s =>
      let p := startOp c
        { kind := .vchk, instr := i, prog := e, order := if x then 1 else 0, bcast := c.active
          rm := f.w.toNat / 65536 % 8 } [] s
      .next ((issueAndWait c (.reply p.1) p.2).push [.vchkRead p.1])))

def execVchk (f : MF) (s : State) : Out := vchkOp (.vchk f) f false s
def execVchkX (f : MF) (s : State) : Out := vchkOp (.vchkX f) f true s

/-- The version that a launch's condition on an event fired on (R352). -/
def firedOn (l : Launch) (e : Nat) : Nat :=
  if l.desc.wait0.names e then verOf l.fired
  else if l.desc.wait1.names e then (l.fired.extractLsb' 16 15).toNat else 0

/-- VCHK_READ: the word read at its home table. -/
def execVchkRead (id : Nat) (s : State) : Out :=
  withOp id s (fun o s =>
    match (s.team? o.ref.team).bind (fun t => s.launches.find? t.launch) with
    | none => .next (s.dropOp id)
    | some l =>
      let s := touchEvent o.ctx o.prog s
      let n := decide (firedOn l o.prog < verOf (s.event o.ctx o.prog).count)
      .next ((s.modOp id (fun o => { o with data := o.data.set 0 (boolD n) })).push [.replyArrival ⟨id, 0⟩]))

/-- A team exit by VCHK.X begins: the broadcast is that of a halt, to which it yields (R352, R383). -/
def beginExit (r : SplitRef) (s : State) : State :=
  match s.team? r.team with
  | none => s
  | some tm =>
    let s := s.modSplit r (fun sp => { sp with vexit := true })
    if tm.status = .running then
      (s.modTeam r.team (fun tm => { tm with status := .raised, vexit := true })).push [.teamHalt r.team]
    else s

end Sys2Proof.Machine
end

