-- ==== Sys2Proof/Machine/ImageBase.lean ====
section
/-! DEFINITION. Reading and writing context images (R77, R388 to R391), the key block (R105), and the image write by
which a reply or completion reaches a saved warp (R89, R104). -/

namespace Sys2Proof.Machine

/-! ## Image accesses: a page that does not translate as R388 asks loses writes and reads as contained results -/

def imgPhys (s : State) (core ctx : Nat) (va : Dword) : Option Phys :=
  match translate s core ctx .image false va 0 with
  | .ok p => if p.tr.node.isSome then none else some p
  | .error _ => none

/-- The request for the 16 KiB block at an address of an image, under the translations that an event has (R77); none where
the page does not translate as R388 asks. -/
def blockStop (s : State) (e : Instr) (core ctx : Nat) (va : Dword) : Option Stop :=
  match translateFor s e core ctx .image false va with
  | .ok p => if p.tr.node.isSome then none else some ⟨p.home, p.pa / 16384 * 128, 128⟩
  | .error _ => none

def blockStops (s : State) (e : Instr) (core ctx : Nat) (vas : List Dword) : List Stop :=
  (vas.filterMap (blockStop s e core ctx)).dedup

/-- The first byte of the block of an address. -/
def blockBase (va : Dword) : Dword := va &&& 0xFFFFFFFFFFFFC000

/-- The blocks that n bytes at an address lie in. -/
def blocksOf (va : Dword) (n : Nat) : List Dword :=
  (List.range ((va.toNat % 16384 + n + 16383) / 16384)).map (fun k => blockBase va + BitVec.ofNat 64 (16384 * k))

/-- Bytes written at a place of a block. -/
structure Edit where
  off : Nat
  bytes : List Byte
deriving DecidableEq, Repr

/-- The lines of a block that some writes concern. -/
def editLines (es : List Edit) : List Nat :=
  (es.flatMap (fun e => if e.bytes.isEmpty then [] else
    (List.range ((e.off + e.bytes.length + 127) / 128 - e.off / 128)).map (fun k => e.off / 128 + k))).dedup

/-- What some writes put into line k of their block, the last one on top. -/
def editLine (es : List Edit) (k : Nat) : LineData × ByteMask :=
  es.foldl (fun p e =>
    let lo := max e.off (128 * k)
    let hi := min (e.off + e.bytes.length) (128 * k + 128)
    if hi ≤ lo then p else placeBytes (lo - 128 * k) ((e.bytes.drop (lo - e.off)).take (hi - lo)) p.1 p.2) (0, 0)

/-- Some writes would keep a part of a poisoned line (R58). -/
def editRefused (first : Nat) (es : List Edit) (s : State) : Bool :=
  (editLines es).any (fun k => poisoned s (first + k) && (editLine es k).2 ≠ BitVec.allOnes 128)

/-- Writes to a block, whose first line is given, as one request at its home slice: each line changes once (R86). A line that
the request may not write in part, being poisoned, stays (R58). -/
def writeBlock (home first : Nat) (es : List Edit) (s : State) : State :=
  (editLines es).foldl (fun s k =>
    let d := editLine es k
    if poisoned s (first + k) && d.2 ≠ BitVec.allOnes 128 then s else writeLine home (first + k) d.1 d.2 s) s

/-- The bytes of a block's lines as the home slice gives them; of a poisoned line they are contained results, as they are
where another team has held the block too (R58, R388). The lines not asked for are left out as zeros. -/
def blockBytes (t : Trip) (ks : List Nat) (shared : Bool) (s : State) : List Byte × State :=
  (List.range 128).foldl (fun r k =>
    if !ks.contains k then (r.1 ++ List.replicate 128 0, r.2)
    else
      let p : List Byte × State :=
        if shared || poisoned r.2 (t.line + k) then freeBytes 128 r.2
        else
          let d := homeData t.home (t.line + k) (r.2.mem.line (t.line + k)) r.2
          ((List.range 128).map (lineByte d.1), d.2)
      (r.1 ++ p.1, p.2)) ([], s)

/-- A request for lines of a block has its turn at each of them, and acts on all at one position (R85, R89). -/
def atBlock (e : Instr) (t : Trip) (ks : List Nat) (s : State) (k : State → Out) : Out :=
  atSlices false e (ks.map (fun i => (t.home, t.line + i))) s k

/-- A part of an image: its address, its length, and its bytes. -/
structure Region where
  va : Dword
  n : Nat
  bytes : Unit → List Byte

/-- The blocks of some parts of an image. -/
def regionBlocks (rs : List Region) : List Dword := (rs.flatMap (fun r => blocksOf r.va r.n)).dedup

/-- What some parts of an image put into the block at an address. -/
def regionEdits (rs : List Region) (b : Dword) : List Edit :=
  rs.filterMap (fun r =>
    let lo := max r.va.toNat b.toNat
    let hi := min (r.va.toNat + r.n) (b.toNat + 16384)
    if hi ≤ lo then none else some ⟨lo - b.toNat, ((r.bytes ()).drop (lo - r.va.toNat)).take (hi - lo)⟩)

/-- An event writes parts of an image, one request a block, with what follows from it at the same position; what a lost page
or a poisoned line refuses is lost (R58, R388, log entry 102). -/
def writeRegions (e : Instr) (q : Requester) (core ctx : Nat) (rs : List Region) (after : Dword → State → State) (s : State)
    (done : State → Out) : Out :=
  let bs := regionBlocks rs
  withPins e q core ctx bs s (fun s =>
    journey e q (blockStops s e core ctx bs)
      (fun t s =>
        let own := bs.filter (fun b => blockStop s e core ctx b = some t.stop)
        let es := own.flatMap (regionEdits rs)
        atBlock e t (editLines es) s (fun s =>
          .next (returned t (fun x => x) (own.foldl (fun s b => after b s) (writeBlock t.home t.line es s)))))
      (fun _ s => done (unpin e s)) s)

/-- An event reads parts of an image, one request a block, which also writes some parts of the block. -/
def readRegions (e : Instr) (q : Requester) (core ctx : Nat) (rs : List (Dword × Nat)) (shared : Bool) (ws : List Region)
    (s : State) (done : List Trip → State → Out) : Out :=
  let bs := (rs.flatMap (fun r => blocksOf r.1 r.2)).dedup
  withPins e q core ctx bs s (fun s =>
    journey e q (blockStops s e core ctx bs)
      (fun t s =>
        let own := bs.filter (fun b => blockStop s e core ctx b = some t.stop)
        let es := own.flatMap (regionEdits ws)
        let ks := (own.flatMap (fun b =>
          (List.range 128).filter (fun k => rs.any (fun r =>
            r.1.toNat < b.toNat + 128 * k + 128 && b.toNat + 128 * k < r.1.toNat + r.2)))).dedup
        atBlock e t ks s (fun s =>
          let p := blockBytes t ks shared s
          .next (returned t (fun x => { x with bytes := p.1, bad := ks.any (fun k => poisoned s (t.line + k)) })
            (writeBlock t.home t.line es p.2))))
      done s)

/-- n bytes at an address of an image in what an event's replies have brought; those of a lost page are contained results. -/
def fetched (e : Instr) (ts : List Trip) (core ctx : Nat) (va : Dword) (n : Nat) (s : State) : List Byte × State :=
  (blocksOf va n).foldl (fun r b =>
    let lo := max va.toNat b.toNat
    let k := min (va.toNat + n) (b.toNat + 16384) - lo
    match (blockStop s e core ctx b).bind (tripFor ts) with
    | some t => (r.1 ++ (t.bytes.drop (lo - b.toNat)).take k, r.2)
    | none =>
      let f := freeBytes k r.2
      (r.1 ++ f.1, f.2)) ([], s)

/-- What an event that reads or writes parts of an image needs. -/
def regionPlan (s : State) (e : Instr) (q : Requester) (core ctx : Nat) (rs : List (Dword × Nat)) : Plan :=
  let bs := (rs.flatMap (fun r => blocksOf r.1 r.2)).dedup
  { who := q, core := core, ctx := ctx, vas := bs, stops := blockStops s e core ctx bs }

/-! ## Places in a warp's image (R390, R391) -/

def ctlBlock (w : Warp) (off : Nat) : Dword := w.imageBase + BitVec.ofNat 64 (0x4000 + off)

/-- The image address of lane 0 of a row, and of the word of full bits that covers it. -/
def rowPlace (w : Warp) (r : Nat) : Dword := w.imageBase + BitVec.ofNat 64 (0x8000 + 16384 * (r / 63) + 256 * (r % 63))
def rowFulls (w : Warp) (r : Nat) : Dword := w.imageBase + BitVec.ofNat 64 (0x8000 + 16384 * (r / 63) + 16128)

/-! ## The key block (R105) -/

/-- The place of an early completion in a count's mask (R105). One further ahead than the mask reaches waits in its reply
table, and has no place there (R96). -/
def earlyPlace (c : Count) (n : BitVec 16) : Nat := (n - c.lead - 2).toNat

def earlyMask (c : Count) : Nat :=
  (c.early.filter (fun n => earlyPlace c n < 64)).foldl (fun m n => Nat.lor m (2 ^ earlyPlace c n)) 0

def keyBlockBytes (w : Warp) : List Byte :=
  let ks := List.range 16
  let xs := List.range 7
  ks.flatMap (fun k => ks.flatMap (fun j => leBytes 2 ((w.key k).t.get 0 j).toNat))
    ++ ks.flatMap (fun k => leBytes 2 (w.key k).p.toNat)
    ++ ks.flatMap (fun k => allScopes.flatMap (fun sc => leBytes 2 ((w.key k).lead sc).toNat))
    ++ ks.flatMap (fun k => leBytes 4 (w.key k).l.toNat)
    ++ ks.flatMap (fun k => leBytes 4 (w.key k).stat.toNat)
    ++ ks.flatMap (fun k => allScopes.flatMap (fun sc => leBytes 8 (earlyMask ((w.key k).c.get {} sc))))
    ++ xs.flatMap (fun x => leBytes 2 (w.cls x).q.toNat) ++ leBytes 2 0
    ++ xs.flatMap (fun x => allScopes.flatMap (fun sc => leBytes 2 ((w.cls x).lead sc).toNat)) ++ leBytes 10 0
    ++ xs.flatMap (fun x => allScopes.flatMap (fun sc => leBytes 8 (earlyMask ((w.cls x).d.get {} sc)))) ++ leBytes 8 0
    ++ (List.range 4).flatMap (fun i => match w.fences.find? i with
        | some f =>
          [BitVec.ofNat 8 (1 + 2 * f.scope), f.pred.setWidth 8, f.succ.setWidth 8, 0]
            ++ xs.flatMap (fun x => leBytes 2 (f.n.get 0 x).toNat) ++ leBytes 14 0
        | none => leBytes 32 0)
    ++ leBytes 64 0

/-- A count as the block gives it: the leading count and the mask of completions after it. Those of the last productions, up to
number last, that waited in the reply tables because they are further ahead than the mask reaches still do. -/
def countOf (lead mask : Nat) (last : BitVec 16) (old : Count) : Count :=
  let l := BitVec.ofNat 16 lead
  let c : Count := ⟨l, ((List.range 64).filter (fun i => mask / 2 ^ i % 2 = 1)).map (fun i => l + BitVec.ofNat 16 (i + 2))⟩
  { c with early := c.early ++ old.early.filter (fun n => 64 ≤ earlyPlace c n && (n - l).toNat ≤ (last - l).toNat) }

/-- A warp's key state from its block; the codes of completions held ahead of the count are no part of the block. -/
def loadKeyBlock (bs : List Byte) (w : Warp) : Warp :=
  let g := fun (o n : Nat) => leNat ((bs.drop o).take n)
  let key := fun (k : Nat) =>
    ({ p := BitVec.ofNat 16 (g (0x200 + 2 * k) 2)
       c := allScopes.map (fun sc => (sc, countOf (g (0x220 + 10 * k + 2 * sc) 2) (g (0x340 + 40 * k + 8 * sc) 8)
         (BitVec.ofNat 16 (g (0x200 + 2 * k) 2)) ((w.key k).c.get {} sc)))
       t := (List.range 16).map (fun j => (j, BitVec.ofNat 16 (g (32 * k + 2 * j) 2)))
       l := BitVec.ofNat 32 (g (0x2C0 + 4 * k) 4), stat := BitVec.ofNat 32 (g (0x300 + 4 * k) 4)
       codes := (w.key k).codes } : Key)
  let cls := fun (x : Nat) =>
    ({ q := BitVec.ofNat 16 (g (0x5C0 + 2 * x) 2)
       d := allScopes.map (fun sc => (sc, countOf (g (0x5D0 + 10 * x + 2 * sc) 2) (g (0x620 + 40 * x + 8 * sc) 8)
         (BitVec.ofNat 16 (g (0x5C0 + 2 * x) 2)) ((w.cls x).d.get {} sc))) }
      : FClass)
  let fence := fun (i : Nat) =>
    let h := g (0x740 + 32 * i) 1
    if h % 2 = 1 then
      some (i, ({ scope := h / 2 % 8, pred := BitVec.ofNat 7 (g (0x741 + 32 * i) 1), succ := BitVec.ofNat 7 (g (0x742 + 32 * i) 1)
                  n := (List.range 7).map (fun x => (x, BitVec.ofNat 16 (g (0x744 + 32 * i + 2 * x) 2))) } : FenceSlot))
    else none
  { w with
    keys := (List.range 16).map (fun k => (k, key k)), classes := (List.range 7).map (fun x => (x, cls x))
    fences := (List.range 4).filterMap fence }

/-! ## What a saved team's fault record still takes -/

def zeros (n : Nat) : List Byte := List.replicate n 0

/-- bs cut or padded to n bytes. -/
def fit (n : Nat) (bs : List Byte) : List Byte := bs.take n ++ zeros (n - bs.length)

/-- The first byte of a team's image. -/
def headerVa (tm : Team) : Dword := (tm.warps.get {} 0).imageBase - 0x10000

def recordVa (tm : Team) : Dword := headerVa tm + 0x100

def indetBytes (i : Indet) : List Byte :=
  leBytes 2 i.node.toNat ++ [BitVec.ofNat 8 i.op, BitVec.ofNat 8 i.fn, BitVec.ofNat 8 i.ty, BitVec.ofNat 8 i.pk,
    BitVec.ofNat 8 i.lane, 0] ++ leBytes 8 i.pa ++ leBytes 8 i.b.toNat ++ leBytes 8 i.c.toNat

/-- The indeterminate entries of a team, in warp order (R387). -/
def Team.indets (tm : Team) : List Indet := tm.warps.flatMap (fun e => e.2.indet)

/-- The first 64 entries of an indeterminate-outcome list (R387). -/
def indetList (is : List Indet) : List Byte := fit 2048 ((is.take 64).flatMap indetBytes)

/-- The first 64 event entries of a team (R387). -/
def eventBytes (tm : Team) : List Byte :=
  fit 1024 ((tm.events.take 64).flatMap (fun e =>
    leBytes 2 e.event ++ [BitVec.ofNat 8 e.kind] ++ zeros 5 ++ leBytes 4 e.value.toNat ++ zeros 4))

/-! ## Image writes (R89, R104) -/

/-- What a register block of a saved warp takes from a finished operation: the values of its destinations there, and their
saved full bits, but for a row that is still to be refilled (R299). -/
def rowEdits (ring : Nat) (o : Op) (w : Warp) (b : Nat) (t : Trip) (s : State) : List Edit :=
  let from_ := (o.lanes.head?.map (·.lane)).getD 0
  let pairs := if o.bcast = 0 then o.lanes.map (fun a => (a.lane, a.lane)) else (lanesOf o.bcast).map (fun l => (l, from_))
  let rows := o.dests.zipIdx.filterMap (fun e => match e.1 with
    | .row k => if k / 63 = b then some (k, e.2) else none
    | .s _ => none)
  let fulls := (rows.filter (fun r => !w.refilling ring r.1)).foldl (fun n r => Nat.lor n (2 ^ (r.1 % 63)))
    (s.mem.nat (128 * t.line + 16128) 8)
  rows.flatMap (fun r => pairs.map (fun a =>
      (⟨256 * (r.1 % 63) + 4 * a.1, leBytes 4 (o.data.get 0 (8 * a.2 + r.2)).toNat⟩ : Edit)))
    ++ [⟨16128, leBytes 8 fulls⟩]

/-- The register blocks of a finished operation's destinations. -/
def rowBlocks (o : Op) : List Nat :=
  (o.dests.filterMap (fun p => match p with
    | .row k => some (k / 63)
    | .s _ => none)).dedup

/-- The scalar destinations of a finished operation, with their places among all. -/
def scalarDests (o : Op) : List (Nat × Nat) :=
  o.dests.zipIdx.filterMap (fun e => match e.1 with
    | .s n => some (n, e.2)
    | .row _ => none)

/-- The warp's key state once its saved block, of these bytes, has taken the completions that an operation owes it (R104). -/
def keysAfter (o : Op) (w : Warp) (block : List Byte) : Warp :=
  ((loadKeyBlock block w).complete o.pk o.prodn (if o.readDone then o.cls.filter (fun x => x.1 ≠ clsCR) else o.cls) o.owed
    o.code).freeFences

/-- OUTSTANDING counts an operation that is over, or has failed, no longer. -/
def leavesCount (o : Op) : Bool := !o.counted && (o.doneWide || o.fault.isSome)

/-- What the control block takes: scalar destinations, a predicate, completions, OUTSTANDING, and the indeterminate outcomes
(R89, R104, R391). -/
def ctlEdits (listed : Bool) (o : Op) (w : Warp) (t : Trip) (s : State) : List Edit :=
  let at_ := fun (off n : Nat) => s.mem.nat (128 * t.line + off) n
  let ss := if o.doneWide then scalarDests o else []
  (if ss.isEmpty then [] else
    ss.map (fun e => (⟨8 * e.1, leBytes 8 (o.data.get 0 e.2).toNat⟩ : Edit))
      ++ [⟨0x200, leBytes 8 (ss.foldl (fun n e => Nat.lor n (2 ^ e.1)) (at_ 0x200 8))⟩])
    ++ (match o.owedPred with
      | some v => if o.rm = 0 then [] else
        let old := BitVec.ofNat 64 (at_ (0x220 + 8 * (o.rm - 1)) 8)
        [⟨0x220 + 8 * (o.rm - 1), leBytes 8 ((old &&& ~~~ o.bcast) ||| (if v then o.bcast else 0)).toNat⟩]
      | none => [])
    ++ (if o.produces && !o.owed.isEmpty then
        [⟨0x400, keyBlockBytes (keysAfter o w (s.mem.read (128 * t.line + 0x400) 2048))⟩] else [])
    ++ (if leavesCount o && !listed then [⟨0x20C, leBytes 4 (at_ 0x20C 4 - 1)⟩] else [])
    ++ (if w.indet.isEmpty then [] else [⟨0x1C00, indetList w.indet⟩])

/-- What the control block has taken is owed no longer; a completion held ahead of its count stands in the key state (R96). -/
def ctlTaken (id : Nat) (o : Op) (block : List Byte) (s : State) : State :=
  let s := if o.produces && !o.owed.isEmpty then
      s.modWarp (warpOf o.ref) (fun x =>
        let k := keysAfter o x block
        { x with keys := k.keys, classes := k.classes })
    else s
  s.modOp id (fun x => { x with owed := [], owedPred := none, counted := x.counted || leavesCount o })

/-- The image refuses an operation's reply: a line of it is poisoned (R58). The fault is the operation's; its result is kept
for the restore to hand over. -/
def imageRefuses (id line : Nat) (o : Op) (s : State) : State :=
  if o.fault.isSome then s.modOp id (fun x => { x with owed := [], owedPred := none, counted := true })
  else
    faultOp id 3 tMemory (lineAddr line) 0 0 (s.modOp id (fun x => { x with
      kept := x.doneWide, doneWide := false, doneCore := x.doneCore && !x.owed.contains 0, owed := [] }))

/-- The counts of one key as the census gives them (R385). -/
def censusKey (w : Warp) (k : Nat) : List Byte :=
  leBytes 2 (w.key k).p.toNat ++ allScopes.flatMap (fun sc => leBytes 2 ((w.key k).lead sc).toNat)

/-- The parts of a saved team's header that follow what its operations in flight still do: the census of the key that an
operation of warp w has completed on, and the lists of events and indeterminate outcomes (R193, R354, R385); old is OVF as it
stands. -/
def listRegions (o : Op) (w : Warp) (tm : Team) (old : Nat) : List Region :=
  let ovf := old % 2 + (if 64 < tm.events.length then 2 else 0) + (if 64 < tm.indets.length then 4 else 0)
  (if o.produces then
    [⟨recordVa tm + BitVec.ofNat 64 (0x1040 + 192 * o.ref.warp + 12 * o.pk), 12, fun _ => censusKey w o.pk⟩] else [])
    ++ if tm.events.isEmpty && tm.indets.isEmpty then [] else
    [⟨recordVa tm + 0x22, 4, fun _ => leBytes 2 (min 64 tm.events.length) ++ leBytes 2 (min 64 tm.indets.length)⟩,
      ⟨recordVa tm + 0x27, 1, fun _ => leBytes 1 ovf⟩,
      ⟨recordVa tm + 0x6040, 3072, fun _ => eventBytes tm ++ indetList tm.indets⟩]

/-- A finished operation's requests to the register blocks of its destinations (R89). -/
def rowStops (s : State) (e : Instr) (o : Op) (w : Warp) : List Stop :=
  if o.doneWide then blockStops s e w.core o.ctx ((rowBlocks o).map (fun b => rowPlace w (63 * b))) else []

/-- Requests that have to be performed before others of the same event are made: they are all there are, until they have been
answered, and none refused. -/
def afterStops (ts : List Trip) (first rest : List Stop) : List Stop :=
  if !allBack ts first || ts.any (fun t => first.contains t.stop && t.bad) then first else (first ++ rest).dedup

/-- The requests of an operation's image write: the register blocks first, then the control block, and then the parts of the
header that follow it (R89, R104, R385). -/
def imageStops (s : State) (e : Instr) (o : Op) (w : Warp) (tm : Team) : List Stop :=
  let ts := s.tripsOf e
  afterStops ts (afterStops ts (rowStops s e o w) (blockStops s e w.core o.ctx [ctlBlock w 0]))
    (blockStops s e w.core o.ctx (regionBlocks (listRegions o w tm 0)))

/-- The addresses whose translations an image write needs. -/
def imageVas (o : Op) (w : Warp) (tm : Team) : List Dword :=
  ctlBlock w 0 :: (rowBlocks o).map (fun b => rowPlace w (63 * b)) ++ regionBlocks (listRegions o w tm 0)

/-- One request of an image write at its home slice: the register block, control block or header block that it is for. -/
def imageLook (id : Nat) (e : Instr) (o : Op) (w : Warp) (tm : Team) (ring : Nat) (t : Trip) (s : State) : Out :=
  let at_ := fun (va : Dword) => blockStop s e w.core o.ctx va = some t.stop
  let put := fun (es : List Edit) (after : State → State) =>
    atBlock e t (editLines es) s (fun s =>
      if editRefused t.line es s then .next (returned t (fun x => { x with bad := true }) s)
      else .next (returned t (fun x => x) (after (writeBlock t.home t.line es s))))
  match (rowBlocks o).find? (fun b => o.doneWide && at_ (rowPlace w (63 * b))) with
  | some b => put (rowEdits ring o w b t s) (fun s => s)
  | none =>
    if at_ (ctlBlock w 0) then
      put (ctlEdits (tm.incs.contains id) o w t s) (ctlTaken id o (s.mem.read (128 * t.line + 0x400) 2048))
    else
      let rs := listRegions o w tm (s.mem.nat (128 * t.line + 0x127) 1)
      put (((regionBlocks rs).filter at_).flatMap (regionEdits rs)) (fun s => s)

/-- Every reply of an image write has come: an operation that is over leaves, one that has failed joins the image's incomplete
operations, and one that the image has refused fails. What a lost page does not take is lost (R388). -/
def imageDone (id : Nat) (o : Op) (ts : List Trip) (lost : Bool) (s : State) : State :=
  match ts.find? (·.bad) with
  | some t => imageRefuses id t.line o s
  | none =>
    let gone := o.counted || lost
    let s := if lost then s.modOp id (fun x => { x with owed := [], owedPred := none, counted := true }) else s
    if o.doneWide && gone then (wakeReply id o s).dropOp id
    else if o.fault.isSome && gone then s.modTeam o.ref.team (fun t =>
        { t with incs := if t.incs.contains id then t.incs else t.incs ++ [id] })
    else s

/-- The image of an operation's warp is being written: what the operation owes it waits (R392). -/
def imageWaits (s : State) (o : Op) : Bool := (s.team? o.ref.team).any (fun tm => tm.status = .saving)

/-- IMAGE_WRITE (R89, R104). -/
def execImageWrite (id : Nat) (s : State) : Out :=
  let e : Instr := .imageWrite id
  match s.ops.find? id with
  | none => .next (forget e s)
  | some o =>
    match s.warp? (warpOf o.ref), s.team? o.ref.team with
    | some w, some tm =>
      if imageWaits s o then .next (s.push [e])
      else
        let q : Requester := .core o.core
        withPins e q w.core o.ctx (imageVas o w tm) s (fun s =>
          journey e q (imageStops s e o w tm) (imageLook id e o w tm (ringOf s (warpOf o.ref)))
            (fun ts s => .next (imageDone id o ts (blockStop s e w.core o.ctx (ctlBlock w 0)).isNone (unpin e s))) s)
    | _, _ => .next ((forget e s).dropOp id)

end Sys2Proof.Machine
end

