-- ==== Sys2Proof/Machine/Lockets.lean ====
section
/-! DEFINITION. Lockets and signets: opcodes 0x80 to 0x84 and KSEND (R77, R87, R113, R208 to R222), and the steps of an
anchor slice that apply their requests. -/

namespace Sys2Proof.Machine

/-! ## Signets (R211 to R213) -/

def sigAddr (g : BitVec 128) : Nat := (g.extractLsb' 0 48).toNat
def sigNode (g : BitVec 128) : BitVec 16 := g.extractLsb' 48 16
def sigMac (g : BitVec 128) : BitVec 32 := g.extractLsb' 64 32
def sigWrites (g : BitVec 128) : Bool := g.getLsbD 96
def sigTokens (g : BitVec 128) : Bool := g.getLsbD 97
def sigWidth (g : BitVec 128) : Nat := (g.extractLsb' 98 2).toNat
def sigLatest (g : BitVec 128) : Bool := g.getLsbD 100
def sigPlcy (g : BitVec 128) : Nat := (g.extractLsb' 101 2).toNat
def sigCtx (g : BitVec 128) : Nat := (g.extractLsb' 104 16).toNat
def sigGen (g : BitVec 128) : BitVec 8 := g.extractLsb' 120 8

/-- The customisation string of R212. -/
def macCustom : List Byte := "XN7240 signet".toList.map (fun ch => BitVec.ofNat 8 ch.toNat)

/-- The MAC of a signet's bits [63:0] and [127:96] (R212). -/
def macOf (s : State) (g : BitVec 128) : BitVec 32 :=
  BitVec.ofNat 32 (leNat (kmac128 (leBytes 32 s.secret.toNat)
    (leBytes 8 (g.extractLsb' 0 64).toNat ++ leBytes 4 (g.extractLsb' 96 32).toNat) 4 macCustom))

/-- A warp width's code (R211). -/
def widthCode (lanes : Nat) : Nat := if lanes = 16 then 0 else if lanes = 32 then 1 else 2

/-- The lanes of a width code. -/
def widthLanes (code : Nat) : Nat := 16 * 2 ^ code

/-- R213: the signet's context lives in the generation it names. -/
def sigLive (s : State) (g : BitVec 128) : Bool :=
  (s.context (sigCtx g)).live && (s.context (sigCtx g)).gen = sigGen g

/-- The base of the locket area that a signet names (R210, R214). -/
def sigBase (g : BitVec 128) : Nat := sigAddr g / 16384 * 16384

/-- The locket's number in its area. -/
def sigLocket (g : BitVec 128) : Nat := sigAddr g % 16384 / 256 % 32

/-- R214: the anchor slice; a reserved PLCY goes by the owning die. -/
def anchorSlice (g : BitVec 128) : Nat :=
  homeSlice (sigBase g) (if sigPlcy g = 3 then 0 else sigPlcy g) true

/-- The part of an operation that carries its signet to the anchor slice, over the fabric if NODE names another node. -/
def anchorPart (s : State) (g : BitVec 128) : Part :=
  { line := sigBase g / 128, home := anchorSlice g, ctxPage := true, homeField := sigPlcy g
    rem := if sigNode g = s.nodeId.getD 0 then none else some (sigNode g) }

/-! ## The anchor slice (R209, R214, R215) -/

/-- The residency record of a locket area. -/
def resRecord (s : State) (home ctx base : Nat) : Option ResRec :=
  (s.slice home).res.find? (fun r => r.ctx = ctx && r.base = base)

/-- The line of a locket area's word of saved full bits. -/
def fullsLine (base : Nat) : Nat := base / 128 + 64

/-- The lockets of an area that are full: by its record's mask, or by the word in the image (R209). -/
def fullMask (s : State) (home ctx base : Nat) : BitVec 32 :=
  match resRecord s home ctx base with
  | some r => r.mask
  | none => BitVec.ofNat 32 (s.mem.nat (base + 8192) 4)

/-- The word of saved full bits as the anchor slice reads it in its turn: contained results where its line has two homes
(R59). -/
def savedFulls (home base : Nat) (s : State) : BitVec 32 × State :=
  let d := homeData home (fullsLine base) (s.mem.line (fullsLine base)) s
  (d.1.setWidth 32, d.2)

/-- A record's mask takes a new value (R209). -/
def setRecordMask (home ctx base : Nat) (m : BitVec 32) (s : State) : State :=
  s.modSlice home (fun sl =>
    { sl with res := sl.res.map (fun r => if r.ctx = ctx && r.base = base then { r with mask := m } else r) })

/-- A request about lockets has its turn: where the warp is resident, or the request is refused without a look at the area,
at the line of the word of saved bits, which it leaves as it is; else at that line and some others of the area together, which
it writes as one request (R85, R215). -/
def anchorTurn (e : Instr) (home base : Nat) (ks : List Nat) (look : Bool) (s : State) (k : State → Out) : Out :=
  if look then atSlices false e ((64 :: ks).map (fun i => (home, base / 128 + i))) s k
  else
    atSliceWith { home := home, line := fullsLine base, rcl := false, hold := false, note := false } e
      (ks.foldl (fun s i => purgeLine (fun x => x = e) home (base / 128 + i) s) s) (fun _ => none) k

/-- R113: the narrowest scope that holds both a sending core and the target's core; none is a sender on another node. -/
def reachOf (sender : Option Nat) (r : Option ResRec) : Nat :=
  match sender, r with
  | none, _ => 4
  | some _, none => 3
  | some c, some r =>
    if c = r.core then 0 else if c / 2 = r.core / 2 then 1 else if c / 16 = r.core / 16 then 2 else 3

/-- A request for a locket of another warp, as its anchor slice sees it: width of the sender and lanes written of an RWR
or RWRB, scope of a KSEND; RWRB names no width. -/
structure LocketReq where
  sig : BitVec 128
  width : Option Nat := none
  scope : Option Nat := none
  sender : Option Nat := none
  lmask : Mask := 0
  values : List Word := []
deriving DecidableEq, Repr, Inhabited

/-- The tests of SignetVerify that do not look at the locket, in their order (R214). -/
def signetCode (s : State) (q : LocketReq) : Nat :=
  let g := q.sig
  if sigPlcy g = 3 || sigWidth g = 3 || macOf s g ≠ sigMac g then 1
  else if !sigLive s g then 2
  else if q.width.any (fun w => widthCode w ≠ sigWidth g) then 4
  else if q.scope.any (fun sc => sc < reachOf q.sender (resRecord s (anchorSlice g) (sigCtx g) (sigBase g))) then 5
  else 0

/-- A STRICT signet does not reach a full locket (R214). -/
def strictlyFull (g : BitVec 128) (m : BitVec 32) : Bool := !sigLatest g && m.getLsbD (sigLocket g)

/-- SignetVerify of R214. -/
def verifySignet (s : State) (q : LocketReq) : Nat :=
  let g := q.sig
  if signetCode s q ≠ 0 then signetCode s q
  else if strictlyFull g (fullMask s (anchorSlice g) (sigCtx g) (sigBase g)) then 3
  else 0

/-- What a request writes into a saved locket area: its values and the locket's full bit (R214). -/
def locketEdits (q : LocketReq) (m : BitVec 32) : List Edit :=
  ((lanesOf q.lmask).zip q.values).map (fun e => (⟨256 * sigLocket q.sig + 4 * e.1, leBytes 4 e.2.toNat⟩ : Edit))
    ++ [⟨8192, leBytes 4 (m ||| BitVec.ofNat 32 (2 ^ sigLocket q.sig)).toNat⟩]

/-- A saved warp that is still to write its lockets into the image writes them beneath this value. -/
def noteLate (q : LocketReq) (s : State) : State :=
  s.teams.foldl (fun s t => t.2.warps.foldl (fun s w =>
    if t.2.status = .saving && w.2.anchor = some (anchorSlice q.sig, sigBase q.sig) && !w.2.flushed then
      s.modWarp ⟨t.1, w.1⟩ (fun x => { x with late := x.late ++ [(sigLocket q.sig, q.lmask, q.values)] })
    else s) s) s

/-- Apply of R214: a delivery to a resident warp, which is on its way from now on, or a write into its image. -/
def applySignet (q : LocketReq) (s : State) : State :=
  let g := q.sig
  let home := anchorSlice g
  match resRecord s home (sigCtx g) (sigBase g) with
  | some r =>
    (setRecordMask home (sigCtx g) (sigBase g) (r.mask ||| BitVec.ofNat 32 (2 ^ sigLocket g)) s).push
      [.locketDelivery r.warp (sigLocket g) q.lmask q.values]
  | none =>
    let m := savedFulls home (sigBase g) s
    noteLate q (writeBlock home (sigBase g / 128) (locketEdits q m.1) m.2)

/-- A line of a block that some writes may not write in part, being poisoned (R58). -/
def refusedLine (first : Nat) (es : List Edit) (s : State) : Nat :=
  first + ((editLines es).find? (fun k => poisoned s (first + k) && (editLine es k).2 ≠ BitVec.allOnes 128)).getD 0

/-- One request at the anchor slice, in its turn: done has its code; bad has a poisoned line of a saved area that the request
would consume (R58, R87, R214). -/
def locketTurn (e : Instr) (q : LocketReq) (s : State) (done : Nat → State → Out) (bad : Nat → State → Out) : Out :=
  let g := q.sig
  let home := anchorSlice g
  let base := sigBase g
  let code := signetCode s q
  let look := code = 0 && (resRecord s home (sigCtx g) base).isNone
  anchorTurn e home base [2 * sigLocket g, 2 * sigLocket g + 1] look s (fun s =>
    if code ≠ 0 then done code s
    else if look && editRefused (base / 128) (locketEdits q 0) s then bad (refusedLine (base / 128) (locketEdits q 0) s) s
    else
      let m := if look then savedFulls home base s else (fullMask s home (sigCtx g) base, s)
      if strictlyFull g m.1 then done 3 m.2 else done 0 (applySignet q s))

/-- The lanes that RWRB writes: those of the signet's width (R220). -/
def bcastMask (g : BitVec 128) : Mask := firstLanes (widthLanes (sigWidth g))

/-- What an RWR, RWRB or KSEND operation asks of the anchor slice. An RWRB is marked by order 1. -/
def reqOfOp (o : Op) : LocketReq :=
  let g := sigOf o
  match o.kind with
  | .ksend =>
    { sig := g, scope := some o.scope, sender := some o.core, lmask := bcastMask g
      values := (lanesOf (bcastMask g)).map (fun _ => 1) }
  | _ =>
    if o.order = 1 then
      { sig := g, lmask := bcastMask g, values := (lanesOf (bcastMask g)).map (fun _ => o.val.setWidth 32) }
    else
      { sig := g, width := some o.size, lmask := (o.lanes.map (fun a => laneBit a.lane)).foldl (· ||| ·) 0
        values := o.lanes.map (fun a => a.b.setWidth 32) }

/-- The reply to a sender: its production's code and, in a status form, its status register's value (R103, R214). -/
def replyCode (id code : Nat) (s : State) : State :=
  partDone id 0 (fun p => p)
    (s.modOp id (fun o => { o with code := code, data := o.data.set 0 (BitVec.ofNat 64 code) }))

/-- A request for an anchor slice meets a memory error at a line of the area (R58). -/
def areaError (op : Nat) (o : Op) (line : Nat) (s : State) : State :=
  refuseAt ⟨op, 0⟩ 3 tMemory (lineAddr line) ((o.lanes.map (accLanes o)).foldl (· ||| ·) 0) 0 s

/-- A lane operation's request to an anchor slice: its reply has the code, or a memory error (R58). -/
def locketOp (op : Nat) (e : Instr) (s : State) : Out :=
  request ⟨op, 0⟩ e s (fun o _ s =>
    locketTurn e (reqOfOp o) s (fun code s => .next (replyCode op code s)) (fun line s => .next (areaError op o line s)))

/-- REMOTE_WRITE_APPLY (R214). -/
def execRemoteWriteApply (op : Nat) (s : State) : Out := locketOp op (.remoteWriteApply op) s

/-- TOKEN_APPLY (R113, R214). -/
def execTokenApply (op : Nat) (s : State) : Out := locketOp op (.tokenApply op) s

/-- LOCKET_DELIVERY (R82, R207, R214): the lanes and the full bit in one write. -/
def execLocketDelivery (w : WarpRef) (j : Nat) (m : Mask) (values : List Word) (s : State) : Out :=
  match (s.team? w.team).bind (fun t => s.launches.find? t.launch) with
  | none => .next s
  | some l =>
    let f := fun (n : Nat) => Tab.get 0 ((lanesOf m).zip values) n
    .next (writeRow w (l.desc.ring + 96 + j) m f s)

/-! ## RWR, RWRB and KSEND -/

/-- The signet that an instruction names in s(A) and s(A + 1). -/
def readSignet (c : Cx) (f : MF) : BitVec 128 := readS c (f.a.toNat + 1) ++ readS c f.a.toNat

/-- The signet-permission trap (R113, R220). -/
def signetTrap (c : Cx) (s : State) : Out := trapAt c 4 8 0 0 0 s

def execRwr (f : MF) (s : State) : Out :=
  run (.rwr f) s (fun c m s =>
    let g := readSignet c f
    if !sigWrites g then signetTrap c s
    else launchOp c
      { kind := .rwr, instr := .rwr f, pk := f.pk.toNat, produces := true, scope := f.sc.toNat
        regs := [readS c f.a.toNat, readS c (f.a.toNat + 1)], size := c.lanes
        lanes := (lanesOf m).map (fun l => { lane := l, b := (readW s c f.b.toNat l).setWidth 64 })
        dests := (statDst f).map c.preg, parts := [anchorPart s g] } [clsAT] s)

def execRwrb (f : MF) (s : State) : Out :=
  run (.rwrb f) s (fun c m s =>
    let g := readSignet c f
    if !sigWrites g then signetTrap c s
    else
      let v := (readW s c f.b.toNat ((lowLane m).getD 0)).setWidth 64
      launchOp c
        { kind := .rwr, instr := .rwrb f, pk := f.pk.toNat, produces := true, scope := f.sc.toNat, order := 1
          regs := [readS c f.a.toNat, readS c (f.a.toNat + 1)], val := v, size := c.lanes
          lanes := (lanesOf (bcastMask g)).map (fun l => { lane := l, b := v })
          dests := (statDst f).map c.preg, parts := [anchorPart s g] } [clsAT] s)

/-- KSEND (R113): the tracker holds the token; the split runs on. -/
def execKsend (f : MF) (s : State) : Out :=
  run (.ksend f) s (fun c _ s =>
    let g := readSignet c f
    if 16 ≤ c.warp.tokens.length then .next (stall c s)
    else if !sigTokens g then signetTrap c s
    else
      let p := startOp c
        { kind := .ksend, instr := .ksend f, pk := f.pk.toNat, produces := true, scope := f.sc.toNat
          regs := [readS c f.a.toNat, readS c (f.a.toNat + 1)]
          dests := (statDst f).map c.preg, parts := [anchorPart s g] } [clsAT] s
      let s := p.2.modWarp c.wref (fun w => { w with tokens := w.tokens ++ [⟨p.1, f.ck.toNat, f.sc.toNat⟩] })
      .next (advance c (s.push [.ksendTokenSend p.1])))

/-- A held token whose consume key is satisfied, or promotes a line (R100, R113). -/
def tokenReady (s : State) (op : Nat) : Bool :=
  match s.ops.find? op with
  | none => true
  | some o => match s.warp? (warpOf o.ref) with
    | none => true
    | some w => match w.tokens.find? (fun t => t.op = op) with
      | none => true
      | some t => w.satisfied (ringOf s (warpOf o.ref)) t.key t.scope
        || t.scope ≠ 0 && (s.core w.core).l1.any (fun l => (l.state = .dty || l.state = .uo)
          && (w.unmet t.key t.scope).any (fun j => 1 ≤ j && l.kmask.getLsbD (j - 1)))

/-- KSEND_TOKEN_SEND (R113): once the consume key is satisfied the token leaves; while it waits, its key is promoted. -/
def execKsendTokenSend (op : Nat) (s : State) : Out :=
  withOp op s (fun o s =>
    match s.warp? (warpOf o.ref) with
    | some w =>
      match w.tokens.find? (fun t => t.op = op) with
      | none => .next s
      | some t =>
        if w.satisfied (ringOf s (warpOf o.ref)) t.key t.scope then
          .next (sendParts op (s.modWarp (warpOf o.ref) (fun w => { w with tokens := w.tokens.filter (fun t => t.op ≠ op) })))
        else
          let s := if t.scope = 0 then s else promote w.core (w.unmet t.key t.scope) [] s
          .next (s.push [.ksendTokenSend op])
    | none => .next s)

/-! ## MINT, EMPTY and FULLQ -/

/-- The request of a MINT to the anchor slice of the area that its page holds. -/
def mintPart (p : Phys) : Part :=
  let pol := (effPolicy p.pa p.tr.home).getD 0
  let base := p.pa / 16384 * 16384
  { line := base / 128, home := homeSlice base pol true, ctxPage := true, homeField := pol }

/-- The request of an EMPTY to the slice that holds its warp's record. -/
def emptyPart (a : Nat × Nat) : Part := { line := a.2 / 128, home := a.1, ctxPage := true }

/-- MINT (R219). It executes once: the lane mask of its fault names lane 0, the model's choice where R219 names none (log
entry 101). -/
def execMint (f : MF) (s : State) : Out :=
  run (.mint f) s (fun c _ s =>
    let va := c.warp.imageBase + BitVec.ofNat 64 (256 * (f.b.toNat - 608))
    withPages c [va] s (fun s =>
      match checkOne s c .mint 4 va with
      | .error e => trapAt c 3 e.code e.addr e.mask e.aux s
      | .ok p =>
        launchOp c
          { kind := .mint, instr := .mint f, size := c.lanes, fn := f.w.toNat % 8
            dests := [.s (f.d.toNat - 640), .s (f.d.toNat + 1 - 640)]
            lanes := [{ lane := 0, va := va, pa := p.pa }]
            parts := [mintPart p] }
          [] (touchTlbs c.core c.ctx [va] s)))

/-- The signet of a MINT (R219). -/
def mintSignet (s : State) (o : Op) : BitVec 128 :=
  let a := (o.lanes.headD {}).pa
  let pol := (o.parts.headD {}).homeField
  let ctl := (if o.fn % 2 = 1 then 1 else 0) + (if o.fn / 2 % 2 = 1 then 2 else 0) + 4 * widthCode o.size
    + (if o.fn / 4 % 2 = 1 then 16 else 0) + 32 * pol + 256 * o.ctx + 2 ^ 24 * (s.context o.ctx).gen.toNat
  let g := BitVec.ofNat 128 (a + 2 ^ 48 * (s.nodeId.getD 0).toNat + 2 ^ 96 * ctl)
  g ||| BitVec.ofNat 128 (2 ^ 64 * (macOf s g).toNat)

/-- MINT_REQUEST_APPLY (R212, R219): the slice, which holds the secret, forms the signet. -/
def execMintRequestApply (op : Nat) (s : State) : Out :=
  request ⟨op, 0⟩ (.mintRequestApply op) s (fun o _ s =>
    let g := mintSignet s o
    .next (partDone op 0 (fun p => p)
      (s.modOp op (fun o => { o with data := (o.data.set 0 (g.extractLsb' 0 64)).set 1 (g.extractLsb' 64 64) }))))

/-- The anchor slice that holds a resident warp's record, and the base of its locket area (R87). -/
def anchorOf (s : State) (w : WarpRef) : Option (Nat × Nat) :=
  (s.slices.filterMap (fun e => (e.2.res.find? (fun r => r.warp = w)).map (fun r => (e.1, r.base)))).head?

/-- EMPTY of the lockets in a mask (R221). -/
def emptyOp (i : Instr) (c : Cx) (m : Nat) (s : State) : Out :=
  if m = 0 then .next (advance c s)
  else
    let part := (anchorOf s c.wref).map emptyPart
    let p := startOp c { kind := .empty, instr := i, val := BitVec.ofNat 64 m, parts := part.toList } [] s
    .next (issueAndWait c (.reply p.1) (sendOrReply p.1 p.2))

def execEmpty (f : MF) (s : State) : Out :=
  run (.empty f) s (fun c _ s => emptyOp (.empty f) c (2 ^ (f.b.toNat - 608)) s)

def execEmptyMask (f : MF) (s : State) : Out :=
  run (.emptyMask f) s (fun c _ s =>
    let m := (readS c f.b.toNat).toNat % 2 ^ 32
    if m / 2 ^ (c.globals - 96) ≠ 0 then illegalOperand c s else emptyOp (.emptyMask f) c m s)

/-- EMPTY_REQUEST_APPLY (R209, R221): the record's mask, or the saved word of a warp that has none, loses the bits. -/
def execEmptyRequestApply (op : Nat) (s : State) : Out :=
  request ⟨op, 0⟩ (.emptyRequestApply op) s (fun o p s =>
    let base := 128 * p.line
    let look := (resRecord s p.home o.ctx base).isNone
    anchorTurn (.emptyRequestApply op) p.home base [] look s (fun s =>
      let less := fun (m : BitVec 32) => m &&& ~~~ (o.val.setWidth 32)
      if look then
        if poisoned s (fullsLine base) then .next (areaError op o (fullsLine base) s)
        else
          let m := savedFulls p.home base s
          .next (partDone op 0 (fun p => p) (writeBlock p.home p.line [⟨8192, leBytes 4 (less m.1).toNat⟩] m.2))
      else .next (partDone op 0 (fun p => p) (setRecordMask p.home o.ctx base (less (fullMask s p.home o.ctx base)) s))))

/-- FULLQ (R222). -/
def execFullq (f : MF) (s : State) : Out :=
  run (.fullq f) s (fun c m s =>
    let b := f.b.toNat
    let v := isSpecial b || c.warp.full (c.preg b)
    .next (advance c (writePred c.wref (f.w.toNat % 8) m (if v then BitVec.allOnes 64 else 0) s)))

end Sys2Proof.Machine
end

