-- ==== Sys2Proof/WellFormed.lean ====
section
/-! DEFINITION. When an instruction is well formed: its fields pass every check that raises the illegal-instruction
trap (R45, R40), and the form its FN names is the constructor's own. An event has no word and is always well formed. -/

namespace Sys2Proof

/-- The instruction is one that a legal word names, or an event. -/
def Instr.wellFormed (i : Instr) : Bool :=
  match Machine.encodingCheck i with
  | .ok _ => true
  | .error _ => false

/-- The instruction is a Herjo instruction, with a word, and no event. -/
def Instr.isWord (i : Instr) : Bool := (Machine.fieldsOf i).isSome

end Sys2Proof
end

