-- ==== Sys2Proof/Decode.lean ====
section
/-! DEFINITION. The decoder from a 96-bit word to an instruction, and the encoder beside it (R25, R28, R31, R35, R37,
R38). Decoding is total: a word that is no instruction is refused with the reason's name, and the machine raises the
illegal-instruction trap for it. -/

namespace Sys2Proof

open Sys2Proof.Machine

/-- The field of w of width n that starts at bit lo. -/
def fieldAt (w : InstrWord) (lo n : Nat) : BitVec n := w.extractLsb' lo n

/-- The guard fields (R28). -/
def guardOf (w : InstrWord) : Guard := { pi := fieldAt w 14 3, pn := w.getLsbD 17, rj := w.getLsbD 18 }

/-- Format V's fields (R31). -/
def vfOf (w : InstrWord) : VF :=
  { g := guardOf w, fn := fieldAt w 8 6, ty := fieldAt w 19 4, d := fieldAt w 23 10, a := fieldAt w 33 10,
    b := fieldAt w 43 10, c := fieldAt w 53 10, bk := fieldAt w 63 2, fa := w.getLsbD 65, fb := w.getLsbD 66,
    fc := w.getLsbD 67, rm := fieldAt w 68 3, sat := w.getLsbD 71, mod := fieldAt w 72 4, w := fieldAt w 76 20 }

/-- Format M's fields (R35). -/
def mfOf (w : InstrWord) : MF :=
  { g := guardOf w, fn := fieldAt w 8 6, ty := fieldAt w 19 4, d := fieldAt w 23 10, a := fieldAt w 33 10,
    b := fieldAt w 43 10, pk := fieldAt w 53 4, ck := fieldAt w 57 4, sc := fieldAt w 61 3, ord := fieldAt w 64 2,
    sp := fieldAt w 66 2, fa := w.getLsbD 68, fb := w.getLsbD 69, ch := fieldAt w 70 2, w := fieldAt w 76 20 }

/-- Format C's fields (R37). -/
def cfOf (w : InstrWord) : CF :=
  { g := guardOf w, fn := fieldAt w 8 6, d := fieldAt w 23 10, a := fieldAt w 33 10, b := fieldAt w 43 10,
    j := fieldAt w 56 20, t := fieldAt w 76 20 }

/-- Format X's fields (R38). -/
def xfOf (w : InstrWord) : XF :=
  { g := guardOf w, fn := fieldAt w 8 6, ac := fieldAt w 23 3, aslot := fieldAt w 26 5, wslot := fieldAt w 31 5,
    mr := fieldAt w 36 4, fw := fieldAt w 40 10, pk := fieldAt w 50 4, ck := fieldAt w 54 4, acc := w.getLsbD 58 }

/-- The fields of a word, none for an opcode of R48. -/
def wordFields (w : InstrWord) : Option Fields :=
  let op := (fieldAt w 0 8).toNat
  match formatOf op with
  | some .v => some (.v op (vfOf w))
  | some .m => some (.m op (mfOf w))
  | some .c => some (.c op (cfOf w))
  | some .x => some (.x (xfOf w))
  | none => none

/-- One bit of a word. -/
def bit1 (b : Bool) : BitVec 1 := BitVec.ofBool b

/-- The low 19 bits that every format shares (R28). -/
def packHead (op : Nat) (fn : BitVec 6) (g : Guard) : BitVec 19 :=
  bit1 g.rj ++ bit1 g.pn ++ g.pi ++ fn ++ BitVec.ofNat 8 op

/-- The word of an opcode and its fields; the bits marked must be 0 are 0. -/
def packFields : Fields → InstrWord
  | .v op f => f.w ++ f.mod ++ bit1 f.sat ++ f.rm ++ bit1 f.fc ++ bit1 f.fb ++ bit1 f.fa ++ f.bk ++ f.c ++ f.b ++ f.a
      ++ f.d ++ f.ty ++ packHead op f.fn f.g
  | .m op f => f.w ++ (0 : BitVec 4) ++ f.ch ++ bit1 f.fb ++ bit1 f.fa ++ f.sp ++ f.ord ++ f.sc ++ f.ck ++ f.pk ++ f.b
      ++ f.a ++ f.d ++ f.ty ++ packHead op f.fn f.g
  | .c op f => f.t ++ f.j ++ (0 : BitVec 3) ++ f.b ++ f.a ++ f.d ++ (0 : BitVec 4) ++ packHead op f.fn f.g
  | .x f => (0 : BitVec 37) ++ bit1 f.acc ++ f.ck ++ f.pk ++ f.fw ++ f.mr ++ f.wslot ++ f.aslot ++ f.ac
      ++ (0 : BitVec 4) ++ packHead 0x8C f.fn f.g

/-- The instruction of a word, or why it is none: the checks of R46 step 1 and R40's illegal-instruction cases. -/
def decode (w : InstrWord) : Except DecodeError Instr :=
  match wordFields w with
  | none => .error .opcode
  | some fs =>
    if packFields fs = w then
      match fieldsCheck fs with
      | .error e => .error e
      | .ok _ =>
        match fs.name with
        | some i => .ok i
        | none => .error .opcode
    else .error .reserved

/-- The word of an instruction; none for an event, which has no word. -/
def encode (i : Instr) : Option InstrWord := (fieldsOf i).map packFields

/-- The twelve bytes of a word, lowest address first (R25). -/
def wordBytes (w : InstrWord) : List Byte := (List.range 12).map (fun k => w.extractLsb' (8 * k) 8)

/-- The word that twelve bytes hold (R25). -/
def bytesWord (bs : List Byte) : InstrWord :=
  BitVec.ofNat 96 (bs.foldr (fun b acc => b.toNat + 256 * acc) 0)

/-- The instruction that twelve bytes of code hold. -/
def decodeBytes (bs : List Byte) : Except DecodeError Instr := decode (bytesWord bs)

/-- The decoder's answer on the bits of an instruction as the opcode table numbers them: w's low nbits bits, the bits
above them 0. -/
def decodeTableWord (nbits w : Nat) : Option Instr :=
  match decodeBytes (wordBytes (BitVec.ofNat 96 (w % 2 ^ nbits))) with
  | .ok i => some i
  | .error _ => none

end Sys2Proof
end

