-- ==== Sys2Proof/Machine/Replies.lean ====
section
/-! DEFINITION. REPLY_ARRIVAL: what the core does when the last answer of an operation reaches it, by the operation's
kind (R95, R153, R205, R221, R340, R341, R347, R352). -/

namespace Sys2Proof.Machine

/-- The lockets that an EMPTY named are empty at the core (R221). -/
def emptyLockets (o : Op) (s : State) : State :=
  match (s.team? o.ref.team).bind (fun t => s.launches.find? t.launch) with
  | none => s
  | some l =>
    setFulls (warpOf o.ref)
      (((List.range 32).filter (fun j => o.val.getLsbD j)).map (fun j => .row (l.desc.ring + 96 + j))) false s

/-- The predicate of an operation's answer, in the register file or in the image (R89). -/
def answerPred (id : Nat) (o : Op) (v : Bool) (s : State) : State :=
  if s.resident o.ref.team then
    writePred (warpOf o.ref) o.rm o.bcast (if v then BitVec.allOnes 64 else 0) s
  else (s.modOp id (fun o => { o with owedPred := some v })).push [.imageWrite id]

/-- A load, or another operation whose reply brings lines to the core. -/
def replyLoad (id : Nat) (s : State) : State := finishOp id (s.modOp id assemble)

/-- An atomic whose stream was broken: its destination is filled with contained results (R193). -/
def replyAtomic (id : Nat) (o : Op) (s : State) : State :=
  if o.code = 6 then
    let fr := s.fresh
    replyLoad id (fr.2.modOp id (fun o => { o with
      data := o.lanes.foldl (fun t a => t.set (8 * a.lane) (BitVec.ofNat 64 (fr.1 / 2 ^ (64 * a.lane)))) o.data }))
  else replyLoad id s

/-- A store or reduction reaches the L1 only after a FENCE that covers it has issued: its lines go back at once (R112). -/
def fenceBack (o : Op) (s : State) : State :=
  match s.warp? (warpOf o.ref) with
  | some w =>
    if w.fences.any (fun f => f.2.scope ≠ 0 && o.cls.any (fun e =>
        f.2.pred.getLsbD e.1 && (f.2.n.get 0 e.1 - e.2).toNat < 2 ^ 15)) then
      sendBackAll o.core ((o.parts.filter (fun p => p.wb)).map (·.key)) s
    else s
  | none => s

/-- A store or reduction: complete at CORE, and at the wider scopes once no line of it waits for a write-back or a
combine, with the code of a line of it that a broken stream has ended (R95, R103). -/
def replyStore (id : Nat) (o : Op) (s : State) : State :=
  if o.parts.any (fun p => p.wb) then
    fenceBack o (if o.doneCore then s else (completeAt id [0] o.code s).modOp id (fun o => { o with doneCore := true }))
  else finishOp id (s.modOp id assemble)

/-- A queue's reservation: the predicate, and the record's request where it was granted; a pop of an empty queue fills
its registers with their old values (R340, R341). -/
def replyQueue (id : Nat) (o : Op) (s : State) : State :=
  if o.prog = 1 then
    if o.data.get 0 0 = 1 then recordIssue id o (wakeReply id o (answerPred id o true s))
    else
      finishOp id ((answerPred id o false s).modOp id (fun o =>
        { o with data := o.regs.zipIdx.map (fun e => (e.2, e.1)) }))
  else finishOp id s

/-- A version check's answer; its exit form ends the team (R352). -/
def replyVchk (id : Nat) (o : Op) (s : State) : State :=
  let n := o.data.get 0 0 = 1
  let s := finishOp id (answerPred id o n s)
  if n && o.order = 1 then beginExit o.ref s else s

/-- A read from another node has brought a split's instruction word, or a constant line, which goes into the cache unless
a launch has been dispatched meanwhile (R34), or what a dispatcher's event waits for. -/
def replyFetch (id : Nat) (o : Op) (s : State) : State :=
  if o.order = 2 then s.push [o.instr]
  else
  let s := (endWait o.ref s).dropOp id
  let line := fun (k : Nat) => ((o.parts[k]?).map (·.ldata)).getD 0
  if o.order = 1 then
    if o.stopping then s else constInsert o.core ⟨o.ctx, o.val.toNat / 128, line 0⟩ s
  else
    let off := o.val.toNat % 128
    let bs := (List.range 12).map (fun k =>
      if off + k < 128 then lineByte (line 0) (off + k) else lineByte (line (o.parts.length - 1)) (off + k - 128))
    s.modSplit o.ref (fun sp => { sp with code := some (o.pc, bitsOfBytes 96 bs) })

/-- Every part of an operation has been answered: what the core then does, by its kind. -/
def opAnswered (id : Nat) (o : Op) (s : State) : State :=
  match o.kind with
  | .store | .discard | .red => replyStore id o s
  | .empty => finishOp id (emptyLockets o s)
  | .qpush | .qpop => replyQueue id o s
  | .pubv => finishOp id (answerPred id o (o.data.get 0 0 = 1) s)
  | .vchk => replyVchk id o s
  | .fetch => replyFetch id o s
  | .atomic | .atomc => replyAtomic id o s
  | _ => replyLoad id s

/-- REPLY_ARRIVAL: an access is performed at its core, a kick reaches its slot, or the answer to one request of an operation reaches the core, whose
permit is free again; a refusal faults (R102), and the last answer completes the operation. A reply to a request that no
operation makes is one of an event's own. -/
def execReplyArrival (r : Req) (s : State) : Out :=
  match s.ops.find? r.op with
  | none => .next (s.replied r.op)
  | some o =>
    let s := match o.parts[r.part]? with
      | some p =>
        if p.back then s
        else if p.l1 && o.kind = OpKind.kick then kickArrives r.op o s
        else if p.l1 then l1Step r o p s
        else match p.refusal with
          | some t => refusePart r t.cls t.code t.addr t.lmask t.aux (s.endTrip r)
          | none => takeAnswer r o p (s.endTrip r)
      | none => s
    match s.ops.find? r.op with
    | some o => .next (if o.pendingParts || o.fault.isSome then s else opAnswered r.op o s)
    | none => .next s

end Sys2Proof.Machine
end

