-- ==== Sys2Proof/Machine/Fetch.lean ====
section
/-! DEFINITION. Instruction fetch (R25 to R27): the word at a path's PC, as code memory stood when the launch was
dispatched, and what becomes of a fetch that fails. -/

namespace Sys2Proof.Machine

/-- The byte address of an instruction index (R26). -/
def codeAddr (pc : BitVec 32) : Dword := BitVec.ofNat 64 (12 * pc.toNat)

/-- Byte k of the word at pc: its physical address, or why it cannot be fetched. -/
def codePhys (s : State) (c : Cx) (pc : BitVec 32) (k : Nat) : Except TFault Phys :=
  translateHeld c.split.held s c.core c.ctx .fetch false (codeAddr pc + BitVec.ofNat 64 k) 0

/-- A fetch that gives no word: an instruction-fetch fault, a memory error at a physical address (R27, R58), or a word
that another node has still to be asked for (R65). -/
inductive FetchFail where
  | fetch
  | memory (pa : Nat)
  | remote
deriving DecidableEq, Repr

/-- The physical address of byte k of the word at pc, whose first and last byte stand at a and b: the word may reach into
the next page. -/
def codeByte (pc : BitVec 32) (a b k : Nat) : Nat :=
  if k < min 12 (65536 - (codeAddr pc).toNat % 65536) then a + k else b - 11 + k

/-- The words that a fetch at pc may give: the one of the launch's dispatch, and the present one where it differs (R27).
A word of a page of another node is the one that this node gave; of lines with two homes it is a contained result (R59).
The 12 bytes of the word alone are looked at: whether a fetch faults for another word of its 48-byte block is the model's
choice (log entry 119). -/
def codeWords (s : State) (c : Cx) (pc : BitVec 32) : Except FetchFail (InstrWord × InstrWord) :=
  match codePhys s c pc 0, codePhys s c pc 11 with
  | .ok a, .ok b =>
    let adr := codeByte pc a.pa b.pa
    if a.tr.node.isSome || b.tr.node.isSome then
      match c.split.code with
      | some (p, w) => if p = pc then .ok (w, w) else .error .remote
      | none => .error .remote
    else match (List.range 12).find? (fun k => s.poison.contains (adr k / 128)) with
      | some k => .error (.memory (adr k))
      | none =>
        if mixedHome s a.home (a.pa / 128) || mixedHome s b.home (b.pa / 128) then
          .ok (BitVec.ofNat 96 (Config.freeValue s.free), BitVec.ofNat 96 (Config.freeValue (s.free + 1)))
        else
          .ok (bytesWord ((List.range 12).map (fun k => c.launch.code.byte (adr k))),
            bytesWord ((List.range 12).map (fun k => s.mem.byte (adr k))))
  | _, _ => .error .fetch

/-- The word that the fetch gives. -/
def fetchWord (s : State) (c : Cx) (pc : BitVec 32) : Except FetchFail InstrWord :=
  match codeWords s c pc with
  | .error e => .error e
  | .ok w => .ok (if w.1 = w.2 || Config.pick s.free % 2 = 0 then w.1 else w.2)

/-- The choices of a fetch used up, if it had any. -/
def fetchUsed (s : State) (c : Cx) (pc : BitVec 32) : State :=
  match codeWords s c pc with
  | .ok w => if w.1 = w.2 then s else { s with free := s.free + 2 }
  | .error _ => s

/-- The home slices of the word at pc take note of the access (R59). -/
def fetchHomes (s : State) (c : Cx) (pc : BitVec 32) : State :=
  match codePhys s c pc 0, codePhys s c pc 11 with
  | .ok a, .ok b =>
    if a.tr.node.isSome || b.tr.node.isSome then s
    else noteHome b.home (b.pa / 128) (noteHome a.home (a.pa / 128) s)
  | _, _ => s

/-- A read from other nodes of what a split's instruction needs before it issues: the split waits (R65). -/
def startFetch (c : Cx) (order : Nat) (va : Dword) (ps : List Phys) (s : State) : State :=
  let o : Op :=
    { kind := .fetch, ref := c.ref, ctx := c.ctx, core := c.core, pc := c.path.pc, order := order, val := va, scope := 3
      parts := (partsOf (ps.map (fun p => (0, va, p)))) }
  let id := s.nextOp
  sendParts id { parkAt c .line s with ops := s.ops.set id o, nextOp := id + 1 }

/-- INSTRUCTION_FETCH (R27): a fetch that fails faults, precise at the PC being fetched; a word of a page of another node
is asked for there. -/
def execInstructionFetch (r : SplitRef) (s : State) : Out :=
  match s.cxOf r with
  | none => .fault .noSuchUnit
  | some c =>
    let va := codeAddr c.path.pc
    match codeWords s c c.path.pc with
    | .error .fetch => trapAt c 3 tFetch va 0 0 s
    | .error (.memory pa) => trapAt c 3 tMemory (BitVec.ofNat 64 pa) 0 0 s
    | .error .remote =>
      .next (startFetch c 0 va ([codePhys s c c.path.pc 0, codePhys s c c.path.pc 11].filterMap Except.toOption) s)
    | .ok _ => .next { s with cur := none }

/-- A word that is no instruction: the illegal-instruction trap (R45, R48). -/
def illegalWord (r : SplitRef) (s : State) : Out :=
  match s.cxOf r with
  | none => .fault .noSuchUnit
  | some c => illegalInstruction c s

/-- The instruction at a split's PC; none where the fetch or the decoder fails. -/
def nextInstr (s : State) (c : Cx) : Option Instr :=
  match fetchWord s c c.path.pc with
  | .error _ => none
  | .ok w => match decode w with
    | .ok i => some i
    | .error _ => none

/-- The rejoin mark of the word at a split's PC (R30). -/
def rejoinMark (s : State) (c : Cx) : Bool :=
  match fetchWord s c c.path.pc with
  | .error _ => false
  | .ok w => w.getLsbD 18

end Sys2Proof.Machine
end

