-- ==== Sys2Proof/Machine/Window.lean ====
section
/-! DEFINITION. Paths, splits and the window engine: divergence and rejoins (R295 to R297), the resident range with its
spills and refills (R298 to R301). A path stack lists its top first. -/

namespace Sys2Proof.Machine

/-! ## Paths -/

/-- Every path of a warp, running or stacked. -/
def Warp.paths (w : Warp) : List Path :=
  w.splits.flatMap (fun e => e.2.path :: e.2.stack.map (·.path))

/-- H of R298. -/
def Warp.top (w : Warp) : Nat := w.paths.foldl (fun m p => max m (p.b + p.e)) 0

/-- A swap of the running path with the top of its stack (R297); pc is that of the instruction not yet executed. -/
def Split.swap (sp : Split) : Split :=
  match sp.stack with
  | [] => sp
  | e :: es =>
    { sp with path := e.path, stack := ⟨sp.path, e.rjpc, false⟩ :: es, backCount := 0, settled := false, wait := .none }

/-- The split's next entry runs, its running path having ended (R297); none where the stack is empty. -/
def Split.pop (sp : Split) : Option Split :=
  match sp.stack with
  | [] => none
  | e :: es => some { sp with path := e.path, stack := es, settled := false, wait := .none }

/-- A branching instruction has left the running path at a target (R297). -/
def Split.branched (sp : Split) (back : Bool) : Split :=
  if back then
    let sp := { sp with backCount := min 1024 (sp.backCount + 1) }
    if sp.backCount = 1024 && !sp.stack.isEmpty then sp.swap else sp
  else { sp with backCount := 0 }

/-- The lowest free split number, among four. -/
def freeSplit (w : Warp) : Option Nat := (List.range 4).find? (fun n => (w.splits.find? n).isNone)

/-! ## The arena (R300) -/

def arenaCapacity (d : LaunchRec) : Nat :=
  if d.arenaSize = 0 then d.ring else min 65535 (d.arenaSize / (4 * max 1 d.lanes))

def arenaAddr (d : LaunchRec) (row : Nat) : Dword := d.arenaBase + BitVec.ofNat 64 (row * d.lanes * 4)

def launchOf (s : State) (w : WarpRef) : Option Launch := (s.team? w.team).bind (fun t => s.launches.find? t.launch)

/-! ## The resident range -/

/-- An operation of the warp has still to fill a ring row. -/
def producing (s : State) (w : WarpRef) (k : Nat) : Bool :=
  s.ops.any (fun o => warpOf o.2.ref = w && o.2.dests.contains (.row k))

/-- Rows that enter the range without a refill: full, and of contained results (R299); a row that still has a pending
producer stays empty until it is filled (R206). -/
def enterRows (w : WarpRef) (ring : Nat) (rows : List Nat) (s : State) : State :=
  rows.foldl (fun s r =>
    let p := s.freshSeed
    p.2.modWarp w (fun wp =>
      let k := r % max 1 ring
      if (wp.row k).full then { wp with rows := wp.rows.set k { full := true, seed := p.1, vals := [] } } else wp)) s

/-- Rows marked empty and asked for from the arena (R299). -/
def startRefill (w : WarpRef) (ring : Nat) (rows : List Nat) (s : State) : State :=
  let s := s.modWarp w (fun wp =>
    { wp with
      refill := wp.refill ++ rows
      rows := rows.foldl (fun t r => t.set (r % max 1 ring) { t.get {} (r % max 1 ring) with full := false }) wp.rows })
  s.push (rows.map (fun r => .refillRow w r))

/-- Absolute rows from a up to, and without, b. -/
def rowsFrom (a b : Nat) : List Nat := (List.range (b - a)).map (a + ·)

/-- After a change of the warp's paths: U follows H down (R298). Rows above it leave the range; a spill or refill of one that
is still to come or under way is dropped, and the refill's ring row is full again, unless a producer has still to fill it. -/
def trimRange (w : WarpRef) (s : State) : State :=
  match s.warp? w, launchOf s w with
  | some wp, some l =>
    let h := wp.top
    let s := s.modWarp w (fun wp => { wp with upTo := min wp.upTo h, spill := wp.spill.filter (fun r => r < h) })
    if wp.hi ≤ h then s
    else
      let slot := fun (r : Nat) => r % max 1 l.desc.ring
      let gone := wp.refill.filter (fun r => h ≤ r)
      let s := gone.foldl (fun s r => forget (.refillRow w r) s) s
      let free := gone.filter (fun r => !producing s w (slot r))
      let s := s.modWarp w (fun wp =>
        { wp with
          hi := h, lo := min wp.lo h
          refill := wp.refill.filter (fun r => r < h)
          rows := free.foldl (fun t r => t.set (slot r) { t.get {} (slot r) with full := true }) wp.rows })
      enterRows w l.desc.ring gone s
  | _, _ => s

/-- A frame that ends at top and lies within L + R_res (R299): U rises. Rows that the conflict rule spilled come back from
the arena, the others enter as contained results. -/
def growTo (w : WarpRef) (ring top : Nat) (s : State) : State :=
  match s.warp? w with
  | none => s
  | some wp =>
    if top ≤ wp.hi then s
    else
      let rows := rowsFrom wp.hi top
      let s := s.modWarp w (fun wp => { wp with hi := top })
      enterRows w ring (rows.filter (fun r => wp.upTo ≤ r)) (startRefill w ring (rows.filter (fun r => r < wp.upTo)) s)

/-- The range moves down to a frame's first row, and the rows that come in are refilled (R299). -/
def refillDown (w : WarpRef) (ring b : Nat) (s : State) : State :=
  match s.warp? w with
  | none => s
  | some wp =>
    -- an empty range too far above the frame moves to the rows that the ring can hold from the frame on
    let hi := min wp.hi (b + ring)
    startRefill w ring (rowsFrom b (min wp.lo hi)) (s.modWarp w (fun x => { x with lo := b, hi := hi }))

/-- An empty range moves up to where a frame that ends at top fits. -/
def raiseEmpty (w : WarpRef) (ring top : Nat) (s : State) : State :=
  s.modWarp w (fun x => { x with lo := top - ring, hi := top - ring })

/-- The rows that a frame leaves no room for: from the top down for one below the range, from the bottom up for one above
it (R299). -/
def inTheWay (w : Warp) (ring b top : Nat) : List Nat :=
  if b < w.lo then (rowsFrom (max w.lo (b + ring)) w.hi).reverse else rowsFrom w.lo (min w.hi (top - ring))

/-- Those rows are to be spilled. -/
def startSpill (w : WarpRef) (rows : List Nat) (s : State) : State :=
  (s.modWarp w (fun x => { x with spill := rows })).pushOnce (.spillStep w)

/-- The window engine serves one split's frame (R299): refills downward and upward at once, room for a CALL or ENTER by a
spill at once, and a conflict after 1,024 cycles. -/
def serveFrame (w : WarpRef) (ring n b top : Nat) (grow : Bool) (s : State) : State :=
  match s.warp? w with
  | none => s
  | some wp =>
    let empty := wp.lo = wp.hi
    let conflict := fun (s : State) => s.pushOnce (.windowConflictTimeout ⟨w.team, w.warp, n⟩)
    if !wp.spill.isEmpty then s
    else if b < wp.lo then (if wp.hi - b ≤ ring || empty then refillDown w ring b s else conflict s)
    else if top ≤ wp.lo + ring then (if grow then s else growTo w ring top s)
    else if empty then (if grow then raiseEmpty w ring top s else growTo w ring top (raiseEmpty w ring top s))
    else if grow then startSpill w (inTheWay wp ring b top) s
    else conflict s

/-- The first of a warp's frames to be served: a CALL or ENTER that waits for room is served before the range may move for
any other split (R299). -/
def Warp.growing (w : Warp) : Option (Nat × Split) :=
  w.queue.find? (fun e => match e.2.wait with | .grow _ _ => true | _ => false)

/-- Since when each split has waited for the engine. -/
def noteBlocked (w : WarpRef) (s : State) : State :=
  s.modWarp w (fun x => { x with splits := x.splits.map (fun e =>
    (e.1, { e.2 with blocked := if (x.wants e.2).isSome then e.2.blocked <|> some s.clock else none })) })

/-- The window engine's work for a warp as its splits stand (R299), the split that has waited longest first. -/
def serveWindow (w : WarpRef) (s : State) : State :=
  match launchOf s w with
  | none => s
  | some l =>
    let s := noteBlocked w s
    match s.warp? w with
    | none => s
    | some wp =>
      let serve := fun (grow : Bool) (s : State) (e : Nat × Split) =>
        match wp.wants e.2 with
        | some f => serveFrame w l.desc.ring e.1 f.1 f.2 grow s
        | none => s
      match wp.growing with
      | some e => serve true s e
      | none => wp.queue.foldl (serve false) s

/-- The range moves at once so that it can hold a frame, at its bottom or at its top (R299). -/
def moveRange (w : WarpRef) (ring b top : Nat) (s : State) : State :=
  s.modWarp w (fun x =>
    if b < x.lo then { x with hi := b + ring, lo := min x.lo (b + ring) }
    else { x with lo := top - ring, hi := max x.hi (top - ring) })

/-- WINDOW_CONFLICT_TIMEOUT (R299): the range moves so that it holds the frame, and the rows at its far end are spilled: a
path whose frame this leaves outside is blocked from now on. A split that has waited longer is served first. -/
def execWindowConflictTimeout (r : SplitRef) (s : State) : Out :=
  match s.cxOf r with
  | none => .next s
  | some c =>
    match c.warp.wants c.split with
    | none => .next s
    | some f =>
      if !c.warp.spill.isEmpty || c.warp.served.any (fun e => e.1 ≠ r.split)
          || c.warp.growing.any (fun e => e.1 ≠ r.split) then .next (s.push [.windowConflictTimeout r])
      else
        let rows := inTheWay c.warp c.ring f.1 f.2
        .next (if rows.isEmpty then s else startSpill c.wref rows (moveRange c.wref c.ring f.1 f.2 s))

/-- A spill or refill faults: the team halts, in the split that it served (R301). Of a warp whose lanes have all exited the
record names split 0 and PC 0, which the spec gives no value for (log entry 42). -/
def windowFault (w : WarpRef) (code : Nat) (addr : Dword) (aux : Dword) (s : State) : State :=
  match s.warp? w with
  | none => s
  | some wp =>
    let at_ := (wp.served.map (fun e => (e.1, e.2.path.pc))).getD (0, 0)
    let s := s.modWarp w (fun wp => { wp with moveFault := true })
    { raiseTrap ⟨w.team, w.warp, at_.1⟩ { cls := 3, code := code, addr := addr, aux := aux, pc := at_.2 } s with cur := s.cur }

/-- The spill write of a row that stands in the reply tables. -/
def spillOp (s : State) (w : WarpRef) (row : Nat) : Option (Nat × Op) :=
  List.find? (fun (o : Nat × Op) =>
    o.2.kind = .spill && o.2.ref.team = w.team && o.2.ref.warp = w.warp && o.2.prog = row) s.ops

/-- The rows that a spill step can read out: up to 16, each once it is full, and once an earlier spill of the same row has
been written (R299). -/
def spillable (s : State) (w : WarpRef) (wp : Warp) (ring : Nat) : List Nat :=
  (wp.spill.take 16).takeWhile (fun r => (wp.row (r % max 1 ring)).full && (spillOp s w r).isNone)

/-- The pieces of a row in the arena, line by line (R300). -/
def rowSegs (p : Phys) (va : Dword) (lanes : Nat) : List Seg :=
  (segsOfRow (4 * lanes)).map (fun e =>
    ⟨va.toNat + e.1, e.2, p.pa + e.1, ((place p.tr (va + BitVec.ofNat 64 e.1)).toOption.getD p).home, p.tr.home⟩)
where
  /-- Offsets and lengths: a row of 64, 128 or 256 bytes, aligned to its length. -/
  segsOfRow (n : Nat) : List (Nat × Nat) := if n ≤ 128 then [(0, n)] else [(0, 128), (128, n - 128)]

/-- The requests by which a row's words go to the arena, and where they go, under its page's translation. -/
def spillParts (p : Phys) (va : Dword) (lanes : Nat) : List Part :=
  (rowSegs p va lanes).map (fun g => { line := g.pa / 128, home := g.home, homeField := g.homeField, done := true, back := true })

/-- One row read out under its page's translation: its words stand in the reply tables until they are written to the arena,
and its ring slot is free; L rises past a row that is spilled for a CALL or ENTER. -/
def spillRow (w : WarpRef) (l : Launch) (p : Phys) (r : Nat) (s : State) : State :=
  match s.warp? w with
  | none => s
  | some wp =>
    let row := wp.row (r % max 1 l.desc.ring)
    let va := arenaAddr l.desc r
    let o : Op :=
      { kind := .spill, ref := ⟨w.team, w.warp, 0⟩, ctx := l.ctx, core := wp.core, prog := r, running := true
        parts := spillParts p va l.desc.lanes, lanes := [{ lane := 0, va := va, pa := p.pa }]
        data := (List.range l.desc.lanes).map (fun k => (k, (row.lane k).setWidth 64)) }
    let s := touchTlb wp.core l.ctx va s
    let s := { s with ops := s.ops.set s.nextOp o, nextOp := s.nextOp + 1 }
    let s := s.modWarp w (fun wp =>
      { wp with
        spill := wp.spill.filter (· ≠ r)
        lo := if r = wp.lo && r < wp.hi then wp.lo + 1 else wp.lo
        upTo := max wp.upTo (r + 1) })
    s.push [.arenaWritePerformed w r]

/-- Rows read out in turn, up to one whose page cannot be written: it and those behind it are still to be moved (R301). Whether
there is one. -/
def spillRows (e : Instr) (w : WarpRef) (l : Launch) (core : Nat) : List Nat → State → State × Bool
  | [], s => (s, false)
  | r :: rs, s =>
    match translateFor s e core l.ctx .spill false (arenaAddr l.desc r) with
    | .error f => (windowFault w f.code (arenaAddr l.desc r) f.aux s, true)
    | .ok p => spillRows e w l core rs (spillRow w l p r s)

/-- A step of the engine can read out a row. -/
def spillReady (s : State) (w : WarpRef) : Bool :=
  match s.warp? w, launchOf s w with
  | some wp, some l => wp.spill.isEmpty || !(spillable s w wp l.desc.ring).isEmpty
  | _, _ => true

/-- What a step of the engine needs: the translations of the rows that it reads out. -/
def spillPlan (s : State) (w : WarpRef) (wp : Warp) (l : Launch) : Plan :=
  { who := .core wp.core, core := wp.core, ctx := l.ctx, vas := (spillable s w wp l.desc.ring).map (arenaAddr l.desc) }

/-- SPILL_STEP (R299 to R301): rows are read out once their pages are translated. -/
def execSpillStep (w : WarpRef) (s : State) : Out :=
  let e : Instr := .spillStep w
  match s.warp? w, launchOf s w with
  | some wp, some l =>
    if (s.team? w.team).any (fun t => t.status = .saving) || !s.resident w.team || wp.spill.isEmpty then .next (unpin e s)
    else
      withPins e (.core wp.core) wp.core l.ctx (spillPlan s w wp l).vas s (fun s =>
        let r := spillRows e w l wp.core (spillable s w wp l.desc.ring) s
        .next (if r.2 || (r.1.warp? w).all (·.spill.isEmpty) then unpin e r.1 else (unpin e r.1).push [e]))
  | _, _ => .next (unpin e s)

/-- The pieces of a row on its way to the arena: one for each request. -/
def spillSegs (o : Op) : List Seg :=
  let a := o.lanes.headD {}
  o.parts.zipIdx.map (fun p =>
    ⟨a.va.toNat + 128 * p.2, min 128 (4 * o.data.length - 128 * p.2), a.pa + 128 * p.2, p.1.home, p.1.homeField⟩)

/-- The pieces of a row of a warp's arena under the translations that an event has, or the fault. -/
def arenaSegs (s : State) (e : Instr) (core ctx : Nat) (va : Dword) (lanes : Nat) : Except TFault (List Seg) :=
  match translateFor s e core ctx .spill false va with
  | .error f => .error f
  | .ok p => .ok (rowSegs p va lanes)

/-- ARENA_WRITE_PERFORMED (R300): the row's words are written at their home slices. A fault is the spill's own: its row is
still to be moved (R58, R301). -/
def execArenaWritePerformed (w : WarpRef) (row : Nat) (s : State) : Out :=
  let e : Instr := .arenaWritePerformed w row
  match spillOp s w row with
  | none => .next (s.endTrips e)
  | some (id, o) =>
    let gs := spillSegs o
    writeLines e (.core o.core) (segStops gs) false (writePieces gs (o.data.flatMap (fun x => leBytes 4 x.2.toNat))) s
      (fun a s => .next ((windowFault w tMemory (BitVec.ofNat 64 a) 0 s).modOp id (fun o =>
        { o with fault := some { cls := 3, code := tMemory, addr := BitVec.ofNat 64 a } })))
      (fun s => .next (s.dropOp id))

/-- A row's words have come back from the arena: the row is full. -/
def takeRow (w : WarpRef) (l : Launch) (row : Nat) (bs : List Byte) (s : State) : State :=
  s.modWarp w (fun wp =>
    { wp with
      refill := wp.refill.filter (· ≠ row)
      rows := wp.rows.set (row % max 1 l.desc.ring)
        { full := true, seed := 0
          vals := (List.range l.desc.lanes).map (fun i => (i, BitVec.ofNat 32 (leNat ((bs.drop (4 * i)).take 4)))) } })

/-- A refill's read may leave: the row's spill has been written, and what its ring row still waited for has come (R206,
R299, R300). -/
def refillOpen (s : State) (w : WarpRef) (row : Nat) : Bool :=
  (spillOp s w row).isNone && !(launchOf s w).any (fun l => producing s w (row % max 1 l.desc.ring))

/-- REFILL_ROW (R299 to R301): the row's words come back from the arena, read at their home slices, and the row is full. -/
def execRefillRow (w : WarpRef) (row : Nat) (s : State) : Out :=
  let e : Instr := .refillRow w row
  match s.warp? w, launchOf s w with
  | some wp, some l =>
    if !s.resident w.team || !wp.refill.contains row then .next (forget e s)
    else if (s.tripsOf e).isEmpty && !refillOpen s w row then .next (s.push [e])
    else
      let va := arenaAddr l.desc row
      let q : Requester := .core wp.core
      let bad := fun (code : Nat) (addr aux : Dword) (s : State) => Host.Outcome.next (windowFault w code addr aux (unpin e s))
      withPins e q wp.core l.ctx [va] s (fun s =>
        match arenaSegs s e wp.core l.ctx va l.desc.lanes with
        | .error f => bad f.code va f.aux s
        | .ok gs => readLines e q (segStops gs) false s (fun a s => bad tMemory (BitVec.ofNat 64 a) 0 s) (fun ts s =>
            .next (takeRow w l row (segBytes ts gs) (touchTlb wp.core l.ctx va (unpin e s)))))
  | _, _ => .next (forget e s)

/-- What a refill's requests need. -/
def arenaPlan (s : State) (e : Instr) (core ctx : Nat) (va : Dword) (lanes : Nat) : Plan :=
  { who := .core core, core := core, ctx := ctx, vas := [va]
    stops := match arenaSegs s e core ctx va lanes with
      | .ok gs => segStops gs
      | .error _ => [] }

end Sys2Proof.Machine
end

