-- ==== Sys2Proof/Machine/Issue.lean ====
section
/-! DEFINITION. The warp scheduler of a quadrant: readiness (R302), the active and pending sets (R327, R328), rejoins
(R296), breakpoints (R394) and single steps (R395), and the choice of the split that issues. -/

namespace Sys2Proof.Machine

/-! ## The warps of a quadrant -/

/-- The team's warps may issue. -/
def Team.issues (t : Team) : Bool := t.status = .running || t.status = .raised || t.status = .skidding

/-- The resident warps of a quadrant. -/
def quadWarps (s : State) (core quad : Nat) : List WarpRef :=
  s.teams.flatMap (fun t =>
    if t.2.issues then
      (t.2.warps.filter (fun w => w.2.core = core && w.2.quad = quad && !w.2.ended)).map (fun w => ⟨t.1, w.1⟩)
    else [])

def splitRefs (s : State) (w : WarpRef) : List SplitRef :=
  match s.warp? w with
  | some wp => wp.splits.map (fun e => ⟨w.team, w.warp, e.1⟩)
  | none => []

/-! ## Where a path meets a rejoin mark (R296) -/

/-- What a path that reaches a rejoin mark does. -/
inductive Rejoin where
  | run
  | arrive
  | pop
  | merge (other : Nat)
  | await
  | park
deriving DecidableEq, Repr

def samePlace (a b : Path) : Bool := a.b = b.b && a.depth = b.depth

/-- A split at an instruction that it has not begun. -/
def unbegun (sp : Split) : Bool :=
  match sp.wait with
  | .none | .line | .walk _ | .grow _ _ => true
  | _ => false

/-- A split whose instruction has issued, its path at the next one, and that waits for an answer. -/
def answering (sp : Split) : Bool :=
  match sp.wait with
  | .reply _ => true
  | _ => false

/-- The first case of R296 that applies to split n of a warp, at an instruction whose RJ bit is set. A split that waits for
an answer joins once it has it. One that has begun the instruction itself (a barrier, a watch, an event, a spawn) does not
join the others at it: the model's reading (log entry 104). -/
def rejoinCase (w : Warp) (n : Nat) (sp : Split) : Rejoin :=
  let p := sp.path
  let others := w.splits.filter (fun e => e.1 ≠ n && samePlace e.2.path p)
  let here := others.filter (fun e => e.2.path.pc = p.pc && (e.2.stack.isEmpty || sp.stack.isEmpty))
  let top : Rejoin := match sp.stack with
    | e :: _ =>
      if !samePlace e.path p then .run
      else if !e.arrived && e.rjpc = some p.pc then .arrive
      else if e.arrived && e.path.pc = p.pc then .pop
      else .run
    | [] => .run
  if top ≠ .run then top
  else match here.find? (fun e => unbegun e.2) with
    | some e => .merge e.1
    | none =>
      if here.any (fun e => answering e.2) then .await
      else if sp.park || others.any (fun e => e.2.path.pc ≠ p.pc) then .park else .run

/-- The split waits at a rejoin mark for another that is about to join it. -/
def joinsLater (s : State) (c : Cx) : Bool :=
  !c.split.settled && rejoinMark s c && rejoinCase c.warp c.ref.split c.split = .await

/-! ## Readiness -/

/-- The split may issue in its team's state: not the faulting one, not one with a trap or exit of its own, four at most
in the skid, and in a single step only the one named (R382, R383, R395). -/
def mayIssue (c : Cx) : Bool :=
  c.team.issues && c.split.own.isNone && !c.split.vexit
    && (match c.team.halt with
        | some (_, w, sp) => !(w = c.ref.warp && sp = c.ref.split)
        | none => true)
    && !(c.team.status = .skidding && 4 ≤ c.split.skid)
    && (match c.team.step with
        | some (w, sp) => w = c.ref.warp && sp = c.ref.split
        | none => true)

/-- What the issue of the split's next instruction would come to; none where it would trap before it is decoded. -/
def nextGate (s : State) (c : Cx) : Option Gate :=
  (nextInstr s c).map (fun i => gate s c (needOf c i))

/-- The path's frame is resident, or the room that a CALL or ENTER waits for is there (R298, R299). -/
def windowOpen (c : Cx) : Bool :=
  match c.split.wait with
  | .grow b top =>
    c.warp.spill.isEmpty && c.warp.lo ≤ b && top ≤ c.warp.lo + c.ring && c.warp.growing.any (fun e => e.1 = c.ref.split)
  | _ => c.warp.holds c.path

/-- No wait stands against the split's issue. -/
def notWaiting (c : Cx) : Bool :=
  match c.split.wait with
  | .none | .grow _ _ => true
  | _ => false

/-- A ready split (R302). -/
def ready (s : State) (c : Cx) : Bool :=
  mayIssue c && notWaiting c && windowOpen c && !joinsLater s c
    && (match nextGate s c with
        | some (.wait _ _ _) => false
        | _ => true)

/-- A split that is blocked long (R328). -/
def blockedLong (s : State) (c : Cx) : Bool :=
  match c.split.wait with
  | .watch _ _ | .event _ _ _ | .barrier _ _ | .spawn | .torc | .slot _ _ => true
  | .reply id => (s.ops.find? id).any (fun o => o.kind = .empty || o.kind = .qpush || o.kind = .qpop)
  | .line | .walk _ => false
  | .none | .grow _ _ =>
    !windowOpen c || (match nextGate s c with
      | some (.wait long _ _) => long
      | _ => false)

def readyRefs (s : State) (w : WarpRef) : List SplitRef :=
  (splitRefs s w).filter (fun r => (s.cxOf r).any (ready s))

def warpReady (s : State) (w : WarpRef) : Bool := !(readyRefs s w).isEmpty

/-! ## The active set -/

def warpOr (s : State) (w : WarpRef) : Warp := (s.warp? w).getD {}

/-- The warp of a list that entered its set first. -/
def longest (s : State) (ws : List WarpRef) : Option WarpRef :=
  ws.foldl (fun m w => match m with
    | none => some w
    | some v => if (warpOr s w).since < (warpOr s v).since then some w else m) none

def enterSet (w : WarpRef) (active : Bool) (s : State) : State :=
  let s := s.modWarp w (fun wp => { wp with active := active, since := s.tick })
  { s with tick := s.tick + 1 }

def activeWarps (s : State) (core quad : Nat) : List WarpRef :=
  (quadWarps s core quad).filter (fun w => (warpOr s w).active)

/-- Pending warps that are ready. -/
def readyPending (s : State) (core quad : Nat) : List WarpRef :=
  (quadWarps s core quad).filter (fun w => !(warpOr s w).active && warpReady s w)

/-- A demotion and the promotion in its place (R328). -/
def swapWarps (demoted promoted : WarpRef) (s : State) : State := enterSet promoted true (enterSet demoted false s)

/-- A vacancy is filled at once with the longest-pending ready warp (R328). -/
def fillVacancy (core quad : Nat) (s : State) : State :=
  if 8 ≤ (activeWarps s core quad).length then s
  else match longest s (readyPending s core quad) with
    | some w => enterSet w true s
    | none => s

/-- A warp that R328 demotes: none of its splits ready, one at least blocked long. -/
def demotable (s : State) (w : WarpRef) : Bool :=
  !warpReady s w && (splitRefs s w).any (fun r => (s.cxOf r).any (blockedLong s))

def demoteBlocked (core quad : Nat) (s : State) : State :=
  match (activeWarps s core quad).find? (demotable s), longest s (readyPending s core quad) with
  | some d, some p => swapWarps d p s
  | _, _ => s

/-- FORCED_DEMOTION_TIMEOUT (R328): a pending warp that has been ready for 768 cycles takes the place of the active warp
promoted longest ago. -/
def execForcedDemotionTimeout (core quad : Nat) (s : State) : Out :=
  match longest s (activeWarps s core quad), longest s (readyPending s core quad) with
  | some d, some p => .next (swapWarps d p s)
  | _, _ => .next s

/-! ## Rejoins (R296) -/

/-- The running path becomes the top entry, ARRIVED, and the PENDING one runs (case 1). -/
def Split.arriveAt (sp : Split) : Split :=
  match sp.stack with
  | e :: es => { sp with path := e.path, stack := ⟨sp.path, none, true⟩ :: es, settled := false, park := false, parkCount := 0 }
  | [] => sp

/-- The ARRIVED entry joins the running path (case 2). -/
def Split.joinTop (sp : Split) : Split :=
  match sp.stack with
  | e :: es =>
    { sp with
      path := { sp.path with mask := sp.path.mask ||| e.path.mask, e := max sp.path.e e.path.e }
      stack := es, settled := true, park := false, parkCount := 0 }
  | [] => sp

/-- Two splits at one place become one, the lower-numbered (case 3). -/
def mergeSplits (w : Warp) (a b : Nat) : Warp :=
  match w.splits.find? a, w.splits.find? b with
  | some x, some y =>
    let lo := if a < b then x else y
    let stack := if x.stack.isEmpty then y.stack else x.stack
    let path := { lo.path with mask := x.path.mask ||| y.path.mask, e := max x.path.e y.path.e }
    { w with
      splits := (w.splits.erase (max a b)).set (min a b)
        { lo with path := path, stack := stack, settled := true, park := false, parkCount := 0, wait := .none, held := [], code := none } }
  | _, _ => w

/-- What happens when a path reaches a rejoin mark (cases 1 to 4); a path that case 1 resumes may stand at the mark too. -/
def settleRejoin : Nat → SplitRef → State → State
  | 0, _, s => s
  | n + 1, r, s =>
    match s.cxOf r with
    | none => s
    | some c =>
      if c.split.settled || !notWaiting c || !rejoinMark s c then s
      else match rejoinCase c.warp r.split c.split with
        | .arrive => settleRejoin n r (s.modSplit r Split.arriveAt)
        | .pop => s.modSplit r Split.joinTop
        | .merge o => s.modWarp c.wref (fun w => mergeSplits w r.split o)
        | .park => s.modSplit r (fun sp => { sp with park := true })
        | .await | .run => s

/-- The path is parked at a rejoin mark (case 4). -/
def parked (c : Cx) : Bool := c.split.park && !c.split.settled

/-- PARK_COUNT_EXPIRY (R296): passed over 32 times, the path executes its instruction alone. -/
def execParkCountExpiry (r : SplitRef) (s : State) : Out :=
  .next (s.modSplit r (fun sp => if 32 ≤ sp.parkCount then { sp with settled := true, park := false, parkCount := 0 } else sp))

/-! ## Issue -/

/-- The keys and classes that a split which waits on its consume key or on a count promotes (R98, R100). -/
def promoteWaiting (r : SplitRef) (s : State) : State :=
  match s.cxOf r with
  | none => s
  | some c =>
    if !mayIssue c || !notWaiting c || !windowOpen c then s
    else match nextGate s c with
      | some (.wait _ keys cls) => if keys.isEmpty && cls.isEmpty then s else promote c.core keys cls s
      | _ => s

/-- The split of a list that issued least recently (R327); equals are told apart by no rule. -/
def leastRecent (s : State) (rs : List SplitRef) : Option SplitRef × State :=
  let at_ := fun (r : SplitRef) => ((s.split? r).map (·.last)).getD 0
  match rs with
  | [] => (none, s)
  | r :: rs' =>
    let m := rs'.foldl (fun m r => min m (at_ r)) (at_ r)
    let eqs := rs.filter (fun r => at_ r = m)
    let p := s.choose eqs.length
    (eqs[p.1]?, p.2)

/-- The number of the breakpoint in force at a PC (R394). -/
def breakpointAt (c : Cx) : Option Nat :=
  if c.split.fresh then none else (List.find? (fun (e : Nat × BitVec 32) => e.2 = c.path.pc) c.team.bps).map (·.1)

/-- The chosen split issues, unless it is parked at a rejoin or meets a breakpoint. -/
def issueSplit (r : SplitRef) (s : State) : State :=
  match s.cxOf r with
  | none => s
  | some c =>
    if parked c then
      let s := ({ s with tick := s.tick + 1 }).modSplit r (fun sp =>
        { sp with parkCount := min 32 (sp.parkCount + 1), last := s.tick })
      if 31 ≤ c.split.parkCount then s.pushOnce (.parkCountExpiry r) else s
    else match breakpointAt c with
      | some n => raiseTrap r ⟨6, 2, BitVec.ofNat 64 n, 0, 0, c.path.pc⟩ s
      | none =>
        let vas := [codeAddr c.path.pc, codeAddr c.path.pc + 11]
        match pagesMissing s c.split.held c.core c.ctx vas with
        | [] => { fetchHomes (touchTlbs c.core c.ctx vas s) c c.path.pc with cur := some r }
        | ps => waitPages c ps s

/-- A single step whose split is not valid or cannot issue halts its team again (R395). -/
def stepBlocked (s : State) (t : Nat) : Option SplitRef :=
  match (s.team? t).bind (fun tm => if tm.status = .running then tm.step else none) with
  | some (w, sp) =>
    let r : SplitRef := ⟨t, w, sp⟩
    match s.cxOf r with
    | some c => if ready s c then none else some r
    | none => some r
  | none => none

def stopBlockedSteps (s : State) : State :=
  s.teams.foldl (fun s t => match stepBlocked s t.1 with
    | some r => raiseTrap r ⟨6, 3, 0, 0, 0, ((s.split? r).map (·.path.pc)).getD 0⟩ s
    | none => s) s

/-- WARP_ISSUE_SELECT (R327): windows and rejoins of the quadrant's paths served, keys promoted for the
splits that wait on them (R100), the active set kept by R328, and the ready split of an active warp that issued least recently chosen. -/
def execWarpIssueSelect (core quad : Nat) (s : State) : Out :=
  if s.cur.isSome || !(s.core core).powered then .next s
  else
    let refs := fun (s : State) => (quadWarps s core quad).flatMap (splitRefs s)
    let s := (refs s).foldl (fun s r => settleRejoin 32 r s) s
    let s := (quadWarps s core quad).foldl (fun s w => serveWindow w s) s
    let s := stopBlockedSteps s
    let s := demoteBlocked core quad (fillVacancy core quad s)
    let s := (refs s).foldl (fun s r => promoteWaiting r s) s
    let p := leastRecent s ((activeWarps s core quad).flatMap (readyRefs s))
    match p.1 with
    | some r => .next (issueSplit r p.2)
    | none => .next p.2

end Sys2Proof.Machine
end

