-- ==== Sys2Proof/Machine/Control.lean ====
section
/-! DEFINITION. The control instructions: opcodes 0x00 to 0x0B (R49, R295, R304 to R313), the deliveries that end a
WAITM, and the fetch of constant lines and table entries (R62, R67, R146). -/

namespace Sys2Proof.Machine

/-! ## Branches (R295, R297) -/

/-- Where the taken set of a branching instruction goes: its path, whether the offset is negative, and its rejoin
offset J. -/
structure Taken where
  path : Path
  back : Bool
  j : BitVec 20
deriving DecidableEq, Repr

/-- A PC and a signed offset from it, modulo 2^32: the PC has 32 bits (R294), and what a sum outside them comes to is the
model's choice (log entry 118). -/
def offsetPc (pc : BitVec 32) (t : BitVec 20) : BitVec 32 := pc + t.signExtend 32

/-- A branch moves the split on and divides it where both sets are non-empty (R295). -/
def branchTo (c : Cx) (taken : Mask) (t : Taken) (s : State) : Out :=
  let rest := c.active &&& ~~~ taken
  let fall := { pcNext c.path with mask := rest }
  let dest := { t.path with mask := taken }
  let s' := issued c id s
  let done := fun (s : State) => Host.Outcome.next (trimRange c.wref s)
  if taken = 0 then done (s'.modSplit c.ref (fun sp => ({ sp with path := fall }).branched false))
  else if rest = 0 then
    done (s'.modSplit c.ref (fun sp => ({ sp with path := dest, wait := .none }).branched t.back))
  else match freeSplit c.warp with
    | some n =>
      let s' := s'.modSplit c.ref (fun sp => ({ sp with path := fall, wait := .none }).branched false)
      done (s'.modWarp c.wref (fun w => { w with splits := w.splits.set n { path := dest, last := s.tick } }))
    | none =>
      if 16 ≤ c.split.stack.length then trapAt c 2 1 0 0 0 s
      else
        let rj := if t.j = 0 then none else some (offsetPc c.path.pc t.j)
        done (s'.modSplit c.ref (fun sp =>
          ({ sp with path := dest, stack := ⟨fall, rj, false⟩ :: sp.stack, wait := .none }).branched t.back))

/-- NOP (R49). -/
def execNop (f : CF) (s : State) : Out := run (.nop f) s (fun c _ s => .next (advance c s))

/-- BRA (R305). -/
def execBra (f : CF) (s : State) : Out :=
  runBranch (.bra f) s (fun c m s =>
    branchTo c m ⟨{ c.path with pc := offsetPc c.path.pc f.t }, f.t.msb, f.j⟩ s)

/-- A target held in a register, the same in every taken lane, or the trap of R306. -/
def withTarget (c : Cx) (f : CF) (m : Mask) (s : State) (k : BitVec 32 → Out) : Out :=
  let dis := disagree m (fun l => readW s c f.a.toNat l)
  if dis ≠ 0 then trapAt c 2 2 0 dis 0 s
  else k (readW s c f.a.toNat ((lowLane m).getD 0))

/-- BRX (R306). -/
def execBrx (f : CF) (s : State) : Out :=
  runBranch (.brx f) s (fun c m s =>
    withTarget c f m s (fun t => branchTo c m ⟨{ c.path with pc := t }, t < c.path.pc, f.j⟩ s))

/-! ## Calls (R307 to R309) -/

/-- The room for a frame is there, and the engine moves the range for no other CALL or ENTER; otherwise the instruction
waits for it (R299). -/
def withRoom (c : Cx) (base top : Nat) (s : State) (k : State → Out) : Out :=
  if c.warp.spill.isEmpty && c.warp.lo ≤ base && top ≤ c.warp.lo + c.ring
      && c.warp.growing.all (fun e => e.1 = c.ref.split) then k (growTo c.wref c.ring top s)
  else .next (parkAt c (.grow base top) s)

/-- A row of the callee's frame takes a value in the taken lanes. -/
def linkRow (c : Cx) (row : Nat) (m : Mask) (v : Word) (s : State) : State :=
  writeRow c.wref (row % max 1 c.ring) m (fun _ => v) s

/-- CALL and CALLX (R307), their target known. -/
def callTo (c : Cx) (f : CF) (m : Mask) (target : BitVec 32) (back : Bool) (s : State) : Out :=
  let p := c.path
  let shift := f.b.toNat
  let bn := p.b + shift
  let en := max 2 (p.e - shift)
  if m = 0 then branchTo c 0 ⟨p, false, f.j⟩ s
  else if p.depth = 4095 then trapAt c 2 5 0 0 0 s
  else if arenaCapacity c.launch.desc < bn + en then trapAt c 2 6 0 0 0 s
  else if c.active &&& ~~~ m ≠ 0 && (freeSplit c.warp).isNone && 16 ≤ c.split.stack.length then trapAt c 2 1 0 0 0 s
  else
    withRoom c bn (bn + en) s (fun s =>
      let w := warpOr s c.wref
      if !(w.row (bn % max 1 c.ring)).full || !(w.row ((bn + 1) % max 1 c.ring)).full then .next (stall c s)
      else
        let s := linkRow c (bn + 1) m (BitVec.ofNat 32 (shift + 1024 * p.e)) (linkRow c bn m (p.pc + 1) s)
        branchTo c m ⟨{ p with pc := target, b := bn, e := en, depth := p.depth + 1 }, back, f.j⟩ s)

def execCall (f : CF) (s : State) : Out :=
  runBranch (.call f) s (fun c m s => callTo c f m (offsetPc c.path.pc f.t) f.t.msb s)

def execCallx (f : CF) (s : State) : Out :=
  runBranch (.callx f) s (fun c m s => withTarget c f m s (fun t => callTo c f m t (t < c.path.pc) s))

/-- ENTER (R308). -/
def execEnter (f : CF) (s : State) : Out :=
  run (.enter f) s (fun c _ s =>
    let e := f.b.toNat
    if c.ring < e || arenaCapacity c.launch.desc < c.path.b + e then trapAt c 2 6 0 0 0 s
    else
      withRoom c c.path.b (c.path.b + e) s (fun s =>
        let s := issued c (fun p => { pcNext p with e := e }) s
        .next (trimRange c.wref (s.modSplit c.ref (fun sp => { sp with wait := .none })))))

/-- LEAVE (R308). -/
def execLeave (f : CF) (s : State) : Out :=
  run (.leave f) s (fun c _ s =>
    if c.path.e < f.b.toNat then illegalOperand c s
    else .next (trimRange c.wref (issued c (fun p => { pcNext p with e := f.b.toNat }) s)))

/-- RET (R309). -/
def execRet (f : CF) (s : State) : Out :=
  runBranch (.ret f) s (fun c m s =>
    if m = 0 then branchTo c 0 ⟨c.path, false, f.j⟩ s
    else if c.path.depth = 0 then trapAt c 2 5 0 0 0 s
    else
      let dis := disagree m (fun l => (readW s c 0 l, readW s c 1 l))
      if dis ≠ 0 then trapAt c 2 3 0 dis 0 s
      else
        let l := (lowLane m).getD 0
        let w0 := readW s c 0 l
        let w1 := readW s c 1 l
        let sh := (w1.extractLsb' 0 10).toNat
        let e := (w1.extractLsb' 10 10).toNat
        if w1.extractLsb' 20 12 ≠ 0 || sh = 0 || c.path.b < sh || e < 2 || 512 < e then trapAt c 2 4 0 0 0 s
        else
          branchTo c m
            ⟨{ c.path with pc := w0, b := c.path.b - sh, e := e, depth := c.path.depth - 1 }, w0 < c.path.pc, f.j⟩ s)

/-! ## EXIT, WAITM, YIELD and BRK -/

/-- The lanes of m leave the executing split's path (R310, R297). -/
def exitLanes (c : Cx) (m : Mask) (s : State) : State :=
  let rest := c.active &&& ~~~ m
  let s := s.modWarp c.wref (fun w => { w with live := w.live &&& ~~~ m })
  let s := exitNotices c.wref m s
  let s := s.modSplit c.ref (fun sp => { sp with path := { sp.path with mask := rest } })
  let s :=
    if rest ≠ 0 then s
    else match (s.split? c.ref).bind Split.pop with
      | some sp => s.modSplit c.ref (fun _ => sp)
      | none => s.modWarp c.wref (fun w => { w with splits := w.splits.erase c.ref.split })
  let s := settleBarriers c.ref.team (trimRange c.wref s)
  if (warpOr s c.wref).live = 0 then endWarp c.wref s else s

/-- EXIT (R310). -/
def execExit (f : CF) (s : State) : Out :=
  run (.exit f) s (fun c m s => .next (exitLanes c m (advance c s)))

/-- Watches that a core's address monitors hold (R311). -/
def monitorsOf (core : Nat) (s : State) : Nat := (s.core core).monitors

def modMonitors (core : Nat) (f : Nat → Nat) (s : State) : State :=
  s.modCore core (fun k => { k with monitors := f k.monitors })

/-- WAITM (R311). -/
def execWaitm (f : CF) (s : State) : Out :=
  run (.waitm f) s (fun c _ s =>
    let p := f.d.toNat % 8
    if !c.split.stack.isEmpty then .next ((stall c s).modSplit c.ref (fun sp => sp.swap))
    else
      let va := readS c f.a.toNat
      withPages c [va] s (fun s =>
      match checkOne s c .load 4 va with
      | .error e => trapAt c 3 e.code e.addr e.mask e.aux s
      | .ok a =>
        let s := touchTlbs c.core c.ctx [va] s
        if 64 ≤ monitorsOf c.core s then .next (advance c (writePred c.wref p c.active (BitVec.allOnes 64) s))
        else
          let part : Part := { line := a.pa / 128, home := a.home, rem := a.tr.node, done := true }
          let o : Op :=
            { kind := .check, instr := .waitm f, bcast := c.active
              lanes := [{ lane := 0, va := va, pa := a.pa, b := readS c f.b.toNat }], parts := [part] }
          let q := startOp c o [] s
          let s := modMonitors c.core (· + 1) (parkAt c (.watch p q.1) q.2)
          .next (s.push (if f.j = 0 then [.watchRequest c.ref] else [.watchRequest c.ref, .waitmTimeout c.ref]))))

/-- The end of a WAITM: the predicate written, the monitor free, the split at the next instruction. -/
def endWatch (r : SplitRef) (v : Bool) (s : State) : State :=
  match s.split? r with
  | none => s
  | some sp =>
    match sp.wait with
    | .watch p id =>
      let m := sp.path.mask
      let core := (warpOr s (warpOf r)).core
      let s := writePred (warpOf r) p m (if v then BitVec.allOnes 64 else 0) s
      let home := ((s.ops.find? id).bind (fun o => o.parts.head?)).map (·.home)
      let s := match home with
        | some h => s.modSlice h (fun sl => { sl with watches := sl.watches.filter (fun x => x.id ≠ id) })
        | none => s
      let s := forget (.watchRequest r) ((s.cancel (.waitmTimeout r)).cancel (.wokenDelivery r))
      let s := modMonitors core (· - 1) s
      (releaseSplit r (.watch p id) s).dropOp id
    | _ => s

/-- WOKEN_DELIVERY (R311). -/
def execWokenDelivery (r : SplitRef) (s : State) : Out := .next (endWatch r true s)

/-- WAITM_TIMEOUT (R311). -/
def execWaitmTimeout (r : SplitRef) (s : State) : Out := .next (endWatch r false s)

/-- YIELD (R312). -/
def execYield (f : CF) (s : State) : Out :=
  run (.yield f) s (fun c _ s =>
    let s := advance c s
    if !c.split.stack.isEmpty then .next (s.modSplit c.ref (fun sp => sp.swap))
    else match longest s (readyPending s c.core c.warp.quad) with
      | some w => .next (swapWarps c.wref w s)
      | none => .next s)

/-- A trap that saves the PC that follows its instruction (R394). -/
def trapAfter (c : Cx) (code : Nat) (addr : Nat) (s : State) : Out :=
  .next (raiseTrap c.ref ⟨6, code, BitVec.ofNat 64 addr, 0, 0, c.path.pc⟩
    (s.modSplit c.ref (fun sp => { sp with path := pcNext sp.path, settled := false })))

/-- BRK (R313). -/
def execBrk (f : CF) (s : State) : Out := run (.brk f) s (fun c _ s => trapAfter c 1 f.b.toNat s)

/-! ## Constant lines (R146) -/

/-- CONST_LINE_FETCH (R146): the line comes in from its home slice or from another node, or the instruction that waits
for it traps. -/
def execConstLineFetch (r : SplitRef) (vline : Nat) (s : State) : Out :=
  let e := Instr.constLineFetch r vline
  match s.cxOf r with
  | none => .next (forget e s)
  | some c =>
    if c.split.wait ≠ .line then .next (forget e s)
    else
      let va := BitVec.ofNat 64 (128 * vline)
      let q : Requester := .core c.core
      let bad := fun (code : Nat) (s : State) =>
        Host.Outcome.next
          { raiseTrap r ⟨3, tConstant, va, 0, BitVec.ofNat 64 code, c.path.pc⟩ (endWait r (unpin e s)) with cur := s.cur }
      withPins e q c.core c.ctx [va] s (fun s =>
        match translateFor s e c.core c.ctx .const false va with
        | .error f => bad f.code s
        | .ok p =>
          if p.tr.node.isSome then .next { startFetch c 1 va [p] (unpin e s) with cur := s.cur }
          else readLines e q [⟨p.home, p.pa / 128, 1⟩] false s (fun _ s => bad tMemory s) (fun ts s =>
            .next (endWait r (constInsert c.core ⟨c.ctx, vline, tripData ts (p.pa / 128)⟩ (unpin e s)))))

/-- What the fetch of a constant line needs. -/
def constPlan (s : State) (c : Cx) (e : Instr) (vline : Nat) : Plan :=
  let va := BitVec.ofNat 64 (128 * vline)
  { who := .core c.core, core := c.core, ctx := c.ctx, vas := [va]
    stops := match translateFor s e c.core c.ctx .const false va with
      | .ok p => if p.tr.node.isSome then [] else [⟨p.home, p.pa / 128, 1⟩]
      | .error _ => [] }

end Sys2Proof.Machine
end

