-- ==== Sys2Proof/Machine/System.lean ====
section
/-! DEFINITION. The system instructions: opcodes 0xA0 to 0xA2, and the warp's control and status registers (R398,
R399). -/

namespace Sys2Proof.Machine

/-- WCTL as a word (R398). -/
def Warp.wctl (w : Warp) : Word := BitVec.ofNat 32 (w.rmode.toNat + if w.ftz then 8 else 0)

/-- TRAP (R399). -/
def execTrap (f : MF) (s : State) : Out := run (.trap f) s (fun c _ s => trapAfter c 4 (f.w.toNat % 65536) s)

/-- A CSR's value (R398); a write-only one reads as 0 (R8). None is a number that names no CSR. -/
def csrValue (c : Cx) (n : Nat) : Option Word :=
  if n = 0 then some c.warp.wctl
  else if n = 1 then some (BitVec.ofNat 32 c.team.restores)
  else if 16 ≤ n && n < 32 then some (c.warp.key (n - 16)).stat
  else if n = 0x20 then some (BitVec.ofNat 32 c.warp.indet.length)
  else if n = 0x21 then some 0
  else none

/-- The number of a CSR, W[11:0]. -/
def csrNum (f : MF) : Nat := f.w.toNat % 4096

/-- CSRR (R399). -/
def execCsrr (f : MF) (s : State) : Out :=
  run (.csrr f) s (fun c m s =>
    match csrValue c (csrNum f) with
    | none => illegalInstruction c s
    | some v => .next (advance c (writeDst32 c f.d.toNat m false (fun _ => v) s)))

/-- CSRW but for INDCLR (R399): a read-only CSR ignores it (R8). -/
def execCsrw (f : MF) (s : State) : Out :=
  run (.csrw f) s (fun c _ s =>
    let v := (readS c f.b.toNat).setWidth 32
    let n := csrNum f
    if n = 0 then
      let mode : BitVec 3 := v.extractLsb' 0 3
      if v.extractLsb' 4 28 ≠ 0 || 5 ≤ mode.toNat then illegalOperand c s
      else .next (advance c (s.modWarp c.wref (fun w => { w with rmode := mode, ftz := v.getLsbD 3 })))
    else if (csrValue c n).isNone then illegalInstruction c s
    else .next (advance c s))

/-- CSRW to INDCLR (R398). -/
def execCsrwIndclr (f : MF) (s : State) : Out :=
  run (.csrwIndclr f) s (fun c _ s => .next (advance c (s.modWarp c.wref (fun w => { w with indet := [] }))))

end Sys2Proof.Machine
end

