-- ==== Sys2Proof/Machine/Launch.lean ====
section
/-! DEFINITION. Launch records and their checks (R315 to R317), images' sizes and pools (R388, R390), commands and spawns
(R319, R320, R337, R375, R377), consumers (R350, R351), retirement and settling (R348, R353). -/

namespace Sys2Proof.Machine

/-! ## The launch record (R315, R316) -/

/-- An n-byte field of a record at an offset. -/
def fieldOf (bs : List Byte) (o n : Nat) : Nat := leNat ((bs.drop o).take n)

def parseWait (x : Nat) : WaitCond := { event := x % 65536, mode := x / 65536 % 4, vmin := BitVec.ofNat 32 (x / 2 ^ 32) }

def parseRecord (bs : List Byte) : LaunchRec :=
  let u := fieldOf bs
  { entry := BitVec.ofNat 32 (u 0 4), lanes := 16 * 2 ^ (u 4 1 % 4), warps := u 5 1, paired := u 6 1 % 2 = 1
    spread := u 6 1 / 2 % 2 = 1, prio := u 7 1, tx := u 8 4, ty := u 12 4, tz := u 16 4, ring := u 0x14 2
    globals := u 0x16 1, acct := u 0x17 1, aslots := u 0x18 1, wslots := u 0x19 1, scratch := u 0x1C 4
    arenaBase := BitVec.ofNat 64 (u 0x20 8), arenaSize := u 0x28 8, savePool := BitVec.ofNat 64 (u 0x30 8)
    wait0 := parseWait (u 0x38 8), wait1 := parseWait (u 0x40 8)
    refine := (List.range (u 0x1A 1)).map (fun i => u (0x48 + 2 * i) 2)
    cwBase := (List.range 8).map (fun w => BitVec.ofNat 64 (u (0x60 + 8 * w) 8))
    cwSize := (List.range 8).map (fun w => u (0xA0 + 4 * w) 4)
    param := (List.range 8).map (fun i => BitVec.ofNat 64 (u (0xC0 + 8 * i) 8)) }

/-- The ranges and reserved bytes of R315 and R316. -/
def recordRanges (bs : List Byte) : Bool :=
  let u := fieldOf bs
  let d := parseRecord bs
  let warpsOk := if d.paired then d.warps % 2 = 0 && 2 ≤ d.warps && d.warps ≤ 64 else 1 ≤ d.warps && d.warps ≤ 32
  let count := fun (n : Nat) => 1 ≤ n && n ≤ 65535
  u 4 1 ≤ 2 && warpsOk && u 6 1 < 4 && d.prio ≤ 23 && count d.tx && count d.ty && count d.tz
    && 64 ≤ d.ring && d.ring ≤ 512 && d.ring % 32 = 0 && d.globals ≤ 128 && d.globals % 16 = 0
    && d.acct ≤ 8 && d.aslots ≤ 32 && d.wslots ≤ 32 && u 0x1A 1 ≤ 8 && u 0x1B 1 = 0
    && d.scratch ≤ 262144 && d.scratch % 128 = 0
    && d.arenaBase.toNat % 65536 = 0 && d.arenaSize % 65536 = 0 && (d.arenaSize ≠ 0 || d.arenaBase = 0)
    && d.savePool.toNat % 65536 = 0 && d.savePool ≠ 0
    && u 0x38 8 / 2 ^ 18 % 2 ^ 14 = 0 && u 0x40 8 / 2 ^ 18 % 2 ^ 14 = 0
    && (List.range 8).all (fun i => i < u 0x1A 1 || u (0x48 + 2 * i) 2 = 0) && u 0x58 8 = 0
    && (List.range 8).all (fun w => u (0x60 + 8 * w) 8 % 8 = 0 && u (0xA0 + 4 * w) 4 ≤ 131072)

/-! ## Sizes (R300, R317, R390) -/

def regionSize (d : LaunchRec) : Nat := (d.ring + d.globals) * d.lanes * 4

/-- Rows of a warp's image that are no lockets. -/
def imageRows (d : LaunchRec) : Nat := d.ring + min d.globals 96

def warpImageSize (d : LaunchRec) : Nat := (2 + (imageRows d + 62) / 63) * 16384

def up64K (n : Nat) : Nat := (n + 65535) / 65536 * 65536

def coreAreaSize (d : LaunchRec) : Nat := d.scratch + d.acct * 135168 + d.aslots * 16896 + d.wslots * 16448

/-- The offset of core area a of a team image. -/
def coreAreaOff (d : LaunchRec) (a : Nat) : Nat := up64K (65536 + d.warps * warpImageSize d) + a * up64K (coreAreaSize d)

/-- IMGSZ. -/
def imageSize (d : LaunchRec) : Nat := coreAreaOff d (if d.paired then 2 else 1)

/-- The core of a team, by place, and the quadrant of warp w (R321). -/
def warpHome (d : LaunchRec) (w : Nat) : Nat × Nat := if d.paired then (w % 2, w / 2 % 4) else (0, w % 4)

/-- An empty core holds the warps that R321 assigns to each quadrant (R317). -/
def quadrantsHold (d : LaunchRec) : Bool :=
  (List.range 2).all (fun a => (List.range 4).all (fun q =>
    let n := ((List.range d.warps).filter (fun w => warpHome d w = (a, q))).length
    n ≤ 16 && n * regionSize d ≤ 262144))

/-- The pages of a pool of n slots of a size that R388 allows, its header's first. -/
def poolPages (d : LaunchRec) (shape : Option (Nat × Nat)) : List Dword :=
  match shape with
  | some (n, sz) =>
    if 1 ≤ n && n ≤ 65536 && sz % 65536 = 0 && sz ≠ 0 then
      (List.range (1 + n * (sz / 65536))).map (fun k => d.savePool + BitVec.ofNat 64 (65536 * k))
    else []
  | none => []

/-- The save pool is one that R388 allows, big enough for an image (R317), and every page of it is an image page under the
translations that an event has. -/
def poolOk (s : State) (e : Instr) (core ctx : Nat) (d : LaunchRec) (shape : Option (Nat × Nat)) : Bool :=
  let ps := poolPages d shape
  !ps.isEmpty && shape.any (fun x => imageSize d ≤ x.2) && ps.all (fun va => (blockStop s e core ctx va).isSome)

/-- A wait condition passes R317 and R350. -/
def waitOk (s : State) (ctx : Nat) (w : WaitCond) : Bool :=
  w.mode = 0 || (w.event < (s.context ctx).evCount
    && (if (s.event ctx w.event).refinable then w.vmin.toNat ≤ 32767 else w.mode = 1))

/-- Every check of R317 and R346, of a record whose save pool has a shape, by an event's translations. -/
def recordOk (s : State) (e : Instr) (core ctx : Nat) (bs : List Byte) (shape : Option (Nat × Nat)) : Bool :=
  let d := parseRecord bs
  recordRanges bs && d.lanes * d.warps ≤ (if d.paired then 4096 else 2048)
    && (d.arenaSize = 0 || d.ring ≤ d.arenaSize / (4 * d.lanes))
    && quadrantsHold d && poolOk s e core ctx d shape && waitOk s ctx d.wait0 && waitOk s ctx d.wait1
    && d.refine.Nodup
    && d.refine.all (fun e => e < (s.context ctx).evCount && (s.event ctx e).refinable && (s.event ctx e).owner.isNone)

/-! ## Conditions and firing (R350, R351) -/

/-- The half of firedversion that a condition gives. -/
def firedHalf (s : State) (ctx : Nat) (w : WaitCond) : Nat :=
  let ev := s.event ctx w.event
  if w.mode = 0 || !ev.refinable then 0 else ev.count.toNat % 65536

def Launch.teams (l : Launch) : Nat := l.desc.tx * l.desc.ty * l.desc.tz

/-- Teams of the launch that fall to a die (R321). -/
def Launch.share (l : Launch) (die : Nat) : Nat :=
  if l.desc.spread then (l.teams + 3 - die) / 4 else if die = l.die then l.teams else 0

/-- The dies that place teams of the launch. -/
def Launch.dies (l : Launch) : List Nat := if l.desc.spread then [0, 1, 2, 3] else [l.die]

/-- A die has a team of the instance still to place. -/
def Launch.unplaced (l : Launch) (die : Nat) : Bool := !l.stopped && l.nextTeam.get 0 die < l.share die

/-- A pending list has room (R323). -/
def roomPending (s : State) (l : Launch) : Bool := l.dies.all (fun d => (s.die d).pending.length < 1024)

/-- No core keeps a constant line of a context that was read before now, or that is being read from another node (R34). -/
def dropConst (ctx : Nat) (s : State) : State :=
  { s with
    cores := s.cores.map (fun (k : Nat × Core) => (k.1, { k.2 with const := k.2.const.filter (fun x => x.ctx ≠ ctx) }))
    ops := s.ops.map (fun (o : Nat × Op) =>
      if o.2.kind = .fetch && o.2.order = 1 && o.2.ctx = ctx then (o.1, { o.2 with stopping := true }) else o) }

/-- The launch fires: a fresh pending launch on each of its dies, its priority at PRIO (R323, R351); code memory is as
it stands now (R27), and its constant windows are read anew (R34). -/
def fire (id : Nat) (l : Launch) (s : State) : State :=
  let ver := (chases l).foldl (fun t w => t.set w.event (verAt s l.ctx w.event)) ([] : Tab Nat)
  let fired := BitVec.ofNat 32 (firedHalf s l.ctx l.desc.wait0 + 65536 * firedHalf s l.ctx l.desc.wait1)
  let s := s.modLaunch id (fun l =>
    { l with
      state := .running, fired := fired, lastVer := ver, nextTeam := [], endedTeams := 0, stopped := false, age := s.tick, due := false
      prio := l.dies.map (fun d => (d, l.desc.prio)), code := s.mem })
  let s := dropConst l.ctx { s with tick := s.tick + 1 }
  (l.dies.filter (fun d => l.share d ≠ 0)).foldl (fun s d => s.modDie d (fun x => { x with pending := x.pending ++ [id] })) s

/-- CONSUMER_FIRE (R350, R351): a launch that its conditions have released fires once the pending lists have room. -/
def execConsumerFire (id : Nat) (s : State) : Out :=
  match s.launches.find? id with
  | none => .next s
  | some l =>
    if !l.due then .next s
    else if !roomPending s l then .next (s.push [.consumerFire id])
    else .next (fire id l s)

/-- Teams of the instance placed so far. -/
def Launch.placed (l : Launch) : Nat := l.nextTeam.foldl (fun n e => n + e.2) 0

/-- The instance is over: every team of it that was or will be placed has ended (R351, R352). -/
def Launch.over (l : Launch) : Bool :=
  l.state = .running && l.endedTeams = l.placed && l.dies.all (fun d => !l.unplaced d)

/-- The last team of an instance has exited (R351). -/
def leaveRunning (id : Nat) (s : State) : State :=
  match s.launches.find? id with
  | none => s
  | some l =>
    if !l.over then s
    else
      let s := l.dies.foldl (fun s d => s.modDie d (fun x =>
        { x with
          pending := x.pending.filter (· ≠ id)
          reservation := x.reservation.filter (fun r => r.2.1 ≠ id) })) s
      if (chases l).isEmpty || (!l.stopped && onFinal s l) then finishLaunch id s
      else evalLaunch id (s.modLaunch id (fun l => { l with state := .idle }))

/-- OWNER_RETIRE (R348): every owned event FINAL at its home table; only then is the launch's exit counted (R320). -/
def execOwnerRetire (id : Nat) (s : State) : Out :=
  match s.launches.find? id with
  | none => .next s
  | some l =>
    if l.retired then .next s
    else
      let s := l.owned.foldl (fun s e =>
        if (s.event l.ctx e).owner = some id then
          changeEvent l.ctx e (fun x => { x with count := verWord (verOf x.count) true, owner := none }) s
        else s) s
      let s := s.modLaunch id (fun l => { l with retired := true, owned := [] })
      .next (s.modLaunch l.root (fun r => { r with counter := r.counter - 1 }))

/-- The launches of a root's tree. -/
def treeOf (s : State) (root : Nat) : List (Nat × Launch) := s.launches.filter (fun l => l.2.root = root)

/-- R353: the tree has settled. -/
def settles (s : State) (id : Nat) (l : Launch) : Bool :=
  l.root = id && l.queue.isSome && !l.settled && l.counter = 0
    && l.treeEvents.all (fun e => finalAt s l.ctx e)
    && (treeOf s id).all (fun x => (chases x.2).isEmpty || x.2.state = .done)

/-- COMMAND_SETTLE (R319, R353): DONEEV signalled and the host told (R379). -/
def execCommandSettle (id : Nat) (s : State) : Out :=
  match s.launches.find? id with
  | none => .next s
  | some l =>
    if !settles s id l then .next s
    else
      let s := s.modLaunch id (fun l => { l with settled := true })
      let q := l.queue.getD (0xFFFF, 0)
      let s := ringWrite l.ctx { kind := 1, qid := q.1, cidx := q.2 } s
      let e := s.event l.ctx l.doneEv
      .next (if l.doneEv = 0xFFFF || (s.context l.ctx).evCount ≤ l.doneEv || e.refinable then s
        else signalEvent l.ctx l.doneEv l.doneN s)

/-! ## Acceptance (R319, R320, R346) -/

/-- A launch record is accepted: its events are owned, and it waits for its conditions. -/
def accept (l : Launch) (s : State) : State :=
  let id := s.launches.fresh
  let root := if l.depth = 0 then id else l.root
  let l := { l with root := root, owned := l.desc.refine }
  let s := l.desc.refine.foldl (fun s e =>
    changeEvent l.ctx e (fun x => { x with owner := some id, count := 0, stop := false }) s) s
  let s := ({ s with launches := s.launches.set id l }).modLaunch root (fun r =>
    { r with counter := r.counter + 1, treeEvents := r.treeEvents ++ l.desc.refine.filter (fun e => !r.treeEvents.contains e) })
  evalLaunch id s

/-- A dispatcher's reads belong to no team. -/
def noTeam : Nat := 2 ^ 64

/-- The read from other nodes that an event has begun. -/
def readOf (s : State) (e : Instr) : Option (Nat × Op) :=
  List.find? (fun (o : Nat × Op) => o.2.kind = .fetch && o.2.order = 2 && o.2.instr = e) s.ops

/-- An event that reads is over, with the read that it began on other nodes and its places in slices' queues. -/
def quit (e : Instr) (s : State) : State :=
  let s := forget e s
  match readOf s e with
  | some o => abandon o.1 s
  | none => s

/-- Where the lines begin that n bytes at an address lie in. -/
def readVas (va : Dword) (n : Nat) : List (Dword × Nat) :=
  let at_ := fun (i : Nat) => if i = 0 then 0 else 128 * i - va.toNat % 128
  ((List.range (n / 128 + 2)).filter (fun i => at_ i < n)).map (fun i => (va + BitVec.ofNat 64 (at_ i), min n (at_ (i + 1)) - at_ i))

/-- The pieces, one a line, of n bytes at a virtual address that a dispatcher reads, with their lengths; or the fault. -/
def readable (s : State) (e : Instr) (core ctx : Nat) (va : Dword) (n : Nat) : Except TFault (List (Phys × Nat)) :=
  (readVas va n).mapM (fun x =>
    match translateFor s e core ctx .load false x.1 with
    | .ok p => .ok (p, x.2)
    | .error f => .error f)

/-- The requests to home slices of this package for some pieces. -/
def pieceStops (ps : List (Phys × Nat)) : List Stop :=
  ((ps.filter (fun x => x.1.tr.node.isNone)).map (fun x => (⟨x.1.home, x.1.pa / 128, 1⟩ : Stop))).dedup

/-- The bytes of some pieces: as their home slices, or another node, gave them. -/
def piecesBytes (o : Op) (ts : List Trip) (ps : List (Phys × Nat)) : List Byte :=
  ps.flatMap (fun x =>
    let d := if x.1.tr.node.isNone then tripData ts (x.1.pa / 128)
      else ((o.parts.find? (fun p => p.key = lineKey x.1.tr.node (x.1.pa / 128))).map (·.ldata)).getD 0
    (List.range x.2).map (fun k => lineByte d (x.1.pa % 128 + k)))

/-- The header of the save pool that a record names, as an event's replies have brought it: NSLOT and SLOTSZ (R388). -/
def poolShape (s : State) (e : Instr) (core ctx : Nat) (d : LaunchRec) (ts : List Trip) : Option (Nat × Nat) :=
  match (blockStop s e core ctx d.savePool).bind (tripFor ts) with
  | some t => if t.stage = .done && !t.bad then some (leNat (t.bytes.take 4), leNat ((t.bytes.drop 8).take 8)) else none
  | none => none

/-- What a dispatcher's read of pieces needs beyond them, where they are a launch record: the header of its pool once the record
is there, and then the translations of all pages of the pool (R317, R388). -/
def poolNeeds (s : State) (e : Instr) (core ctx : Nat) (o : Op) (ps : List (Phys × Nat)) : List Dword × List Stop :=
  let ts := s.tripsOf e
  if !allBack ts (pieceStops ps) || ts.any (fun t => (pieceStops ps).contains t.stop && t.bad) then ([], [])
  else
    let d := parseRecord (piecesBytes o ts ps)
    let x := (blockStop s e core ctx d.savePool).toList
    (d.savePool :: poolPages d (poolShape s e core ctx d ts), x)

/-- A read from other nodes begins (R65); the event has another turn when it is answered. -/
def startRead (e : Instr) (die ctx : Nat) (va : Dword) (ps : List Phys) (s : State) : State :=
  let o : Op :=
    { kind := .fetch, instr := e, ref := ⟨noTeam, 0, 0⟩, ctx := ctx, core := dispatchCore die, order := 2, val := va, scope := 3
      parts := partsOf (ps.map (fun p => (0, va, p))) }
  let id := s.nextOp
  sendParts id { s with ops := s.ops.set id o, nextOp := id + 1 }

/-- A dispatcher's request at a home slice: a line that it reads, or the header of a save pool. -/
def readLook (e : Instr) (t : Trip) (s : State) : Out :=
  if t.stop.span = 1 then
    atSliceWith { home := t.home, line := t.line } e s (fun _ => none) (fun s =>
      let d := homeData t.home t.line (s.mem.line t.line) s
      .next (returned t (fun x => { x with data := d.1, bad := poisoned s t.line }) d.2))
  else
    atBlock e t [0] s (fun s =>
      let p := blockBytes t [0] false s
      .next (returned t (fun x => { x with bytes := p.1, bad := poisoned s t.line }) p.2))

/-- A dispatcher reads n bytes at their home slices (R319, R337), on other nodes too (R65, R342), and the pool's header with a
launch record; poison in the bytes is a memory error. -/
def dispatchRead (e : Instr) (die ctx : Nat) (va : Dword) (n : Nat) (record : Bool) (s : State) (bad : Nat → State → Out)
    (ok : List Byte → List Trip → State → Out) : Out :=
  let q : Requester := .command die
  let core := dispatchCore die
  withPins e q core ctx ((readVas va n).map (·.1)) s (fun s =>
    match readable s e core ctx va n with
    | .error f => bad f.code (quit e s)
    | .ok ps =>
      let finish := fun (o : Op) (s : State) =>
        let more := if record then poolNeeds s e core ctx o ps else ([], [])
        withPins e q core ctx more.1 s (fun s =>
          journey e q (pieceStops ps ++ more.2) (readLook e)
            (fun ts s => if ts.any (fun t => t.stop.span = 1 && t.bad) then bad tMemory (quit e s)
              else ok (piecesBytes o ts ps) ts s) s)
      if ps.all (fun x => x.1.tr.node.isNone) then finish {} s
      else match readOf s e with
        | none => .next (startRead e die ctx va ((ps.filter (fun x => x.1.tr.node.isSome)).map (·.1)) s)
        | some x =>
          if x.2.code ≠ 0 then bad x.2.code (quit e s)
          else if x.2.pendingParts then .next s
          else finish x.2 s)

/-- What such a read needs. -/
def readPlan (s : State) (e : Instr) (die ctx : Nat) (va : Dword) (n : Nat) (record : Bool) : Plan :=
  let core := dispatchCore die
  let vas := (readVas va n).map (·.1)
  let base : Plan := { who := .command die, core := core, ctx := ctx, vas := vas }
  match readable s e core ctx va n with
  | .error _ => base
  | .ok ps =>
    let more := if record then poolNeeds s e core ctx (((readOf s e).map (·.2)).getD {}) ps else ([], [])
    if ps.any (fun x => x.1.tr.node.isSome) && (readOf s e).isNone then base
    else { base with vas := vas ++ more.1, stops := pieceStops ps ++ more.2 }

/-- A command core's load for a slot's command, through the guard (R369): a check that fails is a guard fault, code 2 and no
other effect. -/
def guardedRead (e : Instr) (die slot ctx : Nat) (a : GuardAccess) (record : Bool) (s : State) (bad : Nat → State → Out)
    (ok : List Byte → List Trip → State → Out) : Out :=
  match guardCheck s die slot ctx a with
  | none => bad 2 (quit e s)
  | some base => dispatchRead e die ctx (BitVec.ofNat 64 (base + a.off)) a.n record s (fun _ s => bad 4 s) ok

/-- SPAWN_REQUEST (R337): the dispatcher reads and checks the record, and answers the split. -/
def execSpawnRequest (r : SplitRef) (addr : Dword) (s : State) : Out :=
  let e := Instr.spawnRequest r addr
  let wait : Out := .next (s.push [e])
  match s.cxOf r with
  | none => .next (quit e s)
  | some c =>
    let die := coreDie c.core
    let refuse := fun (s : State) =>
      Host.Outcome.next { raiseTrap r ⟨5, 2, 0, 0, 0, c.path.pc⟩ (endWait r s) with cur := s.cur }
    if c.split.wait ≠ .spawn then .next (quit e s)
    else if addr.toNat % 64 ≠ 0 || c.launch.depth = 15 then refuse (quit e s)
    else
      dispatchRead e die c.ctx addr 256 true s (fun _ s => refuse s) (fun bs ts s =>
        let core := dispatchCore die
        let good := recordOk s e core c.ctx bs (poolShape s e core c.ctx (parseRecord bs) ts)
        let s := quit e s
        let root := (s.launches.find? c.launch.root).getD c.launch
        let l : Launch :=
          { desc := parseRecord bs, ctx := c.ctx, root := c.launch.root, depth := c.launch.depth + 1, die := die }
        if !good then refuse s
        else if !roomPending s l || 2 ^ 32 ≤ root.counter + 1 then wait
        else .next (releaseSplit r .spawn (accept l s)))

/-! ## Queue commands (R319, R375, R377) -/

def commandAddr (q : QueueRec) (index : Nat) : Dword := q.ring + BitVec.ofNat 64 (64 * (index % 2 ^ q.logcap))

/-- The windows of the command at a slot's HEAD: the packet and the ring, from the record's RING and LOGCAP, and the queue
record (R369). -/
def pullWindows (die slot : Nat) (q : QueueRec) : List GuardWindow :=
  [{ slot := slot, object := .packet, base := (commandAddr q q.head).toNat, len := 64, ctx := q.ctx, r := true },
    { slot := slot, object := .ring, base := q.ring.toNat, len := 64 * 2 ^ q.logcap, ctx := q.ctx, r := true },
    { slot := slot, object := .queueRecord, base := Config.queueRecords.toNat + 4096 * die + 64 * slot, len := 64, ctx := q.ctx
      r := true, w := true }]

/-- Those of a launch command: the launch record that it names, and its context's record, whose layout the spec does not give:
the window names it whole. -/
def launchWindows (die slot : Nat) (q : QueueRec) : List GuardWindow :=
  pullWindows die slot q ++
    [{ slot := slot, object := .launchRecord, base := fieldOf q.cmd 8 8, len := 256, ctx := q.ctx, r := true },
      { slot := slot, object := .contextRecord, base := q.ctx, len := 1, ctx := q.ctx, r := true, w := true }]

/-- The accesses by which a command core takes a command and moves HEAD past it. -/
def packetAccesses : List GuardAccess := [{ object := .packet, n := 64 }, { object := .queueRecord, off := 16, n := 8, store := true }]

/-- HEAD moves past the command at index, and the next one is looked for. -/
def commandDone (die slot index : Nat) (s : State) : State :=
  (updateQueue die slot (fun q => { q with head := index + 1, busy := false }) (closeWindows die slot s)).push [.queueCommandPull die slot]

/-- The command at index of a slot is still the one being handled. -/
def commandCurrent (s : State) (die slot : Nat) (index : Dword) : Bool :=
  let q := s.queue die slot
  q.state = 1 && q.busy && q.head = index.toNat

/-- QUEUE_COMMAND_PULL (R375, R377): a running queue's next command is read, through the window of its ring, and told
apart by its KIND. It waits while the core's guard has no windows for it. -/
def execQueueCommandPull (die slot : Nat) (s : State) : Out :=
  let e := Instr.queueCommandPull die slot
  let q := s.queue die slot
  if q.state ≠ 1 || q.busy || q.kick ≤ q.head then .next (quit e s)
  else if !guardRoom s die slot then .next (s.push [e])
  else
    let s := (pullWindows die slot q).foldl (openWindow die) s
    let stop := fun (code : Nat) (s : State) => Host.Outcome.next (queueError die slot code q.head s)
    if !guardPasses s die slot q.ctx [{ object := .queueRecord, n := 64 }] then stop 2 (quit e s)
    else
      guardedRead e die slot q.ctx { object := .ring, off := 64 * (q.head % 2 ^ q.logcap), n := 64 } false s stop (fun bs _ s =>
        let s := modQueue die slot (fun q => { q with busy := true, cmd := bs }) (quit e s)
        let i := BitVec.ofNat 64 q.head
        match fieldOf bs 0 1 with
        | 0 => .next (s.push [.nullCommand die slot i])
        | 1 => .next (s.push [.launchCommand die slot i])
        | _ => .next (queueError die slot 7 q.head s))

/-- NULL_COMMAND (R375): KIND 0 does nothing. -/
def execNullCommand (die slot : Nat) (index : Dword) (s : State) : Out :=
  if !commandCurrent s die slot index then .next s
  else if !guardRoom s die slot then .next (s.push [.nullCommand die slot index])
  else
    let q := s.queue die slot
    let s := (pullWindows die slot q).foldl (openWindow die) s
    .next (if guardPasses s die slot q.ctx packetAccesses then commandDone die slot index.toNat s
      else queueError die slot 2 index.toNat s)

/-- A launch command's bytes that must be 0 (R319). -/
def commandReserved (bs : List Byte) : Bool :=
  fieldOf bs 1 7 = 0 && fieldOf bs 0x12 2 = 0 && (List.range 40).all (fun i => fieldOf bs (0x18 + i) 1 = 0)

/-- LAUNCH_COMMAND (R319): the record read, checked and accepted as a root, or the queue stopped. While the pending lists have
no room the command waits with its windows closed. -/
def execLaunchCommand (die slot : Nat) (index : Dword) (s : State) : Out :=
  let e := Instr.launchCommand die slot index
  let q := s.queue die slot
  let wait : Out := .next ((closeWindows die slot s).push [e])
  let stop := fun (code : Nat) (s : State) => Host.Outcome.next (queueError die slot code index.toNat s)
  let bs := q.cmd
  let lrec := BitVec.ofNat 64 (fieldOf bs 8 8)
  if !commandCurrent s die slot index then .next (quit e s)
  else if !commandReserved bs then stop 1 (quit e s)
  else if lrec.toNat % 64 ≠ 0 then stop 6 (quit e s)
  else if !guardRoom s die slot then .next (s.push [e])
  else
    let s := (launchWindows die slot q).foldl (openWindow die) s
    let context : List GuardAccess := [{ object := .contextRecord, n := 1 }, { object := .contextRecord, n := 1, store := true }]
    if !guardPasses s die slot q.ctx (packetAccesses ++ context) then stop 2 (quit e s)
    else
      guardedRead e die slot q.ctx { object := .launchRecord, n := 256 } true s stop (fun rs ts s =>
        let core := dispatchCore die
        let good := recordOk s e core q.ctx rs (poolShape s e core q.ctx (parseRecord rs) ts)
        let s := quit e s
        let l : Launch :=
          { desc := parseRecord rs, ctx := q.ctx, die := die, queue := some (q.qid, index.toNat)
            doneEv := fieldOf bs 0x10 2, doneN := BitVec.ofNat 32 (fieldOf bs 0x14 4) }
        if !good then stop 6 s
        else if !roomPending s l then wait
        else .next (commandDone die slot index.toNat (accept l s)))

/-! ## Binding of user queues (R375, R378) -/

def slotList : List (Nat × Nat) := (List.range 4).flatMap (fun d => (List.range 64).map (fun n => (d, n)))

/-- The slots free now, or the running slots whose commands have all been accepted, least recently kicked first. -/
def bindable (s : State) : List (Nat × Nat) :=
  let free := slotList.filter (fun x => (s.queue x.1 x.2).state = 0)
  if !free.isEmpty then free
  else
    let idle := slotList.filter (fun x =>
      let q := s.queue x.1 x.2
      q.state = 1 && !q.busy && q.head = q.kick)
    match idle.foldl (fun m x => match m with
      | none => some x
      | some y => if (s.queue x.1 x.2).last < (s.queue y.1 y.2).last then some x else m) (none : Option (Nat × Nat)) with
    | some x => [x]
    | none => []

/-- A slot gives its queue up; the queue keeps its place and its errors. -/
def leaveSlot (die slot : Nat) (s : State) : State :=
  let q := s.queue die slot
  if q.state = 0 then s
  else
    let s := modUserQueue q.ctx q.qid (fun u =>
      { u with slot := none, head := q.head, err := q.err, stopped := q.state = 2 }) s
    updateQueue die slot (fun r => { ring := 0, version := r.version }) s

/-- A user queue takes a slot, with the value of its pending entry (R378). -/
def bindSlot (ctx qid : Nat) (x : Nat × Nat) (s : State) : State :=
  match (s.context ctx).queues.find? qid with
  | none => s
  | some u =>
    let s := leaveSlot x.1 x.2 s
    let kick := max u.head (u.pending.map (·.toNat) |>.getD 0)
    let s := updateQueue x.1 x.2 (fun r =>
      { r with
        ring := u.ring, ctx := ctx, qid := qid, logcap := u.logcap, state := if u.stopped then 2 else 1, head := u.head, kick := kick, err := u.err
        last := s.tick, busy := false }) s
    let s := modUserQueue ctx qid (fun u => { u with slot := some x, pending := none }) s
    ({ s with tick := s.tick + 1 }).push [.queueCommandPull x.1 x.2]

/-- QUEUE_BIND_PENDING (R378): a pending queue is bound once a slot can be had. -/
def execQueueBindPending (ctx qid : Nat) (s : State) : Out :=
  match (s.context ctx).queues.find? qid with
  | none => .next s
  | some u =>
    if u.slot.isSome || u.pending.isNone then .next s
    else
      let slots := bindable s
      let p := s.choose slots.length
      match slots[p.1]? with
      | some x => .next (bindSlot ctx qid x p.2)
      | none => .next (s.push [.queueBindPending ctx qid])

end Sys2Proof.Machine
end

