-- ==== Sys2Proof/Machine/Place.lean ====
section
/-! DEFINITION. The die dispatchers: what fits where (R15, R87, R200, R321, R322, R388), the order of pending launches
(R323), reservations (R324), and the placing and restoring of teams (R318, R326). -/

namespace Sys2Proof.Machine

/-! ## What a core holds -/

/-- The team occupies its cores. -/
def Team.placed (t : Team) : Bool :=
  t.status = .running || t.status = .raised || t.status = .skidding || t.status = .saving || t.status = .restoring

def teamsOn (s : State) (core : Nat) : List Team := (s.teams.filter (fun t => t.2.placed && t.2.cores.contains core)).map (·.2)

/-- A warp's place: core, quadrant, warp slot, first byte of its region, and the region's size. -/
structure WarpPlace where
  core : Nat
  quad : Nat
  slot : Nat
  region : Nat
  size : Nat
deriving DecidableEq, Repr, Inhabited

/-- The places taken in a quadrant: a team holds all of its own until its last warp has ended (R15). -/
def takenPlaces (s : State) (core quad : Nat) : List WarpPlace :=
  (teamsOn s core).flatMap (fun t =>
    let size := ((s.launches.find? t.launch).map (fun l => regionSize l.desc)).getD 0
    ((t.warps.values.filter (fun w => w.core = core && w.quad = quad))).map
      (fun w => ⟨core, quad, w.slot, w.region, size⟩))

/-- The lowest place of a range of size n among used ranges of (base, size) below a limit: first-fit (R322). -/
def firstFit (used : List (Nat × Nat)) (n limit : Nat) : Option Nat :=
  let starts := 0 :: used.map (fun u => u.1 + u.2)
  let ok := starts.filter (fun a => a + n ≤ limit && used.all (fun u => a + n ≤ u.1 || u.1 + u.2 ≤ a || n = 0 || u.2 = 0))
  match ok with
  | [] => none
  | a :: as => some (as.foldl min a)

/-- One more warp of a team placed (R321, R322). -/
def placeWarp (s : State) (d : LaunchRec) (cores : List Nat) (acc : Option (List WarpPlace)) (w : Nat) :
    Option (List WarpPlace) :=
  match acc with
  | none => none
  | some ps =>
    let h := warpHome d w
    match cores[h.1]? with
    | none => none
    | some core =>
      let taken := takenPlaces s core h.2 ++ ps.filter (fun p => p.core = core && p.quad = h.2)
      match (List.range 16).find? (fun n => !taken.any (fun p => p.slot = n)),
        firstFit (taken.map (fun p => (p.region, p.size))) (regionSize d) 262144 with
      | some slot, some reg => some (ps ++ [⟨core, h.2, slot, reg, regionSize d⟩])
      | _, _ => none

/-- The scratchpad base on a core, if scratchpad, tiles and slots are free there (R322). -/
def areaBase (s : State) (d : LaunchRec) (core : Nat) : Option Nat :=
  let ts := (teamsOn s core).map (fun t => (t, ((s.launches.find? t.launch).map (·.desc)).getD {}))
  let sum := fun (f : LaunchRec → Nat) => ts.foldl (fun n t => n + f t.2) 0
  if sum (·.acct) + d.acct ≤ 8 && sum (·.aslots) + d.aslots ≤ 32 && sum (·.wslots) + d.wslots ≤ 32 then
    firstFit (ts.map (fun t => ((t.1.areas.get {} (if t.1.cores.head? = some core then 0 else 1)).base, t.2.scratch)))
      d.scratch 262144
  else none

/-- The anchor slice of a locket area at a virtual address, and its physical base, where its page is an image page under the
translations that an event has. -/
def areaAnchor (s : State) (e : Instr) (core ctx : Nat) (va : Dword) : Option (Nat × Nat) :=
  (blockStop s e core ctx va).map (fun x => (x.home, 128 * x.line))

/-- The anchor slice and base of a warp's locket area: those of its page, or the last ones where the page is no image page
any more (R87, R388, log entry 106). -/
def warpAnchor (s : State) (e : Instr) (core ctx : Nat) (w : Warp) : Option (Nat × Nat) :=
  areaAnchor s e core ctx w.imageBase <|> w.anchor

/-- The image address of warp w of a team in image slot i (R388, R390). -/
def warpImage (d : LaunchRec) (slotSize i w : Nat) : Dword :=
  d.savePool + BitVec.ofNat 64 (65536 + i * slotSize + 65536 + w * warpImageSize d)

/-- A record can be reserved at each of these anchor slices, of which none is missing (R87). -/
def recordsFit (s : State) (hs : List (Option (Nat × Nat))) : Bool :=
  let at_ := hs.filterMap (·.map (·.1))
  hs.all (·.isSome)
    && at_.all (fun h => (s.slice h).res.length + (s.slice h).reserved + (at_.filter (· = h)).length ≤ 256)

/-- The locket areas of the warps of a team that takes an image slot for the first time. -/
def newImages (d : LaunchRec) (sz i : Nat) : List Dword := (List.range d.warps).map (warpImage d sz i)

/-- The anchors of the warps of a saved team. -/
def savedAnchors (s : State) (e : Instr) (core ctx : Nat) (t : Team) : List (Option (Nat × Nat)) :=
  t.warps.map (fun w => warpAnchor s e core ctx w.2)

/-- The lowest free image slot of a pool, by the header's block in memory (R388). -/
def freeImage (s : State) (t : Trip) : Option Nat :=
  (List.range (min (s.mem.nat (128 * t.line) 4) 65536)).find? (fun i =>
    !(s.mem.byte (128 * t.line + 0x40 + i / 8)).getLsbD (i % 8))

/-- The bit of an image slot in its pool, set or cleared. -/
def imageBit (s : State) (t : Trip) (i : Nat) (v : Bool) : Edit :=
  let b := s.mem.byte (128 * t.line + 0x40 + i / 8) &&& ~~~ BitVec.ofNat 8 (2 ^ (i % 8))
  ⟨0x40 + i / 8, [if v then b ||| BitVec.ofNat 8 (2 ^ (i % 8)) else b]⟩

/-! ## Cores in turn (R322), reservations (R324) -/

/-- Groups of cores of a die in the order in which the dispatcher tries them: one core each, or a pair. -/
def coreGroups (s : State) (die : Nat) (paired : Bool) : List (List Nat) :=
  let last := (s.die die).lastCore
  if paired then (List.range 8).map (fun i => let p := (last / 2 + 1 + i) % 8; [16 * die + 2 * p, 16 * die + 2 * p + 1])
  else (List.range 16).map (fun i => [16 * die + (last + 1 + i) % 16])

/-- A core that a reservation holds, and for which launch (R324). -/
def reservedFor (s : State) (core : Nat) : Option Nat :=
  match (s.die (coreDie core)).reservation with
  | some (c, l, _) =>
    let paired := ((s.launches.find? l).map (fun x => x.desc.paired)).getD false
    if c = core || (paired && core = c + 1) then some l else none
  | none => none

/-- A pre-emption drains the context from the core (R393). -/
def drains (s : State) (ctx core : Nat) : Bool := s.preempts.any (fun p => p.2.ctx = ctx && p.2.cores.contains core)

/-- Where a team of a launch could go: places of its warps and scratchpad bases, by the core group. -/
structure Fit where
  cores : List Nat
  warps : List WarpPlace
  bases : List Nat
deriving DecidableEq, Repr, Inhabited

def fitOn (s : State) (d : LaunchRec) (cores : List Nat) : Option Fit :=
  match (List.range d.warps).foldl (placeWarp s d cores) (some []) with
  | none => none
  | some ws =>
    let bases := cores.filterMap (areaBase s d)
    if bases.length = cores.length then some ⟨cores, ws, bases⟩ else none

/-- The first group that fits: a group reserved for the launch first, then those not reserved. A saved team goes back to its
own die's pending list, as R326 states, and so to cores of that die; that R217 and R202 speak of a restore on another die
is set aside by the model's choice (log entry 122). -/
def findFit (s : State) (die launch : Nat) (l : Launch) (saved : Bool) : Option Fit :=
  let gs := coreGroups s die l.desc.paired
  let mine := gs.filter (fun g => !saved && g.any (fun c => reservedFor s c = some launch))
  let open_ := gs.filter (fun g => g.all (fun c => (reservedFor s c).isNone))
  ((mine ++ open_).filter (fun g => !g.any (drains s l.ctx))).findSome? (fitOn s l.desc)

/-! ## A team at its first instruction (R294, R318, R204) -/

/-- The rows of a warp at its first instruction: its lockets empty, everything else full and 0 (R204). -/
def freshRows (d : LaunchRec) : Tab Row :=
  (List.range (d.globals - 96)).map (fun j => (d.ring + 96 + j, { full := false }))

def freshWarp (l : Launch) (image : Dword) (anchor : Option (Nat × Nat)) (p : WarpPlace) (s : State) : Warp :=
  let m := firstLanes l.desc.lanes
  { core := p.core, quad := p.quad, slot := p.slot, region := p.region, rows := freshRows l.desc
    sregs := l.desc.param.zipIdx.map (fun x => (x.2, ⟨true, x.1⟩))
    splits := [(0, { path := { pc := l.desc.entry, mask := m, b := 0, e := l.desc.ring, depth := 0 } })]
    launchMask := m, live := m, lo := 0, hi := l.desc.ring, imageBase := image, timer := s.clock
    anchor := anchor }

/-- A tile at its team's first instruction: words, row sums and flags are contained results, MODE and E are 0 (R268). -/
def containedTile (seed : Nat) : Tile :=
  let flags := Config.freeByte seed 16512
  { seed := seed, rowSums := (List.range 128).map (fun i => (i, BitVec.ofNat 64 (Config.freeByte seed (16384 + i))))
    rsv := flags.testBit 0, nanf := flags.testBit 1, satf := flags.testBit 2, eovf := flags.testBit 3 }

/-- The team's area of a core, its contents contained results (R142, R268). -/
def freshArea (d : LaunchRec) (base seed : Nat) : Area :=
  { base := base, scratch := { seed := seed }
    aslots := (List.range d.aslots).map (fun i => (i, { seed := seed + 1 + i }))
    wslots := (List.range d.wslots).map (fun i => (i, { seed := seed + 33 + i }))
    tiles := (List.range d.acct).map (fun i => (i, containedTile (seed + 65 + i))) }

/-- The warp enters its quadrant's active or pending set (R327). -/
def enterQuad (w : WarpRef) (s : State) : State :=
  let wp := warpOr s w
  enterSet w (decide ((activeWarps s wp.core wp.quad).length < 8)) s

/-- The residency record of a warp is put where it was reserved, in its anchor slice (R87, R209). -/
def installRecord (w : WarpRef) (ctx : Nat) (mask : BitVec 32) (s : State) : State :=
  let wp := warpOr s w
  match wp.anchor with
  | some (h, pa) =>
    (s.modWarp w (fun x => { x with installed := true })).modSlice h (fun sl =>
      { sl with res := sl.res ++ [⟨ctx, pa, wp.core, w, mask⟩] })
  | none => s.modWarp w (fun x => { x with installed := true })

/-- Another team holds the image slot of a pool already (R388). -/
def slotHeld (s : State) (ctx : Nat) (pool : Dword) (i : Nat) (t : Team) : Bool :=
  t.slot = some i && (s.launches.find? t.launch).any (fun l => l.ctx = ctx && l.desc.savePool = pool)

/-- A new team is placed: its warps are ready, its residency records installed. -/
def placeNew (die id : Nat) (l : Launch) (f : Fit) (i : Nat) (at_ : List (Dword × Option (Nat × Nat))) (s : State) : State :=
  let k := l.nextTeam.get 0 die
  let index := if l.desc.spread then 4 * k + die else k
  let t := s.teams.fresh
  let warps := (f.warps.zip at_).zipIdx.map (fun p => (p.2, freshWarp l p.1.2.1 p.1.2.2 p.1.1 s))
  let areas := f.bases.zipIdx.map (fun p => (p.2, freshArea l.desc p.1 (s.free + 1 + 128 * p.2)))
  let twice := s.teams.any (fun x => slotHeld s l.ctx l.desc.savePool i x.2)
  let team : Team :=
    { launch := id, index := index, die := die, cores := f.cores, status := .running, warps := warps, areas := areas
      slot := some i, shared := twice }
  let teams : Tab Team := s.teams.map (fun (x : Nat × Team) =>
    if slotHeld s l.ctx l.desc.savePool i x.2 then (x.1, { x.2 with shared := true }) else x)
  let s := { s with teams := teams.set t team, free := s.free + 512 }
  let s := warps.foldl (fun s w => enterQuad ⟨t, w.1⟩ (installRecord ⟨t, w.1⟩ l.ctx 0 s)) s
  let s := s.modLaunch id (fun l => { l with nextTeam := l.nextTeam.set die (k + 1) })
  let s := s.modDie die (fun d =>
    { d with
      lastCore := (f.cores.getLastD 0) % 16
      reservation := match d.reservation with
        | some (_, x, _) => if x = id then none else d.reservation
        | none => none })
  match s.launches.find? id with
  | some l => if l.unplaced die then s else s.modDie die (fun d => { d with pending := d.pending.filter (· ≠ id) })
  | none => s

/-- A saved team gets its cores again; its records are reserved and its warps' images will be read (R87, R88, R326). -/
def placeSaved (ev : Instr) (die t : Nat) (l : Launch) (f : Fit) (s : State) : State :=
  match s.team? t with
  | none => s
  | some tm =>
    let warps := tm.warps.map (fun e => (e.1,
      let p := f.warps.getD e.1 default
      { e.2 with
        core := p.core, quad := p.quad, slot := p.slot, region := p.region, installed := false, flushed := false, marked := false
        anchor := warpAnchor s ev (dispatchCore die) l.ctx e.2 }))
    let areas := tm.areas.map (fun e => (e.1, { e.2 with base := f.bases.getD e.1 0 }))
    let s := s.modTeam t (fun tm =>
      { tm with status := .restoring, oldCores := tm.cores, cores := f.cores, ill := none, warps := warps, areas := areas })
    let s := warps.foldl (fun s w =>
      match w.2.anchor with
      | some (h, _) => s.modSlice h (fun sl => { sl with reserved := sl.reserved + 1 })
      | none => s) s
    let s := s.modDie die (fun d =>
      { d with lastCore := (f.cores.getLastD 0) % 16, savedTeams := d.savedTeams.filter (· ≠ t) })
    s.push ((tm.warps.map (fun w => .restoreRecordInstall ⟨t, w.1⟩)) ++ [.teamRestore t])

/-! ## The pending list (R323, R326) -/

/-- What a dispatcher may place next: a launch, or a saved team, with its effective priority and age. -/
structure Pend where
  launch : Nat
  team : Option Nat
  prio : Nat
  age : Nat
deriving DecidableEq, Repr, Inhabited

/-- a comes before b: higher priority, then older, then a saved team. -/
def Pend.before (a b : Pend) : Bool :=
  b.prio < a.prio || (a.prio = b.prio && (a.age < b.age || (a.age = b.age && a.team.isSome && b.team.isNone)))

def insertPend (p : Pend) : List Pend → List Pend
  | [] => [p]
  | q :: qs => if p.before q then p :: q :: qs else q :: insertPend p qs

/-- The entries of a die's pending list in the order of its scan. -/
def pendList (s : State) (die : Nat) : List Pend :=
  let d := s.die die
  let ls := d.pending.filterMap (fun id => (s.launches.find? id).bind (fun l =>
    if l.unplaced die then some ⟨id, none, l.prio.get 0 die, l.age⟩ else none))
  let ts := d.savedTeams.filterMap (fun t => (s.team? t).bind (fun tm => (s.launches.find? tm.launch).map (fun l =>
    (⟨tm.launch, some t, l.prio.get l.desc.prio die, l.age⟩ : Pend))))
  (ts ++ ls).foldl (fun acc p => insertPend p acc) []

/-- Where the team of an entry would go now. -/
def fitOf (s : State) (die : Nat) (p : Pend) : Option Fit :=
  (s.launches.find? p.launch).bind (fun l => findFit s die p.launch l p.team.isSome)

/-- The group with the fewest resident teams, the lowest on a tie (R324). -/
def leastLoaded (s : State) (die : Nat) (paired : Bool) : Nat :=
  let gs := if paired then (List.range 8).map (fun i => [16 * die + 2 * i, 16 * die + 2 * i + 1])
    else (List.range 16).map (fun i => [16 * die + i])
  let load := fun (g : List Nat) => (s.teams.filter (fun t => t.2.placed && g.any (fun c => t.2.cores.contains c))).length
  ((gs.foldl (fun m g => match m with
    | none => some g
    | some h => if load g < load h then some g else m) (none : Option (List Nat))).bind List.head?).getD (16 * die)

/-- A reservation for the oldest launch at priority 23 whose next team does not fit (R324). -/
def makeReservation (die : Nat) (s : State) : State :=
  if (s.die die).reservation.isSome then s
  else match (pendList s die).find? (fun p => p.prio = 23 && p.team.isNone && (fitOf s die p).isNone) with
    | some p =>
      let paired := ((s.launches.find? p.launch).map (fun l => l.desc.paired)).getD false
      (s.modDie die (fun d => { d with reservation := some (leastLoaded s die paired, p.launch, s.clock) })).pushOnce
        (.reservationTimeout die)
    | none => s

/-- The first entry of the scan whose team fits on some cores, but for those passed over in it already (R323). -/
def nextPlace (die : Nat) (s : State) : Option (Pend × Fit) :=
  ((pendList s die).filter (fun p => !(s.die die).skip.contains (p.launch, p.team))).findSome? (fun p =>
    (fitOf s die p).map (fun f => (p, f)))

/-- The entry is passed over in this scan: it fits no image slot, or no residency records. -/
def passOver (die : Nat) (x : Nat × Option Nat) (s : State) : State :=
  s.modDie die (fun d => { d with placing := none, skip := d.skip ++ [x] })

/-- An image slot is to be freed by the dispatcher of a die (R388). -/
def freeSlot (die ctx : Nat) (pool : Dword) (i : Nat) (s : State) : State :=
  s.modDie die (fun d => { d with freeing := d.freeing ++ [(ctx, pool, i)] })

/-- The request that clears the bit of an image slot (R388). -/
def freeStep (die ctx : Nat) (pool : Dword) (i : Nat) (s : State) : Out :=
  let e : Instr := .teamPlace die
  let q : Requester := .command die
  withPins e q (dispatchCore die) ctx [pool] s (fun s =>
    journey e q (blockStop s e (dispatchCore die) ctx pool).toList
      (fun t s => atBlock e t [(0x40 + i / 8) / 128] s (fun s =>
        .next (returned t (fun x => x) (writeBlock t.home t.line [imageBit s t i false] s))))
      (fun _ s => .next ((unpin e s).modDie die (fun d => { d with freeing := d.freeing.drop 1 }))) s)

/-- What the request for an image slot brought: the slot and the pool's slot size. -/
def slotTaken (ts : List Trip) (x : Option Stop) : Option (Nat × Nat) :=
  (x.bind (tripFor ts)).bind (fun t =>
    if t.stage ≠ .done || t.bad || t.bytes.isEmpty then none
    else some (leNat (t.bytes.take 4), leNat (t.bytes.drop 4)))

/-- The first byte of image slot i. -/
def slotVa (d : LaunchRec) (x : Nat × Nat) : Dword := d.savePool + BitVec.ofNat 64 (65536 + x.1 * x.2)

/-- What the placing of a launch's next team needs: the header of its pool, and then the slot's header and locket areas. -/
def placeNeeds (s : State) (die : Nat) (l : Launch) : List Dword × List Stop :=
  let e : Instr := .teamPlace die
  let core := dispatchCore die
  let hdr := blockStop s e core l.ctx l.desc.savePool
  match slotTaken (s.tripsOf e) hdr with
  | none => ([l.desc.savePool], hdr.toList)
  | some x =>
    (l.desc.savePool :: slotVa l.desc x :: newImages l.desc x.2 x.1, hdr.toList ++ blockStops s e core l.ctx [slotVa l.desc x])

/-- The dispatcher's requests for a new team: the lowest free image slot is taken by one atomic update of the pool's bitmap
(R388), and the header of a team never halted is written: STATE running, nothing asked of the device (R389, R394). -/
def placeLook (e : Instr) (hdr : Option Stop) (t : Trip) (s : State) : Out :=
  if some t.stop = hdr then
    let ks := List.range ((0x40 + (min (s.mem.nat (128 * t.line) 4) 65536 + 7) / 8 + 127) / 128)
    atBlock e t ks s (fun s =>
      if ks.any (fun k => poisoned s (t.line + k)) then .next (returned t (fun x => { x with bad := true }) s)
      else match freeImage s t with
        | none => .next (returned t (fun x => x) s)
        | some i =>
          let sz := s.mem.nat (128 * t.line + 8) 8
          .next (returned t (fun x => { x with bytes := leBytes 4 i ++ leBytes 8 sz }) (writeBlock t.home t.line [imageBit s t i true] s)))
  else atBlock e t [0] s (fun s => .next (returned t (fun x => x) (writeBlock t.home t.line [⟨0, leBytes 64 0⟩] s)))

/-- The next team of a launch is placed, unless it has no image slot or does not fit any more; then its slot is freed
again. -/
def placeEnd (die id : Nat) (l : Launch) (ts : List Trip) (s : State) : State :=
  let e : Instr := .teamPlace die
  let core := dispatchCore die
  match slotTaken ts (blockStop s e core l.ctx l.desc.savePool) with
  | none => unpin e (passOver die (id, none) s)
  | some x =>
    let at_ := (newImages l.desc x.2 x.1).map (fun va => (va, areaAnchor s e core l.ctx va))
    let s := unpin e s
    match (if l.unplaced die then findFit s die id l false else none) with
    | some f =>
      if recordsFit s (at_.map (·.2)) then
        placeNew die id l f x.1 at_ (s.modDie die (fun d => { d with placing := none, skip := [] }))
      else freeSlot die l.ctx l.desc.savePool x.1 (passOver die (id, none) s)
    | none => freeSlot die l.ctx l.desc.savePool x.1 (passOver die (id, none) s)

/-- The placing of a launch's next team goes on. -/
def placeStep (die id : Nat) (s : State) : Out :=
  let e : Instr := .teamPlace die
  let q : Requester := .command die
  match s.launches.find? id with
  | none => .next ((forget e s).modDie die (fun d => { d with placing := none }))
  | some l =>
    withPins e q (dispatchCore die) l.ctx (placeNeeds s die l).1 s (fun s =>
      journey e q (placeNeeds s die l).2 (placeLook e (blockStop s e (dispatchCore die) l.ctx l.desc.savePool))
        (fun ts s => .next (placeEnd die id l ts s)) s)

/-- A saved team is placed, if its records can be reserved; or it is passed over. -/
def restoreStep (die : Nat) (p : Pend) (t : Nat) (f : Fit) (s : State) : Out :=
  let e : Instr := .teamPlace die
  match s.launches.find? p.launch, s.team? t with
  | some l, some tm =>
    withPins e (.command die) (dispatchCore die) l.ctx (tm.warps.map (fun w => w.2.imageBase)) s (fun s =>
      .next (unpin e (if recordsFit s (savedAnchors s e (dispatchCore die) l.ctx tm) then
          placeSaved e die t l f (s.modDie die (fun d => { d with skip := [] }))
        else passOver die (p.launch, some t) s)))
  | _, _ => .next (passOver die (p.launch, p.team) s)

/-- TEAM_PLACE (R322 to R324, R388): capacity is reserved where R324 asks for it, and the first entry of the scan whose team
fits is placed: a saved team, or the next one of a launch, which takes an image slot first. Image slots given up are freed
before. -/
def execTeamPlace (die : Nat) (s : State) : Out :=
  match (s.die die).placing, (s.die die).freeing with
  | some id, _ => placeStep die id s
  | none, (ctx, pool, i) :: _ => freeStep die ctx pool i s
  | none, [] =>
    let s := makeReservation die s
    match nextPlace die s with
    | none => .next (s.modDie die (fun d => { d with skip := [] }))
    | some (p, f) => match p.team with
      | some t => restoreStep die p t f s
      | none => .next ((s.modDie die (fun d => { d with placing := some p.launch })).push [.teamPlace die])

/-- What the dispatcher's requests need. -/
def teamPlacePlan (s : State) (die : Nat) : Plan :=
  let base : Plan := { who := .command die, core := dispatchCore die }
  match (s.die die).placing, (s.die die).freeing with
  | some id, _ => (match s.launches.find? id with
      | some l => let n := placeNeeds s die l
        { base with ctx := l.ctx, vas := n.1, stops := n.2 }
      | none => base)
  | none, (ctx, pool, _) :: _ =>
    { base with ctx := ctx, vas := [pool], stops := (blockStop s (.teamPlace die) (dispatchCore die) ctx pool).toList }
  | none, [] => base

/-- PRIORITY_AGING (R323): one more after 65,536 cycles pending, up to 23. -/
def execPriorityAging (launch die : Nat) (s : State) : Out :=
  .next (s.modLaunch launch (fun l => { l with prio := l.prio.set die (min 23 (l.prio.get l.desc.prio die + 1)) }))

end Sys2Proof.Machine
end

