-- ==== Sys2Proof/Machine/Image.lean ====
section
/-! DEFINITION. The contents of a team's image: the team header with its fault record (R385 to R387, R389), the warps'
register blocks and control blocks (R390, R391) and the core areas, as a save writes them and a restore reads them. -/

namespace Sys2Proof.Machine

/-! ## Places -/

def launchOfTeam (s : State) (t : Nat) : Option Launch := (s.team? t).bind (fun tm => s.launches.find? tm.launch)

/-! ## Incomplete operations (R386) -/

/-- The team's operations, in order of issue. -/
def teamOps (s : State) (t : Nat) : List (Nat × Op) := List.filter (fun (o : Nat × Op) => o.2.ref.team = t) s.ops

def isCopy (o : Op) : Bool := o.kind = .copy

/-- The request of a queue operation is held at its slice (R333). -/
def isHeld (s : State) (id : Nat) : Bool := s.slices.any (fun e => e.2.held.any (fun x => eventOp x = some id))

/-- KIND of an incomplete operation. -/
def incKind (s : State) (id : Nat) (o : Op) : Nat :=
  if isCopy o then 2
  else if o.kind = .accld then 3
  else if o.kind = .drain then 4
  else if o.kind = .spill || o.kind = .refill then 5
  else if heldToken s id o then 6
  else if o.kind = .xshfl then 7
  else if isHeld s id then 8
  else if o.fault.isSome then 1
  else 9

/-- A reply or completion of the operation will be written into the image. -/
def replies (o : Op) : Bool := o.produces || !o.dests.isEmpty || o.kind = .vchk

/-- An operation of the matrix engine, or a read of a tile, that a save has found behind a DRAIN or ACCLD of its tile that has
faulted: the image lists it like an operation whose reply is outstanding, and the restore takes it up in its place (R277,
R386, log entry 105). -/
def carried (o : Op) : Bool :=
  match o.kind with
  | .mma | .accz | .accrd | .accq => true
  | _ => false

/-- The operation is left for the restore to take up: faulted, an engine's or tracker's, held, or behind another. -/
def restoreActs (s : State) (id : Nat) (o : Op) : Bool :=
  carried o || incKind s id o ≠ 9 || o.parts.any (fun p => !p.sent && !p.done && blockedPart s id o p)

/-- First address not yet performed, or the target. -/
def incAddr (o : Op) : Nat :=
  match o.kind with
  | .copy => (copyShape o.instr o.regs).dst
  | .drain => (o.regs.getD 0 0).toNat
  | .ksend => (o.regs.getD 0 0).toNat
  | .xshfl => 0
  | _ =>
    let ps := o.parts.filter (fun p => !p.done)
    ((o.lanes.find? (fun a => ps.any (fun p => p.key = a.key))).getD (o.lanes.headD {})).va.toNat

/-- PROG1 and PROG2. -/
def incProg (o : Op) : Nat × Nat :=
  match o.kind with
  | .copy => (o.prog, o.mask.toNat)
  | .drain => (o.prog, 0)
  | .spill | .refill => (1, 0)
  | .xshfl => ((o.lanes.headD {}).c.toNat, 0)
  | _ => (0, 0)

def incPayload (s : State) (id : Nat) (o : Op) : List Byte :=
  match o.kind with
  | .copy | .drain => fit 64 (o.regs.flatMap (fun r => leBytes 8 r.toNat))
  | .ksend =>
    match ((s.warp? (warpOf o.ref)).map (·.tokens)).getD [] |>.find? (fun t => t.op = id) with
    | some t => fit 64 (o.regs.flatMap (fun r => leBytes 8 r.toNat) ++ [BitVec.ofNat 8 t.key, BitVec.ofNat 8 t.scope])
    | none => zeros 64
  | .xshfl => fit 64 (leBytes 8 ((o.lanes.filter (fun a => !a.answered)).foldl (fun n a => n + 2 ^ a.lane) 0)
      ++ [BitVec.ofNat 8 o.ty])
  | _ => zeros 64

def wordOf (o : Op) : Nat := (((encode o.instr).getD 0).extractLsb' 0 32).toNat

/-- One entry of the list, 128 bytes. -/
def incEntry (s : State) (id : Nat) (o : Op) : List Byte :=
  let k := incKind s id o
  let cont := k = 2 || k = 4
  let flags := (if o.fault.isSome then 1 else 0) + (if k = 8 || k = 9 && !carried o || cont then 0 else 2) + (if cont then 4 else 0)
  let p := incProg o
  [BitVec.ofNat 8 k, BitVec.ofNat 8 o.ref.warp, BitVec.ofNat 8 o.pk, BitVec.ofNat 8 flags] ++ leBytes 2 o.prodn.toNat
    ++ zeros 2 ++ leBytes 4 o.pc.toNat ++ leBytes 4 (wordOf o) ++ leBytes 8 (incAddr o) ++ leBytes 8 p.1
    ++ leBytes 8 p.2 ++ zeros 24 ++ incPayload s id o

/-- The entry of a warp whose refills or spills had not finished: they continue with the rows still to move (R73). -/
def windowEntry (s : State) (t : Nat) (l : Launch) (e : Nat × Warp) : List Byte :=
  let row := (e.2.refill ++ e.2.spill).headD 0
  let c := e.2.served.bind (fun x => s.cxOf ⟨t, e.1, x.1⟩)
  let pc := (c.map (fun c => c.path.pc.toNat)).getD 0
  let opw := match c with
    | some c => (match fetchWord s c c.path.pc with
      | .ok w => w.toNat
      | .error _ => 0)
    | none => 0
  [5, BitVec.ofNat 8 e.1, 0, if e.2.moveFault then 5 else 4] ++ zeros 4 ++ leBytes 4 pc ++ leBytes 4 opw ++ leBytes 8 (arenaAddr l.desc row).toNat
    ++ leBytes 8 (e.2.refill.length + e.2.spill.length) ++ zeros 96

/-- Every entry of the list, in its order. -/
def incEntries (s : State) (t : Nat) : List (List Byte) :=
  match s.team? t, launchOfTeam s t with
  | some tm, some l =>
    ((teamOps s t).filter (fun o => restoreActs s o.1 o.2 || replies o.2)).map (fun o => incEntry s o.1 o.2)
      ++ (tm.warps.filter (fun e => !e.2.refill.isEmpty || !e.2.spill.isEmpty)).map (windowEntry s t l)
  | _, _ => []

/-! ## The fault record (R385, R387) -/

def splitRec (sp : Split) : List Byte :=
  let own := sp.own.getD {}
  leBytes 4 sp.path.pc.toNat ++ [BitVec.ofNat 8 (sp.skid + 16 + (if sp.vexit then 32 else 0)), BitVec.ofNat 8 own.cls,
    BitVec.ofNat 8 own.code] ++ zeros 9

def censusOf (w : Warp) : List Byte := (List.range 16).flatMap (censusKey w)

/-- The 32 KiB of the record, for a trap of a warp and split. -/
def faultRecord (s : State) (t : Nat) (tr : Trap) (warp split : Nat) : List Byte :=
  match s.team? t with
  | none => []
  | some tm =>
    let incs := incEntries s t
    let ovf := (if 64 < incs.length then 1 else 0) + (if 64 < tm.events.length then 2 else 0)
      + (if 64 < tm.indets.length then 4 else 0)
    let head := [BitVec.ofNat 8 tr.cls, BitVec.ofNat 8 tr.code, BitVec.ofNat 8 warp, BitVec.ofNat 8 split]
      ++ leBytes 4 tr.pc.toNat ++ leBytes 8 tr.addr.toNat ++ leBytes 8 tr.lmask.toNat ++ leBytes 8 tr.aux.toNat
      ++ leBytes 2 (min 64 incs.length) ++ leBytes 2 (min 64 tm.events.length) ++ leBytes 2 (min 64 tm.indets.length)
      ++ [BitVec.ofNat 8 tm.warps.length, BitVec.ofNat 8 ovf] ++ leBytes 8 tm.haltAt ++ zeros 16
    let splits := (List.range 64).flatMap (fun w => (List.range 4).flatMap (fun n =>
      match (tm.warps.find? w).bind (fun x => x.splits.find? n) with
      | some sp => splitRec sp
      | none => zeros 16))
    let census := (List.range 64).flatMap (fun w => match tm.warps.find? w with
      | some x => censusOf x
      | none => zeros 192)
    head ++ splits ++ census ++ fit 8192 (incs.take 64).flatten ++ eventBytes tm
      ++ indetList tm.indets ++ zeros 5056

/-! ## Control blocks (R391) -/

def pathBytes (p : Path) (rj : Option (BitVec 32)) (arrived waitOnly live : Bool) : List Byte :=
  leBytes 4 p.pc.toNat ++ leBytes 8 p.mask.toNat ++ leBytes 2 p.b ++ leBytes 2 p.e ++ leBytes 2 p.depth
    ++ leBytes 4 ((rj.map (·.toNat)).getD 0xFFFFFFFF)
    ++ [if arrived then 1 else 0, BitVec.ofNat 8 ((if waitOnly then 1 else 0) + if live then 2 else 0)] ++ zeros 8

/-- One split's kilobyte: its running path, its stack from the top down, and its counts. -/
def splitBytes (o : Option Split) : List Byte :=
  match o with
  | none => zeros 1024
  | some sp =>
    fit 1024 (pathBytes sp.path none false sp.waitOnly true
      ++ fit 512 (sp.stack.flatMap (fun e => pathBytes e.path e.rjpc e.arrived false true))
      ++ leBytes 2 sp.backCount ++ leBytes 2 sp.parkCount)

/-- The values of the warp's unmatched posting (R266). -/
def postingBytes (s : State) (w : WarpRef) : List Byte :=
  match openXshfl s w with
  | none => zeros 512
  | some (_, o) => (List.range 64).flatMap (fun l => leBytes 8 (match o.lane? l with
      | some a => if a.answered then 0 else a.b.toNat
      | none => 0))

/-- OUTSTANDING of a warp: its operations whose replies are still to be written, but for those that the image's list was made
with (R391). -/
def outstandingOf (s : State) (w : WarpRef) : Nat :=
  let listed := ((s.team? w.team).map (·.incs)).getD []
  ((teamOps s w.team).filter (fun o => o.2.ref.warp = w.warp && !listed.contains o.1 && !o.2.counted && replies o.2)).length

/-- A warp's control block, 16 KiB. -/
def controlBytes (s : State) (w : WarpRef) (wp : Warp) (bars : Tab Barrier) : List Byte :=
  let sregs := (List.range 64).flatMap (fun n => leBytes 8 (wp.sreg n).val.toNat)
  let fulls := leBytes 8 ((List.range 64).foldl (fun m n => if (wp.sreg n).full then m + 2 ^ n else m) 0)
  let lo32 := fun (m : Mask) => leBytes 4 m.toNat
  let hi32 := fun (m : Mask) => leBytes 4 (m.toNat / 2 ^ 32)
  let barBytes := (List.range 16).flatMap (fun b =>
    let x := bars.get {} b
    leBytes 8 (x.lmask.get 0 w.warp).toNat ++ leBytes 8 (match x.wph.find? w.warp with
      | some p => p.toNat
      | none => 2 ^ 32))
  sregs ++ fulls ++ leBytes 4 (wp.rmode.toNat + if wp.ftz then 8 else 0) ++ leBytes 4 (outstandingOf s w)
    ++ leBytes 2 wp.lo ++ leBytes 2 wp.hi ++ leBytes 4 wp.torcFlags ++ leBytes 8 wp.claims.toNat
    ++ (List.range 7).flatMap (fun p => leBytes 8 (wp.preds.get 0 (p + 1)).toNat)
    ++ lo32 wp.launchMask ++ lo32 wp.live ++ hi32 wp.launchMask ++ hi32 wp.live ++ barBytes ++ zeros 152
    ++ keyBlockBytes wp ++ (List.range 4).flatMap (fun n => splitBytes (wp.splits.find? n))
    ++ indetList wp.indet ++ postingBytes s w ++ zeros 6656

/-- A row's 256 bytes. -/
def rowBytes (d : LaunchRec) (r : Row) : List Byte :=
  fit 256 ((List.range d.lanes).flatMap (fun l => leBytes 4 (r.lane l).toNat))

/-- Register block n: 63 rows and the word of full bits (R390). -/
def regBlockBytes (d : LaunchRec) (wp : Warp) (n : Nat) : List Byte :=
  let rows := (List.range 63).filter (fun k => 63 * n + k < imageRows d)
  let full := rows.foldl (fun m k => if (wp.row (63 * n + k)).full then m + 2 ^ k else m) 0
  fit 16128 (rows.flatMap (fun k => rowBytes d (wp.row (63 * n + k)))) ++ fit 256 (leBytes 8 full)

/-- A tile's raw form, in its stride of 135,168 bytes. -/
def tileBytes (t : Tile) : List Byte := fit 135168 ((List.range 16513).flatMap (fun k => leBytes 8 (rawWord t k).toNat))

/-- The barriers' part of the header. -/
def barrierBytes (bars : Tab Barrier) : List Byte :=
  (List.range 16).flatMap (fun b =>
    let x := bars.get {} b
    fit 64 (leBytes 4 x.ph.toNat ++ [BitVec.ofNat 8 x.exp, BitVec.ofNat 8 x.cnt] ++ zeros 2 ++ leBytes 8 x.amask.toNat))

/-! ## Writing -/

/-- Values that remote writes have put into a locket's row of an image on top of the row's words (R88). -/
def lateRow (late : List (Nat × Mask × List Word)) (j : Nat) (bs : List Byte) : List Byte :=
  (late.filter (fun e => e.1 = j)).foldl (fun bs e =>
    ((lanesOf e.2.1).zip e.2.2).foldl (fun bs v => bs.take (4 * v.1) ++ leBytes 4 v.2.toNat ++ bs.drop (4 * v.1 + 4)) bs) bs

/-- A warp's lockets, control block and register blocks (R77, R392 steps 4 and 5). -/
def warpParts (s : State) (w : WarpRef) (wp : Warp) (l : Launch) (bars : Tab Barrier) : List Region :=
  (List.range (l.desc.globals - 96)).map (fun j => (⟨wp.imageBase + BitVec.ofNat 64 (256 * j), 256,
      fun _ => lateRow wp.late j (rowBytes l.desc (wp.row (l.desc.ring + 96 + j)))⟩ : Region))
    ++ ⟨ctlBlock wp 0, 16384, fun _ => controlBytes s w wp bars⟩
    :: (List.range ((imageRows l.desc + 62) / 63)).map (fun n =>
      (⟨rowPlace wp (63 * n), 16384, fun _ => regBlockBytes l.desc wp n⟩ : Region))

/-- A core area of the image at an address: scratchpad region, tiles, slots (R390). -/
def areaParts (d : LaunchRec) (a : Area) (va : Dword) : List Region :=
  let t0 := d.scratch
  let a0 := t0 + 135168 * d.acct
  let w0 := a0 + aslotSize * d.aslots
  let at_ := fun (n : Nat) => va + BitVec.ofNat 64 n
  ⟨va, d.scratch, fun _ => a.scratch.read 0 d.scratch⟩
    :: (List.range d.acct).map (fun i => (⟨at_ (t0 + 135168 * i), 135168, fun _ => tileBytes (a.tiles.get {} i)⟩ : Region))
    ++ (List.range d.aslots).map (fun i =>
      (⟨at_ (a0 + aslotSize * i), aslotSize, fun _ => (a.aslots.get {} i).read 0 aslotSize⟩ : Region))
    ++ (List.range d.wslots).map (fun i =>
      (⟨at_ (w0 + wslotSize * i), wslotSize, fun _ => (a.wslots.get {} i).read 0 wslotSize⟩ : Region))

/-- The team header but for CONTROL, BPn and STEP, which the host writes: STATE, RESTORES, the fault record and the
barriers. -/
def headerParts (tm : Team) (rec_ : Unit → List Byte) : List Region :=
  let at_ := fun (n : Nat) => headerVa tm + BitVec.ofNat 64 n
  [⟨at_ 8, 8, fun _ => leBytes 8 tm.hstate⟩, ⟨at_ 0x38, 8, fun _ => leBytes 8 tm.restores⟩, ⟨at_ 0x100, 32768, rec_⟩,
    ⟨at_ 0x8100, 1024, fun _ => barrierBytes tm.bars⟩]

/-- The whole image of a team (R392 steps 4 and 5). -/
def imageParts (s : State) (t : Nat) (tm : Team) (l : Launch) : List Region :=
  let tr := tm.halt.getD ({}, 0, 0)
  tm.warps.flatMap (fun e => warpParts s ⟨t, e.1⟩ e.2 l tm.bars)
    ++ (List.range tm.cores.length).flatMap (fun a =>
      areaParts l.desc (tm.areas.get {} a) (headerVa tm + BitVec.ofNat 64 (coreAreaOff l.desc a)))
    ++ headerParts tm (fun _ => faultRecord s t tr.1 tr.2.1 tr.2.2)

/-- The parts of a team's image that a restore reads: header and barriers, control and register blocks, core areas. -/
def imageReads (tm : Team) (l : Launch) : List (Dword × Nat) :=
  (headerVa tm, 64) :: (headerVa tm + 0x8100, 1024)
    :: (tm.warps.filter (fun e => !e.2.released)).flatMap (fun e => (ctlBlock e.2 0, 16384)
      :: (List.range ((imageRows l.desc + 62) / 63)).map (fun n => (rowPlace e.2 (63 * n), 16384)))
    ++ (List.range tm.cores.length).map (fun a =>
      (headerVa tm + BitVec.ofNat 64 (coreAreaOff l.desc a), coreAreaSize l.desc))

/-! ## Reading -/

/-- A path record as a stack entry, with its flags. -/
def entryOf (bs : List Byte) : Entry × Nat :=
  let u := fieldOf bs
  let rj := u 18 4
  (⟨{ pc := BitVec.ofNat 32 (u 0 4), mask := BitVec.ofNat 64 (u 4 8), b := u 12 2, e := u 14 2, depth := u 16 2 },
    if rj = 0xFFFFFFFF then none else some (BitVec.ofNat 32 rj), u 22 1 = 1⟩, u 23 1)

/-- A split from its kilobyte; none where its running path is not live. An exit still to be performed stays with it. -/
def splitOf (bs : List Byte) (old : Option Split) : Option Split :=
  let e := entryOf (bs.take 32)
  if e.2 / 2 % 2 = 0 then none
  else
    let stack := ((List.range 16).map (fun i => entryOf ((bs.drop (32 + 32 * i)).take 32))).filter (fun x => x.2 / 2 % 2 = 1)
    some
      { path := e.1.path, stack := stack.map (·.1), backCount := fieldOf bs 544 2, parkCount := fieldOf bs 546 2
        park := fieldOf bs 546 2 ≠ 0, waitOnly := e.2 % 2 = 1, fresh := true, vexit := (old.map (·.vexit)).getD false }

def indetOf (bs : List Byte) : Indet :=
  let u := fieldOf bs
  { node := BitVec.ofNat 16 (u 0 2), op := u 2 1, fn := u 3 1, ty := u 4 1, pk := u 5 1, lane := u 6 1, pa := u 8 8
    b := BitVec.ofNat 64 (u 16 8), c := BitVec.ofNat 64 (u 24 8) }

/-- A warp's registers and control state from its blocks; lockets stand as the record's installation set them. -/
def warpOfImage (d : LaunchRec) (ctl : List Byte) (blocks : List (List Byte)) (wp : Warp) : Warp :=
  let u := fieldOf ctl
  let row := fun (r : Nat) =>
    let b := blocks.getD (r / 63) []
    let k := r % 63
    ({ full := fieldOf b 16128 8 / 2 ^ k % 2 = 1
       vals := (List.range d.lanes).map (fun l => (l, BitVec.ofNat 32 (fieldOf b (256 * k + 4 * l) 4))) } : Row)
  let wctl := u 0x208 4
  let splits := (List.range 4).filterMap (fun n =>
    (splitOf ((ctl.drop (0xC00 + 1024 * n)).take 1024) (wp.splits.find? n)).map (fun sp => (n, sp)))
  let live := u 0x25C 4 + 2 ^ 32 * u 0x264 4
  let lockets := wp.rows.filter (fun e => imageRows d ≤ e.1)
  { loadKeyBlock ((ctl.drop 0x400).take 2048) wp with
    rows := (List.range (imageRows d)).map (fun r => (r, row r)) ++ lockets
    sregs := (List.range 64).map (fun n => (n, ⟨u 0x200 8 / 2 ^ n % 2 = 1, BitVec.ofNat 64 (u (8 * n) 8)⟩))
    preds := (List.range 7).map (fun p => (p + 1, BitVec.ofNat 64 (u (0x220 + 8 * p) 8)))
    rmode := BitVec.ofNat 3 wctl, ftz := wctl / 8 % 2 = 1
    lo := u 0x210 2, hi := u 0x212 2
    upTo := (splits.flatMap (fun e => e.2.path :: e.2.stack.map (·.path))).foldl (fun m p => max m (p.b + p.e)) 0
    moveFault := false, torcFlags := u 0x214 4, claims := BitVec.ofNat 64 (u 0x218 8)
    launchMask := BitVec.ofNat 64 (u 0x258 4 + 2 ^ 32 * u 0x260 4), live := BitVec.ofNat 64 live
    splits := splits
    indet := (wp.indet.zipIdx).map (fun e => indetOf ((ctl.drop (0x1C00 + 32 * e.2)).take 32)) }

/-- A barrier from the header and the control blocks of the warps. -/
def barrierOf (hdr : List Byte) (ctls : List (Nat × List Byte)) (b : Nat) : Barrier :=
  let h := fieldOf ((hdr.drop (64 * b)).take 64)
  { ph := BitVec.ofNat 32 (h 0 4), exp := h 4 1, cnt := h 5 1, amask := BitVec.ofNat 64 (h 8 8)
    lmask := ctls.map (fun c => (c.1, BitVec.ofNat 64 (fieldOf c.2 (0x268 + 16 * b) 8)))
    wph := ctls.filterMap (fun c =>
      let x := fieldOf c.2 (0x270 + 16 * b) 8
      if x / 2 ^ 32 % 2 = 1 then none else some (c.1, BitVec.ofNat 32 x)) }

def storeOf (bs : List Byte) : Store := { bytes := bs.zipIdx.map (fun e => (e.2, e.1)) }

/-- A core area from its bytes; the places that the dispatcher chose stay. -/
def areaOfBytes (d : LaunchRec) (bs : List Byte) (a : Area) : Area :=
  let t0 := d.scratch
  let a0 := t0 + 135168 * d.acct
  let w0 := a0 + aslotSize * d.aslots
  { a with
    scratch := storeOf (bs.take d.scratch)
    tiles := (List.range d.acct).map (fun i => (i, tileOfRaw ((bs.drop (t0 + 135168 * i)).take rawSize)))
    aslots := (List.range d.aslots).map (fun i => (i, storeOf ((bs.drop (a0 + aslotSize * i)).take aslotSize)))
    wslots := (List.range d.wslots).map (fun i => (i, storeOf ((bs.drop (w0 + wslotSize * i)).take wslotSize))) }

end Sys2Proof.Machine
end

