-- ==== Sys2Proof/Machine/Preempt.lean ====
section
/-! DEFINITION. The end of teams and launches other than by their own exit: pre-emption and its escalation (R393), the
forced reset of a context (R354), and the removal of a context's state when it is destroyed (R74, R213). -/

namespace Sys2Proof.Machine

/-! ## What belongs to a team -/

/-- The team that an event of a core, a warp or a split belongs to. -/
def eventTeam (e : Instr) : Option Nat :=
  match e with
  | .locketDelivery w _ _ _ | .refillRow w _ | .arenaWritePerformed w _ | .laneExitNotice w _ => some w.team
  | .saveRecordRemove w | .restoreRecordInstall w | .flushMarkerArrival w | .spillStep w | .warpRelease w | .hangReport w =>
    some w.team
  | .watchRequest r | .constLineFetch r _ | .wokenDelivery r | .waitmTimeout r | .windowConflictTimeout r
  | .parkCountExpiry r | .eventWaiterEntry r _ _ _ | .spawnRequest r _ => some r.team
  | .teamHalt t | .teamSave t | .teamRestore t | .controlResume t | .controlAbandon t | .controlStep t => some t
  | .teamHeaderWrite t _ _ => some t
  | _ => none

/-- No event of a team is left to come. -/
def purgeTeam (t : Nat) (s : State) : State := purgeEvents (fun e => eventTeam e = some t) s

/-- A team halts for a pre-emption, which raises no fault (R393). -/
def preemptTeam (t : Nat) (discard : Bool) (s : State) : State :=
  match s.team? t with
  | none => s
  | some tm =>
    let s := s.modTeam t (fun tm => { tm with preempted := true, discard := tm.discard || discard })
    if tm.status = .running then (s.modTeam t (fun tm => { tm with status := .raised })).push [.teamHalt t] else s

/-! ## Waits and operations given up -/

/-- Operations that no one waits for any more, with their events and what stands of them in exchange buffers. -/
def dropOps (p : Nat → Op → Bool) (s : State) : State :=
  let ids := (s.ops.filter (fun o => p o.1 o.2)).map (·.1)
  let s := purgeEvents (fun e => (eventOp e).any ids.contains) s
  { s with
    ops := s.ops.filter (fun (o : Nat × Op) => !ids.contains o.1)
    slices := s.slices.map (fun (e : Nat × Slice) => (e.1, { e.2 with exch := e.2.exch.filter (fun x => !ids.contains x.op) })) }

/-- A split's reads from other nodes are given up. -/
def dropFetches (r : SplitRef) (s : State) : State := dropOps (fun _ o => o.kind = .fetch && o.ref = r) s

/-- One split's waits are over: its watch cancelled (R311), its event waiter removed (R339). Waits on answers stay. -/
def dropWait (r : SplitRef) (s : State) : State :=
  match s.split? r with
  | none => s
  | some sp =>
    match sp.wait with
    | .watch _ id =>
      let core := (warpOr s (warpOf r)).core
      let s := modMonitors core (· - 1) s
      let s := { s with slices := s.slices.map (fun (e : Nat × Slice) =>
        (e.1, { e.2 with watches := e.2.watches.filter (fun w => w.id ≠ id) })) }
      let s := purgeEvents (fun e => e = .waitmTimeout r || e = .watchRequest r || e = .wokenDelivery r) s
      endWait r (s.dropOp id)
    | .event ctx ev t =>
      let s := modEvent ctx ev (fun x => { x with waiters := x.waiters.filter (fun w => w.1 ≠ r) }) s
      endWait r (s.cancel (.eventWaiterEntry r ctx ev t))
    | .line => dropFetches r (endWait r (purgeEvents (fun e => match e with | .constLineFetch q _ => q = r | _ => false) s))
    | .barrier _ _ | .torc | .slot _ _ | .grow _ _ | .walk _ => endWait r s
    | .none | .reply _ | .spawn => s

/-- The operations of a team that no one waits for any more. -/
def dropTeamOps (t : Nat) (s : State) : State := dropOps (fun _ o => o.ref.team = t) s

/-- Bytes of memory take contained results (R4). -/
def spoilBytes (pa n : Nat) (s : State) : State :=
  let p := freeBytes n s
  { p.2 with mem := p.2.mem.write pa p.1 }

/-- The bytes that an operation still had to write hold contained results (R393). -/
def spoilOp (id : Nat) (o : Op) (s : State) : State :=
  match o.kind with
  | .store | .storeT | .discard | .atomic | .atomc | .red =>
    (o.parts.filter (fun p => !p.done && p.rem.isNone)).foldl (fun s p =>
      if o.kind = .discard then spoilBytes (128 * p.line) 128 s
      else (lanesOn o p.key).foldl (fun s a => spoilBytes a.pa o.size s) s) s
  | .copy =>
    let h := copyShape o.instr o.regs
    if h.dir then s else spoilCopy id o h h.chunks s
  | .drain =>
    let d := drainDesc o.regs
    if o.order ≠ 0 then s
    else (List.range (d.rows - o.prog)).foldl (fun s i =>
      let r := d.row (o.prog + i)
      (segsIn o 0 r.1 r.2).foldl (fun s g => spoilBytes g.pa g.n s) s) s
  | .qpush | .qpop =>
    let at_ := (o.lanes.headD {}).pa
    let record := fun (pa : Nat) (s : State) => if o.kind = .qpush then spoilBytes pa 64 s else spoilBytes (pa + 56) 8 s
    if o.prog = 0 then spoilBytes (at_ + if o.kind = .qpush then 24 else 16) 8 s
    else if o.prog = 2 then (if o.parts.all (·.done) then s else record o.eng s)
    else if o.data.get 0 0 = 1 then
      match translate s o.core o.ctx .atomic false (recordVaddr o) 0 with
      | .ok p => if p.tr.node.isSome then s else record p.pa s
      | .error _ => s
    else s
  | .spill =>
    let ts := s.tripsOf (.arenaWritePerformed (warpOf o.ref) o.prog)
    ((spillSegs o).filter (fun g => !ts.any (fun t => t.line = g.pa / 128 && t.performed && !t.bad))).foldl
      (fun s g => spoilBytes g.pa g.n s) s
  | _ => s

/-- A team is gone without an exit: its operations, waits, records, torc, image slot and entry. -/
def discardTeam (t : Nat) (s : State) : State :=
  match s.team? t, launchOfTeam s t with
  | some tm, some l =>
    let s := (teamOps s t).foldl (fun s o =>
      let s := spoilOp o.1 o.2 s
      let s := if isCopy o.2 then leaveEngine o.1 o.2 s else s
      leaveMatrix o.2.core o.1 s) s
    let s := tm.warps.foldl (fun s e => e.2.splits.foldl (fun s sp => dropWait ⟨t, e.1, sp.1⟩ s) s) s
    let s := if tm.placed then tm.warps.foldl (fun s e => leaveTorc e.2.core ⟨t, e.1⟩ s) s else s
    let s := if tm.status = .restoring then
        (tm.warps.filter (fun e => !e.2.installed)).foldl (fun s e =>
          match e.2.anchor with
          | some (h, _) => s.modSlice h (fun sl => { sl with reserved := sl.reserved - 1 })
          | none => s) s
      else s
    let s := purgeTeam t (dropTeamOps t s)
    let slices : Tab Slice := s.slices.map (fun (e : Nat × Slice) =>
      (e.1, { e.2 with res := e.2.res.filter (fun (r : ResRec) => r.warp.team ≠ t) }))
    let s := { s with slices := slices }
    let s := match tm.slot with
      | some i => freeSlot tm.die l.ctx l.desc.savePool i s
      | none => s
    ({ s with
       teams := s.teams.erase t
       cur := if s.cur.any (fun (r : SplitRef) => r.team = t) then none else s.cur }).modDie tm.die
      (fun d => { d with savedTeams := d.savedTeams.filter (· ≠ t) })
  | _, _ => { s with teams := s.teams.erase t }

/-! ## What belongs to a context -/

/-- The teams of a context. -/
def teamsOf (s : State) (ctx : Nat) : List Nat :=
  (s.teams.filter (fun e => (s.launches.find? e.2.launch).any (fun l => l.ctx = ctx))).map (·.1)

/-- A launch's events. -/
def eventLaunch (e : Instr) : Option Nat :=
  match e with
  | .consumerFire l | .ownerRetire l | .commandSettle l => some l
  | .priorityAging l _ => some l
  | _ => none

/-- Every launch of a context ends without retiring: the events it owns stand as they are, without an owner (R354). -/
def dropLaunches (ctx : Nat) (s : State) : State :=
  let ids := (s.launches.filter (fun l => l.2.ctx = ctx)).map (·.1)
  let s := purgeEvents (fun e => (eventLaunch e).any ids.contains) s
  let dies : Tab Die := s.dies.map (fun (d : Nat × Die) =>
    (d.1, { d.2 with
            pending := d.2.pending.filter (fun l => !ids.contains l)
            reservation := d.2.reservation.filter (fun r => !ids.contains r.2.1) }))
  let s := { s with launches := s.launches.filter (fun (l : Nat × Launch) => !ids.contains l.1), dies := dies }
  s.modContext ctx (fun c =>
    { c with events := c.events.map (fun (e : Nat × Event) =>
        (e.1, { e.2 with owner := e.2.owner.filter (fun o => !ids.contains o) })) })

/-- The slots bound to a context's queues. -/
def slotsOf (s : State) (ctx : Nat) : List (Nat × Nat) :=
  slotList.filter (fun x => (s.queue x.1 x.2).state ≠ 0 && (s.queue x.1 x.2).ctx = ctx)

/-- A queue has command error 9 of a command, in its ERR and in the host event ring (R354, R380). -/
def resetError (ctx qid cidx : Nat) (s : State) : State :=
  ringWrite ctx { kind := 2, code := 9, qid := qid, cidx := cidx } (modErr ctx qid (fun e => errTake e 9 cidx) s)

/-- A queue's next command. -/
def headIndex (s : State) (u : UserQueue) : Nat :=
  match u.slot with
  | some (d, n) => (s.queue d n).head
  | none => u.head

/-- The queues of a context stop with code 9 (R393): each has an error for every unsettled root command (R354), and one that has
none of these an error at its HEAD (log entry 58). -/
def stopQueues (ctx : Nat) (s : State) : State :=
  let s := (slotsOf s ctx).foldl (fun s x =>
    updateQueue x.1 x.2 (fun q => { q with state := 2, busy := false }) (closeWindows x.1 x.2 s)) s
  let s := s.modContext ctx (fun c => { c with queues := c.queues.map (fun (q : Nat × UserQueue) => (q.1, { q.2 with stopped := true })) })
  let roots := (s.launches.filter (fun l => l.2.ctx = ctx && l.2.root = l.1 && !l.2.settled)).filterMap (·.2.queue)
  let idle := (s.context ctx).queues.filter (fun q => !roots.any (fun r => r.1 = q.1))
  let s := roots.foldl (fun s r => resetError ctx r.1 r.2 s) s
  idle.foldl (fun s q => resetError ctx q.1 (headIndex s q.2) s) s

/-- The forced reset of a context (R354, R393). -/
def forcedReset (ctx : Nat) (s : State) : State :=
  dropLaunches ctx (stopQueues ctx ((teamsOf s ctx).foldl (fun s t => discardTeam t s) s))

/-! ## Pre-emption (R393) -/

/-- A team that a request waits for. -/
def Preempt.concerns (p : Preempt) (s : State) (tm : Team) : Bool :=
  tm.placed && (s.launches.find? tm.launch).any (fun l => l.ctx = p.ctx) && tm.cores.any p.cores.contains

/-- The request is over: no team of the context is on its cores. -/
def preemptOver (s : State) (p : Preempt) : Bool := !s.teams.any (fun t => p.concerns s t.2)

/-- Requests that are over, and their deadlines, are gone. -/
def settlePreempts (s : State) : State :=
  let gone := (s.preempts.filter (fun p => preemptOver s p.2)).map (·.1)
  purgeEvents (fun e => match e with
      | .preemptDrainDeadline i | .preemptSaveDeadline i => gone.contains i
      | _ => false)
    { s with preempts := s.preempts.filter (fun (p : Nat × Preempt) => !gone.contains p.1) }

/-- A pre-emption of a context on some cores is requested. -/
def startPreempt (ctx : Nat) (cores : List Nat) (destroy : Option Cmd) (s : State) : State :=
  let id := s.preempts.fresh
  settlePreempts ({ s with preempts := s.preempts.set id ⟨ctx, cores, destroy, false⟩ }.push [.preemptDrainDeadline id])

/-- RESERVATION_TIMEOUT (R324, R393): the contexts with teams on the reserved core or pair are pre-empted there. -/
def execReservationTimeout (die : Nat) (s : State) : Out :=
  match (s.die die).reservation with
  | none => .next s
  | some (core, launch, _) =>
    let paired := ((s.launches.find? launch).map (fun l => l.desc.paired)).getD false
    let cores := if paired then [core, core + 1] else [core]
    let ctxs := ((cores.flatMap (teamsOn s)).filterMap (fun t => (s.launches.find? t.launch).map (·.ctx))).dedup
    .next (ctxs.foldl (fun s c => startPreempt c cores none s) s)

/-- PREEMPT_DRAIN_DEADLINE (R393): the SAVE stage. -/
def execPreemptDrainDeadline (id : Nat) (s : State) : Out :=
  match s.preempts.find? id with
  | none => .next s
  | some p =>
    if p.saving then .next s
    else
      let s := { s with preempts := s.preempts.set id { p with saving := true } }
      let ts := (s.teams.filter (fun t => p.concerns s t.2)).map (·.1)
      let s := ts.foldl (fun s t => preemptTeam t p.destroy.isSome s) s
      .next (settlePreempts (s.push [.preemptSaveDeadline id]))

/-- PREEMPT_SAVE_DEADLINE (R393): the forced reset. -/
def execPreemptSaveDeadline (id : Nat) (s : State) : Out :=
  match s.preempts.find? id with
  | none => .next s
  | some p => .next (if p.saving then settlePreempts (forcedReset p.ctx s) else s)

/-- A team restored on a core that a request is clearing is saved again. -/
def preemptRestored (t : Nat) (s : State) : State :=
  match s.team? t with
  | none => s
  | some tm =>
    match List.find? (fun (p : Nat × Preempt) => p.2.saving && p.2.concerns s tm) s.preempts with
    | some p => preemptTeam t p.2.destroy.isSome s
    | none => s

end Sys2Proof.Machine
end

