-- ==== Sys2Proof/Machine/Save.lean ====
section
/-! DEFINITION. The halt of a team (R382 to R384), its saving (R88, R104, R174, R270, R271, R277, R392), its restoring
(R73, R88, R89, R106, R127, R392) and what the host asks of a halted team (R389, R395). -/

namespace Sys2Proof.Machine

/-! ## The halt -/

/-- TEAM_HALT (R382): the halt, or the exit by VCHK.X, has been broadcast; the skid begins. -/
def execTeamHalt (t : Nat) (s : State) : Out :=
  match s.team? t with
  | none => .next s
  | some tm =>
    if tm.status = .raised then .next ((s.modTeam t (fun tm => { tm with status := .skidding })).push [.teamSave t])
    else .next s

/-! ## The first step of a save -/

/-- A warp's torc and claims are noted as its image will hold them, and the torc given up (R270, R271). -/
def giveUp (t : Nat) (tm : Team) (e : Nat × Warp) (s : State) : State :=
  let w : WarpRef := ⟨t, e.1⟩
  let co := s.core e.2.core
  let queued := co.torcQ.any (fun r => warpOf r = w)
  let taking := e.2.splits.any (fun sp => sp.2.wait = .torc)
  let held := co.torc = some w || (queued && !taking)
  let ar := tm.areas.get {} (if tm.cores.head? = some e.2.core then 0 else 1)
  let bits := fun (cs : Tab Claim) => (cs.filter (fun c => c.2.holder = some e.1)).foldl (fun n c => n + 2 ^ c.1) 0
  let s := s.modWarp w (fun x =>
    { x with
      torcFlags := (if held then 1 else 0) + (if queued then 2 else 0)
      claims := BitVec.ofNat 64 (bits ar.aclaims + 2 ^ 32 * bits ar.wclaims) })
  leaveTorc e.2.core w s

/-- The copies of a team leave their engines, a running one at a chunk boundary (R174). -/
def stopCopies (t : Nat) (s : State) : State :=
  ((teamOps s t).filter (fun o => isCopy o.2)).foldl (fun s o =>
    stopCopy o.1 (purgeEvents (fun e => e = .copyDescriptorEnqueue o.1) s)) s

/-- The claims of a team's slots that waited are no longer waiting. -/
def clearClaimQueues (a : Area) : Area :=
  { a with
    aclaims := a.aclaims.map (fun c => (c.1, { c.2 with waiting := [], releasing := none }))
    wclaims := a.wclaims.map (fun c => (c.1, { c.2 with waiting := [], releasing := none })) }

/-- Issue has stopped; watches, waiters, torc and claims are given up and copies stop (R392 steps 1 and 2). -/
def beginSave (t : Nat) (s : State) : State :=
  match s.team? t with
  | none => s
  | some tm =>
    let s := s.modTeam t (fun tm => { tm with status := .saving, flushing := false, step := none, stepped := false })
    let s := tm.warps.foldl (fun s e => giveUp t tm e s) s
    let s := tm.warps.foldl (fun s e => e.2.splits.foldl (fun s sp => dropWait ⟨t, e.1, sp.1⟩ s) s) s
    let s := s.modTeam t (fun tm => { tm with areas := tm.areas.map (fun a => (a.1, clearClaimQueues a.2)) })
    let s := stopCopies t s
    let s := { s with slices := s.slices.map (fun (e : Nat × Slice) =>
      (e.1, { e.2 with exch := e.2.exch.filter (fun x => x.warp.team ≠ t) })) }
    purgeEvents (fun e => match e with
      | .windowConflictTimeout r | .parkCountExpiry r => r.team = t
      | .spillStep w | .laneExitNotice w _ => w.team = t
      | .ksendTokenSend id | .xshflPosting id _ => (s.ops.find? id).any (fun o => o.ref.team = t)
      | _ => false) s

/-! ## Until the image is final -/

/-- A part of a store or reduction has still to pass through the L1, or its line waits to go back (R104). -/
def Part.inL1 (p : Part) : Bool := p.wb || p.sent && (p.fill || p.gather || p.check) && !p.back

/-- The plain accesses of a team that cannot be performed before it is restored: those that have faulted, and those that
touch the same bytes after one of these (R118). -/
def jammed (s : State) (t : Nat) : List Nat :=
  (teamOps s t).foldl (fun st x =>
    let behind := fun (p : Part) => !p.done && plainAccess x.2
      && (st.filterMap s.ops.find?).any (fun e => warpOf e.ref = warpOf x.2.ref && plainAccess e
        && e.parts.any (fun q => q.key = p.key && !q.done) && sameBytes e x.2 p.key)
    if x.2.fault.isSome || x.2.parts.any behind then st ++ [x.1] else st) []

/-- The operation's effect must stand before the image is final: engine operations (R277), copies up to a chunk boundary
(R174), spill writes (R300), the warp's own EMPTY and MINT requests (R215), stores and reductions whose lines pass
through the L1 (R104), exchange data on its way (R266), kicks of this package (R376). -/
def holdsSave (s : State) (id : Nat) (o : Op) : Bool :=
  match o.kind with
  | .mma | .accz | .accld | .accrd | .accq =>
    (s.core o.core).matrix.contains id && !(stuckOps s o.ref.team o.core).contains id
  | .drain => !o.stopping && !(stuckOps s o.ref.team o.core).contains id
  | .copy => !o.parts.isEmpty
  | .spill => o.fault.isNone
  | .empty | .mint => o.fault.isNone && o.pendingParts
  | .store | .storeT | .discard | .red =>
    o.parts.any (fun p => p.inL1)
      || o.fault.isNone && (o.doneCore || !(jammed s o.ref.team).contains id
        && o.parts.any (fun p => (p.l1 || p.fill || p.gather || p.check) && !p.back))
  | .kick => o.parts.any (·.l1)
  | .xshfl => s.agenda.any (fun e => match e with | .xshflDelivery q _ _ => q = id | _ => false)
  | _ => false

/-- A SPAWN of the team waits for the dispatcher's answer. -/
def spawning (tm : Team) : Bool := tm.warps.any (fun e => e.2.splits.any (fun sp => sp.2.wait = .spawn))

/-- Nothing is left that a save waits for (R392 steps 2 and 3); a SPAWN waits for the dispatcher's answer. -/
def saveQuiet (s : State) (t : Nat) : Bool :=
  !((teamOps s t).any (fun o => holdsSave s o.1 o.2)) && !(s.team? t).any spawning

/-- SAVE_RECORD_REMOVE (R88, R209, R215): the core's request takes its place in the order of the anchor slice, behind what the
core sent there before: the record goes, its mask becomes the saved word, and the flush marker is sent. A poisoned line does
not take the word (R58, log entry 102). -/
def execSaveRecordRemove (w : WarpRef) (s : State) : Out :=
  let e : Instr := .saveRecordRemove w
  match anchorOf s w, (s.tripsOf e).isEmpty with
  | none, true => .next (s.push [.flushMarkerArrival w])
  | a, _ =>
    let stops := match a with
      | some (h, base) => [⟨h, base / 128 + 64, 1⟩]
      | none => (s.tripsOf e).map (·.stop)
    journey e (.core (s.warpCore w)) stops
      (fun t s => atBlock e t [0] s (fun s =>
        let m := ((s.slice t.home).res.find? (fun (r : ResRec) => r.warp = w)).map (fun (r : ResRec) => r.mask.toNat)
        let s := s.modSlice t.home (fun sl => { sl with res := sl.res.filter (fun r => r.warp ≠ w) })
        .next ((returned t (fun x => x) (writeBlock t.home t.line [⟨0, leBytes 4 (m.getD 0)⟩] s)).push [.flushMarkerArrival w])))
      (fun _ s => .next s) s

/-- FLUSH_MARKER_ARRIVAL (R88): the marker of the anchor slice reaches the core, behind what it delivered before (R82): from
now on the core's lockets may be written into the image. -/
def execFlushMarkerArrival (w : WarpRef) (s : State) : Out :=
  .next (if (s.warp? w).isSome then s.modWarp w (fun x => { x with marked := true }) else s)

/-- A record's removal is over: its marker has come, and the reply to its request. -/
def recordGone (s : State) (t : Nat) (e : Nat × Warp) : Bool :=
  e.2.marked && !s.agenda.contains (.saveRecordRemove ⟨t, e.1⟩) && (s.tripsOf (.saveRecordRemove ⟨t, e.1⟩)).isEmpty

/-- What the image will hold is settled: from now on completions and replies are written into it (R392 step 6), and the
operations left are those that it lists. -/
def sealImage (t : Nat) (s : State) : State :=
  let incs := ((teamOps s t).filter (fun o => restoreActs s o.1 o.2)).map (·.1)
  let s := s.modTeam t (fun tm => { tm with hstate := if tm.halt.isSome then 1 else 2, incs := incs, saved := true })
  let s := purgeEvents (fun e => match e with | .refillRow w _ => w.team = t | _ => false) s
  incs.foldl (fun s id => match s.ops.find? id with
    | some o => leaveMatrix o.core id s
    | none => s) s

/-- The writing of a block of a team's image has taken its place: its warp's lockets are in it, and remote writes go on top of
them from now on (R88). -/
def locketsWritten (t : Nat) (b : Dword) (s : State) : State :=
  s.modTeam t (fun tm => { tm with warps := tm.warps.map (fun (e : Nat × Warp) =>
    if blockBase e.2.imageBase = b then (e.1, { e.2 with flushed := true, late := [] }) else e) })

/-- The image is written: the resources are free, and the host is told of a halt (R384, R392, R393). -/
def finishSave (t : Nat) (s : State) : State :=
  match s.team? t, launchOfTeam s t with
  | some tm, some l =>
    let s := s.modTeam t (fun tm =>
      { tm with
        status := if tm.hstate = 1 then .halted else .pending
        warps := tm.warps.map (fun e => (e.1, { e.2 with active := false, flushed := true, late := [] })) })
    if tm.hstate = 1 then
      let root := (s.launches.find? l.root).getD l
      let q := root.queue.getD (0xFFFF, 0)
      ringWrite l.ctx { kind := 3, code := (tm.halt.getD ({}, 0, 0)).1.cls, qid := q.1, cidx := q.2, arg := (recordVa tm).toNat } s
    else if tm.discard then s
    else s.modDie tm.die (fun d => { d with savedTeams := d.savedTeams ++ [t] })
  | _, _ => s

/-- TEAM_SAVE (R352, R392): the steps of the save in their order, each begun once what it waits for stands. An exit by
VCHK.X that met no halt ends the team's lanes instead, once the dispatcher has answered what it was asked. -/
def execTeamSave (t : Nat) (s : State) : Out :=
  let e : Instr := .teamSave t
  match s.team? t with
  | none => .next (forget e s)
  | some tm =>
    let again := fun (s : State) => Host.Outcome.next (s.push [e])
    if tm.status = .skidding then
      if tm.halt.isNone && !tm.preempted && tm.vexit then
        if spawning tm then again s
        else
          let s := s.modTeam t (fun tm => { tm with status := .running })
          let s := tm.warps.foldl (fun s e => e.2.splits.foldl (fun s sp => dropWait ⟨t, e.1, sp.1⟩ s) s) s
          .next (exitTeam t (s.modLaunch tm.launch (fun l => { l with stopped := true })))
      else again (beginSave t s)
    else if tm.status ≠ .saving then .next s
    else if tm.saved then
      match launchOfTeam s t with
      | none => .next s
      | some l => writeRegions e (.command tm.die) (tm.cores.headD 0) l.ctx (imageParts s t tm l) (locketsWritten t) s
          (fun s => .next (settlePreempts (finishSave t s)))
    else if !saveQuiet s t then again (tm.cores.foldl (fun s c => flushL1 c s) s)
    else if !tm.flushing then
      let s := tm.cores.foldl (fun s c => flushL1 c s) s
      again ((s.modTeam t (fun tm => { tm with flushing := true })).push
        (tm.warps.map (fun e => .saveRecordRemove ⟨t, e.1⟩)))
    else if tm.warps.all (recordGone s t) then again (sealImage t s)
    else again s

/-- What the writing of a team's image needs. -/
def savePlan (s : State) (t : Nat) (tm : Team) (l : Launch) : Plan :=
  regionPlan s (.teamSave t) (.command tm.die) (tm.cores.headD 0) l.ctx ((imageParts s t tm l).map (fun r => (r.va, r.n)))

/-- A pass of TEAM_SAVE would do something. -/
def saveReady (s : State) (t : Nat) : Bool :=
  match s.team? t with
  | none => true
  | some tm =>
    if tm.status = .skidding then tm.halt.isSome || tm.preempted || !tm.vexit || !spawning tm
    else if tm.status ≠ .saving then true
    else if tm.saved then (launchOfTeam s t).all (fun l => planReady s (.teamSave t) (savePlan s t tm l))
    else if !saveQuiet s t then tm.cores.any (fun c => (s.core c).l1.any (fun l => l.state = .dty || l.state = .uo))
    else !tm.flushing || tm.warps.all (recordGone s t)

/-! ## Restoring -/

/-- The first poisoned line of a block. -/
def badLine (s : State) (t : Trip) : Nat := (((List.range t.stop.span).map (t.line + ·)).find? (poisoned s)).getD t.line

/-- A poisoned line has been read with a team's image (R58). -/
def noteIll (t : Nat) (ts : List Trip) (s : State) : State :=
  match ts.find? (·.bad) with
  | some x => s.modTeam t (fun tm => { tm with ill := tm.ill <|> some (badLine s x) })
  | none => s

/-- A warp's lockets and their full bits from the bytes of its locket area, and its record in the anchor slice in place of the
reservation (R88, R209). -/
def installLockets (w : WarpRef) (l : Launch) (bs : List Byte) (s : State) : State :=
  let m := fieldOf bs 8192 4
  let s := s.modWarp w (fun x =>
    { x with rows := (List.range (l.desc.globals - 96)).foldl (fun rows j =>
        rows.set (l.desc.ring + 96 + j)
          { full := m / 2 ^ j % 2 = 1
            vals := (List.range l.desc.lanes).map (fun k => (k, BitVec.ofNat 32 (fieldOf bs (256 * j + 4 * k) 4))) }) x.rows })
  let s := match (s.warp? w).bind (·.anchor) with
    | some (h, _) => s.modSlice h (fun sl => { sl with reserved := sl.reserved - 1 })
    | none => s
  installRecord w l.ctx (BitVec.ofNat 32 m) s

/-- The request for a warp's locket area at its anchor slice; none where its page is no image page any more (R388). -/
def locketStops (s : State) (e : Instr) (l : Launch) (wp : Warp) : List Stop :=
  match areaAnchor s e wp.core l.ctx wp.imageBase, wp.anchor with
  | some _, some (h, pa) => [⟨h, pa / 128, 128⟩]
  | _, _ => []

/-- RESTORE_RECORD_INSTALL (R88, R209): one request reads the locket area for the core and installs the record. The core has
the lockets before any value that the slice delivers after them. -/
def execRestoreRecordInstall (w : WarpRef) (s : State) : Out :=
  let e : Instr := .restoreRecordInstall w
  match launchOf s w, s.warp? w, s.team? w.team with
  | some l, some wp, some tm =>
    let q : Requester := .command tm.die
    withPins e q wp.core l.ctx [wp.imageBase] s (fun s =>
      journey e q (locketStops s e l wp)
        (fun t s => atBlock e t (List.range 65) s (fun s =>
          let p := blockBytes t (List.range 65) tm.shared s
          let bad := (List.range 65).any (fun k => poisoned s (t.line + k))
          .next (returned t (fun x => { x with bad := bad }) (installLockets w l p.1 p.2))))
        (fun ts s =>
          let s := unpin e (noteIll w.team ts s)
          if ts.isEmpty then
            let p := freeBytes 16384 s
            .next (installLockets w l p.1 p.2)
          else .next s) s)
  | _, _, _ => .next (forget e s)

/-- A part has still to be performed. -/
def Part.left (p : Part) : Bool := !p.done || p.bad

/-- A part that has still to be performed, as at its start. -/
def Part.again (p : Part) : Part :=
  if p.left then { p with sent := false, done := false, back := false, bad := false, wb := false, fill := false, gather := false
                          check := false, passed := false }
  else p

/-- What a lane operation is to the permissions of R66. -/
def laneAgent (k : OpKind) : Option Agent :=
  match k with
  | .load => some .load
  | .store | .storeT | .discard => some .store
  | .atomic | .atomc | .red => some .atomic
  | _ => none

/-- An operation's lanes that have still to make their accesses. -/
def leftLanes (o : Op) : List Acc := o.lanes.filter (fun x => o.parts.any (fun p => p.key = x.key && p.left))

/-- The lanes of an operation that have still to make their accesses are translated again (R71, R73), under the translations
of the restore e: their requests leave, or a fault stops the operation as before. A RED whose partial result was refused is
applied at its home slice now (R188). -/
def retake (e : Instr) (id : Nat) (o : Op) (atHome : Bool) (a : Agent) (s : State) : State :=
  let rs := (leftLanes o).map (fun x => (x, translateFor s e o.core o.ctx a false x.va))
  let bad := rs.filterMap (fun r => match r.2 with
    | .error f => some (r.1, f)
    | .ok _ => none)
  match bad with
  | (x, f) :: _ => faultOp id 3 f.code x.va ((bad.map (fun b => accLanes o b.1)).foldl (· ||| ·) 0) f.aux s
  | [] =>
    let ok := rs.filterMap (fun r => match r.2 with
      | .ok p => some (r.1.lane, r.1.va, p)
      | .error _ => none)
    let lane := fun (x : Acc) => match ok.find? (fun r => r.1 = x.lane && r.2.1 = x.va) with
      | some r => { x with pa := r.2.2.pa, rem := r.2.2.tr.node }
      | none => x
    let parts := if ok.isEmpty then o.parts.map Part.again
      else o.parts.filter (fun p => !p.left) ++ (lineParts o.core o ok).map (fun p => { p with l1 := p.l1 && !atHome })
    sendParts id (noteHomes ok (touchTlbs o.core o.ctx (ok.map (·.2.1))
      (s.modOp id (fun o => { o with parts := parts, lanes := o.lanes.map lane }))))

/-- An operation of one request, whose page is translated again (R73). -/
def retakeOne (e : Instr) (id : Nat) (o : Op) (a : Agent) (part : Phys → Part) (s : State) : State :=
  let x := o.lanes.headD {}
  match translateFor s e o.core o.ctx a false x.va with
  | .error f => faultOp id 3 f.code x.va 0 f.aux s
  | .ok p =>
    if p.tr.node.isSome then faultOp id 3 tRemote x.va 0 0 s
    else sendParts id (touchTlb o.core o.ctx x.va (s.modOp id (fun o =>
      { o with lanes := [{ x with pa := p.pa }], parts := [part p] })))

/-- The granules of a matrix operation's memory side, translated anew. -/
def granulesAgain (s : State) (e : Instr) (core ctx : Nat) : List Acc → Except (Nat × TFault) (List Acc)
  | [] => .ok []
  | x :: xs =>
    match granuleAcc s (s.heldFor e ctx) core ctx (if x.lane = 0 then .store else .tile) x.lane 0 x.va.toNat,
      granulesAgain s e core ctx xs with
    | .error f, _ => .error (x.va.toNat, f)
    | .ok _, .error e => .error e
    | .ok a, .ok as => .ok (a :: as)

/-- A matrix operation takes its place on a core again, the granules of its memory side translated anew (R73, R277). -/
def rejoinMatrix (e : Instr) (id : Nat) (o : Op) (ev : Instr) (s : State) : State :=
  let s := (s.modCore o.core (fun c => { c with matrix := c.matrix ++ [id] })).push [ev]
  match granulesAgain s e o.core o.ctx o.lanes with
  | .ok ls => touchTlbs o.core o.ctx (ls.map (·.va)) (s.modOp id (fun o => { o with lanes := ls }))
  | .error x => matrixFault id 3 x.2.code x.1 s

/-- The event by which a matrix operation acts. -/
def matrixEvent (k : OpKind) (id : Nat) : Instr :=
  match k with
  | .mma => .mmaExecute id
  | .accz => .acczExecute id
  | .accld => .accldExecute id
  | .accrd => .accrdExecute id
  | .accq => .accqExecute id
  | _ => .drainExecute id

/-- The addresses that a restore needs translations of for the operations that it takes up (R73). -/
def takeUpVas (s : State) (tm : Team) : List Dword :=
  tm.incs.flatMap (fun id => match s.ops.find? id with
    | none => []
    | some o =>
      match laneAgent o.kind, o.kind with
      | some _, _ => (leftLanes o).map (·.va)
      | none, .drain | none, .accld => o.lanes.map (·.va)
      | none, .mint | none, .spill => o.lanes.map (·.va)
      | none, .qpush | none, .qpop => if o.prog = 0 then o.lanes.map (·.va) else []
      | _, _ => [])

/-- A queue operation goes on from where it stopped: the reservation, or the record, whose page is translated again. -/
def retakeQueue (e : Instr) (id : Nat) (o : Op) (s : State) : State :=
  if o.prog = 0 then
    retakeOne e id o .atomic (fun p => { line := p.pa / 128, home := p.home, homeField := p.tr.home }) s
  else
    let o' := { o with prog := 1, parts := o.parts.take 1 }
    recordIssue id o' (s.modOp id (fun _ => o'))

/-- A row on its way to the arena goes there under its page's present translation (R73, R301). -/
def respill (e : Instr) (id : Nat) (o : Op) (s : State) : State :=
  let va := (o.lanes.headD {}).va
  match translateFor s e o.core o.ctx .spill false va with
  | .error f =>
    windowFault (warpOf o.ref) f.code va f.aux (s.modOp id (fun o => { o with fault := some { cls := 3, code := f.code, addr := va } }))
  | .ok p =>
    (s.modOp id (fun o => { o with
      lanes := [{ lane := 0, va := va, pa := p.pa }], parts := spillParts p va o.data.length })).push
      [.arenaWritePerformed (warpOf o.ref) o.prog]

/-- An operation of the image's list is taken up again (R73, R106, R174, R188, R266, R277, R301); one whose request a slice
holds stays there. One whose result its image has refused hands it over now (R58). -/
def takeUp (e : Instr) (id : Nat) (s : State) : State :=
  match s.ops.find? id with
  | none => s
  | some o =>
    if isHeld s id then s
    else
      let again := o.kind = .accld && !o.readDone
      let o' := { o with
        fault := none, core := (warpOr s (warpOf o.ref)).core, running := false, stopping := false, counted := false, kept := false
        prog := if again then 0 else o.prog, data := if again then [] else o.data }
      let s := (purgeEvents (fun e => eventOp e = some id) s).modOp id (fun _ => o')
      let parts := fun (s : State) => s.modOp id (fun o => { o with parts := o.parts.map Part.again })
      if o.kept then finishOp id (match o.owedPred with
        | some v => answerPred id o' v s
        | none => s)
      else match laneAgent o.kind with
        | some a => retake e id o' (o.kind = .red && o.fault.any (fun t => t.cls = 3 && t.code = tMemory)) a s
        | none =>
          match o.kind with
          | .copy => enterEngine id o' (s.modOp id (fun o => { o with parts := [] }))
          | .mma | .accz | .accld | .accrd | .accq | .drain => rejoinMatrix e id o' (matrixEvent o.kind id) s
          | .ksend => if heldToken s id o' then s.push [.ksendTokenSend id] else sendParts id (parts s)
          | .xshfl => s.push ((o'.lanes.filter (fun a => !a.answered)).map (fun a => .xshflPosting id a.lane))
          | .pubv => s.push [.pubvApply id]
          | .spill => respill e id o' s
          | .qpush | .qpop => retakeQueue e id o' s
          | .mint => retakeOne e id o' .mint (mintPart) s
          | .empty => sendParts id (s.modOp id (fun o => { o with parts := ((anchorOf s (warpOf o.ref)).map emptyPart).toList }))
          | _ => sendParts id (parts s)

/-- Nothing is still to be written into the image (R89, R106): the operations left are those that the restore takes up, and
none of their requests is on its way. -/
def restoreReady (s : State) (t : Nat) : Bool :=
  match s.team? t with
  | none => true
  | some tm =>
    tm.warps.all (fun e => e.2.installed && !s.agenda.contains (.restoreRecordInstall ⟨t, e.1⟩))
      && (teamOps s t).all (fun o => tm.incs.contains o.1 && !o.2.doneWide && !s.agenda.contains (.imageWrite o.1)
        && (isHeld s o.1 || o.2.parts.all (fun p => !p.sent || p.back)))

/-- A warp's registers and control state from what a restore has read of its image. -/
def loadWarp (e : Instr) (ts : List Trip) (core : Nat) (l : Launch) (w : WarpRef) (s : State) : List Byte × State :=
  match s.warp? w with
  | none => ([], s)
  | some wp =>
    let c := fetched e ts core l.ctx (ctlBlock wp 0) 16384 s
    let bs := (List.range ((imageRows l.desc + 62) / 63)).foldl (fun (acc : List (List Byte) × State) n =>
      let q := fetched e ts core l.ctx (rowPlace wp (63 * n)) 16384 acc.2
      (acc.1 ++ [q.1], q.2)) ([], c.2)
    (c.1, bs.2.modWarp w (fun x => { warpOfImage l.desc c.1 bs.1 x with timer := s.clock, hung := false }))

/-- The torc and the claims that a warp's image records (R270, R271). -/
def reclaim (w : WarpRef) (s : State) : State :=
  match s.team? w.team, s.warp? w with
  | some tm, some wp =>
    let a := if tm.cores.head? = some wp.core then 0 else 1
    let cl := wp.claims.toNat
    let claims := fun (old : Tab Claim) (bits : Nat) =>
      (List.range 32).foldl (fun t n =>
        if bits / 2 ^ n % 2 = 1 then Tab.modify ({} : Claim) t n (fun c => { c with holder := some w.warp }) else t) old
    let s := modArea w.team a (fun ar =>
      { ar with aclaims := claims ar.aclaims (cl % 2 ^ 32), wclaims := claims ar.wclaims (cl / 2 ^ 32) }) s
    if wp.torcFlags % 2 = 1 then
      grantTorc wp.core (s.modCore wp.core (fun c =>
        { c with torcQ := c.torcQ ++ [⟨w.team, w.warp, (wp.splits.head?.map (·.1)).getD 0⟩] }))
    else s
  | _, _ => s

/-- Breakpoints in force after a restore (R394). -/
def breakpoints (hdr : List Byte) : Tab (BitVec 32) :=
  (List.range 4).filterMap (fun n =>
    let x := fieldOf hdr (0x10 + 8 * n) 8
    if x / 2 ^ 63 % 2 = 1 then some (n, BitVec.ofNat 32 x) else none)

/-- No slot is claimed; how often each has been released stands. -/
def freeClaims (a : Area) : Area :=
  let free := fun (cs : Tab Claim) => cs.map (fun c => (c.1, { c.2 with holder := none, waiting := [], releasing := none }))
  { a with aclaims := free a.aclaims, wclaims := free a.wclaims }

/-- The state of a team from what a restore has read of its image. -/
def loadImage (e : Instr) (t : Nat) (tm : Team) (l : Launch) (ts : List Trip) (s : State) : State :=
  let core := tm.cores.headD 0
  let hdr := fetched e ts core l.ctx (headerVa tm) 64 s
  let bars := fetched e ts core l.ctx (headerVa tm + 0x8100) 1024 hdr.2
  let ws := tm.warps.foldl (fun (acc : List (Nat × List Byte) × State) x =>
    if x.2.released then acc else
      let q := loadWarp e ts core l ⟨t, x.1⟩ acc.2
      (acc.1 ++ [(x.1, q.1)], q.2)) ([], bars.2)
  let areas := (List.range tm.cores.length).foldl (fun s a =>
    let q := fetched e ts core l.ctx (headerVa tm + BitVec.ofNat 64 (coreAreaOff l.desc a)) (coreAreaSize l.desc) s
    modArea t a (fun ar => freeClaims (areaOfBytes l.desc q.1 ar)) q.2) ws.2
  let step := fieldOf hdr.1 0x30 8
  areas.modTeam t (fun tm =>
    { tm with
      bars := (List.range 16).map (fun b => (b, barrierOf bars.1 ws.1 b)), restores := tm.restores + 1, hstate := 0
      bps := breakpoints hdr.1, saved := false, preempted := false, flushing := false, halt := none, vexit := false
      step := tm.step.map (fun _ => (step % 256, step / 256 % 4)), status := .running })

/-- What a restore writes into the team header: RESTORES and STATE (R389, R392). -/
def restoreParts (tm : Team) : List Region :=
  [⟨headerVa tm + 0x38, 8, fun _ => leBytes 8 (tm.restores + 1)⟩, ⟨headerVa tm + 8, 8, fun _ => leBytes 8 0⟩]

/-- An image that a poisoned line is part of: its team, restored, halts with a memory error in its lowest split, the model's
choice of the operation that the error is reported of (R58, log entry 127). -/
def reportIll (t : Nat) (s : State) : State :=
  match s.team? t with
  | none => s
  | some tm =>
    match tm.ill, tm.warps.findSome? (fun e => e.2.splits.head?.map (fun x => (e.1, x))) with
    | some line, some (w, x) =>
      { raiseTrap ⟨t, w, x.1⟩ { cls := 3, code := tMemory, addr := lineAddr line, pc := x.2.path.pc } s with cur := s.cur }
    | _, _ => s

/-- The image has been read: the team runs. Clean lines of its cores are dropped, the torc asked for, the listed operations taken
up, spills and refills go on, and an exit that yielded to the halt is performed (R73, R106, R301, R383). -/
def restoreEnd (t : Nat) (tm : Team) (l : Launch) (ts : List Trip) (s : State) : State :=
  let e : Instr := .teamRestore t
  let s := noteIll t ts (loadImage e t tm l ts s)
  let s := tm.cores.foldl (fun s c => dropClean c s) s
  let live := tm.warps.filter (fun e => !e.2.released)
  let s := live.foldl (fun s e => enterQuad ⟨t, e.1⟩ (reclaim ⟨t, e.1⟩ s)) s
  let s := unpin e (tm.incs.foldl (fun s id => takeUp e id s) (s.modTeam t (fun tm => { tm with incs := [] })))
  let s := live.foldl (fun s e =>
    let wp := warpOr s ⟨t, e.1⟩
    s.push (wp.refill.map (fun r => .refillRow ⟨t, e.1⟩ r) ++ (if wp.spill.isEmpty then [] else [.spillStep ⟨t, e.1⟩]))) s
  if tm.warps.any (fun e => e.2.splits.any (fun sp => sp.2.vexit)) then
    exitTeam t (s.modLaunch tm.launch (fun l => { l with stopped := true }))
  else preemptRestored t (reportIll t s)

/-- TEAM_RESTORE (R73, R89, R106, R392): once nothing is still to be written into it, the image is read, one request a block,
and its header says so. -/
def execTeamRestore (t : Nat) (s : State) : Out :=
  let e : Instr := .teamRestore t
  match s.team? t, launchOfTeam s t with
  | some tm, some l =>
    let core := tm.cores.headD 0
    if tm.status ≠ .restoring then .next (forget e s)
    else if (s.tripsOf e).isEmpty && !restoreReady s t then .next (s.push [e])
    else
      withPins e (.command tm.die) core l.ctx (takeUpVas s tm) s (fun s =>
        readRegions e (.command tm.die) core l.ctx (imageReads tm l) tm.shared (restoreParts tm) s
          (fun ts s => .next (restoreEnd t tm l ts s)))
  | _, _ => .next (forget e s)

/-- What the reading of a team's image needs. -/
def restorePlan (s : State) (t : Nat) (tm : Team) (l : Launch) : Plan :=
  let p := regionPlan s (.teamRestore t) (.command tm.die) (tm.cores.headD 0) l.ctx (imageReads tm l)
  { p with vas := takeUpVas s tm ++ p.vas }

/-! ## The header as the host writes it (R389, R395) -/

/-- An event of the host's writes to a team's header: CONTROL goes back to 0, and k follows. -/
def clearControl (e : Instr) (tm : Team) (l : Launch) (s : State) (k : State → State) : Out :=
  writeRegions e (.command tm.die) (tm.cores.headD 0) l.ctx [⟨headerVa tm, 8, fun _ => zeros 8⟩] (fun _ s => s) s (fun s => .next (k s))

/-- The team may be asked for something through CONTROL: STATE is 1, for it is halted, or has been and waits to be restored. -/
def Team.heedsControl (tm : Team) : Bool := (tm.status = .halted || tm.status = .pending) && tm.hstate = 1

/-- A CONTROL write is acted on: CONTROL goes back to 0, and the team does what it asks. -/
def withHalted (t : Nat) (e : Instr) (s : State) (k : State → State) : Out :=
  match s.team? t, launchOfTeam s t with
  | some tm, some l => clearControl e tm l s (fun s => if (s.team? t).any Team.heedsControl then k s else s)
  | _, _ => .next (forget e s)

/-- CONTROL_RESUME (R389). -/
def execControlResume (t : Nat) (s : State) : Out := withHalted t (.controlResume t) s (resumeTeam t)

/-- CONTROL_ABANDON (R389): every lane ends as by EXIT. -/
def execControlAbandon (t : Nat) (s : State) : Out :=
  withHalted t (.controlAbandon t) s (fun s =>
    let s := match s.team? t with
      | some tm => s.modDie tm.die (fun d => { d with savedTeams := d.savedTeams.filter (· ≠ t) })
      | none => s
    exitTeam t ((dropTeamOps t s).modTeam t (fun tm => { tm with status := .ended })))

/-- CONTROL_STEP (R395): the team is restored for one instruction of the split that STEP names, which the restore reads with the
header. -/
def execControlStep (t : Nat) (s : State) : Out :=
  withHalted t (.controlStep t) s (fun s => (resumeTeam t s).modTeam t (fun tm => { tm with step := some (0, 0) }))

/-- TEAM_HEADER_WRITE (R389): a write of the host to a team's header stands; data is CONTROL as the write left it where it
touched CONTROL. CONTROL acts while STATE is 1; it is ignored and cleared otherwise, and so is a value that R389 does not list
(log entry 126). -/
def execTeamHeaderWrite (t : Nat) (off : Nat) (data : List Byte) (s : State) : Out :=
  let e : Instr := .teamHeaderWrite t off data
  match s.team? t, launchOfTeam s t with
  | some tm, some l =>
    if 8 ≤ off || data.isEmpty then .next s
    else match tm.heedsControl, leNat (data.take 8) * 2 ^ (8 * off) with
      | true, 1 => .next ((forget e s).push [.controlResume t])
      | true, 2 => .next ((forget e s).push [.controlAbandon t])
      | true, 3 => .next ((forget e s).push [.controlStep t])
      | _, _ => clearControl e tm l s (fun s => s)
  | _, _ => .next (forget e s)

/-- What the events of the host's writes to a header need. -/
def controlPlan (s : State) (e : Instr) (t : Nat) : Option Plan :=
  match s.team? t, launchOfTeam s t with
  | some tm, some l => some (regionPlan s e (.command tm.die) (tm.cores.headD 0) l.ctx [(headerVa tm, 8)])
  | _, _ => none

end Sys2Proof.Machine
end

