-- ==== Sys2Proof/Machine/Release.lean ====
section
/-! DEFINITION. The end of warps and teams (R216, R270, R271, R310), hang reports and power gating (R396, R397). -/

namespace Sys2Proof.Machine

/-! ## WARP_RELEASE -/

/-- The operations of one warp. -/
def warpOps (s : State) (w : WarpRef) : List (Nat × Op) :=
  List.filter (fun (o : Nat × Op) => warpOf o.2.ref = w) s.ops

/-- The team's warps can be released as it stands: it runs, or its lanes have been ended after a halt. -/
def releasable (tm : Team) : Bool := tm.issues || tm.status = .ended

/-- Every production of an ended warp is complete and every pending destination full (R310). -/
def warpDrained (s : State) (tm : Team) (w : WarpRef) (wp : Warp) : Bool :=
  (warpOps s w).all (fun o => o.2.doneCore) && (tm.status = .ended || (wp.refill.isEmpty && wp.spill.isEmpty))

/-- The slot claims of a warp pass on (R271). They do so at once, whether or not an MMA of another warp has still to read the
slot, for which SLOT.release waits: the model's choice (log entry 125). -/
def passClaims (w : WarpRef) (s : State) : State :=
  match s.team? w.team with
  | none => s
  | some tm =>
    tm.areas.foldl (fun s a =>
      let one := fun (wt : Bool) (s : State) (c : Nat × Claim) =>
        let s := modClaim w.team a.1 wt c.1 (fun x => { x with waiting := x.waiting.filter (fun r => warpOf r ≠ w) }) s
        if c.2.holder = some w.warp then grantSlot w.team a.1 wt c.1 (modClaim w.team a.1 wt c.1 Claim.release s)
        else s
      a.2.wclaims.foldl (one true) (a.2.aclaims.foldl (one false) s)) s

/-- A warp's slot, rows, torc and claims are given up (R270, R271, R310). -/
def releaseWarp (w : WarpRef) (s : State) : State :=
  let wp := warpOr s w
  let s := passClaims w (leaveTorc wp.core w s)
  s.modWarp w (fun x => { x with released := true, active := false })

/-- The team's footprint is released (R15, R310) with its residency records (R216), and its exit counts for its launch
(R320, R351). -/
def endTeam (t : Nat) (s : State) : State :=
  match s.team? t, launchOfTeam s t with
  | some tm, some l =>
    let s := purgeTeam t s
    let s := { s with slices := s.slices.map (fun (e : Nat × Slice) =>
      (e.1, { e.2 with res := e.2.res.filter (fun (r : ResRec) => r.warp.team ≠ t) })) }
    let s := match tm.slot with
      | some i => freeSlot tm.die l.ctx l.desc.savePool i s
      | none => s
    let s := ({ s with teams := s.teams.erase t }).modDie tm.die
      (fun d => { d with savedTeams := d.savedTeams.filter (· ≠ t) })
    let s := s.modLaunch tm.launch (fun l => { l with endedTeams := l.endedTeams + 1 })
    settlePreempts (leaveRunning tm.launch s)
  | _, _ => s

/-- A pass of WARP_RELEASE would do something. -/
def releaseReady (s : State) (w : WarpRef) : Bool :=
  match s.team? w.team, s.warp? w with
  | some tm, some wp =>
    !wp.ended || (releasable tm && (if wp.released then (teamOps s w.team).isEmpty else warpDrained s tm w wp))
  | _, _ => true

/-- WARP_RELEASE (R310): an ended warp is released once nothing of it is pending; the last one of a team has the core's
L1 written back, and the team is over once all of that is performed. -/
def execWarpRelease (w : WarpRef) (s : State) : Out :=
  match s.team? w.team, s.warp? w with
  | some tm, some wp =>
    if !wp.ended then .next s
    else if !releaseReady s w then .next (s.push [.warpRelease w])
    else if wp.released then .next (endTeam w.team s)
    else
      let s := releaseWarp w s
      let last := ((s.team? w.team).map (fun tm => tm.warps.all (fun e => e.2.released))).getD false
      if last then
        let s := if tm.status = .ended then s else tm.cores.foldl (fun s c => flushL1 c s) s
        .next (s.push [.warpRelease w])
      else .next s
  | _, _ => .next s

/-! ## HANG_REPORT, POWER_GATE and CORE_WAKE (R396, R397) -/

/-- The cycles since a warp last issued. -/
def idleCycles (s : State) (w : WarpRef) : Nat := s.clock - (warpOr s w).timer

/-- A resident warp. -/
def isResident (s : State) (w : WarpRef) : Bool :=
  match s.team? w.team, s.warp? w with
  | some tm, some wp => tm.issues && !wp.released
  | _, _ => false

/-- A hang is to be reported of a warp (R397): one whose lanes have all exited is resident until it is released (R310). -/
def hangDue (s : State) (w : WarpRef) : Bool :=
  isResident s w && !(warpOr s w).hung && 1600000000 ≤ idleCycles s w

/-- The fault record of a hang of a warp (R397). -/
def hangRecord (s : State) (w : WarpRef) : List Byte :=
  let sp := ((warpOr s w).splits.head?.map (·.1)).getD 0
  let pc := ((s.split? ⟨w.team, w.warp, sp⟩).map (·.path.pc)).getD 0
  faultRecord (s.modTeam w.team (fun tm => { tm with haltAt := s.clock })) w.team ⟨7, 1, 0, 0, 0, pc⟩ w.warp sp

/-- HANG_REPORT (R397): the fault record, written by the context engine, and then a host event ring entry; the team runs on. -/
def execHangReport (w : WarpRef) (s : State) : Out :=
  let e : Instr := .hangReport w
  match s.team? w.team, launchOfTeam s w.team with
  | some tm, some l =>
    if (warpOr s w).reporting then
      writeRegions e (.command tm.die) (tm.cores.headD 0) l.ctx [⟨recordVa tm, 32768, fun _ => hangRecord s w⟩] (fun _ s => s) s (fun s =>
        let q := (((s.launches.find? l.root).getD l).queue).getD (0xFFFF, 0)
        .next (ringWrite l.ctx { kind := 4, qid := q.1, cidx := q.2, arg := (recordVa tm).toNat }
          (s.modWarp w (fun x => { x with reporting := false }))))
    else if hangDue s w then .next ((s.modWarp w (fun x => { x with hung := true, reporting := true })).push [e])
    else .next (forget e s)
  | _, _ => .next (forget e s)

/-- What the writing of a hang's record needs. -/
def hangPlan (s : State) (w : WarpRef) : Option Plan :=
  match s.team? w.team, launchOfTeam s w.team with
  | some tm, some l => some (regionPlan s (.hangReport w) (.command tm.die) (tm.cores.headD 0) l.ctx [(recordVa tm, 32768)])
  | _, _ => none

/-- The warps resident on a core. -/
def coreWarps (s : State) (core : Nat) : List WarpRef :=
  s.teams.flatMap (fun t =>
    (t.2.warps.filter (fun w => w.2.core = core && t.2.placed && !w.2.released)).map (fun w => ⟨t.1, w.1⟩))

/-- Some split on the core is ready. -/
def coreCanIssue (s : State) (core : Nat) : Bool := (coreWarps s core).any (warpReady s)

/-- A core is to be power-gated (R396): clock-gated, with every timer past 800,000 cycles. A watch held at a slice is no operation
in flight; a refill or a constant line on its way is. -/
def gateDue (s : State) (core : Nat) : Bool :=
  (s.core core).powered && !(coreWarps s core).isEmpty && !coreCanIssue s core
    && s.ops.all (fun o => o.2.core ≠ core || o.2.ref.team = noTeam || o.2.kind = .check)
    && s.trips.all (fun t => t.who.unit ≠ .core core) && (coreWarps s core).all (fun w => 800000 < idleCycles s w)

/-- POWER_GATE (R396): everything the core holds keeps its contents. -/
def execPowerGate (core : Nat) (s : State) : Out :=
  .next (if gateDue s core then s.modCore core (fun c => { c with powered := false }) else s)

/-- CORE_WAKE (R396). -/
def execCoreWake (core : Nat) (s : State) : Out := .next (s.modCore core (fun c => { c with powered := true }))

end Sys2Proof.Machine
end

