-- ==== Sys2Proof/Machine/Fabric.lean ====
section
/-! DEFINITION. The Frauk fabric: links and replays (R362), streams, retransmission and broken streams (R192, R193,
R363), the requests of other nodes (R65, R359, R360), and the replies to this node's own. -/

namespace Sys2Proof.Machine

/-! ## Links (R357, R362) -/

/-- FRAUK_LINK_UP (R357): a port trains and comes up, once the package has a node id. -/
def execFraukLinkUp (port : Nat) (s : State) : Out :=
  .next (if s.nodeId.isNone || 64 ≤ port then s
    else { s with ports := s.ports.modify {} port (fun p => { p with up := true }) })

/-- LINK_REPLAY_REQUEST (R362): the receiver of a port finds a CRC error. It discards the flit and every flit after it, and
asks the other end to replay from there; after 16 failed replays in a row the link resets. -/
def execLinkReplayRequest (port flit : Nat) (s : State) : Out :=
  let p := s.ports.get {} port
  let r := p.received.again flit
  let s := { s with ports := s.ports.set port { p with
    rx := p.rx.takeWhile (fun f => f.num ≠ flit), received := r, asks := if r.over then p.asks else p.asks ++ [flit] } }
  .next (if r.over then s.push [.linkReset port] else s)

/-- The packets whose flits from one on stand in a replay buffer, each once. -/
def replayed (flit : Nat) (buf : List (Nat × Packet)) : List Packet :=
  ((buf.filter (fun e => flit ≤ e.1)).map (·.2)).foldl (fun acc p => if acc.getLast? = some p then acc else acc ++ [p]) []

/-- FLIT_REPLAY (R362): the other end asks for a flit again: those from it on that the replay buffer holds are sent again, in
order; after 16 failed replays in a row the link resets. -/
def execFlitReplay (port flit : Nat) (s : State) : Out :=
  let p := s.ports.get {} port
  let r := p.sent.again flit
  let s := { s with ports := s.ports.set port { p with sent := r } }
  .next (if r.over then s.push [.linkReset port]
    else { s with txPackets := s.txPackets ++ (replayed flit p.buffer).map (fun x => (port, x)) })

/-- LINK_RESET (R362): the link goes down and retrains; the flits of its replay buffers are lost, and both directions number
theirs from 0 again (log entry 128). -/
def execLinkReset (port : Nat) (s : State) : Out :=
  .next ({ s with ports := s.ports.modify {} port (fun p => { asks := p.asks }) }.push [.fraukLinkUp port])

/-! ## Broken streams (R193, R363) -/

/-- OP of an entry of the indeterminate-outcome list: the instruction's opcode. -/
def opcodeOf (i : Instr) : Nat := (((encode i).getD 0).extractLsb' 0 8).toNat

/-- The entries for the lanes of an operation, in ascending order, each with the node that owns its line (R193, R387). -/
def indetsOf (s : State) (o : Op) : List Indet :=
  match o.kind with
  | .store | .storeT | .atomic | .atomc | .red =>
    o.lanes.map (fun a =>
      { node := a.rem.getD (s.nodeId.getD 0), op := opcodeOf o.instr, fn := o.fn, ty := o.ty, pk := o.pk, lane := a.lane
        pa := a.pa, b := a.b, c := if o.kind = .atomc then a.c else 0 })
  | _ => []

/-- A warp's indeterminate-outcome list keeps 64 entries. -/
def addIndets (r : SplitRef) (xs : List Indet) (s : State) : State :=
  s.modWarp (warpOf r) (fun w => { w with indet := (w.indet ++ xs).take 64 })

/-- An operation that a broken stream affects: code 6, and once its lanes in its warp's list, which a saved team's image takes
(R193, R392). -/
def noteBroken (id : Nat) (o : Op) (s : State) : State :=
  if o.code = 6 then s
  else
    let s := addIndets o.ref (indetsOf s o) (s.modOp id (fun o => { o with code := 6 }))
    if s.resident o.ref.team then s else s.push [.imageWrite id]

/-- A request without a reply ends with its stream: code 6, and contained results in what it returns, tags among them (R193). -/
def endBroken (u : Unacked) (s : State) : State :=
  match s.ops.find? u.op with
  | none => s
  | some o =>
    match o.kind, o.parts[u.part]? with
    | .copy, _ => copyAnswered u.op u.seq 0 6 0 s
    | .kick, _ => s.dropOp u.op
    | _, none => s
    | _, some _ =>
      let fr := (noteBroken u.op o s).fresh
      let s := if o.kind = .rwr || o.kind = .ksend then fr.2.modOp u.op (fun o => { o with data := o.data.set 0 6 }) else fr.2
      partDone u.op u.part (fun p => { p with ldata := BitVec.ofNat 1024 fr.1, tag := BitVec.ofNat 16 (fr.1 / 2 ^ 4096) }) s

/-- The number that a stream reset stands under among a stream's unanswered requests, beside the 24-bit numbers. -/
def resetSeq : Nat := 2 ^ 24

/-- No retransmission timer of a node's stream is left but that of a stream reset. -/
def stopTimers (node : BitVec 16) (s : State) : State :=
  { s with agenda := s.agenda.filter (fun e => match e with
      | .fabricRetransmitTimeout n q => n ≠ node || q = resetSeq
      | _ => true) }

/-- The stream to a node is broken: its numbering starts again, which its next request tells the other end, and every request
without a reply ends. -/
def breakOut (node : BitVec 16) (s : State) : State :=
  let st := s.stream node
  let s := (stopTimers node s).modStream node (fun st =>
    { st with nextSeq := 0, epoch := st.epoch + 1, unacked := st.unacked.filter (fun u => u.seq = resetSeq) })
  (st.unacked.filter (fun u => u.seq ≠ resetSeq)).foldl (fun s u => endBroken u s) s

/-- The stream from a node is broken: what has been applied is forgotten, and a request under way gets no reply. -/
def breakIn (node : BitVec 16) (s : State) : State :=
  { s.modStream node (fun st => { st with inEpoch := none, seen := [], replies := [] }) with
    replyPacket := if s.rxPackets.head?.any (fun e => e.2.src = node) then none else s.replyPacket }

/-- Both streams with a node are broken. -/
def breakStreams (node : BitVec 16) (s : State) : State := breakIn node (breakOut node s)

/-- A stream-reset command is answered, its reset acknowledged or given up. -/
def resetDone (node : BitVec 16) (s : State) : State :=
  let done := List.filter (fun (w : Waiting) => w.opc = 0x53 && w.node = node) s.waitingCmds
  let s := { s with waitingCmds := s.waitingCmds.filter (fun w => !(w.opc = 0x53 && w.node = node)) }
  let s := s.modStream node (fun st => { st with unacked := st.unacked.filter (fun u => u.seq ≠ resetSeq) })
  done.foldl (fun s w => replyOk w.cmd w.opc [] s) (s.cancel (.fabricRetransmitTimeout node resetSeq))

/-- FABRIC_RETRANSMIT_TIMEOUT (R358, R363): a request that has had no reply is sent again by the die that it left from,
eight times at most; then its stream is broken. -/
def execFabricRetransmitTimeout (node : BitVec 16) (seq : Nat) (s : State) : Out :=
  match (s.stream node).unacked.find? (fun u => u.seq = seq) with
  | none => .next s
  | some u =>
    if 8 ≤ u.retries then .next (if seq = resetSeq then resetDone node s else breakOut node s)
    else
      let s := s.modStream node (fun st =>
        { st with unacked := st.unacked.map (fun x => if x.seq = seq then { x with retries := x.retries + 1 } else x) })
      let s := match routePort s u.die ((s.die u.die).routes.get 0 node.toNat) (u.pkt.addr / 128) with
        | some p => emit p u.pkt s
        | none => s
      .next (s.push [.fabricRetransmitTimeout node seq])

/-! ## Requests of other nodes -/

/-- The packet at the head of those received, if it is of a kind. -/
def headOf (s : State) (k : PacketKind) : Option (Nat × Packet) :=
  match s.rxPackets with
  | e :: _ => if e.2.kind = k then some e else none
  | [] => none

def popPacket (s : State) : State := { s with rxPackets := s.rxPackets.drop 1 }

/-- An export that lets a node reach n bytes with a permission (R359). -/
def exported (s : State) (src : BitVec 16) (a n : Nat) (perm : Export → Bool) : Bool :=
  s.exports.any (fun e => (e.2.any || e.2.src = src) && e.2.base ≤ a && a + n ≤ e.2.base + e.2.size && perm e.2)

/-- The home slice of a request from another node, or the fault that it completes with (R59, R65). -/
def remoteHome (pa home : Nat) : Except Nat Nat :=
  if isHole pa then .error tHole
  else match effPolicy pa home with
    | none => .error tHomeMismatch
    | some p => .ok (homeSlice pa p false)

/-- A reply to a received packet. -/
def answer (s : State) (p : Packet) (kind : PacketKind) (code fault : Nat) : Packet :=
  { (default : Packet) with
    kind := kind, src := s.nodeId.getD 0, dst := p.src, seq := p.seq, addr := p.addr, code := code, fault := fault, ty := p.ty }

/-- A request has been dealt with: its number is kept, its reply cached and sent (R192). -/
def answered (port : Nat) (p r : Packet) (s : State) : State :=
  let s := (popPacket s).modStream p.src (fun st =>
    let seen := st.seen ++ [p.seq]
    let reps := st.replies ++ [r]
    { st with used := true, seen := seen.drop (seen.length - 4096), replies := reps.drop (reps.length - 64) })
  fabricReply port r s

def refused (port : Nat) (p : Packet) (fault : Nat) (s : State) : State := answered port p (answer s p .ack 0 fault) s

/-- The first request of a numbering that has begun again: the one before it is forgotten (R363). -/
def newEpoch (p : Packet) (s : State) : State :=
  if (s.stream p.src).inEpoch = some p.epoch then s
  else (if (s.stream p.src).inEpoch.isSome then breakIn p.src s else s).modStream p.src (fun st =>
    { st with inEpoch := some p.epoch })

/-- A received request of a kind: one of an earlier numbering of its stream is discarded (R363); a duplicate is answered from
the reply cache or discarded (R192); f deals with any other. -/
def received (k : PacketKind) (s : State) (f : Nat → Packet → State → Out) : Out :=
  match headOf s k with
  | none => .next s
  | some (port, p) =>
    if (s.stream p.src).inEpoch.any (fun n => p.epoch < n) then .next (popPacket s)
    else
      let s := newEpoch p s
      if (s.stream p.src).seen.contains p.seq then
        match (s.stream p.src).replies.find? (fun r => r.seq = p.seq) with
        | some r => .next (fabricReply port r (popPacket s))
        | none => .next (popPacket s)
      else f port p s

/-- The slice has performed or refused a received request: the reply goes back to the ingress. -/
def replyWith (t : Trip) (r : Packet) (s : State) : State := returned t (fun x => x) { s with replyPacket := some r }

/-- A received request goes to its slice from the ingress of the die that its port belongs to, with a permit, and its reply
comes back there before it is sent (R81, R358); look is its turn at the slice. -/
def fromIngress (e : Instr) (port : Nat) (p : Packet) (stop : Stop) (look : Trip → State → Out) (s : State) : Out :=
  journey e (.ingress (port / 16)) [stop] look
    (fun _ s => .next (match s.replyPacket with
      | some r => answered port p r { s with replyPacket := none }
      | none => popPacket s)) s

/-- A request for one line: the exports as they stand when it arrives, then the map, then its turn at the home slice with
the check of a SYS access (R65, R91, R128, R359). f is its effect there, with its reply. -/
def atTarget (e : Instr) (k : PacketKind) (s : State) (spans : Packet → List (Nat × Nat)) (perm : Export → Bool)
    (whole : Packet → Bool) (f : Packet → Nat → State → Packet × State) : Out :=
  received k s (fun port p s =>
    let allowed := (spans p).all (fun x => exported s p.src x.1 x.2 perm)
    match remoteHome p.addr p.home with
    | .error c => .next (refused port p (if allowed then c else tRemote) s)
    | .ok h =>
      let line := p.addr / 128
      -- one that is on its way has been judged
      if (s.tripsOf e).isEmpty && !allowed then .next (refused port p tRemote s)
      else
        let inScope := fun (s : State) => match scopeCheck s h line 4 0 with
          | .error _ => none
          | .ok s => some s
        fromIngress e port p ⟨h, line, 1⟩ (fun t s =>
          let reply := fun (r : Packet) (s : State) => replyWith t r s
          atSliceWith { home := h, line := line } e s
            (fun s => if p.checked && (inScope s).isNone then some (reply (answer s p .ack 0 tScope) s) else none) (fun s =>
              if poisoned s line && !whole p then .next (reply (answer s p .ack 0 tMemory) s)
              else
                let x := f p h (if p.checked then (inScope s).getD s else s)
                .next (reply x.1 x.2))) s)

/-- FABRIC_READ. -/
def execFabricRead (s : State) : Out :=
  atTarget .fabricRead .read s (fun p => [(p.addr, p.count)]) (·.r) (fun _ => false) (fun p h s =>
    let d := homeData h (p.addr / 128) (s.mem.line (p.addr / 128)) s
    ({ answer d.2 p .readReply 0 0 with data := d.1, count := p.count }, d.2))

/-- The bytes that a byte mask names in a line. -/
def maskSpans (addr : Nat) (m : ByteMask) : List (Nat × Nat) :=
  ((List.range 128).filter (fun k => m.getLsbD k)).map (fun k => (addr / 128 * 128 + k, 1))

/-- FABRIC_WRITE; the acknowledgement brings the line's tag, which ST.T returns (R158). -/
def execFabricWrite (s : State) : Out :=
  atTarget .fabricWrite .write s (fun p => maskSpans p.addr p.bmask) (·.w) (fun p => p.bmask = BitVec.allOnes 128)
    (fun p h s =>
      let s := writeLine h (p.addr / 128) p.data p.bmask s
      ({ answer s p .ack 0 0 with linetag := s.tags.get 0 (p.addr / 128) }, s))

/-- The lanes of an ATOMIC packet as elements of its line. -/
def packetLanes (p : Packet) : List Acc := p.lanes.map (fun l => { lane := l.lane, pa := p.addr / 128 * 128 + l.off, b := l.b, c := l.c })

/-- FABRIC_ATOMIC (R185, R192, R360). -/
def execFabricAtomic (s : State) : Out :=
  atTarget .fabricAtomic .atomic s (fun p => (packetLanes p).map (fun a => (a.pa, tySize p.ty))) (·.a) (fun _ => false)
    (fun p h s =>
      let r := applyAtomic h (p.addr / 128) p.cas p.fn p.ty (tySize p.ty) (packetLanes p) s
      (if p.red then answer r.2 p .ack 0 0
        else { answer r.2 p .atomicReply 0 0 with
               linetag := r.2.tags.get 0 (p.addr / 128), lanes := p.lanes.map (fun l => ⟨l.lane, l.off, r.1.get 0 (8 * l.lane), 0⟩) },
        r.2))

/-- A request for a locket from another node: the exports, then its turn at the anchor slice (R113, R214, R359). -/
def locketFromFabric (e : Instr) (k : PacketKind) (req : Packet → LocketReq) (s : State) : Out :=
  received k s (fun port p s =>
    let g := p.sig
    if (s.tripsOf e).isEmpty && !exported s p.src (sigAddr g) (4 * widthLanes (sigWidth g % 3)) (·.a) then
      .next (refused port p tRemote s)
    else if isHole (sigAddr g) then .next (refused port p tHole s)
    else
      fromIngress e port p ⟨anchorSlice g, sigBase g / 128, 128⟩ (fun t s =>
        locketTurn e (req p) s (fun code s => .next (replyWith t (answer s p .ack code 0) s))
          (fun _ s => .next (replyWith t (answer s p .ack 0 tMemory) s))) s)

/-- FABRIC_RWRITE (R214). -/
def execFabricRwrite (s : State) : Out :=
  locketFromFabric .fabricRwrite .rwrite (fun p =>
    { sig := p.sig, width := if p.width = 0 then none else some p.width, lmask := p.lmask, values := p.values }) s

/-- FABRIC_TOKEN (R113, R214). -/
def execFabricToken (s : State) : Out :=
  locketFromFabric .fabricToken .token (fun p =>
    { sig := p.sig, scope := some p.scope, lmask := bcastMask p.sig, values := (lanesOf (bcastMask p.sig)).map (fun _ => 1) }) s

/-- FABRIC_KICK (R342, R376, R377): checked against the replica of the die whose port it came in by. -/
def execFabricKick (s : State) : Out :=
  received .kick s (fun port p s =>
    let r := replicaOf s (port / 16) (p.die % 4) (p.slot % 64)
    let s := checkedKick (p.die % 4) (p.slot % 64) p.ctx p.tail.toNat r.version (r.bound && r.ctx = p.ctx)
      (fetchReplica (port / 16) (p.die % 4) (p.slot % 64) s)
    .next (answered port p (answer s p .ack 0 0) s))

/-- FABRIC_STREAM_RESET_RECEIVED (R363): both streams with the sender are broken, and the reset is acknowledged. -/
def execFabricStreamResetReceived (s : State) : Out :=
  match headOf s .streamReset with
  | none => .next s
  | some (port, p) =>
    let s := breakStreams p.src (popPacket s)
    .next (fabricReply port (answer s p .streamResetAck 0 0) s)

/-- TARGET_PACKAGE_RESET (R363): the streams with a package that has been reset are broken. -/
def execTargetPackageReset (s : State) : Out :=
  match headOf s .resetNotice with
  | none => .next s
  | some (_, p) => .next (resetDone p.src (breakStreams p.src (popPacket s)))

/-- STREAM_RESET_ACK (R363): the command that asked for the reset is answered. -/
def execStreamResetAck (s : State) : Out :=
  match headOf s .streamResetAck with
  | none => .next s
  | some (_, p) => .next (resetDone p.src (popPacket s))

/-! ## Replies to this node's requests -/

/-- A refused request ends its operation with the fault that the target names; a PREF drops it (R65, R66). -/
def replyFault (u : Unacked) (o : Op) (p : Part) (fault : Nat) (s : State) : State :=
  if o.kind = .copy then copyAnswered u.op u.seq 0 0 fault s
  else if o.kind = .kick then s.dropOp u.op
  else if o.kind = .pref then partDone u.op u.part (fun p => { p with fill := false }) s
  else refusePart ⟨u.op, u.part⟩ 3 fault (lineAddr p.line) (lineMask o p.key) 0 s

/-- The reply of a request reaches the operation that made it. -/
def replyTo (u : Unacked) (r : Packet) (s : State) : State :=
  match s.ops.find? u.op with
  | none => s
  | some o =>
    match o.parts[u.part]? with
    | none => s
    | some p =>
      if r.fault ≠ 0 then replyFault u o p r.fault s
      else match o.kind with
        | .copy => copyAnswered u.op u.seq r.data r.code 0 s
        | .kick => s.dropOp u.op
        | .rwr | .ksend => replyCode u.op r.code s
        | .atomic | .atomc =>
          let data := r.lanes.foldl (fun t l => t.set (8 * l.lane) l.b) o.data
          partDone u.op u.part (fun p => { p with tag := r.linetag }) (s.modOp u.op (fun o => { o with data := data }))
        | _ => partDone u.op u.part (fun p => { p with ldata := r.data, tag := r.linetag }) s

/-- The reply of a fabric request that awaits one. -/
def takeReply (r : Packet) (s : State) : State :=
  match (s.stream r.src).unacked.find? (fun u => u.seq = r.seq) with
  | none => s
  | some u =>
    let s := (s.modStream r.src (fun st => { st with unacked := st.unacked.filter (fun x => x.seq ≠ r.seq) })).cancel
      (.fabricRetransmitTimeout r.src r.seq)
    replyTo u r s

/-- FABRIC_REPLY_ARRIVAL (R192, R360): a reply that no request awaits is discarded. -/
def execFabricReplyArrival (s : State) : Out :=
  match s.rxPackets with
  | [] => .next s
  | (_, r) :: _ =>
    match r.kind with
    | .readReply | .atomicReply | .ack => .next (takeReply r (popPacket s))
    | _ => .next s

end Sys2Proof.Machine
end

