-- ==== Sys2Proof/Machine/Host.lean ====
section
/-! DEFINITION. The host link: GCT datagrams, handshakes and sessions (R366, R370 to R372, R419), command records (R373,
R374), and the host's memory accesses (R75). -/

namespace Sys2Proof.Machine

/-! ## Datagrams (R370) -/

/-- A received datagram is dropped and counted. -/
def dropDatagram (s : State) : State := { s with rxDatagrams := s.rxDatagrams.drop 1, dropped := s.dropped + 1 }

def takeDatagram (s : State) : State := { s with rxDatagrams := s.rxDatagrams.drop 1 }

/-- The header's version, reserved bytes and length are right for a clear or a protected body. -/
def headerOk (d : Datagram) (sealed : Bool) : Bool :=
  d.ver = 1 && d.rsv1 = 0 && d.rsv2 = 0 && d.len.toNat ≤ 9000
    && d.body.length = d.len.toNat + (if sealed then 16 else 0)
    && (if d.type = 5 || d.type = 6 then d.stream.toNat < 16 else d.stream = 0)

/-- The head of the received datagrams, if it is of a type. -/
def headDatagram (s : State) (type : Nat) : Option Datagram :=
  match s.rxDatagrams with
  | d :: _ => if d.type.toNat = type then some d else none
  | [] => none

/-- The session that a protected datagram names, and its opened body. -/
def openDatagram (s : State) (d : Datagram) : Option (Nat × Session × List Byte) :=
  match s.sessions.find? d.session.toNat with
  | none => none
  | some x =>
    if x.src ≠ d.src || !headerOk d true then none
    else
      (Config.gcmOpen x.key (gcmNonce 0 d.stream.toNat d.seq.toNat) (headerBytes d) d.body).map
        (fun b => (d.session.toNat, x, b))

/-! ## The handshake (R371, R419) -/

/-- The signed part of the attestation report. -/
def reportBody (s : State) (nonce : List Byte) : List Byte :=
  let fw := s.firmware.getD ⟨0, 0, [], [], []⟩
  leBytes 4 0x5A485154 ++ [0xB0, 3, 0, 0] ++ leBytes 4 fw.version.toNat ++ leBytes 4 fw.svn.toNat ++ fit 32 nonce
    ++ sha3_256 fw.body ++ leBytes 2 (s.nodeId.getD 0).toNat ++ [if s.nodeId.isSome then 1 else 0] ++ zeros 13
    ++ fit 1312 Config.identityKey

def attestation (s : State) (nonce : List Byte) : List Byte :=
  let b := reportBody s nonce
  b ++ fit 2420 (Config.identitySign (sha3_256 b))

/-- GCT_HELLO (R371): a handshake begins; the answer carries the device's nonce, key and report. -/
def execGctHello (s : State) : Out :=
  match headDatagram s 1 with
  | none => .next s
  | some d =>
    let key := (d.body.getD 32 0).toNat
    if !headerOk d false || d.session ≠ 0 || d.body.length ≠ 40 || 8 ≤ key || fieldOf d.body 33 7 ≠ 0 then
      .next (dropDatagram s)
    else
      let n := s.handshakes + 1
      let rep := fit 32 (Config.deviceNonce n) ++ fit 1184 (Config.mlkemKey n) ++ attestation s (d.body.take 32)
      let s := { takeDatagram s with
        handshakes := n, hellos := s.hellos.set d.src { body := d.body, reply := rep, keyIndex := key, number := n } }
      .next ((transmit (emptyDatagram d.src 2 0 0 rep) (s.cancel (.helloForgetTimeout d.src))).push [.helloForgetTimeout d.src])

/-- HELLO_FORGET_TIMEOUT (R371). -/
def execHelloForgetTimeout (src : Nat) (s : State) : Out := .next { s with hellos := s.hellos.erase src }

/-- The lowest session id not open, 1 to 256. -/
def freeSession (s : State) : Option Nat := (List.range 256).find? (fun n => (s.sessions.find? (n + 1)).isNone) |>.map (· + 1)

/-- The session key of R371. -/
def sessionKey (h : Hello) (ct : List Byte) : List Byte :=
  sha3_256 (Config.mlkemDecap h.number ct ++ h.body.take 32 ++ h.reply.take 32)

/-- The key that opens a session, if the AUTH proves it (R366, R371); in recovery only a privileged one (R418). -/
def authorised (s : State) (h : Hello) (body : List Byte) : Option Bool :=
  let ct := body.take 1088
  match Config.hostKey h.keyIndex with
  | none => none
  | some (pk, priv) =>
    if !Config.mldsaVerify pk (sha3_256 (h.body ++ h.reply ++ ct)) (body.drop 1088) || (s.recovery && !priv) then none
    else some priv

/-- GCT_AUTH (R371): the session opens, or the device does not answer. -/
def execGctAuth (s : State) : Out :=
  match headDatagram s 3 with
  | none => .next s
  | some d =>
    match s.hellos.find? d.src with
    | none => .next (dropDatagram s)
    | some h =>
      if !headerOk d false || d.session ≠ 0 || d.body.length ≠ 3508 then .next (dropDatagram s)
      else
        let s := (takeDatagram { s with hellos := s.hellos.erase d.src }).cancel (.helloForgetTimeout d.src)
        match authorised s h d.body, freeSession s with
        | some priv, some id =>
          let key := sessionKey h (d.body.take 1088)
          let s := { s with sessions := s.sessions.set id { src := d.src, key := key, priv := priv } }
          let rep := sealDatagram key (emptyDatagram d.src 4 id 0 ([0, if priv then 1 else 0] ++ zeros 6))
          .next ((transmit rep s).push [.sessionIdleTimeout id])
        | _, _ => .next s

/-! ## The end of a session -/

/-- The session and stream that an event's command came on. -/
def cmdOf (e : Instr) : Option Cmd :=
  match e with
  | .memoryReadVirtual c _ _ _ | .memoryReadPhysical c _ _ _ | .memoryWriteVirtual c _ _ _ | .memoryWritePhysical c _ _ _
  | .kick c _ _ _ | .createContext c | .destroyContext c _ | .setRootTable c _ _ | .setEventCount c _ _ _
  | .setRefinableSet c _ _ _ _ | .shootdown c _ _ _ | .grantContext c _ _ | .bindUserQueue c _ _ _ _
  | .unbindUserQueue c _ _ | .resumeQueueRetry c _ _ | .resumeQueueSkip c _ _ | .setHostEventRing c _ _ _
  | .advanceReadIndex c _ _ | .assignNodeId c _ | .writeRouteTable c _ _ _ | .writeExport c _ _ _ _ _
  | .streamReset c _ | .readForeignKickCounters c => some c
  | _ => none

/-- Commands of a session that have not begun are not performed, nor are its accesses to memory that have not been (log entry
68). -/
def dropCommands (n : Nat) (s : State) : State :=
  let ours := fun (e : Instr) => (cmdOf e).any (fun c => c.session = n)
    && !(match e with | .destroyContext c _ => s.waitingCmds.any (fun w => w.cmd = c && w.opc = 0x11) | _ => false)
  let accs := (s.hostAccs.filter (fun a => a.2.cmd.session = n)).map (·.1)
  let s := purgeEvents (fun e => ours e || (match e with | .hostAccessAtSlice id _ => accs.contains id | _ => false)) s
  { s with
    hostAccs := s.hostAccs.filter (fun a => a.2.cmd.session ≠ n)
    dies := s.dies.map (fun d => (d.1, { d.2 with
      misses := d.2.misses.map (fun m => { m with events := m.events.filter (fun e => !ours e) }) })) }

/-- The command that a destroy under way goes on as when its session ends: no session has number 0, and no one gets its
reply. -/
def orphan (n ctx : Nat) (c : Cmd) : Cmd := if c.session = n then ⟨0, 0, BitVec.ofNat 64 ctx⟩ else c

/-- What a session's commands wait for: a destroy goes on without the session; nobody is told of the end of the others. -/
def dropWaits (n : Nat) (s : State) : State :=
  { s with
    waitingCmds := (s.waitingCmds.filter (fun w => w.cmd.session ≠ n || w.opc = 0x11)).map (fun w =>
      { w with cmd := orphan n w.ctx w.cmd })
    agenda := s.agenda.map (fun e => match e with
      | .destroyContext c x => .destroyContext (orphan n x c) x
      | e => e) }

/-- The session ends: its contexts are no longer its own, and what it had sent is not performed. -/
def endSession (n : Nat) (s : State) : State :=
  let contexts : Tab Context := s.contexts.map (fun (e : Nat × Context) =>
    (e.1, { e.2 with
            sessions := e.2.sessions.filter (· ≠ n)
            ringLog := e.2.ringLog.filter (fun (r : Nat × Nat × Nat) => r.2.1 ≠ n) }))
  let s := dropWaits n (dropCommands n { s with sessions := s.sessions.erase n, contexts := contexts })
  { s with agenda := s.agenda.filter (fun e =>
      match e with
       | .dataRetransmitTimeout x _ _ => x ≠ n
       | .sessionIdleTimeout x => x ≠ n
       | _ => true) }

/-- GCT_CLOSE (R371). -/
def execGctClose (s : State) : Out :=
  match headDatagram s 7 with
  | none => .next s
  | some d =>
    match openDatagram s d with
    | none => .next (dropDatagram s)
    | some (n, _, _) => .next (endSession n (takeDatagram s))

/-- SESSION_IDLE_TIMEOUT (R371): the device ends the session. -/
def execSessionIdleTimeout (n : Nat) (s : State) : Out := .next (endSession n s)

/-! ## DATA and ACK (R372) -/

/-- The datagrams of a stream that the host has acknowledged. -/
def acknowledge (n stream : Nat) (seq : Nat) (s : State) : State :=
  let s := s.modSession n (fun x => x.modStream stream (fun st =>
    { st with unacked := st.unacked.filter (fun d => seq ≤ d.seq.toNat) }))
  { s with agenda := s.agenda.filter (fun e => match e with
      | .dataRetransmitTimeout a b q => !(a = n && b = stream && q < seq)
      | _ => true) }

/-- GCT_ACK. -/
def execGctAck (s : State) : Out :=
  match headDatagram s 6 with
  | none => .next s
  | some d =>
    match openDatagram s d with
    | none => .next (dropDatagram s)
    | some (n, _, _) => .next (acknowledge n d.stream.toNat d.ackseq.toNat (takeDatagram s))

/-- DATA_RETRANSMIT_TIMEOUT: a datagram that stays unacknowledged is sent again. -/
def execDataRetransmitTimeout (n stream seq : Nat) (s : State) : Out :=
  match (s.sessions.find? n).bind (fun x => (x.stream stream).unacked.find? (fun d => d.seq.toNat = seq)) with
  | none => .next s
  | some d => .next ((transmit d s).push [.dataRetransmitTimeout n stream seq])

/-! ## Command records (R373, R374) -/

/-- A command's event, if its payload is well formed. -/
def parseCommand (c : Cmd) (opc : Nat) (p : List Byte) : Option Instr :=
  let u := fieldOf p
  let n := p.length
  let ok := fun (b : Bool) (i : Instr) => if b then some i else none
  let d := fun (o : Nat) => BitVec.ofNat 64 (u o 8)
  let count := u 16 4
  let form := u 2 1
  let rangeOk := form ≤ 1 && u 3 1 ≤ form && u 4 4 = 0 && u 20 4 = 0 && 1 ≤ count && count ≤ 8192
  match opc with
  | 0x01 =>
    ok (n = 24 && rangeOk)
      (if form = 0 then .memoryReadVirtual c (u 0 2) (d 8) count else .memoryReadPhysical c (u 3 1) (d 8) count)
  | 0x02 =>
    ok (n = 24 + count && rangeOk)
      (if form = 0 then .memoryWriteVirtual c (u 0 2) (d 8) (p.drop 24) else .memoryWritePhysical c (u 3 1) (d 8) (p.drop 24))
  | 0x03 => ok (n = 16 && u 4 4 = 0) (.kick c (u 0 2) (u 2 2) (d 8))
  | 0x10 => ok (n = 0) (.createContext c)
  | 0x11 => ok (n = 8 && u 2 6 = 0) (.destroyContext c (u 0 2))
  | 0x12 => ok (n = 16 && u 2 6 = 0) (.setRootTable c (u 0 2) (d 8))
  | 0x13 => ok (n = 16 && u 2 2 = 0) (.setEventCount c (u 0 2) (u 4 4) (d 8))
  | 0x14 => ok (n = 8 && u 7 1 = 0) (.setRefinableSet c (u 0 2) (u 2 2) (u 4 2) (u 6 1))
  | 0x15 => ok (n = 24 && u 2 6 = 0) (.shootdown c (u 0 2) (d 8) (d 16))
  | 0x16 => ok (n = 8 && u 4 4 = 0) (.grantContext c (u 0 2) (u 2 2))
  | 0x20 => ok (n = 16 && u 5 3 = 0) (.bindUserQueue c (u 0 2) (u 2 2) (u 4 1) (d 8))
  | 0x21 => ok (n = 8 && u 4 4 = 0) (.unbindUserQueue c (u 0 2) (u 2 2))
  | 0x22 =>
    ok (n = 8 && u 5 3 = 0 && u 4 1 ≤ 1)
      (if u 4 1 = 0 then .resumeQueueRetry c (u 0 2) (u 2 2) else .resumeQueueSkip c (u 0 2) (u 2 2))
  | 0x30 => ok (n = 8 && u 4 4 = 0) (.setHostEventRing c (u 0 2) (u 2 1) (u 3 1))
  | 0x31 => ok (n = 16 && u 2 6 = 0) (.advanceReadIndex c (u 0 2) (d 8))
  | 0x50 => ok (n = 8 && u 2 6 = 0) (.assignNodeId c (BitVec.ofNat 16 (u 0 2)))
  | 0x51 => ok (n = 8 && u 1 1 = 0 && u 6 2 = 0) (.writeRouteTable c (u 0 1) (BitVec.ofNat 16 (u 2 2)) (BitVec.ofNat 16 (u 4 2)))
  | 0x52 =>
    ok (n = 24 && u 4 4 = 0) (.writeExport c (u 0 1) (BitVec.ofNat 8 (u 1 1)) (BitVec.ofNat 16 (u 2 2)) (d 8) (d 16))
  | 0x53 => ok (n = 8 && u 2 6 = 0) (.streamReset c (BitVec.ofNat 16 (u 0 2)))
  | 0x54 => ok (n = 0) (.readForeignKickCounters c)
  | _ => none

/-- The command is one that only a privileged session may give (R374). -/
def privileged (e : Instr) : Bool :=
  match e with
  | .memoryReadPhysical _ _ _ _ | .memoryWritePhysical _ _ _ _ | .assignNodeId _ _ | .writeRouteTable _ _ _ _
  | .writeExport _ _ _ _ _ _ | .streamReset _ _ | .grantContext _ _ _ | .readForeignKickCounters _ => true
  | _ => false

/-- The records of a DATA body, in order: each becomes a command, or is answered with code 1. -/
def readRecords (session stream : Nat) : Nat → List Byte → State → State
  | 0, _, s => s
  | fuel + 1, bs, s =>
    if bs.length < 16 then s
    else
      let opc := fieldOf bs 0 2
      let len := fieldOf bs 4 4
      let c : Cmd := ⟨session, stream, BitVec.ofNat 64 (fieldOf bs 8 8)⟩
      let body := bs.drop 16
      if body.length < len then replyErr c (opc % 0x8000) 1 s
      else
        let s := match (if fieldOf bs 2 2 = 0 then parseCommand c opc (body.take len) else none) with
          | some e => s.push [e]
          | none => replyErr c (opc % 0x8000) 1 s
        readRecords session stream fuel (body.drop ((len + 7) / 8 * 8)) s

/-- The next datagram in order of a stream is taken up, and those held ahead of it that now follow. -/
def deliver (n stream : Nat) : Nat → State → State
  | 0, s => s
  | fuel + 1, s =>
    match s.sessions.find? n with
    | none => s
    | some x =>
      let st := x.stream stream
      match st.ahead.find? (fun d => d.seq.toNat = st.inSeq) with
      | none => s
      | some d =>
        let s := s.modSession n (fun x => x.modStream stream (fun st =>
          { st with inSeq := st.inSeq + 1, ahead := st.ahead.filter (fun e => e.seq ≠ d.seq) }))
        deliver n stream fuel (readRecords n stream (d.body.length / 16 + 1) d.body s)

/-- GCT_DATA (R370, R372): the datagram is acknowledged; its commands follow those of the datagrams before it. Any other
type that the device does not receive is dropped here too. -/
def execGctData (s : State) : Out :=
  match s.rxDatagrams with
  | [] => .next s
  | d :: _ =>
    if d.type = 1 || d.type = 3 || d.type = 6 || d.type = 7 then .next s
    else if d.type ≠ 5 then .next (dropDatagram s)
    else match openDatagram s d with
      | none => .next (dropDatagram s)
      | some (n, x, body) =>
        let str := d.stream.toNat
        let st := x.stream str
        let s := acknowledge n str d.ackseq.toNat (takeDatagram s)
        if d.seq.toNat < st.inSeq then .next (sendAck n str s)
        else if st.ahead.any (fun e => e.seq = d.seq) then .next (sendAck n str s)
        else if st.inSeq < d.seq.toNat && 64 ≤ st.ahead.length then .next { s with dropped := s.dropped + 1 }
        else
          let s := s.modSession n (fun x => x.modStream str (fun st => { st with ahead := st.ahead ++ [{ d with body := body }] }))
          .next (sendAck n str (deliver n str 66 s))

/-! ## Who may do what (R367, R373, R418) -/

/-- A command that any session may give, outside recovery. -/
def withSession (c : Cmd) (opc : Nat) (e : Instr) (s : State) (k : State → Out) : Out :=
  let priv := ((s.sessions.find? c.session).map (·.priv)).getD false
  let write := match e with | .memoryWritePhysical _ _ _ _ => true | _ => false
  if (privileged e && !priv) || (s.recovery && !write) then .next (replyErr c opc 3 s) else k s

/-- A command on a context: it must exist, and the session must hold it. -/
def withContext (c : Cmd) (opc ctx : Nat) (e : Instr) (s : State) (k : State → Out) : Out :=
  withSession c opc e s (fun s =>
    if !(s.context ctx).live then .next (replyErr c opc 5 s)
    else if !privileged e && !(s.context ctx).sessions.contains c.session then .next (replyErr c opc 3 s)
    else k s)

/-! ## Memory accesses (R75) -/

/-- A fault of an access, in the reply's DETAIL (R373). -/
def replyFaultKind (c : Cmd) (opc code : Nat) (s : State) : State := reply c opc 4 code [] s

/-- The page images of teams that are resident, being saved or restored, as physical 64 KiB pages. -/
def guardedPages (s : State) : List Nat :=
  s.teams.flatMap (fun t =>
    if !t.2.placed then []
    else match s.launches.find? t.2.launch with
      | none => []
      | some l =>
        let core := t.2.cores.headD 0
        (List.range (imageSize l.desc / 65536)).filterMap (fun k =>
          (imgPhys s core l.ctx (headerVa t.2 + BitVec.ofNat 64 (65536 * k))).map (fun p => p.pa / 65536)))

/-- A slot's queue record as its 64 bytes (R375). -/
def QueueRec.bytes (q : QueueRec) : List Byte :=
  leBytes 8 q.ring.toNat ++ leBytes 2 q.ctx ++ leBytes 2 q.qid ++ leBytes 1 q.logcap ++ leBytes 1 q.state
    ++ leBytes 2 q.version.toNat ++ leBytes 8 q.head ++ leBytes 8 q.kick ++ leBytes 8 q.err.toNat ++ zeros 24

/-- The die, slot and offset of a physical byte in a queue record (R380, log entry 36). -/
def queuePlace (a : Nat) : Option (Nat × Nat × Nat) :=
  let o := a - Config.queueRecords.toNat
  if Config.queueRecords.toNat ≤ a && o < 4 * 64 * 64 then some (o / 4096, o / 64 % 64, o % 64) else none

/-- A byte that the host writes to a queue record: those of ERR, the record's only fields that it may write, take it
(R8, R380). -/
def writeRecordByte (s : State) (e : Nat × Byte) : State :=
  match queuePlace e.1 with
  | some (d, n, o) =>
    if 32 ≤ o && o < 40 then
      modQueue d n (fun q => { q with
        err := BitVec.ofNat 64 (leNat ((leBytes 8 q.err.toNat).set (o - 32) e.2)) }) s
    else s
  | none => s

/-- An access of the host whose bytes all lie in queue records is performed at once. -/
def recordAccess (c : Cmd) (opc : Nat) (write : Bool) (bytes : List Nat) (data : List Byte) (s : State) : State :=
  if write then replyOk c opc [] ((bytes.zip data).foldl writeRecordByte s)
  else replyOk c opc (bytes.map (fun a => match queuePlace a with
    | some (d, n, o) => (s.queue d n).bytes.getD o 0
    | none => 0)) s

/-- The access of a host to bytes on lines starts: one request for each line, all of one stream in order. -/
def startAccess (c : Cmd) (opc : Nat) (ctx : Option Nat) (write : Bool) (addr : Nat) (bytes : List Nat) (homes : List (Nat × Nat))
    (data : List Byte) (s : State) : State :=
  let id := s.hostAccs.fresh
  let parts := homes.map (fun h => ({ line := h.2, home := h.1 } : Part))
  ({ s with
     hostAccs := s.hostAccs.set id
       { cmd := c, opc := opc, ctx := ctx, write := write, addr := addr, bytes := bytes, parts := parts, data := data } }).push
    ((List.range parts.length).map (fun k => .hostAccessAtSlice id k))

/-- The physical bytes of a virtual range as the host reaches them, line by line, and their lines' homes, under the
translations that the command's event has. -/
def hostBytes (s : State) (e : Instr) (ctx : Nat) (write : Bool) : Nat → Dword → Nat → Except TFault (List Nat × List (Nat × Nat))
  | 0, _, _ => .ok ([], [])
  | fuel + 1, va, n =>
    if n = 0 then .ok ([], [])
    else
      let k := min n (128 - va.toNat % 128)
      match translateFor s e (dispatchCore 0) ctx .host write va with
      | .error f => .error f
      | .ok p =>
        if p.tr.node.isSome then .error ⟨tRemote, 0⟩
        else match hostBytes s e ctx write fuel (va + BitVec.ofNat 64 k) (n - k) with
          | .error f => .error f
          | .ok r => .ok ((List.range k).map (p.pa + ·) ++ r.1, (p.home, p.pa / 128) :: r.2)

/-- The bytes are all of queue records. -/
def inRecords (bytes : List Nat) : Bool := bytes.all (fun a => (queuePlace a).isSome)

/-- A virtual-form access to bytes of memory on lines. -/
def virtualMemory (c : Cmd) (opc ctx : Nat) (write : Bool) (va : Dword) (r : List Nat × List (Nat × Nat)) (data : List Byte)
    (s : State) : Out :=
  if write && (guardedPages s).any (fun g => r.1.any (fun a => a / 65536 = g)) then .next (replyErr c opc 8 s)
  else .next (startAccess c opc (some ctx) write va.toNat r.1 r.2.dedup data s)

/-- A virtual-form access: its pages are walked first, for the host's ingress at die 0. -/
def virtualAccess (e : Instr) (c : Cmd) (opc ctx : Nat) (write : Bool) (va : Dword) (count : Nat) (data : List Byte) (s : State) :
    Out :=
  withPins e (.ingress 0) (dispatchCore 0) ctx [va, va + BitVec.ofNat 64 (count - 1)] s (fun s =>
    match hostBytes s e ctx write 66 va count with
    | .error f => .next (replyFaultKind c opc f.code (unpin e s))
    | .ok r =>
      if inRecords r.1 then .next (recordAccess c opc write r.1 data (unpin e s))
      else virtualMemory c opc ctx write va r data (unpin e s))

/-- A physical-form access to memory. -/
def physicalMemory (c : Cmd) (opc pol : Nat) (write : Bool) (addr : Dword) (count : Nat) (data : List Byte) (s : State) : Out :=
  let a := addr.toNat
  let bytes := (List.range count).map (a + ·)
  if pol = 1 && bytes.any inFar then .next (replyErr c opc 1 s)
  else if bytes.any isHole then .next (replyFaultKind c opc tHole s)
  else if write && (guardedPages s).any (fun g => bytes.any (fun x => x / 65536 = g)) then .next (replyErr c opc 8 s)
  else
    let lines := (List.range ((a % 128 + count + 127) / 128)).map (fun i => a / 128 + i)
    let homes := lines.map (fun x => (homeSlice (128 * x) ((effPolicy (128 * x) pol).getD 0) false, x))
    .next (startAccess c opc none write a bytes homes data s)

/-- A physical-form access. -/
def physicalAccess (c : Cmd) (opc pol : Nat) (write : Bool) (addr : Dword) (count : Nat) (data : List Byte) (s : State) : Out :=
  let bytes := (List.range count).map (addr.toNat + ·)
  if inRecords bytes then .next (recordAccess c opc write bytes data s) else physicalMemory c opc pol write addr count data s

/-- MEMORY_READ_VIRTUAL. -/
def execMemoryReadVirtual (c : Cmd) (ctx : Nat) (addr : Dword) (count : Nat) (s : State) : Out :=
  withContext c 1 ctx (.memoryReadVirtual c ctx addr count) s (virtualAccess (.memoryReadVirtual c ctx addr count) c 1 ctx false addr count [])

/-- MEMORY_READ_PHYSICAL. -/
def execMemoryReadPhysical (c : Cmd) (pol : Nat) (addr : Dword) (count : Nat) (s : State) : Out :=
  withSession c 1 (.memoryReadPhysical c pol addr count) s (physicalAccess c 1 pol false addr count [])

/-- MEMORY_WRITE_VIRTUAL. -/
def execMemoryWriteVirtual (c : Cmd) (ctx : Nat) (addr : Dword) (data : List Byte) (s : State) : Out :=
  withContext c 2 ctx (.memoryWriteVirtual c ctx addr data) s (virtualAccess (.memoryWriteVirtual c ctx addr data) c 2 ctx true addr data.length data)

/-- MEMORY_WRITE_PHYSICAL; in recovery it loads the staging buffer, its address the place there (R418). -/
def execMemoryWritePhysical (c : Cmd) (pol : Nat) (addr : Dword) (data : List Byte) (s : State) : Out :=
  withSession c 2 (.memoryWritePhysical c pol addr data) s (fun s =>
    if s.recovery then
      let staging := data.zipIdx.foldl (fun t e => Tab.set t (addr.toNat + e.2) e.1) s.staging
      .next (replyOk c 2 [] { s with staging := staging })
    else physicalAccess c 2 pol true addr data.length data s)

/-- A write of the host to the header of a team's image that is not resident is seen by the dispatcher: where it touches
CONTROL, with CONTROL as the write leaves it (R389). -/
def headerWrites (a : HostAcc) (line : Nat) (s : State) : List Instr :=
  s.teams.filterMap (fun t =>
    if t.2.placed then none
    else match s.launches.find? t.2.launch with
      | none => none
      | some l => (imgPhys s (t.2.cores.headD 0) l.ctx (headerVa t.2)).bind (fun p =>
        let here := ((a.bytes.zip a.data).filter (fun e => e.1 / 128 = line && p.pa ≤ e.1 && e.1 < p.pa + 64))
        here.head?.map (fun e =>
          if e.1 < p.pa + 8 then .teamHeaderWrite t.1 0 (s.mem.read p.pa 8)
          else .teamHeaderWrite t.1 (e.1 - p.pa) (here.map (·.2)))))

/-- The bytes of a host access on one line, with what it writes there. -/
def lineBytes (a : HostAcc) (line : Nat) : List (Nat × Byte) :=
  (a.bytes.zip (if a.write then a.data else zeros a.bytes.length)).filter (fun e => e.1 / 128 = line)

/-- One line of a host access has its turn: performed at SYS scope and none of the checked accesses of R91 (R58, R75). -/
def hostTurn (a : HostAcc) (t : Trip) (s : State) : State :=
  let mine := lineBytes a t.line
  if poisoned s t.line && !(a.write && mine.length = 128) then returned t (fun x => { x with bad := true }) s
  else if a.write then
    let d := mine.foldl (fun (d : LineData × ByteMask) e => placeBytes (e.1 % 128) [e.2] d.1 d.2) (0, 0)
    let s := writeLine t.home t.line d.1 d.2 s
    returned t (fun x => x) (s.push (headerWrites a t.line s))
  else
    let d := homeData t.home t.line (s.mem.line t.line) s
    returned t (fun x => { x with data := d.1 }) d.2

/-- The reply of a host access whose lines have all been answered: one that met a fault is refused with it (R75). -/
def answerHost (id : Nat) (a : HostAcc) (s : State) : State :=
  let s := { s with hostAccs := s.hostAccs.erase id }
  if a.fault ≠ 0 then replyFaultKind a.cmd a.opc a.fault s
  else replyOk a.cmd a.opc (if a.write then [] else a.bytes.map (fun x => Tab.get 0 a.got x)) s

/-- The reply for one line of a host access has come back; the last one answers the host. -/
def hostReplied (id k line : Nat) (a : HostAcc) (ts : List Trip) (s : State) : State :=
  let a := { a with
    parts := a.parts.modify k (fun p => { p with done := true })
    fault := if ts.any (·.bad) then tMemory else a.fault
    got := if a.write then a.got else
      (lineBytes a line).foldl (fun t e => Tab.set t e.1 (lineByte (tripData ts line) (e.1 % 128))) a.got }
  if a.parts.all (·.done) then answerHost id a s else { s with hostAccs := s.hostAccs.set id a }

/-- HOST_ACCESS_AT_SLICE (R75): one line of a host access, with a permit of die 0's ingress (R81). -/
def execHostAccessAtSlice (id k : Nat) (s : State) : Out :=
  let e : Instr := .hostAccessAtSlice id k
  match s.hostAccs.find? id with
  | none => .next (forget e s)
  | some a =>
    match a.parts[k]? with
    | none => .next s
    | some p =>
      if p.done then .next s
      else
        journey e (.ingress 0) [⟨p.home, p.line, 1⟩]
          (fun t s => atSlice t.home t.line true e s (fun s => .next (hostTurn a t s)))
          (fun ts s => .next (hostReplied id k p.line a ts s)) s

end Sys2Proof.Machine
end

