-- ==== Sys2Proof/Machine/Commands.lean ====
section
/-! DEFINITION. The GCT commands on contexts, queues, event rings and the fabric (R70, R71, R74, R213, R330, R345, R357 to
R359, R363, R367, R374 to R380). -/

namespace Sys2Proof.Machine

/-- A command that stays until its effect is complete, ahead of the later commands of its stream. -/
def State.again (s : State) (e : Instr) : State := { s with agenda := e :: s.agenda }

/-! ## Contexts -/

/-- The lowest number from n on, among fuel, for which p holds. -/
def firstFrom (p : Nat → Bool) : Nat → Nat → Option Nat
  | 0, _ => none
  | fuel + 1, n => if p n then some n else firstFrom p fuel (n + 1)

/-- CREATE_CONTEXT (R213). The tables that the dies keep are one table here, changed in one step for all of them: the model's
choice (log entry 121). -/
def execCreateContext (c : Cmd) (s : State) : Out :=
  withSession c 0x10 (.createContext c) s (fun s =>
    match firstFrom (fun n => !(s.context n).live && !(s.context n).retired) 65535 1 with
    | none => .next (replyErr c 0x10 11 s)
    | some n =>
      let gen := (s.context n).gen + 1
      let s := { s with contexts := s.contexts.set n { live := true, gen := gen, sessions := [c.session] } }
      .next (replyOk c 0x10 (leBytes 2 n ++ [gen] ++ zeros 5) s))

/-- An access that was translated and is not yet performed at its home slice or faulted (R71); requests through signets
are not. Of an operation that has failed, what has left its core and what its core's L1 holds is still to be performed; what
has not left is translated again when it is taken up, as a stopped DRAIN is when it goes on. -/
def translatedPending (o : Op) : Bool :=
  match o.kind with
  | .rwr | .ksend | .mint | .empty | .kick => false
  | .spill => o.fault.isNone
  | .drain => o.fault.isNone && !o.stopping && !o.lanes.isEmpty
  | .accld => o.fault.isNone && !o.readDone && !o.lanes.isEmpty
  | .copy => o.parts.any (fun p => !p.done)
  | _ => o.parts.any (fun p => (!p.done && (o.fault.isNone || p.sent)) || p.wb)

/-- Something of a context from lo up to hi meets a range; length 0 is the whole range (R70). -/
def inRange (base length lo hi : Nat) : Bool := length = 0 || (lo < base + length && base < hi)

/-- The operations of a context that a shootdown of a range waits for. -/
def shotOps (s : State) (ctx base length : Nat) : List Nat :=
  (List.filter (fun (e : Nat × Op) => e.2.ctx = ctx && translatedPending e.2
    && (e.2.lanes.isEmpty || e.2.lanes.any (fun a =>
      inRange base length a.va.toNat (a.va.toNat + if e.2.kind = .drain || e.2.kind = .accld then 65536 else e.2.size))))
    s.ops).map (·.1)

/-- The host accesses that it waits for. -/
def shotAccs (s : State) (ctx base length : Nat) : List Nat :=
  (s.hostAccs.filter (fun a => a.2.ctx = some ctx && inRange base length a.2.addr (a.2.addr + a.2.bytes.length))).map (·.1)

/-- The other events in flight that use a translation of a range of a context (R71). -/
def shotEvents (s : State) (ctx base length : Nat) : List Instr :=
  ((s.pins.filter (fun x => x.ctx = ctx && inRange base length (65536 * x.walked.page) (65536 * x.walked.page + 65536))).map
    (·.e)).dedup

/-- The lines that operations have written in an L1 go back, so that they are performed at their home slices (R71). -/
def returnLines (ids : List Nat) (s : State) : State :=
  ids.foldl (fun s id => match s.ops.find? id with
    | some o => sendBackAll o.core ((o.parts.filter (·.wb)).map (·.key)) s
    | none => s) s

/-- Translations dropped and walks ended for a range of a context (R71). Copies of ROSH lines in the L1s stay: the spec
does not say that a shootdown ends them (R119, R129, log entry 107). -/
def shoot (ctx base length : Nat) (s : State) : State :=
  endWalks ctx base length s

/-- The wait of a command for its effect. -/
def waitingOf (s : State) (c : Cmd) (opc : Nat) : Option Waiting :=
  List.find? (fun (w : Waiting) => w.cmd = c && w.opc = opc) s.waitingCmds

def dropWaiting (c : Cmd) (opc : Nat) (s : State) : State :=
  { s with waitingCmds := s.waitingCmds.filter (fun w => !(w.cmd = c && w.opc = opc)) }

/-- Nothing of a list of operations is still to be performed. -/
def opsPerformed (s : State) (ids : List Nat) : Bool :=
  ids.all (fun id => match s.ops.find? id with
    | some o => !translatedPending o
    | none => true)

/-- Everything that a shootdown waits for has been performed. -/
def shotDone (s : State) (w : Waiting) : Bool :=
  opsPerformed s w.ops && w.accs.all (fun a => (s.hostAccs.find? a).isNone)
    && w.events.all (fun e => !s.pins.any (fun x => x.e = e))

/-- Some line that the shootdown waits for is still in an L1. -/
def linesLeft (s : State) (ids : List Nat) : Bool :=
  ids.any (fun id => (s.ops.find? id).any (fun o => o.parts.any (fun p =>
    p.wb && ((s.core o.core).l1Find p.key).any (fun l => l.state = .dty || l.state = .uo))))

/-- SHOOTDOWN (R70, R71): the command is answered once every access under an old translation has been performed. -/
def execShootdown (c : Cmd) (ctx : Nat) (base length : Dword) (s : State) : Out :=
  let e := Instr.shootdown c ctx base length
  match waitingOf s c 0x15 with
  | some w => .next (if shotDone s w then replyOk c 0x15 [] (dropWaiting c 0x15 s) else (returnLines w.ops s).again e)
  | none =>
    withContext c 0x15 ctx e s (fun s =>
      let w : Waiting :=
        { cmd := c, opc := 0x15, ctx := ctx, ops := shotOps s ctx base.toNat length.toNat
          accs := shotAccs s ctx base.toNat length.toNat, events := shotEvents s ctx base.toNat length.toNat }
      let s := returnLines w.ops (shoot ctx base.toNat length.toNat s)
      if shotDone s w then .next (replyOk c 0x15 [] s)
      else .next (({ s with waitingCmds := s.waitingCmds ++ [w] } : State).again e))

/-- The context's pre-emption is over and its accesses have been performed (R71, R74, R393). -/
def destroyReady (s : State) (c : Cmd) (ctx : Nat) : Bool :=
  match waitingOf s c 0x11 with
  | none => true
  | some _ => !s.preempts.any (fun p => p.2.ctx = ctx && p.2.destroy.isSome)
      && s.ops.all (fun o => o.2.ctx ≠ ctx || !translatedPending o.2 || isHeld s o.1)
      && (shotAccs s ctx 0 0).isEmpty
      && s.pins.all (fun x => x.ctx ≠ ctx || (eventOp x.e).any (isHeld s))
      && s.dies.all (fun d => d.2.freeing.all (fun x => x.1 ≠ ctx))

/-- What the context still had is gone, and its id is free or retired (R213). -/
def finishDestroy (ctx : Nat) (s : State) : State :=
  let s := shoot ctx 0 0 ((teamsOf s ctx).foldl (fun s t => discardTeam t s) s)
  let s := (slotsOf s ctx).foldl (fun s x => leaveSlot x.1 x.2 s) s
  let s := dropLaunches ctx s
  let s := purgeEvents (fun e => match e with
    | .eventChangeApply x _ _ | .stoprefApply x _ | .queueBindPending x _ => x = ctx
    | _ => false) s
  let cores : Tab Core := s.cores.map (fun (k : Nat × Core) => (k.1, { k.2 with const := k.2.const.filter (fun l => l.ctx ≠ ctx) }))
  { s with
    cores := cores
    dies := s.dies.map (fun (d : Nat × Die) => (d.1, { d.2 with resident := d.2.resident.filter (fun x => x.1 ≠ ctx) }))
    contexts := s.contexts.modify {} ctx (fun x => { live := false, gen := x.gen, retired := x.gen = 255 }) }

/-- A context is being destroyed: a second command to destroy it finds it gone. -/
def destroying (s : State) (ctx : Nat) : Bool := s.waitingCmds.any (fun w => w.opc = 0x11 && w.ctx = ctx)

/-- DESTROY_CONTEXT (R74, R213, R393): every core is pre-empted of the context, its teams are discarded, and its range shot
down. -/
def execDestroyContext (c : Cmd) (ctx : Nat) (s : State) : Out :=
  let e := Instr.destroyContext c ctx
  match waitingOf s c 0x11 with
  | some _ =>
    .next (if destroyReady s c ctx then replyOk c 0x11 [] (finishDestroy ctx (dropWaiting c 0x11 s)) else s.again e)
  | none =>
    if destroying s ctx then .next (s.again e)
    else withContext c 0x11 ctx e s (fun s =>
      let s := { s with waitingCmds := s.waitingCmds ++ [{ cmd := c, opc := 0x11, ctx := ctx }] }
      .next ((startPreempt ctx (List.range 64) (some c) s).again e))

/-- SET_ROOT_TABLE (R74). -/
def execSetRootTable (c : Cmd) (ctx : Nat) (addr : Dword) (s : State) : Out :=
  withContext c 0x12 ctx (.setRootTable c ctx addr) s (fun s =>
    if addr.toNat % 65536 ≠ 0 then .next (replyErr c 0x12 1 s)
    else if isHole addr.toNat then .next (replyFaultKind c 0x12 tHole s)
    else .next (replyOk c 0x12 [] (s.modContext ctx (fun x => { x with root := some addr.toNat }))))

/-- SET_EVENT_COUNT (R330). -/
def execSetEventCount (c : Cmd) (ctx count : Nat) (backing : Dword) (s : State) : Out :=
  withContext c 0x13 ctx (.setEventCount c ctx count backing) s (fun s =>
    if 65536 < count then .next (replyErr c 0x13 1 s)
    else .next (replyOk c 0x13 [] (s.modContext ctx (fun x => { x with evCount := count, backing := backing }))))

/-- SET_REFINABLE_SET (R345): events FIRST to FIRST + N − 1 become ordinary or refinable; their words stand, but for the
reserved bits of a version word. -/
def execSetRefinableSet (c : Cmd) (ctx first n value : Nat) (s : State) : Out :=
  withContext c 0x14 ctx (.setRefinableSet c ctx first n value) s (fun s =>
    if 1 < value || (s.context ctx).evCount < first + n then .next (replyErr c 0x14 1 s)
    else
      let f := fun (ev : Event) => { ev with refinable := value = 1, count := if value = 1 then ev.count &&& 0xFFFF else ev.count }
      .next (replyOk c 0x14 [] ((List.range n).foldl (fun s i => modEvent ctx (first + i) f s) s)))

/-- GRANT_CONTEXT (R367). -/
def execGrantContext (c : Cmd) (ctx session : Nat) (s : State) : Out :=
  withContext c 0x16 ctx (.grantContext c ctx session) s (fun s =>
    if (s.sessions.find? session).isNone then .next (replyErr c 0x16 1 s)
    else
      .next (replyOk c 0x16 [] (s.modContext ctx (fun x =>
        { x with sessions := if x.sessions.contains session then x.sessions else x.sessions ++ [session] }))))

/-! ## Queues (R375 to R378) -/

/-- KICK (R367, R377, R378). -/
def execKick (c : Cmd) (ctx qid : Nat) (value : Dword) (s : State) : Out :=
  withContext c 3 ctx (.kick c ctx qid value) s (fun s =>
    match (s.context ctx).queues.find? qid with
    | none => .next (replyErr c 3 12 s)
    | some u =>
      match u.slot with
      | some x => .next (replyOk c 3 [] (mergeKick x.1 x.2 value.toNat s))
      | none =>
        let s := modUserQueue ctx qid (fun u =>
          { u with pending := some (match u.pending with
              | some p => if p.toNat < value.toNat then value else p
              | none => value) }) s
        .next (replyOk c 3 [] (s.pushOnce (.queueBindPending ctx qid))))

/-- BIND_USER_QUEUE (R374, R378): the ring is recorded, and a free slot taken at once if there is one. -/
def execBindUserQueue (c : Cmd) (ctx qid logcap : Nat) (ring : Dword) (s : State) : Out :=
  withContext c 0x20 ctx (.bindUserQueue c ctx qid logcap ring) s (fun s =>
    if 1024 ≤ qid || logcap = 0 || 20 < logcap || ring.toNat % 64 ≠ 0 then .next (replyErr c 0x20 1 s)
    else
      let s := match slotOf s ctx qid with
        | some x => leaveSlot x.1 x.2 s
        | none => s
      let s := s.modContext ctx (fun x => { x with queues := x.queues.set qid { ring := ring, logcap := logcap } })
      let free := slotList.filter (fun x => (s.queue x.1 x.2).state = 0)
      let p := s.choose free.length
      let s := match free[p.1]? with
        | some x => bindSlot ctx qid x p.2
        | none => s
      .next (replyOk c 0x20 [] s))

/-- UNBIND_USER_QUEUE: the queue gives its slot up and its ring is removed. -/
def execUnbindUserQueue (c : Cmd) (ctx qid : Nat) (s : State) : Out :=
  withContext c 0x21 ctx (.unbindUserQueue c ctx qid) s (fun s =>
    match (s.context ctx).queues.find? qid with
    | none => .next (replyErr c 0x21 12 s)
    | some u =>
      let s := match u.slot with
        | some x => leaveSlot x.1 x.2 s
        | none => s
      .next (replyOk c 0x21 [] (s.modContext ctx (fun x => { x with queues := x.queues.erase qid }))))

/-- A resume of a stopped queue (R377). -/
def resumeQueue (c : Cmd) (ctx qid : Nat) (skip : Bool) (e : Instr) (s : State) : Out :=
  withContext c 0x22 ctx e s (fun s =>
    match (s.context ctx).queues.find? qid with
    | none => .next (replyErr c 0x22 12 s)
    | some u =>
      match u.slot with
      | none => .next (replyOk c 0x22 [] (if u.stopped then modUserQueue ctx qid (fun u =>
          { u with stopped := false, head := if skip && u.pending.any (fun p => u.head < p.toNat) then u.head + 1 else u.head }) s else s))
      | some x =>
        if (s.queue x.1 x.2).state ≠ 2 then .next (replyOk c 0x22 [] s)
        else
          let s := updateQueue x.1 x.2 (fun q =>
            { q with state := 1, busy := false, head := if skip && q.head < q.kick then q.head + 1 else q.head }) s
          .next ((replyOk c 0x22 [] s).push [.queueCommandPull x.1 x.2]))

def execResumeQueueRetry (c : Cmd) (ctx qid : Nat) (s : State) : Out :=
  resumeQueue c ctx qid false (.resumeQueueRetry c ctx qid) s
def execResumeQueueSkip (c : Cmd) (ctx qid : Nat) (s : State) : Out :=
  resumeQueue c ctx qid true (.resumeQueueSkip c ctx qid) s

/-! ## The host event ring (R379) -/

def execSetHostEventRing (c : Cmd) (ctx logn stream : Nat) (s : State) : Out :=
  withContext c 0x30 ctx (.setHostEventRing c ctx logn stream) s (fun s =>
    if logn < 4 || 20 < logn || 16 ≤ stream then .next (replyErr c 0x30 1 s)
    else
      .next (replyOk c 0x30 [] (s.modContext ctx (fun x =>
        { x with ringLog := some (logn, c.session, stream), ringRead := 0, ringWrite := 0 }))))

def execAdvanceReadIndex (c : Cmd) (ctx : Nat) (index : Dword) (s : State) : Out :=
  withContext c 0x31 ctx (.advanceReadIndex c ctx index) s (fun s =>
    let x := s.context ctx
    if index.toNat < x.ringRead || x.ringWrite < index.toNat then .next (replyErr c 0x31 1 s)
    else .next (replyOk c 0x31 [] (s.modContext ctx (fun x => { x with ringRead := index.toNat }))))

/-! ## The fabric (R357 to R359, R363) -/

/-- The package has a node id: it stands in every packet that it sends from now on, a stream reset sent again among them
(R357). -/
def State.renamed (s : State) (node : BitVec 16) : State :=
  { s with
    nodeId := some node
    streams := s.streams.map (fun e => (e.1, { e.2 with
      unacked := e.2.unacked.map (fun u => { u with pkt := { u.pkt with src := node } }) })) }

/-- ASSIGN_NODE_ID (R357): a first id lets the ports train; another one breaks every stream. -/
def execAssignNodeId (c : Cmd) (node : BitVec 16) (s : State) : Out :=
  withSession c 0x50 (.assignNodeId c node) s (fun s =>
    let s' := s.renamed node
    let s := if s.nodeId.isNone then s'.push ((List.range 64).map (fun p => .fraukLinkUp p))
      else s.streams.keys.foldl (fun s n => breakStreams (BitVec.ofNat 16 n) s) s'
    .next (replyOk c 0x50 [] s))

/-- WRITE_ROUTE_TABLE (R358). -/
def execWriteRouteTable (c : Cmd) (die : Nat) (node mask : BitVec 16) (s : State) : Out :=
  withSession c 0x51 (.writeRouteTable c die node mask) s (fun s =>
    if 4 ≤ die then .next (replyErr c 0x51 1 s)
    else .next (replyOk c 0x51 [] (s.modDie die (fun d => { d with routes := d.routes.set node.toNat mask }))))

/-- WRITE_EXPORT (R359). -/
def execWriteExport (c : Cmd) (index : Nat) (flags : Byte) (src : BitVec 16) (base size : Dword) (s : State) : Out :=
  withSession c 0x52 (.writeExport c index flags src base size) s (fun s =>
    if flags.extractLsb' 5 3 ≠ 0 || base.toNat % 65536 ≠ 0 || size.toNat % 65536 ≠ 0 then .next (replyErr c 0x52 1 s)
    else
      let x : Export :=
        { any := flags.getLsbD 1, src := src, base := base.toNat, size := size.toNat, r := flags.getLsbD 2, w := flags.getLsbD 3
          a := flags.getLsbD 4 }
      .next (replyOk c 0x52 []
        { s with exports := if flags.getLsbD 0 then s.exports.set index x else s.exports.erase index }))

/-- STREAM_RESET (R363): the reset leaves from die 0, whose host link brought the command (log entry 108); this node's ends
of both streams are broken at once; the command is answered once the other node has acknowledged the reset, or the
retransmissions are used up. -/
def execStreamReset (c : Cmd) (node : BitVec 16) (s : State) : Out :=
  withSession c 0x53 (.streamReset c node) s (fun s =>
    match s.nodeId with
    | none => .next (replyOk c 0x53 [] s)
    | some me =>
      if !(s.stream node).used then .next (replyOk c 0x53 [] s)
      else
        let s := breakStreams node s
        let pkt : Packet := { (default : Packet) with kind := .streamReset, src := me, dst := node, seq := resetSeq }
        let s := s.modStream node (fun st => { st with unacked := st.unacked ++ [⟨resetSeq, 0, pkt, 0, 0, 0⟩] })
        let s := match routePort s 0 ((s.die 0).routes.get 0 node.toNat) 0 with
          | some p => emit p pkt s
          | none => s
        .next (({ s with waitingCmds := s.waitingCmds ++ [({ cmd := c, opc := 0x53, node := node } : Waiting)] } : State).push
          [.fabricRetransmitTimeout node resetSeq]))

/-- READ_FOREIGN_KICK_COUNTERS (R377). -/
def execReadForeignKickCounters (c : Cmd) (s : State) : Out :=
  withSession c 0x54 (.readForeignKickCounters c) s (fun s =>
    .next (replyOk c 0x54 ((List.range 4).flatMap (fun d => leBytes 8 (s.die d).foreignKicks)) s))

/-- An event of the same stream that has begun: it waits for a walk, or has had one. -/
def begunOf (s : State) (e : Instr) (c : Cmd) : Bool :=
  let mine := fun (x : Instr) => x ≠ e && (cmdOf x).any (fun k => k.session = c.session && k.stream = c.stream)
  s.pins.any (fun x => mine x.e) || s.dies.any (fun d => d.2.misses.any (fun m => m.events.any mine))

/-- A command of a stream waits while an earlier access or command of it is not complete (R75, R372). -/
def commandReady (s : State) (e : Instr) : Bool :=
  match e with
  | .shootdown c _ _ _ => (match waitingOf s c 0x15 with
      | some w => shotDone s w || linesLeft s w.ops
      | none => free c)
  | .destroyContext c x => (match waitingOf s c 0x11 with
      | some _ => destroyReady s c x
      | none => free c && !destroying s x)
  | _ => match cmdOf e with
    | some c => free c
    | none => true
where
  free (c : Cmd) : Bool :=
    !(s.hostAccs.any (fun a => a.2.cmd.session = c.session && a.2.cmd.stream = c.stream))
      && !(s.waitingCmds.any (fun w => w.cmd.session = c.session && w.cmd.stream = c.stream)) && !begunOf s e c

end Sys2Proof.Machine
end

