-- ==== Sys2Proof/Machine/Reset.lean ====
section
/-! DEFINITION. Package reset, firmware verification, recovery and power (R416 to R418, R420). -/

namespace Sys2Proof.Machine

/-- The image that the staging buffer holds: a header of version, SVN, signer key and signature, then the body (R417). -/
def stagedImage (st : Tab Byte) : FwImage :=
  let n := st.fresh
  let bs := (List.range n).map (fun k => st.get 0 k)
  { version := BitVec.ofNat 32 (fieldOf bs 0 4), svn := BitVec.ofNat 32 (fieldOf bs 4 4), key := (bs.drop 8).take 1312
    sig := (bs.drop 1320).take 2420, body := bs.drop 3740 }

/-- Every unit stopped and every register field at its reset value (R416 step 1); what outlasts that step stays: the stored
image, the staging buffer, the fused minimum, what has left the package, and the model's count of free values. -/
def stoppedState (s : State) : State :=
  { State.reset with
    free := s.free, firmware := none, recovery := false, stored := s.stored, staging := s.staging, fusedSvn := s.fusedSvn, boots := s.boots, handshakes := s.handshakes
    txPackets := s.txPackets, txDatagrams := s.txDatagrams, txFrames := s.txFrames
    globalAddr := s.globalAddr, secret := 0 }

/-- PACKAGE_RESET (R416 to R418): the staged image, if there is one, is verified in place of the stored one; the package
starts, in recovery if no image is accepted, and the staging buffer is empty again. -/
def execPackageReset (s : State) : Out :=
  let img := if s.staging.isEmpty then s.stored else some (stagedImage s.staging)
  let s' := stoppedState s
  let s' := { s' with boots := s.boots + 1, secret := Config.bootSecret (s.boots + 1), stored := img, staging := [] }
  match img with
  | some f =>
    if imageOk s.fusedSvn f then .next { s' with firmware := some f, fusedSvn := f.svn }
    else .next { s' with recovery := true }
  | none => .next { s' with recovery := true }

/-- THERMAL_TRIP (R420): the package stops as in step 1 of R416 until the next package reset. -/
def execThermalTrip (s : State) : Out := .next { stoppedState s with stopped := true }

/-- THERMAL_THROTTLE (R420): idle cycles in matrix and vector issue on a die; no value and no order changes. -/
def execThermalThrottle (die : Nat) (s : State) : Out :=
  .next ((List.range 16).foldl (fun s i => s.modCore (16 * die + i) (fun c => { c with throttled := true })) s)

end Sys2Proof.Machine
end

