-- ==== Sys2Proof/Machine/Agenda.lean ====
section
/-! DEFINITION. Which step may come next: the order that R19, R82 and R163 keep among events in flight, what each event
waits for, and the steps that the state itself calls for. -/

namespace Sys2Proof.Machine

/-! ## Paths that keep their order -/

/-- A stretch of the machine along which events arrive in the order they were sent. The requests' way to the slices is not
among them: the trips keep that order (R19). -/
inductive Channel where
  /-- replies and deliveries of a slice, by the reverse of the requester's route (R79, R82) -/
  | reply (r : Route)
  /-- descriptors on their way to a copy engine (R163) -/
  | engine (e : Nat)
  /-- commands of one stream of a session (R75, R372) -/
  | host (session stream : Nat)
deriving DecidableEq, Repr

/-- The way back from a slice to a core. -/
def toCore (home core : Nat) : Channel := .reply (routeTo (.core core) home)

/-- The request that a reply answers: an event's own, or a lane operation's. What a core's L1 or scratchpad performs, a copy
engine or another node answers takes no such path. -/
def replyTrip (s : State) (r : Req) : Option Trip :=
  s.trips.find? (fun t => t.id = r.op || isTripOf r t && t.stage = .back)

/-- The core and the slice of a watch. -/
def watchEnds (s : State) (r : SplitRef) : Option (Nat × Nat) :=
  match (s.split? r).map Split.wait with
  | some (.watch _ id) => (s.ops.find? id).bind (fun o => o.parts.head?.bind (fun p =>
      if p.rem.isSome then none else some (o.core, p.home)))
  | _ => none

/-- The path that an event is on. A command that has begun does not wait for a place among those of its stream again. -/
def channelOf (s : State) (e : Instr) : Option Channel :=
  match e with
  | .replyArrival r => (replyTrip s r).map (fun t => .reply t.route)
  | .locketDelivery w _ _ _ | .flushMarkerArrival w =>
    (s.warp? w).bind (fun x => x.anchor.map (fun a => toCore a.1 x.core))
  | .recallDelivery core line => (recallers s core line).head?.map (fun h => toCore h core)
  | .xshflDelivery id _ _ => (s.ops.find? id).map (fun o => toCore (reflector o.core) o.core)
  | .wokenDelivery r => (watchEnds s r).map (fun x => toCore x.2 x.1)
  | .copyDescriptorEnqueue id => (s.ops.find? id).map (fun o => .engine (engineOf o))
  | _ => if s.pins.any (fun p => p.e = e) then none else (cmdOf e).map (fun c => .host c.session c.stream)

/-! ## What events wait for -/

/-- The core that an event delivers to (R396). -/
def deliveredTo (s : State) (e : Instr) : Option Nat :=
  match e with
  | .locketDelivery w _ _ _ | .flushMarkerArrival w => (s.warp? w).map (·.core)
  | .recallDelivery core _ => some core
  | .xshflDelivery id _ _ => (s.ops.find? id).map (·.core)
  | .wokenDelivery r => (watchEnds s r).map (·.1)
  | .replyArrival r => (match s.ops.find? r.op with
      | some o => if o.ref.team = noTeam then none else some o.core
      | none => (replyTrip s r).bind (fun t => match t.who with
        | .core c | .recall c => some c
        | _ => none))
  | _ => none

/-- The core that an event delivers to is not power-gated. -/
def awake (s : State) (e : Instr) : Bool := (deliveredTo s e).all (fun c => (s.core c).powered)

/-- Where the requests of a packet's event go (R65, R214). -/
def packetStop (p : Packet) : List Stop :=
  match p.kind with
  | .rwrite | .token => [⟨anchorSlice p.sig, sigBase p.sig / 128, 128⟩]
  | _ => (match remoteHome p.addr p.home with
      | .ok h => [⟨h, p.addr / 128, 1⟩]
      | .error _ => [])

/-- What the event of a received packet needs. -/
def packetPlan (s : State) (e : Instr) : Option Plan :=
  s.rxPackets.head?.map (fun x =>
    { who := .ingress (x.1 / 16)
      stops := match s.tripsOf e with
        | [] => packetStop x.2
        | ts => ts.map (·.stop) })

/-- What a row's write to the arena, or its read, needs. -/
def rowPlan (s : State) (w : WarpRef) (row : Nat) (e : Instr) : Option Plan :=
  match e, s.warp? w, launchOf s w with
  | .refillRow _ _, some wp, some l => some (arenaPlan s e wp.core l.ctx (arenaAddr l.desc row) l.desc.lanes)
  | .refillRow _ _, _, _ => none
  | _, _, _ => (spillOp s w row).map (fun x => { who := .core x.2.core, stops := segStops (spillSegs x.2) })

/-- What an event's requests need, for those that make requests of their own (R20, R69, R81). -/
def planOf (s : State) (e : Instr) : Option Plan :=
  let op := fun (id : Nat) (f : Op → Option Plan) => (s.ops.find? id).bind f
  match e with
  | .teamSave t => (match s.team? t, launchOfTeam s t with
      | some tm, some l => if tm.status = .saving && tm.saved then some (savePlan s t tm l) else none
      | _, _ => none)
  | .teamRestore t => (match s.team? t, launchOfTeam s t with
      | some tm, some l => some (restorePlan s t tm l)
      | _, _ => none)
  | .controlResume t | .controlAbandon t | .controlStep t | .teamHeaderWrite t _ _ => controlPlan s e t
  | .hangReport w => if (warpOr s w).reporting then hangPlan s w else none
  | .teamPlace die => some (teamPlacePlan s die)
  | .spawnRequest r addr => (s.cxOf r).map (fun c => readPlan s e (coreDie c.core) c.ctx addr 256 true)
  | .queueCommandPull die slot =>
    let q := s.queue die slot
    if q.state ≠ 1 || q.busy || q.kick ≤ q.head then none else some (readPlan s e die q.ctx (commandAddr q q.head) 64 false)
  | .launchCommand die slot index =>
    let q := s.queue die slot
    if commandCurrent s die slot index then some (readPlan s e die q.ctx (BitVec.ofNat 64 (fieldOf q.cmd 8 8)) 256 true) else none
  | .arenaWritePerformed w row | .refillRow w row => rowPlan s w row e
  | .spillStep w => (match s.warp? w, launchOf s w with
      | some wp, some l => some (spillPlan s w wp l)
      | _, _ => none)
  | .accldExecute id | .drainExecute id => op id (fun o => some { who := .core o.core, stops := matrixStops o })
  | .tableWalkStep core _ va level table =>
    some { who := .walker (coreDie core), stops := walkStops s e (table + 8 * vaIndex va level) }
  | .constLineFetch r vline => (s.cxOf r).map (fun c => constPlan s c e vline)
  | .copyChunk id k => op id (fun o =>
      if !o.running || o.stopping && (chunkParts o k).isEmpty && (s.tripsOf e).isEmpty then none else some (chunkPlan s id k o))
  | .watchRequest r => (match (s.split? r).map Split.wait with
      | some (.watch _ id) => op id (fun o => o.parts.head?.bind (fun p =>
          if p.rem.isSome then none else some { who := .core o.core, stops := [⟨p.home, p.line, 1⟩] }))
      | _ => none)
  | .saveRecordRemove w =>
    some { who := .core (s.warpCore w)
           stops := match anchorOf s w with
             | some (h, base) => [⟨h, base / 128 + 64, 1⟩]
             | none => (s.tripsOf e).map (·.stop) }
  | .restoreRecordInstall w => (match launchOf s w, s.warp? w, s.team? w.team with
      | some l, some wp, some tm =>
        some { who := .command tm.die, core := wp.core, ctx := l.ctx, vas := [wp.imageBase], stops := locketStops s e l wp }
      | _, _, _ => none)
  | .xshflPosting id _ => op id (fun o => some { who := .core o.core, stops := [⟨reflector o.core, partnerLine, 1⟩] })
  | .laneExitNotice w _ =>
    let c := s.warpCore w
    some { who := .core c, stops := [⟨reflector c, partnerLine, 1⟩] }
  | .imageWrite id => op id (fun o => match s.warp? (warpOf o.ref), s.team? o.ref.team with
      | some w, some tm =>
        some { who := .core o.core, core := w.core, ctx := o.ctx, vas := imageVas o w tm, stops := imageStops s e o w tm }
      | _, _ => none)
  | .hostAccessAtSlice id k => ((s.hostAccs.find? id).bind (fun a => a.parts[k]?)).map (fun p =>
      { who := .ingress 0, stops := if p.done then [] else [⟨p.home, p.line, 1⟩] })
  | .memoryReadVirtual _ ctx va n =>
    some { who := .ingress 0, core := dispatchCore 0, ctx := ctx, vas := [va, va + BitVec.ofNat 64 (n - 1)] }
  | .memoryWriteVirtual _ ctx va data =>
    some { who := .ingress 0, core := dispatchCore 0, ctx := ctx, vas := [va, va + BitVec.ofNat 64 (data.length - 1)] }
  | .fabricRead | .fabricWrite | .fabricAtomic | .fabricRwrite | .fabricToken => packetPlan s e
  | _ => none

/-- What an event waits for beside its requests. -/
def dueReady (s : State) (e : Instr) : Bool :=
  match e with
  | .replyArrival r => (match s.reqPart r with
      | some (o, p) => !p.l1 || mayLeave s r o p
      | none => true)
  | .writeBackArrival core home line _ _ _ => returnReady s e core home line
  | .partialResultCombine core home line _ _ _ _ _ => returnReady s e core home line
  | .copyQueryRequest id => queryReady s id
  | .ksendTokenSend id => tokenReady s id
  | .mmaExecute id | .acczExecute id | .accrdExecute id | .accqExecute id | .drainExecute id =>
    (s.ops.find? id).all (matrixTurn s id)
  | .accldExecute id => (s.ops.find? id).all (fun o => !(o.stopping || o.readDone) || matrixTurn s id o)
  | .spillStep w => spillReady s w
  | .refillRow w row => !(s.tripsOf e).isEmpty || refillOpen s w row
  | .imageWrite id => !(s.ops.find? id).any (imageWaits s)
  | .teamSave t => saveReady s t
  | .teamRestore t => !(s.tripsOf e).isEmpty || restoreReady s t
  | .warpRelease w => releaseReady s w
  | .queueCommandPull die slot | .nullCommand die slot _ | .launchCommand die slot _ => guardRoom s die slot
  | .queueBindPending _ _ => !(bindable s).isEmpty
  | .consumerFire l => (s.launches.find? l).all (fun l => !l.due || roomPending s l)
  | _ => commandReady s e

/-- A lane operation's request may leave or arrive; one to the partner's scratchpad crosses behind those that entered the
exchange buffer before it (R144). -/
def laneReady (s : State) (e : Instr) (r : Req) : Bool :=
  requestReady s r && (match e with
    | .partnerScratchpadAccess id => (s.reqPart r).all (fun x =>
        let c := (s.slice x.2.home).crossing
        !c.contains id || c.head? = some id)
    | .pushWrite _ | .popRead _ => (s.reqPart r).isSome || (s.ops.find? r.op).all (fun o => planReady s e (recordPlan o))
    | _ => true)

/-- An event of the agenda would do something now. -/
def eventReady (s : State) (e : Instr) : Bool :=
  match lanePart e with
  | some r => laneReady s e r
  | none => awake s e && dueReady s e && (planOf s e).all (planReady s e)

/-- The events of the agenda that no earlier one on their path holds up, and that would do something. -/
def agendaReady (s : State) : List Instr → List Channel → List Instr
  | [], _ => []
  | e :: es, seen =>
    match channelOf s e with
    | none => if eventReady s e then e :: agendaReady s es seen else agendaReady s es seen
    | some l =>
      if seen.contains l then agendaReady s es seen
      else if eventReady s e then e :: agendaReady s es (l :: seen)
      else agendaReady s es (l :: seen)

/-! ## Steps that the state calls for -/

/-- A step that the state calls for, unless its event is in flight already. -/
def stepOnce (s : State) (e : Instr) : List Instr := if s.agenda.contains e || s.awaits e then [] else [e]

/-- The step that receives the first datagram. -/
def datagramStep (s : State) : List Instr :=
  match s.rxDatagrams with
  | [] => []
  | d :: _ =>
    if d.type = 1 then [.gctHello]
    else if d.type = 3 then [.gctAuth]
    else if d.type = 6 then [.gctAck]
    else if d.type = 7 then [.gctClose]
    else [.gctData]

/-- The step that receives the first packet. -/
def packetStep (s : State) : List Instr :=
  match s.rxPackets with
  | [] => []
  | (_, p) :: _ => stepOnce s (match p.kind with
      | .read => .fabricRead
      | .write => .fabricWrite
      | .atomic => .fabricAtomic
      | .rwrite => .fabricRwrite
      | .token => .fabricToken
      | .kick => .fabricKick
      | .readReply | .atomicReply | .ack => .fabricReplyArrival
      | .streamReset => .fabricStreamResetReceived
      | .streamResetAck => .streamResetAck
      | .resetNotice => .targetPackageReset)

/-- The requests for replay of the ports where a flit with a wrong CRC is the next (R362). -/
def portSteps (s : State) : List Instr :=
  s.ports.flatMap (fun e => match e.2.rx with
    | f :: _ => if e.2.up && !f.ok then [.linkReplayRequest e.1 f.num] else []
    | [] => [])

/-- The quadrants that hold warps, each once. -/
def quads (s : State) : List (Nat × Nat) :=
  (s.teams.flatMap (fun t => if t.2.issues then (t.2.warps.filter (fun w => !w.2.ended)).map (fun w => (w.2.core, w.2.quad)) else [])).dedup

/-- The cores that hold warps. -/
def busyCores (s : State) : List Nat := (s.teams.flatMap (fun t => if t.2.placed then t.2.cores else [])).dedup

/-- A quadrant's steps: the choice of the next issue, and the forced demotion (R327, R328). -/
def quadSteps (s : State) (q : Nat × Nat) : List Instr :=
  (if (s.core q.1).powered then [.warpIssueSelect q.1 q.2] else [])
    ++ (if 8 ≤ (activeWarps s q.1 q.2).length && !(readyPending s q.1 q.2).isEmpty then [.forcedDemotionTimeout q.1 q.2] else [])

/-- A core's steps: power gating and hang reports (R396, R397). -/
def coreSteps (s : State) (core : Nat) : List Instr :=
  (if gateDue s core then [.powerGate core] else [])
    ++ ((coreWarps s core).filter (fun w => hangDue s w && !(warpOr s w).reporting)).map .hangReport

/-- The power-gated cores with something to wake them: a delivery or a reply, or a split that may issue (R396). -/
def wakeSteps (s : State) : List Instr :=
  (s.cores.filter (fun c => !c.2.powered && (coreCanIssue s c.1 || s.agenda.any (fun e => deliveredTo s e = some c.1)))).map
    (fun c => .coreWake c.1)

/-- A die's dispatcher's steps: placement and aging (R322, R323). -/
def dieSteps (s : State) (die : Nat) : List Instr :=
  (if (pendList s die).isEmpty && (s.die die).freeing.isEmpty && (s.die die).placing.isNone then []
    else stepOnce s (.teamPlace die))
    ++ (((s.die die).pending.filter (fun l => match s.launches.find? l with
          | some x => x.unplaced die && x.prio.get x.desc.prio die < 23
          | none => false)).map (fun l => .priorityAging l die))

/-- The trees that have settled (R353). -/
def settleSteps (s : State) : List Instr := (s.launches.filter (fun l => settles s l.1 l.2)).map (fun l => .commandSettle l.1)

/-- Every step that may come next. A package that has stopped goes on only by a package reset (R420). -/
def candidates (s : State) : List Instr :=
  if s.stopped then s.agenda.filter (fun e => e = .packageReset)
  else
    agendaReady s s.agenda [] ++ datagramStep s ++ packetStep s ++ portSteps s ++ (quads s).flatMap (quadSteps s)
      ++ (busyCores s).flatMap (coreSteps s) ++ wakeSteps s ++ (List.range 4).flatMap (dieSteps s) ++ settleSteps s

/-- The step that comes next, and the state without it in its agenda: the only candidate, or one that no rule picks. -/
def nextEvent (s : State) : Option Instr × State :=
  let p := s.choose (candidates s).length
  match (candidates s)[p.1]? with
  | some e => (some e, p.2.cancel e)
  | none => (none, p.2)

/-- A step takes some cycles (R7). -/
def tickClock (s : State) : State := { s with clock := s.clock + Config.cycles s.free, free := s.free + 1 }

/-! ## The instruction that issues -/

/-- What the split chosen to issue runs. -/
inductive Issue where
  /-- an instruction, or the fetch that failed, with the state it runs in -/
  | run (i : Instr) (s : State)
  /-- a word that is no instruction -/
  | illegal (s : State)
deriving Repr

/-- The word at the split's PC, fetched and decoded (R25 to R27, R45). -/
def issueOf (r : SplitRef) (s : State) : Issue :=
  match s.cxOf r with
  | none => .run (.instructionFetch r) s
  | some c =>
    match fetchWord s c c.path.pc with
    | .error _ => .run (.instructionFetch r) s
    | .ok w =>
      match decode w with
      | .ok i => .run i (fetchUsed s c c.path.pc)
      | .error _ => .illegal (fetchUsed s c c.path.pc)

/-! ## A program placed from outside -/

/-- The launch record of a placed program: one warp of 32 lanes, everything that a team can declare declared. -/
def placedDesc : LaunchRec :=
  { lanes := 32, warps := 1, ring := 64, globals := 128, acct := 8, aslots := 32, wslots := 32, scratch := 65536
    param := List.replicate 8 0, cwBase := List.replicate 8 0, cwSize := List.replicate 8 131072 }

/-- Where a placed program's root table stands: one leaf that maps virtual addresses to the same physical ones, with every
permission. -/
def placedRoot : Nat := 0x10000

/-- The entry of that leaf, as a TLB keeps it. -/
def placedEntry : TlbEntry := ⟨1, 0, { page := 0, x := true, w := true, r := true, level := 3 }⟩

/-- One resident warp of context 1 on core 0, chosen to issue at PC 0, its code at address 0, and its page in the core's
TLB: it has been fetched through it. -/
def placeTeam (s : State) : State :=
  let l := s.launches.fresh
  let t := s.teams.fresh
  let s := (dropTranslations 1 0 0 s).modCore 0 (fun c => { c with tlb := tlbInsert c.tlb placedEntry })
  let launch : Launch := { desc := placedDesc, ctx := 1, root := l, state := .running, nextTeam := [(0, 1)] }
  let warp := freshWarp launch 0x20000 none ⟨0, 0, 0, 0, 0⟩ s
  let team : Team :=
    { launch := l, cores := [0], status := .running, warps := [(0, { warp with active := true })], areas := [(0, freshArea placedDesc 0 1)] }
  { s with
    contexts := s.contexts.set 1 { live := true, gen := 1, root := some placedRoot, evCount := 65536 }
    mem := s.mem.putNat placedRoot 8 0x1F
    launches := s.launches.set l launch, teams := s.teams.set t team, cur := some ⟨t, 0, 0⟩ }

/-- The bytes at an issuing split's PC, in memory and as its launch was dispatched with them. -/
def placeCode (r : SplitRef) (bs : List Byte) (s : State) : State :=
  match s.cxOf r with
  | none => s
  | some c =>
    (List.range 12).foldl (fun s k =>
      match codePhys s c c.path.pc k with
      | .ok p =>
        ({ s with mem := s.mem.put p.pa (bs.getD k 0) }).modLaunch c.team.launch
          (fun l => { l with code := l.code.put p.pa (bs.getD k 0) })
      | .error _ => s) s

/-- The issuing split's word can be fetched from this node's memory. -/
def fetchable (s : State) : Bool :=
  match s.cur.bind s.cxOf with
  | none => false
  | some c => match codePhys s c c.path.pc 0, codePhys s c c.path.pc 11 with
    | .ok a, .ok b => a.tr.node.isNone && b.tr.node.isNone
    | _, _ => false

/-- The state whose next step fetches a word: placed at the PC of the split that issues next, or of a warp placed for it. -/
def placeWord (bs : List Byte) (s : State) : State :=
  let s := if fetchable s then s else placeTeam s
  match s.cur with
  | some r => placeCode r bs s
  | none => s

end Sys2Proof.Machine
end

