-- ==== Sys2Proof/Machine/Floating.lean ====
section
/-! DEFINITION. Floating point and conversions: opcodes 0x30 to 0x44 (R255 to R260). -/

namespace Sys2Proof.Machine

def execFadd (f : VF) (s : State) : Out :=
  vFlt (.fadd f) 0x30 f s (fun fm md z a b _ => fm.encode md f.sat z (FV.add md a b))
def execFsub (f : VF) (s : State) : Out :=
  vFlt (.fsub f) 0x31 f s (fun fm md z a b _ => fm.encode md f.sat z (FV.add md a b.neg))
def execFmul (f : VF) (s : State) : Out :=
  vFlt (.fmul f) 0x32 f s (fun fm md z a b _ => fm.encode md f.sat z (FV.mul a b))
def execFfma (f : VF) (s : State) : Out :=
  vFlt (.ffma f) 0x33 f s (fun fm md z a b x => fm.encode md f.sat z (FV.add md (FV.mul a b) x))
def execFmin (f : VF) (s : State) : Out := vBits (.fmin f) 0x34 f s (fun fm z a b => fm.minMax z false a b)
def execFmax (f : VF) (s : State) : Out := vBits (.fmax f) 0x35 f s (fun fm z a b => fm.minMax z true a b)
def execFrcp (f : VF) (s : State) : Out :=
  vFlt (.frcp f) 0x36 f s (fun fm md z a _ _ => fm.div md false z (.fin false 1 0) a)
def execFrsq (f : VF) (s : State) : Out := vBits (.frsq f) 0x37 f s (fun fm z a _ => approxFn 0 fm z a)
def execFsqrt (f : VF) (s : State) : Out := vFlt (.fsqrt f) 0x38 f s (fun fm md z a _ _ => fm.sqrt md z a)
def execFdiv (f : VF) (s : State) : Out := vFlt (.fdiv f) 0x39 f s (fun fm md z a b _ => fm.div md f.sat z a b)
def execFexp2 (f : VF) (s : State) : Out := vBits (.fexp2 f) 0x3A f s (fun fm z a _ => approxFn 1 fm z a)
def execFlog2 (f : VF) (s : State) : Out := vBits (.flog2 f) 0x3B f s (fun fm z a _ => approxFn 2 fm z a)
def execFsin (f : VF) (s : State) : Out := vBits (.fsin f) 0x3C f s (fun fm z a _ => approxFn 3 fm z a)
def execFcos (f : VF) (s : State) : Out := vBits (.fcos f) 0x3D f s (fun fm z a _ => approxFn 4 fm z a)
def execFtanh (f : VF) (s : State) : Out := vBits (.ftanh f) 0x3E f s (fun fm z a _ => approxFn 5 fm z a)

/-- FSCALE (R255): a × 2^b with b a 32-bit signed count; beyond 2^15 either way the result is the same as at 2^15. -/
def execFscale (f : VF) (s : State) : Out :=
  vMap (.fscale f) 0x3F f false s (fun c a b _ =>
    let fm := if f.ty = 7 then fmtF64 else fmtF32
    let z := c.warp.ftz
    let k := intOf 32 true b
    let k := if k < -32768 then -32768 else if 32768 < k then 32768 else k
    match (modA f (.f (fm.read z a))).flt with
    | .fin n m e => fm.encode (modeOf c f) f.sat z (.fin n m (e + k))
    | v => fm.encode (modeOf c f) f.sat z v)

/-- FCLASS (R257). -/
def classOf (fm : Fmt) (x : Nat) : Nat :=
  let neg := x / 2 ^ (fm.width - 1) % 2 = 1
  let sub := x / 2 ^ fm.fbits % 2 ^ fm.ebits = 0
  match fm.decode x with
  | .nan => 2 ^ 8
  | .inf n => if n then 1 else 2 ^ 7
  | .fin _ m _ =>
    if m = 0 then (if neg then 2 ^ 3 else 2 ^ 4)
    else if sub then (if neg then 2 ^ 2 else 2 ^ 5)
    else (if neg then 2 else 2 ^ 6)

def execFclass (f : VF) (s : State) : Out :=
  vMap (.fclass f) 0x40 f false s (fun _ a _ _ =>
    let fm := if f.ty = 7 then fmtF64 else fmtF32
    classOf fm (modBits fm (f.mod.getLsbD 1) (f.mod.getLsbD 0) a))

def execFrnd (f : VF) (s : State) : Out := vFlt (.frnd f) 0x41 f s (fun fm md z a _ _ => fm.toIntegral md z a)

/-- CVT (R258): a widening of an integer takes no clamp (R234). -/
def execCvt (f : VF) (s : State) : Out :=
  vMap (.cvt f) 0x42 f (f.ty = 1) s (fun c a _ _ =>
    let st := (elems (f.fn.toNat % 16)).2
    let dt := (elems f.ty.toNat).2
    let widens := match st, dt with
      | .int w _, .int w' _ => w < w'
      | _, _ => false
    convert dt (modeOf c f) (f.sat && !widens) c.warp.ftz (modA f (st.readVal c.warp.ftz a)))

/-- PACK (R259). -/
def execPack (f : VF) (s : State) : Out :=
  vMap (.pack f) 0x43 f false s (fun c a b x =>
    let st := (elems (f.fn.toNat % 16)).2
    let e := elems f.ty.toNat
    let w := e.2.width
    let cv := fun (v : NV) => convert e.2 (modeOf c f) f.sat c.warp.ftz v % 2 ^ w
    let ca := cv (modA f (st.readVal c.warp.ftz a))
    let cb := cv (modB f (st.readVal c.warp.ftz b))
    if e.1 = 2 then ca + 2 ^ w * cb
    else if f.fn.getLsbD 4 then x % 2 ^ 16 + 2 ^ 16 * ca + 2 ^ 24 * cb
    else x / 2 ^ 16 * 2 ^ 16 + ca + 2 ^ 8 * cb)

/-- UNPACK (R260). -/
def execUnpack (f : VF) (s : State) : Out :=
  vMap (.unpack f) 0x44 f (f.fn.toNat % 16 = 1) s (fun c a _ _ =>
    let e := elems f.ty.toNat
    let w := e.2.width
    let x := a / 2 ^ (w * (f.fn.toNat / 16)) % 2 ^ w
    convert (elems (f.fn.toNat % 16)).2 0 false c.warp.ftz (e.2.readVal c.warp.ftz x))

end Sys2Proof.Machine
end

