-- ==== Sys2Proof/Machine/Integer.lean ====
section
/-! DEFINITION. Moves, integer arithmetic, logic, shifts and bit fields: opcodes 0x10 to 0x2C (R50, R248 to R254). -/

namespace Sys2Proof.Machine

/-- MOV (R248): bits. -/
def execMov (f : VF) (s : State) : Out := vMap (.mov f) 0x10 f false s (fun _ _ b _ => b)

/-- MOVI (R50): the long immediate. -/
def execMovi (f : VF) (s : State) : Out :=
  run (.movi f) s (fun c m s =>
    .next (advance c (vPut c f m (tyWords f.ty.toNat) (f.ty = 1) (fun _ => moviValue f) s)))

/-- SEL (R248): predicate C chooses, by lane. With a scalar destination the spec does not say which lane's predicate
counts; where the executing lanes differ, either source is taken (a free choice). -/
def execSel (f : VF) (s : State) : Out :=
  vRun (.sel f) 0x12 f s (fun c m b s =>
    let n := tyWords f.ty.toNat
    let p := c.warp.pred f.c.toNat
    let split := isS f.d.toNat && disagree m (fun l => p.getLsbD l) ≠ 0
    let pick := s.choose 2
    let s' := if split then pick.2 else s
    .next (advance c (vPut c f m n false
      (fun l => if (if split then pick.1 = 0 else p.getLsbD l) then readReg s c f.a.toNat n l else b l) s')))

def execIadd (f : VF) (s : State) : Out := vInt (.iadd f) 0x13 f s (fun _ a b _ => a + b)
def execIsub (f : VF) (s : State) : Out := vInt (.isub f) 0x14 f s (fun _ a b _ => a - b)
def execImul (f : VF) (s : State) : Out := vInt (.imul f) 0x17 f s (fun _ a b _ => a * b)
def execImulh (f : VF) (s : State) : Out := vInt (.imulh f) 0x18 f s (fun w a b _ => a * b / (2 ^ w : Nat))
def execImad (f : VF) (s : State) : Out := vInt (.imad f) 0x19 f s (fun _ a b x => a * b + x)
def execImin (f : VF) (s : State) : Out := vInt (.imin f) 0x1B f s (fun _ a b _ => if b < a then b else a)
def execImax (f : VF) (s : State) : Out := vInt (.imax f) 0x1C f s (fun _ a b _ => if a < b then b else a)
def execIabs (f : VF) (s : State) : Out := vInt (.iabs f) 0x1D f s (fun _ a _ _ => a.natAbs)
def execIneg (f : VF) (s : State) : Out := vInt (.ineg f) 0x1E f s (fun _ a _ _ => -a)

/-- IADDC and ISUBB (R249): t from a, b and the carry-in, and the carry-out of t. A scalar form compares the carry-in before B
is read (R21, R46 steps 5 and 6). -/
def carryOp (i : Instr) (op : Nat) (f : VF) (s : State) (g : Nat → Nat → Nat → Nat → Nat × Bool) : Out :=
  run i s (fun c m s =>
    let n := tyWords f.ty.toNat
    let w := bitsOf f
    let pin := c.warp.pred (f.c.toNat % 8)
    let dis := if isS f.d.toNat then disagree m (fun l => pin.getLsbD l) else 0
    if dis ≠ 0 then trapAt c 1 2 0 dis 0 s
    else withB op f c m s (fun b s =>
      let res := fun l => g (2 ^ w) (readReg s c f.a.toNat n l) (b l) (pin.getLsbD l).toNat
      let s := vPut c f m n (f.ty = 1) (fun l => (res l).1) s
      let low := (lowLane m).getD 0
      let out := lanesWhere m (fun l => (res (if isS f.d.toNat then low else l)).2)
      .next (advance c (writePred c.wref (f.c.toNat / 8) m out s))))

def execIaddc (f : VF) (s : State) : Out :=
  carryOp (.iaddc f) 0x15 f s (fun n a b p => ((a + b + p) % n, n ≤ a + b + p))

def execIsubb (f : VF) (s : State) : Out :=
  carryOp (.isubb f) 0x16 f s (fun n a b p => ((a + n + n - b - p) % n, a < b + p))

/-- IMADW (R250): 32-bit a and b, 64-bit c and result. -/
def execImadw (f : VF) (s : State) : Out :=
  vMap (.imadw f) 0x1A f false s (fun _ a b x =>
    let sg := f.ty = 1
    putInt 64 sg f.sat
      ((modA f (.i (intOf 32 sg a))).int * (modB f (.i (intOf 32 sg b))).int + intOf 64 sg x))

/-- IDOT4 (R250); MOD acts on the bytes that it reads as s8 (R246). -/
def execIdot4 (f : VF) (s : State) : Out :=
  vMap (.idot4 f) 0x1F f (f.ty = 1) s (fun _ a b x =>
    let sg := f.ty = 1
    let sum := (List.range 4).foldl (fun (t : Int) i =>
      t + (modA f (.i (intOf 8 (f.fn.getLsbD 0) (a / 256 ^ i % 256)))).int
        * (modB f (.i (intOf 8 (f.fn.getLsbD 1) (b / 256 ^ i % 256)))).int) 0
    putInt 32 sg f.sat (intOf 32 sg x + sum))

/-- LOP3 (R251). -/
def execLop3 (f : VF) (s : State) : Out :=
  vMap (.lop3 f) 0x20 f false s (fun _ a b x => lutBits (lutOf f) a b x (bitsOf f) 0)

def execShl (f : VF) (s : State) : Out :=
  vMap (.shl f) 0x21 f false s (fun _ a b _ => if bitsOf f ≤ b then 0 else a * 2 ^ b % 2 ^ bitsOf f)
def execShr (f : VF) (s : State) : Out :=
  vMap (.shr f) 0x22 f false s (fun _ a b _ => if bitsOf f ≤ b then 0 else a / 2 ^ b)
def execSha (f : VF) (s : State) : Out :=
  vMap (.sha f) 0x23 f false s (fun _ a b _ => shaNat (bitsOf f) a b)
def execRot (f : VF) (s : State) : Out :=
  vMap (.rot f) 0x24 f false s (fun _ a b _ =>
    rotl (bitsOf f) a (if f.fn = 0 then b else bitsOf f - b % bitsOf f))

/-- FSHF (R252): FN 0 right, FN 1 left. -/
def execFshf (f : VF) (s : State) : Out :=
  vMap (.fshf f) 0x25 f false s (fun _ a b x =>
    if f.fn = 0 then (x * 2 ^ 32 + a) / 2 ^ (b % 64) % 2 ^ 32
    else (a * 2 ^ 32 + x) * 2 ^ (b % 64) % 2 ^ 64 / 2 ^ 32)

def execBfe (f : VF) (s : State) : Out :=
  vMap (.bfe f) 0x26 f (f.ty = 1) s (fun _ a b _ => bfe (bitsOf f) (f.ty = 1 || f.ty = 5) a b)
def execBfi (f : VF) (s : State) : Out := vMap (.bfi f) 0x27 f false s (fun _ a b x => bfi (bitsOf f) a b x)
def execPopc (f : VF) (s : State) : Out := vMap (.popc f) 0x28 f false s (fun _ a _ _ => popCount a (bitsOf f))
def execClz (f : VF) (s : State) : Out := vMap (.clz f) 0x29 f false s (fun _ a _ _ => clzNat (bitsOf f) a)
def execBrev (f : VF) (s : State) : Out := vMap (.brev f) 0x2A f false s (fun _ a _ _ => brevNat (bitsOf f) a)

/-- IDIV and IREM (R254). -/
def execIdiv (f : VF) (s : State) : Out :=
  vInt (.idiv f) 0x2B f s (fun w a b _ => idivInt w (f.ty = 1 || f.ty = 5) f.sat a b)
def execIrem (f : VF) (s : State) : Out := vInt (.irem f) 0x2C f s (fun _ a b _ => iremInt a b)

end Sys2Proof.Machine
end

