-- ==== Sys2Proof/Machine/KeyOps.lean ====
section
/-! DEFINITION. The key instructions but for KSEND: opcodes 0x70 to 0x75 and 0x77 (R107 to R112, R114). -/

namespace Sys2Proof.Machine

/-- Key d of the issuing warp takes a target vector and a locket mask. -/
def setTarget (c : Cx) (d : Nat) (t : Tab (BitVec 16)) (l : BitVec 32) (s : State) : State :=
  s.modWarp c.wref (fun w => { w with keys := w.keys.set d { w.key d with t := t, l := l } })

/-- KCOPY (R108). -/
def execKcopy (f : MF) (s : State) : Out :=
  run (.kcopy f) s (fun c _ s =>
    let a := c.warp.key (ka f)
    .next (advance c (setTarget c (kd f) a.t a.l s)))

/-- The later of two targets, key by key (R108, R98). -/
def joinTargets (w : Warp) (td ta : Tab (BitVec 16)) : Tab (BitVec 16) :=
  (List.range 16).foldl (fun t j => t.set j (laterTarget (w.key j).p (td.get 0 j) (ta.get 0 j))) td

/-- KJOIN (R108). -/
def execKjoin (f : MF) (s : State) : Out :=
  run (.kjoin f) s (fun c _ s =>
    let d := c.warp.key (kd f)
    let a := c.warp.key (ka f)
    .next (advance c (if ka f = 0 then s else setTarget c (kd f) (joinTargets c.warp d.t a.t) (d.l ||| a.l) s)))

/-- KCLR (R108). -/
def execKclr (f : MF) (s : State) : Out :=
  run (.kclr f) s (fun c _ s => .next (advance c (setTarget c (kd f) [] 0 s)))

/-- KWAIT (R109): the wait is that of every consuming instruction; the status form takes STAT and clears it. -/
def execKwait (f : MF) (s : State) : Out :=
  run (.kwait f) s (fun c _ s =>
    if f.w.getLsbD 0 then
      let k := f.ck.toNat
      let s' := writeS c.wref (f.d.toNat - 640) ((c.warp.key k).stat.setWidth 64) s
      .next (advance c (s'.modWarp c.wref (fun w => { w with keys := w.keys.set k { w.key k with stat := 0 } })))
    else .next (advance c s))

/-- KPOLL (R110). -/
def execKpoll (f : MF) (s : State) : Out :=
  run (.kpoll f) s (fun c m s =>
    let k := f.ck.toNat
    let sc := f.sc.toNat
    let v := c.warp.satisfied c.ring k sc
    let s := if !v && sc ≠ 0 then promote c.core (c.warp.unmet k sc) [] s else s
    .next (advance c (writePred c.wref (f.w.toNat % 8) m (if v then BitVec.allOnes 64 else 0) s)))

/-- FENCE (R112). -/
def execFence (f : MF) (s : State) : Out :=
  run (.fence f) s (fun c _ s =>
    let pred := f.w.extractLsb' 0 7
    let succ := f.w.extractLsb' 7 7
    if pred = 0 || succ = 0 then .next (advance c s)
    else
      let w := c.warp.freeFences
      match w.freeFence with
      | none => .next (stall c s)
      | some slot =>
        let s := s.modWarp c.wref (fun _ => (w.addFence slot f.sc.toNat pred succ).freeFences)
        let s := if f.sc ≠ 0 && (pred.getLsbD clsLS || pred.getLsbD clsAT) then flushL1 c.core s else s
        .next (advance c s))

/-- KRECV (R114). -/
def execKrecv (f : MF) (s : State) : Out :=
  run (.krecv f) s (fun c _ s =>
    .next (advance c (setTarget c (kd f) [] (BitVec.ofNat 32 (2 ^ (f.b.toNat - 608))) s)))

end Sys2Proof.Machine
end

