-- ==== Sys2Proof/Machine/Dispatch.lean ====
section
/-! DEFINITION. One arm per constructor of `Instr`, each a direct call of its meaning. -/

namespace Sys2Proof.Machine

def exec (i : Instr) (s : State) : Host.Outcome State Fault Refusal :=
  match i with
  | .thermalThrottle die => Sys2Proof.Machine.execThermalThrottle die s
  | .helloForgetTimeout src => Sys2Proof.Machine.execHelloForgetTimeout src s
  | .sessionIdleTimeout session => Sys2Proof.Machine.execSessionIdleTimeout session s
  | .dataRetransmitTimeout session stream seq => Sys2Proof.Machine.execDataRetransmitTimeout session stream seq s
  | .memoryReadVirtual c ctx addr count => Sys2Proof.Machine.execMemoryReadVirtual c ctx addr count s
  | .memoryReadPhysical c pol addr count => Sys2Proof.Machine.execMemoryReadPhysical c pol addr count s
  | .memoryWriteVirtual c ctx addr data => Sys2Proof.Machine.execMemoryWriteVirtual c ctx addr data s
  | .memoryWritePhysical c pol addr data => Sys2Proof.Machine.execMemoryWritePhysical c pol addr data s
  | .kick c ctx qid value => Sys2Proof.Machine.execKick c ctx qid value s
  | .createContext c => Sys2Proof.Machine.execCreateContext c s
  | .destroyContext c ctx => Sys2Proof.Machine.execDestroyContext c ctx s
  | .setRootTable c ctx addr => Sys2Proof.Machine.execSetRootTable c ctx addr s
  | .setEventCount c ctx count backing => Sys2Proof.Machine.execSetEventCount c ctx count backing s
  | .setRefinableSet c ctx first n value => Sys2Proof.Machine.execSetRefinableSet c ctx first n value s
  | .shootdown c ctx base length => Sys2Proof.Machine.execShootdown c ctx base length s
  | .grantContext c ctx session => Sys2Proof.Machine.execGrantContext c ctx session s
  | .bindUserQueue c ctx qid logcap ring => Sys2Proof.Machine.execBindUserQueue c ctx qid logcap ring s
  | .unbindUserQueue c ctx qid => Sys2Proof.Machine.execUnbindUserQueue c ctx qid s
  | .resumeQueueRetry c ctx qid => Sys2Proof.Machine.execResumeQueueRetry c ctx qid s
  | .resumeQueueSkip c ctx qid => Sys2Proof.Machine.execResumeQueueSkip c ctx qid s
  | .setHostEventRing c ctx logn stream => Sys2Proof.Machine.execSetHostEventRing c ctx logn stream s
  | .advanceReadIndex c ctx index => Sys2Proof.Machine.execAdvanceReadIndex c ctx index s
  | .assignNodeId c node => Sys2Proof.Machine.execAssignNodeId c node s
  | .writeRouteTable c die node mask => Sys2Proof.Machine.execWriteRouteTable c die node mask s
  | .writeExport c index flags src base size => Sys2Proof.Machine.execWriteExport c index flags src base size s
  | .streamReset c node => Sys2Proof.Machine.execStreamReset c node s
  | .readForeignKickCounters c => Sys2Proof.Machine.execReadForeignKickCounters c s
  | .controlResume team => Sys2Proof.Machine.execControlResume team s
  | .controlAbandon team => Sys2Proof.Machine.execControlAbandon team s
  | .controlStep team => Sys2Proof.Machine.execControlStep team s
  | .teamHeaderWrite team offset data => Sys2Proof.Machine.execTeamHeaderWrite team offset data s
  | .fraukLinkUp port => Sys2Proof.Machine.execFraukLinkUp port s
  | .linkReplayRequest port flit => Sys2Proof.Machine.execLinkReplayRequest port flit s
  | .linkReset port => Sys2Proof.Machine.execLinkReset port s
  | .fabricRetransmitTimeout node seq => Sys2Proof.Machine.execFabricRetransmitTimeout node seq s
  | .sliceLoad r => Sys2Proof.Machine.execSliceLoad r s
  | .sliceStore r => Sys2Proof.Machine.execSliceStore r s
  | .sliceAtomic r => Sys2Proof.Machine.execSliceAtomic r s
  | .checkRequest r => Sys2Proof.Machine.execCheckRequest r s
  | .writeBackArrival core home line data bmask ops => Sys2Proof.Machine.execWriteBackArrival core home line data bmask ops s
  | .updateOnlyObtain r => Sys2Proof.Machine.execUpdateOnlyObtain r s
  | .partialResultCombine core home line data bmask fn ty ops => Sys2Proof.Machine.execPartialResultCombine core home line data bmask fn ty ops s
  | .recallDelivery core line => Sys2Proof.Machine.execRecallDelivery core line s
  | .sliceFillComplete home line => Sys2Proof.Machine.execSliceFillComplete home line s
  | .hostAccessAtSlice acc part => Sys2Proof.Machine.execHostAccessAtSlice acc part s
  | .remoteWriteApply op => Sys2Proof.Machine.execRemoteWriteApply op s
  | .tokenApply op => Sys2Proof.Machine.execTokenApply op s
  | .emptyRequestApply op => Sys2Proof.Machine.execEmptyRequestApply op s
  | .mintRequestApply op => Sys2Proof.Machine.execMintRequestApply op s
  | .saveRecordRemove w => Sys2Proof.Machine.execSaveRecordRemove w s
  | .restoreRecordInstall w => Sys2Proof.Machine.execRestoreRecordInstall w s
  | .imageWrite op => Sys2Proof.Machine.execImageWrite op s
  | .watchRequest r => Sys2Proof.Machine.execWatchRequest r s
  | .pushReservation op => Sys2Proof.Machine.execPushReservation op s
  | .pushWrite op => Sys2Proof.Machine.execPushWrite op s
  | .popReservation op => Sys2Proof.Machine.execPopReservation op s
  | .popRead op => Sys2Proof.Machine.execPopRead op s
  | .heldRequestResend op => Sys2Proof.Machine.execHeldRequestResend op s
  | .tableWalkStep core ctx va level table => Sys2Proof.Machine.execTableWalkStep core ctx va level table s
  | .constLineFetch r vline => Sys2Proof.Machine.execConstLineFetch r vline s
  | .replyArrival r => Sys2Proof.Machine.execReplyArrival r s
  | .locketDelivery w locket mask values => Sys2Proof.Machine.execLocketDelivery w locket mask values s
  | .flushMarkerArrival w => Sys2Proof.Machine.execFlushMarkerArrival w s
  | .wokenDelivery r => Sys2Proof.Machine.execWokenDelivery r s
  | .waitmTimeout r => Sys2Proof.Machine.execWaitmTimeout r s
  | .ksendTokenSend op => Sys2Proof.Machine.execKsendTokenSend op s
  | .copyDescriptorEnqueue op => Sys2Proof.Machine.execCopyDescriptorEnqueue op s
  | .copyStart die eng => Sys2Proof.Machine.execCopyStart die eng s
  | .copyChunk op chunk => Sys2Proof.Machine.execCopyChunk op chunk s
  | .copyQueryRequest op => Sys2Proof.Machine.execCopyQueryRequest op s
  | .spillStep w => Sys2Proof.Machine.execSpillStep w s
  | .refillRow w row => Sys2Proof.Machine.execRefillRow w row s
  | .windowConflictTimeout r => Sys2Proof.Machine.execWindowConflictTimeout r s
  | .arenaWritePerformed w row => Sys2Proof.Machine.execArenaWritePerformed w row s
  | .mmaExecute op => Sys2Proof.Machine.execMmaExecute op s
  | .acczExecute op => Sys2Proof.Machine.execAcczExecute op s
  | .accldExecute op => Sys2Proof.Machine.execAccldExecute op s
  | .accrdExecute op => Sys2Proof.Machine.execAccrdExecute op s
  | .accqExecute op => Sys2Proof.Machine.execAccqExecute op s
  | .drainExecute op => Sys2Proof.Machine.execDrainExecute op s
  | .xshflPosting op lane => Sys2Proof.Machine.execXshflPosting op lane s
  | .xshflDelivery op lane value => Sys2Proof.Machine.execXshflDelivery op lane value s
  | .laneExitNotice w lane => Sys2Proof.Machine.execLaneExitNotice w lane s
  | .partnerScratchpadAccess op => Sys2Proof.Machine.execPartnerScratchpadAccess op s
  | .launchCommand die slot index => Sys2Proof.Machine.execLaunchCommand die slot index s
  | .nullCommand die slot index => Sys2Proof.Machine.execNullCommand die slot index s
  | .teamPlace die => Sys2Proof.Machine.execTeamPlace die s
  | .priorityAging launch die => Sys2Proof.Machine.execPriorityAging launch die s
  | .reservationTimeout die => Sys2Proof.Machine.execReservationTimeout die s
  | .preemptDrainDeadline request => Sys2Proof.Machine.execPreemptDrainDeadline request s
  | .preemptSaveDeadline request => Sys2Proof.Machine.execPreemptSaveDeadline request s
  | .warpIssueSelect core quad => Sys2Proof.Machine.execWarpIssueSelect core quad s
  | .forcedDemotionTimeout core quad => Sys2Proof.Machine.execForcedDemotionTimeout core quad s
  | .parkCountExpiry r => Sys2Proof.Machine.execParkCountExpiry r s
  | .eventChangeApply ctx event n => Sys2Proof.Machine.execEventChangeApply ctx event n s
  | .pubvApply op => Sys2Proof.Machine.execPubvApply op s
  | .stoprefApply ctx event => Sys2Proof.Machine.execStoprefApply ctx event s
  | .vchkRead op => Sys2Proof.Machine.execVchkRead op s
  | .consumerFire launch => Sys2Proof.Machine.execConsumerFire launch s
  | .ownerRetire launch => Sys2Proof.Machine.execOwnerRetire launch s
  | .commandSettle launch => Sys2Proof.Machine.execCommandSettle launch s
  | .queueBindPending ctx qid => Sys2Proof.Machine.execQueueBindPending ctx qid s
  | .queueCommandPull die slot => Sys2Proof.Machine.execQueueCommandPull die slot s
  | .teamHalt team => Sys2Proof.Machine.execTeamHalt team s
  | .teamSave team => Sys2Proof.Machine.execTeamSave team s
  | .teamRestore team => Sys2Proof.Machine.execTeamRestore team s
  | .warpRelease w => Sys2Proof.Machine.execWarpRelease w s
  | .hangReport w => Sys2Proof.Machine.execHangReport w s
  | .powerGate core => Sys2Proof.Machine.execPowerGate core s
  | .coreWake core => Sys2Proof.Machine.execCoreWake core s
  | .nop f => Sys2Proof.Machine.execNop f s
  | .bra f => Sys2Proof.Machine.execBra f s
  | .brx f => Sys2Proof.Machine.execBrx f s
  | .call f => Sys2Proof.Machine.execCall f s
  | .callx f => Sys2Proof.Machine.execCallx f s
  | .enter f => Sys2Proof.Machine.execEnter f s
  | .leave f => Sys2Proof.Machine.execLeave f s
  | .ret f => Sys2Proof.Machine.execRet f s
  | .exit f => Sys2Proof.Machine.execExit f s
  | .waitm f => Sys2Proof.Machine.execWaitm f s
  | .yield f => Sys2Proof.Machine.execYield f s
  | .brk f => Sys2Proof.Machine.execBrk f s
  | .mov f => Sys2Proof.Machine.execMov f s
  | .movi f => Sys2Proof.Machine.execMovi f s
  | .sel f => Sys2Proof.Machine.execSel f s
  | .iadd f => Sys2Proof.Machine.execIadd f s
  | .isub f => Sys2Proof.Machine.execIsub f s
  | .iaddc f => Sys2Proof.Machine.execIaddc f s
  | .isubb f => Sys2Proof.Machine.execIsubb f s
  | .imul f => Sys2Proof.Machine.execImul f s
  | .imulh f => Sys2Proof.Machine.execImulh f s
  | .imad f => Sys2Proof.Machine.execImad f s
  | .imadw f => Sys2Proof.Machine.execImadw f s
  | .imin f => Sys2Proof.Machine.execImin f s
  | .imax f => Sys2Proof.Machine.execImax f s
  | .iabs f => Sys2Proof.Machine.execIabs f s
  | .ineg f => Sys2Proof.Machine.execIneg f s
  | .idot4 f => Sys2Proof.Machine.execIdot4 f s
  | .lop3 f => Sys2Proof.Machine.execLop3 f s
  | .shl f => Sys2Proof.Machine.execShl f s
  | .shr f => Sys2Proof.Machine.execShr f s
  | .sha f => Sys2Proof.Machine.execSha f s
  | .rot f => Sys2Proof.Machine.execRot f s
  | .fshf f => Sys2Proof.Machine.execFshf f s
  | .bfe f => Sys2Proof.Machine.execBfe f s
  | .bfi f => Sys2Proof.Machine.execBfi f s
  | .popc f => Sys2Proof.Machine.execPopc f s
  | .clz f => Sys2Proof.Machine.execClz f s
  | .brev f => Sys2Proof.Machine.execBrev f s
  | .idiv f => Sys2Proof.Machine.execIdiv f s
  | .irem f => Sys2Proof.Machine.execIrem f s
  | .fadd f => Sys2Proof.Machine.execFadd f s
  | .fsub f => Sys2Proof.Machine.execFsub f s
  | .fmul f => Sys2Proof.Machine.execFmul f s
  | .ffma f => Sys2Proof.Machine.execFfma f s
  | .fmin f => Sys2Proof.Machine.execFmin f s
  | .fmax f => Sys2Proof.Machine.execFmax f s
  | .frcp f => Sys2Proof.Machine.execFrcp f s
  | .frsq f => Sys2Proof.Machine.execFrsq f s
  | .fsqrt f => Sys2Proof.Machine.execFsqrt f s
  | .fdiv f => Sys2Proof.Machine.execFdiv f s
  | .fexp2 f => Sys2Proof.Machine.execFexp2 f s
  | .flog2 f => Sys2Proof.Machine.execFlog2 f s
  | .fsin f => Sys2Proof.Machine.execFsin f s
  | .fcos f => Sys2Proof.Machine.execFcos f s
  | .ftanh f => Sys2Proof.Machine.execFtanh f s
  | .fscale f => Sys2Proof.Machine.execFscale f s
  | .fclass f => Sys2Proof.Machine.execFclass f s
  | .frnd f => Sys2Proof.Machine.execFrnd f s
  | .cvt f => Sys2Proof.Machine.execCvt f s
  | .pack f => Sys2Proof.Machine.execPack f s
  | .unpack f => Sys2Proof.Machine.execUnpack f s
  | .setp f => Sys2Proof.Machine.execSetp f s
  | .plop f => Sys2Proof.Machine.execPlop f s
  | .vote f => Sys2Proof.Machine.execVote f s
  | .shfl f => Sys2Proof.Machine.execShfl f s
  | .wred f => Sys2Proof.Machine.execWred f s
  | .wscan f => Sys2Proof.Machine.execWscan f s
  | .xshfl f => Sys2Proof.Machine.execXshfl f s
  | .ld f => Sys2Proof.Machine.execLd f s
  | .st f => Sys2Proof.Machine.execSt f s
  | .stT f => Sys2Proof.Machine.execStT f s
  | .ldu f => Sys2Proof.Machine.execLdu f s
  | .pref f => Sys2Proof.Machine.execPref f s
  | .discard f => Sys2Proof.Machine.execDiscard f s
  | .atom f => Sys2Proof.Machine.execAtom f s
  | .atomT f => Sys2Proof.Machine.execAtomT f s
  | .atomc f => Sys2Proof.Machine.execAtomc f s
  | .atomcT f => Sys2Proof.Machine.execAtomcT f s
  | .red f => Sys2Proof.Machine.execRed f s
  | .kcopy f => Sys2Proof.Machine.execKcopy f s
  | .kjoin f => Sys2Proof.Machine.execKjoin f s
  | .kclr f => Sys2Proof.Machine.execKclr f s
  | .kwait f => Sys2Proof.Machine.execKwait f s
  | .kpoll f => Sys2Proof.Machine.execKpoll f s
  | .fence f => Sys2Proof.Machine.execFence f s
  | .ksend f => Sys2Proof.Machine.execKsend f s
  | .krecv f => Sys2Proof.Machine.execKrecv f s
  | .cpy f => Sys2Proof.Machine.execCpy f s
  | .cpyt f => Sys2Proof.Machine.execCpyt f s
  | .cpyr f => Sys2Proof.Machine.execCpyr f s
  | .cpyf f => Sys2Proof.Machine.execCpyf f s
  | .cpyqQuery f => Sys2Proof.Machine.execCpyqQuery f s
  | .cpyqCancel f => Sys2Proof.Machine.execCpyqCancel f s
  | .mint f => Sys2Proof.Machine.execMint f s
  | .rwr f => Sys2Proof.Machine.execRwr f s
  | .rwrb f => Sys2Proof.Machine.execRwrb f s
  | .empty f => Sys2Proof.Machine.execEmpty f s
  | .emptyMask f => Sys2Proof.Machine.execEmptyMask f s
  | .fullq f => Sys2Proof.Machine.execFullq f s
  | .torcTake f => Sys2Proof.Machine.execTorcTake f s
  | .torcPass f => Sys2Proof.Machine.execTorcPass f s
  | .slotClaim f => Sys2Proof.Machine.execSlotClaim f s
  | .slotRelease f => Sys2Proof.Machine.execSlotRelease f s
  | .accz f => Sys2Proof.Machine.execAccz f s
  | .accld f => Sys2Proof.Machine.execAccld f s
  | .mma f => Sys2Proof.Machine.execMma f s
  | .accrd f => Sys2Proof.Machine.execAccrd f s
  | .drain f => Sys2Proof.Machine.execDrain f s
  | .accqStatus f => Sys2Proof.Machine.execAccqStatus f s
  | .accqRsum f => Sys2Proof.Machine.execAccqRsum f s
  | .barArrive f => Sys2Proof.Machine.execBarArrive f s
  | .barWait f => Sys2Proof.Machine.execBarWait f s
  | .barSync f => Sys2Proof.Machine.execBarSync f s
  | .spawn f => Sys2Proof.Machine.execSpawn f s
  | .evsig f => Sys2Proof.Machine.execEvsig f s
  | .evwait f => Sys2Proof.Machine.execEvwait f s
  | .qpush f => Sys2Proof.Machine.execQpush f s
  | .qpop f => Sys2Proof.Machine.execQpop f s
  | .qkick f => Sys2Proof.Machine.execQkick f s
  | .pubv f => Sys2Proof.Machine.execPubv f s
  | .pubvFinal f => Sys2Proof.Machine.execPubvFinal f s
  | .stopref f => Sys2Proof.Machine.execStopref f s
  | .vchk f => Sys2Proof.Machine.execVchk f s
  | .vchkX f => Sys2Proof.Machine.execVchkX f s
  | .trap f => Sys2Proof.Machine.execTrap f s
  | .csrr f => Sys2Proof.Machine.execCsrr f s
  | .csrw f => Sys2Proof.Machine.execCsrw f s
  | .csrwIndclr f => Sys2Proof.Machine.execCsrwIndclr f s
  | .spawnRequest r addr => Sys2Proof.Machine.execSpawnRequest r addr s
  | .eventWaiterEntry r ctx event threshold => Sys2Proof.Machine.execEventWaiterEntry r ctx event threshold s
  | .sliceWriteBackComplete home line => Sys2Proof.Machine.execSliceWriteBackComplete home line s
  | .flitReplay port flit => Sys2Proof.Machine.execFlitReplay port flit s
  | .instructionFetch r => Sys2Proof.Machine.execInstructionFetch r s
  | .packageReset => Sys2Proof.Machine.execPackageReset s
  | .thermalTrip => Sys2Proof.Machine.execThermalTrip s
  | .gctHello => Sys2Proof.Machine.execGctHello s
  | .gctAuth => Sys2Proof.Machine.execGctAuth s
  | .gctData => Sys2Proof.Machine.execGctData s
  | .gctAck => Sys2Proof.Machine.execGctAck s
  | .gctClose => Sys2Proof.Machine.execGctClose s
  | .fabricStreamResetReceived => Sys2Proof.Machine.execFabricStreamResetReceived s
  | .fabricRead => Sys2Proof.Machine.execFabricRead s
  | .fabricWrite => Sys2Proof.Machine.execFabricWrite s
  | .fabricAtomic => Sys2Proof.Machine.execFabricAtomic s
  | .fabricRwrite => Sys2Proof.Machine.execFabricRwrite s
  | .fabricToken => Sys2Proof.Machine.execFabricToken s
  | .fabricKick => Sys2Proof.Machine.execFabricKick s
  | .fabricReplyArrival => Sys2Proof.Machine.execFabricReplyArrival s
  | .targetPackageReset => Sys2Proof.Machine.execTargetPackageReset s
  | .streamResetAck => Sys2Proof.Machine.execStreamResetAck s

end Sys2Proof.Machine
end

