-- ==== Sys2Proof/Machine/Step.lean ====
section
/-! DEFINITION. The step: the instruction of the split chosen to issue, or the next event; and the placing of a word where
the next step fetches. -/

namespace Sys2Proof.Machine

/-- One step of the machine: the instruction of the split that WARP_ISSUE_SELECT has chosen, or one of the events that may
come next, or nothing where there is none. -/
def step (s : State) : Host.Outcome State Fault Refusal :=
  match s.cur with
  | some r =>
    match issueOf r s with
    | .run i s => exec i s
    | .illegal s => illegalWord r s
  | none =>
    match nextEvent (takeInputs (tickClock s)) with
    | (some e, s) => exec e s
    | (none, s) => .next s

/-- s with an instruction word of nbits bits, the others 0, where step fetches its next instruction. -/
def State.withFetchWord (s : State) (nbits w : Nat) : State := placeWord (wordBytes (BitVec.ofNat 96 (w % 2 ^ nbits))) s

end Sys2Proof.Machine
end

