-- ==== Sys2Proof/Safety.lean ====
section
/-! DEFINITION. The terms in which the statements speak of a run: when an instruction's own effect takes place, what an
issue leaves as it was, what a register holds, and the invariant that every step keeps. -/

namespace Sys2Proof.Machine

/-! ## The instruction that issues -/

/-- c is the view of the split that has been chosen to issue. -/
def State.issuing (s : State) (c : Cx) : Prop := s.cur = some c.ref ∧ s.cxOf c.ref = some c

/-- The instruction i of the issuing split passes the checks of R46 and the waits before issue, its guard holds in the
lanes m, and its team is under no single step (R395). -/
structure State.ready (s : State) (c : Cx) (i : Instr) (m : Mask) : Prop where
  issuing : s.issuing c
  gate : gate s c (needOf c i) = .go m
  free : c.team.step = none

/-! ## What an issue leaves as it was -/

/-- A warp without its registers, predicates, splits and the timer of its last issue. -/
def Warp.bare (w : Warp) : Warp :=
  { w with rows := [], sregs := [], preds := [], splits := [], timer := 0, hung := false }

/-- The state without what the issue of an instruction of registers touches: the issuing warp's registers, predicates
and splits, and the machine's marks of issue. Memory, operations in flight, keys, every other warp, team, core, slice and
die stand in it whole. -/
def State.rest (c : Cx) (s : State) : State :=
  ({ s with cur := none, tick := 0, free := 0 }).modWarp c.wref Warp.bare

/-- The issuing split has gone on: its path is changed by go, its stack and its wait are what they were, every other
split is untouched, and no split is chosen to issue. -/
structure Issued (c : Cx) (go : Path → Path) (s t : State) : Prop where
  cur : t.cur = none
  own : ∃ sp, t.split? c.ref = some sp ∧ sp.path = go c.path ∧ sp.stack = c.split.stack ∧ sp.wait = c.split.wait
  others : ∀ q, q ≠ c.ref → t.split? q = s.split? q

/-- From s to t an instruction of the issuing split has issued; w is its warp after it, and the only registers and
predicates written are the listed ones. -/
structure Wrote (c : Cx) (go : Path → Path) (regs : List PReg) (preds : List Nat) (s t : State) (w : Warp) : Prop where
  warp : t.warp? c.wref = some w
  issued : Issued c go s t
  rest : t.rest c = s.rest c
  memory : ∀ a, t.mem.byte a = s.mem.byte a
  rows : ∀ k, PReg.row k ∉ regs → w.row k = c.warp.row k
  scalars : ∀ n, PReg.s n ∉ regs → w.sreg n = c.warp.sreg n
  preds : ∀ p, p ∉ preds → w.pred p = c.warp.pred p

/-- A split that ran as old has left its path for go, with this stack: where it does so for the 1,024th time backward, it
swaps with the top of the stack (R297). -/
structure Split.LeftFor (old : Split) (go : Path) (stack : List Entry) (back : Bool) (sp : Split) : Prop where
  runs : back = false ∨ old.backCount < 1023 ∨ stack = [] →
    sp.path = go ∧ sp.stack = stack ∧ sp.backCount = if back then min 1024 (old.backCount + 1) else 0
  swaps : back = true → 1023 ≤ old.backCount → ∀ e es, stack = e :: es →
    sp.path = e.path ∧ sp.stack = ⟨go, e.rjpc, false⟩ :: es ∧ sp.backCount = 0

/-- A branching instruction has taken the lanes m to go, backward or not, with rejoin offset j: the other lanes fall
through, in the split itself where the warp has a split number free for the taken ones, and otherwise as an entry of its
stack (R295). -/
structure Cx.Branched (c : Cx) (m : Mask) (go : Path) (back : Bool) (j : BitVec 20) (s t : State) : Prop where
  whole : c.active &&& ~~~ m = 0 → ∃ sp, t.split? c.ref = some sp ∧ c.split.LeftFor go c.split.stack back sp
  divided : c.active &&& ~~~ m ≠ 0 →
    ∀ k, k < 4 → c.warp.splits.find? k = none → (∀ i, i < k → (c.warp.splits.find? i).isSome = true) →
    (∃ sp, t.split? c.ref = some sp ∧ sp.path = { c.path with pc := c.path.pc + 1, mask := c.active &&& ~~~ m }
      ∧ sp.stack = c.split.stack ∧ sp.backCount = 0)
    ∧ ∃ x, t.split? { c.ref with split := k } = some x ∧ x.path = go ∧ x.stack = [] ∧ x.backCount = 0 ∧ x.parkCount = 0
  pushed : c.active &&& ~~~ m ≠ 0 → (∀ k, k < 4 → (c.warp.splits.find? k).isSome = true) →
    ∃ sp, t.split? c.ref = some sp ∧ c.split.LeftFor go
      (⟨{ c.path with pc := c.path.pc + 1, mask := c.active &&& ~~~ m },
        if j = 0 then none else some (c.path.pc + j.signExtend 32), false⟩ :: c.split.stack) back sp
  others : ∀ q x, q ≠ c.ref → s.split? q = some x → t.split? q = some x

/-- A diverging branch of these lanes finds no split number and no room on the stack (R295). -/
def Cx.overflows (c : Cx) (m : Mask) : Prop :=
  c.active &&& ~~~ m ≠ 0 ∧ (∀ k, k < 4 → (c.warp.splits.find? k).isSome = true) ∧ 16 ≤ c.split.stack.length

/-! ## What a register holds -/

/-- The number that a register or pair of n words holds in a lane of a warp, as the split's window names it (R39, R41,
R200). -/
def Cx.value (c : Cx) (w : Warp) (r n l : Nat) : Nat :=
  match c.preg r with
  | .s j => (w.sreg j).val.toNat
  | .row k =>
    ((w.row k).lane l).toNat
      + (if n = 2 then (match c.preg (r + 1) with | .row k' => 2 ^ 32 * ((w.row k').lane l).toNat | .s _ => 0) else 0)

/-- The registers of an operand of n words. -/
def Cx.pregs (c : Cx) (r n : Nat) : List PReg := (regsOf r n).map c.preg

/-- Register r, of n words, holds in every lane of m what f gives and in every other lane what it held; it is full. An s
register holds what f gives in the lowest lane of m, of 32 bits with a sign's copies or zeros above (R41, R44). -/
def Cx.took (c : Cx) (w : Warp) (r n : Nat) (signed : Bool) (m : Mask) (f : Nat → Nat) : Prop :=
  (∀ p ∈ c.pregs r n, w.full p = true)
    ∧ (isVec r = true → ∀ l, l < 64 →
        c.value w r n l = if m.getLsbD l then f l % 2 ^ (32 * n) else c.value c.warp r n l)
    ∧ (isVec r = false → ∀ l, lowLane m = some l →
        c.value w r n 0
          = if n = 2 then f l % 2 ^ 64
            else if signed then (BitVec.signExtend 64 (BitVec.ofNat 32 (f l))).toNat else f l % 2 ^ 32)

/-- Predicate p holds in the lanes of m where f says so, and elsewhere where it held before; p0 holds everywhere (R29). -/
def Cx.flagged (c : Cx) (w : Warp) (p : Nat) (m : Mask) (f : Nat → Bool) : Prop :=
  p ≠ 0 → ∀ l, l < 64 → (w.pred p).getLsbD l = if m.getLsbD l then f l else (c.warp.pred p).getLsbD l

/-! ## Results of the instructions of format V, as the spec's tables give them -/

/-- Operand B by lane, where neither a fetch of its constant line nor a fault stands in the way (R33, R34). -/
def State.bValues (s : State) (c : Cx) (op : Nat) (f : VF) : Option (Nat → Nat) :=
  match vSpec op with
  | none => none
  | some sp => match readB s c sp f with
    | .ok b => some b
    | _ => none

/-- Count, width and signedness of the elements of an integer type (R43). -/
def intShape (ty : Nat) : Nat × Nat × Bool :=
  match ty with
  | 1 => (1, 32, true) | 2 => (1, 32, false) | 5 => (1, 64, true) | 6 => (1, 64, false)
  | 10 => (2, 16, true) | 11 => (2, 16, false) | 12 => (4, 8, true) | 13 => (4, 8, false)
  | 4 => (1, 64, false) | _ => (1, 32, false)

/-- Element e, of width w, of a packed value (R227). -/
def elemAt (w x e : Nat) : Nat := x / 2 ^ (w * e) % 2 ^ w

/-- The integer that w bits stand for (R228). -/
def asInt (w : Nat) (sg : Bool) (x : Nat) : Int := if sg then (BitVec.ofNat w x).toInt else (x % 2 ^ w : Nat)

/-- MOD on an integer: the absolute value first, then the negation (R31, R246). -/
def moded (absBit negBit : Bool) (x : Int) : Int :=
  let y := if absBit then |x| else x
  if negBit then -y else y

/-- An exact integer as w bits: wrapped, or with SAT clamped to the type's range (R228). -/
def settled (w : Nat) (sg sat : Bool) (x : Int) : Nat :=
  let lo : Int := if sg then -2 ^ (w - 1) else 0
  let hi : Int := if sg then 2 ^ (w - 1) - 1 else 2 ^ w - 1
  ((if sat then max lo (min hi x) else x) % 2 ^ w).toNat

/-- The exact results of R248 and R254 by element: of width w, signedness sg, operands a, b and c. -/
def intResult (i : Instr) : Option (Nat × VF × (Nat → Bool → Int → Int → Int → Int)) :=
  match i with
  | .iadd f => some (0x13, f, fun _ _ a b _ => a + b)
  | .isub f => some (0x14, f, fun _ _ a b _ => a - b)
  | .imul f => some (0x17, f, fun _ _ a b _ => a * b)
  | .imulh f => some (0x18, f, fun w _ a b _ => Int.fdiv (a * b) (2 ^ w))
  | .imad f => some (0x19, f, fun _ _ a b x => a * b + x)
  | .imin f => some (0x1B, f, fun _ _ a b _ => min a b)
  | .imax f => some (0x1C, f, fun _ _ a b _ => max a b)
  | .iabs f => some (0x1D, f, fun _ _ a _ _ => |a|)
  | .ineg f => some (0x1E, f, fun _ _ a _ _ => -a)
  | .idiv f => some (0x2B, f, fun w sg a b _ =>
      if b = 0 then
        if sg then
          if f.sat then (if a < 0 then -2 ^ (w - 1) else if a = 0 then 0 else 2 ^ (w - 1) - 1) else -1
        else 2 ^ w - 1
      else Int.tdiv a b)
  | .irem f => some (0x2C, f, fun _ _ a b _ => a - b * Int.tdiv a b)
  | _ => none

/-- Width of a 32- or 64-bit type. -/
def wide (ty : Nat) : Nat := if 4 ≤ ty && ty ≤ 7 then 64 else 32

/-- The bit of BFE's source at a position: beyond the width the top bit for s types and 0 for z types (R253). -/
def sourceBit (n : Nat) (sg : Bool) (a p : Nat) : Bool := if p < n then a.testBit p else sg && a.testBit (n - 1)

/-- What the moves, logic, shifts, fields and counts make of a, b and c, as a relation with the result r (R248 to
R253). -/
def bitResult (i : Instr) : Option (Nat × VF × (Nat → Nat → Nat → Nat → Prop)) :=
  match i with
  | .mov f => some (0x10, f, fun _ b _ r => r = b)
  | .lop3 f => some (0x20, f, fun a b x r => ∀ k, k < wide f.ty.toNat →
      r.testBit k = (f.mod ++ BitVec.ofBool f.sat ++ f.rm).getLsbD
        ((a.testBit k).toNat + 2 * (b.testBit k).toNat + 4 * (x.testBit k).toNat))
  | .shl f => some (0x21, f, fun a b _ r => r = (BitVec.ofNat (wide f.ty.toNat) a <<< b).toNat)
  | .shr f => some (0x22, f, fun a b _ r => r = (BitVec.ofNat (wide f.ty.toNat) a >>> b).toNat)
  | .sha f => some (0x23, f, fun a b _ r => r = ((BitVec.ofNat (wide f.ty.toNat) a).sshiftRight b).toNat)
  | .rot f => some (0x24, f, fun a b _ r =>
      r = (if f.fn = 0 then (BitVec.ofNat (wide f.ty.toNat) a).rotateLeft b
        else (BitVec.ofNat (wide f.ty.toNat) a).rotateRight b).toNat)
  | .fshf f => some (0x25, f, fun a b x r =>
      r = (if f.fn = 0 then ((BitVec.ofNat 32 x ++ BitVec.ofNat 32 a) >>> (b % 64)).extractLsb' 0 32
        else ((BitVec.ofNat 32 a ++ BitVec.ofNat 32 x) <<< (b % 64)).extractLsb' 32 32).toNat)
  | .bfe f => some (0x26, f, fun a b _ r =>
      let n := wide f.ty.toNat
      let sg := f.ty = 1 || f.ty = 5
      let p := b % 2 ^ 8
      let q := min (b / 2 ^ 8 % 2 ^ 8) n
      ∀ k, k < n → r.testBit k
        = if q = 0 then false
          else if k < q then sourceBit n sg a (p + k)
          else sg && sourceBit n sg a (p + (q - 1)))
  | .bfi f => some (0x27, f, fun a b x r =>
      let n := wide f.ty.toNat
      let p := b % 2 ^ 8
      let q := b / 2 ^ 8 % 2 ^ 8
      ∀ k, k < n → r.testBit k = if p ≤ k ∧ k < p + q then a.testBit (k - p) else x.testBit k)
  | .popc f => some (0x28, f, fun a _ _ r => r = ((List.range (wide f.ty.toNat)).filter (fun k => a.testBit k)).length)
  | .clz f => some (0x29, f, fun a _ _ r =>
      r ≤ wide f.ty.toNat ∧ a < 2 ^ (wide f.ty.toNat - r)
        ∧ (r < wide f.ty.toNat → 2 ^ (wide f.ty.toNat - r - 1) ≤ a))
  | .brev f => some (0x2A, f, fun a _ _ r => ∀ k, k < wide f.ty.toNat → r.testBit k = a.testBit (wide f.ty.toNat - 1 - k))
  | .imadw f => some (0x1A, f, fun a b x r =>
      r = settled 64 (f.ty = 1) f.sat
        (moded (f.mod.getLsbD 1) (f.mod.getLsbD 0) (asInt 32 (f.ty = 1) a)
          * moded (f.mod.getLsbD 3) (f.mod.getLsbD 2) (asInt 32 (f.ty = 1) b) + asInt 64 (f.ty = 1) x))
  | .idot4 f => some (0x1F, f, fun a b x r =>
      let u := fun k => moded (f.mod.getLsbD 1) (f.mod.getLsbD 0) (asInt 8 (f.fn.getLsbD 0) (elemAt 8 a k))
      let v := fun k => moded (f.mod.getLsbD 3) (f.mod.getLsbD 2) (asInt 8 (f.fn.getLsbD 1) (elemAt 8 b k))
      r = settled 32 (f.ty = 1) f.sat (asInt 32 (f.ty = 1) x + u 0 * v 0 + u 1 * v 1 + u 2 * v 2 + u 3 * v 3))
  | _ => none

/-- MOVI's immediate: fields A, B, C and W together, shaped by the type (R50). -/
def longImmediate (f : VF) : Nat :=
  let l : BitVec 50 := f.w ++ f.c ++ f.b ++ f.a
  match f.ty.toNat with
  | 4 | 5 => (l.signExtend 64).toNat
  | 6 => (l.setWidth 64).toNat
  | 7 => ((l.setWidth 64) <<< 14).toNat
  | _ => (l.setWidth 32).toNat

/-- The elements of a floating-point type (R43). -/
def fltShape (ty : Nat) : Nat × Fmt :=
  match ty with
  | 7 => (1, fmtF64) | 8 => (2, fmtF16) | 9 => (2, fmtBF16) | _ => (1, fmtF32)

/-- MOD on the bits of a floating-point number: |x| clears the sign bit, then −x inverts it (R246). -/
def modedBits (fm : Fmt) (absBit negBit : Bool) (x : Nat) : Nat :=
  let y := if absBit then x % 2 ^ (fm.width - 1) else x
  if negBit then y ^^^ 2 ^ (fm.width - 1) else y

/-- The results of R255 that take one rounding, by element: of the format, the rounding mode, FTZ and the operands read
as values. -/
def fltResult (i : Instr) : Option (Nat × VF × (Fmt → Nat → Bool → FV → FV → FV → Nat)) :=
  match i with
  | .fadd f => some (0x30, f, fun fm md z a b _ => fm.encode md f.sat z (FV.add md a b))
  | .fsub f => some (0x31, f, fun fm md z a b _ => fm.encode md f.sat z (FV.add md a b.neg))
  | .fmul f => some (0x32, f, fun fm md z a b _ => fm.encode md f.sat z (FV.mul a b))
  | .ffma f => some (0x33, f, fun fm md z a b x => fm.encode md f.sat z (FV.add md (FV.mul a b) x))
  | .frcp f => some (0x36, f, fun fm md z a _ _ => fm.div md false z (.fin false 1 0) a)
  | .fsqrt f => some (0x38, f, fun fm md z a _ _ => fm.sqrt md z a)
  | .fdiv f => some (0x39, f, fun fm md z a b _ => fm.div md f.sat z a b)
  | .frnd f => some (0x41, f, fun fm md z a _ _ => fm.toIntegral md z a)
  | _ => none

/-- The results of R255 to R257 that are formed from the bits of the operands, by element: of the format, FTZ, and the
operands after MOD. -/
def fltBitsResult (i : Instr) : Option (Nat × VF × (Fmt → Bool → Nat → Nat → Nat)) :=
  match i with
  | .fmin f => some (0x34, f, fun fm z a b => fm.minMax z false a b)
  | .fmax f => some (0x35, f, fun fm z a b => fm.minMax z true a b)
  | .frsq f => some (0x37, f, fun fm z a _ => approxFn 0 fm z a)
  | .fexp2 f => some (0x3A, f, fun fm z a _ => approxFn 1 fm z a)
  | .flog2 f => some (0x3B, f, fun fm z a _ => approxFn 2 fm z a)
  | .fsin f => some (0x3C, f, fun fm z a _ => approxFn 3 fm z a)
  | .fcos f => some (0x3D, f, fun fm z a _ => approxFn 4 fm z a)
  | .ftanh f => some (0x3E, f, fun fm z a _ => approxFn 5 fm z a)
  | _ => none

/-- A value of a format is the real number y. -/
def FV.stands (v : FV) (y : ℝ) : Prop := ∃ n m e, v = .fin n m e ∧ y = (if n then -1 else 1) * m * (2 : ℝ) ^ (e : Int)

/-- A value lies within d of the real number y. -/
def FV.within (d y : ℝ) (v : FV) : Prop := ∃ x, v.stands x ∧ |x - y| ≤ d

/-- u is an ulp of the real number y in a format (R256). -/
def Fmt.ulpOf (f : Fmt) (y u : ℝ) : Prop :=
  ∃ i : Int, (2 : ℝ) ^ i ≤ |y| ∧ |y| < (2 : ℝ) ^ (i + 1) ∧ u = (2 : ℝ) ^ (max i (1 - (f.bias : Int)) - f.fbits)

/-- A value lies within k ulp of the real number y, an infinity where y so nearly overflows (R230, R256). -/
def Fmt.withinUlp (f : Fmt) (k : Nat) (y : ℝ) (v : FV) : Prop :=
  ∃ u, f.ulpOf y u ∧ (FV.within (k * u) y v ∨ v = .inf (decide (y < 0)) ∧ (2 : ℝ) ^ (f.bias + 1) ≤ |y| + k * u)

/-- A result r is a value that p admits; with FTZ a subnormal one is written as a zero (R233). -/
def Fmt.gives (f : Fmt) (ftz : Bool) (r : Nat) (p : FV → Prop) : Prop :=
  ∃ x, x < 2 ^ f.width ∧ p (f.decode x)
    ∧ (if ftz && x % 2 ^ (f.width - 1) < 2 ^ f.fbits then r % 2 ^ (f.width - 1) = 0 else r = x)

/-- The one bit that FCLASS writes (R257), from the sign, the exponent field and the fraction of a's bits. -/
def classBit (fm : Fmt) (x : Nat) : Nat :=
  let neg := x.testBit (fm.width - 1)
  let e := x / 2 ^ fm.fbits % 2 ^ fm.ebits
  let fr := x % 2 ^ fm.fbits
  if e = 2 ^ fm.ebits - 1 then (if fr ≠ 0 then 8 else if neg then 0 else 7)
  else if e = 0 then (if fr = 0 then (if neg then 3 else 4) else if neg then 2 else 5)
  else if neg then 1 else 6

/-! ## Reductions across lanes (R265) -/

/-- The operand bits of the participating lanes up to lane l, in ascending lane order. -/
def State.prefixBits (s : State) (c : Cx) (f : VF) (m : Mask) (l : Nat) : List Nat :=
  ((lanesOf m).filter (fun k => k ≤ l)).map (fun k => readReg s c f.a.toNat (tyWords f.ty.toNat) k)

/-- R265's combination of a list of values after MOD, first the lowest lane's: exact for integers, one rounding a step
for fadd. -/
def reduceBits (fn ty md : Nat) (z sat absBit negBit : Bool) (vs : List Nat) : Nat :=
  let n := wide ty
  let sg := ty = 1 || ty = 5
  let fm := if ty = 7 then fmtF64 else fmtF32
  let xs := vs.map (fun v => moded absBit negBit (asInt n sg v))
  let us := vs.map (modedBits fm absBit negBit)
  let quiet := fun (u : Nat) => if (fm.decode u).isNaN then fm.nan else u
  match fn with
  | 0 => settled n sg sat xs.sum
  | 1 => (xs.tail.foldl min (xs.headD 0) % 2 ^ n).toNat
  | 2 => (xs.tail.foldl max (xs.headD 0) % 2 ^ n).toNat
  | 3 => vs.tail.foldl (· &&& ·) (vs.headD 0)
  | 4 => vs.tail.foldl (· ||| ·) (vs.headD 0)
  | 5 => vs.tail.foldl (· ^^^ ·) (vs.headD 0)
  | 6 => us.tail.foldl (fun r x => fm.encode md false z (FV.add md (fm.read z r) (fm.read z x)))
      (fm.encode 0 false z (fm.read z (us.headD 0)))
  | 7 => us.tail.foldl (fm.minMax false false) (quiet (us.headD 0))
  | _ => us.tail.foldl (fm.minMax false true) (quiet (us.headD 0))

/-- The identity that the exclusive scan writes into the lowest participating lane (R265). -/
def identityBits (fn ty : Nat) : Nat :=
  let n := wide ty
  let sg := ty = 1 || ty = 5
  match fn with
  | 1 => if sg then 2 ^ (n - 1) - 1 else 2 ^ n - 1
  | 2 => if sg then 2 ^ (n - 1) else 0
  | 3 => 2 ^ n - 1
  | 6 => 2 ^ (n - 1)
  | 7 => if ty = 7 then 0x7FF0000000000000 else 0x7F800000
  | 8 => if ty = 7 then 0xFFF0000000000000 else 0xFF800000
  | _ => 0

/-! ## Operations that an instruction starts -/

/-- A warp without its splits. -/
def Warp.noSplits (w : Warp) : Warp := { w with splits := [] }

/-- A warp without its splits and the timer of its last issue. -/
def Warp.idle (w : Warp) : Warp := { w with splits := [], timer := 0, hung := false }

/-- A split without the trap that it records. -/
def Split.noOwn (sp : Split) : Split := { sp with own := none }

/-- From s to t the issuing instruction has put operation o into flight and gone on by go; w is its warp after it.
The entry is o; the other entries stand as they were. Registers and predicates hold the values they held; the
destinations of o are empty and no other full bit has changed, but for the registers regs that the instruction writes at
once. P of the produce key and the counts of the FENCE classes have risen by one, if the operation produces (R94, R111,
R153, R205). No byte of memory has changed, and no other warp but for the splits' own traps. -/
structure Started (c : Cx) (go : Path → Path) (o : Op) (cls : List Nat) (regs : List PReg) (s t : State) (w : Warp) :
    Prop where
  entry : t.ops.find? s.nextOp = some o
  count : t.nextOp = s.nextOp + 1
  entries : ∀ k, k ≠ s.nextOp → t.ops.find? k = s.ops.find? k
  cur : t.cur = none
  warp : t.warp? c.wref = some w
  path : ∃ sp, w.splits.find? c.ref.split = some sp ∧ sp.path = go c.path ∧ sp.stack = c.split.stack
  words : ∀ k, PReg.row k ∉ regs → ∀ l, (w.row k).lane l = (c.warp.row k).lane l
  scalars : ∀ n, PReg.s n ∉ regs → (w.sreg n).val = (c.warp.sreg n).val
  full : ∀ p, p ∉ regs → w.full p = (c.warp.full p && !o.dests.contains p)
  preds : w.preds = c.warp.preds
  keys : w.keys = (if o.produces then (c.warp.produce o.pk cls).keys else c.warp.keys)
  classes : w.classes = (if o.produces then (c.warp.produce o.pk cls).classes else c.warp.classes)
  memory : ∀ a, t.mem.byte a = s.mem.byte a
  others : ∀ v, v ≠ c.wref → (t.warp? v).map Warp.noSplits = (s.warp? v).map Warp.noSplits

/-! ## Instructions of the key file and other state of the warp -/

/-- A warp without its splits, its keys and fence points, and the timer of its last issue. -/
def Warp.unkeyed (w : Warp) : Warp := { w with keys := [], fences := [], splits := [], timer := 0, hung := false }

/-- A team without its warps. -/
def Team.bare (t : Team) : Team := { t with warps := [] }

/-- From s to t the issuing split has gone on at the next instruction, and w is its warp after it. No other warp, no byte
of memory, no operation in flight, and nothing of teams, launches, contexts, slices and dies has changed. -/
structure Went (c : Cx) (s t : State) (w : Warp) : Prop where
  warp : t.warp? c.wref = some w
  issued : Issued c pcNext s t
  memory : ∀ a, t.mem.byte a = s.mem.byte a
  others : ∀ v, v ≠ c.wref → t.warp? v = s.warp? v
  teams : ∀ n, (t.team? n).map Team.bare = (s.team? n).map Team.bare
  launches : t.launches = s.launches
  contexts : t.contexts = s.contexts
  ops : t.ops = s.ops
  slices : t.slices = s.slices
  dies : t.dies = s.dies

/-- The state without what a wait of the issuing split may touch: the marks of issue, free values already used, and the
requests and walks on their way. -/
def State.quiet (c : Cx) (s : State) : State :=
  ({ s with cur := none, tick := 0, free := 0, agenda := [] }).modSplit c.ref (fun sp => { sp with last := 0 })

/-- The split has stalled: nothing but the marks of issue has changed, and its instruction is still to issue. -/
structure Stalled (c : Cx) (s t : State) : Prop where
  cur : t.cur = none
  rest : t.quiet c = s.quiet c

/-- No address of a list waits for a table walk: a TLB, or the split's own walk, has the translation of each (R67,
R69). -/
def State.mapped (s : State) (c : Cx) (vas : List Dword) : Prop := pagesMissing s c.split.held c.core c.ctx vas = []

/-- From s to t the split has stalled for the walks of the pages of vas that it has no translation for; while the core has
no miss entry for one of them, it only stalls (R69). Nothing of the instruction has happened. -/
structure Walks (c : Cx) (vas : List Dword) (s t : State) : Prop where
  own : ∃ sp, t.split? c.ref = some sp ∧ sp.path = c.path ∧ sp.stack = c.split.stack
    ∧ sp.wait = (let ps := (pagesMissing s c.split.held c.core c.ctx vas).take 64
        let misses := (s.core c.core).misses
        if 64 < misses.length + (ps.filter (fun p => !misses.contains (c.ctx, p))).length then c.split.wait else .walk ps)
  memory : ∀ a, t.mem.byte a = s.mem.byte a
  ops : t.ops = s.ops

/-- The split stays at its instruction in wait w, with the events new raised; its warp's registers, predicates and keys,
the other splits, memory and the operations in flight are as they were. -/
structure Parked (c : Cx) (w : Wait) (new : List Instr) (s t : State) : Prop where
  cur : t.cur = none
  own : ∃ sp, t.split? c.ref = some sp ∧ sp.path = c.path ∧ sp.stack = c.split.stack ∧ sp.wait = w
  agenda : t.agenda = s.agenda ++ new
  others : ∀ q, q ≠ c.ref → t.split? q = s.split? q
  warp : (t.warp? c.wref).map Warp.idle = some c.warp.idle
  warps : ∀ v, v ≠ c.wref → t.warp? v = s.warp? v
  memory : ∀ a, t.mem.byte a = s.mem.byte a
  ops : t.ops = s.ops
  contexts : t.contexts = s.contexts

/-- From s to t the split has gone on and the events new have been raised; registers, predicates, keys, memory and the
operations in flight are as they were. -/
structure Raised (c : Cx) (new : List Instr) (s t : State) : Prop where
  cur : t.cur = none
  own : ∃ sp, t.split? c.ref = some sp ∧ sp.path = pcNext c.path ∧ sp.stack = c.split.stack
  agenda : t.agenda = s.agenda ++ new
  others : ∀ q, q ≠ c.ref → t.split? q = s.split? q
  warp : ∃ w, t.warp? c.wref = some w ∧ w.unkeyed = c.warp.unkeyed ∧ w.keys = c.warp.keys ∧ w.fences = c.warp.fences
  warps : ∀ v, v ≠ c.wref → t.warp? v = s.warp? v
  memory : ∀ a, t.mem.byte a = s.mem.byte a
  ops : t.ops = s.ops
  contexts : t.contexts = s.contexts

/-! ## The matrix engine -/

/-- What the engine or the drain unit takes from an instruction: its kind, tile, FENCE classes and destinations, and the
step by which it acts in tile order (R276). -/
structure MatrixAct where
  kind : OpKind
  tile : Nat
  cls : List Nat
  dests : List PReg
  event : Nat → Instr

/-- The virtual addresses at whose granules a matrix instruction translates: ACCLD's source; DRAIN's output rows and column
records. -/
def State.granuleVas (s : State) (c : Cx) (m : Mask) (i : Instr) : List Dword :=
  (match i with
    | .accld f => if f.sp = 0 then granules (laneAddr s c f ((lowLane m).getD 0)).toNat rawSize else []
    | .drain f =>
      let d := drainDesc ((List.range 4).map (fun k => readS c (f.b.toNat + k)))
      (if f.sp = 0 then granulesOf d.ranges else [])
        ++ if d.records && !d.csp then granulesOf [(d.cols, 16 * d.ncol)] else []
    | _ => []).map (BitVec.ofNat 64)

/-- The checks at issue of R278 and R281 to R290 are passed, and what is then issued. -/
def State.matrixAct (s : State) (c : Cx) (m : Mask) (i : Instr) : Option MatrixAct :=
  match i with
  | .accz f => if holdsTorc s c then some ⟨.accz, f.b.toNat, [], [], .acczExecute⟩ else none
  | .accld f =>
    let va := laneAddr s c f ((lowLane m).getD 0)
    if holdsTorc s c && va.toNat % 128 = 0
        && (if f.sp = 0 then (granuleAccs s c .tile 2 0 (granules va.toNat rawSize)).isOk
          else (f.sp ≠ 2 || c.launch.desc.paired) && va.toNat + rawSize ≤ c.launch.desc.scratch) then
      some ⟨.accld, f.b.toNat, [clsMR], [], .accldExecute⟩
    else none
  | .mma f =>
    let w := readW s c f.fw.toNat ((lowLane c.active).getD ((lowLane m).getD 0))
    if wholeWarp c && disagree c.active (fun l => readW s c f.fw.toNat l) = 0 && holdsTorc s c
        && f.ac.toNat < c.launch.desc.acct && f.aslot.toNat < c.launch.desc.aslots && f.wslot.toNat < c.launch.desc.wslots
        && (slotClaim c false f.aslot.toNat).holder.isSome && (slotClaim c true f.wslot.toNat).holder.isSome
        && fwOk w && tileMode s c f.ac.toNat = some (fwMode w) then
      some ⟨.mma, f.ac.toNat, [clsMR], [], .mmaExecute⟩
    else none
  | .accrd f => some ⟨.accrd, f.b.toNat, [], c.pregs f.d.toNat (tyWords f.ty.toNat), .accrdExecute⟩
  | .accqStatus f => some ⟨.accq, f.b.toNat, [], [.s (f.d.toNat - 640)], .accqExecute⟩
  | .accqRsum f => some ⟨.accq, f.b.toNat, [], c.pregs f.d.toNat 2, .accqExecute⟩
  | .drain f =>
    let d := drainDesc ((List.range 4).map (fun k => readS c (f.b.toNat + k)))
    let outs := if f.sp = 0 then granulesOf d.ranges else []
    let cols := if d.records && !d.csp then granulesOf [(d.cols, 16 * d.ncol)] else []
    if drainOk c f.sp.toNat d && (granuleAccs s c .store 0 0 outs).isOk
        && (granuleAccs s c .tile 1 outs.length cols).isOk then
      some ⟨.drain, f.w.toNat % 8, [clsMW], [], .drainExecute⟩
    else none
  | _ => none

/-- A slot's claim in a team's area. -/
def State.claim (s : State) (t a : Nat) (weight : Bool) (n : Nat) : Claim :=
  match s.team? t with
  | none => {}
  | some tm => if weight then (tm.areas.get {} a).wclaims.get {} n else (tm.areas.get {} a).aclaims.get {} n

/-- The sum over k of row i of A by column j of B, for 8-bit integer elements (R147, R148, R284). -/
def int8Dot (sa sb : Store) (w : Word) (i j : Nat) : Int :=
  ((List.range 128).map (fun k =>
    asInt 8 (w.getLsbD 8) (sa.byte (128 * i + k)).toNat * asInt 8 (w.getLsbD 9) (sb.byte (128 * k + j)).toNat)).sum

/-- A value as a rational number; what is no number is read as 0 (R237). -/
def FV.rat (v : FV) : ℚ :=
  match v with
  | .fin n m e => (if n then -1 else 1) * m * (2 : ℚ) ^ (e : Int)
  | _ => 0

/-- The format of a slot's floating-point elements, by its code in the format word (R273). -/
def slotFmt (code : Nat) : Fmt :=
  match code with
  | 0 => fmtE4M3 | 1 => fmtE5M2 | 3 => fmtBF16 | 4 => fmtF16 | _ => fmtF64

/-- The bytes of an element (R274). -/
def slotBytes (code : Nat) : Nat := if code < 3 then 1 else if code < 5 then 2 else 8

/-- Element k of row i of an activation slot, and element k of column j of a weight slot, at their places (R147, R148). -/
def slotA (sa : Store) (w : Word) (i k : Nat) : FV :=
  let c := (w.extractLsb' 0 4).toNat
  (slotFmt c).decode (leNat (sa.read (128 * i + slotBytes c * k) (slotBytes c)))

def slotB (sb : Store) (w : Word) (j k : Nat) : FV :=
  let c := (w.extractLsb' 4 4).toNat
  (slotFmt c).decode (leNat (sb.read (128 * slotBytes c * k + slotBytes c * j) (slotBytes c)))

/-- The scale at an offset of a slot, where the format word asks for scales (R237). -/
def slotScale (st : Store) (w : Word) (off : Nat) : ℚ :=
  if w.getLsbD 12 then (fmtF32.decode (leNat (st.read off 4))).rat else 1

/-- Half of a mantissa, a tie to even (ShiftAll of R239), n times. -/
def halved (n : Nat) (x : Int) : Int :=
  match n with
  | 0 => x
  | n + 1 =>
    let y := halved n x
    if y % 2 = 0 then y / 2 else if (y / 2) % 2 = 0 then y / 2 else y / 2 + 1

/-- A contribution placed on the grid: at most 2^47 − 1 in magnitude (R239). -/
def placedGrid (q : Int) : Int := max (-(2 ^ 47 - 1)) (min (2 ^ 47 - 1) q)

/-- The chain of sums of FP64 mode (R242): each step one rounding to nearest even. -/
def chain64 (start : Nat) : List (FV × FV) → List Nat
  | [] => [start]
  | p :: ps => start :: chain64 (fmtF64.encode 0 false false (FV.add 0 (FV.mul p.1 p.2) (fmtF64.decode start))) ps

/-! ## Lane accesses to global memory (R151, R152, R159, R195) -/

/-- What a lane memory instruction asks of memory: who accesses, at what alignment, in which lanes at which addresses,
and with which FENCE class. One access serves all lanes where every operand is scalar, and for LDU. -/
structure MemAccess where
  agent : Agent
  align : Nat
  lanes : List (Nat × Dword)
  cls : Nat
  kind : OpKind
  mf : MF
  dests : List PReg
  /-- an s register base gives every executing lane the one address (R151) -/
  all : Bool

/-- The access of an instruction with its executing lanes; none for an instruction of another kind, or one of the
scratchpad. -/
def State.memAccess (s : State) (c : Cx) (m : Mask) (i : Instr) : Option MemAccess :=
  let load := fun (f : MF) (once all : Bool) =>
    if f.sp = 0 then some (⟨.load, tySize f.ty.toNat, (accessLanes m once).map (fun l => (l, laneAddr s c f l)), clsLL,
      .load, f, c.pregs f.d.toNat (accWords f.ty.toNat), all⟩ : MemAccess) else none
  let store := fun (f : MF) (tag : Bool) =>
    if f.sp = 0 then some (⟨.store, tySize f.ty.toNat,
      (accessLanes m (!isVector f.a.toNat && !isVector f.b.toNat)).map (fun l => (l, laneAddr s c f l)), clsLS,
      if tag then .storeT else .store, f, if tag then [c.preg f.d.toNat] else [],
      !isVector f.a.toNat && !isVector f.b.toNat⟩ : MemAccess) else none
  let atom := fun (f : MF) (kind : OpKind) (addr : Nat → Dword) (scalarC : Bool) (n : Nat) =>
    some (⟨.atomic, tySize f.ty.toNat,
      (accessLanes m (!isVector f.a.toNat && !isVector f.b.toNat && scalarC)).map (fun l => (l, addr l)), clsAT, kind,
      f, if n = 0 then [] else c.pregs f.d.toNat n, !isVector f.a.toNat && !isVector f.b.toNat && scalarC⟩ : MemAccess)
  match i with
  | .ld f => load f (!isVector f.a.toNat) (!isVector f.a.toNat)
  | .ldu f => load f true false
  | .st f => store f false
  | .stT f => store f true
  | .discard f => some ⟨.store, 1, (accessLanes m (!isVector f.a.toNat)).map (fun l => (l, laneAddr s c f l)), clsLS,
      .discard, f, [], !isVector f.a.toNat⟩
  | .atom f => atom f .atomic (laneAddr s c f) true (accWords f.ty.toNat)
  | .atomT f => atom f .atomic (laneAddr s c f) true (2 * accWords f.ty.toNat)
  | .atomc f => atom f .atomc (laneBase s c f) (!isVector (atomcC f)) (accWords f.ty.toNat)
  | .atomcT f => atom f .atomc (laneBase s c f) (!isVector (atomcC f)) (2 * accWords f.ty.toNat)
  | .red f => atom f .red (laneAddr s c f) true 0
  | _ => none

/-- The operand that a lane stores or combines: B's bits (R157, R195). -/
def State.operandBits (s : State) (c : Cx) (f : MF) (l : Nat) : Dword := (storeVal s c f.b.toNat (accWords f.ty.toNat) l).1

/-! ## Accesses to scratchpads (R36, R41, R154) -/

/-- What a load of a value of v leaves in an s register. -/
def loadScalar (ty v : Nat) : Dword :=
  if wide ty = 64 then BitVec.ofNat 64 v
  else if ty = 1 then (BitVec.ofNat 32 v).signExtend 64
  else (BitVec.ofNat 32 (extendTo ty v)).setWidth 64

/-- The byte that a store of an operation leaves at an offset: the highest lane's, if one covers it. -/
def scratchStored (o : Op) (x : Nat) : Option Byte :=
  ((o.lanes.filter (fun a => a.va.toNat ≤ x && x < a.va.toNat + o.size)).getLast?).map (fun a =>
    (a.b2 ++ a.b).extractLsb' (8 * (x - a.va.toNat)) 8)

/-! ## Requests at their home slices -/

/-- Of what the requests of an event may do next, request x comes next: it stands at its slice, or arrives there (R23). -/
structure State.comes (s : State) (e : Instr) (q : Requester) (stops : List Stop) (x : Trip) : Prop where
  open_ : allBack (s.tripsOf e) stops = false
  next : (actsOf s e q stops)[(s.choose (actsOf s e q stops).length).1]? = some (.go x)

/-- Of what the requests of an event may do next, the request for stop x leaves next: a permit is free (R20, R23). -/
structure State.leaves (s : State) (e : Instr) (q : Requester) (stops : List Stop) (x : Stop) : Prop where
  open_ : allBack (s.tripsOf e) stops = false
  next : (actsOf s e q stops)[(s.choose (actsOf s e q stops).length).1]? = some (.leave x)

/-- The request of event e of requester q for stop x has left: it is the last on its path, and nothing else has happened but
that the event stands for what comes next (R19, R81). -/
structure State.left (s : State) (e : Instr) (q : Requester) (x : Stop) (t : State) : Prop where
  trip : ∃ y : Trip, t.trips = s.trips ++ [y] ∧ y.e = e ∧ y.who = q ∧ y.stop = x ∧ y.stage = .going
  again : t.agenda = s.agenda ++ [e]
  slices : t.slices = s.slices
  memory : ∀ a, t.mem.byte a = s.mem.byte a

/-- A request has come to a line that is busy: it waits there, behind the requests that came before it, and nothing else
has happened (R84). -/
structure State.queued (s : State) (e : Instr) (home line : Nat) (t : State) : Prop where
  line : t.sline home line = { s.sline home line with waiters := (s.sline home line).waiters ++ [e] }
  memory : ∀ a, t.mem.byte a = s.mem.byte a
  tags : t.tags = s.tags
  ops : t.ops = s.ops

/-- The slice has answered request x of an event: the reply is on its way back as p says, and the event stands for what it
does next (R79, R82). -/
structure State.replies (t : State) (e : Instr) (x : Trip) (p : Trip → Prop) : Prop where
  reply : ∃ y ∈ t.trips, y.id = x.id ∧ y.stage = .back ∧ p y
  arrives : Instr.replyArrival ⟨x.id, 0⟩ ∈ t.agenda
  again : e ∈ t.agenda

/-- The byte at a physical address of a line as some pieces give it in order: the last one that covers it. -/
def pieceByte (home line a : Nat) : List Seg → List Byte → Option Byte
  | [], _ => none
  | g :: gs, bs =>
    match pieceByte home line a gs (bs.drop g.n) with
    | some b => some b
    | none => if g.home = home && g.pa / 128 = line && g.pa ≤ a && a < g.pa + g.n then (bs.take g.n)[a - g.pa]? else none

/-- A request e has its turn at its home slice and finds its line there (R84), with rcl none of it gathered in a core
(R85); the line is neither poisoned (R58) nor mapped through two policies (R59). -/
structure State.served (s : State) (home line : Nat) (rcl : Bool) (e : Instr) : Prop where
  present : (s.sline home line).state = .cln ∨ (s.sline home line).state = .dty
  turn : (s.sline home line).waiters = [] ∨ (s.sline home line).waiters.head? = some e
  alone : rcl = true → (s.sline home line).uo = 0
  sound : poisoned s line = false
  single : mixedHome s home line = false

/-- Every record that the slice keeps of the line lets an access of this scope and instance pass (R91). -/
def State.inScope (s : State) (home line scope inst : Nat) : Prop :=
  ∀ r ∈ (s.slice home).sync, r.line = line → contains scope inst r.scope r.inst = true

/-- The slice has answered part k of an operation, which is now as q says: its reply is on its way. -/
def State.answered (s : State) (id k : Nat) (q : Part → Prop) : Prop :=
  Instr.replyArrival ⟨id, k⟩ ∈ s.agenda ∧ ∃ o p, s.ops.find? id = some o ∧ o.parts[k]? = some p ∧ q p

/-- Memory after one lane's element of an atomic: its new value by R183 and R184. -/
def atomLane (cas : Bool) (fn ty size : Nat) (m : Memory) (a : Acc) : Memory :=
  m.putNat a.pa size
    (atomNew cas fn ty (m.nat a.pa size) (a.b.toNat % 2 ^ (8 * size)) (a.c.toNat % 2 ^ (8 * size)))

/-- The byte that lanes store at a physical address: the highest lane's, if one covers it (R154). -/
def storedByte (size : Nat) (lanes : List Acc) (a : Nat) : Option Byte :=
  ((lanes.filter (fun x => x.pa / 128 = a / 128 && x.pa ≤ a && a < x.pa + size)).getLast?).map (fun x =>
    (x.b2 ++ x.b).extractLsb' (8 * (a - x.pa)) 8)

/-- A request for several lines has its turn at each of them, each mapped through one home slice, and whatever is written into
them does not change that: none of them holds a page table that maps another (R59). -/
structure State.servedAll (s : State) (ls : List (Nat × Nat)) (e : Instr) : Prop where
  each : ∀ x ∈ ls, s.served x.1 x.2 true e
  one : ∀ x ∈ ls, ∀ y ∈ ls, x.2 = y.2 → x.1 = y.1
  steady : ∀ m : Memory, (∀ a, (∀ x ∈ ls, a / 128 ≠ x.2) → m.byte a = s.mem.byte a) →
    ∀ x ∈ ls, mixedHome { s with mem := m } x.1 x.2 = false

/-- The lines of the block that a request is for. -/
def blockLines (x : Trip) : List (Nat × Nat) := (List.range 128).map (fun k => (x.home, x.line + k))

/-- What some writes into the block of a line put at an address: the last one that covers it. -/
def editByte (first : Nat) (es : List Edit) (a : Nat) : Option Byte :=
  ((es.filter (fun e => 128 * first + e.off ≤ a && a < 128 * first + e.off + e.bytes.length)).getLast?).bind (fun e =>
    e.bytes[a - 128 * first - e.off]?)

/-- Event e of requester q writes these parts of an image, by one request for each block, each in its turn at the home slice
(R77, R85, R388). -/
structure State.writesImage (s : State) (e : Instr) (q : Requester) (core ctx : Nat) (rs : List Region) : Prop where
  leave : ∀ x, s.leaves e q (blockStops s e core ctx (regionBlocks rs)) x → ∃ t, exec e s = .next t ∧ s.left e q x t
  turn : ∀ x, s.comes e q (blockStops s e core ctx (regionBlocks rs)) x → s.servedAll (blockLines x) e →
    ∃ t, exec e s = .next t ∧ t.replies e x (fun y => y.bad = x.bad)
      ∧ ∀ a, t.mem.byte a = (editByte x.line
          (((regionBlocks rs).filter (fun b => blockStop s e core ctx b = some x.stop)).flatMap (regionEdits rs)) a).getD
            (s.mem.byte a)

/-- Event e of requester q reads these parts of an image, by one request for each block, which also writes the parts ws of the
block; another team's claim to the slot leaves what is read open (R388, R392). -/
structure State.readsImage (s : State) (e : Instr) (q : Requester) (core ctx : Nat) (rs : List (Dword × Nat)) (shared : Bool)
    (ws : List Region) : Prop where
  leave : ∀ x, s.leaves e q (blockStops s e core ctx (rs.flatMap (fun r => blocksOf r.1 r.2)).dedup) x →
    ∃ t, exec e s = .next t ∧ s.left e q x t
  turn : ∀ x, s.comes e q (blockStops s e core ctx (rs.flatMap (fun r => blocksOf r.1 r.2)).dedup) x →
    s.servedAll (blockLines x) e →
    let own := ((rs.flatMap (fun r => blocksOf r.1 r.2)).dedup).filter (fun b => blockStop s e core ctx b = some x.stop)
    ∃ t, exec e s = .next t
      ∧ t.replies e x (fun y => y.bad = false ∧ (shared = false → ∀ b ∈ own, ∀ r ∈ rs, ∀ i, i < 16384 →
          r.1.toNat ≤ b.toNat + i → b.toNat + i < r.1.toNat + r.2 → y.bytes[i]? = some (s.mem.byte (128 * x.line + i))))
      ∧ ∀ a, t.mem.byte a = (editByte x.line (own.flatMap (regionEdits ws)) a).getD (s.mem.byte a)

/-- A dispatcher's requests for what event e reads, and for the header of the pool that a launch record names: each leaves,
has its turn at its home slice, and brings its line (R319, R337, R388). -/
structure State.asks (s : State) (e : Instr) (die ctx : Nat) (va : Dword) (n : Nat) (record : Bool) : Prop where
  leave : ∀ x, s.leaves e (.command die) (readPlan s e die ctx va n record).stops x →
    ∃ t, exec e s = .next t ∧ s.left e (.command die) x t
  line : ∀ x, s.comes e (.command die) (readPlan s e die ctx va n record).stops x → x.stop.span = 1 →
    s.served x.home x.line true e → ∃ t, exec e s = .next t
      ∧ t.replies e x (fun y => y.data = s.mem.line x.line ∧ y.bad = false) ∧ ∀ a, t.mem.byte a = s.mem.byte a
  header : ∀ x, s.comes e (.command die) (readPlan s e die ctx va n record).stops x → x.stop.span ≠ 1 →
    s.servedAll [(x.home, x.line)] e → ∃ t, exec e s = .next t
      ∧ t.replies e x (fun y => y.bytes.take 128 = s.mem.read (128 * x.line) 128 ∧ y.bad = false)
      ∧ ∀ a, t.mem.byte a = s.mem.byte a

/-- Event e of a dispatcher may read n bytes: their pages are translated, and lie on this node. -/
structure State.mayRead (s : State) (e : Instr) (die ctx : Nat) (va : Dword) (n : Nat) (record : Bool)
    (ps : List (Phys × Nat)) : Prop where
  pinned : unpinned s e ctx (readPlan s e die ctx va n record).vas = []
  pages : readable s e (dispatchCore die) ctx va n = .ok ps
  local_ : ∀ x ∈ ps, x.1.tr.node = none

/-- The replies to all requests of event e have come, and give bs for the n bytes. -/
def State.reads (s : State) (e : Instr) (die ctx : Nat) (va : Dword) (n : Nat) (record : Bool) (bs : List Byte) : Prop :=
  ∃ ps, s.mayRead e die ctx va n record ps
    ∧ allBack (s.tripsOf e) (readPlan s e die ctx va n record).stops = true
    ∧ (∀ x ∈ s.tripsOf e, x.stop.span = 1 → x.bad = false) ∧ bs = piecesBytes {} (s.tripsOf e) ps

/-- The n bytes of event e cannot be read: a page fails its check, or a line holds an error that cannot be corrected (R58). -/
def State.readFails (s : State) (e : Instr) (die ctx : Nat) (va : Dword) (n : Nat) (record : Bool) : Prop :=
  (unpinned s e ctx ((readVas va n).map (·.1)) = [] ∧ ∃ f, readable s e (dispatchCore die) ctx va n = .error f)
    ∨ ∃ ps, s.mayRead e die ctx va n record ps
      ∧ allBack (s.tripsOf e) (readPlan s e die ctx va n record).stops = true
      ∧ ∃ x ∈ s.tripsOf e, x.stop.span = 1 ∧ x.bad = true

/-- The event tables of the dies hold n more events without an eviction (R330). -/
def State.roomForEvents (s : State) (n : Nat) : Prop := ∀ d, (s.die d).resident.length + n ≤ 4096

/-! ## Commands of the host (R367, R373, R374) -/

/-- The opcode of a command's record (R374). -/
def hostOpcode (e : Instr) : Nat :=
  match e with
  | .memoryReadVirtual _ _ _ _ | .memoryReadPhysical _ _ _ _ => 0x01
  | .memoryWriteVirtual _ _ _ _ | .memoryWritePhysical _ _ _ _ => 0x02
  | .kick _ _ _ _ => 0x03
  | .createContext _ => 0x10
  | .destroyContext _ _ => 0x11
  | .setRootTable _ _ _ => 0x12
  | .setEventCount _ _ _ _ => 0x13
  | .setRefinableSet _ _ _ _ _ => 0x14
  | .shootdown _ _ _ _ => 0x15
  | .grantContext _ _ _ => 0x16
  | .bindUserQueue _ _ _ _ _ => 0x20
  | .unbindUserQueue _ _ _ => 0x21
  | .resumeQueueRetry _ _ _ | .resumeQueueSkip _ _ _ => 0x22
  | .setHostEventRing _ _ _ _ => 0x30
  | .advanceReadIndex _ _ _ => 0x31
  | .assignNodeId _ _ => 0x50
  | .writeRouteTable _ _ _ _ => 0x51
  | .writeExport _ _ _ _ _ _ => 0x52
  | .streamReset _ _ => 0x53
  | .readForeignKickCounters _ => 0x54
  | _ => 0

/-- The context that a command acts on. -/
def hostContext (e : Instr) : Option Nat :=
  match e with
  | .memoryReadVirtual _ ctx _ _ | .memoryWriteVirtual _ ctx _ _ | .kick _ ctx _ _ | .destroyContext _ ctx
  | .setRootTable _ ctx _ | .setEventCount _ ctx _ _ | .setRefinableSet _ ctx _ _ _ | .shootdown _ ctx _ _
  | .grantContext _ ctx _ | .bindUserQueue _ ctx _ _ _ | .unbindUserQueue _ ctx _ | .resumeQueueRetry _ ctx _
  | .resumeQueueSkip _ ctx _ | .setHostEventRing _ ctx _ _ | .advanceReadIndex _ ctx _ => some ctx
  | _ => none

/-- The command may be given: not in recovery, by a privileged session if the command needs one, and, on a context, one
that exists and that the session holds (R367, R418). -/
structure State.mayGive (s : State) (c : Cmd) (e : Instr) : Prop where
  awake : s.recovery = false
  rank : privileged e = true → (s.sessions.find? c.session).map (·.priv) = some true
  live : ∀ ctx, hostContext e = some ctx → (s.context ctx).live = true
  held : ∀ ctx, hostContext e = some ctx → privileged e = false → c.session ∈ (s.context ctx).sessions

/-- The one reply of a command as it leaves on its stream: a DATA datagram with the record of R373. -/
def replyDatagram (c : Cmd) (x : Session) (opc status detail : Nat) (payload : List Byte) : Datagram :=
  let body := recordBytes (0x8000 + opc) status detail c.tag payload
  sealDatagram x.key { emptyDatagram x.src 5 c.session c.stream body with
    seq := BitVec.ofNat 64 (x.stream c.stream).outSeq, ackseq := BitVec.ofNat 64 (x.stream c.stream).inSeq }

/-- No TLB and no walk cache holds an entry of the context that meets the range (R70, R71). -/
structure State.unshot (s : State) (ctx base length : Nat) : Prop where
  cores : ∀ k, ∀ e ∈ (s.core k).tlb, shot ctx base length e.ctx (e.vpage * 2 ^ pageBits e.tr.level) (pageBits e.tr.level) = false
  dies : ∀ k, ∀ e ∈ (s.die k).tlb, shot ctx base length e.ctx (e.vpage * 2 ^ pageBits e.tr.level) (pageBits e.tr.level) = false
  walks : ∀ k, ∀ w ∈ (s.die k).walks, shot ctx base length w.1 (w.2.2.1 * 2 ^ pageBits (w.2.1 + 1)) (pageBits (w.2.1 + 1)) = false

/-! ## The invariant -/

/-- The invariant of every step: memory keeps its canonical form, so that equal memories are equal lists, and every
launch's window ring has a size that R199 allows. -/
structure State.Inv (s : State) : Prop where
  memory : s.mem.wf = true
  rings : ∀ e ∈ s.launches, 64 ≤ e.2.desc.ring ∧ e.2.desc.ring ≤ 512 ∧ e.2.desc.ring % 32 = 0

end Sys2Proof.Machine
end

