-- ==== Sys2Proof/Certificates/Slice0/Obligations.lean ====
section
/-! DEFINITION. The statements about the machine that the provers prove. -/

open Sys2Proof Sys2Proof.Machine

/-! ## Encoding -/

/-- Tier 3. Decoding the encoding of a well-formed instruction gives it back, with every operand at every value that the
encoding allows. -/
def Obligations.DecodeEncodeRoundTrip : Prop :=
  ∀ i : Instr, i.wellFormed = true → i.isWord = true → ∃ w, encode i = some w ∧ decode w = .ok i

/-- Tier 2. A word that decodes is the encoding of its instruction, and that instruction is well formed: no two words
decode to one instruction. -/
def Obligations.DecodeOnlyItsOwnWord : Prop :=
  ∀ (w : InstrWord) (i : Instr), decode w = .ok i → encode i = some w ∧ i.wellFormed = true ∧ i.isWord = true

/-! ## Format V -/

/-- Tier 2. R248, R254, R228, R246: element by element, an integer instruction writes the exact result of its operands
after MOD, wrapped or with SAT clamped; it writes nothing else and goes on at the next instruction. -/
def Obligations.IntegerElements : Prop :=
  ∀ (s : State) (c : Cx) (i : Instr) (m : Mask) (op : Nat) (f : VF) (b : Nat → Nat)
    (g : Nat → Bool → Int → Int → Int → Int),
    intResult i = some (op, f, g) → i.wellFormed = true → s.Inv → s.ready c i m → s.bValues c op f = some b →
    ∃ (t : State) (w : Warp) (r : Nat → Nat),
      exec i s = .next t
        ∧ Wrote c pcNext (c.pregs f.d.toNat (tyWords f.ty.toNat)) [] s t w
        ∧ c.took w f.d.toNat (tyWords f.ty.toNat) (f.ty = 1) m r
        ∧ ∀ l, m.getLsbD l = true → ∀ e, e < (intShape f.ty.toNat).1 →
            let n := (intShape f.ty.toNat).2.1
            let sg := (intShape f.ty.toNat).2.2
            let x := asInt n sg (elemAt n (readReg s c f.a.toNat (tyWords f.ty.toNat) l) e)
            let y := asInt n sg (elemAt n (b l) e)
            let z := asInt n sg (elemAt n (readReg s c f.c.toNat (tyWords f.ty.toNat) l) e)
            elemAt n (r l) e
              = settled n sg f.sat
                  (g n sg (moded (f.mod.getLsbD 1) (f.mod.getLsbD 0) x) (moded (f.mod.getLsbD 3) (f.mod.getLsbD 2) y) z)

/-- Tier 2. R248 and R250 to R253: MOV, IMADW, IDOT4, LOP3, SHL, SHR, SHA, ROT, FSHF, BFE, BFI, POPC, CLZ and BREV complete
wherever their split is ready to issue and their operand B is there: each executing lane's result is the one of its table
row, which fixes every bit of it; nothing else is written, and the split goes on at the next instruction. That IDOT4's MOD
acts on the bytes that it reads as signed (R246) is the model's choice (log entry 14), and so is its immediate, formed by
TY (log entry 109). -/
def Obligations.BitResults : Prop :=
  ∀ (s : State) (c : Cx) (i : Instr) (m : Mask) (op : Nat) (f : VF) (b : Nat → Nat) (g : Nat → Nat → Nat → Nat → Prop),
    bitResult i = some (op, f, g) → i.wellFormed = true → s.Inv → s.ready c i m → s.bValues c op f = some b →
    ∃ (t : State) (w : Warp) (r : Nat → Nat),
      exec i s = .next t
        ∧ Wrote c pcNext (c.pregs f.d.toNat (vWords op f).1) [] s t w
        ∧ c.took w f.d.toNat (vWords op f).1 (f.ty = 1 ∧ (op = 0x1F ∨ op = 0x26)) m r
        ∧ ∀ l, m.getLsbD l = true →
            r l < 2 ^ (32 * (vWords op f).1)
              ∧ g (readReg s c f.a.toNat (vWords op f).2.1 l) (b l) (readReg s c f.c.toNat (vWords op f).2.2 l) (r l)

/-- Tier 2. R50 and R248: MOVI writes its long immediate, and SEL its first source in the lanes of predicate C and its
second in the others. -/
def Obligations.MoviSel : Prop :=
  (∀ (s : State) (c : Cx) (f : VF) (m : Mask), s.Inv → s.ready c (.movi f) m →
    (Instr.movi f).wellFormed = true →
    ∃ (t : State) (w : Warp), exec (.movi f) s = .next t
      ∧ Wrote c pcNext (c.pregs f.d.toNat (tyWords f.ty.toNat)) [] s t w
      ∧ c.took w f.d.toNat (tyWords f.ty.toNat) (f.ty = 1) m (fun _ => longImmediate f))
  ∧ ∀ (s : State) (c : Cx) (f : VF) (m : Mask) (b : Nat → Nat), s.Inv → s.ready c (.sel f) m →
    s.bValues c 0x12 f = some b →
    ∃ (t : State) (w : Warp) (r : Nat → Nat), exec (.sel f) s = .next t
      ∧ Wrote c pcNext (c.pregs f.d.toNat (tyWords f.ty.toNat)) [] s t w
      ∧ c.took w f.d.toNat (tyWords f.ty.toNat) false m r
      ∧ ((isS f.d.toNat = false ∨ ∀ l k, m.getLsbD l = true → m.getLsbD k = true →
            (c.warp.pred f.c.toNat).getLsbD l = (c.warp.pred f.c.toNat).getLsbD k) →
          ∀ l, m.getLsbD l = true → r l
            = if (c.warp.pred f.c.toNat).getLsbD l then readReg s c f.a.toNat (tyWords f.ty.toNat) l else b l)

/-- Tier 2. R249: IADDC and ISUBB add or subtract with the carry of predicate pI and put the carry out into pO. Into an
s register they execute once, and only where the executing lanes agree on pI; otherwise they trap with the mask of the
lanes that differ from the lowest one, before operand B is read; a vector source into an s register is an illegal operand. -/
def Obligations.CarryChains : Prop :=
  (∀ (s : State) (c : Cx) (f : VF) (m : Mask) (b : Nat → Nat) (sub : Bool),
      let i : Instr := if sub then .isubb f else .iaddc f
      let op := if sub then 0x16 else 0x15
      let n := wide f.ty.toNat
      let pI := f.c.toNat % 8
      let pO := f.c.toNat / 8
      let total : Nat → Int := fun l =>
        if sub then (readReg s c f.a.toNat (n / 32) l : Int) - b l - ((c.warp.pred pI).getLsbD l).toNat
        else (readReg s c f.a.toNat (n / 32) l : Int) + b l + ((c.warp.pred pI).getLsbD l).toNat
      let differ := disagree m (fun l => (c.warp.pred pI).getLsbD l)
      i.wellFormed = true → s.Inv → s.ready c i m →
      ((isS f.d.toNat = false ∨ differ = 0) → s.bValues c op f = some b →
        ∃ (t : State) (w : Warp), exec i s = .next t
          ∧ Wrote c pcNext (c.pregs f.d.toNat (n / 32)) [pO] s t w
          ∧ c.took w f.d.toNat (n / 32) (f.ty = 1) m (fun l => (total l % 2 ^ n).toNat)
          ∧ ∀ low, lowLane m = some low →
              c.flagged w pO m (fun l =>
                let x := total (if isS f.d.toNat then low else l)
                if sub then x < 0 else 2 ^ n ≤ x))
      ∧ ((isS f.d.toNat = true ∧ differ ≠ 0) →
        exec i s = .next (raiseTrap c.ref ⟨1, 2, 0, differ, 0, c.path.pc⟩ s)))
    ∧ ∀ (s : State) (c : Cx) (f : VF) (i : Instr), (i = .iaddc f ∨ i = .isubb f) →
      (i.wellFormed = true → f.c.toNat < 64)
      ∧ (s.issuing c → isS f.d.toNat = true →
        (isVector f.a.toNat = true ∨ f.bk = 0 ∧ isVector f.b.toNat = true) →
        exec i s = .next (raiseTrap c.ref ⟨1, 2, 0, 0, 0, c.path.pc⟩ s))

/-- Tier 2. R255, R246, R227: element by element, a floating-point instruction marked "one rounding" writes the rounded
exact result of its operands, read after MOD with FTZ, in the rounding mode in force. -/
def Obligations.FloatElements : Prop :=
  ∀ (s : State) (c : Cx) (i : Instr) (m : Mask) (op : Nat) (f : VF) (b : Nat → Nat)
    (g : Fmt → Nat → Bool → FV → FV → FV → Nat),
    fltResult i = some (op, f, g) → i.wellFormed = true → s.Inv → s.ready c i m → s.bValues c op f = some b →
    ∃ (t : State) (w : Warp) (r : Nat → Nat),
      exec i s = .next t
        ∧ Wrote c pcNext (c.pregs f.d.toNat (tyWords f.ty.toNat)) [] s t w
        ∧ c.took w f.d.toNat (tyWords f.ty.toNat) false m r
        ∧ ∀ l, m.getLsbD l = true → ∀ e, e < (fltShape f.ty.toNat).1 →
            let fm := (fltShape f.ty.toNat).2
            let z := c.warp.ftz
            let md := if f.rm.toNat = 5 then c.warp.rmode.toNat else f.rm.toNat
            let x := elemAt fm.width (readReg s c f.a.toNat (tyWords f.ty.toNat) l) e
            let y := elemAt fm.width (b l) e
            let v := elemAt fm.width (readReg s c f.c.toNat (tyWords f.ty.toNat) l) e
            elemAt fm.width (r l) e
              = g fm md z (fm.read z (modedBits fm (f.mod.getLsbD 1) (f.mod.getLsbD 0) x))
                  (fm.read z (modedBits fm (f.mod.getLsbD 3) (f.mod.getLsbD 2) y)) (fm.read z v) % 2 ^ fm.width

/-- Tier 2. R255 to R257: FMIN, FMAX and the approximate functions by element, and FSCALE and FCLASS. FSCALE of a finite
number is its product with the power of two, rounded once, for every count; an infinity stays and a NaN becomes the
canonical one. -/
def Obligations.FloatBitResults : Prop :=
  (∀ (s : State) (c : Cx) (i : Instr) (m : Mask) (op : Nat) (f : VF) (b : Nat → Nat) (g : Fmt → Bool → Nat → Nat → Nat),
    fltBitsResult i = some (op, f, g) → i.wellFormed = true → s.Inv → s.ready c i m → s.bValues c op f = some b →
    ∃ (t : State) (w : Warp) (r : Nat → Nat),
      exec i s = .next t
        ∧ Wrote c pcNext (c.pregs f.d.toNat (tyWords f.ty.toNat)) [] s t w
        ∧ c.took w f.d.toNat (tyWords f.ty.toNat) false m r
        ∧ ∀ l, m.getLsbD l = true → ∀ e, e < (fltShape f.ty.toNat).1 →
            let fm := (fltShape f.ty.toNat).2
            elemAt fm.width (r l) e
              = g fm c.warp.ftz
                  (modedBits fm (f.mod.getLsbD 1) (f.mod.getLsbD 0)
                    (elemAt fm.width (readReg s c f.a.toNat (tyWords f.ty.toNat) l) e))
                  (modedBits fm (f.mod.getLsbD 3) (f.mod.getLsbD 2) (elemAt fm.width (b l) e)) % 2 ^ fm.width)
  ∧ (∀ (s : State) (c : Cx) (f : VF) (m : Mask) (b : Nat → Nat), (Instr.fclass f).wellFormed = true →
    s.Inv → s.ready c (.fclass f) m → s.bValues c 0x40 f = some b →
    ∃ (t : State) (w : Warp), exec (.fclass f) s = .next t
      ∧ Wrote c pcNext (c.pregs f.d.toNat 1) [] s t w
      ∧ c.took w f.d.toNat 1 false m (fun l => 2 ^ classBit (fltShape f.ty.toNat).2
          (modedBits (fltShape f.ty.toNat).2 (f.mod.getLsbD 1) (f.mod.getLsbD 0)
            (readReg s c f.a.toNat (tyWords f.ty.toNat) l))))
  ∧ ∀ (s : State) (c : Cx) (f : VF) (m : Mask) (b : Nat → Nat), (Instr.fscale f).wellFormed = true →
    s.Inv → s.ready c (.fscale f) m → s.bValues c 0x3F f = some b →
    ∃ (t : State) (w : Warp) (r : Nat → Nat), exec (.fscale f) s = .next t
      ∧ Wrote c pcNext (c.pregs f.d.toNat (tyWords f.ty.toNat)) [] s t w
      ∧ c.took w f.d.toNat (tyWords f.ty.toNat) false m r
      ∧ ∀ l, m.getLsbD l = true →
          let fm := (fltShape f.ty.toNat).2
          let k := (BitVec.ofNat 32 (b l)).toInt
          let x := fm.read c.warp.ftz (modedBits fm (f.mod.getLsbD 1) (f.mod.getLsbD 0)
            (readReg s c f.a.toNat (tyWords f.ty.toNat) l))
          (∀ neg q e, x = .fin neg q e →
            r l = fm.encode (if f.rm.toNat = 5 then c.warp.rmode.toNat else f.rm.toNat) f.sat c.warp.ftz
              (.fin neg q (e + k)))
          ∧ (∀ neg, x = .inf neg → r l = fm.signBit neg + fm.infBits)
          ∧ (x = .nan → r l = fm.nan)

/-- Tier 2. R258 to R260, R234: CVT, PACK and UNPACK convert each value with one rounding; PACK keeps the elements of C
that it does not write. That PACK's MOD acts on its sources as read in their own type is the model's choice (log entry
14). -/
def Obligations.Conversions : Prop :=
  ∀ (s : State) (c : Cx) (f : VF) (m : Mask) (b : Nat → Nat), s.Inv →
    ((Instr.cvt f).wellFormed = true → s.ready c (.cvt f) m → s.bValues c 0x42 f = some b →
      ∃ (t : State) (w : Warp) (r : Nat → Nat), exec (.cvt f) s = .next t
        ∧ Wrote c pcNext (c.pregs f.d.toNat (tyWords f.ty.toNat)) [] s t w
        ∧ c.took w f.d.toNat (tyWords f.ty.toNat) (f.ty = 1) m r
        ∧ ∀ l, m.getLsbD l = true →
            let a := readReg s c f.a.toNat (tyWords (f.fn.toNat % 16)) l
            let md := if f.rm.toNat = 5 then c.warp.rmode.toNat else f.rm.toNat
            (∀ st dt : NTy, elems (f.fn.toNat % 16) = (1, st) → elems f.ty.toNat = (1, dt) →
              r l = convert dt md
                (f.sat && (match st, dt with | .int w _, .int w' _ => decide (w' ≤ w) | _, _ => true)) c.warp.ftz
                (match st with
                  | .int w sg => .i (moded (f.mod.getLsbD 1) (f.mod.getLsbD 0) (asInt w sg a))
                  | .flt fm => .f (fm.read c.warp.ftz (modedBits fm (f.mod.getLsbD 1) (f.mod.getLsbD 0) a)))))
    ∧ ((Instr.pack f).wellFormed = true → s.ready c (.pack f) m → s.bValues c 0x43 f = some b →
      ∃ (t : State) (w : Warp) (r : Nat → Nat), exec (.pack f) s = .next t
        ∧ Wrote c pcNext (c.pregs f.d.toNat 1) [] s t w ∧ c.took w f.d.toNat 1 false m r
        ∧ ∀ l, m.getLsbD l = true →
            let n := (elems f.ty.toNat).1
            let wd := (elems f.ty.toNat).2.width
            let md := if f.rm.toNat = 5 then c.warp.rmode.toNat else f.rm.toNat
            let cv : Bool → Bool → Nat → Nat := fun ab ng v => convert (elems f.ty.toNat).2 md f.sat c.warp.ftz
              (match (elems (f.fn.toNat % 16)).2 with
                | .int w sg => .i (moded ab ng (asInt w sg v))
                | .flt fm => .f (fm.read c.warp.ftz (modedBits fm ab ng v))) % 2 ^ wd
            let first := if n = 4 && f.fn.getLsbD 4 then 2 else 0
            ∀ e, e < n → elemAt wd (r l) e
              = if e = first then cv (f.mod.getLsbD 1) (f.mod.getLsbD 0) (readReg s c f.a.toNat 1 l)
                else if e = first + 1 then cv (f.mod.getLsbD 3) (f.mod.getLsbD 2) (b l)
                else elemAt wd (readReg s c f.c.toNat 1 l) e)
    ∧ ((Instr.unpack f).wellFormed = true → s.ready c (.unpack f) m → s.bValues c 0x44 f = some b →
      ∃ (t : State) (w : Warp) (r : Nat → Nat), exec (.unpack f) s = .next t
        ∧ Wrote c pcNext (c.pregs f.d.toNat 1) [] s t w ∧ c.took w f.d.toNat 1 (f.fn.toNat % 16 = 1) m r
        ∧ ∀ l, m.getLsbD l = true →
            let x := elemAt (elems f.ty.toNat).2.width (readReg s c f.a.toNat 1 l) (f.fn.toNat / 16)
            (∀ w sg, (elems f.ty.toNat).2 = .int w sg → r l = (asInt w sg x % 2 ^ 32).toNat)
              ∧ ∀ fm, (elems f.ty.toNat).2 = .flt fm → r l = fmtF32.encode 0 false c.warp.ftz (fm.read c.warp.ftz x))

/-- Tier 2. R229: rounding to a grid takes one of the two neighbours of the value m × 2^−k: the smaller magnitude by RTZ,
the larger or smaller number by RUP and RDN, and the nearer by RNE and RNA, a tie going to the even or to the larger
magnitude. -/
def Obligations.RoundGridNeighbours : Prop :=
  ∀ (mode : Nat) (neg : Bool) (m k : Nat), mode ≤ 4 →
    let q := roundGrid mode neg m 0 false (k : Int)
    (m % 2 ^ k = 0 → q * 2 ^ k = m)
      ∧ (mode = 1 → q = m / 2 ^ k)
      ∧ (mode = 2 → if neg then q = m / 2 ^ k else m ≤ q * 2 ^ k ∧ q * 2 ^ k < m + 2 ^ k)
      ∧ (mode = 3 → if neg then m ≤ q * 2 ^ k ∧ q * 2 ^ k < m + 2 ^ k else q = m / 2 ^ k)
      ∧ (mode = 0 ∨ mode = 4 → 2 * m ≤ 2 * (q * 2 ^ k) + 2 ^ k ∧ 2 * (q * 2 ^ k) ≤ 2 * m + 2 ^ k)
      ∧ (0 < k → 2 * (m % 2 ^ k) = 2 ^ k → (mode = 0 → q % 2 = 0) ∧ (mode = 4 → q = m / 2 ^ k + 1))

/-- Tier 2. R225, R229, R234: a value that a format represents is unchanged by a conversion to it, whatever the mode and
SAT; every NaN becomes the canonical NaN. -/
def Obligations.EncodeOfDecode : Prop :=
  ∀ (fm : Fmt), fm ∈ [fmtF64, fmtF32, fmtF16, fmtBF16, fmtE4M3, fmtE5M2] →
    ∀ (mode : Nat) (sat : Bool) (x : Nat), x < 2 ^ fm.width →
      fm.encode mode sat false (fm.decode x) = if (fm.decode x).isNaN then fm.nan else x

/-- Tier 3. R256: the special values of the approximate functions, for every NaN, infinity and zero, and for negative
operands of FRSQ and FLOG2. R256, R233: for every other operand, the result is within the function's bound of the exact
value, a real number: 1 ulp for FRSQ, 2 for FEXP2, FTANH and, outside 0.5 to 2, FLOG2; an absolute 2^−22 for FLOG2 inside,
and for FSIN and FCOS up to 2^16, beyond which the result lies in [−1, 1]. FEXP2 of an integer and FLOG2 of a power of two
are exact. With FTZ a subnormal result is written as a zero, FEXP2's as +0. -/
def Obligations.ApproxSpecialValues : Prop :=
  (∀ (fm : Fmt) (z : Bool) (x : Nat), (fm = fmtF32 ∨ fm = fmtF64) → x < 2 ^ fm.width →
    (∀ fn, fn < 6 → (fm.decode x).isNaN = true → approxFn fn fm z x = fm.nan)
      ∧ (fm.read z x = .inf false →
          approxFn 0 fm z x = 0 ∧ approxFn 1 fm z x = fm.infBits ∧ approxFn 2 fm z x = fm.infBits
            ∧ approxFn 3 fm z x = fm.nan ∧ approxFn 4 fm z x = fm.nan ∧ approxFn 5 fm z x = fm.bias * 2 ^ fm.fbits)
      ∧ (fm.read z x = .inf true →
          approxFn 0 fm z x = fm.nan ∧ approxFn 1 fm z x = 0 ∧ approxFn 2 fm z x = fm.nan ∧ approxFn 3 fm z x = fm.nan
            ∧ approxFn 4 fm z x = fm.nan ∧ approxFn 5 fm z x = 2 ^ (fm.width - 1) + fm.bias * 2 ^ fm.fbits)
      ∧ (∀ n e, fm.read z x = .fin n 0 e →
          approxFn 0 fm z x = fm.signBit n + fm.infBits ∧ approxFn 1 fm z x = fm.bias * 2 ^ fm.fbits
            ∧ approxFn 2 fm z x = 2 ^ (fm.width - 1) + fm.infBits ∧ approxFn 3 fm z x = fm.signBit n
            ∧ approxFn 4 fm z x = fm.bias * 2 ^ fm.fbits ∧ approxFn 5 fm z x = fm.signBit n)
      ∧ (∀ k e, fm.read z x = .fin true (k + 1) e → approxFn 0 fm z x = fm.nan ∧ approxFn 2 fm z x = fm.nan))
  ∧ (∀ (fm : Fmt) (z : Bool) (x : Nat) (a : ℝ), (fm = fmtF32 ∨ fm = fmtF64) → x < 2 ^ fm.width → (fm.read z x).stands a →
      0 < a → fm.gives z (approxFn 0 fm z x) (fm.withinUlp 1 (1 / Real.sqrt a)))
  ∧ ∀ (z : Bool) (x : Nat) (a : ℝ), x < 2 ^ 32 → (fmtF32.read z x).stands a → a ≠ 0 →
      let f := fmtF32
      f.gives z (approxFn 1 f z x) (f.withinUlp 2 ((2 : ℝ) ^ a))
        ∧ (∀ k : Int, a = k → -149 ≤ k → k ≤ 127 → f.gives z (approxFn 1 f z x) (fun v => v.stands ((2 : ℝ) ^ k)))
        ∧ (z = true → approxFn 1 f z x % 2 ^ 31 < 2 ^ 23 → approxFn 1 f z x = 0)
        ∧ (0 < a → (a < 1 / 2 ∨ 2 < a) → f.gives z (approxFn 2 f z x) (f.withinUlp 2 (Real.logb 2 a)))
        ∧ (1 / 2 ≤ a → a ≤ 2 → f.gives z (approxFn 2 f z x) (FV.within (2 ^ (-22 : Int)) (Real.logb 2 a)))
        ∧ (∀ k : Int, a = (2 : ℝ) ^ k → f.gives z (approxFn 2 f z x) (fun v => v.stands k))
        ∧ (|a| ≤ 2 ^ 16 → f.gives z (approxFn 3 f z x) (FV.within (2 ^ (-22 : Int)) (Real.sin a)))
        ∧ (|a| ≤ 2 ^ 16 → f.gives z (approxFn 4 f z x) (FV.within (2 ^ (-22 : Int)) (Real.cos a)))
        ∧ (2 ^ 16 < |a| → f.gives z (approxFn 3 f z x) (FV.within 1 0) ∧ f.gives z (approxFn 4 f z x) (FV.within 1 0))
        ∧ f.gives z (approxFn 5 f z x) (f.withinUlp 2 (Real.tanh a))

/-- Tier 2. R261 to R263: what SETP, PLOP and VOTE write, and that they write nothing else. -/
def Obligations.PredicateResults : Prop :=
  ∀ (s : State) (c : Cx) (f : VF) (m : Mask),
    (∀ b, (Instr.setp f).wellFormed = true → s.ready c (.setp f) m → s.bValues c 0x50 f = some b →
      ∃ (t : State) (w : Warp) (r : Nat → Bool), exec (.setp f) s = .next t ∧ Wrote c pcNext [] [f.d.toNat] s t w
        ∧ c.flagged w f.d.toNat m r
        ∧ ∀ l, m.getLsbD l = true →
            (∀ n sg, elems f.ty.toNat = (1, .int n sg) →
              let x := moded (f.mod.getLsbD 1) (f.mod.getLsbD 0) (asInt n sg (readReg s c f.a.toNat (n / 32) l))
              let y := moded (f.mod.getLsbD 3) (f.mod.getLsbD 2) (asInt n sg (b l))
              r l = (match f.fn.toNat with
                | 0 => decide (x = y) | 1 => decide (x ≠ y) | 2 => decide (x < y) | 3 => decide (x ≤ y)
                | 4 => decide (x > y) | _ => decide (x ≥ y)))
            ∧ ∀ fm, elems f.ty.toNat = (1, .flt fm) →
              let x := fm.read c.warp.ftz (modedBits fm (f.mod.getLsbD 1) (f.mod.getLsbD 0)
                (readReg s c f.a.toNat (fm.width / 32) l))
              let y := fm.read c.warp.ftz (modedBits fm (f.mod.getLsbD 3) (f.mod.getLsbD 2) (b l))
              let nan := x.isNaN || y.isNaN
              let ifnan := f.fn.getLsbD 3
              r l = (match f.fn.toNat % 8 with
                | 0 => if nan then ifnan else x.eqNum y
                | 1 => nan || !x.eqNum y
                | 2 => if nan then ifnan else x.ltNum y && !x.eqNum y
                | 3 => if nan then ifnan else x.ltNum y || x.eqNum y
                | 4 => if nan then ifnan else y.ltNum x && !x.eqNum y
                | 5 => if nan then ifnan else y.ltNum x || x.eqNum y
                | 6 => !nan
                | _ => nan))
    ∧ (s.ready c (.plop f) m →
      ∃ (t : State) (w : Warp), exec (.plop f) s = .next t ∧ Wrote c pcNext [] [f.d.toNat] s t w
        ∧ c.flagged w f.d.toNat m (fun l => (f.mod ++ BitVec.ofBool f.sat ++ f.rm).getLsbD
            (((c.warp.pred f.a.toNat).getLsbD l).toNat + 2 * ((c.warp.pred f.b.toNat).getLsbD l).toNat
              + 4 * ((c.warp.pred f.c.toNat).getLsbD l).toNat)))
    ∧ ((Instr.vote f).wellFormed = true → s.Inv → s.ready c (.vote f) m →
      let p := c.warp.pred f.a.toNat
      (f.fn.toNat < 3 → ∃ (t : State) (w : Warp), exec (.vote f) s = .next t ∧ Wrote c pcNext [] [f.d.toNat] s t w
        ∧ c.flagged w f.d.toNat m (fun _ =>
            if f.fn = 0 then m &&& ~~~p = 0
            else if f.fn = 1 then m &&& p ≠ 0
            else m &&& ~~~p = 0 ∨ m &&& p = 0))
      ∧ (f.fn = 3 → ∃ (t : State) (w : Warp), exec (.vote f) s = .next t
        ∧ Wrote c pcNext (c.pregs f.d.toNat 2) [] s t w ∧ c.took w f.d.toNat 2 false m (fun _ => (p &&& m).toNat))
      ∧ (f.fn = 4 → ∃ (t : State) (w : Warp), exec (.vote f) s = .next t
        ∧ Wrote c pcNext (c.pregs f.d.toNat 1) [] s t w
        ∧ c.took w f.d.toNat 1 false m (fun _ =>
            ((List.range 64).filter (fun l => p.getLsbD l && m.getLsbD l)).length)))

/-- Tier 2. R264: SHFL reads every source before it writes: each participating lane takes the value of its source lane
where that is in range and participates, and its own otherwise, and the validity predicate says which. An s register as its destination is an
illegal operand. -/
def Obligations.Shuffle : Prop :=
  (∀ (s : State) (c : Cx) (f : VF) (m : Mask) (b : Nat → Nat), s.Inv → s.ready c (.shfl f) m →
      s.bValues c 0x53 f = some b →
      let off : Nat → Int := fun l => (BitVec.ofNat 8 (b l)).toInt
      let src : Nat → Int := fun l => match f.fn.toNat with
        | 0 => b l
        | 1 => l + off l
        | 2 => ((l ^^^ b l : Nat) : Int)
        | _ => (l + off l) % c.lanes
      let valid : Nat → Bool := fun l => 0 ≤ src l && src l < c.lanes && m.getLsbD (src l).toNat
      ∃ (t : State) (w : Warp), exec (.shfl f) s = .next t
        ∧ Wrote c pcNext (c.pregs f.d.toNat (tyWords f.ty.toNat)) [f.c.toNat] s t w
        ∧ c.took w f.d.toNat (tyWords f.ty.toNat) false m
            (fun l => readReg s c f.a.toNat (tyWords f.ty.toNat) (if valid l then (src l).toNat else l))
        ∧ c.flagged w f.c.toNat m valid)
    ∧ ∀ (s : State) (c : Cx) (f : VF),
      ((Instr.shfl f).wellFormed = true → f.fn.toNat < 4 ∧ (f.ty = 0 ∨ f.ty = 4) ∧ f.c.toNat < 8)
      ∧ (s.issuing c → isS f.d.toNat = true →
        exec (.shfl f) s = .next (raiseTrap c.ref ⟨1, 2, 0, 0, 0, c.path.pc⟩ s))

/-- Tier 2. R265: WRED writes the combination of the participating lanes' values in ascending lane order; WSCAN writes
each lane the combination up to it, or, in the exclusive form, up to the lane before it, the identity first. That MOD acts
on the value of each lane is the model's choice (log entry 14). -/
def Obligations.ReduceAndScan : Prop :=
  ∀ (s : State) (c : Cx) (f : VF) (m : Mask), s.Inv →
    let n := tyWords f.ty.toNat
    let md := if f.rm.toNat = 5 then c.warp.rmode.toNat else f.rm.toNat
    let red := reduceBits (f.fn.toNat % 16) f.ty.toNat md c.warp.ftz f.sat (f.mod.getLsbD 1) (f.mod.getLsbD 0)
    ((Instr.wred f).wellFormed = true → s.ready c (.wred f) m →
      ∃ (t : State) (w : Warp), exec (.wred f) s = .next t ∧ Wrote c pcNext (c.pregs f.d.toNat n) [] s t w
        ∧ c.took w f.d.toNat n (f.ty = 1) m (fun _ => red (s.prefixBits c f m 63)))
    ∧ ((Instr.wscan f).wellFormed = true → s.ready c (.wscan f) m →
      ∃ (t : State) (w : Warp), exec (.wscan f) s = .next t ∧ Wrote c pcNext (c.pregs f.d.toNat n) [] s t w
        ∧ c.took w f.d.toNat n (f.ty = 1) m (fun l =>
            if f.fn.getLsbD 5 then
              if lowLane m = some l then identityBits (f.fn.toNat % 16) f.ty.toNat
              else red (s.prefixBits c f m (l - 1))
            else red (s.prefixBits c f m l)))

/-- Tier 2. R266: XSHFL waits while an earlier exchange of its warp is open; otherwise it raises the exchange count of
each participating lane by one, empties its destination and posts each lane's value. -/
def Obligations.ExchangeStarts : Prop :=
  ∀ (s : State) (c : Cx) (f : VF) (m : Mask), s.ready c (.xshfl f) m →
    (openXshfl s c.wref = none →
      ∃ (t : State) (o : Op) (w : Warp), exec (.xshfl f) s = .next t ∧ Started c pcNext o [] [] s t w
        ∧ o.kind = .xshfl ∧ o.dests = c.pregs f.d.toNat (tyWords f.ty.toNat)
        ∧ o.lanes.map (fun a => (a.lane, a.b.toNat))
            = (lanesOf m).map (fun l => (l, readReg s c f.a.toNat (tyWords f.ty.toNat) l))
        ∧ (∀ l, l < 64 → w.xchg.get 0 l = c.warp.xchg.get 0 l + (if m.getLsbD l then 1 else 0))
        ∧ (∀ a ∈ o.lanes, a.c = BitVec.ofNat 64 (w.xchg.get 0 a.lane))
        ∧ t.agenda = s.agenda ++ (lanesOf m).map (fun l => .xshflPosting s.nextOp l))
    ∧ ((openXshfl s c.wref).isSome = true → exec (.xshfl f) s = .next (stall c s))

/-- Tier 2. R33, R34: the value of operand B as a register, as an immediate of its type, and as words of a constant
window that the constant cache holds; that IDOT4 forms its immediate by TY is the model's choice (log entry 109). R34,
R146: of every instruction of format V with an operand B, one whose constant word lies at or beyond its window's size takes
the constant-window fault with the word's address; one whose line the constant cache does not hold waits for the line; a
64-bit operand at an odd offset is an illegal operand. An IADDC or ISUBB whose lanes differ in its carry traps before
that. -/
def Obligations.OperandB : Prop :=
  (∀ (s : State) (c : Cx) (op : Nat) (f : VF) (sp : VSpec), vSpec op = some sp → sp.b = .reg →
     (f.bk = 0 → s.bValues c op f = some (fun l => readReg s c f.b.toNat (tyWords (bType sp f)) l))
     ∧ (f.bk = 1 → s.bValues c op f = some (fun _ => match bType sp f with
         | 0 | 1 => (f.w.signExtend 32).toNat
         | 2 | 6 => f.w.toNat
         | 3 => (f.w ++ 0#12).toNat
         | 4 | 5 => (f.w.signExtend 64).toNat
         | 7 => (f.w ++ 0#44).toNat
         | 8 | 9 | 10 | 11 => (f.w.setWidth 16 ++ f.w.setWidth 16).toNat
         | _ => (f.w.setWidth 8 ++ f.w.setWidth 8 ++ f.w.setWidth 8 ++ f.w.setWidth 8).toNat))
     ∧ (f.bk = 2 →
         let win := (f.w.extractLsb' 17 3).toNat
         let off := (f.w.extractLsb' 0 17).toNat
         let va := (c.launch.desc.cwBase.getD win 0).toNat + 4 * off
         ∀ l, off + tyWords (bType sp f) ≤ c.launch.desc.cwSize.getD win 0 →
           (s.core c.core).constFind c.ctx (va / 128) = some l →
           s.bValues c op f = some (fun _ =>
             (l.data >>> (8 * (va % 128))).toNat % 2 ^ (32 * tyWords (bType sp f)))))
    ∧ (∀ (s : State) (c : Cx) (i : Instr) (m : Mask) (op : Nat) (f : VF) (sp : VSpec),
         fieldsOf i = some (.v op f) → vSpec op = some sp → sp.b = .reg → f.bk = 2 → s.ready c i m →
         (op = 0x15 ∨ op = 0x16 → isS f.d.toNat = false
           ∨ disagree m (fun l => (c.warp.pred (f.c.toNat % 8)).getLsbD l) = 0) →
         let win := (f.w.extractLsb' 17 3).toNat
         let off := (f.w.extractLsb' 0 17).toNat
         let size := c.launch.desc.cwSize.getD win 0
         let va := (c.launch.desc.cwBase.getD win 0).toNat + 4 * off
         (size < off + tyWords (bType sp f) →
           exec i s = .next (raiseTrap c.ref ⟨3, 11, BitVec.ofNat 64 va, m, 0, c.path.pc⟩ s))
         ∧ (off + tyWords (bType sp f) ≤ size → (s.core c.core).constFind c.ctx (va / 128) = none →
           let line := BitVec.ofNat 64 (128 * (va / 128))
           (s.mapped c [line] →
             ∃ t sp', exec i s = .next t ∧ t.split? c.ref = some sp' ∧ sp'.path = c.path ∧ sp'.wait = .line
               ∧ t.agenda = s.agenda ++ [.constLineFetch c.ref (va / 128)] ∧ ∀ a, t.mem.byte a = s.mem.byte a)
           ∧ (¬ s.mapped c [line] → ∃ t, exec i s = .next t ∧ Walks c [line] s t)))
    ∧ ∀ (s : State) (c : Cx) (i : Instr) (op : Nat) (f : VF) (sp : VSpec),
         i.wellFormed = true → fieldsOf i = some (.v op f) → vSpec op = some sp → sp.b = .reg → f.bk = 2 → s.issuing c →
         (4 ≤ bType sp f ∧ bType sp f ≤ 7) → f.w.getLsbD 0 = true →
         exec i s = .next (raiseTrap c.ref ⟨1, 2, 0, 0, 0, c.path.pc⟩ s)

/-! ## Lane memory instructions -/

/-- Tier 2. R151 to R159, R161, R195, R196: LD, LDU, ST, ST.T, DISCARD, ATOM, ATOM.T, ATOMC, ATOMC.T and RED of global memory
complete where every lane's address translates: each starts one operation with each lane's address, physical address and
operand, and one request for each line, which begins in the L1 or leaves for its home slice as R119 and R186 say. Its
destinations are empty until the reply, and memory is unchanged until its requests reach their slices. -/
def Obligations.GlobalAccessesStart : Prop :=
  ∀ (s : State) (c : Cx) (i : Instr) (m : Mask) (q : MemAccess) (rs : List (Nat × Dword × Phys)),
    s.memAccess c m i = some q → s.ready c i m → s.mapped c (q.lanes.map (·.2)) →
    checkLanes s c q.agent q.align q.lanes = .ok rs →
    ∃ (t : State) (o : Op) (w : Warp), exec i s = .next t ∧ Started c pcNext o [q.cls] [] s t w
      ∧ o.kind = q.kind ∧ o.instr = i ∧ o.produces = true ∧ o.pk = q.mf.pk.toNat ∧ o.scope = q.mf.sc.toNat
      ∧ o.order = q.mf.ord.toNat ∧ o.dests = q.dests
      ∧ o.lanes.map (fun a => (a.lane, a.va, a.pa)) = rs.map (fun r => (r.1, r.2.1, r.2.2.pa))
      ∧ o.parts.map (fun p => (p.line, p.home, p.rem, p.l1))
          = (partsOf rs).map (fun p => (p.line, p.home, p.rem, startsInL1 c.core o rs p))
      ∧ t.agenda = s.agenda ++ o.parts.zipIdx.map (fun e => partEvent o s.nextOp e.2 e.1)
      ∧ (q.kind = .load ∨ q.kind = .discard ∨ ∀ a ∈ o.lanes, a.b = s.operandBits c q.mf a.lane)

/-- Tier 2. R68, R69, R152: where a lane's address is misaligned or does not translate, no lane has an effect: the instruction
traps with the lowest failing lane's fault and the mask of failing lanes. Where a page has no translation yet, the
instruction waits for its walk. R68, R152, R151: the check of a list of lanes succeeds exactly when every address is
aligned and translates, lanes of one page sharing one lookup, and gives the translations in order; it fails with the
code and address of the first failing lane, alignment before translation, and a mask that holds exactly the failing
lanes. -/
def Obligations.GlobalAccessesTrapOrWait : Prop :=
  (∀ (s : State) (c : Cx) (i : Instr) (m : Mask) (q : MemAccess), s.memAccess c m i = some q → s.ready c i m →
     (s.mapped c (q.lanes.map (·.2)) → ∀ e, checkLanes s c q.agent q.align q.lanes = .error e → ∃ n,
       exec i s = .next (raiseTrap c.ref ⟨3, e.code, e.addr, if q.all then m else e.mask, e.aux, c.path.pc⟩ { s with free := n }))
     ∧ (¬ s.mapped c (q.lanes.map (·.2)) → ∃ t, exec i s = .next t ∧ Walks c (q.lanes.map (·.2)) s t))
    ∧ (∀ (s : State) (c : Cx) (a : Agent) (align : Nat) (ls : List (Nat × Dword)),
         let look : Dword → Except TFault Phys := fun va =>
           translateHeld c.split.held s c.core c.ctx a false va ((pagesOf (ls.map (·.2))).idxOf (va.toNat / 65536))
         let fails : Nat × Dword → Option Nat := fun e =>
           if e.2.toNat % align ≠ 0 then some 9
           else match look e.2 with
             | .error f => some f.code
             | .ok _ => none
         match checkLanes s c a align ls with
         | .ok rs =>
           (∀ e ∈ ls, fails e = none) ∧ rs.map (fun r => (r.1, r.2.1)) = ls ∧ ∀ r ∈ rs, look r.2.1 = .ok r.2.2
         | .error f =>
           (∃ e, (ls.find? (fun e => (fails e).isSome)) = some e ∧ fails e = some f.code ∧ f.addr = e.2)
             ∧ ∀ l, l < 64 → f.mask.getLsbD l = ls.any (fun e => e.1 = l && (fails e).isSome))

/-- Tier 2. R142 to R144, R154: a scratchpad access starts at issue, and is performed in an event of its own: one of its own
core at the core, one of the partner's scratchpad at the reflector slice, once it has crossed the exchange buffer in turn.
R36, R41, R156: a load leaves in each executing lane of its vector destination the words at its offset, extended, as many
as its type has, and in an s register the one lane's value of up to 64 bits; a store leaves in each byte that a lane covers
the byte of the highest such lane and no other byte changed. What fails its check traps. -/
def Obligations.ScratchpadAccesses : Prop :=
  (∀ (s : State) (c : Cx) (f : MF) (m : Mask) (i : Instr) (one : Bool) (cls : Nat),
      (i, one, cls) ∈ [(Instr.ld f, !isVector f.a.toNat, clsLL), (.ldu f, true, clsLL),
        (.st f, !isVector f.a.toNat && !isVector f.b.toNat, clsLS)] → s.ready c i m → (f.sp = 1 ∨ f.sp = 2) →
      let size := tySize f.ty.toNat
      let ls := (accessLanes m one).map (fun l => (l, laneAddr s c f l))
      (checkScratch c f.sp.toNat size ls = none →
        ∃ (t : State) (o : Op) (w : Warp), exec i s = .next t ∧ Started c pcNext o [cls] [] s t w
          ∧ o.kind = (if i = .st f then .store else .load) ∧ o.produces = true ∧ o.pk = f.pk.toNat
          ∧ o.ty = f.ty.toNat ∧ o.size = size ∧ o.bcast = (if one then m else 0)
          ∧ o.dests = (if i = .st f then [] else c.pregs f.d.toNat (accWords f.ty.toNat))
          ∧ o.lanes.map (fun a => (a.lane, a.va)) = ls
          ∧ (i = .st f → ∀ a ∈ o.lanes, (a.b, a.b2) = storeVal s c f.b.toNat (accWords f.ty.toNat) a.lane)
          ∧ o.prog = (if f.sp = 2 then 1 - c.area else c.area) ∧ o.parts = [scratchPart f.sp.toNat c.core]
          ∧ t.agenda = s.agenda ++ [if f.sp = 2 then .partnerScratchpadAccess s.nextOp else .replyArrival ⟨s.nextOp, 0⟩]
          ∧ (t.team? c.ref.team).map (·.areas) = some c.team.areas)
      ∧ ∀ e, checkScratch c f.sp.toNat size ls = some e →
        exec i s = .next (raiseTrap c.ref
          ⟨3, e.code, e.addr, if one && i ≠ .ldu f then m else e.mask, 0, c.path.pc⟩ s))
    ∧ (∀ (s : State) (id : Nat) (o : Op) (tm : Team) (w : Warp), s.ops.find? id = some o → o.parts = [scratchPart 1 o.core] →
        s.resident o.ref.team = true → o.fault = none → s.team? o.ref.team = some tm → s.warp? (warpOf o.ref) = some w →
        let st := (tm.areas.get {} o.prog).scratch
        let v : Acc → Nat := fun a => leNat (st.read a.va.toNat o.size)
        (o.kind = .load → o.lanes.Pairwise (fun a b => a.lane ≠ b.lane) →
          ∃ t w', exec (.replyArrival ⟨id, 0⟩) s = .next t ∧ t.ops.find? id = none ∧ t.warp? (warpOf o.ref) = some w'
            ∧ (∀ n a, o.dests = [.s n] → o.lanes = [a] → (w'.sreg n) = ⟨true, loadScalar o.ty (v a)⟩)
            ∧ (∀ rows : List Nat, o.dests = rows.map .row → rows.Nodup → rows.length ≤ 4 → ∀ j, j < rows.length →
                (o.bcast = 0 → ∀ a ∈ o.lanes, a.lane < 64 →
                  ((w'.row (rows.getD j 0)).lane a.lane).toNat = extendTo o.ty (v a) / 2 ^ (32 * j) % 2 ^ 32)
                ∧ (o.bcast ≠ 0 → ∀ a, o.lanes = [a] → ∀ l, l < 64 → o.bcast.getLsbD l = true →
                  ((w'.row (rows.getD j 0)).lane l).toNat = extendTo o.ty (v a) / 2 ^ (32 * j) % 2 ^ 32)))
        ∧ (o.kind = .store →
          ∃ t tm', exec (.replyArrival ⟨id, 0⟩) s = .next t ∧ t.ops.find? id = none ∧ t.team? o.ref.team = some tm'
            ∧ ∀ x, ((tm'.areas.get {} o.prog).scratch).byte x = (scratchStored o x).getD (st.byte x)))
    ∧ ∀ (s : State) (id : Nat) (o : Op) (p : Part) (tm : Team), s.ops.find? id = some o → o.parts = [p] →
        p.line = partnerLine → p.sent = true → s.team? o.ref.team = some tm →
        let st := (tm.areas.get {} o.prog).scratch
        let crossing := (s.slice p.home).crossing
        (crossing.contains id = false → ∃ t, exec (.partnerScratchpadAccess id) s = .next t
          ∧ (t.slice p.home).crossing = crossing ++ [id] ∧ t.agenda = s.agenda ++ [.partnerScratchpadAccess id]
          ∧ t.teams = s.teams ∧ t.ops = s.ops)
        ∧ (crossing.contains id = true → ∃ t tm', exec (.partnerScratchpadAccess id) s = .next t
          ∧ (t.slice p.home).crossing = crossing.filter (· ≠ id) ∧ .replyArrival ⟨id, 0⟩ ∈ t.agenda
          ∧ t.team? o.ref.team = some tm'
          ∧ (o.kind = .store → ∀ x, ((tm'.areas.get {} o.prog).scratch).byte x = (scratchStored o x).getD (st.byte x))
          ∧ (o.kind = .load → tm' = tm ∧ ∃ o', t.ops.find? id = some o' ∧ (assemble o').data = o'.data
            ∧ (∀ n a, o.dests = [.s n] → o.lanes = [a] →
                o'.data.get 0 0 = loadScalar o.ty (leNat (st.read a.va.toNat o.size)))
            ∧ (∀ rows : List Nat, o.dests = rows.map .row → rows.length ≤ 4 →
                o.lanes.Pairwise (fun a b => a.lane ≠ b.lane) → ∀ j, j < rows.length → ∀ a ∈ o.lanes,
                o'.data.get 0 (8 * a.lane + j) = BitVec.ofNat 64
                  (extendTo o.ty (leNat (st.read a.va.toNat o.size)) / 2 ^ (32 * j) % 2 ^ 32))))

/-- Tier 2. R160, R152, R95: PREF never faults: it asks for the lines of the lanes whose address is aligned to 4 bytes and
translates, readable, to a local page, and for no other, counts as complete at once at every scope and writes no
register. -/
def Obligations.PrefetchCompletesAtIssue : Prop :=
  ∀ (s : State) (c : Cx) (f : MF) (m : Mask), s.ready c (.pref f) m →
    let vas := ((lanesOf m).map (laneAddr s c f)).filter (fun v => v.toNat % 4 = 0)
    (¬ s.mapped c vas → ∃ t, exec (.pref f) s = .next t ∧ Walks c vas s t)
    ∧ (s.resident c.ref.team = true → s.mapped c vas →
    ∃ (t : State) (w : Warp) (o : Op), exec (.pref f) s = .next t ∧ t.warp? c.wref = some w ∧ t.cur = none
      ∧ t.ops.find? s.nextOp = some o ∧ o.produces = false ∧ o.dests = []
      ∧ (∀ x, (∃ p ∈ o.parts, p.line = x) ↔ ∃ l, m.getLsbD l = true ∧ (laneAddr s c f l).toNat % 4 = 0 ∧ ∃ q,
          translateHeld c.split.held s c.core c.ctx .load false (laneAddr s c f l)
            ((pagesOf vas).idxOf ((laneAddr s c f l).toNat / 65536)) = .ok q ∧ q.tr.node = none ∧ q.pa / 128 = x)
      ∧ t.agenda = s.agenda ++ (if o.parts = [] then [.replyArrival ⟨s.nextOp, 0⟩]
          else o.parts.zipIdx.map (fun e => partEvent o s.nextOp e.2 e.1))
      ∧ (∀ k, k ≠ s.nextOp → t.ops.find? k = s.ops.find? k)
      ∧ w.rows = c.warp.rows ∧ w.sregs = c.warp.sregs ∧ w.preds = c.warp.preds
      ∧ (w.key f.pk.toNat).p = (c.warp.key f.pk.toNat).p + 1
      ∧ (∀ sc, sc < 5 → (c.warp.key f.pk.toNat).lead sc = (c.warp.key f.pk.toNat).p →
          ((c.warp.key f.pk.toNat).c.get {} sc).early = [] →
          (w.key f.pk.toNat).lead sc = (c.warp.key f.pk.toNat).p + 1)
      ∧ ∀ a, t.mem.byte a = s.mem.byte a)

/-! ## Keys -/

/-- Tier 2. R108, R114: KCOPY copies target and locket mask, KJOIN takes the later target of each key and both masks,
KCLR clears, KRECV binds the key to one locket; counts, status and all other keys stay. -/
def Obligations.KeyTargets : Prop :=
  ∀ (s : State) (c : Cx) (f : MF) (m : Mask) (i : Instr) (target : Nat → BitVec 16) (mask : BitVec 32),
    let d := c.warp.key (kd f)
    let a := c.warp.key (ka f)
    (i = .kcopy f ∧ target = (fun j => a.t.get 0 j) ∧ mask = a.l)
      ∨ (i = .kjoin f ∧ ka f = 0 ∧ target = (fun j => d.t.get 0 j) ∧ mask = d.l)
      ∨ (i = .kjoin f ∧ ka f ≠ 0 ∧ mask = d.l ||| a.l ∧ target = (fun j =>
          if ((c.warp.key j).p - d.t.get 0 j).toNat ≤ ((c.warp.key j).p - a.t.get 0 j).toNat then d.t.get 0 j
          else a.t.get 0 j))
      ∨ (i = .kclr f ∧ target = (fun _ => 0) ∧ mask = 0)
      ∨ (i = .krecv f ∧ target = (fun _ => 0) ∧ mask = 1#32 <<< (f.b.toNat - 608)) →
    s.ready c i m →
    ∃ (t : State) (w : Warp), exec i s = .next t ∧ Went c s t w ∧ w.unkeyed = c.warp.unkeyed
      ∧ w.fences = c.warp.fences
      ∧ (∀ k, k ≠ kd f → w.key k = c.warp.key k)
      ∧ (∀ j, j < 16 → (w.key (kd f)).t.get 0 j = target j) ∧ (w.key (kd f)).l = mask
      ∧ (w.key (kd f)).p = d.p ∧ (w.key (kd f)).c = d.c ∧ (w.key (kd f)).stat = d.stat
      ∧ (w.key (kd f)).codes = d.codes

/-- Tier 2. R109, R110, R222: KWAIT goes on once its key is satisfied, and its status form moves STAT into the s register
and clears it; KPOLL puts into its predicate whether the key is satisfied, and FULLQ a register's full bit. -/
def Obligations.KeyTests : Prop :=
  ∀ (s : State) (c : Cx) (f : MF) (m : Mask),
    (s.ready c (.kwait f) m → f.w.getLsbD 0 = false →
      ∃ (t : State) (w : Warp), exec (.kwait f) s = .next t ∧ Went c s t w ∧ w.unkeyed = c.warp.unkeyed
        ∧ w.keys = c.warp.keys ∧ w.fences = c.warp.fences)
    ∧ (s.ready c (.kwait f) m → f.w.getLsbD 0 = true →
      ∃ (t : State) (w : Warp), exec (.kwait f) s = .next t ∧ Went c s t w
        ∧ w.sreg (f.d.toNat - 640) = ⟨true, (c.warp.key f.ck.toNat).stat.setWidth 64⟩
        ∧ (∀ n, n ≠ f.d.toNat - 640 → w.sreg n = c.warp.sreg n)
        ∧ w.rows = c.warp.rows ∧ w.preds = c.warp.preds ∧ w.fences = c.warp.fences
        ∧ w.key f.ck.toNat = { c.warp.key f.ck.toNat with stat := 0 }
        ∧ ∀ k, k ≠ f.ck.toNat → w.key k = c.warp.key k)
    ∧ (s.ready c (.kpoll f) m →
      ∃ (t : State) (w : Warp), exec (.kpoll f) s = .next t ∧ Went c s t w
        ∧ c.flagged w (f.w.toNat % 8) m (fun _ => c.warp.satisfied c.ring f.ck.toNat f.sc.toNat)
        ∧ (∀ p, p ≠ f.w.toNat % 8 → w.pred p = c.warp.pred p)
        ∧ w.rows = c.warp.rows ∧ w.sregs = c.warp.sregs ∧ w.keys = c.warp.keys ∧ w.fences = c.warp.fences)
    ∧ (s.ready c (.fullq f) m →
      ∃ (t : State) (w : Warp), exec (.fullq f) s = .next t ∧ Wrote c pcNext [] [f.w.toNat % 8] s t w
        ∧ c.flagged w (f.w.toNat % 8) m (fun _ => isSpecial f.b.toNat || c.warp.full (c.preg f.b.toNat)))

/-- Tier 2. R112, R100: FENCE with an empty class list does nothing; with no free slot it waits; otherwise the lowest free
slot takes its point, unless its condition holds at once, and where stores or atomics are fenced beyond the core, every dirty and every update-only line of
the core's L1 is on its way back. -/
def Obligations.FencePoints : Prop :=
  ∀ (s : State) (c : Cx) (f : MF) (m : Mask), s.ready c (.fence f) m →
    let pred := f.w.extractLsb' 0 7
    let succ := f.w.extractLsb' 7 7
    let held := c.warp.freeFences
    ((pred = 0 ∨ succ = 0) →
      ∃ (t : State) (w : Warp), exec (.fence f) s = .next t ∧ Went c s t w ∧ w.unkeyed = c.warp.unkeyed
        ∧ w.keys = c.warp.keys ∧ w.fences = c.warp.fences ∧ t.cores = s.cores ∧ t.agenda = s.agenda)
    ∧ (pred ≠ 0 → succ ≠ 0 → (∀ j, j < 4 → (held.fences.find? j).isSome = true) →
      exec (.fence f) s = .next (stall c s))
    ∧ ∀ k, pred ≠ 0 → succ ≠ 0 → k < 4 → held.fences.find? k = none →
      (∀ j, j < k → (held.fences.find? j).isSome = true) →
      ∃ (t : State) (w : Warp) (p : FenceSlot), exec (.fence f) s = .next t ∧ Went c s t w
        ∧ w.unkeyed = c.warp.unkeyed ∧ w.keys = c.warp.keys
        ∧ w.fences.find? k = (if w.fenceMet p then none else some p) ∧ p.scope = f.sc.toNat ∧ p.pred = pred ∧ p.succ = succ
        ∧ (∀ x, x < 7 → pred.getLsbD x = true → p.n.get 0 x = (c.warp.cls x).q)
        ∧ (∀ j, j ≠ k → w.fences.find? j = held.fences.find? j)
        ∧ (f.sc ≠ 0 → (pred.getLsbD 1 = true ∨ pred.getLsbD 6 = true) → ∀ line l,
            ((t.core c.core).l1Find line = some l → l.state ≠ .dty ∧ l.state ≠ .uo)
            ∧ ((s.core c.core).l1Find line = some l → l.state = .dty →
                .writeBackArrival c.core l.home line l.data l.bmask l.ops ∈ t.agenda)
            ∧ ((s.core c.core).l1Find line = some l → l.state = .uo →
                .partialResultCombine c.core l.home line l.data l.bmask l.fn l.ty l.ops ∈ t.agenda))

/-! ## Copies -/

/-- Tier 2. R163, R164, R172, R175: a copy whose descriptor fails its checks traps before anything is produced, and one
whose engine holds 64 descriptors waits; otherwise it produces, takes the engine's next ticket, is on its way to the
engine that it names or, for any, to one with the fewest descriptors, and its handle form writes the handle. That
descriptors on their way count towards an engine's load and its limit of 64 is the model's choice (log entry 98), and so is
that the ticket is taken at issue (log entry 28). R179: CPYQ empties its status register and asks engine ENG of the issuing die. -/
def Obligations.CopyStarts : Prop :=
  (∀ (s : State) (c : Cx) (f : MF) (m : Mask) (i : Instr) (n : Nat) (cls : List Nat),
     (i, n, cls) ∈ [(Instr.cpy f, 4, [clsCR, clsCW]), (.cpyt f, 8, [clsCR, clsCW]), (.cpyr f, 4, [clsCR, clsCW]),
       (.cpyf f, 4, [clsCW])] → s.ready c i m →
     let regs := (List.range n).map (fun k => (c.warp.sreg (f.b.toNat + k - 640)).val)
     let die := c.core / 16
     let named := f.w.toNat % 32
     let eng := chooseEngine s die named
     let ticket := (s.engine (12 * die + eng)).ticket
     let full := 64 ≤ (s.engine (12 * die + eng)).fifo.length + enRoute s (12 * die + eng)
     (copyOk c i regs = false → exec i s = .next (raiseTrap c.ref ⟨4, 1, 0, 0, 0, c.path.pc⟩ s))
     ∧ (copyOk c i regs = true → full → exec i s = .next (stall c s))
     ∧ (copyOk c i regs = true → ¬ full →
       (if named < 12 then eng = named
         else eng < 12 ∧ (∀ e, e < 12 → engineLoad s (12 * die + eng) ≤ engineLoad s (12 * die + e))
           ∧ ∀ e, e < eng → engineLoad s (12 * die + eng) < engineLoad s (12 * die + e))
       ∧ ∃ (t : State) (o : Op) (w : Warp) (h : Dword), exec i s = .next t
         ∧ Started c pcNext o cls (if f.w.getLsbD 5 then [.s (f.d.toNat - 640)] else []) s t w
         ∧ o.kind = .copy ∧ o.produces = true ∧ o.pk = f.pk.toNat ∧ o.regs = regs ∧ o.eng = eng ∧ o.ticket = ticket
         ∧ o.val = h
         ∧ (die < 4 → h = (BitVec.ofNat 6 0 ++ BitVec.ofNat 2 die ++ BitVec.ofNat 4 eng ++ BitVec.ofNat 20 0
             ++ BitVec.ofNat 32 ticket : BitVec 64))
         ∧ (f.w.getLsbD 5 = true → w.sreg (f.d.toNat - 640) = ⟨true, h⟩)
         ∧ t.agenda = s.agenda ++ [.copyDescriptorEnqueue s.nextOp]
         ∧ (t.engine (12 * die + eng)).ticket = (ticket + 1) % 2 ^ 32))
    ∧ (∀ (s : State) (c : Cx) (f : MF) (m : Mask) (i : Instr), (i = .cpyqQuery f ∨ i = .cpyqCancel f) → s.ready c i m →
         ∃ (t : State) (o : Op) (w : Warp), exec i s = .next t ∧ Started c pcNext o [] [] s t w
           ∧ o.kind = .copyQuery ∧ o.produces = true ∧ o.pk = f.pk.toNat ∧ o.dests = [.s (f.d.toNat - 640)]
           ∧ o.val = (c.warp.sreg (f.b.toNat - 640)).val ∧ o.cancelled = f.w.getLsbD 0
           ∧ t.agenda = s.agenda ++ [.copyQueryRequest s.nextOp])

/-! ## Lockets -/

/-- Tier 2. R113, R210, R211, R214, R220: RWR, RWRB and KSEND complete where their signet gives the permission: RWR sends the
signet with the value of each executing lane, RWRB with one value for every lane of the signet's width, to the anchor
slice that the signet names, here or on its node; KSEND holds a token for its key. They trap where the signet gives no
permission, and KSEND waits while its warp holds 16 tokens. -/
def Obligations.RemoteWritesStart : Prop :=
  ∀ (s : State) (c : Cx) (f : MF) (m : Mask),
    let g : BitVec 128 := (c.warp.sreg (f.a.toNat + 1 - 640)).val ++ (c.warp.sreg (f.a.toNat - 640)).val
    let trap := Host.Outcome.next (raiseTrap c.ref ⟨4, 8, 0, 0, 0, c.path.pc⟩ s)
    let node := g.extractLsb' 48 16
    let base := (g.extractLsb' 0 48).toNat / 16384 * 16384
    let plcy := (g.extractLsb' 101 2).toNat
    let there : Op → Prop := fun o => ∃ p, o.parts = [p] ∧ p.line = base / 128 ∧ p.ctxPage = true ∧ p.sent = false
      ∧ p.home = homeSlice base (if plcy = 3 then 0 else plcy) true
      ∧ p.rem = if node = s.nodeId.getD 0 then none else some node
    (s.ready c (.rwr f) m → g.getLsbD 96 = true →
      ∃ (t : State) (o : Op) (w : Warp), exec (.rwr f) s = .next t ∧ Started c pcNext o [clsAT] [] s t w
        ∧ o.kind = .rwr ∧ o.produces = true ∧ o.pk = f.pk.toNat ∧ sigOf o = g ∧ there o
        ∧ o.dests = (if f.w.getLsbD 0 then [c.preg f.d.toNat] else [])
        ∧ (reqOfOp o).width = some c.lanes ∧ (reqOfOp o).lmask = m
        ∧ (reqOfOp o).values = (lanesOf m).map (fun l => readW s c f.b.toNat l)
        ∧ t.agenda = s.agenda ++ [.remoteWriteApply s.nextOp])
    ∧ (s.ready c (.rwrb f) m → g.getLsbD 96 = true → ∀ low, lowLane m = some low →
      ∃ (t : State) (o : Op) (w : Warp), exec (.rwrb f) s = .next t ∧ Started c pcNext o [clsAT] [] s t w
        ∧ o.kind = .rwr ∧ o.produces = true ∧ o.pk = f.pk.toNat ∧ sigOf o = g ∧ there o
        ∧ o.dests = (if f.w.getLsbD 0 then [c.preg f.d.toNat] else [])
        ∧ (reqOfOp o).width = none ∧ (reqOfOp o).lmask = firstLanes (widthLanes (sigWidth g))
        ∧ (reqOfOp o).values = (lanesOf (reqOfOp o).lmask).map (fun _ => readW s c f.b.toNat low)
        ∧ t.agenda = s.agenda ++ [.remoteWriteApply s.nextOp])
    ∧ (s.ready c (.ksend f) m → c.warp.tokens.length < 16 → g.getLsbD 97 = true →
      ∃ (t : State) (o : Op) (w : Warp), exec (.ksend f) s = .next t ∧ Started c pcNext o [clsAT] [] s t w
        ∧ o.kind = .ksend ∧ o.produces = true ∧ o.pk = f.pk.toNat ∧ o.scope = f.sc.toNat ∧ sigOf o = g ∧ there o
        ∧ o.dests = (if f.w.getLsbD 0 then [c.preg f.d.toNat] else [])
        ∧ w.tokens = c.warp.tokens ++ [⟨s.nextOp, f.ck.toNat, f.sc.toNat⟩]
        ∧ t.agenda = s.agenda ++ [.ksendTokenSend s.nextOp])
    ∧ (∀ i, (i = .rwr f ∨ i = .rwrb f) → s.ready c i m → g.getLsbD 96 = false → exec i s = trap)
    ∧ (s.ready c (.ksend f) m → c.warp.tokens.length < 16 → g.getLsbD 97 = false → exec (.ksend f) s = trap)
    ∧ (s.ready c (.ksend f) m → 16 ≤ c.warp.tokens.length → exec (.ksend f) s = .next (stall c s))

/-- Tier 2. R219, R221: MINT empties its pair and asks the anchor slice of its locket, or faults as a lane load would;
EMPTY of no locket does nothing, and EMPTY of some asks the warp's anchor slice and waits for its reply. -/
def Obligations.MintAndEmpty : Prop :=
  ∀ (s : State) (c : Cx) (f : MF) (m : Mask),
    let va := c.warp.imageBase + BitVec.ofNat 64 (256 * (f.b.toNat - 608))
    (s.ready c (.mint f) m →
      (¬ s.mapped c [va] → ∃ t, exec (.mint f) s = .next t ∧ Walks c [va] s t)
      ∧ (s.mapped c [va] →
        (∀ p, checkOne s c .mint 4 va = .ok p →
          ∃ (t : State) (o : Op) (w : Warp), exec (.mint f) s = .next t ∧ Started c pcNext o [] [] s t w
            ∧ o.kind = .mint ∧ o.produces = false ∧ o.dests = [.s (f.d.toNat - 640), .s (f.d.toNat + 1 - 640)]
            ∧ o.parts.map (·.line) = [p.pa / 16384 * 128]
            ∧ (∃ a, o.lanes = [a] ∧ a.pa = p.pa)
            ∧ t.agenda = s.agenda ++ [.mintRequestApply s.nextOp])
        ∧ ∀ e, checkOne s c .mint 4 va = .error e →
          exec (.mint f) s = .next (raiseTrap c.ref ⟨3, e.code, e.addr, e.mask, e.aux, c.path.pc⟩ s)))
    ∧ ∀ (i : Instr) (k : Nat),
      (i = .empty f ∧ k = 2 ^ (f.b.toNat - 608)
        ∨ i = .emptyMask f ∧ k = (c.warp.sreg (f.b.toNat - 640)).val.toNat % 2 ^ 32) → s.ready c i m →
      (i = .emptyMask f ∧ 2 ^ (c.globals - 96) ≤ k → exec i s = .next (raiseTrap c.ref ⟨1, 2, 0, 0, 0, c.path.pc⟩ s))
      ∧ (k = 0 → ∃ (t : State) (w : Warp), exec i s = .next t ∧ Wrote c pcNext [] [] s t w)
      ∧ (0 < k → (i = .emptyMask f → k < 2 ^ (c.globals - 96)) →
        ∃ (t : State) (o : Op) (w : Warp), exec i s = .next t ∧ Started c pcNext o [] [] s t w
          ∧ o.kind = .empty ∧ o.produces = false ∧ o.dests = [] ∧ o.val = BitVec.ofNat 64 k
          ∧ (∃ sp, t.split? c.ref = some sp ∧ sp.wait = .reply s.nextOp)
          ∧ ∀ h base, anchorOf s c.wref = some (h, base) →
            o.parts.map (fun p => (p.home, p.line)) = [(h, base / 128)]
              ∧ t.agenda = s.agenda ++ [.emptyRequestApply s.nextOp])

/-! ## The matrix engine -/

/-- Tier 2. R269 to R272, R278 to R280: TORC and SLOT need the whole warp; a free torc or slot is taken at once, a
held one is waited for in order, and PASS and release hand it to the first that waits. While a restored warp waits in the
torc queue no matrix instruction of it issues, but for TAKE (R270). -/
def Obligations.TorcAndSlots : Prop :=
  ∀ (s : State) (c : Cx) (f : MF) (m : Mask),
    let q := (s.core c.core).torcQ
    let queued := q.any (fun r => warpOf r = c.wref)
    let mine := (s.core c.core).torc = some c.wref
    let wt := f.w.getLsbD 5
    let n := f.w.toNat % 32
    let cl := slotClaim c wt n
    (∀ i, (i = .torcPass f ∨ i = .slotClaim f ∨ i = .slotRelease f) → s.ready c i m → queued = true →
      exec i s = .next (stall c s))
    ∧ (∀ i, (i = .torcTake f ∨ (i = .torcPass f ∨ i = .slotClaim f ∨ i = .slotRelease f) ∧ queued = false) → s.ready c i m →
      c.active ≠ c.warp.launchMask → exec i s = .next (raiseTrap c.ref ⟨2, 7, 0, 0, 0, c.path.pc⟩ s))
    ∧ (c.active = c.warp.launchMask →
      (s.ready c (.torcTake f) m →
        (mine → ∃ t w, exec (.torcTake f) s = .next t ∧ Wrote c pcNext [] [] s t w)
        ∧ ((s.core c.core).torc = none → q = [] →
          ∃ t w, exec (.torcTake f) s = .next t ∧ Went c s t w ∧ w.unkeyed = c.warp.unkeyed ∧ w.keys = c.warp.keys
            ∧ t.core c.core = { s.core c.core with torc := some c.wref }
            ∧ ∀ k, k ≠ c.core → t.core k = s.core k)
        ∧ (¬ mine → ((s.core c.core).torc ≠ none ∨ q ≠ []) →
          ∃ t, exec (.torcTake f) s = .next t ∧ Parked c .torc [] s t
            ∧ (t.core c.core).torc = (s.core c.core).torc
            ∧ (t.core c.core).torcQ = if queued then q else q ++ [c.ref]))
      ∧ (queued = false →
      (s.ready c (.torcPass f) m →
        (mine → ∃ t sp, exec (.torcPass f) s = .next t ∧ (t.core c.core).torc = q.head?.map warpOf
            ∧ (t.core c.core).torcQ = q.tail
            ∧ t.split? c.ref = some sp ∧ sp.path = pcNext c.path
            ∧ (∀ r sp, q.head? = some r → r ≠ c.ref → s.split? r = some sp → sp.wait = .torc →
                t.split? r = some { sp with wait := .none })
            ∧ ∀ a, t.mem.byte a = s.mem.byte a)
        ∧ (¬ mine → exec (.torcPass f) s = .next (raiseTrap c.ref ⟨4, 6, 0, 0, 0, c.path.pc⟩ s)))
      ∧ (s.ready c (.slotClaim f) m →
        (cl.holder = some c.ref.warp → exec (.slotClaim f) s = .next (raiseTrap c.ref ⟨4, 7, 0, 0, 0, c.path.pc⟩ s))
        ∧ (cl.holder = none → (∀ r ∈ cl.waiting, r.warp = c.ref.warp) →
          ∃ t w sp, exec (.slotClaim f) s = .next t ∧ t.warp? c.wref = some w ∧ w.unkeyed = c.warp.unkeyed
            ∧ t.split? c.ref = some sp ∧ sp.path = pcNext c.path
            ∧ (t.claim c.ref.team c.area wt n).holder = some c.ref.warp ∧ ∀ a, t.mem.byte a = s.mem.byte a)
        ∧ (cl.holder ≠ some c.ref.warp → (cl.holder ≠ none ∨ ∃ r ∈ cl.waiting, r.warp ≠ c.ref.warp) →
          ∃ t, exec (.slotClaim f) s = .next t ∧ Parked c (.slot wt n) [] s t
            ∧ (t.claim c.ref.team c.area wt n).holder = cl.holder
            ∧ (t.claim c.ref.team c.area wt n).waiting
                = if cl.waiting.contains c.ref then cl.waiting else cl.waiting ++ [c.ref]))
      ∧ (s.ready c (.slotRelease f) m →
        (cl.holder ≠ some c.ref.warp → exec (.slotRelease f) s = .next (raiseTrap c.ref ⟨4, 7, 0, 0, 0, c.path.pc⟩ s))
        ∧ (cl.holder = some c.ref.warp → slotInUse s c wt n = true → exec (.slotRelease f) s = .next (stall c s))
        ∧ (cl.holder = some c.ref.warp → slotInUse s c wt n = false → cl.waiting.contains c.ref = false →
          ∃ t sp, exec (.slotRelease f) s = .next t ∧ t.split? c.ref = some sp ∧ sp.path = pcNext c.path
            ∧ (∀ a, t.mem.byte a = s.mem.byte a)
            ∧ (t.claim c.ref.team c.area wt n).epoch = cl.epoch + 1
            ∧ (cl.waiting = [] → (t.claim c.ref.team c.area wt n).holder = none)
            ∧ ∀ r rs x, cl.waiting = r :: rs → r.team = c.ref.team → c.team.status = .running → s.split? r = some x →
              (t.claim c.ref.team c.area wt n).holder = some r.warp ∧ (t.claim c.ref.team c.area wt n).waiting = rs
              ∧ ∃ y, t.split? r = some y ∧ y.path = pcNext x.path ∧ y.wait = .none))))

/-- Tier 2. R270, R276, R278, R281 to R285, R289 to R291: a matrix instruction that passes its checks empties its destinations
and takes its place in the core's order, or waits while the engine or the drain unit holds four; MMA makes its checks in
the order of R283. While a restored warp waits in the torc queue it stalls, and while a granule has no translation it
waits for the walk. R173, R282, R289: a base of ACCLD that is no multiple of 128, a range beyond the scratchpad, and the
first granule of ACCLD's source, of DRAIN's output or of its column records that does not translate, that the page's marks
forbid or that lies on another node's page, fault at issue; an operand that the tables of R285 and R289 do not list is an
illegal instruction. That a tile number beyond the count is refused before the guard is tested is the model's choice (log
entry 117). -/
def Obligations.MatrixIssues : Prop :=
  ∀ (s : State) (c : Cx) (m : Mask) (i : Instr), s.ready c i m →
    let trap : Nat → Nat → Mask → Host.Outcome State Fault Refusal := fun cls code lanes =>
      .next (raiseTrap c.ref ⟨cls, code, 0, lanes, 0, c.path.pc⟩ s)
    let queued := (s.core c.core).torcQ.any (fun r => warpOf r = c.wref)
    let vas := s.granuleVas c m i
    (∀ (f : MF) (x : XF), i ∈ [Instr.accz f, .accld f, .accrd f, .accqStatus f, .accqRsum f, .drain f, .mma x] →
      queued = true → exec i s = .next (stall c s))
    ∧ (queued = false → ∀ a, s.matrixAct c m i = some a →
      let q := (s.core c.core).matrix.filterMap s.ops.find?
      let full := (isEngine a.kind = true ∧ 4 ≤ (q.filter (fun o => isEngine o.kind)).length)
        ∨ (a.kind = .drain ∧ 4 ≤ (q.filter (fun o => o.kind = .drain)).length)
      (¬ s.mapped c vas → ∃ t, exec i s = .next t ∧ Walks c vas s t)
      ∧ (s.mapped c vas → full → exec i s = .next (stall c (touchTlbs c.core c.ctx vas s)))
      ∧ (s.mapped c vas → ¬ full → ∃ (t : State) (o : Op) (w : Warp), exec i s = .next t ∧ Started c pcNext o a.cls [] s t w
        ∧ o.kind = a.kind ∧ o.instr = i ∧ o.fn = a.tile ∧ o.eng = c.area ∧ o.dests = a.dests
        ∧ o.produces = (a.kind = .accld || a.kind = .mma || a.kind = .drain)
        ∧ (t.core c.core).matrix = (s.core c.core).matrix ++ [s.nextOp]
        ∧ t.agenda = s.agenda ++ [a.event s.nextOp]))
    ∧ (queued = false →
      (∀ f, i = .accz f ∨ i = .accld f → holdsTorc s c = false → exec i s = trap 4 6 0)
      ∧ (∀ f : MF, i = .drain f →
        drainOk c f.sp.toNat (drainDesc ((List.range 4).map (fun k => readS c (f.b.toNat + k)))) = false →
        exec i s = trap 4 2 0)
      ∧ (∀ f : MF, i = .accld f → holdsTorc s c = true →
        let va := laneAddr s c f ((lowLane m).getD 0)
        (va.toNat % 128 ≠ 0 → exec i s = .next (raiseTrap c.ref ⟨3, tMisaligned, va, 0, 0, c.path.pc⟩ s))
        ∧ (va.toNat % 128 = 0 → f.sp ≠ 0 →
          ((f.sp = 2 ∧ c.launch.desc.paired = false) ∨ c.launch.desc.scratch < va.toNat + rawSize) →
          exec i s = .next (raiseTrap c.ref ⟨3, tBounds, va, 0, 0, c.path.pc⟩ s))
        ∧ (va.toNat % 128 = 0 → f.sp = 0 → s.mapped c vas → ∀ g fl,
          granuleAccs s c .tile 2 0 (granules va.toNat rawSize) = .error (g, fl) →
          exec i s = .next (raiseTrap c.ref
            ⟨3, fl.code, if g = va.toNat / 65536 * 65536 then va else BitVec.ofNat 64 g, 0, fl.aux, c.path.pc⟩ s)))
      ∧ (∀ f : MF, i = .drain f →
        let d := drainDesc ((List.range 4).map (fun k => readS c (f.b.toNat + k)))
        let outs := if f.sp = 0 then d.ranges else []
        let cols := if d.records && !d.csp then [(d.cols, 16 * d.ncol)] else []
        let at_ : Nat → List (Nat × Nat) → Dword := fun g rs => BitVec.ofNat 64 (((rs.filterMap (firstIn g)).min?).getD g)
        drainOk c f.sp.toNat d = true → s.mapped c vas →
        (∀ g fl, granuleAccs s c .store 0 0 (granulesOf outs) = .error (g, fl) →
          exec i s = .next (raiseTrap c.ref ⟨3, fl.code, at_ g outs, 0, fl.aux, c.path.pc⟩ s))
        ∧ ((granuleAccs s c .store 0 0 (granulesOf outs)).isOk = true →
          ∀ g fl, granuleAccs s c .tile 1 (granulesOf outs).length (granulesOf cols) = .error (g, fl) →
          exec i s = .next (raiseTrap c.ref ⟨3, fl.code, at_ g cols, 0, fl.aux, c.path.pc⟩ s)))
      ∧ ∀ f : XF, i = .mma f →
        let fw := fun l => readW s c f.fw.toNat l
        let differ := disagree c.active fw
        let w := fw ((lowLane c.active).getD ((lowLane m).getD 0))
        let numbers := f.ac.toNat < c.launch.desc.acct ∧ f.aslot.toNat < c.launch.desc.aslots
          ∧ f.wslot.toNat < c.launch.desc.wslots
        let claims := (slotClaim c false f.aslot.toNat).holder.isSome = true
          ∧ (slotClaim c true f.wslot.toNat).holder.isSome = true
        (c.active ≠ c.warp.launchMask → exec i s = trap 2 7 0)
        ∧ (c.active = c.warp.launchMask →
          (differ ≠ 0 → exec i s = trap 4 4 differ)
          ∧ (differ = 0 → holdsTorc s c = false → exec i s = trap 4 6 0)
          ∧ (differ = 0 → holdsTorc s c = true →
            (¬ numbers → exec i s = trap 1 2 0)
            ∧ (numbers → ¬ claims → exec i s = trap 4 7 0)
            ∧ (numbers → claims → fwOk w = false → exec i s = trap 4 3 0)
            ∧ (numbers → claims → fwOk w = true →
              (tileMode s c f.ac.toNat = none → exec i s = .next (stall c s))
              ∧ ∀ md, tileMode s c f.ac.toNat = some md → fwMode w ≠ md → exec i s = trap 4 5 0))))
    ∧ (∀ (a : Agent) (mark k : Nat) (gs : List Nat),
      (∀ f, granuleAccs s c a mark k gs = .error f ↔ ∃ j g, gs[j]? = some g ∧ g = f.1
        ∧ granuleAcc s c.split.held c.core c.ctx a mark (k + j) g = .error f.2
        ∧ ∀ i' g', i' < j → gs[i']? = some g' → (granuleAcc s c.split.held c.core c.ctx a mark (k + i') g').isOk = true)
      ∧ ∀ g, (∀ fl, lookupHeld c.split.held s c.core c.ctx (BitVec.ofNat 64 g) k = .error fl →
          granuleAcc s c.split.held c.core c.ctx a mark k g = .error fl)
        ∧ ∀ t, lookupHeld c.split.held s c.core c.ctx (BitVec.ofNat 64 g) k = .ok t →
          (∀ p, permFault a false t = some p → granuleAcc s c.split.held c.core c.ctx a mark k g = .error ⟨p, 0⟩)
          ∧ (permFault a false t = none → t.node.isSome = true →
            granuleAcc s c.split.held c.core c.ctx a mark k g = .error ⟨tRoute, 0⟩))
    ∧ ∀ (c' : Cx) (f : MF), s.issuing c' →
      (sRun f.b.toNat 4 4 = false → exec (.drain f) s = .next (raiseTrap c'.ref ⟨1, 1, 0, 0, 0, c'.path.pc⟩ s))
      ∧ (f.w.getLsbD 14 = true → isS f.a.toNat = false →
        exec (.accrd f) s = .next (raiseTrap c'.ref ⟨1, 1, 0, 0, 0, c'.path.pc⟩ s))

/-- Tier 2. R237, R238, R239, R241, R242, R284: what MMA makes of a tile: exact sums of 8-bit products, wrapped at 48 bits or
clamped at 32, with row sums where asked for; in BFP mode one step in which the exponent grows until every contribution fits,
each contribution is rounded once to the grid and clamped, and the whole tile is halved until it is within the bound, EOVF
saying where the exponent could grow no further. The contribution in BFP mode is the exact sum of products of
the elements of FP8, bfloat16 or binary16, times the two scales; FP64 mode chains sixteen fused steps, and NANF says
whether one gave a NaN. Rows at or beyond M keep their words. -/
def Obligations.TileArithmetic : Prop :=
  (∀ (t : Tile) (sa sb : Store) (w : Word) (m : Nat) (acc : Bool), m ≤ 128 → fwOk w = true → fwMode w = 1 ∨ fwMode w = 2 →
    let t' := mmaTile t sa sb w m acc
    let x : Nat → Nat → Int := fun i j =>
      (if acc then wordInt (fwMode w) (t.word (128 * i + j)) else 0) + int8Dot sa sb w i j
    (∀ i j, i < m → j < 128 → t'.word (128 * i + j) = BitVec.ofInt 64
        (if fwMode w = 1 then Int.bmod (x i j) (2 ^ 48) else max (-2 ^ 31) (min (2 ^ 31 - 1) (x i j))))
      ∧ (∀ k, 128 * m ≤ k → t'.word k = t.word k)
      ∧ (t'.satf = true ↔ t.satf = true
          ∨ (fwMode w = 2 ∧ ∃ i j, i < m ∧ j < 128 ∧ (x i j < -2 ^ 31 ∨ 2 ^ 31 ≤ x i j)))
      ∧ (fwRsum w = true → t'.rsv = true ∧ ∀ i, i < m → t'.rowSums.get 0 i
          = (if acc then t.rowSums.get 0 i else 0) + BitVec.ofInt 64
            (((List.range 128).map (fun k => asInt 8 (w.getLsbD 8) (sa.byte (128 * i + k)).toNat)).sum))
      ∧ (∀ i, (fwRsum w = false ∨ m ≤ i) → t'.rowSums.get 0 i = t.rowSums.get 0 i)
      ∧ (fwRsum w = false → t'.rsv = t.rsv) ∧ t'.mode = t.mode ∧ t'.e = t.e)
  ∧ (∀ (t : Tile) (xs : List FV) (acc : Bool), xs.length ≤ 16384 →
    let e0 := t.e.toInt
    let t' := bfpStep t xs acc
    ∃ u r : Nat, ∃ n : Nat → Int,
      (∀ v : Nat, v < u → e0 + v < 32767 ∧ ∃ x ∈ xs, 2 ^ 47 ≤ (toGrid x (e0 + v)).natAbs)
      ∧ (e0 + u < 32767 → ∀ x ∈ xs, (toGrid x (e0 + u)).natAbs < 2 ^ 47)
      ∧ (∀ k, k < 16384 → n k
          = if k < xs.length then
              (if acc then halved u (wordInt 0 (t.word k)) else 0) + placedGrid (toGrid (xs.getD k .nan) (e0 + u))
            else halved u (wordInt 0 (t.word k)))
      ∧ (∀ v : Nat, v < r → e0 + u + v < 32767 ∧ ∃ k, k < 16384 ∧ 2 ^ 46 ≤ (halved v (n k)).natAbs)
      ∧ (e0 + u + r < 32767 → ∀ k, k < 16384 → (halved r (n k)).natAbs < 2 ^ 46)
      ∧ t'.e = BitVec.ofInt 16 (e0 + u + r)
      ∧ (∀ k, k < 16384 → t'.word k
          = BitVec.ofInt 64 (max (-(2 ^ 46 - 1)) (min (2 ^ 46 - 1) (halved r (n k)))))
      ∧ (t'.eovf = true ↔ t.eovf = true ∨ (∃ x ∈ xs, 2 ^ 47 ≤ (toGrid x (e0 + u)).natAbs)
          ∨ ∃ k, k < 16384 ∧ 2 ^ 46 ≤ (halved r (n k)).natAbs)
      ∧ t'.rowSums = t.rowSums ∧ t'.mode = t.mode ∧ t'.satf = t.satf ∧ t'.nanf = t.nanf ∧ t'.rsv = t.rsv)
  ∧ (∀ (t : Tile) (sa sb : Store) (w : Word) (m : Nat) (acc : Bool), m ≤ 128 → fwOk w = true → fwMode w = 0 →
    let n := 128 / slotBytes (w.extractLsb' 0 4).toNat
    ∃ xs : List FV, mmaTile t sa sb w m acc = bfpStep t xs acc ∧ xs.length = 128 * m
      ∧ ∀ i j, i < m → j < 128 → (∃ g q e, xs.getD (128 * i + j) .nan = .fin g q e)
        ∧ (xs.getD (128 * i + j) .nan).rat
          = ((List.range n).map (fun k => (slotA sa w i k).rat * (slotB sb w j k).rat)).sum
            * slotScale sa w (16384 + 4 * i) * slotScale sb w 16384)
  ∧ ∀ (t : Tile) (sa sb : Store) (w : Word) (m : Nat) (acc : Bool), m ≤ 128 → fwOk w = true → fwMode w = 3 →
    let t' := mmaTile t sa sb w m acc
    let steps : Nat → Nat → List Nat := fun i j =>
      chain64 (if acc then (t.word (128 * i + j)).toNat else 0)
        ((List.range 16).map (fun k => (slotA sa w i k, slotB sb w j k)))
    (∀ i j, i < m → j < 128 → t'.word (128 * i + j) = BitVec.ofNat 64 ((steps i j).getLastD 0))
      ∧ (∀ k, 128 * m ≤ k → t'.word k = t.word k)
      ∧ (t'.nanf = true ↔ t.nanf = true
          ∨ ∃ i j, i < m ∧ j < 128 ∧ ∃ v ∈ (steps i j).tail, (fmtF64.decode v).isNaN = true)
      ∧ t'.rowSums = t.rowSums ∧ t'.mode = t.mode ∧ t'.e = t.e

/-- Tier 2. R168, R276, R277, R281, R282, R284, R285, R288 to R290: at its place in tile order an operation acts: ACCZ
clears its tile, ACCLD reads and then loads it, MMA changes it, ACCRD and ACCQ fill their destinations from it, and DRAIN
writes its next row. Before that it waits. An MMA whose slots a copy is writing gives the defined word of every element
whose operands the copy does not write, which is the model's choice (log entry 29); of its row sums and status nothing is
said. An ACCLD that met a memory error leaves the tile's side record as it was; that E is taken as loaded in the integer
modes too is the model's choice (log entry 123). R282, R289: an ACCLD from global memory reads its source line by line at the home
slices, and a DRAIN to it writes each row there, first reading the column records: each request in its turn. A physical
hole, or a memory error, stops them at a row's boundary. -/
def Obligations.MatrixActs : Prop :=
  ∀ (s : State) (id : Nat) (o : Op) (tm : Team), s.ops.find? id = some o → s.team? o.ref.team = some tm →
    s.resident o.ref.team = true →
    let tile := tileOf s o
    let ar := tm.areas.get {} o.eng
    let d := drainDesc o.regs
    let bs := drainBytes tile d o.rm (if d.records then ar.scratch.read d.cols (16 * d.ncol) else []) o.prog
    let idle := s.tripsOf (.drainExecute id) = []
    let stops := o.stopping = true ∨ tm.status = .saving ∧ awaited s id o = false
    (matrixTurn s id o = true →
      (∃ t, exec (.acczExecute id) s = .next t ∧ t.ops.find? id = none ∧ (∀ a, t.mem.byte a = s.mem.byte a)
        ∧ (∀ k, (tileOf t o).word k = 0) ∧ (∀ i, (tileOf t o).rowSums.get 0 i = 0)
        ∧ statusOf (tileOf t o) = BitVec.ofNat 64 (o.prog % 2 ^ 16 + 2 ^ 16 * (o.prog / 2 ^ 16 % 4)))
      ∧ (o.readDone = true → o.stopping = false → ∃ t, exec (.accldExecute id) s = .next t ∧ t.ops.find? id = none
        ∧ (∀ a, t.mem.byte a = s.mem.byte a)
        ∧ tileOf t o = tileOfRaw ((List.range 16513).flatMap (fun k => leBytes 8 (o.data.get 0 k).toNat)))
      ∧ (o.stopping = true → ∃ t, exec (.accldExecute id) s = .next t ∧ t.ops = s.ops
        ∧ (∀ a, t.mem.byte a = s.mem.byte a) ∧ (tileOf t o).rowSums = tile.rowSums ∧ statusOf (tileOf t o) = statusOf tile)
      ∧ (let want := mmaTile tile (ar.aslots.get {} o.ty) (ar.wslots.get {} o.size) (o.val.setWidth 32) o.hint (o.order = 1)
        let as := slotCopies s o false o.ty
        let ws := slotCopies s o true o.size
        ∃ t, exec (.mmaExecute id) s = .next t ∧ t.ops.find? id = none ∧ (∀ a, t.mem.byte a = s.mem.byte a)
          ∧ (as = [] → ws = [] → (tileOf t o).rowSums = want.rowSums ∧ statusOf (tileOf t o) = statusOf want)
          ∧ ∀ k, (128 * o.hint ≤ k ∨ rowWritten (o.val.setWidth 32) as (k / 128) = false
              ∧ colWritten (o.val.setWidth 32) ws (k % 128) = false) → (tileOf t o).word k = want.word k)
      ∧ (o.bcast = 0 → o.dests.Nodup → (s.warp? (warpOf o.ref)).isSome = true →
        let filled : (Nat → Nat) → State → Prop := fun v t => ∃ w, t.warp? (warpOf o.ref) = some w
          ∧ ∀ j k, j < 2 → o.dests[j]? = some (.row k) →
            (w.row k).full = !((s.warp? (warpOf o.ref)).any (fun x => x.refilling (ringOf s (warpOf o.ref)) k)) ∧ ∀ a ∈ o.lanes,
            (w.row k).lane a.lane = BitVec.ofNat 32 (v a.lane / 2 ^ (32 * j))
        (∃ t, exec (.accrdExecute id) s = .next t ∧ tileOf t o = tile ∧ (∀ a, t.mem.byte a = s.mem.byte a)
          ∧ filled (fun l => accrdVal tile o.ty o.rm o.cancelled o.prog (o.size + l) % 2 ^ 64) t)
        ∧ (o.order ≠ 0 → ∃ t, exec (.accqExecute id) s = .next t ∧ tileOf t o = tile
          ∧ (∀ a, t.mem.byte a = s.mem.byte a) ∧ filled (fun l => (tile.rowSums.get 0 (o.prog + l)).toNat) t)
        ∧ (o.order = 0 → ∀ n, o.dests = [.s n] → ∃ t w, exec (.accqExecute id) s = .next t ∧ tileOf t o = tile
          ∧ (∀ a, t.mem.byte a = s.mem.byte a) ∧ t.warp? (warpOf o.ref) = some w ∧ w.sreg n = ⟨true, statusOf tile⟩))
      ∧ (¬ stops →
        (o.order ≠ 0 → (d.zpc = true → d.raw = false → tile.mode = 1 ∨ tile.mode = 2) → (d.records = true → d.csp = true) →
          ∃ t, exec (.drainExecute id) s = .next t ∧ (∀ a, t.mem.byte a = s.mem.byte a)
            ∧ (∀ tm', t.team? o.ref.team = some tm' →
                (tm'.areas.get {} (areaOf o)).scratch.read (d.row o.prog).1 bs.length = bs)
            ∧ (d.rows ≤ o.prog + 1 → t.ops.find? id = none)
            ∧ (o.prog + 1 < d.rows → (t.ops.find? id).map (·.prog) = some (o.prog + 1)
                ∧ t.agenda = s.agenda ++ [.drainExecute id]))
        ∧ (idle → (d.zpc = true ∧ d.raw = false ∧ (tile.mode = 0 ∨ tile.mode = 3)) →
          exec (.drainExecute id) s = .next (matrixFault id 4 9 0 s)))
      ∧ (idle → o.stopping = true → exec (.drainExecute id) s = .next s)
      ∧ (idle → o.stopping = false → tm.status = .saving → awaited s id o = false →
          exec (.drainExecute id) s = .next (s.modOp id (fun o => { o with stopping := true, readDone := false })))
      ∧ (let e := Instr.drainExecute id
        let gs := drainSegs o d
        let zeroPoint := d.zpc = true ∧ d.raw = false ∧ (tile.mode = 0 ∨ tile.mode = 3)
        let hole := (gs.1 ++ gs.2).find? (fun g => isHole g.pa)
        let reads := gs.1 ≠ [] ∧ o.readDone = false
        let lines := segStops (if gs.1 ≠ [] ∧ o.readDone = false then gs.1 else gs.2)
        let row := drainBytes tile d o.rm (recordsOf s o d) o.prog
        (∀ g, ¬ stops → idle → ¬ zeroPoint → hole = some g →
          exec e s = .next (matrixFault id 3 tHole g.va s))
        ∧ (o.order = 0 ∨ reads → ¬ idle ∨ (¬ stops ∧ ¬ zeroPoint ∧ hole = none) →
          (∀ x, s.leaves e (.core o.core) lines x → ∃ t, exec e s = .next t ∧ s.left e (.core o.core) x t)
          ∧ (∀ x, s.comes e (.core o.core) lines x → s.served x.home x.line true e →
            ∃ t, exec e s = .next t ∧ t.ops = s.ops
              ∧ (reads → t.replies e x (fun y => y.data = s.mem.line x.line) ∧ ∀ a, t.mem.byte a = s.mem.byte a)
              ∧ (¬ reads → (∀ g ∈ gs.2, g.pa % 128 + g.n ≤ 128) → s.servedAll [(x.home, x.line)] e → t.replies e x (fun y => y.bad = x.bad)
                ∧ ∀ a, t.mem.byte a = (pieceByte x.home x.line a gs.2 row).getD (s.mem.byte a)))
          ∧ (allBack (s.tripsOf e) lines = true →
            (∀ x, (s.tripsOf e).find? (·.bad) = some x →
              exec e s = .next (matrixFault id 3 tMemory (128 * x.line) (s.endTrips e)))
            ∧ ((∀ x ∈ s.tripsOf e, x.bad = false) → ∃ t, exec e s = .next t ∧ (∀ a, t.mem.byte a = s.mem.byte a)
              ∧ (reads → ∃ o', t.ops.find? id = some o' ∧ o'.readDone = true ∧ o'.prog = o.prog ∧ e ∈ t.agenda
                ∧ ((segBytes (s.tripsOf e) gs.1).length = 16 * d.ncol → recordsOf t o' d = segBytes (s.tripsOf e) gs.1))
              ∧ (¬ reads → o.order = 0 → (d.rows ≤ o.prog + 1 → t.ops.find? id = none)
                ∧ (o.prog + 1 < d.rows → e ∈ t.agenda
                  ∧ (t.ops.find? id).map (fun o => (o.prog, o.readDone)) = some (o.prog + 1, false))))))))
    ∧ (o.readDone = false → o.stopping = false → o.order ≠ 0 → ∃ t, exec (.accldExecute id) s = .next t
        ∧ (t.ops.find? id).map (·.readDone) = some true ∧ t.agenda = s.agenda ++ [.accldExecute id]
        ∧ ∀ a, t.mem.byte a = s.mem.byte a)
    ∧ (o.readDone = false → o.stopping = false → o.order = 0 →
      let e := Instr.accldExecute id
      let n := min 128 (rawSize - 128 * o.prog)
      ∀ g, granulePhys o 2 ((o.regs.getD 0 0).toNat + 128 * o.prog) = some g → g.pa % 128 = 0 → g.va % 128 = 0 → 0 < n →
        let lines : List Stop := [⟨g.home, g.pa / 128, 1⟩]
        (∀ x, s.leaves e (.core o.core) lines x → ∃ t, exec e s = .next t ∧ s.left e (.core o.core) x t)
        ∧ (∀ x, s.comes e (.core o.core) lines x → s.served x.home x.line true e → ∃ t, exec e s = .next t ∧ t.ops = s.ops
          ∧ t.replies e x (fun y => y.data = s.mem.line x.line) ∧ ∀ a, t.mem.byte a = s.mem.byte a)
        ∧ (allBack (s.tripsOf e) lines = true →
          (∀ x, (s.tripsOf e).find? (·.bad) = some x →
            exec e s = .next ((matrixFault id 3 tMemory (128 * x.line) (s.endTrips e)).push [e]))
          ∧ ((∀ x ∈ s.tripsOf e, x.bad = false) → ∃ t o', exec e s = .next t ∧ t.ops.find? id = some o'
            ∧ o'.prog = o.prog + 1 ∧ e ∈ t.agenda ∧ (∀ a, t.mem.byte a = s.mem.byte a)
            ∧ (∀ k, k < n / 8 → o'.data.get 0 (16 * o.prog + k)
                = (tripData (s.tripsOf e) (g.pa / 128)).extractLsb' (64 * k) 64)
            ∧ (o'.readDone = true ↔ rawSize ≤ 128 * (o.prog + 1)))))
    ∧ (matrixTurn s id o = false →
      (∀ e ∈ [Instr.acczExecute id, .mmaExecute id, .accrdExecute id, .accqExecute id, .drainExecute id],
        exec e s = .next (s.push [e]))
      ∧ (o.readDone = true ∨ o.stopping = true → exec (.accldExecute id) s = .next (s.push [.accldExecute id])))

/-! ## Barriers, launches, events and queues -/

/-- Tier 2. R329, R336: an arrival that R336 refuses traps; any other adds its lanes, counts the warps that have now
arrived in full, and completes the phase when its rule says so, releasing the splits that wait for it. A wait holds only
while the phase of the warp's last arrival is open. -/
def Obligations.Barriers : Prop :=
  ∀ (s : State) (c : Cx) (f : MF) (m : Mask) (i : Instr),
    let k := f.w.toNat % 16
    let n := f.w.toNat / 16 % 128
    let b := c.team.bars.get {} k
    let me := c.ref.warp
    let bad := b.lmask.get 0 me &&& c.active ≠ 0 ∨ (0 < b.cnt ∧ n ≠ b.exp)
      ∨ (n ≠ 0 ∧ (n < b.cnt + 1 ∨ c.launch.desc.warps < n))
    let exp := if b.cnt = 0 then n else b.exp
    let lanes := fun w => if w = me then b.lmask.get 0 me ||| c.active else b.lmask.get 0 w
    let joins : Nat × Warp → Bool := fun e =>
      !b.amask.getLsbD e.1 && lanes e.1 ≠ 0 && e.2.live &&& ~~~ (lanes e.1) = 0
    let cnt := b.cnt + (c.team.warps.filter joins).length
    let complete := if exp = 0 then cnt ≠ 0 ∧ ∀ e ∈ c.team.warps, e.2.live = 0 ∨ b.amask.getLsbD e.1 = true ∨ joins e = true
      else exp ≤ cnt
    let phase := if complete then b.ph + 1 else b.ph
    let last := if joins (me, c.warp) then some b.ph else b.wph.find? me
    let kept : State → Prop := fun t => (∀ a, t.mem.byte a = s.mem.byte a)
      ∧ ∃ w, t.warp? c.wref = some w ∧ w.unkeyed = c.warp.unkeyed ∧ w.keys = c.warp.keys ∧ w.fences = c.warp.fences
    (c.team.warps.map (·.1)).Nodup → (∀ e ∈ c.team.warps, e.1 < 64) → c.split.wait = .none → s.ready c i m →
    ((i = .barArrive f ∨ (i = .barSync f ∧ c.split.waitOnly = false)) →
      (bad → exec i s = .next (raiseTrap c.ref ⟨5, 1, 0, 0, 0, c.path.pc⟩ s))
      ∧ (¬ bad → ∃ t tm sp, exec i s = .next t ∧ kept t ∧ t.team? c.ref.team = some tm ∧ t.split? c.ref = some sp
        ∧ (tm.bars.get {} k).ph = phase ∧ (tm.bars.get {} k).cnt = (if complete then 0 else cnt)
        ∧ (tm.bars.get {} k).exp = exp
        ∧ (∀ e ∈ c.team.warps, (tm.bars.get {} k).wph.find? e.1 = if joins e then some b.ph else b.wph.find? e.1)
        ∧ (∀ w, (tm.bars.get {} k).lmask.get 0 w = if complete then 0 else lanes w)
        ∧ (∀ j, j ≠ k → tm.bars.get {} j = c.team.bars.get {} j)
        ∧ (∀ q x, q.team = c.ref.team → q ≠ c.ref → s.split? q = some x → complete → x.wait = .barrier k b.ph →
            ∃ y, t.split? q = some y ∧ y.wait = .none ∧ y.path = pcNext x.path)
        ∧ (if i = .barSync f ∧ last = some phase then
            sp.path = c.path ∧ sp.wait = .barrier k phase ∧ sp.waitOnly = true
          else sp.path = pcNext c.path ∧ sp.wait = .none)))
    ∧ ((i = .barWait f ∨ (i = .barSync f ∧ c.split.waitOnly = true)) →
      (b.wph.find? me = some b.ph → ∃ t, exec i s = .next t ∧ Parked c (.barrier k b.ph) [] s t)
      ∧ (b.wph.find? me ≠ some b.ph → ∃ t w, exec i s = .next t ∧ Wrote c pcNext [] [] s t w))

/-- Tier 2. R337 to R342: SPAWN sends its record's address and waits; EVSIG raises its change and goes on, EVWAIT parks
until its waiter is released; QPUSH and QPOP send their reservation and wait for its reply; QKICK reaches its slot or
leaves for another node. Event ids, kinds and queue operands that R335 to R342 refuse trap, and so does a descriptor on
a page of another node, which is the model's reading (log entry 32). R376: a QKICK of this package is checked against the
die's replica of the record, fetched if need be, and goes to the owner with its VERSION; the model makes that an operation
of its own with no path (log entry 34), which ends where it is merged, refused as foreign, or, its VERSION stale, checked
again. -/
def Obligations.EventsAndQueuesStart : Prop :=
  ∀ (s : State) (c : Cx) (f : MF) (m : Mask),
    let e := if f.fn = 1 then (c.warp.sreg (f.a.toNat - 640)).val.toNat % 65536 else f.w.toNat % 65536
    let v : Word := (c.warp.sreg (f.b.toNat - 640)).val.setWidth 32
    let count := (s.context c.ctx).evCount
    let trap : Nat → Dword → Mask → Host.Outcome State Fault Refusal := fun code a lanes =>
      .next (raiseTrap c.ref ⟨5, code, a, lanes, 0, c.path.pc⟩ s)
    (s.ready c (.spawn f) m → ∃ t, exec (.spawn f) s = .next t
      ∧ Parked c .spawn [.spawnRequest c.ref (c.warp.sreg (f.a.toNat - 640)).val] s t)
    ∧ (s.ready c (.evsig f) m →
      (count ≤ e → exec (.evsig f) s = trap 3 (BitVec.ofNat 64 e) 0)
      ∧ (e < count → (s.event c.ctx e).refinable = true → exec (.evsig f) s = trap 4 (BitVec.ofNat 64 e) 0)
      ∧ (e < count → (s.event c.ctx e).refinable = false → ∃ t, exec (.evsig f) s = .next t
        ∧ Raised c [.eventChangeApply c.ctx e v] s t))
    ∧ (s.ready c (.evwait f) m →
      (count ≤ e → exec (.evwait f) s = trap 3 (BitVec.ofNat 64 e) 0)
      ∧ (e < count → ∃ t, exec (.evwait f) s = .next t
        ∧ Parked c (.event c.ctx e v) [.eventWaiterEntry c.ref c.ctx e v] s t))
    ∧ (∀ (i : Instr) (kind : OpKind) (cls : Nat) (dests : List PReg),
      (i = .qpush f ∧ kind = .qpush ∧ cls = clsLS ∧ dests = []
        ∨ i = .qpop f ∧ kind = .qpop ∧ cls = clsLL ∧ dests = (List.range 7).map (fun j => .s (f.d.toNat + j - 640))) →
      s.ready c i m →
      let differ := if isVec f.a.toNat then disagree c.active (fun l => readD s c f.a.toNat l) else 0
      let va := readD s c f.a.toNat ((lowLane m).getD 0)
      (differ ≠ 0 → exec i s = trap 5 0 differ)
      ∧ (differ = 0 → ¬ s.mapped c [va] → ∃ t, exec i s = .next t ∧ Walks c [va] s t)
      ∧ (differ = 0 → s.mapped c [va] → ∀ x, checkOne s c .atomic 64 va = .error x →
        exec i s = .next (raiseTrap c.ref ⟨3, x.code, x.addr, 0, x.aux, c.path.pc⟩ s))
      ∧ (differ = 0 → s.mapped c [va] → ∀ p, checkOne s c .atomic 64 va = .ok p → p.tr.node ≠ none →
        exec i s = .next (raiseTrap c.ref ⟨3, tRemote, va, 0, 0, c.path.pc⟩ s))
      ∧ (differ = 0 → s.mapped c [va] → ∀ p, checkOne s c .atomic 64 va = .ok p → p.tr.node = none →
        ∃ (t : State) (o : Op) (w : Warp), exec i s = .next t ∧ Started c pcNext o [cls] [] s t w
          ∧ o.kind = kind ∧ o.produces = true ∧ o.pk = f.pk.toNat ∧ o.scope = f.sc.toNat ∧ o.dests = dests
          ∧ o.rm = f.w.toNat % 8 ∧ o.bcast = c.active
          ∧ o.parts.map (fun q => (q.line, q.home)) = [(p.pa / 128, p.home)]
          ∧ t.agenda = s.agenda ++ [if kind = .qpush then .pushReservation s.nextOp else .popReservation s.nextOp]
          ∧ (kind = .qpush → o.regs = (List.range 7).map (fun j => (c.warp.sreg (f.b.toNat + j - 640)).val))
          ∧ ∃ sp, t.split? c.ref = some sp ∧ sp.wait = .reply s.nextOp))
    ∧ (s.ready c (.qkick f) m →
      let g := (c.warp.sreg (f.a.toNat - 640)).val
      let tail := (c.warp.sreg (f.b.toNat - 640)).val
      let die := (g.extractLsb' 8 2).toNat
      let slot := (g.extractLsb' 0 6).toNat
      let q := s.queue die slot
      let here := g.extractLsb' 48 16 = s.nodeId.getD 0
      let legal := g.extractLsb' 10 38 = 0 ∧ g.extractLsb' 6 2 = 0
      let r := replicaOf s (c.core / 16) die slot
      (¬ legal → exec (.qkick f) s = .next (raiseTrap c.ref ⟨1, 2, 0, 0, 0, c.path.pc⟩ s))
      ∧ (legal → here → ∃ (t : State) (o : Op) (w : Warp), exec (.qkick f) s = .next t
        ∧ Started c pcNext o [] [] s t w ∧ o.kind = .kick ∧ o.parts.map (fun p => (p.rem, p.l1)) = [(none, true)]
        ∧ o.regs = [BitVec.ofNat 64 die, BitVec.ofNat 64 slot, tail] ∧ o.ctx = c.ctx
        ∧ o.val = r.version.setWidth 64 ∧ (o.order = 1 ↔ r.bound = true ∧ r.ctx = c.ctx)
        ∧ t.agenda = s.agenda ++ [.replyArrival ⟨s.nextOp, 0⟩] ∧ (t.queue die slot).kick = q.kick
        ∧ (t.die (c.core / 16)).replicas.find? (replicaIndex die slot) = some r)
      ∧ (legal → ¬ here → ∃ (t : State) (o : Op) (w : Warp), exec (.qkick f) s = .next t
        ∧ Started c pcNext o [] [] s t w ∧ o.kind = .kick ∧ o.parts.map (·.rem) = [some (g.extractLsb' 48 16)]
        ∧ o.regs = [BitVec.ofNat 64 die, BitVec.ofNat 64 slot, tail]))
    ∧ ∀ (id : Nat) (o : Op) (p : Part), s.ops.find? id = some o → o.kind = .kick → o.parts = [p] → p.l1 = true →
      p.back = false →
      let die := (o.regs.getD 0 0).toNat
      let slot := (o.regs.getD 1 0).toNat
      let q := s.queue die slot
      let ours := if o.val.setWidth 16 = q.version then o.order = 1 else q.state ≠ 0 ∧ q.ctx = o.ctx
      ∃ t, exec (.replyArrival ⟨id, 0⟩) s = .next t ∧ t.ops.find? id = none ∧ (∀ a, t.mem.byte a = s.mem.byte a)
        ∧ (ours → q.state ≠ 0 → (t.queue die slot).kick = max q.kick (o.regs.getD 2 0).toNat
          ∧ .queueCommandPull die slot ∈ t.agenda)
        ∧ (¬ ours → (t.queue die slot).kick = q.kick ∧ (t.die die).foreignKicks = (s.die die).foreignKicks + 1)

/-! ## Versioned results -/

/-- Tier 2. R347, R349, R352, R355: PUBV and VCHK send their request to the event's table and wait for the reply, STOPREF
sends its change and goes on; ids out of range, events that are not refinable and versions that R347 refuses trap. -/
def Obligations.VersionsStart : Prop :=
  ∀ (s : State) (c : Cx) (f : MF) (m : Mask) (i : Instr),
    let e := if f.fn.getLsbD 1 then (c.warp.sreg (f.a.toNat - 640)).val.toNat % 65536 else f.w.toNat % 65536
    let v := (c.warp.sreg (f.b.toNat - 640)).val
    let ok := e < (s.context c.ctx).evCount ∧ (s.event c.ctx e).refinable = true
    (i = .pubv f ∨ i = .pubvFinal f ∨ i = .stopref f ∨ i = .vchk f ∨ i = .vchkX f) → s.ready c i m →
    ((s.context c.ctx).evCount ≤ e → exec i s = .next (raiseTrap c.ref ⟨5, 3, BitVec.ofNat 64 e, 0, 0, c.path.pc⟩ s))
    ∧ (e < (s.context c.ctx).evCount → (s.event c.ctx e).refinable = false →
      exec i s = .next (raiseTrap c.ref ⟨5, 4, BitVec.ofNat 64 e, 0, 0, c.path.pc⟩ s))
    ∧ (ok → (i = .pubv f ∨ i = .pubvFinal f) →
      (v.extractLsb' 15 49 ≠ 0 ∨ v = 0 →
        exec i s = .next (raiseTrap c.ref ⟨5, 6, BitVec.ofNat 64 e, 0, 0, c.path.pc⟩ s))
      ∧ (v.extractLsb' 15 49 = 0 → v ≠ 0 →
        ∃ (t : State) (o : Op) (w : Warp), exec i s = .next t ∧ Started c pcNext o [clsLS] [] s t w
          ∧ o.kind = .pubv ∧ o.produces = true ∧ o.pk = f.pk.toNat ∧ o.prog = e ∧ o.val = v ∧ o.dests = []
          ∧ (o.order = 1 ↔ i = .pubvFinal f) ∧ o.bcast = c.active ∧ o.rm = f.w.toNat / 65536 % 8
          ∧ t.agenda = s.agenda ++ [.pubvApply s.nextOp]
          ∧ ∃ sp, t.split? c.ref = some sp ∧ sp.wait = .reply s.nextOp))
    ∧ (ok → (i = .vchk f ∨ i = .vchkX f) →
      ∃ (t : State) (o : Op) (w : Warp), exec i s = .next t ∧ Started c pcNext o [] [] s t w
        ∧ o.kind = .vchk ∧ o.produces = false ∧ o.prog = e ∧ (o.order = 1 ↔ i = .vchkX f) ∧ o.bcast = c.active
        ∧ o.rm = f.w.toNat / 65536 % 8 ∧ t.agenda = s.agenda ++ [.vchkRead s.nextOp]
        ∧ ∃ sp, t.split? c.ref = some sp ∧ sp.wait = .reply s.nextOp)
    ∧ (ok → i = .stopref f → ∃ t, exec i s = .next t ∧ Raised c [.stoprefApply c.ctx e] s t)

/-- Tier 2. R330, R331, R338, R339, R345, R347, R349, R352: a change at an event's table adds to its count, but for a version
word that only PUBV, acceptance and retirement change, and releases each waiter that it meets; a waiter that is met already goes on at once; PUBV replaces the version only if its launch owns the
event, it is not final, and the version rises; STOPREF sets its flag on an event that is not final; VCHK says whether the
version has passed the one its launch fired on. No byte of memory changes while the table has room for the event. -/
def Obligations.EventTables : Prop :=
  ∀ (s : State) (ctx e : Nat),
    let ev := s.event ctx e
    let room := ((s.die (e % 4)).resident.filter (· ≠ (ctx, e))).length < 4096
    let still : State → Prop := fun t => room → ∀ a, t.mem.byte a = s.mem.byte a
    (∀ n : Word, let new := if ev.refinable then ev.count else ev.count + n
      ∃ t, exec (.eventChangeApply ctx e n) s = .next t ∧ (t.event ctx e).count = new
      ∧ (t.event ctx e).owner = ev.owner ∧ (t.event ctx e).stop = ev.stop
      ∧ (∀ j, j ≠ e → t.event ctx j = s.event ctx j)
      ∧ (t.event ctx e).waiters = ev.waiters.filter (fun w => 2 ^ 31 ≤ (new - w.2).toNat)
      ∧ (∀ r thr sp, (r, thr) ∈ ev.waiters → (new - thr).toNat < 2 ^ 31 → s.split? r = some sp →
        sp.wait = .event ctx e thr → ∃ x, t.split? r = some x ∧ x.wait = .none ∧ x.path = pcNext sp.path)
      ∧ still t)
    ∧ (∀ r thr sp, s.split? r = some sp → sp.wait = .event ctx e thr →
      ((ev.count - thr).toNat < 2 ^ 31 → ∃ t x, exec (.eventWaiterEntry r ctx e thr) s = .next t
        ∧ t.split? r = some x ∧ x.wait = .none ∧ x.path = pcNext sp.path ∧ t.event ctx e = ev)
      ∧ (2 ^ 31 ≤ (ev.count - thr).toNat → ∃ t, exec (.eventWaiterEntry r ctx e thr) s = .next t
        ∧ t.split? r = some sp ∧ t.event ctx e = { ev with waiters := ev.waiters ++ [(r, thr)] }))
    ∧ (∃ t, exec (.stoprefApply ctx e) s = .next t
      ∧ t.event ctx e = { ev with stop := ev.stop || !ev.count.getLsbD 15 } ∧ still t)
    ∧ ∀ id o tm, s.ops.find? id = some o → o.ctx = ctx → o.prog = e → s.team? o.ref.team = some tm →
      let ver := (ev.count.extractLsb' 0 15).toNat
      (ev.owner ≠ some tm.launch → exec (.pubvApply id) s = .next (faultOp id 5 7 (BitVec.ofNat 64 e) 0 0 s))
      ∧ (ev.owner = some tm.launch → (ev.count.getLsbD 15 = true ∨ o.val.toNat ≤ ver) →
        exec (.pubvApply id) s = .next (faultOp id 5 8 (BitVec.ofNat 64 e) 0 0 s))
      ∧ (ev.owner = some tm.launch → ev.count.getLsbD 15 = false → ver < o.val.toNat → o.val.toNat < 2 ^ 15 →
        ∃ t, exec (.pubvApply id) s = .next t
          ∧ (t.event ctx e).count.extractLsb' 0 15 = o.val.setWidth 15
          ∧ ((t.event ctx e).count.getLsbD 15 = true ↔ o.order = 1 ∨ ev.stop = true)
          ∧ (t.event ctx e).count.extractLsb' 16 16 = 0 ∧ (t.event ctx e).owner = ev.owner
          ∧ (t.ops.find? id).map (fun o => o.data.get 0 0) = some (if ev.stop then 1 else 0)
          ∧ Instr.replyArrival ⟨id, 0⟩ ∈ t.agenda ∧ still t)
      ∧ ∀ l, s.launches.find? tm.launch = some l →
        let fired := if l.desc.wait0.mode ≠ 0 ∧ l.desc.wait0.event = e then (l.fired.extractLsb' 0 15).toNat
          else if l.desc.wait1.mode ≠ 0 ∧ l.desc.wait1.event = e then (l.fired.extractLsb' 16 15).toNat else 0
        ∃ t, exec (.vchkRead id) s = .next t
          ∧ (t.ops.find? id).map (fun o => o.data.get 0 0) = some (if fired < ver then 1 else 0)
          ∧ Instr.replyArrival ⟨id, 0⟩ ∈ t.agenda ∧ still t

/-! ## System -/

/-- Tier 2. R398, R399: CSRR writes the register's value, CSRW to WCTL sets the rounding mode and FTZ or traps on a value
that R399 refuses, a read-only register ignores it, INDCLR empties the indeterminate list, and a number that names no
register is an illegal instruction. -/
def Obligations.SystemRegisters : Prop :=
  ∀ (s : State) (c : Cx) (f : MF) (m : Mask), s.Inv →
    let n := f.w.toNat % 4096
    let names := n = 0 ∨ n = 1 ∨ (16 ≤ n ∧ n < 32) ∨ n = 0x20 ∨ n = 0x21
    let v : Word := (c.warp.sreg (f.b.toNat - 640)).val.setWidth 32
    (s.ready c (.csrr f) m →
      (¬ names → exec (.csrr f) s = .next (raiseTrap c.ref ⟨1, 1, 0, 0, 0, c.path.pc⟩ s))
      ∧ (names → ∃ t w, exec (.csrr f) s = .next t ∧ Wrote c pcNext (c.pregs f.d.toNat 1) [] s t w
        ∧ c.took w f.d.toNat 1 false m (fun _ =>
            if n = 0 then c.warp.rmode.toNat + 8 * c.warp.ftz.toNat
            else if n = 1 then c.team.restores
            else if n = 0x20 then c.warp.indet.length
            else if n = 0x21 then 0
            else (c.warp.key (n - 16)).stat.toNat)))
    ∧ (s.ready c (.csrw f) m →
      (n = 0 → (v.extractLsb' 4 28 ≠ 0 ∨ 5 ≤ (v.extractLsb' 0 3).toNat) →
        exec (.csrw f) s = .next (raiseTrap c.ref ⟨1, 2, 0, 0, 0, c.path.pc⟩ s))
      ∧ (n = 0 → v.extractLsb' 4 28 = 0 → (v.extractLsb' 0 3).toNat < 5 →
        ∃ t w, exec (.csrw f) s = .next t ∧ Went c s t w
          ∧ w.rmode = v.extractLsb' 0 3 ∧ w.ftz = v.getLsbD 3
          ∧ ({ w with rmode := c.warp.rmode, ftz := c.warp.ftz } : Warp).unkeyed = c.warp.unkeyed
          ∧ w.keys = c.warp.keys ∧ w.fences = c.warp.fences)
      ∧ ((n = 1 ∨ (16 ≤ n ∧ n < 32) ∨ n = 0x20) →
        ∃ t w, exec (.csrw f) s = .next t ∧ Wrote c pcNext [] [] s t w)
      ∧ (¬ names → exec (.csrw f) s = .next (raiseTrap c.ref ⟨1, 1, 0, 0, 0, c.path.pc⟩ s)))
    ∧ (s.ready c (.csrwIndclr f) m →
      ∃ t w, exec (.csrwIndclr f) s = .next t ∧ Went c s t w ∧ w.indet = []
        ∧ ({ w with indet := c.warp.indet } : Warp).unkeyed = c.warp.unkeyed
        ∧ w.keys = c.warp.keys ∧ w.fences = c.warp.fences)

/-! ## Control -/

/-- Tier 2. R295, R297, R305, R306: a branch sends its taken lanes to its target and its other lanes to the next
instruction; where both are there it divides the split, or pushes the lanes that fall through where the warp has four
splits, and traps where the stack is full. The 1,024th backward branch, which may have pushed, swaps the path with the top
of its stack; that a BRX is backward where its target lies below the PC (log entry 43), and that a PC and an offset add
modulo 2^32 (log entry 118), is the model's choice. A branching instruction that its guard skips whole goes on; so does
NOP. -/
def Obligations.Branches : Prop :=
  ∀ (s : State) (c : Cx) (f : CF) (m : Mask),
    (s.ready c (.nop f) m → ∃ t w, exec (.nop f) s = .next t ∧ Wrote c pcNext [] [] s t w)
    ∧ (∀ i ∈ [Instr.bra f, .brx f, .call f, .callx f, .ret f], gate s c (needOf c i) = .skip → s.issuing c →
        c.team.step = none →
        ∃ t sp, exec i s = .next t ∧ t.split? c.ref = some sp ∧ sp.path = { c.path with pc := c.path.pc + 1 }
          ∧ sp.stack = c.split.stack ∧ sp.backCount = 0 ∧ ∀ a, t.mem.byte a = s.mem.byte a)
    ∧ ∀ (i : Instr) (dest : BitVec 32) (back : Bool) (low : Nat), lowLane m = some low →
      (i = .bra f ∧ dest = c.path.pc + f.t.signExtend 32 ∧ back = f.t.msb
        ∨ i = .brx f ∧ dest = readW s c f.a.toNat low ∧ back = (readW s c f.a.toNat low < c.path.pc)) →
      s.ready c i m →
        let differ := disagree m (fun l => readW s c f.a.toNat l)
        (i = .brx f → differ ≠ 0 → exec i s = .next (raiseTrap c.ref ⟨2, 2, 0, differ, 0, c.path.pc⟩ s))
        ∧ ((i = .brx f → differ = 0) →
          (c.overflows m → exec i s = .next (raiseTrap c.ref ⟨2, 1, 0, 0, 0, c.path.pc⟩ s))
          ∧ (¬ c.overflows m → ∃ t, exec i s = .next t
            ∧ c.Branched m { c.path with pc := dest, mask := m } back f.j s t
            ∧ t.cur = none ∧ (∀ a, t.mem.byte a = s.mem.byte a) ∧ t.ops = s.ops
            ∧ (∀ v, v ≠ c.wref → t.warp? v = s.warp? v)
            ∧ (c.warp.hi ≤ c.warp.top → c.warp.upTo ≤ c.warp.top → (∀ r ∈ c.warp.spill, r < c.warp.top) →
              ∃ w, t.warp? c.wref = some w ∧ w.unkeyed = c.warp.unkeyed
                ∧ w.keys = c.warp.keys ∧ w.fences = c.warp.fences)))

/-- Tier 2. R298, R299, R307 to R309: CALL and CALLX give the taken lanes the callee's frame with its link words, ENTER and
LEAVE set the extent, RET goes back by the link words; a frame that does not fit, or that another split's CALL or ENTER
waits for, waits until the range has moved, and CALL waits for what still fills its link rows; every check of these entries
traps before any change. CALL, CALLX and RET divide the split or push as R295 says, and swap as R297 says; that CALLX and
RET are backward where their target lies below the PC (log entry 43), and that a PC and an offset add modulo 2^32 (log
entry 118), is the model's choice. -/
def Obligations.CallsAndReturns : Prop :=
  ∀ (s : State) (c : Cx) (f : CF) (m : Mask) (i : Instr) (low : Nat), s.Inv → lowLane m = some low → s.ready c i m →
    let p := c.path
    let shift := f.b.toNat
    let trap : Nat → Mask → Host.Outcome State Fault Refusal := fun code lanes =>
      .next (raiseTrap c.ref ⟨2, code, 0, lanes, 0, p.pc⟩ s)
    let cap := arenaCapacity c.launch.desc
    let kept : State → Prop := fun t => t.cur = none ∧ (∀ a, t.mem.byte a = s.mem.byte a) ∧ t.ops = s.ops
      ∧ ∀ v, v ≠ c.wref → t.warp? v = s.warp? v
    let settled := c.warp.spill = [] ∧ c.warp.refill = [] ∧ c.warp.hi = c.warp.top ∧ c.warp.upTo ≤ c.warp.hi
    let room : Nat → Nat → Prop := fun b top => c.warp.spill = [] ∧ c.warp.lo ≤ b ∧ top ≤ c.warp.lo + c.ring
      ∧ ∀ e, c.warp.growing = some e → e.1 = c.ref.split
    let waits : Nat → Nat → Prop := fun b top => ∃ t sp, exec i s = .next t ∧ kept t
      ∧ t.split? c.ref = some sp ∧ sp.path = p ∧ sp.stack = c.split.stack ∧ sp.wait = .grow b top
    (∀ (target : BitVec 32) (back : Bool), (i = .call f ∧ target = p.pc + f.t.signExtend 32 ∧ back = f.t.msb
        ∨ i = .callx f ∧ target = readW s c f.a.toNat low ∧ back = (readW s c f.a.toNat low < p.pc)) →
      let bn := p.b + shift
      let en := max 2 (p.e - shift)
      let differ := disagree m (fun l => readW s c f.a.toNat l)
      (i = .callx f → differ ≠ 0 → exec i s = trap 2 differ)
      ∧ ((i = .callx f → differ = 0) →
        (p.depth = 4095 → exec i s = trap 5 0)
        ∧ (p.depth ≠ 4095 → cap < bn + en → exec i s = trap 6 0)
        ∧ (p.depth ≠ 4095 → bn + en ≤ cap → c.overflows m → exec i s = trap 1 0)
        ∧ (p.depth ≠ 4095 → bn + en ≤ cap → ¬ c.overflows m →
          (¬ room bn (bn + en) → waits bn (bn + en))
          ∧ (settled → room bn (bn + en) →
            ((c.warp.row (bn % c.ring)).full && (c.warp.row ((bn + 1) % c.ring)).full) = false →
            ∃ t sp, exec i s = .next t ∧ kept t ∧ t.split? c.ref = some sp ∧ sp.path = p ∧ sp.stack = c.split.stack)
          ∧ (settled → room bn (bn + en) →
            (c.warp.row (bn % c.ring)).full = true → (c.warp.row ((bn + 1) % c.ring)).full = true →
            ∃ t w, exec i s = .next t ∧ kept t ∧ t.warp? c.wref = some w
              ∧ c.Branched m { pc := target, mask := m, b := bn, e := en, depth := p.depth + 1 } back f.j s t
              ∧ (∀ l, m.getLsbD l = true → (w.row (bn % c.ring)).lane l = p.pc + 1
                  ∧ (w.row ((bn + 1) % c.ring)).lane l = BitVec.ofNat 32 (shift + 1024 * p.e))
              ∧ (w.row (bn % c.ring)).full = true ∧ (w.row ((bn + 1) % c.ring)).full = true
              ∧ (∀ k, k ≠ bn % c.ring → k ≠ (bn + 1) % c.ring → (∀ r, c.warp.hi ≤ r → r < bn + en → k ≠ r % c.ring) →
                  w.row k = c.warp.row k)
              ∧ w.sregs = c.warp.sregs ∧ w.preds = c.warp.preds ∧ w.keys = c.warp.keys))))
    ∧ (i = .enter f →
      (c.ring < shift ∨ cap < p.b + shift → exec i s = trap 6 0)
      ∧ (shift ≤ c.ring → p.b + shift ≤ cap →
        (¬ room p.b (p.b + shift) → waits p.b (p.b + shift))
        ∧ (settled → room p.b (p.b + shift) →
        ∃ t sp w, exec i s = .next t ∧ kept t ∧ t.split? c.ref = some sp ∧ t.warp? c.wref = some w
          ∧ sp.path = { p with pc := p.pc + 1, e := shift } ∧ sp.wait = .none
          ∧ (∀ k, (∀ r, c.warp.hi ≤ r → r < p.b + shift → k ≠ r % c.ring) → w.row k = c.warp.row k)
          ∧ w.sregs = c.warp.sregs ∧ w.preds = c.warp.preds ∧ w.keys = c.warp.keys)))
    ∧ (i = .leave f →
      (p.e < shift → exec i s = .next (raiseTrap c.ref ⟨1, 2, 0, 0, 0, p.pc⟩ s))
      ∧ (shift ≤ p.e → settled →
      ∃ t sp w, exec i s = .next t ∧ kept t ∧ t.split? c.ref = some sp ∧ t.warp? c.wref = some w
        ∧ sp.path = { p with pc := p.pc + 1, e := shift } ∧ w.rows = c.warp.rows ∧ w.sregs = c.warp.sregs
        ∧ w.preds = c.warp.preds ∧ w.keys = c.warp.keys))
    ∧ (i = .ret f →
      let differ := disagree m (fun l => (readW s c 0 l, readW s c 1 l))
      let w0 := readW s c 0 low
      let w1 := readW s c 1 low
      let sh := (w1.extractLsb' 0 10).toNat
      let e := (w1.extractLsb' 10 10).toNat
      let legal := w1.extractLsb' 20 12 = 0 ∧ 1 ≤ sh ∧ sh ≤ p.b ∧ 2 ≤ e ∧ e ≤ 512
      (p.depth = 0 → exec i s = trap 5 0)
      ∧ (p.depth ≠ 0 → differ ≠ 0 → exec i s = trap 3 differ)
      ∧ (p.depth ≠ 0 → differ = 0 → ¬ legal → exec i s = trap 4 0)
      ∧ (p.depth ≠ 0 → differ = 0 → legal → c.overflows m → exec i s = trap 1 0)
      ∧ (p.depth ≠ 0 → differ = 0 → legal → ¬ c.overflows m → settled →
        ∃ t w, exec i s = .next t ∧ kept t ∧ t.warp? c.wref = some w
          ∧ c.Branched m { pc := w0, mask := m, b := p.b - sh, e := e, depth := p.depth - 1 } (w0 < p.pc) f.j s t
          ∧ w.rows = c.warp.rows ∧ w.sregs = c.warp.sregs ∧ w.preds = c.warp.preds ∧ w.keys = c.warp.keys))

/-- Tier 2. R293, R297, R310 to R313, R394, R399: EXIT ends the lanes of its guard, and with the last of them the path, the
split or the warp; WAITM parks on a watch, or goes on where the core has no monitor free; YIELD swaps paths or gives its
warp's place up to the pending warp that has been ready and pending longest, which is the model's choice among them (log entry
44); BRK and TRAP halt the team with the PC after them saved. -/
def Obligations.LaneEndsAndWaits : Prop :=
  ∀ (s : State) (c : Cx) (f : CF) (g : MF) (m : Mask),
    let kept : State → Prop := fun t => t.cur = none ∧ (∀ a, t.mem.byte a = s.mem.byte a)
      ∧ ∀ v, v ≠ c.wref → (t.warp? v).map Warp.noSplits = (s.warp? v).map Warp.noSplits
    (s.ready c (.exit f) m → c.split.wait = .none →
      let rest := c.active &&& ~~~ m
      let live := c.warp.live &&& ~~~ m
      (live ≠ 0 → ∃ t w, exec (.exit f) s = .next t ∧ kept t ∧ t.warp? c.wref = some w ∧ w.live = live
        ∧ w.ended = c.warp.ended ∧ w.sregs = c.warp.sregs ∧ w.preds = c.warp.preds ∧ w.keys = c.warp.keys
        ∧ (rest ≠ 0 → ∃ sp, t.split? c.ref = some sp ∧ sp.path = { c.path with pc := c.path.pc + 1, mask := rest })
        ∧ (rest = 0 → c.split.stack = [] → t.split? c.ref = none)
        ∧ (rest = 0 → ∀ e es, c.split.stack = e :: es →
          ∃ sp, t.split? c.ref = some sp ∧ sp.path = e.path ∧ sp.stack = es))
      ∧ (live = 0 → c.warp.ended = false → ∃ t w, exec (.exit f) s = .next t ∧ kept t ∧ t.warp? c.wref = some w
        ∧ w.live = 0 ∧ w.ended = true ∧ w.splits = [] ∧ .warpRelease c.wref ∈ t.agenda))
    ∧ (s.ready c (.waitm f) m →
      let p := f.d.toNat % 8
      let va := (c.warp.sreg (f.a.toNat - 640)).val
      (∀ e es, c.split.stack = e :: es → ∃ t sp, exec (.waitm f) s = .next t ∧ kept t ∧ t.split? c.ref = some sp
        ∧ sp.path = e.path ∧ sp.stack = ⟨c.path, e.rjpc, false⟩ :: es ∧ t.ops = s.ops)
      ∧ (c.split.stack = [] → ¬ s.mapped c [va] → ∃ t, exec (.waitm f) s = .next t ∧ Walks c [va] s t)
      ∧ (c.split.stack = [] → s.mapped c [va] → ∀ e, checkOne s c .load 4 va = .error e →
        exec (.waitm f) s = .next (raiseTrap c.ref ⟨3, e.code, e.addr, e.mask, e.aux, c.path.pc⟩ s))
      ∧ (c.split.stack = [] → s.mapped c [va] → ∀ a, checkOne s c .load 4 va = .ok a →
        (64 ≤ (s.core c.core).monitors → ∃ t w sp, exec (.waitm f) s = .next t ∧ kept t ∧ t.warp? c.wref = some w
          ∧ c.flagged w p c.active (fun _ => true) ∧ (∀ q, q ≠ p → w.pred q = c.warp.pred q) ∧ w.rows = c.warp.rows
          ∧ w.sregs = c.warp.sregs ∧ t.split? c.ref = some sp ∧ sp.path = pcNext c.path)
        ∧ ((s.core c.core).monitors < 64 → ∃ t sp o x, exec (.waitm f) s = .next t ∧ kept t ∧ t.split? c.ref = some sp
          ∧ sp.path = c.path ∧ sp.wait = .watch p s.nextOp ∧ t.ops.find? s.nextOp = some o ∧ o.lanes = [x]
          ∧ x.va = va ∧ x.b = (c.warp.sreg (f.b.toNat - 640)).val ∧ (t.core c.core).monitors = (s.core c.core).monitors + 1
          ∧ .watchRequest c.ref ∈ t.agenda ∧ (f.j ≠ 0 → .waitmTimeout c.ref ∈ t.agenda))))
    ∧ (s.ready c (.yield f) m →
      (∀ e es, c.split.stack = e :: es → ∃ t sp, exec (.yield f) s = .next t ∧ kept t ∧ t.split? c.ref = some sp
        ∧ sp.path = e.path ∧ sp.stack = ⟨pcNext c.path, e.rjpc, false⟩ :: es)
      ∧ (c.split.stack = [] → ∃ t sp w, exec (.yield f) s = .next t ∧ t.cur = none ∧ t.split? c.ref = some sp
        ∧ sp.path = pcNext c.path ∧ t.warp? c.wref = some w ∧ (∀ a, t.mem.byte a = s.mem.byte a)
        ∧ ({ w with active := c.warp.active, since := c.warp.since } : Warp).unkeyed = c.warp.unkeyed
        ∧ (readyPending (advance c s) c.core c.warp.quad = [] → w.active = c.warp.active)
        ∧ ∀ v, longest (advance c s) (readyPending (advance c s) c.core c.warp.quad) = some v → v ≠ c.wref →
          w.active = false ∧ (t.warp? v).map (·.active) = (s.warp? v).map (fun _ => true)))
    ∧ ∀ (i : Instr) (code addr : Nat), (i = .brk f ∧ code = 1 ∧ addr = f.b.toNat
        ∨ i = .trap g ∧ code = 4 ∧ addr = g.w.toNat % 65536) → s.ready c i m → c.team.status = .running →
      let r : Trap := ⟨6, code, BitVec.ofNat 64 addr, 0, 0, c.path.pc⟩
      ∃ t sp tm, exec i s = .next t ∧ kept t ∧ t.split? c.ref = some sp ∧ sp.path = pcNext c.path
        ∧ sp.stack = c.split.stack ∧ sp.own = some r ∧ t.team? c.ref.team = some tm ∧ tm.status = .raised
        ∧ tm.halt = some (r, c.ref.warp, c.ref.split) ∧ t.agenda = s.agenda ++ [.teamHalt c.ref.team]
        ∧ (t.warp? c.wref).map Warp.noSplits = some c.warp.noSplits

/-! ## Requests at their home slices -/

/-- Tier 2. R19, R84 to R86, R91, R120, R154, R161, R182 to R185: a request leaves its core for its path and arrives at its
slice; there it waits for a busy line, is refused by a scope that R91 does not let pass, or by a poisoned line (R58), with
no effect but the reply that says so, recalls update-only copies, and brings an absent line in; in its turn a load reads the
whole line, a store writes its lanes' bytes and no other, an atomic takes its lanes one after another in ascending order,
and stores and atomics raise the line's tag by one. That a memory error leaves the line's record as it was (log entry 77)
and that either refusal reports 128 x line as its address (log entry 78) is the model's choice. -/
def Obligations.SliceRequests : Prop :=
  ∀ (s : State) (r : Req) (o : Op) (p : Part), s.Inv → s.ops.find? r.op = some o → o.parts[r.part]? = some p →
    let inst := instOf o.scope o.core
    let l := s.sline p.home p.line
    let line := lanesOn o p.key
    let cas := decide (o.kind = .atomc)
    let newest : State → Prop := fun t =>
      p.passed = false → (t.slice p.home).sync.getLast? = some ⟨o.scope, inst, p.line⟩
    let tagged : State → Prop := fun t => t.tags.get 0 p.line = s.tags.get 0 p.line + 1
      ∧ ∀ j, j ≠ p.line → t.tags.get 0 j = s.tags.get 0 j
    let passes := p.passed = true ∨ s.inScope p.home p.line o.scope inst
    let turn : Instr → Prop := fun e => l.state ≠ .busy ∧ (l.waiters = [] ∨ l.waiters.head? = some e)
    let free : Instr → Prop := fun e => e = .sliceAtomic r ∨ o.order ≠ 0 → passes
    let refused : Trap → State → Prop := fun x t => t.answered r.op r.part (fun q => q.refusal = some x ∧ q.done = p.done)
      ∧ (∀ a, t.mem.byte a = s.mem.byte a) ∧ t.tags = s.tags ∧ (t.sline p.home p.line).uo = l.uo
      ∧ (t.slice p.home).sync = (s.slice p.home).sync
    (∀ e ∈ [Instr.sliceLoad r, .sliceStore r, .sliceAtomic r, .checkRequest r, .updateOnlyObtain r],
      p.sent = false → p.rem = none → returning s o.core p.key = false → (s.core o.core).l1Find p.key = none →
      ∃ t, exec e s = .next t ∧ s.left e (.core o.core) ⟨p.home, p.line, 1⟩ t
        ∧ (t.ops.find? r.op).bind (fun x => x.parts[r.part]?) = some { p with sent := true })
    ∧ (p.sent = true →
      (s.served p.home p.line true (.sliceLoad r) → (o.order ≠ 0 → passes) →
        p.ctxPage = false ∨ residentImage s p.line = false →
        ∃ t, exec (.sliceLoad r) s = .next t
          ∧ t.answered r.op r.part (fun q => q.ldata = s.mem.line p.line ∧ q.passed = true
              ∧ (o.kind = .load ∨ o.kind = .pref → q.done = true))
          ∧ (∀ a, t.mem.byte a = s.mem.byte a) ∧ t.tags = s.tags ∧ (o.order ≠ 0 → newest t))
      ∧ (s.served p.home p.line true (.sliceStore r) → (o.order ≠ 0 → passes) →
        o.kind = .store ∨ o.kind = .storeT → (∀ x ∈ line, x.pa / 128 = p.line) →
        ∃ t, exec (.sliceStore r) s = .next t
          ∧ t.answered r.op r.part (fun q => q.tag = s.tags.get 0 p.line + 1 ∧ q.done = true) ∧ tagged t
          ∧ (∀ a, a / 128 ≠ p.line → t.mem.byte a = s.mem.byte a)
          ∧ (o.order ≠ 0 → newest t)
          ∧ (o.size ≤ 16 → ∀ a, a / 128 = p.line → t.mem.byte a = (storedByte o.size line a).getD (s.mem.byte a)))
      ∧ (s.served p.home p.line true (.sliceAtomic r) → passes →
        ∃ t, exec (.sliceAtomic r) s = .next t
          ∧ t.answered r.op r.part (fun q => q.tag = s.tags.get 0 p.line + 1 ∧ q.done = true) ∧ tagged t ∧ newest t
          ∧ t.mem = line.foldl (atomLane cas (o.fn % 32) o.ty o.size) s.mem
          ∧ ∀ before x after, line = before ++ x :: after → x.lane ∉ after.map (·.lane) →
            (t.ops.find? r.op).map (fun o => o.data.get 0 (8 * x.lane))
              = some (BitVec.ofNat 64 ((before.foldl (atomLane cas (o.fn % 32) o.ty o.size) s.mem).nat x.pa o.size)))
      ∧ (turn (.checkRequest r) → passes →
        ∃ t, exec (.checkRequest r) s = .next t ∧ t.answered r.op r.part (fun q => q.passed = true) ∧ newest t
          ∧ (∀ a, t.mem.byte a = s.mem.byte a) ∧ t.tags = s.tags)
      ∧ (∀ x, (s.slice p.home).sync.find? (fun x => x.line = p.line) = some x → p.passed = false →
          contains o.scope inst x.scope x.inst = false →
          ∀ e ∈ [Instr.sliceLoad r, .sliceStore r, .sliceAtomic r, .checkRequest r, .updateOnlyObtain r],
            (e = .sliceLoad r ∨ e = .sliceStore r → o.order ≠ 0) → turn e →
            ∃ t, exec e s = .next t ∧ refused ⟨3, 14, BitVec.ofNat 64 (128 * p.line), lineMask o p.key, syncWord x, 0⟩ t)
      ∧ (∀ e ∈ [Instr.sliceLoad r, .sliceStore r, .sliceAtomic r], poisoned s p.line = true → turn e → l.state ≠ .inv →
          l.uo = 0 → free e → (e = .sliceLoad r → o.kind ≠ .pref) →
          (e = .sliceStore r → (storeData o p.key).2 ≠ BitVec.allOnes 128) →
          ∃ t, exec e s = .next t ∧ refused ⟨3, 13, BitVec.ofNat 64 (128 * p.line), lineMask o p.key, 0, 0⟩ t)
      ∧ (o.kind = .discard → turn (.sliceStore r) → (o.order ≠ 0 → passes) → l.uo = 0 →
        l.state = .inv → (s.slice p.home).taken < 2048 →
        ∃ t, exec (.sliceStore r) s = .next t ∧ (t.sline p.home p.line).state = .dty ∧ tagged t
          ∧ t.answered r.op r.part (fun q => q.done = true) ∧ ∀ a, a / 128 ≠ p.line → t.mem.byte a = s.mem.byte a)
      ∧ ∀ e ∈ [Instr.sliceLoad r, .sliceStore r, .sliceAtomic r], l.waiters = [] →
        (l.state = .busy → ∃ t, exec e s = .next t ∧ s.queued e p.home p.line t ∧ t.agenda = s.agenda)
        ∧ (∀ k, free e → (e = .sliceLoad r → o.kind ≠ .pref) → l.state ≠ .busy → l.uo.getLsbD k = true → (∀ j, j < k → l.uo.getLsbD j = false) →
          ∃ t, exec e s = .next t
            ∧ t.sline p.home p.line = { l with state := .busy, dirty := decide (l.state = .dty), waiters := [e] }
            ∧ t.agenda = s.agenda ++ [.recallDelivery (16 * (p.home / 512) + k) p.line]
            ∧ ∀ a, t.mem.byte a = s.mem.byte a)
        ∧ (free e → l.state = .inv → l.uo = 0 → o.kind ≠ .discard →
          ((s.slice p.home).taken < 2048 →
            ∃ t, exec e s = .next t
              ∧ t.sline p.home p.line
                = { l with state := .busy, waiters := [e], first := decide (o.hint = 3 ∧ e ≠ .sliceAtomic r) }
              ∧ Instr.sliceFillComplete p.home p.line ∈ t.agenda ∧ ∀ a, t.mem.byte a = s.mem.byte a)
          ∧ (2048 ≤ (s.slice p.home).taken →
            ∃ t, exec e s = .next t ∧ (t.sline p.home p.line).state = .inv ∧ (t.sline p.home p.line).waiters = [e]
              ∧ ∀ a, t.mem.byte a = s.mem.byte a)))

/-- Tier 2. R19, R20, R58, R81, R82, R84, R85, R140, R187, R188, R191: a write-back and a partial result are requests of
their core, which leave once a permit is free, wait for a busy line, and come back with a reply; a write-back writes the
bytes that its mask names, a partial result is combined element by element and clears the core's bit, a poisoned line
refuses both, and with the reply the core learns what has become of the operations that wait on them. A core that gathers a
line sets its bit and, once answered, holds the line as update-only; a RED then merges into it, or, where the line has been
returned before, is applied at the home slice. A recall takes the core's partial result, and a fill or a finished
write-back lets waiting requests proceed; what ECC finds in a filled line the spec leaves open (log entry 114). -/
def Obligations.SliceLines : Prop :=
  ∀ (s : State) (core home line : Nat) (data : LineData) (bm : ByteMask) (ids : List Nat), s.Inv →
    let tagged : State → Prop := fun t => t.tags.get 0 line = s.tags.get 0 line + 1
      ∧ ∀ j, j ≠ line → t.tags.get 0 j = s.tags.get 0 j
    let l := s.sline home line
    let q := returnBy s core home line
    let stops : List Stop := [⟨home, line, 1⟩]
    let same : State → Prop := fun t => ∀ a, t.mem.byte a = s.mem.byte a
    let wb : Instr := .writeBackArrival core home line data bm ids
    (∀ fn ty, ∀ e ∈ [wb, .partialResultCombine core home line data bm fn ty ids],
      (∀ x, s.leaves e q stops x → ∃ t, exec e s = .next t ∧ s.left e q x t)
      ∧ (allBack (s.tripsOf e) stops = true →
        ((∀ x ∈ s.tripsOf e, x.bad = false) → ∃ t, exec e s = .next t ∧ same t
          ∧ ∀ id ∈ ids, ∀ o, t.ops.find? id = some o → ∀ q ∈ o.parts, q.key = line → q.wb = false)
        ∧ ((∃ x ∈ s.tripsOf e, x.bad = true) → ∀ id o, ids = [id] → s.ops.find? id = some o → o.fault = none →
          ∃ t, exec e s = .next t ∧ same t ∧ (t.ops.find? id).map (·.fault)
            = some (some ⟨3, 13, BitVec.ofNat 64 (128 * line), lineMask o line, 0, o.pc⟩))))
    ∧ (∀ x, s.comes wb q stops x →
      (s.served home line true wb → ∃ t, exec wb s = .next t ∧ tagged t ∧ t.replies wb x (fun y => y.bad = x.bad)
        ∧ (t.sline home line).state = .dty
        ∧ ∀ a, t.mem.byte a = if a / 128 = line ∧ bm.getLsbD (a % 128) = true then lineByte data (a % 128)
            else s.mem.byte a)
      ∧ (l.state ≠ .inv → l.state ≠ .busy → l.uo = 0 → l.waiters = [] ∨ l.waiters.head? = some wb →
        poisoned s line = true → bm ≠ BitVec.allOnes 128 →
        ∃ t, exec wb s = .next t ∧ t.replies wb x (fun y => y.bad = true) ∧ same t ∧ t.tags = s.tags)
      ∧ (l.state = .busy → wb ∉ l.waiters → ∃ t, exec wb s = .next t ∧ s.queued wb home line t))
    ∧ (∀ fn ty x, s.comes (.partialResultCombine core home line data bm fn ty ids) q stops x →
      let e : Instr := .partialResultCombine core home line data bm fn ty ids
      let n := tySize ty
      (poisoned s line = false → mixedHome s home line = false → bm ≠ 0 →
        ∃ t, exec e s = .next t ∧ tagged t ∧ t.replies e x (fun y => y.bad = false)
        ∧ (t.sline home line).uo.getLsbD (core % 16) = false
        ∧ (∀ a, a / 128 ≠ line → t.mem.byte a = s.mem.byte a)
        ∧ ∀ k, k < 128 / n → t.mem.nat (128 * line + n * k) n
          = if bm.getLsbD (n * k) then
              atomNew false fn ty (s.mem.nat (128 * line + n * k) n)
                (data.toNat / 2 ^ (8 * (n * k)) % 2 ^ (8 * n)) 0 % 2 ^ (8 * n)
            else s.mem.nat (128 * line + n * k) n)
      ∧ (bm = 0 ∨ poisoned s line = true → ∃ t, exec e s = .next t ∧ same t ∧ t.tags = s.tags
        ∧ t.replies e x (fun y => y.bad = decide (bm ≠ 0)) ∧ (t.sline home line).uo.getLsbD (core % 16) = false))
    ∧ (∀ (r : Req) (o : Op) (p : Part), s.ops.find? r.op = some o → o.parts[r.part]? = some p →
      let now : State → Option Part := fun t => (t.ops.find? r.op).bind (fun x => x.parts[r.part]?)
      let fits : L1Line → Prop := fun x => x.state = .uo ∧ x.fn = o.fn ∧ x.ty = o.ty
        ∧ x.rsv = some (o.scope, instOf o.scope o.core)
      (p.home = home → p.line = line → p.sent = true → s.served home line false (.updateOnlyObtain r) →
        p.passed = true ∨ s.inScope home line o.scope (instOf o.scope o.core) →
        ∃ t, exec (.updateOnlyObtain r) s = .next t ∧ (t.sline home line).uo.getLsbD (o.core % 16) = true
          ∧ t.answered r.op r.part (fun q => q.passed = true) ∧ t.tags = s.tags ∧ same t)
      ∧ (o.kind = .red → p.gather = true → p.back = false → p.l1 = false → p.refusal = none →
        ∃ t x, exec (.replyArrival r) s = .next t ∧ (t.core o.core).l1Find p.key = some x ∧ fits x ∧ x.bmask = 0
          ∧ now t = some { p with sent := false, l1 := true } ∧ Instr.replyArrival r ∈ t.agenda ∧ same t)
      ∧ (o.kind = .red → p.l1 = true → p.back = false → p.isScratch = false → p.check = false →
        (∀ x, (s.core o.core).l1Find p.key = some x → fits x → (∀ w, s.warp? (warpOf o.ref) = some w → w.fences = []) →
          let merged := (lanesOn o p.key).foldl (fun l a => mergeLane l o.size a) x
          ∃ t y, exec (.replyArrival r) s = .next t ∧ (t.core o.core).l1Find p.key = some y ∧ y.data = merged.data
            ∧ y.bmask = merged.bmask ∧ y.ops = x.ops ++ [r.op] ∧ now t = some (written p) ∧ same t)
        ∧ ((∀ x, (s.core o.core).l1Find p.key = some x → ¬ fits x) → ∃ t, exec (.replyArrival r) s = .next t
          ∧ (t.core o.core).l1Find p.key = none ∧ same t
          ∧ (p.passed = true → now t = some { p with l1 := false, gather := false, passed := false }
            ∧ Instr.sliceAtomic r ∈ t.agenda)
          ∧ (p.passed = false → now t = some { p with l1 := false, gather := true }
            ∧ Instr.updateOnlyObtain r ∈ t.agenda))))
    ∧ (∀ x, (s.core core).l1Find line = some x → x.state = .uo → x.home = home → recallers s core line = [home] →
      ∃ t, exec (.recallDelivery core line) s = .next t ∧ (t.core core).l1Find line = none
        ∧ .partialResultCombine core home line x.data x.bmask x.fn x.ty x.ops ∈ t.agenda ∧ same t)
    ∧ ((s.core core).l1Find line = none → returning s core line = false → recallers s core line = [home] →
      ∃ t, exec (.recallDelivery core line) s = .next t
        ∧ t.agenda = s.agenda ++ [.partialResultCombine core home line 0 0 0 0 []] ∧ same t)
    ∧ (l.state = .busy →
      (∃ t, exec (.sliceFillComplete home line) s = .next t ∧ t.sline home line = { l with state := .cln, dirty := false }
        ∧ (∀ e, l.waiters.head? = some e → e ∈ t.agenda) ∧ (∀ e ∈ s.agenda, e ∈ t.agenda) ∧ same t)
      ∧ ∃ t, exec (.sliceWriteBackComplete home line) s = .next t
        ∧ t.sline home line = { l with state := .inv, dirty := false, leaving := false, first := false }
        ∧ ((t.slice home).taken < 2048 → ∀ e, l.waiters.head? = some e → e ∈ t.agenda)
        ∧ (∀ e ∈ s.agenda, e ∈ t.agenda) ∧ same t)

/-! ## Anchor slices -/

/-- Tier 2. R17, R58, R87, R88, R113, R207, R209, R212, R214, R215, R219, R221: a request for an anchor slice leaves its core,
and the slice answers it in its turn: one through a signet with the code of SignetVerify, acting only on code 0, as a
delivery to the resident warp or a write of the lanes' words into the image, and on the locket's bit in both cases; a
poisoned line of the image refuses it. EMPTY clears bits, MINT forms a signet with its MAC, a delivery fills its locket, a
token leaves once its key is satisfied, and a record is removed into the saved word and installed from it, by requests of
the core and of the command path. The lines are mapped through one policy (R59). -/
def Obligations.AnchorRequests : Prop :=
  ∀ (s : State) (id : Nat) (o : Op), s.Inv → s.ops.find? id = some o →
    let q := reqOfOp o
    let g := q.sig
    let home := anchorSlice g
    let base := sigAddr g / 16384 * 16384
    let ctx := sigCtx g
    let j := sigAddr g % 16384 / 256 % 32
    let full := fullMask s home ctx base
    let same : State → Prop := fun t => ∀ a, t.mem.byte a = s.mem.byte a
    let refusal :=
      if sigPlcy g = 3 ∨ sigWidth g = 3 ∨ macOf s g ≠ sigMac g then 1
      else if ¬ ((s.context ctx).live = true ∧ (s.context ctx).gen = sigGen g) then 2
      else if ∃ w, q.width = some w ∧ widthCode w ≠ sigWidth g then 4
      else if ∃ sc, q.scope = some sc ∧ sc < reachOf q.sender (resRecord s home ctx base) then 5
      else 0
    let code := if refusal ≠ 0 then refusal else if sigLatest g = false ∧ full.getLsbD j = true then 3 else 0
    let turn : Nat → Nat → Instr → Prop := fun h l e => (s.sline h l).state ≠ .busy
      ∧ ((s.sline h l).waiters = [] ∨ (s.sline h l).waiters.head? = some e)
    (∀ p, o.parts[0]? = some p → p.sent = false → p.rem = none → o.lineAccess = false →
      ∀ e ∈ [Instr.remoteWriteApply id, .tokenApply id, .emptyRequestApply id, .mintRequestApply id],
        ∃ t, exec e s = .next t ∧ s.left e (.core o.core) ⟨p.home, p.line, 1⟩ t
          ∧ (t.ops.find? id).bind (fun x => x.parts[0]?) = some { p with sent := true })
    ∧ (∀ p, o.parts[0]? = some p → p.sent = true → ∀ e ∈ [Instr.remoteWriteApply id, .tokenApply id],
      let lines := [(home, base / 128 + 64), (home, base / 128 + 2 * j), (home, base / 128 + 2 * j + 1)]
      let tells : Nat → State → Prop := fun code t => t.answered id 0 (fun q => q.done = true)
        ∧ (t.ops.find? id).map (fun x => (x.code, x.data.get 0 0)) = some (code, BitVec.ofNat 64 code)
      (refusal ≠ 0 ∨ resRecord s home ctx base ≠ none → turn home (base / 128 + 64) e →
        ∃ t, exec e s = .next t ∧ tells code t ∧ same t
          ∧ (code ≠ 0 → (t.slice home).res = (s.slice home).res
            ∧ ((∀ h, ∀ l ∈ (s.slice h).lines, ∀ w n k v, Instr.locketDelivery w n k v ∉ l.2.waiters) →
              ∀ w n k v, Instr.locketDelivery w n k v ∈ t.agenda → Instr.locketDelivery w n k v ∈ s.agenda))
          ∧ (code = 0 → fullMask t home ctx base = full ||| BitVec.ofNat 32 (2 ^ j)
            ∧ ∀ r, resRecord s home ctx base = some r → Instr.locketDelivery r.warp j q.lmask q.values ∈ t.agenda))
      ∧ (refusal = 0 → resRecord s home ctx base = none →
        (s.servedAll lines e → ∃ t, exec e s = .next t ∧ tells code t ∧ (t.slice home).res = (s.slice home).res
          ∧ (code ≠ 0 → same t)
          ∧ (code = 0 → fullMask t home ctx base = full ||| BitVec.ofNat 32 (2 ^ j)
            ∧ (∀ x ∈ (lanesOf q.lmask).zip q.values, t.mem.nat (base + 256 * j + 4 * x.1) 4 = x.2.toNat)
            ∧ ∀ a, (a < base + 256 * j ∨ base + 256 * j + 256 ≤ a) → (a < base + 8192 ∨ base + 8196 ≤ a) →
                t.mem.byte a = s.mem.byte a))
        ∧ ((∀ x ∈ lines, turn x.1 x.2 e ∧ (s.sline x.1 x.2).state ≠ .inv ∧ (s.sline x.1 x.2).uo = 0) →
          poisoned s (base / 128 + 64) = true → ∃ t, exec e s = .next t ∧ same t ∧ t.tags = s.tags
            ∧ t.answered id 0 (fun q => q.done = p.done ∧ q.refusal.map (fun x => (x.cls, x.code)) = some (3, 13)))))
    ∧ (∀ p, o.parts[0]? = some p → p.sent = true →
      let e := Instr.emptyRequestApply id
      let m := fullMask s p.home o.ctx (128 * p.line)
      (resRecord s p.home o.ctx (128 * p.line) ≠ none ∧ turn p.home (p.line + 64) e
        ∨ resRecord s p.home o.ctx (128 * p.line) = none ∧ s.served p.home (p.line + 64) true e) →
      ∃ t, exec e s = .next t ∧ t.answered id 0 (fun q => q.done = true)
        ∧ fullMask t p.home o.ctx (128 * p.line) = m &&& ~~~ (o.val.setWidth 32)
        ∧ ∀ a, a < 128 * p.line + 8192 ∨ 128 * p.line + 8196 ≤ a → t.mem.byte a = s.mem.byte a)
    ∧ (∀ p a, o.parts = [p] → p.sent = true → o.lanes = [a] → a.pa < 2 ^ 48 → o.ctx < 2 ^ 16 → p.homeField < 4 →
      ∃ (t : State) (lo hi : Dword), exec (.mintRequestApply id) s = .next t ∧ t.answered id 0 (fun q => q.done = true)
        ∧ (t.ops.find? id).map (fun x => (x.data.get 0 0, x.data.get 0 1)) = some (lo, hi)
        ∧ (let m : BitVec 128 := hi ++ lo
          sigAddr m = a.pa ∧ sigNode m = s.nodeId.getD 0 ∧ sigMac m = macOf s m ∧ sigWrites m = decide (o.fn % 2 = 1)
            ∧ sigTokens m = decide (o.fn / 2 % 2 = 1) ∧ sigLatest m = decide (o.fn / 4 % 2 = 1)
            ∧ sigWidth m = widthCode o.size ∧ sigPlcy m = p.homeField ∧ sigCtx m = o.ctx
            ∧ sigGen m = (s.context o.ctx).gen)
        ∧ ∀ x, t.mem.byte x = s.mem.byte x)
    ∧ (∀ (w : WarpRef) (wp : Warp) (l : Launch) (n : Nat) (m : Mask) (vs : List Word), s.warp? w = some wp →
      launchOf s w = some l →
      ∃ t wp', exec (.locketDelivery w n m vs) s = .next t ∧ t.warp? w = some wp'
        ∧ (wp'.row (l.desc.ring + 96 + n)).full = true
        ∧ (∀ k, k < 64 → (wp'.row (l.desc.ring + 96 + n)).lane k
          = if m.getLsbD k then Tab.get 0 ((lanesOf m).zip vs) k else (wp.row (l.desc.ring + 96 + n)).lane k)
        ∧ (∀ k, k ≠ l.desc.ring + 96 + n → wp'.row k = wp.row k) ∧ ∀ x, t.mem.byte x = s.mem.byte x)
    ∧ (∀ (w : Warp) (tk : Token), o.kind = .ksend → s.warp? (warpOf o.ref) = some w →
      w.tokens.find? (fun t => t.op = id) = some tk →
      (w.satisfied (ringOf s (warpOf o.ref)) tk.key tk.scope = true →
        ∃ t w', exec (.ksendTokenSend id) s = .next t ∧ t.warp? (warpOf o.ref) = some w'
          ∧ w'.tokens = w.tokens.filter (fun t => t.op ≠ id) ∧ (∀ x, t.mem.byte x = s.mem.byte x)
          ∧ ∀ p, o.parts = [p] → p.sent = false → p.done = false → p.l1 = false → p.isScratch = false →
              p.gather = false → p.check = false → t.agenda = s.agenda ++ [.tokenApply id])
      ∧ (w.satisfied (ringOf s (warpOf o.ref)) tk.key tk.scope = false →
        ∃ t, exec (.ksendTokenSend id) s = .next t ∧ t.warp? (warpOf o.ref) = some w
          ∧ Instr.ksendTokenSend id ∈ t.agenda ∧ ∀ x, t.mem.byte x = s.mem.byte x))
    ∧ ∀ (w : WarpRef) (wp : Warp) (l : Launch) (tm : Team), s.warp? w = some wp → launchOf s w = some l →
      s.team? w.team = some tm →
      (let e := Instr.saveRecordRemove w
        let q : Requester := .core wp.core
        (∀ h base, anchorOf s w = some (h, base) →
          let stop : Stop := ⟨h, base / 128 + 64, 1⟩
          (s.leaves e q [stop] stop → ∃ t, exec e s = .next t ∧ s.left e q stop t)
          ∧ (∀ x r, s.comes e q [stop] x → x.stop = stop → base % 128 = 0 →
            (s.slice h).res.find? (fun x => x.warp = w) = some r → s.served h (base / 128 + 64) true e →
            ∃ t, exec e s = .next t ∧ (∀ y ∈ (t.slice h).res, y.warp ≠ w) ∧ t.replies e x (fun y => y.bad = x.bad)
              ∧ t.mem.nat (base + 8192) 4 = r.mask.toNat ∧ Instr.flushMarkerArrival w ∈ t.agenda
              ∧ ∀ a, a < base + 8192 ∨ base + 8196 ≤ a → t.mem.byte a = s.mem.byte a))
        ∧ (anchorOf s w = none →
          (s.tripsOf e = [] → exec e s = .next (s.push [.flushMarkerArrival w]))
          ∧ (s.tripsOf e ≠ [] → (∀ x ∈ s.tripsOf e, x.stage = .done) → exec e s = .next (s.endTrips e))))
      ∧ (∃ t, exec (.flushMarkerArrival w) s = .next t ∧ t.warp? w = some { wp with marked := true } ∧ same t)
      ∧ (let e := Instr.restoreRecordInstall w
        let q : Requester := .command tm.die
        unpinned s e l.ctx [wp.imageBase] = [] →
        (∀ h pa, wp.anchor = some (h, pa) → areaAnchor s e wp.core l.ctx wp.imageBase ≠ none →
          let stop : Stop := ⟨h, pa / 128, 128⟩
          (s.leaves e q [stop] stop → ∃ t, exec e s = .next t ∧ s.left e q stop t)
          ∧ (∀ x, s.comes e q [stop] x → x.stop = stop → tm.shared = false → pa % 16384 = 0 → l.desc.globals ≤ 128 →
            l.desc.lanes ≤ 64 → s.servedAll ((List.range 65).map (fun k => (h, pa / 128 + k))) e →
            let mask := BitVec.ofNat 32 (s.mem.nat (pa + 8192) 4)
            ∃ t wp', exec e s = .next t ∧ t.warp? w = some wp' ∧ wp'.installed = true
              ∧ t.replies e x (fun y => y.bad = false)
              ∧ (⟨l.ctx, pa, wp.core, w, mask⟩ : ResRec) ∈ (t.slice h).res
              ∧ (t.slice h).reserved = (s.slice h).reserved - 1
              ∧ (∀ n k, n < l.desc.globals - 96 → k < l.desc.lanes →
                (wp'.row (l.desc.ring + 96 + n)).full = mask.getLsbD n
                ∧ (wp'.row (l.desc.ring + 96 + n)).lane k = BitVec.ofNat 32 (s.mem.nat (pa + 256 * n + 4 * k) 4))
              ∧ same t)
          ∧ (allBack (s.tripsOf e) [stop] = true → (∀ x ∈ s.tripsOf e, x.bad = false) →
            ∃ t, exec e s = .next t ∧ t.warp? w = some wp ∧ t.slices = s.slices ∧ same t))
        ∧ (areaAnchor s e wp.core l.ctx wp.imageBase = none → s.tripsOf e = [] →
          ∃ t wp', exec e s = .next t ∧ t.warp? w = some wp' ∧ wp'.installed = true ∧ same t))

/-! ## Device queues, watches and walks -/

/-- Tier 2. R332, R333, R340, R341: a queue's request leaves its core; at its line a reservation takes TAIL or HEAD and raises
it where the queue has room or a record, and changes nothing where it has not; a push writes its seven words and SEQ once SEQ
is its index, a pop reads them and writes SEQ once SEQ is one more; until then the slice holds the request, or returns it
where it holds 64. A record's page is translated and checked before its request is made (R340). With LOGCAP out of range one
64-byte place chosen among those that an exponent names takes the record, as contained results, once SEQ is due: the model's
choice (log entry 33). -/
def Obligations.QueueRequests : Prop :=
  ∀ (s : State) (id : Nat) (o : Op) (p : Part) (push : Bool), s.Inv → s.ops.find? id = some o →
    let tagged : State → Prop := fun t => t.tags.get 0 p.line = s.tags.get 0 p.line + 1
    let passes := p.passed = true ∨ s.inScope p.home p.line o.scope (instOf o.scope o.core)
    (∀ k e, (k, e) ∈ [(0, Instr.pushReservation id), (0, .popReservation id), (1, .pushWrite id), (1, .popRead id)] →
      o.parts[k]? = some p → p.sent = false → p.rem = none → o.lineAccess = false →
      (k = 1 → o.parts.length ≠ 1) →
      ∃ t, exec e s = .next t ∧ s.left e (.core o.core) ⟨p.home, p.line, 1⟩ t
        ∧ (t.ops.find? id).bind (fun x => x.parts[k]?) = some { p with sent := true })
    ∧ (let e : Instr := if push then .pushWrite id else .popRead id
      let va := o.data.get 0 2 + BitVec.ofNat 64 (64 * ((o.data.get 0 1).toNat % 2 ^ (o.data.get 0 3).toNat))
      o.parts.length = 1 → unpinned s e o.ctx [va] = [] →
        (∀ f, translateFor s e o.core o.ctx .atomic false va = .error f →
          exec e s = .next (faultOp id 3 f.code va 0 f.aux (unpin e s)))
        ∧ ∀ p, translateFor s e o.core o.ctx .atomic false va = .ok p →
          (p.tr.node ≠ none → exec e s = .next (faultOp id 3 tRemote va 0 0 (unpin e s)))
          ∧ (p.tr.node = none → ∃ t x, exec e s = .next t ∧ t.ops.find? id = some x ∧ x.eng = p.pa
            ∧ x.parts = o.parts ++ [{ line := p.pa / 128, home := p.home, homeField := p.tr.home }]
            ∧ t.agenda = s.agenda ++ [e] ∧ ∀ a, t.mem.byte a = s.mem.byte a))
    ∧ (let e : Instr := if push then .pushReservation id else .popReservation id
      let pa := (o.lanes.headD {}).pa
      let ring := s.mem.nat pa 8
      let cap := s.mem.nat (pa + 8) 4
      let head := s.mem.nat (pa + 16) 8
      let tail := s.mem.nat (pa + 24) 8
      let held := (tail + 2 ^ 64 - head) % 2 ^ 64
      let ok := if push then held < 2 ^ cap else 0 < held
      let i := if push then tail else head
      let at_ := pa + if push then 24 else 16
      o.parts[0]? = some p → p.sent = true → pa % 64 = 0 → pa / 128 = p.line →
      s.served p.home p.line true e → passes → 1 ≤ cap → cap ≤ 20 →
      (ok → ∃ t, exec e s = .next t ∧ t.answered id 0 (fun q => q.done = true) ∧ tagged t
        ∧ (t.ops.find? id).map (fun x => (x.prog, x.data.get 0 0, x.data.get 0 1, x.data.get 0 2))
          = some (1, 1, BitVec.ofNat 64 i, BitVec.ofNat 64 ring)
        ∧ t.mem.nat at_ 8 = (i + 1) % 2 ^ 64
        ∧ ∀ a, a < at_ ∨ at_ + 8 ≤ a → t.mem.byte a = s.mem.byte a)
      ∧ (¬ ok → ∃ t, exec e s = .next t ∧ t.answered id 0 (fun q => q.done = true) ∧ t.tags = s.tags
        ∧ (t.ops.find? id).map (fun x => (x.prog, x.data.get 0 0)) = some (1, 0)
        ∧ ∀ a, t.mem.byte a = s.mem.byte a))
    ∧ (let e : Instr := if push then .pushWrite id else .popRead id
      let pa := o.eng
      let i := (o.data.get 0 1).toNat
      let seq := s.mem.nat (pa + 56) 8
      let due := if push then i else (i + 1) % 2 ^ 64
      o.parts[1]? = some p → p.sent = true → pa % 64 = 0 → pa / 128 = p.line → s.served p.home p.line true e → passes →
      (seq = due → push = true → o.regs.length = 7 → o.data.get 0 4 ≠ 1 →
        ∃ t, exec e s = .next t ∧ t.answered id 1 (fun q => q.done = true) ∧ tagged t
          ∧ (∀ k, k < 7 → t.mem.nat (pa + 8 * k) 8 = (o.regs.getD k 0).toNat)
          ∧ t.mem.nat (pa + 56) 8 = (i + 1) % 2 ^ 64
          ∧ ∀ a, a < pa ∨ pa + 64 ≤ a → t.mem.byte a = s.mem.byte a)
      ∧ (seq = due → push = false → o.data.get 0 4 ≠ 1 →
        ∃ t, exec e s = .next t ∧ t.answered id 1 (fun q => q.done = true) ∧ tagged t
          ∧ (∀ k, k < 7 → (t.ops.find? id).map (fun x => x.data.get 0 k) = some (BitVec.ofNat 64 (s.mem.nat (pa + 8 * k) 8)))
          ∧ t.mem.nat (pa + 56) 8 = (i + 2 ^ (o.data.get 0 3).toNat) % 2 ^ 64
          ∧ ∀ a, a < pa + 56 ∨ pa + 64 ≤ a → t.mem.byte a = s.mem.byte a)
      ∧ (seq = due → o.data.get 0 4 = 1 →
        ∃ t, exec e s = .next t ∧ t.answered id 1 (fun q => q.done = true) ∧ tagged t
          ∧ ∀ a, a < pa ∨ pa + 64 ≤ a → t.mem.byte a = s.mem.byte a)
      ∧ (seq ≠ due → ∃ t, exec e s = .next t ∧ t.tags = s.tags ∧ (∀ a, t.mem.byte a = s.mem.byte a)
        ∧ ((s.slice p.home).held.length < 64 → (t.slice p.home).held = (s.slice p.home).held ++ [e] ∧ t.ops = s.ops)
        ∧ (64 ≤ (s.slice p.home).held.length → Instr.heldRequestResend id ∈ t.agenda
          ∧ (t.ops.find? id).bind (fun x => x.parts[1]?) = some { p with sent := false }
          ∧ ∀ y ∈ t.trips, isTripOf ⟨id, 1⟩ y = false)))
    ∧ (o.parts[1]? = some p → p.sent = false → p.done = false → p.l1 = false → p.gather = false → p.check = false →
      p.isScratch = false → o.prog ≠ 0 → o.kind = (if push then .qpush else .qpop) →
      exec (.heldRequestResend id) s = .next (s.push [if push then .pushWrite id else .popRead id]))

/-- Tier 2. R25 to R27, R58, R62, R65, R67, R69, R146, R311: in its turn a watch waits at its slice while its word stands and
a place is free, and ends with its predicate saying whether it was woken; a walk's step reads one entry at its home slice
and goes on at its table, or ends the walk, a leaf going into the die's TLB and those of the cores that missed; a constant
line comes in from its home slice or is asked for at its node, or the instruction traps; a fetch that fails traps at the PC
being fetched. Which slice holds a table's line (log entry 97), and that of a 48-byte block the word's own bytes alone are
looked at (log entry 119), is the model's choice. -/
def Obligations.WatchesAndWalks : Prop :=
  ∀ (s : State) (r : SplitRef),
    let same : State → Prop := fun t => ∀ a, t.mem.byte a = s.mem.byte a
    (∀ sp n id, s.split? r = some sp → sp.wait = .watch n id →
      (∀ o p a, s.ops.find? id = some o → o.parts.head? = some p → o.lanes.head? = some a →
        let e := Instr.watchRequest r
        let stop : Stop := ⟨p.home, p.line, 1⟩
        (p.rem.isSome = true → exec e s = .next (s.push [.wokenDelivery r]))
        ∧ (p.rem = none →
          (s.leaves e (.core o.core) [stop] stop → ∃ t, exec e s = .next t ∧ s.left e (.core o.core) stop t)
          ∧ (∀ x, s.comes e (.core o.core) [stop] x →
            (a.pa % 4 = 0 → a.pa / 128 = p.line → s.served p.home p.line true e →
              let wakes := s.mem.nat a.pa 4 ≠ a.b.toNat % 2 ^ 32 ∨ 256 ≤ (s.slice p.home).watches.length
              ∃ t, exec e s = .next t ∧ t.replies e x (fun y => y.bad = x.bad) ∧ t.split? r = some sp ∧ same t
                ∧ (wakes → Instr.wokenDelivery r ∈ t.agenda ∧ (t.slice p.home).watches = (s.slice p.home).watches)
                ∧ (¬ wakes → (t.slice p.home).watches = (s.slice p.home).watches ++ [⟨id, r, o.core, p.line⟩]))
            ∧ ((s.sline p.home p.line).state = .busy → e ∉ (s.sline p.home p.line).waiters →
              ∃ t, exec e s = .next t ∧ s.queued e p.home p.line t))
          ∧ (allBack (s.tripsOf e) [stop] = true →
            ((∃ x ∈ s.tripsOf e, x.bad = true) → exec e s
              = .next (faultOp id 3 13 (BitVec.ofNat 64 (128 * p.line)) (lineMask o p.key) 0 (s.endTrips e)))
            ∧ ((∀ x ∈ s.tripsOf e, x.bad = false) → exec e s = .next (s.endTrips e)))))
      ∧ ∀ e v, (e, v) ∈ [(Instr.wokenDelivery r, true), (.waitmTimeout r, false)] →
        ∀ w, s.warp? (warpOf r) = some w →
        ∃ t w' x, exec e s = .next t ∧ t.warp? (warpOf r) = some w' ∧ t.split? r = some x ∧ x.wait = .none
          ∧ x.path = pcNext sp.path ∧ t.ops.find? id = none ∧ same t
          ∧ (n ≠ 0 → ∀ l, l < 64 → (w'.pred n).getLsbD l = if sp.path.mask.getLsbD l then v else (w.pred n).getLsbD l)
          ∧ ∀ k, w'.row k = w.row k)
    ∧ (∀ core ctx va level table m,
      let at_ := table + 8 * vaIndex va level
      let e := Instr.tableWalkStep core ctx va level table
      let q : Requester := .walker (coreDie core)
      let stops := walkStops s e at_
      let page := va.toNat / 65536
      (s.die (coreDie core)).misses.find? (fun m => m.ctx = ctx && m.page = page) = some m →
      let ends : State → Prop := fun t => (∀ k ∈ m.cores, (ctx, page) ∉ (t.core k).misses) ∧ same t
      (isHole at_ = true → ∃ t, exec e s = .next t ∧ ends t)
      ∧ (isHole at_ = false →
        (s.tripsOf e = [] → stops = [⟨tableHome s at_, at_ / 128, 1⟩])
        ∧ (∀ x, s.leaves e q stops x → ∃ t, exec e s = .next t ∧ s.left e q x t)
        ∧ (∀ x, s.comes e q stops x → x.line = at_ / 128 → s.served x.home x.line true e → ∃ t, exec e s = .next t
          ∧ t.replies e x (fun y => y.data = (BitVec.ofNat 64 (s.mem.nat at_ 8)).setWidth 1024 ∧ y.bad = x.bad) ∧ same t)
        ∧ (allBack (s.tripsOf e) stops = true →
          ((∃ x ∈ s.tripsOf e, x.bad = true) → ∃ t, exec e s = .next t ∧ ends t)
          ∧ ((∀ x ∈ s.tripsOf e, x.bad = false) →
            let pte : Dword := (tripData (s.tripsOf e) (at_ / 128)).setWidth 64
            (∀ f, decodePte level pte = .error f → ∃ t, exec e s = .next t ∧ ends t)
            ∧ (∀ b, decodePte level pte = .ok (.table b) →
              ∃ t, exec e s = .next t
                ∧ Instr.tableWalkStep core ctx va (level - 1) b ∈ t.agenda
                ∧ (ctx, level - 1, va.toNat / 2 ^ (16 + 13 * (level - 1)), b) ∈ (t.die (coreDie core)).walks
                ∧ (t.die (coreDie core)).walks.length ≤ 1024
                ∧ (t.die (coreDie core)).misses = (s.die (coreDie core)).misses ∧ same t)
            ∧ ∀ tr, decodePte level pte = .ok (.leaf tr) →
              let entry : TlbEntry := ⟨ctx, 65536 * page / 2 ^ (16 + 13 * (tr.level - 1)), tr⟩
              ∃ t, exec e s = .next t ∧ ends t ∧ (∀ k ∈ m.cores, entry ∈ (t.core k).tlb)
                ∧ entry ∈ (t.die (coreDie core)).tlb))))
    ∧ ∀ c, s.cxOf r = some c →
      (∀ vline, c.split.wait = .line →
        let va := BitVec.ofNat 64 (128 * vline)
        let e := Instr.constLineFetch r vline
        let q : Requester := .core c.core
        let trap : Nat → State → State := fun code s' =>
          { raiseTrap r ⟨3, 11, va, 0, BitVec.ofNat 64 code, c.path.pc⟩ (endWait r (unpin e s')) with cur := s.cur }
        unpinned s e c.ctx [va] = [] →
        (∀ p, translateFor s e c.core c.ctx .const false va = .ok p →
          (p.tr.node = none →
            let stop : Stop := ⟨p.home, p.pa / 128, 1⟩
            (s.leaves e q [stop] stop → ∃ t, exec e s = .next t ∧ s.left e q stop t)
            ∧ (∀ x, s.comes e q [stop] x → s.served x.home x.line true e → ∃ t, exec e s = .next t
              ∧ t.replies e x (fun y => y.data = s.mem.line x.line ∧ y.bad = x.bad) ∧ same t)
            ∧ (allBack (s.tripsOf e) [stop] = true →
              ((∃ x ∈ s.tripsOf e, x.bad = true) → exec e s = .next (trap tMemory (s.endTrips e)))
              ∧ ((∀ x ∈ s.tripsOf e, x.bad = false) →
                ∃ t x, exec e s = .next t ∧ t.split? r = some x ∧ x.wait = .none ∧ x.path = c.path
                  ∧ (⟨c.ctx, vline, tripData (s.tripsOf e) (p.pa / 128)⟩ : ConstLine) ∈ (t.core c.core).const ∧ same t)))
          ∧ (∀ n, p.tr.node = some n →
            ∃ t o, exec e s = .next t ∧ t.ops.find? s.nextOp = some o ∧ o.kind = .fetch
              ∧ o.order = 1 ∧ o.parts.map (fun x => (x.line, x.rem)) = [(p.pa / 128, some n)]
              ∧ (t.split? r).map (·.wait) = some .line ∧ same t))
        ∧ ∀ f, translateFor s e c.core c.ctx .const false va = .error f → exec e s = .next (trap f.code s))
      ∧ (codeWords s c c.path.pc = .error .fetch →
        exec (.instructionFetch r) s = .next (raiseTrap c.ref ⟨3, 12, BitVec.ofNat 64 (12 * c.path.pc.toNat), 0, 0, c.path.pc⟩ s))
      ∧ (∀ pa, codeWords s c c.path.pc = .error (.memory pa) →
        exec (.instructionFetch r) s = .next (raiseTrap c.ref ⟨3, 13, BitVec.ofNat 64 pa, 0, 0, c.path.pc⟩ s))
      ∧ (codeWords s c c.path.pc = .error .remote →
        ∃ t o, exec (.instructionFetch r) s = .next t ∧ t.ops.find? s.nextOp = some o ∧ o.kind = .fetch ∧ o.order = 0
          ∧ (t.split? r).map (·.wait) = some .line ∧ (t.split? r).map (·.path) = some c.path
          ∧ ∀ a, t.mem.byte a = s.mem.byte a)
      ∧ ∀ ws, codeWords s c c.path.pc = .ok ws →
        ∃ t, exec (.instructionFetch r) s = .next t ∧ t.cur = none ∧ t.teams = s.teams ∧ ∀ a, t.mem.byte a = s.mem.byte a

/-! ## Replies and exchanges -/

/-- Tier 2. R78, R89, R95, R102, R104, R119, R139, R153, R205, R207, R221, R266: an access that begins in the L1 finds its
line there, a load taking its data and a store going into it, or asks for it; the last answer of an operation of a resident
warp fills its destinations with the results, completes its production at the scopes reached and lets its split go on; a
refusal faults it. For a saved warp the image takes the results, by requests for its register and control blocks, and a
fault that comes late joins the image's list of incomplete operations and not the primary trap, which is the model's choice
(log entry 79). The reflector slice answers both lanes of an exchange when their counts meet, holds a posting that has no
partner yet, and gives a lane whose partner has exited its own value. -/
def Obligations.RepliesArrive : Prop :=
  ∀ (s : State) (id n : Nat) (o : Op) (w : Warp), s.Inv → s.ops.find? id = some o → s.warp? (warpOf o.ref) = some w →
    let e := Instr.replyArrival ⟨id, n⟩
    let same : State → Prop := fun t => ∀ a, t.mem.byte a = s.mem.byte a
    let now : Nat → State → Option Part := fun k t => (t.ops.find? id).bind (fun x => x.parts[k]?)
    let last : Prop := o.fault = none ∧ ∀ k q, o.parts[k]? = some q → q.back = true
      ∨ (k = n ∧ q.l1 = false ∧ q.refusal = none ∧ q.gather = false ∧ (q.check = true ∨ q.fill = true → o.kind = .load))
    (∀ p, o.parts[n]? = some p → p.back = false →
      (∀ x, p.refusal = some x → p.l1 = false → o.kind ≠ .fetch → o.fault = none → ∃ t, exec e s = .next t ∧ same t
        ∧ (t.ops.find? id).map (·.fault) = some (some { x with pc := o.pc })
        ∧ (now n t).map (fun q => (q.bad, q.done, q.sent, q.back)) = some (true, p.done, false, false)
        ∧ ∀ y ∈ t.trips, isTripOf ⟨id, n⟩ y = false)
      ∧ (p.l1 = true → p.isScratch = false → o.order = 0 → (∃ k q, k ≠ n ∧ o.parts[k]? = some q ∧ q.back = false) →
        (o.kind = .load →
          (∀ x, (s.core o.core).l1Find p.key = some x → x.state ≠ .uo → p.ctxPage = false →
            p.rem ≠ none ∨ mixedHome s p.home p.line = false → ∃ t, exec e s = .next t ∧ same t
            ∧ now n t = some { p with l1 := false, ldata := x.data, done := true, back := true }
            ∧ (t.core o.core).l1.getLast? = some { x with hint := (s.core o.core).newHint p.key o.hint x.hint })
          ∧ ((s.core o.core).l1Find p.key = none → p.gather = false → p.check = false → ∃ t, exec e s = .next t ∧ same t
            ∧ now n t = some { p with l1 := false, fill := true } ∧ t.agenda = s.agenda ++ [.sliceLoad ⟨id, n⟩]))
        ∧ (o.kind = .store → ∀ x, (s.core o.core).l1Find p.key = some x → x.state ≠ .uo → ∃ t y, exec e s = .next t ∧ same t
          ∧ now n t = some (written p) ∧ (t.core o.core).l1Find p.key = some y ∧ y.state = .dty
          ∧ y.data = overlay x.data (storeData o p.key).1 (storeData o p.key).2
          ∧ y.bmask = x.bmask ||| (storeData o p.key).2 ∧ y.ops = x.ops ++ [id])))
    ∧ (s.resident o.ref.team = true →
      let ended : State → Warp → Prop := fun t w' => t.ops.find? id = none ∧ t.warp? (warpOf o.ref) = some w'
        ∧ (∀ a, t.mem.byte a = s.mem.byte a)
        ∧ (o.produces = true → w'.key o.pk = (w.key o.pk).complete o.prodn (if o.doneCore then [1, 2, 3, 4] else [0, 1, 2, 3, 4]) o.code)
      (last → ∀ k, (o.lanes.map (·.lane)).Nodup → o.dests = [.row k] → o.bcast = 0 →
        (o.kind = .load → o.parts ≠ [] → o.parts.any Part.isScratch = false → ∃ t w', exec e s = .next t ∧ ended t w'
          ∧ (w'.row k).full = !w.refilling (ringOf s (warpOf o.ref)) k
          ∧ ∀ a ∈ o.lanes, (w'.row k).lane a.lane = BitVec.ofNat 32 (extendTo o.ty (laneBytes o a)))
        ∧ (o.kind = .atomic ∨ o.kind = .atomc → tySize o.ty = 4 → o.fn < 32 →
          ∃ t w', exec e s = .next t ∧ ended t w' ∧ (w'.row k).full = !w.refilling (ringOf s (warpOf o.ref)) k
            ∧ (o.code ≠ 6 → ∀ a ∈ o.lanes, (w'.row k).lane a.lane = (o.data.get 0 (8 * a.lane)).setWidth 32)))
      ∧ (last → o.kind = .store ∨ o.kind = .red ∨ o.kind = .discard → o.dests = [] → o.produces = true →
        ((∀ p ∈ o.parts, p.wb = false) → ∃ t w', exec e s = .next t ∧ ended t w')
        ∧ (o.doneCore = false → (∃ p ∈ o.parts, p.wb = true) → ∃ t w', exec e s = .next t
          ∧ (t.ops.find? id).map (·.doneCore) = some true ∧ t.warp? (warpOf o.ref) = some w'
          ∧ w'.key o.pk = (w.key o.pk).complete o.prodn [0] o.code ∧ ∀ a, t.mem.byte a = s.mem.byte a))
      ∧ (last → o.kind = .pubv ∨ (o.kind = .vchk ∧ o.order = 0) ∨ (o.kind = .qpush ∧ o.prog = 1 ∧ o.data.get 0 0 ≠ 1) →
        o.dests = [] → ∃ t w', exec e s = .next t ∧ ended t w'
          ∧ (o.rm ≠ 0 → ∀ l, l < 64 → (w'.pred o.rm).getLsbD l
            = if o.bcast.getLsbD l then decide (o.data.get 0 0 = 1) else (w.pred o.rm).getLsbD l)
          ∧ ∀ sp, s.split? o.ref = some sp → sp.wait = .reply id →
              ∃ x, t.split? o.ref = some x ∧ x.wait = .none ∧ x.path = sp.path)
      ∧ (∀ l, last → launchOf s (warpOf o.ref) = some l → o.kind = .empty → o.dests = [] →
        ∃ t w', exec e s = .next t ∧ ended t w' ∧ ∀ j, j < 32 →
          (w'.row (l.desc.ring + 96 + j)).full = ((w.row (l.desc.ring + 96 + j)).full && !o.val.getLsbD j))
      ∧ (∀ p k q, o.parts[n]? = some p → p.back = false → p.l1 = false → p.refusal = none → p.check = false →
        p.gather = false → k ≠ n → o.parts[k]? = some q → q.back = false →
        ∃ t, exec e s = .next t ∧ same t ∧ (now n t).map (·.back) = some true ∧ now k t = some q
          ∧ (t.ops.find? id).map (·.doneCore) = some o.doneCore ∧ ∀ y ∈ t.trips, isTripOf ⟨id, n⟩ y = false)
      ∧ (∀ l v k a, o.lane? l = some a → o.dests = [.row k] → o.bcast = 0 → (o.lanes.map (·.lane)).Nodup →
        (o.prog + 1 ≠ o.lanes.length → ∃ t, exec (.xshflDelivery id l v) s = .next t
          ∧ (t.ops.find? id).map (fun x => (x.prog, x.data.get 0 (8 * l)))
            = some (o.prog + 1, (v.setWidth 32 : Word).setWidth 64))
        ∧ (o.prog + 1 = o.lanes.length → ∃ t w', exec (.xshflDelivery id l v) s = .next t ∧ ended t w'
          ∧ (w'.row k).full = !w.refilling (ringOf s (warpOf o.ref)) k ∧ (w'.row k).lane l = v.setWidth 32
          ∧ ∀ b ∈ o.lanes, b.lane ≠ l → (w'.row k).lane b.lane = (o.data.get 0 (8 * b.lane)).setWidth 32)))
    ∧ (∀ l a, o.lane? l = some a →
      let me := warpOf o.ref
      let home := reflector o.core
      let e := Instr.xshflPosting id l
      let stop : Stop := ⟨home, partnerLine, 1⟩
      (s.leaves e (.core o.core) [stop] stop → ∃ t, exec e s = .next t ∧ s.left e (.core o.core) stop t)
      ∧ (∀ x, s.comes e (.core o.core) [stop] x →
        let gone := partnerGone (s.modTrip x.id (fun x => { x with stage := .there })) me l
        (∀ b, postingOf s home (partner me) l = some b → b.count = a.c →
          ∃ t, exec e s = .next t ∧ t.agenda = s.agenda ++
              [.xshflDelivery b.op l a.b, .xshflDelivery id l b.val, .replyArrival ⟨x.id, 0⟩, e]
            ∧ b ∉ (t.slice home).exch ∧ same t)
        ∧ ((∀ b, postingOf s home (partner me) l = some b → b.count ≠ a.c) →
          (gone = true → ∃ t, exec e s = .next t
            ∧ t.agenda = s.agenda ++ [.xshflDelivery id l a.b, .replyArrival ⟨x.id, 0⟩, e] ∧ same t)
          ∧ (gone = false → ∃ t, exec e s = .next t ∧ t.agenda = s.agenda ++ [.replyArrival ⟨x.id, 0⟩, e]
            ∧ (t.slice home).exch = (s.slice home).exch ++ [⟨id, me, l, a.c, a.b⟩] ∧ same t)))
      ∧ (allBack (s.tripsOf e) [stop] = true → exec e s = .next (s.endTrips e)))
    ∧ (∀ v l b x, postingOf s (reflectorOf s v) (partner v) l = some b →
      s.comes (.laneExitNotice v l) (.core (s.warpCore v)) [⟨reflectorOf s v, partnerLine, 1⟩] x →
        ∃ t, exec (.laneExitNotice v l) s = .next t
          ∧ t.agenda = s.agenda ++ [.xshflDelivery b.op l b.val, .replyArrival ⟨x.id, 0⟩, .laneExitNotice v l]
          ∧ b ∉ (t.slice (reflectorOf s v)).exch ∧ same t)
    ∧ (∀ tm, s.team? o.ref.team = some tm → tm.status ≠ .saving →
      let e := Instr.imageWrite id
      let q : Requester := .core o.core
      let stops := imageStops s e o w tm
      let block : Trip → List (Nat × Nat) := fun x => (List.range 128).map (fun k => (x.home, x.line + k))
      let at_ : Dword → Option Stop := blockStop s e w.core o.ctx
      unpinned s e o.ctx (imageVas o w tm) = [] →
        (∀ x, s.leaves e q stops x → ∃ t, exec e s = .next t ∧ s.left e q x t)
        ∧ (∀ x k, s.comes e q stops x → o.doneWide = true → o.dests = [.row k] → at_ (rowPlace w (63 * (k / 63))) = some x.stop →
          s.servedAll (block x) e → o.bcast = 0 → (o.lanes.map (·.lane)).Nodup → (∀ a ∈ o.lanes, a.lane < 64) →
          let base := 128 * x.line
          let old := s.mem.nat (base + 16128) 8
          ∃ t, exec e s = .next t ∧ t.replies e x (fun y => y.bad = x.bad)
            ∧ (∀ a ∈ o.lanes, t.mem.nat (base + 256 * (k % 63) + 4 * a.lane) 4 = (o.data.get 0 (8 * a.lane)).toNat % 2 ^ 32)
            ∧ t.mem.nat (base + 16128) 8
              = (if w.refilling (ringOf s (warpOf o.ref)) k then old else Nat.lor old (2 ^ (k % 63)))
            ∧ ∀ a, (a < base + 256 * (k % 63) ∨ base + 256 * (k % 63) + 256 ≤ a) → (a < base + 16128 ∨ base + 16136 ≤ a) →
                t.mem.byte a = s.mem.byte a)
        ∧ (∀ x j, s.comes e q stops x → o.doneWide = true → o.dests = [.s j] → j < 64 → o.produces = false →
          o.owedPred = none → w.indet = [] → at_ (ctlBlock w 0) = some x.stop → s.servedAll (block x) e →
          let base := 128 * x.line
          ∃ t, exec e s = .next t ∧ t.replies e x (fun y => y.bad = x.bad) ∧ (t.ops.find? id).map (·.counted) = some true
            ∧ t.mem.nat (base + 8 * j) 8 = (o.data.get 0 0).toNat
            ∧ t.mem.nat (base + 0x200) 8 = Nat.lor (s.mem.nat (base + 0x200) 8) (2 ^ j)
            ∧ (o.counted = false → id ∉ tm.incs → t.mem.nat (base + 0x20C) 4 = s.mem.nat (base + 0x20C) 4 - 1)
            ∧ ∀ a, (a < base + 8 * j ∨ base + 8 * j + 8 ≤ a) → (a < base + 0x200 ∨ base + 0x208 ≤ a) →
                (a < base + 0x20C ∨ base + 0x210 ≤ a) → t.mem.byte a = s.mem.byte a)
        ∧ (allBack (s.tripsOf e) stops = true → (∀ x ∈ s.tripsOf e, x.bad = false) → at_ (ctlBlock w 0) ≠ none →
          (o.counted = true → o.doneWide = true → ∃ t, exec e s = .next t ∧ t.ops.find? id = none ∧ same t)
          ∧ (o.counted = true → o.doneWide = false → o.fault.isSome = true → ∃ t tm', exec e s = .next t ∧ same t
            ∧ t.team? o.ref.team = some tm' ∧ id ∈ tm'.incs ∧ tm'.halt = tm.halt)
          ∧ (o.counted = false → ∃ t, exec e s = .next t ∧ t.ops = s.ops ∧ t.teams = s.teams ∧ same t)))

/-! ## The copy engines -/

/-- Tier 2. R163, R165 to R167, R171, R173, R177, R179: a descriptor enters its engine's FIFO, or is over at once where it
moves no bytes; the head of the FIFO starts while fewer than four copies run and asks for its first 16 chunks; a chunk reads
its source bytes, from global memory line by line at the home slices or from the scratchpad, the partner's, or a slot of the
area, and then writes them to its destination and no other byte; where it meets a fault the copy stops there; a chunk of CPYR
sends one packet for each line of the remote side, or none; a query or cancel answers with the state of the copy that the
engine accepted last under the handle, a running copy coming to its chunk boundary before it is cancelled. That a chunk has
read all its source bytes before it writes, in an event of its own, is the model's choice (log entry 27); of a slot that has
been released since the copy's issue nothing is said but that no byte outside the range changes. -/
def Obligations.CopyEngines : Prop :=
  ∀ (s : State) (id : Nat) (o : Op), s.Inv → s.ops.find? id = some o →
    let h := copyShape o.instr o.regs
    let g := s.engine (engineOf o)
    let same : State → Prop := fun t => ∀ a, t.mem.byte a = s.mem.byte a
    ((h.empty = false → ∃ t, exec (.copyDescriptorEnqueue id) s = .next t
        ∧ (t.engine (engineOf o)).fifo = g.fifo ++ [id] ∧ (t.engine (engineOf o)).accepted = g.accepted + 1
        ∧ (t.ops.find? id).map (·.entered) = some g.accepted
        ∧ t.agenda = s.agenda ++ [.copyStart (o.core / 16) o.eng] ∧ same t)
      ∧ (h.empty = true → ∃ t, exec (.copyDescriptorEnqueue id) s = .next t
        ∧ (copyKey o.ctx o.val, g.accepted, statusWord 2 0 o.prog) ∈ (t.engine (engineOf o)).retained
        ∧ (s.resident o.ref.team = true → t.ops.find? id = none) ∧ same t))
    ∧ (∀ die eng rest, eng < 12 → (s.engine (12 * die + eng)).fifo = id :: rest →
      (4 ≤ (s.engine (12 * die + eng)).running.length → exec (.copyStart die eng) s = .next s)
      ∧ ((s.engine (12 * die + eng)).running.length < 4 → o.prog = 0 → o.mask = 0 → 0 < h.chunks →
        ∃ t, exec (.copyStart die eng) s = .next t ∧ (t.engine (12 * die + eng)).fifo = rest
          ∧ (t.engine (12 * die + eng)).running = (s.engine (12 * die + eng)).running ++ [id]
          ∧ (t.ops.find? id).map (·.running) = some true
          ∧ t.agenda = s.agenda ++ (List.range (min 16 h.chunks)).map (fun i => .copyChunk id i) ++ [.copyStart die eng]
          ∧ same t))
    ∧ (∀ (k src dst n x0 : Nat) (tm : Team), o.running = true → h.chunk k = some (src, dst, n, x0) →
      s.team? o.ref.team = some tm →
      let e := Instr.copyChunk id k
      let q : Requester := .engine (engineOf o)
      let ps := chunkParts o k
      let place : Nat → Nat → Team → Store × Nat := fun kind addr tm =>
        let own := tm.areas.get {} o.area
        match kind with
        | 1 => (own.scratch, addr)
        | 2 => ((tm.areas.get {} (1 - o.area)).scratch, addr)
        | 3 => (own.aslots.get {} (addr / 65536 % 32), addr % 65536)
        | _ => (own.wslots.get {} (addr / 65536 % 32), addr % 65536)
      let held : State → List Byte → Prop := fun t bs => same t ∧ e ∈ t.agenda
        ∧ ((t.ops.find? id).map (fun x => (chunkParts x k).map (fun p => (p.done, p.ldata))))
          = some [(true, bitsOfBytes 1024 bs)]
      let noted : State → Prop := fun t => ∀ x, t.ops.find? id = some x → o.prog ≤ k → k < o.prog + 16 →
        k < x.prog ∨ x.mask.getLsbD (k - x.prog) = true
      let faulted : Nat → Nat → State → Prop := fun code va t => same t
        ∧ (t.ops.find? id).bind (·.fault) = (o.fault <|> some ⟨3, code, BitVec.ofNat 64 va, 0, o.val, o.pc⟩)
        ∧ (t.ops.find? id).map (fun x => x.running && !x.stopping) = some false
      (ps = [] → o.stopping = false → h.fill = none → h.node = none ∨ h.dir = true →
        (1 ≤ h.srck → h.srck ≤ 4 → ∃ t, exec e s = .next t ∧ held t ((place h.srck src tm).1.read (place h.srck src tm).2 n))
        ∧ (h.srck = 0 → unpinned s e o.ctx (pieceVas (segsOf src n)) = [] →
          (∀ x, segsPhys s e o false none (segsOf src n) = .error x → ∃ t, exec e s = .next t ∧ faulted x.2.code x.1 t)
          ∧ ∀ gs, segsPhys s e o false none (segsOf src n) = .ok gs →
            (∀ x, s.leaves e q (segStops gs) x → ∃ t, exec e s = .next t ∧ s.left e q x t)
            ∧ (∀ x, s.comes e q (segStops gs) x → s.served x.home x.line true e → ∃ t, exec e s = .next t
              ∧ t.replies e x (fun y => y.data = s.mem.line x.line ∧ y.bad = x.bad) ∧ same t)
            ∧ (allBack (s.tripsOf e) (segStops gs) = true →
              (∀ x, (s.tripsOf e).find? (·.bad) = some x → ∃ t, exec e s = .next t ∧ faulted 13 (128 * x.line) t)
              ∧ ((∀ x ∈ s.tripsOf e, x.bad = false) →
                ∃ t, exec e s = .next t ∧ held t (segBytes (s.tripsOf e) gs)))))
      ∧ (∀ bs, bs.length = n → (∃ v, ps = [] ∧ o.stopping = false ∧ h.fill = some v
            ∧ bs = (List.range n).map (fun i => v.extractLsb' (8 * ((x0 + i) % 8)) 8))
          ∨ (∃ p, ps.head? = some p ∧ h.node = none ∧ bs = (List.range n).map (fun i => lineByte p.ldata i))
          ∨ (h.node.isSome = true ∧ h.dir = false ∧ o.code ≠ 6 ∧ ps ≠ [] ∧ (∀ p ∈ ps, p.done = true ∧ p.bad = false)
            ∧ bs = ((segsOf src n).zip ps).flatMap (fun x =>
                (List.range x.1.2).map (fun i => lineByte x.2.ldata (x.1.1 % 128 + i)))) →
        (1 ≤ h.dstk → h.dstk ≤ 4 → ∃ t tm', exec e s = .next t ∧ same t ∧ noted t ∧ t.team? o.ref.team = some tm'
          ∧ (h.dstk < 3 ∨ (s.claim o.ref.team o.area (h.dstk = 4) (h.dst / 65536)).epoch = o.epoch →
            (place h.dstk dst tm').1.read (place h.dstk dst tm').2 n = bs)
          ∧ (∀ x, x < (place h.dstk dst tm).2 ∨ (place h.dstk dst tm).2 + n ≤ x →
            (place h.dstk dst tm').1.byte x = (place h.dstk dst tm).1.byte x)
          ∧ ∀ kind addr, 1 ≤ kind → kind ≤ 4 → kind ≠ h.dstk ∨ (3 ≤ kind ∧ addr / 65536 % 32 ≠ dst / 65536 % 32) →
            (place kind addr tm').1 = (place kind addr tm).1)
        ∧ (h.dstk = 0 → unpinned s e o.ctx (pieceVas (segsOf dst n)) = [] →
          (∀ x, segsPhys s e o true none (segsOf dst n) = .error x → ∃ t, exec e s = .next t ∧ faulted x.2.code x.1 t)
          ∧ ∀ gs, segsPhys s e o true none (segsOf dst n) = .ok gs →
            (∀ x, s.leaves e q (segStops gs) x → ∃ t, exec e s = .next t ∧ s.left e q x t)
            ∧ (∀ x, s.comes e q (segStops gs) x → (∀ g ∈ gs, g.pa % 128 + g.n ≤ 128) → s.servedAll [(x.home, x.line)] e →
              ∃ t, exec e s = .next t ∧ t.replies e x (fun y => y.bad = x.bad) ∧ t.ops = s.ops
                ∧ (∀ a, t.mem.byte a = (pieceByte x.home x.line a gs bs).getD (s.mem.byte a))
                ∧ ∀ g, gs = [g] → g.home = x.home → g.pa / 128 = x.line →
                  t.tags.get 0 x.line = s.tags.get 0 x.line + 1)
            ∧ (allBack (s.tripsOf e) (segStops gs) = true →
              (∀ x, (s.tripsOf e).find? (·.bad) = some x → ∃ t, exec e s = .next t ∧ faulted 13 (128 * x.line) t)
              ∧ ((∀ x ∈ s.tripsOf e, x.bad = false) → ∃ t, exec e s = .next t ∧ noted t ∧ same t))))
      ∧ (∀ node theirs (bs : List Byte), h.node = some node → h.fill = none →
          (h.dir = false ∧ ps = [] ∧ o.stopping = false ∧ theirs = src ∧ bs = [])
          ∨ (h.dir = true ∧ ps ≠ [] ∧ (∀ p ∈ ps, p.done = true ∧ p.bad = false ∧ p.rem = none) ∧ theirs = dst
            ∧ ∃ p, ps.head? = some p ∧ bs = (List.range n).map (fun i => lineByte p.ldata i)) →
        unpinned s e o.ctx (pieceVas (segsOf theirs n)) = [] →
        (∀ x, segsPhys s e o h.dir (some node) (segsOf theirs n) = .error x →
          ∃ t, exec e s = .next t ∧ faulted x.2.code x.1 t)
        ∧ ∀ g, segsPhys s e o h.dir (some node) (segsOf theirs n) = .ok [g] →
          let here := if h.dir then s.modOp id (fun x => { x with parts := x.parts.filter (fun p => p.chunk ≠ k) }) else s
          let d := placeBytes (g.pa % 128) ((bs.drop ((g.va + 2 ^ 64 - theirs) % 2 ^ 64)).take g.n) 0 0
          let line := { (default : Packet) with addr := g.pa / 128 * 128, count := 128, home := g.homeField }
          let packet := if h.dir then { line with kind := .write, data := d.1, bmask := d.2 } else { line with kind := .read }
          let sent := fabricSend (o.core / 16) node packet id 0 here
          (∀ s' seq, sent = .ok s' seq → ∃ t, exec e s = .next t ∧ same t ∧ t.txPackets = s'.txPackets
            ∧ (t.ops.find? id).map (fun x => (chunkParts x k).map (fun p => (p.line, p.rem, p.seq, p.done)))
              = some [(g.pa / 128, some node, seq, false)])
          ∧ (sent = .full → exec e s = .next (s.push [e]))
          ∧ (sent = .noRoute → ∃ t, exec e s = .next t ∧ faulted 8 theirs t))
      ∧ (h.node.isSome = true → h.dir = true → (∀ p ∈ ps, p.done = true ∧ p.bad = false) → (∃ p ∈ ps, p.rem.isSome = true) →
        ∃ t, exec e s = .next t ∧ noted t ∧ same t))
    ∧ (let eng := (o.val.extractLsb' 52 4).toNat
      let e := 12 * (o.core / 16) + eng
      let g := s.engine e
      let key := copyKey o.ctx o.val
      let old := g.retained.filter (fun x => x.1 = key)
      let status := fun (state code done : Nat) => BitVec.ofNat 64 (2 ^ 62 * state + 2 ^ 40 * code + done % 2 ^ 40)
      let tells : Dword → Prop := fun v => ∃ t, exec (.copyQueryRequest id) s = .next t
        ∧ (t.ops.find? id).map (fun x => x.data.get 0 0) = some v ∧ Instr.replyArrival ⟨id, 0⟩ ∈ t.agenda ∧ same t
      (12 ≤ eng → tells (status 3 0 0))
      ∧ (eng < 12 →
        (∀ q, lastMatch s key (g.fifo ++ g.running) = some q → q.1 ≠ id → (∀ x ∈ old, x.2.1 ≤ q.2.entered) →
          (q.2.running = false → o.cancelled = false → tells (status 0 0 q.2.prog))
          ∧ (q.2.running = false → o.cancelled = true → tells (status 2 7 0))
          ∧ (q.2.running = true → o.cancelled = false → tells (status 1 0 q.2.prog))
          ∧ (q.2.running = true → o.cancelled = true → ∃ t, exec (.copyQueryRequest id) s = .next t
            ∧ Instr.copyQueryRequest id ∈ t.agenda ∧ same t
            ∧ (q.2.parts ≠ [] ∨ chunksUnderWay s q.1 = true → (t.ops.find? q.1).map (·.stopping) = some true)
            ∧ (q.2.parts = [] → chunksUnderWay s q.1 = false → q.2.fault = none → engineOf q.2 = e →
              (copyKey q.2.ctx q.2.val, q.2.entered, status 2 7 q.2.prog) ∈ (t.engine e).retained)))
        ∧ (lastMatch s key (g.fifo ++ g.running) = none → old = [] → tells (status 3 0 0))
        ∧ ∀ x ∈ old, (∀ y ∈ old, y.2.1 < x.2.1 ∨ y = x) →
          (∀ q, lastMatch s key (g.fifo ++ g.running) = some q → q.2.entered < x.2.1) → tells x.2.2))

/-! ## The window engine and the scheduler -/

/-- Tier 2. R296, R298 to R302, R327, R328, R382, R395 to R397: a spill translates its row's page, reads the full row out, and its
words reach the arena; a refill brings them back and fills the row, each by requests at the home slices of its lines; a fault of either halts the
team; a conflict moves the range at once so that it holds the frame; a quadrant chooses only a split that may issue, of an
active warp, and chooses the one that is ready; a forced demotion swaps two warps; a park count that has expired lets its
path run; a hang is reported once, by its record and a host event, and changes no result; a core sleeps and wakes. The split
that a spill's or refill's fault is charged to (log entry 42) and the pending warp that a forced demotion promotes (log entry
44) are the model's choice. -/
def Obligations.WindowAndScheduler : Prop :=
  ∀ (s : State), s.Inv →
    let same : State → Prop := fun t => ∀ a, t.mem.byte a = s.mem.byte a
    (∀ (w : WarpRef) (wp : Warp) (l : Launch), s.warp? w = some wp → launchOf s w = some l →
      (∀ r, wp.spill = [r] → (wp.row (r % max 1 l.desc.ring)).full = true → spillOp s w r = none →
        (s.team? w.team).map (·.status) = some .running →
        let e := Instr.spillStep w
        let va := arenaAddr l.desc r
        unpinned s e l.ctx [va] = [] →
        (∀ f, translateFor s e wp.core l.ctx .spill false va = .error f →
          exec e s = .next (unpin e (windowFault w f.code va f.aux s)))
        ∧ ∀ p, translateFor s e wp.core l.ctx .spill false va = .ok p →
          ∃ t wp' o, exec e s = .next t ∧ t.warp? w = some wp' ∧ wp'.spill = []
            ∧ wp'.lo = (if r = wp.lo ∧ r < wp.hi then wp.lo + 1 else wp.lo) ∧ wp'.hi = wp.hi
            ∧ wp'.upTo = max wp.upTo (r + 1)
            ∧ t.ops.find? s.nextOp = some o ∧ o.kind = .spill ∧ o.prog = r
            ∧ o.data = (List.range l.desc.lanes).map (fun k => (k, ((wp.row (r % max 1 l.desc.ring)).lane k).setWidth 64))
            ∧ (l.desc.lanes ∈ [16, 32, 64] → spillSegs o = rowSegs p va l.desc.lanes)
            ∧ t.agenda = s.agenda ++ [.arenaWritePerformed w r] ∧ same t)
      ∧ (∀ row, row ∈ wp.refill → s.resident w.team = true → l.desc.lanes ∈ [16, 32, 64] →
        let e := Instr.refillRow w row
        let q : Requester := .core wp.core
        let va := arenaAddr l.desc row
        (s.tripsOf e = [] → refillOpen s w row = false → exec e s = .next (s.push [e]))
        ∧ (s.tripsOf e ≠ [] ∨ refillOpen s w row = true → unpinned s e l.ctx [va] = [] →
          (∀ f, translateFor s e wp.core l.ctx .spill false va = .error f →
            exec e s = .next (windowFault w f.code va f.aux (unpin e s)))
          ∧ ∀ p, translateFor s e wp.core l.ctx .spill false va = .ok p → p.pa % (4 * l.desc.lanes) = 0 →
            let stops := segStops (rowSegs p va l.desc.lanes)
            (∀ x, s.leaves e q stops x → ∃ t, exec e s = .next t ∧ s.left e q x t)
            ∧ (∀ x, s.comes e q stops x → s.served x.home x.line true e → ∃ t, exec e s = .next t
              ∧ t.replies e x (fun y => y.data = s.mem.line x.line ∧ y.bad = x.bad) ∧ t.warp? w = some wp ∧ same t)
            ∧ (allBack (s.tripsOf e) stops = true →
              (∀ x, (s.tripsOf e).find? (·.bad) = some x → exec e s
                = .next (windowFault w 13 (BitVec.ofNat 64 (128 * x.line)) 0 (unpin e (s.endTrips e))))
              ∧ ((∀ x ∈ s.tripsOf e, x.bad = false) →
                ∃ t wp', exec e s = .next t ∧ t.warp? w = some wp' ∧ row ∉ wp'.refill
                  ∧ (wp'.row (row % max 1 l.desc.ring)).full = true
                  ∧ (∀ k, k < l.desc.lanes → (wp'.row (row % max 1 l.desc.ring)).lane k
                    = (tripData (s.tripsOf e) ((p.pa + 4 * k) / 128)).extractLsb' (8 * ((p.pa + 4 * k) % 128)) 32)
                  ∧ (∀ k, k ≠ row % max 1 l.desc.ring → wp'.row k = wp.row k) ∧ same t))))
      ∧ ∀ (row id : Nat) (o : Op) (n : Nat) (f : Nat → Dword), spillOp s w row = some (id, o) →
        o.data = (List.range n).map (fun k => (k, f k)) →
        let e := Instr.arenaWritePerformed w row
        let q : Requester := .core o.core
        let gs := spillSegs o
        let faulted : Nat → Dword → State → Prop := fun code at_ t =>
          (t.ops.find? id).bind (·.fault) = some { cls := 3, code := code, addr := at_ } ∧ same t
        (∀ x, s.leaves e q (segStops gs) x → ∃ t, exec e s = .next t ∧ s.left e q x t)
        ∧ (∀ x, s.comes e q (segStops gs) x → (∀ g ∈ gs, g.pa % 128 + g.n ≤ 128) → s.servedAll [(x.home, x.line)] e →
          ∃ t, exec e s = .next t ∧ t.replies e x (fun y => y.bad = x.bad) ∧ t.ops = s.ops
            ∧ ∀ a, t.mem.byte a = (pieceByte x.home x.line a gs
                ((List.range n).flatMap (fun k => leBytes 4 (f k).toNat))).getD (s.mem.byte a))
        ∧ (allBack (s.tripsOf e) (segStops gs) = true →
          (∀ x, (s.tripsOf e).find? (·.bad) = some x →
            ∃ t, exec e s = .next t ∧ faulted 13 (BitVec.ofNat 64 (128 * x.line)) t)
          ∧ ((∀ x ∈ s.tripsOf e, x.bad = false) → ∃ t, exec e s = .next t ∧ t.ops.find? id = none ∧ same t)))
    ∧ (∀ (r : SplitRef) (c : Cx), s.cxOf r = some c →
      (c.warp.wants c.split = none → exec (.windowConflictTimeout r) s = .next s)
      ∧ ∀ b top, c.warp.wants c.split = some (b, top) →
        let rows := if b < c.warp.lo then (rowsFrom (max c.warp.lo (b + c.ring)) c.warp.hi).reverse
          else rowsFrom c.warp.lo (min c.warp.hi (top - c.ring))
        (c.warp.spill ≠ [] → exec (.windowConflictTimeout r) s = .next (s.push [.windowConflictTimeout r]))
        ∧ (c.warp.spill = [] → (∀ e, c.warp.served = some e → e.1 = r.split) →
          (∀ e, c.warp.growing = some e → e.1 = r.split) →
          (rows = [] → exec (.windowConflictTimeout r) s = .next s)
          ∧ (rows ≠ [] → ∃ t w, exec (.windowConflictTimeout r) s = .next t
            ∧ t.warp? (warpOf r) = some w ∧ w.spill = rows ∧ Instr.spillStep (warpOf r) ∈ t.agenda
            ∧ (b < c.warp.lo → w.hi = b + c.ring ∧ w.lo = min c.warp.lo (b + c.ring))
            ∧ (c.warp.lo ≤ b → w.lo = top - c.ring ∧ w.hi = max c.warp.hi (top - c.ring)) ∧ same t)))
    ∧ (∀ core quad,
      (∃ t, exec (.warpIssueSelect core quad) s = .next t ∧ (∀ a, t.mem.byte a = s.mem.byte a)
        ∧ (s.cur.isSome = true ∨ (s.core core).powered = false → t = s)
        ∧ (s.cur = none → ∀ r, t.cur = some r → ∃ c, t.cxOf r = some c ∧ r ∈ (quadWarps t core quad).flatMap (splitRefs t)
            ∧ c.warp.active = true ∧ mayIssue c = true ∧ notWaiting c = true ∧ windowOpen c = true))
      ∧ (∀ r c, s.cur = none → (s.core core).powered = true → s.cxOf r = some c → quadWarps s core quad = [warpOf r] →
        splitRefs s (warpOf r) = [r] → c.warp.active = true → ready s c = true → c.split.settled = true →
        c.split.wait = .none → c.warp.holds c.path = true → c.split.blocked = none → breakpointAt c = none →
        pagesMissing s c.split.held c.core c.ctx [codeAddr c.path.pc, codeAddr c.path.pc + 11] = [] → (∀ n tm, s.team? n = some tm → tm.step = none) →
        ∃ t, exec (.warpIssueSelect core quad) s = .next t ∧ t.cur = some r ∧ (∀ v, t.warp? v = s.warp? v)
          ∧ ∀ n, (t.team? n).map Team.bare = (s.team? n).map Team.bare)
      ∧ ∀ d p, longest s (activeWarps s core quad) = some d → longest s (readyPending s core quad) = some p →
        ∃ t, exec (.forcedDemotionTimeout core quad) s = .next t ∧ (t.warp? d).map (·.active) = some false
          ∧ (t.warp? p).map (·.active) = some true ∧ ∀ a, t.mem.byte a = s.mem.byte a)
    ∧ (∀ r sp, s.split? r = some sp →
      ∃ t, exec (.parkCountExpiry r) s = .next t
        ∧ t.split? r = some (if 32 ≤ sp.parkCount then { sp with settled := true, park := false, parkCount := 0 } else sp))
    ∧ (∀ w tm l, s.team? w.team = some tm → launchOfTeam s w.team = some l →
      let e := Instr.hangReport w
      let q : Requester := .command tm.die
      let core := tm.cores.headD 0
      let record : Region := ⟨recordVa tm, 32768, fun _ => hangRecord s w⟩
      (hangDue s w = false → (∀ wp, s.warp? w = some wp → wp.reporting = false) → exec e s = .next (forget e s))
      ∧ (∀ wp, hangDue s w = true → s.warp? w = some wp → wp.reporting = false → ∃ t, exec e s = .next t
        ∧ t.warp? w = some { wp with hung := true, reporting := true } ∧ t.agenda = s.agenda ++ [e]
        ∧ (t.team? w.team).map (·.status) = some tm.status ∧ same t)
      ∧ (∀ wp, s.warp? w = some wp → wp.reporting = true → unpinned s e l.ctx (regionBlocks [record]) = [] →
        s.writesImage e q core l.ctx [record]
        ∧ (allBack (s.tripsOf e) (blockStops s e core l.ctx (regionBlocks [record])) = true →
          let entry : RingEntry := { kind := 4
                                     qid := ((((s.launches.find? l.root).getD l).queue).getD (0xFFFF, 0)).1
                                     cidx := ((((s.launches.find? l.root).getD l).queue).getD (0xFFFF, 0)).2
                                     arg := (recordVa tm).toNat }
          ∃ t s', exec e s = .next (ringWrite l.ctx entry s') ∧ t = ringWrite l.ctx entry s'
            ∧ s'.warp? w = some { wp with reporting := false } ∧ (t.team? w.team).map (·.status) = some tm.status ∧ same t)))
    ∧ ∀ core,
      (∃ t, exec (.powerGate core) s = .next t ∧ t.teams = s.teams ∧ (∀ a, t.mem.byte a = s.mem.byte a)
        ∧ (t.core core).powered = (if gateDue s core then false else (s.core core).powered)
        ∧ (t.core core).l1 = (s.core core).l1)
      ∧ ∃ t, exec (.coreWake core) s = .next t ∧ t.teams = s.teams ∧ (∀ a, t.mem.byte a = s.mem.byte a)
        ∧ (t.core core).powered = true ∧ (t.core core).l1 = (s.core core).l1

/-! ## Launches -/

/-- Tier 2. R27, R34, R294, R316 to R323, R331, R337, R346, R348, R350, R351, R353, R369, R375, R377, R378, R388: a running
queue's next command is read through its guard window and told apart by its KIND, a launch command or SPAWN whose record
passes its checks is accepted and one that does not stops its queue or traps; a launch is released by the tables once its
conditions hold and then fires, with code memory as it stands and no constant line kept; a team takes the lowest free image
slot and is placed where it fits with fresh warps, a retiring launch makes its events FINAL, and a settled tree signals its
DONEEV. That code memory is taken when the launch fires (log entry 45), that a refused record of SPAWN traps with ADDR 0 (log
entry 48), and the windows of the guard (log entry 113) are the model's choice. -/
def Obligations.LaunchEvents : Prop :=
  ∀ (s : State), s.Inv →
    let same : State → Prop := fun t => ∀ a, t.mem.byte a = s.mem.byte a
    (∀ (die slot : Nat),
      let q := s.queue die slot
      let e := Instr.queueCommandPull die slot
      let at_ := commandAddr q q.head
      let open_ := (pullWindows die slot q).foldl (openWindow die) s
      let ring : GuardAccess := { object := .ring, off := 64 * (q.head % 2 ^ q.logcap), n := 64 }
      let passes := guardPasses open_ die slot q.ctx [{ object := .queueRecord, n := 64 }] = true
        ∧ guardCheck open_ die slot q.ctx ring = some q.ring.toNat
      (q.state ≠ 1 ∨ q.busy = true ∨ q.kick ≤ q.head → ∃ t, exec e s = .next t ∧ t.dies = s.dies ∧ same t)
      ∧ ((∀ w ∈ (s.die die).guard, w.slot ≠ slot) → guardRoom s die slot = true →
        passes ∧ guardPasses open_ die slot q.ctx packetAccesses = true)
      ∧ (q.state = 1 → q.busy = false → q.head < q.kick →
        (guardRoom s die slot = false → exec e s = .next (s.push [e]))
        ∧ (guardRoom s die slot = true →
          (guardPasses open_ die slot q.ctx [{ object := .queueRecord, n := 64 }, ring] = false →
            ∃ t, exec e s = .next t ∧ (t.queue die slot).state = 2 ∧ same t)
          ∧ (passes →
            (∀ ps, s.mayRead e die q.ctx at_ 64 false ps → s.asks e die q.ctx at_ 64 false)
            ∧ (s.readFails e die q.ctx at_ 64 false → ∃ t, exec e s = .next t ∧ (t.queue die slot).state = 2 ∧ same t)
            ∧ ∀ bs, s.reads e die q.ctx at_ 64 false bs → ∃ t, exec e s = .next t ∧ same t
              ∧ (fieldOf bs 0 1 ≤ 1 → (t.queue die slot).busy = true ∧ (t.queue die slot).cmd = bs)
              ∧ (fieldOf bs 0 1 = 0 → .nullCommand die slot (BitVec.ofNat 64 q.head) ∈ t.agenda)
              ∧ (fieldOf bs 0 1 = 1 → .launchCommand die slot (BitVec.ofNat 64 q.head) ∈ t.agenda)
              ∧ (2 ≤ fieldOf bs 0 1 → (t.queue die slot).state = 2)))))
    ∧ (∀ (die slot : Nat) (index : Dword), commandCurrent s die slot index = true →
      let q := s.queue die slot
      let open_ := fun ws => ws.foldl (openWindow die) s
      let stops : Instr → Prop := fun e => ∃ t, exec e s = .next t ∧ (t.queue die slot).state = 2 ∧ t.launches = s.launches ∧ same t
      (guardRoom s die slot = false → exec (.nullCommand die slot index) s = .next (s.push [.nullCommand die slot index]))
      ∧ (guardRoom s die slot = true →
        (guardPasses (open_ (pullWindows die slot q)) die slot q.ctx packetAccesses = false → stops (.nullCommand die slot index))
        ∧ (guardPasses (open_ (pullWindows die slot q)) die slot q.ctx packetAccesses = true →
          ∃ t, exec (.nullCommand die slot index) s = .next t
            ∧ t.queue die slot = { q with head := index.toNat + 1, busy := false, version := q.version + 1 }
            ∧ t.agenda = s.agenda ++ [.queueCommandPull die slot] ∧ same t))
      ∧ (let e := Instr.launchCommand die slot index
        let bs := q.cmd
        let at_ := fieldOf bs 8 8
        let va := BitVec.ofNat 64 at_
        let id := s.launches.fresh
        let g := open_ (launchWindows die slot q)
        let passes := guardPasses g die slot q.ctx
            (packetAccesses ++ [{ object := .contextRecord, n := 1 }, { object := .contextRecord, n := 1, store := true }]) = true
        (commandReserved bs = false ∨ at_ % 64 ≠ 0 → stops e)
        ∧ (commandReserved bs = true → at_ % 64 = 0 →
          (guardRoom s die slot = false → exec e s = .next (s.push [e]))
          ∧ (guardRoom s die slot = true → ¬ passes → stops e)
          ∧ (guardRoom s die slot = true → passes →
            guardCheck g die slot q.ctx { object := .launchRecord, n := 256 } = some at_ →
            (∀ ps, s.mayRead e die q.ctx va 256 true ps → s.asks e die q.ctx va 256 true)
            ∧ (s.readFails e die q.ctx va 256 true → stops e)
            ∧ ∀ rec_, s.reads e die q.ctx va 256 true rec_ →
              let d := parseRecord rec_
              let good := recordOk s e (16 * die) q.ctx rec_ (poolShape s e (16 * die) q.ctx d (s.tripsOf e))
              (good = false → stops e)
              ∧ (good = true → (∀ k, (s.die k).pending.length < 1024) → ∃ t l,
                exec e s = .next t ∧ t.launches.find? id = some l
                  ∧ l.desc = d ∧ l.ctx = q.ctx ∧ l.root = id ∧ l.depth = 0 ∧ l.queue = some (q.qid, index.toNat)
                  ∧ l.doneEv = fieldOf bs 0x10 2 ∧ l.doneN = BitVec.ofNat 32 (fieldOf bs 0x14 4) ∧ l.counter = 1
                  ∧ l.owned = d.refine ∧ l.state = .waiting
                  ∧ l.due = (condHolds t q.ctx d.wait0 && condHolds t q.ctx d.wait1)
                  ∧ (l.due = true → Instr.consumerFire id ∈ t.agenda)
                  ∧ (∀ e ∈ d.refine, (t.event q.ctx e).owner = some id ∧ (t.event q.ctx e).count = 0)
                  ∧ (t.queue die slot).head = index.toNat + 1
                  ∧ (s.roomForEvents d.refine.length → same t))))))
    ∧ (∀ (ctx qid : Nat) (u : UserQueue) (v : Dword), (s.context ctx).queues.find? qid = some u → u.slot = none →
      u.pending = some v →
      (bindable s = [] → ∃ t, exec (.queueBindPending ctx qid) s = .next t ∧ t.contexts = s.contexts
        ∧ Instr.queueBindPending ctx qid ∈ t.agenda)
      ∧ (bindable s ≠ [] → ∃ t x, exec (.queueBindPending ctx qid) s = .next t ∧ x ∈ bindable s
        ∧ (let q := t.queue x.1 x.2
          q.state = 1 ∧ q.ring = u.ring ∧ q.ctx = ctx ∧ q.qid = qid ∧ q.logcap = u.logcap ∧ q.head = u.head
            ∧ q.kick = max u.head v.toNat ∧ q.err = u.err)
        ∧ ((t.context ctx).queues.find? qid).map (fun u => (u.slot, u.pending)) = some (some x, none)
        ∧ Instr.queueCommandPull x.1 x.2 ∈ t.agenda))
    ∧ (∀ (r : SplitRef) (addr : Dword) (c : Cx), s.cxOf r = some c → c.split.wait = .spawn →
      let die := c.core / 16
      let e := Instr.spawnRequest r addr
      let traps := ∃ t, exec e s = .next t ∧ t.launches = s.launches ∧ same t ∧ (c.team.status = .running →
        (t.team? r.team).bind (·.halt) = some (⟨5, 2, 0, 0, 0, c.path.pc⟩, r.warp, r.split))
      (addr.toNat % 64 ≠ 0 ∨ c.launch.depth = 15 → traps)
      ∧ (addr.toNat % 64 = 0 → c.launch.depth < 15 →
        (∀ ps, s.mayRead e die c.ctx addr 256 true ps → s.asks e die c.ctx addr 256 true)
        ∧ (s.readFails e die c.ctx addr 256 true → traps)
        ∧ ∀ rec_, s.reads e die c.ctx addr 256 true rec_ →
          let id := s.launches.fresh
          let d := parseRecord rec_
          let good := recordOk s e (16 * die) c.ctx rec_ (poolShape s e (16 * die) c.ctx d (s.tripsOf e))
          (good = false → traps)
          ∧ ∀ root, good = true → (∀ k, (s.die k).pending.length < 1024) → s.launches.find? c.launch.root = some root →
            root.counter + 1 < 2 ^ 32 →
            ∃ t l x, exec e s = .next t ∧ t.launches.find? id = some l ∧ l.desc = d
              ∧ l.ctx = c.ctx ∧ l.root = c.launch.root ∧ l.depth = c.launch.depth + 1 ∧ l.state = .waiting
              ∧ (t.launches.find? c.launch.root).map (·.counter) = some (root.counter + 1)
              ∧ l.due = (condHolds t c.ctx d.wait0 && condHolds t c.ctx d.wait1)
              ∧ (l.due = true → Instr.consumerFire id ∈ t.agenda)
              ∧ t.split? r = some x ∧ x.wait = .none ∧ x.path = pcNext c.path
              ∧ (s.roomForEvents d.refine.length → same t)))
    ∧ (∀ (id : Nat) (l : Launch), s.launches.find? id = some l →
      (l.due = false → exec (.consumerFire id) s = .next s)
      ∧ (l.due = true → roomPending s l = false → exec (.consumerFire id) s = .next (s.push [.consumerFire id]))
      ∧ (l.due = true → roomPending s l = true →
        ∃ t l', exec (.consumerFire id) s = .next t ∧ t.launches.find? id = some l' ∧ l'.desc = l.desc
          ∧ l'.state = .running ∧ l'.due = false ∧ l'.code = s.mem ∧ l'.nextTeam = [] ∧ l'.endedTeams = 0
          ∧ (∀ d ∈ l.dies, l.share d ≠ 0 → id ∈ (t.die d).pending ∧ l'.prio.get 0 d = l.desc.prio)
          ∧ (∀ k, ∀ x ∈ (t.core k).const, x.ctx ≠ l.ctx)
          ∧ ∀ a, t.mem.byte a = s.mem.byte a)
      ∧ ∀ (e : Nat) (n : Word), l.due = false → l.retired = false →
        l.desc.wait0.names e = true ∨ l.desc.wait1.names e = true →
        ∃ t l', exec (.eventChangeApply l.ctx e n) s = .next t ∧ t.launches.find? id = some l'
          ∧ (l'.due = true → Instr.consumerFire id ∈ t.agenda)
          ∧ (l.state = .waiting → l'.state = .waiting
            ∧ l'.met0 = (l.met0 || latches t l.ctx l.desc.wait0) ∧ l'.met1 = (l.met1 || latches t l.ctx l.desc.wait1)
            ∧ l'.due = ((l'.met0 || condHolds t l.ctx l.desc.wait0) && (l'.met1 || condHolds t l.ctx l.desc.wait1)))
          ∧ (l.state = .idle → l'.due = (newer t l && finalsHold t l)
            ∧ (l'.due = false → onFinal t l = true → l'.state = .done ∧ Instr.ownerRetire id ∈ t.agenda)
            ∧ (l'.due = true ∨ onFinal t l = false → l'.state = .idle)))
    ∧ (∀ (die : Nat) (p : Pend) (ps : List Pend) (f : Fit), pendList s die = p :: ps → (∀ q ∈ p :: ps, q.prio ≠ 23) →
      p.team = none → fitOf s die p = some f → (s.die die).placing = none → (s.die die).freeing = [] →
      (p.launch, none) ∉ (s.die die).skip →
      ∃ t, exec (.teamPlace die) s = .next t ∧ (t.die die).placing = some p.launch
        ∧ t.agenda = s.agenda ++ [.teamPlace die] ∧ same t)
    ∧ (∀ (die id : Nat) (l : Launch), s.launches.find? id = some l → (s.die die).placing = some id →
      let e := Instr.teamPlace die
      let q : Requester := .command die
      let stops := (placeNeeds s die l).2
      let pool := blockStop s e (16 * die) l.ctx l.desc.savePool
      unpinned s e l.ctx (placeNeeds s die l).1 = [] →
        (∀ x, s.leaves e q stops x → ∃ t, exec e s = .next t ∧ s.left e q x t)
        ∧ (∀ x, s.comes e q stops x → s.servedAll (blockLines x) e →
          let base := 128 * x.line
          let bit := fun j => (s.mem.byte (base + 0x40 + j / 8)).getLsbD (j % 8)
          let n := min (s.mem.nat base 4) 65536
          (some x.stop = pool → ∀ i, i < n → bit i = false → (∀ j, j < i → bit j = true) → ∃ t, exec e s = .next t
            ∧ t.replies e x (fun y => y.bytes = leBytes 4 i ++ leBytes 8 (s.mem.nat (base + 8) 8) ∧ y.bad = x.bad)
            ∧ (∀ j, j < 8 → (t.mem.byte (base + 0x40 + i / 8)).getLsbD j
              = (decide (j = i % 8) || (s.mem.byte (base + 0x40 + i / 8)).getLsbD j))
            ∧ ∀ a, a ≠ base + 0x40 + i / 8 → t.mem.byte a = s.mem.byte a)
          ∧ (some x.stop = pool → (∀ i, i < n → bit i = true) → ∃ t, exec e s = .next t
            ∧ t.replies e x (fun y => y.bytes = x.bytes ∧ y.bad = x.bad) ∧ same t)
          ∧ (some x.stop ≠ pool → ∃ t, exec e s = .next t ∧ t.replies e x (fun y => y.bad = x.bad)
            ∧ (∀ k, k < 64 → t.mem.byte (base + k) = 0) ∧ ∀ a, a < base ∨ base + 64 ≤ a → t.mem.byte a = s.mem.byte a))
        ∧ (allBack (s.tripsOf e) stops = true →
          (slotTaken (s.tripsOf e) pool = none → ∃ t, exec e s = .next t ∧ (t.die die).placing = none
            ∧ (id, none) ∈ (t.die die).skip ∧ t.teams = s.teams ∧ same t)
          ∧ ∀ (f : Fit) (img : Nat × Nat), slotTaken (s.tripsOf e) pool = some img → l.unplaced die = true →
            findFit s die id l false = some f →
            let areas := (newImages l.desc img.2 img.1).map (areaAnchor s e (16 * die) l.ctx)
            (recordsFit s areas = false → ∃ t, exec e s = .next t ∧ (t.die die).placing = none
              ∧ (t.die die).freeing = (s.die die).freeing ++ [(l.ctx, l.desc.savePool, img.1)] ∧ t.teams = s.teams ∧ same t)
            ∧ (recordsFit s areas = true →
              ∃ t tm, exec e s = .next t ∧ t.team? s.teams.fresh = some tm ∧ tm.launch = id ∧ tm.die = die
                ∧ tm.status = .running ∧ tm.cores = f.cores ∧ tm.slot = some img.1 ∧ tm.bars = []
                ∧ tm.index = (if l.desc.spread then 4 * l.nextTeam.get 0 die + die else l.nextTeam.get 0 die)
                ∧ ∀ w pl, f.warps[w]? = some pl → w < l.desc.warps →
                  ∃ wp, tm.warps.find? w = some wp ∧ wp.core = pl.core ∧ wp.quad = pl.quad
                  ∧ wp.slot = pl.slot ∧ wp.lo = 0 ∧ wp.hi = l.desc.ring ∧ wp.live = firstLanes l.desc.lanes ∧ wp.keys = []
                  ∧ wp.preds = [] ∧ wp.rmode = 0 ∧ wp.ftz = false
                  ∧ wp.splits = [(0, { path := { pc := l.desc.entry, mask := firstLanes l.desc.lanes, b := 0, e := l.desc.ring } })]
                  ∧ (∀ k, (wp.row k).full = !decide (l.desc.ring + 96 ≤ k ∧ k < l.desc.ring + l.desc.globals))
                  ∧ (∀ k i, (wp.row k).lane i = 0)
                  ∧ ∀ n, (wp.sreg n).full = true ∧ (wp.sreg n).val = l.desc.param.getD n 0)))
    ∧ (∀ (die ctx : Nat) (pool : Dword) (i : Nat) (rest : List (Nat × Dword × Nat)), (s.die die).placing = none →
      (s.die die).freeing = (ctx, pool, i) :: rest →
      let e := Instr.teamPlace die
      let q : Requester := .command die
      let stops := (blockStop s e (16 * die) ctx pool).toList
      unpinned s e ctx [pool] = [] →
        (∀ x, s.leaves e q stops x → ∃ t, exec e s = .next t ∧ s.left e q x t)
        ∧ (∀ x, s.comes e q stops x → i < 65536 → s.servedAll (blockLines x) e →
          let at_ := 128 * x.line + 0x40 + i / 8
          ∃ t, exec e s = .next t ∧ t.replies e x (fun y => y.bad = x.bad)
            ∧ (∀ j, j < 8 → (t.mem.byte at_).getLsbD j = (!decide (j = i % 8) && (s.mem.byte at_).getLsbD j))
            ∧ ∀ a, a ≠ at_ → t.mem.byte a = s.mem.byte a)
        ∧ (allBack (s.tripsOf e) stops = true → ∃ t, exec e s = .next t ∧ (t.die die).freeing = rest ∧ same t))
    ∧ (∀ (id die : Nat) (l : Launch), s.launches.find? id = some l → ∃ t, exec (.priorityAging id die) s = .next t
      ∧ (t.launches.find? id).map (fun x => x.prio.get 0 die) = some (min 23 (l.prio.get l.desc.prio die + 1)))
    ∧ (∀ (id : Nat) (l : Launch), s.launches.find? id = some l →
      (l.retired = false → ∃ t, exec (.ownerRetire id) s = .next t
        ∧ (t.launches.find? id).map (fun x => (x.retired, x.owned)) = some (true, [])
        ∧ (∀ e ∈ l.owned, (s.event l.ctx e).owner = some id → (t.event l.ctx e).count.getLsbD 15 = true
          ∧ (t.event l.ctx e).count.extractLsb' 0 15 = (s.event l.ctx e).count.extractLsb' 0 15
          ∧ (t.event l.ctx e).owner = none)
        ∧ (∀ root, l.root ≠ id → s.launches.find? l.root = some root →
          (t.launches.find? l.root).map (·.counter) = some (root.counter - 1))
        ∧ (s.roomForEvents l.owned.length → ∀ a, t.mem.byte a = s.mem.byte a))
      ∧ (settles s id l = false → exec (.commandSettle id) s = .next s)
      ∧ (settles s id l = true → ∃ t, exec (.commandSettle id) s = .next t
        ∧ (t.launches.find? id).map (·.settled) = some true ∧ (∀ a, t.mem.byte a = s.mem.byte a)
        ∧ (l.doneEv ≠ 0xFFFF → l.doneEv < (s.context l.ctx).evCount → (s.event l.ctx l.doneEv).refinable = false →
          Instr.eventChangeApply l.ctx l.doneEv l.doneN ∈ t.agenda)))

/-! ## Halts, saves, restores and ends -/

/-- Tier 2. R88, R310, R326, R352 to R354, R382, R384, R389, R392, R393, R395: a halt reaches the team's warps, then the
team is saved, step by step, and once its image is written is halted or pending again; a restore reads the image and runs it
with one restore more; an ended warp is released and keeps its record, which the last one of a team gives up with the
footprint; the host resumes, abandons or steps a halted team by CONTROL, which goes back to 0; a pre-emption halts the teams
it concerns and, past its second deadline, resets the context. That every context on a reserved core is pre-empted (log entry
57), that a forced reset stops the context's queues (log entry 58), and that values of CONTROL which R389 does not list are
cleared without effect (log entry 126) are the model's choice. -/
def Obligations.TeamEnds : Prop :=
  ∀ (s : State), s.Inv →
    let same : State → Prop := fun t => ∀ a, t.mem.byte a = s.mem.byte a
    (∀ (n : Nat) (tm : Team) (l : Launch), s.team? n = some tm → launchOfTeam s n = some l →
      let q : Requester := .command tm.die
      let core := tm.cores.headD 0
      let endsAll : State → Prop := fun t => ∀ w wp, tm.warps.find? w = some wp → wp.ended = false →
        ∃ wp', t.warp? ⟨n, w⟩ = some wp' ∧ wp'.live = 0 ∧ wp'.splits = [] ∧ wp'.ended = true
          ∧ .warpRelease ⟨n, w⟩ ∈ t.agenda
      let pend : State → Prop := fun t => n ∈ (t.die tm.die).savedTeams
        ∧ ∃ tm', t.team? n = some tm' ∧ tm'.status = .pending ∧ tm'.halt = none
      let save := Instr.teamSave n
      (tm.status = .raised → ∃ t tm', exec (.teamHalt n) s = .next t ∧ t.team? n = some tm'
        ∧ tm' = { tm with status := .skidding } ∧ t.agenda = s.agenda ++ [save])
      ∧ (tm.status ≠ .raised → exec (.teamHalt n) s = .next s)
      ∧ (tm.status = .skidding → tm.halt.isSome = true ∨ tm.preempted = true ∨ tm.vexit = false →
        ∃ t, exec save s = .next t ∧ (t.team? n).map (·.status) = some .saving ∧ save ∈ t.agenda ∧ same t)
      ∧ (tm.status = .skidding → tm.halt = none → tm.preempted = false → tm.vexit = true →
        (spawning tm = true → exec save s = .next (s.push [save]))
        ∧ (spawning tm = false →
          ∃ t, exec save s = .next t ∧ endsAll t ∧ (t.launches.find? tm.launch).map (·.stopped) = some true))
      ∧ (tm.status = .saving → tm.saved = false →
        (saveQuiet s n = false → ∃ t, exec save s = .next t ∧ (t.team? n).map (·.saved) = some false ∧ save ∈ t.agenda ∧ same t)
        ∧ (saveQuiet s n = true → tm.flushing = false → ∃ t, exec save s = .next t ∧ save ∈ t.agenda ∧ same t
          ∧ (t.team? n).map (fun tm => (tm.flushing, tm.saved)) = some (true, false)
          ∧ ∀ e ∈ tm.warps, Instr.saveRecordRemove ⟨n, e.1⟩ ∈ t.agenda)
        ∧ (saveQuiet s n = true → tm.flushing = true → (∀ e ∈ tm.warps, recordGone s n e = true) →
          ∃ t tm', exec save s = .next t ∧ t.team? n = some tm' ∧ save ∈ t.agenda ∧ same t ∧ tm'.saved = true
            ∧ tm'.status = .saving ∧ tm'.halt = tm.halt ∧ tm'.hstate = (if tm.halt.isSome then 1 else 2)))
      ∧ (tm.status = .saving → tm.saved = true →
        let parts := imageParts s n tm l
        unpinned s save l.ctx (regionBlocks parts) = [] →
          s.writesImage save q core l.ctx parts
          ∧ (allBack (s.tripsOf save) (blockStops s save core l.ctx (regionBlocks parts)) = true →
            ∃ t tm', exec save s = .next t ∧ t.team? n = some tm' ∧ same t ∧ tm'.halt = tm.halt ∧ tm'.hstate = tm.hstate
              ∧ (tm.hstate = 1 → tm'.status = .halted)
              ∧ (tm.hstate ≠ 1 → tm'.status = .pending ∧ (tm.discard = false → n ∈ (t.die tm.die).savedTeams))))
      ∧ (tm.status = .restoring →
        let e := Instr.teamRestore n
        let rs := imageReads tm l
        let hdr := (fetched e (s.tripsOf e) core l.ctx (headerVa tm) 64 s).1
        (s.tripsOf e = [] → restoreReady s n = false → exec e s = .next (s.push [e]))
        ∧ (s.tripsOf e ≠ [] ∨ restoreReady s n = true → unpinned s e l.ctx (takeUpVas s tm) = [] →
          unpinned s e l.ctx (rs.flatMap (fun r => blocksOf r.1 r.2)).dedup = [] →
          s.readsImage e q core l.ctx rs tm.shared (restoreParts tm)
          ∧ (allBack (s.tripsOf e) (blockStops s e core l.ctx (rs.flatMap (fun r => blocksOf r.1 r.2)).dedup) = true →
            tm.incs = [] → s.preempts = [] → tm.ill = none → (∀ x ∈ s.tripsOf e, x.bad = false) →
            (∀ e ∈ tm.warps, ∀ sp ∈ e.2.splits, sp.2.vexit = false) →
            ∃ t tm', exec e s = .next t ∧ t.team? n = some tm' ∧ tm'.status = .running ∧ tm'.halt = none
              ∧ tm'.restores = tm.restores + 1 ∧ tm'.hstate = 0 ∧ tm'.saved = false
              ∧ tm'.step = tm.step.map (fun _ => (fieldOf hdr 0x30 8 % 256, fieldOf hdr 0x30 8 / 256 % 4)))))
      ∧ (let control : List Region := [⟨headerVa tm, 8, fun _ => zeros 8⟩]
        let heeds := (tm.status = .halted ∨ tm.status = .pending) ∧ tm.hstate = 1
        let ready := fun e => unpinned s e l.ctx (regionBlocks control) = []
        let done := fun e => allBack (s.tripsOf e) (blockStops s e core l.ctx (regionBlocks control)) = true
        (∀ e ∈ [Instr.controlResume n, .controlStep n, .controlAbandon n], ready e →
          s.writesImage e q core l.ctx control
          ∧ (done e → ¬ heeds → ∃ t, exec e s = .next t ∧ t.teams = s.teams ∧ same t))
        ∧ (heeds →
          (ready (.controlResume n) → done (.controlResume n) → ∃ t, exec (.controlResume n) s = .next t ∧ pend t ∧ same t)
          ∧ (ready (.controlStep n) → done (.controlStep n) → ∃ t, exec (.controlStep n) s = .next t ∧ pend t
            ∧ (t.team? n).map (·.step) = some (some (0, 0)) ∧ same t)
          ∧ (ready (.controlAbandon n) → done (.controlAbandon n) → ∃ t, exec (.controlAbandon n) s = .next t ∧ endsAll t
            ∧ (t.team? n).map (·.status) = some .ended ∧ teamOps t n = []))
        ∧ ∀ off data,
          let e := Instr.teamHeaderWrite n off data
          let v := leNat (data.take 8) * 2 ^ (8 * off)
          (8 ≤ off ∨ data = [] → exec e s = .next s)
          ∧ (off < 8 → data ≠ [] → heeds →
            (v = 1 → exec e s = .next ((forget e s).push [.controlResume n]))
            ∧ (v = 2 → exec e s = .next ((forget e s).push [.controlAbandon n]))
            ∧ (v = 3 → exec e s = .next ((forget e s).push [.controlStep n])))
          ∧ (off < 8 → data ≠ [] → ¬ heeds ∨ v = 0 ∨ 4 ≤ v → ready e →
            s.writesImage e q core l.ctx control
            ∧ (done e → ∃ t, exec e s = .next t ∧ t.teams = s.teams ∧ same t)))
      ∧ ∀ w wp, tm.warps.find? w = some wp → wp.ended = true →
        (wp.released = false → releasable tm = true → warpDrained s tm ⟨n, w⟩ wp = true →
          ∃ t wp', exec (.warpRelease ⟨n, w⟩) s = .next t ∧ t.warp? ⟨n, w⟩ = some wp' ∧ wp'.released = true
            ∧ (∀ h, (t.slice h).res = (s.slice h).res) ∧ ∀ a, t.mem.byte a = s.mem.byte a)
        ∧ (wp.released = true → releasable tm = true → teamOps s n = [] →
          ∃ t, exec (.warpRelease ⟨n, w⟩) s = .next t ∧ t.team? n = none
            ∧ (∀ h, ∀ x ∈ (t.slice h).res, x.warp.team ≠ n)
            ∧ (t.launches.find? tm.launch).map (·.endedTeams) = some (l.endedTeams + 1)))
    ∧ (∀ (id : Nat) (p : Preempt), s.preempts.find? id = some p →
      (p.saving = false → ∃ t, exec (.preemptDrainDeadline id) s = .next t
        ∧ (∀ n tm, s.team? n = some tm → p.concerns s tm = true → tm.status = .running →
          (t.team? n).map (fun tm => (tm.status, tm.preempted)) = some (.raised, true) ∧ .teamHalt n ∈ t.agenda)
        ∧ ∀ a, t.mem.byte a = s.mem.byte a)
      ∧ (p.saving = true → ∃ t, exec (.preemptSaveDeadline id) s = .next t ∧ (∀ e ∈ t.launches, e.2.ctx ≠ p.ctx)
        ∧ ∀ x ∈ slotsOf s p.ctx, (t.queue x.1 x.2).state = 2)
      ∧ (p.saving = false → exec (.preemptSaveDeadline id) s = .next s))
    ∧ ∀ (die core launch at_ : Nat), (s.die die).reservation = some (core, launch, at_) →
      ∃ t, exec (.reservationTimeout die) s = .next t ∧ (∀ a, t.mem.byte a = s.mem.byte a)
        ∧ ∀ n tm l, s.team? n = some tm → tm.placed = true → core ∈ tm.cores → s.launches.find? tm.launch = some l →
          ∃ e ∈ t.preempts, e.2.ctx = l.ctx ∧ core ∈ e.2.cores

/-! ## Commands of the host -/

/-- Tier 2. R70, R71, R74, R213, R330, R345, R357 to R359, R363, R367, R374, R377, R393, R418: a command that its session may
not give is answered with code 3 and one on a context that does not exist with code 5, without any effect; any other is
answered once, in the state that holds its effect: contexts are made, set up, granted, shot down and destroyed, and the
node id, routes, exports and streams of the fabric are set. The model's choice are that a destroy pre-empts all 64 cores (log
entry 56), what a shootdown waits for (log entry 60), the reset's number 2^24 (log entry 66) and that it leaves by die 0's
routes (log entry 108), code 1 for an unknown session to grant to and for refinable events beyond the count (log entry 70),
and that the dies' context tables are one (log entry 121). -/
def Obligations.HostCommands : Prop :=
  ∀ (s : State) (c : Cmd), s.Inv →
    let ans : Instr → Nat → Nat → List Byte → (State → Prop) → Prop := fun e status detail payload q =>
      ∃ u, exec e s = .next (reply c (hostOpcode e) status detail payload u) ∧ q u
    let same : State → Prop := fun u => ∀ a, u.mem.byte a = s.mem.byte a
    let others : Nat → State → Prop := fun ctx u => same u ∧ ∀ x, x ≠ ctx → u.context x = s.context x
    (∀ e : Instr, cmdOf e = some c → waitingOf s c (hostOpcode e) = none →
      (∀ ctx, e = .destroyContext c ctx → destroying s ctx = false) →
      (s.recovery = true → (∀ p a d, e ≠ .memoryWritePhysical c p a d) →
        exec e s = .next (reply c (hostOpcode e) 3 0 [] s))
      ∧ (privileged e = true → (s.sessions.find? c.session).map (·.priv) ≠ some true →
        exec e s = .next (reply c (hostOpcode e) 3 0 [] s))
      ∧ ∀ ctx, hostContext e = some ctx → s.recovery = false →
        (privileged e = true → (s.sessions.find? c.session).map (·.priv) = some true) →
        ((s.context ctx).live = false → exec e s = .next (reply c (hostOpcode e) 5 0 [] s))
        ∧ ((s.context ctx).live = true → privileged e = false → c.session ∉ (s.context ctx).sessions →
          exec e s = .next (reply c (hostOpcode e) 3 0 [] s)))
    ∧ (s.recovery = false →
      ((∀ n, 1 ≤ n → n < 65536 → (s.context n).live = true ∨ (s.context n).retired = true) →
        ans (.createContext c) 11 0 [] (· = s))
      ∧ ∀ n, 1 ≤ n → n < 65536 → (s.context n).live = false → (s.context n).retired = false →
        (∀ m, 1 ≤ m → m < n → (s.context m).live = true ∨ (s.context m).retired = true) →
        let g := (s.context n).gen + 1
        ans (.createContext c) 0 0 (leBytes 2 n ++ [g] ++ zeros 5) (fun u => others n u
          ∧ u.context n = { live := true, gen := g, sessions := [c.session] }))
    ∧ (∀ (ctx : Nat) (addr : Dword), let e := Instr.setRootTable c ctx addr
      s.mayGive c e →
      (addr.toNat % 65536 ≠ 0 → ans e 1 0 [] (· = s))
      ∧ (addr.toNat % 65536 = 0 → isHole addr.toNat = true → ans e 4 tHole [] (· = s))
      ∧ (addr.toNat % 65536 = 0 → isHole addr.toNat = false → ans e 0 0 [] (fun u => others ctx u
        ∧ u.context ctx = { s.context ctx with root := some addr.toNat })))
    ∧ (∀ (ctx count : Nat) (backing : Dword), let e := Instr.setEventCount c ctx count backing
      s.mayGive c e →
      (65536 < count → ans e 1 0 [] (· = s))
      ∧ (count ≤ 65536 → ans e 0 0 [] (fun u => others ctx u
        ∧ u.context ctx = { s.context ctx with evCount := count, backing := backing })))
    ∧ (∀ (ctx first n value : Nat), let e := Instr.setRefinableSet c ctx first n value
      s.mayGive c e →
      (1 < value ∨ (s.context ctx).evCount < first + n → ans e 1 0 [] (· = s))
      ∧ (value ≤ 1 → first + n ≤ (s.context ctx).evCount → ans e 0 0 [] (fun u => others ctx u
        ∧ ∀ k, (first ≤ k ∧ k < first + n → (u.event ctx k).refinable = decide (value = 1)
            ∧ (value = 0 → (u.event ctx k).count = (s.event ctx k).count)
            ∧ (value = 1 → (u.event ctx k).count = (s.event ctx k).count &&& 0xFFFF))
          ∧ (k < first ∨ first + n ≤ k → u.event ctx k = s.event ctx k))))
    ∧ (∀ (ctx session : Nat), let e := Instr.grantContext c ctx session
      s.mayGive c e →
      (s.sessions.find? session = none → ans e 1 0 [] (· = s))
      ∧ (s.sessions.find? session ≠ none → ans e 0 0 [] (fun u => others ctx u
        ∧ ∀ k, k ∈ (u.context ctx).sessions ↔ k = session ∨ k ∈ (s.context ctx).sessions)))
    ∧ (∀ (ctx : Nat) (base length : Dword),
      let e := Instr.shootdown c ctx base length
      let ids := shotOps s ctx base.toNat length.toNat
      let accs := shotAccs s ctx base.toNat length.toNat
      let events := shotEvents s ctx base.toNat length.toNat
      (waitingOf s c 0x15 = none → s.mayGive c e →
        (ids = [] → accs = [] → events = [] → ans e 0 0 [] (fun u => same u ∧ u.unshot ctx base.toNat length.toNat))
        ∧ (accs ≠ [] → ∃ t, exec e s = .next t ∧ t.agenda.head? = some e ∧ same t
          ∧ t.txDatagrams = s.txDatagrams ∧ t.unshot ctx base.toNat length.toNat
          ∧ (waitingOf t c 0x15).map (fun w => (w.ops, w.accs, w.events)) = some (ids, accs, events))
        ∧ ((∃ x ∈ s.pins, x.e ∈ events ∧ ∀ k y v l b, x.e ≠ .tableWalkStep k y v l b) → ∃ t, exec e s = .next t
          ∧ t.agenda.head? = some e ∧ same t ∧ t.txDatagrams = s.txDatagrams ∧ t.unshot ctx base.toNat length.toNat
          ∧ (waitingOf t c 0x15).map (fun w => (w.ops, w.accs, w.events)) = some (ids, accs, events))
        ∧ (ids ≠ [] → (∃ u, exec e s = .next (reply c 0x15 0 0 [] u) ∧ opsPerformed u ids = true)
          ∨ ∃ t, exec e s = .next t ∧ t.agenda.head? = some e ∧ same t ∧ t.unshot ctx base.toNat length.toNat
            ∧ (waitingOf t c 0x15).map (fun w => (w.ops, w.accs, w.events)) = some (ids, accs, events)))
      ∧ ∀ w, waitingOf s c 0x15 = some w →
        (shotDone s w = true → ans e 0 0 [] (fun u => same u ∧ waitingOf u c 0x15 = none))
        ∧ (shotDone s w = false → ∃ t, exec e s = .next t ∧ t.agenda.head? = some e ∧ same t
          ∧ t.txDatagrams = s.txDatagrams ∧ t.waitingCmds = s.waitingCmds))
    ∧ (∀ ctx : Nat, let e := Instr.destroyContext c ctx
      let belongs : Nat → Team → Prop := fun n tm => s.team? n = some tm
        ∧ (s.launches.find? tm.launch).map (·.ctx) = some ctx
      (waitingOf s c 0x11 = none → destroying s ctx = true → exec e s = .next { s with agenda := e :: s.agenda })
      ∧ (waitingOf s c 0x11 = none → destroying s ctx = false → s.mayGive c e →
        ∃ t, exec e s = .next t ∧ t.agenda.head? = some e ∧ same t
        ∧ t.txDatagrams = s.txDatagrams ∧ (waitingOf t c 0x11).map (·.ctx) = some ctx
        ∧ ∀ n tm k, belongs n tm → tm.placed = true → k ∈ tm.cores → k < 64 →
          ∃ x ∈ t.preempts, x.2.ctx = ctx ∧ x.2.destroy = some c ∧ x.2.cores = List.range 64)
      ∧ ∀ w, waitingOf s c 0x11 = some w →
        (destroyReady s c ctx = true → ans e 0 0 [] (fun u => waitingOf u c 0x11 = none
          ∧ (let x := u.context ctx
            x.live = false ∧ x.gen = (s.context ctx).gen ∧ x.retired = decide (x.gen = 255) ∧ x.root = none
              ∧ x.sessions = [] ∧ x.queues = [])
          ∧ (∀ l ∈ u.launches, l.2.ctx ≠ ctx) ∧ (∀ n tm, belongs n tm → u.team? n = none)
          ∧ (∀ x ∈ slotList, (s.queue x.1 x.2).ctx = ctx → (u.queue x.1 x.2).state = 0) ∧ u.unshot ctx 0 0))
        ∧ (destroyReady s c ctx = false → ∃ t, exec e s = .next t ∧ t = { s with agenda := e :: s.agenda }))
    ∧ (∀ node : BitVec 16, s.mayGive c (.assignNodeId c node) →
      ans (.assignNodeId c node) 0 0 [] (fun u => u.nodeId = some node
        ∧ (∀ n, ∀ x ∈ (u.stream n).unacked, x.pkt.src = node)
        ∧ (s.nodeId = none → same u ∧ u.agenda = s.agenda ++ (List.range 64).map .fraukLinkUp)
        ∧ (s.nodeId ≠ none → ∀ n, (u.stream n).seen = [] ∧ (u.stream n).replies = [])))
    ∧ (∀ (die : Nat) (node mask : BitVec 16), let e := Instr.writeRouteTable c die node mask
      s.mayGive c e →
      (4 ≤ die → ans e 1 0 [] (· = s))
      ∧ (die < 4 → ans e 0 0 [] (fun u => ∀ (d : Nat) (n : BitVec 16),
        (u.die d).routes.get 0 n.toNat = if d = die ∧ n = node then mask else (s.die d).routes.get 0 n.toNat)))
    ∧ (∀ (index : Nat) (flags : Byte) (src : BitVec 16) (base size : Dword),
      let e := Instr.writeExport c index flags src base size
      let bad := flags.toNat ≥ 32 ∨ base.toNat % 65536 ≠ 0 ∨ size.toNat % 65536 ≠ 0
      s.mayGive c e →
      (bad → ans e 1 0 [] (· = s))
      ∧ (¬ bad → ans e 0 0 [] (fun u => same u
        ∧ u.exports.find? index = (if flags.getLsbD 0 then
            some ⟨flags.getLsbD 1, src, base.toNat, size.toNat, flags.getLsbD 2, flags.getLsbD 3, flags.getLsbD 4⟩ else none)
        ∧ ∀ k, k ≠ index → u.exports.find? k = s.exports.find? k)))
    ∧ (∀ node : BitVec 16, let e := Instr.streamReset c node
      s.mayGive c e →
      (s.nodeId = none ∨ (s.stream node).used = false → ans e 0 0 [] (· = s))
      ∧ ∀ me, s.nodeId = some me → (s.stream node).used = true → ∃ t, exec e s = .next t
        ∧ (t.stream node).seen = [] ∧ (t.stream node).replies = []
        ∧ .fabricRetransmitTimeout node (2 ^ 24) ∈ t.agenda ∧ (∃ w ∈ t.waitingCmds, w.cmd = c ∧ w.opc = 0x53 ∧ w.node = node)
        ∧ ∀ p, routePort s 0 ((s.die 0).routes.get 0 node.toNat) 0 = some p →
          ∃ x ∈ t.txPackets, x.1 = p ∧ x.2.kind = .streamReset ∧ x.2.src = me ∧ x.2.dst = node)
    ∧ (s.mayGive c (.readForeignKickCounters c) →
      ans (.readForeignKickCounters c) 0 0 ((List.range 4).flatMap (fun d => leBytes 8 (s.die d).foreignKicks)) (· = s))

/-- Tier 2. R75, R367, R374 to R379, R418: the host's kicks, bindings, resumes and event rings act on the queue's record,
on its slot and on the ring, or are refused with codes 1 and 12; its reads and writes of memory make one request for each
line, refused whole where an address does not exist, does not translate or lies in the image of a resident team; each
request leaves, reads or writes in its turn its own bytes of the line and no other, or finds the line poisoned (R58), and
the last reply answers the host, with a memory error where one of the lines had it. Where the queue records lie (log entry
36), that a bad qid or LOGCAP is refused with code 1 (70), that a kick of a queue never bound is refused with code 12 (71),
that a new ring starts with HEAD and indices 0 (72) and that a staged image's bytes are placed by address (73) are the model's
choice. -/
def Obligations.HostQueuesAndAccesses : Prop :=
  ∀ (s : State) (c : Cmd), s.Inv →
    let ans : Instr → Nat → Nat → List Byte → (State → Prop) → Prop := fun e status detail payload q =>
      ∃ u, exec e s = .next (reply c (hostOpcode e) status detail payload u) ∧ (∀ a, u.mem.byte a = s.mem.byte a) ∧ q u
    let started : Instr → Bool → Nat → List Nat → List (Nat × Nat) → List Byte → Prop :=
      fun e write addr bytes homes data => ∃ t a, exec e s = .next t ∧ t.hostAccs.find? s.hostAccs.fresh = some a
        ∧ a.cmd = c ∧ a.opc = hostOpcode e ∧ a.write = write ∧ a.addr = addr ∧ a.bytes = bytes ∧ a.data = data
        ∧ a.parts.map (fun p => (p.home, p.line, p.done)) = homes.map (fun h => (h.1, h.2, false))
        ∧ (∀ k, k < homes.length → .hostAccessAtSlice s.hostAccs.fresh k ∈ t.agenda)
        ∧ t.txDatagrams = s.txDatagrams ∧ ∀ x, t.mem.byte x = s.mem.byte x
    let guarded : State → List Nat → Prop := fun u bytes => ∃ g ∈ guardedPages u, ∃ a ∈ bytes, a / 65536 = g
    let inRecords : List Nat → Prop := fun bytes => ∀ a ∈ bytes, (queuePlace a).isSome = true
    -- an access of queue records: it reads their bytes, and writes those of ERR
    let records : Instr → State → Bool → List Nat → List Byte → Prop := fun e u write bytes data =>
      (write = false → ans e 0 0 (bytes.map (fun a => match queuePlace a with
        | some (d, n, o) => (s.queue d n).bytes.getD o 0
        | none => 0)) (· = u))
      ∧ (write = true → bytes.Nodup → ans e 0 0 [] (fun t => ∀ d n, d < 4 → n < 64 →
        { t.queue d n with err := 0 } = { s.queue d n with err := 0 }
          ∧ ∀ i, i < 8 → (t.queue d n).err.extractLsb' (8 * i) 8
            = match (bytes.zip data).find? (fun x => queuePlace x.1 = some (d, n, 32 + i)) with
              | some x => x.2
              | none => (s.queue d n).err.extractLsb' (8 * i) 8))
    (∀ (ctx qid : Nat) (value : Dword), let e := Instr.kick c ctx qid value
      let found := (s.context ctx).queues.find? qid
      s.mayGive c e →
      (found = none → ans e 12 0 [] (· = s))
      ∧ (∀ u x, found = some u → u.slot = some x → ans e 0 0 [] (fun t =>
        (t.queue x.1 x.2).kick = max (s.queue x.1 x.2).kick value.toNat
          ∧ (t.queue x.1 x.2).head = (s.queue x.1 x.2).head ∧ .queueCommandPull x.1 x.2 ∈ t.agenda))
      ∧ (∀ u, found = some u → u.slot = none → ans e 0 0 [] (fun t => .queueBindPending ctx qid ∈ t.agenda
        ∧ ((t.context ctx).queues.find? qid).bind (·.pending)
          = some (if value.toNat ≤ (u.pending.getD 0).toNat ∧ u.pending ≠ none then u.pending.getD 0 else value))))
    ∧ (∀ (ctx qid logcap : Nat) (ring : Dword), let e := Instr.bindUserQueue c ctx qid logcap ring
      let bad := 1024 ≤ qid ∨ logcap = 0 ∨ 20 < logcap ∨ ring.toNat % 64 ≠ 0
      s.mayGive c e →
      (bad → ans e 1 0 [] (· = s))
      ∧ (¬ bad → ans e 0 0 [] (fun t => ∃ u, (t.context ctx).queues.find? qid = some u ∧ u.ring = ring ∧ u.logcap = logcap
        ∧ u.pending = none ∧ (u.slot = none → ∀ x ∈ slotList, (t.queue x.1 x.2).state ≠ 0)
        ∧ ∀ x, u.slot = some x → (let q := t.queue x.1 x.2
          q.state = 1 ∧ q.ring = ring ∧ q.ctx = ctx ∧ q.qid = qid ∧ q.logcap = logcap ∧ q.head = 0 ∧ q.kick = 0 ∧ q.err = 0))))
    ∧ (∀ ctx qid : Nat, let e := Instr.unbindUserQueue c ctx qid
      let found := (s.context ctx).queues.find? qid
      s.mayGive c e →
      (found = none → ans e 12 0 [] (· = s))
      ∧ ∀ u, found = some u → ans e 0 0 [] (fun t => (t.context ctx).queues.find? qid = none
        ∧ ∀ x, u.slot = some x → (t.queue x.1 x.2).state = 0))
    ∧ (∀ (ctx qid : Nat) (skip : Bool),
      let e := if skip then Instr.resumeQueueSkip c ctx qid else .resumeQueueRetry c ctx qid
      let found := (s.context ctx).queues.find? qid
      s.mayGive c e →
      (found = none → ans e 12 0 [] (· = s))
      ∧ (∀ u x, found = some u → u.slot = some x → (s.queue x.1 x.2).state ≠ 2 → ans e 0 0 [] (· = s))
      ∧ (∀ u, found = some u → u.slot = none →
        (u.stopped = false → ans e 0 0 [] (· = s))
        ∧ (u.stopped = true → ans e 0 0 [] (fun t => ((t.context ctx).queues.find? qid) = some { u with
            stopped := false, head := if skip = true ∧ u.head < ((u.pending.getD 0).toNat) then u.head + 1 else u.head })))
      ∧ ∀ u x, found = some u → u.slot = some x → (s.queue x.1 x.2).state = 2 →
        let q := s.queue x.1 x.2
        ∃ t, exec e s = .next ((reply c 0x22 0 0 [] t).push [.queueCommandPull x.1 x.2])
          ∧ (∀ a, t.mem.byte a = s.mem.byte a) ∧ t.queue x.1 x.2 = { q with
              state := 1, busy := false, version := q.version + 1
              head := if skip = true ∧ q.head < q.kick then q.head + 1 else q.head })
    ∧ (∀ ctx logn stream : Nat, let e := Instr.setHostEventRing c ctx logn stream
      let bad := logn < 4 ∨ 20 < logn ∨ 16 ≤ stream
      s.mayGive c e →
      (bad → ans e 1 0 [] (· = s))
      ∧ (¬ bad → ans e 0 0 [] (fun t => t.context ctx = { s.context ctx with
          ringLog := some (logn, c.session, stream), ringRead := 0, ringWrite := 0 })))
    ∧ (∀ (ctx : Nat) (index : Dword), let e := Instr.advanceReadIndex c ctx index
      let x := s.context ctx
      s.mayGive c e →
      (index.toNat < x.ringRead ∨ x.ringWrite < index.toNat → ans e 1 0 [] (· = s))
      ∧ (x.ringRead ≤ index.toNat → index.toNat ≤ x.ringWrite →
        ans e 0 0 [] (fun t => t.context ctx = { x with ringRead := index.toNat })))
    ∧ (∀ (ctx : Nat) (addr : Dword) (count : Nat) (data : List Byte) (write : Bool),
      let e := if write then Instr.memoryWriteVirtual c ctx addr data else .memoryReadVirtual c ctx addr count
      let n := if write then data.length else count
      let missing := unpinned s e ctx [addr, addr + BitVec.ofNat 64 (n - 1)]
      let found := hostBytes s e ctx write 66 addr n
      let u := unpin e s
      s.mayGive c e →
      (missing ≠ [] → ∃ t, exec e s = .next t ∧ t.txDatagrams = s.txDatagrams ∧ t.hostAccs = s.hostAccs
        ∧ ∀ x, t.mem.byte x = s.mem.byte x)
      ∧ (missing = [] → ∀ f, found = .error f → ans e 4 f.code [] (· = u))
      ∧ (missing = [] → ∀ r, found = .ok r → inRecords r.1 → records e u write r.1 data)
      ∧ (missing = [] → ∀ r, found = .ok r → ¬ inRecords r.1 → write = true → guarded u r.1 → ans e 8 0 [] (· = u))
      ∧ (missing = [] → ∀ r, found = .ok r → ¬ inRecords r.1 → (write = true → ¬ guarded u r.1) →
        started e write addr.toNat r.1 r.2.dedup (if write then data else [])))
    ∧ (∀ (pol count : Nat) (addr : Dword) (data : List Byte) (write : Bool),
      let e := if write then Instr.memoryWritePhysical c pol addr data else .memoryReadPhysical c pol addr count
      let n := if write then data.length else count
      let bytes := (List.range n).map (addr.toNat + ·)
      let far := ∃ a ∈ bytes, inFar a = true
      let hole := ∃ a ∈ bytes, isHole a = true
      s.mayGive c e →
      (inRecords bytes → records e s write bytes data)
      ∧ (¬ inRecords bytes → pol = 1 → far → ans e 1 0 [] (· = s))
      ∧ (¬ inRecords bytes → ¬ (pol = 1 ∧ far) → hole → ans e 4 tHole [] (· = s))
      ∧ (¬ inRecords bytes → ¬ (pol = 1 ∧ far) → ¬ hole → write = true → guarded s bytes → ans e 8 0 [] (· = s))
      ∧ (¬ inRecords bytes → ¬ (pol = 1 ∧ far) → ¬ hole → (write = true → ¬ guarded s bytes) → ∃ homes,
        started e write addr.toNat bytes homes (if write then data else [])
          ∧ homes.map (·.2) = (List.range ((addr.toNat % 128 + n + 127) / 128)).map (addr.toNat / 128 + ·)))
    ∧ (∀ (pol : Nat) (addr : Dword) (data : List Byte), s.recovery = true →
      (s.sessions.find? c.session).map (·.priv) = some true →
      ans (.memoryWritePhysical c pol addr data) 0 0 [] (fun t => ∀ k,
        (∀ i, i < data.length → t.staging.find? (addr.toNat + i) = data[i]?)
          ∧ (k < addr.toNat ∨ addr.toNat + data.length ≤ k → t.staging.find? k = s.staging.find? k)))
    ∧ ∀ (id k : Nat) (a : HostAcc) (p : Part), s.hostAccs.find? id = some a → a.parts[k]? = some p → p.done = false →
      let e := Instr.hostAccessAtSlice id k
      let q : Requester := .ingress 0
      let stops : List Stop := [⟨p.home, p.line, 1⟩]
      let same : State → Prop := fun t => ∀ x, t.mem.byte x = s.mem.byte x
      let last := ∀ j q, a.parts[j]? = some q → j ≠ k → q.done = true
      let bad := ∃ x ∈ s.tripsOf e, x.bad = true
      let byte : Nat → Byte := fun x =>
        if x / 128 = p.line then lineByte (tripData (s.tripsOf e) p.line) (x % 128) else a.got.get 0 x
      let told : Nat → Nat → List Byte → Prop := fun status detail payload => ∃ t, exec e s = .next t ∧ same t
        ∧ t.hostAccs.find? id = none ∧ ∀ x, s.sessions.find? a.cmd.session = some x →
          t.txDatagrams = s.txDatagrams ++ [replyDatagram a.cmd x a.opc status detail payload]
      (∀ x, s.leaves e q stops x → ∃ t, exec e s = .next t ∧ s.left e q x t)
      ∧ (∀ x, s.comes e q stops x →
        (s.served x.home x.line true e →
          (a.write = false → ∃ t, exec e s = .next t ∧ t.replies e x (fun y => y.data = s.mem.line x.line ∧ y.bad = x.bad)
            ∧ same t)
          ∧ (a.write = true → a.bytes.Nodup → a.data.length = a.bytes.length → ∃ t, exec e s = .next t
            ∧ t.replies e x (fun y => y.bad = x.bad)
            ∧ (∀ y, y ∉ a.bytes ∨ y / 128 ≠ x.line → t.mem.byte y = s.mem.byte y)
            ∧ ∀ y ∈ a.bytes.zip a.data, y.1 / 128 = x.line → t.mem.byte y.1 = y.2))
        ∧ (let l := s.sline x.home x.line
          l.state ≠ .inv → l.state ≠ .busy → l.uo = 0 → l.waiters = [] ∨ l.waiters.head? = some e →
          poisoned s x.line = true → a.write = false ∨ (a.bytes.zip a.data).countP (fun y => y.1 / 128 = x.line) ≠ 128 →
          ∃ t, exec e s = .next t ∧ t.replies e x (fun y => y.bad = true) ∧ same t))
      ∧ (allBack (s.tripsOf e) stops = true →
        (¬ last → ∃ t a', exec e s = .next t ∧ same t ∧ t.txDatagrams = s.txDatagrams ∧ t.hostAccs.find? id = some a'
          ∧ (a'.parts[k]?).map (·.done) = some true ∧ a'.bytes = a.bytes ∧ a'.data = a.data
          ∧ (bad → a'.fault = 13) ∧ (¬ bad → a'.fault = a.fault)
          ∧ (a.write = false → ∀ x ∈ a.bytes, a'.got.get 0 x = byte x))
        ∧ (last → (bad → told 4 13 []) ∧ (¬ bad → a.fault ≠ 0 → told 4 a.fault [])
          ∧ (¬ bad → a.fault = 0 → a.write = false → told 0 0 (a.bytes.map byte))
          ∧ (¬ bad → a.fault = 0 → a.write = true → told 0 0 [])))

/-! ## The host link -/

/-- Tier 2. R365 to R367, R370 to R374, R419: a frame that the Ethernet port does not accept is counted and dropped, and
the datagram of one that it accepts is taken up; a datagram whose header, proof or authentication fails is dropped and counted;
HELLO is answered with nonce, key and report, and forgotten in time; AUTH opens the lowest free session or none; DATA is
acknowledged and its records become commands in order, or are answered with code 1; ACK ends what it names, an
unacknowledged datagram goes out again, and a session that ends gives up its contexts, rings, commands and accesses. The
SEQ of ACK and AUTH-REPLY (log entry 67), what a session's end gives up (68), that padding is passed over and a DATA datagram of a
stream that does not exist is dropped (69) and the acceptance of frames (112) are the model's choice. -/
def Obligations.HostLink : Prop :=
  ∀ (s : State), s.Inv →
    let dropped : Instr → Prop := fun e =>
      exec e s = .next { s with rxDatagrams := s.rxDatagrams.drop 1, dropped := s.dropped + 1 }
    let ended : Nat → State → Prop := fun n t => t.sessions.find? n = none ∧ (∀ ctx, n ∉ (t.context ctx).sessions)
      ∧ (∀ ctx a b, (t.context ctx).ringLog ≠ some (a, n, b))
      ∧ (∀ e ∈ t.agenda, (n ≠ 0 → ∀ c, cmdOf e = some c → c.session ≠ n) ∧ e ≠ .sessionIdleTimeout n
        ∧ ∀ b q, e ≠ .dataRetransmitTimeout n b q)
      ∧ (n ≠ 0 → ∀ w ∈ t.waitingCmds, w.cmd.session ≠ n)
      ∧ (∀ x ∈ t.hostAccs, x.2.cmd.session ≠ n) ∧ (∀ x ∈ s.hostAccs, x.2.cmd.session ≠ n → x ∈ t.hostAccs)
      ∧ (∀ k, k ≠ n → t.sessions.find? k = s.sessions.find? k) ∧ ∀ a, t.mem.byte a = s.mem.byte a
    (∀ (c : Cmd) (opc status detail : Nat) (payload : List Byte) (x : Session), s.sessions.find? c.session = some x →
      let d := replyDatagram c x opc status detail payload
      let st := x.stream c.stream
      let t := reply c opc status detail payload s
      t.txDatagrams = s.txDatagrams ++ [d] ∧ t.agenda = s.agenda ++ [.dataRetransmitTimeout c.session c.stream st.outSeq]
        ∧ (t.sessions.find? c.session).map (fun y => y.stream c.stream)
          = some { st with outSeq := st.outSeq + 1, unacked := st.unacked ++ [d] }
        ∧ t.txFrames = s.txFrames ++ ((s.peers.find? x.src).map (fun p => frameTo p d)).toList
        ∧ t.contexts = s.contexts ∧ t.mem = s.mem)
    ∧ (∀ fr : List Byte,
      let at_ := fun (o n : Nat) => beNat (slice fr o n)
      let tag := if at_ 12 2 = 0x8100 then 4 else 0
      (9216 < fr.length ∨ at_ 0 6 ≠ Config.portMac.toNat ∨ fcs (fr.take (fr.length - 4)) ≠ fr.drop (fr.length - 4)
          ∨ at_ (12 + tag) 2 ≠ 0x86DD ∨ s.ownAddress (slice fr (38 + tag) 16) = false →
        takeFrame s fr = { s with framesDropped := s.framesDropped + 1 })
      ∧ ∀ a, acceptFrame s fr = some a → at_ (56 + tag) 2 = 47240 ∧ a.peer.port = at_ (54 + tag) 2
        ∧ a.peer.mac = slice fr 6 6 ∧ a.peer.addr = slice fr (22 + tag) 16 ∧ a.peer.here = slice fr (38 + tag) 16
        ∧ (a.payload.length < 32 → (takeFrame s fr).dropped = s.dropped + 1 ∧ (takeFrame s fr).rxDatagrams = s.rxDatagrams)
        ∧ (32 ≤ a.payload.length → ∃ d, (takeFrame s fr).rxDatagrams = s.rxDatagrams ++ [d] ∧ headerBytes d = a.payload.take 32
          ∧ d.body = a.payload.drop 32 ∧ d.src = beNat a.peer.addr * 65536 + a.peer.port
          ∧ (takeFrame s fr).peers.find? d.src = some a.peer))
    ∧ (headDatagram s 1 = none → exec .gctHello s = .next s)
    ∧ (∀ d, headDatagram s 1 = some d →
      let ok := headerOk d false = true ∧ d.session = 0 ∧ d.body.length = 40 ∧ (d.body.getD 32 0).toNat < 8 ∧ fieldOf d.body 33 7 = 0
      (¬ ok → dropped .gctHello)
      ∧ (ok → ∃ t h, exec .gctHello s = .next t ∧ t.hellos.find? d.src = some h ∧ h.body = d.body
        ∧ h.keyIndex = (d.body.getD 32 0).toNat ∧ h.number = s.handshakes + 1
        ∧ h.reply = fit 32 (Config.deviceNonce h.number) ++ fit 1184 (Config.mlkemKey h.number) ++ attestation s (d.body.take 32)
        ∧ t.txDatagrams = s.txDatagrams ++ [emptyDatagram d.src 2 0 0 h.reply] ∧ t.rxDatagrams = s.rxDatagrams.drop 1
        ∧ .helloForgetTimeout d.src ∈ t.agenda ∧ t.sessions = s.sessions))
    ∧ (∀ src, ∃ t, exec (.helloForgetTimeout src) s = .next t ∧ t.hellos.find? src = none
      ∧ (∀ k, k ≠ src → t.hellos.find? k = s.hellos.find? k) ∧ t.sessions = s.sessions)
    ∧ (∀ d, headDatagram s 3 = some d →
      (s.hellos.find? d.src = none → dropped .gctAuth)
      ∧ ∀ h, s.hellos.find? d.src = some h →
        let ok := headerOk d false = true ∧ d.session = 0 ∧ d.body.length = 3508
        (¬ ok → dropped .gctAuth)
        ∧ (ok → ∃ t, exec .gctAuth s = .next t ∧ t.hellos.find? d.src = none ∧ t.rxDatagrams = s.rxDatagrams.drop 1
          ∧ (authorised s h d.body = none → t.sessions = s.sessions ∧ t.txDatagrams = s.txDatagrams)
          ∧ ∀ priv, authorised s h d.body = some priv →
            ((∀ n, 1 ≤ n → n ≤ 256 → s.sessions.find? n ≠ none) → t.sessions = s.sessions ∧ t.txDatagrams = s.txDatagrams)
            ∧ ∀ n, 1 ≤ n → n ≤ 256 → s.sessions.find? n = none → (∀ m, 1 ≤ m → m < n → s.sessions.find? m ≠ none) →
              let key := sessionKey h (d.body.take 1088)
              t.sessions.find? n = some { src := d.src, key := key, priv := priv } ∧ .sessionIdleTimeout n ∈ t.agenda
                ∧ t.txDatagrams = s.txDatagrams
                  ++ [sealDatagram key (emptyDatagram d.src 4 n 0 ([0, if priv then 1 else 0] ++ zeros 6))]))
    ∧ (headDatagram s 3 = none → exec .gctAuth s = .next s)
    ∧ (∀ d, headDatagram s 7 = some d →
      (openDatagram s d = none → dropped .gctClose)
      ∧ ∀ n x b, openDatagram s d = some (n, x, b) →
        ∃ t, exec .gctClose s = .next t ∧ ended n t ∧ t.rxDatagrams = s.rxDatagrams.drop 1)
    ∧ (headDatagram s 7 = none → exec .gctClose s = .next s)
    ∧ (∀ n, ∃ t, exec (.sessionIdleTimeout n) s = .next t ∧ ended n t)
    ∧ (∀ d, headDatagram s 6 = some d →
      (openDatagram s d = none → dropped .gctAck)
      ∧ ∀ n x b, openDatagram s d = some (n, x, b) →
        ∃ t y, exec .gctAck s = .next t ∧ t.sessions.find? n = some y ∧ t.rxDatagrams = s.rxDatagrams.drop 1
          ∧ (∀ r, r ∈ (y.stream d.stream.toNat).unacked
            ↔ r ∈ (x.stream d.stream.toNat).unacked ∧ d.ackseq.toNat ≤ r.seq.toNat)
          ∧ (∀ q, q < d.ackseq.toNat → .dataRetransmitTimeout n d.stream.toNat q ∉ t.agenda)
          ∧ t.txDatagrams = s.txDatagrams)
    ∧ (headDatagram s 6 = none → exec .gctAck s = .next s)
    ∧ (∀ (n str seq : Nat) (x : Session), s.sessions.find? n = some x →
      (∀ d, (x.stream str).unacked.find? (fun d => d.seq.toNat = seq) = some d →
        exec (.dataRetransmitTimeout n str seq) s = .next { s with
          txDatagrams := s.txDatagrams ++ [d]
          txFrames := s.txFrames ++ ((s.peers.find? d.src).map (fun p => frameTo p d)).toList
          agenda := s.agenda ++ [.dataRetransmitTimeout n str seq] })
      ∧ ((∀ d ∈ (x.stream str).unacked, d.seq.toNat ≠ seq) → exec (.dataRetransmitTimeout n str seq) s = .next s))
    ∧ (s.rxDatagrams = [] → exec .gctData s = .next s)
    ∧ ∀ d rest, s.rxDatagrams = d :: rest →
      (d.type = 1 ∨ d.type = 3 ∨ d.type = 6 ∨ d.type = 7 → exec .gctData s = .next s)
      ∧ (d.type ≠ 1 → d.type ≠ 3 → d.type ≠ 5 → d.type ≠ 6 → d.type ≠ 7 → dropped .gctData)
      ∧ (d.type = 5 → openDatagram s d = none → dropped .gctData)
      ∧ ∀ n x body, d.type = 5 → openDatagram s d = some (n, x, body) →
        let str := d.stream.toNat
        let st := x.stream str
        let ack : Nat → Datagram := fun k => sealDatagram x.key { emptyDatagram x.src 6 n str [] with
          seq := BitVec.ofNat 64 st.outSeq, ackseq := BitVec.ofNat 64 k }
        let now : State → Nat → Prop := fun t k =>
          (t.sessions.find? n).map (fun y => (y.stream str).inSeq) = some k ∧ t.rxDatagrams = rest
        let none_ : State → Prop := fun t => ∀ e ∈ t.agenda, e ∈ s.agenda
        (d.seq.toNat < st.inSeq → ∃ t, exec .gctData s = .next t ∧ now t st.inSeq ∧ none_ t
          ∧ t.txDatagrams = s.txDatagrams ++ [ack st.inSeq])
        ∧ (st.inSeq < d.seq.toNat → (∀ e ∈ st.ahead, e.seq ≠ d.seq) → st.ahead.length < 64 →
          (∀ e ∈ st.ahead, e.seq.toNat ≠ st.inSeq) →
          ∃ t, exec .gctData s = .next t ∧ now t st.inSeq ∧ none_ t ∧ t.txDatagrams = s.txDatagrams ++ [ack st.inSeq]
            ∧ (t.sessions.find? n).map (fun y => (y.stream str).ahead) = some (st.ahead ++ [{ d with body := body }]))
        ∧ (st.inSeq < d.seq.toNat → (∀ e ∈ st.ahead, e.seq ≠ d.seq) → 64 ≤ st.ahead.length →
          ∃ t, exec .gctData s = .next t ∧ now t st.inSeq ∧ none_ t ∧ t.dropped = s.dropped + 1
            ∧ t.txDatagrams = s.txDatagrams)
        ∧ (d.seq.toNat = st.inSeq → st.ahead = [] →
          (body = [] → ∃ t, exec .gctData s = .next t ∧ now t (st.inSeq + 1) ∧ none_ t
            ∧ t.txDatagrams = s.txDatagrams ++ [ack (st.inSeq + 1)])
          ∧ ∀ opc payload tag,
            let c : Cmd := ⟨n, str, tag⟩
            opc < 2 ^ 15 → payload.length < 2 ^ 32 → body = recordBytes opc 0 0 tag payload →
            (∀ e, parseCommand c opc payload = some e → ∃ t, exec .gctData s = .next t ∧ now t (st.inSeq + 1)
              ∧ t.txDatagrams = s.txDatagrams ++ [ack (st.inSeq + 1)] ∧ t.agenda.getLast? = some e
              ∧ ∀ x ∈ t.agenda, x = e ∨ x ∈ s.agenda)
            ∧ (parseCommand c opc payload = none → ∃ t, exec .gctData s = .next t ∧ now t (st.inSeq + 1)
              ∧ ∃ a, t.txDatagrams = s.txDatagrams ++ [replyDatagram c
                { x with streams := Tab.set x.streams str { st with inSeq := st.inSeq + 1 } } opc 1 0 [], a]))

/-! ## The fabric -/

/-- Tier 2. R65, R81, R113, R185, R192, R193, R214, R357 to R360, R362, R363, R376, R377: links train, pass flits upward in order,
ask for replays at both ends and reset; an unanswered request goes out again eight times and then breaks its stream, whose
requests end with code 6 and whose numbering begins again; a request of another node is refused outside the exports, the map
and its scope, and by way of the ingress of its die reads, writes or combines in its turn exactly the bytes it names, once, a
duplicate getting the same reply and one of an older numbering none; a kick is checked against the die's replica of the
queue's record; a reply reaches the operation that asked. The bit that asks for a check of the scope (log entry 61), the export
that a locket's words need (63), how a stream broken at one end is broken at the other (64), what the indeterminate-outcome
list holds (65), number 2^24 of a reset (66), the tag that an ACK brings (90) and that a link's reset numbers flits from 0
again (128) are the model's choice. -/
def Obligations.FabricSteps : Prop :=
  ∀ (s : State), s.Inv →
    let same : State → Prop := fun t => ∀ a, t.mem.byte a = s.mem.byte a
    let told : Nat → Packet → Packet → State → Prop := fun port p r t => t.rxPackets = s.rxPackets.drop 1
      ∧ t.txPackets = s.txPackets ++ [(port, r)] ∧ p.seq ∈ (t.stream p.src).seen ∧ r ∈ (t.stream p.src).replies
    let ack : Packet → Nat → Nat → Packet := fun p code fault => { (default : Packet) with
      kind := .ack, src := s.nodeId.getD 0, dst := p.src, seq := p.seq, addr := p.addr, code := code, fault := fault, ty := p.ty }
    (∀ port, (s.nodeId = none ∨ 64 ≤ port → exec (.fraukLinkUp port) s = .next s)
      ∧ (s.nodeId ≠ none → port < 64 → ∃ t, exec (.fraukLinkUp port) s = .next t ∧ same t
        ∧ (t.ports.get {} port).up = true ∧ ∀ k, k ≠ port → (t.ports.get {} k).up = (s.ports.get {} k).up))
    ∧ (∀ port flit,
      let p := s.ports.get {} port
      let again : Repeats → Repeats := fun r => ⟨flit, if r.flit = flit then r.times + 1 else 1⟩
      let asked := p.rx.takeWhile (fun f => f.num ≠ flit)
      (∃ t, exec (.linkReplayRequest port flit) s = .next t ∧ same t
        ∧ ((again p.received).times ≤ 16 → t.agenda = s.agenda
          ∧ t.ports.get {} port = { p with rx := asked, received := again p.received, asks := p.asks ++ [flit] })
        ∧ (16 < (again p.received).times → t.agenda = s.agenda ++ [.linkReset port]
          ∧ t.ports.get {} port = { p with rx := asked, received := again p.received }))
      ∧ (∃ t, exec (.flitReplay port flit) s = .next t ∧ same t ∧ t.ports.get {} port = { p with sent := again p.sent }
        ∧ (16 < (again p.sent).times → t.agenda = s.agenda ++ [.linkReset port] ∧ t.txPackets = s.txPackets)
        ∧ ((again p.sent).times ≤ 16 → t.agenda = s.agenda ∧ ∃ ps, t.txPackets = s.txPackets ++ ps
          ∧ ∀ x, x ∈ ps ↔ x.1 = port ∧ ∃ e ∈ p.buffer, flit ≤ e.1 ∧ e.2 = x.2))
      ∧ ∃ t, exec (.linkReset port) s = .next t ∧ t.ports.get {} port = { asks := p.asks }
        ∧ same t ∧ t.agenda = s.agenda ++ [.fraukLinkUp port])
    ∧ (∀ (p : Port) (n : Nat) (f : Flit) (fs : List Flit),
      ((∀ k g, fs[k]? = some g → g.ok = true ∧ g.num = n + k) →
        p.upward n fs = ((fs.filter (·.last)).map (·.pkt), { p with rx := [], rxNext := n + fs.length }))
      ∧ (f.ok = false → p.upward n (f :: fs) = ([], { p with rx := f :: fs, rxNext := n }))
      ∧ (f.ok = true → f.num ≠ n → p.upward n (f :: fs) = p.upward n fs))
    ∧ (∀ (node : BitVec 16) (seq : Nat), let e := Instr.fabricRetransmitTimeout node seq
      let found := (s.stream node).unacked.find? (fun u => u.seq = seq)
      (found = none → exec e s = .next s)
      ∧ ∀ u, found = some u →
        (u.retries < 8 → ∃ t, exec e s = .next t ∧ same t ∧ t.agenda = s.agenda ++ [e]
          ∧ ((t.stream node).unacked.find? (fun u => u.seq = seq)) = some { u with retries := u.retries + 1 }
          ∧ t.txPackets = s.txPackets
            ++ (routePort s u.die ((s.die u.die).routes.get 0 node.toNat) (u.pkt.addr / 128)).toList.map (fun p => (p, u.pkt)))
        ∧ (8 ≤ u.retries → seq = 2 ^ 24 → ∃ t, exec e s = .next t ∧ same t
          ∧ ∀ w ∈ t.waitingCmds, ¬ (w.opc = 0x53 ∧ w.node = node))
        ∧ (8 ≤ u.retries → seq ≠ 2 ^ 24 → ∃ t, exec e s = .next t
          ∧ (t.stream node).seen = (s.stream node).seen ∧ (t.stream node).replies = (s.stream node).replies
          ∧ (t.stream node).nextSeq = 0 ∧ (t.stream node).epoch = (s.stream node).epoch + 1
          ∧ (∀ x ∈ (t.stream node).unacked, x.seq = 2 ^ 24)
          ∧ ∀ v o p, (s.stream node).unacked = [v] → s.ops.find? v.op = some o → o.parts[v.part]? = some p → o.kind ≠ .copy →
            o.kind ≠ .kick → (t.ops.find? v.op).map (·.code) = some 6
              ∧ ((t.ops.find? v.op).bind (fun o => o.parts[v.part]?)).map (·.done) = some true
              ∧ ∀ w, s.warp? (warpOf o.ref) = some w →
                (t.warp? (warpOf o.ref)).map (·.indet)
                  = some (if o.code = 6 then w.indet else (w.indet ++ indetsOf s o).take 64)))
    ∧ (∀ port p, headOf s .resetNotice = some (port, p) → ∃ t, exec .targetPackageReset s = .next t
      ∧ t.rxPackets = s.rxPackets.drop 1 ∧ (t.stream p.src).seen = [] ∧ (t.stream p.src).replies = []
      ∧ (t.stream p.src).inEpoch = none ∧ (t.stream p.src).nextSeq = 0)
    ∧ (∀ port p, headOf s .streamResetAck = some (port, p) → ∃ t, exec .streamResetAck s = .next t
      ∧ t.rxPackets = s.rxPackets.drop 1 ∧ same t ∧ (∀ w ∈ t.waitingCmds, ¬ (w.opc = 0x53 ∧ w.node = p.src))
      ∧ ∀ w x, s.waitingCmds = [w] → w.opc = 0x53 → w.node = p.src → s.sessions.find? w.cmd.session = some x →
        t.txDatagrams = s.txDatagrams ++ [replyDatagram w.cmd x 0x53 0 0 []])
    ∧ (∀ port p, headOf s .streamReset = some (port, p) → ∃ t, exec .fabricStreamResetReceived s = .next t
      ∧ t.rxPackets = s.rxPackets.drop 1 ∧ (t.stream p.src).seen = [] ∧ (t.stream p.src).replies = []
      ∧ (t.stream p.src).inEpoch = none ∧ (t.stream p.src).nextSeq = 0
      ∧ t.txPackets.getLast? = some (port, { ack p 0 0 with kind := .streamResetAck }))
    ∧ (∀ x ∈ [(Instr.fabricRead, PacketKind.read), (.fabricWrite, .write), (.fabricAtomic, .atomic), (.fabricRwrite, .rwrite),
        (.fabricToken, .token), (.fabricKick, .kick), (.targetPackageReset, .resetNotice), (.streamResetAck, .streamResetAck),
        (.fabricStreamResetReceived, .streamReset)], headOf s x.2 = none → exec x.1 s = .next s)
    ∧ (∀ x ∈ [(Instr.fabricRead, PacketKind.read), (.fabricWrite, .write), (.fabricAtomic, .atomic), (.fabricRwrite, .rwrite),
        (.fabricToken, .token), (.fabricKick, .kick)], ∀ port p, headOf s x.2 = some (port, p) →
      let st := s.stream p.src
      let cached := st.replies.find? (fun r => r.seq = p.seq)
      ((∃ n, st.inEpoch = some n ∧ p.epoch < n) → exec x.1 s = .next { s with rxPackets := s.rxPackets.drop 1 })
      ∧ (st.inEpoch = some p.epoch → p.seq ∈ st.seen → ∃ t, exec x.1 s = .next t ∧ same t ∧ t.rxPackets = s.rxPackets.drop 1
        ∧ t.txPackets = s.txPackets ++ cached.toList.map (fun r => (port, r)) ∧ t.ops = s.ops ∧ t.tags = s.tags)
      ∧ ((∀ n, st.inEpoch = some n → n < p.epoch) → ∃ t, exec x.1 s = exec x.1 t ∧ same t ∧ t.rxPackets = s.rxPackets
        ∧ t.trips = s.trips ∧ t.agenda = s.agenda ∧ (t.stream p.src).inEpoch = some p.epoch
        ∧ (st.inEpoch ≠ none → (t.stream p.src).seen = [] ∧ (t.stream p.src).replies = [])))
    ∧ (∀ (port h : Nat) (p : Packet) (k : PacketKind), headOf s k = some (port, p) →
      (s.stream p.src).inEpoch = some p.epoch → p.seq ∉ (s.stream p.src).seen →
      let line := p.addr / 128
      let lanes := packetLanes p
      let written := (List.range 128).filter (fun i => p.bmask.getLsbD i)
      let allowed : Nat → Nat → (Export → Bool) → Prop := fun a n perm => ∃ e ∈ s.exports,
        (e.2.any = true ∨ e.2.src = p.src) ∧ e.2.base ≤ a ∧ a + n ≤ e.2.base + e.2.size ∧ perm e.2 = true
      let open_ : Prop :=
        (k = .read → allowed p.addr p.count (·.r))
          ∧ (k = .write → ∀ i ∈ written, allowed (line * 128 + i) 1 (·.w))
          ∧ (k = .atomic → ∀ a ∈ lanes, allowed a.pa (tySize p.ty) (·.a))
      let e := if k = .read then Instr.fabricRead else if k = .write then .fabricWrite else .fabricAtomic
      let q : Requester := .ingress (port / 16)
      let stops : List Stop := [⟨h, line, 1⟩]
      k = .read ∨ k = .write ∨ k = .atomic →
      (¬ open_ → s.tripsOf e = [] → ∃ t, exec e s = .next t ∧ same t ∧ told port p (ack p 0 tRemote) t)
      ∧ (open_ → isHole p.addr = true → ∃ t, exec e s = .next t ∧ same t ∧ told port p (ack p 0 tHole) t)
      ∧ (open_ → isHole p.addr = false → effPolicy p.addr p.home = none →
        ∃ t, exec e s = .next t ∧ same t ∧ told port p (ack p 0 tHomeMismatch) t)
      ∧ (open_ ∨ s.tripsOf e ≠ [] → remoteHome p.addr p.home = .ok h →
        (∀ x, s.leaves e q stops x → ∃ t, exec e s = .next t ∧ s.left e q x t)
        ∧ (∀ x, s.comes e q stops x → s.served h line true e →
          let replied : State → Packet → Prop := fun t r => t.replyPacket = some r ∧ t.rxPackets = s.rxPackets
            ∧ t.replies e x (fun y => y.bad = x.bad)
          (∀ y, (s.slice h).sync.find? (fun x => x.line = line) = some y → p.checked = true →
            contains 4 0 y.scope y.inst = false → ∃ t, exec e s = .next t ∧ same t ∧ replied t (ack p 0 tScope))
          ∧ ((p.checked = true → s.inScope h line 4 0) → ∃ t, exec e s = .next t
            ∧ (k = .read → same t
              ∧ replied t { ack p 0 0 with kind := .readReply, data := s.mem.line line, count := p.count })
            ∧ (k = .write → replied t { ack p 0 0 with linetag := s.tags.get 0 line + 1 }
              ∧ t.tags.get 0 line = s.tags.get 0 line + 1
              ∧ ∀ a, t.mem.byte a = if a / 128 = line ∧ p.bmask.getLsbD (a % 128) = true
                  then p.data.extractLsb' (8 * (a % 128)) 8 else s.mem.byte a)
            ∧ (k = .atomic → t.mem = lanes.foldl (atomLane p.cas (p.fn % 32) p.ty (tySize p.ty)) s.mem
              ∧ t.tags.get 0 line = s.tags.get 0 line + 1
              ∧ (p.red = true → replied t (ack p 0 0))
              ∧ (p.red = false → ∃ r, replied t r ∧ r.kind = .atomicReply ∧ r.fault = 0
                ∧ r.linetag = s.tags.get 0 line + 1 ∧ r.lanes.map (·.lane) = p.lanes.map (·.lane)
                ∧ ∀ before x after, lanes = before ++ x :: after → x.lane ∉ after.map (·.lane) →
                  ∀ l ∈ r.lanes, l.lane = x.lane → l.b = BitVec.ofNat 64
                    ((before.foldl (atomLane p.cas (p.fn % 32) p.ty (tySize p.ty)) s.mem).nat x.pa (tySize p.ty))))))
        ∧ (∀ x, s.comes e q stops x → p.checked = false →
          let l := s.sline h line
          l.state ≠ .inv → l.state ≠ .busy → l.uo = 0 → l.waiters = [] ∨ l.waiters.head? = some e →
          poisoned s line = true → k ≠ .write ∨ p.bmask ≠ BitVec.allOnes 128 → ∃ t, exec e s = .next t ∧ same t
            ∧ t.replyPacket = some (ack p 0 tMemory) ∧ t.replies e x (fun y => y.bad = x.bad))
        ∧ (allBack (s.tripsOf e) stops = true → ∀ r, s.replyPacket = some r →
          ∃ t, exec e s = .next t ∧ same t ∧ told port p r t ∧ t.replyPacket = none ∧ s.tags = t.tags)))
    ∧ (∀ (port : Nat) (p : Packet) (token : Bool),
      let e := if token then Instr.fabricToken else .fabricRwrite
      let k := if token then PacketKind.token else .rwrite
      let addr := sigAddr p.sig
      let home := anchorSlice p.sig
      let base := sigBase p.sig
      let j := sigLocket p.sig
      let v : LocketReq := if token then
          { sig := p.sig, scope := some p.scope, lmask := bcastMask p.sig, values := (lanesOf (bcastMask p.sig)).map (fun _ => 1) }
        else { sig := p.sig, width := if p.width = 0 then none else some p.width, lmask := p.lmask, values := p.values }
      let code := verifySignet s v
      let rec_ := resRecord s home (sigCtx p.sig) base
      let full := fullMask s home (sigCtx p.sig) base
      let open_ := exported s p.src addr (4 * widthLanes (sigWidth p.sig % 3)) (·.a)
      let q : Requester := .ingress (port / 16)
      let stops : List Stop := [⟨home, base / 128, 128⟩]
      let lines := [(home, base / 128 + 64), (home, base / 128 + 2 * j), (home, base / 128 + 2 * j + 1)]
      let turn : Nat × Nat → Prop := fun x => (s.sline x.1 x.2).state ≠ .busy
        ∧ ((s.sline x.1 x.2).waiters = [] ∨ (s.sline x.1 x.2).waiters.head? = some e)
      headOf s k = some (port, p) → (s.stream p.src).inEpoch = some p.epoch → p.seq ∉ (s.stream p.src).seen →
      (open_ = false → s.tripsOf e = [] → ∃ t, exec e s = .next t ∧ same t ∧ told port p (ack p 0 tRemote) t)
      ∧ (open_ = true → isHole addr = true → ∃ t, exec e s = .next t ∧ same t ∧ told port p (ack p 0 tHole) t)
      ∧ (open_ = true ∨ s.tripsOf e ≠ [] → isHole addr = false →
        (∀ x, s.leaves e q stops x → ∃ t, exec e s = .next t ∧ s.left e q x t)
        ∧ (∀ x, s.comes e q stops x →
          let replied : State → Nat → Nat → Prop := fun t code fault => t.replyPacket = some (ack p code fault)
            ∧ t.replies e x (fun y => y.bad = x.bad)
          (signetCode s v ≠ 0 ∨ rec_ ≠ none → turn (home, base / 128 + 64) → ∃ t, exec e s = .next t ∧ replied t code 0
            ∧ same t ∧ (code ≠ 0 → (t.slice home).res = (s.slice home).res)
            ∧ (code = 0 → fullMask t home (sigCtx p.sig) base = full ||| BitVec.ofNat 32 (2 ^ j)
              ∧ ∀ r, rec_ = some r → Instr.locketDelivery r.warp j v.lmask v.values ∈ t.agenda))
          ∧ (signetCode s v = 0 → rec_ = none →
            (s.servedAll lines e → ∃ t, exec e s = .next t ∧ replied t code 0 ∧ (code ≠ 0 → same t)
              ∧ (code = 0 → fullMask t home (sigCtx p.sig) base = full ||| BitVec.ofNat 32 (2 ^ j)
                ∧ (∀ x ∈ (lanesOf v.lmask).zip v.values, t.mem.nat (base + 256 * j + 4 * x.1) 4 = x.2.toNat)
                ∧ ∀ a, (a < base + 256 * j ∨ base + 256 * j + 256 ≤ a) → (a < base + 8192 ∨ base + 8196 ≤ a) →
                    t.mem.byte a = s.mem.byte a))
            ∧ ((∀ x ∈ lines, turn x ∧ (s.sline x.1 x.2).state ≠ .inv ∧ (s.sline x.1 x.2).uo = 0) →
              poisoned s (base / 128 + 64) = true →
              ∃ t, exec e s = .next t ∧ same t ∧ t.tags = s.tags ∧ replied t 0 tMemory)))
        ∧ (allBack (s.tripsOf e) stops = true → ∀ r, s.replyPacket = some r →
          ∃ t, exec e s = .next t ∧ same t ∧ told port p r t ∧ t.replyPacket = none)))
    ∧ (∀ (port : Nat) (p : Packet), headOf s .kick = some (port, p) →
      (s.stream p.src).inEpoch = some p.epoch → p.seq ∉ (s.stream p.src).seen →
      let d := p.die % 4
      let n := p.slot % 64
      let q := s.queue d n
      let r := ((s.die (port / 16)).replicas.find? (64 * d + n)).getD { version := q.version, bound := q.state ≠ 0, ctx := q.ctx }
      let ours := if r.version = q.version then r.bound = true ∧ r.ctx = p.ctx else q.state ≠ 0 ∧ q.ctx = p.ctx
      ∃ t, exec .fabricKick s = .next t ∧ told port p (ack p 0 0) t ∧ same t
        ∧ (t.die (port / 16)).replicas.find? (64 * d + n) = some r
        ∧ (ours → (t.queue d n).kick = max q.kick p.tail.toNat ∧ .queueCommandPull d n ∈ t.agenda)
        ∧ (¬ ours → (t.queue d n).kick = q.kick ∧ (t.die d).foreignKicks = (s.die d).foreignKicks + 1))
    ∧ (s.rxPackets = [] → exec .fabricReplyArrival s = .next s)
    ∧ ∀ (port : Nat) (r : Packet) (rest : List (Nat × Packet)), s.rxPackets = (port, r) :: rest →
      let e := Instr.fabricReplyArrival
      let found := (s.stream r.src).unacked.find? (fun u => u.seq = r.seq)
      (r.kind ≠ .readReply → r.kind ≠ .atomicReply → r.kind ≠ .ack → exec e s = .next s)
      ∧ (r.kind = .readReply ∨ r.kind = .atomicReply ∨ r.kind = .ack →
        (found = none → exec e s = .next { s with rxPackets := rest })
        ∧ ∀ u o p, found = some u → s.ops.find? u.op = some o → o.parts[u.part]? = some p →
          ∃ t, exec e s = .next t ∧ t.rxPackets = rest
            ∧ (r.fault ≠ 0 → o.kind ≠ .copy → o.kind ≠ .kick → o.kind ≠ .pref → o.kind ≠ .fetch → (t.ops.find? u.op).map (·.fault)
              = some (o.fault <|> some ⟨3, r.fault, BitVec.ofNat 64 (128 * p.line), lineMask o p.key, 0, o.pc⟩))
            ∧ (r.fault = 0 → o.kind = .load → t.answered u.op u.part (fun q => q.ldata = r.data) ∧ same t)
            ∧ (r.fault = 0 → o.kind = .storeT → t.answered u.op u.part (fun q => q.tag = r.linetag) ∧ same t)
            ∧ (r.fault = 0 → o.kind = .atomic ∨ o.kind = .atomc → t.answered u.op u.part (fun q => q.tag = r.linetag)
              ∧ same t ∧ ((r.lanes.map (·.lane)).Nodup → ∀ l ∈ r.lanes,
                (t.ops.find? u.op).map (fun o => o.data.get 0 (8 * l.lane)) = some l.b))
            ∧ (r.fault = 0 → o.kind = .rwr ∨ o.kind = .ksend → (t.ops.find? u.op).map (fun o => (o.code, o.data.get 0 0))
              = some (r.code, BitVec.ofNat 64 r.code))
            ∧ (o.kind = .kick → t.ops.find? u.op = none))

/-! ## The machine as a whole -/

/-- Tier 1. R25 to R27, R45, R48: the step of a split that issues is exec of the instruction that the twelve bytes at its PC
decode to; bytes that are no instruction raise the illegal-instruction trap, a fetch that fails faults at the PC, and the
word of a page of another node is asked for there. -/
def Obligations.StepRunsDecodedInstruction : Prop :=
  ∀ (s : State) (r : SplitRef) (c : Cx), s.cur = some r → s.cxOf r = some c →
    (∀ w i, fetchWord s c c.path.pc = .ok w → decode w = .ok i → step s = exec i (fetchUsed s c c.path.pc))
    ∧ (∀ a b i, codePhys s c c.path.pc 0 = .ok a → codePhys s c c.path.pc 11 = .ok b → b.pa = a.pa + 11 →
      a.tr.node = none → b.tr.node = none → (∀ k, k < 12 → (a.pa + k) / 128 ∉ s.poison) →
      mixedHome s a.home (a.pa / 128) = false → mixedHome s b.home (b.pa / 128) = false →
      (∀ k, k < 12 → c.launch.code.byte (a.pa + k) = s.mem.byte (a.pa + k)) → (codeAddr c.path.pc).toNat % 65536 ≤ 65524 →
      decodeBytes ((List.range 12).map (fun k => s.mem.byte (a.pa + k))) = .ok i → step s = exec i s)
    ∧ (∀ w e, fetchWord s c c.path.pc = .ok w → decode w = .error e → c.team.status = .running → ∃ t, step s = .next t
      ∧ (t.team? r.team).bind (·.halt) = some (⟨1, 1, 0, 0, 0, c.path.pc⟩, r.warp, r.split)
      ∧ ∀ a, t.mem.byte a = s.mem.byte a)
    ∧ (codeWords s c c.path.pc = .error .fetch → step s = exec (.instructionFetch r) s
      ∧ (c.team.status = .running → ∃ t, step s = .next t
        ∧ (t.team? r.team).bind (·.halt) = some (⟨3, tFetch, codeAddr c.path.pc, 0, 0, c.path.pc⟩, r.warp, r.split)))
    ∧ (∀ pa, codeWords s c c.path.pc = .error (.memory pa) → step s = exec (.instructionFetch r) s
      ∧ (c.team.status = .running → ∃ t, step s = .next t
        ∧ (t.team? r.team).bind (·.halt) = some (⟨3, tMemory, BitVec.ofNat 64 pa, 0, 0, c.path.pc⟩, r.warp, r.split)))
    ∧ (codeWords s c c.path.pc = .error .remote → step s = exec (.instructionFetch r) s ∧ ∃ t, step s = .next t
      ∧ t.cur = none ∧ (t.split? r).map (fun sp => (sp.path, sp.wait)) = some (c.path, .line)
      ∧ (∀ a, t.mem.byte a = s.mem.byte a) ∧ ∃ o, t.ops.find? s.nextOp = some o ∧ o.kind = .fetch ∧ o.ref = r)
    ∧ ∀ w, codeWords s c c.path.pc = .ok w → ∃ t, exec (.instructionFetch r) s = .next t ∧ t.cur = none
      ∧ t.teams = s.teams ∧ ∀ a, t.mem.byte a = s.mem.byte a

/-- Tier 2. R19, R46, R420: no instruction is refused by the machine, and one whose split issues always takes a next state;
while no split issues, a step is one of the events that may come next, or none; a package that has stopped takes
only a package reset. -/
def Obligations.EveryInstructionCompletes : Prop :=
  ∀ (s : State), s.Inv →
    (∀ i r, exec i s ≠ .refused r)
    ∧ (∀ i c, (fieldsOf i).isSome = true → s.issuing c → ∃ t, exec i s = .next t)
    ∧ (s.cur = none →
      let es := candidates (takeInputs (tickClock s))
      (es = [] → ∃ t, step s = .next t ∧ t.mem = s.mem ∧ t.teams = s.teams ∧ t.agenda = s.agenda)
      ∧ (es ≠ [] → ∃ e t, e ∈ es ∧ step s = exec e t
        ∧ t.mem = s.mem ∧ t.teams = s.teams ∧ (∀ x ∈ t.agenda, x ∈ s.agenda) ∧ s.clock ≤ t.clock)
      ∧ (s.stopped = true → ∀ e ∈ candidates s, e = .packageReset))

/-- Tier 1. R25, R28, R31, R35, R37, R38: the words that the spec works out decode to their instructions. -/
def Obligations.DecodeWords : Prop :=
  let m0 : MF := { g := ⟨0, false, false⟩, fn := 0, ty := 0, d := 0, a := 0, b := 0, pk := 0, ck := 0, sc := 0, ord := 0, sp := 0,
                   fa := false, fb := false, ch := 0, w := 0 }
  decodeBytes [0x11, 0x80, 0x00, 0x06, 0xF0, 0xAC, 0x68, 0x24, 0, 0, 0, 0]
      = .ok (.movi { g := ⟨2, false, false⟩, fn := 0, ty := 0, d := 12, a := 0x278, b := 0x115, c := 0x123, bk := 0, fa := false,
                     fb := false, fc := false, rm := 0, sat := false, mod := 0, w := 0 })
    ∧ decodeBytes [0x60, 0x00, 0x18, 0x0A, 0x10, 0x00, 0x60, 0x44, 0x00, 0x00, 0x04, 0x00]
      = .ok (.ld { m0 with ty := 3, d := 20, a := 8, pk := 3, ck := 2, sc := 2, w := 64 })
    ∧ decodeBytes [0x01, 0x40, 0x02, 0x00, 0x00, 0x00, 0x00, 0x05, 0x00, 0xE0, 0xFF, 0xFF]
      = .ok (.bra { g := ⟨1, true, false⟩, fn := 0, d := 0, a := 0, b := 0, j := 5, t := 0xFFFFE })
    ∧ decodeBytes [0x75, 0, 0, 0, 0, 0, 0, 0x80, 0x00, 0x20, 0x10, 0x00] = .ok (.fence { m0 with sc := 4, w := 0x102 })
    ∧ decodeBytes [0xFF, 0, 0, 0, 0, 0, 0, 0, 0, 0, 0, 0] = .error .opcode

/-- Tier 2. R29, R40 to R42, R45, R46, R94, R97, R98, R112, R206: a field outside its table traps as an illegal instruction and
then an operand that may not stand there as an illegal operand, before the guard is looked at; an instruction whose guard holds in no active lane is passed over whole; then an empty source marked to trap
traps, and an empty register, an unmet consume key, a fence point or a full count makes the split wait with no effect. -/
def Obligations.GateOrder : Prop :=
  ∀ (s : State) (c : Cx) (i : Instr), s.Inv → s.issuing c → (fieldsOf i).isSome = true →
    let n := needOf c i
    let bad := n.bad = true ∨ (∃ d ∈ n.dsts, badDst c d = true) ∨ ∃ e ∈ n.srcs, badSrc c e.1 = true
    let empty := ∃ r, (r ∈ n.srcs.map (·.1) ∨ r ∈ n.dsts) ∧ isEmpty c r = true
    let trapping := ∃ e ∈ n.srcs, e.2 = some true ∧ isEmpty c e.1 = true
    let behind : Nat → Nat → Nat → Prop := fun k sc j =>
      let kj := c.warp.key j
      (kj.p - ((c.warp.key k).t.get 0 j)).toNat < (kj.p - kj.lead sc).toNat
    let unmet := ∃ k sc, n.key = some (k, sc) ∧ k ≠ 0 ∧ ((∃ j, j < 16 ∧ behind k sc j)
      ∨ ∃ l, l < 32 ∧ (c.warp.key k).l.getLsbD l = true ∧ (c.warp.row (c.ring + 96 + l)).full = false)
    let fenced := ∃ e ∈ c.warp.fences, (∃ x ∈ n.cls, e.2.succ.getLsbD x = true)
      ∧ ∃ x, x < 7 ∧ e.2.pred.getLsbD x = true
        ∧ ((c.warp.cls x).q - e.2.n.get 0 x).toNat < ((c.warp.cls x).q - (c.warp.cls x).lead e.2.scope).toNat
    let counted := ∃ k, n.pk = some k ∧ (((c.warp.key k).p - (c.warp.key k).lead 4).toNat = 65535
      ∨ ∃ x ∈ n.cls, ((c.warp.cls x).q - (c.warp.cls x).lead 4).toNat = 65535)
    let traps : Nat → Prop := fun code => exec i s = .next (raiseTrap c.ref ⟨1, code, 0, 0, 0, c.path.pc⟩ s)
    let waits : Prop := ∃ t, exec i s = .next t ∧ t.cur = none ∧ (∀ a, t.mem.byte a = s.mem.byte a) ∧ t.ops = s.ops
      ∧ t.contexts = s.contexts ∧ t.launches = s.launches ∧ t.slices = s.slices
      ∧ (∃ sp, t.split? c.ref = some sp ∧ { sp with last := c.split.last } = c.split)
      ∧ (t.warp? c.wref).map Warp.noSplits = some c.warp.noSplits
      ∧ (∀ q, q ≠ c.ref → t.split? q = s.split? q) ∧ ∀ v, v ≠ c.wref → t.warp? v = s.warp? v
    let branches := match i with
      | .bra _ | .brx _ | .call _ | .callx _ | .ret _ => true
      | _ => false
    (n.illegal = true → traps 1)
    ∧ (n.illegal = false → bad → traps 2)
    ∧ (n.illegal = false → ¬ bad → c.exec n.g = 0 → branches = false → c.team.step = none → ∃ t w, exec i s = .next t ∧ Went c s t w
      ∧ w.unkeyed = c.warp.unkeyed ∧ w.keys = c.warp.keys ∧ w.fences = c.warp.fences)
    ∧ (n.illegal = false → ¬ bad → c.exec n.g ≠ 0 →
      (trapping → traps 3)
      ∧ (¬ trapping → empty → waits)
      ∧ (¬ empty → unmet ∨ fenced ∨ counted → waits)
      ∧ (¬ empty → ¬ unmet → ¬ fenced → ¬ counted → gate s c n = .go (c.exec n.g)))

/-- Tier 2. R24, R382, R383, R393: the first trap or fault of a running team becomes its primary trap and starts its halt; a
later one, until the image of the team is final, is kept by its own split, and takes the place of the primary one only where it
comes in the same cycle from a lower warp, or from a lower split of that warp; none touches a register, a key, a predicate or memory; no lane of the
faulting split issues again. -/
def Obligations.TrapEntry : Prop :=
  ∀ (s : State) (r : SplitRef) (tr : Trap) (tm : Team) (sp : Split) (w : Warp), s.Inv → s.team? r.team = some tm →
    s.warp? (warpOf r) = some w → s.split? r = some sp →
    let t := raiseTrap r tr s
    t.cur = none ∧ (∀ a, t.mem.byte a = s.mem.byte a) ∧ (∀ k, k ≠ r.team → t.team? k = s.team? k)
      ∧ (t.warp? (warpOf r)).map Warp.noSplits = some w.noSplits
      ∧ (∀ q, q ≠ r → t.split? q = s.split? q) ∧ t.ops = s.ops ∧ t.contexts = s.contexts ∧ t.launches = s.launches
      ∧ (tm.status = .running → (t.team? r.team).map (fun x => (x.status, x.halt, x.haltAt))
          = some (.raised, some (tr, r.warp, r.split), s.clock)
        ∧ t.split? r = some { sp with own := some tr } ∧ t.agenda = s.agenda ++ [.teamHalt r.team]
        ∧ ∀ c, t.cxOf r = some c → mayIssue c = false)
      ∧ (tm.status = .raised ∨ tm.status = .skidding ∨ (tm.status = .saving ∧ tm.saved = false) →
        (∀ h, tm.halt = some h → (t.team? r.team).map (·.halt) = some (some
          (if tm.haltAt = s.clock ∧ (r.warp < h.2.1 ∨ r.warp = h.2.1 ∧ r.split < h.2.2) then (tr, r.warp, r.split) else h)))
        ∧ (tm.halt = none → (t.team? r.team).map (fun x => (x.halt, x.haltAt)) = some (some (tr, r.warp, r.split), s.clock))
        ∧ (t.team? r.team).map (·.status) = some tm.status
        ∧ (t.split? r).map (·.own) = some (some (sp.own.getD tr)) ∧ t.agenda = s.agenda)
      ∧ (tm.status ≠ .running → tm.status ≠ .raised → tm.status ≠ .skidding → tm.status ≠ .saving ∨ tm.saved = true →
        t = { s with cur := none })

/-- Tier 1. R357, R416 to R418, R420: what a reset leaves, what firmware it accepts, recovery where it accepts none, and a
thermal trip, which leaves the staged image for that reset's check, and after which only a package reset is taken. The memory that
reads 0 after a reset (log entry 1), the other values that no rule gives (2), which image stands at power-on (3), what a thermal
trip leaves (74) and that no event outlives a reset (75) are the model's choice. -/
def Obligations.ResetState : Prop :=
  (∀ z : State, z = State.reset →
    z.Inv ∧ z.cur = none ∧ z.agenda = [] ∧ z.teams = [] ∧ z.launches = [] ∧ z.ops = [] ∧ z.sessions = [] ∧ z.nodeId = none
      ∧ z.stored = some Config.bootFirmware ∧ z.staging = []
      ∧ (imageOk Config.fusedMinimum Config.bootFirmware = true → z.recovery = false ∧ z.firmware = z.stored
        ∧ z.fusedSvn = Config.bootFirmware.svn)
      ∧ (imageOk Config.fusedMinimum Config.bootFirmware = false → z.recovery = true ∧ z.firmware = none
        ∧ z.fusedSvn = Config.fusedMinimum)
      ∧ z.stopped = false ∧ z.clock = 0 ∧ (∀ c, (z.context c).live = false)
      ∧ (∀ p, (z.ports.get {} p).up = false) ∧ (∀ d n, (z.queue d n).state = 0) ∧ ∀ a, z.mem.byte a = 0)
    ∧ ∀ s : State,
      let img := if s.staging = [] then s.stored else some (stagedImage s.staging)
      let blank : State → Prop := fun t => t.Inv ∧ t.cur = none ∧ t.agenda = [] ∧ t.teams = [] ∧ t.launches = [] ∧ t.ops = []
        ∧ t.sessions = [] ∧ t.nodeId = none ∧ t.clock = 0 ∧ (∀ c, (t.context c).live = false)
        ∧ (∀ d n, (t.queue d n).state = 0)
      (∃ t, exec .packageReset s = .next t ∧ blank t ∧ t.stopped = false ∧ t.stored = img ∧ t.staging = []
        ∧ t.secret = Config.bootSecret (s.boots + 1)
        ∧ (∀ f, img = some f → sha3_256 f.key = Config.fusedKeyDigest →
          Config.mldsaVerify f.key (sha3_256 f.body) f.sig = true → s.fusedSvn.toNat ≤ f.svn.toNat →
          t.firmware = some f ∧ t.fusedSvn = f.svn ∧ t.recovery = false)
        ∧ ((∀ f, img = some f → imageOk s.fusedSvn f = false) →
          t.firmware = none ∧ t.fusedSvn = s.fusedSvn ∧ t.recovery = true))
      ∧ (∃ t, exec .thermalTrip s = .next t ∧ blank t ∧ t.stopped = true ∧ t.stored = s.stored ∧ t.staging = s.staging
        ∧ t.fusedSvn = s.fusedSvn ∧ candidates t = [])
      ∧ ∀ die, ∃ t, exec (.thermalThrottle die) s = .next t
        ∧ (∀ k, k / 16 = die → (t.core k).throttled = true)
        ∧ ∃ cs, t = { s with cores := cs } ∧ ∀ k, { t.core k with throttled := (s.core k).throttled } = s.core k

/-- Tier 3. The invariant holds after every step: memory keeps its canonical form, and every launch's window ring has a size
that R199 allows. -/
def Obligations.StepKeepsInv : Prop :=
  ∀ (s t : State), s.Inv → step s = .next t → t.Inv
end

