-- ==== Sys2Proof/Laws/Encoding.lean ====
section
/-! SUPPORT. What a well-formed word's fields satisfy: the checks of R45 and R40, one fact each. -/

namespace Sys2Proof.Machine

theorem need_bind {α : Type} {b : Bool} {e : DecodeError} {k : Unit → Except DecodeError α} {x : α}
    (h : (need b e >>= k) = .ok x) : b = true ∧ k () = .ok x := by
  cases b
  · simp [need, bind, Except.bind] at h
  · exact ⟨rfl, h⟩

theorem ok_bind {α β : Type} {a : Except DecodeError α} {k : α → Except DecodeError β} {x : β}
    (h : (a >>= k) = .ok x) : ∃ y, a = .ok y ∧ k y = .ok x := by
  cases a with
  | error e => simp [bind, Except.bind] at h
  | ok y => exact ⟨y, rfl, h⟩

theorem need_ok {b : Bool} {e : DecodeError} (h : need b e = .ok ()) : b = true := by
  cases b
  · simp [need] at h
  · rfl

/-- A word of format V that passes every check names a listed function and type of its entry, and its fields are legal
for their uses. -/
theorem vCheck_ok {op : Nat} {f : VF} (h : vCheck op f = .ok ()) :
    ∃ sp, vSpec op = some sp ∧ sp.fns.contains f.fn.toNat = true ∧ sp.types.contains f.ty.toNat = true
      ∧ vExtra op f = .ok () ∧ bOk sp f = .ok () ∧ useOk sp.d f.d = .ok () ∧ useOk sp.a f.a = .ok ()
      ∧ useOk sp.c f.c = .ok () ∧ (sp.lut = false → (f.rm = 0 ∨ (sp.rm = true ∧ f.rm.toNat < 6))
          ∧ (f.sat = true → sp.sat = true)) := by
  unfold vCheck at h
  split at h
  · simp at h
  · next sp hs =>
    obtain ⟨h1, h⟩ := need_bind h
    obtain ⟨h2, h⟩ := need_bind h
    obtain ⟨_, h3, h⟩ := ok_bind h
    obtain ⟨_, h4, h⟩ := ok_bind h
    obtain ⟨_, h5, h⟩ := ok_bind h
    obtain ⟨_, h6, h⟩ := ok_bind h
    obtain ⟨_, h7, h⟩ := ok_bind h
    obtain ⟨_, h⟩ := need_bind h
    obtain ⟨_, h⟩ := need_bind h
    refine ⟨sp, hs, h1, h2, h3, h4, h5, h6, h7, fun hl => ?_⟩
    rw [if_neg (by simp [hl])] at h
    obtain ⟨h8, h⟩ := need_bind h
    obtain ⟨h9, h⟩ := need_bind h
    refine ⟨by simpa using h8, fun hs => ?_⟩
    simpa [hs] using h9

/-- A well-formed instruction of format V passes its word's checks. -/
theorem wellFormed_v {i : Instr} {op : Nat} {f : VF} (hf : fieldsOf i = some (.v op f)) (h : i.wellFormed = true) :
    vCheck op f = .ok () := by
  unfold Instr.wellFormed encodingCheck at h
  rw [hf] at h
  dsimp only at h
  by_cases hn : (Fields.v op f).name = some i
  · rw [if_pos hn] at h
    cases hc : fieldsCheck (.v op f) with
    | ok u => exact hc
    | error e => rw [hc] at h; simp at h
  · rw [if_neg hn] at h; simp at h

theorem wellFormed_m {i : Instr} {op : Nat} {f : MF} (hf : fieldsOf i = some (.m op f)) (h : i.wellFormed = true) :
    mCheck op f = .ok () ∧ nameM op f = some i := by
  unfold Instr.wellFormed encodingCheck at h
  rw [hf] at h
  dsimp only at h
  by_cases hn : (Fields.m op f).name = some i
  · rw [if_pos hn] at h
    cases hc : fieldsCheck (.m op f) with
    | ok u => exact ⟨hc, hn⟩
    | error e => rw [hc] at h; simp at h
  · rw [if_neg hn] at h; simp at h

end Sys2Proof.Machine
end

