-- ==== Sys2Proof/Laws/Host.lean ====
section
/-! SUPPORT. What a memory access of the host does, by where its bytes lie (R75, R380). -/

namespace Sys2Proof.Machine

theorem withSession_congr {c : Cmd} {opc : Nat} {e : Instr} {s : State} {k k' : State → Out} (h : k s = k' s) :
    withSession c opc e s k = withSession c opc e s k' := by
  simp only [withSession, h]

theorem withContext_congr {c : Cmd} {opc ctx : Nat} {e : Instr} {s : State} {k k' : State → Out} (h : k s = k' s) :
    withContext c opc ctx e s k = withContext c opc ctx e s k' :=
  withSession_congr (by simp only [h])

theorem physicalAccess_memory {c : Cmd} {opc pol : Nat} {write : Bool} {addr : Dword} {count : Nat} {data : List Byte} {s : State}
    (h : inRecords ((List.range count).map (addr.toNat + ·)) = false) :
    physicalAccess c opc pol write addr count data s = physicalMemory c opc pol write addr count data s := by
  simp [physicalAccess, h]

theorem physicalAccess_records {c : Cmd} {opc pol : Nat} {write : Bool} {addr : Dword} {count : Nat} {data : List Byte} {s : State}
    (h : inRecords ((List.range count).map (addr.toNat + ·)) = true) :
    physicalAccess c opc pol write addr count data s
      = .next (recordAccess c opc write ((List.range count).map (addr.toNat + ·)) data s) := by
  simp [physicalAccess, h]

theorem virtualAccess_memory {e : Instr} {c : Cmd} {opc ctx : Nat} {write : Bool} {va : Dword} {count : Nat} {data : List Byte}
    {s : State} {r : List Nat × List (Nat × Nat)} (hp : unpinned s e ctx [va, va + BitVec.ofNat 64 (count - 1)] = [])
    (hr : hostBytes s e ctx write 66 va count = .ok r) (h : inRecords r.1 = false) :
    virtualAccess e c opc ctx write va count data s = virtualMemory c opc ctx write va r data (unpin e s) := by
  simp [virtualAccess, withPins, hp, hr, h]

/-- The records take up 16 KiB: of two bytes as far apart, one lies outside. -/
theorem outside_records {a b : Nat} (h : a + 16384 ≤ b) : queuePlace a = none ∨ queuePlace b = none := by
  unfold queuePlace
  by_cases ha : Config.queueRecords.toNat ≤ a && a - Config.queueRecords.toNat < 4 * 64 * 64
  · right
    simp only [Bool.and_eq_true, decide_eq_true_eq] at ha
    rw [if_neg]
    simp only [Bool.and_eq_true, decide_eq_true_eq]
    omega
  · left
    rw [if_neg ha]

end Sys2Proof.Machine
end

