-- ==== Sys2Proof/Laws/Tab.lean ====
section
/-! SUPPORT. Reading a sparse table after it has been written: what stands at the number written, and that every other
number keeps what it held. -/

namespace Sys2Proof.Machine

variable {α : Type}

@[simp] theorem Tab.find?_nil (k : Nat) : Tab.find? ([] : Tab α) k = none := rfl

theorem Tab.find?_cons (k' : Nat) (v : α) (t : Tab α) (k : Nat) :
    Tab.find? ((k', v) :: t) k = if k' = k then some v else Tab.find? t k := rfl

theorem Tab.find?_set (t : Tab α) (k j : Nat) (v : α) :
    (t.set k v).find? j = if j = k then some v else t.find? j := by
  induction t with
  | nil =>
    show (if k = j then some v else none) = _
    by_cases h : j = k
    · simp [h]
    · simp [h, Ne.symm h]
  | cons e t ih =>
    obtain ⟨k', v'⟩ := e
    unfold Tab.set
    by_cases h1 : k' = k
    · rw [if_pos h1, Tab.find?_cons, Tab.find?_cons, h1]
      by_cases h : j = k
      · simp [h]
      · simp [h, Ne.symm h]
    · rw [if_neg h1]
      by_cases h2 : k < k'
      · rw [if_pos h2, Tab.find?_cons]
        by_cases h : j = k
        · simp [h]
        · simp [h, Ne.symm h]
      · rw [if_neg h2, Tab.find?_cons, Tab.find?_cons, ih]
        by_cases h : j = k
        · subst h; simp [h1]
        · simp [h]

@[simp] theorem Tab.find?_set_self (t : Tab α) (k : Nat) (v : α) : (t.set k v).find? k = some v := by
  simp [Tab.find?_set]

theorem Tab.find?_set_other (t : Tab α) {k j : Nat} (v : α) (h : j ≠ k) : (t.set k v).find? j = t.find? j := by
  simp [Tab.find?_set, h]

theorem Tab.get_set (d : α) (t : Tab α) (k j : Nat) (v : α) :
    (t.set k v).get d j = if j = k then v else t.get d j := by
  by_cases h : j = k <;> simp [Tab.get, Tab.find?_set, h]

@[simp] theorem Tab.get_set_self (d : α) (t : Tab α) (k : Nat) (v : α) : (t.set k v).get d k = v := by
  simp [Tab.get_set]

theorem Tab.get_set_other (d : α) (t : Tab α) {k j : Nat} (v : α) (h : j ≠ k) :
    (t.set k v).get d j = t.get d j := by simp [Tab.get_set, h]

theorem Tab.find?_erase (t : Tab α) (k j : Nat) : (t.erase k).find? j = if j = k then none else t.find? j := by
  induction t with
  | nil => simp [Tab.erase]
  | cons e t ih =>
    obtain ⟨k', v'⟩ := e
    simp only [Tab.erase] at ih
    by_cases h1 : k' = k
    · subst h1
      simp only [Tab.erase, List.filter_cons, ne_eq, not_true_eq_false, decide_false, Bool.false_eq_true, ite_false]
      rw [ih, Tab.find?_cons]
      by_cases h : j = k'
      · simp [h]
      · simp [h, Ne.symm h]
    · simp only [Tab.erase, List.filter_cons, ne_eq, h1, not_false_eq_true, decide_true, ite_true]
      rw [Tab.find?_cons, Tab.find?_cons, ih]
      by_cases h : j = k
      · subst h; simp [h1]
      · simp [h]

theorem Tab.find?_adjust (t : Tab α) (k j : Nat) (f : α → α) :
    (t.adjust k f).find? j = if j = k then (t.find? k).map f else t.find? j := by
  unfold Tab.adjust
  cases h : t.find? k with
  | none => by_cases hj : j = k <;> simp [hj, h]
  | some v => by_cases hj : j = k <;> simp [Tab.find?_set, hj]

@[simp] theorem Tab.find?_adjust_self (t : Tab α) (k : Nat) (f : α → α) :
    (t.adjust k f).find? k = (t.find? k).map f := by simp [Tab.find?_adjust]

theorem Tab.find?_adjust_other (t : Tab α) {k j : Nat} (f : α → α) (h : j ≠ k) :
    (t.adjust k f).find? j = t.find? j := by simp [Tab.find?_adjust, h]

theorem Tab.get_modify (d : α) (t : Tab α) (k j : Nat) (f : α → α) :
    (t.modify d k f).get d j = if j = k then f (t.get d k) else t.get d j := by
  simp [Tab.modify, Tab.get_set]

@[simp] theorem Tab.get_modify_self (d : α) (t : Tab α) (k : Nat) (f : α → α) :
    (t.modify d k f).get d k = f (t.get d k) := by simp [Tab.get_modify]

theorem Tab.get_modify_other (d : α) (t : Tab α) {k j : Nat} (f : α → α) (h : j ≠ k) :
    (t.modify d k f).get d j = t.get d j := by simp [Tab.get_modify, h]

theorem Tab.set_set (t : Tab α) (k : Nat) (u v : α) : (t.set k u).set k v = t.set k v := by
  induction t with
  | nil => simp [Tab.set]
  | cons e t ih =>
    obtain ⟨k', v'⟩ := e
    by_cases h1 : k' = k
    · simp [Tab.set, h1]
    · by_cases h2 : k < k' <;> simp [Tab.set, h1, h2, ih]

theorem Tab.adjust_adjust (t : Tab α) (k : Nat) (f g : α → α) :
    (t.adjust k f).adjust k g = t.adjust k (fun v => g (f v)) := by
  unfold Tab.adjust
  cases h : t.find? k with
  | none => simp [h]
  | some v => simp [Tab.set_set]

end Sys2Proof.Machine
end

