-- ==== Sys2Proof/Laws/State.lean ====
section
/-! SUPPORT. What each update of a part of the state leaves alone, one lemma per field per update, and what a part reads
as after it. Generated by a script from the list of State's fields. -/

namespace Sys2Proof.Machine

variable (s : State)

@[simp] theorem State.modTeam_cur (t : Nat) (f : Team → Team) : (s.modTeam t f).cur = s.cur := rfl
@[simp] theorem State.modTeam_agenda (t : Nat) (f : Team → Team) : (s.modTeam t f).agenda = s.agenda := rfl
@[simp] theorem State.modTeam_trips (t : Nat) (f : Team → Team) : (s.modTeam t f).trips = s.trips := rfl
@[simp] theorem State.modTeam_pins (t : Nat) (f : Team → Team) : (s.modTeam t f).pins = s.pins := rfl
@[simp] theorem State.modTeam_free (t : Nat) (f : Team → Team) : (s.modTeam t f).free = s.free := rfl
@[simp] theorem State.modTeam_clock (t : Nat) (f : Team → Team) : (s.modTeam t f).clock = s.clock := rfl
@[simp] theorem State.modTeam_tick (t : Nat) (f : Team → Team) : (s.modTeam t f).tick = s.tick := rfl
@[simp] theorem State.modTeam_mem (t : Nat) (f : Team → Team) : (s.modTeam t f).mem = s.mem := rfl
@[simp] theorem State.modTeam_poison (t : Nat) (f : Team → Team) : (s.modTeam t f).poison = s.poison := rfl
@[simp] theorem State.modTeam_corrected (t : Nat) (f : Team → Team) : (s.modTeam t f).corrected = s.corrected := rfl
@[simp] theorem State.modTeam_homes (t : Nat) (f : Team → Team) : (s.modTeam t f).homes = s.homes := rfl
@[simp] theorem State.modTeam_tags (t : Nat) (f : Team → Team) : (s.modTeam t f).tags = s.tags := rfl
@[simp] theorem State.modTeam_launches (t : Nat) (f : Team → Team) : (s.modTeam t f).launches = s.launches := rfl
@[simp] theorem State.modTeam_contexts (t : Nat) (f : Team → Team) : (s.modTeam t f).contexts = s.contexts := rfl
@[simp] theorem State.modTeam_cores (t : Nat) (f : Team → Team) : (s.modTeam t f).cores = s.cores := rfl
@[simp] theorem State.modTeam_slices (t : Nat) (f : Team → Team) : (s.modTeam t f).slices = s.slices := rfl
@[simp] theorem State.modTeam_dies (t : Nat) (f : Team → Team) : (s.modTeam t f).dies = s.dies := rfl
@[simp] theorem State.modTeam_ops (t : Nat) (f : Team → Team) : (s.modTeam t f).ops = s.ops := rfl
@[simp] theorem State.modTeam_nextOp (t : Nat) (f : Team → Team) : (s.modTeam t f).nextOp = s.nextOp := rfl
@[simp] theorem State.modTeam_nodeId (t : Nat) (f : Team → Team) : (s.modTeam t f).nodeId = s.nodeId := rfl
@[simp] theorem State.modTeam_ports (t : Nat) (f : Team → Team) : (s.modTeam t f).ports = s.ports := rfl
@[simp] theorem State.modTeam_exports (t : Nat) (f : Team → Team) : (s.modTeam t f).exports = s.exports := rfl
@[simp] theorem State.modTeam_streams (t : Nat) (f : Team → Team) : (s.modTeam t f).streams = s.streams := rfl
@[simp] theorem State.modTeam_txPackets (t : Nat) (f : Team → Team) : (s.modTeam t f).txPackets = s.txPackets := rfl
@[simp] theorem State.modTeam_rxPackets (t : Nat) (f : Team → Team) : (s.modTeam t f).rxPackets = s.rxPackets := rfl
@[simp] theorem State.modTeam_replyPacket (t : Nat) (f : Team → Team) : (s.modTeam t f).replyPacket = s.replyPacket := rfl
@[simp] theorem State.modTeam_rxFrames (t : Nat) (f : Team → Team) : (s.modTeam t f).rxFrames = s.rxFrames := rfl
@[simp] theorem State.modTeam_txFrames (t : Nat) (f : Team → Team) : (s.modTeam t f).txFrames = s.txFrames := rfl
@[simp] theorem State.modTeam_framesDropped (t : Nat) (f : Team → Team) : (s.modTeam t f).framesDropped = s.framesDropped := rfl
@[simp] theorem State.modTeam_globalAddr (t : Nat) (f : Team → Team) : (s.modTeam t f).globalAddr = s.globalAddr := rfl
@[simp] theorem State.modTeam_peers (t : Nat) (f : Team → Team) : (s.modTeam t f).peers = s.peers := rfl
@[simp] theorem State.modTeam_rxDatagrams (t : Nat) (f : Team → Team) : (s.modTeam t f).rxDatagrams = s.rxDatagrams := rfl
@[simp] theorem State.modTeam_txDatagrams (t : Nat) (f : Team → Team) : (s.modTeam t f).txDatagrams = s.txDatagrams := rfl
@[simp] theorem State.modTeam_dropped (t : Nat) (f : Team → Team) : (s.modTeam t f).dropped = s.dropped := rfl
@[simp] theorem State.modTeam_hellos (t : Nat) (f : Team → Team) : (s.modTeam t f).hellos = s.hellos := rfl
@[simp] theorem State.modTeam_sessions (t : Nat) (f : Team → Team) : (s.modTeam t f).sessions = s.sessions := rfl
@[simp] theorem State.modTeam_hostAccs (t : Nat) (f : Team → Team) : (s.modTeam t f).hostAccs = s.hostAccs := rfl
@[simp] theorem State.modTeam_waitingCmds (t : Nat) (f : Team → Team) : (s.modTeam t f).waitingCmds = s.waitingCmds := rfl
@[simp] theorem State.modTeam_preempts (t : Nat) (f : Team → Team) : (s.modTeam t f).preempts = s.preempts := rfl
@[simp] theorem State.modTeam_firmware (t : Nat) (f : Team → Team) : (s.modTeam t f).firmware = s.firmware := rfl
@[simp] theorem State.modTeam_stored (t : Nat) (f : Team → Team) : (s.modTeam t f).stored = s.stored := rfl
@[simp] theorem State.modTeam_staging (t : Nat) (f : Team → Team) : (s.modTeam t f).staging = s.staging := rfl
@[simp] theorem State.modTeam_fusedSvn (t : Nat) (f : Team → Team) : (s.modTeam t f).fusedSvn = s.fusedSvn := rfl
@[simp] theorem State.modTeam_recovery (t : Nat) (f : Team → Team) : (s.modTeam t f).recovery = s.recovery := rfl
@[simp] theorem State.modTeam_stopped (t : Nat) (f : Team → Team) : (s.modTeam t f).stopped = s.stopped := rfl
@[simp] theorem State.modTeam_secret (t : Nat) (f : Team → Team) : (s.modTeam t f).secret = s.secret := rfl
@[simp] theorem State.modTeam_boots (t : Nat) (f : Team → Team) : (s.modTeam t f).boots = s.boots := rfl
@[simp] theorem State.modTeam_handshakes (t : Nat) (f : Team → Team) : (s.modTeam t f).handshakes = s.handshakes := rfl

@[simp] theorem State.modWarp_cur (w : WarpRef) (f : Warp → Warp) : (s.modWarp w f).cur = s.cur := rfl
@[simp] theorem State.modWarp_agenda (w : WarpRef) (f : Warp → Warp) : (s.modWarp w f).agenda = s.agenda := rfl
@[simp] theorem State.modWarp_trips (w : WarpRef) (f : Warp → Warp) : (s.modWarp w f).trips = s.trips := rfl
@[simp] theorem State.modWarp_pins (w : WarpRef) (f : Warp → Warp) : (s.modWarp w f).pins = s.pins := rfl
@[simp] theorem State.modWarp_free (w : WarpRef) (f : Warp → Warp) : (s.modWarp w f).free = s.free := rfl
@[simp] theorem State.modWarp_clock (w : WarpRef) (f : Warp → Warp) : (s.modWarp w f).clock = s.clock := rfl
@[simp] theorem State.modWarp_tick (w : WarpRef) (f : Warp → Warp) : (s.modWarp w f).tick = s.tick := rfl
@[simp] theorem State.modWarp_mem (w : WarpRef) (f : Warp → Warp) : (s.modWarp w f).mem = s.mem := rfl
@[simp] theorem State.modWarp_poison (w : WarpRef) (f : Warp → Warp) : (s.modWarp w f).poison = s.poison := rfl
@[simp] theorem State.modWarp_corrected (w : WarpRef) (f : Warp → Warp) : (s.modWarp w f).corrected = s.corrected := rfl
@[simp] theorem State.modWarp_homes (w : WarpRef) (f : Warp → Warp) : (s.modWarp w f).homes = s.homes := rfl
@[simp] theorem State.modWarp_tags (w : WarpRef) (f : Warp → Warp) : (s.modWarp w f).tags = s.tags := rfl
@[simp] theorem State.modWarp_launches (w : WarpRef) (f : Warp → Warp) : (s.modWarp w f).launches = s.launches := rfl
@[simp] theorem State.modWarp_contexts (w : WarpRef) (f : Warp → Warp) : (s.modWarp w f).contexts = s.contexts := rfl
@[simp] theorem State.modWarp_cores (w : WarpRef) (f : Warp → Warp) : (s.modWarp w f).cores = s.cores := rfl
@[simp] theorem State.modWarp_slices (w : WarpRef) (f : Warp → Warp) : (s.modWarp w f).slices = s.slices := rfl
@[simp] theorem State.modWarp_dies (w : WarpRef) (f : Warp → Warp) : (s.modWarp w f).dies = s.dies := rfl
@[simp] theorem State.modWarp_ops (w : WarpRef) (f : Warp → Warp) : (s.modWarp w f).ops = s.ops := rfl
@[simp] theorem State.modWarp_nextOp (w : WarpRef) (f : Warp → Warp) : (s.modWarp w f).nextOp = s.nextOp := rfl
@[simp] theorem State.modWarp_nodeId (w : WarpRef) (f : Warp → Warp) : (s.modWarp w f).nodeId = s.nodeId := rfl
@[simp] theorem State.modWarp_ports (w : WarpRef) (f : Warp → Warp) : (s.modWarp w f).ports = s.ports := rfl
@[simp] theorem State.modWarp_exports (w : WarpRef) (f : Warp → Warp) : (s.modWarp w f).exports = s.exports := rfl
@[simp] theorem State.modWarp_streams (w : WarpRef) (f : Warp → Warp) : (s.modWarp w f).streams = s.streams := rfl
@[simp] theorem State.modWarp_txPackets (w : WarpRef) (f : Warp → Warp) : (s.modWarp w f).txPackets = s.txPackets := rfl
@[simp] theorem State.modWarp_rxPackets (w : WarpRef) (f : Warp → Warp) : (s.modWarp w f).rxPackets = s.rxPackets := rfl
@[simp] theorem State.modWarp_replyPacket (w : WarpRef) (f : Warp → Warp) : (s.modWarp w f).replyPacket = s.replyPacket := rfl
@[simp] theorem State.modWarp_rxFrames (w : WarpRef) (f : Warp → Warp) : (s.modWarp w f).rxFrames = s.rxFrames := rfl
@[simp] theorem State.modWarp_txFrames (w : WarpRef) (f : Warp → Warp) : (s.modWarp w f).txFrames = s.txFrames := rfl
@[simp] theorem State.modWarp_framesDropped (w : WarpRef) (f : Warp → Warp) : (s.modWarp w f).framesDropped = s.framesDropped := rfl
@[simp] theorem State.modWarp_globalAddr (w : WarpRef) (f : Warp → Warp) : (s.modWarp w f).globalAddr = s.globalAddr := rfl
@[simp] theorem State.modWarp_peers (w : WarpRef) (f : Warp → Warp) : (s.modWarp w f).peers = s.peers := rfl
@[simp] theorem State.modWarp_rxDatagrams (w : WarpRef) (f : Warp → Warp) : (s.modWarp w f).rxDatagrams = s.rxDatagrams := rfl
@[simp] theorem State.modWarp_txDatagrams (w : WarpRef) (f : Warp → Warp) : (s.modWarp w f).txDatagrams = s.txDatagrams := rfl
@[simp] theorem State.modWarp_dropped (w : WarpRef) (f : Warp → Warp) : (s.modWarp w f).dropped = s.dropped := rfl
@[simp] theorem State.modWarp_hellos (w : WarpRef) (f : Warp → Warp) : (s.modWarp w f).hellos = s.hellos := rfl
@[simp] theorem State.modWarp_sessions (w : WarpRef) (f : Warp → Warp) : (s.modWarp w f).sessions = s.sessions := rfl
@[simp] theorem State.modWarp_hostAccs (w : WarpRef) (f : Warp → Warp) : (s.modWarp w f).hostAccs = s.hostAccs := rfl
@[simp] theorem State.modWarp_waitingCmds (w : WarpRef) (f : Warp → Warp) : (s.modWarp w f).waitingCmds = s.waitingCmds := rfl
@[simp] theorem State.modWarp_preempts (w : WarpRef) (f : Warp → Warp) : (s.modWarp w f).preempts = s.preempts := rfl
@[simp] theorem State.modWarp_firmware (w : WarpRef) (f : Warp → Warp) : (s.modWarp w f).firmware = s.firmware := rfl
@[simp] theorem State.modWarp_stored (w : WarpRef) (f : Warp → Warp) : (s.modWarp w f).stored = s.stored := rfl
@[simp] theorem State.modWarp_staging (w : WarpRef) (f : Warp → Warp) : (s.modWarp w f).staging = s.staging := rfl
@[simp] theorem State.modWarp_fusedSvn (w : WarpRef) (f : Warp → Warp) : (s.modWarp w f).fusedSvn = s.fusedSvn := rfl
@[simp] theorem State.modWarp_recovery (w : WarpRef) (f : Warp → Warp) : (s.modWarp w f).recovery = s.recovery := rfl
@[simp] theorem State.modWarp_stopped (w : WarpRef) (f : Warp → Warp) : (s.modWarp w f).stopped = s.stopped := rfl
@[simp] theorem State.modWarp_secret (w : WarpRef) (f : Warp → Warp) : (s.modWarp w f).secret = s.secret := rfl
@[simp] theorem State.modWarp_boots (w : WarpRef) (f : Warp → Warp) : (s.modWarp w f).boots = s.boots := rfl
@[simp] theorem State.modWarp_handshakes (w : WarpRef) (f : Warp → Warp) : (s.modWarp w f).handshakes = s.handshakes := rfl

@[simp] theorem State.modSplit_cur (r : SplitRef) (f : Split → Split) : (s.modSplit r f).cur = s.cur := rfl
@[simp] theorem State.modSplit_agenda (r : SplitRef) (f : Split → Split) : (s.modSplit r f).agenda = s.agenda := rfl
@[simp] theorem State.modSplit_trips (r : SplitRef) (f : Split → Split) : (s.modSplit r f).trips = s.trips := rfl
@[simp] theorem State.modSplit_pins (r : SplitRef) (f : Split → Split) : (s.modSplit r f).pins = s.pins := rfl
@[simp] theorem State.modSplit_free (r : SplitRef) (f : Split → Split) : (s.modSplit r f).free = s.free := rfl
@[simp] theorem State.modSplit_clock (r : SplitRef) (f : Split → Split) : (s.modSplit r f).clock = s.clock := rfl
@[simp] theorem State.modSplit_tick (r : SplitRef) (f : Split → Split) : (s.modSplit r f).tick = s.tick := rfl
@[simp] theorem State.modSplit_mem (r : SplitRef) (f : Split → Split) : (s.modSplit r f).mem = s.mem := rfl
@[simp] theorem State.modSplit_poison (r : SplitRef) (f : Split → Split) : (s.modSplit r f).poison = s.poison := rfl
@[simp] theorem State.modSplit_corrected (r : SplitRef) (f : Split → Split) : (s.modSplit r f).corrected = s.corrected := rfl
@[simp] theorem State.modSplit_homes (r : SplitRef) (f : Split → Split) : (s.modSplit r f).homes = s.homes := rfl
@[simp] theorem State.modSplit_tags (r : SplitRef) (f : Split → Split) : (s.modSplit r f).tags = s.tags := rfl
@[simp] theorem State.modSplit_launches (r : SplitRef) (f : Split → Split) : (s.modSplit r f).launches = s.launches := rfl
@[simp] theorem State.modSplit_contexts (r : SplitRef) (f : Split → Split) : (s.modSplit r f).contexts = s.contexts := rfl
@[simp] theorem State.modSplit_cores (r : SplitRef) (f : Split → Split) : (s.modSplit r f).cores = s.cores := rfl
@[simp] theorem State.modSplit_slices (r : SplitRef) (f : Split → Split) : (s.modSplit r f).slices = s.slices := rfl
@[simp] theorem State.modSplit_dies (r : SplitRef) (f : Split → Split) : (s.modSplit r f).dies = s.dies := rfl
@[simp] theorem State.modSplit_ops (r : SplitRef) (f : Split → Split) : (s.modSplit r f).ops = s.ops := rfl
@[simp] theorem State.modSplit_nextOp (r : SplitRef) (f : Split → Split) : (s.modSplit r f).nextOp = s.nextOp := rfl
@[simp] theorem State.modSplit_nodeId (r : SplitRef) (f : Split → Split) : (s.modSplit r f).nodeId = s.nodeId := rfl
@[simp] theorem State.modSplit_ports (r : SplitRef) (f : Split → Split) : (s.modSplit r f).ports = s.ports := rfl
@[simp] theorem State.modSplit_exports (r : SplitRef) (f : Split → Split) : (s.modSplit r f).exports = s.exports := rfl
@[simp] theorem State.modSplit_streams (r : SplitRef) (f : Split → Split) : (s.modSplit r f).streams = s.streams := rfl
@[simp] theorem State.modSplit_txPackets (r : SplitRef) (f : Split → Split) : (s.modSplit r f).txPackets = s.txPackets := rfl
@[simp] theorem State.modSplit_rxPackets (r : SplitRef) (f : Split → Split) : (s.modSplit r f).rxPackets = s.rxPackets := rfl
@[simp] theorem State.modSplit_replyPacket (r : SplitRef) (f : Split → Split) : (s.modSplit r f).replyPacket = s.replyPacket := rfl
@[simp] theorem State.modSplit_rxFrames (r : SplitRef) (f : Split → Split) : (s.modSplit r f).rxFrames = s.rxFrames := rfl
@[simp] theorem State.modSplit_txFrames (r : SplitRef) (f : Split → Split) : (s.modSplit r f).txFrames = s.txFrames := rfl
@[simp] theorem State.modSplit_framesDropped (r : SplitRef) (f : Split → Split) : (s.modSplit r f).framesDropped = s.framesDropped := rfl
@[simp] theorem State.modSplit_globalAddr (r : SplitRef) (f : Split → Split) : (s.modSplit r f).globalAddr = s.globalAddr := rfl
@[simp] theorem State.modSplit_peers (r : SplitRef) (f : Split → Split) : (s.modSplit r f).peers = s.peers := rfl
@[simp] theorem State.modSplit_rxDatagrams (r : SplitRef) (f : Split → Split) : (s.modSplit r f).rxDatagrams = s.rxDatagrams := rfl
@[simp] theorem State.modSplit_txDatagrams (r : SplitRef) (f : Split → Split) : (s.modSplit r f).txDatagrams = s.txDatagrams := rfl
@[simp] theorem State.modSplit_dropped (r : SplitRef) (f : Split → Split) : (s.modSplit r f).dropped = s.dropped := rfl
@[simp] theorem State.modSplit_hellos (r : SplitRef) (f : Split → Split) : (s.modSplit r f).hellos = s.hellos := rfl
@[simp] theorem State.modSplit_sessions (r : SplitRef) (f : Split → Split) : (s.modSplit r f).sessions = s.sessions := rfl
@[simp] theorem State.modSplit_hostAccs (r : SplitRef) (f : Split → Split) : (s.modSplit r f).hostAccs = s.hostAccs := rfl
@[simp] theorem State.modSplit_waitingCmds (r : SplitRef) (f : Split → Split) : (s.modSplit r f).waitingCmds = s.waitingCmds := rfl
@[simp] theorem State.modSplit_preempts (r : SplitRef) (f : Split → Split) : (s.modSplit r f).preempts = s.preempts := rfl
@[simp] theorem State.modSplit_firmware (r : SplitRef) (f : Split → Split) : (s.modSplit r f).firmware = s.firmware := rfl
@[simp] theorem State.modSplit_stored (r : SplitRef) (f : Split → Split) : (s.modSplit r f).stored = s.stored := rfl
@[simp] theorem State.modSplit_staging (r : SplitRef) (f : Split → Split) : (s.modSplit r f).staging = s.staging := rfl
@[simp] theorem State.modSplit_fusedSvn (r : SplitRef) (f : Split → Split) : (s.modSplit r f).fusedSvn = s.fusedSvn := rfl
@[simp] theorem State.modSplit_recovery (r : SplitRef) (f : Split → Split) : (s.modSplit r f).recovery = s.recovery := rfl
@[simp] theorem State.modSplit_stopped (r : SplitRef) (f : Split → Split) : (s.modSplit r f).stopped = s.stopped := rfl
@[simp] theorem State.modSplit_secret (r : SplitRef) (f : Split → Split) : (s.modSplit r f).secret = s.secret := rfl
@[simp] theorem State.modSplit_boots (r : SplitRef) (f : Split → Split) : (s.modSplit r f).boots = s.boots := rfl
@[simp] theorem State.modSplit_handshakes (r : SplitRef) (f : Split → Split) : (s.modSplit r f).handshakes = s.handshakes := rfl

@[simp] theorem State.modCore_cur (c : Nat) (f : Core → Core) : (s.modCore c f).cur = s.cur := rfl
@[simp] theorem State.modCore_agenda (c : Nat) (f : Core → Core) : (s.modCore c f).agenda = s.agenda := rfl
@[simp] theorem State.modCore_trips (c : Nat) (f : Core → Core) : (s.modCore c f).trips = s.trips := rfl
@[simp] theorem State.modCore_pins (c : Nat) (f : Core → Core) : (s.modCore c f).pins = s.pins := rfl
@[simp] theorem State.modCore_free (c : Nat) (f : Core → Core) : (s.modCore c f).free = s.free := rfl
@[simp] theorem State.modCore_clock (c : Nat) (f : Core → Core) : (s.modCore c f).clock = s.clock := rfl
@[simp] theorem State.modCore_tick (c : Nat) (f : Core → Core) : (s.modCore c f).tick = s.tick := rfl
@[simp] theorem State.modCore_mem (c : Nat) (f : Core → Core) : (s.modCore c f).mem = s.mem := rfl
@[simp] theorem State.modCore_poison (c : Nat) (f : Core → Core) : (s.modCore c f).poison = s.poison := rfl
@[simp] theorem State.modCore_corrected (c : Nat) (f : Core → Core) : (s.modCore c f).corrected = s.corrected := rfl
@[simp] theorem State.modCore_homes (c : Nat) (f : Core → Core) : (s.modCore c f).homes = s.homes := rfl
@[simp] theorem State.modCore_tags (c : Nat) (f : Core → Core) : (s.modCore c f).tags = s.tags := rfl
@[simp] theorem State.modCore_teams (c : Nat) (f : Core → Core) : (s.modCore c f).teams = s.teams := rfl
@[simp] theorem State.modCore_launches (c : Nat) (f : Core → Core) : (s.modCore c f).launches = s.launches := rfl
@[simp] theorem State.modCore_contexts (c : Nat) (f : Core → Core) : (s.modCore c f).contexts = s.contexts := rfl
@[simp] theorem State.modCore_slices (c : Nat) (f : Core → Core) : (s.modCore c f).slices = s.slices := rfl
@[simp] theorem State.modCore_dies (c : Nat) (f : Core → Core) : (s.modCore c f).dies = s.dies := rfl
@[simp] theorem State.modCore_ops (c : Nat) (f : Core → Core) : (s.modCore c f).ops = s.ops := rfl
@[simp] theorem State.modCore_nextOp (c : Nat) (f : Core → Core) : (s.modCore c f).nextOp = s.nextOp := rfl
@[simp] theorem State.modCore_nodeId (c : Nat) (f : Core → Core) : (s.modCore c f).nodeId = s.nodeId := rfl
@[simp] theorem State.modCore_ports (c : Nat) (f : Core → Core) : (s.modCore c f).ports = s.ports := rfl
@[simp] theorem State.modCore_exports (c : Nat) (f : Core → Core) : (s.modCore c f).exports = s.exports := rfl
@[simp] theorem State.modCore_streams (c : Nat) (f : Core → Core) : (s.modCore c f).streams = s.streams := rfl
@[simp] theorem State.modCore_txPackets (c : Nat) (f : Core → Core) : (s.modCore c f).txPackets = s.txPackets := rfl
@[simp] theorem State.modCore_rxPackets (c : Nat) (f : Core → Core) : (s.modCore c f).rxPackets = s.rxPackets := rfl
@[simp] theorem State.modCore_replyPacket (c : Nat) (f : Core → Core) : (s.modCore c f).replyPacket = s.replyPacket := rfl
@[simp] theorem State.modCore_rxFrames (c : Nat) (f : Core → Core) : (s.modCore c f).rxFrames = s.rxFrames := rfl
@[simp] theorem State.modCore_txFrames (c : Nat) (f : Core → Core) : (s.modCore c f).txFrames = s.txFrames := rfl
@[simp] theorem State.modCore_framesDropped (c : Nat) (f : Core → Core) : (s.modCore c f).framesDropped = s.framesDropped := rfl
@[simp] theorem State.modCore_globalAddr (c : Nat) (f : Core → Core) : (s.modCore c f).globalAddr = s.globalAddr := rfl
@[simp] theorem State.modCore_peers (c : Nat) (f : Core → Core) : (s.modCore c f).peers = s.peers := rfl
@[simp] theorem State.modCore_rxDatagrams (c : Nat) (f : Core → Core) : (s.modCore c f).rxDatagrams = s.rxDatagrams := rfl
@[simp] theorem State.modCore_txDatagrams (c : Nat) (f : Core → Core) : (s.modCore c f).txDatagrams = s.txDatagrams := rfl
@[simp] theorem State.modCore_dropped (c : Nat) (f : Core → Core) : (s.modCore c f).dropped = s.dropped := rfl
@[simp] theorem State.modCore_hellos (c : Nat) (f : Core → Core) : (s.modCore c f).hellos = s.hellos := rfl
@[simp] theorem State.modCore_sessions (c : Nat) (f : Core → Core) : (s.modCore c f).sessions = s.sessions := rfl
@[simp] theorem State.modCore_hostAccs (c : Nat) (f : Core → Core) : (s.modCore c f).hostAccs = s.hostAccs := rfl
@[simp] theorem State.modCore_waitingCmds (c : Nat) (f : Core → Core) : (s.modCore c f).waitingCmds = s.waitingCmds := rfl
@[simp] theorem State.modCore_preempts (c : Nat) (f : Core → Core) : (s.modCore c f).preempts = s.preempts := rfl
@[simp] theorem State.modCore_firmware (c : Nat) (f : Core → Core) : (s.modCore c f).firmware = s.firmware := rfl
@[simp] theorem State.modCore_stored (c : Nat) (f : Core → Core) : (s.modCore c f).stored = s.stored := rfl
@[simp] theorem State.modCore_staging (c : Nat) (f : Core → Core) : (s.modCore c f).staging = s.staging := rfl
@[simp] theorem State.modCore_fusedSvn (c : Nat) (f : Core → Core) : (s.modCore c f).fusedSvn = s.fusedSvn := rfl
@[simp] theorem State.modCore_recovery (c : Nat) (f : Core → Core) : (s.modCore c f).recovery = s.recovery := rfl
@[simp] theorem State.modCore_stopped (c : Nat) (f : Core → Core) : (s.modCore c f).stopped = s.stopped := rfl
@[simp] theorem State.modCore_secret (c : Nat) (f : Core → Core) : (s.modCore c f).secret = s.secret := rfl
@[simp] theorem State.modCore_boots (c : Nat) (f : Core → Core) : (s.modCore c f).boots = s.boots := rfl
@[simp] theorem State.modCore_handshakes (c : Nat) (f : Core → Core) : (s.modCore c f).handshakes = s.handshakes := rfl

@[simp] theorem State.modDie_cur (d : Nat) (f : Die → Die) : (s.modDie d f).cur = s.cur := rfl
@[simp] theorem State.modDie_agenda (d : Nat) (f : Die → Die) : (s.modDie d f).agenda = s.agenda := rfl
@[simp] theorem State.modDie_trips (d : Nat) (f : Die → Die) : (s.modDie d f).trips = s.trips := rfl
@[simp] theorem State.modDie_pins (d : Nat) (f : Die → Die) : (s.modDie d f).pins = s.pins := rfl
@[simp] theorem State.modDie_free (d : Nat) (f : Die → Die) : (s.modDie d f).free = s.free := rfl
@[simp] theorem State.modDie_clock (d : Nat) (f : Die → Die) : (s.modDie d f).clock = s.clock := rfl
@[simp] theorem State.modDie_tick (d : Nat) (f : Die → Die) : (s.modDie d f).tick = s.tick := rfl
@[simp] theorem State.modDie_mem (d : Nat) (f : Die → Die) : (s.modDie d f).mem = s.mem := rfl
@[simp] theorem State.modDie_poison (d : Nat) (f : Die → Die) : (s.modDie d f).poison = s.poison := rfl
@[simp] theorem State.modDie_corrected (d : Nat) (f : Die → Die) : (s.modDie d f).corrected = s.corrected := rfl
@[simp] theorem State.modDie_homes (d : Nat) (f : Die → Die) : (s.modDie d f).homes = s.homes := rfl
@[simp] theorem State.modDie_tags (d : Nat) (f : Die → Die) : (s.modDie d f).tags = s.tags := rfl
@[simp] theorem State.modDie_teams (d : Nat) (f : Die → Die) : (s.modDie d f).teams = s.teams := rfl
@[simp] theorem State.modDie_launches (d : Nat) (f : Die → Die) : (s.modDie d f).launches = s.launches := rfl
@[simp] theorem State.modDie_contexts (d : Nat) (f : Die → Die) : (s.modDie d f).contexts = s.contexts := rfl
@[simp] theorem State.modDie_cores (d : Nat) (f : Die → Die) : (s.modDie d f).cores = s.cores := rfl
@[simp] theorem State.modDie_slices (d : Nat) (f : Die → Die) : (s.modDie d f).slices = s.slices := rfl
@[simp] theorem State.modDie_ops (d : Nat) (f : Die → Die) : (s.modDie d f).ops = s.ops := rfl
@[simp] theorem State.modDie_nextOp (d : Nat) (f : Die → Die) : (s.modDie d f).nextOp = s.nextOp := rfl
@[simp] theorem State.modDie_nodeId (d : Nat) (f : Die → Die) : (s.modDie d f).nodeId = s.nodeId := rfl
@[simp] theorem State.modDie_ports (d : Nat) (f : Die → Die) : (s.modDie d f).ports = s.ports := rfl
@[simp] theorem State.modDie_exports (d : Nat) (f : Die → Die) : (s.modDie d f).exports = s.exports := rfl
@[simp] theorem State.modDie_streams (d : Nat) (f : Die → Die) : (s.modDie d f).streams = s.streams := rfl
@[simp] theorem State.modDie_txPackets (d : Nat) (f : Die → Die) : (s.modDie d f).txPackets = s.txPackets := rfl
@[simp] theorem State.modDie_rxPackets (d : Nat) (f : Die → Die) : (s.modDie d f).rxPackets = s.rxPackets := rfl
@[simp] theorem State.modDie_replyPacket (d : Nat) (f : Die → Die) : (s.modDie d f).replyPacket = s.replyPacket := rfl
@[simp] theorem State.modDie_rxFrames (d : Nat) (f : Die → Die) : (s.modDie d f).rxFrames = s.rxFrames := rfl
@[simp] theorem State.modDie_txFrames (d : Nat) (f : Die → Die) : (s.modDie d f).txFrames = s.txFrames := rfl
@[simp] theorem State.modDie_framesDropped (d : Nat) (f : Die → Die) : (s.modDie d f).framesDropped = s.framesDropped := rfl
@[simp] theorem State.modDie_globalAddr (d : Nat) (f : Die → Die) : (s.modDie d f).globalAddr = s.globalAddr := rfl
@[simp] theorem State.modDie_peers (d : Nat) (f : Die → Die) : (s.modDie d f).peers = s.peers := rfl
@[simp] theorem State.modDie_rxDatagrams (d : Nat) (f : Die → Die) : (s.modDie d f).rxDatagrams = s.rxDatagrams := rfl
@[simp] theorem State.modDie_txDatagrams (d : Nat) (f : Die → Die) : (s.modDie d f).txDatagrams = s.txDatagrams := rfl
@[simp] theorem State.modDie_dropped (d : Nat) (f : Die → Die) : (s.modDie d f).dropped = s.dropped := rfl
@[simp] theorem State.modDie_hellos (d : Nat) (f : Die → Die) : (s.modDie d f).hellos = s.hellos := rfl
@[simp] theorem State.modDie_sessions (d : Nat) (f : Die → Die) : (s.modDie d f).sessions = s.sessions := rfl
@[simp] theorem State.modDie_hostAccs (d : Nat) (f : Die → Die) : (s.modDie d f).hostAccs = s.hostAccs := rfl
@[simp] theorem State.modDie_waitingCmds (d : Nat) (f : Die → Die) : (s.modDie d f).waitingCmds = s.waitingCmds := rfl
@[simp] theorem State.modDie_preempts (d : Nat) (f : Die → Die) : (s.modDie d f).preempts = s.preempts := rfl
@[simp] theorem State.modDie_firmware (d : Nat) (f : Die → Die) : (s.modDie d f).firmware = s.firmware := rfl
@[simp] theorem State.modDie_stored (d : Nat) (f : Die → Die) : (s.modDie d f).stored = s.stored := rfl
@[simp] theorem State.modDie_staging (d : Nat) (f : Die → Die) : (s.modDie d f).staging = s.staging := rfl
@[simp] theorem State.modDie_fusedSvn (d : Nat) (f : Die → Die) : (s.modDie d f).fusedSvn = s.fusedSvn := rfl
@[simp] theorem State.modDie_recovery (d : Nat) (f : Die → Die) : (s.modDie d f).recovery = s.recovery := rfl
@[simp] theorem State.modDie_stopped (d : Nat) (f : Die → Die) : (s.modDie d f).stopped = s.stopped := rfl
@[simp] theorem State.modDie_secret (d : Nat) (f : Die → Die) : (s.modDie d f).secret = s.secret := rfl
@[simp] theorem State.modDie_boots (d : Nat) (f : Die → Die) : (s.modDie d f).boots = s.boots := rfl
@[simp] theorem State.modDie_handshakes (d : Nat) (f : Die → Die) : (s.modDie d f).handshakes = s.handshakes := rfl

@[simp] theorem State.modSlice_cur (h : Nat) (f : Slice → Slice) : (s.modSlice h f).cur = s.cur := rfl
@[simp] theorem State.modSlice_agenda (h : Nat) (f : Slice → Slice) : (s.modSlice h f).agenda = s.agenda := rfl
@[simp] theorem State.modSlice_trips (h : Nat) (f : Slice → Slice) : (s.modSlice h f).trips = s.trips := rfl
@[simp] theorem State.modSlice_pins (h : Nat) (f : Slice → Slice) : (s.modSlice h f).pins = s.pins := rfl
@[simp] theorem State.modSlice_free (h : Nat) (f : Slice → Slice) : (s.modSlice h f).free = s.free := rfl
@[simp] theorem State.modSlice_clock (h : Nat) (f : Slice → Slice) : (s.modSlice h f).clock = s.clock := rfl
@[simp] theorem State.modSlice_tick (h : Nat) (f : Slice → Slice) : (s.modSlice h f).tick = s.tick := rfl
@[simp] theorem State.modSlice_mem (h : Nat) (f : Slice → Slice) : (s.modSlice h f).mem = s.mem := rfl
@[simp] theorem State.modSlice_poison (h : Nat) (f : Slice → Slice) : (s.modSlice h f).poison = s.poison := rfl
@[simp] theorem State.modSlice_corrected (h : Nat) (f : Slice → Slice) : (s.modSlice h f).corrected = s.corrected := rfl
@[simp] theorem State.modSlice_homes (h : Nat) (f : Slice → Slice) : (s.modSlice h f).homes = s.homes := rfl
@[simp] theorem State.modSlice_tags (h : Nat) (f : Slice → Slice) : (s.modSlice h f).tags = s.tags := rfl
@[simp] theorem State.modSlice_teams (h : Nat) (f : Slice → Slice) : (s.modSlice h f).teams = s.teams := rfl
@[simp] theorem State.modSlice_launches (h : Nat) (f : Slice → Slice) : (s.modSlice h f).launches = s.launches := rfl
@[simp] theorem State.modSlice_contexts (h : Nat) (f : Slice → Slice) : (s.modSlice h f).contexts = s.contexts := rfl
@[simp] theorem State.modSlice_cores (h : Nat) (f : Slice → Slice) : (s.modSlice h f).cores = s.cores := rfl
@[simp] theorem State.modSlice_dies (h : Nat) (f : Slice → Slice) : (s.modSlice h f).dies = s.dies := rfl
@[simp] theorem State.modSlice_ops (h : Nat) (f : Slice → Slice) : (s.modSlice h f).ops = s.ops := rfl
@[simp] theorem State.modSlice_nextOp (h : Nat) (f : Slice → Slice) : (s.modSlice h f).nextOp = s.nextOp := rfl
@[simp] theorem State.modSlice_nodeId (h : Nat) (f : Slice → Slice) : (s.modSlice h f).nodeId = s.nodeId := rfl
@[simp] theorem State.modSlice_ports (h : Nat) (f : Slice → Slice) : (s.modSlice h f).ports = s.ports := rfl
@[simp] theorem State.modSlice_exports (h : Nat) (f : Slice → Slice) : (s.modSlice h f).exports = s.exports := rfl
@[simp] theorem State.modSlice_streams (h : Nat) (f : Slice → Slice) : (s.modSlice h f).streams = s.streams := rfl
@[simp] theorem State.modSlice_txPackets (h : Nat) (f : Slice → Slice) : (s.modSlice h f).txPackets = s.txPackets := rfl
@[simp] theorem State.modSlice_rxPackets (h : Nat) (f : Slice → Slice) : (s.modSlice h f).rxPackets = s.rxPackets := rfl
@[simp] theorem State.modSlice_replyPacket (h : Nat) (f : Slice → Slice) : (s.modSlice h f).replyPacket = s.replyPacket := rfl
@[simp] theorem State.modSlice_rxFrames (h : Nat) (f : Slice → Slice) : (s.modSlice h f).rxFrames = s.rxFrames := rfl
@[simp] theorem State.modSlice_txFrames (h : Nat) (f : Slice → Slice) : (s.modSlice h f).txFrames = s.txFrames := rfl
@[simp] theorem State.modSlice_framesDropped (h : Nat) (f : Slice → Slice) : (s.modSlice h f).framesDropped = s.framesDropped := rfl
@[simp] theorem State.modSlice_globalAddr (h : Nat) (f : Slice → Slice) : (s.modSlice h f).globalAddr = s.globalAddr := rfl
@[simp] theorem State.modSlice_peers (h : Nat) (f : Slice → Slice) : (s.modSlice h f).peers = s.peers := rfl
@[simp] theorem State.modSlice_rxDatagrams (h : Nat) (f : Slice → Slice) : (s.modSlice h f).rxDatagrams = s.rxDatagrams := rfl
@[simp] theorem State.modSlice_txDatagrams (h : Nat) (f : Slice → Slice) : (s.modSlice h f).txDatagrams = s.txDatagrams := rfl
@[simp] theorem State.modSlice_dropped (h : Nat) (f : Slice → Slice) : (s.modSlice h f).dropped = s.dropped := rfl
@[simp] theorem State.modSlice_hellos (h : Nat) (f : Slice → Slice) : (s.modSlice h f).hellos = s.hellos := rfl
@[simp] theorem State.modSlice_sessions (h : Nat) (f : Slice → Slice) : (s.modSlice h f).sessions = s.sessions := rfl
@[simp] theorem State.modSlice_hostAccs (h : Nat) (f : Slice → Slice) : (s.modSlice h f).hostAccs = s.hostAccs := rfl
@[simp] theorem State.modSlice_waitingCmds (h : Nat) (f : Slice → Slice) : (s.modSlice h f).waitingCmds = s.waitingCmds := rfl
@[simp] theorem State.modSlice_preempts (h : Nat) (f : Slice → Slice) : (s.modSlice h f).preempts = s.preempts := rfl
@[simp] theorem State.modSlice_firmware (h : Nat) (f : Slice → Slice) : (s.modSlice h f).firmware = s.firmware := rfl
@[simp] theorem State.modSlice_stored (h : Nat) (f : Slice → Slice) : (s.modSlice h f).stored = s.stored := rfl
@[simp] theorem State.modSlice_staging (h : Nat) (f : Slice → Slice) : (s.modSlice h f).staging = s.staging := rfl
@[simp] theorem State.modSlice_fusedSvn (h : Nat) (f : Slice → Slice) : (s.modSlice h f).fusedSvn = s.fusedSvn := rfl
@[simp] theorem State.modSlice_recovery (h : Nat) (f : Slice → Slice) : (s.modSlice h f).recovery = s.recovery := rfl
@[simp] theorem State.modSlice_stopped (h : Nat) (f : Slice → Slice) : (s.modSlice h f).stopped = s.stopped := rfl
@[simp] theorem State.modSlice_secret (h : Nat) (f : Slice → Slice) : (s.modSlice h f).secret = s.secret := rfl
@[simp] theorem State.modSlice_boots (h : Nat) (f : Slice → Slice) : (s.modSlice h f).boots = s.boots := rfl
@[simp] theorem State.modSlice_handshakes (h : Nat) (f : Slice → Slice) : (s.modSlice h f).handshakes = s.handshakes := rfl

@[simp] theorem State.modSline_cur (h l : Nat) (f : SliceLine → SliceLine) : (s.modSline h l f).cur = s.cur := rfl
@[simp] theorem State.modSline_agenda (h l : Nat) (f : SliceLine → SliceLine) : (s.modSline h l f).agenda = s.agenda := rfl
@[simp] theorem State.modSline_trips (h l : Nat) (f : SliceLine → SliceLine) : (s.modSline h l f).trips = s.trips := rfl
@[simp] theorem State.modSline_pins (h l : Nat) (f : SliceLine → SliceLine) : (s.modSline h l f).pins = s.pins := rfl
@[simp] theorem State.modSline_free (h l : Nat) (f : SliceLine → SliceLine) : (s.modSline h l f).free = s.free := rfl
@[simp] theorem State.modSline_clock (h l : Nat) (f : SliceLine → SliceLine) : (s.modSline h l f).clock = s.clock := rfl
@[simp] theorem State.modSline_tick (h l : Nat) (f : SliceLine → SliceLine) : (s.modSline h l f).tick = s.tick := rfl
@[simp] theorem State.modSline_mem (h l : Nat) (f : SliceLine → SliceLine) : (s.modSline h l f).mem = s.mem := rfl
@[simp] theorem State.modSline_poison (h l : Nat) (f : SliceLine → SliceLine) : (s.modSline h l f).poison = s.poison := rfl
@[simp] theorem State.modSline_corrected (h l : Nat) (f : SliceLine → SliceLine) : (s.modSline h l f).corrected = s.corrected := rfl
@[simp] theorem State.modSline_homes (h l : Nat) (f : SliceLine → SliceLine) : (s.modSline h l f).homes = s.homes := rfl
@[simp] theorem State.modSline_tags (h l : Nat) (f : SliceLine → SliceLine) : (s.modSline h l f).tags = s.tags := rfl
@[simp] theorem State.modSline_teams (h l : Nat) (f : SliceLine → SliceLine) : (s.modSline h l f).teams = s.teams := rfl
@[simp] theorem State.modSline_launches (h l : Nat) (f : SliceLine → SliceLine) : (s.modSline h l f).launches = s.launches := rfl
@[simp] theorem State.modSline_contexts (h l : Nat) (f : SliceLine → SliceLine) : (s.modSline h l f).contexts = s.contexts := rfl
@[simp] theorem State.modSline_cores (h l : Nat) (f : SliceLine → SliceLine) : (s.modSline h l f).cores = s.cores := rfl
@[simp] theorem State.modSline_dies (h l : Nat) (f : SliceLine → SliceLine) : (s.modSline h l f).dies = s.dies := rfl
@[simp] theorem State.modSline_ops (h l : Nat) (f : SliceLine → SliceLine) : (s.modSline h l f).ops = s.ops := rfl
@[simp] theorem State.modSline_nextOp (h l : Nat) (f : SliceLine → SliceLine) : (s.modSline h l f).nextOp = s.nextOp := rfl
@[simp] theorem State.modSline_nodeId (h l : Nat) (f : SliceLine → SliceLine) : (s.modSline h l f).nodeId = s.nodeId := rfl
@[simp] theorem State.modSline_ports (h l : Nat) (f : SliceLine → SliceLine) : (s.modSline h l f).ports = s.ports := rfl
@[simp] theorem State.modSline_exports (h l : Nat) (f : SliceLine → SliceLine) : (s.modSline h l f).exports = s.exports := rfl
@[simp] theorem State.modSline_streams (h l : Nat) (f : SliceLine → SliceLine) : (s.modSline h l f).streams = s.streams := rfl
@[simp] theorem State.modSline_txPackets (h l : Nat) (f : SliceLine → SliceLine) : (s.modSline h l f).txPackets = s.txPackets := rfl
@[simp] theorem State.modSline_rxPackets (h l : Nat) (f : SliceLine → SliceLine) : (s.modSline h l f).rxPackets = s.rxPackets := rfl
@[simp] theorem State.modSline_replyPacket (h l : Nat) (f : SliceLine → SliceLine) : (s.modSline h l f).replyPacket = s.replyPacket := rfl
@[simp] theorem State.modSline_rxFrames (h l : Nat) (f : SliceLine → SliceLine) : (s.modSline h l f).rxFrames = s.rxFrames := rfl
@[simp] theorem State.modSline_txFrames (h l : Nat) (f : SliceLine → SliceLine) : (s.modSline h l f).txFrames = s.txFrames := rfl
@[simp] theorem State.modSline_framesDropped (h l : Nat) (f : SliceLine → SliceLine) : (s.modSline h l f).framesDropped = s.framesDropped := rfl
@[simp] theorem State.modSline_globalAddr (h l : Nat) (f : SliceLine → SliceLine) : (s.modSline h l f).globalAddr = s.globalAddr := rfl
@[simp] theorem State.modSline_peers (h l : Nat) (f : SliceLine → SliceLine) : (s.modSline h l f).peers = s.peers := rfl
@[simp] theorem State.modSline_rxDatagrams (h l : Nat) (f : SliceLine → SliceLine) : (s.modSline h l f).rxDatagrams = s.rxDatagrams := rfl
@[simp] theorem State.modSline_txDatagrams (h l : Nat) (f : SliceLine → SliceLine) : (s.modSline h l f).txDatagrams = s.txDatagrams := rfl
@[simp] theorem State.modSline_dropped (h l : Nat) (f : SliceLine → SliceLine) : (s.modSline h l f).dropped = s.dropped := rfl
@[simp] theorem State.modSline_hellos (h l : Nat) (f : SliceLine → SliceLine) : (s.modSline h l f).hellos = s.hellos := rfl
@[simp] theorem State.modSline_sessions (h l : Nat) (f : SliceLine → SliceLine) : (s.modSline h l f).sessions = s.sessions := rfl
@[simp] theorem State.modSline_hostAccs (h l : Nat) (f : SliceLine → SliceLine) : (s.modSline h l f).hostAccs = s.hostAccs := rfl
@[simp] theorem State.modSline_waitingCmds (h l : Nat) (f : SliceLine → SliceLine) : (s.modSline h l f).waitingCmds = s.waitingCmds := rfl
@[simp] theorem State.modSline_preempts (h l : Nat) (f : SliceLine → SliceLine) : (s.modSline h l f).preempts = s.preempts := rfl
@[simp] theorem State.modSline_firmware (h l : Nat) (f : SliceLine → SliceLine) : (s.modSline h l f).firmware = s.firmware := rfl
@[simp] theorem State.modSline_stored (h l : Nat) (f : SliceLine → SliceLine) : (s.modSline h l f).stored = s.stored := rfl
@[simp] theorem State.modSline_staging (h l : Nat) (f : SliceLine → SliceLine) : (s.modSline h l f).staging = s.staging := rfl
@[simp] theorem State.modSline_fusedSvn (h l : Nat) (f : SliceLine → SliceLine) : (s.modSline h l f).fusedSvn = s.fusedSvn := rfl
@[simp] theorem State.modSline_recovery (h l : Nat) (f : SliceLine → SliceLine) : (s.modSline h l f).recovery = s.recovery := rfl
@[simp] theorem State.modSline_stopped (h l : Nat) (f : SliceLine → SliceLine) : (s.modSline h l f).stopped = s.stopped := rfl
@[simp] theorem State.modSline_secret (h l : Nat) (f : SliceLine → SliceLine) : (s.modSline h l f).secret = s.secret := rfl
@[simp] theorem State.modSline_boots (h l : Nat) (f : SliceLine → SliceLine) : (s.modSline h l f).boots = s.boots := rfl
@[simp] theorem State.modSline_handshakes (h l : Nat) (f : SliceLine → SliceLine) : (s.modSline h l f).handshakes = s.handshakes := rfl

@[simp] theorem State.modContext_cur (c : Nat) (f : Context → Context) : (s.modContext c f).cur = s.cur := rfl
@[simp] theorem State.modContext_agenda (c : Nat) (f : Context → Context) : (s.modContext c f).agenda = s.agenda := rfl
@[simp] theorem State.modContext_trips (c : Nat) (f : Context → Context) : (s.modContext c f).trips = s.trips := rfl
@[simp] theorem State.modContext_pins (c : Nat) (f : Context → Context) : (s.modContext c f).pins = s.pins := rfl
@[simp] theorem State.modContext_free (c : Nat) (f : Context → Context) : (s.modContext c f).free = s.free := rfl
@[simp] theorem State.modContext_clock (c : Nat) (f : Context → Context) : (s.modContext c f).clock = s.clock := rfl
@[simp] theorem State.modContext_tick (c : Nat) (f : Context → Context) : (s.modContext c f).tick = s.tick := rfl
@[simp] theorem State.modContext_mem (c : Nat) (f : Context → Context) : (s.modContext c f).mem = s.mem := rfl
@[simp] theorem State.modContext_poison (c : Nat) (f : Context → Context) : (s.modContext c f).poison = s.poison := rfl
@[simp] theorem State.modContext_corrected (c : Nat) (f : Context → Context) : (s.modContext c f).corrected = s.corrected := rfl
@[simp] theorem State.modContext_homes (c : Nat) (f : Context → Context) : (s.modContext c f).homes = s.homes := rfl
@[simp] theorem State.modContext_tags (c : Nat) (f : Context → Context) : (s.modContext c f).tags = s.tags := rfl
@[simp] theorem State.modContext_teams (c : Nat) (f : Context → Context) : (s.modContext c f).teams = s.teams := rfl
@[simp] theorem State.modContext_launches (c : Nat) (f : Context → Context) : (s.modContext c f).launches = s.launches := rfl
@[simp] theorem State.modContext_cores (c : Nat) (f : Context → Context) : (s.modContext c f).cores = s.cores := rfl
@[simp] theorem State.modContext_slices (c : Nat) (f : Context → Context) : (s.modContext c f).slices = s.slices := rfl
@[simp] theorem State.modContext_dies (c : Nat) (f : Context → Context) : (s.modContext c f).dies = s.dies := rfl
@[simp] theorem State.modContext_ops (c : Nat) (f : Context → Context) : (s.modContext c f).ops = s.ops := rfl
@[simp] theorem State.modContext_nextOp (c : Nat) (f : Context → Context) : (s.modContext c f).nextOp = s.nextOp := rfl
@[simp] theorem State.modContext_nodeId (c : Nat) (f : Context → Context) : (s.modContext c f).nodeId = s.nodeId := rfl
@[simp] theorem State.modContext_ports (c : Nat) (f : Context → Context) : (s.modContext c f).ports = s.ports := rfl
@[simp] theorem State.modContext_exports (c : Nat) (f : Context → Context) : (s.modContext c f).exports = s.exports := rfl
@[simp] theorem State.modContext_streams (c : Nat) (f : Context → Context) : (s.modContext c f).streams = s.streams := rfl
@[simp] theorem State.modContext_txPackets (c : Nat) (f : Context → Context) : (s.modContext c f).txPackets = s.txPackets := rfl
@[simp] theorem State.modContext_rxPackets (c : Nat) (f : Context → Context) : (s.modContext c f).rxPackets = s.rxPackets := rfl
@[simp] theorem State.modContext_replyPacket (c : Nat) (f : Context → Context) : (s.modContext c f).replyPacket = s.replyPacket := rfl
@[simp] theorem State.modContext_rxFrames (c : Nat) (f : Context → Context) : (s.modContext c f).rxFrames = s.rxFrames := rfl
@[simp] theorem State.modContext_txFrames (c : Nat) (f : Context → Context) : (s.modContext c f).txFrames = s.txFrames := rfl
@[simp] theorem State.modContext_framesDropped (c : Nat) (f : Context → Context) : (s.modContext c f).framesDropped = s.framesDropped := rfl
@[simp] theorem State.modContext_globalAddr (c : Nat) (f : Context → Context) : (s.modContext c f).globalAddr = s.globalAddr := rfl
@[simp] theorem State.modContext_peers (c : Nat) (f : Context → Context) : (s.modContext c f).peers = s.peers := rfl
@[simp] theorem State.modContext_rxDatagrams (c : Nat) (f : Context → Context) : (s.modContext c f).rxDatagrams = s.rxDatagrams := rfl
@[simp] theorem State.modContext_txDatagrams (c : Nat) (f : Context → Context) : (s.modContext c f).txDatagrams = s.txDatagrams := rfl
@[simp] theorem State.modContext_dropped (c : Nat) (f : Context → Context) : (s.modContext c f).dropped = s.dropped := rfl
@[simp] theorem State.modContext_hellos (c : Nat) (f : Context → Context) : (s.modContext c f).hellos = s.hellos := rfl
@[simp] theorem State.modContext_sessions (c : Nat) (f : Context → Context) : (s.modContext c f).sessions = s.sessions := rfl
@[simp] theorem State.modContext_hostAccs (c : Nat) (f : Context → Context) : (s.modContext c f).hostAccs = s.hostAccs := rfl
@[simp] theorem State.modContext_waitingCmds (c : Nat) (f : Context → Context) : (s.modContext c f).waitingCmds = s.waitingCmds := rfl
@[simp] theorem State.modContext_preempts (c : Nat) (f : Context → Context) : (s.modContext c f).preempts = s.preempts := rfl
@[simp] theorem State.modContext_firmware (c : Nat) (f : Context → Context) : (s.modContext c f).firmware = s.firmware := rfl
@[simp] theorem State.modContext_stored (c : Nat) (f : Context → Context) : (s.modContext c f).stored = s.stored := rfl
@[simp] theorem State.modContext_staging (c : Nat) (f : Context → Context) : (s.modContext c f).staging = s.staging := rfl
@[simp] theorem State.modContext_fusedSvn (c : Nat) (f : Context → Context) : (s.modContext c f).fusedSvn = s.fusedSvn := rfl
@[simp] theorem State.modContext_recovery (c : Nat) (f : Context → Context) : (s.modContext c f).recovery = s.recovery := rfl
@[simp] theorem State.modContext_stopped (c : Nat) (f : Context → Context) : (s.modContext c f).stopped = s.stopped := rfl
@[simp] theorem State.modContext_secret (c : Nat) (f : Context → Context) : (s.modContext c f).secret = s.secret := rfl
@[simp] theorem State.modContext_boots (c : Nat) (f : Context → Context) : (s.modContext c f).boots = s.boots := rfl
@[simp] theorem State.modContext_handshakes (c : Nat) (f : Context → Context) : (s.modContext c f).handshakes = s.handshakes := rfl

@[simp] theorem State.modLaunch_cur (l : Nat) (f : Launch → Launch) : (s.modLaunch l f).cur = s.cur := rfl
@[simp] theorem State.modLaunch_agenda (l : Nat) (f : Launch → Launch) : (s.modLaunch l f).agenda = s.agenda := rfl
@[simp] theorem State.modLaunch_trips (l : Nat) (f : Launch → Launch) : (s.modLaunch l f).trips = s.trips := rfl
@[simp] theorem State.modLaunch_pins (l : Nat) (f : Launch → Launch) : (s.modLaunch l f).pins = s.pins := rfl
@[simp] theorem State.modLaunch_free (l : Nat) (f : Launch → Launch) : (s.modLaunch l f).free = s.free := rfl
@[simp] theorem State.modLaunch_clock (l : Nat) (f : Launch → Launch) : (s.modLaunch l f).clock = s.clock := rfl
@[simp] theorem State.modLaunch_tick (l : Nat) (f : Launch → Launch) : (s.modLaunch l f).tick = s.tick := rfl
@[simp] theorem State.modLaunch_mem (l : Nat) (f : Launch → Launch) : (s.modLaunch l f).mem = s.mem := rfl
@[simp] theorem State.modLaunch_poison (l : Nat) (f : Launch → Launch) : (s.modLaunch l f).poison = s.poison := rfl
@[simp] theorem State.modLaunch_corrected (l : Nat) (f : Launch → Launch) : (s.modLaunch l f).corrected = s.corrected := rfl
@[simp] theorem State.modLaunch_homes (l : Nat) (f : Launch → Launch) : (s.modLaunch l f).homes = s.homes := rfl
@[simp] theorem State.modLaunch_tags (l : Nat) (f : Launch → Launch) : (s.modLaunch l f).tags = s.tags := rfl
@[simp] theorem State.modLaunch_teams (l : Nat) (f : Launch → Launch) : (s.modLaunch l f).teams = s.teams := rfl
@[simp] theorem State.modLaunch_contexts (l : Nat) (f : Launch → Launch) : (s.modLaunch l f).contexts = s.contexts := rfl
@[simp] theorem State.modLaunch_cores (l : Nat) (f : Launch → Launch) : (s.modLaunch l f).cores = s.cores := rfl
@[simp] theorem State.modLaunch_slices (l : Nat) (f : Launch → Launch) : (s.modLaunch l f).slices = s.slices := rfl
@[simp] theorem State.modLaunch_dies (l : Nat) (f : Launch → Launch) : (s.modLaunch l f).dies = s.dies := rfl
@[simp] theorem State.modLaunch_ops (l : Nat) (f : Launch → Launch) : (s.modLaunch l f).ops = s.ops := rfl
@[simp] theorem State.modLaunch_nextOp (l : Nat) (f : Launch → Launch) : (s.modLaunch l f).nextOp = s.nextOp := rfl
@[simp] theorem State.modLaunch_nodeId (l : Nat) (f : Launch → Launch) : (s.modLaunch l f).nodeId = s.nodeId := rfl
@[simp] theorem State.modLaunch_ports (l : Nat) (f : Launch → Launch) : (s.modLaunch l f).ports = s.ports := rfl
@[simp] theorem State.modLaunch_exports (l : Nat) (f : Launch → Launch) : (s.modLaunch l f).exports = s.exports := rfl
@[simp] theorem State.modLaunch_streams (l : Nat) (f : Launch → Launch) : (s.modLaunch l f).streams = s.streams := rfl
@[simp] theorem State.modLaunch_txPackets (l : Nat) (f : Launch → Launch) : (s.modLaunch l f).txPackets = s.txPackets := rfl
@[simp] theorem State.modLaunch_rxPackets (l : Nat) (f : Launch → Launch) : (s.modLaunch l f).rxPackets = s.rxPackets := rfl
@[simp] theorem State.modLaunch_replyPacket (l : Nat) (f : Launch → Launch) : (s.modLaunch l f).replyPacket = s.replyPacket := rfl
@[simp] theorem State.modLaunch_rxFrames (l : Nat) (f : Launch → Launch) : (s.modLaunch l f).rxFrames = s.rxFrames := rfl
@[simp] theorem State.modLaunch_txFrames (l : Nat) (f : Launch → Launch) : (s.modLaunch l f).txFrames = s.txFrames := rfl
@[simp] theorem State.modLaunch_framesDropped (l : Nat) (f : Launch → Launch) : (s.modLaunch l f).framesDropped = s.framesDropped := rfl
@[simp] theorem State.modLaunch_globalAddr (l : Nat) (f : Launch → Launch) : (s.modLaunch l f).globalAddr = s.globalAddr := rfl
@[simp] theorem State.modLaunch_peers (l : Nat) (f : Launch → Launch) : (s.modLaunch l f).peers = s.peers := rfl
@[simp] theorem State.modLaunch_rxDatagrams (l : Nat) (f : Launch → Launch) : (s.modLaunch l f).rxDatagrams = s.rxDatagrams := rfl
@[simp] theorem State.modLaunch_txDatagrams (l : Nat) (f : Launch → Launch) : (s.modLaunch l f).txDatagrams = s.txDatagrams := rfl
@[simp] theorem State.modLaunch_dropped (l : Nat) (f : Launch → Launch) : (s.modLaunch l f).dropped = s.dropped := rfl
@[simp] theorem State.modLaunch_hellos (l : Nat) (f : Launch → Launch) : (s.modLaunch l f).hellos = s.hellos := rfl
@[simp] theorem State.modLaunch_sessions (l : Nat) (f : Launch → Launch) : (s.modLaunch l f).sessions = s.sessions := rfl
@[simp] theorem State.modLaunch_hostAccs (l : Nat) (f : Launch → Launch) : (s.modLaunch l f).hostAccs = s.hostAccs := rfl
@[simp] theorem State.modLaunch_waitingCmds (l : Nat) (f : Launch → Launch) : (s.modLaunch l f).waitingCmds = s.waitingCmds := rfl
@[simp] theorem State.modLaunch_preempts (l : Nat) (f : Launch → Launch) : (s.modLaunch l f).preempts = s.preempts := rfl
@[simp] theorem State.modLaunch_firmware (l : Nat) (f : Launch → Launch) : (s.modLaunch l f).firmware = s.firmware := rfl
@[simp] theorem State.modLaunch_stored (l : Nat) (f : Launch → Launch) : (s.modLaunch l f).stored = s.stored := rfl
@[simp] theorem State.modLaunch_staging (l : Nat) (f : Launch → Launch) : (s.modLaunch l f).staging = s.staging := rfl
@[simp] theorem State.modLaunch_fusedSvn (l : Nat) (f : Launch → Launch) : (s.modLaunch l f).fusedSvn = s.fusedSvn := rfl
@[simp] theorem State.modLaunch_recovery (l : Nat) (f : Launch → Launch) : (s.modLaunch l f).recovery = s.recovery := rfl
@[simp] theorem State.modLaunch_stopped (l : Nat) (f : Launch → Launch) : (s.modLaunch l f).stopped = s.stopped := rfl
@[simp] theorem State.modLaunch_secret (l : Nat) (f : Launch → Launch) : (s.modLaunch l f).secret = s.secret := rfl
@[simp] theorem State.modLaunch_boots (l : Nat) (f : Launch → Launch) : (s.modLaunch l f).boots = s.boots := rfl
@[simp] theorem State.modLaunch_handshakes (l : Nat) (f : Launch → Launch) : (s.modLaunch l f).handshakes = s.handshakes := rfl

@[simp] theorem State.modOp_cur (o : Nat) (f : Op → Op) : (s.modOp o f).cur = s.cur := rfl
@[simp] theorem State.modOp_agenda (o : Nat) (f : Op → Op) : (s.modOp o f).agenda = s.agenda := rfl
@[simp] theorem State.modOp_trips (o : Nat) (f : Op → Op) : (s.modOp o f).trips = s.trips := rfl
@[simp] theorem State.modOp_pins (o : Nat) (f : Op → Op) : (s.modOp o f).pins = s.pins := rfl
@[simp] theorem State.modOp_free (o : Nat) (f : Op → Op) : (s.modOp o f).free = s.free := rfl
@[simp] theorem State.modOp_clock (o : Nat) (f : Op → Op) : (s.modOp o f).clock = s.clock := rfl
@[simp] theorem State.modOp_tick (o : Nat) (f : Op → Op) : (s.modOp o f).tick = s.tick := rfl
@[simp] theorem State.modOp_mem (o : Nat) (f : Op → Op) : (s.modOp o f).mem = s.mem := rfl
@[simp] theorem State.modOp_poison (o : Nat) (f : Op → Op) : (s.modOp o f).poison = s.poison := rfl
@[simp] theorem State.modOp_corrected (o : Nat) (f : Op → Op) : (s.modOp o f).corrected = s.corrected := rfl
@[simp] theorem State.modOp_homes (o : Nat) (f : Op → Op) : (s.modOp o f).homes = s.homes := rfl
@[simp] theorem State.modOp_tags (o : Nat) (f : Op → Op) : (s.modOp o f).tags = s.tags := rfl
@[simp] theorem State.modOp_teams (o : Nat) (f : Op → Op) : (s.modOp o f).teams = s.teams := rfl
@[simp] theorem State.modOp_launches (o : Nat) (f : Op → Op) : (s.modOp o f).launches = s.launches := rfl
@[simp] theorem State.modOp_contexts (o : Nat) (f : Op → Op) : (s.modOp o f).contexts = s.contexts := rfl
@[simp] theorem State.modOp_cores (o : Nat) (f : Op → Op) : (s.modOp o f).cores = s.cores := rfl
@[simp] theorem State.modOp_slices (o : Nat) (f : Op → Op) : (s.modOp o f).slices = s.slices := rfl
@[simp] theorem State.modOp_dies (o : Nat) (f : Op → Op) : (s.modOp o f).dies = s.dies := rfl
@[simp] theorem State.modOp_nextOp (o : Nat) (f : Op → Op) : (s.modOp o f).nextOp = s.nextOp := rfl
@[simp] theorem State.modOp_nodeId (o : Nat) (f : Op → Op) : (s.modOp o f).nodeId = s.nodeId := rfl
@[simp] theorem State.modOp_ports (o : Nat) (f : Op → Op) : (s.modOp o f).ports = s.ports := rfl
@[simp] theorem State.modOp_exports (o : Nat) (f : Op → Op) : (s.modOp o f).exports = s.exports := rfl
@[simp] theorem State.modOp_streams (o : Nat) (f : Op → Op) : (s.modOp o f).streams = s.streams := rfl
@[simp] theorem State.modOp_txPackets (o : Nat) (f : Op → Op) : (s.modOp o f).txPackets = s.txPackets := rfl
@[simp] theorem State.modOp_rxPackets (o : Nat) (f : Op → Op) : (s.modOp o f).rxPackets = s.rxPackets := rfl
@[simp] theorem State.modOp_replyPacket (o : Nat) (f : Op → Op) : (s.modOp o f).replyPacket = s.replyPacket := rfl
@[simp] theorem State.modOp_rxFrames (o : Nat) (f : Op → Op) : (s.modOp o f).rxFrames = s.rxFrames := rfl
@[simp] theorem State.modOp_txFrames (o : Nat) (f : Op → Op) : (s.modOp o f).txFrames = s.txFrames := rfl
@[simp] theorem State.modOp_framesDropped (o : Nat) (f : Op → Op) : (s.modOp o f).framesDropped = s.framesDropped := rfl
@[simp] theorem State.modOp_globalAddr (o : Nat) (f : Op → Op) : (s.modOp o f).globalAddr = s.globalAddr := rfl
@[simp] theorem State.modOp_peers (o : Nat) (f : Op → Op) : (s.modOp o f).peers = s.peers := rfl
@[simp] theorem State.modOp_rxDatagrams (o : Nat) (f : Op → Op) : (s.modOp o f).rxDatagrams = s.rxDatagrams := rfl
@[simp] theorem State.modOp_txDatagrams (o : Nat) (f : Op → Op) : (s.modOp o f).txDatagrams = s.txDatagrams := rfl
@[simp] theorem State.modOp_dropped (o : Nat) (f : Op → Op) : (s.modOp o f).dropped = s.dropped := rfl
@[simp] theorem State.modOp_hellos (o : Nat) (f : Op → Op) : (s.modOp o f).hellos = s.hellos := rfl
@[simp] theorem State.modOp_sessions (o : Nat) (f : Op → Op) : (s.modOp o f).sessions = s.sessions := rfl
@[simp] theorem State.modOp_hostAccs (o : Nat) (f : Op → Op) : (s.modOp o f).hostAccs = s.hostAccs := rfl
@[simp] theorem State.modOp_waitingCmds (o : Nat) (f : Op → Op) : (s.modOp o f).waitingCmds = s.waitingCmds := rfl
@[simp] theorem State.modOp_preempts (o : Nat) (f : Op → Op) : (s.modOp o f).preempts = s.preempts := rfl
@[simp] theorem State.modOp_firmware (o : Nat) (f : Op → Op) : (s.modOp o f).firmware = s.firmware := rfl
@[simp] theorem State.modOp_stored (o : Nat) (f : Op → Op) : (s.modOp o f).stored = s.stored := rfl
@[simp] theorem State.modOp_staging (o : Nat) (f : Op → Op) : (s.modOp o f).staging = s.staging := rfl
@[simp] theorem State.modOp_fusedSvn (o : Nat) (f : Op → Op) : (s.modOp o f).fusedSvn = s.fusedSvn := rfl
@[simp] theorem State.modOp_recovery (o : Nat) (f : Op → Op) : (s.modOp o f).recovery = s.recovery := rfl
@[simp] theorem State.modOp_stopped (o : Nat) (f : Op → Op) : (s.modOp o f).stopped = s.stopped := rfl
@[simp] theorem State.modOp_secret (o : Nat) (f : Op → Op) : (s.modOp o f).secret = s.secret := rfl
@[simp] theorem State.modOp_boots (o : Nat) (f : Op → Op) : (s.modOp o f).boots = s.boots := rfl
@[simp] theorem State.modOp_handshakes (o : Nat) (f : Op → Op) : (s.modOp o f).handshakes = s.handshakes := rfl

@[simp] theorem State.dropOp_cur (o : Nat) : (s.dropOp o).cur = s.cur := rfl
@[simp] theorem State.dropOp_agenda (o : Nat) : (s.dropOp o).agenda = s.agenda := rfl
@[simp] theorem State.dropOp_trips (o : Nat) : (s.dropOp o).trips = s.trips := rfl
@[simp] theorem State.dropOp_pins (o : Nat) : (s.dropOp o).pins = s.pins := rfl
@[simp] theorem State.dropOp_free (o : Nat) : (s.dropOp o).free = s.free := rfl
@[simp] theorem State.dropOp_clock (o : Nat) : (s.dropOp o).clock = s.clock := rfl
@[simp] theorem State.dropOp_tick (o : Nat) : (s.dropOp o).tick = s.tick := rfl
@[simp] theorem State.dropOp_mem (o : Nat) : (s.dropOp o).mem = s.mem := rfl
@[simp] theorem State.dropOp_poison (o : Nat) : (s.dropOp o).poison = s.poison := rfl
@[simp] theorem State.dropOp_corrected (o : Nat) : (s.dropOp o).corrected = s.corrected := rfl
@[simp] theorem State.dropOp_homes (o : Nat) : (s.dropOp o).homes = s.homes := rfl
@[simp] theorem State.dropOp_tags (o : Nat) : (s.dropOp o).tags = s.tags := rfl
@[simp] theorem State.dropOp_teams (o : Nat) : (s.dropOp o).teams = s.teams := rfl
@[simp] theorem State.dropOp_launches (o : Nat) : (s.dropOp o).launches = s.launches := rfl
@[simp] theorem State.dropOp_contexts (o : Nat) : (s.dropOp o).contexts = s.contexts := rfl
@[simp] theorem State.dropOp_cores (o : Nat) : (s.dropOp o).cores = s.cores := rfl
@[simp] theorem State.dropOp_slices (o : Nat) : (s.dropOp o).slices = s.slices := rfl
@[simp] theorem State.dropOp_dies (o : Nat) : (s.dropOp o).dies = s.dies := rfl
@[simp] theorem State.dropOp_nextOp (o : Nat) : (s.dropOp o).nextOp = s.nextOp := rfl
@[simp] theorem State.dropOp_nodeId (o : Nat) : (s.dropOp o).nodeId = s.nodeId := rfl
@[simp] theorem State.dropOp_ports (o : Nat) : (s.dropOp o).ports = s.ports := rfl
@[simp] theorem State.dropOp_exports (o : Nat) : (s.dropOp o).exports = s.exports := rfl
@[simp] theorem State.dropOp_streams (o : Nat) : (s.dropOp o).streams = s.streams := rfl
@[simp] theorem State.dropOp_txPackets (o : Nat) : (s.dropOp o).txPackets = s.txPackets := rfl
@[simp] theorem State.dropOp_rxPackets (o : Nat) : (s.dropOp o).rxPackets = s.rxPackets := rfl
@[simp] theorem State.dropOp_replyPacket (o : Nat) : (s.dropOp o).replyPacket = s.replyPacket := rfl
@[simp] theorem State.dropOp_rxFrames (o : Nat) : (s.dropOp o).rxFrames = s.rxFrames := rfl
@[simp] theorem State.dropOp_txFrames (o : Nat) : (s.dropOp o).txFrames = s.txFrames := rfl
@[simp] theorem State.dropOp_framesDropped (o : Nat) : (s.dropOp o).framesDropped = s.framesDropped := rfl
@[simp] theorem State.dropOp_globalAddr (o : Nat) : (s.dropOp o).globalAddr = s.globalAddr := rfl
@[simp] theorem State.dropOp_peers (o : Nat) : (s.dropOp o).peers = s.peers := rfl
@[simp] theorem State.dropOp_rxDatagrams (o : Nat) : (s.dropOp o).rxDatagrams = s.rxDatagrams := rfl
@[simp] theorem State.dropOp_txDatagrams (o : Nat) : (s.dropOp o).txDatagrams = s.txDatagrams := rfl
@[simp] theorem State.dropOp_dropped (o : Nat) : (s.dropOp o).dropped = s.dropped := rfl
@[simp] theorem State.dropOp_hellos (o : Nat) : (s.dropOp o).hellos = s.hellos := rfl
@[simp] theorem State.dropOp_sessions (o : Nat) : (s.dropOp o).sessions = s.sessions := rfl
@[simp] theorem State.dropOp_hostAccs (o : Nat) : (s.dropOp o).hostAccs = s.hostAccs := rfl
@[simp] theorem State.dropOp_waitingCmds (o : Nat) : (s.dropOp o).waitingCmds = s.waitingCmds := rfl
@[simp] theorem State.dropOp_preempts (o : Nat) : (s.dropOp o).preempts = s.preempts := rfl
@[simp] theorem State.dropOp_firmware (o : Nat) : (s.dropOp o).firmware = s.firmware := rfl
@[simp] theorem State.dropOp_stored (o : Nat) : (s.dropOp o).stored = s.stored := rfl
@[simp] theorem State.dropOp_staging (o : Nat) : (s.dropOp o).staging = s.staging := rfl
@[simp] theorem State.dropOp_fusedSvn (o : Nat) : (s.dropOp o).fusedSvn = s.fusedSvn := rfl
@[simp] theorem State.dropOp_recovery (o : Nat) : (s.dropOp o).recovery = s.recovery := rfl
@[simp] theorem State.dropOp_stopped (o : Nat) : (s.dropOp o).stopped = s.stopped := rfl
@[simp] theorem State.dropOp_secret (o : Nat) : (s.dropOp o).secret = s.secret := rfl
@[simp] theorem State.dropOp_boots (o : Nat) : (s.dropOp o).boots = s.boots := rfl
@[simp] theorem State.dropOp_handshakes (o : Nat) : (s.dropOp o).handshakes = s.handshakes := rfl

@[simp] theorem State.push_cur (es : List Instr) : (s.push es).cur = s.cur := rfl
@[simp] theorem State.push_trips (es : List Instr) : (s.push es).trips = s.trips := rfl
@[simp] theorem State.push_pins (es : List Instr) : (s.push es).pins = s.pins := rfl
@[simp] theorem State.push_free (es : List Instr) : (s.push es).free = s.free := rfl
@[simp] theorem State.push_clock (es : List Instr) : (s.push es).clock = s.clock := rfl
@[simp] theorem State.push_tick (es : List Instr) : (s.push es).tick = s.tick := rfl
@[simp] theorem State.push_mem (es : List Instr) : (s.push es).mem = s.mem := rfl
@[simp] theorem State.push_poison (es : List Instr) : (s.push es).poison = s.poison := rfl
@[simp] theorem State.push_corrected (es : List Instr) : (s.push es).corrected = s.corrected := rfl
@[simp] theorem State.push_homes (es : List Instr) : (s.push es).homes = s.homes := rfl
@[simp] theorem State.push_tags (es : List Instr) : (s.push es).tags = s.tags := rfl
@[simp] theorem State.push_teams (es : List Instr) : (s.push es).teams = s.teams := rfl
@[simp] theorem State.push_launches (es : List Instr) : (s.push es).launches = s.launches := rfl
@[simp] theorem State.push_contexts (es : List Instr) : (s.push es).contexts = s.contexts := rfl
@[simp] theorem State.push_cores (es : List Instr) : (s.push es).cores = s.cores := rfl
@[simp] theorem State.push_slices (es : List Instr) : (s.push es).slices = s.slices := rfl
@[simp] theorem State.push_dies (es : List Instr) : (s.push es).dies = s.dies := rfl
@[simp] theorem State.push_ops (es : List Instr) : (s.push es).ops = s.ops := rfl
@[simp] theorem State.push_nextOp (es : List Instr) : (s.push es).nextOp = s.nextOp := rfl
@[simp] theorem State.push_nodeId (es : List Instr) : (s.push es).nodeId = s.nodeId := rfl
@[simp] theorem State.push_ports (es : List Instr) : (s.push es).ports = s.ports := rfl
@[simp] theorem State.push_exports (es : List Instr) : (s.push es).exports = s.exports := rfl
@[simp] theorem State.push_streams (es : List Instr) : (s.push es).streams = s.streams := rfl
@[simp] theorem State.push_txPackets (es : List Instr) : (s.push es).txPackets = s.txPackets := rfl
@[simp] theorem State.push_rxPackets (es : List Instr) : (s.push es).rxPackets = s.rxPackets := rfl
@[simp] theorem State.push_replyPacket (es : List Instr) : (s.push es).replyPacket = s.replyPacket := rfl
@[simp] theorem State.push_rxFrames (es : List Instr) : (s.push es).rxFrames = s.rxFrames := rfl
@[simp] theorem State.push_txFrames (es : List Instr) : (s.push es).txFrames = s.txFrames := rfl
@[simp] theorem State.push_framesDropped (es : List Instr) : (s.push es).framesDropped = s.framesDropped := rfl
@[simp] theorem State.push_globalAddr (es : List Instr) : (s.push es).globalAddr = s.globalAddr := rfl
@[simp] theorem State.push_peers (es : List Instr) : (s.push es).peers = s.peers := rfl
@[simp] theorem State.push_rxDatagrams (es : List Instr) : (s.push es).rxDatagrams = s.rxDatagrams := rfl
@[simp] theorem State.push_txDatagrams (es : List Instr) : (s.push es).txDatagrams = s.txDatagrams := rfl
@[simp] theorem State.push_dropped (es : List Instr) : (s.push es).dropped = s.dropped := rfl
@[simp] theorem State.push_hellos (es : List Instr) : (s.push es).hellos = s.hellos := rfl
@[simp] theorem State.push_sessions (es : List Instr) : (s.push es).sessions = s.sessions := rfl
@[simp] theorem State.push_hostAccs (es : List Instr) : (s.push es).hostAccs = s.hostAccs := rfl
@[simp] theorem State.push_waitingCmds (es : List Instr) : (s.push es).waitingCmds = s.waitingCmds := rfl
@[simp] theorem State.push_preempts (es : List Instr) : (s.push es).preempts = s.preempts := rfl
@[simp] theorem State.push_firmware (es : List Instr) : (s.push es).firmware = s.firmware := rfl
@[simp] theorem State.push_stored (es : List Instr) : (s.push es).stored = s.stored := rfl
@[simp] theorem State.push_staging (es : List Instr) : (s.push es).staging = s.staging := rfl
@[simp] theorem State.push_fusedSvn (es : List Instr) : (s.push es).fusedSvn = s.fusedSvn := rfl
@[simp] theorem State.push_recovery (es : List Instr) : (s.push es).recovery = s.recovery := rfl
@[simp] theorem State.push_stopped (es : List Instr) : (s.push es).stopped = s.stopped := rfl
@[simp] theorem State.push_secret (es : List Instr) : (s.push es).secret = s.secret := rfl
@[simp] theorem State.push_boots (es : List Instr) : (s.push es).boots = s.boots := rfl
@[simp] theorem State.push_handshakes (es : List Instr) : (s.push es).handshakes = s.handshakes := rfl

@[simp] theorem State.cancel_cur (e : Instr) : (s.cancel e).cur = s.cur := rfl
@[simp] theorem State.cancel_trips (e : Instr) : (s.cancel e).trips = s.trips := rfl
@[simp] theorem State.cancel_pins (e : Instr) : (s.cancel e).pins = s.pins := rfl
@[simp] theorem State.cancel_free (e : Instr) : (s.cancel e).free = s.free := rfl
@[simp] theorem State.cancel_clock (e : Instr) : (s.cancel e).clock = s.clock := rfl
@[simp] theorem State.cancel_tick (e : Instr) : (s.cancel e).tick = s.tick := rfl
@[simp] theorem State.cancel_mem (e : Instr) : (s.cancel e).mem = s.mem := rfl
@[simp] theorem State.cancel_poison (e : Instr) : (s.cancel e).poison = s.poison := rfl
@[simp] theorem State.cancel_corrected (e : Instr) : (s.cancel e).corrected = s.corrected := rfl
@[simp] theorem State.cancel_homes (e : Instr) : (s.cancel e).homes = s.homes := rfl
@[simp] theorem State.cancel_tags (e : Instr) : (s.cancel e).tags = s.tags := rfl
@[simp] theorem State.cancel_teams (e : Instr) : (s.cancel e).teams = s.teams := rfl
@[simp] theorem State.cancel_launches (e : Instr) : (s.cancel e).launches = s.launches := rfl
@[simp] theorem State.cancel_contexts (e : Instr) : (s.cancel e).contexts = s.contexts := rfl
@[simp] theorem State.cancel_cores (e : Instr) : (s.cancel e).cores = s.cores := rfl
@[simp] theorem State.cancel_slices (e : Instr) : (s.cancel e).slices = s.slices := rfl
@[simp] theorem State.cancel_dies (e : Instr) : (s.cancel e).dies = s.dies := rfl
@[simp] theorem State.cancel_ops (e : Instr) : (s.cancel e).ops = s.ops := rfl
@[simp] theorem State.cancel_nextOp (e : Instr) : (s.cancel e).nextOp = s.nextOp := rfl
@[simp] theorem State.cancel_nodeId (e : Instr) : (s.cancel e).nodeId = s.nodeId := rfl
@[simp] theorem State.cancel_ports (e : Instr) : (s.cancel e).ports = s.ports := rfl
@[simp] theorem State.cancel_exports (e : Instr) : (s.cancel e).exports = s.exports := rfl
@[simp] theorem State.cancel_streams (e : Instr) : (s.cancel e).streams = s.streams := rfl
@[simp] theorem State.cancel_txPackets (e : Instr) : (s.cancel e).txPackets = s.txPackets := rfl
@[simp] theorem State.cancel_rxPackets (e : Instr) : (s.cancel e).rxPackets = s.rxPackets := rfl
@[simp] theorem State.cancel_replyPacket (e : Instr) : (s.cancel e).replyPacket = s.replyPacket := rfl
@[simp] theorem State.cancel_rxFrames (e : Instr) : (s.cancel e).rxFrames = s.rxFrames := rfl
@[simp] theorem State.cancel_txFrames (e : Instr) : (s.cancel e).txFrames = s.txFrames := rfl
@[simp] theorem State.cancel_framesDropped (e : Instr) : (s.cancel e).framesDropped = s.framesDropped := rfl
@[simp] theorem State.cancel_globalAddr (e : Instr) : (s.cancel e).globalAddr = s.globalAddr := rfl
@[simp] theorem State.cancel_peers (e : Instr) : (s.cancel e).peers = s.peers := rfl
@[simp] theorem State.cancel_rxDatagrams (e : Instr) : (s.cancel e).rxDatagrams = s.rxDatagrams := rfl
@[simp] theorem State.cancel_txDatagrams (e : Instr) : (s.cancel e).txDatagrams = s.txDatagrams := rfl
@[simp] theorem State.cancel_dropped (e : Instr) : (s.cancel e).dropped = s.dropped := rfl
@[simp] theorem State.cancel_hellos (e : Instr) : (s.cancel e).hellos = s.hellos := rfl
@[simp] theorem State.cancel_sessions (e : Instr) : (s.cancel e).sessions = s.sessions := rfl
@[simp] theorem State.cancel_hostAccs (e : Instr) : (s.cancel e).hostAccs = s.hostAccs := rfl
@[simp] theorem State.cancel_waitingCmds (e : Instr) : (s.cancel e).waitingCmds = s.waitingCmds := rfl
@[simp] theorem State.cancel_preempts (e : Instr) : (s.cancel e).preempts = s.preempts := rfl
@[simp] theorem State.cancel_firmware (e : Instr) : (s.cancel e).firmware = s.firmware := rfl
@[simp] theorem State.cancel_stored (e : Instr) : (s.cancel e).stored = s.stored := rfl
@[simp] theorem State.cancel_staging (e : Instr) : (s.cancel e).staging = s.staging := rfl
@[simp] theorem State.cancel_fusedSvn (e : Instr) : (s.cancel e).fusedSvn = s.fusedSvn := rfl
@[simp] theorem State.cancel_recovery (e : Instr) : (s.cancel e).recovery = s.recovery := rfl
@[simp] theorem State.cancel_stopped (e : Instr) : (s.cancel e).stopped = s.stopped := rfl
@[simp] theorem State.cancel_secret (e : Instr) : (s.cancel e).secret = s.secret := rfl
@[simp] theorem State.cancel_boots (e : Instr) : (s.cancel e).boots = s.boots := rfl
@[simp] theorem State.cancel_handshakes (e : Instr) : (s.cancel e).handshakes = s.handshakes := rfl

@[simp] theorem State.push_agenda (es : List Instr) : (s.push es).agenda = s.agenda ++ es := rfl
@[simp] theorem State.cancel_agenda (e : Instr) : (s.cancel e).agenda = s.agenda.erase e := rfl
@[simp] theorem State.modOp_ops (o : Nat) (f : Op → Op) : (s.modOp o f).ops = s.ops.adjust o f := rfl
@[simp] theorem State.dropOp_ops (o : Nat) : (s.dropOp o).ops = s.ops.erase o := rfl
@[simp] theorem State.modTeam_teams (t : Nat) (f : Team → Team) : (s.modTeam t f).teams = s.teams.adjust t f := rfl
@[simp] theorem State.modLaunch_launches (l : Nat) (f : Launch → Launch) :
    (s.modLaunch l f).launches = s.launches.adjust l f := rfl

/-! ## Parts after their own update -/

theorem State.team?_modTeam (t u : Nat) (f : Team → Team) :
    (s.modTeam t f).team? u = if u = t then (s.team? t).map f else s.team? u := by
  simp [State.team?, Tab.find?_adjust]

theorem State.team?_modWarp (w : WarpRef) (u : Nat) (f : Warp → Warp) :
    (s.modWarp w f).team? u
      = if u = w.team then (s.team? w.team).map (fun t => { t with warps := t.warps.adjust w.warp f })
        else s.team? u := State.team?_modTeam s _ _ _

theorem State.warp?_modWarp (w v : WarpRef) (f : Warp → Warp) :
    (s.modWarp w f).warp? v = if v = w then (s.warp? w).map f else s.warp? v := by
  obtain ⟨wt, wn⟩ := w
  obtain ⟨vt, vn⟩ := v
  simp only [State.warp?, State.team?_modWarp]
  by_cases h : vt = wt
  · subst h
    cases s.team? vt with
    | none => simp
    | some t => by_cases h2 : vn = wn <;> simp [Tab.find?_adjust, h2]
  · simp [h]

@[simp] theorem State.warp?_modWarp_self (w : WarpRef) (f : Warp → Warp) :
    (s.modWarp w f).warp? w = (s.warp? w).map f := by simp [State.warp?_modWarp]

theorem State.warp?_modWarp_other {w v : WarpRef} (f : Warp → Warp) (h : v ≠ w) :
    (s.modWarp w f).warp? v = s.warp? v := by simp [State.warp?_modWarp, h]

theorem State.warp?_modSplit (r : SplitRef) (v : WarpRef) (f : Split → Split) :
    (s.modSplit r f).warp? v
      = if v = warpOf r then (s.warp? v).map (fun w => { w with splits := w.splits.adjust r.split f })
        else s.warp? v := by
  rw [State.modSplit, State.warp?_modWarp]
  by_cases h : v = warpOf r <;> simp [h]

theorem State.split?_modSplit (r q : SplitRef) (f : Split → Split) :
    (s.modSplit r f).split? q = if q = r then (s.split? r).map f else s.split? q := by
  obtain ⟨rt, rw, rs⟩ := r
  obtain ⟨qt, qw, qs⟩ := q
  simp only [State.split?, State.warp?_modSplit, warpOf, WarpRef.mk.injEq, SplitRef.mk.injEq]
  by_cases h : qt = rt ∧ qw = rw
  · obtain ⟨rfl, rfl⟩ := h
    cases s.warp? ⟨qt, qw⟩ with
    | none => simp
    | some w => by_cases h2 : qs = rs <;> simp [Tab.find?_adjust, h2]
  · rw [if_neg h, if_neg (fun c => h ⟨c.1, c.2.1⟩)]

theorem State.modWarp_modWarp (w : WarpRef) (f g : Warp → Warp) :
    (s.modWarp w f).modWarp w g = s.modWarp w (fun v => g (f v)) := by
  simp only [State.modWarp, State.modTeam, Tab.adjust_adjust]

theorem State.core_modCore (c d : Nat) (f : Core → Core) :
    (s.modCore c f).core d = if d = c then f (s.core c) else s.core d := Tab.get_modify _ _ _ _ _

theorem State.die_modDie (c d : Nat) (f : Die → Die) :
    (s.modDie c f).die d = if d = c then f (s.die c) else s.die d := Tab.get_modify _ _ _ _ _

theorem State.slice_modSlice (c d : Nat) (f : Slice → Slice) :
    (s.modSlice c f).slice d = if d = c then f (s.slice c) else s.slice d := Tab.get_modify _ _ _ _ _

theorem State.context_modContext (c d : Nat) (f : Context → Context) :
    (s.modContext c f).context d = if d = c then f (s.context c) else s.context d := Tab.get_modify _ _ _ _ _

theorem State.find?_modOp (o p : Nat) (f : Op → Op) :
    (s.modOp o f).ops.find? p = if p = o then (s.ops.find? o).map f else s.ops.find? p := Tab.find?_adjust _ _ _ _

theorem State.find?_dropOp (o p : Nat) : (s.dropOp o).ops.find? p = if p = o then none else s.ops.find? p :=
  Tab.find?_erase _ _ _

theorem State.find?_modLaunch (l k : Nat) (f : Launch → Launch) :
    (s.modLaunch l f).launches.find? k = if k = l then (s.launches.find? l).map f else s.launches.find? k :=
  Tab.find?_adjust _ _ _ _

/-- What is known of the split that issues: its team, warp and split stand in the state. -/
theorem State.cxOf_eq {r : SplitRef} {c : Cx} (h : s.cxOf r = some c) :
    c.ref = r ∧ s.team? r.team = some c.team ∧ s.warp? (warpOf r) = some c.warp ∧ s.split? r = some c.split
      ∧ s.launches.find? c.team.launch = some c.launch := by
  unfold State.cxOf at h
  split at h
  · simp at h
  · next t ht =>
    split at h
    · next w l hw hl =>
      cases hs : w.splits.find? r.split with
      | none => simp [hs] at h
      | some sp =>
        simp only [hs, Option.map_some, Option.some.injEq] at h
        subst h
        refine ⟨rfl, ht, ?_, ?_, hl⟩
        · simp [State.warp?, warpOf, ht, hw]
        · simp [State.split?, State.warp?, warpOf, ht, hw, hs]
    · simp at h

end Sys2Proof.Machine
end

