-- ==== Sys2Proof/Laws/Issue.lean ====
section
/-! SUPPORT. What the issue of an instruction can do: the four outcomes of its gate, and what advancing its split leaves
as it was. -/

namespace Sys2Proof.Machine

variable {s : State} {c : Cx}

/-! ## The gate -/

theorem State.issuing.bind (h : s.issuing c) : s.cur.bind s.cxOf = some c := by simp [h.1, h.2]

theorem gatedOr_go {need : Cx → Need} {skip : Cx → State → Out} {body : Cx → Mask → State → Out} {m : Mask}
    (h : s.issuing c) (g : gate s c (need c) = .go m) : gatedOr need s skip body = body c m s := by
  simp [gatedOr, h.bind, g]

theorem gatedOr_skip {need : Cx → Need} {skip : Cx → State → Out} {body : Cx → Mask → State → Out}
    (h : s.issuing c) (g : gate s c (need c) = .skip) : gatedOr need s skip body = skip c s := by
  simp [gatedOr, h.bind, g]

theorem gatedOr_trap {need : Cx → Need} {skip : Cx → State → Out} {body : Cx → Mask → State → Out} {k : Nat}
    (h : s.issuing c) (g : gate s c (need c) = .trap k) : gatedOr need s skip body = trapAt c 1 k 0 0 0 s := by
  simp [gatedOr, h.bind, g]

theorem gatedOr_wait {need : Cx → Need} {skip : Cx → State → Out} {body : Cx → Mask → State → Out} {b : Bool}
    {keys cls : List Nat} (h : s.issuing c) (g : gate s c (need c) = .wait b keys cls) :
    gatedOr need s skip body = .next (stall c (promote c.core keys cls s)) := by
  simp [gatedOr, h.bind, g]

theorem run_ready {i : Instr} {m : Mask} {body : Cx → Mask → State → Out} (h : s.ready c i m) :
    run i s body = body c m s := by
  unfold run gated
  exact gatedOr_go (need := fun c => needOf c i) h.issuing h.gate

theorem runBranch_ready {i : Instr} {m : Mask} {body : Cx → Mask → State → Out} (h : s.ready c i m) :
    runBranch i s body = body c m s := by
  unfold runBranch
  exact gatedOr_go (need := fun c => needOf c i) h.issuing h.gate

theorem vRun_ready {i : Instr} {op : Nat} {f : VF} {m : Mask} {sp : VSpec} {b : Nat → Nat}
    {k : Cx → Mask → (Nat → Nat) → State → Out} (h : s.ready c i m) (hs : vSpec op = some sp)
    (hb : readB s c sp f = .ok b) : vRun i op f s k = k c m b s := by
  simp [vRun, run_ready h, withB, hs, hb]

/-! ## Going on -/

/-- The issuing warp as an advance leaves it. -/
def Warp.stepped (c : Cx) (go : Path → Path) (tick clock : Nat) (w : Warp) : Warp :=
  { w with
    timer := clock, hung := false
    splits := w.splits.adjust c.ref.split (fun sp =>
      { sp with
        path := go sp.path, settled := false, fresh := false, waitOnly := false, held := [], code := none,
        last := tick,
        skid := if c.team.status = .skidding then sp.skid + 1 else sp.skid }) }

theorem issued_eq (go : Path → Path) (h : c.team.step = none) :
    issued c go s = ({ s with cur := none, tick := s.tick + 1 } : State).modWarp c.wref
      (Warp.stepped c go (s.tick + 1) s.clock) := by
  simp only [issued, h, Option.isSome_none, Bool.false_eq_true, ite_false, State.modSplit, noteIssue]
  show (State.modWarp (State.modWarp (State.modWarp _ c.wref _) c.wref _) c.wref _) = _
  rw [State.modWarp_modWarp, State.modWarp_modWarp]
  congr 1
  funext w
  simp only [Warp.stepped, Tab.adjust_adjust]
  rfl

@[simp] theorem Warp.stepped_bare (go : Path → Path) (t k : Nat) (w : Warp) : (w.stepped c go t k).bare = w.bare := rfl
@[simp] theorem Warp.stepped_rows (go : Path → Path) (t k : Nat) (w : Warp) : (w.stepped c go t k).rows = w.rows := rfl
@[simp] theorem Warp.stepped_sregs (go : Path → Path) (t k : Nat) (w : Warp) :
    (w.stepped c go t k).sregs = w.sregs := rfl
@[simp] theorem Warp.stepped_preds (go : Path → Path) (t k : Nat) (w : Warp) :
    (w.stepped c go t k).preds = w.preds := rfl

theorem State.rest_modWarp (f : Warp → Warp) (h : ∀ v, (f v).bare = v.bare) :
    (s.modWarp c.wref f).rest c = s.rest c := by
  have e : (fun v => (f v).bare) = Warp.bare := funext h
  show ({ (s.modWarp c.wref f) with cur := none, tick := 0, free := 0 } : State).modWarp c.wref Warp.bare = _
  have : ({ (s.modWarp c.wref f) with cur := none, tick := 0, free := 0 } : State)
      = ({ s with cur := none, tick := 0, free := 0 } : State).modWarp c.wref f := rfl
  rw [this, State.modWarp_modWarp, e]
  rfl

/-- An advance of the issuing split after a change of its warp's registers and predicates alone. -/
theorem advance_wrote {go : Path → Path} {m : Mask} {i : Instr} (h : s.ready c i m) (f : Warp → Warp) (n : Nat)
    (regs : List PReg) (preds : List Nat)
    (hb : ∀ v, (f v).bare = v.bare) (hs : ∀ v, (f v).splits = v.splits)
    (hr : ∀ k, PReg.row k ∉ regs → (f c.warp).row k = c.warp.row k)
    (hg : ∀ k, PReg.s k ∉ regs → (f c.warp).sreg k = c.warp.sreg k)
    (hp : ∀ p, p ∉ preds → (f c.warp).pred p = c.warp.pred p) :
    Wrote c go regs preds s (issued c go (({ s with free := n } : State).modWarp c.wref f))
      ((f c.warp).stepped c go (s.tick + 1) s.clock) := by
  obtain ⟨-, -, hw, hsp, -⟩ := State.cxOf_eq s h.issuing.2
  have he : issued c go (({ s with free := n } : State).modWarp c.wref f)
      = ({ s with free := n, cur := none, tick := s.tick + 1 } : State).modWarp c.wref
          (fun v => (f v).stepped c go (s.tick + 1) s.clock) := by
    rw [issued_eq go h.free]
    exact State.modWarp_modWarp ({ s with free := n, cur := none, tick := s.tick + 1 } : State) _ _ _
  rw [he]
  have hw' : (({ s with free := n, cur := none, tick := s.tick + 1 } : State).modWarp c.wref
      (fun v => (f v).stepped c go (s.tick + 1) s.clock)).warp? c.wref
        = some ((f c.warp).stepped c go (s.tick + 1) s.clock) := by
    rw [State.warp?_modWarp_self]
    have : ({ s with free := n, cur := none, tick := s.tick + 1 } : State).warp? c.wref = s.warp? c.wref := rfl
    rw [this, show s.warp? c.wref = some c.warp from hw]
    rfl
  refine ⟨hw', ⟨rfl, ?_, ?_⟩, ?_, fun _ => rfl, hr, hg, hp⟩
  · have hsp' : c.warp.splits.find? c.ref.split = some c.split := by
      have := hsp
      rw [State.split?, show s.warp? (warpOf c.ref) = some c.warp from hw] at this
      simpa using this
    refine ⟨{ c.split with
        path := go c.split.path, settled := false, fresh := false, waitOnly := false, held := [], code := none,
        last := s.tick + 1,
        skid := if c.team.status = .skidding then c.split.skid + 1 else c.split.skid }, ?_, rfl, rfl, rfl⟩
    · rw [State.split?]
      rw [show warpOf c.ref = c.wref from rfl, hw']
      simp [Warp.stepped, hs, hsp']
  · intro q hq
    simp only [State.split?]
    by_cases hv : warpOf q = c.wref
    · rw [hv, hw']
      have hne : q.split ≠ c.ref.split := by
        intro e
        apply hq
        obtain ⟨a, b, d⟩ := q
        have h1 : (⟨a, b⟩ : WarpRef) = ⟨c.ref.team, c.ref.warp⟩ := hv
        simp only [WarpRef.mk.injEq] at h1
        obtain ⟨rfl, rfl⟩ := h1
        simp only at e
        subst e
        rfl
      rw [show s.warp? c.wref = some c.warp from hw]
      simp [Warp.stepped, hs, Tab.find?_adjust_other _ _ hne]
    · rw [State.warp?_modWarp_other _ _ hv]
      rfl
  · rw [State.rest_modWarp _ (fun v => by simp [hb])]
    rfl

end Sys2Proof.Machine
end

