-- ==== Sys2Proof/Laws/Memory.lean ====
section
/-! SUPPORT. Memory: every write keeps the canonical form, a byte reads as it was last written, and a write leaves every
other byte alone. -/

namespace Sys2Proof.Machine

theorem Memory.wf_tail {c : Host.Cell} {m : Memory} (h : Memory.wf (c :: m) = true) : Memory.wf m = true := by
  cases m with
  | nil => rfl
  | cons d m => simp only [Memory.wf, Bool.and_eq_true] at h; exact h.2

theorem Memory.wf_head {c : Host.Cell} {m : Memory} (h : Memory.wf (c :: m) = true) : c.2 ≠ unwrittenByte := by
  cases m with
  | nil => simpa [Memory.wf] using h
  | cons d m => simp [Memory.wf] at h; exact h.1.1

/-- In canonical form every listed address lies above the head's. -/
theorem Memory.wf_lt {c : Host.Cell} {m : Memory} (h : Memory.wf (c :: m) = true) : ∀ d ∈ m, c.1 < d.1 := by
  induction m generalizing c with
  | nil => simp
  | cons e m ih =>
    have h1 : c.1 < e.1 := by simp [Memory.wf] at h; exact h.1.2
    intro d hd
    rcases List.mem_cons.1 hd with rfl | hd
    · exact h1
    · exact Nat.lt_trans h1 (ih (Memory.wf_tail h) d hd)

theorem Memory.wf_cons {c : Host.Cell} {m : Memory} (h0 : c.2 ≠ unwrittenByte) (h1 : ∀ d ∈ m, c.1 < d.1)
    (h2 : Memory.wf m = true) : Memory.wf (c :: m) = true := by
  cases m with
  | nil => simpa [Memory.wf] using h0
  | cons d m => simp [Memory.wf, h0, h1 d (by simp), h2]

theorem Memory.mem_put {m : Memory} {a : Nat} {b : Byte} {d : Host.Cell} (h : d ∈ m.put a b) : d ∈ m ∨ d.1 = a := by
  induction m with
  | nil => by_cases hb : b = unwrittenByte <;> simp_all [Memory.put]
  | cons c m ih =>
    unfold Memory.put at h
    split at h
    · next e =>
      split at h
      · exact .inl (by simp [h])
      · rcases List.mem_cons.1 h with rfl | h
        · exact .inr rfl
        · exact .inl (by simp [h])
    · split at h
      · split at h
        · exact .inl h
        · rcases List.mem_cons.1 h with rfl | h
          · exact .inr rfl
          · exact .inl h
      · rcases List.mem_cons.1 h with rfl | h
        · exact .inl (by simp)
        · rcases ih h with h | h
          · exact .inl (by simp [h])
          · exact .inr h

/-- A write of one byte keeps the canonical form. -/
theorem Memory.wf_put {m : Memory} (h : m.wf = true) (a : Nat) (b : Byte) : (m.put a b).wf = true := by
  induction m with
  | nil => by_cases hb : b = unwrittenByte <;> simp [Memory.put, Memory.wf, hb]
  | cons c m ih =>
    have ht := Memory.wf_tail h
    have hl := Memory.wf_lt h
    unfold Memory.put
    split
    · next e =>
      split
      · exact ht
      · next hb => exact Memory.wf_cons hb (fun d hd => e ▸ hl d hd) ht
    · next e =>
      split
      · next lt =>
        split
        · exact h
        · next hb =>
          refine Memory.wf_cons hb (fun d hd => ?_) h
          rcases List.mem_cons.1 hd with rfl | hd
          · exact lt
          · exact Nat.lt_trans lt (hl d hd)
      · next nlt =>
        refine Memory.wf_cons (Memory.wf_head h) (fun d hd => ?_) (ih ht)
        rcases Memory.mem_put hd with hd | hd
        · exact hl d hd
        · omega

/-- A write leaves every other byte alone. -/
theorem Memory.byte_put_other (m : Memory) {a x : Nat} (b : Byte) (h : x ≠ a) : (m.put a b).byte x = m.byte x := by
  induction m with
  | nil => by_cases hb : b = unwrittenByte <;> simp [Memory.put, Memory.byte, hb, Ne.symm h]
  | cons c m ih =>
    unfold Memory.put
    split
    · next e => subst e; split <;> simp [Memory.byte, Ne.symm h]
    · split
      · split <;> simp [Memory.byte, Ne.symm h]
      · simp [Memory.byte, ih]

theorem Memory.byte_unlisted {m : Memory} {a : Nat} (h : ∀ d ∈ m, a < d.1) : m.byte a = unwrittenByte := by
  induction m with
  | nil => rfl
  | cons c m ih =>
    have := h c (by simp)
    have h1 : c.1 ≠ a := by omega
    simp only [Memory.byte, h1, ite_false]
    exact ih (fun d hd => h d (by simp [hd]))

/-- A byte reads as it was written. -/
theorem Memory.byte_put_self {m : Memory} (h : m.wf = true) (a : Nat) (b : Byte) : (m.put a b).byte a = b := by
  induction m with
  | nil => by_cases hb : b = unwrittenByte <;> simp [Memory.put, Memory.byte, hb]
  | cons c m ih =>
    have ht := Memory.wf_tail h
    have hl := Memory.wf_lt h
    unfold Memory.put
    split
    · next e =>
      split
      · next hb => rw [hb]; exact Memory.byte_unlisted (fun d hd => e ▸ hl d hd)
      · simp [Memory.byte]
    · next e =>
      split
      · next lt =>
        split
        · next hb =>
          rw [hb]
          refine Memory.byte_unlisted (fun d hd => ?_)
          rcases List.mem_cons.1 hd with rfl | hd
          · exact lt
          · exact Nat.lt_trans lt (hl d hd)
        · simp [Memory.byte]
      · have : c.1 ≠ a := fun h => e h.symm
        simp [Memory.byte, this, ih ht]

theorem Memory.byte_put {m : Memory} (h : m.wf = true) (a x : Nat) (b : Byte) :
    (m.put a b).byte x = if x = a then b else m.byte x := by
  by_cases e : x = a
  · subst e; simp [Memory.byte_put_self h]
  · simp [e, Memory.byte_put_other m b e]

theorem Memory.wf_write {m : Memory} (h : m.wf = true) (a : Nat) (bs : List Byte) : (m.write a bs).wf = true := by
  induction bs generalizing m a with
  | nil => exact h
  | cons b bs ih => exact ih (Memory.wf_put h a b) (a + 1)

/-- A write of a run of bytes leaves every byte outside the run alone. -/
theorem Memory.byte_write_other (m : Memory) (a x : Nat) (bs : List Byte) (h : x < a ∨ a + bs.length ≤ x) :
    (m.write a bs).byte x = m.byte x := by
  induction bs generalizing m a with
  | nil => rfl
  | cons b bs ih =>
    simp only [List.length_cons] at h
    show ((m.put a b).write (a + 1) bs).byte x = _
    rw [ih (m.put a b) (a + 1) (by omega), Memory.byte_put_other m b (by omega)]

/-- Each byte of a run reads as it was written. -/
theorem Memory.byte_write_self {m : Memory} (h : m.wf = true) (a : Nat) (bs : List Byte) (k : Nat)
    (hk : k < bs.length) : (m.write a bs).byte (a + k) = bs[k] := by
  induction bs generalizing m a k with
  | nil => simp at hk
  | cons b bs ih =>
    show ((m.put a b).write (a + 1) bs).byte (a + k) = _
    cases k with
    | zero => rw [Memory.byte_write_other _ _ _ _ (by omega)]; simpa using Memory.byte_put_self h a b
    | succ k =>
      have := ih (Memory.wf_put h a b) (a + 1) k (by simpa using hk)
      simpa [Nat.add_assoc, Nat.add_comm 1 k] using this

theorem Memory.wf_putNat {m : Memory} (h : m.wf = true) (a n v : Nat) : (m.putNat a n v).wf = true :=
  Memory.wf_write h a _

theorem Memory.wf_mergeLine {m : Memory} (h : m.wf = true) (line : Nat) (d : LineData) (bm : ByteMask) (n k : Nat) :
    (m.mergeLine line d bm n k).wf = true := by
  induction n generalizing m k with
  | zero => exact h
  | succ n ih =>
    unfold Memory.mergeLine
    split
    · exact ih (Memory.wf_put h _ _) _
    · exact ih h _

theorem Memory.wf_putLine {m : Memory} (h : m.wf = true) (line : Nat) (d : LineData) (bm : ByteMask) :
    (m.putLine line d bm).wf = true := Memory.wf_mergeLine h line d bm 128 0

/-- A merge of a line's bytes from place k on: the bytes that the mask selects take the line's data. -/
theorem Memory.byte_mergeLine {m : Memory} (h : m.wf = true) (line : Nat) (d : LineData) (bm : ByteMask) (n k x : Nat) :
    (m.mergeLine line d bm n k).byte x
      = if 128 * line + k ≤ x ∧ x < 128 * line + k + n ∧ bm.getLsbD (x - 128 * line) = true
        then lineByte d (x - 128 * line) else m.byte x := by
  induction n generalizing m k with
  | zero =>
    have : ¬ (128 * line + k ≤ x ∧ x < 128 * line + k + 0 ∧ bm.getLsbD (x - 128 * line) = true) := by omega
    rw [if_neg this]; rfl
  | succ n ih =>
    unfold Memory.mergeLine
    by_cases hb : bm.getLsbD k = true
    · rw [if_pos hb, ih (Memory.wf_put h _ _), Memory.byte_put h]
      by_cases e : x = 128 * line + k
      · subst e
        rw [if_neg (by omega), if_pos rfl, if_pos ⟨by omega, by omega, by simpa using hb⟩]
        simp
      · rw [if_neg e]
        by_cases c : 128 * line + k ≤ x ∧ x < 128 * line + k + (n + 1) ∧ bm.getLsbD (x - 128 * line) = true
        · rw [if_pos c, if_pos ⟨by omega, by omega, c.2.2⟩]
        · rw [if_neg c, if_neg (fun c' => c ⟨by omega, by omega, c'.2.2⟩)]
    · rw [if_neg hb, ih h]
      by_cases e : x = 128 * line + k
      · subst e
        rw [if_neg (by omega), if_neg (fun c => hb (by simpa using c.2.2))]
      · by_cases c : 128 * line + k ≤ x ∧ x < 128 * line + k + (n + 1) ∧ bm.getLsbD (x - 128 * line) = true
        · rw [if_pos c, if_pos ⟨by omega, by omega, c.2.2⟩]
        · rw [if_neg c, if_neg (fun c' => c ⟨by omega, by omega, c'.2.2⟩)]

/-- A line written under a byte mask: its selected bytes, and no other byte of memory. -/
theorem Memory.byte_putLine {m : Memory} (h : m.wf = true) (line : Nat) (d : LineData) (bm : ByteMask) (x : Nat) :
    (m.putLine line d bm).byte x
      = if x / 128 = line ∧ bm.getLsbD (x - 128 * line) = true then lineByte d (x - 128 * line) else m.byte x := by
  rw [Memory.putLine, Memory.byte_mergeLine h]
  by_cases c : x / 128 = line ∧ bm.getLsbD (x - 128 * line) = true
  · rw [if_pos c, if_pos ⟨by omega, by omega, c.2⟩]
  · rw [if_neg c, if_neg (fun c' => c ⟨by omega, c'.2.2⟩)]

end Sys2Proof.Machine
end

