-- ==== Sys2Proof/Laws/Requests.lean ====
section
/-! SUPPORT. What a request can do: leave its core, or arrive at its home slice and there wait, be refused, wait for a
recall, for a place or for a fill, or be performed (R19, R84, R85, R91); and what an instruction does that needs
translations (R69). -/

namespace Sys2Proof.Machine

theorem withPart_part {r : Req} {s : State} {o : Op} {p : Part} {f : Op → Part → State → Out} (h : s.reqPart r = some (o, p)) :
    withPart r s f = f o p s := by
  simp only [State.reqPart, Option.bind_eq_some_iff, Option.map_eq_some_iff, Prod.mk.injEq] at h
  obtain ⟨x, h1, y, h2, rfl, rfl⟩ := h
  simp only [withPart, h1, h2]

theorem request_leaves {r : Req} {e : Instr} {s : State} {o : Op} {p : Part} {k : Op → Part → State → Out}
    (h : s.reqPart r = some (o, p)) (hs : p.sent = false) : request r e s k = .next (leaveCore r e o p s) := by
  simp [request, withPart_part h, hs]

theorem request_arrives {r : Req} {e : Instr} {s : State} {o : Op} {p : Part} {k : Op → Part → State → Out}
    (h : s.reqPart r = some (o, p)) (hs : p.sent = true) : request r e s k = k o p (s.arrive r) := by
  simp [request, withPart_part h, hs]

/-- The request has the line's turn: the line is not busy, and nothing waits in front of it. -/
def Ask.turn (a : Ask) (e : Instr) (s : State) : Bool :=
  (s.sline a.home a.line).state ≠ .busy && (s.sline a.home a.line).waiters.head?.all (fun h => h = e)

theorem turn_guard {a : Ask} {e : Instr} {s : State} :
    ((s.sline a.home a.line).state = .busy || (s.sline a.home a.line).waiters.head?.any (fun h => h ≠ e)) = !a.turn e s := by
  simp only [Ask.turn]
  cases (s.sline a.home a.line).waiters.head? <;> simp

/-- The line's queue with the request in it, and without it. -/
def Ask.wait (a : Ask) (e : Instr) (s : State) : State :=
  s.modSline a.home a.line (fun l => { l with waiters := if l.waiters.contains e then l.waiters else l.waiters ++ [e] })

def Ask.leave (a : Ask) (e : Instr) (s : State) : State :=
  s.modSline a.home a.line (fun l => { l with waiters := l.waiters.erase e })

theorem atSlice_waits {a : Ask} {e : Instr} {s : State} {refuse : State → Option State} {k : State → Out}
    (h : a.turn e s = false) : atSliceWith a e s refuse k = .next (a.wait e s) := by
  simp only [atSliceWith, turn_guard, h, Bool.not_false, if_true, Ask.wait]

theorem atSlice_refused {a : Ask} {e : Instr} {s s' : State} {refuse : State → Option State} {k : State → Out}
    (h : a.turn e s = true) (hr : refuse s = some s') :
    atSliceWith a e s refuse k = .next (afterTurn a.home a.line (a.leave e s')) := by
  simp only [atSliceWith, turn_guard, h, Bool.not_true, Bool.false_eq_true, if_false, hr, Ask.leave]

theorem atSlice_recalls {a : Ask} {e : Instr} {s : State} {refuse : State → Option State} {k : State → Out}
    (h : a.turn e s = true) (hr : refuse s = none) (hc : a.rcl = true) (hu : (s.sline a.home a.line).uo ≠ 0) :
    atSliceWith a e s refuse k = .next (recallCopies a.home a.line (a.wait e s)) := by
  simp only [atSliceWith, turn_guard, h, Bool.not_true, Bool.false_eq_true, if_false, hr, hc, hu, ne_eq, not_false_eq_true,
    decide_true, Bool.and_self, if_true, Ask.wait]

/-- Nothing is to be recalled for the request. -/
def Ask.calm (a : Ask) (s : State) : Bool := !(a.rcl && (s.sline a.home a.line).uo ≠ 0)

theorem atSlice_full {a : Ask} {e : Instr} {s : State} {refuse : State → Option State} {k : State → Out}
    (h : a.turn e s = true) (hr : refuse s = none) (hc : a.calm s = true) (hh : a.hold = true)
    (hi : (s.sline a.home a.line).state = .inv) (hf : 2048 ≤ (s.slice a.home).taken) :
    atSliceWith a e s refuse k = .next (wakeRoom a.home (sliceEvict a.home (a.wait e s))) := by
  simp only [Ask.calm, Bool.not_eq_true'] at hc
  simp only [atSliceWith, turn_guard, h, Bool.not_true, Bool.false_eq_true, if_false, hr, hc]
  simp only [hh, hi, hf, decide_true, Bool.and_self, if_true, Ask.wait]

theorem atSlice_fills {a : Ask} {e : Instr} {s : State} {refuse : State → Option State} {k : State → Out}
    (h : a.turn e s = true) (hr : refuse s = none) (hc : a.calm s = true) (hh : a.hold = true) (hl : a.fill = true)
    (hi : (s.sline a.home a.line).state = .inv) (hf : (s.slice a.home).taken < 2048) :
    atSliceWith a e s refuse k
      = .next ((a.wait e (s.modSline a.home a.line (fun l => { l with state := .busy, first := a.stream }))).push
          [.sliceFillComplete a.home a.line]) := by
  simp only [Ask.calm, Bool.not_eq_true'] at hc
  simp only [atSliceWith, turn_guard, h, Bool.not_true, Bool.false_eq_true, if_false, hr, hc]
  simp only [hh, hl, hi, Nat.not_le.mpr hf, decide_true, decide_false, Bool.and_self, Bool.and_false, if_true, Bool.false_eq_true,
    if_false, Ask.wait]

theorem atSlice_performs {a : Ask} {e : Instr} {s : State} {refuse : State → Option State} {k : State → Out}
    (h : a.turn e s = true) (hr : refuse s = none) (hc : a.calm s = true)
    (hi : a.hold = false ∨ (s.sline a.home a.line).state ≠ .inv) :
    atSliceWith a e s refuse k = (match k (if a.note then noteHome a.home a.line (a.leave e s) else a.leave e s) with
      | .next s => .next (afterTurn a.home a.line s)
      | o => o) := by
  have hn : (a.hold && decide ((s.sline a.home a.line).state = .inv)) = false := by
    rcases hi with hi | hi <;> simp [hi]
  have hm : (a.hold && a.fill && decide ((s.sline a.home a.line).state = .inv)) = false := by
    rcases hi with hi | hi <;> simp [hi]
  simp only [Ask.calm, Bool.not_eq_true'] at hc
  simp only [atSliceWith, turn_guard, h, Bool.not_true, Bool.false_eq_true, if_false, hr, hc, hn, hm, Bool.false_and, Ask.leave]
  all_goals rfl

/-! ## Events that make requests of their own -/

/-- An event whose replies have all arrived has its effect. -/
theorem journey_home {e : Instr} {q : Requester} {stops : List Stop} {look : Trip → State → Out} {home : List Trip → State → Out}
    {s : State} (h : allBack (s.tripsOf e) stops = true) :
    journey e q stops look home s = home (s.tripsOf e) (s.endTrips e) := by
  simp only [journey, h, if_true]

/-- An event that makes no request has its effect. -/
theorem journey_none {e : Instr} {q : Requester} {look : Trip → State → Out} {home : List Trip → State → Out} {s : State} :
    journey e q [] look home s = home (s.tripsOf e) (s.endTrips e) := journey_home (by simp [allBack])

/-- Before that, it takes one of the steps that its requests may take, whichever comes next, and stands in the agenda again. -/
theorem journey_act {e : Instr} {q : Requester} {stops : List Stop} {look : Trip → State → Out} {home : List Trip → State → Out}
    {s : State} {a : Act} (h : allBack (s.tripsOf e) stops = false)
    (ha : (actsOf s e q stops)[(s.choose (actsOf s e q stops).length).1]? = some a) :
    journey e q stops look home s =
      (let s' := (s.choose (actsOf s e q stops).length).2
       match a with
        | .leave x => .next ((s'.depart e q [x]).push [e])
        | .go t => match look t (s'.modTrip t.id (fun x => { x with stage := .there })) with
          | .next s => .next (s.push [e])
          | o => o) := by
  simp only [journey, h, Bool.false_eq_true, if_false, ha]
  cases a <;> rfl

/-- An event that has a result for each page that it needs goes on. -/
theorem withPins_there {e : Instr} {q : Requester} {core ctx : Nat} {vas : List Dword} {s : State} {k : State → Out}
    (h : unpinned s e ctx vas = []) : withPins e q core ctx vas s k = k s := by
  simp only [withPins, h]

theorem withPages_there {c : Cx} {vas : List Dword} {s : State} {k : State → Out}
    (h : pagesMissing s c.split.held c.core c.ctx vas = []) : withPages c vas s k = k s := by
  simp only [withPages, h]

theorem withPages_waits {c : Cx} {vas : List Dword} {s : State} {k : State → Out}
    (h : pagesMissing s c.split.held c.core c.ctx vas ≠ []) :
    withPages c vas s k = .next (waitPages c (pagesMissing s c.split.held c.core c.ctx vas) s) := by
  unfold withPages
  split
  · next hp => exact absurd hp h
  · rfl

end Sys2Proof.Machine
end

