-- ==== Sys2Proof/Laws/Translate.lean ====
section
/-! SUPPORT. What translation depends on (R60 to R69): the page of an address, and the entries of memory that a walk reads;
and how the bytes of a warp's locket area follow one another (R221, R388). -/

namespace Sys2Proof.Machine

/-! ## One page, one translation -/

theorem div_of_page {a b n : Nat} (h : a / 65536 = b / 65536) (k : Nat) (hn : n = 65536 * k) : a / n = b / n := by
  subst hn; rw [← Nat.div_div_eq_div_mul, ← Nat.div_div_eq_div_mul, h]

theorem page_dvd (level : Nat) : 2 ^ pageBits level = 65536 * 2 ^ (13 * (level - 1)) := by
  rw [pageBits, Nat.pow_add]

theorem vaIndex_page {va vb : Dword} (h : va.toNat / 65536 = vb.toNat / 65536) (level : Nat) :
    vaIndex va level = vaIndex vb level := by
  exact congrArg (· % 8192) (div_of_page h _ (page_dvd level))

theorem canonical_page {va vb : Dword} (h : va.toNat / 65536 = vb.toNat / 65536) :
    va.extractLsb' 55 9 = vb.extractLsb' 55 9 := by
  apply BitVec.eq_of_toNat_eq
  simp only [BitVec.extractLsb'_toNat, Nat.shiftRight_eq_div_pow]
  rw [div_of_page h (2 ^ 39) (by norm_num)]

theorem walkFrom_page (s : State) {va vb : Dword} (h : va.toNat / 65536 = vb.toNat / 65536) :
    ∀ level table, walkFrom s va level table = walkFrom s vb level table
  | 0, _ => rfl
  | level + 1, table => by
    simp only [walkFrom, readPte, vaIndex_page h, walkFrom_page s h level]

theorem walk_page (s : State) (ctx : Nat) {va vb : Dword} (h : va.toNat / 65536 = vb.toNat / 65536) :
    walk s ctx va = walk s ctx vb := by
  simp only [walk, canonical_page h, walkFrom_page s h]

theorem tlbHit_page (tlb : List TlbEntry) (ctx : Nat) {va vb : Dword} (h : va.toNat / 65536 = vb.toNat / 65536) :
    tlbHit tlb ctx va = tlbHit tlb ctx vb := by
  simp only [tlbHit, div_of_page h _ (page_dvd _)]

theorem walkHits_page (s : State) (die ctx : Nat) {va vb : Dword} (h : va.toNat / 65536 = vb.toNat / 65536) :
    walkHits s die ctx va = walkHits s die ctx vb := by
  simp only [walkHits, div_of_page h _ (page_dvd _), walkFrom_page s h]

/-- Addresses of one page have one translation. -/
theorem lookup_page (s : State) (core ctx k : Nat) {va vb : Dword} (h : va.toNat / 65536 = vb.toNat / 65536) :
    lookup s core ctx va k = lookup s core ctx vb k := by
  simp only [lookup, walk_page s ctx h, canonical_page h, tlbHit_page _ ctx h, walkHits_page s _ ctx h]

/-- An access without a translation held looks its page up, then asks for its permission, then places the address. -/
theorem translate_eq (s : State) (core ctx : Nat) (a : Agent) (store : Bool) (va : Dword) (k : Nat) :
    translate s core ctx a store va k = (match lookup s core ctx va k with
      | .error f => .error f
      | .ok t => match permFault a store t with
        | some c => .error ⟨c, 0⟩
        | none => place t va) := rfl

/-! ## What a walk reads -/

theorem nat_congr {m m' : Memory} {a n : Nat} (h : ∀ k, k < n → m.byte (a + k) = m'.byte (a + k)) : m.nat a n = m'.nat a n := by
  simp only [Memory.nat, Memory.read]
  congr 1
  exact List.map_congr_left (fun k hk => h k (List.mem_range.mp hk))

/-! ## The area of a warp's lockets -/

/-- What lies within 16 KiB of an aligned address has its quotients. -/
theorem div_area {a k n : Nat} (h : a % 16384 = 0) (hk : k < 16384) (j : Nat) (hn : n = 16384 * j) : (a + k) / n = a / n := by
  subst hn
  rw [← Nat.div_div_eq_div_mul, ← Nat.div_div_eq_div_mul]
  congr 1
  omega

theorem owningDie_area {pa k : Nat} (h : pa % 16384 = 0) (hk : k < 16384) : owningDie (pa + k) = owningDie pa := by
  have h1 : (2 ^ 40 ≤ pa + k) ↔ 2 ^ 40 ≤ pa := by omega
  unfold owningDie
  by_cases hc : 2 ^ 40 ≤ pa
  · rw [if_pos hc, if_pos (h1.mpr hc), show pa + k - 2 ^ 40 = pa - 2 ^ 40 + k by omega,
      div_area (by omega) hk (2 ^ 24) (by norm_num)]
  · rw [if_neg hc, if_neg (fun x => hc (h1.mp x)), div_area h hk (2 ^ 22) (by norm_num)]

theorem inFar_area {pa k : Nat} (h : pa % 16384 = 0) (hk : k < 16384) : inFar (pa + k) = inFar pa := by
  simp only [inFar]; congr 1 <;> simp only [decide_eq_decide] <;> omega

theorem isHole_area {pa k : Nat} (h : pa % 16384 = 0) (hk : k < 16384) : isHole (pa + k) = isHole pa := by
  have h1 : (pa + k) % 2 ^ 36 = pa % 2 ^ 36 + k := by
    have := div_area (n := 2 ^ 36) h hk (2 ^ 22) (by norm_num)
    omega
  have h2 : inNear (pa + k) = inNear pa := by
    obtain ⟨a, ha⟩ : ∃ a, pa = 16384 * a := ⟨pa / 16384, by omega⟩
    obtain ⟨b, hb⟩ : ∃ b, pa % 2 ^ 36 = 16384 * b := ⟨pa % 2 ^ 36 / 16384, by omega⟩
    rw [inNear, inNear, h1, Bool.eq_iff_iff, hb, ha]
    have hg : gib24 = 16384 * 1572864 := by norm_num [gib24]
    simp only [hg, Bool.and_eq_true, decide_eq_true_eq]
    constructor <;> rintro ⟨x, y⟩ <;> constructor <;> omega
  simp only [isHole, inFar_area h hk, h2]

/-- A page marked for images has an aligned area of 16 KiB whole at one slice. -/
theorem homeSlice_area {pa k : Nat} (h : pa % 16384 = 0) (hk : k < 16384) (policy : Nat) :
    homeSlice (pa + k) policy true = homeSlice pa policy true := by
  have h1 : (pa + k) / 128 % 2 ^ 45 - (pa + k) / 128 % 2 ^ 45 % 128 = pa / 128 % 2 ^ 45 - pa / 128 % 2 ^ 45 % 128 := by
    have h2 : (pa + k) / 128 / 128 = pa / 128 / 128 := by
      rw [Nat.div_div_eq_div_mul, Nat.div_div_eq_div_mul, div_area h hk 1 rfl]
    omega
  simp only [homeSlice, if_true, h1, owningDie_area h hk]

/-- The bytes of a locket area follow its first byte, at one home slice (R221). -/
theorem imgPhys_area {s : State} {core ctx : Nat} {va : Dword} {p : Phys} (h : imgPhys s core ctx va = some p)
    (hv : va.toNat % 16384 = 0) (hp : p.pa % 16384 = 0) {k : Nat} (hk : k < 16384) :
    imgPhys s core ctx (va + BitVec.ofNat 64 k) = some { p with pa := p.pa + k } := by
  have hn : (va + BitVec.ofNat 64 k).toNat = va.toNat + k := by
    have := va.isLt
    rw [BitVec.toNat_add, BitVec.toNat_ofNat, Nat.mod_eq_of_lt (show k < 2 ^ 64 by omega), Nat.mod_eq_of_lt (by omega)]
  have hpage : (va + BitVec.ofNat 64 k).toNat / 65536 = va.toNat / 65536 := by
    rw [hn, div_area hv hk 4 (by norm_num)]
  simp only [imgPhys, translate_eq, lookup_page s core ctx 0 hpage] at h ⊢
  have hoff : ∀ level, (va.toNat + k) % 2 ^ pageBits level = va.toNat % 2 ^ pageBits level + k := by
    intro level
    have h1 : (2 ^ pageBits level) = 16384 * (4 * 2 ^ (13 * (level - 1))) := by rw [page_dvd]; ring
    have h2 := div_area hv hk _ h1
    have h3 := Nat.div_add_mod (va.toNat + k) (2 ^ pageBits level)
    have h4 := Nat.div_add_mod va.toNat (2 ^ pageBits level)
    rw [h2] at h3
    omega
  cases hl : lookup s core ctx va 0 with
  | error f => simp [hl] at h
  | ok t =>
    simp only [hl] at h ⊢
    cases hf : permFault .image false t with
    | some c => simp [hf] at h
    | none =>
      have hc : t.ctx = true := by
        cases hx : t.ctx
        · simp [permFault, hx] at hf
        · rfl
      simp only [hf, place, hn, hoff] at h ⊢
      have hs : ∀ x, t.page + (va.toNat % 2 ^ pageBits t.level + x) = t.page + va.toNat % 2 ^ pageBits t.level + x :=
        fun x => (Nat.add_assoc _ _ x).symm
      rw [hs]
      cases hd : t.node with
      | some n => simp [hd] at h
      | none =>
        simp only [hd, Option.isSome_none, Bool.false_eq_true, if_false] at h ⊢
        cases hh : isHole (t.page + va.toNat % 2 ^ pageBits t.level) with
        | true => simp [hh] at h
        | false =>
          cases he : effPolicy (t.page + va.toNat % 2 ^ pageBits t.level) t.home with
          | none => simp [hh, he] at h
          | some pol =>
            simp only [hh, he, hd, Option.isSome_none, Bool.false_eq_true, if_false, Option.some.injEq] at h
            subst h
            have he' : effPolicy (t.page + va.toNat % 2 ^ pageBits t.level + k) t.home = some pol := by
              rw [← he, effPolicy, effPolicy, inFar_area hp hk]
            simp only [isHole_area hp hk, hh, he', hc,
              homeSlice_area hp hk, hd, Option.isSome_none, Bool.false_eq_true, if_false]

end Sys2Proof.Machine
end

