-- ==== Sys2Proof/Laws/Write.lean ====
section
/-! SUPPORT. Writing registers and predicates: each write is a change of the issuing warp, and what its registers hold
afterwards. -/

namespace Sys2Proof.Machine

/-! ## Lanes -/

theorem mem_lanesOf {m : Mask} {l : Nat} : l ∈ lanesOf m ↔ l < 64 ∧ m.getLsbD l = true := by
  simp [lanesOf]

theorem lowLane_some {m : Mask} {l : Nat} (h : lowLane m = some l) : l < 64 ∧ m.getLsbD l = true := by
  unfold lowLane at h
  have h1 := List.mem_of_find?_eq_some h
  have h2 := List.find?_some h
  exact ⟨by simpa using h1, h2⟩

theorem lowLane_isSome {m : Mask} (h : m ≠ 0) : ∃ l, lowLane m = some l := by
  cases e : lowLane m with
  | some l => exact ⟨l, rfl⟩
  | none =>
    exfalso
    apply h
    unfold lowLane at e
    rw [List.find?_eq_none] at e
    apply BitVec.eq_of_getLsbD_eq
    intro i hi
    have := e i (by simpa using hi)
    simpa using this

theorem laneBit_getLsbD (l k : Nat) : (laneBit l).getLsbD k = decide (k < 64 ∧ l = k) := by
  simp only [laneBit, BitVec.getLsbD_ofNat, Nat.testBit_two_pow]
  simp

theorem getLsbD_foldl_lanes (p : Nat → Bool) (ls : List Nat) (a : Mask) (k : Nat) :
    (ls.foldl (fun acc l => if p l then acc ||| laneBit l else acc) a).getLsbD k
      = (a.getLsbD k || (decide (k < 64) && ls.contains k && p k)) := by
  induction ls generalizing a with
  | nil => simp
  | cons l ls ih =>
    rw [List.foldl_cons, ih, List.contains_cons]
    by_cases hp : p l = true
    · rw [if_pos hp, BitVec.getLsbD_or, laneBit_getLsbD]
      by_cases hl : k = l
      · subst hl; cases a.getLsbD k <;> simp +contextual [hp]
      · have : (k == l) = false := by simpa using hl
        simp only [this, Bool.false_or, Ne.symm hl, and_false, decide_false, Bool.or_false]
    · rw [if_neg hp]
      by_cases hl : k = l
      · subst hl; simp [hp]
      · have : (k == l) = false := by simpa using hl
        simp only [this, Bool.false_or]

/-- A lane is in the mask of those that satisfy p. -/
theorem lanesWhere_getLsbD (m : Mask) (p : Nat → Bool) (l : Nat) :
    (lanesWhere m p).getLsbD l = (m.getLsbD l && p l) := by
  unfold lanesWhere
  rw [getLsbD_foldl_lanes]
  by_cases h : l < 64
  · cases hm : m.getLsbD l
    · have : l ∉ lanesOf m := fun c => by simp [mem_lanesOf, hm] at c
      simp [this]
    · have : l ∈ lanesOf m := mem_lanesOf.2 ⟨h, hm⟩
      simp [this, h]
  · have : m.getLsbD l = false := BitVec.getLsbD_of_ge _ _ (by omega)
    simp [h, this]

/-! ## Rows -/

/-- A row with the lanes of m written. -/
def Row.putLanes (r : Row) (m : Mask) (f : Nat → Word) : Row :=
  (lanesOf m).foldl (fun r l => r.putLane l (f l)) { r with full := true }

theorem Row.lane_putLane (r : Row) (l k : Nat) (v : Word) : (r.putLane l v).lane k = if k = l then v else r.lane k := by
  unfold Row.lane Row.putLane
  by_cases h : k = l <;> simp [Tab.find?_set, h]

theorem Row.full_foldl (ls : List Nat) (f : Nat → Word) (r : Row) :
    (ls.foldl (fun r l => r.putLane l (f l)) r).full = r.full := by
  induction ls generalizing r with
  | nil => rfl
  | cons l ls ih => rw [List.foldl_cons, ih]; rfl

theorem Row.lane_foldl (ls : List Nat) (f : Nat → Word) (r : Row) (k : Nat) :
    (ls.foldl (fun r l => r.putLane l (f l)) r).lane k = if k ∈ ls then f k else r.lane k := by
  induction ls generalizing r with
  | nil => simp
  | cons l ls ih =>
    rw [List.foldl_cons, ih, Row.lane_putLane]
    by_cases h : k ∈ ls
    · simp [h]
    · by_cases h2 : k = l <;> simp [h, h2]

@[simp] theorem Row.full_putLanes (r : Row) (m : Mask) (f : Nat → Word) : (r.putLanes m f).full = true :=
  Row.full_foldl _ _ _

theorem Row.lane_putLanes (r : Row) (m : Mask) (f : Nat → Word) (l : Nat) (h : l < 64) :
    (r.putLanes m f).lane l = if m.getLsbD l then f l else r.lane l := by
  rw [Row.putLanes, Row.lane_foldl]
  by_cases hm : m.getLsbD l = true <;> simp [mem_lanesOf, h, hm, Row.lane]

/-! ## A warp's registers -/

def Warp.putRow (w : Warp) (k : Nat) (m : Mask) (f : Nat → Word) : Warp :=
  { w with rows := w.rows.set k ((w.row k).putLanes m f) }

def Warp.putS (w : Warp) (n : Nat) (v : Dword) : Warp := { w with sregs := w.sregs.set n ⟨true, v⟩ }

def Warp.putPred (w : Warp) (p : Nat) (m v : Mask) : Warp :=
  if p = 0 then w else { w with preds := w.preds.set p ((w.preds.get 0 p &&& ~~~ m) ||| (v &&& m)) }

theorem Warp.row_putRow (w : Warp) (k j : Nat) (m : Mask) (f : Nat → Word) :
    (w.putRow k m f).row j = if j = k then (w.row k).putLanes m f else w.row j := Tab.get_set _ _ _ _ _

theorem Warp.sreg_putS (w : Warp) (k j : Nat) (v : Dword) :
    (w.putS k v).sreg j = if j = k then ⟨true, v⟩ else w.sreg j := Tab.get_set _ _ _ _ _

@[simp] theorem Warp.sreg_putRow (w : Warp) (k j : Nat) (m : Mask) (f : Nat → Word) :
    (w.putRow k m f).sreg j = w.sreg j := rfl
@[simp] theorem Warp.row_putS (w : Warp) (k j : Nat) (v : Dword) : (w.putS k v).row j = w.row j := rfl
@[simp] theorem Warp.pred_putRow (w : Warp) (k j : Nat) (m : Mask) (f : Nat → Word) :
    (w.putRow k m f).pred j = w.pred j := rfl
@[simp] theorem Warp.pred_putS (w : Warp) (k j : Nat) (v : Dword) : (w.putS k v).pred j = w.pred j := rfl
@[simp] theorem Warp.bare_putRow (w : Warp) (k : Nat) (m : Mask) (f : Nat → Word) : (w.putRow k m f).bare = w.bare := rfl
@[simp] theorem Warp.bare_putS (w : Warp) (k : Nat) (v : Dword) : (w.putS k v).bare = w.bare := rfl
@[simp] theorem Warp.splits_putRow (w : Warp) (k : Nat) (m : Mask) (f : Nat → Word) :
    (w.putRow k m f).splits = w.splits := rfl
@[simp] theorem Warp.splits_putS (w : Warp) (k : Nat) (v : Dword) : (w.putS k v).splits = w.splits := rfl
@[simp] theorem Warp.bare_putPred (w : Warp) (p : Nat) (m v : Mask) : (w.putPred p m v).bare = w.bare := by
  unfold Warp.putPred; split <;> rfl
@[simp] theorem Warp.splits_putPred (w : Warp) (p : Nat) (m v : Mask) : (w.putPred p m v).splits = w.splits := by
  unfold Warp.putPred; split <;> rfl
@[simp] theorem Warp.row_putPred (w : Warp) (p k : Nat) (m v : Mask) : (w.putPred p m v).row k = w.row k := by
  unfold Warp.putPred; split <;> rfl
@[simp] theorem Warp.sreg_putPred (w : Warp) (p k : Nat) (m v : Mask) : (w.putPred p m v).sreg k = w.sreg k := by
  unfold Warp.putPred; split <;> rfl

theorem Warp.pred_putPred (w : Warp) (p q : Nat) (m v : Mask) (h : q ≠ p) : (w.putPred p m v).pred q = w.pred q := by
  unfold Warp.putPred
  split
  · rfl
  · simp [Warp.pred, Tab.get_set, h]

theorem Warp.pred_putPred_self (w : Warp) (p : Nat) (m v : Mask) (h : p ≠ 0) (l : Nat) :
    ((w.putPred p m v).pred p).getLsbD l = if m.getLsbD l then v.getLsbD l else (w.pred p).getLsbD l := by
  have e : (w.putPred p m v).pred p = (w.pred p &&& ~~~ m) ||| (v &&& m) := by
    simp [Warp.putPred, Warp.pred, h]
  rw [e, BitVec.getLsbD_or, BitVec.getLsbD_and, BitVec.getLsbD_and, BitVec.getLsbD_not]
  by_cases hl : l < 64
  · cases m.getLsbD l <;> simp [hl]
  · rw [BitVec.getLsbD_of_ge m l (by omega), BitVec.getLsbD_of_ge (w.pred p) l (by omega)]
    simp

/-! ## Writes of the state are writes of the issuing warp -/

theorem writeRow_eq (w : WarpRef) (k : Nat) (m : Mask) (f : Nat → Word) (s : State) :
    writeRow w k m f s = s.modWarp w (fun v => v.putRow k m f) := rfl

theorem writeS_eq (w : WarpRef) (n : Nat) (v : Dword) (s : State) : writeS w n v s = s.modWarp w (fun x => x.putS n v) :=
  rfl

/-- A predicate written after another write of the same warp. -/
theorem writePred_modWarp (w : WarpRef) (p : Nat) (m v : Mask) (f : Warp → Warp) (s : State) :
    writePred w p m v (s.modWarp w f) = s.modWarp w (fun x => (f x).putPred p m v) := by
  unfold writePred
  by_cases h : p = 0
  · have : (fun x => (f x).putPred p m v) = f := by funext x; simp [Warp.putPred, h]
    rw [if_pos h, this]
  · rw [if_neg h, State.modWarp_modWarp]
    have : (fun x => (f x).putPred p m v)
        = fun v' => { f v' with preds := (f v').preds.set p (((f v').preds.get 0 p &&& ~~~ m) ||| (v &&& m)) } := by
      funext x; simp [Warp.putPred, h]
    rw [this]

theorem writePred_eq {p : Nat} (h : p ≠ 0) (w : WarpRef) (m v : Mask) (s : State) :
    writePred w p m v s = s.modWarp w (fun x => x.putPred p m v) := by
  have : (fun x => Warp.putPred x p m v)
      = fun x => { x with preds := x.preds.set p ((x.preds.get 0 p &&& ~~~ m) ||| (v &&& m)) } := by
    funext x; simp [Warp.putPred, h]
  rw [writePred, if_neg h, this]

/-- A 32- or 64-bit result written to a destination field, as a change of the warp. -/
def Warp.putDst (c : Cx) (d n : Nat) (signed : Bool) (m : Mask) (r : Nat → Nat) (w : Warp) : Warp :=
  if n = 2 then
    match c.preg d, c.preg (d + 1) with
    | .row k, .row k' =>
      (w.putRow k m (fun l => (BitVec.ofNat 64 (r l)).setWidth 32)).putRow k' m
        (fun l => (BitVec.ofNat 64 (r l)).extractLsb' 32 32)
    | .s j, _ => w.putS j (BitVec.ofNat 64 (r ((lowLane m).getD 0)))
    | .row k, .s _ => w.putRow k m (fun l => (BitVec.ofNat 64 (r l)).setWidth 32)
  else
    match c.preg d with
    | .row k => w.putRow k m (fun l => BitVec.ofNat 32 (r l))
    | .s j => w.putS j (sOf32 signed (BitVec.ofNat 32 (r ((lowLane m).getD 0))))

theorem vPut_eq (c : Cx) (f : VF) (m : Mask) (n : Nat) (signed : Bool) (r : Nat → Nat) (s : State) :
    vPut c f m n signed r s = s.modWarp c.wref (Warp.putDst c f.d.toNat n signed m r) := by
  unfold vPut writeDst64 writeDst32
  split
  · next hn =>
    subst hn
    split
    · next k k' h1 h2 =>
      rw [writeRow_eq, writeRow_eq, State.modWarp_modWarp]
      congr 1; funext w; simp [Warp.putDst, h1, h2]
    · next j h1 =>
      rw [writeS_eq]; congr 1; funext w; simp [Warp.putDst, h1]
    · next k j h1 h2 =>
      rw [writeRow_eq]; congr 1; funext w; simp [Warp.putDst, h1, h2]
  · next hn =>
    split
    · next k h1 => rw [writeRow_eq]; congr 1; funext w; simp [Warp.putDst, hn, h1]
    · next j h1 => rw [writeS_eq]; congr 1; funext w; simp [Warp.putDst, hn, h1]

@[simp] theorem Warp.bare_putDst (c : Cx) (d n : Nat) (sg : Bool) (m : Mask) (r : Nat → Nat) (w : Warp) :
    (w.putDst c d n sg m r).bare = w.bare := by
  unfold Warp.putDst; split <;> split <;> simp
@[simp] theorem Warp.splits_putDst (c : Cx) (d n : Nat) (sg : Bool) (m : Mask) (r : Nat → Nat) (w : Warp) :
    (w.putDst c d n sg m r).splits = w.splits := by
  unfold Warp.putDst; split <;> split <;> simp
@[simp] theorem Warp.pred_putDst (c : Cx) (d n : Nat) (sg : Bool) (m : Mask) (r : Nat → Nat) (w : Warp) (p : Nat) :
    (w.putDst c d n sg m r).pred p = w.pred p := by
  unfold Warp.putDst; split <;> split <;> simp

/-! ## What the destination holds -/

/-- Two neighbouring registers of an aligned pair are two rows of the warp. -/
theorem preg_pair_rows {c : Cx} {d : Nat} (hr : 2 ≤ c.ring) (hv : isVec d = true) (ha : d % 2 = 0) :
    ∃ k k', c.preg d = .row k ∧ c.preg (d + 1) = .row k' ∧ k ≠ k' := by
  have hd : d < 640 := by simpa [isVec] using hv
  by_cases h : d < 512
  · have h1 : d + 1 < 512 := by omega
    refine ⟨(c.path.b + d) % max 1 c.ring, (c.path.b + (d + 1)) % max 1 c.ring, if_pos h, if_pos h1, ?_⟩
    have hm : max 1 c.ring = c.ring := by omega
    rw [hm, ← Nat.add_assoc]
    generalize c.path.b + d = x
    intro e
    have h3 := Nat.mod_lt x (show 0 < c.ring by omega)
    rw [Nat.add_mod] at e
    have h1' : 1 % c.ring = 1 := Nat.mod_eq_of_lt (by omega)
    rw [h1'] at e
    rcases Nat.lt_or_ge (x % c.ring + 1) c.ring with hlt | hge
    · rw [Nat.mod_eq_of_lt hlt] at e; omega
    · have : x % c.ring + 1 = c.ring := by omega
      rw [this, Nat.mod_self] at e; omega
  · have h1 : ¬ d + 1 < 512 := by omega
    have h2 : d + 1 < 640 := by omega
    refine ⟨c.ring + (d - 512), c.ring + (d + 1 - 512), by rw [Cx.preg, if_neg h, if_pos hd],
      by rw [Cx.preg, if_neg h1, if_pos h2], ?_⟩
    omega

theorem preg_vec {c : Cx} {d : Nat} (hv : isVec d = true) : ∃ k, c.preg d = .row k := by
  have hd : d < 640 := by simpa [isVec] using hv
  unfold Cx.preg
  by_cases h : d < 512
  · rw [if_pos h]; exact ⟨_, rfl⟩
  · rw [if_neg h, if_pos hd]; exact ⟨_, rfl⟩

theorem preg_scalar {c : Cx} {d : Nat} (hv : isVec d = false) : c.preg d = .s (d - 640) := by
  have hd : ¬ d < 640 := by simpa [isVec] using hv
  unfold Cx.preg
  rw [if_neg (by omega), if_neg hd]

theorem split64 (x : Nat) :
    ((BitVec.ofNat 64 x).setWidth 32).toNat + 2 ^ 32 * ((BitVec.ofNat 64 x).extractLsb' 32 32).toNat = x % 2 ^ 64 := by
  simp only [BitVec.toNat_setWidth, BitVec.toNat_ofNat, BitVec.extractLsb'_toNat, Nat.shiftRight_eq_div_pow]
  omega

theorem took_putDst {c : Cx} {d n : Nat} {sg : Bool} {m : Mask} {r : Nat → Nat} (hn : n = 1 ∨ n = 2)
    (ha : n = 2 → 2 ≤ c.ring ∧ (isVec d = true → d % 2 = 0)) :
    c.took (c.warp.putDst c d n sg m r) d n sg m r := by
  rcases hn with rfl | rfl
  · -- one word
    cases hv : isVec d with
    | true =>
      obtain ⟨k, hk⟩ := preg_vec (c := c) hv
      have e : c.warp.putDst c d 1 sg m r = c.warp.putRow k m (fun l => BitVec.ofNat 32 (r l)) := by
        simp [Warp.putDst, hk]
      rw [e]
      refine ⟨?_, fun _ l hl => ?_, fun h => by simp [hv] at h⟩
      · intro p hp
        have : p = .row k := by simpa [Cx.pregs, regsOf, hv, hk] using hp
        subst this
        simp [Warp.full, Warp.row_putRow]
      · simp only [Cx.value, hk, Warp.row_putRow, ite_true, Row.lane_putLanes _ _ _ _ hl]
        cases hm : m.getLsbD l <;> simp
    | false =>
      have hk := preg_scalar (c := c) hv
      have e : c.warp.putDst c d 1 sg m r
          = c.warp.putS (d - 640) (sOf32 sg (BitVec.ofNat 32 (r ((lowLane m).getD 0)))) := by
        simp [Warp.putDst, hk]
      rw [e]
      refine ⟨?_, fun h => by simp [hv] at h, fun _ l hl => ?_⟩
      · intro p hp
        have : p = .s (d - 640) := by simpa [Cx.pregs, regsOf, hv, hk] using hp
        subst this
        simp [Warp.full, Warp.sreg_putS]
      · simp only [Cx.value, hk, Warp.sreg_putS, ite_true, hl, Option.getD_some]
        cases sg
        · simp only [sOf32, Bool.false_eq_true, ite_false, BitVec.toNat_setWidth, BitVec.toNat_ofNat]
          simp
          omega
        · simp [sOf32]
  · obtain ⟨hr, ha⟩ := ha rfl
    cases hv : isVec d with
    | true =>
      obtain ⟨k, k', hk, hk', hne⟩ := preg_pair_rows (c := c) hr hv (ha hv)
      have e : c.warp.putDst c d 2 sg m r
          = (c.warp.putRow k m (fun l => (BitVec.ofNat 64 (r l)).setWidth 32)).putRow k' m
              (fun l => (BitVec.ofNat 64 (r l)).extractLsb' 32 32) := by
        simp [Warp.putDst, hk, hk']
      rw [e]
      refine ⟨?_, fun _ l hl => ?_, fun h => by simp [hv] at h⟩
      · intro p hp
        have : p = .row k ∨ p = .row k' := by
          have := hp
          simp only [Cx.pregs, regsOf, hv, ite_true, List.map_map, List.mem_map, List.mem_range] at this
          obtain ⟨i, hi, rfl⟩ := this
          rcases (show i = 0 ∨ i = 1 by omega) with rfl | rfl
          · left; simpa using hk
          · right; simpa using hk'
        rcases this with rfl | rfl
        · simp [Warp.full, Warp.row_putRow, hne]
        · simp [Warp.full, Warp.row_putRow]
      · simp only [Cx.value, hk, hk', Warp.row_putRow, ite_true, hne, ite_false, Ne.symm hne,
          Row.lane_putLanes _ _ _ _ hl]
        cases hm : m.getLsbD l
        · simp
        · simp only [ite_true]
          exact split64 (r l)
    | false =>
      have hk := preg_scalar (c := c) hv
      have e : c.warp.putDst c d 2 sg m r = c.warp.putS (d - 640) (BitVec.ofNat 64 (r ((lowLane m).getD 0))) := by
        simp [Warp.putDst, hk]
      rw [e]
      refine ⟨?_, fun h => by simp [hv] at h, fun _ l hl => ?_⟩
      · intro p hp
        have : p = .s (d - 640) := by simpa [Cx.pregs, regsOf, hv, hk] using hp
        subst this
        simp [Warp.full, Warp.sreg_putS]
      · simp [Cx.value, hk, Warp.sreg_putS, hl]

/-- The registers outside the destination keep what they held. -/
theorem row_putDst_other {c : Cx} {d n : Nat} {sg : Bool} {m : Mask} {r : Nat → Nat} {k : Nat}
    (h : PReg.row k ∉ c.pregs d n) (hn : n = 1 ∨ n = 2) (w : Warp) : (w.putDst c d n sg m r).row k = w.row k := by
  rcases hn with rfl | rfl
  · have h0 : c.preg d ≠ .row k := by
      intro e; apply h; cases hv : isVec d <;> simp [Cx.pregs, regsOf, hv, e]
    unfold Warp.putDst
    rw [if_neg (by decide)]
    split
    · next j hj =>
      rw [Warp.row_putRow, if_neg]
      rintro rfl; exact h0 hj
    · rfl
  · have h0 : c.preg d ≠ .row k := by
      intro e; apply h; cases hv : isVec d <;> simp [Cx.pregs, regsOf, hv, e, List.range_succ]
    unfold Warp.putDst
    rw [if_pos rfl]
    split
    · next j j' hj hj' =>
      have hv : isVec d = true := by
        cases hv : isVec d with
        | true => rfl
        | false => rw [preg_scalar hv] at hj; simp at hj
      have h1 : c.preg (d + 1) ≠ .row k := by
        intro e; apply h; simp [Cx.pregs, regsOf, hv, e, List.range_succ]
      rw [Warp.row_putRow, if_neg (by rintro rfl; exact h1 hj'), Warp.row_putRow, if_neg (by rintro rfl; exact h0 hj)]
    · rfl
    · next j hj hj' => rw [Warp.row_putRow, if_neg (by rintro rfl; exact h0 hj)]

theorem sreg_putDst_other {c : Cx} {d n : Nat} {sg : Bool} {m : Mask} {r : Nat → Nat} {k : Nat}
    (h : PReg.s k ∉ c.pregs d n) (hn : n = 1 ∨ n = 2) (w : Warp) : (w.putDst c d n sg m r).sreg k = w.sreg k := by
  have h0 : c.preg d ≠ .s k := by
    intro e; apply h
    rcases hn with rfl | rfl <;> cases hv : isVec d <;> simp [Cx.pregs, regsOf, hv, e, List.range_succ]
  unfold Warp.putDst
  rcases hn with rfl | rfl
  · rw [if_neg (by decide)]
    split
    · rfl
    · next j hj => rw [Warp.sreg_putS, if_neg (by rintro rfl; exact h0 hj)]
  · rw [if_pos rfl]
    split
    · rfl
    · next j hj => rw [Warp.sreg_putS, if_neg (by rintro rfl; exact h0 hj)]
    · rfl

end Sys2Proof.Machine
end

