-- ==== Sys2Proof/Laws/Vector.lean ====
section
/-! SUPPORT. The shared operations of format V: what the gate has checked when an instruction goes on, what a per-lane
instruction writes, and the elements of a result built element by element. -/

namespace Sys2Proof.Machine

/-! ## What the gate has checked -/

/-- A production that stalls on nothing lets its instruction go on in the lanes it was given. -/
theorem produceGate_go {c : Cx} {n : Need} {k m : Mask} (h : produceGate c n k = .go m) : m = k := by
  unfold produceGate at h
  split at h
  · simp at h
  · split at h
    · simp at h
    · simpa using h.symm

theorem gate_go {s : State} {c : Cx} {n : Need} {m : Mask} (h : gate s c n = .go m) :
    n.dsts.any (badDst c) = false ∧ n.srcs.any (fun e => badSrc c e.1) = false ∧ n.bad = false
      ∧ m = c.exec n.g ∧ m ≠ 0
      ∧ n.srcs.any (fun e => e.2 = some true && isEmpty c e.1) = false
      ∧ (n.srcs.filter (fun e => isEmpty c e.1)).isEmpty = true ∧ (n.dsts.filter (isEmpty c)).isEmpty = true := by
  unfold gate at h
  by_cases h0 : n.illegal = true
  · rw [if_pos h0] at h; simp at h
  rw [if_neg h0] at h
  by_cases h1 : (n.dsts.any (badDst c) || n.srcs.any (fun e => badSrc c e.1) || n.bad) = true
  · rw [if_pos h1] at h; simp at h
  rw [if_neg h1] at h
  dsimp only at h
  by_cases h2 : c.exec n.g = 0
  · rw [if_pos h2] at h; simp at h
  rw [if_neg h2] at h
  by_cases h3 : n.srcs.any (fun e => e.2 = some true && isEmpty c e.1) = true
  · rw [if_pos h3] at h; simp at h
  rw [if_neg h3] at h
  by_cases h4 : (!((n.srcs.filter (fun e => isEmpty c e.1)).map (·.1) ++ n.dsts.filter (isEmpty c)).isEmpty) = true
  · rw [if_pos h4] at h; simp at h
  rw [if_neg h4] at h
  have e : (n.srcs.filter (fun e => isEmpty c e.1)).isEmpty = true ∧ (n.dsts.filter (isEmpty c)).isEmpty = true := by
    simpa using h4
  have hm : m = c.exec n.g := by
    revert h
    cases n.key with
    | none => exact produceGate_go
    | some p =>
      dsimp only
      split
      · simp
      · exact produceGate_go
  simp only [Bool.or_eq_true, not_or, Bool.not_eq_true] at h1
  exact ⟨h1.1.1, h1.1.2, h1.2, hm, hm ▸ h2, Bool.not_eq_true _ ▸ h3, e.1, e.2⟩

theorem ring_of_inv {s : State} {c : Cx} (hi : s.Inv) (h : s.issuing c) : 2 ≤ c.ring := by
  obtain ⟨-, -, -, -, hl⟩ := State.cxOf_eq s h.2
  have : (c.team.launch, c.launch) ∈ s.launches := by
    generalize s.launches = t at hl
    induction t with
    | nil => simp at hl
    | cons e t ih =>
      obtain ⟨k, v⟩ := e
      rw [Tab.find?_cons] at hl
      split at hl
      · next e => simp only [Option.some.injEq] at hl; subst hl; subst e; simp
      · exact List.mem_cons_of_mem _ (ih hl)
  have h2 := hi.rings _ this
  have : 64 ≤ c.launch.desc.ring := h2.1
  simp only [Cx.ring]
  omega

/-! ## A per-lane instruction -/

/-- A result of one or two words put into a destination of format V by a gated instruction. -/
theorem vPut_advance {s : State} {c : Cx} {i : Instr} {m : Mask} (h : s.ready c i m) (hi : s.Inv) (f : VF) {n : Nat}
    (hn : n = 1 ∨ n = 2) (ha : n = 2 → isVec f.d.toNat = true → f.d.toNat % 2 = 0) (sg : Bool) (r : Nat → Nat)
    (k : Nat) :
    ∃ w, Wrote c pcNext (c.pregs f.d.toNat n) [] s (advance c (vPut c f m n sg r { s with free := k })) w
      ∧ c.took w f.d.toNat n sg m r := by
  rw [vPut_eq]
  refine ⟨_, advance_wrote h (Warp.putDst c f.d.toNat n sg m r) k _ [] (fun v => by simp) (fun v => by simp)
    (fun j hj => row_putDst_other hj hn _) (fun j hj => sreg_putDst_other hj hn _) (fun p _ => by simp), ?_⟩
  have ht := took_putDst (c := c) (d := f.d.toNat) (sg := sg) (m := m) (r := r) hn
    (fun e => ⟨ring_of_inv hi h.issuing, ha e⟩)
  exact ht

theorem vWords_fst (op : Nat) (f : VF) : (vWords op f).1 = 1 ∨ (vWords op f).1 = 2 := by
  have : tyWords f.ty.toNat = 1 ∨ tyWords f.ty.toNat = 2 := by unfold tyWords; split <;> simp
  unfold vWords
  split <;> dsimp only <;> first | exact this | exact .inl rfl | exact .inr rfl | (split <;> first | exact .inl rfl | exact .inr rfl)

theorem bValues_some {s : State} {c : Cx} {op : Nat} {f : VF} {b : Nat → Nat} (h : s.bValues c op f = some b) :
    ∃ sp, vSpec op = some sp ∧ readB s c sp f = .ok b := by
  unfold State.bValues at h
  split at h
  · simp at h
  · next sp hs =>
    split at h
    · next b' hb => simp only [Option.some.injEq] at h; exact ⟨sp, hs, h ▸ hb⟩
    · simp at h

/-- The destination pair of a two-word result is even. -/
theorem needV_even {s : State} {c : Cx} {i : Instr} {m : Mask} {op : Nat} {f : VF} {sp : VSpec} (h : s.ready c i m)
    (hn : needOf c i = needV c op f) (hs : vSpec op = some sp) (hd : sp.d = .reg) :
    (vWords op f).1 = 2 → isVec f.d.toNat = true → f.d.toNat % 2 = 0 := by
  intro h2 hv
  have hb := (gate_go h.gate).2.2.1
  rw [hn] at hb
  unfold needV at hb
  simp only [hs] at hb
  unfold vBad at hb
  simp only [Bool.or_eq_false_iff] at hb
  have := hb.1.1.1.1.1.1.1.1
  simpa [dIsReg, hd, aligned, h2, hv] using this

/-- One lemma for every per-lane instruction whose result goes to a register. -/
theorem vMap_spec {s : State} {c : Cx} {i : Instr} {m : Mask} {op : Nat} {f : VF} {b : Nat → Nat} {sg : Bool}
    {g : Cx → Nat → Nat → Nat → Nat} (h : s.ready c i m) (hi : s.Inv) (hn : needOf c i = needV c op f)
    (hb : s.bValues c op f = some b) (hd : ∀ sp, vSpec op = some sp → sp.d = .reg) :
    ∃ t w, vMap i op f sg s g = .next t ∧ Wrote c pcNext (c.pregs f.d.toNat (vWords op f).1) [] s t w
      ∧ c.took w f.d.toNat (vWords op f).1 sg m
          (fun l => g c (readReg s c f.a.toNat (vWords op f).2.1 l) (b l) (readReg s c f.c.toNat (vWords op f).2.2 l)) := by
  obtain ⟨sp, hs, hr⟩ := bValues_some hb
  obtain ⟨w, hw⟩ := vPut_advance h hi f (vWords_fst op f) (needV_even h hn hs (hd sp hs)) sg
    (fun l => g c (readReg s c f.a.toNat (vWords op f).2.1 l) (b l) (readReg s c f.c.toNat (vWords op f).2.2 l)) s.free
  exact ⟨_, w, by rw [vMap, vRun_ready h hs hr], hw⟩

/-! ## Elements -/

theorem foldl_place (w : Nat) (x : Nat → Nat) (n : Nat) (hx : ∀ i, x i < 2 ^ w) :
    (List.range n).foldl (fun r i => r + x i * 2 ^ (w * i)) 0 < 2 ^ (w * n)
      ∧ ∀ e, e < n → elemAt w ((List.range n).foldl (fun r i => r + x i * 2 ^ (w * i)) 0) e = x e := by
  induction n with
  | zero => simp
  | succ n ih =>
    rw [List.range_succ, List.foldl_append]
    simp only [List.foldl_cons, List.foldl_nil]
    generalize (List.range n).foldl (fun r i => r + x i * 2 ^ (w * i)) 0 = r at ih ⊢
    obtain ⟨hr, ih⟩ := ih
    have hxn := hx n
    constructor
    · calc r + x n * 2 ^ (w * n) < 2 ^ (w * n) + x n * 2 ^ (w * n) := by omega
        _ = (x n + 1) * 2 ^ (w * n) := by ring
        _ ≤ 2 ^ w * 2 ^ (w * n) := Nat.mul_le_mul_right _ hxn
        _ = 2 ^ (w * (n + 1)) := by rw [← pow_add]; congr 1; ring
    · intro e he
      unfold elemAt
      by_cases h : e = n
      · subst h
        rw [Nat.add_mul_div_right _ _ (by positivity), Nat.div_eq_of_lt hr, Nat.zero_add, Nat.mod_eq_of_lt (hx e)]
      · have hlt : e < n := by omega
        rw [← ih e hlt, elemAt]
        obtain ⟨k, rfl⟩ : ∃ k, n = e + 1 + k := ⟨n - (e + 1), by omega⟩
        have : 2 ^ (w * (e + 1 + k)) = 2 ^ (w * k) * 2 ^ w * 2 ^ (w * e) := by rw [← pow_add, ← pow_add]; congr 1; ring
        rw [this, ← Nat.mul_assoc, Nat.add_mul_div_right _ _ (by positivity), ← Nat.mul_assoc,
          Nat.add_mul_mod_self_right]

theorem elems_width_pos (ty : Nat) : 0 < (elems ty).2.width := by
  unfold elems; split <;> simp [NTy.width, fmtF32, fmtF64, fmtF16, fmtBF16, fmtE4M3, fmtE5M2]

/-- Element e of a result built element by element. -/
theorem elemAt_mapElems (ty a b x : Nat) (g : NTy → Nat → Nat → Nat → Nat) (e : Nat) (he : e < (elems ty).1) :
    elemAt (elems ty).2.width (mapElems ty a b x g) e
      = g (elems ty).2 (elemAt (elems ty).2.width a e) (elemAt (elems ty).2.width b e)
          (elemAt (elems ty).2.width x e) % 2 ^ (elems ty).2.width := by
  unfold mapElems
  exact (foldl_place (elems ty).2.width
    (fun i => g (elems ty).2 (elemAt (elems ty).2.width a i) (elemAt (elems ty).2.width b i)
      (elemAt (elems ty).2.width x i) % 2 ^ (elems ty).2.width) (elems ty).1
    (fun i => Nat.mod_lt _ (by positivity))).2 e he

/-! ## Integers -/

theorem asInt_intOf (w : Nat) (sg : Bool) (x : Nat) : intOf w sg x = asInt w sg x := by
  unfold intOf asInt
  cases sg
  · simp
  · simp only [Bool.true_and, decide_eq_true_eq, ite_true]
    rw [BitVec.toInt_eq_msb_cond, BitVec.msb_eq_decide, BitVec.toNat_ofNat]
    by_cases h : 2 ^ (w - 1) ≤ x % 2 ^ w
    · simp [h]
    · simp [h]

theorem moded_modVal (ab nb : Bool) (x : Int) : (modVal ab nb (.i x)).int = moded ab nb x := by
  have h := Int.abs_eq_natAbs x
  cases ab <;> cases nb <;> simp only [modVal, moded, NV.int, h, Bool.false_eq_true, ite_false, ite_true]

theorem intMin_le_intMax (w : Nat) (sg : Bool) : intMin w sg ≤ intMax w sg := by
  have h1 : 1 ≤ 2 ^ (w - 1) := Nat.one_le_two_pow
  have h2 : 1 ≤ 2 ^ w := Nat.one_le_two_pow
  cases sg <;> simp only [intMin, intMax, Bool.false_eq_true, ite_false, ite_true] <;> omega

theorem putInt_settled (w : Nat) (sg sat : Bool) (x : Int) : putInt w sg sat x = settled w sg sat x := by
  have h1 := intMin_le_intMax w sg
  have elo : intMin w sg = (if sg then -2 ^ (w - 1) else 0) := by cases sg <;> simp [intMin]
  have ehi : intMax w sg = (if sg then 2 ^ (w - 1) - 1 else 2 ^ w - 1) := by cases sg <;> simp [intMax]
  have ecl : clampInt w sg x = max (intMin w sg) (min (intMax w sg) x) := by
    unfold clampInt
    split
    · omega
    · split <;> omega
  unfold putInt settled wrapInt
  cases sat
  · simp
  · simp only [ite_true, ecl, elo, ehi]
    simp

theorem settled_lt (w : Nat) (sg sat : Bool) (x : Int) : settled w sg sat x < 2 ^ w := by
  unfold settled
  have h : (0 : Int) < 2 ^ w := by positivity
  have h1 := Int.emod_nonneg (if sat then max (if sg then -2 ^ (w - 1) else 0)
    (min (if sg then 2 ^ (w - 1) - 1 else 2 ^ w - 1) x) else x) (Int.ne_of_gt h)
  have h2 := Int.emod_lt_of_pos (if sat then max (if sg then -2 ^ (w - 1) else 0)
    (min (if sg then 2 ^ (w - 1) - 1 else 2 ^ w - 1) x) else x) h
  rw [← Int.ofNat_lt, Int.toNat_of_nonneg h1]
  simpa using h2

/-- Element e of an element-wise integer result. -/
theorem vInt_elem {ty : Nat} {n k : Nat} {sg : Bool} (h : elems ty = (k, .int n sg)) (f : VF)
    (g : Nat → Int → Int → Int → Int) (a b x e : Nat) (he : e < k) :
    elemAt n (mapElems ty a b x (intElem f g)) e
      = settled n sg f.sat (g n (moded (f.mod.getLsbD 1) (f.mod.getLsbD 0) (asInt n sg (elemAt n a e)))
          (moded (f.mod.getLsbD 3) (f.mod.getLsbD 2) (asInt n sg (elemAt n b e))) (asInt n sg (elemAt n x e))) := by
  have hw : (elems ty).2.width = n := by rw [h]; rfl
  have := elemAt_mapElems ty a b x (intElem f g) e (by rw [h]; exact he)
  rw [hw] at this
  rw [this, h]
  simp only [intElem, modA, modB, moded_modVal, asInt_intOf n, putInt_settled]
  exact Nat.mod_eq_of_lt (settled_lt _ _ _ _)

/-- The needs of an instruction of format V. -/
theorem needOf_v {i : Instr} {op : Nat} {f : VF} (h : fieldsOf i = some (.v op f)) (c : Cx) :
    needOf c i = needV c op f := by
  unfold needOf
  split <;> first | (simp [fieldsOf] at h; done) | simp [h]

end Sys2Proof.Machine
end

