-- ==== Sys2Proof/Tests/Slice0.lean ====
section
/-! SUPPORT. Tests: for each instruction a word written out from the spec's encoding of it, run for one step on a small
state, with a result worked out by hand from the spec; the checks of well-formedness; and for each statement states and
operands that meet its hypotheses. -/

namespace Sys2Proof.Machine

set_option Elab.async false

/-! ## Small states -/

/-- One warp of 32 lanes on core 0 that issues the word w next; every address maps to itself. -/
def placed (w : Nat) : State := State.reset.withFetchWord 96 w

def testRef : SplitRef := ⟨0, 0, 0⟩
def testWarp : WarpRef := ⟨0, 0⟩

def warpNow (s : State) : Warp := (s.warp? testWarp).getD {}
def splitNow (s : State) : Split := (s.split? testRef).getD {}

/-- Row k holds f l in lane l. -/
def row (k : Nat) (f : Nat → Nat) (s : State) : State :=
  s.modWarp testWarp (fun w =>
    { w with rows := w.rows.set k { vals := (List.range 32).map (fun l => (l, BitVec.ofNat 32 (f l))) } })
def sreg (n v : Nat) (s : State) : State :=
  s.modWarp testWarp (fun w => { w with sregs := w.sregs.set n ⟨true, BitVec.ofNat 64 v⟩ })
def pred (n m : Nat) (s : State) : State :=
  s.modWarp testWarp (fun w => { w with preds := w.preds.set n (BitVec.ofNat 64 m) })
def warpWith (f : Warp → Warp) (s : State) : State := s.modWarp testWarp f
def splitWith (f : Split → Split) (s : State) : State := s.modSplit testRef f
def launchWith (f : Launch → Launch) (s : State) : State := s.modLaunch 0 f
def lineAt (home line : Nat) (x : SliceLine) (s : State) : State := s.modSline home line (fun _ => x)
def paired (s : State) : State := launchWith (fun l => { l with desc := { l.desc with paired := true } }) s
def keyWith (n : Nat) (k : Key) (s : State) : State := warpWith (fun w => { w with keys := w.keys.set n k }) s
def clsWith (n : Nat) (k : FClass) (s : State) : State := warpWith (fun w => { w with classes := w.classes.set n k }) s
def emptyRow (k : Nat) (s : State) : State := warpWith (fun w => { w with rows := w.rows.set k { full := false } }) s
def areaWith (f : Area → Area) (s : State) : State :=
  s.modTeam 0 (fun t => { t with areas := t.areas.set 0 (f (t.areas.get {} 0)) })
def scratchAt (a : Nat) (b : Byte) (s : State) : State :=
  areaWith (fun x => { x with scratch := { x.scratch with bytes := x.scratch.bytes.set a b } }) s
/-- The warp holds every slot and the torc. -/
def claimSlots (s : State) : State :=
  areaWith (fun x => { x with aclaims := (List.range 32).map (fun k => (k, { holder := some 0 }))
                              wclaims := (List.range 32).map (fun k => (k, { holder := some 0 })) }) s
def holdTorc (s : State) : State := s.modCore 0 (fun c => { c with torc := some testWarp })
def engineWith (n : Nat) (e : Engine) (s : State) : State := s.modEngine n (fun _ => e)
def queueWith (die slot : Nat) (q : QueueRec) (s : State) : State :=
  s.modDie die (fun d => { d with queues := d.queues.set slot q })
def eventWith (e : Nat) (x : Event) (s : State) : State :=
  s.modContext 1 (fun c => { c with events := c.events.set e x })
def refinableEvent (e : Nat) (s : State) : State := eventWith e { refinable := true } s
/-- A frame at row 32 whose link words lead back to PC 7 and the frame of 64 rows at row 0. -/
def inFrame (s : State) : State :=
  splitWith (fun sp => { sp with path := { sp.path with b := 32, e := 32, depth := 1 } })
    (row 32 (fun _ => 7) (row 33 (fun _ => 65568) s))
/-- The warp's image lies on a page marked for context images (R64), mapped beside the others. -/
def contextPage (s : State) : State :=
  let s := warpWith (fun w => { w with imageBase := 0x40000020000 }) { s with mem := s.mem.putNat (placedRoot + 8) 8 0x10F }
  match walk s 1 0x40000020000 with
  | .ok t => s.modCore 0 (fun c => { c with tlb := tlbInsert c.tlb ⟨1, 1, t⟩ })
  | .error _ => s

/-- The same, and no other page maps those bytes. -/
def imagePage (s : State) : State := { contextPage s with mem := (contextPage s).mem.putNat placedRoot 8 0 }

/-- Page k of 4 TiB is page 0 of node 7. -/
def remotePage (k : Nat) (s : State) : State :=
  let s := { s with mem := s.mem.putNat (placedRoot + 8 * k) 8 0x000700000000041F, nodeId := some 3 }
  match walk s 1 (BitVec.ofNat 64 (2 ^ 42 * k)) with
  | .ok t => s.modCore 0 (fun c => { c with tlb := [⟨1, k, t⟩] })
  | .error _ => s

/-- What row k holds in lane l, what s register n and predicate n hold. -/
def at_ (s : State) (k l : Nat) : Nat := (((warpNow s).row k).lane l).toNat
def sAt (s : State) (n : Nat) : Nat := ((warpNow s).sreg n).val.toNat
def pAt (s : State) (n : Nat) : Nat := ((warpNow s).pred n).toNat

/-- The first operation put into flight. -/
def opNow (s : State) : Op := (s.ops.head?.map (·.2)).getD {}

/-! ## Running one step -/

/-- The word w is that of a well-formed instruction i, which on the small state prepared by pre is ready to issue, and
whose step leads to a state with what is said of it. -/
def Ran (w : Nat) (pre : State → State) (p : Instr → State → Prop) : Prop :=
  ∃ c i m t, decodeTableWord 96 w = some i ∧ i.wellFormed = true ∧ (pre (placed w)).Inv
    ∧ (pre (placed w)).ready c i m ∧ step (pre (placed w)) = .next t ∧ p i t

def invNow (s : State) : Bool :=
  s.mem.wf && s.launches.all (fun e => 64 ≤ e.2.desc.ring && e.2.desc.ring ≤ 512 && e.2.desc.ring % 32 = 0)

def readyNow (s : State) (i : Instr) (p : Cx → Mask → Bool) : Bool :=
  match s.cur with
  | none => false
  | some r =>
    match s.cxOf r with
    | none => false
    | some c =>
      match gate s c (needOf c i) with
      | .go m => c.ref = r && c.team.step = none && p c m
      | _ => false

def ranNow (w : Nat) (pre : State → State) (p : Instr → State → Bool) : Bool :=
  match decodeTableWord 96 w with
  | none => false
  | some i =>
    i.wellFormed && (let s := pre (placed w)
      invNow s && readyNow s i (fun _ _ => true) && (match step s with
        | .next t => p i t
        | _ => false))

theorem inv_of_now {s : State} (h : invNow s = true) : s.Inv := by
  simp only [invNow, Bool.and_eq_true, List.all_eq_true, decide_eq_true_eq] at h
  exact ⟨h.1, fun e he => ⟨(h.2 e he).1.1, (h.2 e he).1.2, (h.2 e he).2⟩⟩

theorem ready_of_now {s : State} {i : Instr} {p : Cx → Mask → Bool} (h : readyNow s i p = true) :
    ∃ c m, s.ready c i m ∧ p c m = true := by
  unfold readyNow at h
  split at h
  · cases h
  · next r hr =>
    split at h
    · cases h
    · next c hc =>
      split at h
      · next m hm =>
        simp only [Bool.and_eq_true, decide_eq_true_eq] at h
        obtain ⟨⟨h1, h2⟩, h3⟩ := h
        subst h1
        exact ⟨c, m, ⟨⟨hr, hc⟩, hm, h2⟩, h3⟩
      · cases h

theorem ran_of_now {w : Nat} {pre : State → State} {p : Instr → State → Prop} [∀ i t, Decidable (p i t)]
    (h : ranNow w pre (fun i t => decide (p i t)) = true) : Ran w pre p := by
  unfold ranNow at h
  split at h
  · cases h
  · rename_i i hi
    simp only [Bool.and_eq_true] at h
    obtain ⟨h0, ⟨h1, h2⟩, h3⟩ := h
    split at h3
    · rename_i t ht
      obtain ⟨c, m, h4, -⟩ := ready_of_now h2
      exact ⟨c, i, m, t, hi, h0, inv_of_now h1, h4, ht, of_decide_eq_true h3⟩
    · cases h3

/-! ## Fields, all 0 but for those named -/

def gd : Guard := ⟨0, false, false⟩
def vf (fn ty d a b : Nat) : VF :=
  { g := gd, fn := BitVec.ofNat 6 fn, ty := BitVec.ofNat 4 ty, d := BitVec.ofNat 10 d, a := BitVec.ofNat 10 a
    b := BitVec.ofNat 10 b, c := 0, bk := 0, fa := false, fb := false, fc := false, rm := 0, sat := false, mod := 0, w := 0 }
def mf (fn ty d a b : Nat) : MF :=
  { g := gd, fn := BitVec.ofNat 6 fn, ty := BitVec.ofNat 4 ty, d := BitVec.ofNat 10 d, a := BitVec.ofNat 10 a
    b := BitVec.ofNat 10 b, pk := 0, ck := 0, sc := 0, ord := 0, sp := 0, fa := false, fb := false, ch := 0, w := 0 }
def cf (d a b j t : Nat) : CF :=
  { g := gd, fn := 0, d := BitVec.ofNat 10 d, a := BitVec.ofNat 10 a, b := BitVec.ofNat 10 b, j := BitVec.ofNat 20 j
    t := BitVec.ofNat 20 t }

/-! ## Format V (R248 to R266) -/

theorem test_mov : Ran 0x000000000000200005200010 (row 5 (fun _ => 0x55667788) ∘ row 4 (fun _ => 0x11223344))
    (fun i t => i = .mov (vf 0 4 10 0 4) ∧ at_ t 10 31 = 0x11223344 ∧ at_ t 11 31 = 0x55667788) :=
  ran_of_now (by decide +kernel)

theorem test_movi : Ran 0x000000002468ACF006008011 (pred 2 0xFFFF0000 ∘ row 12 (fun _ => 0x7))
    (fun i t => i = .movi { vf 0 0 12 632 277 with g := ⟨2, false, false⟩, c := 291 } ∧ at_ t 12 16 = 0x12345678 ∧ at_ t 12 15 = 7) :=
  ran_of_now (by decide +kernel)

theorem test_sel : Ran 0x000000000060200405000012 (pred 3 1 ∘ row 2 (fun _ => 0xa) ∘ row 4 (fun _ => 0xb))
    (fun i t => i = .sel { vf 0 0 10 2 4 with c := 3 } ∧ at_ t 10 0 = 0xa ∧ at_ t 10 1 = 0xb) :=
  ran_of_now (by decide +kernel)

theorem test_iadd : Ran 0x000000800000200405500013 (row 2 (fun _ => 0x7fff8000) ∘ row 4 (fun _ => 0x18000))
    (fun i t => i = .iadd { vf 0 10 10 2 4 with sat := true } ∧ at_ t 10 31 = 0x7fff8000) :=
  ran_of_now (by decide +kernel)

theorem test_isub : Ran 0x000004000000200405080014 (row 2 (fun _ => 0xa) ∘ row 4 (fun _ => 0x3))
    (fun i t => i = .isub { vf 0 1 10 2 4 with mod := 4 } ∧ at_ t 10 31 = 0xd) :=
  ran_of_now (by decide +kernel)

theorem test_iaddc : Ran 0x000000000220200405100015 (pred 1 1 ∘ row 2 (fun _ => 0xffffffff) ∘ row 4 (fun _ => 0x0))
    (fun i t => i = .iaddc { vf 0 2 10 2 4 with c := 17 } ∧ at_ t 10 0 = 0x0 ∧ at_ t 10 1 = 0xffffffff ∧ pAt t 2 = 1) :=
  ran_of_now (by decide +kernel)

theorem test_isubb : Ran 0x000000000220200405100016 (pred 1 2 ∘ row 2 (fun _ => 0x5) ∘ row 4 (fun _ => 0x5))
    (fun i t => i = .isubb { vf 0 2 10 2 4 with c := 17 } ∧ at_ t 10 0 = 0x0 ∧ at_ t 10 1 = 0xffffffff ∧ pAt t 2 = 2) :=
  ran_of_now (by decide +kernel)

theorem test_imul : Ran 0x000000000000200405600017 (row 2 (fun _ => 0x2ff7f80) ∘ row 4 (fun _ => 0x3020202))
    (fun i t => i = .imul (vf 0 12 10 2 4) ∧ at_ t 10 31 = 0x6fefe00) :=
  ran_of_now (by decide +kernel)

theorem test_imulh : Ran 0x000000000000200405080018 (row 2 (fun _ => 0x80000000) ∘ row 4 (fun _ => 0x3))
    (fun i t => i = .imulh (vf 0 1 10 2 4) ∧ at_ t 10 31 = 0xfffffffe) :=
  ran_of_now (by decide +kernel)

theorem test_imad : Ran 0x0000000000C0200405080019 (row 2 (fun _ => 0x7) ∘ row 4 (fun _ => 0x6) ∘ row 6 (fun _ => 0xffffffff))
    (fun i t => i = .imad { vf 0 1 10 2 4 with c := 6 } ∧ at_ t 10 31 = 0x29) :=
  ran_of_now (by decide +kernel)

theorem test_imadw : Ran 0x0000000000C020040510001A (row 2 (fun _ => 0xffffffff) ∘ row 4 (fun _ => 0xffffffff) ∘ row 6 (fun _ => 0x1))
    (fun i t => i = .imadw { vf 0 2 10 2 4 with c := 6 } ∧ at_ t 10 31 = 0x2 ∧ at_ t 11 31 = 0xFFFFFFFE) :=
  ran_of_now (by decide +kernel)

theorem test_imin : Ran 0x00000000000020040508001B (row 2 (fun _ => 0xffffffff) ∘ row 4 (fun _ => 0x1))
    (fun i t => i = .imin (vf 0 1 10 2 4) ∧ at_ t 10 31 = 0xffffffff) :=
  ran_of_now (by decide +kernel)

theorem test_imax : Ran 0x00000000000020040510001C (row 2 (fun _ => 0x1) ∘ row 4 (fun _ => 0xffffffff))
    (fun i t => i = .imax (vf 0 2 10 2 4) ∧ at_ t 10 31 = 0xffffffff) :=
  ran_of_now (by decide +kernel)

theorem test_iabs : Ran 0x00000080000000040508001D (row 2 (fun _ => 0x80000000))
    (fun i t => i = .iabs { vf 0 1 10 2 0 with sat := true } ∧ at_ t 10 31 = 0x7fffffff) :=
  ran_of_now (by decide +kernel)

theorem test_ineg : Ran 0x00000000000000040508001E (row 2 (fun _ => 0x5))
    (fun i t => i = .ineg (vf 0 1 10 2 0) ∧ at_ t 10 31 = 0xfffffffb) :=
  ran_of_now (by decide +kernel)

theorem test_idot4 : Ran 0x0000000000C020040508011F (row 2 (fun _ => 0xff020304) ∘ row 4 (fun _ => 0xff010101) ∘ row 6 (fun _ => 0xa))
    (fun i t => i = .idot4 { vf 1 1 10 2 4 with c := 6 } ∧ at_ t 10 31 = 0xffffff14) :=
  ran_of_now (by decide +kernel)

theorem test_lop3 : Ran 0x00000D8000C0200405000020 (row 2 (fun _ => 0xf0f0f0f0) ∘ row 4 (fun _ => 0x12345678) ∘ row 6 (fun _ => 0x9abcdef0))
    (fun i t => i = .lop3 { vf 0 0 10 2 4 with c := 6, mod := 13, sat := true } ∧ at_ t 10 31 = 0x1a3c5e70) :=
  ran_of_now (by decide +kernel)

theorem test_shl : Ran 0x000000000000200405000021 (row 2 (fun _ => 0x80000001) ∘ row 4 (fun l => l + 1))
    (fun i t => i = .shl (vf 0 0 10 2 4) ∧ at_ t 10 3 = 0x10 ∧ at_ t 10 31 = 0x0) :=
  ran_of_now (by decide +kernel)

theorem test_shr : Ran 0x000000000000200405000022 (row 2 (fun _ => 0x80000000) ∘ row 4 (fun l => l + 1))
    (fun i t => i = .shr (vf 0 0 10 2 4) ∧ at_ t 10 3 = 0x8000000 ∧ at_ t 10 31 = 0x0) :=
  ran_of_now (by decide +kernel)

theorem test_sha : Ran 0x000000000000200405000023 (row 2 (fun _ => 0x80000000) ∘ row 4 (fun l => l + 1))
    (fun i t => i = .sha (vf 0 0 10 2 4) ∧ at_ t 10 3 = 0xf8000000 ∧ at_ t 10 31 = 0xffffffff) :=
  ran_of_now (by decide +kernel)

theorem test_rot : Ran 0x000080008000000405000124 (row 2 (fun _ => 0x12345678))
    (fun i t => i = .rot { vf 1 0 10 2 0 with bk := 1, w := 8 } ∧ at_ t 10 31 = 0x78123456) :=
  ran_of_now (by decide +kernel)

theorem test_fshf : Ran 0x0000000000C0200405000025 (row 2 (fun _ => 0x12345678) ∘ row 4 (fun _ => 0x8) ∘ row 6 (fun _ => 0x9abcdef0))
    (fun i t => i = .fshf { vf 0 0 10 2 4 with c := 6 } ∧ at_ t 10 31 = 0xf0123456) :=
  ran_of_now (by decide +kernel)

theorem test_bfe : Ran 0x000000000000200405080026 (row 2 (fun _ => 0xf80) ∘ row 4 (fun _ => 0x804))
    (fun i t => i = .bfe (vf 0 1 10 2 4) ∧ at_ t 10 31 = 0xfffffff8) :=
  ran_of_now (by decide +kernel)

theorem test_bfi : Ran 0x0000000000C0200405000027 (row 2 (fun _ => 0xab) ∘ row 4 (fun _ => 0x804) ∘ row 6 (fun _ => 0xffffffff))
    (fun i t => i = .bfi { vf 0 0 10 2 4 with c := 6 } ∧ at_ t 10 31 = 0xfffffabf) :=
  ran_of_now (by decide +kernel)

theorem test_popc : Ran 0x000000000000000405200028 (row 3 (fun _ => 0x1) ∘ row 2 (fun _ => 0xff))
    (fun i t => i = .popc (vf 0 4 10 2 0) ∧ at_ t 10 31 = 0x9) :=
  ran_of_now (by decide +kernel)

theorem test_clz : Ran 0x000000000000000405000029 (row 2 (fun _ => 0x10000))
    (fun i t => i = .clz (vf 0 0 10 2 0) ∧ at_ t 10 31 = 0xf) :=
  ran_of_now (by decide +kernel)

theorem test_brev : Ran 0x00000000000000040500002A (row 2 (fun _ => 0x6))
    (fun i t => i = .brev (vf 0 0 10 2 0) ∧ at_ t 10 31 = 0x60000000) :=
  ran_of_now (by decide +kernel)

theorem test_idiv : Ran 0x00000000000020040508002B (row 2 (fun _ => 0xfffffff9) ∘ row 4 (fun l => 2 * (l % 2)))
    (fun i t => i = .idiv (vf 0 1 10 2 4) ∧ at_ t 10 1 = 0xfffffffd ∧ at_ t 10 0 = 0xffffffff) :=
  ran_of_now (by decide +kernel)

theorem test_irem : Ran 0x00000000000020040508002C (row 2 (fun _ => 0xfffffff9) ∘ row 4 (fun l => 2 * (l % 2)))
    (fun i t => i = .irem (vf 0 1 10 2 4) ∧ at_ t 10 1 = 0xffffffff ∧ at_ t 10 0 = 0xfffffff9) :=
  ran_of_now (by decide +kernel)

theorem test_fadd : Ran 0x000000200000200405180030 (row 2 (fun _ => 0x3f800000) ∘ row 4 (fun _ => 0x33800000))
    (fun i t => i = .fadd { vf 0 3 10 2 4 with rm := 2 } ∧ at_ t 10 31 = 0x3f800001) :=
  ran_of_now (by decide +kernel)

theorem test_fsub : Ran 0x000000000000200405180031 (row 2 (fun _ => 0x40400000) ∘ row 4 (fun _ => 0x40000000))
    (fun i t => i = .fsub (vf 0 3 10 2 4) ∧ at_ t 10 31 = 0x3f800000) :=
  ran_of_now (by decide +kernel)

theorem test_fmul : Ran 0x000000000000200405400032 (row 2 (fun _ => 0xbc003e00) ∘ row 4 (fun _ => 0x3c004000))
    (fun i t => i = .fmul (vf 0 8 10 2 4) ∧ at_ t 10 31 = 0xbc004200) :=
  ran_of_now (by decide +kernel)

theorem test_ffma : Ran 0x0000000000C0200405180033 (row 2 (fun _ => 0x3f800001) ∘ row 4 (fun _ => 0x3f800001) ∘ row 6 (fun _ => 0xbf800002))
    (fun i t => i = .ffma { vf 0 3 10 2 4 with c := 6 } ∧ at_ t 10 31 = 0x28800000) :=
  ran_of_now (by decide +kernel)

theorem test_fmin : Ran 0x000000000000200405180034 (row 2 (fun _ => 0x7fc00000) ∘ row 4 (fun _ => 0x40000000))
    (fun i t => i = .fmin (vf 0 3 10 2 4) ∧ at_ t 10 31 = 0x40000000) :=
  ran_of_now (by decide +kernel)

theorem test_fmax : Ran 0x000000000000200405180035 (row 2 (fun _ => 0x3f800000) ∘ row 4 (fun _ => 0x40000000))
    (fun i t => i = .fmax (vf 0 3 10 2 4) ∧ at_ t 10 31 = 0x40000000) :=
  ran_of_now (by decide +kernel)

theorem test_frcp : Ran 0x000000000000000405180036 (row 2 (fun _ => 0x40400000))
    (fun i t => i = .frcp (vf 0 3 10 2 0) ∧ at_ t 10 31 = 0x3eaaaaab) :=
  ran_of_now (by decide +kernel)

theorem test_frsq : Ran 0x000000000000000405180037 (row 2 (fun _ => 0x80000000))
    (fun i t => i = .frsq (vf 0 3 10 2 0) ∧ at_ t 10 31 = 0xff800000) :=
  ran_of_now (by decide +kernel)

theorem test_fsqrt : Ran 0x000000000000000405180038 (row 2 (fun _ => 0x40800000))
    (fun i t => i = .fsqrt (vf 0 3 10 2 0) ∧ at_ t 10 31 = 0x40000000) :=
  ran_of_now (by decide +kernel)

theorem test_fdiv : Ran 0x000000100000200405180039 (row 2 (fun _ => 0x3f800000) ∘ row 4 (fun _ => 0x40400000))
    (fun i t => i = .fdiv { vf 0 3 10 2 4 with rm := 1 } ∧ at_ t 10 31 = 0x3eaaaaaa) :=
  ran_of_now (by decide +kernel)

theorem test_fexp2 : Ran 0x00000000000000040518003A (row 2 (fun _ => 0x40400000))
    (fun i t => i = .fexp2 (vf 0 3 10 2 0) ∧ at_ t 10 31 = 0x41000000) :=
  ran_of_now (by decide +kernel)

theorem test_flog2 : Ran 0x00000000000000040518003B (row 2 (fun _ => 0x41000000))
    (fun i t => i = .flog2 (vf 0 3 10 2 0) ∧ at_ t 10 31 = 0x40400000) :=
  ran_of_now (by decide +kernel)

theorem test_fsin : Ran 0x00000000000000040518003C (row 2 (fun _ => 0x80000000))
    (fun i t => i = .fsin (vf 0 3 10 2 0) ∧ at_ t 10 31 = 0x80000000) :=
  ran_of_now (by decide +kernel)

theorem test_fcos : Ran 0x00000000000000040518003D (row 2 (fun _ => 0x0))
    (fun i t => i = .fcos (vf 0 3 10 2 0) ∧ at_ t 10 31 = 0x3f800000) :=
  ran_of_now (by decide +kernel)

theorem test_ftanh : Ran 0x00000000000000040518003E (row 2 (fun _ => 0xff800000))
    (fun i t => i = .ftanh (vf 0 3 10 2 0) ∧ at_ t 10 31 = 0xbf800000) :=
  ran_of_now (by decide +kernel)

theorem test_fscale : Ran 0x00005000800000040518003F (row 2 (fun _ => 0x3f800000))
    (fun i t => i = .fscale { vf 0 3 10 2 0 with bk := 1, w := 5 } ∧ at_ t 10 31 = 0x42000000) :=
  ran_of_now (by decide +kernel)

theorem test_fclass : Ran 0x000000000000000405180040 (row 2 (fun _ => 0x80000001))
    (fun i t => i = .fclass (vf 0 3 10 2 0) ∧ at_ t 10 31 = 0x4) :=
  ran_of_now (by decide +kernel)

theorem test_frnd : Ran 0x000000000000000405180041 (row 2 (fun _ => 0x40200000))
    (fun i t => i = .frnd (vf 0 3 10 2 0) ∧ at_ t 10 31 = 0x40000000) :=
  ran_of_now (by decide +kernel)

theorem test_cvt : Ran 0x000000100000000405080342 (row 2 (fun _ => 0xbfc00000))
    (fun i t => i = .cvt { vf 3 1 10 2 0 with rm := 1 } ∧ at_ t 10 31 = 0xffffffff) :=
  ran_of_now (by decide +kernel)

theorem test_pack : Ran 0x000000000000200405400343 (row 2 (fun _ => 0x3f800000) ∘ row 4 (fun _ => 0xc0000000))
    (fun i t => i = .pack (vf 3 8 10 2 4) ∧ at_ t 10 31 = 0xc0003c00) :=
  ran_of_now (by decide +kernel)

theorem test_unpack : Ran 0x000000000000000405602144 (row 2 (fun _ => 0xfe0000))
    (fun i t => i = .unpack (vf 33 12 10 2 0) ∧ at_ t 10 31 = 0xfffffffe) :=
  ran_of_now (by decide +kernel)

theorem test_setp : Ran 0x000030008000000400880250 (row 2 (fun l => l))
    (fun i t => i = .setp { vf 2 1 1 2 0 with bk := 1, w := 3 } ∧ pAt t 1 = 7) :=
  ran_of_now (by decide +kernel)

theorem test_plop : Ran 0x000002200000100201800051 (pred 1 0xC ∘ pred 2 0xA)
    (fun i t => i = .plop { vf 0 0 3 1 2 with mod := 2, rm := 2 } ∧ pAt t 3 = 4) :=
  ran_of_now (by decide +kernel)

theorem test_vote : Ran 0x000000000000000341200352 (pred 1 0xF00000F0F)
    (fun i t => i = .vote (vf 3 4 642 1 0) ∧ sAt t 2 = 0xF0F) :=
  ran_of_now (by decide +kernel)

theorem test_shfl : Ran 0xFFFFF0008060000405000153 (row 2 (fun l => 100 + l))
    (fun i t => i = .shfl { vf 1 0 10 2 0 with c := 3, bk := 1, w := 1048575 } ∧ at_ t 10 0 = 100 ∧ at_ t 10 5 = 104 ∧ pAt t 3 = 0xFFFFFFFE) :=
  ran_of_now (by decide +kernel)

theorem test_wred : Ran 0x000000000000000405100054 (row 2 (fun l => l))
    (fun i t => i = .wred (vf 0 2 10 2 0) ∧ at_ t 10 7 = 496) :=
  ran_of_now (by decide +kernel)

theorem test_wscan : Ran 0x000000000000000405102055 (row 2 (fun l => l))
    (fun i t => i = .wscan (vf 32 2 10 2 0) ∧ at_ t 10 0 = 0 ∧ at_ t 10 4 = 6) :=
  ran_of_now (by decide +kernel)

theorem test_xshfl : Ran 0x000000000000000405000056 (paired ∘ row 2 (fun l => l))
    (fun i t => i = .xshfl (vf 0 0 10 2 0) ∧ (opNow t).kind = .xshfl ∧ (warpNow t).xchg.get 0 31 = 1 ∧ ((warpNow t).row 10).full = false) :=
  ran_of_now (by decide +kernel)


/-! ## Control (R49, R304 to R313) -/

theorem test_nop : Ran 0x000000000000000000040000 (id)
    (fun i t => i = .nop { cf 0 0 0 0 0 with g := ⟨0, false, true⟩ } ∧ (splitNow t).path.pc = 1) :=
  ran_of_now (by decide +kernel)

theorem test_bra : Ran 0xFFFFE0000500000000024001 (pred 1 0)
    (fun i t => i = .bra { cf 0 0 0 5 1048574 with g := ⟨1, true, false⟩ } ∧ (splitNow t).path.pc = 0xFFFFFFFE ∧ (warpNow t).splits.length = 1) :=
  ran_of_now (by decide +kernel)

theorem test_bra_divides : Ran 0x000070000500000000004001 (pred 1 0xF0)
    (fun i t => i = .bra { cf 0 0 0 5 7 with g := ⟨1, false, false⟩ } ∧ (warpNow t).splits.length = 2 ∧ (splitNow t).path.pc = 1 ∧ (splitNow t).path.mask = 0xFFFFFF0F ∧ (t.split? ⟨0, 0, 1⟩).map (fun x => (x.path.pc, x.path.mask)) = some (7, 0xF0)) :=
  ran_of_now (by decide +kernel)

theorem test_brx : Ran 0x000000000000000400000002 (row 2 (fun _ => 100))
    (fun i t => i = .brx (cf 0 2 0 0 0) ∧ (splitNow t).path.pc = 100) :=
  ran_of_now (by decide +kernel)

theorem test_call : Ran 0x000100000001000000000003 (id)
    (fun i t => i = .call (cf 0 0 32 0 16) ∧ (splitNow t).path = { pc := 16, mask := 0xFFFFFFFF, b := 32, e := 32, depth := 1 } ∧ at_ t 32 5 = 1 ∧ at_ t 33 5 = 65568) :=
  ran_of_now (by decide +kernel)

theorem test_callx : Ran 0x000000000001000400000004 (row 2 (fun _ => 50))
    (fun i t => i = .callx (cf 0 2 32 0 0) ∧ (splitNow t).path.pc = 50 ∧ (splitNow t).path.depth = 1 ∧ at_ t 32 31 = 1) :=
  ran_of_now (by decide +kernel)

theorem test_enter : Ran 0x000000000001400000000005 (id)
    (fun i t => i = .enter (cf 0 0 40 0 0) ∧ (splitNow t).path.e = 40 ∧ (splitNow t).path.pc = 1) :=
  ran_of_now (by decide +kernel)

theorem test_leave : Ran 0x000000000000500000000006 (id)
    (fun i t => i = .leave (cf 0 0 10 0 0) ∧ (splitNow t).path.e = 10 ∧ (splitNow t).path.pc = 1) :=
  ran_of_now (by decide +kernel)

theorem test_ret : Ran 0x000000000000000000000007 (inFrame)
    (fun i t => i = .ret (cf 0 0 0 0 0) ∧ (splitNow t).path = { pc := 7, mask := 0xFFFFFFFF, b := 0, e := 64, depth := 0 }) :=
  ran_of_now (by decide +kernel)

theorem test_exit : Ran 0x000000000000000000000008 (id)
    (fun i t => i = .exit (cf 0 0 0 0 0) ∧ (warpNow t).ended = true ∧ t.agenda = [.warpRelease testWarp]) :=
  ran_of_now (by decide +kernel)

theorem test_exit_some : Ran 0x000000000000000000008008 (pred 2 0xFF)
    (fun i t => i = .exit { cf 0 0 0 0 0 with g := ⟨2, false, false⟩ } ∧ (warpNow t).live = 0xFFFFFF00 ∧ (splitNow t).path.pc = 1) :=
  ran_of_now (by decide +kernel)

theorem test_waitm : Ran 0x0000000064140D0001800009 (sreg 0 0x4000 ∘ sreg 1 9)
    (fun i t => i = .waitm (cf 3 640 641 100 0) ∧ (splitNow t).wait = .watch 3 0 ∧ (t.core 0).monitors = 1) :=
  ran_of_now (by decide +kernel)

theorem test_yield : Ran 0x00000000000000000000000A (id)
    (fun i t => i = .yield (cf 0 0 0 0 0) ∧ (splitNow t).path.pc = 1) :=
  ran_of_now (by decide +kernel)

theorem test_brk : Ran 0x00000000000268000000000B (id)
    (fun i t => i = .brk (cf 0 0 77 0 0) ∧ (splitNow t).own.map (fun x => (x.cls, x.code, x.addr)) = some (6, 1, 77) ∧ (t.team? 0).map (·.status) = some .raised ∧ (splitNow t).path.pc = 1) :=
  ran_of_now (by decide +kernel)


/-! ## Lane loads and stores, atomics (R151 to R161, R195) -/

theorem test_ld : Ran 0x00040000446000100A180060 (row 8 (fun l => 0x100000 + 4 * l) ∘ row 9 (fun _ => 0))
    (fun i t => i = .ld { mf 0 3 20 8 0 with pk := 3, ck := 2, sc := 2, w := 64 } ∧ (opNow t).kind = .load ∧ (opNow t).lanes.map (·.pa) = (List.range 32).map (0x100040 + 4 * ·) ∧ ((warpNow t).row 20).full = false ∧ ((warpNow t).key 3).p = 1) :=
  ran_of_now (by decide +kernel)

theorem test_st : Ran 0x000000040000201000000061 (row 8 (fun l => 16 * (l % 2)) ∘ row 9 (fun _ => 0) ∘ row 4 (fun l => 0x1234 + l))
    (fun i t => i = .st { mf 0 0 0 8 4 with sp := 1 } ∧ (opNow t).kind = .store ∧ ((opNow t).lane? 3).map (fun a => (a.va, a.b)) = some (16, 0x1237) ∧ t.agenda = [.replyArrival ⟨0, 0⟩]) :=
  ran_of_now (by decide +kernel)

theorem test_stT : Ran 0x000000006020A8140A004161 (row 10 (fun _ => 0x200000) ∘ row 11 (fun _ => 0) ∘ pred 1 2 ∘ row 21 (fun l => 5 + l))
    (fun i t => i = .stT { mf 1 0 20 10 21 with g := ⟨1, false, false⟩, pk := 1, sc := 3 } ∧ (opNow t).kind = .storeT ∧ (opNow t).lanes.map (fun a => (a.lane, a.pa, a.b)) = [(1, 0x200000, 6)] ∧ ((warpNow t).row 20).full = false) :=
  ran_of_now (by decide +kernel)

theorem test_ldu : Ran 0x000040040000050141100062 (sreg 0 0x20 ∘ scratchAt 0x24 0xAB ∘ scratchAt 0x25 0 ∘ scratchAt 0x26 1 ∘ scratchAt 0x27 0)
    (fun i t => i = .ldu { mf 0 2 642 640 0 with sp := 1, w := 4 } ∧ (opNow t).kind = .load ∧ (opNow t).lanes.map (·.va) = [0x24] ∧ ((warpNow t).sreg 2).full = false ∧ t.agenda = [.replyArrival ⟨0, 0⟩]) :=
  ran_of_now (by decide +kernel)

theorem test_pref : Ran 0x000000006040001000000063 (row 8 (fun l => 0x100000 + 4 * l) ∘ row 9 (fun _ => 0))
    (fun i t => i = .pref { mf 0 0 0 8 0 with pk := 2, sc := 3 } ∧ ((warpNow t).key 2).p = 1 ∧ ((warpNow t).key 2).lead 4 = 1) :=
  ran_of_now (by decide +kernel)

theorem test_discard : Ran 0x000000006040050000000064 (sreg 0 0x300000)
    (fun i t => i = .discard { mf 0 0 0 640 0 with pk := 2, sc := 3 } ∧ (opNow t).kind = .discard ∧ (opNow t).parts.map (·.line) = [0x6000]) :=
  ran_of_now (by decide +kernel)

theorem test_atom : Ran 0x000000004041481014080165 (row 8 (fun l => 0x100000 + 4 * l) ∘ row 9 (fun _ => 0) ∘ row 41 (fun l => l))
    (fun i t => i = .atom { mf 1 1 40 8 41 with pk := 2, sc := 2 } ∧ (opNow t).kind = .atomic ∧ (opNow t).lanes.map (·.b) = (List.range 32).map (BitVec.ofNat 64) ∧ ((warpNow t).row 40).full = false) :=
  ran_of_now (by decide +kernel)

theorem test_atomT : Ran 0x000300006020AD000B00E065 (sreg 0 0x1000 ∘ pred 3 1 ∘ row 21 (fun _ => 9))
    (fun i t => i = .atomT { mf 32 0 22 640 21 with g := ⟨3, false, false⟩, pk := 1, sc := 3, w := 48 } ∧ (opNow t).lanes.map (fun a => (a.lane, a.pa, a.b)) = [(0, 0x1030, 9)] ∧ ((warpNow t).row 22).full = false ∧ ((warpNow t).row 23).full = false) :=
  ran_of_now (by decide +kernel)

theorem test_atomc : Ran 0x00006000600020100A000066 (row 8 (fun l => 0x100000 + 4 * l) ∘ row 9 (fun _ => 0) ∘ row 4 (fun _ => 7) ∘ row 6 (fun l => l))
    (fun i t => i = .atomc { mf 0 0 20 8 4 with sc := 3, w := 6 } ∧ (opNow t).kind = .atomc ∧ (opNow t).lanes.map (fun a => (a.pa, a.b, a.c)) = (List.range 32).map (fun l => (0x100000 + 4 * l, 7, BitVec.ofNat 64 l))) :=
  ran_of_now (by decide +kernel)

theorem test_atomcT : Ran 0x00006000600020100A002066 (row 8 (fun l => 0x100000 + 4 * l) ∘ row 9 (fun _ => 0))
    (fun i t => i = .atomcT { mf 32 0 20 8 4 with sc := 3, w := 6 } ∧ (opNow t).dests = [.row 20, .row 21]) :=
  ran_of_now (by decide +kernel)

theorem test_red : Ran 0x0000000060A0250000080167 (sreg 0 0x1000 ∘ row 4 (fun l => l))
    (fun i t => i = .red { mf 1 1 0 640 4 with pk := 5, sc := 3 } ∧ (opNow t).kind = .red ∧ ((warpNow t).key 5).p = 1) :=
  ran_of_now (by decide +kernel)


/-! ## Keys and copies (R107 to R114, R175 to R179) -/

theorem test_kcopy : Ran 0x000230000000000000000070 (keyWith 2 { p := 5, t := [(1, 4)], l := 6, stat := 8 } ∘ keyWith 3 { p := 9, t := [(1, 3)], l := 1 } ∘ keyWith 1 { p := 5, t := [(1, 2)], l := 8 })
    (fun i t => i = .kcopy { mf 0 0 0 0 0 with w := 35 } ∧ ((warpNow t).key 3).t.get 0 1 = 4 ∧ ((warpNow t).key 3).l = 6 ∧ ((warpNow t).key 3).p = 9) :=
  ran_of_now (by decide +kernel)

theorem test_kjoin : Ran 0x000130000000000000000071 (keyWith 2 { p := 5, t := [(1, 4)], l := 6, stat := 8 } ∘ keyWith 3 { p := 9, t := [(1, 3)], l := 1 } ∘ keyWith 1 { p := 5, t := [(1, 2)], l := 8 })
    (fun i t => i = .kjoin { mf 0 0 0 0 0 with w := 19 } ∧ ((warpNow t).key 3).t.get 0 1 = 3 ∧ ((warpNow t).key 3).l = 9) :=
  ran_of_now (by decide +kernel)

theorem test_kclr : Ran 0x000030000000000000000072 (keyWith 2 { p := 5, t := [(1, 4)], l := 6, stat := 8 } ∘ keyWith 3 { p := 9, t := [(1, 3)], l := 1 } ∘ keyWith 1 { p := 5, t := [(1, 2)], l := 8 })
    (fun i t => i = .kclr { mf 0 0 0 0 0 with w := 3 } ∧ ((warpNow t).key 3).t.get 0 1 = 0 ∧ ((warpNow t).key 3).l = 0 ∧ ((warpNow t).key 3).p = 9) :=
  ran_of_now (by decide +kernel)

theorem test_kwait : Ran 0x000010004800000142000073 (keyWith 4 { stat := 8 })
    (fun i t => i = .kwait { mf 0 0 644 0 0 with ck := 4, sc := 2, w := 1 } ∧ sAt t 4 = 8 ∧ ((warpNow t).key 4).stat = 0) :=
  ran_of_now (by decide +kernel)

theorem test_kpoll : Ran 0x000020006600000000000074 (keyWith 1 { p := 1, c := [(3, { lead := 0 })] } ∘ keyWith 3 { t := [(1, 1)] } ∘ pred 2 0xFFFFFFFF)
    (fun i t => i = .kpoll { mf 0 0 0 0 0 with ck := 3, sc := 3, w := 2 } ∧ pAt t 2 = 0) :=
  ran_of_now (by decide +kernel)

theorem test_fence : Ran 0x001020008000000000000075 (clsWith 1 { q := 3 })
    (fun i t => i = .fence { mf 0 0 0 0 0 with sc := 4, w := 258 } ∧ ((warpNow t).fences.find? 0).map (fun e => (e.scope, e.n.get 0 1)) = some (4, 3) ∧ ((warpNow t).fences.find? 0).map (fun e => (e.pred, e.succ)) = some (2, 2)) :=
  ran_of_now (by decide +kernel)

theorem test_ksend : Ran 0x000000008200052000000076 (sreg 17 0x200000000)
    (fun i t => i = .ksend { mf 0 0 0 656 0 with ck := 1, sc := 4 } ∧ (warpNow t).tokens = [⟨0, 1, 4⟩] ∧ t.agenda = [.ksendTokenSend 0]) :=
  ran_of_now (by decide +kernel)

theorem test_krecv : Ran 0x000030000013100000000077 (keyWith 2 { p := 5, t := [(1, 4)], l := 6, stat := 8 } ∘ keyWith 3 { p := 9, t := [(1, 3)], l := 1 } ∘ keyWith 1 { p := 5, t := [(1, 2)], l := 8 })
    (fun i t => i = .krecv { mf 0 0 0 0 610 with w := 3 } ∧ ((warpNow t).key 3).l = 4 ∧ ((warpNow t).key 3).t.get 0 1 = 0) :=
  ran_of_now (by decide +kernel)

theorem test_cpy : Ran 0x000040000054400000000078 (sreg 8 0x100000 ∘ sreg 9 0x40 ∘ sreg 10 0x10 ∘ sreg 11 0x8)
    (fun i t => i = .cpy { mf 0 0 0 0 648 with pk := 2, w := 4 } ∧ (opNow t).kind = .copy ∧ (opNow t).eng = 4 ∧ (t.engine 4).ticket = 1 ∧ t.agenda = [.copyDescriptorEnqueue 0]) :=
  ran_of_now (by decide +kernel)

theorem test_cpyt : Ran 0x000040004274400000000079 (sreg 8 0x100000 ∘ sreg 9 0x40 ∘ sreg 10 0x10002000010 ∘ sreg 11 0x8 ∘ sreg 12 0x1000 ∘ sreg 13 0x0 ∘ sreg 14 0x80 ∘ sreg 15 0x0)
    (fun i t => i = .cpyt { mf 0 0 0 0 648 with ck := 1, pk := 3, sc := 2, w := 4 } ∧ (opNow t).kind = .copy ∧ (opNow t).pk = 3 ∧ (opNow t).regs.length = 8) :=
  ran_of_now (by decide +kernel)

theorem test_cpyr : Ran 0x0001F0008034C0000000007A (sreg 24 0x100000 ∘ sreg 25 0x40 ∘ sreg 26 0x10 ∘ sreg 27 0x5000000000008)
    (fun i t => i = .cpyr { mf 0 0 0 0 664 with pk := 1, sc := 4, w := 31 } ∧ (opNow t).kind = .copy ∧ (opNow t).eng = 0) :=
  ran_of_now (by decide +kernel)

theorem test_cpyf : Ran 0x000230000014C0014500007B (sreg 24 0x1122334455667788 ∘ sreg 25 0x40 ∘ sreg 26 0x10 ∘ sreg 27 0x8 ∘ engineWith 3 { ticket := 9 })
    (fun i t => i = .cpyf { mf 0 0 650 0 664 with w := 35 } ∧ sAt t 10 = 0x30000000000009 ∧ (t.engine 3).ticket = 10) :=
  ran_of_now (by decide +kernel)

theorem test_cpyqQuery : Ran 0x00000000201450014100007C (sreg 10 5)
    (fun i t => i = .cpyqQuery { mf 0 0 642 0 650 with sc := 1 } ∧ (opNow t).kind = .copyQuery ∧ (opNow t).cancelled = false ∧ ((warpNow t).sreg 2).full = false) :=
  ran_of_now (by decide +kernel)

theorem test_cpyqCancel : Ran 0x00001000001450014100007C (id)
    (fun i t => i = .cpyqCancel { mf 0 0 642 0 650 with w := 1 } ∧ (opNow t).cancelled = true ∧ t.agenda = [.copyQueryRequest 0]) :=
  ran_of_now (by decide +kernel)


/-! ## Lockets (R218 to R222) -/

theorem test_mint : Ran 0x000050000013100141000080 (contextPage)
    (fun i t => i = .mint { mf 0 0 642 0 610 with w := 5 } ∧ (opNow t).kind = .mint ∧ (opNow t).dests = [.s 2, .s 3]) :=
  ran_of_now (by decide +kernel)

theorem test_rwr : Ran 0x000000004280A51400000081 (sreg 11 0x100000000 ∘ row 20 (fun l => l))
    (fun i t => i = .rwr { mf 0 0 0 650 20 with pk := 4, ck := 1, sc := 2 } ∧ (opNow t).kind = .rwr ∧ (opNow t).lanes.map (·.b) = (List.range 32).map (BitVec.ofNat 64) ∧ ((warpNow t).key 4).p = 1) :=
  ran_of_now (by decide +kernel)

theorem test_rwrb : Ran 0x000010004014851542800082 (sreg 11 0x100000000 ∘ sreg 16 3)
    (fun i t => i = .rwrb { mf 0 0 645 650 656 with sc := 2, w := 1 } ∧ (opNow t).kind = .rwr ∧ (reqOfOp (opNow t)).values = List.replicate 16 3 ∧ (opNow t).dests = [.s 5]) :=
  ran_of_now (by decide +kernel)

theorem test_empty : Ran 0x000000000013100000000083 (id)
    (fun i t => i = .empty (mf 0 0 0 0 610) ∧ (opNow t).val = 4 ∧ (splitNow t).wait = .reply 0) :=
  ran_of_now (by decide +kernel)

theorem test_emptyMask : Ran 0x000000000014280000000183 (sreg 5 0x80000001)
    (fun i t => i = .emptyMask (mf 1 0 0 0 645) ∧ (opNow t).val = 0x80000001) :=
  ran_of_now (by decide +kernel)

theorem test_fullq : Ran 0x000020000013100000000084 (pred 2 0 ∘ emptyRow 162)
    (fun i t => i = .fullq { mf 0 0 0 0 610 with w := 2 } ∧ pAt t 2 = 0) :=
  ran_of_now (by decide +kernel)

theorem test_fullq_full : Ran 0x000020000000500000000084 (pred 2 0)
    (fun i t => i = .fullq { mf 0 0 0 0 10 with w := 2 } ∧ pAt t 2 = 0xFFFFFFFF) :=
  ran_of_now (by decide +kernel)


/-! ## The matrix engine (R278 to R291) -/

theorem test_torcTake : Ran 0x000000000000000000000088 (id)
    (fun i t => i = .torcTake (mf 0 0 0 0 0) ∧ (t.core 0).torc = some testWarp ∧ (splitNow t).path.pc = 1) :=
  ran_of_now (by decide +kernel)

theorem test_torcPass : Ran 0x000000000000000000000188 (holdTorc)
    (fun i t => i = .torcPass (mf 1 0 0 0 0) ∧ (t.core 0).torc = none ∧ (splitNow t).path.pc = 1) :=
  ran_of_now (by decide +kernel)

theorem test_slotClaim : Ran 0x000230000000000000000089 (id)
    (fun i t => i = .slotClaim { mf 0 0 0 0 0 with w := 35 } ∧ (t.claim 0 0 true 3).holder = some 0) :=
  ran_of_now (by decide +kernel)

theorem test_slotRelease : Ran 0x000230000000000000000189 (claimSlots)
    (fun i t => i = .slotRelease { mf 1 0 0 0 0 with w := 35 } ∧ (t.claim 0 0 true 3).holder = none) :=
  ran_of_now (by decide +kernel)

theorem test_accz : Ran 0x10000000000010000000008A (holdTorc)
    (fun i t => i = .accz { mf 0 0 0 0 2 with w := 65536 } ∧ (opNow t).kind = .accz ∧ (opNow t).fn = 2 ∧ (t.core 0).matrix = [0]) :=
  ran_of_now (by decide +kernel)

theorem test_accld : Ran 0x00000000002015000000008B (sreg 0 0x100000 ∘ holdTorc)
    (fun i t => i = .accld { mf 0 0 0 640 2 with pk := 1 } ∧ (opNow t).kind = .accld ∧ ((warpNow t).key 1).p = 1) :=
  ran_of_now (by decide +kernel)

theorem test_mma : Ran 0x0000000004D280F11480008C (claimSlots ∘ holdTorc ∘ sreg 0 0)
    (fun i t => i = .mma ⟨gd, 0, 1, 5, 2, 15, 640, 4, 3, true⟩ ∧ (opNow t).kind = .mma ∧ (opNow t).fn = 1 ∧ ((warpNow t).key 4).p = 1 ∧ t.agenda.getLast? = some (.mmaExecute 0)) :=
  ran_of_now (by decide +kernel)

theorem test_accrd : Ran 0x00283000000008000518008D (id)
    (fun i t => i = .accrd { mf 0 3 10 0 1 with w := 643 } ∧ (opNow t).kind = .accrd ∧ ((warpNow t).row 10).full = false) :=
  ran_of_now (by decide +kernel)

theorem test_drain : Ran 0x00000000005480000000008E (sreg 16 0x100000 ∘ sreg 17 0x80 ∘ sreg 18 0x0 ∘ sreg 19 0x1200000)
    (fun i t => i = .drain { mf 0 0 0 0 656 with pk := 2 } ∧ (opNow t).kind = .drain ∧ ((warpNow t).key 2).p = 1) :=
  ran_of_now (by decide +kernel)

theorem test_accqStatus : Ran 0x00000000000018014100008F (id)
    (fun i t => i = .accqStatus (mf 0 0 642 0 3) ∧ (opNow t).kind = .accq ∧ (opNow t).dests = [.s 2]) :=
  ran_of_now (by decide +kernel)

theorem test_accqRsum : Ran 0x00008000000018000500018F (id)
    (fun i t => i = .accqRsum { mf 1 0 10 0 3 with w := 8 } ∧ (opNow t).dests = [.row 10, .row 11]) :=
  ran_of_now (by decide +kernel)


/-! ## Barriers, launches, events and queues (R335 to R342), versions (R355), system (R399) -/

theorem test_barArrive : Ran 0x000230000000000000000090 (id)
    (fun i t => i = .barArrive { mf 0 0 0 0 0 with w := 35 } ∧ (t.team? 0).map (fun tm => ((tm.bars.get {} 3).ph, (tm.bars.get {} 3).cnt)) = some (0, 0) ∨ (t.team? 0).map (fun tm => (tm.bars.get {} 3).cnt) = some 1) :=
  ran_of_now (by decide +kernel)

theorem test_barWait : Ran 0x000030000000000000000190 (id)
    (fun i t => i = .barWait { mf 1 0 0 0 0 with w := 3 } ∧ (splitNow t).path.pc = 1) :=
  ran_of_now (by decide +kernel)

theorem test_barSync : Ran 0x000030004400000000000290 (id)
    (fun i t => i = .barSync { mf 2 0 0 0 0 with ck := 2, sc := 2, w := 3 } ∧ (t.team? 0).map (fun tm => (tm.bars.get {} 3).ph) = some 1 ∧ (splitNow t).path.pc = 1) :=
  ran_of_now (by decide +kernel)

theorem test_spawn : Ran 0x000000000000050000000091 (sreg 0 0x4000)
    (fun i t => i = .spawn (mf 0 0 0 640 0) ∧ (splitNow t).wait = .spawn ∧ t.agenda = [.spawnRequest testRef 0x4000]) :=
  ran_of_now (by decide +kernel)

theorem test_evsig : Ran 0x000050000014000000000092 (sreg 0 7)
    (fun i t => i = .evsig { mf 0 0 0 0 640 with w := 5 } ∧ t.agenda = [.eventChangeApply 1 5 7] ∧ (splitNow t).path.pc = 1) :=
  ran_of_now (by decide +kernel)

theorem test_evwait : Ran 0x000000000014050200000193 (sreg 0 9 ∘ sreg 1 0x10006)
    (fun i t => i = .evwait (mf 1 0 0 641 640) ∧ (splitNow t).wait = .event 1 6 9) :=
  ran_of_now (by decide +kernel)

theorem test_qpush : Ran 0x000010004034450000000094 (sreg 0 0x40000 ∘ sreg 8 77)
    (fun i t => i = .qpush { mf 0 0 0 640 648 with w := 1, pk := 1, sc := 2 } ∧ (opNow t).kind = .qpush ∧ (opNow t).parts.map (·.line) = [0x800] ∧ (opNow t).regs.head? = some 77) :=
  ran_of_now (by decide +kernel)

theorem test_qpop : Ran 0x000010004020050144000095 (sreg 0 0x40000)
    (fun i t => i = .qpop { mf 0 0 648 640 0 with w := 1, pk := 1, sc := 2 } ∧ (opNow t).kind = .qpop ∧ ((warpNow t).sreg 14).full = false ∧ ((warpNow t).sreg 15).full = true) :=
  ran_of_now (by decide +kernel)

theorem test_qkick : Ran 0x0000000000140D0000000096 (sreg 0 0x205 ∘ sreg 1 8 ∘ queueWith 2 5 { state := 1, ctx := 1 })
    (fun i t => i = .qkick (mf 0 0 0 640 641) ∧ (opNow t).kind = .kick ∧ (opNow t).regs = [2, 5, 8] ∧ (t.queue 2 5).kick = 0 ∧ t.agenda = [.replyArrival ⟨0, 0⟩]) :=
  ran_of_now (by decide +kernel)

theorem test_pubv : Ran 0x000070000014600000000097 (sreg 12 1 ∘ refinableEvent 7)
    (fun i t => i = .pubv { mf 0 0 0 0 652 with w := 7 } ∧ (opNow t).kind = .pubv ∧ (opNow t).order = 0 ∧ (splitNow t).wait = .reply 0) :=
  ran_of_now (by decide +kernel)

theorem test_pubvFinal : Ran 0x300070004494600000000197 (sreg 12 1 ∘ refinableEvent 7)
    (fun i t => i = .pubvFinal { mf 1 0 0 0 652 with pk := 4, ck := 2, sc := 2, w := 196615 } ∧ (opNow t).order = 1 ∧ (opNow t).rm = 3 ∧ t.agenda = [.pubvApply 0]) :=
  ran_of_now (by decide +kernel)

theorem test_stopref : Ran 0x000070000000000000000098 (refinableEvent 7)
    (fun i t => i = .stopref { mf 0 0 0 0 0 with w := 7 } ∧ t.agenda = [.stoprefApply 1 7] ∧ (splitNow t).path.pc = 1) :=
  ran_of_now (by decide +kernel)

theorem test_vchk : Ran 0x100050000000000000000099 (refinableEvent 5)
    (fun i t => i = .vchk { mf 0 0 0 0 0 with w := 65541 } ∧ (opNow t).order = 0 ∧ t.agenda = [.vchkRead 0]) :=
  ran_of_now (by decide +kernel)

theorem test_vchkX : Ran 0x100050000000000000000199 (refinableEvent 5)
    (fun i t => i = .vchkX { mf 1 0 0 0 0 with w := 65541 } ∧ (opNow t).order = 1) :=
  ran_of_now (by decide +kernel)

theorem test_trap : Ran 0x0001200000000000000000A0 (id)
    (fun i t => i = .trap { mf 0 0 0 0 0 with w := 18 } ∧ (splitNow t).own.map (fun x => (x.cls, x.code, x.addr)) = some (6, 4, 0x12) ∧ (splitNow t).path.pc = 1) :=
  ran_of_now (by decide +kernel)

theorem test_csrr : Ran 0x0000000000000000050000A1 (warpWith (fun w => { w with rmode := 3, ftz := true }))
    (fun i t => i = .csrr { mf 0 0 10 0 0 with w := 0 } ∧ at_ t 10 31 = 11) :=
  ran_of_now (by decide +kernel)

theorem test_csrw : Ran 0x0000000000142800000000A2 (sreg 5 0xB)
    (fun i t => i = .csrw (mf 0 0 0 0 645) ∧ (warpNow t).rmode = 3 ∧ (warpNow t).ftz = true) :=
  ran_of_now (by decide +kernel)

theorem test_csrwIndclr : Ran 0x0002100000142800000000A2 (warpWith (fun w => { w with indet := [{}] }))
    (fun i t => i = .csrwIndclr { mf 0 0 0 0 645 with w := 33 } ∧ (warpNow t).indet = []) :=
  ran_of_now (by decide +kernel)


/-! ## Ill-formed instructions: one for each check -/

theorem test_refused_opcode : decode 0x0C = .error .opcode := by decide +kernel
theorem test_refused_function : decode 0x100 = .error .function ∧ (Instr.nop { cf 0 0 0 0 0 with fn := 1 }).wellFormed = false := by
  decide +kernel
theorem test_refused_type : (Instr.iadd (vf 0 0 10 2 4)).wellFormed = false ∧ decode 0x13 = .error .type := by
  decide +kernel
theorem test_refused_reserved : (Instr.nop (cf 1 0 0 0 0)).wellFormed = false ∧ decode (0x800000#96) = .error .reserved := by
  decide +kernel
theorem test_refused_encoding : (Instr.fadd { vf 0 3 10 2 4 with rm := 6 }).wellFormed = false
    ∧ (Instr.ld { mf 0 0 20 8 0 with sc := 5 }).wellFormed = false
    ∧ (Instr.iadd { vf 0 1 10 2 0 with bk := 3 }).wellFormed = false := by decide +kernel
theorem test_refused_register : (Instr.iadd (vf 0 1 725 2 4)).wellFormed = false
    ∧ (Instr.iadd (vf 0 1 724 2 4)).wellFormed = true := by decide +kernel

/-! ## Instructions: states and operands that meet the hypotheses of the statements -/

/-- The state meets the invariant, the well-formed instruction i is ready in it, and what is said of the issuing split
and its lanes holds. -/
def Meets (s : State) (i : Instr) (p : Cx → Mask → Prop) : Prop :=
  ∃ c m, s.Inv ∧ i.wellFormed = true ∧ s.ready c i m ∧ p c m

theorem meets_of_now {s : State} {i : Instr} {p : Cx → Mask → Prop} [∀ c m, Decidable (p c m)]
    (h : (invNow s && i.wellFormed && readyNow s i (fun c m => decide (p c m))) = true) : Meets s i p := by
  simp only [Bool.and_eq_true] at h
  obtain ⟨⟨h1, h2⟩, h3⟩ := h
  obtain ⟨c, m, h4, h5⟩ := ready_of_now h3
  exact ⟨c, m, inv_of_now h1, h2, h4, of_decide_eq_true h5⟩

/-- The state meets the invariant, and what is said of the view of the issuing split holds. -/
def Views (s : State) (p : Cx → Prop) : Prop := ∃ c, s.Inv ∧ s.issuing c ∧ p c

def viewsNow (s : State) (p : Cx → Bool) : Bool :=
  invNow s && (match s.cur with
    | none => false
    | some r => match s.cxOf r with
      | none => false
      | some c => c.ref = r && p c)

theorem views_of_now {s : State} {p : Cx → Prop} [∀ c, Decidable (p c)] (h : viewsNow s (fun c => decide (p c)) = true) :
    Views s p := by
  simp only [viewsNow, Bool.and_eq_true] at h
  obtain ⟨h1, h2⟩ := h
  split at h2
  · cases h2
  · next r hr =>
    split at h2
    · cases h2
    · next c hc =>
      simp only [Bool.and_eq_true, decide_eq_true_eq] at h2
      obtain ⟨h3, h4⟩ := h2
      subst h3
      exact ⟨c, inv_of_now h1, ⟨hr, hc⟩, h4⟩

/-- A warp that issues next. -/
def s0 : State := placed 0

theorem witness_DecodeEncodeRoundTrip :
    (Instr.iadd (vf 0 1 10 2 4)).wellFormed = true ∧ (Instr.iadd (vf 0 1 10 2 4)).isWord = true := by decide +kernel
theorem witness_DecodeOnlyItsOwnWord : decode 0 = .ok (.nop (cf 0 0 0 0 0)) := by decide +kernel

theorem witness_IntegerElements : (∃ g, intResult (.iadd (vf 0 1 10 2 4)) = some (0x13, vf 0 1 10 2 4, g))
    ∧ Meets s0 (.iadd (vf 0 1 10 2 4)) (fun c _ => (s0.bValues c 0x13 (vf 0 1 10 2 4)).isSome = true) :=
  ⟨⟨_, rfl⟩, meets_of_now (by decide +kernel)⟩
theorem witness_BitResults : (∃ g, bitResult (.shl (vf 0 0 10 2 4)) = some (0x21, vf 0 0 10 2 4, g))
    ∧ Meets s0 (.shl (vf 0 0 10 2 4)) (fun c _ => (s0.bValues c 0x21 (vf 0 0 10 2 4)).isSome = true) :=
  ⟨⟨_, rfl⟩, meets_of_now (by decide +kernel)⟩
theorem witness_MoviSel : Meets s0 (.movi (vf 0 7 10 2 4)) (fun _ _ => True)
    ∧ Meets s0 (.sel { vf 0 4 642 640 644 with c := 3 }) (fun c m =>
      (s0.bValues c 0x12 { vf 0 4 642 640 644 with c := 3 }).isSome = true
        ∧ ∀ l, l < 64 → m.getLsbD l = true → (c.warp.pred 3).getLsbD l = false) :=
  ⟨meets_of_now (by decide +kernel), meets_of_now (by decide +kernel)⟩
theorem witness_CarryChains_vector : Meets s0 (.isubb { vf 0 6 10 2 4 with c := 17 }) (fun c _ =>
    (s0.bValues c 0x16 { vf 0 6 10 2 4 with c := 17 }).isSome = true) := meets_of_now (by decide +kernel)
theorem witness_CarryChains_scalar : Meets s0 (.iaddc { vf 0 2 642 640 641 with c := 17 }) (fun c m =>
    (s0.bValues c 0x15 { vf 0 2 642 640 641 with c := 17 }).isSome = true
      ∧ disagree m (fun l => (c.warp.pred 1).getLsbD l) = 0) := meets_of_now (by decide +kernel)
theorem witness_CarryChains_differ : Meets (pred 1 2 s0) (.iaddc { vf 0 2 642 640 641 with c := 17 }) (fun c m =>
    ((pred 1 2 s0).bValues c 0x15 { vf 0 2 642 640 641 with c := 17 }).isSome = true
      ∧ disagree m (fun l => (c.warp.pred 1).getLsbD l) ≠ 0) := meets_of_now (by decide +kernel)
theorem witness_CarryChains_reserved : (Instr.iaddc { vf 0 2 10 2 4 with c := 63 }).wellFormed = true
    ∧ (Instr.iaddc { vf 0 2 10 2 4 with c := 64 }).wellFormed = false := by decide +kernel
theorem witness_FloatElements : (∃ g, fltResult (.fadd (vf 0 8 10 2 4)) = some (0x30, vf 0 8 10 2 4, g))
    ∧ Meets s0 (.fadd (vf 0 8 10 2 4)) (fun c _ => (s0.bValues c 0x30 (vf 0 8 10 2 4)).isSome = true) :=
  ⟨⟨_, rfl⟩, meets_of_now (by decide +kernel)⟩
theorem witness_FloatBitResults_minMax : (∃ g, fltBitsResult (.fmin (vf 0 9 10 2 4)) = some (0x34, vf 0 9 10 2 4, g))
    ∧ Meets s0 (.fmin (vf 0 9 10 2 4)) (fun c _ => (s0.bValues c 0x34 (vf 0 9 10 2 4)).isSome = true) :=
  ⟨⟨_, rfl⟩, meets_of_now (by decide +kernel)⟩
theorem witness_FloatBitResults_class : Meets s0 (.fclass (vf 0 7 10 2 0)) (fun c _ =>
    (s0.bValues c 0x40 (vf 0 7 10 2 0)).isSome = true) := meets_of_now (by decide +kernel)
/-- FSCALE of 1.0 by 32768, the largest exponent of the statement. -/
theorem witness_FloatBitResults_scale : Meets (row 2 (fun _ => 0x3F800000) (row 4 (fun _ => 32768) s0)) (.fscale (vf 0 3 10 2 4))
    (fun c m => ((row 2 (fun _ => 0x3F800000) (row 4 (fun _ => 32768) s0)).bValues c 0x3F (vf 0 3 10 2 4)).isSome = true
      ∧ m.getLsbD 31 = true ∧ (BitVec.ofNat 32 (readReg (row 2 (fun _ => 0x3F800000) (row 4 (fun _ => 32768) s0)) c 4 1 31)).toInt = 32768
      ∧ fmtF32.read c.warp.ftz (modedBits fmtF32 false false
          (readReg (row 2 (fun _ => 0x3F800000) (row 4 (fun _ => 32768) s0)) c 2 1 31)) = .fin false (2 ^ 23) (-23)) :=
  meets_of_now (by decide +kernel)
theorem witness_Conversions_cvt : elems 3 = (1, .flt fmtF32) ∧ elems 5 = (1, .int 64 true)
    ∧ Meets s0 (.cvt (vf 3 5 10 2 0)) (fun c _ => (s0.bValues c 0x42 (vf 3 5 10 2 0)).isSome = true) :=
  ⟨rfl, rfl, meets_of_now (by decide +kernel)⟩
theorem witness_Conversions_pack : Meets s0 (.pack { vf 19 15 10 2 4 with c := 6 }) (fun c _ =>
    (s0.bValues c 0x43 { vf 19 15 10 2 4 with c := 6 }).isSome = true) := meets_of_now (by decide +kernel)
theorem witness_Conversions_unpack : Meets s0 (.unpack (vf 51 14 10 2 0)) (fun c _ =>
    (s0.bValues c 0x44 (vf 51 14 10 2 0)).isSome = true) := meets_of_now (by decide +kernel)
/-- A tie, 3 halves. -/
theorem witness_RoundGridNeighbours : 4 ≤ 4 ∧ 0 < 1 ∧ 2 * (3 % 2 ^ 1) = 2 ^ 1 ∧ 6 % 2 ^ 1 = 0
    ∧ roundGrid 0 false 3 0 false 1 = 2 ∧ roundGrid 1 false 3 0 false 1 = 1 ∧ roundGrid 4 false 5 0 false 1 = 3 := by
  decide +kernel
theorem witness_EncodeOfDecode : fmtE4M3 ∈ [fmtF64, fmtF32, fmtF16, fmtBF16, fmtE4M3, fmtE5M2] ∧ 0xFF < 2 ^ fmtE4M3.width
    ∧ (fmtE4M3.decode 0x7F).isNaN = true ∧ (fmtE4M3.decode 0x7E).isNaN = false
    ∧ fmtE4M3.encode 1 true false (fmtE4M3.decode 0x7E) = 0x7E := by decide +kernel
theorem witness_ApproxSpecialValues : (fmtF32.decode 0x7FC00001).isNaN = true ∧ fmtF32.read true 0x7F800000 = .inf false
    ∧ fmtF64.read false 0xFFF0000000000000 = .inf true ∧ (∃ e, fmtF32.read true 0x80000001 = .fin true 0 e)
    ∧ ∃ k e, fmtF32.read false 0x80000001 = .fin true (k + 1) e :=
  ⟨by decide +kernel, by decide +kernel, by decide +kernel, ⟨_, rfl⟩, ⟨0, _, rfl⟩⟩
theorem witness_PredicateResults_setp : elems 5 = (1, .int 64 true) ∧ elems 7 = (1, .flt fmtF64)
    ∧ Meets s0 (.setp (vf 5 5 7 2 4)) (fun c _ => (s0.bValues c 0x50 (vf 5 5 7 2 4)).isSome = true)
    ∧ Meets s0 (.setp (vf 13 7 1 2 4)) (fun c _ => (s0.bValues c 0x50 (vf 13 7 1 2 4)).isSome = true) :=
  ⟨rfl, rfl, meets_of_now (by decide +kernel), meets_of_now (by decide +kernel)⟩
theorem witness_PredicateResults_vote : Meets s0 (.vote (vf 2 0 3 1 0)) (fun _ _ => True)
    ∧ Meets s0 (.vote (vf 3 4 10 1 0)) (fun _ _ => True) ∧ Meets s0 (.vote (vf 4 2 642 1 0)) (fun _ _ => True)
    ∧ Meets s0 (.plop (vf 0 0 3 1 2)) (fun _ _ => True) :=
  ⟨meets_of_now (by decide +kernel), meets_of_now (by decide +kernel), meets_of_now (by decide +kernel),
    meets_of_now (by decide +kernel)⟩
theorem witness_Shuffle : Meets s0 (.shfl (vf 3 4 10 2 4)) (fun c _ => (s0.bValues c 0x53 (vf 3 4 10 2 4)).isSome = true) :=
  meets_of_now (by decide +kernel)
theorem witness_ReduceAndScan : Meets s0 (.wred (vf 6 7 642 2 0)) (fun _ _ => True)
    ∧ Meets s0 (.wscan (vf 40 3 10 2 0)) (fun _ _ => True) :=
  ⟨meets_of_now (by decide +kernel), meets_of_now (by decide +kernel)⟩
/-- A paired team's warp, and one whose last exchange is open. -/
def sPair : State := paired s0
def sOpen : State := { sPair with ops := [(0, { kind := .xshfl, ref := testRef })], nextOp := 1 }
theorem witness_ExchangeStarts : Meets sPair (.xshfl (vf 0 4 10 2 0)) (fun c _ => openXshfl sPair c.wref = none)
    ∧ Meets sOpen (.xshfl (vf 0 4 10 2 0)) (fun c _ => (openXshfl sOpen c.wref).isSome = true) :=
  ⟨meets_of_now (by decide +kernel), meets_of_now (by decide +kernel)⟩

/-- The last word but one of window 7 in the constant cache, and a window of 5 words. -/
def fConst : VF := { vf 0 6 10 2 0 with bk := 2, w := 0xFFFFE }
def sConst : State := s0.modCore 0 (fun k => { k with const := [⟨1, 0xFFF, 7⟩] })
def sSmall : State := launchWith (fun l => { l with desc := { l.desc with cwSize := List.replicate 8 5 } }) s0
theorem witness_OperandB_cached : Meets sConst (.iadd fConst) (fun c _ =>
    131070 + 2 ≤ c.launch.desc.cwSize.getD 7 0 ∧ ((sConst.core c.core).constFind c.ctx 0xFFF).isSome = true) :=
  meets_of_now (by decide +kernel)
theorem witness_OperandB_miss : Meets s0 (.iadd fConst) (fun c _ =>
    131070 + 2 ≤ c.launch.desc.cwSize.getD 7 0 ∧ (s0.core c.core).constFind c.ctx 0xFFF = none) :=
  meets_of_now (by decide +kernel)
theorem witness_OperandB_beyond : (∃ sp, vSpec 0x13 = some sp ∧ sp.b = .reg)
    ∧ Meets sSmall (.iadd { fConst with w := 4 }) (fun c _ => c.launch.desc.cwSize.getD 0 0 < 4 + 2) :=
  ⟨⟨_, rfl, rfl⟩, meets_of_now (by decide +kernel)⟩
/-- A 64-bit constant at an odd word offset. -/
theorem witness_OperandB_odd : Views s0 (fun c => (Instr.iadd { fConst with w := 0xFFFFF }).wellFormed = true ∧ c.path.pc = 0)
    ∧ (∃ sp, vSpec 0x13 = some sp ∧ sp.b = .reg ∧ 4 ≤ bType sp { fConst with w := 0xFFFFF } ∧ bType sp { fConst with w := 0xFFFFF } ≤ 7) :=
  ⟨views_of_now (by decide +kernel), _, rfl, rfl, by decide, by decide⟩

/-! ### Lane memory instructions -/

/-- Lanes from an address on, 4 bytes apart, in the pair w8. -/
def sLanes (a : Nat) : State := row 8 (fun l => a + 4 * l) s0
/-- Whether every address of an instruction's access has a translation already, and whether the access passes its checks. -/
def accessNow (s : State) (c : Cx) (m : Mask) (i : Instr) (there ok : Bool) : Bool :=
  (s.memAccess c m i).any (fun q => (pagesMissing s c.split.held c.core c.ctx (q.lanes.map (·.2))).isEmpty = there
    && (!there || (checkLanes s c q.agent q.align q.lanes).isOk = ok))
def mappedNow (s : State) (c : Cx) (vas : List Dword) : Bool := (pagesMissing s c.split.held c.core c.ctx vas).isEmpty
/-- s2 points into a page that no TLB holds. -/
def sFar : State := sreg 2 0x40000000000 s0
theorem witness_GlobalAccessesStart : Meets (sLanes 0x100000) (.ld { mf 0 3 20 8 0 with sc := 2 })
      (fun c m => accessNow (sLanes 0x100000) c m (.ld { mf 0 3 20 8 0 with sc := 2 }) true true = true)
    ∧ Meets (sLanes 0x100000) (.atomcT { mf 32 4 20 8 4 with w := 6 })
      (fun c m => accessNow (sLanes 0x100000) c m (.atomcT { mf 32 4 20 8 4 with w := 6 }) true false = true)
    ∧ Meets (sLanes 0x100000) (.discard (mf 0 0 0 8 0))
      (fun c m => accessNow (sLanes 0x100000) c m (.discard (mf 0 0 0 8 0)) true true = true) :=
  ⟨meets_of_now (by decide +kernel), meets_of_now (by decide +kernel), meets_of_now (by decide +kernel)⟩
theorem witness_GlobalAccessesTrapOrWait_trap : Meets (sLanes 0x100001) (.st (mf 0 3 0 8 4))
    (fun c m => accessNow (sLanes 0x100001) c m (.st (mf 0 3 0 8 4)) true false = true) := meets_of_now (by decide +kernel)
theorem witness_GlobalAccessesTrapOrWait_wait : Meets sFar (.ld (mf 0 3 20 642 0))
    (fun c m => accessNow sFar c m (.ld (mf 0 3 20 642 0)) false true = true) := meets_of_now (by decide +kernel)
/-- The last word of the region, and one byte beyond it. -/
theorem witness_ScratchpadAccesses_own : Meets (row 8 (fun _ => 65532) s0) (.ld { mf 0 3 20 8 0 with sp := 1 }) (fun c m =>
      checkScratch c 1 4 ((accessLanes m false).map (fun l => (l, laneAddr (row 8 (fun _ => 65532) s0) c { mf 0 3 20 8 0 with sp := 1 } l))) = none)
    ∧ Meets (row 8 (fun _ => 65532) s0) (.st { mf 0 3 0 8 4 with sp := 1 }) (fun c m =>
      checkScratch c 1 4 ((accessLanes m false).map (fun l => (l, laneAddr (row 8 (fun _ => 65532) s0) c { mf 0 3 0 8 4 with sp := 1 } l))) = none) :=
  ⟨meets_of_now (by decide +kernel), meets_of_now (by decide +kernel)⟩
theorem witness_ScratchpadAccesses_partner : Meets sPair (.ldu { mf 0 3 642 640 0 with sp := 2 }) (fun c m =>
      checkScratch c 2 4 ((accessLanes m true).map (fun l => (l, laneAddr sPair c { mf 0 3 642 640 0 with sp := 2 } l))) = none) :=
  meets_of_now (by decide +kernel)
theorem witness_ScratchpadAccesses_beyond : Meets (sreg 0 65536 s0) (.ldu { mf 0 3 642 640 0 with sp := 1 }) (fun c m =>
      (checkScratch c 1 4 ((accessLanes m true).map (fun l => (l, laneAddr (sreg 0 65536 s0) c { mf 0 3 642 640 0 with sp := 1 } l)))).isSome = true) :=
  meets_of_now (by decide +kernel)
theorem witness_PrefetchCompletesAtIssue : Meets s0 (.pref (mf 0 0 0 8 0)) (fun c m => s0.resident c.ref.team = true
      ∧ mappedNow s0 c ((lanesOf m).map (laneAddr s0 c (mf 0 0 0 8 0))) = true
      ∧ (c.warp.key 0).lead 4 = (c.warp.key 0).p ∧ ((c.warp.key 0).c.get {} 4).early = [])
    ∧ Meets sFar (.pref (mf 0 0 0 642 0)) (fun c m =>
      mappedNow sFar c ((lanesOf m).map (laneAddr sFar c (mf 0 0 0 642 0))) = false) :=
  ⟨meets_of_now (by decide +kernel), meets_of_now (by decide +kernel)⟩

/-! ### Keys, copies and lockets -/

theorem witness_KeyTargets : Meets s0 (.kcopy { mf 0 0 0 0 0 with w := 0x23 }) (fun _ _ => True)
    ∧ Meets s0 (.kjoin { mf 0 0 0 0 0 with w := 0x03 }) (fun _ _ => True)
    ∧ Meets s0 (.kjoin { mf 0 0 0 0 0 with w := 0xFF }) (fun _ _ => True)
    ∧ Meets s0 (.krecv { mf 0 0 0 0 639 with w := 3 }) (fun _ _ => True) :=
  ⟨meets_of_now (by decide +kernel), meets_of_now (by decide +kernel), meets_of_now (by decide +kernel),
    meets_of_now (by decide +kernel)⟩
theorem witness_KeyTests : Meets s0 (.kwait { mf 0 0 0 0 0 with ck := 2 }) (fun _ _ => True)
    ∧ Meets s0 (.kwait { mf 0 0 644 0 0 with ck := 2, w := 1 }) (fun _ _ => True) :=
  ⟨meets_of_now (by decide +kernel), meets_of_now (by decide +kernel)⟩
def fFence : MF := { mf 0 0 0 0 0 with sc := 4, w := 0x102 }
/-- Four fence points whose classes have not completed at SYS. -/
def sFenced (n : Nat) : State := warpWith (fun w =>
  { w with classes := [(0, { q := 1 })], fences := (List.range n).map (fun k => (k, ⟨4, 1, 0, [(0, 1)]⟩)) }) s0
theorem witness_FencePoints_empty : Meets s0 (.fence { fFence with w := 2 }) (fun _ _ => True) := meets_of_now (by decide +kernel)
theorem witness_FencePoints_full : Meets (sFenced 4) (.fence fFence) (fun c _ =>
    ∀ j, j < 4 → (c.warp.freeFences.fences.find? j).isSome = true) := meets_of_now (by decide +kernel)
theorem witness_FencePoints_free : Meets (sFenced 3) (.fence fFence) (fun c _ => c.warp.freeFences.fences.find? 3 = none
    ∧ ∀ j, j < 3 → (c.warp.freeFences.fences.find? j).isSome = true) := meets_of_now (by decide +kernel)
def sCopy : State := sreg 25 0x40 (sreg 26 16 (sreg 27 8 s0))
def fCopy (w : Nat) : MF := { mf 0 0 0 0 664 with w := BitVec.ofNat 20 w }
def copyRegs (c : Cx) : List Dword := (List.range 4).map (fun k => (c.warp.sreg (664 + k - 640)).val)
theorem witness_CopyStarts_refused : Meets (sreg 27 64 s0) (.cpy (fCopy 11)) (fun c _ =>
    copyOk c (.cpy (fCopy 11)) (copyRegs c) = false) := meets_of_now (by decide +kernel)
theorem witness_CopyStarts_starts : Meets sCopy (.cpyf (fCopy 31)) (fun c _ => copyOk c (.cpyf (fCopy 31)) (copyRegs c) = true
    ∧ ¬ 64 ≤ (sCopy.engine (chooseEngine sCopy 0 31)).fifo.length + enRoute sCopy (chooseEngine sCopy 0 31)) :=
  meets_of_now (by decide +kernel)
theorem witness_CopyStarts_full : Meets (engineWith 11 { fifo := List.range 64 } sCopy) (.cpy (fCopy 11)) (fun c _ =>
    copyOk c (.cpy (fCopy 11)) (copyRegs c) = true
      ∧ 64 ≤ ((engineWith 11 { fifo := List.range 64 } sCopy).engine 11).fifo.length) := meets_of_now (by decide +kernel)
/-- No permission; permission to write and to transfer keys; 16 tokens held. -/
def sSignet (hi n : Nat) : State :=
  warpWith (fun w => { w with tokens := (List.range n).map (fun k => ⟨k, 1, 4⟩) }) (sreg 11 hi s0)
def fSig : MF := mf 0 0 0 650 20
theorem witness_RemoteWritesStart_refused : Meets (sSignet 0 0) (.rwr fSig) (fun c _ => (c.warp.sreg 11).val.getLsbD 32 = false)
    ∧ Meets (sSignet 0 15) (.ksend (mf 0 0 0 650 0)) (fun c _ => c.warp.tokens.length < 16 ∧ (c.warp.sreg 11).val.getLsbD 33 = false) :=
  ⟨meets_of_now (by decide +kernel), meets_of_now (by decide +kernel)⟩
theorem witness_RemoteWritesStart_writes : Meets (sSignet 0x300000000 0) (.rwr fSig) (fun c _ => (c.warp.sreg 11).val.getLsbD 32 = true)
    ∧ Meets (sSignet 0x300000000 0) (.rwrb (mf 0 0 0 650 656)) (fun c m => (c.warp.sreg 11).val.getLsbD 32 = true
      ∧ lowLane m = some 0) :=
  ⟨meets_of_now (by decide +kernel), meets_of_now (by decide +kernel)⟩
theorem witness_RemoteWritesStart_tokens : Meets (sSignet 0x300000000 15) (.ksend (mf 0 0 0 650 0)) (fun c _ =>
      c.warp.tokens.length < 16 ∧ (c.warp.sreg 11).val.getLsbD 33 = true)
    ∧ Meets (sSignet 0x300000000 16) (.ksend (mf 0 0 0 650 0)) (fun c _ => 16 ≤ c.warp.tokens.length) :=
  ⟨meets_of_now (by decide +kernel), meets_of_now (by decide +kernel)⟩
def sImageFar : State := warpWith (fun w => { w with imageBase := 0x80000000000 }) s0
def mintVa (c : Cx) (b : Nat) : Dword := c.warp.imageBase + BitVec.ofNat 64 (256 * (b - 608))
theorem witness_MintAndEmpty_mint : Meets (contextPage s0) (.mint { mf 0 0 642 0 639 with w := 5 }) (fun c _ =>
      mappedNow (contextPage s0) c [mintVa c 639] = true ∧ (checkOne (contextPage s0) c .mint 4 (mintVa c 639)).isOk = true)
    ∧ Meets s0 (.mint { mf 0 0 642 0 639 with w := 5 }) (fun c _ => mappedNow s0 c [mintVa c 639] = true
      ∧ (checkOne s0 c .mint 4 (mintVa c 639)).isOk = false)
    ∧ Meets sImageFar (.mint { mf 0 0 642 0 639 with w := 5 }) (fun c _ => mappedNow sImageFar c [mintVa c 639] = false) :=
  ⟨meets_of_now (by decide +kernel), meets_of_now (by decide +kernel), meets_of_now (by decide +kernel)⟩
/-- A team with one locket: masks 0, 1 and 2. -/
def sLocket (v : Nat) : State :=
  launchWith (fun l => { l with desc := { l.desc with globals := 97 } }) 
    (sreg 5 v (s0.modSlice 5 (fun x => { x with res := [⟨1, 0x20000, 0, testWarp, 7⟩] })))
theorem witness_MintAndEmpty_empty : Meets (sLocket 0) (.emptyMask (mf 1 0 0 0 645)) (fun c _ => (c.warp.sreg 5).val.toNat % 2 ^ 32 = 0)
    ∧ Meets (sLocket 1) (.emptyMask (mf 1 0 0 0 645)) (fun c _ => anchorOf (sLocket 1) c.wref = some (5, 0x20000) ∧ 0 < (c.warp.sreg 5).val.toNat % 2 ^ 32
      ∧ (c.warp.sreg 5).val.toNat % 2 ^ 32 < 2 ^ (c.globals - 96))
    ∧ Meets (sLocket 2) (.emptyMask (mf 1 0 0 0 645)) (fun c _ => 2 ^ (c.globals - 96) ≤ (c.warp.sreg 5).val.toNat % 2 ^ 32) :=
  ⟨meets_of_now (by decide +kernel), meets_of_now (by decide +kernel), meets_of_now (by decide +kernel)⟩

/-! ### The matrix engine -/

/-- The issuing split has the path mask m. -/
def narrowed (m : Nat) (s : State) : State :=
  splitWith (fun sp => { sp with path := { sp.path with mask := BitVec.ofNat 64 m } }) s
def splitAdd (n : Nat) (x : Split) (s : State) : State := warpWith (fun w => { w with splits := w.splits.set n x }) s
/-- A second warp of the team, its split waiting. -/
def secondWarp (x : Wait) (s : State) : State :=
  s.modTeam 0 (fun t => { t with warps := t.warps.set 1 { warpNow s with splits := [(0, { splitNow s with wait := x })] } })
def otherWarp : WarpRef := ⟨0, 1⟩
def otherRef : SplitRef := ⟨0, 1, 0⟩
def torcHeld (w : WarpRef) (q : List SplitRef) (s : State) : State :=
  s.modCore 0 (fun c => { c with torc := some w, torcQ := q })
def claimWith (x : Claim) (s : State) : State := areaWith (fun a => { a with wclaims := a.wclaims.set 3 x }) s
def fSlot : MF := { mf 0 0 0 0 0 with w := 0x23 }
def fRel : MF := { mf 1 0 0 0 0 with w := 0x23 }

theorem witness_TorcAndSlots_splitMask : Meets (narrowed 0xFF s0) (.torcTake (mf 0 0 0 0 0)) (fun c _ => c.active ≠ c.warp.launchMask) :=
  meets_of_now (by decide +kernel)
/-- A restored warp's split waits for the torc while another split of it issues. -/
def sTorcWaits : State := torcHeld otherWarp [⟨0, 0, 1⟩] (splitAdd 1 { wait := .torc } s0)
theorem witness_TorcAndSlots_queued : Meets sTorcWaits (.slotClaim fSlot) (fun c _ =>
    (sTorcWaits.core c.core).torcQ.any (fun r => warpOf r = c.wref) = true) := meets_of_now (by decide +kernel)
theorem witness_MatrixIssues_queued : Meets sTorcWaits (.accrd { mf 0 3 10 0 1 with w := 643 }) (fun c _ =>
    (sTorcWaits.core c.core).torcQ.any (fun r => warpOf r = c.wref) = true) := meets_of_now (by decide +kernel)
theorem witness_TorcAndSlots_take : Meets (holdTorc s0) (.torcTake (mf 0 0 0 0 0)) (fun c _ =>
      c.active = c.warp.launchMask ∧ ((holdTorc s0).core c.core).torc = some c.wref)
    ∧ Meets s0 (.torcTake (mf 0 0 0 0 0)) (fun c _ => c.active = c.warp.launchMask ∧ (s0.core c.core).torc = none ∧ (s0.core c.core).torcQ = [])
    ∧ Meets (torcHeld otherWarp [] s0) (.torcTake (mf 0 0 0 0 0)) (fun c _ => c.active = c.warp.launchMask
      ∧ ((torcHeld otherWarp [] s0).core c.core).torc ≠ some c.wref ∧ ((torcHeld otherWarp [] s0).core c.core).torc ≠ none) :=
  ⟨meets_of_now (by decide +kernel), meets_of_now (by decide +kernel), meets_of_now (by decide +kernel)⟩
def sTorcQueue : State := torcHeld testWarp [otherRef] (secondWarp .torc s0)
theorem witness_TorcAndSlots_pass : Meets sTorcQueue (.torcPass (mf 1 0 0 0 0)) (fun c _ => c.active = c.warp.launchMask
      ∧ (sTorcQueue.core c.core).torc = some c.wref ∧ (sTorcQueue.core c.core).torcQ.head? = some otherRef ∧ otherRef ≠ c.ref
      ∧ (sTorcQueue.split? otherRef).map (·.wait) = some .torc)
    ∧ Meets s0 (.torcPass (mf 1 0 0 0 0)) (fun c _ => c.active = c.warp.launchMask ∧ (s0.core c.core).torc ≠ some c.wref) :=
  ⟨meets_of_now (by decide +kernel), meets_of_now (by decide +kernel)⟩
theorem witness_TorcAndSlots_claim : Meets (claimSlots s0) (.slotClaim fSlot) (fun c _ => c.active = c.warp.launchMask
      ∧ (slotClaim c true 3).holder = some c.ref.warp)
    ∧ Meets s0 (.slotClaim fSlot) (fun c _ => c.active = c.warp.launchMask ∧ (slotClaim c true 3).holder = none
      ∧ ∀ r ∈ (slotClaim c true 3).waiting, r.warp = c.ref.warp)
    ∧ Meets (claimWith { holder := some 1 } s0) (.slotClaim fSlot) (fun c _ => c.active = c.warp.launchMask
      ∧ (slotClaim c true 3).holder ≠ some c.ref.warp ∧ (slotClaim c true 3).holder ≠ none) :=
  ⟨meets_of_now (by decide +kernel), meets_of_now (by decide +kernel), meets_of_now (by decide +kernel)⟩
def sClaimed : State := claimWith { holder := some 0, waiting := [otherRef] } (secondWarp (.slot true 3) s0)
def sSlotBusy : State := { (claimSlots s0).modCore 0 (fun c => { c with matrix := [0] }) with
  ops := [(0, { kind := .mma, ref := testRef, ty := 9, size := 3 })], nextOp := 1 }
theorem witness_TorcAndSlots_release : Meets sClaimed (.slotRelease fRel) (fun c _ => c.active = c.warp.launchMask
      ∧ (slotClaim c true 3).holder = some c.ref.warp ∧ slotInUse sClaimed c true 3 = false
      ∧ (slotClaim c true 3).waiting.contains c.ref = false ∧ (slotClaim c true 3).waiting = [otherRef]
      ∧ otherRef.team = c.ref.team ∧ c.team.status = .running ∧ (sClaimed.split? otherRef).isSome = true)
    ∧ Meets (claimSlots s0) (.slotRelease fRel) (fun c _ => (slotClaim c true 3).waiting = []
      ∧ slotInUse (claimSlots s0) c true 3 = false)
    ∧ Meets sSlotBusy (.slotRelease fRel) (fun c _ => (slotClaim c true 3).holder = some c.ref.warp
      ∧ slotInUse sSlotBusy c true 3 = true)
    ∧ Meets s0 (.slotRelease fRel) (fun c _ => (slotClaim c true 3).holder ≠ some c.ref.warp) :=
  ⟨meets_of_now (by decide +kernel), meets_of_now (by decide +kernel), meets_of_now (by decide +kernel),
    meets_of_now (by decide +kernel)⟩

def sHold : State := claimSlots (holdTorc s0)
/-- The engine and the drain unit hold four operations each. -/
def sFull : State := { sHold.modCore 0 (fun c => { c with matrix := List.range 8 }) with
  ops := (List.range 8).map (fun k => (k, { kind := if k < 4 then .accz else .drain, ref := testRef, fn := 7 })), nextOp := 8 }
def fMma : XF := ⟨gd, 0, 1, 5, 2, 15, 640, 4, 3, true⟩
def fDrain : MF := mf 0 0 0 0 656
def sDrain (s : State) : State := sreg 16 0x100000 (sreg 17 128 (sreg 19 0x1200000 s))
theorem witness_MatrixIssues_starts : Meets sHold (.accz { mf 0 0 0 0 7 with w := 0x0FFFF }) (fun _ _ => True)
    ∧ Meets sHold (.mma fMma) (fun c m => (sHold.matrixAct c m (.mma fMma)).isSome = true
      ∧ ((sHold.core c.core).matrix.filterMap sHold.ops.find?).length < 4)
    ∧ Meets (sDrain s0) (.drain fDrain) (fun c m => ((sDrain s0).matrixAct c m (.drain fDrain)).isSome = true)
    ∧ Meets (sreg 0 0x100000 sHold) (.accld (mf 0 0 0 640 2)) (fun c m =>
      ((sreg 0 0x100000 sHold).matrixAct c m (.accld (mf 0 0 0 640 2))).isSome = true) :=
  ⟨meets_of_now (by decide +kernel), meets_of_now (by decide +kernel), meets_of_now (by decide +kernel),
    meets_of_now (by decide +kernel)⟩
def sDrainFar : State := sreg 16 0x40000000000 (sreg 17 128 (sreg 19 0x1200000 s0))
theorem witness_MatrixIssues_walks : Meets sDrainFar (.drain fDrain) (fun c m => (sDrainFar.core c.core).torcQ = []
      ∧ mappedNow sDrainFar c (sDrainFar.granuleVas c m (.drain fDrain)) = false)
    ∧ Meets (sDrain s0) (.drain fDrain) (fun c m => mappedNow (sDrain s0) c ((sDrain s0).granuleVas c m (.drain fDrain)) = true) :=
  ⟨meets_of_now (by decide +kernel), meets_of_now (by decide +kernel)⟩
theorem witness_MatrixIssues_waits : Meets sFull (.mma fMma) (fun c m => (sFull.matrixAct c m (.mma fMma)).isSome = true
      ∧ 4 ≤ (((sFull.core c.core).matrix.filterMap sFull.ops.find?).filter (fun o => isEngine o.kind)).length)
    ∧ Meets (sDrain sFull) (.drain fDrain) (fun c m => ((sDrain sFull).matrixAct c m (.drain fDrain)).isSome = true
      ∧ 4 ≤ ((((sDrain sFull).core c.core).matrix.filterMap (sDrain sFull).ops.find?).filter (fun o => o.kind = .drain)).length) :=
  ⟨meets_of_now (by decide +kernel), meets_of_now (by decide +kernel)⟩
theorem witness_MatrixIssues_traps : Meets s0 (.accz (mf 0 0 0 0 7)) (fun c _ => holdsTorc s0 c = false
      ∧ (s0.core c.core).torcQ.any (fun r => warpOf r = c.wref) = false)
    ∧ Meets (sreg 19 0x1E00000 s0) (.drain fDrain) (fun c _ =>
      drainOk c 0 (drainDesc ((List.range 4).map (fun k => readS c (656 + k)))) = false) :=
  ⟨meets_of_now (by decide +kernel), meets_of_now (by decide +kernel)⟩
/-- ACCLD's address is not aligned, its range leaves the scratchpad, or lies on another node's page; so does DRAIN's output. -/
def sNode : State := sreg 0 0x40000000000 (remotePage 1 sHold)
def granulesNow (s : State) (c : Cx) (a : Agent) (mark va n : Nat) : Option (Nat × Nat) :=
  match granuleAccs s c a mark 0 (granules va n) with
  | .error e => some (e.1, e.2.code)
  | .ok _ => none
def fLd (sp : Nat) : MF := { mf 0 0 0 640 2 with sp := BitVec.ofNat 2 sp }
theorem witness_MatrixIssues_accld : Meets (sreg 0 0x100040 sHold) (.accld (fLd 0)) (fun c m =>
      holdsTorc (sreg 0 0x100040 sHold) c = true ∧ (laneAddr (sreg 0 0x100040 sHold) c (fLd 0) ((lowLane m).getD 0)).toNat % 128 ≠ 0)
    ∧ Meets (sreg 0 0x100 sHold) (.accld (fLd 1)) (fun c _ => holdsTorc (sreg 0 0x100 sHold) c = true ∧ c.launch.desc.scratch < 0x100 + rawSize)
    ∧ Meets sNode (.accld (fLd 0)) (fun c _ => holdsTorc sNode c = true ∧ mappedNow sNode c (sNode.granuleVas c 1 (.accld (fLd 0))) = true
      ∧ granulesNow sNode c .tile 2 0x40000000000 rawSize = some (0x40000000000, tRoute)) :=
  ⟨meets_of_now (by decide +kernel), meets_of_now (by decide +kernel), meets_of_now (by decide +kernel)⟩
def sDrainNode : State := sreg 16 0x40000000000 (sreg 17 128 (sreg 19 0x1200000 (remotePage 1 s0)))
theorem witness_MatrixIssues_drain : Meets sDrainNode (.drain fDrain) (fun c m => mappedNow sDrainNode c (sDrainNode.granuleVas c m (.drain fDrain)) = true
      ∧ granulesNow sDrainNode c .store 0 0x40000000000 1024 = some (0x40000000000, tRoute))
    ∧ Views s0 (fun _ => sRun 657 4 4 = false) :=
  ⟨meets_of_now (by decide +kernel), views_of_now (by decide +kernel)⟩
def fMmaW : XF := { fMma with fw := 2 }
theorem witness_MatrixIssues_mma_split : Meets (narrowed 0xFF sHold) (.mma fMma) (fun c _ => c.active ≠ c.warp.launchMask) :=
  meets_of_now (by decide +kernel)
theorem witness_MatrixIssues_mma_differ : Meets (row 2 (fun l => l) s0) (.mma fMmaW) (fun c _ => c.active = c.warp.launchMask
    ∧ disagree c.active (fun l => readW (row 2 (fun l => l) s0) c 2 l) ≠ 0) := meets_of_now (by decide +kernel)
theorem witness_MatrixIssues_mma_torc : Meets s0 (.mma fMma) (fun c _ => c.active = c.warp.launchMask
    ∧ disagree c.active (fun l => readW s0 c 640 l) = 0 ∧ holdsTorc s0 c = false) := meets_of_now (by decide +kernel)
def sFew : State := launchWith (fun l => { l with desc := { l.desc with acct := 1 } }) sHold
theorem witness_MatrixIssues_mma_checks : Meets sFew (.mma fMma) (fun c _ => holdsTorc sFew c = true
      ∧ ¬ fMma.ac.toNat < c.launch.desc.acct)
    ∧ Meets (holdTorc s0) (.mma fMma) (fun c _ => holdsTorc (holdTorc s0) c = true ∧ fMma.ac.toNat < c.launch.desc.acct
      ∧ (slotClaim c false 5).holder.isSome = false)
    ∧ Meets (sreg 0 0x4000 sHold) (.mma fMma) (fun c _ => holdsTorc (sreg 0 0x4000 sHold) c = true
      ∧ (slotClaim c false 5).holder.isSome = true ∧ fwOk (readW (sreg 0 0x4000 sHold) c 640 0) = false) :=
  ⟨meets_of_now (by decide +kernel), meets_of_now (by decide +kernel), meets_of_now (by decide +kernel)⟩
def sLoading : State := { sHold.modCore 0 (fun c => { c with matrix := [0] }) with
  ops := [(0, { kind := .accld, ref := testRef, fn := 1 })], nextOp := 1 }
theorem witness_MatrixIssues_mma_mode : Meets sLoading (.mma fMma) (fun c _ => fwOk (readW sLoading c 640 0) = true
      ∧ tileMode sLoading c 1 = none)
    ∧ Meets (sreg 0 0x2A22 sHold) (.mma fMma) (fun c _ => fwOk (readW (sreg 0 0x2A22 sHold) c 640 0) = true
      ∧ tileMode (sreg 0 0x2A22 sHold) c 1 = some 0 ∧ fwMode (readW (sreg 0 0x2A22 sHold) c 640 0) ≠ 0) :=
  ⟨meets_of_now (by decide +kernel), meets_of_now (by decide +kernel)⟩
/-- R274's example word, in mode INT-sat32 with row sums; and a contribution of one grid step on a cleared tile. -/
theorem witness_TileArithmetic : 128 ≤ 128 ∧ fwOk 0x2A22 = true ∧ fwMode 0x2A22 = 2 ∧ fwRsum 0x2A22 = true
    ∧ fwOk 0x422 = true ∧ fwMode 0x422 = 1 ∧ fwRsum 0x422 = false := by decide +kernel
theorem witness_TileArithmetic_grid : ([FV.fin false 1 0] : List FV).length ≤ 16384
    ∧ (∀ x ∈ [FV.fin false 1 0], (toGrid x ((0 : BitVec 16)).toInt).natAbs < 2 ^ 47)
    ∧ ∀ k, k < 16384 → ((wordInt 0 (({} : Tile).word k)) + 1).natAbs < 2 ^ 46 :=
  ⟨by decide, by decide +kernel, fun _ _ => by
    show (wordInt 0 0 + 1).natAbs < 2 ^ 46
    decide +kernel⟩

/-! ### Barriers, events, queues, versions, system registers -/

def barWith (b : Barrier) (s : State) : State := s.modTeam 0 (fun t => { t with bars := t.bars.set 3 b })
def fBar (w : Nat) : MF := { mf 0 0 0 0 0 with w := BitVec.ofNat 20 w }
def fSync (w : Nat) : MF := { mf 2 0 0 0 0 with w := BitVec.ofNat 20 w }
/-- Its lanes have arrived already; another count is expected; fewer are expected than have arrived, or more than there
are warps. -/
theorem witness_Barriers_refused : Meets (barWith { lmask := [(0, 1)] } s0) (.barArrive (fBar 3)) (fun c _ =>
      ((c.team.warps.map (·.1)).Nodup ∧ (∀ e ∈ c.team.warps, e.1 < 64) ∧ c.split.wait = .none)
        ∧ (c.team.bars.get {} 3).lmask.get 0 c.ref.warp &&& c.active ≠ 0)
    ∧ Meets (barWith { exp := 2, cnt := 1 } s0) (.barSync (fSync 0x13)) (fun c _ =>
      0 < (c.team.bars.get {} 3).cnt ∧ 1 ≠ (c.team.bars.get {} 3).exp)
    ∧ Meets s0 (.barArrive (fBar 0x23)) (fun c _ => c.launch.desc.warps < 2) :=
  ⟨meets_of_now (by decide +kernel), meets_of_now (by decide +kernel), meets_of_now (by decide +kernel)⟩
/-- Two warps of a launch of two: with one arrival the phase stays open; with the other warp's arrival it completes and
releases a split that waits for it. -/
def sTwo : State := launchWith (fun l => { l with desc := { l.desc with warps := 2 } }) (secondWarp .none s0)
def sTwoLast : State := barWith { cnt := 1, amask := 2, lmask := [(1, 0xFFFFFFFF)], wph := [(1, 0)] }
  (secondWarp (.barrier 3 0) sTwo)
theorem witness_Barriers_arrives : Meets sTwo (.barSync (fSync 3)) (fun c _ =>
      ((c.team.warps.map (·.1)).Nodup ∧ (∀ e ∈ c.team.warps, e.1 < 64) ∧ c.split.wait = .none) ∧ c.split.waitOnly = false
        ∧ (c.team.bars.get {} 3).lmask.get 0 c.ref.warp &&& c.active = 0 ∧ (c.team.bars.get {} 3).cnt = 0)
    ∧ Meets sTwoLast (.barArrive (fBar 3)) (fun c _ =>
      ((c.team.warps.map (·.1)).Nodup ∧ (∀ e ∈ c.team.warps, e.1 < 64) ∧ c.split.wait = .none)
        ∧ (c.team.bars.get {} 3).lmask.get 0 c.ref.warp &&& c.active = 0 ∧ (c.team.bars.get {} 3).exp = 0
        ∧ (c.team.bars.get {} 3).amask.getLsbD 1 = true
        ∧ (sTwoLast.split? otherRef).map (·.wait) = some (.barrier 3 (c.team.bars.get {} 3).ph)) :=
  ⟨meets_of_now (by decide +kernel), meets_of_now (by decide +kernel)⟩
theorem test_barrier_completes : Ran 0x000030000000000000000090 (fun _ => { sTwoLast with mem := (placed 0x000030000000000000000090).mem,
                                                                                            launches := sTwoLast.launches.map (fun e => (e.1, { e.2 with code := (placed 0x000030000000000000000090).mem })) })
    (fun _ t => (t.team? 0).map (fun tm => ((tm.bars.get {} 3).ph, (tm.bars.get {} 3).cnt)) = some (1, 0)
      ∧ (t.split? otherRef).map (fun x => (x.wait, x.path.pc)) = some (.none, 1)) := ran_of_now (by decide +kernel)
theorem witness_Barriers_waits : Meets (barWith { wph := [(0, 0)] } s0) (.barWait { mf 1 0 0 0 0 with w := 3 }) (fun c _ =>
      (c.team.bars.get {} 3).wph.find? c.ref.warp = some (c.team.bars.get {} 3).ph)
    ∧ Meets s0 (.barWait { mf 1 0 0 0 0 with w := 3 }) (fun c _ =>
      (c.team.bars.get {} 3).wph.find? c.ref.warp ≠ some (c.team.bars.get {} 3).ph)
    ∧ Meets (splitWith (fun sp => { sp with waitOnly := true }) s0) (.barSync (fSync 3)) (fun c _ => c.split.waitOnly = true) :=
  ⟨meets_of_now (by decide +kernel), meets_of_now (by decide +kernel), meets_of_now (by decide +kernel)⟩

def fewEvents (n : Nat) (s : State) : State := s.modContext 1 (fun c => { c with evCount := n })
def fEv (fn e : Nat) : MF := { mf fn 0 0 0 640 with w := BitVec.ofNat 20 e }
theorem witness_EventsAndQueuesStart_events : Meets (fewEvents 5 s0) (.evsig (fEv 0 5)) (fun c _ => ((fewEvents 5 s0).context c.ctx).evCount ≤ 5)
    ∧ Meets (refinableEvent 5 s0) (.evsig (fEv 0 5)) (fun c _ => ((refinableEvent 5 s0).event c.ctx 5).refinable = true)
    ∧ Meets (fewEvents 6 s0) (.evwait (fEv 0 5)) (fun c _ => 5 < ((fewEvents 6 s0).context c.ctx).evCount)
    ∧ Meets (fewEvents 5 s0) (.evwait (fEv 0 5)) (fun c _ => ((fewEvents 5 s0).context c.ctx).evCount ≤ 5) :=
  ⟨meets_of_now (by decide +kernel), meets_of_now (by decide +kernel), meets_of_now (by decide +kernel),
    meets_of_now (by decide +kernel)⟩
/-- The page of s2 belongs to node 7, and the TLB has it. -/
def sRemQ : State := remotePage 1 sFar
def fQ (a : Nat) : MF := { mf 0 0 0 a 648 with w := 1 }
def sQ (f : Nat → Nat) : State := row 2 f s0
theorem witness_EventsAndQueuesStart_queues : Meets (sQ (fun l => 64 * l)) (.qpush (fQ 2)) (fun c _ =>
      disagree c.active (fun l => readD (sQ (fun l => 64 * l)) c 2 l) ≠ 0)
    ∧ Meets (sQ (fun _ => 1)) (.qpush (fQ 2)) (fun c _ => disagree c.active (fun l => readD (sQ (fun _ => 1)) c 2 l) = 0
      ∧ (checkOne (sQ (fun _ => 1)) c .atomic 64 1).isOk = false)
    ∧ Meets (sQ (fun _ => 64)) (.qpush (fQ 2)) (fun c m => disagree c.active (fun l => readD (sQ (fun _ => 64)) c 2 l) = 0
      ∧ readD (sQ (fun _ => 64)) c 2 ((lowLane m).getD 0) = 64
      ∧ mappedNow (sQ (fun _ => 64)) c [64] = true
      ∧ (match checkOne (sQ (fun _ => 64)) c .atomic 64 64 with | .ok p => p.tr.node.isNone | _ => false) = true)
    ∧ Meets sFar (.qpop { mf 0 0 648 642 0 with w := 1 }) (fun c _ => mappedNow sFar c [0x40000000000] = false)
    ∧ Meets sRemQ (.qpop { mf 0 0 648 642 0 with w := 1 }) (fun c _ => mappedNow sRemQ c [0x40000000000] = true
      ∧ (match checkOne sRemQ c .atomic 64 0x40000000000 with | .ok p => p.tr.node.isSome | _ => false) = true) :=
  ⟨meets_of_now (by decide +kernel), meets_of_now (by decide +kernel), meets_of_now (by decide +kernel),
    meets_of_now (by decide +kernel), meets_of_now (by decide +kernel)⟩
def fKick : MF := mf 0 0 0 640 641
def sKick (g : Nat) : State := sreg 0 g (queueWith 3 63 { state := 2, ctx := 1 } s0)
def kickBound (s : State) (c : Cx) : Bool :=
  let g := (c.warp.sreg 0).val
  (s.queue (g.extractLsb' 8 2).toNat (g.extractLsb' 0 6).toNat).state ≠ 0
theorem witness_EventsAndQueuesStart_kick : Meets (sKick 0x400) (.qkick fKick) (fun c _ => (c.warp.sreg 0).val.extractLsb' 10 38 ≠ 0)
    ∧ Meets (sKick 0x33F) (.qkick fKick) (fun c _ => (c.warp.sreg 0).val.extractLsb' 10 38 = 0 ∧ (c.warp.sreg 0).val.extractLsb' 6 2 = 0
      ∧ (c.warp.sreg 0).val.extractLsb' 48 16 = (sKick 0x33F).nodeId.getD 0 ∧ kickBound (sKick 0x33F) c = true
      ∧ ((sKick 0x33F).queue 3 63).ctx = c.ctx)
    ∧ Meets (sKick 0x33E) (.qkick fKick) (fun c _ => (c.warp.sreg 0).val.extractLsb' 10 38 = 0 ∧ kickBound (sKick 0x33E) c = false)
    ∧ Meets (sKick 0x700000000033F) (.qkick fKick) (fun c _ => (c.warp.sreg 0).val.extractLsb' 48 16 ≠ (sKick 0x700000000033F).nodeId.getD 0) :=
  ⟨meets_of_now (by decide +kernel), meets_of_now (by decide +kernel), meets_of_now (by decide +kernel),
    meets_of_now (by decide +kernel)⟩
def fVer (fn e : Nat) : MF := { mf fn 0 0 (if fn < 2 then 0 else 641) 640 with w := BitVec.ofNat 20 e }
theorem witness_VersionsStart_traps : Meets (fewEvents 5 s0) (.pubv (fVer 0 5)) (fun c _ => ((fewEvents 5 s0).context c.ctx).evCount ≤ 5)
    ∧ Meets s0 (.vchk { mf 0 0 0 0 0 with w := 5 }) (fun c _ => (s0.event c.ctx 5).refinable = false)
    ∧ Meets (refinableEvent 5 s0) (.pubvFinal (fVer 1 5)) (fun c _ => (c.warp.sreg 0).val = 0)
    ∧ Meets (sreg 0 0x8000 (refinableEvent 5 s0)) (.pubv (fVer 0 5)) (fun c _ => (c.warp.sreg 0).val.extractLsb' 15 49 ≠ 0) :=
  ⟨meets_of_now (by decide +kernel), meets_of_now (by decide +kernel), meets_of_now (by decide +kernel),
    meets_of_now (by decide +kernel)⟩
theorem witness_VersionsStart_starts : Meets (sreg 0 0x7FFF (sreg 1 0x10005 (refinableEvent 5 s0))) (.pubv (fVer 2 0)) (fun c _ =>
      (c.warp.sreg 0).val.extractLsb' 15 49 = 0 ∧ (c.warp.sreg 0).val ≠ 0 ∧ (c.warp.sreg (641 - 640)).val.toNat % 65536 = 5
        ∧ ((sreg 0 0x7FFF (sreg 1 0x10005 (refinableEvent 5 s0))).event c.ctx 5).refinable = true)
    ∧ Meets (refinableEvent 5 s0) (.stopref { mf 0 0 0 0 0 with w := 5 }) (fun c _ =>
      5 < ((refinableEvent 5 s0).context c.ctx).evCount ∧ ((refinableEvent 5 s0).event c.ctx 5).refinable = true) :=
  ⟨meets_of_now (by decide +kernel), meets_of_now (by decide +kernel)⟩
def fCsr (n : Nat) : MF := { mf 0 0 0 0 645 with w := BitVec.ofNat 20 n }
theorem witness_SystemRegisters_csrr : Meets s0 (.csrr { mf 0 0 10 0 0 with w := 0x1F }) (fun _ _ => True)
    ∧ Meets s0 (.csrr { mf 0 0 645 0 0 with w := 0x20 }) (fun _ _ => True)
    ∧ ∃ c m, s0.ready c (.csrr { mf 0 0 10 0 0 with w := 0x22 }) m ∧ true = true :=
  ⟨meets_of_now (by decide +kernel), meets_of_now (by decide +kernel),
    ready_of_now (p := fun _ _ => true) (by decide +kernel)⟩
theorem witness_SystemRegisters_csrw : Meets (sreg 5 5 s0) (.csrw (fCsr 0)) (fun c _ => 5 ≤ ((c.warp.sreg 5).val.extractLsb' 0 3).toNat)
    ∧ Meets (sreg 5 16 s0) (.csrw (fCsr 0)) (fun c _ => ((c.warp.sreg 5).val.setWidth 32 : Word).extractLsb' 4 28 ≠ 0)
    ∧ Meets (sreg 5 12 s0) (.csrw (fCsr 0)) (fun c _ => ((c.warp.sreg 5).val.setWidth 32 : Word).extractLsb' 4 28 = 0
      ∧ ((c.warp.sreg 5).val.extractLsb' 0 3).toNat < 5)
    ∧ Meets s0 (.csrw (fCsr 0x20)) (fun _ _ => True)
    ∧ ∃ c m, s0.ready c (.csrw (fCsr 2)) m ∧ true = true :=
  ⟨meets_of_now (by decide +kernel), meets_of_now (by decide +kernel), meets_of_now (by decide +kernel),
    meets_of_now (by decide +kernel), ready_of_now (p := fun _ _ => true) (by decide +kernel)⟩

/-! ### Control -/

def fBra (j t : Nat) : CF := cf 0 0 0 j t
def fBrx : CF := cf 0 2 0 5 0
def entry (pc : Nat) : Entry := { path := { pc := BitVec.ofNat 32 pc, mask := 0xF, e := 64 }, rjpc := some 9 }
/-- The split has taken n backward branches and has the stack st. -/
def stacked (n : Nat) (st : List Entry) (s : State) : State := splitWith (fun sp => { sp with backCount := n, stack := st }) s
/-- Splits 1 to 3 besides. -/
def fourSplits (s : State) : State := splitAdd 1 {} (splitAdd 2 {} (splitAdd 3 {} s))
/-- BRA and BRX under p1, which holds in lane 5. -/
def fBraP : CF := { fBra 5 0xFFFFE with g := ⟨1, false, false⟩ }
def sLane5 : State := pred 1 32 s0
theorem witness_Branches_skip : Views s0 (fun c => gate s0 c (needOf c (.bra fBraP)) = .skip ∧ c.team.step = none) :=
  views_of_now (by decide +kernel)
theorem witness_Branches_whole : Meets s0 (.bra (fBra 0 7)) (fun c m => lowLane m = some 0 ∧ c.active &&& ~~~ m = 0
      ∧ c.split.stack = [])
    ∧ Meets (stacked 1023 [entry 3] s0) (.bra (fBra 0 0xFFFFE)) (fun c m => c.active &&& ~~~ m = 0
      ∧ (fBra 0 0xFFFFE).t.msb = true ∧ 1023 ≤ c.split.backCount ∧ c.split.stack = [entry 3])
    ∧ Meets s0 (.brx fBrx) (fun c m => lowLane m = some 0 ∧ disagree m (fun l => readW s0 c 2 l) = 0)
    ∧ Meets (row 2 (fun l => l) s0) (.brx fBrx) (fun c m => disagree m (fun l => readW (row 2 (fun l => l) s0) c 2 l) ≠ 0) :=
  ⟨meets_of_now (by decide +kernel), meets_of_now (by decide +kernel), meets_of_now (by decide +kernel),
    meets_of_now (by decide +kernel)⟩
theorem witness_Branches_divides : Meets (splitAdd 1 {} (splitAdd 2 {} sLane5)) (.bra fBraP) (fun c m => lowLane m = some 5
      ∧ c.active &&& ~~~ m ≠ 0 ∧ c.warp.splits.find? 3 = none ∧ ∀ j, j < 3 → (c.warp.splits.find? j).isSome = true)
    ∧ Meets (stacked 0 (List.replicate 16 (entry 3)) (fourSplits sLane5)) (.bra fBraP) (fun c m => c.active &&& ~~~ m ≠ 0
      ∧ (∀ k, k < 4 → (c.warp.splits.find? k).isSome = true) ∧ 16 ≤ c.split.stack.length)
    ∧ Meets (stacked 1022 (List.replicate 15 (entry 3)) (fourSplits sLane5)) (.bra fBraP) (fun c m => c.active &&& ~~~ m ≠ 0
      ∧ (∀ k, k < 4 → (c.warp.splits.find? k).isSome = true) ∧ c.split.stack.length < 16 ∧ c.split.backCount < 1023) :=
  ⟨meets_of_now (by decide +kernel), meets_of_now (by decide +kernel), meets_of_now (by decide +kernel)⟩

def atDepth (d : Nat) (s : State) : State := splitWith (fun sp => { sp with path := { sp.path with depth := d } }) s
/-- An arena of n rows. -/
def arenaOf (n : Nat) (s : State) : State :=
  launchWith (fun l => { l with desc := { l.desc with arenaSize := 128 * n, arenaBase := 0x800000 } }) s
def settledNow (c : Cx) : Bool := c.warp.spill = [] && c.warp.refill = [] && c.warp.hi = c.warp.top
theorem witness_CallsAndReturns_call_traps : Meets (row 2 (fun l => l) s0) (.callx (cf 0 2 32 0 0)) (fun c m =>
      disagree m (fun l => readW (row 2 (fun l => l) s0) c 2 l) ≠ 0)
    ∧ Meets (atDepth 4095 s0) (.call (cf 0 0 32 0 16)) (fun c _ => c.path.depth = 4095)
    ∧ Meets s0 (.call (cf 0 0 63 0 16)) (fun c _ => c.path.depth ≠ 4095
      ∧ arenaCapacity c.launch.desc < c.path.b + 63 + max 2 (c.path.e - 63)) :=
  ⟨meets_of_now (by decide +kernel), meets_of_now (by decide +kernel), meets_of_now (by decide +kernel)⟩
theorem witness_CallsAndReturns_call : Meets (arenaOf 65 s0) (.call (cf 0 0 63 0 16)) (fun c m => lowLane m = some 0
      ∧ c.path.b + 63 + max 2 (c.path.e - 63) ≤ arenaCapacity c.launch.desc ∧ c.active = m ∧ c.warp.spill = []
      ∧ c.warp.lo + c.ring < c.path.b + 63 + max 2 (c.path.e - 63))
    ∧ Meets s0 (.call (cf 0 0 62 0 16)) (fun c m => c.path.b + 62 + max 2 (c.path.e - 62) ≤ arenaCapacity c.launch.desc
      ∧ c.active = m ∧ settledNow c = true ∧ c.path.b + 62 + max 2 (c.path.e - 62) ≤ c.warp.lo + c.ring ∧ c.split.stack = []
      ∧ (c.warp.row ((c.path.b + 62) % c.ring)).full = true ∧ (c.warp.row ((c.path.b + 63) % c.ring)).full = true) :=
  ⟨meets_of_now (by decide +kernel), meets_of_now (by decide +kernel)⟩
theorem witness_CallsAndReturns_enter : Meets s0 (.enter (cf 0 0 65 0 0)) (fun c _ => c.ring < 65)
    ∧ Meets s0 (.enter (cf 0 0 64 0 0)) (fun c _ => 64 ≤ c.ring ∧ c.path.b + 64 ≤ arenaCapacity c.launch.desc
      ∧ settledNow c = true ∧ c.path.b + 64 ≤ c.warp.lo + c.ring)
    ∧ Meets s0 (.leave (cf 0 0 2 0 0)) (fun c _ => settledNow c = true) :=
  ⟨meets_of_now (by decide +kernel), meets_of_now (by decide +kernel), meets_of_now (by decide +kernel)⟩
def retLegal (s : State) (c : Cx) (low : Nat) : Bool :=
  let w1 := readW s c 1 low
  w1.extractLsb' 20 12 = 0 && 1 ≤ (w1.extractLsb' 0 10).toNat && (w1.extractLsb' 0 10).toNat ≤ c.path.b
    && 2 ≤ (w1.extractLsb' 10 10).toNat && (w1.extractLsb' 10 10).toNat ≤ 512
theorem witness_CallsAndReturns_ret : Meets s0 (.ret (cf 0 0 0 0 0)) (fun c _ => c.path.depth = 0)
    ∧ Meets (row 32 (fun l => l) (inFrame s0)) (.ret (cf 0 0 0 0 0)) (fun c m => c.path.depth ≠ 0
      ∧ disagree m (fun l => (readW (row 32 (fun l => l) (inFrame s0)) c 0 l, readW (row 32 (fun l => l) (inFrame s0)) c 1 l)) ≠ 0)
    ∧ Meets (row 33 (fun _ => 65569) (inFrame s0)) (.ret (cf 0 0 0 0 0)) (fun c _ => c.path.depth ≠ 0
      ∧ retLegal (row 33 (fun _ => 65569) (inFrame s0)) c 0 = false)
    ∧ Meets (inFrame s0) (.ret (cf 0 0 0 0 0)) (fun c m => c.path.depth ≠ 0
      ∧ disagree m (fun l => (readW (inFrame s0) c 0 l, readW (inFrame s0) c 1 l)) = 0 ∧ retLegal (inFrame s0) c 0 = true
      ∧ c.active = m ∧ c.split.stack = [] ∧ settledNow c = true) :=
  ⟨meets_of_now (by decide +kernel), meets_of_now (by decide +kernel), meets_of_now (by decide +kernel),
    meets_of_now (by decide +kernel)⟩
/-- CALL under p1 divides the split, or pushes and then swaps, or overflows the stack. -/
def fCallP : CF := { cf 0 0 62 0 16 with g := ⟨1, false, false⟩ }
theorem witness_CallsAndReturns_divides : Meets (splitAdd 1 {} sLane5) (.call fCallP) (fun c m => c.active &&& ~~~ m ≠ 0
      ∧ settledNow c = true ∧ (c.warp.splits.find? 2).isNone = true)
    ∧ Meets (stacked 1023 (List.replicate 15 (entry 3)) (fourSplits sLane5)) (.call { fCallP with t := 0xFFFFE }) (fun c m => c.active &&& ~~~ m ≠ 0
      ∧ (∀ k, k < 4 → (c.warp.splits.find? k).isSome = true) ∧ c.split.stack.length < 16 ∧ 1023 ≤ c.split.backCount)
    ∧ Meets (stacked 0 (List.replicate 16 (entry 3)) (fourSplits sLane5)) (.call fCallP) (fun c m => c.active &&& ~~~ m ≠ 0
      ∧ (∀ k, k < 4 → (c.warp.splits.find? k).isSome = true) ∧ 16 ≤ c.split.stack.length) :=
  ⟨meets_of_now (by decide +kernel), meets_of_now (by decide +kernel), meets_of_now (by decide +kernel)⟩
def fExitP : CF := { cf 0 0 0 0 0 with g := ⟨1, false, false⟩ }
theorem witness_LaneEndsAndWaits_exit : Meets sLane5 (.exit fExitP) (fun c m => c.split.wait = .none
      ∧ c.warp.live &&& ~~~ m ≠ 0 ∧ c.active &&& ~~~ m ≠ 0)
    ∧ Meets (narrowed 0xFF s0) (.exit (cf 0 0 0 0 0)) (fun c m => c.warp.live &&& ~~~ m ≠ 0 ∧ c.active &&& ~~~ m = 0
      ∧ c.split.stack = [])
    ∧ Meets (stacked 0 [entry 3] (narrowed 0xFF s0)) (.exit (cf 0 0 0 0 0)) (fun c m => c.warp.live &&& ~~~ m ≠ 0
      ∧ c.active &&& ~~~ m = 0 ∧ c.split.stack = [entry 3])
    ∧ Meets s0 (.exit (cf 0 0 0 0 0)) (fun c m => c.warp.live &&& ~~~ m = 0 ∧ c.warp.ended = false) :=
  ⟨meets_of_now (by decide +kernel), meets_of_now (by decide +kernel), meets_of_now (by decide +kernel),
    meets_of_now (by decide +kernel)⟩
def fWait (j : Nat) : CF := cf 3 640 641 j 0
def sMon (n : Nat) : State := s0.modCore 0 (fun c => { c with monitors := n })
theorem witness_LaneEndsAndWaits_waitm : Meets (stacked 0 [entry 3] s0) (.waitm (fWait 1)) (fun c _ => c.split.stack = [entry 3])
    ∧ Meets (sreg 0 2 s0) (.waitm (fWait 1)) (fun c _ => c.split.stack = [] ∧ (checkOne (sreg 0 2 s0) c .load 4 2).isOk = false)
    ∧ Meets (sMon 64) (.waitm (fWait 1)) (fun c _ => c.split.stack = [] ∧ (checkOne (sMon 64) c .load 4 0).isOk = true
      ∧ 64 ≤ ((sMon 64).core c.core).monitors)
    ∧ Meets (sMon 63) (.waitm (fWait 1)) (fun c _ => c.split.stack = [] ∧ (checkOne (sMon 63) c .load 4 0).isOk = true
      ∧ mappedNow (sMon 63) c [0] = true ∧ ((sMon 63).core c.core).monitors < 64)
    ∧ Meets sFar (.waitm (cf 3 642 641 1 0)) (fun c _ => c.split.stack = [] ∧ mappedNow sFar c [0x40000000000] = false) :=
  ⟨meets_of_now (by decide +kernel), meets_of_now (by decide +kernel), meets_of_now (by decide +kernel),
    meets_of_now (by decide +kernel), meets_of_now (by decide +kernel)⟩
/-- A second warp waits in the pending set of the quadrant, ready. -/
def sPending : State := (secondWarp .none s0).modWarp otherWarp (fun w => { w with active := false })
theorem witness_LaneEndsAndWaits_yield : Meets (stacked 0 [entry 3] s0) (.yield (cf 0 0 0 0 0)) (fun c _ => c.split.stack = [entry 3])
    ∧ Meets sPending (.yield (cf 0 0 0 0 0)) (fun c _ => c.split.stack = []
      ∧ longest (advance c sPending) (readyPending (advance c sPending) c.core c.warp.quad) = some otherWarp ∧ otherWarp ≠ c.wref)
    ∧ Meets s0 (.yield (cf 0 0 0 0 0)) (fun c _ => readyPending (advance c s0) c.core c.warp.quad = []) :=
  ⟨meets_of_now (by decide +kernel), meets_of_now (by decide +kernel), meets_of_now (by decide +kernel)⟩
theorem witness_LaneEndsAndWaits_halts : Meets s0 (.brk (cf 0 0 1023 0 0)) (fun c _ => c.team.status = .running)
    ∧ Meets s0 (.trap { mf 0 0 0 0 0 with w := 0xFFFF }) (fun c _ => c.team.status = .running) :=
  ⟨meets_of_now (by decide +kernel), meets_of_now (by decide +kernel)⟩

/-! ### The machine as a whole -/

def badNow (c : Cx) (i : Instr) : Bool :=
  (needOf c i).bad || (needOf c i).dsts.any (badDst c) || (needOf c i).srcs.any (fun e => badSrc c e.1)
def emptyNow (c : Cx) (i : Instr) : Bool :=
  (needOf c i).srcs.any (fun e => isEmpty c e.1) || (needOf c i).dsts.any (isEmpty c)
def iAdd : Instr := .iadd (vf 0 1 10 2 4)
def iTrap : Instr := .iadd { vf 0 1 10 2 4 with fa := true }
theorem witness_CarryChains_vectorSource : Views s0 (fun _ => isS (642 : BitVec 10).toNat = true
    ∧ isVector (2 : BitVec 10).toNat = true) := views_of_now (by decide +kernel)
theorem witness_Shuffle_scalar : Views s0 (fun _ => isS (640 : BitVec 10).toNat = true)
    ∧ (Instr.shfl { vf 3 4 10 2 4 with c := 7 }).wellFormed = true := ⟨views_of_now (by decide +kernel), by decide +kernel⟩
theorem witness_GateOrder_bad : Views s0 (fun c => (fieldsOf (.iadd (vf 0 1 640 2 4))).isSome = true
    ∧ badNow c (.iadd (vf 0 1 640 2 4)) = true) := views_of_now (by decide +kernel)
theorem witness_GateOrder_skip : Views s0 (fun c => badNow c (.iadd { vf 0 1 10 2 4 with g := ⟨0, true, false⟩ }) = false
    ∧ c.exec ⟨0, true, false⟩ = 0 ∧ c.team.step = none) := views_of_now (by decide +kernel)
theorem witness_GateOrder_empty : Views (emptyRow 2 s0) (fun c => badNow c iTrap = false ∧ c.exec gd ≠ 0
      ∧ (needOf c iTrap).srcs.any (fun e => e.2 = some true && isEmpty c e.1) = true)
    ∧ Views (emptyRow 10 s0) (fun c => badNow c iTrap = false ∧ emptyNow c iTrap = true
      ∧ (needOf c iTrap).srcs.any (fun e => e.2 = some true && isEmpty c e.1) = false) :=
  ⟨views_of_now (by decide +kernel), views_of_now (by decide +kernel)⟩
def iKeyed : Instr := .ld { mf 0 3 20 8 0 with ck := 3, sc := 2, pk := 1 }
def fullKey (s : State) : State := keyWith 1 { p := 0xFFFF } s
theorem witness_GateOrder_waits : Views (keyWith 1 { p := 1 } (keyWith 3 { t := [(1, 1)] } s0)) (fun c =>
      emptyNow c iKeyed = false ∧ (needOf c iKeyed).key = some (3, 2)
        ∧ ((c.warp.key 1).p - (c.warp.key 3).t.get 0 1).toNat < ((c.warp.key 1).p - (c.warp.key 1).lead 2).toNat)
    ∧ Views (keyWith 3 { l := 0x80000000 } (launchWith (fun l => l) (emptyRow (64 + 96 + 31) s0))) (fun c =>
      emptyNow c iKeyed = false ∧ (c.warp.key 3).l.getLsbD 31 = true ∧ (c.warp.row (c.ring + 96 + 31)).full = false)
    ∧ Views (warpWith (fun w => { w with classes := [(1, { q := 1 })], fences := [(3, ⟨4, 2, 1, [(1, 1)]⟩)] }) s0) (fun c =>
      emptyNow c iKeyed = false ∧ (needOf c iKeyed).cls = [0] ∧ c.warp.fenceHolds [0] = true)
    ∧ Views (fullKey s0) (fun c => emptyNow c iKeyed = false ∧ (needOf c iKeyed).pk = some 1
      ∧ ((c.warp.key 1).p - (c.warp.key 1).lead 4).toNat = 65535) :=
  ⟨views_of_now (by decide +kernel), views_of_now (by decide +kernel), views_of_now (by decide +kernel),
    views_of_now (by decide +kernel)⟩
theorem witness_GateOrder_goes : Views s0 (fun c => badNow c iAdd = false ∧ c.exec gd ≠ 0 ∧ emptyNow c iAdd = false
    ∧ (needOf c iAdd).key = none ∧ c.warp.fences = [] ∧ (needOf c iAdd).pk = none) := views_of_now (by decide +kernel)

def withStatus (x : TeamStatus) (s : State) : State := s.modTeam 0 (fun t => { t with status := x })
def trapHere : Trap := ⟨3, 9, 0x101, 1, 0, 0⟩
def hasTeam (s : State) (x : TeamStatus) : Bool :=
  invNow s && (s.team? 0).map (·.status) = some x && (s.warp? testWarp).isSome && (s.split? testRef).isSome
theorem witness_TrapEntry : hasTeam s0 .running = true ∧ hasTeam (withStatus .raised s0) .raised = true
    ∧ hasTeam (withStatus .skidding s0) .skidding = true ∧ hasTeam (withStatus .saving s0) .saving = true
    ∧ ((raiseTrap testRef trapHere s0).team? 0).bind (·.halt) = some (trapHere, 0, 0)
    ∧ (raiseTrap testRef trapHere s0).agenda = [.teamHalt 0] := by decide +kernel

theorem witness_StepRunsDecodedInstruction : Views s0 (fun c => codeWords s0 c c.path.pc = .ok (0, 0)
      ∧ fetchWord s0 c c.path.pc = .ok 0 ∧ decode 0 = .ok (.nop (cf 0 0 0 0 0))
      ∧ (match codePhys s0 c c.path.pc 0, codePhys s0 c c.path.pc 11 with
        | .ok a, .ok b => b.pa = a.pa + 11 && a.tr.node.isNone && b.tr.node.isNone
        && (List.range 12).all (fun k => !s0.poison.contains ((a.pa + k) / 128))
        && !mixedHome s0 a.home (a.pa / 128) && !mixedHome s0 b.home (b.pa / 128) | _, _ => false) = true
      ∧ (∀ k, k < 12 → c.launch.code.byte k = s0.mem.byte k) ∧ (codeAddr c.path.pc).toNat % 65536 ≤ 65524
      ∧ decodeBytes ((List.range 12).map (fun k => s0.mem.byte k)) = .ok (.nop (cf 0 0 0 0 0))) := views_of_now (by decide +kernel)
/-- A word that is no instruction, a page without execute permission, and a poisoned line. -/
def sNoCode : State := ({ s0 with mem := s0.mem.putNat placedRoot 8 0x0F } : State).modCore 0 (fun c => { c with tlb := [] })
/-- The code lies on a page of another node: not asked for yet, and brought. -/
def sRemCode : State := remotePage 0 s0
def sBrought : State := splitWith (fun sp => { sp with code := some (0, 0) }) sRemCode
def sPoison : State := { s0 with poison := [0] }
theorem witness_StepRunsDecodedInstruction_traps : Views (placed 0xFF) (fun c => codeWords (placed 0xFF) c c.path.pc = .ok (0xFF, 0xFF)
      ∧ decode 0xFF = .error .opcode ∧ c.team.status = .running)
    ∧ Views sNoCode (fun c => codeWords sNoCode c c.path.pc = .error .fetch ∧ c.team.status = .running)
    ∧ Views sPoison (fun c => codeWords sPoison c c.path.pc = .error (.memory 0) ∧ c.team.status = .running)
    ∧ Views sRemCode (fun c => codeWords sRemCode c c.path.pc = .error .remote)
    ∧ Views sBrought (fun c => codeWords sBrought c c.path.pc = .ok (0, 0)) :=
  ⟨views_of_now (by decide +kernel), views_of_now (by decide +kernel), views_of_now (by decide +kernel),
    views_of_now (by decide +kernel), views_of_now (by decide +kernel)⟩
theorem test_illegal_word : (match step (placed 0xFF) with
    | .next t => (t.team? 0).bind (·.halt) = some (⟨1, 1, 0, 0, 0, 0⟩, 0, 0) && (t.team? 0).map (·.status) = some .raised
    | _ => false) = true := by decide +kernel
theorem test_fetch_fault : (match step sNoCode with
    | .next t => (t.team? 0).bind (·.halt) = some (⟨3, 12, 0, 0, 0, 0⟩, 0, 0)
    | _ => false) = true := by decide +kernel
theorem witness_EveryInstructionCompletes : Views s0 (fun _ => (fieldsOf iAdd).isSome = true)
    ∧ invNow State.reset = true ∧ State.reset.cur = none
    ∧ (candidates { State.reset with agenda := [.coreWake 0] }).isEmpty = false
    ∧ ({ State.reset with stopped := true } : State).stopped = true
    ∧ candidates { State.reset with stopped := true } = [] :=
  ⟨views_of_now (by decide +kernel), by decide +kernel, by decide +kernel, by decide +kernel, rfl, by decide +kernel⟩
/-- No image to accept; and an image that is accepted whenever the free values say that its key and its signature are
right. -/
theorem witness_ResetState :
    (∀ f, ({ s0 with stored := none } : State).stored = some f → imageOk s0.fusedSvn f = false)
    ∧ ∀ f : FwImage, sha3_256 f.key = Config.fusedKeyDigest → Config.mldsaVerify f.key (sha3_256 f.body) f.sig = true →
      ({ s0 with stored := some f, fusedSvn := 0 } : State).fusedSvn.toNat ≤ f.svn.toNat :=
  ⟨fun _ h => (nomatch h), fun _ _ _ => Nat.zero_le _⟩
theorem witness_StepKeepsInv : invNow s0 = true ∧ (match step s0 with | .next t => invNow t | _ => false) = true := by decide +kernel

/-! ## The steps beside instructions: states, hypotheses met, results -/

/-- The state meets the invariant and the hypothesis h, and the step e leads from it to a state with what is said. -/
def Took (e : Instr) (s : State) (h : Prop) (p : State → Prop) : Prop := s.Inv ∧ h ∧ ∃ t, exec e s = .next t ∧ p t

def tookNow (e : Instr) (s : State) (h : Bool) (p : State → Bool) : Bool :=
  invNow s && h && (match exec e s with
    | .next t => p t
    | _ => false)

theorem took_of_now {e : Instr} {s : State} {h : Prop} [Decidable h] {p : State → Prop} [∀ t, Decidable (p t)]
    (x : tookNow e s (decide h) (fun t => decide (p t)) = true) : Took e s h p := by
  simp only [tookNow, Bool.and_eq_true] at x
  obtain ⟨⟨h1, h2⟩, h3⟩ := x
  split at h3
  · next t ht => exact ⟨inv_of_now h1, of_decide_eq_true h2, t, ht, of_decide_eq_true h3⟩
  · cases h3

def servedNow (s : State) (home line : Nat) (rcl : Bool) (e : Instr) : Bool :=
  ((s.sline home line).state = .cln || (s.sline home line).state = .dty)
    && ((s.sline home line).waiters = [] || (s.sline home line).waiters.head? = some e)
    && (!rcl || (s.sline home line).uo = 0) && !poisoned s line && !mixedHome s home line

theorem served_of_now {s : State} {home line : Nat} {rcl : Bool} {e : Instr} (h : servedNow s home line rcl e = true) :
    s.served home line rcl e := by
  simp only [servedNow, Bool.and_eq_true, Bool.or_eq_true, decide_eq_true_eq, Bool.not_eq_true'] at h
  obtain ⟨⟨⟨⟨h1, h2⟩, h3⟩, h4⟩, h5⟩ := h
  exact ⟨h1, h2, fun hr => h3.resolve_left (by simp [hr]), h4, h5⟩

/-- Every record of the slice about the line lets the scope and instance pass. -/
def scopeNow (s : State) (home line scope inst : Nat) : Bool :=
  (s.slice home).sync.all (fun r => r.line ≠ line || contains scope inst r.scope r.inst)

theorem inScope_of_now {s : State} {home line scope inst : Nat} (h : scopeNow s home line scope inst = true) :
    s.inScope home line scope inst := by
  intro r hr hl
  have := List.all_eq_true.mp h r hr
  simpa [hl] using this

/-- One request of an event, numbered 9, at a stage of its way. -/
def tripAt (e : Instr) (q : Requester) (x : Stop) (st : Stage) (s : State) : State :=
  { s with trips := s.trips ++ [{ id := 9, e := e, who := q, stop := x, stage := st }] }

/-- The event's request for a stop comes next, leaves next, or all are back. -/
def comesNow (s : State) (e : Instr) (q : Requester) (stops : List Stop) : Bool :=
  !allBack (s.tripsOf e) stops && (match (actsOf s e q stops)[(s.choose (actsOf s e q stops).length).1]? with
    | some (.go _) => true
    | _ => false)
def leavesNow (s : State) (e : Instr) (q : Requester) (stops : List Stop) (x : Stop) : Bool :=
  !allBack (s.tripsOf e) stops && (actsOf s e q stops)[(s.choose (actsOf s e q stops).length).1]? = some (.leave x)

theorem comes_of_now {s : State} {e : Instr} {q : Requester} {stops : List Stop} (h : comesNow s e q stops = true) :
    ∃ x, s.comes e q stops x := by
  simp only [comesNow, Bool.and_eq_true, Bool.not_eq_true'] at h
  obtain ⟨h1, h2⟩ := h
  split at h2
  · next t ht => exact ⟨t, h1, ht⟩
  · cases h2

theorem leaves_of_now {s : State} {e : Instr} {q : Requester} {stops : List Stop} {x : Stop}
    (h : leavesNow s e q stops x = true) : s.leaves e q stops x := by
  simp only [leavesNow, Bool.and_eq_true, Bool.not_eq_true', decide_eq_true_eq] at h
  exact ⟨h.1, h.2⟩

/-- The stages that the requests of a state stand at. -/
def stages (t : State) : List Stage := t.trips.map (·.stage)

/-- No split issues. -/
def sE : State := { s0 with cur := none }
/-- A context without page tables, so that no line is mapped: the events that have their translations keep them. -/
def unmapped (s : State) : State := { s with contexts := s.contexts.map (fun c => (c.1, { c.2 with root := none })) }
theorem unmapped_homes {s : State} (h : s.contexts.all (fun c => c.2.root = none) = true) (line : Nat) :
    lineHomes s line = (Tab.get [] s.homes line).dedup := by
  unfold lineHomes
  rw [List.flatMap_eq_nil_iff.mpr, List.append_nil]
  intro c hc
  have hr : c.2.root = none := of_decide_eq_true (List.all_eq_true.mp h c hc)
  rw [hr]
  split <;> rfl

/-- Every line is served, and no page table maps one of them. -/
def servedAllNow (s : State) (ls : List (Nat × Nat)) (e : Instr) : Bool :=
  ls.all (fun x => servedNow s x.1 x.2 true e) && ls.all (fun x => ls.all (fun y => x.2 ≠ y.2 || x.1 = y.1))
    && s.contexts.all (fun c => c.2.root = none)
theorem servedAll_of_now {s : State} {ls : List (Nat × Nat)} {e : Instr} (h : servedAllNow s ls e = true) : s.servedAll ls e := by
  simp only [servedAllNow, Bool.and_eq_true] at h
  obtain ⟨⟨h1, h2⟩, h3⟩ := h
  have hs : ∀ x ∈ ls, s.served x.1 x.2 true e := fun x hx => served_of_now (List.all_eq_true.mp h1 x hx)
  refine ⟨hs, fun x hx y hy he => ?_, fun m _ x hx => ?_⟩
  · have := List.all_eq_true.mp (List.all_eq_true.mp h2 x hx) y hy
    simpa [he] using this
  · have := (hs x hx).single
    unfold mixedHome at this ⊢
    rw [unmapped_homes h3] at this
    rw [unmapped_homes (s := { s with mem := m }) h3]
    exact this

/-- Every line of a block is served, and no page table maps one of them. -/
def blockNow (s : State) (x : Stop) (e : Instr) : Bool :=
  (List.range 128).all (fun k => servedNow s x.home (x.line + k) true e) && s.contexts.all (fun c => c.2.root = none)
theorem servedBlock_of_now {s : State} {x : Trip} {e : Instr} (h : blockNow s x.stop e = true) : s.servedAll (blockLines x) e := by
  simp only [blockNow, Bool.and_eq_true] at h
  obtain ⟨h1, h3⟩ := h
  have hs : ∀ y ∈ blockLines x, s.served y.1 y.2 true e := by
    intro y hy
    obtain ⟨k, hk, rfl⟩ := List.mem_map.mp hy
    exact served_of_now (List.all_eq_true.mp h1 k hk)
  refine ⟨hs, fun y hy z hz _ => ?_, fun m _ y hy => ?_⟩
  · obtain ⟨k, _, rfl⟩ := List.mem_map.mp hy
    obtain ⟨j, _, rfl⟩ := List.mem_map.mp hz
    rfl
  · have := (hs y hy).single
    unfold mixedHome at this ⊢
    rw [unmapped_homes h3] at this
    rw [unmapped_homes (s := { s with mem := m }) h3]
    exact this
/-- The lines of a block stand in their slice. -/
def blockIn (x : Stop) (n : Nat) (s : State) : State :=
  (List.range n).foldl (fun s k => lineAt x.home (x.line + k) { state := .cln } s) s
/-- The replies to an event's requests are back, with what memory holds. -/
def answeredAt (e : Instr) (q : Requester) (xs : List Stop) (s : State) : State :=
  { s with trips := xs.zipIdx.map (fun x =>
      { id := 20 + x.2, e := e, who := q, stop := x.1, stage := .done, data := s.mem.line x.1.line
        bytes := if x.1.span = 1 then [] else s.mem.read (128 * x.1.line) 128 }) }

/-- One operation in flight. -/
def withOne (o : Op) (s : State) : State := { s with ops := [(0, o)], nextOp := 1 }
/-- Line 0x2000 at slice 16, in a state. -/
def lineIn (x : SliceState) (s : State) : State := lineAt 16 0x2000 { state := x } s
def bytesAt (a n v : Nat) (s : State) : State := { s with mem := s.mem.putNat a n v }
def synced (r : SyncRec) (s : State) : State := s.modSlice 16 (fun x => { x with sync := [r] })
def part5 : Part := { line := 0x2000, home := 16, sent := true }
def acc (l a v : Nat) : Acc := { lane := l, va := BitVec.ofNat 64 a, pa := a, b := BitVec.ofNat 64 v }
def opOf (t : State) (k : Nat) : Op := (t.ops.find? k).getD {}
def partOf (t : State) (k j : Nat) : Part := ((opOf t k).parts[j]?).getD {}

/-! ### Requests at their home slices: SliceRequests, SliceLines (R84 to R91, R120, R140, R154, R182 to R188) -/

def oLoad : Op := { kind := .load, ref := testRef, ctx := 1, order := 1, scope := 2, dests := [.row 20], parts := [part5]
                    lanes := [acc 0 0x100000 0] }
def sLoad : State := bytesAt 0x100000 4 0x11223344 (lineIn .cln (withOne oLoad sE))
theorem test_sliceLoad : Took (.sliceLoad ⟨0, 0⟩) sLoad
    (sLoad.ops.find? 0 = some oLoad ∧ servedNow sLoad 16 0x2000 true (.sliceLoad ⟨0, 0⟩) = true ∧ scopeNow sLoad 16 0x2000 2 0 = true)
    (fun t => (partOf t 0 0).done = true ∧ (partOf t 0 0).ldata = 0x11223344 ∧ (t.slice 16).sync = [⟨2, 0, 0x2000⟩]) :=
  took_of_now (by decide +kernel)
/-- Two lanes store to overlapping bytes; the higher lane's stand (R154). -/
def oStore : Op := { kind := .store, ref := testRef, parts := [part5], size := 4, lanes := [acc 0 0x100000 0xAAAAAAAA, acc 1 0x100002 0xBBBBBBBB] }
def sStore : State := lineIn .dty (withOne oStore sE)
theorem test_sliceStore : Took (.sliceStore ⟨0, 0⟩) sStore
    (sStore.ops.find? 0 = some oStore ∧ servedNow sStore 16 0x2000 true (.sliceStore ⟨0, 0⟩) = true)
    (fun t => t.mem.nat 0x100000 8 = 0xBBBBBBBBAAAA ∧ t.tags.get 0 0x2000 = 1 ∧ (partOf t 0 0).tag = 1) :=
  took_of_now (by decide +kernel)
/-- Two lanes add to one word, in ascending order (R182). -/
def oAtom : Op := { kind := .atomic, ref := testRef, scope := 3, fn := 1, ty := 1, dests := [.row 20], parts := [part5]
                    lanes := [acc 3 0x100000 5, acc 7 0x100000 6] }
def sAtom : State := bytesAt 0x100000 4 100 (lineIn .cln (withOne oAtom sE))
theorem test_sliceAtomic : Took (.sliceAtomic ⟨0, 0⟩) sAtom
    (sAtom.ops.find? 0 = some oAtom ∧ servedNow sAtom 16 0x2000 true (.sliceAtomic ⟨0, 0⟩) = true ∧ scopeNow sAtom 16 0x2000 3 0 = true)
    (fun t => t.mem.nat 0x100000 4 = 111 ∧ (opOf t 0).data.get 0 24 = 100 ∧ (opOf t 0).data.get 0 56 = 105
      ∧ (t.sline 16 0x2000).state = .dty) := took_of_now (by decide +kernel)
def oCheck : Op := { kind := .check, ref := testRef, scope := 2, order := 1, parts := [{ part5 with check := true }] }
/-- A record of a wider scope refuses a narrower access: DIE after PKG does not pass, PKG after DIE does (R91). -/
theorem test_checkRequest : Took (.checkRequest ⟨0, 0⟩) (synced ⟨2, 0, 0x2000⟩ (withOne oCheck sE))
    (scopeNow (synced ⟨2, 0, 0x2000⟩ (withOne oCheck sE)) 16 0x2000 2 0 = true) (fun t => (partOf t 0 0).passed = true) :=
  took_of_now (by decide +kernel)
/-- A request that has not left yet leaves its core for its slice. -/
theorem test_request_leaves : Took (.sliceLoad ⟨0, 0⟩) (bytesAt 0x100000 4 7 (withOne { oLoad with parts := [{ part5 with sent := false }] } sE))
    (returning s0 0 0x2000 = false ∧ (s0.core 0).l1Find 0x2000 = none)
    (fun t => (partOf t 0 0) = part5 ∧ t.agenda = [.sliceLoad ⟨0, 0⟩]) := took_of_now (by decide +kernel)
/-- A poisoned line refuses a load and an atomic (R58). -/
theorem test_slice_poisoned : Took (.sliceAtomic ⟨0, 0⟩) { sAtom with poison := [0x2000] }
    (oAtom.fault = none ∧ oAtom.kind ≠ .pref ∧ scopeNow sAtom 16 0x2000 3 0 = true)
    (fun t => ((partOf t 0 0).refusal).map (fun x => (x.cls, x.code, x.addr)) = some (3, 13, 0x100000) ∧ t.mem.nat 0x100000 4 = 100
      ∧ t.agenda = [.replyArrival ⟨0, 0⟩]) :=
  took_of_now (by decide +kernel)
/-- A DISCARD makes an absent line dirty without bringing it in. -/
theorem test_slice_discard : Took (.sliceStore ⟨0, 0⟩) (lineIn .inv (withOne { oStore with kind := .discard } sE))
    ((((lineIn .inv sE).slice 16).taken < 2048)) (fun t => (t.sline 16 0x2000).state = .dty ∧ (partOf t 0 0).done = true) :=
  took_of_now (by decide +kernel)
/-- A slice whose 2,048 places are all taken: a request for an absent line waits, and a line leaves for it (R84). -/
def sFullSlice : State :=
  (withOne { oLoad with parts := [part5] } sE).modSlice 16 (fun x => { x with lines := (List.range 2048).map (fun k => (0x3000 + k, { state := .cln })) })
theorem witness_SliceRequests_full : sFullSlice.Inv ∧ 2048 ≤ (sFullSlice.slice 16).taken ∧ (sFullSlice.sline 16 0x2000).state = .inv
    ∧ (sFullSlice.sline 16 0x2000).uo = 0 ∧ (sFullSlice.sline 16 0x2000).waiters = [] ∧ (opOf sFullSlice 0).kind ≠ .discard :=
  ⟨inv_of_now (by decide +kernel), by decide +kernel, by decide +kernel, by decide +kernel, by decide +kernel, by decide +kernel⟩
theorem test_scope_refused : Took (.sliceLoad ⟨0, 0⟩) (synced ⟨3, 0, 0x2000⟩ sLoad)
    ((((synced ⟨3, 0, 0x2000⟩ sLoad).slice 16).sync.find? (fun x => x.line = 0x2000)).isSome = true ∧ contains 2 0 3 0 = false ∧ oLoad.fault = none
      ∧ servedNow (synced ⟨3, 0, 0x2000⟩ sLoad) 16 0x2000 true (.sliceLoad ⟨0, 0⟩) = true)
    (fun t => ((partOf t 0 0).refusal).map (fun x => (x.cls, x.code, x.addr)) = some (3, 14, 0x100000)) := took_of_now (by decide +kernel)
/-- The reply that says so brings the fault (R102). -/
theorem test_refusal_arrives : Took (.replyArrival ⟨0, 0⟩)
    (withOne { oLoad with parts := [{ part5 with refusal := some { cls := 3, code := 14, addr := 0x100000 } }] } sE) True
    (fun t => ((opOf t 0).fault).map (fun x => (x.cls, x.code, x.addr)) = some (3, 14, 0x100000) ∧ (partOf t 0 0).sent = false
      ∧ ((t.team? 0).bind (·.halt)).map (fun x => x.1.code) = some 14) := took_of_now (by decide +kernel)
theorem test_slice_busy : Took (.sliceLoad ⟨0, 0⟩) (lineIn .busy sLoad) (((lineIn .busy sLoad).sline 16 0x2000).waiters = [])
    (fun t => (t.sline 16 0x2000).waiters = [.sliceLoad ⟨0, 0⟩] ∧ (partOf t 0 0).done = false) := took_of_now (by decide +kernel)
theorem test_slice_recall : Took (.sliceStore ⟨0, 0⟩) (lineAt 16 0x2000 { state := .dty, uo := 0x0900 } sStore) True
    (fun t => t.agenda = [.recallDelivery 8 0x2000] ∧ (t.sline 16 0x2000).state = .busy) := took_of_now (by decide +kernel)
theorem test_slice_absent : Took (.sliceAtomic ⟨0, 0⟩) (lineIn .inv sAtom) True
    (fun t => t.agenda = [.sliceFillComplete 16 0x2000] ∧ (t.sline 16 0x2000).state = .busy) := took_of_now (by decide +kernel)
theorem test_sliceFillComplete : Took (.sliceFillComplete 16 0x2000) (lineAt 16 0x2000 { state := .busy, waiters := [.sliceLoad ⟨0, 0⟩] } sLoad) True
    (fun t => (t.sline 16 0x2000).state = .cln ∧ t.agenda = [.sliceLoad ⟨0, 0⟩]) := took_of_now (by decide +kernel)
theorem test_sliceWriteBackComplete : Took (.sliceWriteBackComplete 16 0x2000) (lineIn .busy sE) True
    (fun t => (t.sline 16 0x2000).state = .inv ∧ t.agenda = []) := took_of_now (by decide +kernel)
def eWb : Instr := .writeBackArrival 0 16 0x2000 0xDDCCBBAA 0x5 [0]
def stop16 : Stop := ⟨16, 0x2000, 1⟩
def sWb (st : Stage) : State := tripAt eWb (.core 0) stop16 st (bytesAt 0x100000 4 0x11223344
  (lineIn .cln (withOne { oStore with parts := [{ part5 with wb := true, done := true }] } sE)))
theorem test_writeBackArrival : Took eWb (sWb .there)
      (servedNow (sWb .there) 16 0x2000 true eWb = true ∧ comesNow (sWb .there) eWb (returnBy (sWb .there) 0 16 0x2000) [stop16] = true)
      (fun t => t.mem.nat 0x100000 4 = 0x11CC33AA ∧ t.tags.get 0 0x2000 = 1 ∧ (partOf t 0 0).wb = true ∧ stages t = [.back])
    ∧ Took eWb (sWb .done) (allBack ((sWb .done).tripsOf eWb) [stop16] = true ∧ ∀ x ∈ (sWb .done).tripsOf eWb, x.bad = false)
      (fun t => (partOf t 0 0).wb = false ∧ t.trips = [] ∧ t.mem.nat 0x100000 4 = 0x11223344)
    ∧ Took eWb (lineIn .cln sE) (leavesNow (lineIn .cln sE) eWb (.core 0) [stop16] stop16 = true) (fun t => stages t = [.going] ∧ t.agenda = [eWb]) :=
  ⟨took_of_now (by decide +kernel), took_of_now (by decide +kernel), took_of_now (by decide +kernel)⟩
/-- A poisoned line takes no part of a line; its reply says so, and the store faults (R58). -/
theorem test_writeBack_poisoned : Took eWb { sWb .there with poison := [0x2000] } (((0x5 : ByteMask) ≠ BitVec.allOnes 128))
      (fun t => t.trips.map (·.bad) = [true] ∧ t.mem.nat 0x100000 4 = 0x11223344)
    ∧ Took eWb { sWb .done with trips := (sWb .done).trips.map (fun x => { x with bad := true }) } (oStore.fault = none)
      (fun t => ((opOf t 0).fault).map (fun x => (x.cls, x.code, x.addr)) = some (3, 13, 0x100000)) :=
  ⟨took_of_now (by decide +kernel), took_of_now (by decide +kernel)⟩
def eCombine : Instr := .partialResultCombine 2 16 0x2000 0x500000007 0xF 1 1 []
def sGather : State := tripAt eCombine (.core 2) stop16 .there (bytesAt 0x100000 8 0x6400000064 (lineAt 16 0x2000 { state := .dty, uo := 0xC } sE))
theorem test_partialResultCombine : Took eCombine sGather (poisoned sGather 0x2000 = false ∧ mixedHome sGather 16 0x2000 = false
      ∧ comesNow sGather eCombine (returnBy sGather 2 16 0x2000) [stop16] = true)
    (fun t => t.mem.nat 0x100000 8 = 0x640000006B ∧ (t.sline 16 0x2000).uo = 8 ∧ stages t = [.back]) := took_of_now (by decide +kernel)
def oRed : Op := { kind := .red, ref := testRef, core := 2, scope := 3, fn := 1, ty := 1, parts := [{ part5 with gather := true }]
                   lanes := [acc 0 0x100000 9] }
def sRed : State := lineIn .cln (withOne oRed sE)
theorem test_updateOnlyObtain : Took (.updateOnlyObtain ⟨0, 0⟩) sRed
    (servedNow sRed 16 0x2000 false (.updateOnlyObtain ⟨0, 0⟩) = true ∧ scopeNow sRed 16 0x2000 3 0 = true)
    (fun t => (t.sline 16 0x2000).uo = 4 ∧ (partOf t 0 0).passed = true) := took_of_now (by decide +kernel)
/-- The line is granted, and the L1 gathers the lanes (R187); a line that has been returned meanwhile makes the RED an atomic at
the slice (R191). -/
theorem test_gathered : Took (.replyArrival ⟨0, 0⟩) (withOne { oRed with parts := [{ part5 with gather := true, done := true, passed := true }] } sE)
      (oRed.kind = .red)
      (fun t => ((t.core 2).l1Find 0x2000).map (fun l => (l.state, l.data)) = some (.uo, 0) ∧ (partOf t 0 0).l1 = true
        ∧ t.agenda = [.replyArrival ⟨0, 0⟩])
    ∧ Took (.replyArrival ⟨0, 0⟩) ((withOne { oRed with parts := [{ part5 with l1 := true, sent := false, gather := true, passed := true }] } sE).modCore 2
        (fun c => { c with l1 := [{ state := .uo, line := 0x2000, home := 16, fn := 1, ty := 1, rsv := some (3, 0) }] }))
      ((s0.warp? testWarp).map (·.fences) = some [])
      (fun t => ((t.core 2).l1Find 0x2000).map (fun l => (l.state, l.data)) = some (.uo, 9) ∧ (partOf t 0 0).wb = true)
    ∧ Took (.replyArrival ⟨0, 0⟩) (withOne { oRed with parts := [{ part5 with l1 := true, sent := false, gather := true, passed := true }] } sE)
      ((sE.core 2).l1Find 0x2000 = none) (fun t => t.agenda = [.sliceAtomic ⟨0, 0⟩] ∧ (partOf t 0 0).gather = false) :=
  ⟨took_of_now (by decide +kernel), took_of_now (by decide +kernel), took_of_now (by decide +kernel)⟩
/-- A store to the own scratchpad, and a load from it, are performed once they have issued (R118, R144). -/
def oScr (k : OpKind) : Op := { kind := k, ref := testRef, size := 4, dests := if k = .load then [.row 20] else []
                                lanes := [acc 0 0x40 0x11223344], parts := [{ line := scratchLine, l1 := true }] }
theorem test_scratchpad : Took (.replyArrival ⟨0, 0⟩) (withOne (oScr .store) sE) True
      (fun t => leNat ((((t.team? 0).map (fun (x : Team) => (x.areas.get {} 0).scratch)).getD {}).read 0x40 4) = 0x11223344 ∧ t.ops = [])
    ∧ Took (.replyArrival ⟨0, 0⟩) (emptyRow 20 (scratchAt 0x40 0x99 (scratchAt 0x41 0 (scratchAt 0x42 0 (scratchAt 0x43 0 (withOne (oScr .load) sE)))))) True
      (fun t => at_ t 20 0 = 0x99 ∧ ((warpNow t).row 20).full = true) := ⟨took_of_now (by decide +kernel), took_of_now (by decide +kernel)⟩
/-- Loads of 64 bits into a row pair, of 128 bits into four rows, and of 8 bits, signed to 32, into an s register (R36, R41, R156). -/
def oWide (ty n : Nat) (ds : List PReg) : Op :=
  { kind := .load, ref := testRef, ty := ty, size := n, dests := ds, lanes := [acc 3 0x40 0], parts := [scratchPart 1 0] }
def sWide (o : Op) : State :=
  (List.range 16).foldl (fun s k => scratchAt (0x40 + k) (0xF0 + k) s) (withOne o sE)
theorem test_scratchpad_wide :
    Took (.replyArrival ⟨0, 0⟩) (sWide (oWide 4 8 [.row 20, .row 21])) (tySize 4 = 8)
      (fun t => at_ t 20 3 = 0xF3F2F1F0 ∧ at_ t 21 3 = 0xF7F6F5F4)
    ∧ Took (.replyArrival ⟨0, 0⟩) (sWide (oWide 14 16 [.row 20, .row 21, .row 22, .row 23])) (tySize 14 = 16)
      (fun t => at_ t 20 3 = 0xF3F2F1F0 ∧ at_ t 23 3 = 0xFFFEFDFC)
    ∧ Took (.replyArrival ⟨0, 0⟩) (sWide (oWide 12 1 [.s 4])) (tySize 12 = 1) (fun t => sAt t 4 = 0xFFFFFFF0) :=
  ⟨took_of_now (by decide +kernel), took_of_now (by decide +kernel), took_of_now (by decide +kernel)⟩
/-- A kick reaches the slot that its replica and the record agree on; one from another context is foreign (R376, R377). -/
def oKick (n : Nat) : Op := { kind := .kick, ref := testRef, ctx := 1, order := n, regs := [2, 5, 8], parts := [{ line := 0, l1 := true }] }
theorem test_kick_arrives : Took (.replyArrival ⟨0, 0⟩) (queueWith 2 5 { state := 1, ctx := 1 } (withOne (oKick 1) sE)) True
      (fun t => (t.queue 2 5).kick = 8 ∧ t.agenda = [.queueCommandPull 2 5] ∧ t.ops = [])
    ∧ Took (.replyArrival ⟨0, 0⟩) (queueWith 2 5 { state := 1, ctx := 2 } (withOne (oKick 0) sE)) True
      (fun t => (t.queue 2 5).kick = 0 ∧ (t.die 2).foreignKicks = 1 ∧ t.agenda = []) := ⟨took_of_now (by decide +kernel), took_of_now (by decide +kernel)⟩
def uoLine : L1Line := { state := .uo, line := 0x2000, home := 16, data := 9, bmask := 0xF, fn := 1, ty := 1 }
def sAsked : State := lineAt 16 0x2000 { state := .busy, uo := 0xC } sE
theorem test_recallDelivery : Took (.recallDelivery 2 0x2000) (sAsked.modCore 2 (fun c => { c with l1 := [uoLine] }))
    (uoLine.home = 16 ∧ recallers (sAsked.modCore 2 (fun c => { c with l1 := [uoLine] })) 2 0x2000 = [16])
    (fun t => (t.core 2).l1Find 0x2000 = none ∧ t.agenda = [.partialResultCombine 2 16 0x2000 9 0xF 1 1 []]) :=
  took_of_now (by decide +kernel)
theorem test_recallDelivery_empty : Took (.recallDelivery 2 0x2000) sAsked
    ((sAsked.core 2).l1Find 0x2000 = none ∧ returning sAsked 2 0x2000 = false ∧ recallers sAsked 2 0x2000 = [16])
    (fun t => t.agenda = [.partialResultCombine 2 16 0x2000 0 0 0 0 []]) := took_of_now (by decide +kernel)

/-! ### Anchor slices: AnchorRequests (R87, R88, R113, R207 to R221) -/

/-- The sample of NIST for KMAC128 with 256 bits of output, and SHA3-256 of "abc". -/
theorem test_kmac_sample : (kmac128 ((List.range 32).map (fun k => BitVec.ofNat 8 (0x40 + k))) [0, 1, 2, 3] 32 []).take 8
    = [0xE5, 0x78, 0x0B, 0x0D, 0x3E, 0xA6, 0xF7, 0xD3] := by decide +kernel
theorem test_sha3_sample : (sha3_256 [0x61, 0x62, 0x63]).take 8 = [0x3A, 0x98, 0x5D, 0xA7, 0x4F, 0xE2, 0x25, 0xB2] := by
  decide +kernel

/-- A signet for locket 2 of the area at 0x20000 of context 1, generation 1, 32 lanes, W = K = 1, POL STRICT, in a package
whose secret is 0: its MAC is KMAC128's output for it, worked out by a program of its own. -/
def sig : BitVec 128 := 0x010001074CFAEF5D0000000000020200
def sSecret : State := { unmapped sE with secret := 0 }
def slot5 : Nat := anchorSlice sig
/-- Lines of the area stand in their slice. -/
def areaIn (ks : List Nat) (s : State) : State := ks.foldl (fun s k => lineAt slot5 (0x400 + k) { state := .cln } s) s
def oRwr : Op := { kind := .rwr, ref := testRef, ctx := 1, core := 3, size := 32, regs := [sig.extractLsb' 0 64, sig.extractLsb' 64 64]
                   lanes := [acc 0 0 7, acc 5 0 9], parts := [{ line := 0x400, home := slot5, sent := true }] }
/-- No line of the area at 0x20000 is held by a slice of another policy. -/
def singleNow (s : State) : Bool := (List.range 128).all (fun k => !mixedHome s slot5 (0x400 + k))
theorem test_remoteWriteApply_memory : Took (.remoteWriteApply 0) (areaIn [4, 5, 64] (withOne oRwr sSecret))
    (resRecord (withOne oRwr sSecret) slot5 1 0x20000 = none ∧ singleNow sSecret = true)
    (fun t => (opOf t 0).code = 0 ∧ t.mem.nat 0x20200 4 = 7 ∧ t.mem.nat 0x20214 4 = 9 ∧ t.mem.nat 0x22000 4 = 4) :=
  took_of_now (by decide +kernel)
/-- The warp's record stands in the anchor slice, with the lockets of m full. -/
def recorded (m : Nat) (s : State) : State :=
  s.modSlice slot5 (fun x => { x with res := [⟨1, 0x20000, 0, testWarp, BitVec.ofNat 32 m⟩] })
theorem test_remoteWriteApply_resident : Took (.remoteWriteApply 0) (recorded 1 (withOne oRwr sSecret))
    ((resRecord (recorded 1 (withOne oRwr sSecret)) slot5 1 0x20000).isSome = true)
    (fun t => t.agenda.head? = some (.locketDelivery testWarp 2 0x21 [7, 9]) ∧ fullMask t slot5 1 0x20000 = 5) :=
  took_of_now (by decide +kernel)
/-- A full locket refuses a STRICT signet with code 3. -/
theorem test_remoteWriteApply_refused : Took (.remoteWriteApply 0) (recorded 4 (withOne oRwr sSecret)) True
    (fun t => (opOf t 0).code = 3 ∧ t.agenda = [.replyArrival ⟨0, 0⟩]) := took_of_now (by decide +kernel)
theorem test_tokenApply : Took (.tokenApply 0) (areaIn [4, 5, 64] (withOne { oRwr with kind := .ksend, scope := 3 } sSecret)) True
    (fun t => (opOf t 0).code = 0 ∧ t.mem.nat 0x2027C 4 = 1) := took_of_now (by decide +kernel)
theorem test_emptyRequestApply : Took (.emptyRequestApply 0) (recorded 7 (withOne { oRwr with kind := .empty, val := 5 } sSecret)) True
    (fun t => fullMask t slot5 1 0x20000 = 2 ∧ (partOf t 0 0).done = true) := took_of_now (by decide +kernel)
def oMint : Op := { kind := .mint, ref := testRef, ctx := 1, fn := 3, size := 32, dests := [.s 2, .s 3]
                    lanes := [acc 0 0x20200 0], parts := [{ line := 0x400, home := slot5, ctxPage := true, sent := true }] }
/-- MINT makes the signet above. -/
theorem test_mintRequestApply : Took (.mintRequestApply 0) (withOne oMint sSecret)
    (oMint.lanes = [acc 0 0x20200 0] ∧ (acc 0 0x20200 0).pa < 2 ^ 48 ∧ oMint.ctx < 2 ^ 16)
    (fun t => (opOf t 0).data.get 0 1 ++ (opOf t 0).data.get 0 0 = sig) := took_of_now (by decide +kernel)
theorem test_locketDelivery : Took (.locketDelivery testWarp 2 0x21 [7, 9]) (emptyRow 162 sE)
    ((launchOf sE testWarp).isSome = true)
    (fun t => at_ t 162 0 = 7 ∧ at_ t 162 5 = 9 ∧ at_ t 162 1 = 0 ∧ ((warpNow t).row 162).full = true) := took_of_now (by decide +kernel)
def sToken (p : Nat) : State := keyWith 1 { p := BitVec.ofNat 16 p, t := [(1, BitVec.ofNat 16 p)] }
  (warpWith (fun w => { w with tokens := [⟨0, 1, 4⟩] }) (withOne { oRwr with kind := .ksend, scope := 4, parts := [{ line := 0x400, home := slot5 }] } sSecret))
theorem test_ksendTokenSend : Took (.ksendTokenSend 0) (sToken 0)
      ((warpNow (sToken 0)).satisfied 64 1 4 = true)
      (fun t => (warpNow t).tokens = [] ∧ t.agenda = [.tokenApply 0])
    ∧ Took (.ksendTokenSend 0) (sToken 1) ((warpNow (sToken 1)).satisfied 64 1 4 = false)
      (fun t => (warpNow t).tokens = [⟨0, 1, 4⟩] ∧ t.agenda = [.ksendTokenSend 0]) :=
  ⟨took_of_now (by decide +kernel), took_of_now (by decide +kernel)⟩
/-- A poisoned line of the saved area refuses a remote write, and none of it is written (R58). -/
theorem test_remoteWriteApply_poisoned : Took (.remoteWriteApply 0) { areaIn [4, 5, 64] (withOne oRwr sSecret) with poison := [0x440] } True
    (fun t => ((partOf t 0 0).refusal).map (fun x => (x.cls, x.code)) = some (3, 13) ∧ t.mem.nat 0x20200 4 = 0) :=
  took_of_now (by decide +kernel)
def eRemove : Instr := .saveRecordRemove testWarp
def sRemove (st : Stage) : State := tripAt eRemove (.core 0) ⟨slot5, 0x440, 1⟩ st (lineAt slot5 0x440 { state := .cln } (recorded 5 sSecret))
theorem test_saveRecordRemove : Took eRemove (sRemove .there)
      (anchorOf (sRemove .there) testWarp = some (slot5, 0x20000) ∧ comesNow (sRemove .there) eRemove (.core 0) [⟨slot5, 0x440, 1⟩] = true
        ∧ servedNow (sRemove .there) slot5 0x440 true eRemove = true
        ∧ ((sRemove .there).slice slot5).res.find? (fun x => x.warp = testWarp) = some ⟨1, 0x20000, 0, testWarp, 5⟩)
      (fun t => (t.slice slot5).res = [] ∧ t.mem.nat 0x22000 4 = 5 ∧ .flushMarkerArrival testWarp ∈ t.agenda ∧ stages t = [.back])
    ∧ Took eRemove (recorded 5 sSecret) (leavesNow (recorded 5 sSecret) eRemove (.core 0) [⟨slot5, 0x440, 1⟩] ⟨slot5, 0x440, 1⟩ = true)
      (fun t => stages t = [.going])
    ∧ Took eRemove (tripAt eRemove (.core 0) ⟨slot5, 0x440, 1⟩ .done sSecret) (anchorOf sSecret testWarp = none) (fun t => t.trips = [])
    ∧ Took eRemove sSecret True (fun t => t.agenda = [.flushMarkerArrival testWarp]) :=
  ⟨took_of_now (by decide +kernel), took_of_now (by decide +kernel), took_of_now (by decide +kernel), took_of_now (by decide +kernel)⟩
theorem test_flushMarkerArrival : Took (.flushMarkerArrival testWarp) sE ((warpNow sE).marked = false) (fun t => (warpNow t).marked = true) :=
  took_of_now (by decide +kernel)
/-- A team with one locket, whose image lies on a page marked for images. -/
def sOne : State := imagePage (launchWith (fun l => { l with desc := { l.desc with globals := 97 } }) sE)
def sImage : State := bytesAt 0x20004 4 77 (bytesAt 0x22000 4 1 (emptyRow 160 (warpWith (fun w => { w with anchor := some (slot5, 0x20000) }) sOne)))
def eInstall : Instr := .restoreRecordInstall testWarp
def blockStop0 : Stop := ⟨slot5, 0x400, 128⟩
/-- The page is translated, and the lines of the block stand in their slice. -/
def sInstall (st : Stage) : State :=
  tripAt eInstall (.command 0) blockStop0 st (unmapped (pinPages eInstall [] 0 1 [0x4000002] (areaIn (List.range 65) sImage)))
theorem witness_AnchorRequests_install : (sInstall .there).Inv ∧ (warpNow (sInstall .there)).anchor = some (slot5, 0x20000)
    ∧ (launchOf (sInstall .there) testWarp).map (fun l => (l.desc.globals, l.desc.lanes)) = some (97, 32)
    ∧ unpinned (sInstall .there) eInstall 1 [(warpNow sImage).imageBase] = []
    ∧ (areaAnchor (sInstall .there) eInstall 0 1 (warpNow sImage).imageBase).isSome = true
    ∧ comesNow (sInstall .there) eInstall (.command 0) [blockStop0] = true
    ∧ (List.range 65).all (fun k => servedNow (sInstall .there) slot5 (0x400 + k) true eInstall) = true :=
  ⟨inv_of_now (by decide +kernel), by decide +kernel, by decide +kernel, by decide +kernel, by decide +kernel, by decide +kernel,
    by decide +kernel⟩
/-- What the request brings: lane 1 of the one locket, and its full bit. -/
theorem test_installLockets :
    let t := installLockets testWarp ((launchOf sOne testWarp).getD {}) ([0, 0, 0, 0, 77] ++ zeros 8187 ++ [1, 0, 0, 0]) (emptyRow 160 sOne)
    at_ t 160 1 = 77 ∧ ((warpNow t).row 160).full = true ∧ (warpNow t).installed = true := by decide +kernel
theorem test_restoreRecordInstall : Took eInstall (sInstall .done) (allBack ((sInstall .done).tripsOf eInstall) [blockStop0] = true)
      (fun t => t.trips = [] ∧ (warpNow t).installed = false)
    ∧ Took eInstall sImage (unpinned sImage eInstall 1 [(warpNow sImage).imageBase] ≠ []) (fun t => t.trips = [] ∧ at_ t 160 1 = 0) :=
  ⟨took_of_now (by decide +kernel), took_of_now (by decide +kernel)⟩

/-! ### Device queues, watches and walks: QueueRequests, WatchesAndWalks (R67, R311, R332, R333) -/

/-- A queue of capacity 2 with ring 0x200000, HEAD h and TAIL u. -/
def sDevQ (h u : Nat) (o : Op) : State :=
  bytesAt 0x100000 8 0x200000 (bytesAt 0x100008 4 1 (bytesAt 0x100010 8 h (bytesAt 0x100018 8 u (lineIn .cln (withOne o sE)))))
def oQ (push : Bool) : Op := { kind := if push then .qpush else .qpop, ref := testRef, scope := 2, lanes := [acc 0 0x100000 0], parts := [part5] }
theorem test_pushReservation : Took (.pushReservation 0) (sDevQ 8 9 (oQ true))
      (servedNow (sDevQ 8 9 (oQ true)) 16 0x2000 true (.pushReservation 0) = true ∧ scopeNow (sDevQ 8 9 (oQ true)) 16 0x2000 2 0 = true
        ∧ (sDevQ 8 9 (oQ true)).mem.nat 0x100008 4 = 1)
      (fun t => t.mem.nat 0x100018 8 = 10 ∧ (opOf t 0).data.get 0 0 = 1 ∧ (opOf t 0).data.get 0 1 = 9)
    ∧ Took (.pushReservation 0) (sDevQ 7 9 (oQ true)) True (fun t => t.mem.nat 0x100018 8 = 9 ∧ (opOf t 0).data.get 0 0 = 0) :=
  ⟨took_of_now (by decide +kernel), took_of_now (by decide +kernel)⟩
theorem test_popReservation : Took (.popReservation 0) (sDevQ 8 9 (oQ false)) True
      (fun t => t.mem.nat 0x100010 8 = 9 ∧ (opOf t 0).data.get 0 1 = 8)
    ∧ Took (.popReservation 0) (sDevQ 9 9 (oQ false)) True (fun t => t.mem.nat 0x100010 8 = 9 ∧ (opOf t 0).data.get 0 0 = 0) :=
  ⟨took_of_now (by decide +kernel), took_of_now (by decide +kernel)⟩
/-- A record's request, granted index 9, at line 0x2000. -/
def oRec (push : Bool) : Op := { oQ push with
  prog := 2, eng := 0x100000, parts := [{ line := 1, done := true }, part5], regs := [1, 2, 3, 4, 5, 6, 7]
  data := [(0, 1), (1, 9), (2, 0x200000), (3, 1), (4, 0)] }
def sRec (push : Bool) (seq : Nat) : State := bytesAt 0x100038 8 seq (bytesAt 0x100030 8 0x66 (lineIn .cln (withOne (oRec push) sE)))
def eHeld : Instr := .pushWrite 3
theorem test_pushWrite : Took (.pushWrite 0) (sRec true 9)
      ((sRec true 9).mem.nat 0x100038 8 = 9 ∧ (oRec true).regs.length = 7 ∧ servedNow (sRec true 9) 16 0x2000 true (.pushWrite 0) = true)
      (fun t => t.mem.nat 0x100030 8 = 7 ∧ t.mem.nat 0x100038 8 = 10)
    ∧ Took (.pushWrite 0) (sRec true 8) ((((sRec true 8).slice 16).held).length < 64) (fun t => (t.slice 16).held = [.pushWrite 0])
    ∧ Took (.pushWrite 0) ((sRec true 8).modSlice 16 (fun x => { x with held := List.replicate 64 eHeld })) True
      (fun t => t.agenda = [.heldRequestResend 0] ∧ (partOf t 0 1).sent = false)
    ∧ Took (.pushWrite 0) (bytesAt 0x100038 8 9 (lineIn .cln (withOne { oRec true with data := (oRec true).data.set 4 1 } sE)))
      (((oRec true).data.set 4 1).get 0 4 = 1) (fun t => (partOf t 0 1).done = true ∧ t.tags.get 0 0x2000 = 1) :=
  ⟨took_of_now (by decide +kernel), took_of_now (by decide +kernel), took_of_now (by decide +kernel),
    took_of_now (by decide +kernel)⟩
theorem test_popRead : Took (.popRead 0) (sRec false 10) ((oRec false).data.get 0 4 ≠ 1)
    (fun t => (opOf t 0).data.get 0 6 = 0x66 ∧ t.mem.nat 0x100038 8 = 11) := took_of_now (by decide +kernel)
/-- Its record's request has been returned. -/
def oBack : Op := { oRec false with parts := [{ line := 1, done := true }, { part5 with sent := false }] }
theorem test_queue_leaves : Took (.popRead 0) (withOne oBack sE) (oBack.lineAccess = false)
    (fun t => partOf t 0 1 = part5 ∧ t.agenda = [.popRead 0]) := took_of_now (by decide +kernel)
theorem test_heldRequestResend : Took (.heldRequestResend 0) (withOne oBack sE)
    (oBack.kind = .qpop ∧ oBack.prog ≠ 0) (fun t => t.agenda = [.popRead 0]) := took_of_now (by decide +kernel)
def oWatch : Op := { kind := .load, ref := testRef, ctx := 1, lanes := [acc 0 0x100000 9], parts := [part5] }
def eWatch : Instr := .watchRequest testRef
def sWatch (v : Nat) : State := bytesAt 0x100000 4 v (withOne oWatch (lineIn .cln <| splitWith (fun sp => { sp with wait := .watch 3 0 }) sE))
def sWatching (v : Nat) (st : Stage) : State := tripAt eWatch (.core 0) stop16 st (sWatch v)
theorem test_watchRequest : Took eWatch (sWatching 9 .there) ((splitNow (sWatch 9)).wait = .watch 3 0
        ∧ servedNow (sWatching 9 .there) 16 0x2000 true eWatch = true ∧ comesNow (sWatching 9 .there) eWatch (.core 0) [stop16] = true)
      (fun t => (t.slice 16).watches = [⟨0, testRef, 0, 0x2000⟩] ∧ .wokenDelivery testRef ∉ t.agenda ∧ stages t = [.back])
    ∧ Took eWatch (sWatching 8 .there) True (fun t => .wokenDelivery testRef ∈ t.agenda ∧ (t.slice 16).watches = [])
    ∧ Took eWatch (sWatching 9 .done) (allBack ((sWatching 9 .done).tripsOf eWatch) [stop16] = true) (fun t => t.trips = [] ∧ t.agenda = [])
    ∧ Took eWatch { sWatch 9 with ops := [(0, { oWatch with parts := [{ part5 with rem := some 7 }] })] } True
      (fun t => t.agenda = [.wokenDelivery testRef] ∧ (t.slice 16).watches = []) :=
  ⟨took_of_now (by decide +kernel), took_of_now (by decide +kernel), took_of_now (by decide +kernel), took_of_now (by decide +kernel)⟩
/-- The reply of a watch that met a poisoned line faults the operation, in the lanes of its mask (R385). -/
theorem test_watch_poisoned : Took eWatch { sWatching 9 .there with poison := [0x2000] } True (fun t => t.trips.map (·.bad) = [true])
    ∧ Took eWatch { sWatching 9 .done with trips := (sWatching 9 .done).trips.map (fun x => { x with bad := true }) } True
      (fun t => ((opOf t 0).fault).map (fun x => (x.code, x.addr, x.lmask)) = some (13, 0x100000, lineMask oWatch 0x2000)) :=
  ⟨took_of_now (by decide +kernel), took_of_now (by decide +kernel)⟩
theorem test_wokenDelivery : Took (.wokenDelivery testRef) (sWatch 8) True
    (fun t => pAt t 3 = 0xFFFFFFFF ∧ (splitNow t).wait = .none ∧ (splitNow t).path.pc = 1) := took_of_now (by decide +kernel)
theorem test_waitmTimeout : Took (.waitmTimeout testRef) (pred 3 0xFF (sWatch 9)) True
    (fun t => pAt t 3 = 0 ∧ (splitNow t).wait = .none ∧ (splitNow t).path.pc = 1) := took_of_now (by decide +kernel)
/-- Core 17 waits for the page of address 0, and its walk reads the entry at a. -/
def eWalk (a : Nat) : Instr := .tableWalkStep 17 1 0 3 a
def walkStop (a : Nat) : Stop := ⟨tableHome sE a, a / 128, 1⟩
def sWalk (a v : Nat) (st : Stage) : State :=
  let s := bytesAt a 8 v (lineAt (tableHome sE a) (a / 128) { state := .cln } sE)
  ({ s with trips := [{ id := 9, e := eWalk a, who := .walker 1, stop := walkStop a, stage := st, data := BitVec.ofNat 1024 v }] } : State).modDie 1
    (fun d => { d with misses := [{ ctx := 1, page := 0, cores := [17], walking := true }] })
def walkNow (a v : Nat) : Bool :=
  servedNow (sWalk a v .there) (tableHome sE a) (a / 128) true (eWalk a) && comesNow (sWalk a v .there) (eWalk a) (.walker 1) [walkStop a]
/-- The entry is read at its slice. A table entry to a table at 0x30000, a leaf, and an entry that is not present. -/
theorem test_tableWalkStep : Took (eWalk 0x18000) (sWalk 0x18000 0x30001 .there) (walkNow 0x18000 0x30001 = true)
      (fun t => t.trips.map (fun x => (x.stage, x.data)) = [(.back, 0x30001)])
    ∧ Took (eWalk 0x18000) (sWalk 0x18000 0x30001 .done) (decodePte 3 0x30001 = .ok (.table 0x30000))
      (fun t => t.agenda = [.tableWalkStep 17 1 0 2 0x30000] ∧ (t.die 1).walks = [(1, 2, 0, 0x30000)])
    ∧ Took (eWalk 0x18000) (sWalk 0x18000 31 .done) ((decodePte 3 31).isOk = true)
      (fun t => (t.core 17).tlb.map (fun e => (e.ctx, e.vpage, e.tr.page)) = [(1, 0, 0)] ∧ (t.die 1).tlb.length = 1 ∧ t.agenda = [])
    ∧ Took (eWalk 0x40000) (sWalk 0x40000 0 .done) (decodePte 3 0 = .error ⟨tNotPresent, 0⟩)
      (fun t => t.agenda = [] ∧ (t.die 1).walks = [] ∧ (t.core 17).tlb = []) :=
  ⟨took_of_now (by decide +kernel), took_of_now (by decide +kernel), took_of_now (by decide +kernel), took_of_now (by decide +kernel)⟩
/-- An entry in a hole. -/
theorem test_tableWalkStep_hole : Took (eWalk 0x600000000) (sWalk 0x600000000 0 .going) (isHole 0x600000000 = true)
    (fun t => t.agenda = [] ∧ (t.core 17).misses = []) := took_of_now (by decide +kernel)
def homeOf (s : State) (a : Dword) : Nat := match walk s 1 a with
  | .ok t => (match place t a with | .ok p => p.home | _ => 0)
  | _ => 0
def eConst : Instr := .constLineFetch testRef 0x2000
def sLine : State := bytesAt 0x100000 4 0x55 (lineIn .cln (splitWith (fun sp => { sp with wait := .line }) sE))
/-- The page is translated; the request stands at its slice, or its reply has brought the line. -/
def sConstLine (st : Stage) : State := tripAt eConst (.core 0) stop16 st (pinPages eConst [] 0 1 [16] sLine)
theorem test_constLineFetch : Took eConst (sConstLine .there)
      ((splitNow sLine).wait = .line ∧ unpinned (sConstLine .there) eConst 1 [0x100000] = []
        ∧ servedNow (sConstLine .there) 16 0x2000 true eConst = true ∧ comesNow (sConstLine .there) eConst (.core 0) [stop16] = true)
      (fun t => t.trips.map (fun x => (x.stage, x.data)) = [(.back, 0x55)] ∧ (t.core 0).const = [])
    ∧ Took eConst { sConstLine .done with trips := (sConstLine .done).trips.map (fun x => { x with data := 0x55 }) }
      (allBack ((sConstLine .done).tripsOf eConst) [stop16] = true)
      (fun t => (t.core 0).const = [⟨1, 0x2000, 0x55⟩] ∧ (splitNow t).wait = .none ∧ (splitNow t).path.pc = 0 ∧ t.pins = [])
    ∧ Took eConst sLine (unpinned sLine eConst 1 [0x100000] ≠ []) (fun t => t.trips = [] ∧ (t.core 0).const = [])
    ∧ Took (.constLineFetch testRef 0x1000000000000) sLine True
      (fun t => (splitNow t).own.map (fun x => (x.cls, x.code)) = some (3, 11)) :=
  ⟨took_of_now (by decide +kernel), took_of_now (by decide +kernel), took_of_now (by decide +kernel), took_of_now (by decide +kernel)⟩
theorem test_instructionFetch : Took (.instructionFetch testRef) s0 True (fun t => t.cur = none)
    ∧ Took (.instructionFetch testRef) sPoison True (fun t => (splitNow t).own.map (fun x => (x.cls, x.code)) = some (3, 13))
    ∧ Took (.instructionFetch testRef) sRemCode True (fun t => (opOf t 0).kind = .fetch ∧ (splitNow t).wait = .line) :=
  ⟨took_of_now (by decide +kernel), took_of_now (by decide +kernel), took_of_now (by decide +kernel)⟩

/-! ### The matrix engine and the drain unit: MatrixActs (R277, R281 to R290) -/

def oMx (k : OpKind) : Op := { kind := k, ref := testRef }
def tileWith (t : Tile) (s : State) : State := areaWith (fun a => { a with tiles := [(0, t)] }) s
def tileNow (s : State) : Tile := tileOf s (oMx .accz)
/-- An integer tile with E = 5 and SATF set. -/
def tInt : Tile := { words := [(0, 100), (128, 7), (130, 0xFFFFFFFFFFFB), (256, 0xFFFFFFFFFFFFFFF7)], mode := 1, e := 5
                     rowSums := [(4, 0x100000002)], satf := true, fresh := false }
def sMx (o : Op) : State := tileWith tInt (withOne o sE)
theorem test_acczExecute : Took (.acczExecute 0) (sMx { oMx .accz with prog := 65541 })
    (matrixTurn (sMx { oMx .accz with prog := 65541 }) 0 { oMx .accz with prog := 65541 } = true)
    (fun t => (tileNow t).word 0 = 0 ∧ statusOf (tileNow t) = 0x10005 ∧ t.ops = []) := took_of_now (by decide +kernel)
/-- An older operation of the engine is not over: ACCZ is tried again later. -/
def sLater : State :=
  { (sMx (oMx .accz)).modCore 0 (fun c => { c with matrix := [7, 0] }) with ops := [(0, oMx .accz), (7, oMx .mma)] }
theorem test_matrix_turn : Took (.acczExecute 0) sLater (matrixTurn sLater 0 (oMx .accz) = false)
    (fun t => t.agenda = [.acczExecute 0] ∧ tileNow t = tInt) := took_of_now (by decide +kernel)
def oLd (d : Bool) : Op :=
  { oMx .accld with order := 1, readDone := d, data := if d then [(0, 7), (16384, 9), (16512, 0x110003)] else [] }
theorem test_accldExecute : Took (.accldExecute 0) (sMx (oLd false)) ((oLd false).readDone = false)
      (fun t => (opOf t 0).readDone = true ∧ t.agenda = [.accldExecute 0])
    ∧ (sMx (oLd true)).Inv ∧ matrixTurn (sMx (oLd true)) 0 (oLd true) = true
    ∧ Took (.accldExecute 0) (sMx { oLd false with stopping := true }) (matrixTurn (sMx { oLd false with stopping := true }) 0
        { oLd false with stopping := true } = true)
      (fun t => statusOf (tileNow t) = statusOf tInt ∧ (tileNow t).rowSums = tInt.rowSums ∧ t.ops.find? 0 ≠ none) :=
  ⟨took_of_now (by decide +kernel), inv_of_now (by decide +kernel), by decide +kernel, took_of_now (by decide +kernel)⟩
/-- INT8 times INT8, both signed, added to the tile: 100 + (−3) × 5. -/
def oMma : Op := { oMx .mma with hint := 8, size := 0, order := 1, val := 0x722 }
def sMma : State :=
  areaWith (fun a =>
    { a with
      aslots := [(0, { bytes := (List.range 128).map (fun k => (k, if k = 0 then 0xFD else 0)) })]
      wslots := [(0, { bytes := (List.range 128).map (fun k => (128 * k, if k = 0 then 5 else 0)) })] }) (sMx oMma)
theorem test_mmaExecute : Took (.mmaExecute 0) sMma (matrixTurn sMma 0 oMma = true
      ∧ slotCopies sMma oMma false 0 = [] ∧ slotCopies sMma oMma true 0 = [])
    (fun t => (tileNow t).word 0 = 85 ∧ t.ops.find? 0 = none) := took_of_now (by decide +kernel)
def oRd : Op := { oMx .accrd with ty := 1, prog := 1, size := 2, lanes := [{ lane := 0 }], dests := [.row 20] }
theorem test_accrdExecute : Took (.accrdExecute 0) (sMx oRd) (matrixTurn (sMx oRd) 0 oRd = true ∧ oRd.bcast = 0 ∧ oRd.dests.Nodup)
    (fun t => at_ t 20 0 = 0xFFFFFFFB ∧ tileNow t = tInt) := took_of_now (by decide +kernel)
def oAq (n : Nat) : Op := { oMx .accq with
  order := n, prog := 3, lanes := if n = 0 then [] else [{ lane := 1 }], dests := if n = 0 then [.s 4] else [.row 20, .row 21] }
theorem test_accqExecute : Took (.accqExecute 0) (sMx (oAq 0)) (matrixTurn (sMx (oAq 0)) 0 (oAq 0) = true)
      (fun t => sAt t 4 = 0x210005)
    ∧ Took (.accqExecute 0) (sMx (oAq 1)) (matrixTurn (sMx (oAq 1)) 0 (oAq 1) = true ∧ (oAq 1).dests.Nodup)
      (fun t => at_ t 20 1 = 2 ∧ at_ t 21 1 = 1) := ⟨took_of_now (by decide +kernel), took_of_now (by decide +kernel)⟩
/-- Two rows of one s32 element from row 1 on, at pitch 64 in the scratchpad; then the same with ZPC. -/
def oDr (p z : Nat) : Op := { oMx .drain with order := 1, prog := p, regs := [0x100, 64, 0, BitVec.ofNat 64 (4 * 2 ^ 21 + 2 ^ 7 + 1 + z * 2 ^ 27)] }
def scr (t : State) (a n : Nat) : Nat :=
  leNat ((((t.team? 0).map (fun (x : Team) => (x.areas.get {} 0).scratch)).getD {}).read a n)
theorem test_drainExecute : Took (.drainExecute 0) (sMx (oDr 0 0)) (matrixTurn (sMx (oDr 0 0)) 0 (oDr 0 0) = true
        ∧ (oDr 0 0).prog + 1 < (drainDesc (oDr 0 0).regs).rows)
      (fun t => scr t 0x100 4 = 7 ∧ (opOf t 0).prog = 1 ∧ t.agenda = [.drainExecute 0])
    ∧ Took (.drainExecute 0) (sMx (oDr 1 0)) ((drainDesc (oDr 1 0).regs).rows ≤ (oDr 1 0).prog + 1)
      (fun t => scr t 0x140 4 = 0xFFFFFFF7 ∧ t.ops.find? 0 = none) :=
  ⟨took_of_now (by decide +kernel), took_of_now (by decide +kernel)⟩
/-- ACCLD's first line and DRAIN's row 0 in global memory at 0x100000: the request at the home slice, and its reply. -/
def eLd : Instr := .accldExecute 0
def oLdG : Op := { oMx .accld with regs := [0x100000], lanes := [{ lane := 2, va := 0x100000, pa := 0x100000 }] }
def sLdG (st : Stage) : State := tripAt eLd (.core 0) stop16 st (unmapped (lineIn .cln (bytesAt 0x100000 8 77 (sMx oLdG))))
theorem test_accld_global :
    Took eLd (sLdG .there) ((granulePhys oLdG 2 0x100000).map (fun g => (g.home, g.pa)) = some (16, 0x100000)
        ∧ comesNow (sLdG .there) eLd (.core 0) [stop16] = true ∧ servedNow (sLdG .there) 16 0x2000 true eLd = true)
      (fun t => t.trips.map (fun x => (x.stage, x.data)) = [(.back, 77)])
    ∧ Took eLd { sLdG .done with trips := (sLdG .done).trips.map (fun x => { x with data := 77 }) } (allBack ((sLdG .done).tripsOf eLd) [stop16] = true)
      (fun t => (opOf t 0).prog = 1 ∧ (opOf t 0).data.get 0 0 = 77 ∧ (opOf t 0).readDone = false)
    ∧ Took eLd { sLdG .done with trips := (sLdG .done).trips.map (fun x => { x with bad := true }) } True
      (fun t => (opOf t 0).fault.map (fun x => (x.cls, x.code, x.addr)) = some (3, tMemory, 0x100000)) :=
  ⟨took_of_now (by decide +kernel), took_of_now (by decide +kernel), took_of_now (by decide +kernel)⟩
def eDr : Instr := .drainExecute 0
def oDrG (z : Nat) : Op :=
  { oDr 0 0 with order := 0, regs := [0x100000, 64, 0x100040, BitVec.ofNat 64 (4 * 2 ^ 21 + 2 ^ 7 + 1 + z * 2 ^ 26)]
                 lanes := [{ lane := 0, va := 0x100000, pa := 0x100000 }, { lane := 1, va := 0x100000, pa := 0x100000 }] }
def sDrG (z : Nat) (st : Stage) : State := tripAt eDr (.core 0) stop16 st (unmapped (lineIn .cln (sMx (oDrG z))))
theorem test_drain_global :
    Took eDr (sDrG 0 .there) ((drainSegs (oDrG 0) (drainDesc (oDrG 0).regs)).1 = [] ∧ (drainSegs (oDrG 0) (drainDesc (oDrG 0).regs)).2.map (fun g => (g.home, g.pa, g.n)) = [(16, 0x100000, 4)]
        ∧ comesNow (sDrG 0 .there) eDr (.core 0) [stop16] = true ∧ servedAllNow (sDrG 0 .there) [(16, 0x2000)] eDr = true)
      (fun t => t.mem.nat 0x100000 4 = 7 ∧ stages t = [.back] ∧ (opOf t 0).prog = 0)
    ∧ Took eDr (sDrG 0 .done) (allBack ((sDrG 0 .done).tripsOf eDr) [stop16] = true) (fun t => (opOf t 0).prog = 1 ∧ t.agenda = [eDr])
    ∧ Took eDr (sDrG 1 .done) ((drainSegs (oDrG 1) (drainDesc (oDrG 1).regs)).1 ≠ []) (fun t => (opOf t 0).readDone = true ∧ (opOf t 0).prog = 0) :=
  ⟨took_of_now (by decide +kernel), took_of_now (by decide +kernel), took_of_now (by decide +kernel)⟩
theorem test_drain_mode : Took (.drainExecute 0) (tileWith {} (sMx (oDr 0 1)))
    ((drainDesc (oDr 0 1).regs).zpc = true ∧ (drainDesc (oDr 0 1).regs).raw = false)
    (fun t => (opOf t 0).fault.map (fun x => (x.cls, x.code)) = some (4, 9)) := took_of_now (by decide +kernel)

/-! ### Event tables: EventTables (R330, R331, R338, R339, R347, R349, R352) -/

def waitEv (n : Nat) (s : State) : State := splitWith (fun sp => { sp with wait := .event 1 6 (BitVec.ofNat 32 n) }) s
def sEv : State := waitEv 8 (eventWith 6 { count := 5, waiters := [(testRef, 8), (⟨0, 0, 1⟩, 20)] } sE)
theorem test_eventChangeApply : Took (.eventChangeApply 1 6 3) sEv
    ((testRef, (8 : Word)) ∈ (sEv.event 1 6).waiters ∧ sEv.split? testRef = some (splitNow sEv) ∧ (splitNow sEv).wait = .event 1 6 8)
    (fun t => (t.event 1 6).count = 8 ∧ (t.event 1 6).waiters = [(⟨0, 0, 1⟩, 20)] ∧ (splitNow t).wait = .none
      ∧ (splitNow t).path.pc = 1) := took_of_now (by decide +kernel)
theorem test_eventWaiterEntry : Took (.eventWaiterEntry testRef 1 6 5) (waitEv 5 sEv) ((splitNow (waitEv 5 sEv)).wait = .event 1 6 5)
      (fun t => (splitNow t).wait = .none ∧ (splitNow t).path.pc = 1)
    ∧ Took (.eventWaiterEntry testRef 1 6 6) (waitEv 6 sEv) (2 ^ 31 ≤ ((5 : Word) - 6).toNat)
      (fun t => (splitNow t).wait = .event 1 6 6 ∧ (t.event 1 6).waiters.getLast? = some (testRef, 6)) :=
  ⟨took_of_now (by decide +kernel), took_of_now (by decide +kernel)⟩
def sRef (count : Nat) (o : Op) : State := eventWith 6 { count := BitVec.ofNat 32 count, owner := some 0, refinable := true } (withOne o sE)
theorem test_stoprefApply : Took (.stoprefApply 1 6) (sRef 3 {}) True (fun t => (t.event 1 6).stop = true)
    ∧ Took (.stoprefApply 1 6) (sRef 0x8003 {}) True (fun t => (t.event 1 6).stop = false) :=
  ⟨took_of_now (by decide +kernel), took_of_now (by decide +kernel)⟩
def oPub (v : Nat) : Op := { kind := .pubv, ref := testRef, ctx := 1, prog := 6, val := BitVec.ofNat 64 v, order := 1, rm := 3, bcast := 0xF }
theorem test_pubvApply : Took (.pubvApply 0) (sRef 3 (oPub 4)) (((sRef 3 (oPub 4)).event 1 6).owner = some 0 ∧ (oPub 4).val.toNat < 2 ^ 15)
      (fun t => (t.event 1 6).count = 0x8004 ∧ Instr.replyArrival ⟨0, 0⟩ ∈ t.agenda ∧ (opOf t 0).data.get 0 0 = 0)
    ∧ Took (.pubvApply 0) (sRef 4 (oPub 4)) True (fun t => (opOf t 0).fault.map (fun x => (x.cls, x.code, x.addr)) = some (5, 8, 6))
    ∧ Took (.pubvApply 0) (eventWith 6 { count := 3, refinable := true } (sRef 3 (oPub 4))) True
      (fun t => (opOf t 0).fault.map (fun x => (x.cls, x.code, x.addr)) = some (5, 7, 6)) :=
  ⟨took_of_now (by decide +kernel), took_of_now (by decide +kernel), took_of_now (by decide +kernel)⟩
/-- A launch that fired on version 3 of event 6. -/
def sFired (count : Nat) : State :=
  launchWith (fun l => { l with fired := 3, desc := { l.desc with wait0 := { event := 6, mode := 2 } } })
    (sRef count { oPub 0 with kind := .vchk, order := 0 })
theorem test_vchkRead : Took (.vchkRead 0) (sFired 4) ((sFired 4).launches.find? 0 ≠ none)
      (fun t => (opOf t 0).data.get 0 0 = 1 ∧ t.agenda = [.replyArrival ⟨0, 0⟩])
    ∧ Took (.vchkRead 0) (sFired 3) True (fun t => (opOf t 0).data.get 0 0 = 0) :=
  ⟨took_of_now (by decide +kernel), took_of_now (by decide +kernel)⟩

/-! ### Replies: RepliesArrive (R89, R95, R153, R205, R221, R266, R340, R347) -/

def oAns (k : OpKind) : Op := { kind := k, ref := testRef, ctx := 1, pk := 2, prodn := 1, produces := true }
def sAns (o : Op) : State := keyWith 2 { p := 1 } (withOne o sE)
/-- Leading counts of key 2 at CORE and at the package. -/
def leads (t : State) : List Nat := [(((warpNow t).key 2).lead 0).toNat, (((warpNow t).key 2).lead 3).toNat]
def oLdR : Op := { oAns .load with dests := [.row 20], lanes := [acc 3 0x100002 0], size := 2, ty := 0
                                   parts := [{ part5 with done := true, ldata := 0xAABBCCDD11223344 }] }
theorem test_replyArrival_load : Took (.replyArrival ⟨0, 0⟩) (emptyRow 20 (sAns oLdR))
    ((sAns oLdR).resident 0 = true ∧ (oLdR.lanes.map (·.lane)).Nodup ∧ oLdR.parts ≠ [])
    (fun t => at_ t 20 3 = 0x1122 ∧ ((warpNow t).row 20).full = true ∧ leads t = [1, 1] ∧ t.ops = []) := took_of_now (by decide +kernel)
def oStR (wb : Bool) : Op := { oAns .store with parts := [{ part5 with done := true, wb := wb }] }
theorem test_replyArrival_store : Took (.replyArrival ⟨0, 0⟩) (sAns (oStR false)) (∀ p ∈ (oStR false).parts, p.fill = false ∧ p.check = false)
      (fun t => leads t = [1, 1] ∧ t.ops = [])
    ∧ Took (.replyArrival ⟨0, 0⟩) (sAns (oStR true)) (∃ p ∈ (oStR true).parts, p.wb = true)
      (fun t => leads t = [1, 0] ∧ (opOf t 0).doneCore = true) := ⟨took_of_now (by decide +kernel), took_of_now (by decide +kernel)⟩
def oAtR : Op := { oAns .atomic with fn := 1, ty := 1, dests := [.row 20], lanes := [acc 3 0x100000 0], data := [(24, 77)] }
theorem test_reply_atomic : Took (.replyArrival ⟨0, 0⟩) (sAns oAtR) (tySize oAtR.ty = 4 ∧ oAtR.fn < 32)
    (fun t => at_ t 20 3 = 77 ∧ leads t = [1, 1]) := took_of_now (by decide +kernel)
def oPbR : Op := { oAns .pubv with rm := 3, bcast := 0xF, data := [(0, 1)] }
theorem test_reply_pubv : Took (.replyArrival ⟨0, 0⟩) (pred 3 0x30 (splitWith (fun sp => { sp with wait := .reply 0 }) (sAns oPbR)))
    (oPbR.rm ≠ 0) (fun t => pAt t 3 = 0x3F ∧ (splitNow t).wait = .none ∧ leads t = [1, 1]) := took_of_now (by decide +kernel)
theorem test_reply_empty : Took (.replyArrival ⟨0, 0⟩) (row 160 (fun _ => 1) (row 161 (fun _ => 1) (sAns { oAns .empty with val := 5 }))) ((launchOf sE testWarp).isSome = true)
    (fun t => ((warpNow t).row 160).full = false ∧ ((warpNow t).row 161).full = true) :=
  took_of_now (by decide +kernel)
def oXch (n : Nat) : Op := { kind := .xshfl, ref := testRef, dests := [.row 20]
                             lanes := (List.range n).map (fun l => { lane := l, b := 0x50, c := 1 }) }
theorem test_xshflDelivery : Took (.xshflDelivery 0 0 0x55) (withOne (oXch 1) sE) ((oXch 1).prog + 1 = (oXch 1).lanes.length)
      (fun t => at_ t 20 0 = 0x55 ∧ t.ops = [])
    ∧ Took (.xshflDelivery 0 1 0x66) (withOne (oXch 2) sE) ((oXch 2).prog + 1 ≠ (oXch 2).lanes.length)
      (fun t => (opOf t 0).prog = 1 ∧ (opOf t 0).data.get 0 8 = 0x66) := ⟨took_of_now (by decide +kernel), took_of_now (by decide +kernel)⟩
/-- Warp 1 beside warp 0, and a posting of its lane 0 in the exchange buffer, with count n. -/
def partnered (n : Nat) (s : State) : State :=
  let s := s.modTeam 0 (fun t => { t with warps := t.warps.set 1 { (t.warps.get {} 0) with slot := 1, region := 65536 } })
  s.modSlice (reflectorOf s testWarp) (fun x => { x with exch := [⟨5, ⟨0, 1⟩, 0, BitVec.ofNat 64 n, 0x70⟩] })
def postedNow (s : State) (w : WarpRef) : Option Nat := (postingOf s (reflectorOf s w) (partner w) 0).map (fun p => p.count.toNat)
def exchNow (t : State) : List (Nat × Nat) := ((t.slice (reflectorOf t testWarp)).exch).map (fun p => (p.op, p.val.toNat))
def exchStop : Stop := ⟨reflector 0, partnerLine, 1⟩
def posting (s : State) : State := tripAt (.xshflPosting 0 0) (.core 0) exchStop .there s
theorem test_xshflPosting :
    Took (.xshflPosting 0 0) (partnered 1 (withOne (oXch 1) sE)) (leavesNow (withOne (oXch 1) sE) (.xshflPosting 0 0) (.core 0) [exchStop] exchStop = true)
      (fun t => stages t = [.going] ∧ exchNow t = [(5, 0x70)])
    ∧ Took (.xshflPosting 0 0) (posting (partnered 1 (withOne (oXch 1) sE))) (postedNow (partnered 1 (withOne (oXch 1) sE)) testWarp = some 1
        ∧ comesNow (posting (withOne (oXch 1) sE)) (.xshflPosting 0 0) (.core 0) [exchStop] = true)
      (fun t => t.agenda = [.xshflDelivery 5 0 0x50, .xshflDelivery 0 0 0x70, .replyArrival ⟨9, 0⟩, .xshflPosting 0 0] ∧ exchNow t = [])
    ∧ Took (.xshflPosting 0 0) (posting (partnered 2 (withOne (oXch 1) sE))) (postedNow (partnered 2 (withOne (oXch 1) sE)) testWarp = some 2
        ∧ partnerGone (partnered 2 (withOne (oXch 1) sE)) testWarp 0 = false)
      (fun t => t.agenda = [.replyArrival ⟨9, 0⟩, .xshflPosting 0 0] ∧ exchNow t = [(5, 0x70), (0, 0x50)])
    ∧ Took (.xshflPosting 0 0) (posting (withOne (oXch 1) sE)) (partnerGone (withOne (oXch 1) sE) testWarp 0 = true
        ∧ postedNow (withOne (oXch 1) sE) testWarp = none)
      (fun t => t.agenda = [.xshflDelivery 0 0 0x50, .replyArrival ⟨9, 0⟩, .xshflPosting 0 0]) :=
  ⟨took_of_now (by decide +kernel), took_of_now (by decide +kernel), took_of_now (by decide +kernel), took_of_now (by decide +kernel)⟩
theorem test_laneExitNotice : Took (.laneExitNotice testWarp 0) (tripAt (.laneExitNotice testWarp 0) (.core 0) exchStop .there (partnered 1 sE))
    (postedNow (partnered 1 sE) testWarp = some 1)
    (fun t => .xshflDelivery 5 0 0x70 ∈ t.agenda ∧ exchNow t = [] ∧ stages t = [.back]) := took_of_now (by decide +kernel)
def oPart (k : OpKind) : Op := { kind := k, ref := testRef, size := 4, prog := 1, dests := if k = .load then [.row 20] else []
                                 lanes := [acc 0 0x40 0x11223344], parts := [{ line := partnerLine, home := reflector 0, sent := true }] }
/-- The request has entered the exchange buffer. -/
def sPart (k : OpKind) : State :=
  (sE.modTeam 0 (fun t => { t with areas := t.areas.set 1 { scratch := { bytes := [(0x40, 0x99), (0x41, 0), (0x42, 0), (0x43, 0)] } } }) |> withOne (oPart k)).modSlice
    (reflector 0) (fun x => { x with crossing := [0] })
theorem test_partnerScratchpadAccess : Took (.partnerScratchpadAccess 0) (withOne (oPart .load) sE) ((sE.slice (reflector 0)).crossing = [])
      (fun t => (t.slice (reflector 0)).crossing = [0] ∧ t.agenda = [.partnerScratchpadAccess 0])
    ∧ Took (.partnerScratchpadAccess 0) (sPart .load) ((oPart .load).lanes.map (·.lane)).Nodup
      (fun t => (opOf t 0).data.get 0 0 = 0x99 ∧ (t.slice (reflector 0)).crossing = [] ∧ .replyArrival ⟨0, 0⟩ ∈ t.agenda)
    ∧ Took (.partnerScratchpadAccess 0) (sPart .store) ((oPart .store).size ≤ 16)
      (fun t => leNat ((((t.team? 0).map (fun (x : Team) => (x.areas.get {} 1).scratch)).getD {}).read 0x40 4) = 0x11223344) :=
  ⟨took_of_now (by decide +kernel), took_of_now (by decide +kernel), took_of_now (by decide +kernel)⟩
/-- What a load from the partner's scratchpad has brought reaches its register (R118, R156). -/
theorem test_partner_load_fills : Took (.replyArrival ⟨0, 0⟩) (emptyRow 20 (withOne { oPart .load with
      parts := [{ line := partnerLine, home := reflector 0, sent := true, done := true }], data := [(0, 0x99)] } sE)) True
    (fun t => at_ t 20 0 = 0x99 ∧ t.ops = []) := took_of_now (by decide +kernel)
/-- A halted team whose warp's image stands at 0x20000, its pages translated; the lines that an answer changes are in their slice. -/
def eImg : Instr := .imageWrite 0
def ctlStop : Stop := ⟨130, 0x480, 128⟩
def sImgHalt (o : Op) : State := (withOne o (imagePage sE)).modTeam 0 (fun t => { t with status := .halted })
def sSaved (o : Op) (st : Stage) : State :=
  let s := unmapped (pinPages eImg [] 0 1 [0x4000002] (sImgHalt o))
  tripAt eImg (.core 0) ctlStop st ([0, 4].foldl (fun s k => lineAt ctlStop.home (0x480 + k) { state := .cln } s) s)
def oImg : Op := { kind := .load, ref := testRef, ctx := 1, dests := [.s 4], data := [(0, 0x77)], doneWide := true }
theorem test_imageWrite : Took eImg (sSaved oImg .there) ((sSaved oImg .there).resident 0 = false
        ∧ unpinned (sSaved oImg .there) eImg 1 [0x40000024000] = []
        ∧ blockStop (sSaved oImg .there) eImg 0 1 0x40000024000 = some ctlStop ∧ comesNow (sSaved oImg .there) eImg (.core 0) [ctlStop] = true
        ∧ servedAllNow (sSaved oImg .there) [(ctlStop.home, 0x480), (ctlStop.home, 0x484)] eImg = true)
      (fun t => t.mem.nat 0x24020 8 = 0x77 ∧ t.mem.nat 0x24200 8 = 16 ∧ (opOf t 0).counted = true ∧ stages t = [.back])
    ∧ Took eImg (sSaved { oImg with counted := true } .done) (allBack ((sSaved oImg .done).tripsOf eImg) [ctlStop] = true)
      (fun t => t.ops = [] ∧ t.trips = [])
    ∧ Took eImg (sSaved { kind := .load, ref := testRef, ctx := 1, fault := some {}, counted := true } .done) True
      (fun t => ((t.team? 0).map (·.incs)) = some [0]) := ⟨took_of_now (by decide +kernel), took_of_now (by decide +kernel), took_of_now (by decide +kernel)⟩

/-! ### The copy engines: CopyEngines (R163 to R167, R179) -/

def oCpy (srck dstk src dst n : Nat) : Op :=
  { kind := .copy, instr := .cpy (mf 0 0 0 0 0), ref := testRef, ctx := 1, eng := 2, val := BitVec.ofNat 64 (2 * 2 ^ 52 + 3)
    regs := [BitVec.ofNat 64 src, BitVec.ofNat 64 dst, BitVec.ofNat 64 n, BitVec.ofNat 64 (srck + 8 * dstk)] }
theorem test_copyDescriptorEnqueue : Took (.copyDescriptorEnqueue 0) (withOne (oCpy 1 1 0 0x400 256) sE)
      ((copyShape (oCpy 1 1 0 0x400 256).instr (oCpy 1 1 0 0x400 256).regs).empty = false)
      (fun t => (t.engine 2).fifo = [0] ∧ t.agenda = [.copyStart 0 2])
    ∧ Took (.copyDescriptorEnqueue 0) (withOne (oCpy 1 1 0 0x400 0) sE)
      ((copyShape (oCpy 1 1 0 0x400 0).instr (oCpy 1 1 0 0x400 0).regs).empty = true)
      (fun t => (t.engine 2).retained.length = 1 ∧ t.ops.find? 0 = none) := ⟨took_of_now (by decide +kernel), took_of_now (by decide +kernel)⟩
def sQueued : State := engineWith 2 { fifo := [0] } (withOne (oCpy 1 1 0 0x400 256) sE)
theorem test_copyStart : Took (.copyStart 0 2) sQueued
      ((sQueued.engine 2).fifo = 0 :: [] ∧ (sQueued.engine 2).running.length < 4
        ∧ 0 < (copyShape (oCpy 1 1 0 0x400 256).instr (oCpy 1 1 0 0x400 256).regs).chunks)
      (fun t => (t.engine 2).fifo = [] ∧ (t.engine 2).running = [0] ∧ (opOf t 0).running = true
        ∧ t.agenda = [.copyChunk 0 0, .copyChunk 0 1, .copyStart 0 2])
    ∧ Took (.copyStart 0 2) (engineWith 2 { fifo := [0], running := [1, 2, 3, 4] } sQueued) True
      (fun t => (t.engine 2).fifo = [0] ∧ t.agenda = []) := ⟨took_of_now (by decide +kernel), took_of_now (by decide +kernel)⟩
def sCopying (o : Op) : State := withOne { o with running := true } (engineWith 2 { running := [0] } sE)
def chunkOf (o : Op) : Option (Nat × Nat × Nat × Nat) := (copyShape o.instr o.regs).chunk 0
def eChunk : Instr := .copyChunk 0 0
/-- The page of 0x100000 is translated, and the request for its line stands at its home slice, or its reply has come. -/
def sGlob (o : Op) (st : Stage) : State :=
  tripAt eChunk (.engine 2) stop16 st (unmapped (pinPages eChunk [] 0 1 [16] (bytesAt 0x100000 4 0x55667788 (lineIn .cln (sCopying o)))))
/-- A chunk's pieces in this package: their addresses, lengths and home slices. -/
def piecesNow (s : State) (o : Op) (store : Bool) (va n : Nat) : Option (List (Nat × Nat × Nat)) :=
  ((segsPhys s eChunk o store none (segsOf va n)).toOption).map (fun l => l.map (fun g => (g.pa, g.n, g.home)))
def oGet : Op := oCpy 0 1 0x100000 0x400 4
/-- Its chunk 0 has been read: the bytes are held. -/
def heldChunk (o : Op) (v : Nat) : Op := { o with parts := [{ chunk := 0, done := true, ldata := BitVec.ofNat 1024 v }] }
def heldNow (t : State) : List (Bool × Nat) := (chunkParts (opOf t 0) 0).map (fun p => (p.done, p.ldata.toNat))
theorem test_copyChunk_reads :
    Took eChunk (scratchAt 0x10 0xAB (sCopying (oCpy 1 1 0x10 0x400 1))) (chunkOf (oCpy 1 1 0x10 0x400 1) = some (0x10, 0x400, 1, 0))
      (fun t => heldNow t = [(true, 0xAB)] ∧ t.agenda = [eChunk])
    ∧ Took eChunk (sGlob oGet .there) (unpinned (sGlob oGet .there) eChunk 1 [0x100000] = []
        ∧ piecesNow (sGlob oGet .there) oGet false 0x100000 4 = some [(0x100000, 4, 16)]
        ∧ comesNow (sGlob oGet .there) eChunk (.engine 2) [stop16] = true ∧ servedNow (sGlob oGet .there) 16 0x2000 true eChunk = true)
      (fun t => t.trips.map (fun x => (x.stage, x.data)) = [(.back, 0x55667788)] ∧ heldNow t = [])
    ∧ Took eChunk { sGlob oGet .done with trips := (sGlob oGet .done).trips.map (fun x => { x with data := 0x55667788 }) }
      (allBack ((sGlob oGet .done).tripsOf eChunk) [stop16] = true)
      (fun t => heldNow t = [(true, 0x55667788)] ∧ t.agenda = [eChunk] ∧ t.trips = []) :=
  ⟨took_of_now (by decide +kernel), took_of_now (by decide +kernel), took_of_now (by decide +kernel)⟩
def oPut : Op := heldChunk (oCpy 1 0 0x10 0x100001 1) 0xAB
theorem test_copyChunk_writes :
    Took eChunk (sCopying (heldChunk (oCpy 1 1 0x10 0x400 1) 0xAB)) (chunkOf (oCpy 1 1 0x10 0x400 1) = some (0x10, 0x400, 1, 0))
      (fun t => scr t 0x400 1 = 0xAB ∧ t.ops = [] ∧ (t.engine 2).retained = [(copyKey 1 (BitVec.ofNat 64 (2 * 2 ^ 52 + 3)), 0, statusWord 2 0 1)])
    ∧ Took eChunk (sCopying { oCpy 0 1 0xDDCCBBAA 0x402 2 with instr := .cpyf (mf 0 0 0 0 0) })
      (chunkOf { oCpy 0 1 0xDDCCBBAA 0x402 2 with instr := .cpyf (mf 0 0 0 0 0) } = some (0xDDCCBBAA, 0x402, 2, 0))
      (fun t => scr t 0x402 2 = 0xBBAA)
    ∧ Took eChunk (sGlob oPut .there) (piecesNow (sGlob oPut .there) oPut true 0x100001 1 = some [(0x100001, 1, 16)]
        ∧ comesNow (sGlob oPut .there) eChunk (.engine 2) [stop16] = true ∧ servedAllNow (sGlob oPut .there) [(16, 0x2000)] eChunk = true)
      (fun t => t.mem.nat 0x100000 4 = 0x5566AB88 ∧ t.tags.get 0 0x2000 = 1 ∧ stages t = [.back])
    ∧ Took eChunk (sGlob oPut .done) (allBack ((sGlob oPut .done).tripsOf eChunk) [stop16] = true)
      (fun t => t.ops = [] ∧ t.trips = [] ∧ (t.engine 2).retained.map (fun x => x.2.2) = [statusWord 2 0 1]) :=
  ⟨took_of_now (by decide +kernel), took_of_now (by decide +kernel), took_of_now (by decide +kernel), took_of_now (by decide +kernel)⟩
/-- From the partner's scratchpad, and from place 0x20 of A slot 3. -/
theorem test_copyChunk_stores :
    Took eChunk ((sCopying (oCpy 2 1 0x10 0x400 1)).modTeam 0 (fun t => { t with areas := t.areas.set 1 { scratch := { bytes := [(0x10, 0xAB)] } } }))
      (chunkOf (oCpy 2 1 0x10 0x400 1) = some (0x10, 0x400, 1, 0)) (fun t => heldNow t = [(true, 0xAB)])
    ∧ Took eChunk (areaWith (fun a => { a with aslots := [(3, { bytes := [(0x20, 0xCD)] })] }) (sCopying (oCpy 3 1 0x30020 0x400 1)))
      (chunkOf (oCpy 3 1 0x30020 0x400 1) = some (0x30020, 0x400, 1, 0)) (fun t => heldNow t = [(true, 0xCD)]) :=
  ⟨took_of_now (by decide +kernel), took_of_now (by decide +kernel)⟩
def oQry (c : Bool) : Op := { kind := .copyQuery, ref := testRef, ctx := 1, val := BitVec.ofNat 64 (2 * 2 ^ 52 + 3), cancelled := c }
def sQry (c : Bool) (e : Engine) : State :=
  engineWith 2 e { sE with ops := [(0, oQry c), (1, { oCpy 1 1 0 0x400 256 with prog := 1, running := e.running ≠ [] })], nextOp := 2 }
theorem test_copyQueryRequest :
    Took (.copyQueryRequest 0) (sQry false { fifo := [1] }) True (fun t => (opOf t 0).data.get 0 0 = 1)
    ∧ Took (.copyQueryRequest 0) (sQry false { running := [1] }) True (fun t => (opOf t 0).data.get 0 0 = 0x4000000000000001)
    ∧ Took (.copyQueryRequest 0) (sQry true { running := [1] }) True
      (fun t => t.agenda.getLast? = some (.copyQueryRequest 0) ∧ (t.engine 2).running = []
        ∧ (t.engine 2).retained.map (fun x => x.2) = [(0, 0x8000070000000001)])
    ∧ Took (.copyQueryRequest 0) (sQry false { retained := [(copyKey 1 (BitVec.ofNat 64 (2 * 2 ^ 52 + 3)), 4, 0x8000070000000001)] }) True
      (fun t => (opOf t 0).data.get 0 0 = 0x8000070000000001)
    ∧ Took (.copyQueryRequest 0) (sQry false {}) True (fun t => (opOf t 0).data.get 0 0 = 0xC000000000000000) :=
  ⟨took_of_now (by decide +kernel), took_of_now (by decide +kernel), took_of_now (by decide +kernel), took_of_now (by decide +kernel),
    took_of_now (by decide +kernel)⟩

/-! ### The window engine and the scheduler: WindowAndScheduler (R296, R298 to R302, R327, R328, R396, R397) -/

/-- The warp's arena at 0x30000, on a page marked for arenas (R64). -/
def arenaPage (s : State) : State :=
  launchWith (fun l => { l with desc := { l.desc with arenaBase := 0x80000030000 } }) { s with mem := s.mem.putNat (placedRoot + 16) 8 0x8F }
def sSpill : State := warpWith (fun w => { w with spill := [0] }) (row 0 (fun l => 3 + l) (arenaPage sE))
def sSpilling : State := unmapped (pinPages (.spillStep testWarp) [] 0 1 [0x8000003] sSpill)
theorem test_spillStep : Took (.spillStep testWarp) sSpilling
    ((warpNow sSpilling).spill = [0] ∧ ((warpNow sSpilling).row 0).full = true ∧ (sSpilling.team? 0).map (·.status) = some .running
      ∧ spillOp sSpilling testWarp 0 = none ∧ unpinned sSpilling (.spillStep testWarp) 1 [0x80000030000] = []
      ∧ (translateFor sSpilling (.spillStep testWarp) 0 1 .spill false 0x80000030000).toOption.map (·.pa) = some 0x30000)
    (fun t => (warpNow t).spill = [] ∧ (warpNow t).lo = 1 ∧ (warpNow t).hi = 64 ∧ (opOf t 0).data.get 0 5 = 8
      ∧ (spillSegs (opOf t 0)).map (fun g => (g.n, g.pa)) = [(128, 0x30000)] ∧ t.agenda = [.arenaWritePerformed testWarp 0]) :=
  took_of_now (by decide +kernel)
/-- No page is mapped for the arena: the row stays where it is, and the team halts. -/
def sSpillLost : State :=
  pinPages (.spillStep testWarp) [] 0 1 [0x8000003] { sSpill with mem := sSpill.mem.putNat (placedRoot + 16) 8 0 }
theorem test_spillStep_fault : Took (.spillStep testWarp) sSpillLost
    ((translateFor sSpillLost (.spillStep testWarp) 0 1 .spill false 0x80000030000).isOk = false)
    (fun t => (warpNow t).spill = [0] ∧ (warpNow t).lo = 0 ∧ (t.team? 0).map (·.status) = some .raised) :=
  took_of_now (by decide +kernel)
/-- Row 0 on its way to 0x30000, in line 0x600. -/
def oSpill : Op := { kind := .spill, ref := testRef, ctx := 1, prog := 0, lanes := [{ lane := 0, va := 0x80000030000, pa := 0x30000 }]
                     parts := [{ line := 0x600, home := homeOf (arenaPage sE) 0x80000030000, done := true, back := true }]
                     data := (List.range 32).map (fun k => (k, BitVec.ofNat 64 (3 + k))) }
def eArena : Instr := .arenaWritePerformed testWarp 0
def arenaStop (k : Nat) : Stop := ⟨homeOf (arenaPage sE) (BitVec.ofNat 64 (0x80000030000 + 128 * k)), 0x600 + k, 1⟩
/-- The arena's page is translated for an event, and its request for a line of the arena stands at a stage. -/
def arenaTrip (e : Instr) (k : Nat) (st : Stage) (s : State) : State :=
  tripAt e (.core 0) (arenaStop k) st (unmapped (pinPages e [] 0 1 [0x8000003] (lineAt (arenaStop k).home (0x600 + k) { state := .cln } s)))
def sSpilled (st : Stage) : State := arenaTrip eArena 0 st (arenaPage (withOne oSpill sE))
theorem test_arenaWritePerformed : Took eArena (sSpilled .there) (spillOp (sSpilled .there) testWarp 0 = some (0, oSpill)
        ∧ segStops (spillSegs oSpill) = [arenaStop 0]
        ∧ comesNow (sSpilled .there) eArena (.core 0) [arenaStop 0] = true
        ∧ servedAllNow (sSpilled .there) [((arenaStop 0).home, 0x600)] eArena = true)
      (fun t => t.mem.nat 0x30000 4 = 3 ∧ t.mem.nat 0x30004 4 = 4 ∧ stages t = [.back])
    ∧ Took eArena (sSpilled .done) (allBack ((sSpilled .done).tripsOf eArena) [arenaStop 0] = true) (fun t => t.ops = [] ∧ t.trips = [])
    ∧ Took eArena { sSpilled .done with trips := (sSpilled .done).trips.map (fun x => { x with bad := true }) } True
      (fun t => ((opOf t 0).fault.map (fun x => (x.cls, x.code)), (t.team? 0).map (·.status)) = (some (3, tMemory), some .raised)) :=
  ⟨took_of_now (by decide +kernel), took_of_now (by decide +kernel), took_of_now (by decide +kernel)⟩
def eRefill : Instr := .refillRow testWarp 1
def sRefill : State := warpWith (fun w => { w with refill := [1] }) (emptyRow 1 (bytesAt 0x30084 4 77 (arenaPage sE)))
def sRefilling (st : Stage) : State := arenaTrip eRefill 1 st sRefill
theorem test_refillRow : Took eRefill (sRefilling .there) (1 ∈ (warpNow sRefill).refill ∧ refillOpen (sRefilling .there) testWarp 1 = true
        ∧ comesNow (sRefilling .there) eRefill (.core 0) [arenaStop 1] = true ∧ servedNow (sRefilling .there) (arenaStop 1).home 0x601 true eRefill = true)
      (fun t => t.trips.map (fun x => (x.stage, x.data)) = [(.back, 77 * 2 ^ 32)] ∧ (warpNow t).refill = [1])
    ∧ Took eRefill { sRefilling .done with trips := (sRefilling .done).trips.map (fun x => { x with data := 77 * 2 ^ 32 }) }
      (allBack ((sRefilling .done).tripsOf eRefill) [arenaStop 1] = true)
      (fun t => at_ t 1 1 = 77 ∧ ((warpNow t).row 1).full = true ∧ (warpNow t).refill = [])
    ∧ Took eRefill (warpWith (fun w => { w with refill := [1] }) (pinPages eRefill [] 0 1 [0] sE)) True
      (fun t => (splitNow t).own.map (fun x => (x.cls, x.code)) = some (3, tAttribute)) :=
  ⟨took_of_now (by decide +kernel), took_of_now (by decide +kernel), took_of_now (by decide +kernel)⟩
def framed (b e lo hi : Nat) : State :=
  warpWith (fun w => { w with lo := lo, hi := hi }) (splitWith (fun sp => { sp with path := { sp.path with b := b, e := e }, blocked := some 0 }) sE)
theorem test_windowConflictTimeout :
    Took (.windowConflictTimeout testRef) (framed 60 8 0 64) True (fun t => (warpNow t).spill = [0, 1, 2, 3] ∧ t.agenda = [.spillStep testWarp])
    ∧ Took (.windowConflictTimeout testRef) (framed 10 20 40 77) True (fun t => (warpNow t).spill = [76, 75, 74])
    ∧ Took (.windowConflictTimeout testRef) (framed 0 64 0 64) True (fun t => t.agenda = []) :=
  ⟨took_of_now (by decide +kernel), took_of_now (by decide +kernel), took_of_now (by decide +kernel)⟩
def sSel : State := warpWith (fun w => { w with active := true }) (splitWith (fun sp => { sp with settled := true }) sE)
theorem test_warpIssueSelect : Took (.warpIssueSelect 0 0) sSel
      (quadWarps sSel 0 0 = [testWarp] ∧ splitRefs sSel testWarp = [testRef] ∧ (sSel.cxOf testRef).any (fun c => ready sSel c) = true
        ∧ (sSel.cxOf testRef).any (fun c => c.warp.holds c.path && (breakpointAt c).isNone) = true
        ∧ ∀ e ∈ sSel.teams, e.2.step = none)
      (fun t => t.cur = some testRef)
    ∧ Took (.warpIssueSelect 0 0) (sSel.modCore 0 (fun c => { c with powered := false })) True (fun t => t.cur = none) :=
  ⟨took_of_now (by decide +kernel), took_of_now (by decide +kernel)⟩
def sTwoWarps : State :=
  sSel.modTeam 0 (fun t => { t with warps := t.warps.set 1 { (t.warps.get {} 0) with slot := 1, region := 65536, active := false } })
theorem test_forcedDemotionTimeout : Took (.forcedDemotionTimeout 0 0) sTwoWarps
    (longest sTwoWarps (activeWarps sTwoWarps 0 0) = some testWarp ∧ longest sTwoWarps (readyPending sTwoWarps 0 0) = some ⟨0, 1⟩)
    (fun t => (t.warp? testWarp).map (·.active) = some false ∧ (t.warp? ⟨0, 1⟩).map (·.active) = some true) := took_of_now (by decide +kernel)
def sPark (n : Nat) : State := splitWith (fun sp => { sp with parkCount := n }) sE
theorem test_parkCountExpiry : Took (.parkCountExpiry testRef) (sPark 32) True (fun t => (splitNow t).settled = true ∧ (splitNow t).parkCount = 0)
    ∧ Took (.parkCountExpiry testRef) (sPark 31) True (fun t => (splitNow t).settled = false ∧ (splitNow t).parkCount = 31) :=
  ⟨took_of_now (by decide +kernel), took_of_now (by decide +kernel)⟩
def clockAt (n : Nat) (s : State) : State := { s with clock := n }
theorem test_hangReport : Took (.hangReport testWarp) (clockAt 1600000000 sE) (hangDue (clockAt 1600000000 sE) testWarp = true)
      (fun t => (warpNow t).hung = true ∧ (t.team? 0).map (·.status) = some .running)
    ∧ Took (.hangReport testWarp) (clockAt 1599999999 sE) (hangDue (clockAt 1599999999 sE) testWarp = false)
      (fun t => (warpNow t).hung = false) := ⟨took_of_now (by decide +kernel), took_of_now (by decide +kernel)⟩
def sIdle (n : Nat) : State := clockAt n (splitWith (fun sp => { sp with wait := .spawn }) sE)
theorem test_powerGate : Took (.powerGate 0) (sIdle 800001) (gateDue (sIdle 800001) 0 = true) (fun t => (t.core 0).powered = false)
    ∧ Took (.powerGate 0) (sIdle 800000) (gateDue (sIdle 800000) 0 = false) (fun t => (t.core 0).powered = true) :=
  ⟨took_of_now (by decide +kernel), took_of_now (by decide +kernel)⟩
theorem test_coreWake : Took (.coreWake 0) (sE.modCore 0 (fun c => { c with powered := false })) True (fun t => (t.core 0).powered = true) :=
  took_of_now (by decide +kernel)

/-! ### Queues, commands and launches: LaunchEvents (R315 to R323, R337, R346, R348, R350, R351, R353, R375 to R378) -/

def clnAt (a : Nat) (s : State) : State := lineAt (homeOf s0 (BitVec.ofNat 64 a)) (a / 128) { state := .cln } s
/-- A running slot of context 1 whose command 2 stands at 0x200080, with that command's KIND. -/
def sCmd (kind : Nat) (busy : Bool) : State :=
  queueWith 0 3 { ring := 0x200000, ctx := 1, qid := 5, logcap := 4, state := 1, head := 2, kick := 3, busy := busy }
    (clnAt 0x200080 (bytesAt 0x200080 1 kind sE))
/-- What event e has read for a dispatcher: n bytes at a. -/
def readNow (s : State) (e : Instr) (a n : Nat) (record : Bool) : Option (List Byte) :=
  match readable s e 0 1 (BitVec.ofNat 64 a) n with
  | .ok ps =>
    if unpinned s e 1 (readPlan s e 0 1 (BitVec.ofNat 64 a) n record).vas = [] && ps.all (fun x => x.1.tr.node = none)
        && allBack (s.tripsOf e) (readPlan s e 0 1 (BitVec.ofNat 64 a) n record).stops
        && (s.tripsOf e).all (fun x => x.stop.span ≠ 1 || !x.bad) then some (piecesBytes {} (s.tripsOf e) ps) else none
  | .error _ => none
theorem reads_of_now {s : State} {e : Instr} {a n : Nat} {record : Bool} {bs : List Byte}
    (h : readNow s e a n record = some bs) : s.reads e 0 1 (BitVec.ofNat 64 a) n record bs := by
  unfold readNow at h
  split at h
  · next ps hp =>
    split at h
    · next hc =>
      simp only [Bool.and_eq_true, decide_eq_true_eq, List.all_eq_true, Bool.or_eq_true, Bool.not_eq_true'] at hc
      obtain ⟨⟨⟨h1, h2⟩, h3⟩, h4⟩ := hc
      exact ⟨ps, ⟨h1, hp, h2⟩, h3, fun x hx hs => (h4 x hx).resolve_left (fun hn => hn hs), (Option.some.inj h).symm⟩
    · cases h
  · cases h
def ePull : Instr := .queueCommandPull 0 3
def lineStop (a : Nat) : Stop := ⟨homeOf s0 (BitVec.ofNat 64 a), a / 128, 1⟩
/-- The page of the ring is translated, and the replies to the pull's request are back. -/
def sPulled (kind : Nat) : State := answeredAt ePull (.command 0) [lineStop 0x200080] (pinPages ePull [] 0 1 [0x20] (sCmd kind false))
def sPulls (st : Stage) : State :=
  tripAt ePull (.command 0) (lineStop 0x200080) st (pinPages ePull [] 0 1 [0x20] (sCmd 0 false))
theorem test_queueCommandPull :
    Took ePull (sPulled 0)
      (((sPulled 0).queue 0 3).state = 1 ∧ guardRoom (sPulled 0) 0 3 = true ∧ (readNow (sPulled 0) ePull 0x200080 64 false).isSome = true)
      (fun t => t.agenda = [.nullCommand 0 3 2] ∧ (t.queue 0 3).busy = true)
    ∧ Took ePull (sPulled 1) True (fun t => t.agenda = [.launchCommand 0 3 2])
    ∧ Took ePull (sPulled 2) True (fun t => (t.queue 0 3).state = 2)
    ∧ Took ePull (sPulls .there) (comesNow (sPulls .there) ePull (.command 0) (readPlan (sPulls .there) ePull 0 1 0x200080 64 false).stops = true
        ∧ servedNow (sPulls .there) (lineStop 0x200080).home 0x4001 true ePull = true)
      (fun t => stages t = [.back] ∧ t.agenda = [.replyArrival ⟨9, 0⟩, ePull]) :=
  ⟨took_of_now (by decide +kernel), took_of_now (by decide +kernel), took_of_now (by decide +kernel), took_of_now (by decide +kernel)⟩
/-- A window of the slot too short for its command: a guard fault, code 2. -/
theorem test_pull_guard : Took ePull { sPulled 0 with dies := (sPulled 0).dies.map (fun d =>
      (d.1, { d.2 with guard := (List.range 32).map (fun k => { slot := 4 * k + 7, object := .ring, ctx := 1 }) })) }
      (guardRoom (sPulled 0) 0 3 = true) (fun t => t.agenda = [ePull]) := took_of_now (by decide +kernel)
theorem test_nullCommand : Took (.nullCommand 0 3 2) (sCmd 0 true) (commandCurrent (sCmd 0 true) 0 3 2 = true)
    (fun t => (t.queue 0 3).head = 3 ∧ (t.queue 0 3).version = 1 ∧ t.agenda = [.queueCommandPull 0 3]) := took_of_now (by decide +kernel)
/-- A launch record at 0x300000: one warp of 16 lanes, PRIO 3, a grid of one team, ring 64, and a save pool of one image
of 128 KiB at 0x40000 on pages marked for images. -/
def withRecord (s : State) : State :=
  clnAt 0x300000 (clnAt 0x300080 (contextPage
    (bytesAt 0x300004 8 0x0000000103000100 (bytesAt 0x30000C 8 0x0000000100000001 (bytesAt 0x300014 2 64 (bytesAt 0x300030 8 0x40000040000
      (bytesAt 0x40000 4 1 (bytesAt 0x40008 8 0x20000 s))))))))
def recBytes : List Byte := (List.range 256).map (fun k => (withRecord sE).mem.byte (0x300000 + k))
/-- The command that the queue has read, with its first byte b and its record at a. -/
def cmdBytes (b a : Nat) : List Byte :=
  leBytes 8 b ++ leBytes 8 a ++ leBytes 8 0x100000007 ++ List.replicate 40 0
def sLaunch (b a : Nat) : State :=
  let s := withRecord (sCmd 1 true)
  queueWith 0 3 { s.queue 0 3 with cmd := cmdBytes b a } s
def poolStop : Stop := ⟨homeOf (contextPage sE) 0x40000040000, 0x800, 128⟩
/-- The pages of the record at 0x300000 and of its pool are translated for an event, and its replies are back. -/
def recordRead (e : Instr) (s : State) : State :=
  answeredAt e (.command 0) [lineStop 0x300000, lineStop 0x300080, poolStop] (pinPages e [] 0 1 [0x30, 0x4000004, 0x4000005, 0x4000006] s)
def eLaunch : Instr := .launchCommand 0 3 2
def sAccept : State := recordRead eLaunch (sLaunch 1 0x300000)
def goodNow (s : State) (e : Instr) (bs : List Byte) : Bool := recordOk s e 0 1 bs (poolShape s e 0 1 (parseRecord bs) (s.tripsOf e))
theorem test_launchCommand :
    Took eLaunch sAccept
      (goodNow sAccept eLaunch recBytes = true ∧ commandReserved (cmdBytes 1 0x300000) = true ∧ guardRoom sAccept 0 3 = true
        ∧ readNow sAccept eLaunch 0x300000 256 true = some recBytes)
      (fun t => (t.launches.find? 1).map (fun l => (l.desc.lanes, l.desc.prio, l.desc.ring, l.doneEv, l.doneN)) = some (16, 3, 64, 7, 1)
        ∧ (t.queue 0 3).head = 3 ∧ t.agenda = [.consumerFire 1, .queueCommandPull 0 3])
    ∧ Took eLaunch (recordRead eLaunch (bytesAt 0x300014 2 65 (sLaunch 1 0x300000))) True
      (fun t => (t.queue 0 3).state = 2 ∧ t.launches.find? 1 = none)
    ∧ Took eLaunch (sLaunch 0x101 0x300000) (commandReserved (cmdBytes 0x101 0x300000) = false)
      (fun t => (t.queue 0 3).state = 2 ∧ t.launches.find? 1 = none) :=
  ⟨took_of_now (by decide +kernel), took_of_now (by decide +kernel), took_of_now (by decide +kernel)⟩
/-- The pool's header is asked for once the record is there. -/
theorem test_pool_is_read : (readPlan (answeredAt eLaunch (.command 0) [lineStop 0x300000, lineStop 0x300080]
      (pinPages eLaunch [] 0 1 [0x30, 0x4000004] (sLaunch 1 0x300000))) eLaunch 0 1 0x300000 256 true).stops
    = [lineStop 0x300000, lineStop 0x300080, poolStop] := by decide +kernel
def sUser (s : State) : State :=
  s.modContext 1 (fun c => { c with queues := [(5, { ring := 0x200000, logcap := 4, head := 2, pending := some 3 })] })
/-- Every slot is stopped. -/
def sNoSlot : State :=
  { sUser sE with dies := (List.range 4).map (fun d => (d, { queues := (List.range 64).map (fun n => (n, { state := 2 })) })) }
/-- With a free slot the queue is bound; which one is left open. -/
theorem witness_bindable : (sUser sE).Inv ∧ bindable (sUser sE) ≠ []
    ∧ ((sUser sE).context 1).queues.find? 5 = some { ring := 0x200000, logcap := 4, head := 2, pending := some 3 } :=
  ⟨inv_of_now (by decide +kernel), by decide +kernel, by decide +kernel⟩
theorem test_queueBindPending : Took (.queueBindPending 1 5) sNoSlot (bindable sNoSlot = []) (fun t => t.agenda = [.queueBindPending 1 5]) :=
  took_of_now (by decide +kernel)
def sSpawn : State := withRecord (splitWith (fun sp => { sp with wait := .spawn }) sE)
def eSpawn (a : Nat) : Instr := .spawnRequest testRef (BitVec.ofNat 64 a)
def sSpawned : State := recordRead (eSpawn 0x300000) sSpawn
theorem test_spawnRequest :
    Took (eSpawn 0x300000) sSpawned (goodNow sSpawned (eSpawn 0x300000) recBytes = true ∧ readNow sSpawned (eSpawn 0x300000) 0x300000 256 true = some recBytes)
      (fun t => (t.launches.find? 1).map (fun l => (l.root, l.depth, l.state)) = some (0, 1, .waiting)
        ∧ (t.launches.find? 0).map (·.counter) = some 1 ∧ (splitNow t).path.pc = 1 ∧ t.agenda = [.consumerFire 1])
    ∧ Took (eSpawn 0x300020) sSpawn True
      (fun t => t.launches = sSpawn.launches ∧ ((t.team? 0).bind (·.halt)).map (fun x => (x.1.cls, x.1.code)) = some (5, 2)) :=
  ⟨took_of_now (by decide +kernel), took_of_now (by decide +kernel)⟩
def withLaunch (l : Launch) (s : State) : State := { s with launches := s.launches.set 1 l }
def lRec : Launch := { desc := parseRecord recBytes, ctx := 1, root := 1, queue := some (5, 2) }
def waitsOn (mode : Nat) (vmin : Nat) (st : Consumer) (count : Nat) (refinable : Bool) : State :=
  eventWith 6 { count := BitVec.ofNat 32 count, refinable := refinable }
    (withLaunch { lRec with state := st, lastVer := [(6, 3)]
                            desc := { lRec.desc with wait0 := { event := 6, mode := mode, vmin := BitVec.ofNat 32 vmin } } } sE)
/-- The tables have released launch 1. -/
def released (s : State) : State := s.modLaunch 1 (fun l => { l with due := true })
def stateOf1 (t : State) : Option Consumer := (t.launches.find? 1).map (·.state)
theorem test_consumerFire :
    Took (.consumerFire 1) (released (waitsOn 1 5 .waiting 5 false)) (roomPending (waitsOn 1 5 .waiting 5 false) lRec = true)
      (fun t => stateOf1 t = some .running ∧ (t.die 0).pending = [1])
    ∧ Took (.consumerFire 1) (waitsOn 1 5 .waiting 5 false) True (fun t => stateOf1 t = some .waiting ∧ t.agenda = []) :=
  ⟨took_of_now (by decide +kernel), took_of_now (by decide +kernel)⟩
/-- A launch is tested at the table by every change: its first condition holds and stays latched, a newer version of an idle
one, and a final version at which it is done. -/
theorem test_table_releases :
    Took (.eventChangeApply 1 6 2) (waitsOn 1 5 .waiting 3 false) True
      (fun t => (t.launches.find? 1).map (fun l => (l.due, l.met0)) = some (true, true) ∧ t.agenda = [.consumerFire 1])
    ∧ Took (.eventChangeApply 1 6 1) (waitsOn 1 5 .waiting 3 false) True (fun t => (t.launches.find? 1).map (·.due) = some false)
    ∧ Took (.eventChangeApply 1 6 0) (waitsOn 2 0 .idle 4 true) True (fun t => (t.launches.find? 1).map (·.due) = some true)
    ∧ Took (.eventChangeApply 1 6 0) (waitsOn 2 0 .idle 0x8003 true) True
      (fun t => stateOf1 t = some .done ∧ t.agenda = [.ownerRetire 1]) :=
  ⟨took_of_now (by decide +kernel), took_of_now (by decide +kernel), took_of_now (by decide +kernel), took_of_now (by decide +kernel)⟩
def sPlace : State :=
  (withLaunch { lRec with state := .running, prio := [(0, 3)] } (withRecord sE)).modDie 0 (fun d => { d with pending := [1] })
def ePlace : Instr := .teamPlace 0
theorem test_teamPlace_starts : Took ePlace sPlace (pendList sPlace 0 = [⟨1, none, 3, 0⟩] ∧ (fitOf sPlace 0 ⟨1, none, 3, 0⟩).isSome = true)
    (fun t => (t.die 0).placing = some 1 ∧ t.agenda = [ePlace]) := took_of_now (by decide +kernel)
def lRun : Launch := { lRec with state := .running, prio := [(0, 3)] }
/-- The launch's team is being placed: the pages of its pool are translated, and a request stands at the header's block. -/
def sPlacing (st : Stage) : State :=
  tripAt ePlace (.command 0) poolStop st (blockIn poolStop 128 (unmapped (pinPages ePlace [] 0 1 [0x4000004, 0x4000005, 0x4000006]
    (sPlace.modDie 0 (fun d => { d with placing := some 1 })))))
theorem test_teamPlace_takes : Took ePlace (sPlacing .there)
      (unpinned (sPlacing .there) ePlace 1 (placeNeeds (sPlacing .there) 0 lRun).1 = [] ∧ (placeNeeds (sPlacing .there) 0 lRun).2 = [poolStop]
        ∧ comesNow (sPlacing .there) ePlace (.command 0) [poolStop] = true ∧ blockNow (sPlacing .there) poolStop ePlace = true)
      (fun t => t.mem.nat 0x40040 1 = 1 ∧ stages t = [.back] ∧ t.trips.map (fun x => leNat (x.bytes.take 4)) = [0])
    ∧ Took ePlace (bytesAt 0x40040 1 1 (sPlacing .there)) True (fun t => stages t = [.back] ∧ t.trips.map (·.bytes) = [[]]) :=
  ⟨took_of_now (by decide +kernel), took_of_now (by decide +kernel)⟩
def slotStop : Stop := ⟨homeOf (contextPage sE) 0x40000050000, 0xA00, 128⟩
/-- The slot is taken and its header written. -/
def sPlaced : State :=
  { sPlacing .done with trips := [{ id := 20, e := ePlace, who := .command 0, stop := poolStop, stage := .done, bytes := leBytes 4 0 ++ leBytes 8 0x20000 },
      { id := 21, e := ePlace, who := .command 0, stop := slotStop, stage := .done }] }
/-- Beside team 0 on core 0: warp slot 1 of quadrant 0, behind the 24,576 bytes of its region. -/
theorem test_teamPlace : Took ePlace sPlaced
    ((findFit sPlaced 0 1 lRun false).isSome = true ∧ slotTaken (sPlaced.tripsOf ePlace) (some poolStop) = some (0, 0x20000)
      ∧ allBack (sPlaced.tripsOf ePlace) (placeNeeds sPlaced 0 lRun).2 = true
      ∧ recordsFit sPlaced ((newImages lRun.desc 0x20000 0).map (areaAnchor sPlaced ePlace 0 1)) = true)
    (fun t => (t.team? 1).map (fun tm => (tm.status, tm.cores, tm.slot)) = some (.running, [0], some 0)
      ∧ (t.warp? ⟨1, 0⟩).map (fun w => (w.slot, w.region, w.live)) = some (1, 24576, 0xFFFF) ∧ (t.die 0).pending = []) :=
  took_of_now (by decide +kernel)
/-- An image slot is given up: its bit is cleared. -/
def sFreeing : State := bytesAt 0x40040 1 3 ((sPlacing .there).modDie 0 (fun d => { d with placing := none, freeing := [(1, 0x40000040000, 0)] }))
theorem test_freeSlot : Took ePlace sFreeing (unpinned sFreeing ePlace 1 [0x40000040000] = [] ∧ comesNow sFreeing ePlace (.command 0) [poolStop] = true)
    (fun t => t.mem.nat 0x40040 1 = 2 ∧ stages t = [.back]) := took_of_now (by decide +kernel)
def sAge (p : Nat) : State := withLaunch { lRec with prio := [(0, p)] } sE
theorem test_priorityAging : Took (.priorityAging 1 0) (sAge 22) True (fun t => (t.launches.find? 1).map (fun l => l.prio.get 0 0) = some 23)
    ∧ Took (.priorityAging 1 0) (sAge 23) True (fun t => (t.launches.find? 1).map (fun l => l.prio.get 0 0) = some 23) :=
  ⟨took_of_now (by decide +kernel), took_of_now (by decide +kernel)⟩
def sOwner : State :=
  eventWith 6 { count := 4, owner := some 1, refinable := true }
    (withLaunch { lRec with root := 0, owned := [6], state := .done } (launchWith (fun l => { l with counter := 2 }) sE))
theorem test_ownerRetire : Took (.ownerRetire 1) sOwner ((sOwner.event 1 6).owner = some 1)
    (fun t => (t.event 1 6).count = 0x8004 ∧ (t.event 1 6).owner = none ∧ (t.launches.find? 0).map (·.counter) = some 1
      ∧ (t.launches.find? 1).map (·.retired) = some true) := took_of_now (by decide +kernel)
def sSettle (n : Nat) : State := withLaunch { lRec with counter := n, doneEv := 7, doneN := 1 } sE
theorem test_commandSettle : Took (.commandSettle 1) (sSettle 0) (settles (sSettle 0) 1 { lRec with counter := 0, doneEv := 7, doneN := 1 } = true)
      (fun t => (t.launches.find? 1).map (·.settled) = some true ∧ t.agenda = [.eventChangeApply 1 7 1])
    ∧ Took (.commandSettle 1) (sSettle 1) True (fun t => (t.launches.find? 1).map (·.settled) = some false) :=
  ⟨took_of_now (by decide +kernel), took_of_now (by decide +kernel)⟩

/-! ### Halts, saves, restores and ends: TeamEnds (R88, R310, R326, R352 to R354, R382, R384, R389, R392, R393, R395) -/

def teamWith (f : Team → Team) (s : State) : State := s.modTeam 0 f
theorem test_teamHalt : Took (.teamHalt 0) (teamWith (fun t => { t with status := .raised }) sE) True
      (fun t => (t.team? 0).map (·.status) = some .skidding ∧ t.agenda = [.teamSave 0])
    ∧ Took (.teamHalt 0) sE True (fun t => (t.team? 0).map (·.status) = some .running ∧ t.agenda = []) :=
  ⟨took_of_now (by decide +kernel), took_of_now (by decide +kernel)⟩
def trapped (st : TeamStatus) (s : State) : State := teamWith (fun t => { t with status := st, halt := some (⟨1, 1, 0, 0, 0, 0⟩, 0, 0) }) s
/-- A team without core areas. -/
def small (s : State) : State :=
  launchWith (fun l => { l with desc := { l.desc with globals := 96, acct := 0, aslots := 0, wslots := 0, scratch := 0 } }) s
/-- A team whose image stands at 0x30000: the header there, its warp's image at 0x40000. -/
def imaged (s : State) : State := warpWith (fun w => { w with imageBase := 0x40000040000 }) (contextPage s)
/-- The pages of the image are translated for an event, and no page table maps a line. -/
def imagePins (e : Instr) (s : State) : State := unmapped (pinPages e [] 0 1 [0x4000003, 0x4000004] s)
def eSave : Instr := .teamSave 0
def theTeam (s : State) : Team := (s.team? 0).getD default
def theLaunch (s : State) : Launch := (launchOfTeam s 0).getD {}
def partsNow (s : State) : List Region := imageParts s 0 (theTeam s) (theLaunch s)
def sSaving (flushing marked saved : Bool) : State :=
  warpWith (fun w => { w with marked := marked }) (small (trapped .saving (teamWith (fun t => { t with flushing := flushing, saved := saved, hstate := if saved then 1 else 0 }) (imaged sE))))
def sWriting : State := imagePins eSave (sSaving true true true)
/-- All requests of the save are answered. -/
def sWritten : State := answeredAt eSave (.command 0) (blockStops sWriting eSave 0 1 (regionBlocks (partsNow sWriting))) sWriting
theorem test_teamSave :
    Took eSave (trapped .skidding sE) True (fun t => (t.team? 0).map (·.status) = some .saving ∧ t.agenda = [eSave])
    ∧ Took eSave (sSaving false false false) (saveQuiet (sSaving false false false) 0 = true)
      (fun t => (t.team? 0).map (fun tm => (tm.flushing, tm.saved)) = some (true, false) ∧ t.agenda = [.saveRecordRemove testWarp, eSave])
    ∧ Took eSave (sSaving true true false) ((theTeam (sSaving true true false)).warps.all (fun e => recordGone (sSaving true true false) 0 e) = true)
      (fun t => (t.team? 0).map (fun tm => (tm.saved, tm.hstate)) = some (true, 1) ∧ t.agenda = [eSave])
    ∧ Took eSave sWritten (unpinned sWritten eSave 1 (regionBlocks (partsNow sWritten)) = []
        ∧ allBack (sWritten.tripsOf eSave) (blockStops sWritten eSave 0 1 (regionBlocks (partsNow sWritten))) = true)
      (fun t => (t.team? 0).map (·.status) = some .halted) :=
  ⟨took_of_now (by decide +kernel), took_of_now (by decide +kernel), took_of_now (by decide +kernel), took_of_now (by decide +kernel)⟩
theorem test_teamSave_exit : Took eSave (teamWith (fun t => { t with status := .skidding, vexit := true }) sE) (spawning (theTeam sE) = false)
      (fun t => (warpNow t).live = 0 ∧ (warpNow t).splits = [] ∧ (warpNow t).ended = true ∧ .warpRelease testWarp ∈ t.agenda)
    ∧ Took eSave (splitWith (fun sp => { sp with wait := .spawn }) (teamWith (fun t => { t with status := .skidding, vexit := true }) sE)) True
      (fun t => (warpNow t).ended = false ∧ t.agenda = [eSave]) :=
  ⟨took_of_now (by decide +kernel), took_of_now (by decide +kernel)⟩
def eRestore : Instr := .teamRestore 0
def sBack (installed : Bool) : State :=
  warpWith (fun w => { w with installed := installed }) (teamWith (fun t => { t with status := .restoring, saved := true, hstate := 2 }) (small (imaged sE)))
def sReading : State := imagePins eRestore (sBack true)
def restoreStops (s : State) : List Stop :=
  blockStops s eRestore 0 1 ((imageReads (theTeam s) (theLaunch s)).flatMap (fun r => blocksOf r.1 r.2)).dedup
def sReadBack : State := answeredAt eRestore (.command 0) (restoreStops sReading) sReading
theorem witness_TeamEnds_restore : sReadBack.Inv ∧ restoreReady sReadBack 0 = true ∧ sReadBack.preempts = []
    ∧ (sReadBack.team? 0).map (fun tm => (tm.status, tm.incs, tm.ill, tm.warps.all (fun e => e.2.splits.all (fun sp => !sp.2.vexit))))
      = some (.restoring, [], none, true)
    ∧ unpinned sReadBack eRestore 1 (takeUpVas sReadBack (theTeam sReadBack)) = []
    ∧ unpinned sReadBack eRestore 1 ((imageReads (theTeam sReadBack) (theLaunch sReadBack)).flatMap (fun r => blocksOf r.1 r.2)).dedup = []
    ∧ allBack (sReadBack.tripsOf eRestore) (restoreStops sReadBack) = true ∧ (sReadBack.tripsOf eRestore).all (fun x => !x.bad) = true :=
  ⟨inv_of_now (by decide +kernel), by decide +kernel, by decide +kernel, by decide +kernel, by decide +kernel, by decide +kernel, by decide +kernel,
    by decide +kernel⟩
theorem test_teamRestore : Took eRestore (sBack false) (restoreReady (sBack false) 0 = false) (fun t => t.agenda = [eRestore])
    ∧ Took eRestore sReadBack True (fun t => (t.team? 0).map (fun tm => (tm.status, tm.restores, tm.saved)) = some (.running, 1, false)) :=
  ⟨took_of_now (by decide +kernel), took_of_now (by decide +kernel)⟩
def sHalted : State := teamWith (fun t => { t with hstate := 1 }) (trapped .halted (imaged sE))
def headerStop : Stop := ⟨homeOf (contextPage sE) 0x40000030000, 0x600, 128⟩
/-- CONTROL of the halted team is to be cleared: the request stands at the header's block, or is answered. -/
def sControl (e : Instr) (st : Stage) (s : State) : State := tripAt e (.command 0) headerStop st (imagePins e s)
theorem test_control_clears : Took (.controlResume 0) (blockIn headerStop 128 (sControl (.controlResume 0) .there (bytesAt 0x30000 8 1 sHalted)))
    (comesNow (sControl (.controlResume 0) .there sHalted) (.controlResume 0) (.command 0) [headerStop] = true
      ∧ blockNow (blockIn headerStop 128 (sControl (.controlResume 0) .there (bytesAt 0x30000 8 1 sHalted))) headerStop (.controlResume 0) = true)
    (fun t => t.mem.nat 0x30000 8 = 0 ∧ stages t = [.back] ∧ (t.team? 0).map (·.status) = some .halted) := took_of_now (by decide +kernel)
theorem test_controlResume : Took (.controlResume 0) (sControl (.controlResume 0) .done sHalted)
    (allBack ((sControl (.controlResume 0) .done sHalted).tripsOf (.controlResume 0)) [headerStop] = true)
    (fun t => (t.team? 0).map (fun tm => (tm.status, tm.halt)) = some (.pending, none) ∧ (t.die 0).savedTeams = [0]) := took_of_now (by decide +kernel)
theorem test_controlStep : Took (.controlStep 0) (sControl (.controlStep 0) .done sHalted) True
    (fun t => (t.team? 0).map (fun tm => (tm.status, tm.step)) = some (.pending, some (0, 0))) := took_of_now (by decide +kernel)
theorem test_controlAbandon : Took (.controlAbandon 0) (sControl (.controlAbandon 0) .done sHalted) True
      (fun t => (t.team? 0).map (·.status) = some .ended ∧ (warpNow t).ended = true ∧ (warpNow t).live = 0
        ∧ .warpRelease testWarp ∈ t.agenda)
    ∧ Took (.controlAbandon 0) (sControl (.controlAbandon 0) .done (imaged sE)) ((theTeam sE).hstate ≠ 1)
      (fun t => (t.team? 0).map (·.status) = some .running) := ⟨took_of_now (by decide +kernel), took_of_now (by decide +kernel)⟩
theorem test_teamHeaderWrite :
    Took (.teamHeaderWrite 0 0 [1]) sHalted True (fun t => t.agenda = [.controlResume 0])
    ∧ Took (.teamHeaderWrite 0 0 [4]) (sControl (.teamHeaderWrite 0 0 [4]) .done sHalted) True
      (fun t => t.agenda = [] ∧ (t.team? 0).map (·.status) = some .halted)
    ∧ Took (.teamHeaderWrite 0 8 [1]) sHalted True (fun t => t.agenda = []) :=
  ⟨took_of_now (by decide +kernel), took_of_now (by decide +kernel), took_of_now (by decide +kernel)⟩
def sEnded (released : Bool) : State := warpWith (fun w => { w with ended := true, live := 0, splits := [], released := released }) (recorded 0 sE)
theorem test_warpRelease :
    Took (.warpRelease testWarp) (sEnded false) (releaseReady (sEnded false) testWarp = true)
      (fun t => (warpNow t).released = true ∧ t.agenda = [.warpRelease testWarp])
    ∧ Took (.warpRelease testWarp) (sEnded true) (teamOps (sEnded true) 0 = [])
      (fun t => t.team? 0 = none ∧ (t.slice slot5).res = [] ∧ (t.launches.find? 0).map (·.endedTeams) = some 1) := ⟨took_of_now (by decide +kernel), took_of_now (by decide +kernel)⟩
def preempting (saving : Bool) (s : State) : State := { s with preempts := [(0, { ctx := 1, cores := [0], saving := saving })] }
theorem test_preemptDrainDeadline : Took (.preemptDrainDeadline 0) (preempting false sE) True
    (fun t => (t.team? 0).map (fun tm => (tm.status, tm.preempted)) = some (.raised, true) ∧ .teamHalt 0 ∈ t.agenda
      ∧ .preemptSaveDeadline 0 ∈ t.agenda) := took_of_now (by decide +kernel)
theorem test_preemptSaveDeadline : Took (.preemptSaveDeadline 0) (preempting true (sCmd 0 false)) (((0, 3) : Nat × Nat) ∈ slotsOf (sCmd 0 false) 1)
    (fun t => t.launches = [] ∧ t.teams = [] ∧ (t.queue 0 3).state = 2) := took_of_now (by decide +kernel)
theorem test_reservationTimeout : Took (.reservationTimeout 0) (sE.modDie 0 (fun d => { d with reservation := some (0, 1, 0) })) True
    (fun t => t.preempts.map (fun e => (e.2.ctx, e.2.cores)) = [(1, [0])]) := took_of_now (by decide +kernel)

/-! ### Commands of the host: HostCommands, HostQueuesAndAccesses (R70, R71, R74, R75, R213, R330, R345, R357 to R359, R363, R367, R373 to R379) -/

def cmd0 : Cmd := ⟨1, 2, 0x99⟩
/-- Session 1, privileged or not, holds context 1. -/
def sHost (priv : Bool) : State :=
  { sE.modContext 1 (fun c => { c with sessions := [1] }) with sessions := [(1, { src := 9, priv := priv })], recovery := false }
def replies_ (t : State) : Nat := t.txDatagrams.length
def mayNow (s : State) (c : Cmd) (e : Instr) : Bool :=
  !s.recovery && (!privileged e || (s.sessions.find? c.session).map (·.priv) = some true)
    && (hostContext e).all (fun x => (s.context x).live && (privileged e || (s.context x).sessions.contains c.session))
theorem mayGive_of_now {s : State} {c : Cmd} {e : Instr} (h : mayNow s c e = true) : s.mayGive c e := by
  simp only [mayNow, Bool.and_eq_true, Bool.or_eq_true, Bool.not_eq_true', decide_eq_true_eq] at h
  obtain ⟨⟨h1, h2⟩, h3⟩ := h
  have h4 : ∀ ctx, hostContext e = some ctx →
      (s.context ctx).live = true ∧ (privileged e = true ∨ c.session ∈ (s.context ctx).sessions) := by
    intro ctx hc
    rw [hc] at h3
    simpa using h3
  exact ⟨h1, fun hp => h2.resolve_left (by simp [hp]), fun ctx hc => (h4 ctx hc).1,
    fun ctx hc hp => (h4 ctx hc).2.resolve_left (by simp [hp])⟩
/-- The command may be given, takes effect, and is answered once. -/
def Gave (e : Instr) (s : State) (p : State → Prop) : Prop :=
  Took e s (mayNow s cmd0 e = true) (fun t => replies_ t = 1 ∧ p t)
theorem test_createContext : Gave (.createContext cmd0) (sHost false) (fun t =>
    ((t.context 2).live, (t.context 2).gen, (t.context 2).sessions) = (true, 1, [1])) := took_of_now (by decide +kernel)
/-- A destroyed context keeps its generation for its number's next use. -/
theorem test_createContext_again : Gave (.createContext cmd0) { sHost false with contexts := (sHost false).contexts.set 2 { gen := 7 } }
    (fun t => (t.context 2).gen = 8) := took_of_now (by decide +kernel)
theorem test_setRootTable : Gave (.setRootTable cmd0 1 0x50000) (sHost false) (fun t => (t.context 1).root = some 0x50000)
    ∧ Gave (.setRootTable cmd0 1 0x58000) (sHost false) (fun t => (t.context 1).root = some 0x10000)
    ∧ Gave (.setRootTable cmd0 1 0x40000000000) (sHost false) (fun t => (t.context 1).root = some 0x10000) :=
  ⟨took_of_now (by decide +kernel), took_of_now (by decide +kernel), took_of_now (by decide +kernel)⟩
theorem test_setEventCount : Gave (.setEventCount cmd0 1 8 0x70) (sHost false) (fun t => ((t.context 1).evCount, (t.context 1).backing) = (8, 0x70))
    ∧ Gave (.setEventCount cmd0 1 65537 0x70) (sHost false) (fun t => (t.context 1).evCount = 65536) :=
  ⟨took_of_now (by decide +kernel), took_of_now (by decide +kernel)⟩
def sCounted : State := eventWith 65535 { count := 0x12345678 } (sHost false)
theorem test_setRefinableSet : Gave (.setRefinableSet cmd0 1 65535 1 1) sCounted (fun t =>
      ((t.event 1 65535).refinable, (t.event 1 65535).count) = (true, 0x5678))
    ∧ Gave (.setRefinableSet cmd0 1 65535 2 1) sCounted (fun t => (t.event 1 65535).refinable = false)
    ∧ Gave (.setRefinableSet cmd0 1 65535 1 2) sCounted (fun t => (t.event 1 65535).refinable = false) :=
  ⟨took_of_now (by decide +kernel), took_of_now (by decide +kernel), took_of_now (by decide +kernel)⟩
def sTwoSessions : State := { sHost true with sessions := [(1, { src := 9, priv := true }), (4, { src := 8 })] }
theorem test_grantContext : Gave (.grantContext cmd0 1 4) sTwoSessions (fun t => (t.context 1).sessions = [1, 4])
    ∧ Gave (.grantContext cmd0 1 5) sTwoSessions (fun t => (t.context 1).sessions = [1]) :=
  ⟨took_of_now (by decide +kernel), took_of_now (by decide +kernel)⟩
/-- What a session may not do is answered, without effect: a privileged command, a foreign context, one in recovery. -/
theorem test_host_refused :
    Took (.grantContext cmd0 1 1) (sHost false) (privileged (.grantContext cmd0 1 1) = true) (fun t => replies_ t = 1 ∧ (t.context 1).sessions = [1])
    ∧ Took (.setRootTable cmd0 1 0x50000) { sE with sessions := [(1, { src := 9 })], recovery := false } ((sE.context 1).sessions = [])
      (fun t => replies_ t = 1 ∧ (t.context 1).root = some 0x10000)
    ∧ Took (.setRootTable cmd0 1 0x50000) { sHost true with recovery := true } True
      (fun t => replies_ t = 1 ∧ (t.context 1).root = some 0x10000) :=
  ⟨took_of_now (by decide +kernel), took_of_now (by decide +kernel), took_of_now (by decide +kernel)⟩
/-- A TLB entry of the range, and one load under it that has not been performed. -/
def sShot (busy : Bool) : State :=
  let s := (sHost false).modCore 0 (fun c => { c with tlb := [⟨1, 0, { level := 1 }⟩, ⟨1, 1, { level := 1 }⟩] })
  if busy then withOne oLoad s else s
theorem test_shootdown :
    Gave (.shootdown cmd0 1 0x10000 1) (sShot false) (fun t => (t.core 0).tlb.map (·.vpage) = [0])
    ∧ Took (.shootdown cmd0 1 0 0) (sShot true) (shotOps (sShot true) 1 0 0 = [0] ∧ opsPerformed (sShot true) [0] = false)
      (fun t => replies_ t = 0 ∧ (t.core 0).tlb = [] ∧ t.agenda = [.shootdown cmd0 1 0 0]
        ∧ t.waitingCmds.map (·.ops) = [[0]]) := ⟨took_of_now (by decide +kernel), took_of_now (by decide +kernel)⟩
theorem test_shootdown_waited :
    Took (.shootdown cmd0 1 0 0) { sHost false with waitingCmds := [{ cmd := cmd0, opc := 0x15, ctx := 1, ops := [0] }] } True
      (fun t => replies_ t = 1 ∧ t.waitingCmds = [])
    ∧ Took (.shootdown cmd0 1 0 0) { sShot true with waitingCmds := [{ cmd := cmd0, opc := 0x15, ctx := 1, ops := [0] }] } True
      (fun t => replies_ t = 0 ∧ t.agenda = [.shootdown cmd0 1 0 0]) := ⟨took_of_now (by decide +kernel), took_of_now (by decide +kernel)⟩
def sDestroy : State := { sHost false with waitingCmds := [{ cmd := cmd0, opc := 0x11, ctx := 1 }] }
theorem test_destroyContext :
    Took (.destroyContext cmd0 1) (sHost false) (mayNow (sHost false) cmd0 (.destroyContext cmd0 1) = true)
      (fun t => replies_ t = 0 ∧ t.agenda = [.destroyContext cmd0 1, .preemptDrainDeadline 0]
        ∧ t.preempts.map (fun e => (e.2.ctx, e.2.destroy, e.2.cores.length)) = [(1, some cmd0, 64)])
    ∧ Took (.destroyContext cmd0 1) sDestroy (destroyReady sDestroy cmd0 1 = true)
      (fun t => replies_ t = 1 ∧ (t.context 1).live = false ∧ (t.context 1).gen = 1 ∧ t.launches = [] ∧ t.teams = []
        ∧ t.waitingCmds = []) := ⟨took_of_now (by decide +kernel), took_of_now (by decide +kernel)⟩

def sQueue (slot : Option (Nat × Nat)) (st : Nat) : State :=
  queueWith 0 3 { ring := 0x200000, ctx := 1, qid := 5, logcap := 4, state := st, head := 2, kick := 3 }
    ((sHost false).modContext 1 (fun c => { c with queues := [(5, { ring := 0x200000, logcap := 4, slot := slot, pending := some 6 })] }))
theorem test_kick : Gave (.kick cmd0 1 5 9) (sQueue (some (0, 3)) 1) (fun t => (t.queue 0 3).kick = 9 ∧ .queueCommandPull 0 3 ∈ t.agenda)
    ∧ Gave (.kick cmd0 1 5 4) (sQueue none 1) (fun t => .queueBindPending 1 5 ∈ t.agenda
      ∧ (((t.context 1).queues.find? 5).bind (·.pending)) = some 6)
    ∧ Gave (.kick cmd0 1 6 4) (sQueue none 1) (fun t => ((t.context 1).queues.find? 6).isNone = true) :=
  ⟨took_of_now (by decide +kernel), took_of_now (by decide +kernel), took_of_now (by decide +kernel)⟩
def sNoSlotHost : State := { sHost false with dies := sNoSlot.dies }
theorem test_bindUserQueue : Gave (.bindUserQueue cmd0 1 1023 20 0x4000) sNoSlotHost (fun t =>
      ((t.context 1).queues.find? 1023).map (fun u => (u.ring, u.logcap, u.slot)) = some (0x4000, 20, none))
    ∧ Gave (.bindUserQueue cmd0 1 1023 21 0x4000) sNoSlotHost (fun t => ((t.context 1).queues.find? 1023).isNone = true)
    ∧ Gave (.bindUserQueue cmd0 1 1024 20 0x4000) sNoSlotHost (fun t => ((t.context 1).queues.find? 1024).isNone = true) :=
  ⟨took_of_now (by decide +kernel), took_of_now (by decide +kernel), took_of_now (by decide +kernel)⟩
theorem test_unbindUserQueue : Gave (.unbindUserQueue cmd0 1 5) (sQueue (some (0, 3)) 1) (fun t => ((t.context 1).queues.find? 5).isNone = true
    ∧ (t.queue 0 3).state = 0) := took_of_now (by decide +kernel)
theorem test_resumeQueueRetry : Gave (.resumeQueueRetry cmd0 1 5) (sQueue (some (0, 3)) 2) (fun t => (t.queue 0 3).state = 1 ∧ (t.queue 0 3).head = 2
    ∧ t.agenda.getLast? = some (.queueCommandPull 0 3)) := took_of_now (by decide +kernel)
theorem test_resumeQueueSkip : Gave (.resumeQueueSkip cmd0 1 5) (sQueue (some (0, 3)) 2) (fun t => (t.queue 0 3).state = 1 ∧ (t.queue 0 3).head = 3)
    ∧ Gave (.resumeQueueSkip cmd0 1 5) (sQueue (some (0, 3)) 1) (fun t => (t.queue 0 3).head = 2) :=
  ⟨took_of_now (by decide +kernel), took_of_now (by decide +kernel)⟩
theorem test_setHostEventRing : Gave (.setHostEventRing cmd0 1 4 15) (sHost false) (fun t => (t.context 1).ringLog = some (4, 1, 15))
    ∧ Gave (.setHostEventRing cmd0 1 3 15) (sHost false) (fun t => (t.context 1).ringLog = none)
    ∧ Gave (.setHostEventRing cmd0 1 4 16) (sHost false) (fun t => (t.context 1).ringLog = none) :=
  ⟨took_of_now (by decide +kernel), took_of_now (by decide +kernel), took_of_now (by decide +kernel)⟩
def sRing : State := (sHost false).modContext 1 (fun c => { c with ringRead := 4, ringWrite := 6 })
theorem test_advanceReadIndex : Gave (.advanceReadIndex cmd0 1 6) sRing (fun t => (t.context 1).ringRead = 6)
    ∧ Gave (.advanceReadIndex cmd0 1 7) sRing (fun t => (t.context 1).ringRead = 4)
    ∧ Gave (.advanceReadIndex cmd0 1 3) sRing (fun t => (t.context 1).ringRead = 4) :=
  ⟨took_of_now (by decide +kernel), took_of_now (by decide +kernel), took_of_now (by decide +kernel)⟩
/-- Bytes and lines of the first access in flight. -/
def accNow (t : State) : List Nat × List Nat := ((t.hostAccs.find? 0).map (fun a => (a.bytes, a.parts.map (·.line)))).getD ([], [])
def nextIs (o : Out) (p : State → Bool) : Bool :=
  match o with
  | .next t => p t
  | _ => false
/-- The host's access, given what the instruction comes to where its bytes are not of queue records. -/
theorem took_of_eq {e : Instr} {s : State} {h : Prop} [Decidable h] {p : State → Prop} [∀ t, Decidable (p t)] {o : Out} (he : exec e s = o)
    (x : (invNow s && decide h && nextIs o (fun t => decide (p t))) = true) : Took e s h p := by
  simp only [Bool.and_eq_true] at x
  obtain ⟨⟨h1, h2⟩, h3⟩ := x
  cases o with
  | next t => exact ⟨inv_of_now h1, of_decide_eq_true h2, t, he, of_decide_eq_true h3⟩
  | _ => cases h3
theorem notRecords {a : Nat} {bs : List Nat} (h : queuePlace a = none) (ha : a ∈ bs) : inRecords bs = false := by
  simp only [inRecords, List.all_eq_false]
  exact ⟨a, ha, by simp [h]⟩
/-- Where the queue records lie is the package's own: of two places 16 KiB apart one is outside them. -/
theorem of_outside {p : Nat → Prop} (a b : Nat) (h : a + 16384 ≤ b) (ha : queuePlace a = none → p a) (hb : queuePlace b = none → p b) :
    ∃ x, (x = a ∨ x = b) ∧ queuePlace x = none ∧ p x := by
  rcases outside_records h with hn | hn
  · exact ⟨a, .inl rfl, hn, ha hn⟩
  · exact ⟨b, .inr rfl, hn, hb hn⟩
theorem readPhysical_memory {pol : Nat} {addr : Dword} {s : State} (h : queuePlace addr.toNat = none) :
    exec (.memoryReadPhysical cmd0 pol addr 1) s
      = withSession cmd0 1 (.memoryReadPhysical cmd0 pol addr 1) s (physicalMemory cmd0 1 pol false addr 1 []) :=
  withSession_congr (physicalAccess_memory (notRecords h (by simp)))
theorem writePhysical_memory {pol : Nat} {addr : Dword} {s : State} (hs : s.recovery = false) (h : queuePlace addr.toNat = none) :
    exec (.memoryWritePhysical cmd0 pol addr [1]) s
      = withSession cmd0 2 (.memoryWritePhysical cmd0 pol addr [1]) s (physicalMemory cmd0 2 pol true addr 1 [1]) := by
  show execMemoryWritePhysical _ _ _ _ _ = _
  unfold execMemoryWritePhysical
  refine withSession_congr ?_
  rw [if_neg (by simp [hs])]
  exact physicalAccess_memory (notRecords h (by simp))
def eRv (x : Nat) : Instr := .memoryReadVirtual cmd0 1 (BitVec.ofNat 64 x) 2
def eWv (x : Nat) (data : List Byte) : Instr := .memoryWriteVirtual cmd0 1 (BitVec.ofNat 64 x) data
/-- The pages of a virtual access are translated. -/
def sVirt (e : Instr) (x : Nat) : State := pinPages e [] 0 1 [x / 65536] (sHost false)
theorem readVirtual_memory {x : Nat} {s : State} {r : List Nat × List (Nat × Nat)}
    (hp : unpinned s (eRv x) 1 [BitVec.ofNat 64 x, BitVec.ofNat 64 x + BitVec.ofNat 64 (2 - 1)] = [])
    (hr : hostBytes s (eRv x) 1 false 66 (BitVec.ofNat 64 x) 2 = .ok r) (h : inRecords r.1 = false) :
    exec (eRv x) s = withContext cmd0 1 1 (eRv x) s (fun s => virtualMemory cmd0 1 1 false (BitVec.ofNat 64 x) r [] (unpin (eRv x) s)) :=
  withContext_congr (virtualAccess_memory hp hr h)
theorem writeVirtual_memory {x : Nat} {s : State} {r : List Nat × List (Nat × Nat)}
    (hp : unpinned s (eWv x [1, 2]) 1 [BitVec.ofNat 64 x, BitVec.ofNat 64 x + BitVec.ofNat 64 (2 - 1)] = [])
    (hr : hostBytes s (eWv x [1, 2]) 1 true 66 (BitVec.ofNat 64 x) 2 = .ok r) (h : inRecords r.1 = false) :
    exec (eWv x [1, 2]) s
      = withContext cmd0 2 1 (eWv x [1, 2]) s (fun s => virtualMemory cmd0 2 1 true (BitVec.ofNat 64 x) r [1, 2] (unpin (eWv x [1, 2]) s)) :=
  withContext_congr (virtualAccess_memory hp hr h)
def vbytes (x : Nat) : List Nat × List (Nat × Nat) := ([x, x + 1], [(homeSlice x 0 false, x / 128), (homeSlice (x + 1) 0 false, (x + 1) / 128)])
theorem test_memoryReadVirtual : (∃ x, (x = 0x10007F ∨ x = 0x10407F) ∧ queuePlace x = none ∧
      Took (eRv x) (sVirt (eRv x) x) (mayNow (sVirt (eRv x) x) cmd0 (eRv x) = true)
        (fun t => accNow t = ([x, x + 1], [x / 128, x / 128 + 1]) ∧ t.agenda = [.hostAccessAtSlice 0 0, .hostAccessAtSlice 0 1]))
    ∧ Took (eRv 0x100000) (sHost false) (unpinned (sHost false) (eRv 0x100000) 1 [0x100000] ≠ []) (fun t => t.hostAccs = [] ∧ replies_ t = 0) :=
  ⟨of_outside _ _ (by omega)
    (fun h => took_of_eq (readVirtual_memory (r := vbytes 0x10007F) (by decide +kernel) (by decide +kernel) (notRecords h (by decide))) (by decide +kernel))
    (fun h => took_of_eq (readVirtual_memory (r := vbytes 0x10407F) (by decide +kernel) (by decide +kernel) (notRecords h (by decide))) (by decide +kernel)),
   took_of_now (by decide +kernel)⟩
theorem test_virtual_fault : Gave (eRv 0x100000000000) (sVirt (eRv 0x100000000000) 0x100000000000) (fun t => t.hostAccs = [])
    ∧ Gave (eWv 0x100000000000 [1]) (sVirt (eWv 0x100000000000 [1]) 0x100000000000) (fun t => t.hostAccs = []) :=
  ⟨took_of_now (by decide +kernel), took_of_now (by decide +kernel)⟩
theorem test_memoryWriteVirtual : ∃ x, (x = 0x10007F ∨ x = 0x10407F) ∧ queuePlace x = none ∧
    Took (eWv x [1, 2]) (sVirt (eWv x [1, 2]) x) (guardedPages (sVirt (eWv x [1, 2]) x) = [])
      (fun t => accNow t = ([x, x + 1], [x / 128, x / 128 + 1]) ∧ (t.hostAccs.find? 0).map (·.data) = some [1, 2]) :=
  of_outside _ _ (by omega)
    (fun h => took_of_eq (writeVirtual_memory (r := vbytes 0x10007F) (by decide +kernel) (by decide +kernel) (notRecords h (by decide))) (by decide +kernel))
    (fun h => took_of_eq (writeVirtual_memory (r := vbytes 0x10407F) (by decide +kernel) (by decide +kernel) (notRecords h (by decide))) (by decide +kernel))
theorem test_memoryReadPhysical : ∃ x, (x = 0x1000FF ∨ x = 0x1040FF) ∧ queuePlace x = none ∧
    Took (.memoryReadPhysical cmd0 1 (BitVec.ofNat 64 x) 1) (sHost true) True (fun t => accNow t = ([x], [x / 128])) :=
  of_outside _ _ (by omega) (fun h => took_of_eq (readPhysical_memory h) (by decide +kernel)) (fun h => took_of_eq (readPhysical_memory h) (by decide +kernel))
/-- Far memory under policy PIN, and a hole. -/
theorem test_physical_refused :
    (∃ x, (x = 0x10000000000 ∨ x = 0x10000004000) ∧ queuePlace x = none ∧
      Gave (.memoryReadPhysical cmd0 1 (BitVec.ofNat 64 x) 1) (sHost true) (fun t => t.hostAccs = [] ∧ inFar x = true))
    ∧ ∃ x, (x = 0x40000000000 ∨ x = 0x40000004000) ∧ queuePlace x = none ∧
      Gave (.memoryReadPhysical cmd0 0 (BitVec.ofNat 64 x) 1) (sHost true) (fun t => t.hostAccs = [] ∧ isHole x = true) :=
  ⟨of_outside _ _ (by omega) (fun h => took_of_eq (readPhysical_memory h) (by decide +kernel)) (fun h => took_of_eq (readPhysical_memory h) (by decide +kernel)),
   of_outside _ _ (by omega) (fun h => took_of_eq (readPhysical_memory h) (by decide +kernel)) (fun h => took_of_eq (readPhysical_memory h) (by decide +kernel))⟩
theorem test_memoryWritePhysical :
    (∃ x, (x = 0x100000 ∨ x = 0x104000) ∧ queuePlace x = none ∧
      Took (.memoryWritePhysical cmd0 0 (BitVec.ofNat 64 x) [1]) (sHost true) True (fun t => accNow t = ([x], [x / 128])))
    ∧ Took (.memoryWritePhysical cmd0 0 0x20 [7, 8]) { sHost true with recovery := true } True
      (fun t => replies_ t = 1 ∧ (t.staging.find? 0x20, t.staging.find? 0x21) = (some 7, some 8) ∧ t.mem.byte 0x20 = 0) :=
  ⟨of_outside _ _ (by omega) (fun h => took_of_eq (writePhysical_memory (by decide +kernel) h) (by decide +kernel))
     (fun h => took_of_eq (writePhysical_memory (by decide +kernel) h) (by decide +kernel)), took_of_now (by decide +kernel)⟩
def sGuarded : State := { imaged sE with sessions := [(1, { src := 9, priv := true })], recovery := false }
/-- A resident team's image is not written by the host: code 8, and no access. -/
theorem test_host_image : ∃ x, (x = 0x40000 ∨ x = 0x44000) ∧ queuePlace x = none ∧
    Gave (.memoryWritePhysical cmd0 0 (BitVec.ofNat 64 x) [1]) sGuarded (fun t => t.hostAccs = [] ∧ x / 65536 ∈ guardedPages sGuarded) :=
  of_outside _ _ (by omega) (fun h => took_of_eq (writePhysical_memory (by decide +kernel) h) (by decide +kernel))
    (fun h => took_of_eq (writePhysical_memory (by decide +kernel) h) (by decide +kernel))
/-! The queue records: the place of a byte among them, and the host's read and write of ERR (R8, R380). -/
def qaddr (i : Nat) : Dword := BitVec.ofNat 64 (Config.queueRecords.toNat + i)
theorem qaddr_toNat {i : Nat} (h : i < 16384) : (qaddr i).toNat = Config.queueRecords.toNat + i := by
  have := Config.queueRecords.isLt
  simp only [qaddr, BitVec.toNat_ofNat]
  omega
theorem recordPlace_at {i : Nat} (h : i < 16384) : queuePlace (Config.queueRecords.toNat + i) = some (i / 4096, i / 64 % 64, i % 64) := by
  simp only [queuePlace, Nat.add_sub_cancel_left, Nat.le_add_right, decide_true, Bool.true_and, decide_eq_true_eq]
  rw [if_pos (by omega)]
def sErr : State := queueWith 1 3 { state := 2, err := 0x1122334455667788 } (sHost true)
/-- The byte of ERR's bits [15:8], in the record of slot 3 of die 1. -/
def errByte : Nat := 4096 + 64 * 3 + 33
theorem errByte_at : (List.range 1).map ((qaddr errByte).toNat + ·) = [Config.queueRecords.toNat + errByte] := by
  rw [qaddr_toNat (by decide), List.range_one, List.map_cons, List.map_nil, Nat.add_zero]
theorem errByte_place : queuePlace (Config.queueRecords.toNat + errByte) = some (1, 3, 33) := recordPlace_at (by decide)
theorem errByte_in : inRecords ((List.range 1).map ((qaddr errByte).toNat + ·)) = true := by
  simp only [errByte_at, inRecords, List.all_cons, List.all_nil, errByte_place, Option.isSome_some, Bool.and_self]
theorem readRecord (s : State) : recordAccess cmd0 1 false [Config.queueRecords.toNat + errByte] [] s
    = replyOk cmd0 1 [(s.queue 1 3).bytes.getD 33 0] s := by
  simp only [recordAccess, List.map_cons, List.map_nil, errByte_place, if_neg (show ¬ false = true by decide)]
theorem writeRecord (s : State) : recordAccess cmd0 2 true [Config.queueRecords.toNat + errByte] [0] s
    = replyOk cmd0 2 [] (modQueue 1 3 (fun q => { q with
        err := BitVec.ofNat 64 (leNat ((leBytes 8 q.err.toNat).set 1 0)) }) s) := by
  simp only [recordAccess, List.zip_cons_cons, List.zip_nil_left, List.foldl_cons, List.foldl_nil, writeRecordByte, errByte_place, if_true]
  rfl
theorem readRecord_exec (s : State) : exec (.memoryReadPhysical cmd0 0 (qaddr errByte) 1) s
    = withSession cmd0 1 (.memoryReadPhysical cmd0 0 (qaddr errByte) 1) s (fun s => .next (replyOk cmd0 1 [(s.queue 1 3).bytes.getD 33 0] s)) :=
  withSession_congr (by rw [physicalAccess_records errByte_in, errByte_at, readRecord])
theorem writeRecord_exec (s : State) (h : s.recovery = false) : exec (.memoryWritePhysical cmd0 0 (qaddr errByte) [0]) s
    = withSession cmd0 2 (.memoryWritePhysical cmd0 0 (qaddr errByte) [0]) s (fun s => .next (replyOk cmd0 2 [] (modQueue 1 3 (fun q => { q with
        err := BitVec.ofNat 64 (leNat ((leBytes 8 q.err.toNat).set 1 0)) }) s))) := by
  show execMemoryWritePhysical _ _ _ _ _ = _
  unfold execMemoryWritePhysical
  refine withSession_congr ?_
  rw [if_neg (by simp [h]), physicalAccess_records (by exact errByte_in), show [(0 : Byte)].length = 1 from rfl, errByte_at, writeRecord]
theorem priv_withSession {c : Cmd} {opc : Nat} {e : Instr} {s : State} {k : State → Out} (h : s.recovery = false)
    (hp : ((s.sessions.find? c.session).map (·.priv)) = some true) : withSession c opc e s k = k s := by
  simp [withSession, h, hp]
theorem test_readRecord : Took (.memoryReadPhysical cmd0 0 (qaddr errByte) 1) sErr (queuePlace (qaddr errByte).toNat = some (1, 3, 33))
    (fun t => t = replyOk cmd0 1 [0x77] sErr) := by
  refine ⟨inv_of_now (by decide +kernel), ?_, _, (readRecord_exec sErr).trans (priv_withSession (by decide +kernel) (by decide +kernel)), ?_⟩
  · rw [qaddr_toNat (by decide), errByte_place]
  · show replyOk cmd0 1 [(sErr.queue 1 3).bytes.getD 33 0] sErr = _
    rw [show (sErr.queue 1 3).bytes.getD 33 0 = 0x77 by decide +kernel]
theorem test_writeRecord : Took (.memoryWritePhysical cmd0 0 (qaddr errByte) [0]) sErr (queuePlace (qaddr errByte).toNat = some (1, 3, 33))
    (fun t => (t.queue 1 3).err = 0x1122334455660088 ∧ (t.queue 1 3).state = 2) := by
  refine ⟨inv_of_now (by decide +kernel), ?_, _,
    (writeRecord_exec sErr (by decide +kernel)).trans (priv_withSession (by decide +kernel) (by decide +kernel)), ?_⟩
  · rw [qaddr_toNat (by decide), errByte_place]
  · decide +kernel
def eAcc : Instr := .hostAccessAtSlice 0 0
def sAcc (write : Bool) : State :=
  bytesAt 0x100000 4 0x11223344 (lineIn .cln { sHost false with hostAccs := [(0,
    { cmd := cmd0, opc := if write then 2 else 1, write := write, addr := 0x100001, bytes := [0x100001, 0x100002, 0x100080]
      parts := [{ line := 0x2000, home := 16 }, { line := 0x2001, home := 6 }], data := if write then [7, 8, 9] else [] })] })
/-- The access's request for the first line stands at its slice, or is answered. -/
def sAccAt (write : Bool) (st : Stage) : State := tripAt eAcc (.ingress 0) stop16 st (sAcc write)
theorem test_hostAccessAtSlice :
    Took eAcc (sAccAt false .there) (servedNow (sAccAt false .there) 16 0x2000 true eAcc = true
        ∧ comesNow (sAccAt false .there) eAcc (.ingress 0) [stop16] = true)
      (fun t => t.trips.map (fun x => (x.stage, x.data)) = [(.back, 0x11223344)])
    ∧ Took eAcc (sAccAt true .there) True (fun t => t.mem.nat 0x100000 4 = 0x11080744 ∧ t.mem.byte 0x100080 = 0
      ∧ t.tags.get 0 0x2000 = 1)
    ∧ Took eAcc { sAccAt false .there with poison := [0x2000] } (poisoned { sAccAt false .there with poison := [0x2000] } 0x2000 = true)
      (fun t => t.trips.map (·.bad) = [true])
    ∧ Took eAcc (sAcc false) (leavesNow (sAcc false) eAcc (.ingress 0) [stop16] stop16 = true) (fun t => stages t = [.going]) :=
  ⟨took_of_now (by decide +kernel), took_of_now (by decide +kernel), took_of_now (by decide +kernel), took_of_now (by decide +kernel)⟩
def sAccBack (bad : Bool) : State :=
  { sAccAt false .done with trips := (sAccAt false .done).trips.map (fun x => { x with data := 0x11223344, bad := bad }) }
def lastPart (s : State) : State :=
  { s with hostAccs := s.hostAccs.map (fun a => (a.1, { a.2 with parts := a.2.parts.modify 1 (fun p => { p with done := true }) })) }
theorem test_hostAccess_replies :
    Took eAcc (sAccBack false) (allBack ((sAccBack false).tripsOf eAcc) [stop16] = true)
      (fun t => (t.hostAccs.find? 0).map (fun a => (a.got.get 0 0x100001, a.got.get 0 0x100002, a.parts.map (·.done)))
        = some (0x33, 0x22, [true, false]) ∧ replies_ t = 0)
    ∧ Took eAcc (lastPart (sAccBack false)) True (fun t => t.hostAccs = [] ∧ replies_ t = 1)
    ∧ Took eAcc (sAccBack true) True (fun t => (t.hostAccs.find? 0).map (·.fault) = some 13) :=
  ⟨took_of_now (by decide +kernel), took_of_now (by decide +kernel), took_of_now (by decide +kernel)⟩
/-- A shootdown waits for a host access that uses a translation of its range (R71). -/
def sAccShot : State := { sAcc false with hostAccs := (sAcc false).hostAccs.map (fun e => (e.1, { e.2 with ctx := some 1 })), agenda := [] }
theorem test_shootdown_hostAccess : Took (.shootdown cmd0 1 0x100000 0x1000) sAccShot (shotAccs sAccShot 1 0x100000 0x1000 = [0])
    (fun t => replies_ t = 0 ∧ t.agenda = [.shootdown cmd0 1 0x100000 0x1000] ∧ t.waitingCmds.map (·.accs) = [[0]]) :=
  took_of_now (by decide +kernel)
theorem test_assignNodeId : Gave (.assignNodeId cmd0 7) (sHost true) (fun t => t.nodeId = some 7 ∧ t.agenda.take 64 = (List.range 64).map .fraukLinkUp)
    ∧ Gave (.assignNodeId cmd0 8) { sHost true with nodeId := some 7, streams := [(2, { seen := [0] })] }
      (fun t => t.nodeId = some 8 ∧ (t.stream 2).seen = []) := ⟨took_of_now (by decide +kernel), took_of_now (by decide +kernel)⟩
theorem test_writeRouteTable : Gave (.writeRouteTable cmd0 3 2 0x5) (sHost true) (fun t => (t.die 3).routes.get 0 2 = 5)
    ∧ Gave (.writeRouteTable cmd0 4 2 0x5) (sHost true) (fun t => (t.die 4).routes.get 0 2 = 0) :=
  ⟨took_of_now (by decide +kernel), took_of_now (by decide +kernel)⟩
theorem test_writeExport : Gave (.writeExport cmd0 9 0x15 2 0x10000 0x20000) (sHost true) (fun t =>
      t.exports.find? 9 = some ⟨false, 2, 0x10000, 0x20000, true, false, true⟩)
    ∧ Gave (.writeExport cmd0 9 0x35 2 0x10000 0x20000) (sHost true) (fun t => t.exports = [])
    ∧ Gave (.writeExport cmd0 9 0x14 2 0x10000 0x20000) { sHost true with exports := [(9, {})] } (fun t => t.exports = []) :=
  ⟨took_of_now (by decide +kernel), took_of_now (by decide +kernel), took_of_now (by decide +kernel)⟩
theorem test_streamReset :
    Took (.streamReset cmd0 2) { sHost true with nodeId := some 7, streams := [(2, { used := true, seen := [0] })] } True
      (fun t => replies_ t = 0 ∧ (t.stream 2).seen = [] ∧ t.agenda = [.fabricRetransmitTimeout 2 (2 ^ 24)]
        ∧ t.waitingCmds.map (fun w => (w.opc, w.node)) = [(0x53, 2)])
    ∧ Gave (.streamReset cmd0 2) (sHost true) (fun t => t.waitingCmds = []) := ⟨took_of_now (by decide +kernel), took_of_now (by decide +kernel)⟩
theorem test_readForeignKickCounters : Gave (.readForeignKickCounters cmd0) (sHost true) (fun t => t.agenda = [.dataRetransmitTimeout 1 2 0]) :=
  took_of_now (by decide +kernel)

/-! ### The host link: HostLink (R365, R366, R370 to R372)

The answers of the ciphers are free values: of the clauses whose premise is such an answer, the last two theorems show
that nothing else stands against them. -/

def dg (type : Nat) (body : List Byte) : Datagram := emptyDatagram 9 type 0 0 body
def received_ (d : Datagram) (s : State) : State := { s with rxDatagrams := [d] }
/-! A frame: the port's address in front, its check sequence behind, and between them a station's address, IPv6 and UDP, the
UDP checksum worked out by hand (the sum of the words of the pseudo-header and the datagram is FFFF). -/
def frameMiddle : List Byte :=
  [2, 0, 0, 0, 0, 7, 0x86, 0xDD, 0x60, 0, 0, 0, 0, 40, 17, 64] ++ (List.replicate 15 0 ++ [9]) ++ (List.replicate 15 0 ++ [5])
    ++ [0x13, 0x88, 0xB8, 0x88, 0, 40, 0x32, 0x7F] ++ ([1, 1] ++ List.replicate 30 0)
def macAt (k : Nat) : Byte := Config.portMac.extractLsb' (8 * k) 8
def frameHead : List Byte := [macAt 5, macAt 4, macAt 3, macAt 2, macAt 1, macAt 0]
theorem frameHead_mac : beNat frameHead = Config.portMac.toNat := by
  have := Config.portMac.isLt
  simp only [frameHead, macAt, beNat, List.foldl_cons, List.foldl_nil, BitVec.extractLsb'_toNat, Nat.shiftRight_eq_div_pow]
  omega
def arrival5 : Arrival :=
  { peer := { mac := [2, 0, 0, 0, 0, 7], tag := none, addr := List.replicate 15 0 ++ [9], port := 5000, here := List.replicate 15 0 ++ [5] }
    payload := [1, 1] ++ List.replicate 30 0 }
theorem own_dst (s : State) (h : s.ownAddress (List.replicate 15 0 ++ [5]) = true) :
    s.ownAddress (slice (frameMiddle.drop 8) 24 16) = true := h
/-- Whatever the port's address is, its frame is accepted if the check sequence is right. -/
theorem frame_accepted (s : State) (m5 m4 m3 m2 m1 m0 f0 f1 f2 f3 : Byte) (hs : s.globalAddr = some (List.replicate 15 0 ++ [5]))
    (hm : beNat [m5, m4, m3, m2, m1, m0] = Config.portMac.toNat)
    (hf : fcs ([m5, m4, m3, m2, m1, m0] ++ frameMiddle) = [f0, f1, f2, f3]) :
    acceptFrame s ([m5, m4, m3, m2, m1, m0] ++ frameMiddle ++ [f0, f1, f2, f3]) = some arrival5 := by
  have own : s.ownAddress (List.replicate 15 0 ++ [5]) = true := by
    simp only [State.ownAddress, hs, decide_true, Bool.or_true]
  have h1 : slice ([m5, m4, m3, m2, m1, m0] ++ frameMiddle ++ [f0, f1, f2, f3]) 12 2 = [0x86, 0xDD] := rfl
  have h2 : ([m5, m4, m3, m2, m1, m0] ++ frameMiddle ++ [f0, f1, f2, f3]).drop 12 = frameMiddle.drop 6 ++ [f0, f1, f2, f3] := rfl
  have h3 : ([m5, m4, m3, m2, m1, m0] ++ frameMiddle ++ [f0, f1, f2, f3]).take (98 - 4) = [m5, m4, m3, m2, m1, m0] ++ frameMiddle := rfl
  have h4 : ([m5, m4, m3, m2, m1, m0] ++ frameMiddle ++ [f0, f1, f2, f3]).drop (98 - 4) = [f0, f1, f2, f3] := rfl
  have h5 : ([m5, m4, m3, m2, m1, m0] ++ frameMiddle ++ [f0, f1, f2, f3]).take 6 = [m5, m4, m3, m2, m1, m0] := rfl
  have h6 : ([m5, m4, m3, m2, m1, m0] ++ frameMiddle ++ [f0, f1, f2, f3]).length = 98 := rfl
  have h7 : slice ([m5, m4, m3, m2, m1, m0] ++ frameMiddle ++ [f0, f1, f2, f3]) 6 6 = [2, 0, 0, 0, 0, 7] := rfl
  have h8 : (((frameMiddle.drop 6 ++ [f0, f1, f2, f3]).drop 2).take ((frameMiddle.drop 6 ++ [f0, f1, f2, f3]).length - 6)) = frameMiddle.drop 8 := rfl
  have h9 : (frameMiddle.drop 6 ++ [f0, f1, f2, f3]).take 2 = [0x86, 0xDD] := rfl
  have n1 : ¬ beNat [0x86, 0xDD] = 0x8100 := by decide
  simp only [acceptFrame, h1, if_neg n1, h2, h3, h4, h5, h6, h7, h8, h9, hf, hm, own_dst s own]
  decide +kernel
def frame5 : List Byte := frameHead ++ frameMiddle ++ fcs (frameHead ++ frameMiddle)
/-- The check value of CRC-32: the sequence of the nine bytes "123456789" is CBF43926. -/
theorem test_fcs : fcs [0x31, 0x32, 0x33, 0x34, 0x35, 0x36, 0x37, 0x38, 0x39] = [0x26, 0x39, 0xF4, 0xCB] := by decide +kernel
def sAddr : State := { sE with globalAddr := some (List.replicate 15 0 ++ [5]) }
theorem fcs_four (bs : List Byte) : ∃ f0 f1 f2 f3, fcs bs = [f0, f1, f2, f3] := ⟨_, _, _, _, rfl⟩
theorem test_frame : acceptFrame sAddr frame5 = some arrival5 ∧ 32 ≤ arrival5.payload.length := by
  refine ⟨?_, by decide +kernel⟩
  obtain ⟨f0, f1, f2, f3, h⟩ := fcs_four (frameHead ++ frameMiddle)
  rw [frame5, h]
  exact frame_accepted sAddr _ _ _ _ _ _ f0 f1 f2 f3 (by decide +kernel) frameHead_mac h
theorem takeFrame_accepted {s : State} {fr : List Byte} {a : Arrival} (h : acceptFrame s fr = some a) :
    takeFrame s fr = receive a s := by
  unfold takeFrame
  rw [h]
theorem takeFrame_dropped {s : State} {fr : List Byte} (h : acceptFrame s fr = none) :
    takeFrame s fr = { s with framesDropped := s.framesDropped + 1 } := by
  unfold takeFrame
  rw [h]
theorem frame_other (s : State) {fr : List Byte} (h : beNat ((fr.drop (if beNat (slice fr 12 2) = 0x8100 then 16 else 12)).take 2) ≠ 0x86DD) :
    acceptFrame s fr = none := by
  simp only [acceptFrame, decide_eq_false h, Bool.and_false, Bool.false_and]
  rfl
theorem test_frame_datagram : (takeFrame sAddr frame5).rxDatagrams.map (fun d => (d.ver, d.type, d.src, d.body)) = [(1, 1, 9 * 65536 + 5000, [])]
    ∧ (takeFrame sAddr frame5).dropped = 0 := by
  rw [takeFrame_accepted test_frame.1]
  decide +kernel
/-- One that is no IPv6 packet is counted, and nothing else. -/
theorem test_frame_dropped (s : State) : takeFrame s (List.replicate 64 0) = { s with framesDropped := s.framesDropped + 1 } :=
  takeFrame_dropped (frame_other s (by decide +kernel))
theorem test_gctHello :
    Took .gctHello (received_ (dg 1 (List.replicate 40 0)) sE) (headerOk (dg 1 (List.replicate 40 0)) false = true)
      (fun t => (t.hellos.find? 9).map (fun h => (h.keyIndex, h.number)) = some (0, 1) ∧ replies_ t = 1 ∧ t.rxDatagrams = []
        ∧ t.agenda = [.helloForgetTimeout 9])
    ∧ Took .gctHello (received_ (dg 1 (List.replicate 39 0)) sE) True (fun t => t.hellos = [] ∧ t.dropped = 1 ∧ replies_ t = 0)
    ∧ Took .gctHello (received_ (dg 1 (List.replicate 32 0 ++ [8] ++ List.replicate 7 0)) sE) True (fun t => t.hellos = [] ∧ t.dropped = 1) :=
  ⟨took_of_now (by decide +kernel), took_of_now (by decide +kernel), took_of_now (by decide +kernel)⟩
theorem test_helloForgetTimeout : Took (.helloForgetTimeout 9) { sE with hellos := [(9, {}), (10, {})] } True (fun t => t.hellos.map (·.1) = [10]) :=
  took_of_now (by decide +kernel)
theorem test_gctAuth : Took .gctAuth (received_ (dg 3 []) sE) (sE.hellos.find? 9 = none) (fun t => t.dropped = 1 ∧ t.sessions = [])
    ∧ Took .gctAuth (received_ (dg 3 []) { sE with hellos := [(9, {})] }) True (fun t => t.dropped = 1 ∧ t.sessions = []) :=
  ⟨took_of_now (by decide +kernel), took_of_now (by decide +kernel)⟩
theorem test_gctClose : Took .gctClose (received_ (dg 7 []) sE) (openDatagram sE (dg 7 []) = none) (fun t => t.dropped = 1) :=
  took_of_now (by decide +kernel)
theorem test_gctAck : Took .gctAck (received_ (dg 6 []) sE) (openDatagram sE (dg 6 []) = none) (fun t => t.dropped = 1) :=
  took_of_now (by decide +kernel)
theorem test_gctData : Took .gctData (received_ (dg 5 []) sE) True (fun t => t.dropped = 1 ∧ t.rxDatagrams = [])
    ∧ Took .gctData (received_ (dg 2 []) sE) True (fun t => t.dropped = 1)
    ∧ Took .gctData (received_ (dg 1 []) sE) True (fun t => t.dropped = 0 ∧ t.rxDatagrams = [dg 1 []]) :=
  ⟨took_of_now (by decide +kernel), took_of_now (by decide +kernel), took_of_now (by decide +kernel)⟩
theorem test_sessionIdleTimeout : Took (.sessionIdleTimeout 1)
    { (sHost false).modContext 1 (fun c => { c with ringLog := some (4, 1, 0) }) with agenda := [.kick cmd0 1 5 9, .sessionIdleTimeout 1, .teamPlace 0] }
    True (fun t => t.sessions = [] ∧ (t.context 1).sessions = [] ∧ (t.context 1).ringLog = none ∧ t.agenda = [.teamPlace 0]) :=
  took_of_now (by decide +kernel)
theorem test_dataRetransmitTimeout : Took (.dataRetransmitTimeout 1 2 4)
    { sE with sessions := [(1, { streams := [(2, { unacked := [{ dg 5 [] with seq := 3 }, { dg 5 [] with seq := 4 }] })] })] } True
    (fun t => t.txDatagrams.map (·.seq) = [4] ∧ t.agenda = [.dataRetransmitTimeout 1 2 4]) := took_of_now (by decide +kernel)
def dSealed : Datagram := { dg 5 (List.replicate 16 0) with session := 1, len := 0 }
/-- A protected datagram of session 1 opens whenever the cipher opens its body. -/
theorem witness_HostLink_open (b : List Byte)
    (h : Config.gcmOpen [] (gcmNonce 0 0 0) (headerBytes dSealed) (List.replicate 16 0) = some b) :
    openDatagram (received_ dSealed (sHost false)) dSealed = some (1, { src := 9, priv := false }, b) := by
  have h1 : (received_ dSealed (sHost false)).sessions.find? dSealed.session.toNat = some { src := 9, priv := false } := by decide +kernel
  have h2 : headerOk dSealed true = true := by decide +kernel
  simp only [openDatagram, h1, h2]
  exact congrArg (Option.map _) h
/-- An AUTH is accepted whenever its key is enrolled and its signature is right. -/
theorem witness_HostLink_auth (pk : List Byte) (priv : Bool) (h : Hello) (body : List Byte) (hk : Config.hostKey h.keyIndex = some (pk, priv))
    (hv : Config.mldsaVerify pk (sha3_256 (h.body ++ h.reply ++ body.take 1088)) (body.drop 1088) = true) :
    authorised (sHost false) h body = some priv := by
  have hr : (sHost false).recovery = false := by decide +kernel
  simp only [authorised, hk, hr, hv]
  rfl

/-! ### The fabric: FabricSteps (R65, R113, R185, R192, R193, R214, R357 to R363, R377) -/

theorem test_fraukLinkUp : Took (.fraukLinkUp 63) { sE with nodeId := some 7 } True (fun t => (t.ports.get {} 63).up = true)
    ∧ Took (.fraukLinkUp 63) sE True (fun t => t.ports = [])
    ∧ Took (.fraukLinkUp 64) { sE with nodeId := some 7 } True (fun t => t.ports = []) :=
  ⟨took_of_now (by decide +kernel), took_of_now (by decide +kernel), took_of_now (by decide +kernel)⟩
def portWith (p : Port) : State := { sE with ports := [(3, p)] }
def pkt (n : Nat) : Packet := { (default : Packet) with seq := n }
def flit (n : Nat) (ok last : Bool) : Flit := { num := n, ok := ok, last := last, pkt := pkt n }
/-- A wrong flit and all after it go, and a replay is asked for, sixteen times in a row. -/
theorem test_linkReplayRequest :
    Took (.linkReplayRequest 3 9) (portWith { rx := [flit 8 true true, flit 9 false true, flit 10 true true], received := ⟨9, 15⟩ }) True
      (fun t => t.ports.get {} 3 = { rx := [flit 8 true true], received := ⟨9, 16⟩, asks := [9] } ∧ t.agenda = [])
    ∧ Took (.linkReplayRequest 3 9) (portWith { received := ⟨9, 16⟩ }) True (fun t => t.agenda = [.linkReset 3] ∧ (t.ports.get {} 3).asks = [])
    ∧ Took (.linkReplayRequest 3 9) (portWith { received := ⟨8, 16⟩ }) True (fun t => (t.ports.get {} 3).received = ⟨9, 1⟩) :=
  ⟨took_of_now (by decide +kernel), took_of_now (by decide +kernel), took_of_now (by decide +kernel)⟩
theorem test_flitReplay :
    Took (.flitReplay 3 5) (portWith { buffer := [(4, pkt 0), (5, pkt 1), (6, pkt 1), (7, pkt 2)] }) True
      (fun t => t.txPackets.map (fun e => (e.1, e.2.seq)) = [(3, 1), (3, 2)] ∧ (t.ports.get {} 3).sent = ⟨5, 1⟩)
    ∧ Took (.flitReplay 3 5) (portWith { buffer := [(5, pkt 1)], sent := ⟨5, 16⟩ }) True (fun t => t.txPackets = [] ∧ t.agenda = [.linkReset 3]) :=
  ⟨took_of_now (by decide +kernel), took_of_now (by decide +kernel)⟩
theorem test_linkReset : Took (.linkReset 3) (portWith { up := true, buffer := [(4, pkt 0)], sent := ⟨4, 17⟩, nextFlit := 5, asks := [4] }) True
    (fun t => t.ports.get {} 3 = { asks := [4] } ∧ t.agenda = [.fraukLinkUp 3]) := took_of_now (by decide +kernel)
/-- Flits go upward in order and once: a repeated one is passed over, and one whose CRC is wrong stays for its replay. -/
theorem test_upward : ({} : Port).upward 8 [flit 8 true true, flit 8 true true, flit 9 true true, flit 10 false true]
    = ([pkt 8, pkt 9], { rx := [flit 10 false true], rxNext := 10 }) := by decide
def sUnacked (n seq : Nat) : State :=
  { withOne { oLoad with parts := [{ part5 with rem := some 2 }] } sE with
    nodeId := some 7, streams := [(2, { used := true, seen := [8], unacked := [⟨seq, 0, pkt seq, 0, 0, n⟩] })] }
theorem test_fabricRetransmitTimeout :
    Took (.fabricRetransmitTimeout 2 0) (sUnacked 7 0) True
      (fun t => (t.stream 2).unacked.map (·.retries) = [8] ∧ t.agenda = [.fabricRetransmitTimeout 2 0] ∧ t.txPackets = [])
    ∧ Took (.fabricRetransmitTimeout 2 0) (sUnacked 8 0) (oLoad.kind ≠ .copy)
      (fun t => (opOf t 0).code = 6 ∧ (partOf t 0 0).done = true ∧ (t.stream 2).unacked = [] ∧ (t.stream 2).seen = [8]) :=
  ⟨took_of_now (by decide +kernel), took_of_now (by decide +kernel)⟩
/-- The retransmission leaves by the sending die's entry: port 3 of die 1, the only one of its mask. -/
def sRouted : State :=
  let s := sUnacked 0 0
  { s with
    dies := s.dies.set 1 { s.die 1 with routes := [(2, 8)] }, ports := [(19, { up := true })]
    streams := [(2, { used := true, unacked := [{ op := 0, part := 0, pkt := pkt 0, die := 1 }] })] }
theorem routePort_one (s : State) (die line p : Nat) (mask : BitVec 16)
    (h : (List.range 16).filter (fun i => mask.getLsbD i && (s.ports.get {} (16 * die + i)).up) = [p]) :
    routePort s die mask line = some (16 * die + p) := by
  simp [routePort, h, Nat.mod_one]
theorem test_retransmit_route : routePort sRouted 1 ((sRouted.die 1).routes.get 0 2) 0 = some 19 :=
  routePort_one sRouted 1 0 3 _ (by decide +kernel)
def oFar (o : Op) : Op := { o with parts := [{ part5 with rem := some 2 }], lanes := o.lanes.map (fun a => { a with rem := some 2 }) }
/-- A store that the break leaves without a reply is listed with its lanes (R193). -/
theorem test_indeterminate : Took (.fabricRetransmitTimeout 2 0)
    { sUnacked 8 0 with ops := [(0, oFar { oStore with instr := .st (mf 0 0 0 0 0) })] } True
    (fun t => (warpNow t).indet.map (fun x => (x.node, x.lane, x.pa)) = [(2, 0, 0x100000), (2, 1, 0x100002)]) := took_of_now (by decide +kernel)
def sRx (p : Packet) : State :=
  unmapped { bytesAt 0x100000 4 5 { sE with secret := 0 } with
    nodeId := some 7, rxPackets := [(3, { p with src := 2 })], exports := [(0, ⟨true, 0, 0, 0x110000, true, true, true⟩)]
    streams := [(2, { inEpoch := some 0 })] }
/-- The home slice of the packets' line. -/
def rh : Nat := (remoteHome 0x100000 0).toOption.getD 0
def rq (k : PacketKind) : Packet := { (default : Packet) with kind := k, seq := 4, addr := 0x100000, count := 128 }
def sRq (p : Packet) : State := lineAt rh 0x2000 { state := .cln } (sRx p)
def rstop : Stop := ⟨rh, 0x2000, 1⟩
/-- The request of die 0's ingress stands at the line's home slice, or its reply is back. -/
def sRqAt (e : Instr) (st : Stage) (p : Packet) : State := tripAt e (.ingress 0) rstop st (sRq p)
def told_ (t : State) : List (PacketKind × Nat × Nat) := t.txPackets.map (fun e => (e.2.kind, e.2.code, e.2.fault))
/-- The reply that goes back to the ingress. -/
def back_ (t : State) : Option (PacketKind × Nat × Nat) := if stages t = [.back] then t.replyPacket.map (fun r => (r.kind, r.code, r.fault)) else none
theorem test_fabricRead :
    Took .fabricRead (sRqAt .fabricRead .there (rq .read)) (comesNow (sRqAt .fabricRead .there (rq .read)) .fabricRead (.ingress 0) [rstop] = true
        ∧ servedNow (sRqAt .fabricRead .there (rq .read)) rh 0x2000 true .fabricRead = true)
      (fun t => back_ t = some (.readReply, 0, 0) ∧ t.replyPacket.map (·.data) = some 5 ∧ t.rxPackets.length = 1 ∧ t.txPackets = [])
    ∧ Took .fabricRead { sRqAt .fabricRead .done (rq .read) with replyPacket := some (pkt 4) }
      (allBack ((sRqAt .fabricRead .done (rq .read)).tripsOf .fabricRead) [rstop] = true)
      (fun t => t.txPackets.map (·.1) = [3] ∧ t.rxPackets = [] ∧ (t.stream 2).seen = [4] ∧ t.replyPacket = none)
    ∧ Took .fabricRead (sRq (rq .read)) (leavesNow (sRq (rq .read)) .fabricRead (.ingress 0) [rstop] rstop = true) (fun t => stages t = [.going])
    ∧ Took .fabricRead { sRq (rq .read) with exports := [] } True (fun t => told_ t = [(.ack, 0, tRemote)])
    ∧ Took .fabricRead { sRq (rq .read) with exports := [(0, ⟨true, 0, 0, 0x10007F, true, true, true⟩)] } True
      (fun t => told_ t = [(.ack, 0, tRemote)]) :=
  ⟨took_of_now (by decide +kernel), took_of_now (by decide +kernel), took_of_now (by decide +kernel), took_of_now (by decide +kernel),
    took_of_now (by decide +kernel)⟩
theorem test_fabric_refused :
    Took .fabricRead { sRx { rq .read with addr := 0x40000000000 } with exports := [(0, ⟨true, 0, 0, 2 ^ 48, true, true, true⟩)] } True
      (fun t => told_ t = [(.ack, 0, tHole)])
    ∧ Took .fabricRead (sRq { rq .read with home := 2 }) True (fun t => told_ t = [(.ack, 0, tHomeMismatch)])
    ∧ Took .fabricRead ((sRqAt .fabricRead .there { rq .read with checked := true }).modSlice rh (fun x => { x with sync := [⟨5, 0, 0x2000⟩] })) True
      (fun t => back_ t = some (.ack, 0, tScope))
    ∧ Took .fabricRead { sRqAt .fabricRead .there (rq .read) with poison := [0x2000] } True (fun t => back_ t = some (.ack, 0, tMemory)) :=
  ⟨took_of_now (by decide +kernel), took_of_now (by decide +kernel), took_of_now (by decide +kernel), took_of_now (by decide +kernel)⟩
/-- A duplicate is answered from the cache, and nothing else happens; one of a numbering that has ended gets no reply; the first
of a new numbering makes the old one forgotten. -/
theorem test_fabric_duplicate :
    Took .fabricWrite { sRq { rq .write with bmask := 1 } with streams := [(2, { seen := [4], replies := [{ pkt 4 with code := 3 }], inEpoch := some 0 })] } True
      (fun t => t.txPackets.map (·.2.code) = [3] ∧ t.mem.byte 0x100000 = 5)
    ∧ Took .fabricWrite { sRq { rq .write with bmask := 1 } with streams := [(2, { inEpoch := some 1 })] } True (fun t => t.rxPackets = [] ∧ t.txPackets = [])
    ∧ Took .fabricWrite { sRq { rq .write with bmask := 1, epoch := 1 } with streams := [(2, { seen := [4], inEpoch := some 0 })] } True
      (fun t => (t.stream 2).inEpoch = some 1 ∧ (t.stream 2).seen = [] ∧ stages t = [.going]) :=
  ⟨took_of_now (by decide +kernel), took_of_now (by decide +kernel), took_of_now (by decide +kernel)⟩
theorem test_fabricWrite : Took .fabricWrite (sRqAt .fabricWrite .there { rq .write with bmask := 0x6, data := 0xCCBBAA }) True
    (fun t => t.mem.nat 0x100000 4 = 0x00CCBB05 ∧ t.tags.get 0 0x2000 = 1 ∧ back_ t = some (.ack, 0, 0)
      ∧ t.replyPacket.map (·.linetag) = some 1) := took_of_now (by decide +kernel)
theorem test_fabricAtomic : Took .fabricAtomic (sRqAt .fabricAtomic .there { rq .atomic with fn := 1, ty := 1, lanes := [⟨0, 0, 10, 0⟩, ⟨4, 0, 20, 0⟩] }) True
      (fun t => t.mem.nat 0x100000 4 = 35
        ∧ t.replyPacket.map (fun r => (r.kind, r.linetag, r.lanes.map (fun l => (l.lane, l.b)))) = some (.atomicReply, 1, [(0, 5), (4, 15)]))
    ∧ Took .fabricAtomic (sRqAt .fabricAtomic .there { rq .atomic with fn := 1, ty := 1, red := true, lanes := [⟨0, 0, 10, 0⟩] }) True
      (fun t => t.mem.nat 0x100000 4 = 15 ∧ back_ t = some (.ack, 0, 0)) := ⟨took_of_now (by decide +kernel), took_of_now (by decide +kernel)⟩
def rwp (k : PacketKind) : Packet := { rq k with sig := sig, width := 32, lmask := 0x21, values := [7, 9], scope := 4 }
def astop : Stop := ⟨anchorSlice sig, sigBase sig / 128, 128⟩
/-- The packet of a locket has gone from the ingress to the anchor slice, where the lines of its block stand. -/
def sLk (e : Instr) (st : Stage) (p : Packet) : State := tripAt e (.ingress 0) astop st (areaIn [4, 5, 64] (sRx p))
theorem test_fabricRwrite :
    Took .fabricRwrite (sLk .fabricRwrite .there (rwp .rwrite)) (exported (sLk .fabricRwrite .there (rwp .rwrite)) 2 (sigAddr sig) 128 (·.a) = true
        ∧ comesNow (sLk .fabricRwrite .there (rwp .rwrite)) .fabricRwrite (.ingress 0) [astop] = true
        ∧ servedAllNow (sLk .fabricRwrite .there (rwp .rwrite)) [(slot5, 0x440), (slot5, 0x404), (slot5, 0x405)] .fabricRwrite = true)
      (fun t => t.mem.nat 0x20200 4 = 7 ∧ t.mem.nat 0x20214 4 = 9 ∧ back_ t = some (.ack, 0, 0))
    ∧ Took .fabricRwrite { sRx (rwp .rwrite) with exports := [] } True (fun t => told_ t = [(.ack, 0, tRemote)] ∧ t.mem.nat 0x20200 4 = 0)
    ∧ Took .fabricRwrite { sLk .fabricRwrite .there (rwp .rwrite) with poison := [0x440] } True (fun t => back_ t = some (.ack, 0, tMemory))
    ∧ Took .fabricRwrite { sLk .fabricRwrite .done (rwp .rwrite) with replyPacket := some (pkt 4) } True
      (fun t => t.txPackets.map (·.1) = [3] ∧ t.rxPackets = []) :=
  ⟨took_of_now (by decide +kernel), took_of_now (by decide +kernel), took_of_now (by decide +kernel), took_of_now (by decide +kernel)⟩
/-- A token from another node needs the scope SYS (R113). -/
theorem test_fabricToken : Took .fabricToken (sLk .fabricToken .there { rwp .token with scope := 3 }) True
    (fun t => t.mem.nat 0x20200 4 = 0 ∧ back_ t = some (.ack, 5, 0)) := took_of_now (by decide +kernel)
def sKicked (ctx : Nat) : State := queueWith 1 3 { ctx := 1, state := 1, kick := 3 } (sRx { rq .kick with die := 1, slot := 3, tail := 8, ctx := ctx })
theorem test_fabricKick : Took .fabricKick (sKicked 1) True (fun t => (t.queue 1 3).kick = 8 ∧ t.agenda = [.queueCommandPull 1 3] ∧ told_ t = [(.ack, 0, 0)])
    ∧ Took .fabricKick (sKicked 2) True (fun t => (t.queue 1 3).kick = 3 ∧ (t.die 1).foreignKicks = 1) :=
  ⟨took_of_now (by decide +kernel), took_of_now (by decide +kernel)⟩
def sReply (o : Op) (r : Packet) : State :=
  { withOne o sE with
    nodeId := some 7, streams := [(2, { used := true, unacked := [⟨4, 0, pkt 4, 0, 0, 0⟩] })], rxPackets := [(3, { r with src := 2, seq := 4 })]
    agenda := [.fabricRetransmitTimeout 2 4] }
theorem test_fabricReplyArrival :
    Took .fabricReplyArrival (sReply (oFar oLoad) { pkt 4 with kind := .readReply, data := 0x77 }) True
      (fun t => (partOf t 0 0).ldata = 0x77 ∧ (partOf t 0 0).done = true ∧ t.agenda = [.replyArrival ⟨0, 0⟩] ∧ (t.stream 2).unacked = [])
    ∧ Took .fabricReplyArrival (sReply (oFar oAtom) { pkt 4 with kind := .atomicReply, linetag := 6, lanes := [⟨3, 0, 100, 0⟩, ⟨7, 0, 105, 0⟩] }) True
      (fun t => (opOf t 0).data.get 0 24 = 100 ∧ (opOf t 0).data.get 0 56 = 105 ∧ (partOf t 0 0).tag = 6)
    ∧ Took .fabricReplyArrival (sReply { oFar oStore with kind := .storeT } { pkt 4 with kind := .ack, linetag := 9 }) True
      (fun t => (partOf t 0 0).tag = 9 ∧ (partOf t 0 0).done = true)
    ∧ Took .fabricReplyArrival (sReply (oFar oLoad) { pkt 4 with kind := .ack, fault := tHole }) True
      (fun t => (opOf t 0).fault.map (fun x => (x.cls, x.code, x.addr, x.lmask)) = some (3, tHole, 0x100000, 1))
    ∧ Took .fabricReplyArrival (sReply { oFar oRwr with kind := .rwr } { pkt 4 with kind := .ack, code := 3 }) True
      (fun t => (opOf t 0).code = 3) :=
  ⟨took_of_now (by decide +kernel), took_of_now (by decide +kernel), took_of_now (by decide +kernel), took_of_now (by decide +kernel), took_of_now (by decide +kernel)⟩
theorem test_fabricStreamResetReceived : Took .fabricStreamResetReceived { sUnacked 0 0 with rxPackets := [(3, { rq .streamReset with src := 2 })] } True
    (fun t => (t.stream 2).seen = [] ∧ (t.stream 2).unacked = [] ∧ (opOf t 0).code = 6 ∧ told_ t = [(.streamResetAck, 0, 0)]) :=
  took_of_now (by decide +kernel)
def sResetWait (k : PacketKind) : State :=
  { sHost true with nodeId := some 7, streams := [(2, { used := true, seen := [1] })], rxPackets := [(3, { rq k with src := 2 })]
                    waitingCmds := [{ cmd := cmd0, opc := 0x53, node := 2 }] }
theorem test_streamResetAck : Took .streamResetAck (sResetWait .streamResetAck) True (fun t => replies_ t = 1 ∧ t.waitingCmds = [] ∧ t.rxPackets = []) :=
  took_of_now (by decide +kernel)
theorem test_targetPackageReset : Took .targetPackageReset (sResetWait .resetNotice) True
    (fun t => (t.stream 2).seen = [] ∧ t.rxPackets = []) := took_of_now (by decide +kernel)

/-! ### Reset and power: ResetState (R416 to R418, R420) -/

/-- Without an image the package starts in recovery; its registers are at their reset values. -/
theorem test_packageReset : Took .packageReset { sE with stored := none } True
    (fun t => t.recovery = true ∧ t.teams = [] ∧ t.mem = [] ∧ t.boots = 1 ∧ t.clock = 0) := took_of_now (by decide +kernel)
theorem test_thermalTrip : Took .thermalTrip sE True (fun t => t.stopped = true ∧ t.teams = [] ∧ t.mem = []) := took_of_now (by decide +kernel)
theorem test_thermalThrottle : Took (.thermalThrottle 1) sE True (fun t => (t.core 16).throttled = true ∧ (t.core 31).throttled = true
    ∧ (t.core 32).throttled = false ∧ (t.core 15).throttled = false) := took_of_now (by decide +kernel)

end Sys2Proof.Machine
end

namespace Sys2Proof.Machine

/-! ## Traps (R24, R382, R383, R393) -/

/-- A team that a trap has halted, its split 0 of warp 0 at an instruction, whose image of an earlier save still counts as
saved. Its primary trap has not been noted. -/
def savedRaisedTeam : Team :=
  { status := .raised, saved := true, warps := [(0, { splits := [(0, {})] })] }

def savedRaisedState : State := { teams := [(0, savedRaisedTeam)] }

theorem savedRaisedState_inv : savedRaisedState.Inv := ⟨rfl, by simp [savedRaisedState]⟩

/-- In that team raiseTrap goes by the image's mark and not by the status: the trap is not noted. -/
theorem savedRaisedState_trap :
    ((raiseTrap ⟨0, 0, 0⟩ {} savedRaisedState).team? 0).map (fun x => (x.halt, x.haltAt)) = some (none, 0) := rfl

/-- Refutes O58: in a team that has been raised while it counts as saved a later trap is dropped, though the statement, which
asks for the image's mark only of a team that is being saved, has it become the primary trap. -/
theorem not_trapEntry : ¬ Obligations.TrapEntry := by
  unfold Obligations.TrapEntry
  intro h
  obtain ⟨-, -, -, -, -, -, -, -, -, later, -⟩ :=
    h savedRaisedState ⟨0, 0, 0⟩ {} savedRaisedTeam {} { splits := [(0, {})] } savedRaisedState_inv rfl rfl rfl
  obtain ⟨-, noted, -⟩ := later (.inl rfl)
  have halts := noted rfl
  rw [savedRaisedState_trap] at halts
  simp at halts

end Sys2Proof.Machine

namespace Sys2Proof.Machine

/-! ## Instructions that issue: what they come to -/

/-- The machine goes on with a next state. -/
def Goes (o : Out) : Prop := ∃ t, o = .next t

/-- The machine gives the instruction a meaning. -/
def Accepts (o : Out) : Prop := ∀ r, o ≠ .refused r

theorem goes_next {t : State} : Goes (.next t) := ⟨t, rfl⟩

theorem goes_ite {p : Prop} [Decidable p] {a b : Out} (ha : Goes a) (hb : Goes b) : Goes (if p then a else b) := by
  split
  · exact ha
  · exact hb

theorem Goes.accepts {o : Out} (h : Goes o) : Accepts o := by
  obtain ⟨t, rfl⟩ := h
  intro r hr
  cases hr

/-- An instruction word goes on where a split issues; where none does, the shared gate stops it with its fault. -/
def Ends (s : State) (o : Out) : Prop := Goes o ∨ s.cur.bind s.cxOf = none ∧ o = .fault .noIssuingSplit

theorem Ends.goes {s : State} {o : Out} {c : Cx} (h : Ends s o) (hc : s.issuing c) : Goes o := by
  obtain h | ⟨h, -⟩ := h
  · exact h
  · simp [hc.1, hc.2] at h

theorem Ends.accepts {s : State} {o : Out} (h : Ends s o) : Accepts o := by
  obtain h | ⟨-, rfl⟩ := h
  · exact h.accepts
  · intro r hr
    cases hr

/-! ### The shared gate and the shared operations -/

section
variable {c : Cx} {m : Mask} {s : State}

theorem gatedOr_ends {need : Cx → Need} {skip : Cx → State → Out} {body : Cx → Mask → State → Out}
    (hskip : ∀ c s, Goes (skip c s)) (hbody : ∀ c m s, Goes (body c m s)) : Ends s (gatedOr need s skip body) := by
  unfold gatedOr
  split
  next h => exact .inr ⟨h, rfl⟩
  next c _ =>
    left
    split
    · exact goes_next
    · exact goes_next
    · exact hskip c s
    · exact hbody c _ s

theorem run_ends {i : Instr} {body : Cx → Mask → State → Out} (hbody : ∀ c m s, Goes (body c m s)) : Ends s (run i s body) :=
  gatedOr_ends (fun _ _ => goes_next) hbody

theorem runBranch_ends {i : Instr} {body : Cx → Mask → State → Out} (hbody : ∀ c m s, Goes (body c m s)) :
    Ends s (runBranch i s body) :=
  gatedOr_ends (fun c s => hbody c 0 s) hbody

theorem matrixRun_ends {i : Instr} {body : Cx → Mask → State → Out} (hbody : ∀ c m s, Goes (body c m s)) :
    Ends s (matrixRun i s body) :=
  run_ends fun c m s => goes_ite goes_next (hbody c m s)

theorem withPages_goes {vas : List Dword} {k : State → Out} (hk : ∀ s, Goes (k s)) : Goes (withPages c vas s k) := by
  unfold withPages
  split
  · exact hk s
  · exact goes_next

theorem launchLanes_goes {o : Op} {cls : List Nat} {rs : List (Nat × Dword × Phys)} : Goes (launchLanes c o cls rs s) :=
  goes_next

theorem matrixIssue_goes {o : Op} {cls : List Nat} {ev : Nat → Instr} : Goes (matrixIssue c o cls ev s) :=
  goes_ite goes_next goes_next

/-- The operation's row of R44 says where it reads its operand B. -/
theorem withB_goes {op : Nat} {f : VF} {k : (Nat → Nat) → State → Out} (hop : (vSpec op).isSome = true)
    (hk : ∀ b s, Goes (k b s)) : Goes (withB op f c m s k) := by
  obtain ⟨sp, hsp⟩ := Option.isSome_iff_exists.mp hop
  unfold withB
  rw [hsp]
  dsimp only
  split
  · exact withPages_goes fun s => goes_next
  · exact goes_next
  · exact hk _ s

theorem vRun_ends {i : Instr} {op : Nat} {f : VF} {k : Cx → Mask → (Nat → Nat) → State → Out} (hop : (vSpec op).isSome = true)
    (hk : ∀ c m b s, Goes (k c m b s)) : Ends s (vRun i op f s k) :=
  run_ends fun c m _ => withB_goes hop (hk c m)

theorem vMap_ends {i : Instr} {op : Nat} {f : VF} {sgn : Bool} {r : Cx → Nat → Nat → Nat → Nat} (hop : (vSpec op).isSome = true) :
    Ends s (vMap i op f sgn s r) :=
  vRun_ends hop fun _ _ _ _ => goes_next

theorem vInt_ends {i : Instr} {op : Nat} {f : VF} {g : Nat → Int → Int → Int → Int} (hop : (vSpec op).isSome = true) :
    Ends s (vInt i op f s g) :=
  vMap_ends hop

theorem vFlt_ends {i : Instr} {op : Nat} {f : VF} {g : Fmt → Nat → Bool → FV → FV → FV → Nat} (hop : (vSpec op).isSome = true) :
    Ends s (vFlt i op f s g) :=
  vMap_ends hop

theorem vBits_ends {i : Instr} {op : Nat} {f : VF} {g : Fmt → Bool → Nat → Nat → Nat} (hop : (vSpec op).isSome = true) :
    Ends s (vBits i op f s g) :=
  vMap_ends hop

theorem carryOp_ends {i : Instr} {op : Nat} {f : VF} {g : Nat → Nat → Nat → Nat → Nat × Bool} (hop : (vSpec op).isSome = true) :
    Ends s (carryOp i op f s g) :=
  run_ends fun _ _ _ => goes_ite goes_next (withB_goes hop fun _ _ => goes_next)

/-! ### Memory operations -/

theorem loadGlobal_goes {o : Op} {ls : List (Nat × Dword)} : Goes (loadGlobal c o ls s) :=
  withPages_goes fun s => by
    split
    · exact goes_next
    · exact launchLanes_goes

theorem loadOp_ends {i : Instr} {f : MF} {u : Bool} : Ends s (loadOp i f u s) :=
  run_ends fun c m s => by
    dsimp only
    split
    · exact loadGlobal_goes
    · split
      · exact goes_next
      · exact goes_next

theorem storeGlobal_goes {o : Op} {align : Nat} {ls : List (Nat × Dword × Dword × Dword)} :
    Goes (storeGlobal c o align ls s) :=
  withPages_goes fun s => by
    split
    · exact goes_next
    · exact launchLanes_goes

theorem storeOp_ends {i : Instr} {f : MF} {t : Bool} : Ends s (storeOp i f t s) :=
  run_ends fun c m s => by
    dsimp only
    split
    · exact storeGlobal_goes
    · split
      · exact goes_next
      · exact goes_next

theorem atomOp_ends {i : Instr} {f : MF} {cas tagForm : Bool} : Ends s (atomOp i f cas tagForm s) :=
  run_ends fun c m s => withPages_goes fun s => by
    split
    · exact goes_next
    · exact launchLanes_goes

theorem execRed_ends {f : MF} : Ends s (execRed f s) :=
  run_ends fun c m s => withPages_goes fun s => by
    split
    · exact goes_next
    · exact launchLanes_goes

theorem copyIssue_ends {i : Instr} {f : MF} {n : Nat} {cls : List Nat} : Ends s (copyIssue i f n cls s) :=
  run_ends fun _ _ _ => goes_ite goes_next (goes_ite goes_next goes_next)

theorem queueIssue_ends {i : Instr} {f : MF} {mk : Cx → Op} {cls : List Nat} : Ends s (queueIssue i f mk cls s) :=
  run_ends fun c m s => goes_ite goes_next (withPages_goes fun s => by
    split
    · exact goes_next
    · exact goes_ite goes_next goes_next)

theorem execMint_ends {f : MF} : Ends s (execMint f s) :=
  run_ends fun c m s => withPages_goes fun s => by
    split
    · exact goes_next
    · exact goes_next

theorem emptyOp_goes {i : Instr} {n : Nat} : Goes (emptyOp i c n s) := goes_ite goes_next goes_next

/-! ### Control flow, the matrix unit, events -/

theorem branchTo_goes {taken : Mask} {t : Taken} : Goes (branchTo c taken t s) := by
  refine goes_ite goes_next (goes_ite goes_next ?_)
  split
  · exact goes_next
  · exact goes_ite goes_next goes_next

theorem withTarget_goes {f : CF} {k : BitVec 32 → Out} (hk : ∀ t, Goes (k t)) : Goes (withTarget c f m s k) :=
  goes_ite goes_next (hk _)

theorem withRoom_goes {base top : Nat} {k : State → Out} (hk : ∀ s, Goes (k s)) : Goes (withRoom c base top s k) :=
  goes_ite (hk _) goes_next

theorem callTo_goes {f : CF} {target : BitVec 32} {back : Bool} : Goes (callTo c f m target back s) :=
  goes_ite branchTo_goes (goes_ite goes_next (goes_ite goes_next (goes_ite goes_next
    (withRoom_goes fun _ => goes_ite goes_next branchTo_goes))))

theorem execRet_ends {f : CF} : Ends s (execRet f s) :=
  runBranch_ends fun _ _ _ => goes_ite branchTo_goes (goes_ite goes_next (goes_ite goes_next (goes_ite goes_next branchTo_goes)))

theorem execWaitm_ends {f : CF} : Ends s (execWaitm f s) :=
  run_ends fun c m s => goes_ite goes_next (withPages_goes fun s => by
    split
    · exact goes_next
    · exact goes_ite goes_next goes_next)

theorem execYield_ends {f : CF} : Ends s (execYield f s) :=
  run_ends fun c m s => goes_ite goes_next (by
    split
    · exact goes_next
    · exact goes_next)

theorem execAccld_ends {f : MF} : Ends s (execAccld f s) :=
  matrixRun_ends fun c m s => goes_ite goes_next (goes_ite goes_next (goes_ite
    (withPages_goes fun s => by
      split
      · exact goes_next
      · exact matrixIssue_goes)
    (goes_ite goes_next matrixIssue_goes)))

theorem execMma_ends {f : XF} : Ends s (execMma f s) :=
  matrixRun_ends fun c m s => goes_ite goes_next (goes_ite goes_next (goes_ite goes_next (goes_ite goes_next (goes_ite goes_next
    (goes_ite goes_next (by
      split
      · exact goes_next
      · exact goes_ite goes_next matrixIssue_goes))))))

theorem execDrain_ends {f : MF} : Ends s (execDrain f s) :=
  matrixRun_ends fun c m s => goes_ite goes_next (withPages_goes fun s => by
    split
    · exact goes_next
    · exact goes_next
    · exact matrixIssue_goes)

theorem barrierWait_goes {k : Nat} {sync : Bool} : Goes (barrierWait c k sync s) := by
  unfold barrierWait
  dsimp only
  split
  · exact goes_ite goes_next goes_next
  · exact goes_next

theorem withRefinable_goes {f : MF} {k : Nat → State → Out} (hk : ∀ e s, Goes (k e s)) : Goes (withRefinable c f s k) :=
  goes_ite goes_next (goes_ite goes_next (hk _ s))

theorem pubvOp_ends {i : Instr} {f : MF} {final : Bool} : Ends s (pubvOp i f final s) :=
  run_ends fun _ _ _ => withRefinable_goes fun _ _ => goes_ite goes_next goes_next

theorem vchkOp_ends {i : Instr} {f : MF} {x : Bool} : Ends s (vchkOp i f x s) :=
  run_ends fun _ _ _ => withRefinable_goes fun _ _ => goes_next

theorem execWred_ends {f : VF} : Ends s (execWred f s) :=
  run_ends fun c m s => by
    split
    · exact goes_next
    · exact goes_next

theorem execFence_ends {f : MF} : Ends s (execFence f s) :=
  run_ends fun c m s => goes_ite goes_next (by
    dsimp only
    split
    · exact goes_next
    · exact goes_next)

theorem execCsrr_ends {f : MF} : Ends s (execCsrr f s) :=
  run_ends fun c m s => by
    split
    · exact goes_next
    · exact goes_next

/-! ### The instruction words -/

theorem execNop_ends {f : CF} : Ends s (execNop f s) := run_ends fun _ _ _ => goes_next

theorem execBra_ends {f : CF} : Ends s (execBra f s) := runBranch_ends fun _ _ _ => branchTo_goes

theorem execBrx_ends {f : CF} : Ends s (execBrx f s) := runBranch_ends fun _ _ _ => withTarget_goes fun _ => branchTo_goes

theorem execCall_ends {f : CF} : Ends s (execCall f s) := runBranch_ends fun _ _ _ => callTo_goes

theorem execCallx_ends {f : CF} : Ends s (execCallx f s) := runBranch_ends fun _ _ _ => withTarget_goes fun _ => callTo_goes

theorem execEnter_ends {f : CF} : Ends s (execEnter f s) :=
  run_ends fun _ _ _ => goes_ite goes_next (withRoom_goes fun _ => goes_next)

theorem execLeave_ends {f : CF} : Ends s (execLeave f s) := run_ends fun _ _ _ => goes_ite goes_next goes_next

theorem execExit_ends {f : CF} : Ends s (execExit f s) := run_ends fun _ _ _ => goes_next

theorem execBrk_ends {f : CF} : Ends s (execBrk f s) := run_ends fun _ _ _ => goes_next

theorem execMov_ends {f : VF} : Ends s (execMov f s) := vMap_ends rfl

theorem execMovi_ends {f : VF} : Ends s (execMovi f s) := run_ends fun _ _ _ => goes_next

theorem execSel_ends {f : VF} : Ends s (execSel f s) := vRun_ends rfl fun _ _ _ _ => goes_next

theorem execIadd_ends {f : VF} : Ends s (execIadd f s) := vInt_ends rfl

theorem execIsub_ends {f : VF} : Ends s (execIsub f s) := vInt_ends rfl

theorem execIaddc_ends {f : VF} : Ends s (execIaddc f s) := carryOp_ends rfl

theorem execIsubb_ends {f : VF} : Ends s (execIsubb f s) := carryOp_ends rfl

theorem execImul_ends {f : VF} : Ends s (execImul f s) := vInt_ends rfl

theorem execImulh_ends {f : VF} : Ends s (execImulh f s) := vInt_ends rfl

theorem execImad_ends {f : VF} : Ends s (execImad f s) := vInt_ends rfl

theorem execImadw_ends {f : VF} : Ends s (execImadw f s) := vMap_ends rfl

theorem execImin_ends {f : VF} : Ends s (execImin f s) := vInt_ends rfl

theorem execImax_ends {f : VF} : Ends s (execImax f s) := vInt_ends rfl

theorem execIabs_ends {f : VF} : Ends s (execIabs f s) := vInt_ends rfl

theorem execIneg_ends {f : VF} : Ends s (execIneg f s) := vInt_ends rfl

theorem execIdot4_ends {f : VF} : Ends s (execIdot4 f s) := vMap_ends rfl

theorem execLop3_ends {f : VF} : Ends s (execLop3 f s) := vMap_ends rfl

theorem execShl_ends {f : VF} : Ends s (execShl f s) := vMap_ends rfl

theorem execShr_ends {f : VF} : Ends s (execShr f s) := vMap_ends rfl

theorem execSha_ends {f : VF} : Ends s (execSha f s) := vMap_ends rfl

theorem execRot_ends {f : VF} : Ends s (execRot f s) := vMap_ends rfl

theorem execFshf_ends {f : VF} : Ends s (execFshf f s) := vMap_ends rfl

theorem execBfe_ends {f : VF} : Ends s (execBfe f s) := vMap_ends rfl

theorem execBfi_ends {f : VF} : Ends s (execBfi f s) := vMap_ends rfl

theorem execPopc_ends {f : VF} : Ends s (execPopc f s) := vMap_ends rfl

theorem execClz_ends {f : VF} : Ends s (execClz f s) := vMap_ends rfl

theorem execBrev_ends {f : VF} : Ends s (execBrev f s) := vMap_ends rfl

theorem execIdiv_ends {f : VF} : Ends s (execIdiv f s) := vInt_ends rfl

theorem execIrem_ends {f : VF} : Ends s (execIrem f s) := vInt_ends rfl

theorem execFadd_ends {f : VF} : Ends s (execFadd f s) := vFlt_ends rfl

theorem execFsub_ends {f : VF} : Ends s (execFsub f s) := vFlt_ends rfl

theorem execFmul_ends {f : VF} : Ends s (execFmul f s) := vFlt_ends rfl

theorem execFfma_ends {f : VF} : Ends s (execFfma f s) := vFlt_ends rfl

theorem execFmin_ends {f : VF} : Ends s (execFmin f s) := vBits_ends rfl

theorem execFmax_ends {f : VF} : Ends s (execFmax f s) := vBits_ends rfl

theorem execFrcp_ends {f : VF} : Ends s (execFrcp f s) := vFlt_ends rfl

theorem execFrsq_ends {f : VF} : Ends s (execFrsq f s) := vBits_ends rfl

theorem execFsqrt_ends {f : VF} : Ends s (execFsqrt f s) := vFlt_ends rfl

theorem execFdiv_ends {f : VF} : Ends s (execFdiv f s) := vFlt_ends rfl

theorem execFexp2_ends {f : VF} : Ends s (execFexp2 f s) := vBits_ends rfl

theorem execFlog2_ends {f : VF} : Ends s (execFlog2 f s) := vBits_ends rfl

theorem execFsin_ends {f : VF} : Ends s (execFsin f s) := vBits_ends rfl

theorem execFcos_ends {f : VF} : Ends s (execFcos f s) := vBits_ends rfl

theorem execFtanh_ends {f : VF} : Ends s (execFtanh f s) := vBits_ends rfl

theorem execFscale_ends {f : VF} : Ends s (execFscale f s) := vMap_ends rfl

theorem execFclass_ends {f : VF} : Ends s (execFclass f s) := vMap_ends rfl

theorem execFrnd_ends {f : VF} : Ends s (execFrnd f s) := vFlt_ends rfl

theorem execCvt_ends {f : VF} : Ends s (execCvt f s) := vMap_ends rfl

theorem execPack_ends {f : VF} : Ends s (execPack f s) := vMap_ends rfl

theorem execUnpack_ends {f : VF} : Ends s (execUnpack f s) := vMap_ends rfl

theorem execSetp_ends {f : VF} : Ends s (execSetp f s) := vRun_ends rfl fun _ _ _ _ => goes_next

theorem execPlop_ends {f : VF} : Ends s (execPlop f s) := run_ends fun _ _ _ => goes_next

theorem execVote_ends {f : VF} : Ends s (execVote f s) := run_ends fun _ _ _ => goes_next

theorem execShfl_ends {f : VF} : Ends s (execShfl f s) := vRun_ends rfl fun _ _ _ _ => goes_next

theorem execWscan_ends {f : VF} : Ends s (execWscan f s) := run_ends fun _ _ _ => goes_next

theorem execXshfl_ends {f : VF} : Ends s (execXshfl f s) := run_ends fun _ _ _ => goes_ite goes_next goes_next

theorem execLd_ends {f : MF} : Ends s (execLd f s) := loadOp_ends

theorem execSt_ends {f : MF} : Ends s (execSt f s) := storeOp_ends

theorem execStT_ends {f : MF} : Ends s (execStT f s) := storeOp_ends

theorem execLdu_ends {f : MF} : Ends s (execLdu f s) := loadOp_ends

theorem execPref_ends {f : MF} : Ends s (execPref f s) := run_ends fun _ _ _ => withPages_goes fun _ => goes_next

theorem execDiscard_ends {f : MF} : Ends s (execDiscard f s) := run_ends fun _ _ _ => storeGlobal_goes

theorem execAtom_ends {f : MF} : Ends s (execAtom f s) := atomOp_ends

theorem execAtomT_ends {f : MF} : Ends s (execAtomT f s) := atomOp_ends

theorem execAtomc_ends {f : MF} : Ends s (execAtomc f s) := atomOp_ends

theorem execAtomcT_ends {f : MF} : Ends s (execAtomcT f s) := atomOp_ends

theorem execKcopy_ends {f : MF} : Ends s (execKcopy f s) := run_ends fun _ _ _ => goes_next

theorem execKjoin_ends {f : MF} : Ends s (execKjoin f s) := run_ends fun _ _ _ => goes_next

theorem execKclr_ends {f : MF} : Ends s (execKclr f s) := run_ends fun _ _ _ => goes_next

theorem execKwait_ends {f : MF} : Ends s (execKwait f s) := run_ends fun _ _ _ => goes_ite goes_next goes_next

theorem execKpoll_ends {f : MF} : Ends s (execKpoll f s) := run_ends fun _ _ _ => goes_next

theorem execKsend_ends {f : MF} : Ends s (execKsend f s) :=
  run_ends fun _ _ _ => goes_ite goes_next (goes_ite goes_next goes_next)

theorem execKrecv_ends {f : MF} : Ends s (execKrecv f s) := run_ends fun _ _ _ => goes_next

theorem execCpy_ends {f : MF} : Ends s (execCpy f s) := copyIssue_ends

theorem execCpyt_ends {f : MF} : Ends s (execCpyt f s) := copyIssue_ends

theorem execCpyr_ends {f : MF} : Ends s (execCpyr f s) := copyIssue_ends

theorem execCpyf_ends {f : MF} : Ends s (execCpyf f s) := copyIssue_ends

theorem execCpyqQuery_ends {f : MF} : Ends s (execCpyqQuery f s) := run_ends fun _ _ _ => goes_next

theorem execCpyqCancel_ends {f : MF} : Ends s (execCpyqCancel f s) := run_ends fun _ _ _ => goes_next

theorem execRwr_ends {f : MF} : Ends s (execRwr f s) := run_ends fun _ _ _ => goes_ite goes_next goes_next

theorem execRwrb_ends {f : MF} : Ends s (execRwrb f s) := run_ends fun _ _ _ => goes_ite goes_next goes_next

theorem execEmpty_ends {f : MF} : Ends s (execEmpty f s) := run_ends fun _ _ _ => emptyOp_goes

theorem execEmptyMask_ends {f : MF} : Ends s (execEmptyMask f s) := run_ends fun _ _ _ => goes_ite goes_next emptyOp_goes

theorem execFullq_ends {f : MF} : Ends s (execFullq f s) := run_ends fun _ _ _ => goes_next

theorem execTorcTake_ends {f : MF} : Ends s (execTorcTake f s) :=
  run_ends fun _ _ _ => goes_ite goes_next (goes_ite goes_next (goes_ite goes_next goes_next))

theorem execTorcPass_ends {f : MF} : Ends s (execTorcPass f s) :=
  matrixRun_ends fun _ _ _ => goes_ite goes_next (goes_ite goes_next goes_next)

theorem execSlotClaim_ends {f : MF} : Ends s (execSlotClaim f s) :=
  matrixRun_ends fun _ _ _ => goes_ite goes_next (goes_ite goes_next (goes_ite goes_next goes_next))

theorem execSlotRelease_ends {f : MF} : Ends s (execSlotRelease f s) :=
  matrixRun_ends fun _ _ _ => goes_ite goes_next (goes_ite goes_next (goes_ite goes_next goes_next))

theorem execAccz_ends {f : MF} : Ends s (execAccz f s) := matrixRun_ends fun _ _ _ => goes_ite goes_next matrixIssue_goes

theorem execAccrd_ends {f : MF} : Ends s (execAccrd f s) := matrixRun_ends fun _ _ _ => matrixIssue_goes

theorem execAccqStatus_ends {f : MF} : Ends s (execAccqStatus f s) := matrixRun_ends fun _ _ _ => matrixIssue_goes

theorem execAccqRsum_ends {f : MF} : Ends s (execAccqRsum f s) := matrixRun_ends fun _ _ _ => matrixIssue_goes

theorem execBarArrive_ends {f : MF} : Ends s (execBarArrive f s) := run_ends fun _ _ _ => goes_ite goes_next goes_next

theorem execBarWait_ends {f : MF} : Ends s (execBarWait f s) := run_ends fun _ _ _ => barrierWait_goes

theorem execBarSync_ends {f : MF} : Ends s (execBarSync f s) :=
  run_ends fun _ _ _ => goes_ite barrierWait_goes (goes_ite goes_next barrierWait_goes)

theorem execSpawn_ends {f : MF} : Ends s (execSpawn f s) := run_ends fun _ _ _ => goes_next

theorem execEvsig_ends {f : MF} : Ends s (execEvsig f s) :=
  run_ends fun _ _ _ => goes_ite goes_next (goes_ite goes_next goes_next)

theorem execEvwait_ends {f : MF} : Ends s (execEvwait f s) := run_ends fun _ _ _ => goes_ite goes_next goes_next

theorem execQpush_ends {f : MF} : Ends s (execQpush f s) := queueIssue_ends

theorem execQpop_ends {f : MF} : Ends s (execQpop f s) := queueIssue_ends

theorem execQkick_ends {f : MF} : Ends s (execQkick f s) :=
  run_ends fun _ _ _ => goes_ite goes_next (goes_ite goes_next goes_next)

theorem execPubv_ends {f : MF} : Ends s (execPubv f s) := pubvOp_ends

theorem execPubvFinal_ends {f : MF} : Ends s (execPubvFinal f s) := pubvOp_ends

theorem execStopref_ends {f : MF} : Ends s (execStopref f s) := run_ends fun _ _ _ => withRefinable_goes fun _ _ => goes_next

theorem execVchk_ends {f : MF} : Ends s (execVchk f s) := vchkOp_ends

theorem execVchkX_ends {f : MF} : Ends s (execVchkX f s) := vchkOp_ends

theorem execTrap_ends {f : MF} : Ends s (execTrap f s) := run_ends fun _ _ _ => goes_next

theorem execCsrw_ends {f : MF} : Ends s (execCsrw f s) :=
  run_ends fun _ _ _ => goes_ite (goes_ite goes_next goes_next) (goes_ite goes_next goes_next)

theorem execCsrwIndclr_ends {f : MF} : Ends s (execCsrwIndclr f s) := run_ends fun _ _ _ => goes_next

end

theorem exec_word_ends {i : Instr} (s : State) (h : (fieldsOf i).isSome = true) : Ends s (exec i s) := by
  cases i with
  | nop f => exact execNop_ends
  | bra f => exact execBra_ends
  | brx f => exact execBrx_ends
  | call f => exact execCall_ends
  | callx f => exact execCallx_ends
  | enter f => exact execEnter_ends
  | leave f => exact execLeave_ends
  | ret f => exact execRet_ends
  | exit f => exact execExit_ends
  | waitm f => exact execWaitm_ends
  | yield f => exact execYield_ends
  | brk f => exact execBrk_ends
  | mov f => exact execMov_ends
  | movi f => exact execMovi_ends
  | sel f => exact execSel_ends
  | iadd f => exact execIadd_ends
  | isub f => exact execIsub_ends
  | iaddc f => exact execIaddc_ends
  | isubb f => exact execIsubb_ends
  | imul f => exact execImul_ends
  | imulh f => exact execImulh_ends
  | imad f => exact execImad_ends
  | imadw f => exact execImadw_ends
  | imin f => exact execImin_ends
  | imax f => exact execImax_ends
  | iabs f => exact execIabs_ends
  | ineg f => exact execIneg_ends
  | idot4 f => exact execIdot4_ends
  | lop3 f => exact execLop3_ends
  | shl f => exact execShl_ends
  | shr f => exact execShr_ends
  | sha f => exact execSha_ends
  | rot f => exact execRot_ends
  | fshf f => exact execFshf_ends
  | bfe f => exact execBfe_ends
  | bfi f => exact execBfi_ends
  | popc f => exact execPopc_ends
  | clz f => exact execClz_ends
  | brev f => exact execBrev_ends
  | idiv f => exact execIdiv_ends
  | irem f => exact execIrem_ends
  | fadd f => exact execFadd_ends
  | fsub f => exact execFsub_ends
  | fmul f => exact execFmul_ends
  | ffma f => exact execFfma_ends
  | fmin f => exact execFmin_ends
  | fmax f => exact execFmax_ends
  | frcp f => exact execFrcp_ends
  | frsq f => exact execFrsq_ends
  | fsqrt f => exact execFsqrt_ends
  | fdiv f => exact execFdiv_ends
  | fexp2 f => exact execFexp2_ends
  | flog2 f => exact execFlog2_ends
  | fsin f => exact execFsin_ends
  | fcos f => exact execFcos_ends
  | ftanh f => exact execFtanh_ends
  | fscale f => exact execFscale_ends
  | fclass f => exact execFclass_ends
  | frnd f => exact execFrnd_ends
  | cvt f => exact execCvt_ends
  | pack f => exact execPack_ends
  | unpack f => exact execUnpack_ends
  | setp f => exact execSetp_ends
  | plop f => exact execPlop_ends
  | vote f => exact execVote_ends
  | shfl f => exact execShfl_ends
  | wred f => exact execWred_ends
  | wscan f => exact execWscan_ends
  | xshfl f => exact execXshfl_ends
  | ld f => exact execLd_ends
  | st f => exact execSt_ends
  | stT f => exact execStT_ends
  | ldu f => exact execLdu_ends
  | pref f => exact execPref_ends
  | discard f => exact execDiscard_ends
  | atom f => exact execAtom_ends
  | atomT f => exact execAtomT_ends
  | atomc f => exact execAtomc_ends
  | atomcT f => exact execAtomcT_ends
  | red f => exact execRed_ends
  | kcopy f => exact execKcopy_ends
  | kjoin f => exact execKjoin_ends
  | kclr f => exact execKclr_ends
  | kwait f => exact execKwait_ends
  | kpoll f => exact execKpoll_ends
  | fence f => exact execFence_ends
  | ksend f => exact execKsend_ends
  | krecv f => exact execKrecv_ends
  | cpy f => exact execCpy_ends
  | cpyt f => exact execCpyt_ends
  | cpyr f => exact execCpyr_ends
  | cpyf f => exact execCpyf_ends
  | cpyqQuery f => exact execCpyqQuery_ends
  | cpyqCancel f => exact execCpyqCancel_ends
  | mint f => exact execMint_ends
  | rwr f => exact execRwr_ends
  | rwrb f => exact execRwrb_ends
  | empty f => exact execEmpty_ends
  | emptyMask f => exact execEmptyMask_ends
  | fullq f => exact execFullq_ends
  | torcTake f => exact execTorcTake_ends
  | torcPass f => exact execTorcPass_ends
  | slotClaim f => exact execSlotClaim_ends
  | slotRelease f => exact execSlotRelease_ends
  | accz f => exact execAccz_ends
  | accld f => exact execAccld_ends
  | mma f => exact execMma_ends
  | accrd f => exact execAccrd_ends
  | drain f => exact execDrain_ends
  | accqStatus f => exact execAccqStatus_ends
  | accqRsum f => exact execAccqRsum_ends
  | barArrive f => exact execBarArrive_ends
  | barWait f => exact execBarWait_ends
  | barSync f => exact execBarSync_ends
  | spawn f => exact execSpawn_ends
  | evsig f => exact execEvsig_ends
  | evwait f => exact execEvwait_ends
  | qpush f => exact execQpush_ends
  | qpop f => exact execQpop_ends
  | qkick f => exact execQkick_ends
  | pubv f => exact execPubv_ends
  | pubvFinal f => exact execPubvFinal_ends
  | stopref f => exact execStopref_ends
  | vchk f => exact execVchk_ends
  | vchkX f => exact execVchkX_ends
  | trap f => exact execTrap_ends
  | csrr f => exact execCsrr_ends
  | csrw f => exact execCsrw_ends
  | csrwIndclr f => exact execCsrwIndclr_ends
  | _ => nomatch h

/-! ## Events: each has a meaning -/

theorem accepts_next {t : State} : Accepts (.next t) := goes_next.accepts

theorem accepts_fault {x : Fault} : Accepts (.fault x) := fun _ h => nomatch h

theorem accepts_ite {p : Prop} [Decidable p] {a b : Out} (ha : Accepts a) (hb : Accepts b) : Accepts (if p then a else b) := by
  split
  · exact ha
  · exact hb

/-! ### The shared operations of the events -/

section
variable {e : Instr} {q : Requester} {s : State}

theorem journey_accepts {stops : List Stop} {look : Trip → State → Out} {home : List Trip → State → Out}
    (hlook : ∀ t s, Accepts (look t s)) (hhome : ∀ ts s, Accepts (home ts s)) : Accepts (journey e q stops look home s) := by
  refine accepts_ite (hhome _ _) ?_
  dsimp only
  split
  · exact accepts_next
  · exact accepts_next
  · split
    · exact accepts_next
    · exact hlook _ _

theorem withOp_accepts {id : Nat} {f : Op → State → Out} (hf : ∀ o s, Accepts (f o s)) : Accepts (withOp id s f) := by
  unfold withOp
  split
  · exact accepts_fault
  · exact hf _ _

theorem withTripOp_accepts {id : Nat} {f : Op → State → Out} (hf : ∀ o s, Accepts (f o s)) : Accepts (withTripOp id e s f) := by
  unfold withTripOp
  split
  · exact accepts_ite accepts_fault accepts_next
  · exact hf _ _

theorem withPart_accepts {r : Req} {f : Op → Part → State → Out} (hf : ∀ o p s, Accepts (f o p s)) : Accepts (withPart r s f) := by
  unfold withPart
  split
  · exact accepts_fault
  · split
    · exact accepts_fault
    · exact hf _ _ _

theorem request_accepts {r : Req} {k : Op → Part → State → Out} (hk : ∀ o p s, Accepts (k o p s)) : Accepts (request r e s k) :=
  withPart_accepts fun o p _ => accepts_ite (hk o p _) accepts_next

theorem atSliceWith_accepts {a : Ask} {refuse : State → Option State} {k : State → Out} (hk : ∀ s, Accepts (k s)) :
    Accepts (atSliceWith a e s refuse k) := by
  refine accepts_ite accepts_next ?_
  split
  · exact accepts_next
  · refine accepts_ite accepts_next (accepts_ite accepts_next (accepts_ite accepts_next ?_))
    dsimp only
    split
    · exact accepts_next
    · exact hk _

theorem atSlice_accepts {home line : Nat} {rcl : Bool} {k : State → Out} (hk : ∀ s, Accepts (k s)) :
    Accepts (atSlice home line rcl e s k) :=
  atSliceWith_accepts hk

theorem atEach_accepts {stream : Bool} {ls : List (Nat × Nat)} {k : State → Out} (hk : ∀ s, Accepts (k s)) :
    Accepts (atEach stream e ls s k) := by
  induction ls generalizing s with
  | nil => exact hk s
  | cons x r ih => exact atSliceWith_accepts fun _ => ih

theorem atSlices_accepts {stream : Bool} {ls : List (Nat × Nat)} {k : State → Out} (hk : ∀ s, Accepts (k s)) :
    Accepts (atSlices stream e ls s k) :=
  atEach_accepts hk

theorem atBlock_accepts {t : Trip} {ks : List Nat} {k : State → Out} (hk : ∀ s, Accepts (k s)) : Accepts (atBlock e t ks s k) :=
  atSlices_accepts hk

theorem reflectTrip_accepts {core : Nat} {arrive : Nat → State → State} : Accepts (reflectTrip e core arrive s) :=
  journey_accepts (fun _ _ => accepts_next) (fun _ _ => accepts_next)

theorem returnTrip_accepts {core home line : Nat} {ops : List Nat} {look : Trip → State → Out}
    (hlook : ∀ t s, Accepts (look t s)) : Accepts (returnTrip e core home line ops look s) :=
  journey_accepts hlook (fun _ _ => accepts_next)

theorem withPins_accepts {core ctx : Nat} {vas : List Dword} {k : State → Out} (hk : ∀ s, Accepts (k s)) :
    Accepts (withPins e q core ctx vas s k) := by
  unfold withPins
  split
  · exact hk s
  · exact accepts_next
  · exact accepts_ite accepts_next accepts_next

theorem readLines_accepts {stops : List Stop} {stream : Bool} {fail : Nat → State → Out} {done : List Trip → State → Out}
    (hfail : ∀ a s, Accepts (fail a s)) (hdone : ∀ ts s, Accepts (done ts s)) :
    Accepts (readLines e q stops stream s fail done) :=
  journey_accepts (fun _ _ => atSliceWith_accepts fun _ => accepts_ite accepts_next accepts_next) fun ts s => by
    split
    · exact hfail _ s
    · exact hdone ts s

theorem writeLines_accepts {stops : List Stop} {stream : Bool} {write : Trip → State → Option State} {fail : Nat → State → Out}
    {done : State → Out} (hfail : ∀ a s, Accepts (fail a s)) (hdone : ∀ s, Accepts (done s)) :
    Accepts (writeLines e q stops stream write s fail done) := by
  refine journey_accepts (fun t s => atSliceWith_accepts fun s => ?_) (fun ts s => ?_)
  · split
    · exact accepts_next
    · exact accepts_next
  · split
    · exact hfail _ s
    · exact hdone s

theorem atTurn_accepts {id : Nat} {k : Op → State → Out} (hk : ∀ o s, Accepts (k o s)) : Accepts (atTurn id e s k) :=
  withOp_accepts fun o s => accepts_ite (hk o s) accepts_next

theorem queueRequest_accepts {r : Req} {k : Op → Part → LineData → State → State} : Accepts (queueRequest r e s k) :=
  request_accepts fun _ _ _ => atSliceWith_accepts fun _ => accepts_ite accepts_next accepts_next

theorem reserve_accepts {push : Bool} {id : Nat} : Accepts (reserve push e id s) := queueRequest_accepts

theorem recordPlace_accepts {id : Nat} {o : Op} : Accepts (recordPlace e id o s) := by
  unfold recordPlace
  refine withPins_accepts fun s => ?_
  dsimp only
  split
  · exact accepts_next
  · exact accepts_ite accepts_next accepts_next

theorem recordEvent_accepts {push : Bool} {id : Nat} : Accepts (recordEvent push e id s) :=
  withOp_accepts fun _ _ => accepts_ite recordPlace_accepts queueRequest_accepts

theorem writeRegions_accepts {core ctx : Nat} {rs : List Region} {after : Dword → State → State} {done : State → Out}
    (hdone : ∀ s, Accepts (done s)) : Accepts (writeRegions e q core ctx rs after s done) := by
  unfold writeRegions
  exact withPins_accepts fun _ => journey_accepts (fun _ _ => atBlock_accepts fun _ => accepts_next) (fun _ _ => hdone _)

theorem readRegions_accepts {core ctx : Nat} {rs : List (Dword × Nat)} {shared : Bool} {ws : List Region}
    {done : List Trip → State → Out} (hdone : ∀ ts s, Accepts (done ts s)) :
    Accepts (readRegions e q core ctx rs shared ws s done) := by
  unfold readRegions
  exact withPins_accepts fun _ => journey_accepts (fun _ _ => atBlock_accepts fun _ => accepts_next) hdone

theorem anchorTurn_accepts {home base : Nat} {ks : List Nat} {look : Bool} {k : State → Out} (hk : ∀ s, Accepts (k s)) :
    Accepts (anchorTurn e home base ks look s k) :=
  accepts_ite (atSlices_accepts hk) (atSliceWith_accepts hk)

theorem locketTurn_accepts {x : LocketReq} {done bad : Nat → State → Out} (hdone : ∀ n s, Accepts (done n s))
    (hbad : ∀ n s, Accepts (bad n s)) : Accepts (locketTurn e x s done bad) :=
  anchorTurn_accepts fun _ => accepts_ite (hdone _ _) (accepts_ite (hbad _ _) (accepts_ite (hdone _ _) (hdone _ _)))

theorem locketOp_accepts {op : Nat} : Accepts (locketOp op e s) :=
  request_accepts fun _ _ _ => locketTurn_accepts (fun _ _ => accepts_next) (fun _ _ => accepts_next)

theorem readLook_accepts {t : Trip} : Accepts (readLook e t s) :=
  accepts_ite (atSliceWith_accepts fun _ => accepts_next) (atBlock_accepts fun _ => accepts_next)

theorem dispatchRead_accepts {die ctx : Nat} {va : Dword} {n : Nat} {record : Bool} {bad : Nat → State → Out}
    {ok : List Byte → List Trip → State → Out} (hbad : ∀ c s, Accepts (bad c s)) (hok : ∀ bs ts s, Accepts (ok bs ts s)) :
    Accepts (dispatchRead e die ctx va n record s bad ok) := by
  unfold dispatchRead
  refine withPins_accepts fun s => ?_
  split
  · exact hbad _ _
  · have hfinish {core ctx : Nat} {vas : List Dword} {stops : List Stop} {p : List Trip → State → Prop}
        [∀ ts s, Decidable (p ts s)] {code : Nat} {f : State → State} {read : List Trip → List Byte} {s : State} :
        Accepts (withPins e (.command die) core ctx vas s (fun s => journey e (.command die) stops (readLook e)
          (fun ts s => if p ts s then bad code (f s) else ok (read ts) ts s) s)) :=
      withPins_accepts fun _ => journey_accepts (fun _ _ => readLook_accepts) (fun _ _ => accepts_ite (hbad _ _) (hok _ _ _))
    dsimp only
    refine accepts_ite hfinish ?_
    split
    · exact accepts_next
    · exact accepts_ite (hbad _ _) (accepts_ite accepts_next hfinish)

theorem guardedRead_accepts {die slot ctx : Nat} {a : GuardAccess} {record : Bool} {bad : Nat → State → Out}
    {ok : List Byte → List Trip → State → Out} (hbad : ∀ c s, Accepts (bad c s)) (hok : ∀ bs ts s, Accepts (ok bs ts s)) :
    Accepts (guardedRead e die slot ctx a record s bad ok) := by
  unfold guardedRead
  split
  · exact hbad _ _
  · exact dispatchRead_accepts (fun _ s => hbad 4 s) hok

theorem clearControl_accepts {tm : Team} {l : Launch} {k : State → State} : Accepts (clearControl e tm l s k) :=
  writeRegions_accepts fun _ => accepts_next

theorem withHalted_accepts {t : Nat} {k : State → State} : Accepts (withHalted t e s k) := by
  unfold withHalted
  split
  · exact clearControl_accepts
  · exact accepts_next

theorem received_accepts {k : PacketKind} {f : Nat → Packet → State → Out} (hf : ∀ n p s, Accepts (f n p s)) :
    Accepts (received k s f) := by
  unfold received
  split
  · exact accepts_next
  · refine accepts_ite accepts_next (accepts_ite ?_ (hf _ _ _))
    split
    · exact accepts_next
    · exact accepts_next

theorem fromIngress_accepts {port : Nat} {p : Packet} {stop : Stop} {look : Trip → State → Out}
    (hlook : ∀ t s, Accepts (look t s)) : Accepts (fromIngress e port p stop look s) :=
  journey_accepts hlook (fun _ _ => accepts_next)

theorem atTarget_accepts {k : PacketKind} {spans : Packet → List (Nat × Nat)} {perm : Export → Bool} {whole : Packet → Bool}
    {f : Packet → Nat → State → Packet × State} : Accepts (atTarget e k s spans perm whole f) :=
  received_accepts fun _ p s => by
    dsimp only
    split
    · exact accepts_next
    · exact accepts_ite accepts_next (fromIngress_accepts fun _ _ => atSliceWith_accepts fun _ =>
        accepts_ite accepts_next accepts_next)

theorem locketFromFabric_accepts {k : PacketKind} {req : Packet → LocketReq} : Accepts (locketFromFabric e k req s) :=
  received_accepts fun _ _ _ => accepts_ite accepts_next (accepts_ite accepts_next (fromIngress_accepts fun _ _ =>
    locketTurn_accepts (fun _ _ => accepts_next) (fun _ _ => accepts_next)))

theorem withSession_accepts {c : Cmd} {opc : Nat} {k : State → Out} (hk : ∀ s, Accepts (k s)) : Accepts (withSession c opc e s k) :=
  accepts_ite accepts_next (hk s)

theorem withContext_accepts {c : Cmd} {opc ctx : Nat} {k : State → Out} (hk : ∀ s, Accepts (k s)) :
    Accepts (withContext c opc ctx e s k) :=
  withSession_accepts fun s => accepts_ite accepts_next (accepts_ite accepts_next (hk s))

theorem virtualAccess_accepts {c : Cmd} {opc ctx : Nat} {write : Bool} {va : Dword} {count : Nat} {data : List Byte} :
    Accepts (virtualAccess e c opc ctx write va count data s) :=
  withPins_accepts fun s => by
    split
    · exact accepts_next
    · exact accepts_ite accepts_next (accepts_ite accepts_next accepts_next)

theorem physicalAccess_accepts {c : Cmd} {opc pol : Nat} {write : Bool} {addr : Dword} {count : Nat} {data : List Byte} :
    Accepts (physicalAccess c opc pol write addr count data s) :=
  accepts_ite accepts_next (accepts_ite accepts_next (accepts_ite accepts_next (accepts_ite accepts_next accepts_next)))

theorem resumeQueue_accepts {c : Cmd} {ctx qid : Nat} {skip : Bool} : Accepts (resumeQueue c ctx qid skip e s) :=
  withContext_accepts fun s => by
    split
    · exact accepts_next
    · split
      · exact accepts_next
      · exact accepts_ite accepts_next accepts_next

end

/-! ### The events -/

section
variable {s : State}

theorem execThermalThrottle_accepts {die : Nat} : Accepts (execThermalThrottle die s) := accepts_next

theorem execHelloForgetTimeout_accepts {src : Nat} : Accepts (execHelloForgetTimeout src s) := accepts_next

theorem execSessionIdleTimeout_accepts {n : Nat} : Accepts (execSessionIdleTimeout n s) := accepts_next

theorem execDataRetransmitTimeout_accepts {n stream seq : Nat} : Accepts (execDataRetransmitTimeout n stream seq s) := by
  unfold execDataRetransmitTimeout
  split
  · exact accepts_next
  · exact accepts_next

theorem execMemoryReadVirtual_accepts {c : Cmd} {ctx : Nat} {addr : Dword} {count : Nat} :
    Accepts (execMemoryReadVirtual c ctx addr count s) :=
  withContext_accepts fun _ => virtualAccess_accepts

theorem execMemoryReadPhysical_accepts {c : Cmd} {pol : Nat} {addr : Dword} {count : Nat} :
    Accepts (execMemoryReadPhysical c pol addr count s) :=
  withSession_accepts fun _ => physicalAccess_accepts

theorem execMemoryWriteVirtual_accepts {c : Cmd} {ctx : Nat} {addr : Dword} {data : List Byte} :
    Accepts (execMemoryWriteVirtual c ctx addr data s) :=
  withContext_accepts fun _ => virtualAccess_accepts

theorem execMemoryWritePhysical_accepts {c : Cmd} {pol : Nat} {addr : Dword} {data : List Byte} :
    Accepts (execMemoryWritePhysical c pol addr data s) :=
  withSession_accepts fun _ => accepts_ite accepts_next physicalAccess_accepts

theorem execKick_accepts {c : Cmd} {ctx qid : Nat} {value : Dword} : Accepts (execKick c ctx qid value s) :=
  withContext_accepts fun s => by
    split
    · exact accepts_next
    · split
      · exact accepts_next
      · exact accepts_next

theorem execCreateContext_accepts {c : Cmd} : Accepts (execCreateContext c s) :=
  withSession_accepts fun s => by
    split
    · exact accepts_next
    · exact accepts_next

theorem execDestroyContext_accepts {c : Cmd} {ctx : Nat} : Accepts (execDestroyContext c ctx s) := by
  unfold execDestroyContext
  dsimp only
  split
  · exact accepts_next
  · exact accepts_ite accepts_next (withContext_accepts fun _ => accepts_next)

theorem execSetRootTable_accepts {c : Cmd} {ctx : Nat} {addr : Dword} : Accepts (execSetRootTable c ctx addr s) :=
  withContext_accepts fun _ => accepts_ite accepts_next (accepts_ite accepts_next accepts_next)

theorem execSetEventCount_accepts {c : Cmd} {ctx count : Nat} {backing : Dword} :
    Accepts (execSetEventCount c ctx count backing s) :=
  withContext_accepts fun _ => accepts_ite accepts_next accepts_next

theorem execSetRefinableSet_accepts {c : Cmd} {ctx first n value : Nat} :
    Accepts (execSetRefinableSet c ctx first n value s) :=
  withContext_accepts fun _ => accepts_ite accepts_next accepts_next

theorem execShootdown_accepts {c : Cmd} {ctx : Nat} {base length : Dword} : Accepts (execShootdown c ctx base length s) := by
  unfold execShootdown
  dsimp only
  split
  · exact accepts_next
  · exact withContext_accepts fun _ => accepts_ite accepts_next accepts_next

theorem execGrantContext_accepts {c : Cmd} {ctx session : Nat} : Accepts (execGrantContext c ctx session s) :=
  withContext_accepts fun _ => accepts_ite accepts_next accepts_next

theorem execBindUserQueue_accepts {c : Cmd} {ctx qid logcap : Nat} {ring : Dword} :
    Accepts (execBindUserQueue c ctx qid logcap ring s) :=
  withContext_accepts fun _ => accepts_ite accepts_next accepts_next

theorem execUnbindUserQueue_accepts {c : Cmd} {ctx qid : Nat} : Accepts (execUnbindUserQueue c ctx qid s) :=
  withContext_accepts fun s => by
    split
    · exact accepts_next
    · exact accepts_next

theorem execResumeQueueRetry_accepts {c : Cmd} {ctx qid : Nat} : Accepts (execResumeQueueRetry c ctx qid s) :=
  resumeQueue_accepts

theorem execResumeQueueSkip_accepts {c : Cmd} {ctx qid : Nat} : Accepts (execResumeQueueSkip c ctx qid s) :=
  resumeQueue_accepts

theorem execSetHostEventRing_accepts {c : Cmd} {ctx logn stream : Nat} :
    Accepts (execSetHostEventRing c ctx logn stream s) :=
  withContext_accepts fun _ => accepts_ite accepts_next accepts_next

theorem execAdvanceReadIndex_accepts {c : Cmd} {ctx : Nat} {index : Dword} : Accepts (execAdvanceReadIndex c ctx index s) :=
  withContext_accepts fun _ => accepts_ite accepts_next accepts_next

theorem execAssignNodeId_accepts {c : Cmd} {node : BitVec 16} : Accepts (execAssignNodeId c node s) :=
  withSession_accepts fun _ => accepts_next

theorem execWriteRouteTable_accepts {c : Cmd} {die : Nat} {node mask : BitVec 16} :
    Accepts (execWriteRouteTable c die node mask s) :=
  withSession_accepts fun _ => accepts_ite accepts_next accepts_next

theorem execWriteExport_accepts {c : Cmd} {index : Nat} {flags : Byte} {src : BitVec 16} {base size : Dword} :
    Accepts (execWriteExport c index flags src base size s) :=
  withSession_accepts fun _ => accepts_ite accepts_next accepts_next

theorem execStreamReset_accepts {c : Cmd} {node : BitVec 16} : Accepts (execStreamReset c node s) :=
  withSession_accepts fun s => by
    split
    · exact accepts_next
    · exact accepts_ite accepts_next accepts_next

theorem execReadForeignKickCounters_accepts {c : Cmd} : Accepts (execReadForeignKickCounters c s) :=
  withSession_accepts fun _ => accepts_next

theorem execControlResume_accepts {t : Nat} : Accepts (execControlResume t s) := withHalted_accepts

theorem execControlAbandon_accepts {t : Nat} : Accepts (execControlAbandon t s) := withHalted_accepts

theorem execControlStep_accepts {t : Nat} : Accepts (execControlStep t s) := withHalted_accepts

theorem execTeamHeaderWrite_accepts {t : Nat} {off : Nat} {data : List Byte} :
    Accepts (execTeamHeaderWrite t off data s) := by
  unfold execTeamHeaderWrite
  dsimp only
  split
  · refine accepts_ite accepts_next ?_
    split
    · exact accepts_next
    · exact accepts_next
    · exact accepts_next
    · exact clearControl_accepts
  · exact accepts_next

theorem execFraukLinkUp_accepts {port : Nat} : Accepts (execFraukLinkUp port s) := accepts_next

theorem execLinkReplayRequest_accepts {port flit : Nat} : Accepts (execLinkReplayRequest port flit s) := accepts_next

theorem execLinkReset_accepts {port : Nat} : Accepts (execLinkReset port s) := accepts_next

theorem execFlitReplay_accepts {port flit : Nat} : Accepts (execFlitReplay port flit s) := accepts_next

theorem execFabricRetransmitTimeout_accepts {node : BitVec 16} {seq : Nat} :
    Accepts (execFabricRetransmitTimeout node seq s) := by
  unfold execFabricRetransmitTimeout
  dsimp only
  split
  · exact accepts_next
  · exact accepts_ite accepts_next accepts_next

theorem execSliceLoad_accepts {r : Req} : Accepts (execSliceLoad r s) :=
  request_accepts fun _ _ _ => atSliceWith_accepts fun _ => accepts_ite accepts_next accepts_next

theorem execSliceStore_accepts {r : Req} : Accepts (execSliceStore r s) :=
  request_accepts fun _ _ _ => atSliceWith_accepts fun _ => accepts_ite accepts_next accepts_next

theorem execSliceAtomic_accepts {r : Req} : Accepts (execSliceAtomic r s) :=
  request_accepts fun _ _ _ => atSliceWith_accepts fun _ => accepts_ite accepts_next accepts_next

theorem execCheckRequest_accepts {r : Req} : Accepts (execCheckRequest r s) :=
  request_accepts fun _ _ _ => atSliceWith_accepts fun _ => accepts_next

theorem execWriteBackArrival_accepts {core home line : Nat} {data : LineData} {bmask : ByteMask} {ops : List Nat} :
    Accepts (execWriteBackArrival core home line data bmask ops s) :=
  returnTrip_accepts fun _ _ => atSlice_accepts fun _ => accepts_ite accepts_next accepts_next

theorem execUpdateOnlyObtain_accepts {r : Req} : Accepts (execUpdateOnlyObtain r s) :=
  request_accepts fun _ _ _ => atSliceWith_accepts fun _ => accepts_next

theorem execPartialResultCombine_accepts {core home line : Nat} {data : LineData} {bmask : ByteMask} {fn ty : Nat} {ops : List Nat} :
    Accepts (execPartialResultCombine core home line data bmask fn ty ops s) :=
  returnTrip_accepts fun _ _ => accepts_next

theorem execRecallDelivery_accepts {core line : Nat} : Accepts (execRecallDelivery core line s) := accepts_next

theorem execSliceFillComplete_accepts {home line : Nat} : Accepts (execSliceFillComplete home line s) :=
  accepts_ite accepts_next accepts_fault

theorem execSliceWriteBackComplete_accepts {home line : Nat} : Accepts (execSliceWriteBackComplete home line s) :=
  accepts_ite accepts_next accepts_fault

theorem execHostAccessAtSlice_accepts {id k : Nat} : Accepts (execHostAccessAtSlice id k s) := by
  unfold execHostAccessAtSlice
  dsimp only
  split
  · exact accepts_next
  · split
    · exact accepts_next
    · exact accepts_ite accepts_next (journey_accepts (fun _ _ => atSlice_accepts fun _ => accepts_next) (fun _ _ => accepts_next))

theorem execRemoteWriteApply_accepts {op : Nat} : Accepts (execRemoteWriteApply op s) := locketOp_accepts

theorem execTokenApply_accepts {op : Nat} : Accepts (execTokenApply op s) := locketOp_accepts

theorem execEmptyRequestApply_accepts {op : Nat} : Accepts (execEmptyRequestApply op s) :=
  request_accepts fun _ _ _ => anchorTurn_accepts fun _ =>
    accepts_ite (accepts_ite accepts_next accepts_next) accepts_next

theorem execMintRequestApply_accepts {op : Nat} : Accepts (execMintRequestApply op s) :=
  request_accepts fun _ _ _ => accepts_next

theorem execSaveRecordRemove_accepts {w : WarpRef} : Accepts (execSaveRecordRemove w s) := by
  unfold execSaveRecordRemove
  dsimp only
  split
  · exact accepts_next
  · exact journey_accepts (fun _ _ => atBlock_accepts fun _ => accepts_next) (fun _ _ => accepts_next)

theorem execRestoreRecordInstall_accepts {w : WarpRef} : Accepts (execRestoreRecordInstall w s) := by
  unfold execRestoreRecordInstall
  dsimp only
  split
  · exact withPins_accepts fun _ => journey_accepts (fun _ _ => atBlock_accepts fun _ => accepts_next)
      (fun _ _ => accepts_ite accepts_next accepts_next)
  · exact accepts_next

theorem imageLook_accepts {id : Nat} {e : Instr} {o : Op} {w : Warp} {tm : Team} {ring : Nat} {t : Trip} :
    Accepts (imageLook id e o w tm ring t s) := by
  unfold imageLook
  dsimp only
  split
  · exact atBlock_accepts fun _ => accepts_ite accepts_next accepts_next
  · exact accepts_ite (atBlock_accepts fun _ => accepts_ite accepts_next accepts_next)
      (atBlock_accepts fun _ => accepts_ite accepts_next accepts_next)

theorem execImageWrite_accepts {id : Nat} : Accepts (execImageWrite id s) := by
  unfold execImageWrite
  dsimp only
  split
  · exact accepts_next
  · split
    · exact accepts_ite accepts_next (withPins_accepts fun _ =>
        journey_accepts (fun _ _ => imageLook_accepts) (fun _ _ => accepts_next))
    · exact accepts_next

theorem execWatchRequest_accepts {r : SplitRef} : Accepts (execWatchRequest r s) := by
  unfold execWatchRequest
  dsimp only
  split
  · refine withOp_accepts fun o s => ?_
    split
    · exact accepts_ite accepts_next (journey_accepts
        (fun _ _ => atSlice_accepts fun _ => accepts_ite accepts_next (accepts_ite accepts_next accepts_next))
        (fun _ _ => accepts_next))
    · exact accepts_fault
  · exact accepts_next

theorem execPushReservation_accepts {id : Nat} : Accepts (execPushReservation id s) := reserve_accepts

theorem execPushWrite_accepts {id : Nat} : Accepts (execPushWrite id s) := recordEvent_accepts

theorem execPopReservation_accepts {id : Nat} : Accepts (execPopReservation id s) := reserve_accepts

theorem execPopRead_accepts {id : Nat} : Accepts (execPopRead id s) := recordEvent_accepts

theorem execHeldRequestResend_accepts {id : Nat} : Accepts (execHeldRequestResend id s) :=
  withPart_accepts fun _ _ _ => accepts_next

theorem execTableWalkStep_accepts {core ctx : Nat} {va : Dword} {level table : Nat} :
    Accepts (execTableWalkStep core ctx va level table s) :=
  accepts_ite accepts_next (journey_accepts (fun t s => atSliceWith_accepts fun s => by
        split
        · exact accepts_next
        · exact accepts_next)
    (fun _ _ => accepts_next))

theorem execConstLineFetch_accepts {r : SplitRef} {vline : Nat} : Accepts (execConstLineFetch r vline s) := by
  unfold execConstLineFetch
  dsimp only
  split
  · exact accepts_next
  · refine accepts_ite accepts_next (withPins_accepts fun s => ?_)
    split
    · exact accepts_next
    · exact accepts_ite accepts_next (readLines_accepts (fun _ _ => accepts_next) (fun _ _ => accepts_next))

theorem execReplyArrival_accepts {r : Req} : Accepts (execReplyArrival r s) := by
  unfold execReplyArrival
  dsimp only
  split
  · exact accepts_next
  · split
    · exact accepts_next
    · exact accepts_next

theorem execLocketDelivery_accepts {w : WarpRef} {j : Nat} {m : Mask} {values : List Word} :
    Accepts (execLocketDelivery w j m values s) := by
  unfold execLocketDelivery
  dsimp only
  split
  · exact accepts_next
  · exact accepts_next

theorem execFlushMarkerArrival_accepts {w : WarpRef} : Accepts (execFlushMarkerArrival w s) := accepts_next

theorem execWokenDelivery_accepts {r : SplitRef} : Accepts (execWokenDelivery r s) := accepts_next

theorem execWaitmTimeout_accepts {r : SplitRef} : Accepts (execWaitmTimeout r s) := accepts_next

theorem execKsendTokenSend_accepts {op : Nat} : Accepts (execKsendTokenSend op s) :=
  withOp_accepts fun o s => by
    split
    · split
      · exact accepts_next
      · exact accepts_ite accepts_next accepts_next
    · exact accepts_next

theorem execCopyDescriptorEnqueue_accepts {id : Nat} : Accepts (execCopyDescriptorEnqueue id s) :=
  withOp_accepts fun _ _ => accepts_next

theorem execCopyStart_accepts {die eng : Nat} : Accepts (execCopyStart die eng s) := by
  unfold execCopyStart
  dsimp only
  split
  · exact accepts_next
  · refine accepts_ite accepts_next ?_
    split
    · exact accepts_next
    · exact accepts_ite accepts_next accepts_next

theorem readChunk_accepts {id k : Nat} {o : Op} {h : CopyShape} {src n : Nat} : Accepts (readChunk id k o h src n s) :=
  accepts_ite accepts_next (withPins_accepts fun s => by
    split
    · exact accepts_next
    · exact readLines_accepts (fun _ _ => accepts_next) (fun _ _ => accepts_next))

theorem writeChunk_accepts {id k : Nat} {o : Op} {h : CopyShape} {dst : Nat} {bs : List Byte} :
    Accepts (writeChunk id k o h dst bs s) :=
  accepts_ite accepts_next (withPins_accepts fun s => by
    split
    · exact accepts_next
    · exact writeLines_accepts (fun _ _ => accepts_next) (fun _ => accepts_next))

theorem fabricChunk_accepts {id k : Nat} {o : Op} {h : CopyShape} {node : BitVec 16} {theirs n : Nat} {bs : List Byte} :
    Accepts (fabricChunk id k o h node theirs n bs s) :=
  withPins_accepts fun s => by
    split
    · exact accepts_next
    · dsimp only
      split
      · exact accepts_next
      · exact accepts_next
      · exact accepts_next

theorem execCopyChunk_accepts {id k : Nat} : Accepts (execCopyChunk id k s) := by
  unfold execCopyChunk
  dsimp only
  split
  · exact accepts_next
  · split
    · exact accepts_next
    · refine accepts_ite accepts_next (accepts_ite (accepts_ite accepts_next ?_) ?_)
      · split
        · exact writeChunk_accepts
        · exact accepts_ite readChunk_accepts fabricChunk_accepts
        · exact readChunk_accepts
      · split
        · exact writeChunk_accepts
        · exact accepts_ite accepts_next (accepts_ite writeChunk_accepts (accepts_ite accepts_next fabricChunk_accepts))

theorem execCopyQueryRequest_accepts {id : Nat} : Accepts (execCopyQueryRequest id s) :=
  withOp_accepts fun o s => by
    dsimp only
    split
    · exact accepts_ite accepts_next (accepts_ite (accepts_ite accepts_next accepts_next) (accepts_ite accepts_next accepts_next))
    · exact accepts_next

theorem execSpillStep_accepts {w : WarpRef} : Accepts (execSpillStep w s) := by
  unfold execSpillStep
  dsimp only
  split
  · exact accepts_ite accepts_next (withPins_accepts fun _ => accepts_next)
  · exact accepts_next

theorem execRefillRow_accepts {w : WarpRef} {row : Nat} : Accepts (execRefillRow w row s) := by
  unfold execRefillRow
  dsimp only
  split
  · refine accepts_ite accepts_next (accepts_ite accepts_next (withPins_accepts fun s => ?_))
    split
    · exact accepts_next
    · exact readLines_accepts (fun _ _ => accepts_next) (fun _ _ => accepts_next)
  · exact accepts_next

theorem execWindowConflictTimeout_accepts {r : SplitRef} : Accepts (execWindowConflictTimeout r s) := by
  unfold execWindowConflictTimeout
  dsimp only
  split
  · exact accepts_next
  · split
    · exact accepts_next
    · exact accepts_ite accepts_next accepts_next

theorem execArenaWritePerformed_accepts {w : WarpRef} {row : Nat} : Accepts (execArenaWritePerformed w row s) := by
  unfold execArenaWritePerformed
  dsimp only
  split
  · exact accepts_next
  · exact writeLines_accepts (fun _ _ => accepts_next) (fun _ => accepts_next)

theorem execMmaExecute_accepts {id : Nat} : Accepts (execMmaExecute id s) := atTurn_accepts fun _ _ => accepts_next

theorem execAcczExecute_accepts {id : Nat} : Accepts (execAcczExecute id s) := atTurn_accepts fun _ _ => accepts_next

theorem accldLine_accepts {id : Nat} {o : Op} : Accepts (accldLine id o s) := by
  unfold accldLine
  exact readLines_accepts (fun _ _ => accepts_next) (fun _ _ => accepts_next)

theorem execAccldExecute_accepts {id : Nat} : Accepts (execAccldExecute id s) :=
  withOp_accepts fun _ _ => accepts_ite accepts_next (accepts_ite accepts_next (accepts_ite accepts_next accldLine_accepts))

theorem execAccrdExecute_accepts {id : Nat} : Accepts (execAccrdExecute id s) := atTurn_accepts fun _ _ => accepts_next

theorem execAccqExecute_accepts {id : Nat} : Accepts (execAccqExecute id s) := atTurn_accepts fun _ _ => accepts_next

theorem drainRow_accepts {id : Nat} {o : Op} {d : DrainDesc} {gs : List Seg × List Seg} : Accepts (drainRow id o d gs s) :=
  accepts_ite (readLines_accepts (fun _ _ => accepts_next) (fun _ _ => accepts_next))
    (accepts_ite (writeLines_accepts (fun _ _ => accepts_next) (fun _ => accepts_next)) accepts_next)

theorem execDrainExecute_accepts {id : Nat} : Accepts (execDrainExecute id s) :=
  atTurn_accepts fun o s => accepts_ite drainRow_accepts (accepts_ite accepts_next (accepts_ite accepts_next (accepts_ite accepts_next (by
        split
        · exact accepts_next
        · exact drainRow_accepts))))

theorem execXshflPosting_accepts {op l : Nat} : Accepts (execXshflPosting op l s) :=
  withTripOp_accepts fun o s => by
    split
    · exact accepts_fault
    · exact reflectTrip_accepts

theorem execXshflDelivery_accepts {op l : Nat} {v : Dword} : Accepts (execXshflDelivery op l v s) :=
  withOp_accepts fun _ _ => accepts_next

theorem execLaneExitNotice_accepts {w : WarpRef} {l : Nat} : Accepts (execLaneExitNotice w l s) := reflectTrip_accepts

theorem execPartnerScratchpadAccess_accepts {id : Nat} : Accepts (execPartnerScratchpadAccess id s) :=
  request_accepts fun _ _ _ => accepts_ite accepts_next accepts_next

theorem execLaunchCommand_accepts {die slot : Nat} {index : Dword} : Accepts (execLaunchCommand die slot index s) :=
  accepts_ite accepts_next (accepts_ite accepts_next (accepts_ite accepts_next (accepts_ite accepts_next
    (accepts_ite accepts_next (guardedRead_accepts (fun _ _ => accepts_next)
      (fun _ _ _ => accepts_ite accepts_next (accepts_ite accepts_next accepts_next)))))))

theorem execNullCommand_accepts {die slot : Nat} {index : Dword} : Accepts (execNullCommand die slot index s) :=
  accepts_ite accepts_next (accepts_ite accepts_next accepts_next)

theorem placeLook_accepts {e : Instr} {hdr : Option Stop} {t : Trip} : Accepts (placeLook e hdr t s) :=
  accepts_ite
    (atBlock_accepts fun s => accepts_ite accepts_next (by
      split
      · exact accepts_next
      · exact accepts_next))
    (atBlock_accepts fun _ => accepts_next)

theorem placeStep_accepts {die id : Nat} : Accepts (placeStep die id s) := by
  unfold placeStep
  dsimp only
  split
  · exact accepts_next
  · exact withPins_accepts fun _ => journey_accepts (fun _ _ => placeLook_accepts) (fun _ _ => accepts_next)

theorem freeStep_accepts {die ctx : Nat} {pool : Dword} {i : Nat} : Accepts (freeStep die ctx pool i s) := by
  unfold freeStep
  exact withPins_accepts fun _ => journey_accepts (fun _ _ => atBlock_accepts fun _ => accepts_next) (fun _ _ => accepts_next)

theorem restoreStep_accepts {die : Nat} {p : Pend} {t : Nat} {f : Fit} : Accepts (restoreStep die p t f s) := by
  unfold restoreStep
  dsimp only
  split
  · exact withPins_accepts fun _ => accepts_next
  · exact accepts_next

theorem execTeamPlace_accepts {die : Nat} : Accepts (execTeamPlace die s) := by
  unfold execTeamPlace
  dsimp only
  split
  · exact placeStep_accepts
  · exact freeStep_accepts
  · split
    · exact accepts_next
    · split
      · exact restoreStep_accepts
      · exact accepts_next

theorem execPriorityAging_accepts {launch die : Nat} : Accepts (execPriorityAging launch die s) := accepts_next

theorem execReservationTimeout_accepts {die : Nat} : Accepts (execReservationTimeout die s) := by
  unfold execReservationTimeout
  dsimp only
  split
  · exact accepts_next
  · exact accepts_next

theorem execPreemptDrainDeadline_accepts {id : Nat} : Accepts (execPreemptDrainDeadline id s) := by
  unfold execPreemptDrainDeadline
  dsimp only
  split
  · exact accepts_next
  · exact accepts_ite accepts_next accepts_next

theorem execPreemptSaveDeadline_accepts {id : Nat} : Accepts (execPreemptSaveDeadline id s) := by
  unfold execPreemptSaveDeadline
  split
  · exact accepts_next
  · exact accepts_next

theorem execWarpIssueSelect_accepts {core quad : Nat} : Accepts (execWarpIssueSelect core quad s) :=
  accepts_ite accepts_next (by
    dsimp only
    split
    · exact accepts_next
    · exact accepts_next)

theorem execForcedDemotionTimeout_accepts {core quad : Nat} : Accepts (execForcedDemotionTimeout core quad s) := by
  unfold execForcedDemotionTimeout
  split
  · exact accepts_next
  · exact accepts_next

theorem execParkCountExpiry_accepts {r : SplitRef} : Accepts (execParkCountExpiry r s) := accepts_next

theorem execEventChangeApply_accepts {ctx event : Nat} {n : Word} : Accepts (execEventChangeApply ctx event n s) :=
  accepts_next

theorem execPubvApply_accepts {id : Nat} : Accepts (execPubvApply id s) :=
  withOp_accepts fun o s => by
    dsimp only
    split
    · exact accepts_next
    · exact accepts_ite accepts_next (accepts_ite accepts_next accepts_next)

theorem execStoprefApply_accepts {ctx event : Nat} : Accepts (execStoprefApply ctx event s) := accepts_next

theorem execVchkRead_accepts {id : Nat} : Accepts (execVchkRead id s) :=
  withOp_accepts fun o s => by
    split
    · exact accepts_next
    · exact accepts_next

theorem execConsumerFire_accepts {id : Nat} : Accepts (execConsumerFire id s) := by
  unfold execConsumerFire
  split
  · exact accepts_next
  · exact accepts_ite accepts_next (accepts_ite accepts_next accepts_next)

theorem execOwnerRetire_accepts {id : Nat} : Accepts (execOwnerRetire id s) := by
  unfold execOwnerRetire
  dsimp only
  split
  · exact accepts_next
  · exact accepts_ite accepts_next accepts_next

theorem execCommandSettle_accepts {id : Nat} : Accepts (execCommandSettle id s) := by
  unfold execCommandSettle
  dsimp only
  split
  · exact accepts_next
  · exact accepts_ite accepts_next accepts_next

theorem execQueueBindPending_accepts {ctx qid : Nat} : Accepts (execQueueBindPending ctx qid s) := by
  unfold execQueueBindPending
  dsimp only
  split
  · exact accepts_next
  · refine accepts_ite accepts_next ?_
    split
    · exact accepts_next
    · exact accepts_next

theorem execQueueCommandPull_accepts {die slot : Nat} : Accepts (execQueueCommandPull die slot s) :=
  accepts_ite accepts_next (accepts_ite accepts_next (accepts_ite accepts_next
    (guardedRead_accepts (fun _ _ => accepts_next) (fun bs ts s => by
        dsimp only
        split
        · exact accepts_next
        · exact accepts_next
        · exact accepts_next))))

theorem execTeamHalt_accepts {t : Nat} : Accepts (execTeamHalt t s) := by
  unfold execTeamHalt
  split
  · exact accepts_next
  · exact accepts_ite accepts_next accepts_next

theorem execTeamSave_accepts {t : Nat} : Accepts (execTeamSave t s) := by
  unfold execTeamSave
  dsimp only
  split
  · exact accepts_next
  · refine accepts_ite (accepts_ite (accepts_ite accepts_next accepts_next) accepts_next) (accepts_ite accepts_next
      (accepts_ite ?_ (accepts_ite accepts_next (accepts_ite accepts_next (accepts_ite accepts_next accepts_next)))))
    split
    · exact accepts_next
    · exact writeRegions_accepts fun _ => accepts_next

theorem execTeamRestore_accepts {t : Nat} : Accepts (execTeamRestore t s) := by
  unfold execTeamRestore
  dsimp only
  split
  · exact accepts_ite accepts_next (accepts_ite accepts_next (withPins_accepts fun _ =>
      readRegions_accepts fun _ _ => accepts_next))
  · exact accepts_next

theorem execWarpRelease_accepts {w : WarpRef} : Accepts (execWarpRelease w s) := by
  unfold execWarpRelease
  dsimp only
  split
  · exact accepts_ite accepts_next (accepts_ite accepts_next (accepts_ite accepts_next (accepts_ite accepts_next accepts_next)))
  · exact accepts_next

theorem execHangReport_accepts {w : WarpRef} : Accepts (execHangReport w s) := by
  unfold execHangReport
  dsimp only
  split
  · exact accepts_ite (writeRegions_accepts fun _ => accepts_next) (accepts_ite accepts_next accepts_next)
  · exact accepts_next

theorem execPowerGate_accepts {core : Nat} : Accepts (execPowerGate core s) := accepts_next

theorem execCoreWake_accepts {core : Nat} : Accepts (execCoreWake core s) := accepts_next

theorem execSpawnRequest_accepts {r : SplitRef} {addr : Dword} : Accepts (execSpawnRequest r addr s) := by
  unfold execSpawnRequest
  dsimp only
  split
  · exact accepts_next
  · exact accepts_ite accepts_next (accepts_ite accepts_next (dispatchRead_accepts (fun _ _ => accepts_next)
      (fun _ _ _ => accepts_ite accepts_next (accepts_ite accepts_next accepts_next))))

theorem execEventWaiterEntry_accepts {r : SplitRef} {ctx event : Nat} {t : Word} :
    Accepts (execEventWaiterEntry r ctx event t s) := by
  unfold execEventWaiterEntry
  split
  · exact accepts_next
  · exact accepts_ite accepts_next (accepts_ite accepts_next accepts_next)

theorem execInstructionFetch_accepts {r : SplitRef} : Accepts (execInstructionFetch r s) := by
  unfold execInstructionFetch
  dsimp only
  split
  · exact accepts_fault
  · split
    · exact accepts_next
    · exact accepts_next
    · exact accepts_next
    · exact accepts_next

theorem execPackageReset_accepts : Accepts (execPackageReset s) := by
  unfold execPackageReset
  dsimp only
  split
  · exact accepts_ite accepts_next accepts_next
  · exact accepts_next

theorem execThermalTrip_accepts : Accepts (execThermalTrip s) := accepts_next

theorem execGctHello_accepts : Accepts (execGctHello s) := by
  unfold execGctHello
  dsimp only
  split
  · exact accepts_next
  · exact accepts_ite accepts_next accepts_next

theorem execGctAuth_accepts : Accepts (execGctAuth s) := by
  unfold execGctAuth
  dsimp only
  split
  · exact accepts_next
  · split
    · exact accepts_next
    · refine accepts_ite accepts_next ?_
      split
      · exact accepts_next
      · exact accepts_next

theorem execGctData_accepts : Accepts (execGctData s) := by
  unfold execGctData
  dsimp only
  split
  · exact accepts_next
  · refine accepts_ite accepts_next (accepts_ite accepts_next ?_)
    split
    · exact accepts_next
    · exact accepts_ite accepts_next (accepts_ite accepts_next (accepts_ite accepts_next accepts_next))

theorem execGctAck_accepts : Accepts (execGctAck s) := by
  unfold execGctAck
  split
  · exact accepts_next
  · split
    · exact accepts_next
    · exact accepts_next

theorem execGctClose_accepts : Accepts (execGctClose s) := by
  unfold execGctClose
  split
  · exact accepts_next
  · split
    · exact accepts_next
    · exact accepts_next

theorem execFabricStreamResetReceived_accepts : Accepts (execFabricStreamResetReceived s) := by
  unfold execFabricStreamResetReceived
  dsimp only
  split
  · exact accepts_next
  · exact accepts_next

theorem execFabricRead_accepts : Accepts (execFabricRead s) := atTarget_accepts

theorem execFabricWrite_accepts : Accepts (execFabricWrite s) := atTarget_accepts

theorem execFabricAtomic_accepts : Accepts (execFabricAtomic s) := atTarget_accepts

theorem execFabricRwrite_accepts : Accepts (execFabricRwrite s) := locketFromFabric_accepts

theorem execFabricToken_accepts : Accepts (execFabricToken s) := locketFromFabric_accepts

theorem execFabricKick_accepts : Accepts (execFabricKick s) := received_accepts fun _ _ _ => accepts_next

theorem execFabricReplyArrival_accepts : Accepts (execFabricReplyArrival s) := by
  unfold execFabricReplyArrival
  split
  · exact accepts_next
  · split
    · exact accepts_next
    · exact accepts_next
    · exact accepts_next
    · exact accepts_next

theorem execTargetPackageReset_accepts : Accepts (execTargetPackageReset s) := by
  unfold execTargetPackageReset
  split
  · exact accepts_next
  · exact accepts_next

theorem execStreamResetAck_accepts : Accepts (execStreamResetAck s) := by
  unfold execStreamResetAck
  split
  · exact accepts_next
  · exact accepts_next

end

theorem exec_event_accepts {i : Instr} (s : State) (h : (fieldsOf i).isSome = false) : Accepts (exec i s) := by
  cases i with
  | thermalThrottle _ => exact execThermalThrottle_accepts
  | helloForgetTimeout _ => exact execHelloForgetTimeout_accepts
  | sessionIdleTimeout _ => exact execSessionIdleTimeout_accepts
  | dataRetransmitTimeout _ _ _ => exact execDataRetransmitTimeout_accepts
  | memoryReadVirtual _ _ _ _ => exact execMemoryReadVirtual_accepts
  | memoryReadPhysical _ _ _ _ => exact execMemoryReadPhysical_accepts
  | memoryWriteVirtual _ _ _ _ => exact execMemoryWriteVirtual_accepts
  | memoryWritePhysical _ _ _ _ => exact execMemoryWritePhysical_accepts
  | kick _ _ _ _ => exact execKick_accepts
  | createContext _ => exact execCreateContext_accepts
  | destroyContext _ _ => exact execDestroyContext_accepts
  | setRootTable _ _ _ => exact execSetRootTable_accepts
  | setEventCount _ _ _ _ => exact execSetEventCount_accepts
  | setRefinableSet _ _ _ _ _ => exact execSetRefinableSet_accepts
  | shootdown _ _ _ _ => exact execShootdown_accepts
  | grantContext _ _ _ => exact execGrantContext_accepts
  | bindUserQueue _ _ _ _ _ => exact execBindUserQueue_accepts
  | unbindUserQueue _ _ _ => exact execUnbindUserQueue_accepts
  | resumeQueueRetry _ _ _ => exact execResumeQueueRetry_accepts
  | resumeQueueSkip _ _ _ => exact execResumeQueueSkip_accepts
  | setHostEventRing _ _ _ _ => exact execSetHostEventRing_accepts
  | advanceReadIndex _ _ _ => exact execAdvanceReadIndex_accepts
  | assignNodeId _ _ => exact execAssignNodeId_accepts
  | writeRouteTable _ _ _ _ => exact execWriteRouteTable_accepts
  | writeExport _ _ _ _ _ _ => exact execWriteExport_accepts
  | streamReset _ _ => exact execStreamReset_accepts
  | readForeignKickCounters _ => exact execReadForeignKickCounters_accepts
  | controlResume _ => exact execControlResume_accepts
  | controlAbandon _ => exact execControlAbandon_accepts
  | controlStep _ => exact execControlStep_accepts
  | teamHeaderWrite _ _ _ => exact execTeamHeaderWrite_accepts
  | fraukLinkUp _ => exact execFraukLinkUp_accepts
  | linkReplayRequest _ _ => exact execLinkReplayRequest_accepts
  | linkReset _ => exact execLinkReset_accepts
  | flitReplay _ _ => exact execFlitReplay_accepts
  | fabricRetransmitTimeout _ _ => exact execFabricRetransmitTimeout_accepts
  | sliceLoad _ => exact execSliceLoad_accepts
  | sliceStore _ => exact execSliceStore_accepts
  | sliceAtomic _ => exact execSliceAtomic_accepts
  | checkRequest _ => exact execCheckRequest_accepts
  | writeBackArrival _ _ _ _ _ _ => exact execWriteBackArrival_accepts
  | updateOnlyObtain _ => exact execUpdateOnlyObtain_accepts
  | partialResultCombine _ _ _ _ _ _ _ _ => exact execPartialResultCombine_accepts
  | recallDelivery _ _ => exact execRecallDelivery_accepts
  | sliceFillComplete _ _ => exact execSliceFillComplete_accepts
  | sliceWriteBackComplete _ _ => exact execSliceWriteBackComplete_accepts
  | hostAccessAtSlice _ _ => exact execHostAccessAtSlice_accepts
  | remoteWriteApply _ => exact execRemoteWriteApply_accepts
  | tokenApply _ => exact execTokenApply_accepts
  | emptyRequestApply _ => exact execEmptyRequestApply_accepts
  | mintRequestApply _ => exact execMintRequestApply_accepts
  | saveRecordRemove _ => exact execSaveRecordRemove_accepts
  | restoreRecordInstall _ => exact execRestoreRecordInstall_accepts
  | imageWrite _ => exact execImageWrite_accepts
  | watchRequest _ => exact execWatchRequest_accepts
  | pushReservation _ => exact execPushReservation_accepts
  | pushWrite _ => exact execPushWrite_accepts
  | popReservation _ => exact execPopReservation_accepts
  | popRead _ => exact execPopRead_accepts
  | heldRequestResend _ => exact execHeldRequestResend_accepts
  | tableWalkStep _ _ _ _ _ => exact execTableWalkStep_accepts
  | constLineFetch _ _ => exact execConstLineFetch_accepts
  | replyArrival _ => exact execReplyArrival_accepts
  | locketDelivery _ _ _ _ => exact execLocketDelivery_accepts
  | flushMarkerArrival _ => exact execFlushMarkerArrival_accepts
  | wokenDelivery _ => exact execWokenDelivery_accepts
  | waitmTimeout _ => exact execWaitmTimeout_accepts
  | ksendTokenSend _ => exact execKsendTokenSend_accepts
  | copyDescriptorEnqueue _ => exact execCopyDescriptorEnqueue_accepts
  | copyStart _ _ => exact execCopyStart_accepts
  | copyChunk _ _ => exact execCopyChunk_accepts
  | copyQueryRequest _ => exact execCopyQueryRequest_accepts
  | spillStep _ => exact execSpillStep_accepts
  | refillRow _ _ => exact execRefillRow_accepts
  | windowConflictTimeout _ => exact execWindowConflictTimeout_accepts
  | arenaWritePerformed _ _ => exact execArenaWritePerformed_accepts
  | mmaExecute _ => exact execMmaExecute_accepts
  | acczExecute _ => exact execAcczExecute_accepts
  | accldExecute _ => exact execAccldExecute_accepts
  | accrdExecute _ => exact execAccrdExecute_accepts
  | accqExecute _ => exact execAccqExecute_accepts
  | drainExecute _ => exact execDrainExecute_accepts
  | xshflPosting _ _ => exact execXshflPosting_accepts
  | xshflDelivery _ _ _ => exact execXshflDelivery_accepts
  | laneExitNotice _ _ => exact execLaneExitNotice_accepts
  | partnerScratchpadAccess _ => exact execPartnerScratchpadAccess_accepts
  | launchCommand _ _ _ => exact execLaunchCommand_accepts
  | nullCommand _ _ _ => exact execNullCommand_accepts
  | teamPlace _ => exact execTeamPlace_accepts
  | priorityAging _ _ => exact execPriorityAging_accepts
  | reservationTimeout _ => exact execReservationTimeout_accepts
  | preemptDrainDeadline _ => exact execPreemptDrainDeadline_accepts
  | preemptSaveDeadline _ => exact execPreemptSaveDeadline_accepts
  | warpIssueSelect core quad => exact execWarpIssueSelect_accepts (core := core) (quad := quad) (s := s)
  | forcedDemotionTimeout _ _ => exact execForcedDemotionTimeout_accepts
  | parkCountExpiry _ => exact execParkCountExpiry_accepts
  | eventChangeApply _ _ _ => exact execEventChangeApply_accepts
  | pubvApply _ => exact execPubvApply_accepts
  | stoprefApply _ _ => exact execStoprefApply_accepts
  | vchkRead _ => exact execVchkRead_accepts
  | consumerFire _ => exact execConsumerFire_accepts
  | ownerRetire _ => exact execOwnerRetire_accepts
  | commandSettle _ => exact execCommandSettle_accepts
  | queueBindPending _ _ => exact execQueueBindPending_accepts
  | queueCommandPull _ _ => exact execQueueCommandPull_accepts
  | teamHalt _ => exact execTeamHalt_accepts
  | teamSave _ => exact execTeamSave_accepts
  | teamRestore _ => exact execTeamRestore_accepts
  | warpRelease _ => exact execWarpRelease_accepts
  | hangReport _ => exact execHangReport_accepts
  | powerGate _ => exact execPowerGate_accepts
  | coreWake _ => exact execCoreWake_accepts
  | spawnRequest _ _ => exact execSpawnRequest_accepts
  | eventWaiterEntry _ _ _ _ => exact execEventWaiterEntry_accepts
  | instructionFetch _ => exact execInstructionFetch_accepts
  | packageReset => exact execPackageReset_accepts
  | thermalTrip => exact execThermalTrip_accepts
  | gctHello => exact execGctHello_accepts
  | gctAuth => exact execGctAuth_accepts
  | gctData => exact execGctData_accepts
  | gctAck => exact execGctAck_accepts
  | gctClose => exact execGctClose_accepts
  | fabricStreamResetReceived => exact execFabricStreamResetReceived_accepts
  | fabricRead => exact execFabricRead_accepts
  | fabricWrite => exact execFabricWrite_accepts
  | fabricAtomic => exact execFabricAtomic_accepts
  | fabricRwrite => exact execFabricRwrite_accepts
  | fabricToken => exact execFabricToken_accepts
  | fabricKick => exact execFabricKick_accepts
  | fabricReplyArrival => exact execFabricReplyArrival_accepts
  | targetPackageReset => exact execTargetPackageReset_accepts
  | streamResetAck => exact execStreamResetAck_accepts
  | _ => nomatch h


theorem exec_accepts (i : Instr) (s : State) : Accepts (exec i s) := by
  cases h : (fieldsOf i).isSome
  · exact exec_event_accepts s h
  · exact (exec_word_ends s h).accepts

/-! ### The choice of the next event -/

/-- Taking in what has come from outside, and choosing, leave the memory, the teams and the agenda, and no cycle passes. -/
def State.sameWork (s t : State) : Prop := t.mem = s.mem ∧ t.teams = s.teams ∧ t.agenda = s.agenda ∧ t.clock = s.clock

theorem State.sameWork.trans {s t u : State} (h : s.sameWork t) (g : t.sameWork u) : s.sameWork u := by
  obtain ⟨hm, ht, ha, hc⟩ := h
  obtain ⟨gm, gt, ga, gc⟩ := g
  exact ⟨gm.trans hm, gt.trans ht, ga.trans ha, gc.trans hc⟩

theorem foldl_sameWork {α : Type} {f : State → α → State} (hf : ∀ (s : State) x, s.sameWork (f s x)) (xs : List α) (s : State) :
    s.sameWork (xs.foldl f s) := by
  induction xs generalizing s with
  | nil => exact ⟨rfl, rfl, rfl, rfl⟩
  | cons x xs ih => exact (hf s x).trans (ih (f s x))

theorem receive_sameWork (a : Arrival) (s : State) : s.sameWork (receive a s) := by
  unfold receive
  dsimp only
  split
  · exact ⟨rfl, rfl, rfl, rfl⟩
  · exact ⟨rfl, rfl, rfl, rfl⟩

theorem takeFrame_sameWork (s : State) (fr : List Byte) : s.sameWork (takeFrame s fr) := by
  cases h : acceptFrame s fr with
  | none =>
    rw [takeFrame_dropped h]
    exact ⟨rfl, rfl, rfl, rfl⟩
  | some a =>
    rw [takeFrame_accepted h]
    exact receive_sameWork a s

theorem takeFrames_sameWork (s : State) : s.sameWork (takeFrames s) := by
  unfold takeFrames
  split
  · exact ⟨rfl, rfl, rfl, rfl⟩
  · exact foldl_sameWork takeFrame_sameWork s.rxFrames { s with rxFrames := [] }

theorem takeFlits_sameWork (s : State) : s.sameWork (takeFlits s) :=
  foldl_sameWork (fun s e => by
    split
    · exact ⟨rfl, rfl, rfl, rfl⟩
    · exact ⟨rfl, rfl, rfl, rfl⟩) s.ports s

theorem takeInputs_sameWork (s : State) : s.sameWork (takeInputs s) := by
  unfold takeInputs
  split
  · exact ⟨rfl, rfl, rfl, rfl⟩
  · exact (takeFrames_sameWork s).trans (takeFlits_sameWork _)

theorem choose_sameWork (s : State) (n : Nat) : s.sameWork (s.choose n).2 := by
  unfold State.choose
  split
  · exact ⟨rfl, rfl, rfl, rfl⟩
  · exact ⟨rfl, rfl, rfl, rfl⟩

theorem choose_lt {s : State} {n : Nat} (h : 0 < n) : (s.choose n).1 < n := by
  unfold State.choose
  split
  · exact h
  · exact Nat.mod_lt _ h

theorem nextEvent_nil {s : State} (h : candidates s = []) : nextEvent s = (none, s) := by
  unfold nextEvent
  rw [h]
  rfl

theorem nextEvent_of_ne_nil {s : State} (h : candidates s ≠ []) :
    ∃ e ∈ candidates s, nextEvent s = (some e, (s.choose (candidates s).length).2.cancel e) := by
  have hlt := choose_lt (s := s) (List.length_pos_iff.mpr h)
  refine ⟨_, List.getElem_mem hlt, ?_⟩
  unfold nextEvent
  dsimp only
  rw [List.getElem?_eq_getElem hlt]

theorem step_of_nextEvent {s t : State} {e : Instr} (h : s.cur = none)
    (hn : nextEvent (takeInputs (tickClock s)) = (some e, t)) : step s = exec e t := by
  unfold step
  rw [h]
  dsimp only
  rw [hn]

theorem step_of_no_event {s t : State} (h : s.cur = none) (hn : nextEvent (takeInputs (tickClock s)) = (none, t)) :
    step s = .next t := by
  unfold step
  rw [h]
  dsimp only
  rw [hn]

theorem candidates_of_stopped {s : State} {e : Instr} (h : s.stopped = true) (he : e ∈ candidates s) : e = .packageReset := by
  unfold candidates at he
  rw [if_pos h] at he
  simpa using (List.mem_filter.mp he).2

/-- Settles O55: each instruction word goes on where a split issues (exec_word_ends), no event is without a meaning
(exec_event_accepts), and the next event is one of the candidates. -/
theorem everyInstructionCompletes : Obligations.EveryInstructionCompletes := by
  unfold Obligations.EveryInstructionCompletes
  intro s _
  refine ⟨fun i r => exec_accepts i s r, fun i c hi hc => (exec_word_ends s hi).goes hc, fun hcur => ?_⟩
  obtain ⟨hm, ht, ha, hc⟩ := takeInputs_sameWork (tickClock s)
  refine ⟨fun h => ?_, fun h => ?_, fun h e he => candidates_of_stopped h he⟩
  · exact ⟨takeInputs (tickClock s), step_of_no_event hcur (nextEvent_nil h), hm, ht, ha⟩
  · obtain ⟨e, he, hnext⟩ := nextEvent_of_ne_nil h
    obtain ⟨gm, gt, ga, gc⟩ := choose_sameWork (takeInputs (tickClock s)) (candidates (takeInputs (tickClock s))).length
    refine ⟨e, _, he, step_of_nextEvent hcur hnext, gm.trans hm, gt.trans ht, fun x hx => ?_, ?_⟩
    · rw [← show _ = s.agenda from ga.trans ha]
      exact List.mem_of_mem_erase (show x ∈ List.erase _ e from hx)
    · calc s.clock ≤ (tickClock s).clock := Nat.le_add_right _ _
        _ = _ := (gc.trans hc).symm

end Sys2Proof.Machine

namespace Sys2Proof.Machine

/-! ## Lines of a slice -/

section
variable {s : State}

theorem State.sline_modSline (h l h' l' : Nat) (f : SliceLine → SliceLine) :
    (s.modSline h l f).sline h' l' = if h' = h ∧ l' = l then f (s.sline h l) else s.sline h' l' := by
  unfold State.sline State.modSline
  rw [State.slice_modSlice]
  by_cases hh : h' = h
  · subst hh
    by_cases hl : l' = l
    · subst hl
      simp
    · simp [hl, Tab.get_modify_other]
  · simp [hh]

@[simp] theorem State.sline_modSline_self (h l : Nat) (f : SliceLine → SliceLine) :
    (s.modSline h l f).sline h l = f (s.sline h l) := by
  simp [State.sline_modSline]

/-- A change of a slice that keeps its lines. -/
theorem State.sline_modSlice {h : Nat} {f : Slice → Slice} (hf : ∀ x, (f x).lines = x.lines) (h' l : Nat) :
    (s.modSlice h f).sline h' l = s.sline h' l := by
  unfold State.sline
  rw [State.slice_modSlice]
  split
  · next e => rw [hf, e]
  · rfl

@[simp] theorem State.sline_push (es : List Instr) (h l : Nat) : (s.push es).sline h l = s.sline h l := rfl

theorem State.slice_modSline (h l h' : Nat) (f : SliceLine → SliceLine) :
    (s.modSline h l f).slice h'
      = if h' = h then { s.slice h with lines := (s.slice h).lines.modify {} l f } else s.slice h' :=
  State.slice_modSlice ..

@[simp] theorem State.sync_modSline (h l h' : Nat) (f : SliceLine → SliceLine) :
    ((s.modSline h l f).slice h').sync = (s.slice h').sync := by
  rw [State.slice_modSline]
  split
  · next e => rw [e]
  · rfl

@[simp] theorem State.res_modSline (h l h' : Nat) (f : SliceLine → SliceLine) :
    ((s.modSline h l f).slice h').res = (s.slice h').res := by
  rw [State.slice_modSline]
  split
  · next e => rw [e]
  · rfl

/-! ## Turns at a slice -/

/-- Events come before all others of the agenda. -/
def State.ahead (s : State) (es : List Instr) : State := { s with agenda := es ++ s.agenda }

@[simp] theorem State.ahead_mem (es : List Instr) : (s.ahead es).mem = s.mem := rfl
@[simp] theorem State.ahead_tags (es : List Instr) : (s.ahead es).tags = s.tags := rfl
@[simp] theorem State.ahead_ops (es : List Instr) : (s.ahead es).ops = s.ops := rfl
@[simp] theorem State.ahead_slice (es : List Instr) (h : Nat) : (s.ahead es).slice h = s.slice h := rfl
@[simp] theorem State.ahead_sline (es : List Instr) (h l : Nat) : (s.ahead es).sline h l = s.sline h l := rfl

theorem State.mem_ahead {x : Instr} (h : x ∈ s.agenda) (es : List Instr) : x ∈ (s.ahead es).agenda := List.mem_append_right es h

theorem wakeRoom_ahead (home : Nat) (s : State) : ∃ es, wakeRoom home s = s.ahead es := by
  unfold wakeRoom
  split
  · exact ⟨[], rfl⟩
  · exact ⟨_, rfl⟩

theorem nextWaiter_ahead (home line : Nat) (s : State) : ∃ es, nextWaiter home line s = s.ahead es := by
  unfold nextWaiter
  split
  · exact ⟨[], rfl⟩
  · next e _ _ =>
    split
    · exact ⟨[], rfl⟩
    · exact ⟨[e], rfl⟩

/-- After a turn the events of those who come next stand in the agenda; nothing else is touched. -/
theorem afterTurn_ahead (home line : Nat) (s : State) : ∃ es, afterTurn home line s = s.ahead es := by
  obtain ⟨es, he⟩ := nextWaiter_ahead home line s
  obtain ⟨fs, hf⟩ := wakeRoom_ahead home (s.ahead es)
  refine ⟨fs ++ es, ?_⟩
  rw [afterTurn, he, hf, State.ahead, State.ahead, State.ahead, List.append_assoc]

/-- The request has its turn: it is noted through which slice the line is accessed, and waits no longer. -/
def Ask.taken (a : Ask) (e : Instr) (s : State) : State :=
  if a.note then noteHome a.home a.line (a.leave e s) else a.leave e s

theorem noteHome_homes (home line : Nat) (s : State) : ∃ hs, noteHome home line s = { s with homes := hs } := by
  unfold noteHome
  dsimp only
  split
  · exact ⟨_, rfl⟩
  · exact ⟨_, rfl⟩

theorem Ask.taken_homes (a : Ask) (e : Instr) (s : State) : ∃ hs, a.taken e s = { a.leave e s with homes := hs } := by
  unfold Ask.taken
  split
  · exact noteHome_homes ..
  · exact ⟨_, rfl⟩

theorem atSlice_done {a : Ask} {e : Instr} {s t : State} {refuse : State → Option State} {k : State → Out}
    (h : a.turn e s = true) (hr : refuse s = none) (hc : a.calm s = true)
    (hi : a.hold = false ∨ (s.sline a.home a.line).state ≠ .inv) (hk : k (a.taken e s) = .next t) :
    ∃ es, atSliceWith a e s refuse k = .next (t.ahead es) := by
  obtain ⟨es, he⟩ := afterTurn_ahead a.home a.line t
  refine ⟨es, ?_⟩
  rw [atSlice_performs h hr hc hi]
  unfold Ask.taken at hk
  rw [hk, ← he]

theorem Ask.turn_of {a : Ask} {e : Instr} (hb : (s.sline a.home a.line).state ≠ .busy)
    (hw : (s.sline a.home a.line).waiters = [] ∨ (s.sline a.home a.line).waiters.head? = some e) : a.turn e s = true := by
  unfold Ask.turn
  obtain hw | hw := hw
  · simp [hb, hw]
  · simp [hb, hw]

theorem Ask.calm_of {a : Ask} (h : (s.sline a.home a.line).uo = 0) : a.calm s = true := by simp [Ask.calm, h]

end

/-! ## Home slices of lines -/

theorem lineHomes_congr {s t : State} (hh : t.homes = s.homes) (hc : t.contexts = s.contexts) (hm : t.mem = s.mem) (line : Nat) :
    lineHomes t line = lineHomes s line := by
  unfold lineHomes
  rw [hh, hc, hm]

theorem mixedHome_congr {s t : State} (hh : t.homes = s.homes) (hc : t.contexts = s.contexts) (hm : t.mem = s.mem)
    (home line : Nat) : mixedHome t home line = mixedHome s home line := by
  unfold mixedHome
  rw [lineHomes_congr hh hc hm]

theorem lineHomes_noteHome_other {home line j : Nat} (s : State) (h : j ≠ line) :
    lineHomes (noteHome home line s) j = lineHomes s j := by
  unfold noteHome
  dsimp only
  split
  · rfl
  · unfold lineHomes
    dsimp only
    rw [Tab.get_set_other _ _ _ h]

theorem mem_lineHomes_noteHome {home line h : Nat} {s : State} (hm : h ∈ lineHomes (noteHome home line s) line) :
    h ∈ lineHomes s line ∨ h = home := by
  unfold noteHome at hm
  dsimp only at hm
  split at hm
  · exact .inl hm
  · unfold lineHomes at hm ⊢
    simp only [List.mem_dedup, List.mem_append, Tab.get_set_self, List.mem_singleton] at hm ⊢
    tauto

theorem mixedHome_eq_false {s : State} {home line : Nat} : mixedHome s home line = false ↔ ∀ h ∈ lineHomes s line, h = home := by
  simp [mixedHome]

theorem mixedHome_noteHome {s : State} {home line : Nat} (h : mixedHome s home line = false) :
    mixedHome (noteHome home line s) home line = false := by
  rw [mixedHome_eq_false] at h ⊢
  intro x hx
  obtain hx | hx := mem_lineHomes_noteHome hx
  · exact h x hx
  · exact hx

theorem twoHomes_eq_false {s : State} {home line : Nat} (h : mixedHome s home line = false) : twoHomes s line = false := by
  have hall := mixedHome_eq_false.mp h
  have hsub : lineHomes s line ⊆ [home] := fun x hx => by simp [hall x hx]
  have hnodup : (lineHomes s line).Nodup := List.nodup_dedup _
  have hlen : (lineHomes s line).length ≤ 1 := (hnodup.subperm hsub).length_le
  simp only [twoHomes, decide_eq_false_iff_not]
  omega

/-- A line whose accesses come through its one home slice stays so, and so does every other. -/
theorem twoHomes_noteHome {s : State} {home line : Nat} (h : mixedHome s home line = false) (j : Nat) :
    twoHomes (noteHome home line s) j = twoHomes s j := by
  by_cases hj : j = line
  · subst hj
    rw [twoHomes_eq_false h, twoHomes_eq_false (mixedHome_noteHome h)]
  · unfold twoHomes
    rw [lineHomes_noteHome_other s hj]

/-! ## What translation reads -/

/-- Two states in which every translation comes to the same. -/
structure SameMaps (s t : State) : Prop where
  contexts : t.contexts = s.contexts
  cores : t.cores = s.cores
  dies : t.dies = s.dies
  mem : t.mem = s.mem
  poison : t.poison = s.poison
  free : t.free = s.free
  two : ∀ j, twoHomes t j = twoHomes s j

section
variable {s t : State}

theorem SameMaps.readPte (h : SameMaps s t) (table : Nat) (va : Dword) (level : Nat) :
    readPte t table va level = readPte s table va level := by
  unfold Machine.readPte
  simp only [h.mem, h.poison, h.free, h.two]

theorem SameMaps.walkFrom (h : SameMaps s t) (va : Dword) (level table : Nat) :
    walkFrom t va level table = walkFrom s va level table := by
  induction level generalizing table with
  | zero => rfl
  | succ level ih => simp only [Machine.walkFrom, h.readPte, ih]

theorem SameMaps.lookup (h : SameMaps s t) (core ctx : Nat) (va : Dword) (k : Nat) :
    lookup t core ctx va k = lookup s core ctx va k := by
  unfold Machine.lookup walk walkHits State.context State.core State.die
  simp only [h.contexts, h.cores, h.dies, h.free, h.walkFrom]

theorem SameMaps.translate (h : SameMaps s t) (core ctx : Nat) (a : Agent) (store : Bool) (va : Dword) (k : Nat) :
    translate t core ctx a store va k = translate s core ctx a store va k := by
  rw [translate_eq, translate_eq, h.lookup]

theorem SameMaps.residentImage (h : SameMaps s t) (ht : t.teams = s.teams) (hl : t.launches = s.launches) (line : Nat) :
    residentImage t line = residentImage s line := by
  unfold Machine.residentImage
  simp only [ht, hl, h.translate]

end

/-! ## Checked accesses (R91) -/

section
variable {s : State} {r : Req} {o : Op} {p : Part}

theorem scopeCheck_ok {home line scope inst : Nat} (h : s.inScope home line scope inst) :
    ∃ xs, scopeCheck s home line scope inst
      = .ok (s.modSlice home (fun sl => { sl with sync := xs ++ [⟨scope, inst, line⟩] })) := by
  unfold scopeCheck
  dsimp only
  split
  · next x hx =>
    have hline : x.line = line := by simpa using List.find?_some hx
    rw [if_pos (h x (List.mem_of_find?_eq_some hx) hline)]
    exact ⟨_, rfl⟩
  · exact ⟨_, rfl⟩

theorem scopeCheck_error {home line scope inst : Nat} {x : SyncRec}
    (hx : (s.slice home).sync.find? (fun x => x.line = line) = some x) (hc : contains scope inst x.scope x.inst = false) :
    scopeCheck s home line scope inst = .error x := by
  unfold scopeCheck
  dsimp only
  rw [hx]
  simp [hc]

/-- An access to a line that R91 lets pass. -/
def Part.passes (p : Part) (o : Op) (s : State) : Prop := p.passed = true ∨ s.inScope p.home p.line o.scope (instOf o.scope o.core)

theorem scopeRefusal_none {chk : Bool} (h : chk = true → p.passes o s) : scopeRefusal r o p chk s = none := by
  unfold scopeRefusal
  cases chk with
  | false => rfl
  | true =>
    obtain hp | hp := h rfl
    · simp [hp]
    · obtain ⟨xs, hx⟩ := scopeCheck_ok hp
      simp [hx]

theorem scopeRefusal_some {x : SyncRec} (hx : (s.slice p.home).sync.find? (fun x => x.line = p.line) = some x)
    (hp : p.passed = false) (hc : contains o.scope (instOf o.scope o.core) x.scope x.inst = false) :
    scopeRefusal r o p true s = some (refuseAt r 3 tScope (lineAddr p.line) (lineMask o p.key) (syncWord x) s) := by
  unfold scopeRefusal
  simp [hp, scopeCheck_error hx hc]

theorem scopeCheck_of_ok {home line scope inst : Nat} {t : State} (h : scopeCheck s home line scope inst = .ok t) :
    ∃ xs, t = s.modSlice home (fun sl => { sl with sync := xs ++ [⟨scope, inst, line⟩] }) := by
  unfold scopeCheck at h
  dsimp only at h
  split at h
  · split at h
    · injection h with h
      exact ⟨_, h.symm⟩
    · cases h
  · injection h with h
    exact ⟨_, h.symm⟩

/-- The record of a checked access changes its slice's sync table at most. -/
theorem scopeRecord_cases (o : Op) (p : Part) (chk : Bool) (s : State) :
    scopeRecord o p chk s = s
      ∨ ∃ xs, scopeRecord o p chk s = s.modSlice p.home (fun sl => { sl with sync := xs ++ [⟨o.scope, instOf o.scope o.core, p.line⟩] }) := by
  unfold scopeRecord
  split
  · exact .inl rfl
  · split
    · exact .inl rfl
    · next h => exact .inr (scopeCheck_of_ok h)

theorem scopeRecord_eq (o : Op) (p : Part) (chk : Bool) (s : State) :
    scopeRecord o p chk s = { s with slices := (scopeRecord o p chk s).slices } := by
  obtain h | ⟨xs, h⟩ := scopeRecord_cases o p chk s
  · rw [h]
  · rw [h]
    rfl

@[simp] theorem scopeRecord_sline (o : Op) (p : Part) (chk : Bool) (s : State) (home l : Nat) :
    (scopeRecord o p chk s).sline home l = s.sline home l := by
  obtain h | ⟨xs, h⟩ := scopeRecord_cases o p chk s
  · rw [h]
  · rw [h, State.sline_modSlice]
    exact fun _ => rfl

/-- The record of an access that passes is the newest of its slice's table. -/
theorem scopeRecord_newest {chk : Bool} (h : p.passes o s) (hc : chk = true) (hp : p.passed = false) :
    ((scopeRecord o p chk s).slice p.home).sync.getLast? = some ⟨o.scope, instOf o.scope o.core, p.line⟩ := by
  obtain ⟨xs, hx⟩ := scopeCheck_ok (h.resolve_left (by simp [hp]))
  unfold scopeRecord
  simp only [hc, hp, hx, Bool.not_true, Bool.or_self, Bool.false_eq_true, if_false, State.slice_modSlice, if_true,
    List.getLast?_concat]

/-! ## A line that is changed -/

/-- A request has changed a line of a slice, and with it memory: the line is dirty and its tag has risen by one. -/
structure State.Changed (s : State) (home line : Nat) (m : Memory) (t : State) : Prop where
  mem : t.mem = m
  tags : t.tags = s.tags.modify 0 line (· + 1)
  ops : t.ops = s.ops
  trips : t.trips = s.trips
  teams : t.teams = s.teams
  launches : t.launches = s.launches
  homes : t.homes = s.homes
  contexts : t.contexts = s.contexts
  poison : ∀ x ∈ t.poison, x ∈ s.poison
  agenda : ∃ es, t.agenda = s.agenda ++ es
  line : t.sline home line = (s.sline home line).dirtied
  sync : ∀ h, (t.slice h).sync = (s.slice h).sync
  res : ∀ h, (t.slice h).res = (s.slice h).res

theorem lineChanged_changed (home line : Nat) (m : Memory) (s : State) :
    s.Changed home line m (lineChanged home line { s with mem := m }) where
  mem := rfl
  tags := rfl
  ops := rfl
  trips := rfl
  teams := rfl
  launches := rfl
  homes := rfl
  contexts := rfl
  poison _ h := h
  agenda := ⟨_, rfl⟩
  line := by
    unfold lineChanged
    dsimp only [State.push]
    refine (State.sline_modSlice (f := fun sl => { sl with held := sl.held.filter (fun e => !heldOn _ line e) })
      (fun _ => rfl) home line).trans ?_
    rw [State.sline_modSline_self]
    exact congrArg _ (State.sline_modSlice (f := fun sl => { sl with watches := sl.watches.filter (fun w => w.line ≠ line) })
      (fun _ => rfl) home line)
  sync h := by
    unfold lineChanged
    simp only [State.push, State.slice, State.modSline, State.modSlice, Tab.get_modify]
    split <;> simp_all
  res h := by
    unfold lineChanged
    simp only [State.push, State.slice, State.modSline, State.modSlice, Tab.get_modify]
    split <;> simp_all


/-- Data written to a line that is mapped through this home slice only stand as given. -/
theorem writeLine_changed (home line : Nat) (d : LineData) (bm : ByteMask) (s : State) :
    ∃ d', (mixedHome s home line = false → d' = d)
      ∧ s.Changed home line (s.mem.putLine line d' bm) (writeLine home line d bm s) := by
  obtain ⟨d', n, hd, he⟩ : ∃ d' n, (mixedHome s home line = false → d' = d)
      ∧ homeData home line d s = (d', { s with free := n }) := by
    unfold homeData
    cases hmix : mixedHome s home line with
    | true => exact ⟨_, _, by simp, rfl⟩
    | false => exact ⟨d, s.free, fun _ => rfl, rfl⟩
  refine ⟨d', hd, ?_⟩
  unfold writeLine
  rw [he]
  dsimp only
  split
  · obtain ⟨hm, ht, ho, hr, hte, hla, hh, hc, hp, ha, hl, hs, hres⟩ :=
      lineChanged_changed home line (s.mem.putLine line d' bm)
      { s with free := n, poison := s.poison.filter (fun x => x ≠ line) }
    exact ⟨hm, ht, ho, hr, hte, hla, hh, hc, fun x hx => List.mem_of_mem_filter (hp x hx), ha, hl, hs, hres⟩
  · obtain ⟨hm, ht, ho, hr, hte, hla, hh, hc, hp, ha, hl, hs, hres⟩ :=
      lineChanged_changed home line (s.mem.putLine line d' bm) { s with free := n }
    exact ⟨hm, ht, ho, hr, hte, hla, hh, hc, hp, ha, hl, hs, hres⟩

theorem State.Changed.tag {home line : Nat} {m : Memory} {t : State} (h : s.Changed home line m t) :
    t.tags.get 0 line = s.tags.get 0 line + 1 ∧ ∀ j, j ≠ line → t.tags.get 0 j = s.tags.get 0 j := by
  rw [h.tags]
  exact ⟨Tab.get_modify_self .., fun j hj => Tab.get_modify_other _ _ _ hj⟩

theorem Memory.byte_putLine_other (m : Memory) (line : Nat) (d : LineData) (bm : ByteMask) {a : Nat} (hm : m.wf = true)
    (h : a / 128 ≠ line) : (m.putLine line d bm).byte a = m.byte a := by
  rw [Memory.byte_putLine hm, if_neg (fun c => h c.1)]

/-! ## Answers -/

theorem State.reqPart_eq_some {r : Req} {o : Op} {p : Part} :
    s.reqPart r = some (o, p) ↔ s.ops.find? r.op = some o ∧ o.parts[r.part]? = some p := by
  unfold State.reqPart
  constructor
  · intro h
    simp only [Option.bind_eq_some_iff, Option.map_eq_some_iff, Prod.mk.injEq] at h
    obtain ⟨x, hx, y, hy, rfl, rfl⟩ := h
    exact ⟨hx, hy⟩
  · rintro ⟨ho, hp⟩
    simp [ho, hp]

theorem reqPart_modPart {f : Part → Part} (h : s.reqPart r = some (o, p)) :
    (s.modPart r.op r.part f).reqPart r = some ({ o with parts := o.parts.modify r.part f }, f p) := by
  obtain ⟨ho, hp⟩ := State.reqPart_eq_some.mp h
  refine State.reqPart_eq_some.mpr ⟨?_, by simp [hp]⟩
  unfold State.modPart
  rw [State.find?_modOp]
  simp [ho]

/-- The slice answers a part: its reply is on its way. -/
theorem answerPart_answered {f : Part → Part} {q : Part → Prop} (h : s.reqPart r = some (o, p)) (hq : q (f p)) :
    (answerPart r f s).answered r.op r.part q := by
  obtain ⟨ho, hp⟩ := State.reqPart_eq_some.mp (reqPart_modPart (f := f) h)
  exact ⟨List.mem_append_right _ (List.mem_singleton.mpr rfl), _, _, ho, hp, hq⟩

theorem State.answered.ahead {id k : Nat} {q : Part → Prop} (h : s.answered id k q) (es : List Instr) :
    (s.ahead es).answered id k q := by
  obtain ⟨ha, hq⟩ := h
  exact ⟨State.mem_ahead ha es, hq⟩

end

/-! ## Bytes of a line -/

theorem lineByte_getLsbD (d : LineData) (k i : Nat) : (lineByte d k).getLsbD i = (decide (i < 8) && d.getLsbD (8 * k + i)) := by
  simp [lineByte, BitVec.getLsbD_extractLsb']

theorem testBit_byte_at (b : Byte) (k i : Nat) :
    (b.toNat * 2 ^ (8 * k)).testBit i = (decide (8 * k ≤ i) && b.getLsbD (i - 8 * k)) := by
  rw [Nat.testBit_mul_two_pow, BitVec.testBit_toNat]

theorem lineSetByte_getLsbD (d : LineData) (k : Nat) (b : Byte) {i : Nat} (hi : i < 1024) :
    (lineSetByte d k b).getLsbD i = if 8 * k ≤ i ∧ i < 8 * k + 8 then b.getLsbD (i - 8 * k) else d.getLsbD i := by
  have hmask : (255 * 2 ^ (8 * k)).testBit i = decide (8 * k ≤ i ∧ i < 8 * k + 8) := by
    have h := testBit_byte_at 255 k i
    rw [show (255 : Byte).toNat = 255 from rfl] at h
    rw [h, show (255 : Byte) = BitVec.allOnes 8 from rfl, BitVec.getLsbD_allOnes]
    by_cases h1 : 8 * k ≤ i
    · simp [h1]
      omega
    · simp [h1]
  have hhigh : 8 * k + 8 ≤ i → b.getLsbD (i - 8 * k) = false := fun h => BitVec.getLsbD_of_ge _ _ (by omega)
  unfold lineSetByte
  simp only [BitVec.getLsbD_or, BitVec.getLsbD_and, BitVec.getLsbD_not, BitVec.getLsbD_ofNat, hi, decide_true, Bool.true_and, hmask,
    testBit_byte_at]
  by_cases h1 : 8 * k ≤ i
  · by_cases h2 : i < 8 * k + 8
    · simp [h1, h2]
    · simp [h1, h2, hhigh (by omega)]
  · simp [h1]

/-- A byte put into a line's data, and every other byte as it was. -/
theorem lineByte_lineSetByte (d : LineData) (k : Nat) (b : Byte) {j : Nat} (hj : j < 128) :
    lineByte (lineSetByte d k b) j = if j = k then b else lineByte d j := by
  apply BitVec.eq_of_getLsbD_eq
  intro i hi
  rw [lineByte_getLsbD, lineSetByte_getLsbD d k b (by omega)]
  by_cases h : j = k
  · subst h
    rw [if_pos (by omega), if_pos rfl]
    simp [hi]
  · rw [if_neg (by omega), if_neg h, lineByte_getLsbD]

theorem placeMask_getLsbD (off : Nat) {j : Nat} (hj : j < 128) :
    (BitVec.ofNat 128 (2 ^ off)).getLsbD j = decide (j = off) := by
  simp only [BitVec.getLsbD_ofNat, hj, decide_true, Bool.true_and, Nat.testBit_two_pow, eq_comm]

theorem placeBytes_append (off : Nat) (bs : List Byte) (b : Byte) (d : LineData) (m : ByteMask) :
    placeBytes off (bs ++ [b]) d m
      = (lineSetByte (placeBytes off bs d m).1 (off + bs.length) b,
        (placeBytes off bs d m).2 ||| BitVec.ofNat 128 (2 ^ (off + bs.length))) := by
  simp [placeBytes, List.zipIdx_append]

/-- The bytes placed in a line stand there, and the mask names them beside those that it named. -/
theorem placeBytes_at (off : Nat) (bs : List Byte) (d : LineData) (m : ByteMask) {j : Nat} (hj : j < 128) :
    lineByte (placeBytes off bs d m).1 j = (if off ≤ j then bs[j - off]? else none).getD (lineByte d j)
      ∧ (placeBytes off bs d m).2.getLsbD j = (m.getLsbD j || decide (off ≤ j ∧ j < off + bs.length)) := by
  induction bs using List.reverseRecOn with
  | nil =>
    simp only [placeBytes, List.zipIdx_nil, List.foldl_nil, List.length_nil, Nat.add_zero]
    constructor
    · split
      · simp
      · rfl
    · simp
  | append_singleton bs b ih =>
    obtain ⟨ihd, ihm⟩ := ih
    rw [placeBytes_append]
    constructor
    · rw [lineByte_lineSetByte _ _ _ hj, ihd]
      by_cases h1 : off ≤ j
      · rw [if_pos h1, if_pos h1, List.getElem?_append]
        by_cases h2 : j = off + bs.length
        · rw [if_pos h2, if_neg (by omega)]
          simp [h2]
        · rw [if_neg h2]
          by_cases h3 : j - off < bs.length
          · rw [if_pos h3]
          · rw [if_neg h3, List.getElem?_eq_none (by omega), List.getElem?_eq_none (by simp; omega)]
      · rw [if_neg (by omega), if_neg h1, if_neg h1]
    · rw [BitVec.getLsbD_or, ihm, placeMask_getLsbD _ hj, List.length_append]
      cases m.getLsbD j
      · simp only [Bool.false_or, List.length_singleton]
        rw [← Bool.decide_or, decide_eq_decide]
        omega
      · simp

theorem leBytes_getElem? (n v k : Nat) : (leBytes n v)[k]? = if k < n then some (BitVec.ofNat 8 (v / 256 ^ k)) else none := by
  unfold leBytes
  rw [List.getElem?_map]
  split
  · next h => rw [List.getElem?_range h]; rfl
  · next h => rw [List.getElem?_eq_none (by simpa using h)]; rfl

/-- The bytes of a value of two words. -/
theorem byte_of_words (b b2 : Dword) (k : Nat) :
    BitVec.ofNat 8 ((b.toNat + 2 ^ 64 * b2.toNat) / 256 ^ k) = (b2 ++ b).extractLsb' (8 * k) 8 := by
  apply BitVec.eq_of_toNat_eq
  rw [BitVec.toNat_ofNat, BitVec.extractLsb'_toNat, BitVec.toNat_append, Nat.shiftRight_eq_div_pow,
    ← Nat.shiftLeft_add_eq_or_of_lt b.isLt, Nat.shiftLeft_eq, show (256 : Nat) = 2 ^ 8 from rfl, ← Nat.pow_mul,
    Nat.mul_comm b2.toNat, Nat.add_comm]

/-! ## The bytes that lanes store (R154) -/

/-- A lane's bytes put into a line's data. -/
def placeLane (size : Nat) (p : LineData × ByteMask) (x : Acc) : LineData × ByteMask :=
  placeBytes (x.pa % 128) (leBytes size (x.b.toNat + 2 ^ 64 * x.b2.toNat)) p.1 p.2

theorem storeData_lanes {o : Op} (key : Nat) (h : o.kind ≠ .discard) :
    storeData o key = (lanesOn o key).foldl (placeLane o.size) (0, 0) := by
  unfold storeData
  rw [if_neg h]
  rfl

theorem storedByte_append (size : Nat) (xs : List Acc) (x : Acc) (a : Nat) :
    storedByte size (xs ++ [x]) a
      = if x.pa / 128 = a / 128 ∧ x.pa ≤ a ∧ a < x.pa + size then some ((x.b2 ++ x.b).extractLsb' (8 * (a - x.pa)) 8)
        else storedByte size xs a := by
  unfold storedByte
  rw [List.filter_append]
  by_cases h : x.pa / 128 = a / 128 ∧ x.pa ≤ a ∧ a < x.pa + size
  · rw [if_pos h]
    simp [h]
  · rw [if_neg h]
    have hn : (decide (x.pa / 128 = a / 128) && decide (x.pa ≤ a) && decide (a < x.pa + size)) = false := by
      simpa [and_assoc] using h
    simp [hn]

/-- The stored data of a line's lanes, and the mask of it, byte by byte: the highest lane's byte stays. -/
theorem placeLanes_at (size line : Nat) (xs : List Acc) (hx : ∀ x ∈ xs, x.pa / 128 = line) {a : Nat} (ha : a / 128 = line) :
    (if (xs.foldl (placeLane size) (0, 0)).2.getLsbD (a % 128) then
        some (lineByte (xs.foldl (placeLane size) (0, 0)).1 (a % 128)) else none) = storedByte size xs a := by
  induction xs using List.reverseRecOn with
  | nil => simp [storedByte]
  | append_singleton xs x ih =>
    have ih := ih (fun y hy => hx y (List.mem_append_left _ hy))
    have hpa := hx x (List.mem_append_right _ (List.mem_singleton.mpr rfl))
    obtain ⟨hd, hm⟩ := placeBytes_at (x.pa % 128) (leBytes size (x.b.toNat + 2 ^ 64 * x.b2.toNat))
      (xs.foldl (placeLane size) (0, 0)).1 (xs.foldl (placeLane size) (0, 0)).2 (j := a % 128) (by omega)
    have hlen : (leBytes size (x.b.toNat + 2 ^ 64 * x.b2.toNat)).length = size := by simp [leBytes]
    rw [List.foldl_append, List.foldl_cons, List.foldl_nil, storedByte_append, ← ih]
    rw [show placeLane size (xs.foldl (placeLane size) (0, 0)) x
      = placeBytes (x.pa % 128) (leBytes size (x.b.toNat + 2 ^ 64 * x.b2.toNat)) (xs.foldl (placeLane size) (0, 0)).1
        (xs.foldl (placeLane size) (0, 0)).2 from rfl, hd, hm, hlen]
    by_cases hc : x.pa ≤ a ∧ a < x.pa + size
    · have hin : x.pa % 128 ≤ a % 128 ∧ a % 128 < x.pa % 128 + size := by omega
      have hat : x.pa / 128 = a / 128 ∧ x.pa ≤ a ∧ a < x.pa + size := ⟨by omega, hc⟩
      have hoff : a % 128 - x.pa % 128 = a - x.pa := by omega
      simp only [hin, hat, and_self, decide_true, Bool.or_true, if_true, leBytes_getElem?, hoff,
        show a - x.pa < size by omega, byte_of_words, Option.getD_some]
    · have hout : ¬ (x.pa % 128 ≤ a % 128 ∧ a % 128 < x.pa % 128 + size) := by omega
      have hat : ¬ (x.pa / 128 = a / 128 ∧ x.pa ≤ a ∧ a < x.pa + size) := fun h => hc h.2
      have hnone : (if x.pa % 128 ≤ a % 128 then (leBytes size (x.b.toNat + 2 ^ 64 * x.b2.toNat))[a % 128 - x.pa % 128]?
          else none) = none := by
        split
        · rw [leBytes_getElem?, if_neg (by omega)]
        · rfl
      simp only [hout, hat, hnone, decide_false, Bool.or_false, if_false, Option.getD_none]

/-! ## The lanes of an atomic (R185) -/

theorem atomLanes_fst (cas : Bool) (fn ty size : Nat) (xs : List Acc) (m : Memory) (t : Tab Dword) :
    (atomLanes cas fn ty size xs m t).1 = xs.foldl (atomLane cas fn ty size) m := by
  induction xs generalizing m t with
  | nil => rfl
  | cons x xs ih => exact ih ..

theorem atomLanes_append (cas : Bool) (fn ty size : Nat) (xs ys : List Acc) (m : Memory) (t : Tab Dword) :
    atomLanes cas fn ty size (xs ++ ys) m t
      = atomLanes cas fn ty size ys (atomLanes cas fn ty size xs m t).1 (atomLanes cas fn ty size xs m t).2 := by
  induction xs generalizing m t with
  | nil => rfl
  | cons x xs ih => exact ih ..

theorem atomLanes_other (cas : Bool) (fn ty size : Nat) (xs : List Acc) (m : Memory) (t : Tab Dword) {l : Nat}
    (h : l ∉ xs.map (·.lane)) : (atomLanes cas fn ty size xs m t).2.find? (8 * l) = t.find? (8 * l) := by
  induction xs generalizing m t with
  | nil => rfl
  | cons x xs ih =>
    rw [List.map_cons, List.mem_cons, not_or] at h
    refine (ih _ _ h.2).trans (Tab.find?_set_other _ _ ?_)
    omega

/-- A lane's old value: the last write of its place is its own. -/
theorem atomLanes_old (cas : Bool) (fn ty size : Nat) (before after : List Acc) (x : Acc) (m : Memory) (t : Tab Dword)
    (h : x.lane ∉ after.map (·.lane)) :
    (atomLanes cas fn ty size (before ++ x :: after) m t).2.find? (8 * x.lane)
      = some (BitVec.ofNat 64 ((before.foldl (atomLane cas fn ty size) m).nat x.pa size)) := by
  rw [atomLanes_append]
  refine (atomLanes_other cas fn ty size after _ _ h).trans ?_
  rw [atomLanes_fst, Tab.find?_set_self]

theorem Tab.mem_keys_set {α : Type} {t : Tab α} {k j : Nat} {v : α} (h : j ∈ (t.set k v).map (·.1)) :
    j = k ∨ j ∈ t.map (·.1) := by
  induction t with
  | nil => simpa [Tab.set] using h
  | cons e t ih =>
    unfold Tab.set at h
    split at h
    · simp_all
    · split at h
      · simp_all
      · simp only [List.map_cons, List.mem_cons] at h ⊢
        tauto

theorem Tab.rising_set {α : Type} {t : Tab α} (k : Nat) (v : α) (h : t.Pairwise (fun x y => x.1 < y.1)) :
    (t.set k v).Pairwise (fun x y => x.1 < y.1) := by
  induction t with
  | nil => exact List.pairwise_singleton ..
  | cons e t ih =>
    obtain ⟨hhead, htail⟩ := List.pairwise_cons.mp h
    unfold Tab.set
    split
    · next he => exact List.pairwise_cons.mpr ⟨fun x hx => he ▸ hhead x hx, htail⟩
    · split
      · next hlt =>
        refine List.pairwise_cons.mpr ⟨fun x hx => ?_, h⟩
        obtain rfl | hx := List.mem_cons.mp hx
        · exact hlt
        · exact Nat.lt_trans hlt (hhead x hx)
      · refine List.pairwise_cons.mpr ⟨fun x hx => ?_, ih htail⟩
        obtain hk | hk := Tab.mem_keys_set (List.mem_map_of_mem hx)
        · omega
        · obtain ⟨y, hy, hxy⟩ := List.mem_map.mp hk
          exact hxy ▸ hhead y hy

theorem Tab.find?_of_rising {α : Type} {t : Tab α} {k : Nat} (h : ∀ x ∈ t, k < x.1) : t.find? k = none := by
  induction t with
  | nil => rfl
  | cons e t ih =>
    have hne : e.1 ≠ k := (Nat.ne_of_lt (h e (List.mem_cons_self ..))).symm
    rw [Tab.find?_cons, if_neg hne, ih (fun x hx => h x (List.mem_cons_of_mem _ hx))]

/-- The entries of one table put into another one. -/
theorem Tab.find?_merge {α : Type} (t u : Tab α) (k : Nat) (h : t.Pairwise (fun x y => x.1 < y.1)) :
    (t.foldl (fun u e => u.set e.1 e.2) u).find? k = (t.find? k).or (u.find? k) := by
  induction t generalizing u with
  | nil => rfl
  | cons e t ih =>
    obtain ⟨hhead, htail⟩ := List.pairwise_cons.mp h
    rw [List.foldl_cons, ih _ htail, Tab.find?_cons, Tab.find?_set]
    by_cases hk : e.1 = k
    · rw [if_pos hk, if_pos hk.symm, Tab.find?_of_rising (fun x hx => hk ▸ hhead x hx)]
      rfl
    · rw [if_neg hk, if_neg (Ne.symm hk)]

theorem atomLanes_rising (cas : Bool) (fn ty size : Nat) (xs : List Acc) (m : Memory) (t : Tab Dword)
    (h : t.Pairwise (fun x y => x.1 < y.1)) : (atomLanes cas fn ty size xs m t).2.Pairwise (fun x y => x.1 < y.1) := by
  induction xs generalizing m t with
  | nil => exact h
  | cons x xs ih => exact ih _ _ (Tab.rising_set _ _ h)

/-! ## States on the way to an answer -/

section
variable (a : Ask) (e : Instr) (s : State)

@[simp] theorem Ask.taken_mem : (a.taken e s).mem = s.mem := by
  obtain ⟨hs, h⟩ := a.taken_homes e s
  rw [h]
  rfl

@[simp] theorem Ask.taken_tags : (a.taken e s).tags = s.tags := by
  obtain ⟨hs, h⟩ := a.taken_homes e s
  rw [h]
  rfl

@[simp] theorem Ask.taken_ops : (a.taken e s).ops = s.ops := by
  obtain ⟨hs, h⟩ := a.taken_homes e s
  rw [h]
  rfl

@[simp] theorem Ask.taken_poison : (a.taken e s).poison = s.poison := by
  obtain ⟨hs, h⟩ := a.taken_homes e s
  rw [h]
  rfl

@[simp] theorem Ask.taken_trips : (a.taken e s).trips = s.trips := by
  obtain ⟨hs, h⟩ := a.taken_homes e s
  rw [h]
  rfl

@[simp] theorem Ask.taken_teams : (a.taken e s).teams = s.teams := by
  obtain ⟨hs, h⟩ := a.taken_homes e s
  rw [h]
  rfl

@[simp] theorem Ask.taken_launches : (a.taken e s).launches = s.launches := by
  obtain ⟨hs, h⟩ := a.taken_homes e s
  rw [h]
  rfl

@[simp] theorem Ask.taken_agenda : (a.taken e s).agenda = s.agenda := by
  obtain ⟨hs, h⟩ := a.taken_homes e s
  rw [h]
  rfl

@[simp] theorem Ask.taken_sline_self : (a.taken e s).sline a.home a.line
    = { s.sline a.home a.line with waiters := (s.sline a.home a.line).waiters.erase e } := by
  obtain ⟨hs, h⟩ := a.taken_homes e s
  rw [h]
  exact State.sline_modSline_self a.home a.line _

@[simp] theorem Ask.taken_sync (h : Nat) : ((a.taken e s).slice h).sync = (s.slice h).sync := by
  obtain ⟨hs, ht⟩ := a.taken_homes e s
  rw [ht]
  exact State.sync_modSline a.home a.line h _

@[simp] theorem Ask.taken_res (h : Nat) : ((a.taken e s).slice h).res = (s.slice h).res := by
  obtain ⟨hs, ht⟩ := a.taken_homes e s
  rw [ht]
  exact State.res_modSline a.home a.line h _

theorem Ask.taken_single (h : mixedHome s a.home a.line = false) : mixedHome (a.taken e s) a.home a.line = false := by
  unfold Ask.taken
  split
  · exact mixedHome_noteHome h
  · exact h

theorem Ask.taken_maps (h : mixedHome s a.home a.line = false) : SameMaps s (a.taken e s) := by
  have htwo (j : Nat) : twoHomes (a.taken e s) j = twoHomes s j := by
    unfold Ask.taken
    split
    · exact twoHomes_noteHome (s := a.leave e s) h j
    · rfl
  obtain ⟨hs, ht⟩ := a.taken_homes e s
  rw [ht] at htwo ⊢
  exact ⟨rfl, rfl, rfl, rfl, rfl, rfl, htwo⟩

end

section
variable (o : Op) (p : Part) (chk : Bool) (s : State)

@[simp] theorem scopeRecord_mem : (scopeRecord o p chk s).mem = s.mem := by rw [scopeRecord_eq]

@[simp] theorem scopeRecord_tags : (scopeRecord o p chk s).tags = s.tags := by rw [scopeRecord_eq]

@[simp] theorem scopeRecord_ops : (scopeRecord o p chk s).ops = s.ops := by rw [scopeRecord_eq]

theorem scopeRecord_single (home line : Nat) : mixedHome (scopeRecord o p chk s) home line = mixedHome s home line := by
  rw [scopeRecord_eq]
  rfl

theorem scopeRecord_maps : SameMaps s (scopeRecord o p chk s) := by
  rw [scopeRecord_eq]
  exact ⟨rfl, rfl, rfl, rfl, rfl, rfl, fun _ => rfl⟩

theorem scopeRecord_residentImage (line : Nat) : residentImage (scopeRecord o p chk s) line = residentImage s line :=
  (scopeRecord_maps o p chk s).residentImage (by rw [scopeRecord_eq]) (by rw [scopeRecord_eq]) line

end

/-- A load of a line with one home slice that lies in no resident warp's image sees the line (R59, R66). -/
theorem lineView_eq {p : Part} {s : State} (d : LineData) (hm : mixedHome s p.home p.line = false)
    (hi : p.ctxPage = false ∨ residentImage s p.line = false) : lineView p d s = (d, s) := by
  have himage : (p.ctxPage && residentImage s p.line) = false := by
    obtain h | h := hi
    · simp [h]
    · simp [h]
  unfold lineView homeData
  rw [himage, hm]
  simp

/-! ## Lane requests: leaving and arriving -/

/-- The events of a lane operation's requests. -/
def laneEvents (r : Req) : List Instr := [.sliceLoad r, .sliceStore r, .sliceAtomic r, .checkRequest r, .updateOnlyObtain r]

/-- What such a request needs of its line. -/
def laneAsk (o : Op) (p : Part) : Instr → Ask
  | .sliceLoad _ => { p.ask with rcl := o.kind ≠ .pref, stream := o.hint = 3 }
  | .sliceStore _ => { p.ask with stream := o.hint = 3, fill := o.kind ≠ .discard }
  | .checkRequest _ => { p.ask with rcl := false, hold := false }
  | .updateOnlyObtain _ => { p.ask with rcl := false }
  | _ => p.ask

/-- Such a request is a checked access (R91). -/
def laneChecks (o : Op) : Instr → Bool
  | .sliceLoad _ | .sliceStore _ => o.order ≠ 0
  | _ => true

/-- A part whose load the slice has answered with a line's data. -/
def Part.loaded (o : Op) (d : LineData) (p : Part) : Part :=
  { p with ldata := d, passed := true, done := o.kind = .load || o.kind = .pref }

/-- A part whose reply carries the line's tag. -/
def Part.withTag (t : Tab (BitVec 16)) (p : Part) : Part := { p with tag := t.get 0 p.line }

/-- The old values of an atomic's lanes, put with the operation. -/
def Op.withOld (t : Tab Dword) (o : Op) : Op := { o with data := t.foldl (fun u e => u.set e.1 e.2) o.data }

/-- A core gathers a line: its bit is set. -/
def SliceLine.gatheredBy (core : Nat) (l : SliceLine) : SliceLine := { l with uo := l.uo ||| BitVec.ofNat 16 (2 ^ (core % 16)) }

/-- What the slice does for a load in its turn. -/
def loadTurn (r : Req) (o : Op) (p : Part) : State → Out := fun s =>
  if poisoned s p.line then
    .next (if o.kind = .pref then partDone r.op r.part (fun p => { p with fill := false }) s else memoryError r o p s)
  else
    let d := lineView p (s.mem.line p.line) (scopeRecord o p (o.order ≠ 0) s)
    .next (answerPart r (Part.loaded o d.1) d.2)

/-- What the slice does for a store in its turn. -/
def storeTurn (r : Req) (o : Op) (p : Part) : State → Out := fun s =>
  let d := storeData o p.key
  if poisoned s p.line && d.2 ≠ BitVec.allOnes 128 then .next (memoryError r o p s)
  else
    let s := writeLine p.home p.line d.1 d.2 (scopeRecord o p (o.order ≠ 0) s)
    .next (partDone r.op r.part (Part.withTag s.tags) s)

/-- What the slice does for an atomic in its turn. -/
def atomicTurn (r : Req) (o : Op) (p : Part) : State → Out := fun s =>
  if poisoned s p.line then .next (memoryError r o p s)
  else
    let a := applyAtomic p.home p.line (o.kind = .atomc) o.fn o.ty o.size (lanesOn o p.key) (scopeRecord o p true s)
    let s := a.2.modOp r.op (Op.withOld a.1)
    .next (partDone r.op r.part (Part.withTag s.tags) s)

/-- What the slice does for a lane operation's request in its turn. -/
def laneTurn (r : Req) (o : Op) (p : Part) : Instr → State → Out
  | .sliceLoad _ => loadTurn r o p
  | .sliceStore _ => storeTurn r o p
  | .sliceAtomic _ => atomicTurn r o p
  | .checkRequest _ => fun s => .next (answerPart r (fun p => { p with passed := true }) (scopeRecord o p true s))
  | _ => fun s =>
    .next (answerPart r (fun p => { p with passed := true })
      ((scopeRecord o p true s).modSline p.home p.line (SliceLine.gatheredBy o.core)))

section
variable {r : Req} {o : Op} {p : Part} {u v : State}

theorem loadTurn_sound {d : LineData} (hs : poisoned u p.line = false)
    (hv : lineView p (u.mem.line p.line) (scopeRecord o p (o.order ≠ 0) u) = (d, v)) :
    loadTurn r o p u = .next (answerPart r (Part.loaded o d) v) := by
  unfold loadTurn
  simp only [hs, hv, Bool.false_eq_true, if_false]

theorem storeTurn_sound (hs : poisoned u p.line = false ∨ (storeData o p.key).2 = BitVec.allOnes 128)
    (hv : writeLine p.home p.line (storeData o p.key).1 (storeData o p.key).2 (scopeRecord o p (o.order ≠ 0) u) = v) :
    storeTurn r o p u = .next (partDone r.op r.part (Part.withTag v.tags) v) := by
  have hg : (poisoned u p.line && decide ((storeData o p.key).2 ≠ BitVec.allOnes 128)) = false := by
    obtain h | h := hs
    · simp [h]
    · simp [h]
  unfold storeTurn
  simp only [hg, hv, Bool.false_eq_true, if_false]

theorem atomicTurn_sound {old : Tab Dword} (hs : poisoned u p.line = false)
    (hv : applyAtomic p.home p.line (o.kind = .atomc) o.fn o.ty o.size (lanesOn o p.key) (scopeRecord o p true u) = (old, v)) :
    atomicTurn r o p u
      = .next (partDone r.op r.part (Part.withTag v.tags) (v.modOp r.op (Op.withOld old))) := by
  unfold atomicTurn
  simp only [hs, hv, Bool.false_eq_true, if_false]
  rfl

end

@[simp] theorem laneAsk_home (o : Op) (p : Part) (e : Instr) : (laneAsk o p e).home = p.home := by
  unfold laneAsk
  split <;> rfl

@[simp] theorem laneAsk_line (o : Op) (p : Part) (e : Instr) : (laneAsk o p e).line = p.line := by
  unfold laneAsk
  split <;> rfl

section
variable {s : State} {r : Req} {o : Op} {p : Part} {e : Instr}

theorem exec_lane (s : State) (he : e ∈ laneEvents r) : exec e s = request r e s (fun o p s =>
    atSliceWith (laneAsk o p e) e s (scopeRefusal r o p (laneChecks o e)) (laneTurn r o p e)) := by
  simp only [laneEvents, List.mem_cons, List.not_mem_nil, or_false] at he
  obtain rfl | rfl | rfl | rfl | rfl := he
  · rfl
  · rfl
  · rfl
  · rfl
  · rfl

theorem exec_lane_leaves (h : s.reqPart r = some (o, p)) (hs : p.sent = false) (he : e ∈ laneEvents r) :
    exec e s = .next (leaveCore r e o p s) := by
  rw [exec_lane s he, request_leaves h hs]

theorem exec_lane_arrives (h : s.reqPart r = some (o, p)) (hs : p.sent = true) (he : e ∈ laneEvents r) :
    exec e s = atSliceWith (laneAsk o p e) e (s.arrive r) (scopeRefusal r o p (laneChecks o e)) (laneTurn r o p e) := by
  rw [exec_lane s he, request_arrives h hs]

/-- The core's copy before a request leaves: without a copy nothing goes back. -/
theorem sendBack_absent {core line : Nat} (h : (s.core core).l1Find line = none) : sendBack core line s = s := by
  unfold sendBack
  rw [h]

theorem copyFirst_absent (h : (s.core o.core).l1Find p.key = none) : ∃ cs, copyFirst o p s = { s with cores := cs } := by
  unfold copyFirst
  simp only [h, returnLine, sendBack_absent h, Option.any_none, Bool.false_eq_true, ite_self]
  split
  · exact ⟨s.cores, rfl⟩
  · exact ⟨_, rfl⟩
  · exact ⟨_, rfl⟩
  · exact ⟨_, rfl⟩
  · exact ⟨s.cores, rfl⟩
  · exact ⟨s.cores, rfl⟩
  · exact ⟨s.cores, rfl⟩
  · exact ⟨s.cores, rfl⟩

theorem l1Update_cores (core line : Nat) (d : LineData) (bm : ByteMask) (scope ch : Nat) (s : State) :
    ∃ cs, l1Update core line d bm scope ch s = { s with cores := cs } := by
  unfold l1Update
  split
  · exact ⟨s.cores, rfl⟩
  · exact ⟨_, rfl⟩

theorem storeThrough_cores (o : Op) (p : Part) (s : State) : ∃ cs, storeThrough o p s = { s with cores := cs } := by
  have hstore : ∃ cs, (if p.fill || p.check then s
      else l1Update o.core p.key (storeData o p.key).1 (storeData o p.key).2 o.scope o.hint s) = { s with cores := cs } := by
    split
    · exact ⟨s.cores, rfl⟩
    · exact l1Update_cores ..
  unfold storeThrough
  split
  · exact hstore
  · exact hstore
  · exact hstore
  · exact ⟨s.cores, rfl⟩

/-- A request to a slice of this node leaves: it is on its path, and its part says so. -/
theorem leaveCore_left (h : s.reqPart r = some (o, p)) (hrem : p.rem = none)
    (hfree : o.lineAccess = true → returning s o.core p.key = false ∧ (s.core o.core).l1Find p.key = none) :
    s.left e (.core o.core) ⟨p.home, p.line, 1⟩ (leaveCore r e o p s)
      ∧ (leaveCore r e o p s).reqPart r = some ({ o with parts := o.parts.modify r.part (fun p => { p with sent := true }) },
          { p with sent := true }) := by
  obtain ⟨cs, hcs⟩ : ∃ cs, (if o.lineAccess then copyFirst o p s else s) = { s with cores := cs } := by
    split
    · next hl => exact copyFirst_absent (hfree hl).2
    · exact ⟨s.cores, rfl⟩
  have hret' : (o.lineAccess && returning { s with cores := cs } o.core p.key) = false := by
    cases hl : o.lineAccess with
    | false => rfl
    | true => exact (hfree hl).1
  obtain ⟨ds, hds⟩ : ∃ ds, (if o.order = 0 then storeThrough o p { s with cores := cs } else { s with cores := cs })
      = { s with cores := ds } := by
    split
    · obtain ⟨ds, hds⟩ := storeThrough_cores o p { s with cores := cs }
      exact ⟨ds, hds⟩
    · exact ⟨cs, rfl⟩
  have hleave : leaveCore r e o p s
      = ((({ s with cores := ds } : State).modPart r.op r.part (fun p => { p with sent := true })).depart e (.core o.core)
        [⟨p.home, p.line, 1⟩]).push [e] := by
    unfold leaveCore
    rw [hcs]
    simp only [hrem, hret', Bool.false_eq_true, if_false, hds]
  rw [hleave]
  exact ⟨⟨⟨_, rfl, rfl, rfl, rfl, rfl⟩, rfl, rfl, fun _ => rfl⟩, reqPart_modPart (s := { s with cores := ds }) h⟩

end

/-! ## Lane requests at their slice -/

section
variable {s : State} {r : Req} {o : Op} {p : Part} {e : Instr}

theorem laneAsk_turn (hb : (s.sline p.home p.line).state ≠ .busy)
    (hw : (s.sline p.home p.line).waiters = [] ∨ (s.sline p.home p.line).waiters.head? = some e) :
    (laneAsk o p e).turn e (s.arrive r) = true := by
  refine Ask.turn_of ?_ ?_
  · rw [laneAsk_home, laneAsk_line]
    exact hb
  · rw [laneAsk_home, laneAsk_line]
    exact hw

theorem laneAsk_calm (h : (s.sline p.home p.line).uo = 0) : (laneAsk o p e).calm (s.arrive r) = true := by
  refine Ask.calm_of ?_
  rw [laneAsk_home, laneAsk_line]
  exact h

theorem arrive_passes {chk : Bool} (h : chk = true → p.passes o s) : scopeRefusal r o p chk (s.arrive r) = none :=
  scopeRefusal_none h

/-- A request that R91 lets pass is performed in its turn, once nothing is to be recalled for it and its line is there. -/
theorem exec_lane_performs {t : State} (h : s.reqPart r = some (o, p)) (hs : p.sent = true) (he : e ∈ laneEvents r)
    (hb : (s.sline p.home p.line).state ≠ .busy)
    (hw : (s.sline p.home p.line).waiters = [] ∨ (s.sline p.home p.line).waiters.head? = some e)
    (hpass : laneChecks o e = true → p.passes o s)
    (hcalm : (laneAsk o p e).calm (s.arrive r) = true)
    (hhold : (laneAsk o p e).hold = false ∨ (s.sline p.home p.line).state ≠ .inv)
    (hk : laneTurn r o p e ((laneAsk o p e).taken e (s.arrive r)) = .next t) :
    ∃ es, exec e s = .next (t.ahead es) := by
  rw [exec_lane_arrives h hs he]
  refine atSlice_done (laneAsk_turn hb hw) (arrive_passes hpass) hcalm ?_ hk
  rw [laneAsk_home, laneAsk_line]
  exact hhold

theorem mem_laneEvents : Instr.sliceLoad r ∈ laneEvents r ∧ .sliceStore r ∈ laneEvents r ∧ .sliceAtomic r ∈ laneEvents r
    ∧ .checkRequest r ∈ laneEvents r ∧ .updateOnlyObtain r ∈ laneEvents r := by simp [laneEvents]

theorem State.served.idle {home line : Nat} {rcl : Bool} (h : s.served home line rcl e) :
    (s.sline home line).state ≠ .busy ∧ (s.sline home line).state ≠ .inv := by
  obtain hp | hp := h.present
  · simp [hp]
  · simp [hp]

/-- The line of a request in its turn is as it was, but that the request waits no longer. -/
theorem laneAsk_taken_sline (o : Op) (p : Part) (e : Instr) (s : State) : ((laneAsk o p e).taken e s).sline p.home p.line
    = { s.sline p.home p.line with waiters := (s.sline p.home p.line).waiters.erase e } := by
  have h := (laneAsk o p e).taken_sline_self e s
  rwa [laneAsk_home, laneAsk_line] at h

theorem laneAsk_taken_single (o : Op) (e : Instr) (h : mixedHome s p.home p.line = false) :
    mixedHome ((laneAsk o p e).taken e s) p.home p.line = false := by
  have := (laneAsk o p e).taken_single e s
  rw [laneAsk_home, laneAsk_line] at this
  exact this h

theorem laneAsk_taken_maps (o : Op) (e : Instr) (h : mixedHome s p.home p.line = false) :
    SameMaps s ((laneAsk o p e).taken e s) := by
  refine (laneAsk o p e).taken_maps e s ?_
  rwa [laneAsk_home, laneAsk_line]

theorem laneAsk_taken_reqPart (a : Ask) (h : s.reqPart r = some (o, p)) (chk : Bool) :
    (scopeRecord o p chk (a.taken e (s.arrive r))).reqPart r = some (o, p) := by
  rw [State.reqPart_eq_some, scopeRecord_ops, Ask.taken_ops]
  exact State.reqPart_eq_some.mp h

theorem taken_passes {a : Ask} (h : p.passes o s) : p.passes o (a.taken e (s.arrive r)) := by
  obtain h | h := h
  · exact .inl h
  · refine .inr fun x hx hl => h x ?_ hl
    rw [Ask.taken_sync] at hx
    exact hx

/-- The record of a request that passes is the newest of the table. -/
theorem taken_newest {a : Ask} (h : p.passes o s) (hp : p.passed = false) :
    ((scopeRecord o p true (a.taken e (s.arrive r))).slice p.home).sync.getLast? = some ⟨o.scope, instOf o.scope o.core, p.line⟩ :=
  scopeRecord_newest (taken_passes h) rfl hp

theorem arrive_residentImage (line : Nat) : residentImage (s.arrive r) line = residentImage s line :=
  SameMaps.residentImage (s := s) (t := s.arrive r) ⟨rfl, rfl, rfl, rfl, rfl, rfl, fun _ => rfl⟩ rfl rfl line

theorem exec_sliceLoad_served (h : s.reqPart r = some (o, p)) (hs : p.sent = true)
    (hv : s.served p.home p.line true (.sliceLoad r)) (hpass : o.order ≠ 0 → p.passes o s)
    (himage : p.ctxPage = false ∨ residentImage s p.line = false) :
    ∃ t, exec (.sliceLoad r) s = .next t
      ∧ t.answered r.op r.part (fun q => q.ldata = s.mem.line p.line ∧ q.passed = true
          ∧ (o.kind = .load ∨ o.kind = .pref → q.done = true))
      ∧ (∀ a, t.mem.byte a = s.mem.byte a) ∧ t.tags = s.tags
      ∧ (o.order ≠ 0 → p.passed = false →
          (t.slice p.home).sync.getLast? = some ⟨o.scope, instOf o.scope o.core, p.line⟩) := by
  let u := (laneAsk o p (.sliceLoad r)).taken (.sliceLoad r) (s.arrive r)
  have hsound : poisoned u p.line = false := by
    unfold poisoned
    rw [Ask.taken_poison]
    exact hv.sound
  have himage' : p.ctxPage = false ∨ residentImage (scopeRecord o p (o.order ≠ 0) u) p.line = false := by
    rw [scopeRecord_residentImage, (laneAsk_taken_maps (s := s.arrive r) o _ hv.single).residentImage (Ask.taken_teams ..)
      (Ask.taken_launches ..), arrive_residentImage]
    exact himage
  have hsingle : mixedHome (scopeRecord o p (o.order ≠ 0) u) p.home p.line = false := by
    rw [scopeRecord_single]
    exact laneAsk_taken_single o _ hv.single
  have hview : lineView p (u.mem.line p.line) (scopeRecord o p (o.order ≠ 0) u) = (s.mem.line p.line, scopeRecord o p (o.order ≠ 0) u) := by
    rw [lineView_eq _ hsingle himage', Ask.taken_mem]
    rfl
  obtain ⟨es, he⟩ := exec_lane_performs h hs mem_laneEvents.1 hv.idle.1 hv.turn
    (fun hc => hpass (by simpa [laneChecks] using hc)) (laneAsk_calm (hv.alone rfl)) (.inr hv.idle.2)
    (loadTurn_sound hsound hview)
  have hdone : o.kind = .load ∨ o.kind = .pref → (decide (o.kind = .load) || decide (o.kind = .pref)) = true := by simp
  refine ⟨_, he, (answerPart_answered (laneAsk_taken_reqPart _ h _) ⟨rfl, rfl, hdone⟩).ahead es, fun a => ?_, ?_, fun ho hp => ?_⟩
  · exact congrArg (Memory.byte · a) ((scopeRecord_mem ..).trans (Ask.taken_mem ..))
  · exact (scopeRecord_tags ..).trans (Ask.taken_tags ..)
  · exact scopeRecord_newest (taken_passes (hpass ho)) (by simpa using ho) hp


theorem partDone_answered {f : Part → Part} {q : Part → Prop} (h : s.reqPart r = some (o, p)) (hq : q { f p with done := true }) :
    (partDone r.op r.part f s).answered r.op r.part q := answerPart_answered h hq

/-- A line of which all accesses come through one home slice, on the way to a request's turn there. -/
theorem turn_single (o : Op) (e : Instr) (chk : Bool) (h : mixedHome s p.home p.line = false) :
    mixedHome (scopeRecord o p chk ((laneAsk o p e).taken e (s.arrive r))) p.home p.line = false := by
  rw [scopeRecord_single]
  exact laneAsk_taken_single o e h

theorem turn_sound (a : Ask) (e : Instr) (h : poisoned s p.line = false) : poisoned (a.taken e (s.arrive r)) p.line = false := by
  unfold poisoned
  rw [Ask.taken_poison]
  exact h

theorem turn_mem (a : Ask) (e : Instr) (chk : Bool) : (scopeRecord o p chk (a.taken e (s.arrive r))).mem = s.mem :=
  (scopeRecord_mem ..).trans (Ask.taken_mem ..)

theorem turn_tags (a : Ask) (e : Instr) (chk : Bool) : (scopeRecord o p chk (a.taken e (s.arrive r))).tags = s.tags :=
  (scopeRecord_tags ..).trans (Ask.taken_tags ..)

/-- A changed line's tag, after a request's turn. -/
theorem turn_tag {a : Ask} {chk : Bool} {home : Nat} {m : Memory} {v : State}
    (h : (scopeRecord o p chk (a.taken e (s.arrive r))).Changed home p.line m v) :
    v.tags.get 0 p.line = s.tags.get 0 p.line + 1 ∧ ∀ j, j ≠ p.line → v.tags.get 0 j = s.tags.get 0 j := by
  have ht := h.tag
  rwa [turn_tags] at ht

theorem reqPart_congr {v w : State} (h : v.ops = w.ops) (hw : w.reqPart r = some (o, p)) : v.reqPart r = some (o, p) := by
  rw [State.reqPart_eq_some, h]
  exact State.reqPart_eq_some.mp hw

theorem exec_sliceStore_served (hwf : s.mem.wf = true) (h : s.reqPart r = some (o, p)) (hs : p.sent = true)
    (hv : s.served p.home p.line true (.sliceStore r)) (hpass : o.order ≠ 0 → p.passes o s)
    (hkind : o.kind = .store ∨ o.kind = .storeT) (hline : ∀ x ∈ lanesOn o p.key, x.pa / 128 = p.line) :
    ∃ t, exec (.sliceStore r) s = .next t
      ∧ t.answered r.op r.part (fun q => q.tag = s.tags.get 0 p.line + 1 ∧ q.done = true)
      ∧ (t.tags.get 0 p.line = s.tags.get 0 p.line + 1 ∧ ∀ j, j ≠ p.line → t.tags.get 0 j = s.tags.get 0 j)
      ∧ (∀ a, a / 128 ≠ p.line → t.mem.byte a = s.mem.byte a)
      ∧ (o.order ≠ 0 → p.passed = false →
          (t.slice p.home).sync.getLast? = some ⟨o.scope, instOf o.scope o.core, p.line⟩)
      ∧ ∀ a, a / 128 = p.line → t.mem.byte a = (storedByte o.size (lanesOn o p.key) a).getD (s.mem.byte a) := by
  let u := (laneAsk o p (.sliceStore r)).taken (.sliceStore r) (s.arrive r)
  obtain ⟨d, hd, hch⟩ := writeLine_changed p.home p.line (storeData o p.key).1 (storeData o p.key).2
    (scopeRecord o p (o.order ≠ 0) u)
  obtain ⟨v, hvd⟩ : ∃ v, writeLine p.home p.line (storeData o p.key).1 (storeData o p.key).2 (scopeRecord o p (o.order ≠ 0) u) = v :=
    ⟨_, rfl⟩
  rw [hvd] at hch
  have hdata := hd (turn_single o _ _ hv.single)
  have hdisc : o.kind ≠ .discard := by
    obtain hk | hk := hkind
    · simp [hk]
    · simp [hk]
  have hmem := hch.mem
  rw [hdata, turn_mem] at hmem
  obtain ⟨htag, hother⟩ := turn_tag hch
  obtain ⟨es, he⟩ := exec_lane_performs h hs mem_laneEvents.2.1 hv.idle.1 hv.turn
    (fun hc => hpass (by simpa [laneChecks] using hc)) (laneAsk_calm (hv.alone rfl)) (.inr hv.idle.2)
    (storeTurn_sound (.inl (turn_sound _ _ hv.sound)) hvd)
  refine ⟨_, he, (partDone_answered (reqPart_congr hch.ops (laneAsk_taken_reqPart _ h _)) ⟨htag, rfl⟩).ahead es,
    ⟨htag, hother⟩, fun a ha => ?_, fun ho hp => ?_, fun a ha => ?_⟩
  · exact (congrArg (Memory.byte · a) hmem).trans (Memory.byte_putLine_other _ _ _ _ hwf ha)
  · exact (congrArg List.getLast? (hch.sync p.home)).trans (scopeRecord_newest (taken_passes (hpass ho)) (by simpa using ho) hp)
  · have hbyte := (congrArg (Memory.byte · a) hmem).trans (Memory.byte_putLine hwf ..)
    refine hbyte.trans ?_
    rw [← placeLanes_at o.size p.line _ hline ha, ← storeData_lanes _ hdisc, show a - 128 * p.line = a % 128 by omega]
    by_cases hbit : (storeData o p.key).2.getLsbD (a % 128) = true
    · rw [if_pos ⟨ha, hbit⟩, if_pos hbit]
      rfl
    · rw [if_neg (fun c => hbit c.2), if_neg hbit]
      rfl

theorem applyAtomic_single {home line : Nat} {cas : Bool} {fn ty size : Nat} {ls : List Acc} (h : mixedHome s home line = false) :
    applyAtomic home line cas fn ty size ls s = ((atomLanes cas (fn % 32) ty size ls s.mem []).2,
      lineChanged home line { s with mem := (atomLanes cas (fn % 32) ty size ls s.mem []).1 }) := by
  unfold applyAtomic
  rw [h]
  rfl

theorem answerPart_op {f : Part → Part} (h : s.reqPart r = some (o, p)) :
    (answerPart r f s).ops.find? r.op = some { o with parts := o.parts.modify r.part f } :=
  (State.reqPart_eq_some.mp (reqPart_modPart (f := f) h)).1

theorem reqPart_withOld (old : Tab Dword) (h : s.reqPart r = some (o, p)) :
    (s.modOp r.op (Op.withOld old)).reqPart r = some (o.withOld old, p) := by
  obtain ⟨ho, hp⟩ := State.reqPart_eq_some.mp h
  refine State.reqPart_eq_some.mpr ⟨?_, hp⟩
  rw [State.find?_modOp]
  simp [ho]

theorem exec_sliceAtomic_served (h : s.reqPart r = some (o, p)) (hs : p.sent = true)
    (hv : s.served p.home p.line true (.sliceAtomic r)) (hpass : p.passes o s) :
    ∃ t, exec (.sliceAtomic r) s = .next t
      ∧ t.answered r.op r.part (fun q => q.tag = s.tags.get 0 p.line + 1 ∧ q.done = true)
      ∧ (t.tags.get 0 p.line = s.tags.get 0 p.line + 1 ∧ ∀ j, j ≠ p.line → t.tags.get 0 j = s.tags.get 0 j)
      ∧ (p.passed = false → (t.slice p.home).sync.getLast? = some ⟨o.scope, instOf o.scope o.core, p.line⟩)
      ∧ t.mem = (lanesOn o p.key).foldl (atomLane (decide (o.kind = .atomc)) (o.fn % 32) o.ty o.size) s.mem
      ∧ ∀ before x after, lanesOn o p.key = before ++ x :: after → x.lane ∉ after.map (·.lane) →
        (t.ops.find? r.op).map (fun o => o.data.get 0 (8 * x.lane)) = some (BitVec.ofNat 64
          ((before.foldl (atomLane (decide (o.kind = .atomc)) (o.fn % 32) o.ty o.size) s.mem).nat x.pa o.size)) := by
  let w := scopeRecord o p true ((laneAsk o p (.sliceAtomic r)).taken (.sliceAtomic r) (s.arrive r))
  have hw : w.mem = s.mem := turn_mem ..
  have hch := lineChanged_changed p.home p.line
    (atomLanes (decide (o.kind = .atomc)) (o.fn % 32) o.ty o.size (lanesOn o p.key) w.mem []).1 w
  obtain ⟨htag, hother⟩ := turn_tag hch
  obtain ⟨es, he⟩ := exec_lane_performs h hs mem_laneEvents.2.2.1 hv.idle.1 hv.turn (fun _ => hpass)
    (laneAsk_calm (hv.alone rfl)) (.inr hv.idle.2)
    (atomicTurn_sound (turn_sound _ _ hv.sound) (applyAtomic_single (turn_single o _ _ hv.single)))
  have hreq := reqPart_withOld (atomLanes (decide (o.kind = .atomc)) (o.fn % 32) o.ty o.size (lanesOn o p.key) w.mem []).2
    (reqPart_congr hch.ops (laneAsk_taken_reqPart _ h _))
  refine ⟨_, he, (partDone_answered hreq ⟨htag, rfl⟩).ahead es, ⟨htag, hother⟩, fun hp => ?_, ?_, fun before x after hl hx => ?_⟩
  · exact (congrArg List.getLast? (hch.sync p.home)).trans (taken_newest hpass hp)
  · exact hch.mem.trans ((atomLanes_fst ..).trans (by rw [hw]))
  · have hop := answerPart_op (f := fun q => { (q.withTag (lineChanged p.home p.line { w with mem :=
      (atomLanes (decide (o.kind = .atomc)) (o.fn % 32) o.ty o.size (lanesOn o p.key) w.mem []).1 }).tags) with done := true }) hreq
    refine (congrArg (Option.map _) hop).trans (congrArg some ?_)
    show Tab.get 0 (o.withOld _).data _ = _
    unfold Tab.get Op.withOld
    rw [Tab.find?_merge _ _ _ (atomLanes_rising _ _ _ _ _ _ _ List.Pairwise.nil), hl, atomLanes_old _ _ _ _ _ _ _ _ _ hx, hw]
    rfl

theorem exec_checkRequest_passes (h : s.reqPart r = some (o, p)) (hs : p.sent = true)
    (hb : (s.sline p.home p.line).state ≠ .busy)
    (hw : (s.sline p.home p.line).waiters = [] ∨ (s.sline p.home p.line).waiters.head? = some (.checkRequest r))
    (hpass : p.passes o s) :
    ∃ t, exec (.checkRequest r) s = .next t ∧ t.answered r.op r.part (fun q => q.passed = true)
      ∧ (p.passed = false → (t.slice p.home).sync.getLast? = some ⟨o.scope, instOf o.scope o.core, p.line⟩)
      ∧ (∀ a, t.mem.byte a = s.mem.byte a) ∧ t.tags = s.tags := by
  obtain ⟨es, he⟩ := exec_lane_performs h hs mem_laneEvents.2.2.2.1 hb hw (fun _ => hpass) rfl (.inl rfl)
    (show laneTurn r o p (.checkRequest r) _ = _ from rfl)
  refine ⟨_, he, (answerPart_answered (laneAsk_taken_reqPart _ h _) (q := fun q => q.passed = true) rfl).ahead es,
    fun hp => taken_newest hpass hp, fun a => ?_, ?_⟩
  · exact congrArg (Memory.byte · a) (turn_mem ..)
  · exact turn_tags ..

end

/-! ## Refusals -/

section
variable {s : State} {r : Req} {o : Op} {p : Part} {e : Instr}

/-- A request has been refused, with no effect but the reply that says so. -/
structure State.Refused (s : State) (r : Req) (p : Part) (x : Trap) (t : State) : Prop where
  reply : t.answered r.op r.part (fun q => q.refusal = some x ∧ q.done = p.done)
  mem : t.mem = s.mem
  tags : t.tags = s.tags
  uo : (t.sline p.home p.line).uo = (s.sline p.home p.line).uo
  sync : (t.slice p.home).sync = (s.slice p.home).sync

theorem State.Refused.ahead {x : Trap} {t : State} (h : s.Refused r p x t) (es : List Instr) : s.Refused r p x (t.ahead es) :=
  ⟨h.reply.ahead es, h.mem, h.tags, h.uo, h.sync⟩

/-- A refusal after which the request waits no longer. -/
theorem State.Refused.leave {x : Trap} {t : State} (h : s.Refused r p x t) (a : Ask) (e : Instr) (hh : a.home = p.home)
    (hl : a.line = p.line) : s.Refused r p x (a.leave e t) := by
  refine ⟨h.reply, h.mem, h.tags, ?_, ?_⟩
  · refine Eq.trans ?_ h.uo
    unfold Ask.leave
    rw [hh, hl, State.sline_modSline_self]
  · exact (State.sync_modSline a.home a.line p.home _).trans h.sync

theorem refuseAt_refused {u : State} {code : Nat} {addr : Dword} {m : Mask} {aux : Dword} (h : u.reqPart r = some (o, p))
    (hm : u.mem = s.mem) (ht : u.tags = s.tags) (hu : (u.sline p.home p.line).uo = (s.sline p.home p.line).uo)
    (hs : (u.slice p.home).sync = (s.slice p.home).sync) :
    s.Refused r p ⟨3, code, addr, m, aux, 0⟩ (refuseAt r 3 code addr m aux u) :=
  ⟨answerPart_answered h ⟨rfl, rfl⟩, hm, ht, hu, hs⟩

/-- A request that R91 does not let pass is refused in its turn (R91). -/
theorem exec_lane_scope {x : SyncRec} (h : s.reqPart r = some (o, p)) (hs : p.sent = true) (he : e ∈ laneEvents r)
    (hx : (s.slice p.home).sync.find? (fun x => x.line = p.line) = some x) (hp : p.passed = false)
    (hc : contains o.scope (instOf o.scope o.core) x.scope x.inst = false) (hchk : laneChecks o e = true)
    (hb : (s.sline p.home p.line).state ≠ .busy)
    (hw : (s.sline p.home p.line).waiters = [] ∨ (s.sline p.home p.line).waiters.head? = some e) :
    ∃ t, exec e s = .next t
      ∧ s.Refused r p ⟨3, tScope, lineAddr p.line, lineMask o p.key, syncWord x, 0⟩ t := by
  have href : scopeRefusal r o p (laneChecks o e) (s.arrive r)
      = some (refuseAt r 3 tScope (lineAddr p.line) (lineMask o p.key) (syncWord x) (s.arrive r)) := by
    rw [hchk]
    exact scopeRefusal_some hx hp hc
  obtain ⟨es, hes⟩ := afterTurn_ahead (laneAsk o p e).home (laneAsk o p e).line ((laneAsk o p e).leave e
    (refuseAt r 3 tScope (lineAddr p.line) (lineMask o p.key) (syncWord x) (s.arrive r)))
  refine ⟨_, ?_, ((refuseAt_refused (s := s) (u := s.arrive r) h rfl rfl rfl rfl).leave (laneAsk o p e) e (laneAsk_home ..)
    (laneAsk_line ..)).ahead es⟩
  rw [exec_lane_arrives h hs he, atSlice_refused (laneAsk_turn hb hw) href, hes]

theorem taken_refused {m : Mask} (h : s.reqPart r = some (o, p)) {code : Nat} {addr aux : Dword} :
    s.Refused r p ⟨3, code, addr, m, aux, 0⟩ (refuseAt r 3 code addr m aux ((laneAsk o p e).taken e (s.arrive r))) := by
  refine refuseAt_refused (reqPart_congr (Ask.taken_ops ..) h) (Ask.taken_mem ..) (Ask.taken_tags ..) ?_ (Ask.taken_sync ..)
  exact (congrArg SliceLine.uo (laneAsk_taken_sline o p e (s.arrive r))).trans rfl

/-- A load, a store of less than the line, or an atomic of a poisoned line is answered with a memory error (R58). -/
theorem laneTurn_poisoned {u : State} (he : e ∈ [Instr.sliceLoad r, .sliceStore r, .sliceAtomic r])
    (hp : poisoned u p.line = true) (hpref : e = .sliceLoad r → o.kind ≠ .pref)
    (hpart : e = .sliceStore r → (storeData o p.key).2 ≠ BitVec.allOnes 128) :
    laneTurn r o p e u = .next (memoryError r o p u) := by
  simp only [List.mem_cons, List.not_mem_nil, or_false] at he
  obtain rfl | rfl | rfl := he
  · show loadTurn r o p u = _
    unfold loadTurn
    rw [if_pos hp, if_neg (hpref rfl)]
  · show storeTurn r o p u = _
    unfold storeTurn
    rw [if_pos (by simp only [hp, Bool.true_and, decide_eq_true_iff]; exact hpart rfl)]
  · exact if_pos hp

theorem laneChecks_passes {P : Prop} (he : e ∈ [Instr.sliceLoad r, .sliceStore r, .sliceAtomic r])
    (hfree : e = .sliceAtomic r ∨ o.order ≠ 0 → P) (hc : laneChecks o e = true) : P := by
  simp only [List.mem_cons, List.not_mem_nil, or_false] at he
  refine hfree ?_
  obtain rfl | rfl | rfl := he
  · exact .inr (by simpa [laneChecks] using hc)
  · exact .inr (by simpa [laneChecks] using hc)
  · exact .inl rfl

theorem laneEvents_of_access (he : e ∈ [Instr.sliceLoad r, .sliceStore r, .sliceAtomic r]) : e ∈ laneEvents r := by
  simp only [List.mem_cons, List.not_mem_nil, or_false] at he
  simp only [laneEvents, List.mem_cons]
  tauto

theorem exec_lane_poisoned (h : s.reqPart r = some (o, p)) (hs : p.sent = true)
    (he : e ∈ [Instr.sliceLoad r, .sliceStore r, .sliceAtomic r]) (hp : poisoned s p.line = true)
    (hb : (s.sline p.home p.line).state ≠ .busy)
    (hw : (s.sline p.home p.line).waiters = [] ∨ (s.sline p.home p.line).waiters.head? = some e)
    (hi : (s.sline p.home p.line).state ≠ .inv) (hu : (s.sline p.home p.line).uo = 0)
    (hfree : e = .sliceAtomic r ∨ o.order ≠ 0 → p.passes o s) (hpref : e = .sliceLoad r → o.kind ≠ .pref)
    (hpart : e = .sliceStore r → (storeData o p.key).2 ≠ BitVec.allOnes 128) :
    ∃ t, exec e s = .next t ∧ s.Refused r p ⟨3, tMemory, lineAddr p.line, lineMask o p.key, 0, 0⟩ t := by
  have hpois : poisoned ((laneAsk o p e).taken e (s.arrive r)) p.line = true := by
    unfold poisoned
    rw [Ask.taken_poison]
    exact hp
  obtain ⟨es, hes⟩ := exec_lane_performs h hs (laneEvents_of_access he) hb hw (laneChecks_passes he hfree) (laneAsk_calm hu)
    (.inr hi) (laneTurn_poisoned he hpois hpref hpart)
  exact ⟨_, hes, (taken_refused h).ahead es⟩

/-! ## A DISCARD brings no line in (R161) -/

/-- A place taken by a line that is not brought in. -/
def SliceLine.placed (l : SliceLine) : SliceLine := { l with state := .cln }

theorem atSlice_placed {a : Ask} {t : State} {refuse : State → Option State} {k : State → Out}
    (h : a.turn e s = true) (hr : refuse s = none) (hc : a.calm s = true) (hh : a.hold = true) (hl : a.fill = false)
    (hi : (s.sline a.home a.line).state = .inv) (hf : (s.slice a.home).taken < 2048)
    (hk : k (a.taken e (s.modSline a.home a.line SliceLine.placed)) = .next t) :
    ∃ es, atSliceWith a e s refuse k = .next (t.ahead es) := by
  obtain ⟨es, he⟩ := afterTurn_ahead a.home a.line t
  refine ⟨es, ?_⟩
  unfold Ask.taken Ask.leave SliceLine.placed at hk
  simp only [Ask.calm, Bool.not_eq_true'] at hc
  simp only [atSliceWith, turn_guard, h, Bool.not_true, Bool.false_eq_true, if_false, hr, hc]
  simp only [hh, hl, hi, Nat.not_le.mpr hf, decide_true, decide_false, Bool.and_self, Bool.and_false, Bool.false_and, if_true,
    Bool.false_eq_true, if_false, hk, ← he]

theorem storeData_discard {key : Nat} (h : o.kind = .discard) : (storeData o key).2 = BitVec.allOnes 128 := by
  unfold storeData
  rw [if_pos h]

theorem exec_discard (hwf : s.mem.wf = true) (h : s.reqPart r = some (o, p)) (hs : p.sent = true) (hkind : o.kind = .discard)
    (hb : (s.sline p.home p.line).state ≠ .busy)
    (hw : (s.sline p.home p.line).waiters = [] ∨ (s.sline p.home p.line).waiters.head? = some (.sliceStore r))
    (hpass : o.order ≠ 0 → p.passes o s) (hu : (s.sline p.home p.line).uo = 0) (hi : (s.sline p.home p.line).state = .inv)
    (hf : (s.slice p.home).taken < 2048) :
    ∃ t, exec (.sliceStore r) s = .next t ∧ (t.sline p.home p.line).state = .dty
      ∧ (t.tags.get 0 p.line = s.tags.get 0 p.line + 1 ∧ ∀ j, j ≠ p.line → t.tags.get 0 j = s.tags.get 0 j)
      ∧ t.answered r.op r.part (fun q => q.done = true) ∧ ∀ a, a / 128 ≠ p.line → t.mem.byte a = s.mem.byte a := by
  let s' := s.modSline p.home p.line SliceLine.placed
  let u := (laneAsk o p (.sliceStore r)).taken (.sliceStore r) (s'.arrive r)
  have h' : s'.reqPart r = some (o, p) := h
  obtain ⟨d, hd, hch⟩ := writeLine_changed p.home p.line (storeData o p.key).1 (storeData o p.key).2 (scopeRecord o p (o.order ≠ 0) u)
  obtain ⟨v, hvd⟩ : ∃ v, writeLine p.home p.line (storeData o p.key).1 (storeData o p.key).2 (scopeRecord o p (o.order ≠ 0) u) = v :=
    ⟨_, rfl⟩
  rw [hvd] at hch
  obtain ⟨htag, hother⟩ := turn_tag hch
  have hmem := hch.mem
  rw [turn_mem] at hmem
  have hask : laneAsk o p (.sliceStore r) = { p.ask with stream := o.hint = 3, fill := false } := by simp [laneAsk, hkind]
  obtain ⟨es, hes⟩ := atSlice_placed (a := laneAsk o p (.sliceStore r)) (s := s.arrive r)
    (refuse := scopeRefusal r o p (laneChecks o (.sliceStore r))) (k := laneTurn r o p (.sliceStore r))
    (laneAsk_turn hb hw) (arrive_passes fun hc => hpass (by simpa [laneChecks] using hc)) (laneAsk_calm hu) rfl (by rw [hask])
    (by rw [laneAsk_home, laneAsk_line]; exact hi) (by rw [laneAsk_home]; exact hf)
    (by rw [laneAsk_home, laneAsk_line]; exact storeTurn_sound (.inr (storeData_discard hkind)) hvd)
  refine ⟨_, (exec_lane_arrives h hs mem_laneEvents.2.1).trans hes, ?_, ⟨htag, hother⟩,
    (partDone_answered (q := fun q => q.done = true) (reqPart_congr hch.ops (laneAsk_taken_reqPart _ h' _)) rfl).ahead es,
    fun a ha => ?_⟩
  · refine (congrArg SliceLine.state hch.line).trans ?_
    rw [scopeRecord_sline, laneAsk_taken_sline]
    show (SliceLine.dirtied { s'.sline p.home p.line with waiters := _ }).state = .dty
    rw [State.sline_modSline_self]
    rfl
  · exact (congrArg (Memory.byte · a) hmem).trans (Memory.byte_putLine_other _ _ _ _ hwf ha)

/-! ## Waiting at a slice -/

theorem Ask.wait_sline {a : Ask} (h : (s.sline a.home a.line).waiters = []) :
    (a.wait e s).sline a.home a.line = { s.sline a.home a.line with waiters := [e] } := by
  unfold Ask.wait
  rw [State.sline_modSline_self]
  simp [h]

theorem Ask.turn_busy {a : Ask} (h : (s.sline a.home a.line).state = .busy) : a.turn e s = false := by simp [Ask.turn, h]

theorem atSlice_busy {a : Ask} {refuse : State → Option State} {k : State → Out} (hb : (s.sline a.home a.line).state = .busy)
    (hw : (s.sline a.home a.line).waiters = []) :
    ∃ t, atSliceWith a e s refuse k = .next t ∧ s.queued e a.home a.line t ∧ t.agenda = s.agenda := by
  refine ⟨_, atSlice_waits (Ask.turn_busy hb), ⟨?_, fun _ => rfl, rfl, rfl⟩, rfl⟩
  rw [Ask.wait_sline hw, hw]
  rfl

theorem lowUo_eq {die k : Nat} {m : BitVec 16} (hk : m.getLsbD k = true) (hlow : ∀ j, j < k → m.getLsbD j = false) :
    lowUo die m = some (16 * die + k) := by
  have hlt : k < 16 := BitVec.lt_of_getLsbD hk
  have hfind : (List.range 16).find? (fun i => m.getLsbD i) = some k := by
    rw [List.find?_range_eq_some]
    exact ⟨hk, List.mem_range.mpr hlt, fun j hj => by simp [hlow j hj]⟩
  rw [lowUo, hfind]
  rfl

theorem evictLine_absent {home line k : Nat} (hi : (s.sline home line).state = .inv) (hu : (s.sline home line).uo = 0) :
    ((evictLine home k s).sline home line).state = .inv
      ∧ ((evictLine home k s).sline home line).waiters = (s.sline home line).waiters ∧ (evictLine home k s).mem = s.mem := by
  by_cases hk : line = k
  · subst hk
    unfold evictLine dropLine
    simp [hu, hi]
  · unfold evictLine recallCopies dropLine
    dsimp only
    split
    · simp [State.sline_modSline, hk, hi]
    · split
      · simp [State.sline_modSline, hk, hi]
      · simp [State.sline_modSline, hk, hi]

theorem sliceEvict_absent {home line : Nat} (hi : (s.sline home line).state = .inv) (hu : (s.sline home line).uo = 0) :
    ((sliceEvict home s).sline home line).state = .inv
      ∧ ((sliceEvict home s).sline home line).waiters = (s.sline home line).waiters ∧ (sliceEvict home s).mem = s.mem := by
  have hchosen (n : Nat) : ((s.choose n).2.sline home line) = s.sline home line ∧ (s.choose n).2.mem = s.mem := by
    unfold State.choose
    split
    · exact ⟨rfl, rfl⟩
    · exact ⟨rfl, rfl⟩
  unfold sliceEvict
  dsimp only
  split
  · exact ⟨hi, rfl, rfl⟩
  · split
    · exact ⟨hi, rfl, rfl⟩
    · obtain ⟨hl, hm⟩ := hchosen (if (List.filter (fun e => e.2.first) ((s.slice home).lines.filter (fun e => e.2.idle))).isEmpty
        then (s.slice home).lines.filter (fun e => e.2.idle)
        else List.filter (fun e => e.2.first) ((s.slice home).lines.filter (fun e => e.2.idle))).length
      have h := evictLine_absent (k := ‹Nat × SliceLine›.1) (hl ▸ hi) (hl ▸ hu)
      rwa [hl, hm] at h

theorem laneAsk_hold (he : e ∈ [Instr.sliceLoad r, .sliceStore r, .sliceAtomic r]) : (laneAsk o p e).hold = true := by
  simp only [List.mem_cons, List.not_mem_nil, or_false] at he
  obtain rfl | rfl | rfl := he
  · rfl
  · rfl
  · rfl

theorem laneAsk_rcl (he : e ∈ [Instr.sliceLoad r, .sliceStore r, .sliceAtomic r]) (h : e = .sliceLoad r → o.kind ≠ .pref) :
    (laneAsk o p e).rcl = true := by
  simp only [List.mem_cons, List.not_mem_nil, or_false] at he
  obtain rfl | rfl | rfl := he
  · exact decide_eq_true (h rfl)
  · rfl
  · rfl

theorem laneAsk_fill (he : e ∈ [Instr.sliceLoad r, .sliceStore r, .sliceAtomic r]) (h : o.kind ≠ .discard) :
    (laneAsk o p e).fill = true := by
  simp only [List.mem_cons, List.not_mem_nil, or_false] at he
  obtain rfl | rfl | rfl := he
  · rfl
  · exact decide_eq_true h
  · rfl

theorem laneAsk_stream (he : e ∈ [Instr.sliceLoad r, .sliceStore r, .sliceAtomic r]) :
    (laneAsk o p e).stream = decide (o.hint = 3 ∧ e ≠ .sliceAtomic r) := by
  simp only [List.mem_cons, List.not_mem_nil, or_false] at he
  obtain rfl | rfl | rfl := he
  · simp [laneAsk]
  · simp [laneAsk]
  · simp [laneAsk, Part.ask]

theorem exec_lane_busy (h : s.reqPart r = some (o, p)) (hs : p.sent = true) (he : e ∈ laneEvents r)
    (hb : (s.sline p.home p.line).state = .busy) (hw : (s.sline p.home p.line).waiters = []) :
    ∃ t, exec e s = .next t ∧ s.queued e p.home p.line t ∧ t.agenda = s.agenda := by
  obtain ⟨t, ht, hq, ha⟩ := atSlice_busy (a := laneAsk o p e) (e := e) (s := s.arrive r)
    (refuse := scopeRefusal r o p (laneChecks o e)) (k := laneTurn r o p e)
    (by rw [laneAsk_home, laneAsk_line]; exact hb) (by rw [laneAsk_home, laneAsk_line]; exact hw)
  rw [laneAsk_home, laneAsk_line] at hq
  obtain ⟨hl, hm, htg, ho⟩ := hq
  exact ⟨t, (exec_lane_arrives h hs he).trans ht, ⟨hl, hm, htg, ho⟩, ha⟩

/-- A request that needs the line alone recalls the copy of the lowest core that has one (R85). -/
theorem exec_lane_recalls {k : Nat} (h : s.reqPart r = some (o, p)) (hs : p.sent = true)
    (he : e ∈ [Instr.sliceLoad r, .sliceStore r, .sliceAtomic r]) (hw : (s.sline p.home p.line).waiters = [])
    (hfree : e = .sliceAtomic r ∨ o.order ≠ 0 → p.passes o s) (hpref : e = .sliceLoad r → o.kind ≠ .pref)
    (hb : (s.sline p.home p.line).state ≠ .busy) (hk : (s.sline p.home p.line).uo.getLsbD k = true)
    (hlow : ∀ j, j < k → (s.sline p.home p.line).uo.getLsbD j = false) :
    ∃ t, exec e s = .next t
      ∧ t.sline p.home p.line = { s.sline p.home p.line with
          state := .busy, dirty := decide ((s.sline p.home p.line).state = .dty), waiters := [e] }
      ∧ t.agenda = s.agenda ++ [.recallDelivery (16 * (p.home / 512) + k) p.line] ∧ ∀ a, t.mem.byte a = s.mem.byte a := by
  have hu : (s.sline p.home p.line).uo ≠ 0 := fun hz => by simp [hz] at hk
  have hl := (laneAsk o p e).wait_sline (s := s.arrive r) (e := e) (by rw [laneAsk_home, laneAsk_line]; exact hw)
  rw [laneAsk_home, laneAsk_line] at hl
  refine ⟨_, (exec_lane_arrives h hs (laneEvents_of_access he)).trans (atSlice_recalls (laneAsk_turn hb (.inl hw))
    (arrive_passes (laneChecks_passes he hfree)) (laneAsk_rcl he hpref) (by rw [laneAsk_home, laneAsk_line]; exact hu)),
    ?_, ?_, fun _ => rfl⟩
  · rw [laneAsk_home, laneAsk_line]
    unfold recallCopies
    rw [State.sline_push, State.sline_modSline_self, hl]
    rfl
  · rw [laneAsk_home, laneAsk_line]
    unfold recallCopies
    rw [State.push_agenda, hl, show lowUo (sliceDie p.home) ({ (s.arrive r).sline p.home p.line with waiters := [e] } : SliceLine).uo
      = some (16 * (p.home / 512) + k) from lowUo_eq hk hlow]
    rfl

theorem exec_lane_fills (h : s.reqPart r = some (o, p)) (hs : p.sent = true)
    (he : e ∈ [Instr.sliceLoad r, .sliceStore r, .sliceAtomic r]) (hw : (s.sline p.home p.line).waiters = [])
    (hfree : e = .sliceAtomic r ∨ o.order ≠ 0 → p.passes o s) (hi : (s.sline p.home p.line).state = .inv)
    (hu : (s.sline p.home p.line).uo = 0) (hd : o.kind ≠ .discard) (hf : (s.slice p.home).taken < 2048) :
    ∃ t, exec e s = .next t
      ∧ t.sline p.home p.line = { s.sline p.home p.line with
          state := .busy, waiters := [e], first := decide (o.hint = 3 ∧ e ≠ .sliceAtomic r) }
      ∧ Instr.sliceFillComplete p.home p.line ∈ t.agenda ∧ ∀ a, t.mem.byte a = s.mem.byte a := by
  have hb : (s.sline p.home p.line).state ≠ .busy := by simp [hi]
  refine ⟨_, (exec_lane_arrives h hs (laneEvents_of_access he)).trans (atSlice_fills (laneAsk_turn hb (.inl hw))
    (arrive_passes (laneChecks_passes he hfree)) (laneAsk_calm hu) (laneAsk_hold he) (laneAsk_fill he hd)
    (by rw [laneAsk_home, laneAsk_line]; exact hi) (by rw [laneAsk_home]; exact hf)), ?_, ?_, fun _ => rfl⟩
  · have hline := State.sline_modSline_self (s := s.arrive r) p.home p.line
      (fun l => { l with state := .busy, first := (laneAsk o p e).stream })
    have hwait := (laneAsk o p e).wait_sline (e := e)
      (s := (s.arrive r).modSline p.home p.line (fun l => { l with state := .busy, first := (laneAsk o p e).stream }))
    rw [laneAsk_home, laneAsk_line, hline] at hwait
    rw [State.sline_push, laneAsk_home, laneAsk_line, hwait hw, laneAsk_stream he]
    rfl
  · rw [State.push_agenda, laneAsk_home, laneAsk_line]
    simp

theorem exec_lane_full (h : s.reqPart r = some (o, p)) (hs : p.sent = true)
    (he : e ∈ [Instr.sliceLoad r, .sliceStore r, .sliceAtomic r]) (hw : (s.sline p.home p.line).waiters = [])
    (hfree : e = .sliceAtomic r ∨ o.order ≠ 0 → p.passes o s) (hi : (s.sline p.home p.line).state = .inv)
    (hu : (s.sline p.home p.line).uo = 0) (hf : 2048 ≤ (s.slice p.home).taken) :
    ∃ t, exec e s = .next t ∧ (t.sline p.home p.line).state = .inv ∧ (t.sline p.home p.line).waiters = [e]
      ∧ ∀ a, t.mem.byte a = s.mem.byte a := by
  have hb : (s.sline p.home p.line).state ≠ .busy := by simp [hi]
  have hl := (laneAsk o p e).wait_sline (s := s.arrive r) (e := e) (by rw [laneAsk_home, laneAsk_line]; exact hw)
  rw [laneAsk_home, laneAsk_line] at hl
  obtain ⟨hinv, hwait, hmem⟩ := sliceEvict_absent (home := p.home) (line := p.line) (s := (laneAsk o p e).wait e (s.arrive r))
    (by rw [hl]; exact hi) (by rw [hl]; exact hu)
  obtain ⟨es, hes⟩ := wakeRoom_ahead p.home (sliceEvict p.home ((laneAsk o p e).wait e (s.arrive r)))
  refine ⟨_, (exec_lane_arrives h hs (laneEvents_of_access he)).trans (atSlice_full (laneAsk_turn hb (.inl hw))
    (arrive_passes (laneChecks_passes he hfree)) (laneAsk_calm hu) (laneAsk_hold he)
    (by rw [laneAsk_home, laneAsk_line]; exact hi) (by rw [laneAsk_home]; exact hf)), ?_⟩
  rw [laneAsk_home, hes]
  refine ⟨hinv, hwait.trans (by rw [hl]), fun a => ?_⟩
  exact congrArg (Memory.byte · a) hmem

end

theorem State.Refused.stated {s t : State} {r : Req} {p : Part} {x : Trap} (h : s.Refused r p x t) :
    t.answered r.op r.part (fun q => q.refusal = some x ∧ q.done = p.done) ∧ (∀ a, t.mem.byte a = s.mem.byte a)
      ∧ t.tags = s.tags ∧ (t.sline p.home p.line).uo = (s.sline p.home p.line).uo
      ∧ (t.slice p.home).sync = (s.slice p.home).sync :=
  ⟨h.reply, fun a => congrArg (Memory.byte · a) h.mem, h.tags, h.uo, h.sync⟩

theorem laneChecks_of {o : Op} {r : Req} {e : Instr} (he : e ∈ laneEvents r)
    (h : e = .sliceLoad r ∨ e = .sliceStore r → o.order ≠ 0) : laneChecks o e = true := by
  simp only [laneEvents, List.mem_cons, List.not_mem_nil, or_false] at he
  obtain rfl | rfl | rfl | rfl | rfl := he
  · exact decide_eq_true (h (.inl rfl))
  · exact decide_eq_true (h (.inr rfl))
  · rfl
  · rfl
  · rfl

/-- Settles O40, event by event: a request leaves its core, and at its slice it waits, is refused, recalls copies, brings its
line in, or is performed. -/
theorem sliceRequests : Obligations.SliceRequests := by
  unfold Obligations.SliceRequests
  intro s r o p hinv ho hp
  have h : s.reqPart r = some (o, p) := State.reqPart_eq_some.mpr ⟨ho, hp⟩
  refine ⟨fun e he hs hrem hret hfind => ?_, fun hs => ⟨fun hv hpass himage => ?_, fun hv hpass hkind hline => ?_, fun hv hpass => ?_,
    fun ht hpass => ?_, fun x hx hpassed hc e he hord ht => ?_, fun e he hpois ht hi hu hfree hpref hpart => ?_,
    fun hkind ht hpass hu hi hf => ?_, fun e he hw => ⟨fun hb => ?_, fun k hfree hpref hb hk hlow => ?_, fun hfree hi hu hd =>
      ⟨fun hf => ?_, fun hf => ?_⟩⟩⟩⟩
  · obtain ⟨hleft, hreq⟩ := leaveCore_left (e := e) h hrem fun _ => ⟨hret, hfind⟩
    obtain ⟨ho', hp'⟩ := State.reqPart_eq_some.mp hreq
    exact ⟨_, exec_lane_leaves h hs he, hleft, by rw [ho']; exact hp'⟩
  · exact exec_sliceLoad_served h hs hv hpass himage
  · obtain ⟨t, he, hans, htag, hother, hnew, hbytes⟩ := exec_sliceStore_served hinv.memory h hs hv hpass hkind hline
    exact ⟨t, he, hans, htag, hother, hnew, fun _ => hbytes⟩
  · exact exec_sliceAtomic_served h hs hv hpass
  · exact exec_checkRequest_passes h hs ht.1 ht.2 hpass
  · obtain ⟨t, hex, href⟩ := exec_lane_scope h hs he hx hpassed hc (laneChecks_of he hord) ht.1 ht.2
    exact ⟨t, hex, href.stated⟩
  · obtain ⟨t, hex, href⟩ := exec_lane_poisoned h hs he hpois ht.1 ht.2 hi hu hfree hpref hpart
    exact ⟨t, hex, href.stated⟩
  · exact exec_discard hinv.memory h hs hkind ht.1 ht.2 hpass hu hi hf
  · exact exec_lane_busy h hs (laneEvents_of_access he) hb hw
  · exact exec_lane_recalls h hs he hw hfree hpref hb hk hlow
  · exact exec_lane_fills h hs he hw hfree hi hu hd hf
  · exact exec_lane_full h hs he hw hfree hi hu hf

/-! ## Events that make requests of their own -/

section
variable {s : State} {e : Instr} {q : Requester} {stops : List Stop}

theorem State.choose_eq (s : State) (k : Nat) : ∃ n, (s.choose k).2 = { s with free := n } := by
  unfold State.choose
  split
  · exact ⟨s.free, rfl⟩
  · exact ⟨_, rfl⟩

/-- A request of an event leaves: it is on its path, and the event stands in the agenda again. -/
theorem journey_leaves {x : Stop} (look : Trip → State → Out) (home : List Trip → State → Out) (h : s.leaves e q stops x) :
    ∃ t, journey e q stops look home s = .next t ∧ s.left e q x t := by
  obtain ⟨n, hn⟩ := s.choose_eq (actsOf s e q stops).length
  refine ⟨({ s with free := n }.depart e q [x]).push [e], ?_, ⟨⟨_, rfl, rfl, rfl, rfl, rfl⟩, rfl, rfl, fun _ => rfl⟩⟩
  rw [journey_act h.open_ h.next, hn]

/-- A request of an event has come to its slice. -/
def State.there (s : State) (x : Trip) (n : Nat) : State :=
  ({ s with free := n } : State).modTrip x.id (fun y => { y with stage := .there })

@[simp] theorem State.there_mem (x : Trip) (n : Nat) : (s.there x n).mem = s.mem := rfl
@[simp] theorem State.there_tags (x : Trip) (n : Nat) : (s.there x n).tags = s.tags := rfl
@[simp] theorem State.there_ops (x : Trip) (n : Nat) : (s.there x n).ops = s.ops := rfl
@[simp] theorem State.there_agenda (x : Trip) (n : Nat) : (s.there x n).agenda = s.agenda := rfl
@[simp] theorem State.there_sline (x : Trip) (n h l : Nat) : (s.there x n).sline h l = s.sline h l := rfl

theorem mem_trips_of_go {x : Trip} (h : Act.go x ∈ actsOf s e q stops) : x ∈ s.trips := by
  unfold actsOf State.tripsOf at h
  simp only [List.mem_append, List.mem_map, List.mem_filter, reduceCtorEq, and_false, exists_false, false_or, Act.go.injEq,
    exists_eq_right] at h
  exact h.1.1

theorem State.comes.mem {x : Trip} (h : s.comes e q stops x) : x ∈ s.trips :=
  mem_trips_of_go (List.mem_of_getElem? h.next)

/-- What a slice does with a request that has come. -/
theorem journey_comes {x : Trip} (h : s.comes e q stops x) :
    ∃ n, ∀ (look : Trip → State → Out) (home : List Trip → State → Out) t, look x (s.there x n) = .next t →
      journey e q stops look home s = .next (t.push [e]) := by
  obtain ⟨n, hn⟩ := s.choose_eq (actsOf s e q stops).length
  refine ⟨n, fun look home t ht => ?_⟩
  rw [journey_act h.open_ h.next, hn]
  dsimp only
  unfold State.there at ht
  rw [ht]

/-- A trip among those of a state with which a slice is done: its reply is on its way. -/
theorem returned_replies {x : Trip} {f : Trip → Trip} {p : Trip → Prop} {n : Nat} {u : State} (hx : x ∈ s.trips)
    (hu : u.trips = (s.there x n).trips) (hid : ∀ y, (f y).id = y.id) (hp : ∀ y, y.bad = x.bad → p { f y with stage := .back }) :
    ((returned x f u).push [e]).replies e x p := by
  refine ⟨⟨{ f { x with stage := .there } with stage := .back }, ?_, hid _, rfl, hp _ rfl⟩, ?_, ?_⟩
  · refine List.mem_map.mpr ⟨{ x with stage := .there }, ?_, if_pos rfl⟩
    rw [hu]
    exact List.mem_map.mpr ⟨x, hx, if_pos rfl⟩
  · simp [returned]
  · simp

theorem State.replies.before {x : Trip} {p : Trip → Prop} {t u : State} (h : t.replies e x p) (ht : u.trips = t.trips)
    (ha : ∀ i ∈ t.agenda, i ∈ u.agenda) : u.replies e x p := by
  obtain ⟨y, hy, hid, hst, hp⟩ := h.reply
  exact ⟨⟨y, ht ▸ hy, hid, hst, hp⟩, ha _ h.arrives, ha _ h.again⟩

end

/-! ## Operations that end -/

/-- Operations have the parts that they had, or are gone, and memory is as it was. -/
structure State.KeepsParts (s t : State) : Prop where
  mem : t.mem = s.mem
  parts : ∀ id o, t.ops.find? id = some o → ∃ o', s.ops.find? id = some o' ∧ o.parts = o'.parts

section
variable {s t u : State}

theorem State.KeepsParts.of_ops (hm : t.mem = s.mem) (ho : t.ops = s.ops) : s.KeepsParts t :=
  ⟨hm, fun _ o h => ⟨o, ho ▸ h, rfl⟩⟩

theorem State.KeepsParts.trans (h : s.KeepsParts t) (k : t.KeepsParts u) : s.KeepsParts u := by
  refine ⟨k.mem.trans h.mem, fun id o ho => ?_⟩
  obtain ⟨o', ho', hp'⟩ := k.parts id o ho
  obtain ⟨o'', ho'', hp''⟩ := h.parts id o' ho'
  exact ⟨o'', ho'', hp'.trans hp''⟩

theorem modOp_keepsParts (s : State) (id : Nat) {f : Op → Op} (hf : ∀ o, (f o).parts = o.parts) : s.KeepsParts (s.modOp id f) := by
  refine ⟨rfl, fun j o ho => ?_⟩
  rw [State.find?_modOp] at ho
  split at ho
  · next hj =>
    obtain ⟨o', ho', rfl⟩ := Option.map_eq_some_iff.mp ho
    exact ⟨o', hj ▸ ho', hf o'⟩
  · exact ⟨o, ho, rfl⟩

theorem dropOp_keepsParts (s : State) (id : Nat) : s.KeepsParts (s.dropOp id) := by
  refine ⟨rfl, fun j o ho => ?_⟩
  rw [State.find?_dropOp] at ho
  split at ho
  · cases ho
  · exact ⟨o, ho, rfl⟩

theorem completeAt_keepsParts (id : Nat) (scopes : List Nat) (code : Nat) (s : State) : s.KeepsParts (completeAt id scopes code s) := by
  unfold completeAt
  split
  · exact .of_ops rfl rfl
  · split
    · exact .of_ops rfl rfl
    · split
      · exact .of_ops rfl rfl
      · exact (modOp_keepsParts s id (f := fun o => { o with owed := o.owed ++ scopes }) fun _ => rfl).trans (.of_ops rfl rfl)

theorem finishOp_keepsParts (id : Nat) (s : State) : s.KeepsParts (finishOp id s) := by
  unfold finishOp
  split
  · exact .of_ops rfl rfl
  · next o _ =>
    split
    · have hfill : s.KeepsParts (s.modWarp (warpOf o.ref) (fillDests (ringOf s (warpOf o.ref)) o)) := .of_ops rfl rfl
      have hdone := hfill.trans (completeAt_keepsParts id (if o.doneCore then wideScopes else allScopes) o.code _)
      exact (hdone.trans (u := wakeReply id o _) (.of_ops rfl rfl)).trans (dropOp_keepsParts _ id)
    · have howed := modOp_keepsParts s id (f := fun o => { o with
        running := false, doneWide := true, owed := o.owed ++ if o.doneCore then wideScopes else allScopes }) fun _ => rfl
      exact howed.trans (.of_ops rfl rfl)

/-- No part of an operation waits any more for a line's write-back. -/
def NoWb (line id : Nat) (s : State) : Prop :=
  ∀ o, s.ops.find? id = some o → ∀ q ∈ o.parts, q.key = line → q.wb = false

theorem State.KeepsParts.noWb {line id : Nat} (h : s.KeepsParts t) (hs : NoWb line id s) : NoWb line id t := by
  intro o ho q hq hk
  obtain ⟨o', ho', hp⟩ := h.parts id o ho
  exact hs o' ho' q (hp ▸ hq) hk

/-- The parts of an operation on a line wait for nothing any more. -/
def Op.lineDone (line : Nat) (o : Op) : Op :=
  { o with parts := o.parts.map (fun p => if p.key = line then { p with wb := false } else p) }

theorem wbDone_lineDone (line id : Nat) (s : State) : (s.modOp id (Op.lineDone line)).KeepsParts (wbDone line id s) := by
  unfold wbDone
  dsimp only
  split
  · exact .of_ops rfl rfl
  · split
    · exact finishOp_keepsParts ..
    · exact .of_ops rfl rfl

theorem Op.lineDone_wb {line : Nat} {o : Op} {q : Part} (hq : q ∈ (o.lineDone line).parts) (hk : q.key = line) : q.wb = false := by
  obtain ⟨p, _, rfl⟩ := List.mem_map.mp hq
  split at hk
  · next h => rw [if_pos h]
  · next h => exact absurd hk h

theorem wbDone_noWb_self (line id : Nat) (s : State) : NoWb line id (wbDone line id s) := by
  refine (wbDone_lineDone line id s).noWb fun o ho q hq hk => ?_
  rw [State.find?_modOp, if_pos rfl] at ho
  obtain ⟨o', _, rfl⟩ := Option.map_eq_some_iff.mp ho
  exact Op.lineDone_wb hq hk

theorem wbDone_noWb {line id : Nat} (j : Nat) (h : NoWb line id s) : NoWb line id (wbDone line j s) := by
  by_cases hj : id = j
  · exact hj ▸ wbDone_noWb_self line id s
  · refine (wbDone_lineDone line j s).noWb fun o ho => h o ?_
    rwa [State.find?_modOp, if_neg hj] at ho

theorem wbDone_mem (line id : Nat) (s : State) : (wbDone line id s).mem = s.mem := (wbDone_lineDone line id s).mem

theorem wbDones (line : Nat) (ids : List Nat) (s : State) :
    (ids.foldl (fun s id => wbDone line id s) s).mem = s.mem
      ∧ ∀ id, id ∈ ids ∨ NoWb line id s → NoWb line id (ids.foldl (fun s id => wbDone line id s) s) := by
  induction ids generalizing s with
  | nil => exact ⟨rfl, fun id h => h.resolve_left List.not_mem_nil⟩
  | cons j ids ih =>
    obtain ⟨hm, hd⟩ := ih (wbDone line j s)
    refine ⟨hm.trans (wbDone_mem ..), fun id h => hd id ?_⟩
    rw [List.mem_cons] at h
    obtain (rfl | h) | h := h
    · exact .inr (wbDone_noWb_self _ _ _)
    · exact .inl h
    · exact .inr (wbDone_noWb j h)

/-! ## Faults of operations -/

theorem raiseTrap_keeps (r : SplitRef) (x : Trap) (s : State) : (raiseTrap r x s).mem = s.mem ∧ (raiseTrap r x s).ops = s.ops := by
  unfold raiseTrap
  dsimp only
  split
  · exact ⟨rfl, rfl⟩
  · split
    · exact ⟨rfl, rfl⟩
    · split
      · exact ⟨rfl, rfl⟩
      · exact ⟨rfl, rfl⟩
    · split
      · exact ⟨rfl, rfl⟩
      · exact ⟨rfl, rfl⟩
    · split
      · exact ⟨rfl, rfl⟩
      · exact ⟨rfl, rfl⟩
    · exact ⟨rfl, rfl⟩

/-- An operation's first fault stays with it. -/
theorem faultOp_fault {id cls code : Nat} {addr : Dword} {m : Mask} {aux : Dword} {o : Op} (h : s.ops.find? id = some o)
    (hf : o.fault = none) : (faultOp id cls code addr m aux s).mem = s.mem
      ∧ ((faultOp id cls code addr m aux s).ops.find? id).map (·.fault) = some (some ⟨cls, code, addr, m, aux, o.pc⟩) := by
  have hop : ((s.modOp id (fun o' => { o' with fault := o'.fault <|> some ⟨cls, code, addr, m, aux, o.pc⟩ })).ops.find? id).map (·.fault)
      = some (some ⟨cls, code, addr, m, aux, o.pc⟩) := by
    rw [State.find?_modOp, if_pos rfl, h]
    simp [hf]
  obtain ⟨hm, ho⟩ := raiseTrap_keeps o.ref ⟨cls, code, addr, m, aux, o.pc⟩
    (s.modOp id (fun o' => { o' with fault := o'.fault <|> some ⟨cls, code, addr, m, aux, o.pc⟩ }))
  rw [← ho] at hop
  unfold faultOp
  rw [h]
  dsimp only
  split
  · exact ⟨hm, hop⟩
  · exact ⟨hm, hop⟩

end

/-! ## A core's returns of a copy (R81, R82, R140) -/

section
variable {s : State} {e : Instr} {core home line : Nat} {ids : List Nat} {look : Trip → State → Out}

theorem returnTrip_done (h : allBack (s.tripsOf e) [⟨home, line, 1⟩] = true) (hgood : ∀ x ∈ s.tripsOf e, x.bad = false) :
    ∃ t, returnTrip e core home line ids look s = .next t ∧ (∀ a, t.mem.byte a = s.mem.byte a)
      ∧ ∀ id ∈ ids, ∀ o, t.ops.find? id = some o → ∀ q ∈ o.parts, q.key = line → q.wb = false := by
  have hany : (s.tripsOf e).any (·.bad) = false := by
    rw [List.any_eq_false]
    exact fun x hx => by simp [hgood x hx]
  obtain ⟨hm, hd⟩ := wbDones line ids (s.endTrips e)
  refine ⟨_, ?_, fun a => congrArg (Memory.byte · a) hm, fun id hid => hd id (.inl hid)⟩
  unfold returnTrip
  rw [journey_home h, hany]
  rfl

/-- The accesses of an operation to a line are not performed (R58). -/
def Op.lineFaulted (line : Nat) (o : Op) : Op :=
  { o with parts := o.parts.map (fun p =>
      if p.key = line && p.wb then { p with wb := false, done := false, back := false, bad := true } else p) }

theorem wbFault_single {id : Nat} {o : Op} (h : s.ops.find? id = some o) (hf : o.fault = none) :
    (wbFault line [id] s).mem = s.mem
      ∧ ((wbFault line [id] s).ops.find? id).map (·.fault) = some (some ⟨3, tMemory, lineAddr line, lineMask o line, 0, o.pc⟩) := by
  unfold wbFault
  rw [List.foldl_cons, List.foldl_nil, h]
  exact faultOp_fault (s := s.modOp id (Op.lineFaulted line)) (o := o.lineFaulted line)
    (by rw [State.find?_modOp, if_pos rfl, h]; rfl) hf

theorem returnTrip_bad {id : Nat} {o : Op} (h : allBack (s.tripsOf e) [⟨home, line, 1⟩] = true) (hbad : ∃ x ∈ s.tripsOf e, x.bad = true)
    (ho : s.ops.find? id = some o) (hf : o.fault = none) :
    ∃ t, returnTrip e core home line [id] look s = .next t ∧ (∀ a, t.mem.byte a = s.mem.byte a)
      ∧ (t.ops.find? id).map (·.fault) = some (some ⟨3, tMemory, lineAddr line, lineMask o line, 0, o.pc⟩) := by
  have hany : (s.tripsOf e).any (·.bad) = true := List.any_eq_true.mpr hbad
  obtain ⟨hm, hd⟩ := wbFault_single (s := s.endTrips e) (line := line) ho hf
  refine ⟨_, ?_, fun a => congrArg (Memory.byte · a) hm, hd⟩
  unfold returnTrip
  rw [journey_home h, hany]
  rfl

theorem State.mem_again (es : List Instr) : ∀ i ∈ (s.push [e]).agenda, i ∈ ((s.ahead es).push [e]).agenda := by
  intro i hi
  simp only [State.push_agenda, State.ahead, List.mem_append] at hi ⊢
  tauto

/-- The slice's part of a write-back (R140). -/
def wbLook (core home line : Nat) (data : LineData) (bm : ByteMask) (ids : List Nat) (t : Trip) (s : State) : Out :=
  atSlice home line true (.writeBackArrival core home line data bm ids) s (fun s =>
    if poisoned s line && bm ≠ BitVec.allOnes 128 then .next (returned t (fun x => { x with bad := true }) s)
    else .next (returned t (fun x => x) (writeLine home line data bm s)))

/-- The slice's part of a partial result (R188). -/
def combineLook (core home line : Nat) (data : LineData) (bm : ByteMask) (fn ty : Nat) (t : Trip) (s : State) : Out :=
  let bad := bm ≠ 0 && poisoned s line
  .next (returned t (fun x => { x with bad := bad })
    (copyReturned core home line (if bm = 0 || bad then s else combine home line data bm fn ty s)))

/-- A return's events. -/
def returnEvents (core home line : Nat) (data : LineData) (bm : ByteMask) (ids : List Nat) (fn ty : Nat) : List Instr :=
  [.writeBackArrival core home line data bm ids, .partialResultCombine core home line data bm fn ty ids]

variable {data : LineData} {bm : ByteMask} {fn ty : Nat}

theorem exec_return (he : e ∈ returnEvents core home line data bm ids fn ty) :
    ∃ look, ∀ s, exec e s = returnTrip e core home line ids look s := by
  simp only [returnEvents, List.mem_cons, List.not_mem_nil, or_false] at he
  obtain rfl | rfl := he
  · exact ⟨wbLook core home line data bm ids, fun _ => rfl⟩
  · exact ⟨combineLook core home line data bm fn ty, fun _ => rfl⟩

/-! ## Write-backs at their slice -/

/-- What a write-back needs of its line. -/
def wbAsk (home line : Nat) : Ask := { home := home, line := line }

/-- What the slice does for a write-back in its turn. -/
def wbTurn (home line : Nat) (data : LineData) (bm : ByteMask) (x : Trip) (s : State) : Out :=
  if poisoned s line && bm ≠ BitVec.allOnes 128 then .next (returned x (fun y => { y with bad := true }) s)
  else .next (returned x (fun y => y) (writeLine home line data bm s))

theorem wbLook_eq (x : Trip) (s : State) : wbLook core home line data bm ids x s
    = atSliceWith (wbAsk home line) (.writeBackArrival core home line data bm ids) s (fun _ => none) (wbTurn home line data bm x) := rfl

theorem wbTurn_sound {x : Trip} {v : State} (hs : poisoned s line = false) (hv : writeLine home line data bm s = v) :
    wbTurn home line data bm x s = .next (returned x (fun y => y) v) := by
  unfold wbTurn
  simp [hs, hv]

theorem wbTurn_poisoned {x : Trip} (hs : poisoned s line = true) (hb : bm ≠ BitVec.allOnes 128) :
    wbTurn home line data bm x s = .next (returned x (fun y => { y with bad := true }) s) := by
  unfold wbTurn
  rw [if_pos (by simp only [hs, Bool.true_and, decide_eq_true_iff]; exact hb)]

/-- A write-back whose request comes has its turn. -/
theorem exec_writeBack {x : Trip} (h : s.comes (.writeBackArrival core home line data bm ids) (returnBy s core home line)
    [⟨home, line, 1⟩] x) :
    ∃ n, ∀ t, atSliceWith (wbAsk home line) (.writeBackArrival core home line data bm ids) (s.there x n) (fun _ => none)
        (wbTurn home line data bm x) = .next t →
      exec (.writeBackArrival core home line data bm ids) s = .next (t.push [.writeBackArrival core home line data bm ids]) := by
  obtain ⟨n, hn⟩ := journey_comes h
  refine ⟨n, fun t ht => ?_⟩
  show returnTrip _ core home line ids (wbLook core home line data bm ids) s = _
  exact hn _ _ t ht

theorem exec_writeBack_served (hwf : s.mem.wf = true) {x : Trip} (h : s.comes (.writeBackArrival core home line data bm ids)
      (returnBy s core home line) [⟨home, line, 1⟩] x)
    (hv : s.served home line true (.writeBackArrival core home line data bm ids)) :
    ∃ t, exec (.writeBackArrival core home line data bm ids) s = .next t
      ∧ (t.tags.get 0 line = s.tags.get 0 line + 1 ∧ ∀ j, j ≠ line → t.tags.get 0 j = s.tags.get 0 j)
      ∧ t.replies (.writeBackArrival core home line data bm ids) x (fun y => y.bad = x.bad)
      ∧ (t.sline home line).state = .dty
      ∧ ∀ a, t.mem.byte a = if a / 128 = line ∧ bm.getLsbD (a % 128) = true then lineByte data (a % 128) else s.mem.byte a := by
  obtain ⟨n, hn⟩ := exec_writeBack h
  let u := (wbAsk home line).taken (.writeBackArrival core home line data bm ids) (s.there x n)
  have hsound : poisoned u line = false := by
    unfold poisoned
    rw [Ask.taken_poison]
    exact hv.sound
  have hsingle : mixedHome u home line = false := (wbAsk home line).taken_single _ _ hv.single
  obtain ⟨v, hvd⟩ : ∃ v, writeLine home line data bm u = v := ⟨_, rfl⟩
  obtain ⟨d, hd, hch⟩ := writeLine_changed home line data bm u
  rw [hvd, hd hsingle] at hch
  obtain ⟨es, he⟩ := atSlice_done (a := wbAsk home line) (refuse := fun _ => none) (s := s.there x n) (k := wbTurn home line data bm x)
    (Ask.turn_of hv.idle.1 hv.turn) rfl (Ask.calm_of (hv.alone rfl)) (.inr hv.idle.2) (wbTurn_sound hsound hvd)
  have hmem := hch.mem
  rw [Ask.taken_mem] at hmem
  have htag := hch.tag
  rw [Ask.taken_tags] at htag
  refine ⟨_, hn _ he, htag, (returned_replies h.mem (hch.trips.trans (Ask.taken_trips ..)) (fun _ => rfl) fun _ hy => hy).before rfl
    (State.mem_again es), ?_, fun a => ?_⟩
  · refine (congrArg SliceLine.state hch.line).trans ?_
    have hline : u.sline home line = _ := (wbAsk home line).taken_sline_self _ _
    rw [hline]
    unfold SliceLine.dirtied
    obtain hp | hp := hv.present
    · simp [wbAsk, hp]
    · simp [wbAsk, hp]
  · refine (congrArg (Memory.byte · a) hmem).trans ((Memory.byte_putLine hwf ..).trans ?_)
    by_cases ha : a / 128 = line
    · rw [show a - 128 * line = a % 128 by omega]
    · simp [ha]

theorem exec_writeBack_poisoned {x : Trip} (h : s.comes (.writeBackArrival core home line data bm ids)
      (returnBy s core home line) [⟨home, line, 1⟩] x) (hi : (s.sline home line).state ≠ .inv)
    (hb : (s.sline home line).state ≠ .busy) (hu : (s.sline home line).uo = 0)
    (hw : (s.sline home line).waiters = []
      ∨ (s.sline home line).waiters.head? = some (.writeBackArrival core home line data bm ids))
    (hp : poisoned s line = true) (hpart : bm ≠ BitVec.allOnes 128) :
    ∃ t, exec (.writeBackArrival core home line data bm ids) s = .next t
      ∧ t.replies (.writeBackArrival core home line data bm ids) x (fun y => y.bad = true)
      ∧ (∀ a, t.mem.byte a = s.mem.byte a) ∧ t.tags = s.tags := by
  obtain ⟨n, hn⟩ := exec_writeBack h
  have hpois : poisoned ((wbAsk home line).taken (.writeBackArrival core home line data bm ids) (s.there x n)) line = true := by
    unfold poisoned
    rw [Ask.taken_poison]
    exact hp
  obtain ⟨es, he⟩ := atSlice_done (a := wbAsk home line) (refuse := fun _ => none) (s := s.there x n) (k := wbTurn home line data bm x)
    (Ask.turn_of hb hw) rfl (Ask.calm_of hu) (.inr hi) (wbTurn_poisoned hpois hpart)
  refine ⟨_, hn _ he, (returned_replies (f := fun y => { y with bad := true }) h.mem (Ask.taken_trips ..) (fun _ => rfl)
      fun _ _ => rfl).before rfl (State.mem_again es),
    fun a => ?_, ?_⟩
  · exact congrArg (Memory.byte · a) (Ask.taken_mem ..)
  · exact Ask.taken_tags ..

theorem exec_writeBack_busy {x : Trip} (h : s.comes (.writeBackArrival core home line data bm ids)
      (returnBy s core home line) [⟨home, line, 1⟩] x) (hb : (s.sline home line).state = .busy)
    (hw : .writeBackArrival core home line data bm ids ∉ (s.sline home line).waiters) :
    ∃ t, exec (.writeBackArrival core home line data bm ids) s = .next t
      ∧ s.queued (.writeBackArrival core home line data bm ids) home line t := by
  obtain ⟨n, hn⟩ := exec_writeBack h
  refine ⟨_, hn _ (atSlice_waits (Ask.turn_busy hb)), ⟨?_, fun _ => rfl, rfl, rfl⟩⟩
  refine (State.sline_modSline_self home line _).trans ?_
  simp [hw]

end

/-! ## Numbers in memory -/

section
variable {m : Memory}

theorem Memory.nat_congr {m' : Memory} {a n : Nat} (h : ∀ x, a ≤ x → x < a + n → m'.byte x = m.byte x) : m'.nat a n = m.nat a n := by
  have hread : m'.read a n = m.read a n := by
    unfold Memory.read
    refine List.map_congr_left fun k hk => h _ (Nat.le_add_right ..) ?_
    have := List.mem_range.mp hk
    omega
  rw [Memory.nat, hread, Memory.nat]

theorem leBytes_length (n v : Nat) : (leBytes n v).length = n := by simp [leBytes]

theorem leBytes_succ (n v : Nat) : leBytes (n + 1) v = BitVec.ofNat 8 v :: leBytes n (v / 256) := by
  unfold leBytes
  rw [List.range_succ_eq_map, List.map_cons, List.map_map, Nat.pow_zero, Nat.div_one]
  refine congrArg _ (List.map_congr_left fun k _ => ?_)
  rw [Function.comp_apply, Nat.div_div_eq_div_mul, ← Nat.pow_succ']

/-- A number read from the bytes that it was written as. -/
theorem leNat_leBytes (n v : Nat) : leNat (leBytes n v) = v % 256 ^ n := by
  induction n generalizing v with
  | zero => simp [leBytes, leNat, Nat.mod_one]
  | succ n ih =>
    rw [leBytes_succ, leNat, ih, BitVec.toNat_ofNat, show 2 ^ 8 = 256 from rfl, Nat.pow_succ,
      Nat.mul_comm (256 ^ n), Nat.mod_mul]

theorem Memory.byte_putNat_other (a n v : Nat) {x : Nat} (h : x < a ∨ a + n ≤ x) : (m.putNat a n v).byte x = m.byte x := by
  refine Memory.byte_write_other _ _ _ _ ?_
  rwa [leBytes_length]

theorem Memory.read_write {m : Memory} (h : m.wf = true) (a : Nat) (bs : List Byte) : (m.write a bs).read a bs.length = bs := by
  refine List.ext_getElem (by simp [Memory.read]) fun k hk hk' => ?_
  simp only [Memory.read, List.getElem_map, List.getElem_range]
  exact Memory.byte_write_self h a bs k hk'

theorem Memory.nat_putNat {m : Memory} (h : m.wf = true) (a n v : Nat) : (m.putNat a n v).nat a n = v % 2 ^ (8 * n) := by
  have hread := Memory.read_write h a (leBytes n v)
  rw [leBytes_length] at hread
  rw [Memory.nat, Memory.putNat, hread, leNat_leBytes, show (256 : Nat) = 2 ^ 8 from rfl, ← Nat.pow_mul]

/-! ## Combining a partial result (R188) -/

variable {fn ty size line : Nat} {d : LineData} {bm : ByteMask}

theorem wf_combineLine (hm : m.wf = true) (n : Nat) : (combineLine fn ty size line d bm n m).wf = true := by
  induction n with
  | zero => exact hm
  | succ n ih =>
    unfold combineLine
    dsimp only
    split
    · exact Memory.wf_putNat ih ..
    · exact ih

/-- Bytes before and after the elements that are combined stay. -/
theorem byte_combineLine_other (n : Nat) {x : Nat} (h : x < 128 * line ∨ 128 * line + size * n ≤ x) :
    (combineLine fn ty size line d bm n m).byte x = m.byte x := by
  induction n with
  | zero => rfl
  | succ n ih =>
    rw [Nat.mul_succ] at h
    have hprev := ih (by omega)
    unfold combineLine
    dsimp only
    split
    · rw [Memory.byte_putNat_other _ _ _ (by omega), hprev]
    · exact hprev

/-- The element's value after it has been combined with memory. -/
def combinedElem (fn ty size line : Nat) (d : LineData) (bm : ByteMask) (m : Memory) (k : Nat) : Nat :=
  if bm.getLsbD (size * k) then
    atomNew false fn ty (m.nat (128 * line + size * k) size) (d.toNat / 2 ^ (8 * (size * k)) % 2 ^ (8 * size)) 0 % 2 ^ (8 * size)
  else m.nat (128 * line + size * k) size

theorem nat_combineLine (hm : m.wf = true) (n : Nat) {k : Nat} (hk : k < n) :
    (combineLine fn ty size line d bm n m).nat (128 * line + size * k) size = combinedElem fn ty size line d bm m k := by
  induction n with
  | zero => exact absurd hk (Nat.not_lt_zero k)
  | succ n ih =>
    by_cases hlast : k = n
    · subst hlast
      have hold : (combineLine fn ty size line d bm k m).nat (128 * line + size * k) size = m.nat (128 * line + size * k) size :=
        Memory.nat_congr fun x hx _ => byte_combineLine_other k (.inr hx)
      unfold combineLine combinedElem
      dsimp only
      split
      · rw [Memory.nat_putNat (wf_combineLine hm k), hold]
      · exact hold
    · have hlt : k < n := by omega
      have hle : size * k + size ≤ size * n := by
        rw [← Nat.mul_succ]
        exact Nat.mul_le_mul_left size hlt
      rw [← ih hlt]
      conv => lhs; unfold combineLine
      dsimp only
      split
      · exact Memory.nat_congr fun x _ hx => Memory.byte_putNat_other _ _ _ (.inl (by omega))
      · rfl

end

/-! ## Partial results at their slice -/

/-- A core no longer holds its update-only copy. -/
def SliceLine.returnedBy (core : Nat) (l : SliceLine) : SliceLine := { l with uo := l.uo &&& ~~~ BitVec.ofNat 16 (2 ^ (core % 16)) }

/-- What a copy's return to its slice leaves as it was. -/
structure State.CopyBack (s : State) (core home line : Nat) (t : State) : Prop where
  mem : t.mem = s.mem
  tags : t.tags = s.tags
  trips : t.trips = s.trips
  uo : (t.sline home line).uo = ((s.sline home line).returnedBy core).uo

section
variable {s : State} {core home line : Nat}

theorem State.CopyBack.ahead {t : State} (h : s.CopyBack core home line t) (es : List Instr) : s.CopyBack core home line (t.ahead es) :=
  ⟨h.mem, h.tags, h.trips, h.uo⟩

theorem copyReturned_copyBack (core home line : Nat) (s : State) : s.CopyBack core home line (copyReturned core home line s) := by
  have hback : s.CopyBack core home line (s.modSline home line (SliceLine.returnedBy core)) :=
    ⟨rfl, rfl, rfl, congrArg SliceLine.uo (State.sline_modSline_self ..)⟩
  have hmod (f : SliceLine → SliceLine) (hf : ∀ l, (f l).uo = l.uo) :
      s.CopyBack core home line ((s.modSline home line (SliceLine.returnedBy core)).modSline home line f) := by
    refine ⟨rfl, rfl, rfl, ?_⟩
    rw [State.sline_modSline_self, hf]
    exact hback.uo
  unfold copyReturned
  dsimp only
  split
  · split
    · exact ⟨rfl, rfl, rfl, hback.uo⟩
    · split
      · obtain ⟨es, he⟩ := wakeRoom_ahead home (dropLine home line
          ((s.modSline home line (SliceLine.returnedBy core)).sline home line).dirty (s.modSline home line (SliceLine.returnedBy core)))
        refine (he ▸ State.CopyBack.ahead ?_ es : s.CopyBack core home line (wakeRoom home _))
        unfold dropLine
        split
        · obtain ⟨hm, ht, hr, hu⟩ := hmod (fun l => { l with state := .busy, dirty := true, leaving := true }) fun _ => rfl
          exact ⟨hm, ht, hr, hu⟩
        · exact hmod _ fun _ => rfl
      · obtain ⟨es, he⟩ := afterTurn_ahead home line ((s.modSline home line (SliceLine.returnedBy core)).modSline home line
          (fun l => { l with state := if l.dirty then .dty else .cln, dirty := false }))
        exact he ▸ (hmod (fun l => { l with state := if l.dirty then .dty else .cln, dirty := false }) fun _ => rfl).ahead es
  · exact hback

theorem State.CopyBack.bit {t : State} (h : s.CopyBack core home line t) : (t.sline home line).uo.getLsbD (core % 16) = false := by
  have hlt : core % 16 < 16 := Nat.mod_lt _ (by omega)
  rw [h.uo]
  simp only [SliceLine.returnedBy, BitVec.getLsbD_and, BitVec.getLsbD_not, BitVec.getLsbD_ofNat, hlt, decide_true, Bool.true_and,
    Nat.testBit_two_pow_self, Bool.not_true, Bool.and_false]

end

section
variable {s : State} {core home line fn ty : Nat} {data : LineData} {bm : ByteMask} {ids : List Nat}

/-- A partial result whose request comes is performed at once. -/
theorem exec_partialResult {x : Trip} (h : s.comes (.partialResultCombine core home line data bm fn ty ids) (returnBy s core home line)
    [⟨home, line, 1⟩] x) :
    ∃ n, ∀ t, combineLook core home line data bm fn ty x (s.there x n) = .next t →
      exec (.partialResultCombine core home line data bm fn ty ids) s
        = .next (t.push [.partialResultCombine core home line data bm fn ty ids]) := by
  obtain ⟨n, hn⟩ := journey_comes h
  refine ⟨n, fun t ht => ?_⟩
  show returnTrip _ core home line ids (combineLook core home line data bm fn ty) s = _
  exact hn _ _ t ht

theorem combineLook_combines {x : Trip} {u v : State} (hb : bm ≠ 0) (hs : poisoned u line = false)
    (hv : combine home line data bm fn ty u = v) :
    combineLook core home line data bm fn ty x u = .next (returned x (fun y => { y with bad := false }) (copyReturned core home line v)) := by
  unfold combineLook
  simp only [hs, hv, hb, Bool.and_false, Bool.or_false, decide_false, Bool.false_eq_true, if_false]

theorem combineLook_keeps {x : Trip} {u : State} (h : bm = 0 ∨ poisoned u line = true) :
    combineLook core home line data bm fn ty x u
      = .next (returned x (fun y => { y with bad := decide (bm ≠ 0) }) (copyReturned core home line u)) := by
  unfold combineLook
  by_cases hb : bm = 0
  · simp [hb]
  · simp only [h.resolve_left hb, Bool.and_true, ne_eq, hb, not_false_eq_true, decide_true, Bool.or_true, if_true]

theorem tySize_mul_le (ty : Nat) : tySize ty * (128 / tySize ty) ≤ 128 := Nat.mul_div_le 128 (tySize ty)

theorem exec_partialResult_combines (hwf : s.mem.wf = true) {x : Trip} (h : s.comes (.partialResultCombine core home line data bm fn ty ids)
      (returnBy s core home line) [⟨home, line, 1⟩] x) (hs : poisoned s line = false) (hm : mixedHome s home line = false)
    (hb : bm ≠ 0) :
    ∃ t, exec (.partialResultCombine core home line data bm fn ty ids) s = .next t
      ∧ (t.tags.get 0 line = s.tags.get 0 line + 1 ∧ ∀ j, j ≠ line → t.tags.get 0 j = s.tags.get 0 j)
      ∧ t.replies (.partialResultCombine core home line data bm fn ty ids) x (fun y => y.bad = false)
      ∧ (t.sline home line).uo.getLsbD (core % 16) = false
      ∧ (∀ a, a / 128 ≠ line → t.mem.byte a = s.mem.byte a)
      ∧ ∀ k, k < 128 / tySize ty → t.mem.nat (128 * line + tySize ty * k) (tySize ty)
          = combinedElem fn ty (tySize ty) line data bm s.mem k := by
  obtain ⟨n, hn⟩ := exec_partialResult h
  have hch := lineChanged_changed home line
    (combineLine fn ty (tySize ty) line data bm (128 / tySize ty) s.mem) (s.there x n)
  obtain ⟨v, hvd⟩ : ∃ v, combine home line data bm fn ty (s.there x n) = v := ⟨_, rfl⟩
  have hv : lineChanged home line { s.there x n with mem := combineLine fn ty (tySize ty) line data bm (128 / tySize ty) s.mem } = v := by
    rw [← hvd]
    unfold combine
    rw [if_neg (by rw [show mixedHome (s.there x n) home line = mixedHome s home line from rfl, hm]; exact Bool.false_ne_true)]
    rfl
  rw [hv] at hch
  have hback := copyReturned_copyBack core home line v
  have hle := tySize_mul_le ty
  have hmem := hback.mem.trans hch.mem
  refine ⟨_, hn _ (combineLook_combines hb hs hvd), ?_, returned_replies (f := fun y => { y with bad := false }) h.mem
    (hback.trips.trans hch.trips) (fun _ => rfl) fun _ _ => rfl, hback.bit, fun a ha => ?_, fun k hk => ?_⟩
  · have htag := hch.tag
    rwa [← hback.tags] at htag
  · refine (congrArg (Memory.byte · a) hmem).trans (byte_combineLine_other _ ?_)
    omega
  · exact (congrArg (Memory.nat · _ _) hmem).trans (nat_combineLine hwf _ hk)

theorem exec_partialResult_keeps {x : Trip} (h : s.comes (.partialResultCombine core home line data bm fn ty ids)
      (returnBy s core home line) [⟨home, line, 1⟩] x) (hb : bm = 0 ∨ poisoned s line = true) :
    ∃ t, exec (.partialResultCombine core home line data bm fn ty ids) s = .next t
      ∧ (∀ a, t.mem.byte a = s.mem.byte a) ∧ t.tags = s.tags
      ∧ t.replies (.partialResultCombine core home line data bm fn ty ids) x (fun y => y.bad = decide (bm ≠ 0))
      ∧ (t.sline home line).uo.getLsbD (core % 16) = false := by
  obtain ⟨n, hn⟩ := exec_partialResult h
  have hback := copyReturned_copyBack core home line (s.there x n)
  exact ⟨_, hn _ (combineLook_keeps hb), fun a => congrArg (Memory.byte · a) hback.mem, hback.tags,
    returned_replies (f := fun y => { y with bad := decide (bm ≠ 0) }) h.mem hback.trips (fun _ => rfl) fun _ _ => rfl, hback.bit⟩

/-! ## Gathering at the slice (R187) -/

theorem exec_updateOnlyObtain_served {r : Req} {o : Op} {p : Part} (h : s.reqPart r = some (o, p)) (hs : p.sent = true)
    (hv : s.served p.home p.line false (.updateOnlyObtain r)) (hpass : p.passes o s) :
    ∃ t, exec (.updateOnlyObtain r) s = .next t ∧ (t.sline p.home p.line).uo.getLsbD (o.core % 16) = true
      ∧ t.answered r.op r.part (fun q => q.passed = true) ∧ t.tags = s.tags ∧ ∀ a, t.mem.byte a = s.mem.byte a := by
  obtain ⟨es, he⟩ := exec_lane_performs h hs mem_laneEvents.2.2.2.2 hv.idle.1 hv.turn (fun _ => hpass) rfl (.inr hv.idle.2)
    (show laneTurn r o p (.updateOnlyObtain r) _ = _ from rfl)
  refine ⟨_, he, ?_, (answerPart_answered (q := fun q => q.passed = true)
    (reqPart_congr rfl (laneAsk_taken_reqPart _ h true)) rfl).ahead es, turn_tags .., fun a => congrArg (Memory.byte · a) (turn_mem ..)⟩
  have hlt : o.core % 16 < 16 := Nat.mod_lt _ (by omega)
  refine (congrArg (fun l => l.uo.getLsbD (o.core % 16)) (State.sline_modSline_self p.home p.line (SliceLine.gatheredBy o.core))).trans ?_
  simp only [SliceLine.gatheredBy, BitVec.getLsbD_or, BitVec.getLsbD_ofNat, hlt, decide_true, Bool.true_and, Nat.testBit_two_pow_self,
    Bool.or_true]

/-! ## Fills and write-backs of a slice -/

theorem nextWaiter_head {e : Instr} (h : (s.sline home line).waiters.head? = some e) : e ∈ (nextWaiter home line s).agenda := by
  unfold nextWaiter
  split
  · next hn => simp [hn] at h
  · next i _ hi =>
    obtain rfl : i = e := by simpa [hi] using h
    split
    · next hc => simpa using hc
    · exact List.mem_cons_self ..

theorem afterTurn_head {e : Instr} (h : (s.sline home line).waiters.head? = some e) : e ∈ (afterTurn home line s).agenda := by
  obtain ⟨es, he⟩ := wakeRoom_ahead home (nextWaiter home line s)
  rw [afterTurn, he]
  exact State.mem_ahead (nextWaiter_head h) es

theorem Tab.mem_of_find? {α : Type} {t : Tab α} {k : Nat} {v : α} (h : t.find? k = some v) : (k, v) ∈ t := by
  induction t with
  | nil => cases h
  | cons e t ih =>
    rw [Tab.find?_cons] at h
    split at h
    · next hk =>
      obtain rfl := Option.some.inj h
      exact hk ▸ List.mem_cons_self ..
    · exact List.mem_cons_of_mem _ (ih h)

/-- Who waits for a place in a slice that has one is in the agenda. -/
theorem wakeRoom_head {e : Instr} (hroom : (s.slice home).taken < 2048) {l : SliceLine} (hl : (s.slice home).lines.find? line = some l)
    (hi : l.state = .inv) (h : l.waiters.head? = some e) : e ∈ (wakeRoom home s).agenda := by
  unfold wakeRoom
  rw [if_neg (by simp [Slice.mayPlace, hroom])]
  refine List.mem_append.mpr ?_
  by_cases hc : s.agenda.contains e = true
  · exact .inr (by simpa using hc)
  · refine .inl (List.mem_filter.mpr ⟨List.mem_filterMap.mpr ⟨_, Tab.mem_of_find? hl, ?_⟩, by simpa using hc⟩)
    rw [if_pos hi, h]

theorem exec_sliceFillComplete_busy (hb : (s.sline home line).state = .busy) :
    ∃ t, exec (.sliceFillComplete home line) s = .next t
      ∧ t.sline home line = { s.sline home line with state := .cln, dirty := false }
      ∧ (∀ e, (s.sline home line).waiters.head? = some e → e ∈ t.agenda) ∧ (∀ e ∈ s.agenda, e ∈ t.agenda)
      ∧ ∀ a, t.mem.byte a = s.mem.byte a := by
  obtain ⟨u, hu, hm, ha, hs⟩ : ∃ u : State, exec (.sliceFillComplete home line) s
      = .next (afterTurn home line (u.modSline home line (fun l => { l with state := .cln, dirty := false })))
      ∧ u.mem = s.mem ∧ u.agenda = s.agenda ∧ u.sline home line = s.sline home line := by
    show ∃ u : State, execSliceFillComplete home line s = _ ∧ _
    unfold execSliceFillComplete
    rw [if_pos hb]
    exact ⟨_, rfl, rfl, rfl, rfl⟩
  have hline := State.sline_modSline_self (s := u) home line (fun l => { l with state := .cln, dirty := false })
  rw [hs] at hline
  obtain ⟨es, he⟩ := afterTurn_ahead home line (u.modSline home line (fun l => { l with state := .cln, dirty := false }))
  refine ⟨_, hu, ?_, fun e hw => afterTurn_head ?_, fun e hin => ?_, fun a => ?_⟩
  · rw [he]
    exact hline
  · rw [hline]
    exact hw
  · rw [he]
    exact State.mem_ahead (ha ▸ hin) es
  · rw [he]
    exact congrArg (Memory.byte · a) hm

theorem exec_sliceWriteBackComplete_busy (hb : (s.sline home line).state = .busy) :
    ∃ t, exec (.sliceWriteBackComplete home line) s = .next t
      ∧ t.sline home line = { s.sline home line with state := .inv, dirty := false, leaving := false, first := false }
      ∧ ((t.slice home).taken < 2048 → ∀ e, (s.sline home line).waiters.head? = some e → e ∈ t.agenda)
      ∧ (∀ e ∈ s.agenda, e ∈ t.agenda) ∧ ∀ a, t.mem.byte a = s.mem.byte a := by
  have hex : exec (.sliceWriteBackComplete home line) s = .next (wakeRoom home (dropLine home line false s)) := by
    show execSliceWriteBackComplete home line s = _
    unfold execSliceWriteBackComplete
    rw [if_pos hb]
  have hdrop : dropLine home line false s
      = s.modSline home line (fun l => { l with state := .inv, dirty := false, leaving := false, first := false }) := rfl
  have hfind : ((dropLine home line false s).slice home).lines.find? line
      = some { s.sline home line with state := .inv, dirty := false, leaving := false, first := false } := by
    rw [hdrop, State.slice_modSline, if_pos rfl]
    exact Tab.find?_set_self ..
  obtain ⟨es, he⟩ := wakeRoom_ahead home (dropLine home line false s)
  refine ⟨_, hex, ?_, fun hroom e hw => ?_, fun e hin => ?_, fun a => ?_⟩
  · rw [he, State.ahead_sline, hdrop, State.sline_modSline_self]
  · rw [he] at hroom
    exact wakeRoom_head hroom hfind rfl hw
  · rw [he]
    exact State.mem_ahead hin es
  · rw [he]
    rfl

end

/-! ## Lines of an L1 -/

section
variable {c : Core} {line : Nat}

theorem Core.l1Find_eq_none : c.l1Find line = none ↔ ∀ x ∈ c.l1, x.line ≠ line := by
  simp [Core.l1Find]

theorem Core.l1Find_line {x : L1Line} (h : c.l1Find line = some x) : x.line = line := by
  simpa using List.find?_some h

@[simp] theorem Core.l1Find_l1Drop : (c.l1Drop line).l1Find line = none := by
  simp [Core.l1Find_eq_none, Core.l1Drop]

theorem Core.l1Find_l1Drop_none {k : Nat} (h : c.l1Find line = none) : (c.l1Drop k).l1Find line = none := by
  rw [Core.l1Find_eq_none] at h ⊢
  exact fun x hx => h x (List.mem_of_mem_filter hx)

theorem Core.l1Find_l1Replace_none {l : L1Line} (h : c.l1Find line = none) : (c.l1Replace l).l1Find line = none := by
  rw [Core.l1Find_eq_none] at h ⊢
  intro x hx
  obtain ⟨y, hy, rfl⟩ := List.mem_map.mp hx
  split
  · next he => exact he ▸ h y hy
  · exact h y hy

/-- A replaced line is the one that is found. -/
theorem Core.l1Find_l1Replace {l x : L1Line} (h : c.l1Find line = some x) (hl : l.line = line) : (c.l1Replace l).l1Find line = some l := by
  unfold Core.l1Find at h
  unfold Core.l1Find Core.l1Replace
  dsimp only
  generalize c.l1 = ls at h
  induction ls with
  | nil => cases h
  | cons y ys ih =>
    rw [List.map_cons]
    by_cases hy : y.line = line
    · rw [if_pos (hy.trans hl.symm), List.find?_cons_of_pos (by simpa using hl)]
    · rw [List.find?_cons_of_neg (by simpa using hy)] at h
      rw [if_neg (fun he => hy (he.trans hl)), List.find?_cons_of_neg (by simpa using hy)]
      exact ih h

/-- A line put last is found where no other of its number stands. -/
theorem L1.find_append_last {xs : List L1Line} {l : L1Line} (h : ∀ x ∈ xs, x.line ≠ line) (hl : l.line = line) :
    (xs ++ [l]).find? (fun x => x.line = line) = some l := by
  rw [List.find?_append, List.find?_eq_none.mpr fun x hx => by simpa using h x hx]
  simp [hl]

theorem Core.l1Find_l1Touch {x : L1Line} (ch : Nat) (h : c.l1Find line = some x) :
    (c.l1Touch line ch).l1Find line = some { x with hint := c.newHint line ch x.hint } := by
  unfold Core.l1Touch
  rw [h]
  exact L1.find_append_last (fun y hy => by simpa using List.of_mem_filter hy) (show x.line = line from Core.l1Find_line h)

end

/-! ## Returns of a core's lines -/

/-- Copies of one core have been returned: lines that it did not hold it holds no more than before, and its operations and
memory are as they were. -/
structure State.Returns (s : State) (core : Nat) (t : State) : Prop where
  mem : t.mem = s.mem
  ops : t.ops = s.ops
  absent : ∀ line, (s.core core).l1Find line = none → (t.core core).l1Find line = none

section
variable {s t u : State} {core : Nat}

theorem State.Returns.refl (s : State) (core : Nat) : s.Returns core s := ⟨rfl, rfl, fun _ h => h⟩

theorem State.Returns.trans (h : s.Returns core t) (k : t.Returns core u) : s.Returns core u :=
  ⟨k.mem.trans h.mem, k.ops.trans h.ops, fun line hl => k.absent line (h.absent line hl)⟩

theorem modCore_returns (s : State) {core : Nat} {f : Core → Core} (hf : ∀ c line, c.l1Find line = none → (f c).l1Find line = none) :
    s.Returns core (s.modCore core f) := by
  refine ⟨rfl, rfl, fun line h => ?_⟩
  rw [State.core_modCore, if_pos rfl]
  exact hf _ line h

theorem sendBack_returns (core line : Nat) (s : State) : s.Returns core (sendBack core line s) := by
  unfold sendBack
  split
  · exact .refl s core
  · next l _ =>
    split
    · obtain ⟨hm, ho, ha⟩ := modCore_returns s (core := core)
        (f := fun c => c.l1Replace { l with state := .cln, bmask := 0, kmask := 0, ops := [] }) fun _ _ => Core.l1Find_l1Replace_none
      exact ⟨hm, ho, ha⟩
    · obtain ⟨hm, ho, ha⟩ := modCore_returns s (core := core) (f := fun c => c.l1Drop line) fun _ _ => Core.l1Find_l1Drop_none
      exact ⟨hm, ho, ha⟩
    · exact .refl s core

theorem returnLine_returns (core line : Nat) (s : State) : s.Returns core (returnLine core line s) :=
  (sendBack_returns core line s).trans (modCore_returns _ fun _ _ => Core.l1Find_l1Drop_none)

theorem returnLine_absent (core line : Nat) (s : State) : ((returnLine core line s).core core).l1Find line = none := by
  unfold returnLine
  rw [State.core_modCore, if_pos rfl, Core.l1Find_l1Drop]

/-- The steps by which a core makes place for a line: its own copy of it goes back, a line of its set, and the oldest
update-only line where there are 256. -/
def l1Clear (core line : Nat) (s : State) : State :=
  if ((s.core core).l1Find line).isSome then returnLine core line s else s

def l1Evict (core line : Nat) (s : State) : State :=
  match (s.core core).l1Victim line with
  | some v => returnLine core v.line s
  | none => s

def l1Spare (core : Nat) (l : L1Line) (s : State) : State :=
  let uo := (s.core core).l1.filter (fun x => x.state = .uo)
  if l.state = .uo && 256 ≤ uo.length then
    (match uo.head? with | some v => sendBack core v.line s | none => s) else s

theorem l1Alloc_eq (core : Nat) (l : L1Line) (ch : Nat) (s : State) :
    l1Alloc core l ch s = (l1Spare core l (l1Evict core l.line (l1Clear core l.line s))).modCore core
      (fun c => { c with l1 := c.l1 ++ [{ l with hint := c.newHint l.line ch 0 }] }) := rfl

theorem l1Clear_returns (core line : Nat) (s : State) :
    s.Returns core (l1Clear core line s) ∧ ((l1Clear core line s).core core).l1Find line = none := by
  unfold l1Clear
  split
  · exact ⟨returnLine_returns .., returnLine_absent ..⟩
  · next h => exact ⟨.refl s core, by simpa using h⟩

theorem l1Evict_returns (core line : Nat) (s : State) : s.Returns core (l1Evict core line s) := by
  unfold l1Evict
  split
  · exact returnLine_returns ..
  · exact .refl s core

theorem l1Spare_returns (core : Nat) (l : L1Line) (s : State) : s.Returns core (l1Spare core l s) := by
  unfold l1Spare
  dsimp only
  split
  · split
    · exact sendBack_returns ..
    · exact .refl s core
  · exact .refl s core

/-- A new line stands in the L1, and only returns have made place for it (R82). -/
theorem l1Alloc_found (core : Nat) (l : L1Line) (ch : Nat) (s : State) :
    ∃ h, ((l1Alloc core l ch s).core core).l1Find l.line = some { l with hint := h }
      ∧ (l1Alloc core l ch s).mem = s.mem ∧ (l1Alloc core l ch s).ops = s.ops := by
  obtain ⟨hclear, hnone⟩ := l1Clear_returns core l.line s
  have hroom := (l1Evict_returns core l.line (l1Clear core l.line s)).trans
    (l1Spare_returns core l (l1Evict core l.line (l1Clear core l.line s)))
  have hall := hclear.trans hroom
  rw [l1Alloc_eq]
  refine ⟨((l1Spare core l (l1Evict core l.line (l1Clear core l.line s))).core core).newHint l.line ch 0, ?_, hall.mem, hall.ops⟩
  rw [State.core_modCore, if_pos rfl]
  exact L1.find_append_last (Core.l1Find_eq_none.mp (hroom.absent l.line hnone)) rfl

/-! ## Recalls (R85) -/

theorem exec_recallDelivery_held {line home : Nat} {x : L1Line} (hx : (s.core core).l1Find line = some x) (hu : x.state = .uo)
    (hh : x.home = home) (hr : recallers s core line = [home]) :
    ∃ t, exec (.recallDelivery core line) s = .next t ∧ (t.core core).l1Find line = none
      ∧ .partialResultCombine core home line x.data x.bmask x.fn x.ty x.ops ∈ t.agenda ∧ ∀ a, t.mem.byte a = s.mem.byte a := by
  have hback : sendBack core line s = (s.modCore core (fun c => c.l1Drop line)).push
      [.partialResultCombine core home line x.data x.bmask x.fn x.ty x.ops] := by
    unfold sendBack
    simp only [hx, hu, hh]
  have hex : ∃ es, exec (.recallDelivery core line) s = .next ((sendBack core line s).push es) := by
    show ∃ es, execRecallDelivery core line s = _
    unfold execRecallDelivery
    simp only [hr, hx, Option.any_some, hu, hh, List.contains_cons, beq_self_eq_true, Bool.true_or, decide_true, Bool.and_self, if_true]
    exact ⟨_, rfl⟩
  obtain ⟨es, he⟩ := hex
  refine ⟨_, he, ?_, ?_, fun a => ?_⟩
  · rw [hback]
    refine (congrArg (fun c => c.l1Find line) (State.core_modCore (s := s) core core (fun c => c.l1Drop line))).trans ?_
    rw [if_pos rfl, Core.l1Find_l1Drop]
  · rw [hback]
    simp
  · rw [hback]
    rfl

theorem combining_of_returning {line home : Nat} (h : returning s core line = false) : combining s core line home = false := by
  unfold returning at h
  rw [Bool.or_eq_false_iff, List.any_eq_false] at h
  unfold combining
  rw [List.any_eq_false]
  intro e he hc
  refine h.1 e he ?_
  split at hc
  · simp only [Bool.and_eq_true, decide_eq_true_eq] at hc
    obtain ⟨⟨⟨rfl, _⟩, rfl⟩, hp⟩ := hc
    simpa [isReturn] using hp
  · exact absurd hc Bool.false_ne_true

theorem exec_recallDelivery_empty {line home : Nat} (hn : (s.core core).l1Find line = none) (hret : returning s core line = false)
    (hr : recallers s core line = [home]) :
    ∃ t, exec (.recallDelivery core line) s = .next t
      ∧ t.agenda = s.agenda ++ [.partialResultCombine core home line 0 0 0 0 []] ∧ ∀ a, t.mem.byte a = s.mem.byte a := by
  refine ⟨s.push [.partialResultCombine core home line 0 0 0 0 []], ?_, rfl, fun _ => rfl⟩
  show execRecallDelivery core line s = _
  unfold execRecallDelivery
  simp [hr, hn, combining_of_returning hret]

end

/-! ## Replies at their core -/

/-- What follows a part's answer: with its last one the whole operation is answered. -/
def replyAfter (r : Req) (s : State) : State :=
  match s.ops.find? r.op with
  | some o => if o.pendingParts || o.fault.isSome then s else opAnswered r.op o s
  | none => s

section
variable {s u : State} {r : Req} {o : Op} {p : Part}

theorem exec_replyArrival_l1 (h : s.reqPart r = some (o, p)) (hb : p.back = false) (hl : p.l1 = true) (hk : o.kind ≠ .kick) :
    exec (.replyArrival r) s = .next (replyAfter r (l1Step r o p s)) := by
  obtain ⟨ho, hp⟩ := State.reqPart_eq_some.mp h
  show execReplyArrival r s = _
  unfold execReplyArrival replyAfter
  simp only [ho, hp, hb, hl, hk, decide_false, Bool.and_false, Bool.false_eq_true, if_false, if_true]
  cases (l1Step r o p s).ops.find? r.op with
  | none => rfl
  | some o' => rfl

theorem exec_replyArrival_taken (h : s.reqPart r = some (o, p)) (hb : p.back = false) (hl : p.l1 = false) (hr : p.refusal = none) :
    exec (.replyArrival r) s = .next (replyAfter r (takeAnswer r o p (s.endTrip r))) := by
  obtain ⟨ho, hp⟩ := State.reqPart_eq_some.mp h
  show execReplyArrival r s = _
  unfold execReplyArrival replyAfter
  simp only [ho, hp, hb, hl, hr, Bool.false_and, Bool.false_eq_true, if_false]
  cases (takeAnswer r o p (s.endTrip r)).ops.find? r.op with
  | none => rfl
  | some o' => rfl

theorem pendingParts_of {k : Nat} (hp : o.parts[k]? = some p) (hb : p.back = false) : o.pendingParts = true :=
  List.any_eq_true.mpr ⟨p, List.mem_of_getElem? hp, by simp [hb]⟩

/-- Nothing follows while a part still waits. -/
theorem replyAfter_pending (h : u.reqPart r = some (o, p)) (hb : p.back = false) : replyAfter r u = u := by
  obtain ⟨ho, hp⟩ := State.reqPart_eq_some.mp h
  unfold replyAfter
  rw [ho]
  dsimp only
  rw [pendingParts_of hp hb]
  rfl

/-- A part that goes on: it is changed, and its event stands in the agenda. -/
structure PartGoes (r : Req) (s : State) (p : Part) (o : Op) (t : State) : Prop where
  part : t.reqPart r = some (o, p)
  event : partEvent o r.op r.part p ∈ t.agenda
  mem : t.mem = s.mem
  cores : t.cores = s.cores

theorem goOn_goes {f : Part → Part} (h : s.reqPart r = some (o, p)) :
    PartGoes r s (f p) { o with parts := o.parts.modify r.part f } (goOn r f s) := by
  have hpart := reqPart_modPart (f := f) h
  have hgo : goOn r f s = (s.modPart r.op r.part f).push [partEvent { o with parts := o.parts.modify r.part f } r.op r.part (f p)] := by
    unfold goOn
    dsimp only
    rw [hpart]
  rw [hgo]
  exact ⟨reqPart_congr rfl hpart, by simp, rfl, rfl⟩

/-- A part whose core may gather the line. -/
def Part.granted (p : Part) : Part := { p with sent := false, l1 := true }

/-- A part whose operation is applied at the home slice. -/
def Part.applied (p : Part) : Part := { p with l1 := false, gather := false, passed := false }

/-- A part that asks to gather its line. -/
def Part.gathering (p : Part) : Part := { p with l1 := false, gather := true }

/-- An update-only copy without a contribution so far (R187). -/
def L1Line.fresh (o : Op) (p : Part) : L1Line :=
  { state := .uo, line := p.key, home := p.home, fn := o.fn, ty := o.ty, scope := o.scope, rsv := some (o.scope, instOf o.scope o.core) }

theorem takeAnswer_gather (hk : o.kind = .red) (hg : p.gather = true) :
    takeAnswer r o p s = goOn r Part.granted (l1Alloc o.core (.fresh o p) 0 s) := by
  unfold takeAnswer
  simp only [hk, hg, if_true]
  rfl

/-- A copy that gathers for the operation. -/
def L1Line.gathers (x : L1Line) (o : Op) : Prop :=
  x.state = .uo ∧ x.fn = o.fn ∧ x.ty = o.ty ∧ x.rsv = some (o.scope, instOf o.scope o.core)

/-- The grant to gather a line: the core holds it as update-only, without a contribution so far (R187). -/
theorem exec_replyArrival_gather (h : s.reqPart r = some (o, p)) (hk : o.kind = .red) (hg : p.gather = true) (hb : p.back = false)
    (hl : p.l1 = false) (hr : p.refusal = none) :
    ∃ t x o', exec (.replyArrival r) s = .next t ∧ (t.core o.core).l1Find p.key = some x ∧ x.gathers o ∧ x.bmask = 0
      ∧ t.reqPart r = some (o', p.granted) ∧ Instr.replyArrival r ∈ t.agenda ∧ ∀ a, t.mem.byte a = s.mem.byte a := by
  obtain ⟨hint, hfind, hmem, hops⟩ := l1Alloc_found o.core (.fresh o p) 0 (s.endTrip r)
  obtain ⟨hpart, hevent, hm, hc⟩ := goOn_goes (f := Part.granted) (reqPart_congr hops (p := p) h)
  have hex := exec_replyArrival_taken h hb hl hr
  rw [takeAnswer_gather hk hg, replyAfter_pending hpart hb] at hex
  refine ⟨_, { L1Line.fresh o p with hint := hint }, _, hex, ?_, ⟨rfl, rfl, rfl, rfl⟩, rfl, hpart, ?_, fun a => ?_⟩
  · unfold State.core at hfind ⊢
    rw [hc]
    exact hfind
  · simpa [partEvent, Part.granted] using hevent
  · exact congrArg (Memory.byte · a) (hm.trans hmem)

/-! ## A RED in its core's L1 (R187) -/

/-- The access in the L1, of which it has been noted through which slice the line is accessed. -/
def l1Noted (p : Part) (s : State) : State := if p.rem.isNone then noteHome p.home p.line s else s

theorem l1Noted_homes (p : Part) (s : State) : ∃ hs, l1Noted p s = { s with homes := hs } := by
  unfold l1Noted
  split
  · exact noteHome_homes ..
  · exact ⟨_, rfl⟩

theorem l1Step_red (hs : p.isScratch = false) (hk : o.kind = .red) : l1Step r o p s = l1Red r o p (l1Noted p s) := by
  unfold l1Step l1Noted
  simp only [hs, hk, Bool.false_eq_true, if_false]

theorem l1Red_misses (h : ∀ x, (s.core o.core).l1Find p.key = some x → ¬ x.gathers o) :
    l1Red r o p s = if p.passed then
        goOn r Part.applied (returnLine o.core p.key s)
      else goOn r Part.gathering (returnLine o.core p.key s) := by
  have hfits : ((s.core o.core).l1Find p.key).any (fun l =>
      l.state = .uo && l.fn = o.fn && l.ty = o.ty && l.rsv = some (o.scope, instOf o.scope o.core)) = false := by
    cases hf : (s.core o.core).l1Find p.key with
    | none => rfl
    | some x =>
      refine Bool.eq_false_iff.mpr fun hc => h x hf ?_
      simp only [Option.any_some, Bool.and_eq_true, decide_eq_true_eq] at hc
      exact ⟨hc.1.1.1, hc.1.1.2, hc.1.2, hc.2⟩
  unfold l1Red
  simp only [hfits, Bool.false_eq_true, if_false]
  rfl

/-- A RED whose line its core does not gather goes on at the home slice, or asks to gather it (R187). -/
theorem exec_replyArrival_red_misses (h : s.reqPart r = some (o, p)) (hk : o.kind = .red) (hl : p.l1 = true) (hb : p.back = false)
    (hs : p.isScratch = false) (hc : p.check = false) (hmiss : ∀ x, (s.core o.core).l1Find p.key = some x → ¬ x.gathers o) :
    ∃ t o', exec (.replyArrival r) s = .next t ∧ (t.core o.core).l1Find p.key = none ∧ (∀ a, t.mem.byte a = s.mem.byte a)
      ∧ (p.passed = true → t.reqPart r = some (o', p.applied) ∧ Instr.sliceAtomic r ∈ t.agenda)
      ∧ (p.passed = false → t.reqPart r = some (o', p.gathering) ∧ Instr.updateOnlyObtain r ∈ t.agenda) := by
  obtain ⟨hs', hn⟩ := l1Noted_homes p s
  have hmiss' : ∀ x, ((l1Noted p s).core o.core).l1Find p.key = some x → ¬ x.gathers o := by
    rw [hn]
    exact hmiss
  obtain ⟨hrm, hro, _⟩ := returnLine_returns o.core p.key (l1Noted p s)
  have habs := returnLine_absent o.core p.key (l1Noted p s)
  have hreq : (returnLine o.core p.key (l1Noted p s)).reqPart r = some (o, p) := reqPart_congr (hro.trans (by rw [hn])) h
  have hline : p.line ≠ partnerLine := fun he => by simp [Part.isScratch, he] at hs
  have hex := exec_replyArrival_l1 h hb hl (by simp [hk])
  rw [l1Step_red hs hk, l1Red_misses hmiss'] at hex
  have hmem : (l1Noted p s).mem = s.mem := by rw [hn]
  cases hp : p.passed with
  | true =>
    obtain ⟨hpart, hevent, hm, hcs⟩ := goOn_goes (f := Part.applied) hreq
    rw [hp, if_pos rfl, replyAfter_pending hpart hb] at hex
    refine ⟨_, _, hex, ?_, fun a => congrArg (Memory.byte · a) (hm.trans (hrm.trans hmem)), fun _ => ⟨hpart, ?_⟩,
      fun hf => absurd hf.symm Bool.false_ne_true⟩
    · unfold State.core at habs ⊢
      rw [hcs]
      exact habs
    · simpa [partEvent, Part.applied, hline, hc, hk] using hevent
  | false =>
    obtain ⟨hpart, hevent, hm, hcs⟩ := goOn_goes (f := Part.gathering) hreq
    rw [hp, if_neg Bool.false_ne_true, replyAfter_pending hpart hb] at hex
    refine ⟨_, _, hex, ?_, fun a => congrArg (Memory.byte · a) (hm.trans (hrm.trans hmem)), 
      fun hf => absurd hf Bool.false_ne_true, fun _ => ⟨hpart, ?_⟩⟩
    · unfold State.core at habs ⊢
      rw [hcs]
      exact habs
    · simpa [partEvent, Part.gathering, hline] using hevent

/-! ## A RED merged into its core's copy -/

/-- A copy into which an operation's lanes have been merged. -/
def L1Line.merged (id : Nat) (o : Op) (line : Nat) (x : L1Line) : L1Line :=
  let l := (lanesOn o line).foldl (fun l a => mergeLane l o.size a) x
  { l with
    ops := l.ops ++ [id]
    kmask := if o.pk = 0 then l.kmask else l.kmask ||| BitVec.ofNat 15 (2 ^ (o.pk - 1)) }

theorem mergeLanes_keep (size : Nat) (ls : List Acc) (x : L1Line) :
    (ls.foldl (fun l a => mergeLane l size a) x).line = x.line ∧ (ls.foldl (fun l a => mergeLane l size a) x).ops = x.ops := by
  induction ls generalizing x with
  | nil => exact ⟨rfl, rfl⟩
  | cons a ls ih => exact ih (mergeLane x size a)

theorem l1Red_fits {x : L1Line} (hx : (s.core o.core).l1Find p.key = some x) (hf : x.gathers o) :
    l1Red r o p s = (s.modCore o.core (fun c => (c.l1Replace (x.merged r.op o p.key)).l1Touch p.key 0)).modPart r.op r.part written := by
  obtain ⟨hs, hfn, hty, hrsv⟩ := hf
  unfold l1Red mergeRed
  simp only [hx, Option.any_some, hs, hfn, hty, hrsv, decide_true, Bool.and_self, if_true]
  rfl

theorem l1Red_merged {x : L1Line} (hx : (s.core o.core).l1Find p.key = some x) (hf : x.gathers o) :
    ∃ y, ((l1Red r o p s).core o.core).l1Find p.key = some y
      ∧ y.data = ((lanesOn o p.key).foldl (fun l a => mergeLane l o.size a) x).data
      ∧ y.bmask = ((lanesOn o p.key).foldl (fun l a => mergeLane l o.size a) x).bmask ∧ y.ops = x.ops ++ [r.op] := by
  obtain ⟨hline, hops⟩ := mergeLanes_keep o.size (lanesOn o p.key) x
  have hrep := Core.l1Find_l1Replace (l := x.merged r.op o p.key) hx (hline.trans (Core.l1Find_line hx))
  refine ⟨{ x.merged r.op o p.key with
    hint := ((s.core o.core).l1Replace (x.merged r.op o p.key)).newHint p.key 0 (x.merged r.op o p.key).hint },
    ?_, rfl, rfl, congrArg (· ++ [r.op]) hops⟩
  rw [l1Red_fits hx hf]
  refine (congrArg (fun c => c.l1Find p.key) (State.core_modCore (s := s) o.core o.core
    (fun c => (c.l1Replace (x.merged r.op o p.key)).l1Touch p.key 0))).trans ?_
  rw [if_pos rfl]
  exact Core.l1Find_l1Touch 0 hrep

/-- The state after replies of which no fence waits: cores, memory and the parts of operations stay. -/
structure State.Settles (s t : State) : Prop where
  mem : t.mem = s.mem
  cores : t.cores = s.cores
  part : ∀ r o p, s.reqPart r = some (o, p) → ∃ o', t.reqPart r = some (o', p)
  quiet : ∀ w, (∀ x, s.warp? w = some x → x.fences = []) → ∀ x, t.warp? w = some x → x.fences = []

theorem State.Settles.trans {t u : State} (h : s.Settles t) (k : t.Settles u) : s.Settles u := by
  refine ⟨k.mem.trans h.mem, k.cores.trans h.cores, fun r o p hp => ?_, fun w hw => k.quiet w (h.quiet w hw)⟩
  obtain ⟨o', ho'⟩ := h.part r o p hp
  exact k.part r o' p ho'

theorem State.Settles.refl (s : State) : s.Settles s := ⟨rfl, rfl, fun _ o _ h => ⟨o, h⟩, fun _ h => h⟩

theorem modOp_settles (s : State) (id : Nat) {f : Op → Op} (hf : ∀ o, (f o).parts = o.parts) : s.Settles (s.modOp id f) := by
  refine ⟨rfl, rfl, fun r o p h => ?_, fun _ h => h⟩
  obtain ⟨ho, hp⟩ := State.reqPart_eq_some.mp h
  by_cases hid : r.op = id
  · refine ⟨f o, State.reqPart_eq_some.mpr ⟨?_, (hf o).symm ▸ hp⟩⟩
    rw [State.find?_modOp, if_pos hid, ← hid, ho]
    rfl
  · refine ⟨o, State.reqPart_eq_some.mpr ⟨?_, hp⟩⟩
    rw [State.find?_modOp, if_neg hid, ho]

theorem completeAt_settles (id : Nat) (scopes : List Nat) (code : Nat) (s : State) : s.Settles (completeAt id scopes code s) := by
  unfold completeAt
  split
  · exact .refl s
  · next o _ =>
    split
    · exact .refl s
    · split
      · refine ⟨rfl, rfl, fun _ o' _ h => ⟨o', h⟩, fun w hw x hx => ?_⟩
        rw [State.warp?_modWarp] at hx
        split at hx
        · next he =>
          obtain ⟨y, hy, rfl⟩ := Option.map_eq_some_iff.mp hx
          have hfences : y.fences = [] := hw y (he ▸ hy)
          simp [Warp.freeFences, Warp.complete, hfences]
        · exact hw x hx
      · obtain ⟨hm, hc, hp, hq⟩ := modOp_settles s id (f := fun o => { o with owed := o.owed ++ scopes }) fun _ => rfl
        exact ⟨hm, hc, hp, hq⟩

theorem fenceBack_quiet (h : ∀ w, s.warp? (warpOf o.ref) = some w → w.fences = []) : fenceBack o s = s := by
  unfold fenceBack
  split
  · next w hw => simp [h w hw]
  · rfl

/-- The answer of a RED that waits for a line's return. -/
theorem replyStore_settles {id : Nat} (hw : o.parts.any (fun p => p.wb) = true)
    (hq : ∀ w, s.warp? (warpOf o.ref) = some w → w.fences = []) : s.Settles (replyStore id o s) := by
  unfold replyStore
  rw [if_pos hw]
  split
  · rw [fenceBack_quiet hq]
    exact .refl s
  · have hall := (completeAt_settles id [0] o.code s).trans
      (modOp_settles (completeAt id [0] o.code s) id (f := fun o => { o with doneCore := true }) fun _ => rfl)
    rw [fenceBack_quiet (hall.quiet _ hq)]
    exact hall

/-- A RED whose line its core gathers merges into the copy (R187). -/
theorem exec_replyArrival_red_fits {x : L1Line} (h : s.reqPart r = some (o, p)) (hk : o.kind = .red) (hl : p.l1 = true)
    (hb : p.back = false) (hs : p.isScratch = false) (hx : (s.core o.core).l1Find p.key = some x) (hf : x.gathers o)
    (hq : ∀ w, s.warp? (warpOf o.ref) = some w → w.fences = []) :
    ∃ t y o', exec (.replyArrival r) s = .next t ∧ (t.core o.core).l1Find p.key = some y
      ∧ y.data = ((lanesOn o p.key).foldl (fun l a => mergeLane l o.size a) x).data
      ∧ y.bmask = ((lanesOn o p.key).foldl (fun l a => mergeLane l o.size a) x).bmask ∧ y.ops = x.ops ++ [r.op]
      ∧ t.reqPart r = some (o', written p) ∧ ∀ a, t.mem.byte a = s.mem.byte a := by
  obtain ⟨hs', hn⟩ := l1Noted_homes p s
  have hx' : ((l1Noted p s).core o.core).l1Find p.key = some x := by
    rw [hn]
    exact hx
  have hex := exec_replyArrival_l1 h hb hl (by simp [hk])
  rw [l1Step_red hs hk] at hex
  obtain ⟨u, hu⟩ : ∃ u, l1Red r o p (l1Noted p s) = u := ⟨_, rfl⟩
  obtain ⟨y, hy, hdata, hmask, hops⟩ := l1Red_merged (r := r) hx' hf
  have hmem : u.mem = s.mem := by
    rw [← hu, l1Red_fits hx' hf, hn]
    rfl
  have hquiet : ∀ w, u.warp? (warpOf o.ref) = some w → w.fences = [] := by
    rw [← hu, l1Red_fits hx' hf, hn]
    exact hq
  have hpart : u.reqPart r = some ({ o with parts := o.parts.modify r.part written }, written p) := by
    rw [← hu, l1Red_fits hx' hf]
    refine reqPart_modPart (reqPart_congr (w := s) ?_ h)
    rw [hn]
    rfl
  rw [hu] at hex hy
  obtain ⟨ho, hpw⟩ := State.reqPart_eq_some.mp hpart
  have hwb : (o.parts.modify r.part written).any (fun p => p.wb) = true := List.any_eq_true.mpr ⟨_, List.mem_of_getElem? hpw, rfl⟩
  have hsettles : u.Settles (replyAfter r u) := by
    unfold replyAfter
    rw [ho]
    dsimp only
    split
    · exact .refl u
    · unfold opAnswered
      simp only [hk]
      exact replyStore_settles hwb hquiet
  obtain ⟨o', ho'⟩ := hsettles.part r _ _ hpart
  refine ⟨_, y, o', hex, ?_, hdata, hmask, hops, ho', fun a => congrArg (Memory.byte · a) (hsettles.mem.trans hmem)⟩
  unfold State.core at hy ⊢
  rw [hsettles.cores]
  exact hy

end

theorem now_of_reqPart {t : State} {r : Req} {o : Op} {p : Part} (h : t.reqPart r = some (o, p)) :
    (t.ops.find? r.op).bind (fun x => x.parts[r.part]?) = some p := by
  obtain ⟨ho, hp⟩ := State.reqPart_eq_some.mp h
  rw [ho]
  exact hp

section
variable {s : State} {e : Instr} {core home line fn ty : Nat} {data : LineData} {bm : ByteMask} {ids : List Nat}

theorem exec_return_leaves {x : Stop} (he : e ∈ returnEvents core home line data bm ids fn ty)
    (h : s.leaves e (returnBy s core home line) [⟨home, line, 1⟩] x) :
    ∃ t, exec e s = .next t ∧ s.left e (returnBy s core home line) x t := by
  obtain ⟨look, hlook⟩ := exec_return he
  rw [hlook]
  exact journey_leaves look _ h

theorem exec_return_done (he : e ∈ returnEvents core home line data bm ids fn ty)
    (h : allBack (s.tripsOf e) [⟨home, line, 1⟩] = true) (hgood : ∀ x ∈ s.tripsOf e, x.bad = false) :
    ∃ t, exec e s = .next t ∧ (∀ a, t.mem.byte a = s.mem.byte a)
      ∧ ∀ id ∈ ids, ∀ o, t.ops.find? id = some o → ∀ q ∈ o.parts, q.key = line → q.wb = false := by
  obtain ⟨look, hlook⟩ := exec_return he
  rw [hlook]
  exact returnTrip_done h hgood

theorem exec_return_bad {id : Nat} {o : Op} (he : e ∈ returnEvents core home line data bm ids fn ty) (hid : ids = [id])
    (h : allBack (s.tripsOf e) [⟨home, line, 1⟩] = true) (hbad : ∃ x ∈ s.tripsOf e, x.bad = true)
    (ho : s.ops.find? id = some o) (hf : o.fault = none) :
    ∃ t, exec e s = .next t ∧ (∀ a, t.mem.byte a = s.mem.byte a)
      ∧ (t.ops.find? id).map (·.fault) = some (some ⟨3, tMemory, lineAddr line, lineMask o line, 0, o.pc⟩) := by
  obtain ⟨look, hlook⟩ := exec_return he
  rw [hlook, hid]
  exact returnTrip_bad h hbad ho hf

end

/-- Settles O41, event by event: returns leave and come back, write-backs and partial results are performed or refused, a core
gathers and merges, a recall takes its copy, and a fill or a write-back lets who waits proceed. -/
theorem sliceLines : Obligations.SliceLines := by
  unfold Obligations.SliceLines
  intro s core home line data bm ids hinv
  refine ⟨fun fn ty e he => ⟨fun x hx => ?_, fun hback => ⟨fun hgood => ?_, fun hbad id o hid ho hf => ?_⟩⟩,
    fun x hx => ⟨fun hv => ?_, fun hi hb hu hw hp hpart => ?_, fun hb hw => ?_⟩,
    fun fn ty x hx => ⟨fun hs hm hb => ?_, fun hb => ?_⟩,
    fun r o p ho hp => ⟨fun hhome hline hs hv hpass => ?_, fun hk hg hb hl hr => ?_,
      fun hk hl hb hs hc => ⟨fun x hx hf hq => ?_, fun hmiss => ?_⟩⟩,
    fun x hx hu hh hr => ?_, fun hn hret hr => ?_, fun hb => ⟨?_, ?_⟩⟩
  · exact exec_return_leaves he hx
  · exact exec_return_done he hback hgood
  · exact exec_return_bad he hid hback hbad ho hf
  · exact exec_writeBack_served hinv.memory hx hv
  · exact exec_writeBack_poisoned hx hi hb hu hw hp hpart
  · exact exec_writeBack_busy hx hb hw
  · exact exec_partialResult_combines hinv.memory hx hs hm hb
  · exact exec_partialResult_keeps hx hb
  · subst hhome hline
    exact exec_updateOnlyObtain_served (State.reqPart_eq_some.mpr ⟨ho, hp⟩) hs hv hpass
  · obtain ⟨t, x, o', hex, hx, hgathers, hmask, hpart, hevent, hm⟩ :=
      exec_replyArrival_gather (State.reqPart_eq_some.mpr ⟨ho, hp⟩) hk hg hb hl hr
    exact ⟨t, x, hex, hx, hgathers, hmask, now_of_reqPart hpart, hevent, hm⟩
  · obtain ⟨t, y, o', hex, hy, hdata, hmask, hops, hpart, hm⟩ :=
      exec_replyArrival_red_fits (State.reqPart_eq_some.mpr ⟨ho, hp⟩) hk hl hb hs hx hf hq
    exact ⟨t, y, hex, hy, hdata, hmask, hops, now_of_reqPart hpart, hm⟩
  · obtain ⟨t, o', hex, habs, hm, happlied, hgathering⟩ :=
      exec_replyArrival_red_misses (State.reqPart_eq_some.mpr ⟨ho, hp⟩) hk hl hb hs hc hmiss
    exact ⟨t, hex, habs, hm, fun h => ⟨now_of_reqPart (happlied h).1, (happlied h).2⟩,
      fun h => ⟨now_of_reqPart (hgathering h).1, (hgathering h).2⟩⟩
  · exact exec_recallDelivery_held hx hu hh hr
  · exact exec_recallDelivery_empty hn hret hr
  · exact exec_sliceFillComplete_busy hb
  · exact exec_sliceWriteBackComplete_busy hb

/-! ## Turns at several lines (R85) -/

/-- A line at which a request has its turn, and which is there without update-only copies. -/
structure State.Idle (s : State) (e : Instr) (x : Nat × Nat) : Prop where
  busy : (s.sline x.1 x.2).state ≠ .busy
  inv : (s.sline x.1 x.2).state ≠ .inv
  uo : (s.sline x.1 x.2).uo = 0
  turn : (s.sline x.1 x.2).waiters = [] ∨ (s.sline x.1 x.2).waiters.head? = some e

/-- What turns at lines leave as it was. -/
structure State.Turned (s u : State) : Prop where
  mem : u.mem = s.mem
  tags : u.tags = s.tags
  ops : u.ops = s.ops
  trips : u.trips = s.trips
  teams : u.teams = s.teams
  launches : u.launches = s.launches
  contexts : u.contexts = s.contexts
  poison : u.poison = s.poison
  secret : u.secret = s.secret
  node : u.nodeId = s.nodeId
  agenda : ∃ es, u.agenda = es ++ s.agenda
  res : ∀ h, (u.slice h).res = (s.slice h).res
  reserved : ∀ h, (u.slice h).reserved = (s.slice h).reserved

/-- A line's ask among those of a request for several lines. -/
def lineAsk (stream : Bool) (x : Nat × Nat) : Ask := { home := x.1, line := x.2, stream := stream }

/-- A request for several lines has its turn at each. -/
def turns (stream : Bool) (e : Instr) (ls : List (Nat × Nat)) (s : State) : State :=
  ls.foldl (fun s x => (lineAsk stream x).taken e s) s

section
variable {s t u : State} {e : Instr} {x y : Nat × Nat} {ls : List (Nat × Nat)} {stream : Bool}

theorem State.served.idleAt {home line : Nat} (h : s.served home line true e) : s.Idle e (home, line) :=
  ⟨h.idle.1, h.idle.2, h.alone rfl, h.turn⟩

theorem State.Turned.refl (s : State) : s.Turned s :=
  ⟨rfl, rfl, rfl, rfl, rfl, rfl, rfl, rfl, rfl, rfl, ⟨[], rfl⟩, fun _ => rfl, fun _ => rfl⟩

theorem State.Turned.trans (h : s.Turned t) (k : t.Turned u) : s.Turned u where
  mem := k.mem.trans h.mem
  tags := k.tags.trans h.tags
  ops := k.ops.trans h.ops
  trips := k.trips.trans h.trips
  teams := k.teams.trans h.teams
  launches := k.launches.trans h.launches
  contexts := k.contexts.trans h.contexts
  poison := k.poison.trans h.poison
  secret := k.secret.trans h.secret
  node := k.node.trans h.node
  agenda := by
    obtain ⟨es, he⟩ := h.agenda
    obtain ⟨fs, hf⟩ := k.agenda
    exact ⟨fs ++ es, by rw [hf, he, List.append_assoc]⟩
  res i := (k.res i).trans (h.res i)
  reserved i := (k.reserved i).trans (h.reserved i)

theorem State.modSline_turned (s : State) (home line : Nat) (f : SliceLine → SliceLine) : s.Turned (s.modSline home line f) := by
  refine ⟨rfl, rfl, rfl, rfl, rfl, rfl, rfl, rfl, rfl, rfl, ⟨[], rfl⟩, fun h => State.res_modSline home line h _, fun h => ?_⟩
  refine (congrArg Slice.reserved (State.slice_modSline (s := s) home line h f)).trans ?_
  split
  · next he => rw [he]
  · rfl

theorem State.Turned.ahead (h : s.Turned u) (es : List Instr) : s.Turned (u.ahead es) :=
  h.trans ⟨rfl, rfl, rfl, rfl, rfl, rfl, rfl, rfl, rfl, rfl, ⟨es, rfl⟩, fun _ => rfl, fun _ => rfl⟩

theorem Ask.taken_turned (a : Ask) (e : Instr) (s : State) : s.Turned (a.taken e s) := by
  obtain ⟨hs, ht⟩ := a.taken_homes e s
  rw [ht]
  obtain ⟨hm, htg, ho, htr, hte, hla, hc, hp, hse, hn, ha, hres, hrsv⟩ := s.modSline_turned a.home a.line
    (fun l => { l with waiters := l.waiters.erase e })
  exact ⟨hm, htg, ho, htr, hte, hla, hc, hp, hse, hn, ha, hres, hrsv⟩

theorem Ask.taken_sline_other (a : Ask) (e : Instr) (s : State) (h : x ≠ (a.home, a.line)) :
    (a.taken e s).sline x.1 x.2 = s.sline x.1 x.2 := by
  obtain ⟨hs, ht⟩ := a.taken_homes e s
  rw [ht]
  refine (State.sline_modSline (s := s) a.home a.line x.1 x.2 _).trans (if_neg fun hx => h ?_)
  exact Prod.ext hx.1 hx.2

theorem State.Idle.taken (h : s.Idle e x) (hxy : x ≠ y) : ((lineAsk stream y).taken e s).Idle e x := by
  have hline := (lineAsk stream y).taken_sline_other e s hxy
  exact ⟨hline ▸ h.busy, hline ▸ h.inv, hline ▸ h.uo, hline ▸ h.turn⟩

theorem turns_turned (ls : List (Nat × Nat)) (s : State) : s.Turned (turns stream e ls s) := by
  induction ls generalizing s with
  | nil => exact .refl s
  | cons x ls ih => exact ((lineAsk stream x).taken_turned e s).trans (ih _)

theorem State.ahead_ahead (es fs : List Instr) : (s.ahead es).ahead fs = s.ahead (fs ++ es) := by
  rw [State.ahead, State.ahead, State.ahead, List.append_assoc]

/-- A request with its turn at each of its lines is performed. -/
theorem atEach_done {k : State → Out} (hls : ls.Nodup) (hi : ∀ x ∈ ls, s.Idle e x) (hk : k (turns stream e ls s) = .next t) :
    ∃ es, atEach stream e ls s k = .next (t.ahead es) := by
  induction ls generalizing s with
  | nil => exact ⟨[], hk⟩
  | cons x ls ih =>
    obtain ⟨hx, hls⟩ := List.nodup_cons.mp hls
    have hidle := hi x (List.mem_cons_self ..)
    obtain ⟨es, he⟩ := ih (s := (lineAsk stream x).taken e s) hls
      (fun y hy => (hi y (List.mem_cons_of_mem _ hy)).taken fun hyx => hx (hyx ▸ hy)) hk
    obtain ⟨fs, hf⟩ := atSlice_done (a := lineAsk stream x) (refuse := fun _ => none) (k := fun s => atEach stream e ls s k)
      (Ask.turn_of hidle.busy hidle.turn) rfl (Ask.calm_of hidle.uo) (.inr hidle.inv) he
    exact ⟨fs ++ es, hf.trans (by rw [State.ahead_ahead])⟩

theorem insertLine_perm (x : Nat × Nat) (ls : List (Nat × Nat)) : (insertLine x ls).Perm (x :: ls) := by
  induction ls with
  | nil => exact .refl _
  | cons y ls ih =>
    unfold insertLine
    split
    · exact .refl _
    · exact (ih.cons y).trans (.swap x y ls)

theorem insertLines_perm (ls : List (Nat × Nat)) : (ls.foldr insertLine []).Perm ls := by
  induction ls with
  | nil => exact .refl _
  | cons x ls ih => exact (insertLine_perm x _).trans (ih.cons x)

/-- The lines of a request, in their order. -/
def inOrder (ls : List (Nat × Nat)) : List (Nat × Nat) := ls.foldr insertLine []

theorem mem_inOrder : x ∈ inOrder ls ↔ x ∈ ls := (insertLines_perm ls).mem_iff

theorem atSlices_done {k : State → Out} (hls : ls.Nodup) (hi : ∀ x ∈ ls, s.Idle e x)
    (hk : k (turns stream e (inOrder ls) s) = .next t) : ∃ es, atSlices stream e ls s k = .next (t.ahead es) :=
  atEach_done ((insertLines_perm ls).nodup_iff.mpr hls) (fun x hx => hi x (mem_inOrder.mp hx)) hk

/-! ## Lines with one home slice while their bytes change (R59) -/

/-- A state with other memory. -/
def State.withMem (s : State) (m : Memory) : State := { s with mem := m }

/-- The home slices of lines, once another access has been noted (R59). -/
def notedHomes (home line : Nat) (hs : Tab (List Nat)) : Tab (List Nat) :=
  if (Tab.get [] hs line).contains home then hs else hs.set line (Tab.get [] hs line ++ [home])

theorem noteHome_eq (home line : Nat) (s : State) : noteHome home line s = { s with homes := notedHomes home line s.homes } := by
  unfold noteHome notedHomes
  dsimp only
  split
  · rfl
  · rfl

theorem noteHome_mixed (h : u.homes = notedHomes y.1 y.2 s.homes) (hc : u.contexts = s.contexts) (home line : Nat) (m : Memory) :
    mixedHome (u.withMem m) home line = mixedHome (noteHome y.1 y.2 (s.withMem m)) home line := by
  have hn := noteHome_eq y.1 y.2 (s.withMem m)
  refine mixedHome_congr (s := noteHome y.1 y.2 (s.withMem m)) (t := u.withMem m) ?_ ?_ ?_ home line
  · exact h.trans (congrArg State.homes hn).symm
  · exact hc.trans (congrArg State.contexts hn).symm
  · exact (congrArg State.mem hn).symm

/-- Lines are accessed through their one home slice each, whatever bytes they hold. -/
def Steady (ls : List (Nat × Nat)) (s : State) : Prop :=
  ∀ m : Memory, (∀ a, (∀ x ∈ ls, a / 128 ≠ x.2) → m.byte a = s.mem.byte a) → ∀ x ∈ ls, mixedHome (s.withMem m) x.1 x.2 = false

theorem Steady.single (h : Steady ls s) (hx : x ∈ ls) : mixedHome s x.1 x.2 = false := h s.mem (fun _ _ => rfl) x hx

theorem Steady.congr (h : Steady ls s) (hh : u.homes = s.homes) (hc : u.contexts = s.contexts)
    (hm : ∀ a, (∀ x ∈ ls, a / 128 ≠ x.2) → u.mem.byte a = s.mem.byte a) : Steady ls u := by
  intro m hma x hx
  exact (mixedHome_congr (s := s.withMem m) (t := u.withMem m) hh hc rfl ..).trans (h m (fun a ha => (hma a ha).trans (hm a ha)) x hx)

theorem Steady.taken (hone : ∀ x ∈ ls, ∀ y ∈ ls, x.2 = y.2 → x.1 = y.1) (hy : y ∈ ls) (h : Steady ls s) :
    Steady ls ((lineAsk stream y).taken e s) := by
  intro m hm x hx
  rw [Ask.taken_mem] at hm
  have hold := h m hm x hx
  have hnoted : ((lineAsk stream y).taken e s).homes = notedHomes y.1 y.2 s.homes := by
    unfold Ask.taken
    rw [if_pos (show (lineAsk stream y).note = true from rfl), noteHome_eq]
    rfl
  rw [noteHome_mixed hnoted ((lineAsk stream y).taken_turned e s).contexts]
  by_cases hxy : x.2 = y.2
  · rw [← hone x hx y hy hxy, ← hxy]
    exact mixedHome_noteHome hold
  · unfold mixedHome at hold ⊢
    rwa [lineHomes_noteHome_other _ hxy]

theorem Steady.turns (hone : ∀ x ∈ ls, ∀ y ∈ ls, x.2 = y.2 → x.1 = y.1) {ks : List (Nat × Nat)} (hks : ∀ x ∈ ks, x ∈ ls)
    (h : Steady ls s) : Steady ls (turns stream e ks s) := by
  induction ks generalizing s with
  | nil => exact h
  | cons y ks ih => exact ih (fun x hx => hks x (List.mem_cons_of_mem _ hx)) (h.taken hone (hks y (List.mem_cons_self ..)))

end

/-! ## Writes to a block (R86) -/

/-- The byte of a line that masked data put there. -/
def maskedByte (d : LineData × ByteMask) (i : Nat) : Option Byte := if d.2.getLsbD i then some (lineByte d.1 i) else none

/-- The byte of a block that some writes put there, the last one on top. -/
def editAt (es : List Edit) (a : Nat) : Option Byte :=
  es.foldl (fun v e => if e.off ≤ a ∧ a < e.off + e.bytes.length then e.bytes[a - e.off]? else v) none

theorem editAt_append (es : List Edit) (e : Edit) (a : Nat) :
    editAt (es ++ [e]) a = if e.off ≤ a ∧ a < e.off + e.bytes.length then e.bytes[a - e.off]? else editAt es a := by
  simp [editAt]

theorem maskedByte_placeBytes (off : Nat) (bs : List Byte) (d : LineData × ByteMask) {i : Nat} (hi : i < 128) :
    maskedByte (placeBytes off bs d.1 d.2) i = if off ≤ i ∧ i < off + bs.length then bs[i - off]? else maskedByte d i := by
  obtain ⟨hd, hm⟩ := placeBytes_at off bs d.1 d.2 hi
  unfold maskedByte
  rw [hd, hm]
  by_cases h : off ≤ i ∧ i < off + bs.length
  · have hlt : i - off < bs.length := by omega
    simp [h, List.getElem?_eq_getElem hlt]
  · rw [if_neg h, decide_eq_false h, Bool.or_false]
    by_cases ho : off ≤ i
    · rw [if_pos ho, List.getElem?_eq_none (by omega)]
      rfl
    · rw [if_neg ho]
      rfl

/-- One write put into a line of its block. -/
def editStep (k : Nat) (p : LineData × ByteMask) (e : Edit) : LineData × ByteMask :=
  let lo := max e.off (128 * k)
  let hi := min (e.off + e.bytes.length) (128 * k + 128)
  if hi ≤ lo then p else placeBytes (lo - 128 * k) ((e.bytes.drop (lo - e.off)).take (hi - lo)) p.1 p.2

theorem editLine_append (es : List Edit) (e : Edit) (k : Nat) : editLine (es ++ [e]) k = editStep k (editLine es k) e := by
  unfold editLine
  rw [List.foldl_append]
  rfl

theorem maskedByte_editStep (k : Nat) (p : LineData × ByteMask) (e : Edit) {i : Nat} (hi : i < 128) :
    maskedByte (editStep k p e) i
      = if e.off ≤ 128 * k + i ∧ 128 * k + i < e.off + e.bytes.length then e.bytes[128 * k + i - e.off]? else maskedByte p i := by
  unfold editStep
  dsimp only
  split
  · rw [if_neg (by omega)]
  · rw [maskedByte_placeBytes _ _ _ hi, List.length_take, List.length_drop]
    by_cases hc : e.off ≤ 128 * k + i ∧ 128 * k + i < e.off + e.bytes.length
    · rw [if_pos hc, if_pos (by omega), List.getElem?_take_of_lt (by omega), List.getElem?_drop]
      congr 1
      omega
    · rw [if_neg hc, if_neg (by omega)]

/-- What writes put into a line of their block, byte by byte. -/
theorem maskedByte_editLine (es : List Edit) (k : Nat) {i : Nat} (hi : i < 128) :
    maskedByte (editLine es k) i = editAt es (128 * k + i) := by
  induction es using List.reverseRecOn with
  | nil => simp [maskedByte, editLine, editAt]
  | append_singleton es e ih => rw [editAt_append, editLine_append, maskedByte_editStep _ _ _ hi, ih]

/-- The lines of a block that writes concern. -/
theorem mem_editLines {es : List Edit} {k : Nat} :
    k ∈ editLines es ↔ ∃ e ∈ es, e.bytes ≠ [] ∧ e.off / 128 ≤ k ∧ k < (e.off + e.bytes.length + 127) / 128 := by
  unfold editLines
  rw [List.mem_dedup, List.mem_flatMap]
  refine exists_congr fun e => and_congr_right fun _ => ?_
  by_cases he : e.bytes = []
  · simp [he]
  · rw [if_neg (by simpa using he), List.mem_map]
    refine ⟨?_, fun ⟨_, hlo, hhi⟩ => ⟨k - e.off / 128, List.mem_range.mpr (by omega), by omega⟩⟩
    rintro ⟨n, hn, rfl⟩
    have := List.mem_range.mp hn
    exact ⟨he, by omega, by omega⟩

theorem editAt_eq_none {es : List Edit} {a : Nat} (h : ∀ e ∈ es, ¬ (e.off ≤ a ∧ a < e.off + e.bytes.length)) : editAt es a = none := by
  induction es using List.reverseRecOn with
  | nil => rfl
  | append_singleton es e ih =>
    rw [editAt_append, if_neg (h e (by simp)), ih fun x hx => h x (List.mem_append_left _ hx)]

/-- Writes that do not meet: a byte of one of them. -/
theorem editAt_of_mem {es : List Edit} {e : Edit} {a : Nat} (hes : es.Pairwise (fun x y => x.off + x.bytes.length ≤ y.off ∨ y.off + y.bytes.length ≤ x.off))
    (he : e ∈ es) (ha : e.off ≤ a ∧ a < e.off + e.bytes.length) : editAt es a = e.bytes[a - e.off]? := by
  induction es using List.reverseRecOn with
  | nil => cases he
  | append_singleton es x ih =>
    obtain ⟨hes, _, hx⟩ := List.pairwise_append.mp hes
    rw [editAt_append]
    rw [List.mem_append, List.mem_singleton] at he
    obtain he | rfl := he
    · have := hx e he x (List.mem_singleton.mpr rfl)
      rw [if_neg (by omega), ih hes he]
    · rw [if_pos ha]

theorem editAt_line_none {es : List Edit} {k i : Nat} (hk : k ∉ editLines es) (hi : i < 128) : editAt es (128 * k + i) = none := by
  refine editAt_eq_none fun e he hc => hk (mem_editLines.mpr ⟨e, he, ?_, by omega, by omega⟩)
  rintro h
  rw [h] at hc
  simp only [List.length_nil] at hc
  omega

/-! ## Writes to a block as one request (R86) -/

/-- A state after writes to lines of one home slice each. -/
structure State.Wrote (s : State) (ls : List (Nat × Nat)) (u : State) : Prop where
  wf : u.mem.wf = true
  outside : ∀ a, (∀ x ∈ ls, a / 128 ≠ x.2) → u.mem.byte a = s.mem.byte a
  homes : u.homes = s.homes
  contexts : u.contexts = s.contexts
  poison : ∀ x ∈ u.poison, x ∈ s.poison
  ops : u.ops = s.ops
  trips : u.trips = s.trips
  teams : u.teams = s.teams
  launches : u.launches = s.launches
  agenda : ∃ es, u.agenda = s.agenda ++ es
  res : ∀ h, (u.slice h).res = (s.slice h).res

section
variable {s t u : State} {ls : List (Nat × Nat)} {home line first : Nat} {d : LineData × ByteMask} {es : List Edit}

theorem State.Wrote.refl (h : s.mem.wf = true) : s.Wrote ls s :=
  ⟨h, fun _ _ => rfl, rfl, rfl, fun _ hx => hx, rfl, rfl, rfl, rfl, ⟨[], by simp⟩, fun _ => rfl⟩

theorem State.Wrote.trans (h : s.Wrote ls t) (k : t.Wrote ls u) : s.Wrote ls u where
  wf := k.wf
  outside a ha := (k.outside a ha).trans (h.outside a ha)
  homes := k.homes.trans h.homes
  contexts := k.contexts.trans h.contexts
  poison x hx := h.poison x (k.poison x hx)
  ops := k.ops.trans h.ops
  trips := k.trips.trans h.trips
  teams := k.teams.trans h.teams
  launches := k.launches.trans h.launches
  agenda := by
    obtain ⟨es, he⟩ := h.agenda
    obtain ⟨fs, hf⟩ := k.agenda
    exact ⟨es ++ fs, by rw [hf, he, List.append_assoc]⟩
  res i := (k.res i).trans (h.res i)

theorem Steady.wrote (h : Steady ls s) (k : s.Wrote ls u) : Steady ls u := h.congr k.homes k.contexts k.outside

theorem byte_putLine_masked {m : Memory} (hwf : m.wf = true) (a : Nat) : (m.putLine line d.1 d.2).byte a
    = if a / 128 = line then (maskedByte d (a % 128)).getD (m.byte a) else m.byte a := by
  rw [Memory.byte_putLine hwf]
  by_cases ha : a / 128 = line
  · rw [if_pos ha, show a - 128 * line = a % 128 by omega]
    unfold maskedByte
    by_cases hb : d.2.getLsbD (a % 128) = true
    · rw [if_pos ⟨ha, hb⟩, if_pos hb]
      rfl
    · rw [if_neg (fun c => hb c.2), if_neg hb]
      rfl
  · rw [if_neg (fun c => ha c.1), if_neg ha]

theorem writeLine_wrote (hwf : s.mem.wf = true) (hx : (home, line) ∈ ls) (hm : mixedHome s home line = false) :
    s.Wrote ls (writeLine home line d.1 d.2 s)
      ∧ ∀ a, (writeLine home line d.1 d.2 s).mem.byte a
          = if a / 128 = line then (maskedByte d (a % 128)).getD (s.mem.byte a) else s.mem.byte a := by
  obtain ⟨d', hd, hch⟩ := writeLine_changed home line d.1 d.2 s
  rw [hd hm] at hch
  refine ⟨⟨?_, fun a ha => ?_, hch.homes, hch.contexts, hch.poison, hch.ops, hch.trips, hch.teams, hch.launches, hch.agenda, hch.res⟩,
    fun a => ?_⟩
  · rw [hch.mem]
    exact Memory.wf_putLine hwf ..
  · rw [hch.mem]
    exact Memory.byte_putLine_other _ _ _ _ hwf (ha _ hx)
  · rw [hch.mem]
    exact byte_putLine_masked hwf a

/-- One line of a block's writes. -/
def blockStep (home first : Nat) (es : List Edit) (s : State) (k : Nat) : State :=
  if poisoned s (first + k) && (editLine es k).2 ≠ BitVec.allOnes 128 then s
  else writeLine home (first + k) (editLine es k).1 (editLine es k).2 s

theorem blockStep_sound {k : Nat} (h : first + k ∉ s.poison) :
    blockStep home first es s k = writeLine home (first + k) (editLine es k).1 (editLine es k).2 s := by
  have hs : poisoned s (first + k) = false := by simpa [poisoned] using h
  unfold blockStep
  simp [hs]

theorem blockSteps (hwf : s.mem.wf = true) (hsteady : Steady ls s) (ks : List Nat) (hks : ks.Nodup)
    (hin : ∀ k ∈ ks, (home, first + k) ∈ ls) (hsound : ∀ k ∈ ks, first + k ∉ s.poison) :
    s.Wrote ls (ks.foldl (blockStep home first es) s)
      ∧ ∀ a, (ks.foldl (blockStep home first es) s).mem.byte a
          = if ∃ k ∈ ks, a / 128 = first + k then (maskedByte (editLine es (a / 128 - first)) (a % 128)).getD (s.mem.byte a)
            else s.mem.byte a := by
  induction ks generalizing s with
  | nil => exact ⟨.refl hwf, fun a => by simp⟩
  | cons k ks ih =>
    obtain ⟨hk, hks⟩ := List.nodup_cons.mp hks
    have hline := hin k (List.mem_cons_self ..)
    have hstep : blockStep home first es s k = writeLine home (first + k) (editLine es k).1 (editLine es k).2 s :=
      blockStep_sound (hsound k (List.mem_cons_self ..))
    obtain ⟨hw, hb⟩ := writeLine_wrote (d := editLine es k) hwf hline (hsteady.single hline)
    rw [← hstep] at hw hb
    obtain ⟨hws, hbs⟩ := ih hw.wf (hsteady.wrote hw) hks (fun j hj => hin j (List.mem_cons_of_mem _ hj))
      (fun j hj hp => hsound j (List.mem_cons_of_mem _ hj) (hw.poison _ hp))
    refine ⟨hw.trans hws, fun a => ?_⟩
    rw [List.foldl_cons, hbs a, hb a]
    by_cases ha : a / 128 = first + k
    · have hlater : ¬ ∃ j ∈ ks, a / 128 = first + j := fun ⟨j, hj, he⟩ => hk ((show j = k by omega) ▸ hj)
      rw [if_neg hlater, if_pos ha, if_pos ⟨k, List.mem_cons_self .., ha⟩, show a / 128 - first = k by omega]
    · rw [if_neg ha]
      refine if_congr ⟨fun ⟨j, hj, he⟩ => ⟨j, List.mem_cons_of_mem _ hj, he⟩, fun ⟨j, hj, he⟩ => ⟨j, ?_, he⟩⟩ rfl rfl
      obtain rfl | hj := List.mem_cons.mp hj
      · exact absurd he ha
      · exact hj

theorem blockByte_eq (first : Nat) (es : List Edit) (a : Nat) (v : Byte) :
    (if ∃ k ∈ editLines es, a / 128 = first + k then (maskedByte (editLine es (a / 128 - first)) (a % 128)).getD v else v)
      = (if 128 * first ≤ a then editAt es (a - 128 * first) else none).getD v := by
  by_cases ha : 128 * first ≤ a
  · have hat : a - 128 * first = 128 * (a / 128 - first) + a % 128 := by omega
    rw [if_pos ha, hat]
    by_cases hk : a / 128 - first ∈ editLines es
    · rw [if_pos ⟨_, hk, by omega⟩, maskedByte_editLine _ _ (Nat.mod_lt _ (by omega))]
    · rw [if_neg (fun ⟨k, hk', he⟩ => hk ((show a / 128 - first = k by omega) ▸ hk')),
        editAt_line_none hk (Nat.mod_lt _ (by omega))]
      rfl
  · rw [if_neg ha, if_neg (fun ⟨k, _, he⟩ => ha (by omega))]
    rfl

/-- A block's bytes after writes: what they put there, and else what stood there. -/
theorem writeBlock_wrote (hwf : s.mem.wf = true) (hsteady : Steady ls s) (hin : ∀ k ∈ editLines es, (home, first + k) ∈ ls)
    (hsound : ∀ k ∈ editLines es, first + k ∉ s.poison) :
    s.Wrote ls (writeBlock home first es s)
      ∧ ∀ a, (writeBlock home first es s).mem.byte a
          = (if 128 * first ≤ a then editAt es (a - 128 * first) else none).getD (s.mem.byte a) := by
  obtain ⟨hw, hb⟩ := blockSteps (home := home) (first := first) (es := es) hwf hsteady (editLines es) (List.nodup_dedup _) hin hsound
  exact ⟨hw, fun a => (hb a).trans (blockByte_eq first es a _)⟩

/-! ## One word of a block -/

theorem editLines_word (off v : Nat) (h : off % 128 ≤ 124) : editLines [⟨off, leBytes 4 v⟩] = [off / 128] := by
  have hlen : (off + (leBytes 4 v).length + 127) / 128 - off / 128 = 1 := by
    rw [leBytes_length]
    omega
  have hne : (leBytes 4 v).isEmpty = false := by
    rw [List.isEmpty_eq_false_iff_exists_mem]
    exact ⟨_, List.mem_map_of_mem (List.mem_range.mpr (show 0 < 4 by omega))⟩
  unfold editLines
  simp only [List.flatMap_cons, List.flatMap_nil, List.append_nil, hne, Bool.false_eq_true, if_false, hlen, List.range_one,
    List.map_cons, List.map_nil, Nat.add_zero]
  rfl

/-- One word of a block written. -/
theorem writeBlock_word {off v : Nat} (hwf : s.mem.wf = true) (ho : off % 128 ≤ 124) (hm : mixedHome s home (first + off / 128) = false)
    (hs : poisoned s (first + off / 128) = false) :
    s.Wrote [(home, first + off / 128)] (writeBlock home first [⟨off, leBytes 4 v⟩] s)
      ∧ ∀ a, (writeBlock home first [⟨off, leBytes 4 v⟩] s).mem.byte a
          = (if 128 * first ≤ a then editAt [⟨off, leBytes 4 v⟩] (a - 128 * first) else none).getD (s.mem.byte a) := by
  have hlines := editLines_word off v ho
  have hblock : writeBlock home first [⟨off, leBytes 4 v⟩] s = writeLine home (first + off / 128)
      (editLine [⟨off, leBytes 4 v⟩] (off / 128)).1 (editLine [⟨off, leBytes 4 v⟩] (off / 128)).2 s := by
    rw [← blockStep_sound (by simpa [poisoned] using hs)]
    unfold writeBlock
    rw [hlines]
    rfl
  obtain ⟨hw, hb⟩ := writeLine_wrote (d := editLine [⟨off, leBytes 4 v⟩] (off / 128)) hwf (List.mem_singleton.mpr rfl) hm
  rw [hblock]
  refine ⟨hw, fun a => (hb a).trans ?_⟩
  rw [← blockByte_eq, hlines]
  simp only [List.mem_singleton, exists_eq_left]
  refine if_ctx_congr Iff.rfl (fun ha => ?_) fun _ => rfl
  rw [show a / 128 - first = off / 128 by omega]

end

/-- Bytes of a block that one word's write does not touch, and the word. -/
theorem editAt_word (off v a : Nat) : editAt [⟨off, leBytes 4 v⟩] a
    = if off ≤ a ∧ a < off + 4 then some (BitVec.ofNat 8 (v / 256 ^ (a - off))) else none := by
  unfold editAt
  rw [List.foldl_cons, List.foldl_nil, leBytes_length]
  by_cases h : off ≤ a ∧ a < off + 4
  · rw [if_pos h, if_pos h, leBytes_getElem?, if_pos (show a - off < 4 by omega)]
  · rw [if_neg h, if_neg h]

/-! ## Numbers from bytes -/

theorem Memory.nat_of_bytes {m : Memory} {a n v : Nat} (h : ∀ i, i < n → m.byte (a + i) = BitVec.ofNat 8 (v / 256 ^ i)) :
    m.nat a n = v % 2 ^ (8 * n) := by
  have hread : m.read a n = leBytes n v := List.map_congr_left fun i hi => h i (List.mem_range.mp hi)
  rw [Memory.nat, hread, leNat_leBytes, show (256 : Nat) = 2 ^ 8 from rfl, ← Nat.pow_mul]

/-! ## Waiting requests dropped from a line -/

section
variable {s t u : State} {e : Instr} {home line : Nat}

/-- A line without the waiting requests that p names, and after it who comes next. -/
theorem purgeLine_turned (p : Instr → Bool) (home line : Nat) (s : State) :
    s.Turned (purgeLine p home line s)
      ∧ ∀ x : Nat × Nat, x ≠ (home, line) → (purgeLine p home line s).sline x.1 x.2 = s.sline x.1 x.2 := by
  have hdrop := s.modSline_turned home line (fun l => { l with waiters := l.waiters.filter (fun e => !p e) })
  have hother (x : Nat × Nat) (hx : x ≠ (home, line)) :
      (s.modSline home line (fun l => { l with waiters := l.waiters.filter (fun e => !p e) })).sline x.1 x.2 = s.sline x.1 x.2 := by
    rw [State.sline_modSline, if_neg fun h => hx (Prod.ext h.1 h.2)]
  unfold purgeLine
  dsimp only
  split
  · split
    · obtain ⟨es, he⟩ := afterTurn_ahead home line (s.modSline home line (fun l => { l with waiters := l.waiters.filter (fun e => !p e) }))
      rw [he]
      exact ⟨hdrop.ahead es, hother⟩
    · exact ⟨hdrop, hother⟩
  · exact ⟨.refl s, fun _ _ => rfl⟩

/-- The lines of a block without a waiting request. -/
def purges (e : Instr) (home first : Nat) (ks : List Nat) (s : State) : State :=
  ks.foldl (fun s i => purgeLine (fun x => x = e) home (first + i) s) s

theorem purges_turned (e : Instr) (home first : Nat) (ks : List Nat) (s : State) :
    s.Turned (purges e home first ks s)
      ∧ ∀ k, k ∉ ks → (purges e home first ks s).sline home (first + k) = s.sline home (first + k) := by
  induction ks generalizing s with
  | nil => exact ⟨.refl s, fun _ _ => rfl⟩
  | cons i ks ih =>
    obtain ⟨hs, hline⟩ := purgeLine_turned (fun x => x = e) home (first + i) s
    obtain ⟨hrest, hlines⟩ := ih (purgeLine (fun x => x = e) home (first + i) s)
    refine ⟨hs.trans hrest, fun k hk => (hlines k fun h => hk (List.mem_cons_of_mem _ h)).trans (hline (home, first + k) fun h => ?_)⟩
    have hki : k = i := by simpa using h
    exact hk (hki ▸ List.mem_cons_self ..)

/-! ## Deliveries on their way -/

/-- No delivery to a locket waits at a line. -/
def State.NoDelivery (s : State) : Prop :=
  ∀ h, ∀ l ∈ (s.slice h).lines, ∀ w n k v, Instr.locketDelivery w n k v ∉ l.2.waiters

/-- Every delivery on its way in t was so in s. -/
def State.DeliversOf (s t : State) : Prop := ∀ w n k v, Instr.locketDelivery w n k v ∈ t.agenda → Instr.locketDelivery w n k v ∈ s.agenda

theorem State.DeliversOf.trans (h : s.DeliversOf t) (k : t.DeliversOf u) : s.DeliversOf u :=
  fun w n m v hd => h w n m v (k w n m v hd)

theorem Tab.mem_set {α : Type} {t : Tab α} {k : Nat} {v : α} {x : Nat × α} (h : x ∈ t.set k v) : x = (k, v) ∨ x ∈ t := by
  induction t with
  | nil => simpa [Tab.set] using h
  | cons e t ih =>
    unfold Tab.set at h
    split at h
    · rw [List.mem_cons] at h ⊢
      tauto
    · split at h
      · rw [List.mem_cons] at h
        exact h
      · rw [List.mem_cons] at h ⊢
        tauto

theorem State.NoDelivery.at_line (h : s.NoDelivery) (home line : Nat) (w : WarpRef) (n : Nat) (k : Mask) (v : List Word) :
    Instr.locketDelivery w n k v ∉ (s.sline home line).waiters := by
  unfold State.sline Tab.get
  cases hf : (s.slice home).lines.find? line with
  | none => simp
  | some l => exact h home _ (Tab.mem_of_find? hf) w n k v

theorem State.NoDelivery.modSline (h : s.NoDelivery) {f : SliceLine → SliceLine} (hf : ∀ l, ∀ x ∈ (f l).waiters, x ∈ l.waiters) :
    (s.modSline home line f).NoDelivery := by
  intro i l hl w n k v
  rw [State.slice_modSline] at hl
  split at hl
  · obtain rfl | hl := Tab.mem_set hl
    · exact fun hd => h.at_line home line w n k v (hf _ _ hd)
    · exact h home l hl w n k v
  · exact h i l hl w n k v

theorem nextWaiter_delivers (h : s.NoDelivery) (home line : Nat) : s.DeliversOf (nextWaiter home line s) := by
  intro w n k v hd
  unfold nextWaiter at hd
  split at hd
  · exact hd
  · next i is hw =>
    split at hd
    · exact hd
    · obtain he | hd := List.mem_cons.mp hd
      · exact absurd (he ▸ hw ▸ List.mem_cons_self ..) (h.at_line home line w n k v)
      · exact hd

theorem wakeRoom_delivers (h : s.NoDelivery) (home : Nat) : s.DeliversOf (wakeRoom home s) := by
  intro w n k v hd
  unfold wakeRoom at hd
  split at hd
  · exact hd
  · obtain hd | hd := List.mem_append.mp hd
    · obtain ⟨l, hl, he⟩ := List.mem_filterMap.mp (List.mem_of_mem_filter hd)
      split at he
      · exact absurd (List.mem_of_head? he) (h home l hl w n k v)
      · cases he
    · exact hd

theorem afterTurn_delivers (h : s.NoDelivery) (home line : Nat) : s.DeliversOf (afterTurn home line s) := by
  obtain ⟨es, he⟩ := nextWaiter_ahead home line s
  have hn := nextWaiter_delivers h home line
  have hw : (nextWaiter home line s).NoDelivery := by
    rw [he]
    exact h
  exact hn.trans (wakeRoom_delivers hw home)

theorem purgeLine_delivers (h : s.NoDelivery) (p : Instr → Bool) (home line : Nat) :
    (purgeLine p home line s).NoDelivery ∧ s.DeliversOf (purgeLine p home line s) := by
  have hdrop : (s.modSline home line (fun l => { l with waiters := l.waiters.filter (fun e => !p e) })).NoDelivery :=
    h.modSline fun _ _ hx => List.mem_of_mem_filter hx
  unfold purgeLine
  dsimp only
  split
  · split
    · refine ⟨?_, afterTurn_delivers hdrop home line⟩
      obtain ⟨es, he⟩ := afterTurn_ahead home line (s.modSline home line (fun l => { l with waiters := l.waiters.filter (fun e => !p e) }))
      rw [he]
      exact hdrop
    · exact ⟨hdrop, fun _ _ _ _ hd => hd⟩
  · exact ⟨h, fun _ _ _ _ hd => hd⟩

theorem purges_delivers (h : s.NoDelivery) (e : Instr) (home first : Nat) (ks : List Nat) :
    (purges e home first ks s).NoDelivery ∧ s.DeliversOf (purges e home first ks s) := by
  induction ks generalizing s with
  | nil => exact ⟨h, fun _ _ _ _ hd => hd⟩
  | cons i ks ih =>
    obtain ⟨hn, hd⟩ := purgeLine_delivers h (fun x => x = e) home (first + i)
    obtain ⟨hns, hds⟩ := ih hn
    exact ⟨hns, hd.trans hds⟩

/-! ## Turns at an anchor slice -/

/-- What a request asks of a locket area's line where it does not look at the area. -/
def blindAsk (home base : Nat) : Ask := { home := home, line := fullsLine base, rcl := false, hold := false, note := false }

/-- The state in which such a request has its turn. -/
def blindTurn (e : Instr) (home base : Nat) (ks : List Nat) (s : State) : State :=
  (blindAsk home base).taken e (purges e home (base / 128) ks s)

theorem blindTurn_turned (e : Instr) (home base : Nat) (ks : List Nat) (s : State) : s.Turned (blindTurn e home base ks s) :=
  (purges_turned e home (base / 128) ks s).1.trans ((blindAsk home base).taken_turned e _)

theorem blindTurn_delivers (h : s.NoDelivery) (e : Instr) (home base : Nat) (ks : List Nat) :
    (blindTurn e home base ks s).NoDelivery ∧ s.DeliversOf (blindTurn e home base ks s) := by
  obtain ⟨hn, hd⟩ := purges_delivers h e home (base / 128) ks
  exact ⟨hn.modSline fun _ _ hx => List.mem_of_mem_erase hx, hd⟩

theorem anchorTurn_blind {base : Nat} {ks : List Nat} {k : State → Out} (hks : 64 ∉ ks)
    (hb : (s.sline home (base / 128 + 64)).state ≠ .busy)
    (hw : (s.sline home (base / 128 + 64)).waiters = [] ∨ (s.sline home (base / 128 + 64)).waiters.head? = some e)
    (hk : k (blindTurn e home base ks s) = .next t) :
    anchorTurn e home base ks false s k = .next (afterTurn home (base / 128 + 64) t) := by
  have hline := (purges_turned e home (base / 128) ks s).2 64 hks
  have hturn : (blindAsk home base).turn e (purges e home (base / 128) ks s) = true := by
    refine Ask.turn_of ?_ ?_
    · exact fun hc => hb (by rw [← hline]; exact hc)
    · rw [← hline] at hw
      exact hw
  refine (atSlice_performs (refuse := fun _ => none) hturn rfl rfl (.inl rfl)).trans ?_
  unfold blindTurn Ask.taken at hk
  rw [hk]
  rfl

theorem anchorTurn_looks {base : Nat} {ks : List Nat} {k : State → Out} (hks : (64 :: ks).Nodup)
    (hi : ∀ i ∈ 64 :: ks, s.Idle e (home, base / 128 + i))
    (hk : k (turns false e (inOrder ((64 :: ks).map (fun i => (home, base / 128 + i)))) s) = .next t) :
    ∃ es, anchorTurn e home base ks true s k = .next (t.ahead es) := by
  refine atSlices_done (hks.map fun i j h => ?_) (fun x hx => ?_) hk
  · simpa using h
  · obtain ⟨i, hi', rfl⟩ := List.mem_map.mp hx
    exact hi i hi'

end

/-! ## Residency records and saved full bits (R87, R209) -/

section
variable {s u : State} {home ctx base : Nat}

theorem resRecord_congr (h : (u.slice home).res = (s.slice home).res) : resRecord u home ctx base = resRecord s home ctx base := by
  unfold resRecord
  rw [h]

theorem fullMask_congr (h : (u.slice home).res = (s.slice home).res) (hm : u.mem = s.mem) :
    fullMask u home ctx base = fullMask s home ctx base := by
  unfold fullMask
  rw [resRecord_congr h, hm]

theorem fullMask_resident {r : ResRec} (h : resRecord s home ctx base = some r) : fullMask s home ctx base = r.mask := by
  unfold fullMask
  rw [h]

theorem fullMask_saved (h : resRecord s home ctx base = none) : fullMask s home ctx base = BitVec.ofNat 32 (s.mem.nat (base + 8192) 4) := by
  unfold fullMask
  rw [h]

/-- The record is the one of a locket area. -/
def ResRec.isOf (ctx base : Nat) (r : ResRec) : Bool := r.ctx = ctx && r.base = base

/-- A record's mask takes a new value. -/
theorem find_isOf_map {rs : List ResRec} {r : ResRec} (m : BitVec 32) (h : rs.find? (ResRec.isOf ctx base) = some r) :
    (rs.map (fun r => if r.isOf ctx base then { r with mask := m } else r)).find? (ResRec.isOf ctx base) = some { r with mask := m } := by
  induction rs with
  | nil => cases h
  | cons x rs ih =>
    rw [List.map_cons]
    by_cases hx : x.isOf ctx base = true
    · rw [List.find?_cons_of_pos hx] at h
      rw [if_pos hx, List.find?_cons_of_pos (by exact hx), ← Option.some.inj h]
    · rw [List.find?_cons_of_neg hx] at h
      rw [if_neg hx, List.find?_cons_of_neg hx]
      exact ih h

theorem resRecord_setRecordMask {r : ResRec} (m : BitVec 32) (h : resRecord s home ctx base = some r) :
    resRecord (setRecordMask home ctx base m s) home ctx base = some { r with mask := m } := by
  refine (congrArg (fun l : Slice => l.res.find? (ResRec.isOf ctx base)) (State.slice_modSlice (s := s) home home _)).trans ?_
  rw [if_pos rfl]
  exact find_isOf_map m h

end

/-! ## A request through a signet (R214) -/

/-- What the anchor slice does with a request in its turn. -/
def locketBody (q : LocketReq) (code : Nat) (look : Bool) (done : Nat → State → Out) (bad : Nat → State → Out) (s : State) : Out :=
  let g := q.sig
  let home := anchorSlice g
  let base := sigBase g
  if code ≠ 0 then done code s
  else if look && editRefused (base / 128) (locketEdits q 0) s then bad (refusedLine (base / 128) (locketEdits q 0) s) s
  else
    let m := if look then savedFulls home base s else (fullMask s home (sigCtx g) base, s)
    if strictlyFull g m.1 then done 3 m.2 else done 0 (applySignet q s)

/-- Its code, where none of the tests that do not look at the locket refuses it. -/
def fullCode (q : LocketReq) (full : BitVec 32) : Nat := if sigLatest q.sig = false ∧ full.getLsbD (sigLocket q.sig) = true then 3 else 0

/-- The requests through a signet. -/
def signetEvents (id : Nat) : List Instr := [.remoteWriteApply id, .tokenApply id]

section
variable {s u : State} {q : LocketReq} {done bad : Nat → State → Out}

theorem strictlyFull_eq (g : BitVec 128) (m : BitVec 32) :
    strictlyFull g m = decide (sigLatest g = false ∧ m.getLsbD (sigLocket g) = true) := by
  unfold strictlyFull
  rw [Bool.decide_and]
  cases sigLatest g
  · simp
  · simp

theorem locketBody_refused {code : Nat} {look : Bool} (h : code ≠ 0) : locketBody q code look done bad u = done code u := by
  unfold locketBody
  rw [if_pos h]

theorem locketBody_resident : locketBody q 0 false done bad u
    = if sigLatest q.sig = false ∧ (fullMask u (anchorSlice q.sig) (sigCtx q.sig) (sigBase q.sig)).getLsbD (sigLocket q.sig) = true
      then done 3 u else done 0 (applySignet q u) := by
  unfold locketBody
  simp only [ne_eq, not_true_eq_false, if_false, Bool.false_and, Bool.false_eq_true, strictlyFull_eq, decide_eq_true_eq]

theorem locketBody_saved {m : BitVec 32} (hr : editRefused (sigBase q.sig / 128) (locketEdits q 0) u = false)
    (hm : savedFulls (anchorSlice q.sig) (sigBase q.sig) u = (m, u)) : locketBody q 0 true done bad u
    = if sigLatest q.sig = false ∧ m.getLsbD (sigLocket q.sig) = true then done 3 u else done 0 (applySignet q u) := by
  unfold locketBody
  simp only [ne_eq, not_true_eq_false, if_false, Bool.true_and, hr, Bool.false_eq_true, hm, if_true, strictlyFull_eq,
    decide_eq_true_eq]

theorem locketBody_bad (hr : editRefused (sigBase q.sig / 128) (locketEdits q 0) u = true) :
    locketBody q 0 true done bad u = bad (refusedLine (sigBase q.sig / 128) (locketEdits q 0) u) u := by
  unfold locketBody
  simp only [ne_eq, not_true_eq_false, if_false, Bool.true_and, hr, if_true]

/-! ## What a request writes into a saved area -/

theorem lanesOf_rising (m : Mask) : (lanesOf m).Pairwise (· < ·) := List.pairwise_lt_range.filter _

theorem zip_rising {xs : List Nat} {ys : List Word} (h : xs.Pairwise (· < ·)) : (xs.zip ys).Pairwise (fun a b => a.1 < b.1) := by
  induction xs generalizing ys with
  | nil => simp
  | cons x xs ih =>
    cases ys with
    | nil => simp
    | cons y ys =>
      obtain ⟨hx, hxs⟩ := List.pairwise_cons.mp h
      exact List.pairwise_cons.mpr ⟨fun a ha => hx _ (List.of_mem_zip (a := a.1) (b := a.2) ha).1, ih hxs⟩

/-- The write of a lane's word. -/
def laneEdit (q : LocketReq) (e : Nat × Word) : Edit := ⟨256 * sigLocket q.sig + 4 * e.1, leBytes 4 e.2.toNat⟩

/-- The write of the saved full bits. -/
def fullEdit (q : LocketReq) (m : BitVec 32) : Edit := ⟨8192, leBytes 4 (m ||| BitVec.ofNat 32 (2 ^ sigLocket q.sig)).toNat⟩

theorem locketEdits_eq (q : LocketReq) (m : BitVec 32) :
    locketEdits q m = ((lanesOf q.lmask).zip q.values).map (laneEdit q) ++ [fullEdit q m] := rfl

theorem sigLocket_lt (g : BitVec 128) : sigLocket g < 32 := Nat.mod_lt _ (by omega)

theorem lane_lt {x : Nat × Word} (h : x ∈ (lanesOf q.lmask).zip q.values) : x.1 < 64 :=
  (mem_lanesOf.mp (List.of_mem_zip (a := x.1) (b := x.2) h).1).1

theorem mem_locketEdits {m : BitVec 32} {x : Edit} (h : x ∈ locketEdits q m) :
    x.bytes.length = 4 ∧ ((∃ l, l < 64 ∧ x.off = 256 * sigLocket q.sig + 4 * l) ∨ x.off = 8192) := by
  rw [locketEdits_eq, List.mem_append, List.mem_singleton, List.mem_map] at h
  obtain ⟨e, he, rfl⟩ | rfl := h
  · exact ⟨leBytes_length .., .inl ⟨e.1, lane_lt he, rfl⟩⟩
  · exact ⟨leBytes_length .., .inr rfl⟩

theorem locketEdits_apart (q : LocketReq) (m : BitVec 32) :
    (locketEdits q m).Pairwise (fun x y => x.off + x.bytes.length ≤ y.off ∨ y.off + y.bytes.length ≤ x.off) := by
  have hj := sigLocket_lt q.sig
  rw [locketEdits_eq]
  refine List.pairwise_append.mpr ⟨List.pairwise_map.mpr ((zip_rising (lanesOf_rising _)).imp fun {a b} h => ?_),
    List.pairwise_singleton .., fun x hx y hy => ?_⟩
  · simp only [laneEdit, leBytes_length]
    omega
  · obtain ⟨e, he, rfl⟩ := List.mem_map.mp hx
    obtain rfl := List.mem_singleton.mp hy
    have hl := lane_lt he
    simp only [laneEdit, fullEdit, leBytes_length]
    omega

/-- The lines of a saved area that a request writes. -/
theorem mem_locketLines {m : BitVec 32} {k : Nat} (h : k ∈ editLines (locketEdits q m)) :
    k ∈ [64, 2 * sigLocket q.sig, 2 * sigLocket q.sig + 1] := by
  obtain ⟨e, he, _, hlo, hhi⟩ := mem_editLines.mp h
  obtain ⟨hlen, ⟨l, hl, hoff⟩ | hoff⟩ := mem_locketEdits he
  · simp only [List.mem_cons, List.not_mem_nil, or_false]
    omega
  · simp only [List.mem_cons, List.not_mem_nil, or_false]
    omega

theorem editAt_locketWord {m : BitVec 32} {off v a : Nat} (he : (⟨off, leBytes 4 v⟩ : Edit) ∈ locketEdits q m) (h : off ≤ a ∧ a < off + 4) :
    editAt (locketEdits q m) a = some (BitVec.ofNat 8 (v / 256 ^ (a - off))) := by
  rw [editAt_of_mem (locketEdits_apart q m) he (by rw [leBytes_length]; exact h)]
  show (leBytes 4 v)[a - off]? = _
  rw [leBytes_getElem?, if_pos (by omega)]

/-- A word of a block that a request has written. -/
theorem nat_of_locketWord {m : BitVec 32} {first off v : Nat} {t : State} (he : (⟨off, leBytes 4 v⟩ : Edit) ∈ locketEdits q m)
    (hb : ∀ a, t.mem.byte a = (if 128 * first ≤ a then editAt (locketEdits q m) (a - 128 * first) else none).getD (s.mem.byte a)) :
    t.mem.nat (128 * first + off) 4 = v % 2 ^ 32 := by
  refine Memory.nat_of_bytes fun i hi => ?_
  rw [hb, if_pos (by omega), editAt_locketWord he (by omega), show 128 * first + off + i - 128 * first - off = i by omega]
  rfl

theorem byte_of_locketOutside {m : BitVec 32} {first a : Nat} {t : State}
    (hb : ∀ a, t.mem.byte a = (if 128 * first ≤ a then editAt (locketEdits q m) (a - 128 * first) else none).getD (s.mem.byte a))
    (hl : a < 128 * first + 256 * sigLocket q.sig ∨ 128 * first + 256 * sigLocket q.sig + 256 ≤ a)
    (hf : a < 128 * first + 8192 ∨ 128 * first + 8196 ≤ a) : t.mem.byte a = s.mem.byte a := by
  rw [hb]
  split
  · rw [editAt_eq_none]
    · rfl
    · intro e he hc
      obtain ⟨hlen, ⟨l, hl', hoff⟩ | hoff⟩ := mem_locketEdits he
      · omega
      · omega
  · rfl

/-! ## The word of saved full bits -/

theorem leNat_append (xs ys : List Byte) : leNat (xs ++ ys) = leNat xs + 256 ^ xs.length * leNat ys := by
  induction xs with
  | nil => simp [leNat]
  | cons x xs ih =>
    rw [List.cons_append, leNat, leNat, ih, List.length_cons, Nat.pow_succ', Nat.mul_assoc]
    omega

theorem Memory.read_append (m : Memory) (a n k : Nat) : m.read a (n + k) = m.read a n ++ m.read (a + n) k := by
  unfold Memory.read
  rw [List.range_add, List.map_append, List.map_map]
  refine congrArg (_ ++ ·) (List.map_congr_left fun i _ => ?_)
  rw [Function.comp_apply, Nat.add_assoc]

/-- The first word of a line. -/
theorem line_word (m : Memory) (line : Nat) : (m.line line).setWidth 32 = BitVec.ofNat 32 (m.nat (128 * line) 4) := by
  apply BitVec.eq_of_toNat_eq
  have hlen : (m.read (128 * line) 4).length = 4 := by simp [Memory.read]
  unfold Memory.line bitsOfBytes Memory.nat
  rw [show (128 : Nat) = 4 + 124 from rfl, Memory.read_append, leNat_append, hlen, BitVec.toNat_setWidth, BitVec.toNat_ofNat,
    BitVec.toNat_ofNat, Nat.mod_mod_of_dvd _ (Nat.pow_dvd_pow 2 (by omega : 32 ≤ 1024)), show (256 : Nat) ^ 4 = 2 ^ 32 from rfl,
    Nat.add_mul_mod_self_left]

theorem savedFulls_single {home base : Nat} (h : mixedHome u home (fullsLine base) = false) (hb : base % 128 = 0) :
    savedFulls home base u = (BitVec.ofNat 32 (u.mem.nat (base + 8192) 4), u) := by
  unfold savedFulls homeData
  rw [h]
  dsimp only
  rw [if_neg Bool.false_ne_true, line_word, show 128 * fullsLine base = base + 8192 by unfold fullsLine; omega]

end

/-! ## Replies of an anchor slice -/

/-- The reply to a sender is on its way, with a code. -/
def State.Tells (t : State) (id code : Nat) : Prop :=
  t.answered id 0 (fun q => q.done = true)
    ∧ (t.ops.find? id).map (fun x => (x.code, x.data.get 0 0)) = some (code, BitVec.ofNat 64 code)

/-- An operation whose production has a code. -/
def Op.coded (code : Nat) (o : Op) : Op := { o with code := code, data := o.data.set 0 (BitVec.ofNat 64 code) }

section
variable {s t u : State} {id : Nat} {o : Op} {p : Part}

theorem State.Tells.ahead {code : Nat} (h : t.Tells id code) (es : List Instr) : (t.ahead es).Tells id code := ⟨h.1.ahead es, h.2⟩

theorem reqPart_modOp {f : Op → Op} (hf : ∀ o, (f o).parts = o.parts) (h : u.reqPart ⟨id, 0⟩ = some (o, p)) :
    (u.modOp id f).reqPart ⟨id, 0⟩ = some (f o, p) := by
  obtain ⟨ho, hp⟩ := State.reqPart_eq_some.mp h
  refine State.reqPart_eq_some.mpr ⟨?_, (hf o).symm ▸ hp⟩
  rw [State.find?_modOp, if_pos rfl, ho]
  rfl

theorem replyCode_tells (code : Nat) (h : u.reqPart ⟨id, 0⟩ = some (o, p)) : (replyCode id code u).Tells id code := by
  have hcoded := reqPart_modOp (f := Op.coded code) (fun _ => rfl) h
  refine ⟨partDone_answered (r := ⟨id, 0⟩) (f := fun p => p) hcoded rfl, ?_⟩
  have hop := answerPart_op (r := ⟨id, 0⟩) (f := fun p => { p with done := true }) hcoded
  refine (congrArg (Option.map _) hop).trans (congrArg some (Prod.ext rfl ?_))
  exact Tab.get_set_self ..

theorem res_of_slices (h : u.slices = s.slices) (home : Nat) : (u.slice home).res = (s.slice home).res := by
  unfold State.slice
  rw [h]

/-- A reply leaves everything but operations, requests and the agenda as it was. -/
theorem replyCode_keeps (id code : Nat) (u : State) : (replyCode id code u).mem = u.mem ∧ (replyCode id code u).slices = u.slices
    ∧ (replyCode id code u).agenda = u.agenda ++ [.replyArrival ⟨id, 0⟩] := ⟨rfl, rfl, rfl⟩

/-! ## Requests through a signet -/

variable {e : Instr}

theorem signetCode_eq (s : State) (q : LocketReq) : signetCode s q
    = if sigPlcy q.sig = 3 ∨ sigWidth q.sig = 3 ∨ macOf s q.sig ≠ sigMac q.sig then 1
      else if ¬ ((s.context (sigCtx q.sig)).live = true ∧ (s.context (sigCtx q.sig)).gen = sigGen q.sig) then 2
      else if ∃ w, q.width = some w ∧ widthCode w ≠ sigWidth q.sig then 4
      else if ∃ sc, q.scope = some sc
          ∧ sc < reachOf q.sender (resRecord s (anchorSlice q.sig) (sigCtx q.sig) (sigBase q.sig)) then 5
      else 0 := by
  unfold signetCode sigLive
  dsimp only
  refine if_congr (by simp [or_assoc]) rfl (if_congr (by simp [imp_iff_not_or]) rfl (if_congr ?_ rfl (if_congr ?_ rfl rfl)))
  · simp [Option.any_eq_true]
  · simp [Option.any_eq_true]

/-- The request does not look at the saved area: it is refused before, or the warp is resident. -/
def locketLooks (s : State) (q : LocketReq) : Bool :=
  decide (signetCode s q = 0) && (resRecord s (anchorSlice q.sig) (sigCtx q.sig) (sigBase q.sig)).isNone

theorem exec_signet (he : e ∈ signetEvents id) (h : s.reqPart ⟨id, 0⟩ = some (o, p)) (hs : p.sent = true) :
    exec e s = anchorTurn e (anchorSlice (reqOfOp o).sig) (sigBase (reqOfOp o).sig)
      [2 * sigLocket (reqOfOp o).sig, 2 * sigLocket (reqOfOp o).sig + 1] (locketLooks s (reqOfOp o)) (s.arrive ⟨id, 0⟩)
      (locketBody (reqOfOp o) (signetCode s (reqOfOp o)) (locketLooks s (reqOfOp o)) (fun code s => .next (replyCode id code s))
        (fun line s => .next (areaError id o line s))) := by
  have hop : exec e s = locketOp id e s := by
    simp only [signetEvents, List.mem_cons, List.not_mem_nil, or_false] at he
    obtain rfl | rfl := he
    · rfl
    · rfl
  rw [hop]
  unfold locketOp
  rw [request_arrives h hs]
  rfl

/-- The state in which a request that does not look at the area has its turn. -/
def signetTurn (e : Instr) (id : Nat) (g : BitVec 128) (s : State) : State :=
  blindTurn e (anchorSlice g) (sigBase g) [2 * sigLocket g, 2 * sigLocket g + 1] (s.arrive ⟨id, 0⟩)

theorem signetTurn_turned (e : Instr) (id : Nat) (g : BitVec 128) (s : State) :
    (s.arrive ⟨id, 0⟩).Turned (signetTurn e id g s) := blindTurn_turned ..

theorem signetTurn_part (h : s.reqPart ⟨id, 0⟩ = some (o, p)) (e : Instr) (g : BitVec 128) :
    (signetTurn e id g s).reqPart ⟨id, 0⟩ = some (o, p) := reqPart_congr (signetTurn_turned e id g s).ops h

/-- A request that does not look at the area is answered at the line of its word of saved bits (R85). -/
theorem exec_signet_blind (he : e ∈ signetEvents id) (h : s.reqPart ⟨id, 0⟩ = some (o, p)) (hs : p.sent = true)
    (hlook : locketLooks s (reqOfOp o) = false)
    (hb : (s.sline (anchorSlice (reqOfOp o).sig) (sigBase (reqOfOp o).sig / 128 + 64)).state ≠ .busy)
    (hw : (s.sline (anchorSlice (reqOfOp o).sig) (sigBase (reqOfOp o).sig / 128 + 64)).waiters = []
      ∨ (s.sline (anchorSlice (reqOfOp o).sig) (sigBase (reqOfOp o).sig / 128 + 64)).waiters.head? = some e)
    (hk : locketBody (reqOfOp o) (signetCode s (reqOfOp o)) false (fun code s => .next (replyCode id code s))
      (fun line s => .next (areaError id o line s)) (signetTurn e id (reqOfOp o).sig s) = .next t) :
    exec e s = .next (afterTurn (anchorSlice (reqOfOp o).sig) (sigBase (reqOfOp o).sig / 128 + 64) t) := by
  have hj := sigLocket_lt (reqOfOp o).sig
  rw [exec_signet he h hs, hlook]
  refine anchorTurn_blind ?_ hb hw hk
  simp only [List.mem_cons, List.not_mem_nil, or_false]
  omega

/-- What a refusal through a signet leaves as it was. -/
theorem signet_refused (h : u.reqPart ⟨id, 0⟩ = some (o, p)) (code home line : Nat) :
    (afterTurn home line (replyCode id code u)).Tells id code ∧ (afterTurn home line (replyCode id code u)).mem = u.mem
      ∧ (∀ h, ((afterTurn home line (replyCode id code u)).slice h).res = (u.slice h).res)
      ∧ (u.NoDelivery → u.DeliversOf (afterTurn home line (replyCode id code u))) := by
  obtain ⟨es, hes⟩ := afterTurn_ahead home line (replyCode id code u)
  obtain ⟨hm, hsl, ha⟩ := replyCode_keeps id code u
  refine ⟨?_, ?_, fun h => ?_, fun hn => ?_⟩
  · rw [hes]
    exact (replyCode_tells code h).ahead es
  · rw [hes, State.ahead_mem, hm]
  · rw [hes, State.ahead_slice]
    exact res_of_slices hsl h
  · have hreply : u.DeliversOf (replyCode id code u) := by
      intro w n k v hd
      rw [ha, List.mem_append] at hd
      exact hd.resolve_right (by simp)
    exact hreply.trans (afterTurn_delivers (s := replyCode id code u) hn home line)

/-- A resident warp's locket: its full bit is set, and the delivery is on its way (R207, R214). -/
theorem signet_delivered {r : ResRec} (h : u.reqPart ⟨id, 0⟩ = some (o, p)) (q : LocketReq) (home line : Nat)
    (hr : resRecord u (anchorSlice q.sig) (sigCtx q.sig) (sigBase q.sig) = some r)
    (ht : t = afterTurn home line (replyCode id 0 (applySignet q u))) :
    t.Tells id 0 ∧ t.mem = u.mem
      ∧ fullMask t (anchorSlice q.sig) (sigCtx q.sig) (sigBase q.sig) = r.mask ||| BitVec.ofNat 32 (2 ^ sigLocket q.sig)
      ∧ Instr.locketDelivery r.warp (sigLocket q.sig) q.lmask q.values ∈ t.agenda := by
  obtain ⟨v, hv⟩ : ∃ v, setRecordMask (anchorSlice q.sig) (sigCtx q.sig) (sigBase q.sig)
    (r.mask ||| BitVec.ofNat 32 (2 ^ sigLocket q.sig)) u = v := ⟨_, rfl⟩
  have happly : applySignet q u = v.push [.locketDelivery r.warp (sigLocket q.sig) q.lmask q.values] := by
    unfold applySignet
    simp only [hr, hv]
  have hmask := fullMask_resident (resRecord_setRecordMask (r.mask ||| BitVec.ofNat 32 (2 ^ sigLocket q.sig)) hr)
  rw [hv] at hmask
  obtain ⟨hm, hsl, ha⟩ := replyCode_keeps id 0 (v.push [.locketDelivery r.warp (sigLocket q.sig) q.lmask q.values])
  obtain ⟨es, hes⟩ := afterTurn_ahead home line (replyCode id 0 (v.push [.locketDelivery r.warp (sigLocket q.sig) q.lmask q.values]))
  rw [ht, happly, hes]
  have hpart : (v.push [.locketDelivery r.warp (sigLocket q.sig) q.lmask q.values]).reqPart ⟨id, 0⟩ = some (o, p) := by
    rw [← hv]
    exact h
  have hmem : v.mem = u.mem := by
    rw [← hv]
    rfl
  refine ⟨(replyCode_tells 0 hpart).ahead es, ?_, ?_, State.mem_ahead ?_ es⟩
  · rw [State.ahead_mem, hm]
    exact hmem
  · exact (fullMask_congr (s := v) (res_of_slices (u := (replyCode id 0 _).ahead es) hsl _) hm).trans hmask
  · rw [ha]
    simp

end

/-! ## Requests that do not look at the saved area -/

/-- The code of a request through a signet (R214). -/
def signetAnswer (s : State) (q : LocketReq) (full : BitVec 32) : Nat := if signetCode s q ≠ 0 then signetCode s q else fullCode q full

section
variable {s t u : State} {id : Nat} {o : Op} {p : Part} {e : Instr}

theorem locketLooks_false {q : LocketReq}
    (h : signetCode s q ≠ 0 ∨ resRecord s (anchorSlice q.sig) (sigCtx q.sig) (sigBase q.sig) ≠ none) : locketLooks s q = false := by
  unfold locketLooks
  obtain h | h := h
  · simp [h]
  · simp [Option.isNone_eq_false_iff, Option.isSome_iff_ne_none.mpr h]

/-- A request that is refused before it looks at the area, or reaches a resident warp (R207, R209, R214). -/
theorem exec_signet_unlooked {q : LocketReq} (hq : reqOfOp o = q) (he : e ∈ signetEvents id) (h : s.reqPart ⟨id, 0⟩ = some (o, p))
    (hs : p.sent = true) (hlook : signetCode s q ≠ 0 ∨ resRecord s (anchorSlice q.sig) (sigCtx q.sig) (sigBase q.sig) ≠ none)
    (hb : (s.sline (anchorSlice q.sig) (sigBase q.sig / 128 + 64)).state ≠ .busy)
    (hw : (s.sline (anchorSlice q.sig) (sigBase q.sig / 128 + 64)).waiters = []
      ∨ (s.sline (anchorSlice q.sig) (sigBase q.sig / 128 + 64)).waiters.head? = some e)
    {full : BitVec 32} (hfull : fullMask s (anchorSlice q.sig) (sigCtx q.sig) (sigBase q.sig) = full) :
    ∃ t, exec e s = .next t ∧ t.Tells id (signetAnswer s q full) ∧ (∀ a, t.mem.byte a = s.mem.byte a)
      ∧ (signetAnswer s q full ≠ 0 → (t.slice (anchorSlice q.sig)).res = (s.slice (anchorSlice q.sig)).res
        ∧ (s.NoDelivery → s.DeliversOf t))
      ∧ (signetAnswer s q full = 0 →
        fullMask t (anchorSlice q.sig) (sigCtx q.sig) (sigBase q.sig) = full ||| BitVec.ofNat 32 (2 ^ sigLocket q.sig)
        ∧ ∀ r, resRecord s (anchorSlice q.sig) (sigCtx q.sig) (sigBase q.sig) = some r →
          Instr.locketDelivery r.warp (sigLocket q.sig) q.lmask q.values ∈ t.agenda) := by
  subst hq
  have hturned := signetTurn_turned e id (reqOfOp o).sig s
  have hdeliver (hn : s.NoDelivery) := blindTurn_delivers (s := s.arrive ⟨id, 0⟩) hn e (anchorSlice (reqOfOp o).sig)
    (sigBase (reqOfOp o).sig) [2 * sigLocket (reqOfOp o).sig, 2 * sigLocket (reqOfOp o).sig + 1]
  have hpart := signetTurn_part h e (reqOfOp o).sig
  have hexec {t : State} := exec_signet_blind (t := t) he h hs (locketLooks_false hlook) hb hw
  obtain ⟨u, hu⟩ : ∃ u, signetTurn e id (reqOfOp o).sig s = u := ⟨_, rfl⟩
  change ∀ hn : s.NoDelivery, (signetTurn e id (reqOfOp o).sig s).NoDelivery ∧ s.DeliversOf (signetTurn e id (reqOfOp o).sig s) at hdeliver
  rw [hu] at hturned hpart hexec hdeliver
  have hfull' : fullMask u (anchorSlice (reqOfOp o).sig) (sigCtx (reqOfOp o).sig) (sigBase (reqOfOp o).sig) = full :=
    (fullMask_congr (hturned.res _) hturned.mem).trans hfull
  have hrefused {c : Nat} (hc : c ≠ 0) (hbody : locketBody (reqOfOp o) (signetCode s (reqOfOp o)) false
        (fun code s => .next (replyCode id code s)) (fun line s => .next (areaError id o line s)) u = .next (replyCode id c u)) :
      ∃ t, exec e s = .next t ∧ t.Tells id c ∧ (∀ a, t.mem.byte a = s.mem.byte a)
        ∧ (t.slice (anchorSlice (reqOfOp o).sig)).res = (s.slice (anchorSlice (reqOfOp o).sig)).res
        ∧ (s.NoDelivery → s.DeliversOf t) := by
    obtain ⟨htells, hm, hres, hd⟩ := signet_refused hpart c (anchorSlice (reqOfOp o).sig) (sigBase (reqOfOp o).sig / 128 + 64)
    exact ⟨_, hexec hbody, htells, fun a => congrArg (Memory.byte · a) (hm.trans hturned.mem), (hres _).trans (hturned.res _),
      fun hn => (hdeliver hn).2.trans (hd (hdeliver hn).1)⟩
  unfold signetAnswer
  by_cases hcode : signetCode s (reqOfOp o) = 0
  · obtain ⟨r, hr⟩ := Option.ne_none_iff_exists'.mp (hlook.resolve_left (not_not_intro hcode))
    have hur : resRecord u (anchorSlice (reqOfOp o).sig) (sigCtx (reqOfOp o).sig) (sigBase (reqOfOp o).sig) = some r :=
      (resRecord_congr (hturned.res _)).trans hr
    rw [if_neg (not_not_intro hcode)]
    rw [hcode] at hrefused hexec
    unfold fullCode
    by_cases hstrict : sigLatest (reqOfOp o).sig = false ∧ full.getLsbD (sigLocket (reqOfOp o).sig) = true
    · rw [if_pos hstrict]
      obtain ⟨t, hex, htells, hm, hres, hd⟩ := hrefused (c := 3) (by omega)
        (locketBody_resident.trans (by rw [hfull', if_pos hstrict]))
      exact ⟨t, hex, htells, hm, fun _ => ⟨hres, hd⟩, fun hz => absurd hz (by omega)⟩
    · rw [if_neg hstrict]
      obtain ⟨htells, hm, hmask, hd⟩ := signet_delivered hpart (reqOfOp o) (anchorSlice (reqOfOp o).sig)
        (sigBase (reqOfOp o).sig / 128 + 64) hur rfl
      refine ⟨_, hexec (locketBody_resident.trans (by rw [hfull', if_neg hstrict])), htells,
        fun a => congrArg (Memory.byte · a) (hm.trans hturned.mem), fun hz => absurd rfl hz, fun _ => ⟨?_, fun r' hr' => ?_⟩⟩
      · rw [hmask, ← hfull, fullMask_resident hr]
      · obtain rfl : r = r' := Option.some.inj (hr.symm.trans hr')
        exact hd
  · rw [if_pos hcode]
    obtain ⟨t, hex, htells, hm, hres, hd⟩ := hrefused hcode (locketBody_refused hcode)
    exact ⟨t, hex, htells, hm, fun _ => ⟨hres, hd⟩, fun hz => absurd hz hcode⟩

/-! ## Requests that look at the saved area -/

/-- The lines of a saved area that a request through a signet takes together. -/
def signetLines (q : LocketReq) : List (Nat × Nat) :=
  (64 :: [2 * sigLocket q.sig, 2 * sigLocket q.sig + 1]).map (fun i => (anchorSlice q.sig, sigBase q.sig / 128 + i))

theorem locketLooks_true {q : LocketReq} (hcode : signetCode s q = 0)
    (hr : resRecord s (anchorSlice q.sig) (sigCtx q.sig) (sigBase q.sig) = none) : locketLooks s q = true := by
  unfold locketLooks
  simp [hcode, hr]

/-- The state in which such a request has its turn. -/
def savedTurn (e : Instr) (id : Nat) (q : LocketReq) (s : State) : State := turns false e (inOrder (signetLines q)) (s.arrive ⟨id, 0⟩)

theorem savedTurn_turned (e : Instr) (id : Nat) (q : LocketReq) (s : State) : (s.arrive ⟨id, 0⟩).Turned (savedTurn e id q s) :=
  turns_turned ..

theorem State.Idle.arrive {x : Nat × Nat} (h : s.Idle e x) (r : Req) : (s.arrive r).Idle e x := ⟨h.busy, h.inv, h.uo, h.turn⟩

theorem exec_signet_looks (he : e ∈ signetEvents id) (h : s.reqPart ⟨id, 0⟩ = some (o, p)) (hs : p.sent = true)
    (hcode : signetCode s (reqOfOp o) = 0)
    (hr : resRecord s (anchorSlice (reqOfOp o).sig) (sigCtx (reqOfOp o).sig) (sigBase (reqOfOp o).sig) = none)
    (hi : ∀ x ∈ signetLines (reqOfOp o), s.Idle e x)
    (hk : locketBody (reqOfOp o) 0 true (fun code s => .next (replyCode id code s)) (fun line s => .next (areaError id o line s))
      (savedTurn e id (reqOfOp o) s) = .next t) : ∃ es, exec e s = .next (t.ahead es) := by
  have hj := sigLocket_lt (reqOfOp o).sig
  rw [exec_signet he h hs, locketLooks_true hcode hr, hcode]
  refine anchorTurn_looks ?_ (fun i hi' => (hi _ (List.mem_map_of_mem hi')).arrive ⟨id, 0⟩) hk
  simp only [List.nodup_cons, List.mem_cons, List.not_mem_nil, or_false, not_false_eq_true, List.nodup_nil, and_true]
  omega

theorem mem_signetLines {q : LocketReq} {m : BitVec 32} {k : Nat} (h : k ∈ editLines (locketEdits q m)) :
    (anchorSlice q.sig, sigBase q.sig / 128 + k) ∈ signetLines q := List.mem_map_of_mem (mem_locketLines h)

theorem editRefused_sound {q : LocketReq} {m : BitVec 32} (h : ∀ x ∈ signetLines q, poisoned u x.2 = false) :
    editRefused (sigBase q.sig / 128) (locketEdits q m) u = false := by
  unfold editRefused
  rw [List.any_eq_false]
  intro k hk
  simp [h _ (mem_signetLines hk)]

theorem noteLate_teams (q : LocketReq) (s : State) : ∃ ts, noteLate q s = { s with teams := ts } := by
  have hwarps (t : Nat × Team) (ws : List (Nat × Warp)) (s : State) : ∃ ts, ws.foldl (fun s w =>
      if t.2.status = .saving && w.2.anchor = some (anchorSlice q.sig, sigBase q.sig) && !w.2.flushed then
        s.modWarp ⟨t.1, w.1⟩ (fun x => { x with late := x.late ++ [(sigLocket q.sig, q.lmask, q.values)] })
      else s) s = { s with teams := ts } := by
    induction ws generalizing s with
    | nil => exact ⟨s.teams, rfl⟩
    | cons w ws ih =>
      rw [List.foldl_cons]
      split
      · obtain ⟨ts, ht⟩ := ih (s.modWarp ⟨t.1, w.1⟩ (fun x => { x with late := x.late ++ [(sigLocket q.sig, q.lmask, q.values)] }))
        exact ⟨ts, ht⟩
      · exact ih s
  have hteams (tms : List (Nat × Team)) (s : State) : ∃ ts, tms.foldl (fun s t => t.2.warps.foldl (fun s w =>
      if t.2.status = .saving && w.2.anchor = some (anchorSlice q.sig, sigBase q.sig) && !w.2.flushed then
        s.modWarp ⟨t.1, w.1⟩ (fun x => { x with late := x.late ++ [(sigLocket q.sig, q.lmask, q.values)] })
      else s) s) s = { s with teams := ts } := by
    induction tms generalizing s with
    | nil => exact ⟨s.teams, rfl⟩
    | cons t tms ih =>
      rw [List.foldl_cons]
      obtain ⟨ts, ht⟩ := hwarps t t.2.warps s
      rw [ht]
      obtain ⟨ts', ht'⟩ := ih { s with teams := ts }
      exact ⟨ts', ht'⟩
  exact hteams s.teams s

theorem applySignet_saved {q : LocketReq} {m : BitVec 32} (hr : resRecord u (anchorSlice q.sig) (sigCtx q.sig) (sigBase q.sig) = none)
    (hm : savedFulls (anchorSlice q.sig) (sigBase q.sig) u = (m, u)) :
    applySignet q u = noteLate q (writeBlock (anchorSlice q.sig) (sigBase q.sig / 128) (locketEdits q m) u) := by
  unfold applySignet
  simp only [hr, hm]

theorem sigBase_block (g : BitVec 128) : 128 * (sigBase g / 128) = sigBase g ∧ sigBase g % 128 = 0 := by
  unfold sigBase
  omega

/-- What a request's write into a saved area comes to: the lanes' words and the locket's full bit, and nothing else. -/
theorem signet_written {q : LocketReq} {m : BitVec 32} (hwf : u.mem.wf = true) (hsteady : Steady (signetLines q) u)
    (hsound : ∀ x ∈ signetLines q, x.2 ∉ u.poison) {v : State}
    (hv : writeBlock (anchorSlice q.sig) (sigBase q.sig / 128) (locketEdits q m) u = v) :
    v.ops = u.ops ∧ (∀ h, (v.slice h).res = (u.slice h).res)
      ∧ BitVec.ofNat 32 (v.mem.nat (sigBase q.sig + 8192) 4) = m ||| BitVec.ofNat 32 (2 ^ sigLocket q.sig)
      ∧ (∀ x ∈ (lanesOf q.lmask).zip q.values, v.mem.nat (sigBase q.sig + 256 * sigLocket q.sig + 4 * x.1) 4 = x.2.toNat)
      ∧ ∀ a, (a < sigBase q.sig + 256 * sigLocket q.sig ∨ sigBase q.sig + 256 * sigLocket q.sig + 256 ≤ a) →
          (a < sigBase q.sig + 8192 ∨ sigBase q.sig + 8196 ≤ a) → v.mem.byte a = u.mem.byte a := by
  obtain ⟨hbase, _⟩ := sigBase_block q.sig
  obtain ⟨hw, hb⟩ := writeBlock_wrote (home := anchorSlice q.sig) (first := sigBase q.sig / 128) (es := locketEdits q m) hwf hsteady
    (fun k hk => mem_signetLines hk) (fun k hk => hsound _ (mem_signetLines hk))
  rw [hv] at hw hb
  refine ⟨hw.ops, hw.res, ?_, fun x hx => ?_, fun a hl hf => ?_⟩
  · have hword := nat_of_locketWord (q := q) (m := m) (off := 8192) (by rw [locketEdits_eq]; exact List.mem_append_right _ (List.mem_singleton.mpr rfl)) hb
    rw [hbase] at hword
    rw [hword]
    apply BitVec.eq_of_toNat_eq
    rw [BitVec.toNat_ofNat, Nat.mod_mod, Nat.mod_eq_of_lt (BitVec.isLt _)]
  · have hword := nat_of_locketWord (q := q) (m := m) (off := 256 * sigLocket q.sig + 4 * x.1)
      (by rw [locketEdits_eq]; exact List.mem_append_left _ (List.mem_map_of_mem (f := laneEdit q) hx)) hb
    rw [hbase, Nat.mod_eq_of_lt x.2.isLt] at hword
    rw [Nat.add_assoc, hword]
  · exact byte_of_locketOutside hb (by rw [hbase]; exact hl) (by rw [hbase]; exact hf)

theorem served_lines {ls : List (Nat × Nat)} (h : s.servedAll ls e) {r : Req} {ks : List (Nat × Nat)} (hks : ∀ x ∈ ks, x ∈ ls) :
    Steady ls (turns false e ks (s.arrive r)) :=
  Steady.turns h.one hks (Steady.congr (s := s) (u := s.arrive r) h.steady rfl rfl fun _ _ => rfl)

/-- A request for a saved area, in its turn at its lines (R85, R209, R214). -/
theorem exec_signet_saved {q : LocketReq} (hq : reqOfOp o = q) (hwf : s.mem.wf = true) (he : e ∈ signetEvents id)
    (h : s.reqPart ⟨id, 0⟩ = some (o, p)) (hs : p.sent = true) (hcode : signetCode s q = 0)
    (hr : resRecord s (anchorSlice q.sig) (sigCtx q.sig) (sigBase q.sig) = none) (hv : s.servedAll (signetLines q) e)
    {full : BitVec 32} (hfull : fullMask s (anchorSlice q.sig) (sigCtx q.sig) (sigBase q.sig) = full) :
    ∃ t, exec e s = .next t ∧ t.Tells id (signetAnswer s q full)
      ∧ (t.slice (anchorSlice q.sig)).res = (s.slice (anchorSlice q.sig)).res
      ∧ (signetAnswer s q full ≠ 0 → ∀ a, t.mem.byte a = s.mem.byte a)
      ∧ (signetAnswer s q full = 0 →
        fullMask t (anchorSlice q.sig) (sigCtx q.sig) (sigBase q.sig) = full ||| BitVec.ofNat 32 (2 ^ sigLocket q.sig)
        ∧ (∀ x ∈ (lanesOf q.lmask).zip q.values, t.mem.nat (sigBase q.sig + 256 * sigLocket q.sig + 4 * x.1) 4 = x.2.toNat)
        ∧ ∀ a, (a < sigBase q.sig + 256 * sigLocket q.sig ∨ sigBase q.sig + 256 * sigLocket q.sig + 256 ≤ a) →
            (a < sigBase q.sig + 8192 ∨ sigBase q.sig + 8196 ≤ a) → t.mem.byte a = s.mem.byte a) := by
  subst hq
  have hturned := savedTurn_turned e id (reqOfOp o) s
  have hsteady : Steady (signetLines (reqOfOp o)) (savedTurn e id (reqOfOp o) s) := served_lines hv fun x hx => mem_inOrder.mp hx
  have hexec {t : State} := exec_signet_looks (t := t) he h hs hcode hr fun x hx => (hv.each x hx).idleAt
  obtain ⟨u, hu⟩ : ∃ u, savedTurn e id (reqOfOp o) s = u := ⟨_, rfl⟩
  rw [hu] at hturned hsteady hexec
  have hpart : u.reqPart ⟨id, 0⟩ = some (o, p) := reqPart_congr hturned.ops h
  have hpoison (x : Nat × Nat) (hx : x ∈ signetLines (reqOfOp o)) : poisoned u x.2 = false := by
    unfold poisoned
    rw [hturned.poison]
    exact (hv.each x hx).sound
  have hur : resRecord u (anchorSlice (reqOfOp o).sig) (sigCtx (reqOfOp o).sig) (sigBase (reqOfOp o).sig) = none :=
    (resRecord_congr (hturned.res _)).trans hr
  have hsaved : savedFulls (anchorSlice (reqOfOp o).sig) (sigBase (reqOfOp o).sig) u = (full, u) := by
    rw [savedFulls_single (hsteady.single (x := (_, _)) (List.mem_map_of_mem (List.mem_cons_self ..))) (sigBase_block _).2,
      ← fullMask_saved hur, fullMask_congr (hturned.res _) hturned.mem]
    exact congrArg (·, u) hfull
  have hbody := locketBody_saved (done := fun code s => .next (replyCode id code s)) (bad := fun line s => .next (areaError id o line s))
    (editRefused_sound hpoison) hsaved
  unfold signetAnswer fullCode
  rw [if_neg (not_not_intro hcode)]
  by_cases hstrict : sigLatest (reqOfOp o).sig = false ∧ full.getLsbD (sigLocket (reqOfOp o).sig) = true
  · rw [if_pos hstrict] at hbody ⊢
    obtain ⟨es, hes⟩ := hexec hbody
    obtain ⟨hm, hsl, _⟩ := replyCode_keeps id 3 u
    refine ⟨_, hes, (replyCode_tells 3 hpart).ahead es, (res_of_slices hsl _).trans (hturned.res _),
      fun _ a => congrArg (Memory.byte · a) (hm.trans hturned.mem), fun hz => absurd hz (by omega)⟩
  · rw [if_neg hstrict, applySignet_saved hur hsaved] at hbody
    rw [if_neg hstrict]
    obtain ⟨v, hv'⟩ : ∃ v, writeBlock (anchorSlice (reqOfOp o).sig) (sigBase (reqOfOp o).sig / 128) (locketEdits (reqOfOp o) full) u = v :=
      ⟨_, rfl⟩
    obtain ⟨hops, hres, hword, hlanes, hout⟩ := signet_written (q := reqOfOp o) (by rw [hturned.mem]; exact hwf) hsteady
      (fun x hx => by simpa [poisoned] using hpoison x hx) hv'
    obtain ⟨ts, hts⟩ := noteLate_teams (reqOfOp o) v
    rw [hv', hts] at hbody
    obtain ⟨es, hes⟩ := hexec hbody
    obtain ⟨hm, hsl, _⟩ := replyCode_keeps id 0 { v with teams := ts }
    have htres : (((replyCode id 0 { v with teams := ts }).ahead es).slice (anchorSlice (reqOfOp o).sig)).res
        = (s.slice (anchorSlice (reqOfOp o).sig)).res := (res_of_slices hsl _).trans ((hres _).trans (hturned.res _))
    refine ⟨_, hes, (replyCode_tells 0 (reqPart_congr hops hpart)).ahead es, htres, fun hz => absurd rfl hz, fun _ => ⟨?_, hlanes, fun a hl hf => ?_⟩⟩
    · rw [fullMask_saved ((resRecord_congr htres).trans hr)]
      exact hword
    · exact (hout a hl hf).trans (congrArg (Memory.byte · a) hturned.mem)

theorem fullsLine_partly (q : LocketReq) (m : BitVec 32) : (editLine (locketEdits q m) 64).2 ≠ BitVec.allOnes 128 := by
  intro h
  have hbyte := maskedByte_editLine (locketEdits q m) 64 (i := 5) (by omega)
  have hnone : editAt (locketEdits q m) (128 * 64 + 5) = none := by
    refine editAt_eq_none fun x hx hc => ?_
    have hj := sigLocket_lt q.sig
    obtain ⟨hlen, ⟨l, hl, hoff⟩ | hoff⟩ := mem_locketEdits hx
    · omega
    · omega
  rw [hnone] at hbyte
  unfold maskedByte at hbyte
  rw [h] at hbyte
  simp at hbyte

theorem editRefused_fulls {q : LocketReq} {m : BitVec 32} (h : poisoned u (sigBase q.sig / 128 + 64) = true) :
    editRefused (sigBase q.sig / 128) (locketEdits q m) u = true := by
  refine List.any_eq_true.mpr ⟨64, mem_editLines.mpr ⟨fullEdit q m, ?_, ?_, show 8192 / 128 ≤ 64 by decide, ?_⟩, ?_⟩
  · rw [locketEdits_eq]
    exact List.mem_append_right _ (List.mem_singleton.mpr rfl)
  · exact List.ne_nil_of_length_pos (by rw [show (fullEdit q m).bytes.length = 4 from leBytes_length ..]; omega)
  · rw [show (fullEdit q m).bytes.length = 4 from leBytes_length ..]
    exact (by decide : 64 < (8192 + 4 + 127) / 128)
  · rw [h, Bool.true_and]
    exact decide_eq_true (fullsLine_partly q m)

/-- A poisoned word of saved full bits refuses the request (R58, R87). -/
theorem exec_signet_poisoned {q : LocketReq} (hq : reqOfOp o = q) (he : e ∈ signetEvents id) (h : s.reqPart ⟨id, 0⟩ = some (o, p))
    (hs : p.sent = true) (hcode : signetCode s q = 0)
    (hr : resRecord s (anchorSlice q.sig) (sigCtx q.sig) (sigBase q.sig) = none) (hi : ∀ x ∈ signetLines q, s.Idle e x)
    (hp : poisoned s (sigBase q.sig / 128 + 64) = true) :
    ∃ t, exec e s = .next t ∧ (∀ a, t.mem.byte a = s.mem.byte a) ∧ t.tags = s.tags
      ∧ t.answered id 0 (fun x => x.done = p.done ∧ x.refusal.map (fun x => (x.cls, x.code)) = some (3, 13)) := by
  subst hq
  have hturned := savedTurn_turned e id (reqOfOp o) s
  have hexec {t : State} := exec_signet_looks (t := t) he h hs hcode hr hi
  obtain ⟨u, hu⟩ : ∃ u, savedTurn e id (reqOfOp o) s = u := ⟨_, rfl⟩
  rw [hu] at hturned hexec
  have hpois : poisoned u (sigBase (reqOfOp o).sig / 128 + 64) = true := by
    unfold poisoned
    rw [hturned.poison]
    exact hp
  obtain ⟨es, hes⟩ := hexec (locketBody_bad (editRefused_fulls hpois))
  refine ⟨_, hes, fun a => congrArg (Memory.byte · a) hturned.mem, hturned.tags, ?_⟩
  exact (answerPart_answered (r := ⟨id, 0⟩) (q := fun x => x.done = p.done ∧ x.refusal.map (fun x => (x.cls, x.code)) = some (3, 13))
    (reqPart_congr hturned.ops h) ⟨rfl, rfl⟩).ahead es

end

/-! ## EMPTY (R209, R221) -/

/-- The bits that an EMPTY leaves. -/
def emptied (o : Op) (m : BitVec 32) : BitVec 32 := m &&& ~~~ (o.val.setWidth 32)

section
variable {s t u : State} {id : Nat} {o : Op} {p : Part} {e : Instr}

/-- The word that has been written into a block, and what has not been touched. -/
theorem word_written {first off v : Nat}
    (hb : ∀ a, t.mem.byte a = (if 128 * first ≤ a then editAt [⟨off, leBytes 4 v⟩] (a - 128 * first) else none).getD (s.mem.byte a)) :
    t.mem.nat (128 * first + off) 4 = v % 2 ^ 32
      ∧ ∀ a, a < 128 * first + off ∨ 128 * first + off + 4 ≤ a → t.mem.byte a = s.mem.byte a := by
  refine ⟨Memory.nat_of_bytes fun i hi => ?_, fun a ha => ?_⟩
  · rw [hb, if_pos (by omega), editAt_word, if_pos (by omega), show 128 * first + off + i - 128 * first - off = i by omega]
    rfl
  · rw [hb]
    split
    · rw [editAt_word, if_neg (by omega)]
      rfl
    · rfl

/-- What the slice does for an EMPTY in its turn. -/
def emptyBody (id : Nat) (o : Op) (p : Part) (look : Bool) (s : State) : Out :=
  if look then
    if poisoned s (fullsLine (128 * p.line)) then .next (areaError id o (fullsLine (128 * p.line)) s)
    else
      let m := savedFulls p.home (128 * p.line) s
      .next (partDone id 0 (fun p => p) (writeBlock p.home p.line [⟨8192, leBytes 4 (emptied o m.1).toNat⟩] m.2))
  else .next (partDone id 0 (fun p => p)
    (setRecordMask p.home o.ctx (128 * p.line) (emptied o (fullMask s p.home o.ctx (128 * p.line))) s))

theorem exec_empty (h : s.reqPart ⟨id, 0⟩ = some (o, p)) (hs : p.sent = true) {look : Bool}
    (hl : (resRecord s p.home o.ctx (128 * p.line)).isNone = look) : exec (.emptyRequestApply id) s
      = anchorTurn (.emptyRequestApply id) p.home (128 * p.line) [] look (s.arrive ⟨id, 0⟩) (emptyBody id o p look) := by
  show execEmptyRequestApply id s = _
  unfold execEmptyRequestApply
  rw [request_arrives h hs]
  subst hl
  rfl

/-- A resident warp's record loses the bits. -/
theorem exec_empty_resident (h : s.reqPart ⟨id, 0⟩ = some (o, p)) (hs : p.sent = true)
    (hr : resRecord s p.home o.ctx (128 * p.line) ≠ none) (hb : (s.sline p.home (p.line + 64)).state ≠ .busy)
    (hw : (s.sline p.home (p.line + 64)).waiters = [] ∨ (s.sline p.home (p.line + 64)).waiters.head? = some (.emptyRequestApply id)) :
    ∃ t, exec (.emptyRequestApply id) s = .next t ∧ t.answered id 0 (fun q => q.done = true)
      ∧ fullMask t p.home o.ctx (128 * p.line) = emptied o (fullMask s p.home o.ctx (128 * p.line))
      ∧ ∀ a, t.mem.byte a = s.mem.byte a := by
  obtain ⟨r, hr'⟩ := Option.ne_none_iff_exists'.mp hr
  have hturned := blindTurn_turned (.emptyRequestApply id) p.home (128 * p.line) [] (s.arrive ⟨id, 0⟩)
  obtain ⟨u, hu⟩ : ∃ u, blindTurn (.emptyRequestApply id) p.home (128 * p.line) [] (s.arrive ⟨id, 0⟩) = u := ⟨_, rfl⟩
  have hline : 128 * p.line / 128 = p.line := by omega
  have hex := anchorTurn_blind (s := s.arrive ⟨id, 0⟩) (home := p.home) (base := 128 * p.line) (ks := [])
    (e := .emptyRequestApply id) (k := emptyBody id o p false) List.not_mem_nil (by rw [hline]; exact hb) (by rw [hline]; exact hw) rfl
  rw [hu] at hturned hex
  have hur : resRecord u p.home o.ctx (128 * p.line) = some r := (resRecord_congr (hturned.res _)).trans hr'
  have hmask : fullMask u p.home o.ctx (128 * p.line) = fullMask s p.home o.ctx (128 * p.line) :=
    fullMask_congr (hturned.res _) hturned.mem
  obtain ⟨v, hv⟩ : ∃ v, setRecordMask p.home o.ctx (128 * p.line) (emptied o (fullMask u p.home o.ctx (128 * p.line))) u = v := ⟨_, rfl⟩
  have hvmask := fullMask_resident (resRecord_setRecordMask (emptied o (fullMask u p.home o.ctx (128 * p.line))) hur)
  have hvops : v.ops = u.ops := by
    rw [← hv]
    rfl
  have hvmem : v.mem = u.mem := by
    rw [← hv]
    rfl
  rw [hv] at hvmask
  obtain ⟨es, hes⟩ := afterTurn_ahead p.home (128 * p.line / 128 + 64) (partDone id 0 (fun p => p) v)
  rw [hv, hes] at hex
  refine ⟨_, (exec_empty h hs (by simp [hr'])).trans hex, ?_, ?_, fun a => congrArg (Memory.byte · a) (hvmem.trans hturned.mem)⟩
  · exact (partDone_answered (r := ⟨id, 0⟩) (q := fun q => q.done = true) (reqPart_congr (hvops.trans hturned.ops) h) rfl).ahead es
  · rw [← hmask]
    exact (fullMask_congr (s := v) rfl rfl).trans hvmask

/-- A saved warp's word of full bits loses them. -/
theorem exec_empty_saved (hwf : s.mem.wf = true) (h : s.reqPart ⟨id, 0⟩ = some (o, p)) (hs : p.sent = true)
    (hr : resRecord s p.home o.ctx (128 * p.line) = none) (hv : s.served p.home (p.line + 64) true (.emptyRequestApply id)) :
    ∃ t, exec (.emptyRequestApply id) s = .next t ∧ t.answered id 0 (fun q => q.done = true)
      ∧ fullMask t p.home o.ctx (128 * p.line) = emptied o (fullMask s p.home o.ctx (128 * p.line))
      ∧ ∀ a, a < 128 * p.line + 8192 ∨ 128 * p.line + 8196 ≤ a → t.mem.byte a = s.mem.byte a := by
  have hline : 128 * p.line / 128 = p.line := by omega
  obtain ⟨u, hu⟩ : ∃ u, (lineAsk false (p.home, p.line + 64)).taken (.emptyRequestApply id) (s.arrive ⟨id, 0⟩) = u := ⟨_, rfl⟩
  have hturned := (lineAsk false (p.home, p.line + 64)).taken_turned (.emptyRequestApply id) (s.arrive ⟨id, 0⟩)
  have hsingle : mixedHome u p.home (p.line + 64) = false := by
    rw [← hu]
    exact (lineAsk false (p.home, p.line + 64)).taken_single _ _ hv.single
  rw [hu] at hturned
  have hsound : poisoned u (p.line + 64) = false := by
    unfold poisoned
    rw [hturned.poison]
    exact hv.sound
  have hfulls : fullsLine (128 * p.line) = p.line + 64 := by
    unfold fullsLine
    omega
  have hur : resRecord u p.home o.ctx (128 * p.line) = none := (resRecord_congr (hturned.res _)).trans hr
  have hsaved : savedFulls p.home (128 * p.line) u = (fullMask s p.home o.ctx (128 * p.line), u) := by
    rw [savedFulls_single (by rw [hfulls]; exact hsingle) (by omega), ← fullMask_saved hur, fullMask_congr (hturned.res _) hturned.mem]
    rfl
  obtain ⟨hw, hb⟩ := writeBlock_word (off := 8192) (v := (emptied o (fullMask s p.home o.ctx (128 * p.line))).toNat)
    (by rw [hturned.mem]; exact hwf) (by omega) hsingle hsound
  obtain ⟨hword, hout⟩ := word_written hb
  obtain ⟨w, hwd⟩ : ∃ w, writeBlock p.home p.line
    [⟨8192, leBytes 4 (emptied o (fullMask s p.home o.ctx (128 * p.line))).toNat⟩] u = w := ⟨_, rfl⟩
  rw [hwd] at hw hword hout
  have hbody : emptyBody id o p true u = .next (partDone id 0 (fun p => p) w) := by
    unfold emptyBody
    simp only [hfulls, hsound, hsaved, hwd, Bool.false_eq_true, if_false, if_true]
  obtain ⟨es, hes⟩ := anchorTurn_looks (s := s.arrive ⟨id, 0⟩) (home := p.home) (base := 128 * p.line) (ks := [])
    (e := .emptyRequestApply id) (k := emptyBody id o p true) (t := partDone id 0 (fun p => p) w) (List.nodup_singleton 64)
    (fun i hi => by
      obtain rfl := List.mem_singleton.mp hi
      rw [hline]
      exact hv.idleAt.arrive ⟨id, 0⟩)
    (by rw [← hbody, ← hu, hline]; rfl)
  refine ⟨_, (exec_empty h hs (by simp [hr])).trans hes, ?_, ?_, fun a ha => ?_⟩
  · exact (partDone_answered (r := ⟨id, 0⟩) (q := fun q => q.done = true) (reqPart_congr (hw.ops.trans hturned.ops) h) rfl).ahead es
  · have htr : resRecord ((partDone id 0 (fun p => p) w).ahead es) p.home o.ctx (128 * p.line) = none :=
      (resRecord_congr (s := u) (hw.res _)).trans hur
    rw [fullMask_saved htr]
    apply BitVec.eq_of_toNat_eq
    refine (congrArg (fun n => (BitVec.ofNat 32 n).toNat) hword).trans ?_
    rw [BitVec.toNat_ofNat, Nat.mod_mod, Nat.mod_eq_of_lt (BitVec.isLt _)]
  · exact (hout a (by omega)).trans (congrArg (Memory.byte · a) hturned.mem)

end

/-! ## MINT (R211, R212, R219) -/

/-- A MAC put between a signet's low and high bits. -/
theorem signet_or {x mac c : Nat} (hx : x < 2 ^ 64) (hm : mac < 2 ^ 32) :
    (x + 2 ^ 96 * c) ||| (2 ^ 64 * mac) = x + 2 ^ 64 * mac + 2 ^ 96 * c := by
  have hlow (n : Nat) : x + 2 ^ 64 * n = 2 ^ 64 * n ||| x := by rw [← Nat.two_pow_add_eq_or_of_lt hx, Nat.add_comm]
  have hhigh : 2 ^ 32 * c ||| mac = 2 ^ 32 * c + mac := (Nat.two_pow_add_eq_or_of_lt hm c).symm
  have hmul : (2 ^ 64 * (2 ^ 32 * c)) ||| (2 ^ 64 * mac) = 2 ^ 64 * (2 ^ 32 * c ||| mac) := by
    rw [Nat.mul_comm, Nat.mul_comm (2 ^ 64) mac, Nat.mul_comm (2 ^ 64), ← Nat.shiftLeft_eq, ← Nat.shiftLeft_eq, ← Nat.shiftLeft_eq,
      Nat.shiftLeft_or_distrib]
  calc (x + 2 ^ 96 * c) ||| (2 ^ 64 * mac)
    _ = (x + 2 ^ 64 * (2 ^ 32 * c)) ||| (2 ^ 64 * mac) := by rw [← Nat.mul_assoc, ← Nat.pow_add]
    _ = 2 ^ 64 * (2 ^ 32 * c) ||| x ||| 2 ^ 64 * mac := by rw [hlow]
    _ = 2 ^ 64 * (2 ^ 32 * c ||| mac) ||| x := by rw [Nat.or_right_comm, hmul]
    _ = x + 2 ^ 64 * (2 ^ 32 * c + mac) := by rw [hhigh, hlow]
    _ = x + 2 ^ 64 * mac + 2 ^ 96 * c := by omega

/-- The bits of a signet above its MAC (R211). -/
def signetControl (o : Op) (p : Part) (gen : BitVec 8) : Nat :=
  (if o.fn % 2 = 1 then 1 else 0) + (if o.fn / 2 % 2 = 1 then 2 else 0) + 4 * widthCode o.size
    + (if o.fn / 4 % 2 = 1 then 16 else 0) + 32 * p.homeField + 256 * o.ctx + 2 ^ 24 * gen.toNat

theorem widthCode_lt (n : Nat) : widthCode n < 3 := by
  unfold widthCode
  split
  · omega
  · split
    · omega
    · omega

section
variable {s : State} {o : Op} {p : Part} {a : Acc}

theorem signetControl_lt (gen : BitVec 8) (hc : o.ctx < 2 ^ 16) (hh : p.homeField < 4) : signetControl o p gen < 2 ^ 32 := by
  have hw := widthCode_lt o.size
  have hg := gen.isLt
  unfold signetControl
  split
  all_goals split
  all_goals split
  all_goals omega

/-- The signet of a MINT, without its MAC. -/
def bareSignet (s : State) (o : Op) (p : Part) (a : Acc) : BitVec 128 :=
  BitVec.ofNat 128 (a.pa + 2 ^ 48 * (s.nodeId.getD 0).toNat + 2 ^ 96 * signetControl o p (s.context o.ctx).gen)

theorem mintSignet_eq (hl : o.lanes = [a]) (hp : o.parts = [p]) : mintSignet s o
    = bareSignet s o p a ||| BitVec.ofNat 128 (2 ^ 64 * (macOf s (bareSignet s o p a)).toNat) := by
  unfold mintSignet
  rw [hl, hp]
  rfl

theorem bareSignet_toNat (ha : a.pa < 2 ^ 48) (hc : o.ctx < 2 ^ 16) (hh : p.homeField < 4) : (bareSignet s o p a).toNat
    = a.pa + 2 ^ 48 * (s.nodeId.getD 0).toNat + 2 ^ 96 * signetControl o p (s.context o.ctx).gen := by
  have hn := (s.nodeId.getD 0).isLt
  have hctl := signetControl_lt (o := o) (p := p) (s.context o.ctx).gen hc hh
  unfold bareSignet
  rw [BitVec.toNat_ofNat, Nat.mod_eq_of_lt (by omega)]

theorem mintSignet_toNat (hl : o.lanes = [a]) (hp : o.parts = [p]) (ha : a.pa < 2 ^ 48) (hc : o.ctx < 2 ^ 16) (hh : p.homeField < 4) :
    (mintSignet s o).toNat = a.pa + 2 ^ 48 * (s.nodeId.getD 0).toNat + 2 ^ 64 * (macOf s (bareSignet s o p a)).toNat
      + 2 ^ 96 * signetControl o p (s.context o.ctx).gen := by
  have hn := (s.nodeId.getD 0).isLt
  have hm := (macOf s (bareSignet s o p a)).isLt
  rw [mintSignet_eq hl hp, BitVec.toNat_or, bareSignet_toNat ha hc hh, BitVec.toNat_ofNat, Nat.mod_eq_of_lt (by omega),
    signet_or (by omega) hm]

theorem extract_toNat (g : BitVec 128) (i n : Nat) : (g.extractLsb' i n).toNat = g.toNat / 2 ^ i % 2 ^ n := by
  rw [BitVec.extractLsb'_toNat, Nat.shiftRight_eq_div_pow]

theorem getLsbD_eq_decide (g : BitVec 128) (i : Nat) : g.getLsbD i = decide (g.toNat / 2 ^ i % 2 = 1) := by
  rw [← BitVec.testBit_toNat, Nat.testBit_eq_decide_div_mod_eq]

/-- The MAC covers the bits beside it only (R212). -/
theorem macOf_congr {g g' : BitVec 128} (hl : g.toNat % 2 ^ 64 = g'.toNat % 2 ^ 64) (hh : g.toNat / 2 ^ 96 = g'.toNat / 2 ^ 96) :
    macOf s g = macOf s g' := by
  have hlow : g.extractLsb' 0 64 = g'.extractLsb' 0 64 := by
    apply BitVec.eq_of_toNat_eq
    rw [extract_toNat, extract_toNat, Nat.pow_zero, Nat.div_one, Nat.div_one, hl]
  have hhigh : g.extractLsb' 96 32 = g'.extractLsb' 96 32 := by
    apply BitVec.eq_of_toNat_eq
    rw [extract_toNat, extract_toNat, hh]
  unfold macOf
  rw [hlow, hhigh]

/-- The fields of the signet that a MINT forms (R211, R219). -/
theorem mintSignet_fields (hl : o.lanes = [a]) (hp : o.parts = [p]) (ha : a.pa < 2 ^ 48) (hc : o.ctx < 2 ^ 16) (hh : p.homeField < 4)
    {m : BitVec 128} (hmint : mintSignet s o = m) :
    sigAddr m = a.pa ∧ sigNode m = s.nodeId.getD 0 ∧ sigMac m = macOf s m ∧ sigWrites m = decide (o.fn % 2 = 1)
      ∧ sigTokens m = decide (o.fn / 2 % 2 = 1) ∧ sigLatest m = decide (o.fn / 4 % 2 = 1)
      ∧ sigWidth m = widthCode o.size ∧ sigPlcy m = p.homeField ∧ sigCtx m = o.ctx ∧ sigGen m = (s.context o.ctx).gen := by
  have hn := (s.nodeId.getD 0).isLt
  have hmac := (macOf s (bareSignet s o p a)).isLt
  have hg := (s.context o.ctx).gen.isLt
  have hw := widthCode_lt o.size
  have hctl := signetControl_lt (o := o) (p := p) (s.context o.ctx).gen hc hh
  have hnat := mintSignet_toNat (s := s) hl hp ha hc hh
  have hbare := bareSignet_toNat (s := s) ha hc hh
  rw [hmint] at hnat
  have hsame : macOf s (bareSignet s o p a) = macOf s m := macOf_congr (by omega) (by omega)
  have hhigh : m.toNat / 2 ^ 96 = signetControl o p (s.context o.ctx).gen := by omega
  have hfield (i n : Nat) : (m.extractLsb' (96 + i) n).toNat = signetControl o p (s.context o.ctx).gen / 2 ^ i % 2 ^ n := by
    rw [extract_toNat, Nat.pow_add, ← Nat.div_div_eq_div_mul, hhigh]
  have hbit (i : Nat) : m.getLsbD (96 + i) = decide (signetControl o p (s.context o.ctx).gen / 2 ^ i % 2 = 1) := by
    rw [getLsbD_eq_decide, Nat.pow_add, ← Nat.div_div_eq_div_mul, hhigh]
  refine ⟨?_, ?_, ?_, ?_, ?_, ?_, ?_, ?_, ?_, ?_⟩
  · unfold sigAddr
    rw [extract_toNat]
    omega
  · apply BitVec.eq_of_toNat_eq
    unfold sigNode
    rw [extract_toNat]
    omega
  · rw [← hsame]
    apply BitVec.eq_of_toNat_eq
    unfold sigMac
    rw [extract_toNat]
    omega
  · refine (hbit 0).trans (decide_eq_decide.mpr ?_)
    unfold signetControl
    split_ifs <;> omega
  · refine (hbit 1).trans (decide_eq_decide.mpr ?_)
    unfold signetControl
    split_ifs <;> omega
  · refine (hbit 4).trans (decide_eq_decide.mpr ?_)
    unfold signetControl
    split_ifs <;> omega
  · refine (hfield 2 2).trans ?_
    unfold signetControl
    split_ifs <;> omega
  · refine (hfield 5 2).trans ?_
    unfold signetControl
    split_ifs <;> omega
  · refine (hfield 8 16).trans ?_
    unfold signetControl
    split_ifs <;> omega
  · apply BitVec.eq_of_toNat_eq
    refine (hfield 24 8).trans ?_
    unfold signetControl
    split_ifs <;> omega

theorem append_extract (g : BitVec 128) : (g.extractLsb' 64 64 ++ g.extractLsb' 0 64 : BitVec 128) = g := by
  apply BitVec.eq_of_toNat_eq
  have hlt := g.isLt
  rw [BitVec.toNat_append, extract_toNat, extract_toNat, ← Nat.shiftLeft_add_eq_or_of_lt (Nat.mod_lt _ (by omega)), Nat.shiftLeft_eq]
  omega

/-- The two words of a signet, put with the operation that asked for it. -/
def Op.signed (g : BitVec 128) (o : Op) : Op := { o with data := (o.data.set 0 (g.extractLsb' 0 64)).set 1 (g.extractLsb' 64 64) }

theorem Op.signed_words (g : BitVec 128) (o : Op) :
    (o.signed g).data.get 0 0 = g.extractLsb' 0 64 ∧ (o.signed g).data.get 0 1 = g.extractLsb' 64 64 := by
  unfold Op.signed
  exact ⟨by rw [Tab.get_set_other _ _ _ (by omega), Tab.get_set_self], Tab.get_set_self ..⟩

theorem exec_mint {id : Nat} (h : s.reqPart ⟨id, 0⟩ = some (o, p)) (hs : p.sent = true) :
    exec (.mintRequestApply id) s = .next (partDone id 0 (fun p => p)
      ((s.arrive ⟨id, 0⟩).modOp id (Op.signed (mintSignet s o)))) := by
  show execMintRequestApply id s = _
  unfold execMintRequestApply
  rw [request_arrives h hs]
  rfl

/-- MINT forms a signet, and its reply carries it (R219). -/
theorem exec_mint_signet {id : Nat} (h : s.reqPart ⟨id, 0⟩ = some (o, p)) (hs : p.sent = true) {m : BitVec 128} (hm : mintSignet s o = m) :
    ∃ t, exec (.mintRequestApply id) s = .next t ∧ t.answered id 0 (fun q => q.done = true)
      ∧ (t.ops.find? id).map (fun x => (x.data.get 0 0, x.data.get 0 1)) = some (m.extractLsb' 0 64, m.extractLsb' 64 64)
      ∧ ∀ x, t.mem.byte x = s.mem.byte x := by
  have hpart := reqPart_modOp (u := s.arrive ⟨id, 0⟩) (f := Op.signed m) (fun _ => rfl) h
  have hop := answerPart_op (r := ⟨id, 0⟩) (f := fun p => { p with done := true }) hpart
  refine ⟨_, exec_mint h hs, ?_, ?_, fun _ => rfl⟩
  · rw [hm]
    exact partDone_answered (r := ⟨id, 0⟩) (q := fun q => q.done = true) hpart rfl
  · rw [hm]
    refine (congrArg (Option.map _) hop).trans (congrArg some ?_)
    exact Prod.ext (o.signed_words m).1 (o.signed_words m).2

/-! ## Deliveries and tokens (R82, R113, R207) -/

theorem exec_locketDelivery {w : WarpRef} {wp : Warp} {l : Launch} (n : Nat) (m : Mask) (vs : List Word) (hw : s.warp? w = some wp)
    (hl : launchOf s w = some l) :
    ∃ t wp', exec (.locketDelivery w n m vs) s = .next t ∧ t.warp? w = some wp'
      ∧ (wp'.row (l.desc.ring + 96 + n)).full = true
      ∧ (∀ k, k < 64 → (wp'.row (l.desc.ring + 96 + n)).lane k
        = if m.getLsbD k then Tab.get 0 ((lanesOf m).zip vs) k else (wp.row (l.desc.ring + 96 + n)).lane k)
      ∧ (∀ k, k ≠ l.desc.ring + 96 + n → wp'.row k = wp.row k) ∧ ∀ x, t.mem.byte x = s.mem.byte x := by
  have hex : exec (.locketDelivery w n m vs) s
      = .next (writeRow w (l.desc.ring + 96 + n) m (fun n => Tab.get 0 ((lanesOf m).zip vs) n) s) := by
    show execLocketDelivery w n m vs s = _
    unfold launchOf at hl
    unfold execLocketDelivery
    rw [hl]
  refine ⟨_, wp.putRow (l.desc.ring + 96 + n) m (fun n => Tab.get 0 ((lanesOf m).zip vs) n), hex, ?_, ?_, fun k hk => ?_, fun k hk => ?_,
    fun _ => rfl⟩
  · rw [writeRow_eq, State.warp?_modWarp_self, hw]
    rfl
  · rw [Warp.row_putRow, if_pos rfl, Row.full_putLanes]
  · rw [Warp.row_putRow, if_pos rfl, Row.lane_putLanes _ _ _ _ hk]
  · rw [Warp.row_putRow, if_neg hk]

/-- A warp whose token of an operation has left. -/
def Warp.tokenSent (id : Nat) (w : Warp) : Warp := { w with tokens := w.tokens.filter (fun t => t.op ≠ id) }

theorem exec_ksendTokenSend_sent {id : Nat} {w : Warp} {tk : Token} (ho : s.ops.find? id = some o) (hk : o.kind = .ksend)
    (hw : s.warp? (warpOf o.ref) = some w) (htk : w.tokens.find? (fun t => t.op = id) = some tk)
    (hsat : w.satisfied (ringOf s (warpOf o.ref)) tk.key tk.scope = true) :
    ∃ t w', exec (.ksendTokenSend id) s = .next t ∧ t.warp? (warpOf o.ref) = some w'
      ∧ w'.tokens = w.tokens.filter (fun t => t.op ≠ id) ∧ (∀ x, t.mem.byte x = s.mem.byte x)
      ∧ ∀ p, o.parts = [p] → p.sent = false → p.done = false → p.l1 = false → p.isScratch = false → p.gather = false →
          p.check = false → t.agenda = s.agenda ++ [.tokenApply id] := by
  obtain ⟨u, hu⟩ : ∃ u, s.modWarp (warpOf o.ref) (Warp.tokenSent id) = u := ⟨_, rfl⟩
  have hex : exec (.ksendTokenSend id) s = .next (sendParts id u) := by
    show execKsendTokenSend id s = _
    unfold execKsendTokenSend withOp
    simp only [ho, hw, htk, hsat, if_true]
    exact congrArg (fun u => Host.Outcome.next (sendParts id u)) hu
  have hops : u.ops.find? id = some o := by
    rw [← hu]
    exact ho
  have hwarp : u.warp? (warpOf o.ref) = some (w.tokenSent id) := by
    rw [← hu, State.warp?_modWarp_self, hw]
    rfl
  have hheld : heldToken u id o = false := by
    unfold heldToken
    rw [hwarp, Option.any_some]
    simp [Warp.tokenSent]
  have hsend : sendParts id u = u.push (o.parts.zipIdx.filterMap (fun e =>
      if e.1.sent || e.1.done || heldToken u id o then none else some (partEvent o id e.2 e.1))) := by
    unfold sendParts
    rw [hops]
  refine ⟨_, w.tokenSent id, hex, ?_, rfl, fun x => ?_, fun p hp hsent hdone hl1 hscr hg hc => ?_⟩
  · rw [hsend]
    exact hwarp
  · rw [hsend, ← hu]
    rfl
  · have hline : p.line ≠ partnerLine := fun he => by simp [Part.isScratch, he] at hscr
    rw [hsend, hp, ← hu]
    rw [← hu] at hheld
    simp [hsent, hdone, hheld, partEvent, hl1, hline, hg, hc, hk]

theorem sendBackAll_keeps (core : Nat) (lines : List Nat) (s : State) :
    (sendBackAll core lines s).teams = s.teams ∧ (sendBackAll core lines s).mem = s.mem := by
  unfold sendBackAll
  induction lines generalizing s with
  | nil => exact ⟨rfl, rfl⟩
  | cons line lines ih =>
    have hone : (sendBack core line s).teams = s.teams ∧ (sendBack core line s).mem = s.mem := by
      unfold sendBack
      split
      · exact ⟨rfl, rfl⟩
      · split
        · exact ⟨rfl, rfl⟩
        · exact ⟨rfl, rfl⟩
        · exact ⟨rfl, rfl⟩
    exact ⟨(ih _).1.trans hone.1, (ih _).2.trans hone.2⟩

theorem exec_ksendTokenSend_waits {id : Nat} {w : Warp} {tk : Token} (ho : s.ops.find? id = some o)
    (hw : s.warp? (warpOf o.ref) = some w) (htk : w.tokens.find? (fun t => t.op = id) = some tk)
    (hsat : w.satisfied (ringOf s (warpOf o.ref)) tk.key tk.scope = false) :
    ∃ t, exec (.ksendTokenSend id) s = .next t ∧ t.warp? (warpOf o.ref) = some w ∧ Instr.ksendTokenSend id ∈ t.agenda
      ∧ ∀ x, t.mem.byte x = s.mem.byte x := by
  obtain ⟨u, hu, hteams, hmem⟩ : ∃ u : State, (if tk.scope = 0 then s else promote w.core (w.unmet tk.key tk.scope) [] s) = u
      ∧ u.teams = s.teams ∧ u.mem = s.mem := by
    split
    · exact ⟨s, rfl, rfl, rfl⟩
    · exact ⟨_, rfl, sendBackAll_keeps ..⟩
  have hex : exec (.ksendTokenSend id) s = .next (u.push [.ksendTokenSend id]) := by
    show execKsendTokenSend id s = _
    unfold execKsendTokenSend withOp
    simp only [ho, hw, htk, hsat, Bool.false_eq_true, if_false, hu]
  refine ⟨_, hex, ?_, by simp, fun x => congrArg (Memory.byte · x) hmem⟩
  unfold State.warp? State.team? at hw ⊢
  rw [State.push_teams, hteams]
  exact hw

end

/-! ## Bytes of memory, line by line -/

theorem leNat_byte (bs : List Byte) {k : Nat} (h : k < bs.length) : leNat bs / 256 ^ k % 256 = bs[k].toNat := by
  induction bs generalizing k with
  | nil => cases h
  | cons b bs ih =>
    have hb := b.isLt
    cases k with
    | zero =>
      rw [Nat.pow_zero, Nat.div_one, leNat]
      show (b.toNat + 256 * leNat bs) % 256 = b.toNat
      omega
    | succ k =>
      rw [leNat, Nat.pow_succ', ← Nat.div_div_eq_div_mul, show (b.toNat + 256 * leNat bs) / 256 = leNat bs by omega,
        ih (Nat.lt_of_succ_lt_succ h), List.getElem_cons_succ]

/-- A byte of a line's data, as bits of the number that its bytes make. -/
theorem lineByte_ofNat (v : Nat) {k : Nat} (hk : k < 128) : lineByte (BitVec.ofNat 1024 v) k = BitVec.ofNat 8 (v / 256 ^ k) := by
  apply BitVec.eq_of_getLsbD_eq
  intro i hi
  rw [lineByte_getLsbD, BitVec.getLsbD_ofNat, BitVec.getLsbD_ofNat, show (256 : Nat) ^ k = 2 ^ (8 * k) by rw [Nat.pow_mul],
    Nat.testBit_div_two_pow, decide_eq_true (show 8 * k + i < 1024 by omega), Bool.true_and, Nat.add_comm]

theorem lineByte_line (m : Memory) (line : Nat) {k : Nat} (hk : k < 128) : lineByte (m.line line) k = m.byte (128 * line + k) := by
  have hlen : k < (m.read (128 * line) 128).length := by simpa [Memory.read] using hk
  have hread : (m.read (128 * line) 128)[k] = m.byte (128 * line + k) := by simp [Memory.read]
  rw [← hread]
  apply BitVec.eq_of_toNat_eq
  rw [← leNat_byte _ hlen, Memory.line, bitsOfBytes, lineByte_ofNat _ hk, BitVec.toNat_ofNat]

theorem lineBytes_read (m : Memory) (line : Nat) : (List.range 128).map (lineByte (m.line line)) = m.read (128 * line) 128 :=
  List.map_congr_left fun _ hk => lineByte_line m line (List.mem_range.mp hk)

theorem lines_read (m : Memory) (line n : Nat) :
    (List.range n).flatMap (fun k => m.read (128 * (line + k)) 128) = m.read (128 * line) (128 * n) := by
  induction n with
  | zero => rfl
  | succ n ih =>
    rw [List.range_succ, List.flatMap_append, ih, List.flatMap_cons, List.flatMap_nil, List.append_nil, Nat.mul_succ,
      Memory.read_append, Nat.mul_add]

/-- A number among the bytes read from memory. -/
theorem fieldOf_read (m : Memory) (a n o k : Nat) (rest : List Byte) (h : o + k ≤ n) :
    fieldOf (m.read a n ++ rest) o k = m.nat (a + o) k := by
  have hlen (a n : Nat) : (m.read a n).length = n := by simp [Memory.read]
  obtain ⟨j, rfl⟩ : ∃ j, n = o + (k + j) := ⟨n - o - k, by omega⟩
  unfold fieldOf Memory.nat
  rw [Memory.read_append, Memory.read_append, List.append_assoc, List.append_assoc, List.drop_left' (hlen a o), List.take_left' (hlen _ k)]

section
variable {s t u : State} {e : Instr}

/-! ## Blocks read by their home slice -/

/-- The bytes that a block's line gives where it is asked for. -/
def blockLine (ks : List Nat) (line : Nat) (m : Memory) (k : Nat) : List Byte :=
  if ks.contains k then m.read (128 * (line + k)) 128 else List.replicate 128 0

theorem blockBytes_eq (x : Trip) (ks : List Nat) (u : State) (hs : ∀ k ∈ ks, poisoned u (x.line + k) = false)
    (hm : ∀ k ∈ ks, mixedHome u x.home (x.line + k) = false) :
    blockBytes x ks false u = ((List.range 128).flatMap (blockLine ks x.line u.mem), u) := by
  have hfold (js : List Nat) (bs : List Byte) : js.foldl (fun r k =>
      if !ks.contains k then (r.1 ++ List.replicate 128 0, r.2)
      else
        let p : List Byte × State :=
          if false || poisoned r.2 (x.line + k) then freeBytes 128 r.2
          else
            let d := homeData x.home (x.line + k) (r.2.mem.line (x.line + k)) r.2
            ((List.range 128).map (lineByte d.1), d.2)
        (r.1 ++ p.1, p.2)) (bs, u) = (bs ++ js.flatMap (blockLine ks x.line u.mem), u) := by
    induction js generalizing bs with
    | nil => simp
    | cons k js ih =>
      rw [List.foldl_cons, List.flatMap_cons, ← List.append_assoc]
      cases hk : ks.contains k with
      | false =>
        simp only [Bool.not_false, if_true]
        rw [ih, blockLine, hk, if_neg Bool.false_ne_true]
      | true =>
        have hin : k ∈ ks := by simpa using hk
        have hdata : homeData x.home (x.line + k) (u.mem.line (x.line + k)) u = (u.mem.line (x.line + k), u) := by
          unfold homeData
          rw [hm k hin]
          rfl
        simp only [Bool.not_true, Bool.false_eq_true, if_false, hs k hin, Bool.or_self, hdata, lineBytes_read]
        rw [ih, blockLine, hk, if_pos rfl]
  exact (hfold (List.range 128) []).trans (by rw [List.nil_append])

theorem blockLines_head (line n : Nat) (m : Memory) (hn : n ≤ 128) :
    ∃ rest, (List.range 128).flatMap (blockLine (List.range n) line m) = m.read (128 * line) (128 * n) ++ rest := by
  obtain ⟨j, hj⟩ : ∃ j, 128 = n + j := ⟨128 - n, by omega⟩
  have hrange : List.range 128 = List.range n ++ (List.range j).map (n + ·) := by rw [hj, List.range_add]
  refine ⟨((List.range j).map (n + ·)).flatMap (blockLine (List.range n) line m), ?_⟩
  rw [hrange, List.flatMap_append, ← lines_read]
  refine congrArg (· ++ _) ?_
  simp only [List.flatMap_def]
  refine congrArg List.flatten (List.map_congr_left fun k hk => ?_)
  unfold blockLine
  rw [if_pos (by simpa using hk)]

end

/-! ## The record of a warp that is saved (R88, R215) -/

/-- A slice that has no record of a warp. -/
def Slice.without (w : WarpRef) (sl : Slice) : Slice := { sl with res := sl.res.filter (fun r => r.warp ≠ w) }

/-- The mask in a warp's record at a slice. -/
def recordMask (s : State) (home : Nat) (w : WarpRef) : Nat :=
  (((s.slice home).res.find? (fun (r : ResRec) => r.warp = w)).map (fun (r : ResRec) => r.mask.toNat)).getD 0

/-- What the slice does for the removal of a record. -/
def removeBody (w : WarpRef) (x : Trip) (s : State) : Out :=
  .next ((returned x (fun y => y) (writeBlock x.home x.line [⟨0, leBytes 4 (recordMask s x.home w)⟩] (s.modSlice x.home (Slice.without w)))).push
    [.flushMarkerArrival w])

section
variable {s t u : State} {e : Instr} {w : WarpRef}

theorem State.slice_without (s : State) (home : Nat) (w : WarpRef) :
    ((s.modSlice home (Slice.without w)).slice home).res = (s.slice home).res.filter (fun r => r.warp ≠ w) := by
  rw [State.slice_modSlice, if_pos rfl]
  rfl

theorem exec_saveRecordRemove_anchored {home base : Nat} (ha : anchorOf s w = some (home, base)) :
    exec (.saveRecordRemove w) s = journey (.saveRecordRemove w) (.core (s.warpCore w)) [⟨home, base / 128 + 64, 1⟩]
      (fun x s => atBlock (.saveRecordRemove w) x [0] s (removeBody w x)) (fun _ s => .next s) s := by
  show execSaveRecordRemove w s = _
  unfold execSaveRecordRemove
  rw [ha]
  rfl

theorem exec_saveRecordRemove_leaves {home base : Nat} {wp : Warp} (hw : s.warp? w = some wp) (ha : anchorOf s w = some (home, base))
    (h : s.leaves (.saveRecordRemove w) (.core wp.core) [⟨home, base / 128 + 64, 1⟩] ⟨home, base / 128 + 64, 1⟩) :
    ∃ t, exec (.saveRecordRemove w) s = .next t
      ∧ s.left (.saveRecordRemove w) (.core wp.core) ⟨home, base / 128 + 64, 1⟩ t := by
  rw [exec_saveRecordRemove_anchored ha, show s.warpCore w = wp.core by rw [State.warpCore, hw]; rfl]
  exact journey_leaves _ _ h

/-- A line at which a trip has its turn, once it has come. -/
theorem State.Idle.there {y : Nat × Nat} (h : s.Idle e y) (x : Trip) (n : Nat) : (s.there x n).Idle e y := ⟨h.busy, h.inv, h.uo, h.turn⟩

/-- A request's one line, in its turn. -/
theorem atBlock_head {x : Trip} {k : State → Out} (hi : s.Idle e (x.home, x.line))
    (hk : k ((lineAsk false (x.home, x.line)).taken e s) = .next t) : ∃ es, atBlock e x [0] s k = .next (t.ahead es) := by
  refine atSlices_done (List.nodup_singleton _) (fun y hy => ?_) hk
  obtain rfl := List.mem_singleton.mp hy
  exact hi

/-- The record goes, and its mask becomes the saved word (R88, R215). -/
theorem exec_saveRecordRemove_comes {home base : Nat} {wp : Warp} {x : Trip} {r : ResRec} (hwf : s.mem.wf = true)
    (hw : s.warp? w = some wp) (ha : anchorOf s w = some (home, base))
    (h : s.comes (.saveRecordRemove w) (.core wp.core) [⟨home, base / 128 + 64, 1⟩] x)
    (hx : x.stop = ⟨home, base / 128 + 64, 1⟩) (hbase : base % 128 = 0) (hr : (s.slice home).res.find? (fun x => x.warp = w) = some r)
    (hv : s.served home (base / 128 + 64) true (.saveRecordRemove w)) :
    ∃ t, exec (.saveRecordRemove w) s = .next t ∧ (∀ y ∈ (t.slice home).res, y.warp ≠ w)
      ∧ t.replies (.saveRecordRemove w) x (fun y => y.bad = x.bad)
      ∧ t.mem.nat (base + 8192) 4 = r.mask.toNat ∧ Instr.flushMarkerArrival w ∈ t.agenda
      ∧ ∀ a, a < base + 8192 ∨ base + 8196 ≤ a → t.mem.byte a = s.mem.byte a := by
  have hhome : x.home = home := congrArg Stop.home hx
  have hline : x.line = base / 128 + 64 := congrArg Stop.line hx
  obtain ⟨n, hn⟩ := journey_comes h
  obtain ⟨u, hu⟩ : ∃ u, (lineAsk false (x.home, x.line)).taken (.saveRecordRemove w) (s.there x n) = u := ⟨_, rfl⟩
  have hturned := (lineAsk false (x.home, x.line)).taken_turned (.saveRecordRemove w) (s.there x n)
  have hsingle : mixedHome u x.home x.line = false := by
    rw [← hu]
    exact (lineAsk false (x.home, x.line)).taken_single _ _ (by rw [hhome, hline]; exact hv.single)
  rw [hu] at hturned
  have hsound : poisoned u x.line = false := by
    unfold poisoned
    rw [hturned.poison, hline]
    exact hv.sound
  have hmask : recordMask u x.home w = r.mask.toNat := by
    unfold recordMask
    rw [hturned.res, hhome]
    exact congrArg (fun z => Option.getD (Option.map _ z) 0) hr
  obtain ⟨v, hv'⟩ : ∃ v, u.modSlice x.home (Slice.without w) = v := ⟨_, rfl⟩
  have hvm : v.mem = u.mem := by rw [← hv']; rfl
  have hvt : v.trips = u.trips := by rw [← hv']; rfl
  have hvres : (v.slice x.home).res = (u.slice x.home).res.filter (fun r => r.warp ≠ w) := by rw [← hv', State.slice_without]
  have hvsingle : mixedHome v x.home x.line = false := by
    rw [← hv']
    exact (mixedHome_congr rfl rfl rfl ..).trans hsingle
  have hvsound : poisoned v x.line = false := by
    rw [← hv']
    exact hsound
  obtain ⟨hwrote, hb⟩ := writeBlock_word (s := v) (home := x.home) (first := x.line) (off := 0) (v := r.mask.toNat)
    (by rw [hvm, hturned.mem]; exact hwf) (by omega) hvsingle hvsound
  obtain ⟨hword, hout⟩ := word_written hb
  obtain ⟨z, hz⟩ : ∃ z, writeBlock x.home x.line [⟨0, leBytes 4 r.mask.toNat⟩] v = z := ⟨_, rfl⟩
  rw [hz] at hwrote hword hout
  have hbody : removeBody w x u = .next ((returned x (fun y => y) z).push [.flushMarkerArrival w]) := by
    unfold removeBody
    rw [hmask, hv', hz]
  obtain ⟨es, hes⟩ := atBlock_head (s := s.there x n) (e := .saveRecordRemove w) (x := x) (k := removeBody w x)
    (by rw [hhome, hline]; exact hv.idleAt.there x n) (by rw [hu]; exact hbody)
  have hreply : ((returned x (fun y => y) z).push [.saveRecordRemove w]).replies (.saveRecordRemove w) x (fun y => y.bad = x.bad) :=
    returned_replies h.mem ((hwrote.trips.trans hvt).trans hturned.trips) (fun _ => rfl) fun _ hy => hy
  have haddr : 128 * x.line + 0 = base + 8192 := by omega
  rw [haddr] at hword hout
  refine ⟨(((returned x (fun y => y) z).push [.flushMarkerArrival w]).ahead es).push [.saveRecordRemove w],
    (exec_saveRecordRemove_anchored ha).trans ?_, fun y hy => ?_, hreply.before rfl fun i hi => ?_, ?_, ?_, fun a ha' => ?_⟩
  · rw [show s.warpCore w = wp.core by rw [State.warpCore, hw]; rfl]
    exact hn _ _ _ hes
  · have hyres : y ∈ (z.slice home).res := hy
    rw [hwrote.res, ← hhome, hvres, List.mem_filter] at hyres
    exact of_decide_eq_true hyres.2
  · simp only [State.push_agenda, State.ahead, List.mem_append] at hi ⊢
    exact hi.imp_left fun h => .inr (.inl h)
  · exact hword.trans (Nat.mod_eq_of_lt r.mask.isLt)
  · simp [State.ahead]
  · exact (hout a (by omega)).trans (congrArg (Memory.byte · a) (hvm.trans hturned.mem))

/-- The flush marker reaches the core (R88). -/
theorem exec_flushMarkerArrival {wp : Warp} (hw : s.warp? w = some wp) :
    ∃ t, exec (.flushMarkerArrival w) s = .next t ∧ t.warp? w = some { wp with marked := true } ∧ ∀ a, t.mem.byte a = s.mem.byte a := by
  refine ⟨s.modWarp w (fun x => { x with marked := true }), ?_, ?_, fun _ => rfl⟩
  · show execFlushMarkerArrival w s = _
    unfold execFlushMarkerArrival
    rw [hw]
    rfl
  · rw [State.warp?_modWarp_self, hw]
    rfl

/-- No record is left to remove: the marker is sent, or the requests on their way end. -/
theorem exec_saveRecordRemove_none (ha : anchorOf s w = none) (ht : s.tripsOf (.saveRecordRemove w) = []) :
    exec (.saveRecordRemove w) s = .next (s.push [.flushMarkerArrival w]) := by
  show execSaveRecordRemove w s = _
  unfold execSaveRecordRemove
  dsimp only
  rw [ha, ht]
  rfl

/-- The stops of trips that have all come back are done with. -/
theorem allBack_of_done {ts : List Trip} (h : ∀ x ∈ ts, x.stage = .done) : allBack ts (ts.map (·.stop)) = true := by
  unfold allBack
  rw [List.all_eq_true]
  intro y hy
  obtain ⟨x, hx, rfl⟩ := List.mem_map.mp hy
  have hfound : (tripFor ts x.stop).isSome = true := List.find?_isSome.mpr ⟨x, hx, decide_eq_true rfl⟩
  obtain ⟨z, hz⟩ := Option.isSome_iff_exists.mp hfound
  rw [hz]
  exact decide_eq_true (h z (List.mem_of_find?_eq_some hz))

theorem exec_saveRecordRemove_ends (ha : anchorOf s w = none) (ht : s.tripsOf (.saveRecordRemove w) ≠ [])
    (hd : ∀ x ∈ s.tripsOf (.saveRecordRemove w), x.stage = .done) :
    exec (.saveRecordRemove w) s = .next (s.endTrips (.saveRecordRemove w)) := by
  have hex : exec (.saveRecordRemove w) s = journey (.saveRecordRemove w) (.core (s.warpCore w))
      ((s.tripsOf (.saveRecordRemove w)).map (·.stop))
      (fun x s => atBlock (.saveRecordRemove w) x [0] s (removeBody w x)) (fun _ s => .next s) s := by
    show execSaveRecordRemove w s = _
    unfold execSaveRecordRemove
    dsimp only
    rw [ha, show (s.tripsOf (.saveRecordRemove w)).isEmpty = false by simpa using ht]
    rfl
  rw [hex, journey_home (allBack_of_done hd)]

end

/-! ## The record of a warp that is restored (R88, R209) -/

/-- A locket's row as its area holds it. -/
def locketRow (l : Launch) (bs : List Byte) (n : Nat) : Row :=
  { full := fieldOf bs 8192 4 / 2 ^ n % 2 = 1
    vals := (List.range l.desc.lanes).map (fun k => (k, BitVec.ofNat 32 (fieldOf bs (256 * n + 4 * k) 4))) }

/-- A warp with the lockets of its area. -/
def Warp.withLockets (l : Launch) (bs : List Byte) (x : Warp) : Warp :=
  { x with rows := (List.range (l.desc.globals - 96)).foldl (fun rows n => rows.set (l.desc.ring + 96 + n) (locketRow l bs n)) x.rows }

/-- A warp whose record stands in its anchor slice. -/
def Warp.install (x : Warp) : Warp := { x with installed := true }

/-- A slice with a reservation less, and one with a record more. -/
def Slice.unreserve (sl : Slice) : Slice := { sl with reserved := sl.reserved - 1 }
def Slice.enter (r : ResRec) (sl : Slice) : Slice := { sl with res := sl.res ++ [r] }

theorem setRows_get (f : Nat → Row) (first : Nat) (rows : Tab Row) {c n : Nat} (hn : n < c) :
    ((List.range c).foldl (fun rows n => rows.set (first + n) (f n)) rows).get {} (first + n) = f n := by
  induction c with
  | zero => omega
  | succ c ih =>
    rw [List.range_succ, List.foldl_append, List.foldl_cons, List.foldl_nil]
    by_cases hc : n = c
    · rw [hc, Tab.get_set_self]
    · rw [Tab.get_set_other _ _ _ (by omega), ih (by omega)]

theorem find?_rangeMap (f : Nat → Word) {c k : Nat} (hk : k < c) : Tab.find? ((List.range c).map (fun k => (k, f k))) k = some (f k) := by
  have key (js : List Nat) (h : k ∈ js) : Tab.find? (js.map (fun k => (k, f k))) k = some (f k) := by
    induction js with
    | nil => cases h
    | cons j js ih =>
      rw [List.map_cons, Tab.find?_cons]
      by_cases hj : j = k
      · rw [if_pos hj, hj]
      · rw [if_neg hj]
        exact ih ((List.mem_cons.mp h).resolve_left fun h => hj h.symm)
  exact key _ (List.mem_range.mpr hk)

theorem locketRow_lane (l : Launch) (bs : List Byte) (n : Nat) {k : Nat} (hk : k < l.desc.lanes) :
    (locketRow l bs n).lane k = BitVec.ofNat 32 (fieldOf bs (256 * n + 4 * k) 4) := by
  unfold Row.lane locketRow
  rw [find?_rangeMap _ hk]
  rfl

theorem Warp.row_withLockets (l : Launch) (bs : List Byte) (x : Warp) {n : Nat} (hn : n < l.desc.globals - 96) :
    (x.withLockets l bs).row (l.desc.ring + 96 + n) = locketRow l bs n := setRows_get (locketRow l bs) _ _ hn

section
variable {s t u : State} {e : Instr} {w : WarpRef} {wp : Warp} {l : Launch} {tm : Team} {bs : List Byte}

theorem installLockets_anchored {home pa : Nat} (hw : s.warp? w = some wp) (ha : wp.anchor = some (home, pa)) :
    installLockets w l bs s = (((s.modWarp w (Warp.withLockets l bs)).modSlice home Slice.unreserve).modWarp w Warp.install).modSlice home
      (Slice.enter ⟨l.ctx, pa, wp.core, w, BitVec.ofNat 32 (fieldOf bs 8192 4)⟩) := by
  have hwarp : (s.modWarp w (Warp.withLockets l bs)).warp? w = some (wp.withLockets l bs) := by
    rw [State.warp?_modWarp_self, hw]
    rfl
  have hanchor : ((s.modWarp w (Warp.withLockets l bs)).warp? w).bind (·.anchor) = some (home, pa) := by
    rw [hwarp]
    exact ha
  have hin : installLockets w l bs s = installRecord w l.ctx (BitVec.ofNat 32 (fieldOf bs 8192 4))
      ((s.modWarp w (Warp.withLockets l bs)).modSlice home Slice.unreserve) := by
    unfold installLockets
    dsimp only
    change installRecord w l.ctx _ (match ((s.modWarp w (Warp.withLockets l bs)).warp? w).bind (·.anchor) with
      | some (h, _) => (s.modWarp w (Warp.withLockets l bs)).modSlice h Slice.unreserve
      | none => s.modWarp w (Warp.withLockets l bs)) = _
    rw [hanchor]
  have hor : warpOr ((s.modWarp w (Warp.withLockets l bs)).modSlice home Slice.unreserve) w = wp.withLockets l bs := by
    unfold warpOr
    exact congrArg (fun z => Option.getD z {}) hwarp
  rw [hin]
  unfold installRecord
  rw [hor]
  dsimp only
  rw [show (wp.withLockets l bs).anchor = some (home, pa) from ha]
  rfl

theorem installLockets_unanchored (hw : s.warp? w = some wp) (ha : wp.anchor = none) :
    installLockets w l bs s = (s.modWarp w (Warp.withLockets l bs)).modWarp w Warp.install := by
  have hwarp : (s.modWarp w (Warp.withLockets l bs)).warp? w = some (wp.withLockets l bs) := by
    rw [State.warp?_modWarp_self, hw]
    rfl
  have hanchor : ((s.modWarp w (Warp.withLockets l bs)).warp? w).bind (·.anchor) = none := by
    rw [hwarp]
    exact ha
  have hin : installLockets w l bs s = installRecord w l.ctx (BitVec.ofNat 32 (fieldOf bs 8192 4))
      (s.modWarp w (Warp.withLockets l bs)) := by
    unfold installLockets
    dsimp only
    change installRecord w l.ctx _ (match ((s.modWarp w (Warp.withLockets l bs)).warp? w).bind (·.anchor) with
      | some (h, _) => (s.modWarp w (Warp.withLockets l bs)).modSlice h Slice.unreserve
      | none => s.modWarp w (Warp.withLockets l bs)) = _
    rw [hanchor]
  have hor : warpOr (s.modWarp w (Warp.withLockets l bs)) w = wp.withLockets l bs := by
    unfold warpOr
    exact congrArg (fun z => Option.getD z {}) hwarp
  rw [hin]
  unfold installRecord
  rw [hor]
  dsimp only
  rw [show (wp.withLockets l bs).anchor = none from ha]
  rfl

/-- The warp has its lockets, and beside its slice nothing else has changed. -/
theorem installLockets_warp (hw : s.warp? w = some wp) :
    (installLockets w l bs s).warp? w = some (wp.withLockets l bs).install ∧ (installLockets w l bs s).mem = s.mem
      ∧ (installLockets w l bs s).trips = s.trips := by
  have hwarp (u : State) (hu : u.teams = (s.modWarp w (Warp.withLockets l bs)).teams) :
      (u.modWarp w Warp.install).warp? w = some (wp.withLockets l bs).install := by
    have hold : u.warp? w = (s.modWarp w (Warp.withLockets l bs)).warp? w := by
      unfold State.warp? State.team?
      rw [hu]
    rw [State.warp?_modWarp_self, hold, State.warp?_modWarp_self, hw]
    rfl
  cases ha : wp.anchor with
  | none =>
    rw [installLockets_unanchored hw ha]
    exact ⟨hwarp _ rfl, rfl, rfl⟩
  | some a =>
    rw [installLockets_anchored (home := a.1) (pa := a.2) hw ha]
    exact ⟨hwarp _ rfl, rfl, rfl⟩

/-- The record stands in the anchor slice, in place of the reservation. -/
theorem installLockets_slice {home pa : Nat} (hw : s.warp? w = some wp) (ha : wp.anchor = some (home, pa)) :
    (⟨l.ctx, pa, wp.core, w, BitVec.ofNat 32 (fieldOf bs 8192 4)⟩ : ResRec) ∈ ((installLockets w l bs s).slice home).res
      ∧ ((installLockets w l bs s).slice home).reserved = (s.slice home).reserved - 1 := by
  have hsl : (installLockets w l bs s).slice home
      = (s.slice home).unreserve.enter ⟨l.ctx, pa, wp.core, w, BitVec.ofNat 32 (fieldOf bs 8192 4)⟩ := by
    rw [installLockets_anchored hw ha, State.slice_modSlice, if_pos rfl]
    refine congrArg (Slice.enter _) ((State.slice_modSlice (s := s.modWarp w (Warp.withLockets l bs)) home home _).trans ?_)
    rw [if_pos rfl]
    rfl
  rw [hsl]
  exact ⟨List.mem_append_right _ (List.mem_singleton.mpr rfl), rfl⟩

end

/-! ## The request that restores a record (R88, R209) -/

/-- What a slice finds of a block's lines with memory errors. -/
def blockIll (u : State) (line : Nat) : Bool := (List.range 65).any (fun k => poisoned u (line + k))

/-- What the slice does for the restore of a record. -/
def installBody (w : WarpRef) (l : Launch) (shared : Bool) (x : Trip) (u : State) : Out :=
  .next (returned x (fun y => { y with bad := blockIll u x.line })
    (installLockets w l (blockBytes x (List.range 65) shared u).1 (blockBytes x (List.range 65) shared u).2))

/-- What the restore of a record does once its request is back, or where it has none. -/
def installHome (w : WarpRef) (l : Launch) (ts : List Trip) (u : State) : Out :=
  let v := unpin (.restoreRecordInstall w) (noteIll w.team ts u)
  if ts.isEmpty then .next (installLockets w l (freeBytes 16384 v).1 (freeBytes 16384 v).2) else .next v

section
variable {s t u : State} {e : Instr} {w : WarpRef} {wp : Warp} {l : Launch} {tm : Team} {home pa : Nat}

theorem exec_restoreRecordInstall (hw : s.warp? w = some wp) (hl : launchOf s w = some l) (htm : s.team? w.team = some tm)
    (hp : unpinned s (.restoreRecordInstall w) l.ctx [wp.imageBase] = []) :
    exec (.restoreRecordInstall w) s = journey (.restoreRecordInstall w) (.command tm.die)
      (locketStops s (.restoreRecordInstall w) l wp)
      (fun x s => atBlock (.restoreRecordInstall w) x (List.range 65) s (installBody w l tm.shared x)) (installHome w l) s := by
  show execRestoreRecordInstall w s = _
  unfold execRestoreRecordInstall
  rw [hl, hw, htm]
  exact withPins_there hp

theorem locketStops_of_anchor (ha : wp.anchor = some (home, pa)) (hn : areaAnchor s e wp.core l.ctx wp.imageBase ≠ none) :
    locketStops s e l wp = [⟨home, pa / 128, 128⟩] := by
  obtain ⟨x, hx⟩ := Option.ne_none_iff_exists'.mp hn
  unfold locketStops
  rw [hx, ha]

theorem locketStops_of_none (hn : areaAnchor s e wp.core l.ctx wp.imageBase = none) : locketStops s e l wp = [] := by
  unfold locketStops
  rw [hn]

theorem noteIll_good {ts : List Trip} (h : ∀ x ∈ ts, x.bad = false) (n : Nat) : noteIll n ts s = s := by
  have hnone : ts.find? (·.bad) = none := List.find?_eq_none.mpr fun x hx => by simp [h x hx]
  unfold noteIll
  rw [hnone]

/-- With its image page gone a warp's lockets hold contained results (R388). -/
theorem exec_restoreRecordInstall_free (hw : s.warp? w = some wp) (hl : launchOf s w = some l) (htm : s.team? w.team = some tm)
    (hp : unpinned s (.restoreRecordInstall w) l.ctx [wp.imageBase] = [])
    (hn : areaAnchor s (.restoreRecordInstall w) wp.core l.ctx wp.imageBase = none) (ht : s.tripsOf (.restoreRecordInstall w) = []) :
    ∃ t wp', exec (.restoreRecordInstall w) s = .next t ∧ t.warp? w = some wp' ∧ wp'.installed = true
      ∧ ∀ a, t.mem.byte a = s.mem.byte a := by
  obtain ⟨v, hv⟩ : ∃ v, unpin (.restoreRecordInstall w) (s.endTrips (.restoreRecordInstall w)) = v := ⟨_, rfl⟩
  have hvw : v.warp? w = some wp := by
    rw [← hv]
    exact hw
  have hvm : v.mem = s.mem := by
    rw [← hv]
    rfl
  obtain ⟨hwarp, hmem, -⟩ := installLockets_warp (s := (freeBytes 16384 v).2) (l := l) (bs := (freeBytes 16384 v).1) (w := w) (wp := wp) hvw
  refine ⟨_, _, ?_, hwarp, rfl, fun a => congrArg (Memory.byte · a) (hmem.trans hvm)⟩
  rw [exec_restoreRecordInstall hw hl htm hp, locketStops_of_none hn, journey_none, ht]
  unfold installHome
  rw [noteIll_good (fun x hx => absurd hx List.not_mem_nil), hv]
  rfl

/-- The reply to a restore's request has come: nothing is left to do. -/
theorem exec_restoreRecordInstall_back (hw : s.warp? w = some wp) (hl : launchOf s w = some l) (htm : s.team? w.team = some tm)
    (hp : unpinned s (.restoreRecordInstall w) l.ctx [wp.imageBase] = []) (ha : wp.anchor = some (home, pa))
    (hn : areaAnchor s (.restoreRecordInstall w) wp.core l.ctx wp.imageBase ≠ none)
    (hback : allBack (s.tripsOf (.restoreRecordInstall w)) [⟨home, pa / 128, 128⟩] = true)
    (hgood : ∀ x ∈ s.tripsOf (.restoreRecordInstall w), x.bad = false) :
    ∃ t, exec (.restoreRecordInstall w) s = .next t ∧ t.warp? w = some wp ∧ t.slices = s.slices ∧ ∀ a, t.mem.byte a = s.mem.byte a := by
  have hsome : (s.tripsOf (.restoreRecordInstall w)).isEmpty = false := by
    cases htr : s.tripsOf (.restoreRecordInstall w) with
    | nil =>
      rw [htr] at hback
      exact absurd hback (by simp [allBack, tripFor])
    | cons x xs => rfl
  refine ⟨unpin (.restoreRecordInstall w) (s.endTrips (.restoreRecordInstall w)), ?_, hw, rfl, fun _ => rfl⟩
  rw [exec_restoreRecordInstall hw hl htm hp, locketStops_of_anchor ha hn, journey_home hback]
  unfold installHome
  rw [noteIll_good hgood, hsome]
  rfl

theorem exec_restoreRecordInstall_leaves (hw : s.warp? w = some wp) (hl : launchOf s w = some l) (htm : s.team? w.team = some tm)
    (hp : unpinned s (.restoreRecordInstall w) l.ctx [wp.imageBase] = []) (ha : wp.anchor = some (home, pa))
    (hn : areaAnchor s (.restoreRecordInstall w) wp.core l.ctx wp.imageBase ≠ none)
    (h : s.leaves (.restoreRecordInstall w) (.command tm.die) [⟨home, pa / 128, 128⟩] ⟨home, pa / 128, 128⟩) :
    ∃ t, exec (.restoreRecordInstall w) s = .next t
      ∧ s.left (.restoreRecordInstall w) (.command tm.die) ⟨home, pa / 128, 128⟩ t := by
  rw [exec_restoreRecordInstall hw hl htm hp, locketStops_of_anchor ha hn]
  exact journey_leaves _ _ h

/-! ### The lockets among the bytes of their area -/

theorem blockBytes_area {x : Trip} (hs : ∀ k ∈ List.range 65, poisoned u (x.line + k) = false)
    (hm : ∀ k ∈ List.range 65, mixedHome u x.home (x.line + k) = false) :
    ∃ bs, blockBytes x (List.range 65) false u = (bs, u)
      ∧ ∀ o k, o + k ≤ 128 * 65 → fieldOf bs o k = u.mem.nat (128 * x.line + o) k := by
  obtain ⟨rest, hrest⟩ := blockLines_head x.line 65 u.mem (by omega)
  exact ⟨_, blockBytes_eq x _ u hs hm, fun o k hok => by rw [hrest, fieldOf_read _ _ _ _ _ _ hok]⟩

/-- A locket's full bit and words are those of its area. -/
theorem withLockets_area {m : Memory} {a : Nat} {bs : List Byte} (hbs : ∀ o k, o + k ≤ 128 * 65 → fieldOf bs o k = m.nat (a + o) k)
    (hg : l.desc.globals ≤ 128) (hlanes : l.desc.lanes ≤ 64) {n k : Nat} (hn : n < l.desc.globals - 96) (hk : k < l.desc.lanes) (x : Warp) :
    ((x.withLockets l bs).row (l.desc.ring + 96 + n)).full = (BitVec.ofNat 32 (m.nat (a + 8192) 4)).getLsbD n
      ∧ ((x.withLockets l bs).row (l.desc.ring + 96 + n)).lane k = BitVec.ofNat 32 (m.nat (a + 256 * n + 4 * k) 4) := by
  rw [Warp.row_withLockets _ _ _ hn]
  constructor
  · rw [BitVec.getLsbD_ofNat, decide_eq_true (show n < 32 by omega), Bool.true_and, Nat.testBit_eq_decide_div_mod_eq,
      ← hbs 8192 4 (by omega)]
    rfl
  · rw [locketRow_lane _ _ _ hk, hbs _ 4 (by omega), Nat.add_assoc]

/-- The area's lines as a request takes them. -/
def areaLines (home line : Nat) : List (Nat × Nat) := (List.range 65).map (fun k => (home, line + k))

theorem areaLines_nodup (home line : Nat) : (areaLines home line).Nodup :=
  List.Nodup.map (fun _ _ h => Nat.add_left_cancel (Prod.mk.inj h).2) List.nodup_range

/-- The core has the lockets, and the slice the record (R88, R209). -/
theorem exec_restoreRecordInstall_comes {x : Trip} (hw : s.warp? w = some wp) (hl : launchOf s w = some l)
    (htm : s.team? w.team = some tm) (hp : unpinned s (.restoreRecordInstall w) l.ctx [wp.imageBase] = [])
    (ha : wp.anchor = some (home, pa)) (hn : areaAnchor s (.restoreRecordInstall w) wp.core l.ctx wp.imageBase ≠ none)
    (h : s.comes (.restoreRecordInstall w) (.command tm.die) [⟨home, pa / 128, 128⟩] x) (hx : x.stop = ⟨home, pa / 128, 128⟩)
    (hshared : tm.shared = false) (hpa : pa % 16384 = 0) (hg : l.desc.globals ≤ 128) (hlanes : l.desc.lanes ≤ 64)
    (hv : s.servedAll (areaLines home (pa / 128)) (.restoreRecordInstall w))
    {mask : BitVec 32} (hmask : BitVec.ofNat 32 (s.mem.nat (pa + 8192) 4) = mask) :
    ∃ t wp', exec (.restoreRecordInstall w) s = .next t ∧ t.warp? w = some wp' ∧ wp'.installed = true
      ∧ t.replies (.restoreRecordInstall w) x (fun y => y.bad = false)
      ∧ (⟨l.ctx, pa, wp.core, w, mask⟩ : ResRec) ∈ (t.slice home).res
      ∧ (t.slice home).reserved = (s.slice home).reserved - 1
      ∧ (∀ n k, n < l.desc.globals - 96 → k < l.desc.lanes →
        (wp'.row (l.desc.ring + 96 + n)).full = mask.getLsbD n
        ∧ (wp'.row (l.desc.ring + 96 + n)).lane k = BitVec.ofNat 32 (s.mem.nat (pa + 256 * n + 4 * k) 4))
      ∧ ∀ a, t.mem.byte a = s.mem.byte a := by
  have hhome : x.home = home := congrArg Stop.home hx
  have hline : x.line = pa / 128 := congrArg Stop.line hx
  have hblock : 128 * (pa / 128) = pa := by omega
  obtain ⟨n, hgo⟩ := journey_comes h
  have hsteady : Steady (areaLines home (pa / 128))
      (turns false (.restoreRecordInstall w) (inOrder (areaLines home (pa / 128))) (s.there x n)) :=
    Steady.turns hv.one (fun y hy => mem_inOrder.mp hy) (Steady.congr (s := s) (u := s.there x n) hv.steady rfl rfl fun _ _ => rfl)
  have hturned := turns_turned (stream := false) (e := .restoreRecordInstall w) (inOrder (areaLines home (pa / 128))) (s.there x n)
  have hdone {k : State → Out} {t : State} := atSlices_done (stream := false) (s := s.there x n) (e := .restoreRecordInstall w) (k := k) (t := t)
    (areaLines_nodup home (pa / 128)) (fun y hy => (hv.each y hy).idleAt.there x n)
  obtain ⟨u, hu⟩ : ∃ u, turns false (.restoreRecordInstall w) (inOrder (areaLines home (pa / 128))) (s.there x n) = u := ⟨_, rfl⟩
  rw [hu] at hsteady hturned hdone
  have hsound (k : Nat) (hk : k ∈ List.range 65) : poisoned u (x.line + k) = false := by
    unfold poisoned
    rw [hturned.poison, hline]
    exact (hv.each (home, pa / 128 + k) (List.mem_map_of_mem hk)).sound
  have hsingle (k : Nat) (hk : k ∈ List.range 65) : mixedHome u x.home (x.line + k) = false := by
    rw [hhome, hline]
    exact hsteady.single (x := (home, pa / 128 + k)) (List.mem_map_of_mem hk)
  have hill : blockIll u x.line = false := List.any_eq_false.mpr fun k hk => by simp [hsound k hk]
  obtain ⟨bs, hbytes, hfields⟩ := blockBytes_area hsound hsingle
  rw [hline, hblock, hturned.mem, State.there_mem] at hfields
  have huw : u.warp? w = some wp := by
    unfold State.warp? State.team? at hw ⊢
    rw [hturned.teams]
    exact hw
  obtain ⟨hwarp, hmem, htrips⟩ := installLockets_warp (l := l) (bs := bs) huw
  obtain ⟨hres, hrsv⟩ := installLockets_slice (l := l) (bs := bs) huw ha
  rw [hfields 8192 4 (by omega), hmask] at hres
  obtain ⟨v, hv'⟩ : ∃ v, installLockets w l bs u = v := ⟨_, rfl⟩
  rw [hv'] at hwarp hmem htrips hres hrsv
  have hbody : installBody w l tm.shared x u = .next (returned x (fun y => { y with bad := false }) v) := by
    unfold installBody
    rw [hshared, hbytes, hill, hv']
  obtain ⟨es, hes⟩ := hdone hbody
  have hlook : atBlock (.restoreRecordInstall w) x (List.range 65) (s.there x n) (installBody w l tm.shared x)
      = .next ((returned x (fun y => { y with bad := false }) v).ahead es) := by
    unfold atBlock
    rw [hhome, hline]
    exact hes
  have hreply : ((returned x (fun y => { y with bad := false }) v).push [.restoreRecordInstall w]).replies (.restoreRecordInstall w) x
      (fun y => y.bad = false) := returned_replies h.mem (htrips.trans hturned.trips) (fun _ => rfl) fun _ _ => rfl
  refine ⟨((returned x (fun y => { y with bad := false }) v).ahead es).push [.restoreRecordInstall w], (wp.withLockets l _).install,
    ?_, hwarp, rfl, hreply.before rfl fun i hi => ?_, hres, ?_, fun n k hn hk => ?_, fun a => ?_⟩
  · rw [exec_restoreRecordInstall hw hl htm hp, locketStops_of_anchor ha hn]
    exact hgo (fun x s => atBlock (.restoreRecordInstall w) x (List.range 65) s (installBody w l tm.shared x)) (installHome w l)
      ((returned x (fun y => { y with bad := false }) v).ahead es) hlook
  · simp only [State.push_agenda, State.ahead, List.mem_append] at hi ⊢
    exact hi.imp_left .inr
  · exact hrsv.trans (congrArg (· - 1) (hturned.reserved home))
  · rw [← hmask]
    exact withLockets_area hfields hg hlanes hn hk wp
  · exact congrArg (Memory.byte · a) (hmem.trans hturned.mem)

end

/-- The requests of cores for an anchor slice. -/
def anchorEvents (id : Nat) : List Instr := [.remoteWriteApply id, .tokenApply id, .emptyRequestApply id, .mintRequestApply id]

section
variable {s : State} {id : Nat} {o : Op} {p : Part} {e : Instr}

theorem exec_anchor_unsent (h : s.reqPart ⟨id, 0⟩ = some (o, p)) (hs : p.sent = false) (he : e ∈ anchorEvents id) :
    exec e s = .next (leaveCore ⟨id, 0⟩ e o p s) := by
  simp only [anchorEvents, List.mem_cons, List.not_mem_nil, or_false] at he
  obtain rfl | rfl | rfl | rfl := he
  · show locketOp id (.remoteWriteApply id) s = _
    exact request_leaves h hs
  · show locketOp id (.tokenApply id) s = _
    exact request_leaves h hs
  · show execEmptyRequestApply id s = _
    exact request_leaves h hs
  · show execMintRequestApply id s = _
    exact request_leaves h hs

theorem exec_anchor_leaves (h : s.reqPart ⟨id, 0⟩ = some (o, p)) (hs : p.sent = false) (hr : p.rem = none) (hl : o.lineAccess = false)
    (he : e ∈ anchorEvents id) :
    ∃ t, exec e s = .next t ∧ s.left e (.core o.core) ⟨p.home, p.line, 1⟩ t
      ∧ (t.ops.find? id).bind (fun x => x.parts[0]?) = some { p with sent := true } := by
  obtain ⟨hleft, hpart⟩ := leaveCore_left (e := e) h hr fun hline => absurd hline (by simp [hl])
  exact ⟨_, exec_anchor_unsent h hs he, hleft, now_of_reqPart hpart⟩

end

/-- Settles O42, clause by clause: requests leave; a signet's request, an EMPTY and a MINT are answered at the slice; a delivery
and a token reach their warp; and a record is removed from its slice and installed there. -/
theorem anchorRequests : Obligations.AnchorRequests := by
  unfold Obligations.AnchorRequests
  intro s id o hinv ho q g home base ctx j full same refusal code turn
  have hpart {p : Part} (hp : o.parts[0]? = some p) : s.reqPart ⟨id, 0⟩ = some (o, p) := State.reqPart_eq_some.mpr ⟨ho, hp⟩
  have hrefusal : signetCode s q = refusal := signetCode_eq s q
  have hcode : signetAnswer s q full = code := by
    unfold signetAnswer
    rw [hrefusal]
    rfl
  refine ⟨fun p hp hs hrem hl e he => exec_anchor_leaves (hpart hp) hs hrem hl he, fun p hp hs e he => ⟨fun hlook ht => ?_,
    fun href hr => ⟨fun hv => ?_, fun hi hpois => ?_⟩⟩, fun p hp hs hcase => ?_, fun p a hp hs hl ha hc hh => ?_,
    fun w wp l n m vs hw hl => exec_locketDelivery n m vs hw hl, fun w tk hk hw htk => ⟨fun hsat => ?_, fun hsat => ?_⟩,
    fun w wp l tm hw hl htm => ⟨⟨fun h base ha => ⟨fun hlv => ?_, fun x r hx hstop hbase hr hv => ?_⟩, fun ha => ⟨fun ht => ?_,
      fun ht hd => ?_⟩⟩, ?_, fun hp => ⟨fun h pa ha hn => ⟨fun hlv => ?_, fun x hx hstop hsh hpa hg hla hv => ?_, fun hb hgood => ?_⟩,
      fun hn ht => ?_⟩⟩⟩
  · rw [← hrefusal] at hlook
    have hreply := exec_signet_unlooked (q := q) rfl he (hpart hp) hs hlook ht.1 ht.2 (full := full) rfl
    rw [hcode] at hreply
    exact hreply
  · have hreply := exec_signet_saved (q := q) rfl hinv.memory he (hpart hp) hs (hrefusal.trans href) hr hv (full := full) rfl
    rw [hcode] at hreply
    exact hreply
  · exact exec_signet_poisoned (q := q) rfl he (hpart hp) hs (hrefusal.trans href) hr
      (fun x hx => ⟨(hi x hx).1.1, (hi x hx).2.1, (hi x hx).2.2, (hi x hx).1.2⟩) hpois
  · obtain ⟨hr, ht⟩ | ⟨hr, hv⟩ := hcase
    · obtain ⟨t, hex, hans, hmask, hm⟩ := exec_empty_resident (hpart hp) hs hr ht.1 ht.2
      exact ⟨t, hex, hans, hmask, fun a _ => hm a⟩
    · exact exec_empty_saved hinv.memory (hpart hp) hs hr hv
  · obtain ⟨t, hex, hans, hdata, hm⟩ := exec_mint_signet (p := p) (hpart (by rw [hp]; rfl)) hs (m := mintSignet s o) rfl
    refine ⟨t, _, _, hex, hans, hdata, ?_, hm⟩
    rw [append_extract]
    exact mintSignet_fields hl hp ha hc hh rfl
  · exact exec_ksendTokenSend_sent ho hk hw htk hsat
  · exact exec_ksendTokenSend_waits ho hw htk hsat
  · exact exec_saveRecordRemove_leaves hw ha hlv
  · exact exec_saveRecordRemove_comes hinv.memory hw ha hx hstop hbase hr hv
  · exact exec_saveRecordRemove_none ha ht
  · exact exec_saveRecordRemove_ends ha ht hd
  · exact exec_flushMarkerArrival hw
  · exact exec_restoreRecordInstall_leaves hw hl htm hp ha hn hlv
  · exact exec_restoreRecordInstall_comes hw hl htm hp ha hn hx hstop hsh hpa hg hla hv rfl
  · exact exec_restoreRecordInstall_back hw hl htm hp ha hn hb hgood
  · exact exec_restoreRecordInstall_free hw hl htm hp hn ht

end Sys2Proof.Machine

namespace Sys2Proof.Machine

/-! ## Commands of the host: who may give them (R367, R374, R418) -/

section
variable {s : State} {c : Cmd} {e : Instr}

/-- The command's session may give it: neither its rank nor a recovery refuses it. -/
theorem withSession_passes {opc : Nat} {k : State → Out} (hr : s.recovery = false)
    (hp : privileged e = true → (s.sessions.find? c.session).map (·.priv) = some true) : withSession c opc e s k = k s := by
  have hpriv : (privileged e && !((s.sessions.find? c.session).map (·.priv)).getD false) = false := by
    cases h : privileged e with
    | false => rfl
    | true => simp [hp h]
  unfold withSession
  simp only [hpriv, hr, Bool.false_and, Bool.or_self, Bool.false_eq_true, if_false]

theorem State.mayGive.session {opc : Nat} {k : State → Out} (h : s.mayGive c e) : withSession c opc e s k = k s :=
  withSession_passes h.awake h.rank

theorem State.mayGive.context {opc ctx : Nat} {k : State → Out} (h : s.mayGive c e) (hc : hostContext e = some ctx) :
    withContext c opc ctx e s k = k s := by
  have hheld : (!privileged e && !(s.context ctx).sessions.contains c.session) = false := by
    cases hp : privileged e with
    | true => rfl
    | false => simp [h.held ctx hc hp]
  unfold withContext
  rw [h.session]
  simp only [h.live ctx hc, hheld, Bool.not_true, Bool.false_eq_true, if_false]

end

/-! ## Queue records (R375, R376) -/

section
variable {s : State}

theorem Tab.find?_mapVal {α β : Type} (f : α → β) (t : Tab α) (k : Nat) :
    Tab.find? (t.map fun e => (e.1, f e.2)) k = (t.find? k).map f := by
  induction t with
  | nil => rfl
  | cons e t ih =>
    rw [List.map_cons, Tab.find?_cons, Tab.find?_cons, ih]
    split <;> rfl

/-- Each die changed in the same way; what no one has named stays as the change leaves an untouched one. -/
theorem State.die_mapDies {f : Die → Die} (hf : f {} = {}) (d : Nat) :
    ({ s with dies := s.dies.map fun e => (e.1, f e.2) } : State).die d = f (s.die d) := by
  show Tab.get {} (s.dies.map fun e => (e.1, f e.2)) d = f (Tab.get {} s.dies d)
  unfold Tab.get
  rw [Tab.find?_mapVal]
  cases s.dies.find? d with
  | none => exact hf.symm
  | some x => rfl

theorem State.queue_modDie {f : Die → Die} (hf : ∀ x, (f x).queues = x.queues) (die d n : Nat) :
    (s.modDie die f).queue d n = s.queue d n := by
  unfold State.queue
  rw [State.die_modDie]
  split
  · next h => rw [hf, h]
  · rfl

theorem queue_modQueue (d n : Nat) (f : QueueRec → QueueRec) (d' n' : Nat) :
    (modQueue d n f s).queue d' n' = if d' = d ∧ n' = n then f (s.queue d n) else s.queue d' n' := by
  unfold modQueue State.queue
  rw [State.die_modDie]
  by_cases hd : d' = d
  · subst hd
    by_cases hn : n' = n
    · subst hn
      simp
    · simp [hn, Tab.get_modify_other]
  · simp [hd]

/-- An update by the owner changes its own record, and with it VERSION. -/
theorem queue_updateQueue (d n : Nat) (f : QueueRec → QueueRec) (d' n' : Nat) :
    (updateQueue d n f s).queue d' n'
      = if d' = d ∧ n' = n then { f (s.queue d n) with version := (s.queue d n).version + 1 } else s.queue d' n' := by
  let g : Die → Die := fun x => { x with replicas := x.replicas.erase (replicaIndex d n) }
  let u : State := { s with dies := s.dies.map fun e => (e.1, g e.2) }
  have hu (i j : Nat) : u.queue i j = s.queue i j := by
    unfold State.queue
    rw [State.die_mapDies (f := g) rfl i]
  have h := queue_modQueue (s := u) d n (fun q => { f q with version := q.version + 1 }) d' n'
  rw [hu, hu] at h
  exact h

end

end Sys2Proof.Machine

namespace Sys2Proof.Machine

/-! ## Kicks, bindings and resumes (R374 to R378) -/

section
variable {s : State} {c : Cmd} {ctx qid : Nat}

theorem leaveSlot_eq (d n : Nat) (s : State) : ∃ ds cs, leaveSlot d n s = { s with dies := ds, contexts := cs } := by
  unfold leaveSlot
  dsimp only
  split
  · exact ⟨_, _, rfl⟩
  · exact ⟨_, _, rfl⟩

@[simp] theorem leaveSlot_mem (d n : Nat) (s : State) : (leaveSlot d n s).mem = s.mem := by
  obtain ⟨ds, cs, h⟩ := leaveSlot_eq d n s
  rw [h]

/-- A slot that its queue has left is free. -/
theorem leaveSlot_free (d n : Nat) (s : State) : ((leaveSlot d n s).queue d n).state = 0 := by
  unfold leaveSlot
  dsimp only
  split
  · next h => exact h
  · rw [queue_updateQueue, if_pos ⟨rfl, rfl⟩]

theorem modUserQueue_find (ctx qid : Nat) (f : UserQueue → UserQueue) (s : State) :
    ((modUserQueue ctx qid f s).context ctx).queues.find? qid = ((s.context ctx).queues.find? qid).map f := by
  unfold modUserQueue
  rw [State.context_modContext, if_pos rfl]
  exact Tab.find?_adjust_self _ _ _

/-- A free slot that a queue takes runs it from where the queue stood. -/
theorem bindSlot_bound {x : Nat × Nat} {u : UserQueue} (hu : (s.context ctx).queues.find? qid = some u)
    (hx : (s.queue x.1 x.2).state = 0) :
    ((bindSlot ctx qid x s).context ctx).queues.find? qid = some { u with slot := some x, pending := none }
      ∧ (bindSlot ctx qid x s).queue x.1 x.2 = { s.queue x.1 x.2 with
          ring := u.ring, ctx := ctx, qid := qid, logcap := u.logcap, state := if u.stopped then 2 else 1, head := u.head
          kick := max u.head ((u.pending.map (·.toNat)).getD 0), err := u.err, last := s.tick, busy := false
          version := (s.queue x.1 x.2).version + 1 }
      ∧ (bindSlot ctx qid x s).mem = s.mem := by
  have hleave : leaveSlot x.1 x.2 s = s := by
    unfold leaveSlot
    simp [hx]
  unfold bindSlot
  rw [hu]
  dsimp only
  rw [hleave]
  refine ⟨?_, ?_, rfl⟩
  · refine (modUserQueue_find ..).trans ?_
    exact congrArg (Option.map _) hu
  · exact (queue_updateQueue ..).trans (if_pos ⟨rfl, rfl⟩)

theorem exec_kick_unbound {value : Dword} (h : s.mayGive c (.kick c ctx qid value))
    (hu : (s.context ctx).queues.find? qid = none) : exec (.kick c ctx qid value) s = .next (reply c 3 12 0 [] s) := by
  show execKick c ctx qid value s = _
  unfold execKick
  rw [h.context rfl, hu]
  rfl

theorem exec_kick_slot {value : Dword} {u : UserQueue} {x : Nat × Nat} (h : s.mayGive c (.kick c ctx qid value))
    (hu : (s.context ctx).queues.find? qid = some u) (hx : u.slot = some x) :
    exec (.kick c ctx qid value) s = .next (reply c 3 0 0 [] (mergeKick x.1 x.2 value.toNat s)) := by
  show execKick c ctx qid value s = _
  unfold execKick
  rw [h.context rfl, hu]
  dsimp only
  rw [hx]
  rfl

theorem mergeKick_queue (d n value : Nat) (s : State) : ((mergeKick d n value s).queue d n).kick = max (s.queue d n).kick value
    ∧ ((mergeKick d n value s).queue d n).head = (s.queue d n).head := by
  have h : (mergeKick d n value s).queue d n = { s.queue d n with kick := max (s.queue d n).kick value, last := s.tick } :=
    (queue_modQueue ..).trans (if_pos ⟨rfl, rfl⟩)
  rw [h]
  exact ⟨rfl, rfl⟩

/-- A kick of a queue that waits for a slot raises its pending value. -/
def UserQueue.kicked (value : Dword) (u : UserQueue) : UserQueue :=
  { u with pending := some (match u.pending with
      | some p => if p.toNat < value.toNat then value else p
      | none => value) }

theorem UserQueue.kicked_pending (value : Dword) (u : UserQueue) : (u.kicked value).pending
    = some (if value.toNat ≤ (u.pending.getD 0).toNat ∧ u.pending ≠ none then u.pending.getD 0 else value) := by
  unfold UserQueue.kicked
  cases u.pending with
  | none => simp
  | some p =>
    by_cases h : p.toNat < value.toNat
    · simp [h, Nat.not_le.mpr h]
    · simp [h, Nat.not_lt.mp h]

theorem exec_kick_pending {value : Dword} {u : UserQueue} (h : s.mayGive c (.kick c ctx qid value))
    (hu : (s.context ctx).queues.find? qid = some u) (hx : u.slot = none) :
    exec (.kick c ctx qid value) s = .next (reply c 3 0 0 []
      ((modUserQueue ctx qid (UserQueue.kicked value) s).pushOnce (.queueBindPending ctx qid))) := by
  show execKick c ctx qid value s = _
  unfold execKick
  rw [h.context rfl, hu]
  dsimp only
  rw [hx]
  rfl

theorem pushOnce_eq (e : Instr) (s : State) : ∃ es, s.pushOnce e = { s with agenda := es } ∧ e ∈ es := by
  unfold State.pushOnce
  split
  · next h => exact ⟨_, rfl, by simpa using h⟩
  · exact ⟨_, rfl, by simp⟩

/-! ### Bindings -/

/-- A queue's ring is refused (R374). -/
def badRing (qid logcap : Nat) (ring : Dword) : Prop := 1024 ≤ qid ∨ logcap = 0 ∨ 20 < logcap ∨ ring.toNat % 64 ≠ 0

/-- The queue's ring is recorded, in the place of any one before it. -/
def ringRecorded (ctx qid logcap : Nat) (ring : Dword) (s : State) : State :=
  (match slotOf s ctx qid with
    | some x => leaveSlot x.1 x.2 s
    | none => s).modContext ctx (fun x => { x with queues := x.queues.set qid { ring := ring, logcap := logcap } })

/-- The slots that hold no queue. -/
def freeSlots (s : State) : List (Nat × Nat) := slotList.filter (fun x => (s.queue x.1 x.2).state = 0)

/-- The recorded queue takes one of the free slots, if there is one. -/
def ringBound (ctx qid : Nat) (s : State) : State :=
  let p := s.choose (freeSlots s).length
  match (freeSlots s)[p.1]? with
  | some x => bindSlot ctx qid x p.2
  | none => s

theorem exec_bindUserQueue_refused {logcap : Nat} {ring : Dword} (h : s.mayGive c (.bindUserQueue c ctx qid logcap ring))
    (hb : badRing qid logcap ring) : exec (.bindUserQueue c ctx qid logcap ring) s = .next (reply c 0x20 1 0 [] s) := by
  show execBindUserQueue c ctx qid logcap ring s = _
  unfold execBindUserQueue
  rw [h.context rfl, if_pos]
  · rfl
  · simpa [badRing, or_assoc] using hb

theorem exec_bindUserQueue {logcap : Nat} {ring : Dword} (h : s.mayGive c (.bindUserQueue c ctx qid logcap ring))
    (hb : ¬ badRing qid logcap ring) : exec (.bindUserQueue c ctx qid logcap ring) s
      = .next (reply c 0x20 0 0 [] (ringBound ctx qid (ringRecorded ctx qid logcap ring s))) := by
  show execBindUserQueue c ctx qid logcap ring s = _
  unfold execBindUserQueue
  rw [h.context rfl, if_neg]
  · rfl
  · simpa [badRing, or_assoc] using hb

theorem ringRecorded_mem (logcap : Nat) (ring : Dword) : (ringRecorded ctx qid logcap ring s).mem = s.mem := by
  unfold ringRecorded
  split
  · exact leaveSlot_mem _ _ s
  · rfl

theorem ringRecorded_find (logcap : Nat) (ring : Dword) :
    ((ringRecorded ctx qid logcap ring s).context ctx).queues.find? qid = some { ring := ring, logcap := logcap } := by
  unfold ringRecorded
  rw [State.context_modContext, if_pos rfl]
  exact Tab.find?_set_self _ _ _

/-- A queue just recorded takes a free slot and starts from 0, or finds none. -/
theorem ringBound_bound {ring : Dword} {logcap : Nat}
    (hu : (s.context ctx).queues.find? qid = some { ring := ring, logcap := logcap }) :
    (ringBound ctx qid s).mem = s.mem
      ∧ ∃ u, ((ringBound ctx qid s).context ctx).queues.find? qid = some u ∧ u.ring = ring ∧ u.logcap = logcap
        ∧ u.pending = none ∧ (u.slot = none → ∀ x ∈ slotList, ((ringBound ctx qid s).queue x.1 x.2).state ≠ 0)
        ∧ ∀ x, u.slot = some x → (let q := (ringBound ctx qid s).queue x.1 x.2
          q.state = 1 ∧ q.ring = ring ∧ q.ctx = ctx ∧ q.qid = qid ∧ q.logcap = logcap ∧ q.head = 0 ∧ q.kick = 0 ∧ q.err = 0) := by
  obtain ⟨n, hn⟩ := s.choose_eq (freeSlots s).length
  unfold ringBound
  dsimp only
  split
  · next x hx =>
    have hfree : (s.queue x.1 x.2).state = 0 := by
      simpa using (List.mem_filter.mp (List.mem_of_getElem? hx)).2
    rw [hn]
    obtain ⟨hf, hq, hm⟩ := bindSlot_bound (s := { s with free := n }) hu hfree
    refine ⟨hm, _, hf, rfl, rfl, rfl, fun h => (Option.some_ne_none x h).elim, fun y hy => ?_⟩
    obtain rfl : x = y := Option.some.inj hy
    rw [hq]
    exact ⟨rfl, rfl, rfl, rfl, rfl, rfl, rfl, rfl⟩
  · next hx =>
    refine ⟨rfl, _, hu, rfl, rfl, rfl, fun _ x hxl hx0 => ?_, fun x h => (Option.some_ne_none x h.symm).elim⟩
    have hpos : 0 < (freeSlots s).length := List.length_pos_of_mem (List.mem_filter.mpr ⟨hxl, by simpa using hx0⟩)
    exact absurd (List.getElem?_eq_none_iff.mp hx) (Nat.not_le.mpr (choose_lt hpos))

theorem exec_unbind_unknown (h : s.mayGive c (.unbindUserQueue c ctx qid)) (hu : (s.context ctx).queues.find? qid = none) :
    exec (.unbindUserQueue c ctx qid) s = .next (reply c 0x21 12 0 [] s) := by
  show execUnbindUserQueue c ctx qid s = _
  unfold execUnbindUserQueue
  rw [h.context rfl, hu]
  rfl

/-- A slot, if there is one, is left by its queue. -/
def slotLeft (x : Option (Nat × Nat)) (s : State) : State :=
  match x with
  | some x => leaveSlot x.1 x.2 s
  | none => s

theorem slotLeft_mem (x : Option (Nat × Nat)) (s : State) : (slotLeft x s).mem = s.mem := by
  cases x with
  | none => rfl
  | some x => exact leaveSlot_mem _ _ s

theorem exec_unbind {u : UserQueue} (h : s.mayGive c (.unbindUserQueue c ctx qid))
    (hu : (s.context ctx).queues.find? qid = some u) : exec (.unbindUserQueue c ctx qid) s
      = .next (reply c 0x21 0 0 [] ((slotLeft u.slot s).modContext ctx (fun x => { x with queues := x.queues.erase qid }))) := by
  show execUnbindUserQueue c ctx qid s = _
  unfold execUnbindUserQueue
  rw [h.context rfl, hu]
  rfl

/-! ### Resumes -/

/-- The event of a resume: with the failed command once more, or past it. -/
def resumeEvent (c : Cmd) (ctx qid : Nat) (skip : Bool) : Instr :=
  if skip then .resumeQueueSkip c ctx qid else .resumeQueueRetry c ctx qid

theorem exec_resume (skip : Bool) (s : State) :
    exec (resumeEvent c ctx qid skip) s = resumeQueue c ctx qid skip (resumeEvent c ctx qid skip) s := by
  cases skip <;> rfl

theorem hostContext_resume (skip : Bool) : hostContext (resumeEvent c ctx qid skip) = some ctx := by
  cases skip <;> rfl

theorem hostOpcode_resume (skip : Bool) : hostOpcode (resumeEvent c ctx qid skip) = 0x22 := by
  cases skip <;> rfl

/-- A queue without a slot goes on, past its failed command or not. -/
def UserQueue.resumed (skip : Bool) (u : UserQueue) : UserQueue :=
  { u with stopped := false, head := if skip && u.pending.any (fun p => u.head < p.toNat) then u.head + 1 else u.head }

/-- A stopped queue's record as it goes on. -/
def QueueRec.resumed (skip : Bool) (q : QueueRec) : QueueRec :=
  { q with state := 1, busy := false, head := if skip && q.head < q.kick then q.head + 1 else q.head }

variable {skip : Bool}

theorem exec_resume_unknown (h : s.mayGive c (resumeEvent c ctx qid skip)) (hu : (s.context ctx).queues.find? qid = none) :
    exec (resumeEvent c ctx qid skip) s = .next (reply c (hostOpcode (resumeEvent c ctx qid skip)) 12 0 [] s) := by
  rw [hostOpcode_resume, exec_resume]
  unfold resumeQueue
  rw [h.context (hostContext_resume skip), hu]
  rfl

theorem exec_resume_running {u : UserQueue} {x : Nat × Nat} (h : s.mayGive c (resumeEvent c ctx qid skip))
    (hu : (s.context ctx).queues.find? qid = some u) (hx : u.slot = some x) (hs : (s.queue x.1 x.2).state ≠ 2) :
    exec (resumeEvent c ctx qid skip) s = .next (reply c (hostOpcode (resumeEvent c ctx qid skip)) 0 0 [] s) := by
  rw [hostOpcode_resume, exec_resume]
  unfold resumeQueue
  rw [h.context (hostContext_resume skip), hu]
  dsimp only
  rw [hx]
  dsimp only
  rw [if_pos hs]
  rfl

theorem exec_resume_stopped {u : UserQueue} {x : Nat × Nat} (h : s.mayGive c (resumeEvent c ctx qid skip))
    (hu : (s.context ctx).queues.find? qid = some u) (hx : u.slot = some x) (hs : (s.queue x.1 x.2).state = 2) :
    exec (resumeEvent c ctx qid skip) s
      = .next ((reply c 0x22 0 0 [] (updateQueue x.1 x.2 (QueueRec.resumed skip) s)).push [.queueCommandPull x.1 x.2]) := by
  rw [exec_resume]
  unfold resumeQueue
  rw [h.context (hostContext_resume skip), hu]
  dsimp only
  rw [hx]
  dsimp only
  rw [if_neg (not_not_intro hs)]
  rfl

theorem exec_resume_slotless {u : UserQueue} (h : s.mayGive c (resumeEvent c ctx qid skip))
    (hu : (s.context ctx).queues.find? qid = some u) (hx : u.slot = none) :
    exec (resumeEvent c ctx qid skip) s = .next (reply c (hostOpcode (resumeEvent c ctx qid skip)) 0 0 []
      (if u.stopped then modUserQueue ctx qid (UserQueue.resumed skip) s else s)) := by
  rw [hostOpcode_resume, exec_resume]
  unfold resumeQueue
  rw [h.context (hostContext_resume skip), hu]
  dsimp only
  rw [hx]
  rfl

theorem UserQueue.resumed_eq (u : UserQueue) : u.resumed skip = { u with
    stopped := false, head := if skip = true ∧ u.head < ((u.pending.getD 0).toNat) then u.head + 1 else u.head } := by
  unfold UserQueue.resumed
  cases u.pending <;> simp

/-! ### The host event ring (R379) -/

theorem exec_setHostEventRing_refused {logn stream : Nat} (h : s.mayGive c (.setHostEventRing c ctx logn stream))
    (hb : logn < 4 ∨ 20 < logn ∨ 16 ≤ stream) :
    exec (.setHostEventRing c ctx logn stream) s = .next (reply c 0x30 1 0 [] s) := by
  show execSetHostEventRing c ctx logn stream s = _
  unfold execSetHostEventRing
  rw [h.context rfl, if_pos]
  · rfl
  · simpa [or_assoc] using hb

theorem exec_setHostEventRing {logn stream : Nat} (h : s.mayGive c (.setHostEventRing c ctx logn stream))
    (hb : ¬ (logn < 4 ∨ 20 < logn ∨ 16 ≤ stream)) :
    exec (.setHostEventRing c ctx logn stream) s = .next (reply c 0x30 0 0 [] (s.modContext ctx (fun x =>
        { x with ringLog := some (logn, c.session, stream), ringRead := 0, ringWrite := 0 }))) := by
  show execSetHostEventRing c ctx logn stream s = _
  unfold execSetHostEventRing
  rw [h.context rfl, if_neg]
  · rfl
  · simpa [or_assoc] using hb

theorem exec_advanceReadIndex_refused {index : Dword} (h : s.mayGive c (.advanceReadIndex c ctx index))
    (hb : index.toNat < (s.context ctx).ringRead ∨ (s.context ctx).ringWrite < index.toNat) :
    exec (.advanceReadIndex c ctx index) s = .next (reply c 0x31 1 0 [] s) := by
  show execAdvanceReadIndex c ctx index s = _
  unfold execAdvanceReadIndex
  rw [h.context rfl]
  dsimp only
  rw [if_pos]
  · rfl
  · simpa using hb

theorem exec_advanceReadIndex {index : Dword} (h : s.mayGive c (.advanceReadIndex c ctx index))
    (hr : (s.context ctx).ringRead ≤ index.toNat) (hw : index.toNat ≤ (s.context ctx).ringWrite) :
    exec (.advanceReadIndex c ctx index) s
      = .next (reply c 0x31 0 0 [] (s.modContext ctx (fun x => { x with ringRead := index.toNat }))) := by
  show execAdvanceReadIndex c ctx index s = _
  unfold execAdvanceReadIndex
  rw [h.context rfl]
  dsimp only
  rw [if_neg]
  · rfl
  · simp [Nat.not_lt.mpr hr, Nat.not_lt.mpr hw]

end

end Sys2Proof.Machine

namespace Sys2Proof.Machine

/-! ## The host at queue records (R8, R380) -/

section
variable {s : State}

/-- One place in the records is one byte. -/
theorem queuePlace_inj {a b : Nat} {p : Nat × Nat × Nat} (ha : queuePlace a = some p) (hb : queuePlace b = some p) : a = b := by
  unfold queuePlace at ha hb
  dsimp only at ha hb
  split at ha
  · next hca =>
    split at hb
    · next hcb =>
      simp only [Bool.and_eq_true, decide_eq_true_eq] at hca hcb
      rw [← Option.some.inj hb] at ha
      simp only [Option.some.injEq, Prod.mk.injEq] at ha
      omega
    · cases hb
  · cases ha

theorem extract_ofNat (n : Nat) {i : Nat} (hi : i < 8) :
    ((BitVec.ofNat 64 n).extractLsb' (8 * i) 8).toNat = n / 256 ^ i % 256 := by
  have hw : (2 : Nat) ^ 64 = 2 ^ (8 * i) * 2 ^ (64 - 8 * i) := by rw [← Nat.pow_add, show 8 * i + (64 - 8 * i) = 64 by omega]
  have hdvd : (2 : Nat) ^ 8 ∣ 2 ^ (64 - 8 * i) := Nat.pow_dvd_pow 2 (by omega)
  rw [BitVec.extractLsb'_toNat, BitVec.toNat_ofNat, Nat.shiftRight_eq_div_pow, hw, Nat.mod_mul_right_div_self,
    Nat.mod_mod_of_dvd _ hdvd, Nat.pow_mul]
  rfl

theorem extract_leNat {bs : List Byte} {i : Nat} {b : Byte} (hi : i < 8) (hb : bs[i]? = some b) :
    (BitVec.ofNat 64 (leNat bs)).extractLsb' (8 * i) 8 = b := by
  obtain ⟨hlt, rfl⟩ := List.getElem?_eq_some_iff.mp hb
  apply BitVec.eq_of_toNat_eq
  rw [extract_ofNat _ hi, leNat_byte bs hlt]

/-- One byte of ERR written, and the others as they were. -/
theorem err_set (err : Dword) {j : Nat} (b : Byte) {i : Nat} (hi : i < 8) :
    (BitVec.ofNat 64 (leNat ((leBytes 8 err.toNat).set j b))).extractLsb' (8 * i) 8
      = if j = i then b else err.extractLsb' (8 * i) 8 := by
  have hlen : (leBytes 8 err.toNat).length = 8 := by simp [leBytes]
  refine extract_leNat hi ?_
  rw [List.getElem?_set]
  by_cases hij : j = i
  · rw [if_pos hij, if_pos hij, if_pos (by omega)]
  · rw [if_neg hij, if_neg hij, leBytes_getElem?, if_pos hi]
    congr 1
    apply BitVec.eq_of_toNat_eq
    have h := extract_ofNat err.toNat hi
    rw [BitVec.ofNat_toNat, BitVec.setWidth_eq] at h
    rw [h, BitVec.toNat_ofNat]

/-- What one byte written to the records leaves in a record. -/
theorem queue_writeRecordByte (e : Nat × Byte) (d n : Nat) :
    { (writeRecordByte s e).queue d n with err := 0 } = { s.queue d n with err := 0 }
      ∧ ∀ i, i < 8 → ((writeRecordByte s e).queue d n).err.extractLsb' (8 * i) 8
        = if queuePlace e.1 = some (d, n, 32 + i) then e.2 else (s.queue d n).err.extractLsb' (8 * i) 8 := by
  unfold writeRecordByte
  split
  · next d' n' o hp =>
    rw [hp]
    split
    · next ho =>
      simp only [Bool.and_eq_true, decide_eq_true_eq] at ho
      rw [queue_modQueue]
      by_cases hdn : d = d' ∧ n = n'
      · obtain ⟨rfl, rfl⟩ := hdn
        rw [if_pos ⟨rfl, rfl⟩]
        refine ⟨rfl, fun i hi => ?_⟩
        rw [err_set _ _ hi]
        refine if_congr ?_ rfl rfl
        simp only [Option.some.injEq, Prod.mk.injEq, true_and]
        omega
      · rw [if_neg hdn]
        refine ⟨rfl, fun i _ => (if_neg fun h => hdn ?_).symm⟩
        simp only [Option.some.injEq, Prod.mk.injEq] at h
        exact ⟨h.1.symm, h.2.1.symm⟩
    · next ho =>
      simp only [Bool.and_eq_true, decide_eq_true_eq] at ho
      refine ⟨rfl, fun i hi => (if_neg fun h => ho ?_).symm⟩
      simp only [Option.some.injEq, Prod.mk.injEq] at h
      omega
  · next hp => exact ⟨rfl, fun i _ => (if_neg (by simp [hp])).symm⟩

/-- Bytes written to the records, no two to one place: ERR has them, and nothing else has changed. -/
theorem queue_writeRecords (xs : List (Nat × Byte)) (hn : (xs.map (·.1)).Nodup) (s : State) (d n : Nat) :
    { (xs.foldl writeRecordByte s).queue d n with err := 0 } = { s.queue d n with err := 0 }
      ∧ ∀ i, i < 8 → ((xs.foldl writeRecordByte s).queue d n).err.extractLsb' (8 * i) 8
        = match xs.find? (fun x => queuePlace x.1 = some (d, n, 32 + i)) with
          | some x => x.2
          | none => (s.queue d n).err.extractLsb' (8 * i) 8 := by
  induction xs generalizing s with
  | nil => exact ⟨rfl, fun _ _ => rfl⟩
  | cons x xs ih =>
    rw [List.map_cons, List.nodup_cons] at hn
    obtain ⟨hrest, herr⟩ := ih hn.2 (writeRecordByte s x)
    obtain ⟨hrest1, herr1⟩ := queue_writeRecordByte (s := s) x d n
    refine ⟨hrest.trans hrest1, fun i hi => (herr i hi).trans ?_⟩
    rw [List.find?_cons]
    by_cases hx : queuePlace x.1 = some (d, n, 32 + i)
    · have hnone : xs.find? (fun y => queuePlace y.1 = some (d, n, 32 + i)) = none := by
        refine List.find?_eq_none.mpr fun y hy hp => hn.1 ?_
        rw [queuePlace_inj hx (of_decide_eq_true hp)]
        exact List.mem_map_of_mem hy
      simp only [hnone, hx, decide_true]
      rw [herr1 i hi, if_pos hx]
    · simp only [hx, decide_false]
      rw [herr1 i hi, if_neg hx]

theorem writeRecordByte_dies (s : State) (e : Nat × Byte) : ∃ ds, writeRecordByte s e = { s with dies := ds } := by
  unfold writeRecordByte
  split
  · split
    · exact ⟨_, rfl⟩
    · exact ⟨_, rfl⟩
  · exact ⟨_, rfl⟩

theorem writeRecords_mem (xs : List (Nat × Byte)) (s : State) : (xs.foldl writeRecordByte s).mem = s.mem :=
  List.foldlRecOn xs writeRecordByte (motive := fun t => t.mem = s.mem) rfl fun t ht e _ => by
    obtain ⟨ds, h⟩ := writeRecordByte_dies t e
    rw [h]
    exact ht

theorem zip_fst_nodup {α β : Type} {xs : List α} (ys : List β) (h : xs.Nodup) : ((xs.zip ys).map (·.1)).Nodup := by
  induction xs generalizing ys with
  | nil => simp
  | cons x xs ih =>
    cases ys with
    | nil => simp
    | cons y ys =>
      rw [List.zip_cons_cons, List.map_cons, List.nodup_cons]
      rw [List.nodup_cons] at h
      refine ⟨fun hx => h.1 ?_, ih ys h.2⟩
      obtain ⟨z, hz, rfl⟩ := List.mem_map.mp hx
      exact (List.of_mem_zip hz).1

end

end Sys2Proof.Machine

namespace Sys2Proof.Machine

/-! ## Walks that begin (R69) -/

/-- From s to t misses have been noted and walkers have started: no translation has come into a TLB or a walk cache, and
memory, operations, queues and what the host sees are as they were. -/
structure State.WalksOn (s t : State) : Prop where
  frame : ∃ a p ts cs ds, t = { s with agenda := a, pins := p, teams := ts, cores := cs, dies := ds }
  agenda : ∀ e ∈ s.agenda, e ∈ t.agenda
  pins : ∀ x ∈ s.pins, x ∈ t.pins
  teams : ∀ n, s.team? n = none → t.team? n = none
  tlbs : ∀ k, (t.core k).tlb = (s.core k).tlb
  dieTlbs : ∀ k, (t.die k).tlb = (s.die k).tlb
  walks : ∀ k, (t.die k).walks = (s.die k).walks
  queues : ∀ d, (t.die d).queues = (s.die d).queues

section
variable {s t u : State}

theorem State.WalksOn.refl (s : State) : s.WalksOn s :=
  ⟨⟨_, _, _, _, _, rfl⟩, fun _ h => h, fun _ h => h, fun _ h => h, fun _ => rfl, fun _ => rfl, fun _ => rfl, fun _ => rfl⟩

theorem State.WalksOn.trans (h : s.WalksOn t) (k : t.WalksOn u) : s.WalksOn u where
  frame := by
    obtain ⟨a, p, ts, cs, ds, rfl⟩ := h.frame
    obtain ⟨a', p', ts', cs', ds', rfl⟩ := k.frame
    exact ⟨a', p', ts', cs', ds', rfl⟩
  agenda e he := k.agenda e (h.agenda e he)
  pins x hx := k.pins x (h.pins x hx)
  teams n hn := k.teams n (h.teams n hn)
  tlbs i := (k.tlbs i).trans (h.tlbs i)
  dieTlbs i := (k.dieTlbs i).trans (h.dieTlbs i)
  walks i := (k.walks i).trans (h.walks i)
  queues i := (k.queues i).trans (h.queues i)

theorem State.WalksOn.foldl {α : Type} {f : State → α → State} (hf : ∀ (s : State) x, s.WalksOn (f s x)) (xs : List α)
    (s : State) : s.WalksOn (xs.foldl f s) :=
  List.foldlRecOn xs f (motive := fun t => s.WalksOn t) (.refl s) fun t ht x _ => ht.trans (hf t x)

theorem State.WalksOn.host (h : s.WalksOn t) : t.mem = s.mem ∧ t.txDatagrams = s.txDatagrams ∧ t.hostAccs = s.hostAccs := by
  obtain ⟨a, p, ts, cs, ds, rfl⟩ := h.frame
  exact ⟨rfl, rfl, rfl⟩

theorem modDie_walksOn (d : Nat) {f : Die → Die} (ht : ∀ x, (f x).tlb = x.tlb) (hw : ∀ x, (f x).walks = x.walks)
    (hq : ∀ x, (f x).queues = x.queues) (s : State) : s.WalksOn (s.modDie d f) := by
  have hdie {α : Type} {g : Die → α} (hg : ∀ x, g (f x) = g x) (k : Nat) : g ((s.modDie d f).die k) = g (s.die k) := by
    rw [State.die_modDie]
    split
    · next h => rw [hg, h]
    · rfl
  exact ⟨⟨_, _, _, _, _, rfl⟩, fun _ h => h, fun _ h => h, fun _ h => h, fun _ => rfl, hdie ht, hdie hw, hdie hq⟩

theorem modCore_walksOn (c : Nat) {f : Core → Core} (ht : ∀ x, (f x).tlb = x.tlb) (s : State) : s.WalksOn (s.modCore c f) := by
  refine ⟨⟨_, _, _, _, _, rfl⟩, fun _ h => h, fun _ h => h, fun _ h => h, fun k => ?_, fun _ => rfl, fun _ => rfl, fun _ => rfl⟩
  rw [State.core_modCore]
  split
  · next h => rw [ht, h]
  · rfl

theorem push_walksOn (es : List Instr) (s : State) : s.WalksOn (s.push es) :=
  ⟨⟨_, _, _, _, _, rfl⟩, fun _ h => List.mem_append_left _ h, fun _ h => h, fun _ h => h, fun _ => rfl, fun _ => rfl, fun _ => rfl,
    fun _ => rfl⟩

/-- A context's splits changed in one team. -/
def Team.mapSplits (f : Warp → Split → Split) (tm : Team) : Team :=
  { tm with warps := tm.warps.map (fun w => (w.1, { w.2 with splits := w.2.splits.map (fun x => (x.1, f w.2 x.2)) })) }

/-- A team's launch is of the context. -/
def Team.isOf (s : State) (ctx : Nat) (tm : Team) : Bool := (s.launches.find? tm.launch).any (fun l => l.ctx = ctx)

theorem mapSplits_teams (ctx : Nat) (f : Warp → Split → Split) (s : State) :
    (s.mapSplits ctx f).teams = s.teams.map fun e => (e.1, if e.2.isOf s ctx then e.2.mapSplits f else e.2) := by
  unfold State.mapSplits
  refine List.map_congr_left fun e _ => ?_
  show (if e.2.isOf s ctx = true then _ else _) = _
  split <;> rfl

theorem mapSplits_team? (ctx : Nat) (f : Warp → Split → Split) (s : State) (n : Nat) :
    (s.mapSplits ctx f).team? n = (s.team? n).map fun tm => if tm.isOf s ctx then tm.mapSplits f else tm := by
  unfold State.team?
  rw [mapSplits_teams]
  exact Tab.find?_mapVal (fun tm : Team => if tm.isOf s ctx then tm.mapSplits f else tm) _ _

theorem mapSplits_walksOn (ctx : Nat) (f : Warp → Split → Split) (s : State) : s.WalksOn (s.mapSplits ctx f) :=
  ⟨⟨_, _, _, _, _, rfl⟩, fun _ h => h, fun _ h => h, fun n h => by rw [mapSplits_team?, h]; rfl, fun _ => rfl, fun _ => rfl,
    fun _ => rfl, fun _ => rfl⟩

theorem wakeEvent_walksOn (ctx : Nat) (h : Walked) (s : State) (e : Instr) : s.WalksOn (wakeEvent ctx h s e) := by
  have hpin : s.WalksOn { s with pins := s.pins ++ [⟨e, ctx, h⟩] } :=
    ⟨⟨_, _, _, _, _, rfl⟩, fun _ h => h, fun _ h => List.mem_append_left _ h, fun _ h => h, fun _ => rfl, fun _ => rfl,
      fun _ => rfl, fun _ => rfl⟩
  unfold wakeEvent
  dsimp only
  split
  · exact hpin
  · exact hpin.trans (push_walksOn _ _)

/-- A walk that ends without a translation tells those who wait, and fills no TLB. -/
theorem walkEnd_walksOn (die ctx : Nat) {h : Walked} (hn : h.tr = none) (s : State) : s.WalksOn (walkEnd die ctx h s) := by
  unfold walkEnd
  split
  · exact .refl s
  · next m _ =>
    simp only [hn]
    refine ((modDie_walksOn die (f := fun d => { d with misses := d.misses.filter fun m => !(m.ctx = ctx && m.page = h.page) })
      (fun _ => rfl) (fun _ => rfl) (fun _ => rfl) s).trans ?_).trans (.foldl (wakeEvent_walksOn ctx h) m.events _)
    refine (State.WalksOn.foldl (f := fun s core => s.modCore core fun c => { c with
      misses := c.misses.filter (· ≠ (ctx, h.page)) }) (fun s core => ?_) m.cores _).trans (mapSplits_walksOn ctx _ _)
    exact modCore_walksOn core (by intro _; rfl) s

theorem startWalkers_walksOn (die : Nat) (s : State) : s.WalksOn (startWalkers die s) := by
  refine State.WalksOn.foldl (fun s m => ?_) _ s
  split
  · exact .refl s
  · split
    · exact walkEnd_walksOn die m.ctx rfl s
    · refine State.WalksOn.trans ?_ (push_walksOn _ _)
      exact modDie_walksOn die (by intro _; rfl) (by intro _; rfl) (by intro _; rfl) s

theorem missFor_walksOn (die ctx : Nat) (e : Instr) (s : State) (page : Nat) : s.WalksOn (missFor die ctx e s page) := by
  refine modDie_walksOn die (fun x => ?_) (fun x => ?_) (fun x => ?_) s
  · split <;> rfl
  · split <;> rfl
  · split <;> rfl

/-- An event of a unit outside the cores that lacks a translation waits for it, or looks its pages up first. -/
theorem withPins_waits {e : Instr} {q : Requester} {core ctx : Nat} {vas : List Dword} {k : State → Out}
    (hq : ∀ c, q ≠ .core c) (h : unpinned s e ctx vas ≠ []) :
    ∃ t, withPins e q core ctx vas s k = .next t ∧ t.mem = s.mem ∧ t.txDatagrams = s.txDatagrams ∧ t.hostAccs = s.hostAccs := by
  have hroom (ps : List Nat) : missRoom s q ctx ps = true := by
    cases q with
    | core c => exact absurd rfl (hq c)
    | _ => rfl
  unfold withPins
  split
  · next hp => exact absurd hp h
  · exact ⟨_, rfl, rfl, rfl, rfl⟩
  · rw [hroom]
    let ps := (pagesWalked s e core ctx vas).take 64
    have hstart : s.WalksOn (startWalkers (coreDie core) (ps.foldl (missFor (coreDie core) ctx e) s)) :=
      (State.WalksOn.foldl (missFor_walksOn (coreDie core) ctx e) ps s).trans (startWalkers_walksOn _ _)
    obtain ⟨hmem, htx, haccs⟩ := hstart.host
    cases q with
    | core c => exact absurd rfl (hq c)
    | _ => exact ⟨_, rfl, hmem, htx, haccs⟩

end

end Sys2Proof.Machine

namespace Sys2Proof.Machine

/-! ## Memory accesses of the host that start or are refused (R75) -/

section
variable {s : State} {c : Cmd} {opc ctx : Nat} {write : Bool} {addr : Dword} {count : Nat} {data : List Byte}

theorem inRecords_iff {bytes : List Nat} : inRecords bytes = true ↔ ∀ a ∈ bytes, (queuePlace a).isSome = true := by
  simp [inRecords]

theorem guarded_iff {u : State} {bytes : List Nat} :
    (guardedPages u).any (fun g => bytes.any (fun a => a / 65536 = g)) = true ↔ ∃ g ∈ guardedPages u, ∃ a ∈ bytes, a / 65536 = g := by
  simp

/-- An access of memory has started: it has a record with a request for each line, and nothing is answered. -/
theorem startAccess_started (c : Cmd) (opc : Nat) (ctx : Option Nat) (write : Bool) (addr : Nat) (bytes : List Nat)
    (homes : List (Nat × Nat)) (data : List Byte) (s : State) :
    let t := startAccess c opc ctx write addr bytes homes data s
    ∃ a, t.hostAccs.find? s.hostAccs.fresh = some a
      ∧ a.cmd = c ∧ a.opc = opc ∧ a.write = write ∧ a.addr = addr ∧ a.bytes = bytes ∧ a.data = data
      ∧ a.parts.map (fun p => (p.home, p.line, p.done)) = homes.map (fun h => (h.1, h.2, false))
      ∧ (∀ k, k < homes.length → .hostAccessAtSlice s.hostAccs.fresh k ∈ t.agenda)
      ∧ t.txDatagrams = s.txDatagrams ∧ ∀ x, t.mem.byte x = s.mem.byte x := by
  refine ⟨_, Tab.find?_set_self _ _ _, rfl, rfl, rfl, rfl, rfl, rfl, ?_, fun k hk => ?_, rfl, fun _ => rfl⟩
  · rw [List.map_map]
    rfl
  · refine List.mem_append_right _ (List.mem_map.mpr ⟨k, ?_, rfl⟩)
    simpa using hk

theorem recordAccess_write (bytes : List Nat) (data : List Byte) (u : State) :
    recordAccess c opc true bytes data u = reply c opc 0 0 [] ((bytes.zip data).foldl writeRecordByte u) := rfl

/-! ### By virtual address -/

/-- The command for an access by virtual address. -/
def virtualEvent (c : Cmd) (ctx : Nat) (addr : Dword) (count : Nat) (data : List Byte) (write : Bool) : Instr :=
  if write then .memoryWriteVirtual c ctx addr data else .memoryReadVirtual c ctx addr count

theorem exec_virtual (h : s.mayGive c (virtualEvent c ctx addr count data write)) :
    exec (virtualEvent c ctx addr count data write) s
      = virtualAccess (virtualEvent c ctx addr count data write) c
          (hostOpcode (virtualEvent c ctx addr count data write)) ctx write addr
          (if write then data.length else count) (if write then data else []) s := by
  cases write with
  | false => exact h.context rfl
  | true => exact h.context rfl

section
variable {e : Instr} (hp : unpinned s e ctx [addr, addr + BitVec.ofNat 64 (count - 1)] = [])
include hp

theorem virtualAccess_fault {f : TFault} (hf : hostBytes s e ctx write 66 addr count = .error f) :
    virtualAccess e c opc ctx write addr count data s = .next (reply c opc 4 f.code [] (unpin e s)) := by
  unfold virtualAccess
  rw [withPins_there hp, hf]
  rfl

theorem virtualAccess_found {r : List Nat × List (Nat × Nat)} (hr : hostBytes s e ctx write 66 addr count = .ok r) :
    virtualAccess e c opc ctx write addr count data s
      = if inRecords r.1 then .next (recordAccess c opc write r.1 data (unpin e s))
        else virtualMemory c opc ctx write addr r data (unpin e s) := by
  unfold virtualAccess
  rw [withPins_there hp, hr]

end

theorem virtualMemory_guarded {r : List Nat × List (Nat × Nat)} {u : State} (hw : write = true)
    (hg : ∃ g ∈ guardedPages u, ∃ a ∈ r.1, a / 65536 = g) :
    virtualMemory c opc ctx write addr r data u = .next (reply c opc 8 0 [] u) := by
  unfold virtualMemory
  rw [if_pos]
  · rfl
  · rw [hw, Bool.true_and, guarded_iff]
    exact hg

theorem virtualMemory_starts {r : List Nat × List (Nat × Nat)} {u : State}
    (hg : write = true → ¬ ∃ g ∈ guardedPages u, ∃ a ∈ r.1, a / 65536 = g) :
    virtualMemory c opc ctx write addr r data u
      = .next (startAccess c opc (some ctx) write addr.toNat r.1 r.2.dedup data u) := by
  unfold virtualMemory
  rw [if_neg]
  rw [Bool.and_eq_true, guarded_iff]
  exact fun h => hg h.1 h.2

/-! ### By physical address -/

/-- The command for an access by physical address. -/
def physicalEvent (c : Cmd) (pol : Nat) (addr : Dword) (count : Nat) (data : List Byte) (write : Bool) : Instr :=
  if write then .memoryWritePhysical c pol addr data else .memoryReadPhysical c pol addr count

variable {pol : Nat}

theorem exec_physical (h : s.mayGive c (physicalEvent c pol addr count data write)) :
    exec (physicalEvent c pol addr count data write) s
      = physicalAccess c (hostOpcode (physicalEvent c pol addr count data write)) pol write addr (if write then data.length else count)
          (if write then data else []) s := by
  cases write with
  | false => exact h.session
  | true =>
    show execMemoryWritePhysical c pol addr data s = _
    refine (h.session (e := .memoryWritePhysical c pol addr data)).trans ?_
    rw [if_neg (by simp [h.awake])]
    rfl

/-- The bytes that an access by physical address names. -/
def physicalBytes (addr : Dword) (count : Nat) : List Nat := (List.range count).map (addr.toNat + ·)

theorem physicalMemory_far (hp : pol = 1) (hf : ∃ a ∈ physicalBytes addr count, inFar a = true) :
    physicalMemory c opc pol write addr count data s = .next (reply c opc 1 0 [] s) := by
  unfold physicalMemory
  dsimp only
  rw [if_pos]
  · rfl
  · simpa [hp, physicalBytes] using hf

theorem physicalMemory_hole (hn : ¬ (pol = 1 ∧ ∃ a ∈ physicalBytes addr count, inFar a = true))
    (hh : ∃ a ∈ physicalBytes addr count, isHole a = true) :
    physicalMemory c opc pol write addr count data s = .next (reply c opc 4 tHole [] s) := by
  unfold physicalMemory
  dsimp only
  rw [if_neg, if_pos]
  · rfl
  · simpa [physicalBytes] using hh
  · simpa [physicalBytes] using hn

theorem physicalMemory_guarded (hn : ¬ (pol = 1 ∧ ∃ a ∈ physicalBytes addr count, inFar a = true))
    (hh : ¬ ∃ a ∈ physicalBytes addr count, isHole a = true) (hw : write = true)
    (hg : ∃ g ∈ guardedPages s, ∃ a ∈ physicalBytes addr count, a / 65536 = g) :
    physicalMemory c opc pol write addr count data s = .next (reply c opc 8 0 [] s) := by
  unfold physicalMemory
  dsimp only
  rw [if_neg, if_neg, if_pos]
  · rfl
  · rw [hw, Bool.true_and, guarded_iff]
    exact hg
  · simpa [physicalBytes] using hh
  · simpa [physicalBytes] using hn

/-- The lines of an access by physical address, with their homes. -/
def physicalHomes (pol : Nat) (addr : Dword) (count : Nat) : List (Nat × Nat) :=
  ((List.range ((addr.toNat % 128 + count + 127) / 128)).map (fun i => addr.toNat / 128 + i)).map
    (fun x => (homeSlice (128 * x) ((effPolicy (128 * x) pol).getD 0) false, x))

theorem physicalHomes_lines (pol : Nat) (addr : Dword) (count : Nat) : (physicalHomes pol addr count).map (·.2)
    = (List.range ((addr.toNat % 128 + count + 127) / 128)).map (addr.toNat / 128 + ·) := by
  unfold physicalHomes
  rw [List.map_map]
  exact List.map_id _

theorem physicalMemory_starts (hn : ¬ (pol = 1 ∧ ∃ a ∈ physicalBytes addr count, inFar a = true))
    (hh : ¬ ∃ a ∈ physicalBytes addr count, isHole a = true)
    (hg : write = true → ¬ ∃ g ∈ guardedPages s, ∃ a ∈ physicalBytes addr count, a / 65536 = g) :
    physicalMemory c opc pol write addr count data s = .next (startAccess c opc none write addr.toNat (physicalBytes addr count)
      (physicalHomes pol addr count) data s) := by
  unfold physicalMemory
  dsimp only
  rw [if_neg, if_neg, if_neg]
  · rfl
  · rw [Bool.and_eq_true, guarded_iff]
    exact fun h => hg h.1 h.2
  · simpa [physicalBytes] using hh
  · simpa [physicalBytes] using hn

/-! ### The staging buffer (R418) -/

/-- Bytes set one after the other from an index on. -/
theorem find?_zipIdx_set (data : List Byte) (base n k : Nat) (t : Tab Byte) :
    Tab.find? ((data.zipIdx n).foldl (fun t e => Tab.set t (base + e.2) e.1) t) k
      = if base + n ≤ k ∧ k < base + n + data.length then data[k - (base + n)]? else t.find? k := by
  induction data generalizing n t with
  | nil => simp
  | cons b bs ih =>
    rw [List.zipIdx_cons, List.foldl_cons, ih (n + 1), List.length_cons]
    by_cases hk : k = base + n
    · subst hk
      rw [if_neg (by omega), if_pos (by omega), Tab.find?_set_self]
      simp
    · by_cases hin : base + n ≤ k ∧ k < base + n + (bs.length + 1)
      · rw [if_pos (by omega), if_pos hin, show k - (base + n) = (k - (base + (n + 1))) + 1 by omega, List.getElem?_cons_succ]
      · rw [if_neg (by omega), if_neg hin, Tab.find?_set_other _ _ hk]

theorem exec_staging (hr : s.recovery = true) (hp : (s.sessions.find? c.session).map (·.priv) = some true) :
    exec (.memoryWritePhysical c pol addr data) s = .next (reply c 2 0 0 [] { s with
      staging := data.zipIdx.foldl (fun t e => Tab.set t (addr.toNat + e.2) e.1) s.staging }) := by
  show execMemoryWritePhysical c pol addr data s = _
  unfold execMemoryWritePhysical withSession
  simp only [hp, hr]
  rfl

end

end Sys2Proof.Machine

namespace Sys2Proof.Machine

/-! ## Requests of host accesses at their slices (R58, R75) -/

section
variable {s : State} {c : Cmd} {opc status detail : Nat} {payload : List Byte}

/-- A reply to the host leaves everything but its session, what is sent, and the agenda. -/
theorem reply_frame (c : Cmd) (opc status detail : Nat) (payload : List Byte) (s : State) :
    ∃ ss tx tf es, reply c opc status detail payload s
      = { s with sessions := ss, txDatagrams := tx, txFrames := tf, agenda := s.agenda ++ es } := by
  unfold reply sendData
  split
  · exact ⟨_, _, _, [], by rw [List.append_nil]⟩
  · exact ⟨_, _, _, _, rfl⟩

theorem reply_sends {x : Session} (h : s.sessions.find? c.session = some x) :
    (reply c opc status detail payload s).txDatagrams = s.txDatagrams ++ [replyDatagram c x opc status detail payload] := by
  unfold reply sendData
  rw [h]
  rfl

/-! ### Bytes written to a line -/

/-- One byte of an access put into its line. -/
def placeByte (p : LineData × ByteMask) (e : Nat × Byte) : LineData × ByteMask := placeBytes (e.1 % 128) [e.2] p.1 p.2

theorem maskedByte_placeByte (p : LineData × ByteMask) (e : Nat × Byte) {i : Nat} (hi : i < 128) :
    maskedByte (placeByte p e) i = if e.1 % 128 = i then some e.2 else maskedByte p i := by
  unfold placeByte
  rw [maskedByte_placeBytes _ _ _ hi, List.length_singleton]
  by_cases h : e.1 % 128 = i
  · rw [if_pos h, if_pos (by omega)]
    simp [h]
  · rw [if_neg h, if_neg (by omega)]

theorem maskedByte_absent (es : List (Nat × Byte)) (p : LineData × ByteMask) {i : Nat} (hi : i < 128)
    (h : ∀ e ∈ es, e.1 % 128 ≠ i) : maskedByte (es.foldl placeByte p) i = maskedByte p i := by
  induction es generalizing p with
  | nil => rfl
  | cons e es ih =>
    rw [List.foldl_cons, ih _ (fun x hx => h x (List.mem_cons_of_mem _ hx)), maskedByte_placeByte _ _ hi,
      if_neg (h e (List.mem_cons_self ..))]

theorem maskedByte_present (es : List (Nat × Byte)) (p : LineData × ByteMask) {e : Nat × Byte} (he : e ∈ es)
    (h : ∀ x ∈ es, x.1 % 128 = e.1 % 128 → x = e) : maskedByte (es.foldl placeByte p) (e.1 % 128) = some e.2 := by
  have hi : e.1 % 128 < 128 := Nat.mod_lt _ (by decide)
  induction es using List.reverseRecOn with
  | nil => exact absurd he List.not_mem_nil
  | append_singleton es x ih =>
    rw [List.foldl_append, List.foldl_cons, List.foldl_nil, maskedByte_placeByte _ _ hi]
    by_cases hx : x.1 % 128 = e.1 % 128
    · rw [if_pos hx, h x (by simp) hx]
    · rw [if_neg hx]
      refine ih ?_ fun y hy => h y (List.mem_append_left _ hy)
      obtain he | he := List.mem_append.mp he
      · exact he
      · exact absurd (congrArg (·.1 % 128) (List.mem_singleton.mp he)).symm hx

/-- Keys occur once in a list of pairs. -/
theorem eq_of_fst_nodup {α β : Type} {es : List (α × β)} (h : (es.map (·.1)).Nodup) {x y : α × β} (hx : x ∈ es) (hy : y ∈ es)
    (hxy : x.1 = y.1) : x = y := List.inj_on_of_nodup_map h hx hy hxy

/-! ### Turns -/

variable {id k : Nat} {a : HostAcc} {p : Part} {x : Trip}

theorem exec_hostAccess (ha : s.hostAccs.find? id = some a) (hp : a.parts[k]? = some p) (hd : p.done = false) :
    exec (.hostAccessAtSlice id k) s = journey (.hostAccessAtSlice id k) (.ingress 0) [⟨p.home, p.line, 1⟩]
      (fun t s => atSlice t.home t.line true (.hostAccessAtSlice id k) s (fun s => .next (hostTurn a t s)))
      (fun ts s => .next (hostReplied id k p.line a ts s)) s := by
  show execHostAccessAtSlice id k s = _
  unfold execHostAccessAtSlice
  rw [ha]
  dsimp only
  rw [hp]
  dsimp only
  rw [hd]
  rfl

/-- What a host's request needs of its line. -/
def hostAsk (x : Trip) : Ask := { home := x.home, line := x.line }

theorem exec_hostAccess_turn (ha : s.hostAccs.find? id = some a) (hp : a.parts[k]? = some p) (hd : p.done = false)
    (h : s.comes (.hostAccessAtSlice id k) (.ingress 0) [⟨p.home, p.line, 1⟩] x) (hi : (s.sline x.home x.line).state ≠ .inv)
    (hb : (s.sline x.home x.line).state ≠ .busy) (hu : (s.sline x.home x.line).uo = 0)
    (hw : (s.sline x.home x.line).waiters = []
      ∨ (s.sline x.home x.line).waiters.head? = some (.hostAccessAtSlice id k)) :
    ∃ n es, exec (.hostAccessAtSlice id k) s
      = .next (((hostTurn a x ((hostAsk x).taken (.hostAccessAtSlice id k) (s.there x n))).ahead es).push
          [.hostAccessAtSlice id k]) := by
  obtain ⟨n, hn⟩ := journey_comes h
  obtain ⟨es, he⟩ := atSlice_done (a := hostAsk x) (e := .hostAccessAtSlice id k) (refuse := fun _ => none) (s := s.there x n)
    (k := fun s => .next (hostTurn a x s)) (Ask.turn_of hb hw) rfl (Ask.calm_of hu) (.inr hi) rfl
  exact ⟨n, es, (exec_hostAccess ha hp hd).trans (hn _ _ _ he)⟩

/-- A line poisoned answers the host's request with an error, unless all of it is written. -/
theorem hostTurn_poisoned (hs : poisoned s x.line = true)
    (h : a.write = false ∨ (a.bytes.zip a.data).countP (fun y => y.1 / 128 = x.line) ≠ 128) :
    hostTurn a x s = returned x (fun y => { y with bad := true }) s := by
  unfold hostTurn
  refine if_pos ?_
  rw [hs, Bool.true_and]
  obtain h | h := h
  · simp [h]
  · cases hw : a.write with
    | false => rfl
    | true =>
      rw [List.countP_eq_length_filter] at h
      simpa [lineBytes, hw] using h

theorem hostTurn_read (hs : poisoned s x.line = false) (hw : a.write = false) (hm : mixedHome s x.home x.line = false) :
    hostTurn a x s = returned x (fun y => { y with data := s.mem.line x.line }) s := by
  unfold hostTurn homeData
  simp [hs, hw, hm]

theorem mem_lineBytes {y : Nat × Byte} {line : Nat} (hw : a.write = true) :
    y ∈ lineBytes a line ↔ y ∈ a.bytes.zip a.data ∧ y.1 / 128 = line := by
  simp [lineBytes, hw]

/-- What a line's bytes of an access leave at each place of the line. -/
theorem maskedByte_lineBytes {line : Nat} (hw : a.write = true) (hn : a.bytes.Nodup) :
    (∀ y, y ∉ a.bytes → y / 128 = line → maskedByte ((lineBytes a line).foldl placeByte (0, 0)) (y % 128) = none)
      ∧ ∀ y ∈ a.bytes.zip a.data, y.1 / 128 = line →
        maskedByte ((lineBytes a line).foldl placeByte (0, 0)) (y.1 % 128) = some y.2 := by
  refine ⟨fun y hy hl => ?_, fun y hy hl => maskedByte_present _ _ ((mem_lineBytes hw).mpr ⟨hy, hl⟩) fun e he hey => ?_⟩
  · rw [maskedByte_absent _ _ (Nat.mod_lt _ (by decide)) fun e he hey => hy ?_]
    · simp [maskedByte]
    · obtain ⟨hz, hel⟩ := (mem_lineBytes hw).mp he
      rw [show y = e.1 by omega]
      exact (List.of_mem_zip hz).1
  · obtain ⟨hz, hel⟩ := (mem_lineBytes hw).mp he
    exact eq_of_fst_nodup (zip_fst_nodup a.data hn) hz hy (by omega)

/-- A host's write to a line that is sound and has one home stores its own bytes of the line and no other. -/
theorem hostTurn_write (hwf : s.mem.wf = true) (hs : poisoned s x.line = false) (hm : mixedHome s x.home x.line = false)
    (hw : a.write = true) (hn : a.bytes.Nodup) :
    ∃ u, hostTurn a x s = returned x (fun y => y) u ∧ u.trips = s.trips
      ∧ (∀ y, y ∉ a.bytes ∨ y / 128 ≠ x.line → u.mem.byte y = s.mem.byte y)
      ∧ ∀ y ∈ a.bytes.zip a.data, y.1 / 128 = x.line → u.mem.byte y.1 = y.2 := by
  obtain ⟨d, hd⟩ : ∃ d, (lineBytes a x.line).foldl placeByte (0, 0) = d := ⟨_, rfl⟩
  obtain ⟨habs, hpres⟩ := maskedByte_lineBytes (line := x.line) hw hn
  rw [hd] at habs hpres
  obtain ⟨d', hd', hch⟩ := writeLine_changed x.home x.line d.1 d.2 s
  rw [hd' hm] at hch
  have hbyte (y : Nat) : (writeLine x.home x.line d.1 d.2 s).mem.byte y
      = if y / 128 = x.line then (maskedByte d (y % 128)).getD (s.mem.byte y) else s.mem.byte y := by
    rw [hch.mem]
    exact byte_putLine_masked hwf ..
  refine ⟨(writeLine x.home x.line d.1 d.2 s).push (headerWrites a x.line (writeLine x.home x.line d.1 d.2 s)), ?_, hch.trips,
    fun y hy => (hbyte y).trans ?_, fun y hy hl => (hbyte y.1).trans ?_⟩
  · unfold hostTurn
    rw [hs, hw, ← hd]
    rfl
  · by_cases hl : y / 128 = x.line
    · rw [if_pos hl, habs y (hy.resolve_right (not_not_intro hl)) hl]
      rfl
    · rw [if_neg hl]
  · rw [if_pos hl, hpres y hy hl]
    rfl

theorem exec_hostAccess_poisoned (ha : s.hostAccs.find? id = some a) (hp : a.parts[k]? = some p) (hd : p.done = false)
    (h : s.comes (.hostAccessAtSlice id k) (.ingress 0) [⟨p.home, p.line, 1⟩] x) (hi : (s.sline x.home x.line).state ≠ .inv)
    (hb : (s.sline x.home x.line).state ≠ .busy) (hu : (s.sline x.home x.line).uo = 0)
    (hw : (s.sline x.home x.line).waiters = []
      ∨ (s.sline x.home x.line).waiters.head? = some (.hostAccessAtSlice id k)) (hs : poisoned s x.line = true)
    (hpart : a.write = false ∨ (a.bytes.zip a.data).countP (fun y => y.1 / 128 = x.line) ≠ 128) :
    ∃ t, exec (.hostAccessAtSlice id k) s = .next t ∧ t.replies (.hostAccessAtSlice id k) x (fun y => y.bad = true)
      ∧ ∀ y, t.mem.byte y = s.mem.byte y := by
  obtain ⟨n, es, he⟩ := exec_hostAccess_turn ha hp hd h hi hb hu hw
  have hpois : poisoned ((hostAsk x).taken (.hostAccessAtSlice id k) (s.there x n)) x.line = true := by
    unfold poisoned
    rw [Ask.taken_poison]
    exact hs
  rw [hostTurn_poisoned hpois hpart] at he
  refine ⟨_, he, (returned_replies (f := fun y => { y with bad := true }) h.mem (Ask.taken_trips ..) (fun _ => rfl)
    fun _ _ => rfl).before rfl (State.mem_again es), fun y => ?_⟩
  exact congrArg (Memory.byte · y) (Ask.taken_mem ..)

section
variable (ha : s.hostAccs.find? id = some a) (hp : a.parts[k]? = some p) (hd : p.done = false)
  (h : s.comes (.hostAccessAtSlice id k) (.ingress 0) [⟨p.home, p.line, 1⟩] x)
  (hv : s.served x.home x.line true (.hostAccessAtSlice id k))
include ha hp hd h hv

/-- A host's request that is served finds its line sound and with one home. -/
theorem exec_hostAccess_sound : ∃ n es, let u := (hostAsk x).taken (.hostAccessAtSlice id k) (s.there x n)
    exec (.hostAccessAtSlice id k) s = .next (((hostTurn a x u).ahead es).push [.hostAccessAtSlice id k])
      ∧ poisoned u x.line = false ∧ mixedHome u x.home x.line = false ∧ u.mem = s.mem ∧ u.trips = (s.there x n).trips := by
  obtain ⟨n, es, he⟩ := exec_hostAccess_turn ha hp hd h hv.idle.2 hv.idle.1 (hv.alone rfl) hv.turn
  refine ⟨n, es, he, ?_, (hostAsk x).taken_single _ _ hv.single, Ask.taken_mem .., Ask.taken_trips ..⟩
  unfold poisoned
  rw [Ask.taken_poison]
  exact hv.sound

theorem exec_hostAccess_read (hw : a.write = false) :
    ∃ t, exec (.hostAccessAtSlice id k) s = .next t
      ∧ t.replies (.hostAccessAtSlice id k) x (fun y => y.data = s.mem.line x.line ∧ y.bad = x.bad)
      ∧ ∀ y, t.mem.byte y = s.mem.byte y := by
  obtain ⟨n, es, he, hsound, hsingle, hmem, htrips⟩ := exec_hostAccess_sound ha hp hd h hv
  rw [hostTurn_read hsound hw hsingle, hmem] at he
  refine ⟨_, he, (returned_replies (f := fun y => { y with data := s.mem.line x.line }) h.mem htrips (fun _ => rfl)
    fun _ hy => ⟨rfl, hy⟩).before rfl (State.mem_again es), fun y => congrArg (Memory.byte · y) hmem⟩

theorem exec_hostAccess_write (hwf : s.mem.wf = true) (hw : a.write = true) (hn : a.bytes.Nodup) :
    ∃ t, exec (.hostAccessAtSlice id k) s = .next t
      ∧ t.replies (.hostAccessAtSlice id k) x (fun y => y.bad = x.bad)
      ∧ (∀ y, y ∉ a.bytes ∨ y / 128 ≠ x.line → t.mem.byte y = s.mem.byte y)
      ∧ ∀ y ∈ a.bytes.zip a.data, y.1 / 128 = x.line → t.mem.byte y.1 = y.2 := by
  obtain ⟨n, es, he, hsound, hsingle, hmem, htrips⟩ := exec_hostAccess_sound ha hp hd h hv
  obtain ⟨u, hu, hut, hother, hmine⟩ := hostTurn_write (by rw [hmem]; exact hwf) hsound hsingle hw hn
  rw [hu] at he
  rw [hmem] at hother
  exact ⟨_, he, (returned_replies (f := fun y => y) h.mem (hut.trans htrips) (fun _ => rfl) fun _ hy => hy).before rfl
    (State.mem_again es), hother, hmine⟩

end

end

end Sys2Proof.Machine

namespace Sys2Proof.Machine

/-! ## Replies of host accesses -/

section
variable {s : State} {id k line : Nat} {a : HostAcc} {p : Part} {ts : List Trip}

/-- Each key of a list set in turn to a value of its own. -/
theorem get_foldl_set {β : Type} (es : List (Nat × β)) (v : Nat → Byte) (t : Tab Byte) (x : Nat) :
    Tab.get 0 (es.foldl (fun t e => Tab.set t e.1 (v e.1)) t) x = if x ∈ es.map (·.1) then v x else Tab.get 0 t x := by
  induction es using List.reverseRecOn with
  | nil => rfl
  | append_singleton es e ih =>
    rw [List.foldl_append, List.foldl_cons, List.foldl_nil, Tab.get_set, ih]
    by_cases h : x = e.1
    · simp [h]
    · rw [if_neg h, List.map_append]
      refine if_congr ?_ rfl rfl
      rw [List.mem_append, List.map_singleton, List.mem_singleton, or_iff_left h]

/-- The access once one of its lines has been answered. -/
def HostAcc.answered (k line : Nat) (ts : List Trip) (a : HostAcc) : HostAcc :=
  { a with
    parts := a.parts.modify k (fun p => { p with done := true })
    fault := if ts.any (·.bad) then tMemory else a.fault
    got := if a.write then a.got else
      (lineBytes a line).foldl (fun t e => Tab.set t e.1 (lineByte (tripData ts line) (e.1 % 128))) a.got }

theorem hostReplied_eq : hostReplied id k line a ts s
    = if (a.answered k line ts).parts.all (·.done) then answerHost id (a.answered k line ts) s
      else { s with hostAccs := s.hostAccs.set id (a.answered k line ts) } := rfl

theorem HostAcc.answered_part (hp : a.parts[k]? = some p) : (a.answered k line ts).parts[k]?.map (·.done) = some true := by
  show ((a.parts.modify k _)[k]?).map _ = _
  rw [List.getElem?_modify_eq, hp]
  rfl

theorem HostAcc.answered_last (hp : a.parts[k]? = some p) : (a.answered k line ts).parts.all (·.done) = true
    ↔ ∀ j q, a.parts[j]? = some q → j ≠ k → q.done = true := by
  rw [List.all_eq_true]
  constructor
  · intro h j q hq hj
    refine h q (List.mem_of_getElem? (i := j) ?_)
    show (a.parts.modify k _)[j]? = _
    rw [List.getElem?_modify_ne _ _ (Ne.symm hj), hq]
  · intro h q hq
    obtain ⟨j, hj⟩ := List.mem_iff_getElem?.mp hq
    by_cases hjk : j = k
    · subst hjk
      have hdone := HostAcc.answered_part (line := line) (ts := ts) hp
      rw [hj] at hdone
      exact Option.some.inj hdone
    · refine h j q ?_ hjk
      have hj' : (a.parts.modify k fun p => { p with done := true })[j]? = some q := hj
      rwa [List.getElem?_modify_ne _ _ (Ne.symm hjk)] at hj'

theorem HostAcc.answered_fault_bad (h : ∃ x ∈ ts, x.bad = true) : (a.answered k line ts).fault = 13 :=
  if_pos (List.any_eq_true.mpr h)

theorem HostAcc.answered_fault (h : ¬ ∃ x ∈ ts, x.bad = true) : (a.answered k line ts).fault = a.fault :=
  if_neg fun hb => h (List.any_eq_true.mp hb)

/-- A read has got the bytes of the line that came, beside those it had. -/
theorem HostAcc.answered_got (hw : a.write = false) {x : Nat} (hx : x ∈ a.bytes) : Tab.get 0 (a.answered k line ts).got x
    = if x / 128 = line then lineByte (tripData ts line) (x % 128) else a.got.get 0 x := by
  have hgot : (a.answered k line ts).got
      = (lineBytes a line).foldl (fun t e => Tab.set t e.1 (lineByte (tripData ts line) (e.1 % 128))) a.got :=
    if_neg (by simp [hw])
  rw [hgot, get_foldl_set _ (fun x => lineByte (tripData ts line) (x % 128))]
  refine if_congr ?_ rfl rfl
  have hzip : (a.bytes.zip (zeros a.bytes.length)).map (·.1) = a.bytes :=
    List.map_fst_zip (by simp [zeros])
  have hkeys : (lineBytes a line).map (·.1) = a.bytes.filter (fun y => y / 128 = line) := by
    unfold lineBytes
    rw [if_neg (by simp [hw])]
    conv_rhs => rw [← hzip]
    rw [List.filter_map]
    rfl
  rw [hkeys]
  simp [hx]

/-- The answer to the host: the access is gone, and its session is sent the reply. -/
theorem reply_tells {c : Cmd} {opc status detail : Nat} {payload : List Byte} (id : Nat) (s : State) :
    let t := reply c opc status detail payload { s with hostAccs := s.hostAccs.erase id }
    (∀ x, t.mem.byte x = s.mem.byte x) ∧ t.hostAccs.find? id = none
      ∧ ∀ x, s.sessions.find? c.session = some x →
        t.txDatagrams = s.txDatagrams ++ [replyDatagram c x opc status detail payload] := by
  refine ⟨?_, ?_, fun x hx => reply_sends (s := { s with hostAccs := s.hostAccs.erase id }) hx⟩
  · obtain ⟨ss, tx, tf, es, he⟩ := reply_frame c opc status detail payload { s with hostAccs := s.hostAccs.erase id }
    rw [he]
    exact fun _ => rfl
  · obtain ⟨ss, tx, tf, es, he⟩ := reply_frame c opc status detail payload { s with hostAccs := s.hostAccs.erase id }
    rw [he]
    exact (Tab.find?_erase ..).trans (if_pos rfl)

theorem answerHost_fault (hf : a.fault ≠ 0) :
    answerHost id a s = reply a.cmd a.opc 4 a.fault [] { s with hostAccs := s.hostAccs.erase id } := if_pos hf

theorem answerHost_done (hf : a.fault = 0) : answerHost id a s = reply a.cmd a.opc 0 0
    (if a.write then [] else a.bytes.map (fun x => Tab.get 0 a.got x)) { s with hostAccs := s.hostAccs.erase id } :=
  if_neg (not_not_intro hf)

section
variable (ha : s.hostAccs.find? id = some a) (hp : a.parts[k]? = some p) (hd : p.done = false)
  (hb : allBack (s.tripsOf (.hostAccessAtSlice id k)) [⟨p.home, p.line, 1⟩] = true)
include ha hp hd hb

theorem exec_hostAccess_back : exec (.hostAccessAtSlice id k) s = .next
    (hostReplied id k p.line a (s.tripsOf (.hostAccessAtSlice id k)) (s.endTrips (.hostAccessAtSlice id k))) :=
  (exec_hostAccess ha hp hd).trans (journey_home hb)

theorem exec_hostAccess_last (hl : ∀ j q, a.parts[j]? = some q → j ≠ k → q.done = true) :
    exec (.hostAccessAtSlice id k) s = .next (answerHost id (a.answered k p.line (s.tripsOf (.hostAccessAtSlice id k)))
      (s.endTrips (.hostAccessAtSlice id k))) := by
  rw [exec_hostAccess_back ha hp hd hb, hostReplied_eq, if_pos ((HostAcc.answered_last hp).mpr hl)]

theorem exec_hostAccess_partial (hl : ¬ ∀ j q, a.parts[j]? = some q → j ≠ k → q.done = true) :
    ∃ t, exec (.hostAccessAtSlice id k) s = .next t ∧ (∀ x, t.mem.byte x = s.mem.byte x) ∧ t.txDatagrams = s.txDatagrams
      ∧ t.hostAccs.find? id = some (a.answered k p.line (s.tripsOf (.hostAccessAtSlice id k))) := by
  rw [exec_hostAccess_back ha hp hd hb, hostReplied_eq, if_neg fun h => hl ((HostAcc.answered_last hp).mp h)]
  exact ⟨_, rfl, fun _ => rfl, rfl, Tab.find?_set_self _ _ _⟩

end

end

end Sys2Proof.Machine

namespace Sys2Proof.Machine

/-! ## Queues, event rings and memory accesses of the host -/

section
variable {s : State} {c : Cmd}

/-- Bytes written to queue records that lie apart: ERR takes its own. -/
theorem recordAccess_written {opc : Nat} {bytes : List Nat} (data : List Byte) (u : State) (hn : bytes.Nodup) :
    ∃ t, recordAccess c opc true bytes data u = reply c opc 0 0 [] t
      ∧ (∀ a, t.mem.byte a = u.mem.byte a) ∧ ∀ d n, d < 4 → n < 64 →
        { t.queue d n with err := 0 } = { u.queue d n with err := 0 }
          ∧ ∀ i, i < 8 → (t.queue d n).err.extractLsb' (8 * i) 8
            = match (bytes.zip data).find? (fun x => queuePlace x.1 = some (d, n, 32 + i)) with
              | some x => x.2
              | none => (u.queue d n).err.extractLsb' (8 * i) 8 :=
  ⟨_, recordAccess_write .., fun a => congrArg (Memory.byte · a) (writeRecords_mem ..),
    fun d n _ _ => queue_writeRecords _ (zip_fst_nodup data hn) u d n⟩

theorem physicalAccess_elsewhere {opc pol : Nat} {write : Bool} {addr : Dword} {count : Nat} {data : List Byte}
    (h : ¬ ∀ a ∈ physicalBytes addr count, (queuePlace a).isSome = true) :
    physicalAccess c opc pol write addr count data s = physicalMemory c opc pol write addr count data s :=
  physicalAccess_memory (Bool.eq_false_iff.mpr fun hi => h (inRecords_iff.mp hi))

end

/-- Settles O51, command by command and then for a host access at a slice. -/
theorem hostQueuesAndAccesses : Obligations.HostQueuesAndAccesses := by
  unfold Obligations.HostQueuesAndAccesses
  intro s c hinv
  dsimp only
  refine ⟨fun ctx qid value h => ⟨fun hu => ?_, fun u x hu hx => ?_, fun u hu hx => ?_⟩,
    fun ctx qid logcap ring h => ⟨fun hb => ?_, fun hb => ?_⟩,
    fun ctx qid h => ⟨fun hu => ?_, fun u hu => ?_⟩,
    fun ctx qid skip h => ⟨fun hu => ?_, fun u x hu hx hs => ?_, fun u hu hx => ⟨fun hs => ?_, fun hs => ?_⟩, fun u x hu hx hs => ?_⟩,
    fun ctx logn stream h => ⟨fun hb => ?_, fun hb => ?_⟩,
    fun ctx index h => ⟨fun hb => ?_, fun hr hw => ?_⟩,
    fun ctx addr count data write h => ⟨fun hm => ?_, fun hm f hf => ?_, fun hm r hr hi => ?_, fun hm r hr hi hw hg => ?_, fun hm r hr hi hg => ?_⟩,
    fun pol count addr data write h => ⟨fun hi => ?_, fun hi hp hf => ?_, fun hi hp hh => ?_, fun hi hp hh hw hg => ?_, fun hi hp hh hg => ?_⟩,
    fun pol addr data hr hp => ?_, fun id k a p ha hp hd => ⟨fun x hx => ?_, fun x hx => ⟨fun hv => ⟨fun hw => ?_, fun hw hn _ => ?_⟩, fun hi hb hu hw hs hpart => ?_⟩, fun hb => ⟨fun hl => ?_, fun hl => ⟨fun hbad => ?_, fun hbad hf => ?_, fun hbad hf hw => ?_, fun hbad hf hw => ?_⟩⟩⟩⟩
  · exact ⟨_, exec_kick_unbound h hu, fun _ => rfl, rfl⟩
  · obtain ⟨hk, hh⟩ := mergeKick_queue x.1 x.2 value.toNat s
    refine ⟨_, exec_kick_slot h hu hx, fun _ => rfl, hk, hh, ?_⟩
    simp [mergeKick]
  · obtain ⟨es, he, hmem⟩ := pushOnce_eq (.queueBindPending ctx qid) (modUserQueue ctx qid (UserQueue.kicked value) s)
    refine ⟨_, exec_kick_pending h hu hx, ?_⟩
    rw [he]
    refine ⟨fun _ => rfl, hmem, ?_⟩
    refine (congrArg (fun u => u.bind UserQueue.pending) (modUserQueue_find ctx qid _ s)).trans ?_
    rw [hu]
    exact UserQueue.kicked_pending value u
  · exact ⟨_, exec_bindUserQueue_refused h hb, fun _ => rfl, rfl⟩
  · obtain ⟨hmem, hbound⟩ := ringBound_bound (ringRecorded_find (s := s) (ctx := ctx) (qid := qid) logcap ring)
    refine ⟨_, exec_bindUserQueue h hb, fun a => ?_, hbound⟩
    rw [hmem, ringRecorded_mem]
  · exact ⟨_, exec_unbind_unknown h hu, fun _ => rfl, rfl⟩
  · refine ⟨_, exec_unbind h hu, fun a => congrArg (Memory.byte · a) (slotLeft_mem u.slot s), ?_, fun x hx => ?_⟩
    · rw [State.context_modContext, if_pos rfl]
      exact (Tab.find?_erase ..).trans (if_pos rfl)
    · rw [hx]
      exact leaveSlot_free x.1 x.2 s
  · exact ⟨_, exec_resume_unknown h hu, fun _ => rfl, rfl⟩
  · exact ⟨_, exec_resume_running h hu hx hs, fun _ => rfl, rfl⟩
  · refine ⟨_, (exec_resume_slotless h hu hx).trans ?_, fun _ => rfl, rfl⟩
    rw [hs]
    rfl
  · refine ⟨modUserQueue ctx qid (UserQueue.resumed skip) s, (exec_resume_slotless h hu hx).trans ?_, fun _ => rfl, ?_⟩
    · rw [hs]
      rfl
    · rw [modUserQueue_find, hu]
      exact congrArg some (UserQueue.resumed_eq u)
  · refine ⟨_, exec_resume_stopped h hu hx hs, fun _ => rfl, (queue_updateQueue ..).trans ((if_pos ⟨rfl, rfl⟩).trans ?_)⟩
    unfold QueueRec.resumed
    simp only [Bool.and_eq_true, decide_eq_true_eq]
  · exact ⟨_, exec_setHostEventRing_refused h hb, fun _ => rfl, rfl⟩
  · refine ⟨_, exec_setHostEventRing h hb, fun _ => rfl, ?_⟩
    rw [State.context_modContext, if_pos rfl]
  · exact ⟨_, exec_advanceReadIndex_refused h hb, fun _ => rfl, rfl⟩
  · refine ⟨_, exec_advanceReadIndex h hr hw, fun _ => rfl, ?_⟩
    rw [State.context_modContext, if_pos rfl]
  · obtain ⟨t, ht, hmem, htx, haccs⟩ := withPins_waits (q := .ingress 0) (core := dispatchCore 0) (by simp) hm
    exact ⟨t, (exec_virtual h).trans ht, htx, haccs, fun x => congrArg (Memory.byte · x) hmem⟩
  · exact ⟨unpin _ s, (exec_virtual h).trans (virtualAccess_fault hm hf), fun _ => rfl, rfl⟩
  · have he := (exec_virtual h).trans ((virtualAccess_found hm hr).trans (if_pos (inRecords_iff.mpr hi)))
    refine ⟨fun hw => ?_, fun hw hn => ?_⟩
    · subst hw
      exact ⟨unpin _ s, he, fun _ => rfl, rfl⟩
    · subst hw
      obtain ⟨t, ht, hmem, hq⟩ := recordAccess_written (c := c) (opc := 2) data (unpin (.memoryWriteVirtual c ctx addr data) s) hn
      exact ⟨t, he.trans (congrArg _ ht), hmem, hq⟩
  · exact ⟨unpin _ s, (exec_virtual h).trans ((virtualAccess_found hm hr).trans ((if_neg fun hin => hi (inRecords_iff.mp hin)).trans
      (virtualMemory_guarded hw hg))), fun _ => rfl, rfl⟩
  · obtain ⟨a, ha⟩ := startAccess_started c (hostOpcode (virtualEvent c ctx addr count data write)) (some ctx) write addr.toNat r.1
      r.2.dedup (if write then data else []) (unpin (virtualEvent c ctx addr count data write) s)
    exact ⟨_, a, (exec_virtual h).trans ((virtualAccess_found hm hr).trans ((if_neg fun hin => hi (inRecords_iff.mp hin)).trans
      (virtualMemory_starts hg))), ha⟩
  · have he := (exec_physical h).trans (physicalAccess_records (inRecords_iff.mpr hi))
    refine ⟨fun hw => ?_, fun hw hn => ?_⟩
    · subst hw
      exact ⟨s, he, fun _ => rfl, rfl⟩
    · subst hw
      obtain ⟨t, ht, hmem, hq⟩ := recordAccess_written (c := c) (opc := 2) data s hn
      exact ⟨t, he.trans (congrArg _ ht), hmem, hq⟩
  · exact ⟨s, (exec_physical h).trans ((physicalAccess_elsewhere hi).trans (physicalMemory_far hp hf)), fun _ => rfl, rfl⟩
  · exact ⟨s, (exec_physical h).trans ((physicalAccess_elsewhere hi).trans (physicalMemory_hole hp hh)), fun _ => rfl, rfl⟩
  · exact ⟨s, (exec_physical h).trans ((physicalAccess_elsewhere hi).trans (physicalMemory_guarded hp hh hw hg)), fun _ => rfl, rfl⟩
  · obtain ⟨a, ha⟩ := startAccess_started c (hostOpcode (physicalEvent c pol addr count data write)) none write addr.toNat
      (physicalBytes addr (if write then data.length else count)) (physicalHomes pol addr (if write then data.length else count))
      (if write then data else []) s
    exact ⟨_, ⟨_, a, (exec_physical h).trans ((physicalAccess_elsewhere hi).trans (physicalMemory_starts hp hh hg)), ha⟩,
      physicalHomes_lines ..⟩
  · refine ⟨_, exec_staging hr hp, fun _ => rfl, fun k => ⟨fun i hi => ?_, fun hk => ?_⟩⟩
    · refine (find?_zipIdx_set data addr.toNat 0 _ _).trans ((if_pos (by omega)).trans ?_)
      rw [Nat.add_zero, Nat.add_sub_cancel_left]
    · exact (find?_zipIdx_set data addr.toNat 0 _ _).trans (if_neg (by omega))
  · obtain ⟨t, ht, hleft⟩ := journey_leaves _ _ hx
    exact ⟨t, (exec_hostAccess ha hp hd).trans ht, hleft⟩
  · exact exec_hostAccess_read ha hp hd hx hv hw
  · exact exec_hostAccess_write ha hp hd hx hv hinv.memory hw hn
  · exact exec_hostAccess_poisoned ha hp hd hx hi hb hu hw hs hpart
  · obtain ⟨t, ht, hmem, htx, hfind⟩ := exec_hostAccess_partial ha hp hd hb hl
    exact ⟨t, _, ht, hmem, htx, hfind, HostAcc.answered_part hp, rfl, rfl, HostAcc.answered_fault_bad, HostAcc.answered_fault,
      fun hw x hx => HostAcc.answered_got hw hx⟩
  · have hf := HostAcc.answered_fault_bad (a := a) (k := k) (line := p.line) hbad
    exact ⟨_, (exec_hostAccess_last ha hp hd hb hl).trans (congrArg _ ((answerHost_fault (by rw [hf]; decide)).trans (by rw [hf]; rfl))),
      reply_tells id (s.endTrips (.hostAccessAtSlice id k))⟩
  · have hf' := HostAcc.answered_fault (a := a) (k := k) (line := p.line) hbad
    exact ⟨_, (exec_hostAccess_last ha hp hd hb hl).trans (congrArg _ ((answerHost_fault (by rw [hf']; exact hf)).trans (by rw [hf']; rfl))),
      reply_tells id (s.endTrips (.hostAccessAtSlice id k))⟩
  · have hf' := (HostAcc.answered_fault (a := a) (k := k) (line := p.line) hbad).trans hf
    refine ⟨_, (exec_hostAccess_last ha hp hd hb hl).trans (congrArg _ ((answerHost_done hf').trans ?_)),
      reply_tells id (s.endTrips (.hostAccessAtSlice id k))⟩
    exact congrArg (reply a.cmd a.opc 0 0 · _)
      ((if_neg (by simp [HostAcc.answered, hw])).trans (List.map_congr_left fun x hx => HostAcc.answered_got hw hx))
  · have hf' := (HostAcc.answered_fault (a := a) (k := k) (line := p.line) hbad).trans hf
    exact ⟨_, (exec_hostAccess_last ha hp hd hb hl).trans (congrArg _ ((answerHost_done hf').trans
      (congrArg (reply a.cmd a.opc 0 0 · _) (if_pos hw)))), reply_tells id (s.endTrips (.hostAccessAtSlice id k))⟩

end Sys2Proof.Machine

namespace Sys2Proof.Machine

/-! ## Work that is given up

What the removal of teams, launches and translations leaves standing, in one relation that its steps compose. -/

/-- From s to t work has been given up and nothing new has come: no team, launch, bound queue or translation, and every
context has its generation. -/
structure State.Sheds (s t : State) : Prop where
  waits : t.waitingCmds = s.waitingCmds
  teams : ∀ n, s.team? n = none → t.team? n = none
  launches : ∀ l ∈ t.launches, l ∈ s.launches
  gens : ∀ x, (t.context x).gen = (s.context x).gen
  queues : ∀ d n, t.queue d n = s.queue d n ∨ (t.queue d n).state = 0
  tlbs : ∀ k, ∀ e ∈ (t.core k).tlb, e ∈ (s.core k).tlb
  dieTlbs : ∀ k, ∀ e ∈ (t.die k).tlb, e ∈ (s.die k).tlb
  walks : ∀ k, ∀ w ∈ (t.die k).walks, w ∈ (s.die k).walks

section
variable {s t u : State}

theorem State.Sheds.trans (h : s.Sheds t) (k : t.Sheds u) : s.Sheds u where
  waits := k.waits.trans h.waits
  teams n hn := k.teams n (h.teams n hn)
  launches l hl := h.launches l (k.launches l hl)
  gens x := (k.gens x).trans (h.gens x)
  queues d n := by
    obtain hk | hk := k.queues d n
    · obtain hh | hh := h.queues d n
      · exact .inl (hk.trans hh)
      · exact .inr (by rw [hk, hh])
    · exact .inr hk
  tlbs i e he := h.tlbs i e (k.tlbs i e he)
  dieTlbs i e he := h.dieTlbs i e (k.dieTlbs i e he)
  walks i e he := h.walks i e (k.walks i e he)

/-- A slot that is free stays free. -/
theorem State.Sheds.freed (h : s.Sheds t) {d n : Nat} (hq : (s.queue d n).state = 0) : (t.queue d n).state = 0 := by
  obtain he | he := h.queues d n
  · rw [he, hq]
  · exact he

theorem State.Sheds.unshot (h : s.Sheds t) {ctx base length : Nat} (hs : s.unshot ctx base length) : t.unshot ctx base length where
  cores k e he := hs.cores k e (h.tlbs k e he)
  dies k e he := hs.dies k e (h.dieTlbs k e he)
  walks k e he := hs.walks k e (h.walks k e he)

/-- A change of anything else. -/
theorem State.Sheds.of_same (hw : t.waitingCmds = s.waitingCmds) (ht : t.teams = s.teams) (hl : t.launches = s.launches)
    (hx : t.contexts = s.contexts) (hc : t.cores = s.cores) (hd : t.dies = s.dies) : s.Sheds t := by
  have hdie (k : Nat) : t.die k = s.die k := congrArg (fun x => Tab.get ({} : Die) x k) hd
  refine ⟨hw, fun n h => ?_, fun l h => hl ▸ h, fun x => ?_, fun d n => .inl ?_, fun k e h => ?_, fun k e h => hdie k ▸ h,
    fun k e h => hdie k ▸ h⟩
  · unfold State.team?
    rw [ht]
    exact h
  · unfold State.context
    rw [hx]
  · unfold State.queue
    rw [hdie]
  · unfold State.core at h ⊢
    rw [hc] at h
    exact h

theorem State.Sheds.refl (s : State) : s.Sheds s := .of_same rfl rfl rfl rfl rfl rfl

theorem push_sheds (es : List Instr) (s : State) : s.Sheds (s.push es) := .of_same rfl rfl rfl rfl rfl rfl
theorem withSlices_sheds (sl : Tab Slice) (s : State) : s.Sheds { s with slices := sl } := .of_same rfl rfl rfl rfl rfl rfl
theorem withOps_sheds (os : Tab Op) (s : State) : s.Sheds { s with ops := os } := .of_same rfl rfl rfl rfl rfl rfl

theorem State.Sheds.foldl {α : Type} {f : State → α → State} (hf : ∀ (s : State) x, s.Sheds (f s x)) (xs : List α)
    (s : State) : s.Sheds (xs.foldl f s) :=
  List.foldlRecOn xs f (motive := fun t => s.Sheds t) (.refl s) fun t ht x _ => ht.trans (hf t x)

theorem State.Sheds.cond {c : Prop} [Decidable c] (ht : s.Sheds t) (hu : s.Sheds u) : s.Sheds (if c then t else u) := by
  split
  · exact ht
  · exact hu

theorem modTeam_sheds (n : Nat) (f : Team → Team) (s : State) : s.Sheds (s.modTeam n f) := by
  refine { State.Sheds.refl s with teams := fun k hk => ?_ }
  rw [State.team?_modTeam]
  split
  · next h => rw [← h, hk]; rfl
  · exact hk

theorem modContext_sheds (ctx : Nat) {f : Context → Context} (hf : ∀ x, (f x).gen = x.gen) (s : State) :
    s.Sheds (s.modContext ctx f) := by
  refine { State.Sheds.refl s with gens := fun k => ?_ }
  rw [State.context_modContext]
  split
  · next h => rw [hf, h]
  · rfl

theorem modCore_sheds (c : Nat) {f : Core → Core} (hf : ∀ x, (f x).tlb = x.tlb) (s : State) : s.Sheds (s.modCore c f) := by
  refine { State.Sheds.refl s with tlbs := fun k e he => ?_ }
  rw [State.core_modCore] at he
  split at he
  · next h => rw [hf] at he; rw [h]; exact he
  · exact he

theorem WalksOn_sheds (h : s.WalksOn t) : s.Sheds t where
  waits := by
    obtain ⟨a, p, ts, cs, ds, rfl⟩ := h.frame
    rfl
  teams := h.teams
  launches := by
    obtain ⟨a, p, ts, cs, ds, rfl⟩ := h.frame
    exact fun _ h => h
  gens := by
    obtain ⟨a, p, ts, cs, ds, rfl⟩ := h.frame
    exact fun _ => rfl
  queues d n := .inl (congrArg (fun x => Tab.get ({} : QueueRec) x n) (h.queues d))
  tlbs k e he := h.tlbs k ▸ he
  dieTlbs k e he := h.dieTlbs k ▸ he
  walks k e he := h.walks k ▸ he

theorem modDie_sheds (d : Nat) {f : Die → Die} (ht : ∀ x, (f x).tlb = x.tlb) (hw : ∀ x, (f x).walks = x.walks)
    (hq : ∀ x, (f x).queues = x.queues) (s : State) : s.Sheds (s.modDie d f) := WalksOn_sheds (modDie_walksOn d ht hw hq s)

/-- Every core changed in one way that keeps its translations or drops some. -/
theorem State.core_mapCores {f : Core → Core} (hf : f {} = {}) (k : Nat) :
    ({ s with cores := s.cores.map fun e => (e.1, f e.2) } : State).core k = f (s.core k) := by
  show Tab.get {} (s.cores.map fun e => (e.1, f e.2)) k = f (Tab.get {} s.cores k)
  unfold Tab.get
  rw [Tab.find?_mapVal]
  cases s.cores.find? k with
  | none => exact hf.symm
  | some x => rfl

theorem mapCores_sheds {f : Core → Core} (hf : f {} = {}) (ht : ∀ x, ∀ e ∈ (f x).tlb, e ∈ x.tlb) (s : State) :
    s.Sheds { s with cores := s.cores.map fun e => (e.1, f e.2) } := by
  refine { State.Sheds.refl s with tlbs := fun k e he => ?_ }
  rw [State.core_mapCores hf] at he
  exact ht _ e he

theorem mapDies_sheds {f : Die → Die} (hf : f {} = {}) (ht : ∀ x, ∀ e ∈ (f x).tlb, e ∈ x.tlb)
    (hw : ∀ x, ∀ e ∈ (f x).walks, e ∈ x.walks) (hq : ∀ x, (f x).queues = x.queues) (s : State) :
    s.Sheds { s with dies := s.dies.map fun e => (e.1, f e.2) } := by
  refine { State.Sheds.refl s with queues := fun d n => .inl ?_, dieTlbs := fun k e he => ?_, walks := fun k e he => ?_ }
  · unfold State.queue
    rw [State.die_mapDies hf, hq]
  · rw [State.die_mapDies hf] at he
    exact ht _ e he
  · rw [State.die_mapDies hf] at he
    exact hw _ e he

/-! ### Events that will not come -/

theorem purgeLine_frame (p : Instr → Bool) (home line : Nat) (s : State) :
    ∃ a sl, purgeLine p home line s = { s with agenda := a, slices := sl } := by
  unfold purgeLine
  dsimp only
  split
  · split
    · obtain ⟨es, he⟩ := afterTurn_ahead home line (s.modSline home line (fun l => { l with waiters := l.waiters.filter (fun e => !p e) }))
      rw [he]
      exact ⟨_, _, rfl⟩
    · exact ⟨_, _, rfl⟩
  · exact ⟨_, _, rfl⟩

theorem purgeLines_frame (p : Instr → Bool) (xs : List (Nat × Nat)) (s : State) :
    ∃ a sl, xs.foldl (fun s x => purgeLine p x.1 x.2 s) s = { s with agenda := a, slices := sl } := by
  induction xs generalizing s with
  | nil => exact ⟨s.agenda, s.slices, rfl⟩
  | cons x xs ih =>
    obtain ⟨a, sl, h⟩ := purgeLine_frame p x.1 x.2 s
    obtain ⟨a', sl', h'⟩ := ih (purgeLine p x.1 x.2 s)
    exact ⟨a', sl', by rw [List.foldl_cons, h', h]⟩

theorem purgeEvents_frame (p : Instr → Bool) (s : State) : ∃ a sl, purgeEvents p s
    = { s with agenda := a, slices := sl, trips := s.trips.filter (fun t => !p t.e), pins := s.pins.filter (fun x => !p x.e) } := by
  have hlines (sl : Tab Slice) (u : State) : sl.foldl (fun s e => e.2.lines.foldl (fun s l => purgeLine p e.1 l.1 s) s) u
      = (sl.flatMap fun e => e.2.lines.map fun l => (e.1, l.1)).foldl (fun s x => purgeLine p x.1 x.2 s) u := by
    rw [List.foldl_flatMap]
    simp only [List.foldl_map]
  unfold purgeEvents
  dsimp only
  rw [hlines]
  obtain ⟨a, sl, h⟩ := purgeLines_frame p _ _
  exact ⟨a, sl, h⟩

theorem purgeEvents_sheds (p : Instr → Bool) (s : State) : s.Sheds (purgeEvents p s) := by
  obtain ⟨a, sl, h⟩ := purgeEvents_frame p s
  rw [h]
  exact .of_same rfl rfl rfl rfl rfl rfl

theorem dropOps_sheds (p : Nat → Op → Bool) (s : State) : s.Sheds (dropOps p s) :=
  (purgeEvents_sheds _ s).trans (.of_same rfl rfl rfl rfl rfl rfl)

theorem endWait_sheds (r : SplitRef) (s : State) : s.Sheds (endWait r s) := modTeam_sheds ..

theorem modEvent_sheds (ctx e : Nat) (f : Event → Event) (s : State) : s.Sheds (modEvent ctx e f s) :=
  modContext_sheds ctx (by intro _; rfl) s

theorem dropWait_sheds (r : SplitRef) (s : State) : s.Sheds (dropWait r s) := by
  unfold dropWait
  split
  · exact .refl s
  · next sp _ =>
    split
    · refine State.Sheds.trans ?_ (endWait_sheds r _)
      refine State.Sheds.trans ?_ (withOps_sheds _ _)
      refine State.Sheds.trans ?_ (purgeEvents_sheds _ _)
      exact (modCore_sheds _ (by intro _; rfl) s).trans (withSlices_sheds _ _)
    · refine State.Sheds.trans ?_ (endWait_sheds r _)
      exact (modEvent_sheds _ _ _ s).trans (.of_same rfl rfl rfl rfl rfl rfl)
    · exact (purgeEvents_sheds _ s).trans ((endWait_sheds r _).trans (dropOps_sheds _ _))
    · exact endWait_sheds r s
    · exact endWait_sheds r s
    · exact endWait_sheds r s
    · exact endWait_sheds r s
    · exact endWait_sheds r s
    · exact .refl s
    · exact .refl s
    · exact .refl s

/-! ### Bytes with contained results -/

theorem writeLine_sheds (home line : Nat) (d : LineData) (bm : ByteMask) (s : State) : s.Sheds (writeLine home line d bm s) := by
  have hdata : ∃ n, (homeData home line d s).2 = { s with free := n } := by
    unfold homeData
    split
    · exact ⟨_, rfl⟩
    · exact ⟨_, rfl⟩
  obtain ⟨n, hn⟩ := hdata
  unfold writeLine lineChanged
  dsimp only
  rw [hn]
  split
  · exact .of_same rfl rfl rfl rfl rfl rfl
  · exact .of_same rfl rfl rfl rfl rfl rfl

theorem State.Sheds.ite_snd {α : Type} {c : Prop} [Decidable c] {a b : α × State} (ha : s.Sheds a.2) (hb : s.Sheds b.2) :
    s.Sheds (if c then a else b).2 := by
  split
  · exact ha
  · exact hb

theorem freeBytes_sheds (n : Nat) (s : State) : s.Sheds (freeBytes n s).2 := .of_same rfl rfl rfl rfl rfl rfl

theorem spoilBytes_sheds (pa n : Nat) (s : State) : s.Sheds (spoilBytes pa n s) := .of_same rfl rfl rfl rfl rfl rfl

theorem setLocalStore_sheds (o : Op) (kind addr : Nat) (st : Store) (s : State) : s.Sheds (setLocalStore o kind addr st s) :=
  modTeam_sheds ..

theorem putChunk_sheds (o : Op) (h : CopyShape) (dst : Nat) (segs : List Seg) (bs : List Byte) (s : State) :
    s.Sheds (putChunk o h dst segs bs s) := by
  unfold putChunk
  split
  · exact List.foldlRecOn (b := (bs, s)) segs _ (motive := fun p : List Byte × State => s.Sheds p.2) (State.Sheds.refl s)
      fun p hp g _ => hp.trans (writeLine_sheds ..)
  · dsimp only
    exact (State.Sheds.ite_snd (freeBytes_sheds _ s) (.refl s)).trans (setLocalStore_sheds ..)

theorem spoilCopy_sheds (id : Nat) (o : Op) (h : CopyShape) (n : Nat) (s : State) : s.Sheds (spoilCopy id o h n s) := by
  induction n with
  | zero => exact .refl s
  | succ k ih =>
    unfold spoilCopy
    dsimp only
    split
    · exact ih
    · split
      · exact ih
      · exact ih.trans ((freeBytes_sheds _ _).trans (putChunk_sheds ..))

theorem spoilOp_sheds (id : Nat) (o : Op) (s : State) : s.Sheds (spoilOp id o s) := by
  unfold spoilOp
  have hparts (ps : List Part) : s.Sheds (ps.foldl (fun s p =>
      if o.kind = .discard then spoilBytes (128 * p.line) 128 s
      else (lanesOn o p.key).foldl (fun s a => spoilBytes a.pa o.size s) s) s) := by
    refine State.Sheds.foldl (fun s p => ?_) ps s
    exact .cond (spoilBytes_sheds _ _ s) (State.Sheds.foldl (fun s a => spoilBytes_sheds _ _ s) _ s)
  have hrecord (pa : Nat) (s : State) : s.Sheds (if o.kind = .qpush then spoilBytes pa 64 s else spoilBytes (pa + 56) 8 s) :=
    .cond (spoilBytes_sheds _ _ s) (spoilBytes_sheds _ _ s)
  split
  case h_1 | h_2 | h_3 | h_4 | h_5 | h_6 => exact hparts _
  case h_7 =>
    dsimp only
    split
    · exact .refl s
    · exact spoilCopy_sheds ..
  case h_8 =>
    dsimp only
    split
    · exact .refl s
    · exact State.Sheds.foldl (fun s i => State.Sheds.foldl (fun s g => spoilBytes_sheds _ _ s) _ s) _ s
  case h_9 | h_10 =>
    refine .cond (spoilBytes_sheds _ _ s) (.cond (.cond (.refl s) (hrecord _ s)) (.cond ?_ (.refl s)))
    split
    · exact .cond (.refl s) (hrecord _ s)
    · exact .refl s
  case h_11 => exact State.Sheds.foldl (fun s g => spoilBytes_sheds _ _ s) _ s
  case h_12 => exact .refl s

/-! ### Teams that are discarded -/

theorem modOp_sheds (id : Nat) (f : Op → Op) (s : State) : s.Sheds (s.modOp id f) := withOps_sheds ..

theorem modEngine_sheds (e : Nat) (f : Engine → Engine) (s : State) : s.Sheds (s.modEngine e f) :=
  modDie_sheds _ (by intro _; rfl) (by intro _; rfl) (by intro _; rfl) s

theorem leaveEngine_sheds (id : Nat) (o : Op) (s : State) : s.Sheds (leaveEngine id o s) :=
  (modEngine_sheds _ _ s).trans ((purgeEvents_sheds _ _).trans ((modOp_sheds _ _ _).trans (push_sheds _ _)))

theorem leaveMatrix_sheds (core id : Nat) (s : State) : s.Sheds (leaveMatrix core id s) :=
  modCore_sheds _ (by intro _; rfl) s

theorem modSplit_sheds (r : SplitRef) (f : Split → Split) (s : State) : s.Sheds (s.modSplit r f) := modTeam_sheds ..

theorem grantTorc_sheds (core : Nat) (s : State) : s.Sheds (grantTorc core s) := by
  unfold grantTorc
  dsimp only
  split
  · refine State.Sheds.trans ?_ (modSplit_sheds _ _ _)
    exact modCore_sheds _ (by intro _; rfl) s
  · exact .refl s

theorem leaveTorc_sheds (core : Nat) (w : WarpRef) (s : State) : s.Sheds (leaveTorc core w s) := by
  unfold leaveTorc
  refine State.Sheds.trans (t := s.modCore core (fun c => { c with torcQ := c.torcQ.filter (fun r => warpOf r ≠ w) }))
    (modCore_sheds _ (by intro _; rfl) s) ?_
  unfold passTorc
  split
  · refine State.Sheds.trans ?_ (grantTorc_sheds _ _)
    exact modCore_sheds _ (by intro _; rfl) _
  · exact .refl _

theorem eraseTeam_sheds (n : Nat) (c : Option SplitRef) (s : State) : s.Sheds { s with teams := s.teams.erase n, cur := c } := by
  refine { State.Sheds.refl s with teams := fun k hk => ?_ }
  refine (Tab.find?_erase ..).trans ?_
  split
  · rfl
  · exact hk

theorem freeSlot_sheds (die ctx : Nat) (pool : Dword) (i : Nat) (s : State) : s.Sheds (freeSlot die ctx pool i s) :=
  modDie_sheds _ (by intro _; rfl) (by intro _; rfl) (by intro _; rfl) s

/-- What a discarded team's operations still had to write holds contained results, and they have left their units. -/
def opsSpoiled (n : Nat) (s : State) : State :=
  (teamOps s n).foldl (fun s o =>
    let s := spoilOp o.1 o.2 s
    let s := if isCopy o.2 then leaveEngine o.1 o.2 s else s
    leaveMatrix o.2.core o.1 s) s

/-- A discarded team's splits wait no longer. -/
def waitsDropped (n : Nat) (tm : Team) (s : State) : State :=
  tm.warps.foldl (fun s e => e.2.splits.foldl (fun s sp => dropWait ⟨n, e.1, sp.1⟩ s) s) s

/-- A discarded team's warps have left the torcs. -/
def torcsLeft (n : Nat) (tm : Team) (s : State) : State :=
  if tm.placed then tm.warps.foldl (fun s e => leaveTorc e.2.core ⟨n, e.1⟩ s) s else s

/-- A discarded team that was being restored has given up the residency records that it had still to install. -/
def recordsLeft (tm : Team) (s : State) : State :=
  if tm.status = .restoring then
    (tm.warps.filter (fun e => !e.2.installed)).foldl (fun s e =>
      match e.2.anchor with
      | some (h, _) => s.modSlice h (fun sl => { sl with reserved := sl.reserved - 1 })
      | none => s) s
  else s

/-- The residency records of a team are gone. -/
def recordsGone (n : Nat) (s : State) : State :=
  { s with slices := s.slices.map (fun (e : Nat × Slice) =>
      (e.1, { e.2 with res := e.2.res.filter (fun (r : ResRec) => r.warp.team ≠ n) })) }

/-- The image slot of a discarded team is to be freed. -/
def imageLeft (tm : Team) (l : Launch) (s : State) : State :=
  match tm.slot with
  | some i => freeSlot tm.die l.ctx l.desc.savePool i s
  | none => s

/-- A discarded team's entry is gone. -/
def entryGone (n : Nat) (tm : Team) (s : State) : State :=
  ({ s with
     teams := s.teams.erase n
     cur := if s.cur.any (fun (r : SplitRef) => r.team = n) then none else s.cur }).modDie tm.die
    (fun d => { d with savedTeams := d.savedTeams.filter (· ≠ n) })

theorem discardTeam_eq {n : Nat} {tm : Team} {l : Launch} (ht : s.team? n = some tm) (hl : launchOfTeam s n = some l) :
    discardTeam n s = entryGone n tm (imageLeft tm l (recordsGone n (purgeTeam n (dropTeamOps n
      (recordsLeft tm (torcsLeft n tm (waitsDropped n tm (opsSpoiled n s)))))))) := by
  unfold discardTeam
  rw [ht, hl]
  rfl

theorem opsSpoiled_sheds (n : Nat) (s : State) : s.Sheds (opsSpoiled n s) := by
  refine State.Sheds.foldl (fun s o => ?_) _ s
  have hspoil := spoilOp_sheds o.1 o.2 s
  refine State.Sheds.trans ?_ (leaveMatrix_sheds _ _ _)
  exact .cond (hspoil.trans (leaveEngine_sheds _ _ _)) hspoil

theorem waitsDropped_sheds (n : Nat) (tm : Team) (s : State) : s.Sheds (waitsDropped n tm s) :=
  .foldl (fun s _ => .foldl (fun s _ => dropWait_sheds _ s) _ s) _ s

theorem torcsLeft_sheds (n : Nat) (tm : Team) (s : State) : s.Sheds (torcsLeft n tm s) :=
  .cond (.foldl (fun s _ => leaveTorc_sheds _ _ s) _ s) (.refl s)

theorem recordsLeft_sheds (tm : Team) (s : State) : s.Sheds (recordsLeft tm s) := by
  refine .cond (.foldl (fun s e => ?_) _ s) (.refl s)
  split
  · exact withSlices_sheds _ s
  · exact .refl s

theorem imageLeft_sheds (tm : Team) (l : Launch) (s : State) : s.Sheds (imageLeft tm l s) := by
  unfold imageLeft
  split
  · exact freeSlot_sheds _ _ _ _ s
  · exact .refl s

theorem entryGone_sheds (n : Nat) (tm : Team) (s : State) : s.Sheds (entryGone n tm s) :=
  (eraseTeam_sheds n _ s).trans (modDie_sheds _ (by intro _; rfl) (by intro _; rfl) (by intro _; rfl) _)

theorem erased_team (n : Nat) (s : State) : ({ s with teams := s.teams.erase n } : State).team? n = none :=
  (Tab.find?_erase ..).trans (if_pos rfl)

/-- A discarded team is gone, and nothing new has come. -/
theorem discardTeam_sheds (n : Nat) (s : State) : s.Sheds (discardTeam n s) ∧ (discardTeam n s).team? n = none := by
  by_cases h : ∃ tm l, s.team? n = some tm ∧ launchOfTeam s n = some l
  · obtain ⟨tm, l, ht, hl⟩ := h
    rw [discardTeam_eq ht hl]
    refine ⟨?_, erased_team n _⟩
    exact ((((((((opsSpoiled_sheds n s).trans (waitsDropped_sheds n tm _)).trans (torcsLeft_sheds n tm _)).trans
      (recordsLeft_sheds tm _)).trans (dropOps_sheds _ _)).trans (purgeEvents_sheds _ _)).trans (withSlices_sheds _ _)).trans
      (imageLeft_sheds tm l _)).trans (entryGone_sheds n tm _)
  · unfold discardTeam
    split
    · next tm l ht hl => exact absurd ⟨tm, l, ht, hl⟩ h
    · exact ⟨eraseTeam_sheds n s.cur s, erased_team n s⟩

theorem discardTeams_sheds (ns : List Nat) (s : State) : s.Sheds (ns.foldl (fun s t => discardTeam t s) s)
    ∧ ∀ n ∈ ns, (ns.foldl (fun s t => discardTeam t s) s).team? n = none := by
  induction ns generalizing s with
  | nil => exact ⟨.refl s, fun _ h => absurd h List.not_mem_nil⟩
  | cons n ns ih =>
    obtain ⟨hone, hgone⟩ := discardTeam_sheds n s
    obtain ⟨hrest, hall⟩ := ih (discardTeam n s)
    refine ⟨hone.trans hrest, fun k hk => ?_⟩
    obtain rfl | hk := List.mem_cons.mp hk
    · exact hrest.teams _ hgone
    · exact hall k hk

end

end Sys2Proof.Machine

namespace Sys2Proof.Machine

/-! ## Translations that are shot down (R70, R71) -/

section
variable {s t u : State} {ctx base length : Nat}

/-- The translations of a core that a shootdown leaves. -/
def Core.unshot (ctx base length : Nat) (c : Core) : Core :=
  { c with
    tlb := c.tlb.filter fun e => !shot ctx base length e.ctx (e.vpage * 2 ^ pageBits e.tr.level) (pageBits e.tr.level)
    misses := c.misses.filter fun m => !(m.1 = ctx && shot ctx base length ctx (65536 * m.2) 16) }

/-- The translations of a die that a shootdown leaves. -/
def Die.unshot (ctx base length : Nat) (d : Die) : Die :=
  { d with
    tlb := d.tlb.filter fun e => !shot ctx base length e.ctx (e.vpage * 2 ^ pageBits e.tr.level) (pageBits e.tr.level)
    misses := d.misses.filter fun m => !(m.ctx = ctx && shot ctx base length ctx (65536 * m.page) 16)
    walks := d.walks.filter fun w => !shot ctx base length w.1 (w.2.2.1 * 2 ^ pageBits (w.2.1 + 1)) (pageBits (w.2.1 + 1)) }

theorem dropTranslations_core (k : Nat) :
    (dropTranslations ctx base length s).core k = (s.core k).unshot ctx base length :=
  State.core_mapCores (f := Core.unshot ctx base length) rfl k

theorem dropTranslations_die (k : Nat) :
    (dropTranslations ctx base length s).die k = (s.die k).unshot ctx base length :=
  State.die_mapDies (f := Die.unshot ctx base length) rfl k

theorem dropTranslations_unshot (s : State) : (dropTranslations ctx base length s).unshot ctx base length where
  cores k e he := by
    rw [dropTranslations_core] at he
    simpa using (List.mem_filter.mp he).2
  dies k e he := by
    rw [dropTranslations_die] at he
    simpa using (List.mem_filter.mp he).2
  walks k e he := by
    rw [dropTranslations_die] at he
    simpa using (List.mem_filter.mp he).2

theorem dropTranslations_sheds (s : State) : s.Sheds (dropTranslations ctx base length s) := by
  refine { State.Sheds.refl s with
    teams := (mapSplits_walksOn ctx (fun _ sp => sp.forget fun p => shot ctx base length ctx (65536 * p) 16) s).teams
    queues := fun d n => .inl ?_
    tlbs := fun k e he => ?_
    dieTlbs := fun k e he => ?_
    walks := fun k e he => ?_ }
  · unfold State.queue
    rw [dropTranslations_die]
    rfl
  · rw [dropTranslations_core] at he
    exact List.mem_of_mem_filter he
  · rw [dropTranslations_die] at he
    exact List.mem_of_mem_filter he
  · rw [dropTranslations_die] at he
    exact List.mem_of_mem_filter he

/-- A shootdown drops translations and the walks of the range, and then walks begin. -/
theorem endWalks_eq (s : State) : ∃ p es, (∀ e, (∀ k x v l b, e ≠ .tableWalkStep k x v l b) → p e = false)
    ∧ endWalks ctx base length s = (List.range 4).foldl (fun s d => startWalkers d s)
      ((purgeEvents p (dropTranslations ctx base length s)).push es) := by
  unfold endWalks
  refine ⟨_, _, fun e he => ?_, rfl⟩
  split
  · exact absurd rfl (he _ _ _ _ _)
  · rfl

theorem endWalks_walksOn (s : State) : ∃ p, (∀ e, (∀ k x v l b, e ≠ .tableWalkStep k x v l b) → p e = false)
    ∧ (purgeEvents p (dropTranslations ctx base length s)).WalksOn (endWalks ctx base length s) := by
  obtain ⟨p, es, hp, h⟩ := endWalks_eq (ctx := ctx) (base := base) (length := length) s
  rw [h]
  exact ⟨p, hp, (push_walksOn es _).trans (.foldl (fun s d => startWalkers_walksOn d s) _ _)⟩

theorem endWalks_sheds (s : State) : s.Sheds (endWalks ctx base length s) := by
  obtain ⟨p, -, h⟩ := endWalks_walksOn (ctx := ctx) (base := base) (length := length) s
  exact (dropTranslations_sheds s).trans ((purgeEvents_sheds _ _).trans (WalksOn_sheds h))

theorem endWalks_unshot (s : State) : (endWalks ctx base length s).unshot ctx base length := by
  obtain ⟨p, -, h⟩ := endWalks_walksOn (ctx := ctx) (base := base) (length := length) s
  exact ((purgeEvents_sheds _ _).trans (WalksOn_sheds h)).unshot (dropTranslations_unshot s)

/-! ### Lines sent back -/

theorem sendBack_walksOn (core line : Nat) (s : State) : s.WalksOn (sendBack core line s) := by
  unfold sendBack
  split
  · exact .refl s
  · split
    · refine State.WalksOn.trans ?_ (push_walksOn _ _)
      exact modCore_walksOn core (by intro _; rfl) s
    · refine State.WalksOn.trans ?_ (push_walksOn _ _)
      exact modCore_walksOn core (by intro _; rfl) s
    · exact .refl s

theorem returnLines_walksOn (ids : List Nat) (s : State) : s.WalksOn (returnLines ids s) := by
  refine .foldl (fun s id => ?_) ids s
  split
  · exact .foldl (fun s l => sendBack_walksOn _ l s) _ s
  · exact .refl s

/-! ## SHOOTDOWN -/

variable {c : Cmd}

/-- What a shootdown waits for. -/
def shootdownWait (s : State) (c : Cmd) (ctx base length : Nat) : Waiting :=
  { cmd := c, opc := 0x15, ctx := ctx, ops := shotOps s ctx base length, accs := shotAccs s ctx base length
    events := shotEvents s ctx base length }

/-- Translations are dropped, walks end, and lines go back. -/
def shotState (s : State) (ctx base length : Nat) : State :=
  returnLines (shotOps s ctx base length) (shoot ctx base length s)

theorem shotState_walksOn (s : State) : ∃ p, (∀ e, (∀ k x v l b, e ≠ .tableWalkStep k x v l b) → p e = false)
    ∧ (purgeEvents p (dropTranslations ctx base length s)).WalksOn (shotState s ctx base length) := by
  obtain ⟨p, hp, h⟩ := endWalks_walksOn (ctx := ctx) (base := base) (length := length) s
  exact ⟨p, hp, h.trans (returnLines_walksOn _ _)⟩

/-- A shootdown leaves the operations, memory and the host's accesses and commands as they were. -/
theorem shotState_frame (s : State) : ∃ a tr p ts cs sl ds, shotState s ctx base length
    = { s with agenda := a, trips := tr, pins := p, teams := ts, cores := cs, slices := sl, dies := ds } := by
  obtain ⟨p, -, h⟩ := shotState_walksOn (ctx := ctx) (base := base) (length := length) s
  obtain ⟨a, ps, ts, cs, ds, h⟩ := h.frame
  obtain ⟨a', sl', h'⟩ := purgeEvents_frame p (dropTranslations ctx base length s)
  rw [h'] at h
  exact ⟨_, _, _, _, _, _, _, h⟩

theorem shotState_unshot (s : State) : (shotState s ctx base length).unshot ctx base length :=
  (WalksOn_sheds (returnLines_walksOn _ _)).unshot (endWalks_unshot s)

/-- The translations that events in flight have stay with them, but for the walks. -/
theorem shotState_pins {x : Pin} (hx : x ∈ s.pins) (he : ∀ k y v l b, x.e ≠ .tableWalkStep k y v l b) :
    x ∈ (shotState s ctx base length).pins := by
  obtain ⟨p, hp, h⟩ := shotState_walksOn (ctx := ctx) (base := base) (length := length) s
  refine h.pins x ?_
  obtain ⟨a, sl, hf⟩ := purgeEvents_frame p (dropTranslations ctx base length s)
  rw [hf]
  exact List.mem_filter.mpr ⟨hx, by simp [hp _ he]⟩

theorem exec_shootdown_begins {base length : Dword} (h : s.mayGive c (.shootdown c ctx base length))
    (hw : waitingOf s c 0x15 = none) : exec (.shootdown c ctx base length) s
      = (if shotDone (shotState s ctx base.toNat length.toNat) (shootdownWait s c ctx base.toNat length.toNat) then
          .next (reply c 0x15 0 0 [] (shotState s ctx base.toNat length.toNat))
        else .next (State.again { shotState s ctx base.toNat length.toNat with
          waitingCmds := (shotState s ctx base.toNat length.toNat).waitingCmds ++ [shootdownWait s c ctx base.toNat length.toNat] }
          (.shootdown c ctx base length))) := by
  show execShootdown c ctx base length s = _
  unfold execShootdown
  rw [hw]
  exact h.context rfl

theorem exec_shootdown_goes_on {base length : Dword} {w : Waiting} (hw : waitingOf s c 0x15 = some w) :
    exec (.shootdown c ctx base length) s = .next (if shotDone s w then reply c 0x15 0 0 [] (dropWaiting c 0x15 s)
      else (returnLines w.ops s).again (.shootdown c ctx base length)) := by
  show execShootdown c ctx base length s = _
  unfold execShootdown
  rw [hw]
  rfl

theorem waitingOf_dropWaiting (c : Cmd) (opc : Nat) (s : State) : waitingOf (dropWaiting c opc s) c opc = none := by
  unfold waitingOf dropWaiting
  refine List.find?_eq_none.mpr fun w hw => ?_
  simpa [imp_iff_not_or] using (List.mem_filter.mp hw).2

/-- A shootdown with something to wait for stands in the agenda again. -/
theorem exec_shootdown_waits {base length : Dword} (h : s.mayGive c (.shootdown c ctx base length))
    (hw : waitingOf s c 0x15 = none)
    (hd : shotDone (shotState s ctx base.toNat length.toNat) (shootdownWait s c ctx base.toNat length.toNat) = false) :
    ∃ t, exec (.shootdown c ctx base length) s = .next t ∧ t.agenda.head? = some (.shootdown c ctx base length)
      ∧ (∀ a, t.mem.byte a = s.mem.byte a) ∧ t.txDatagrams = s.txDatagrams ∧ t.unshot ctx base.toNat length.toNat
      ∧ waitingOf t c 0x15 = some (shootdownWait s c ctx base.toNat length.toNat) := by
  obtain ⟨a, tr, p, ts, cs, sl, ds, hf⟩ := shotState_frame (ctx := ctx) (base := base.toNat) (length := length.toNat) s
  have hun := shotState_unshot (ctx := ctx) (base := base.toNat) (length := length.toNat) s
  refine ⟨_, (exec_shootdown_begins h hw).trans (if_neg (by rw [hd]; decide)), rfl, fun a => ?_, ?_,
    ⟨hun.cores, hun.dies, hun.walks⟩, ?_⟩
  · rw [hf]
    rfl
  · rw [hf]
    rfl
  · rw [hf]
    unfold waitingOf at hw ⊢
    refine List.find?_append.trans ?_
    rw [hw]
    simp [shootdownWait]

theorem Tab.find?_ne_none {α : Type} {t : Tab α} {x : Nat × α} (h : x ∈ t) : t.find? x.1 ≠ none := by
  induction t with
  | nil => exact absurd h List.not_mem_nil
  | cons e t ih =>
    rw [Tab.find?_cons]
    split
    · exact Option.some_ne_none _
    · next hk =>
      obtain rfl | h := List.mem_cons.mp h
      · exact absurd rfl hk
      · exact ih h

theorem mem_shotAccs {id : Nat} (h : id ∈ shotAccs s ctx base length) : (s.hostAccs.find? id).isNone = false := by
  obtain ⟨x, hx, rfl⟩ := List.mem_map.mp h
  cases hf : s.hostAccs.find? x.1 with
  | some _ => rfl
  | none => exact absurd hf (Tab.find?_ne_none (List.mem_of_mem_filter hx))

theorem shotDone_accs {t : State} (ht : t.hostAccs = s.hostAccs) (h : shotAccs s ctx base length ≠ []) :
    shotDone t (shootdownWait s c ctx base length) = false := by
  obtain ⟨id, hid⟩ := List.exists_mem_of_ne_nil _ h
  refine Bool.eq_false_iff.mpr fun hd => ?_
  unfold shotDone shootdownWait at hd
  rw [ht] at hd
  simp only [Bool.and_eq_true, List.all_eq_true] at hd
  obtain ⟨⟨-, haccs⟩, -⟩ := hd
  have := haccs id hid
  rw [mem_shotAccs hid] at this
  cases this

theorem shotDone_events {t : State} {x : Pin} (hx : x ∈ t.pins) (h : x.e ∈ shotEvents s ctx base length) :
    shotDone t (shootdownWait s c ctx base length) = false := by
  refine Bool.eq_false_iff.mpr fun hd => ?_
  unfold shotDone shootdownWait at hd
  simp only [Bool.and_eq_true, List.all_eq_true] at hd
  obtain ⟨-, hevents⟩ := hd
  have hnone := hevents x.e h
  simp only [Bool.not_eq_true', List.any_eq_false, decide_eq_true_eq] at hnone
  exact hnone x hx rfl

theorem shotDone_empty {t : State} (hi : shotOps s ctx base length = []) (ha : shotAccs s ctx base length = [])
    (he : shotEvents s ctx base length = []) : shotDone t (shootdownWait s c ctx base length) = true := by
  unfold shotDone shootdownWait
  rw [hi, ha, he]
  rfl

theorem opsPerformed_of_shotDone {t : State} (h : shotDone t (shootdownWait s c ctx base length) = true) :
    opsPerformed t (shotOps s ctx base length) = true := by
  unfold shotDone at h
  simp only [Bool.and_eq_true] at h
  exact h.1.1

end

end Sys2Proof.Machine

namespace Sys2Proof.Machine

/-! ## DESTROY_CONTEXT (R74, R213, R393) -/

section
variable {s t u : State} {ctx : Nat} {c : Cmd}

theorem modQueue_sheds (d n : Nat) (f : QueueRec → QueueRec) (s : State) (hf : (f (s.queue d n)).state = 0) :
    s.Sheds (modQueue d n f s) := by
  refine { State.Sheds.refl s with queues := fun d' n' => ?_, dieTlbs := fun k e he => ?_, walks := fun k e he => ?_ }
  · rw [queue_modQueue]
    split
    · exact .inr hf
    · exact .inl rfl
  · unfold modQueue at he
    rw [State.die_modDie] at he
    split at he
    · next h => rw [h]; exact he
    · exact he
  · unfold modQueue at he
    rw [State.die_modDie] at he
    split at he
    · next h => rw [h]; exact he
    · exact he

theorem modUserQueue_sheds (ctx qid : Nat) (f : UserQueue → UserQueue) (s : State) : s.Sheds (modUserQueue ctx qid f s) :=
  modContext_sheds _ (by intro _; rfl) s

theorem updateQueue_sheds (d n : Nat) (f : QueueRec → QueueRec) (hf : ∀ q, (f q).state = 0) (s : State) :
    s.Sheds (updateQueue d n f s) :=
  (mapDies_sheds (f := fun d' => { d' with replicas := d'.replicas.erase (replicaIndex d n) }) rfl (fun _ _ h => h)
    (fun _ _ h => h) (fun _ => rfl) s).trans (modQueue_sheds _ _ _ _ (hf _))

theorem leaveSlot_sheds (d n : Nat) (s : State) : s.Sheds (leaveSlot d n s) := by
  unfold leaveSlot
  dsimp only
  split
  · exact .refl s
  · refine State.Sheds.trans ?_ (updateQueue_sheds _ _ _ (fun _ => rfl) _)
    exact modUserQueue_sheds _ _ _ s

theorem leaveSlots_sheds (xs : List (Nat × Nat)) (s : State) : s.Sheds (xs.foldl (fun s x => leaveSlot x.1 x.2 s) s)
    ∧ ∀ x ∈ xs, ((xs.foldl (fun s x => leaveSlot x.1 x.2 s) s).queue x.1 x.2).state = 0 := by
  induction xs generalizing s with
  | nil => exact ⟨.refl s, fun _ h => absurd h List.not_mem_nil⟩
  | cons x xs ih =>
    obtain ⟨hrest, hall⟩ := ih (leaveSlot x.1 x.2 s)
    refine ⟨(leaveSlot_sheds x.1 x.2 s).trans hrest, fun y hy => ?_⟩
    obtain rfl | hy := List.mem_cons.mp hy
    · exact hrest.freed (leaveSlot_free y.1 y.2 s)
    · exact hall y hy

theorem dropLaunches_sheds (ctx : Nat) (s : State) : s.Sheds (dropLaunches ctx s)
    ∧ ∀ l ∈ (dropLaunches ctx s).launches, l.2.ctx ≠ ctx := by
  let ids := (s.launches.filter (fun l => l.2.ctx = ctx)).map (·.1)
  obtain ⟨a, sl, hf⟩ := purgeEvents_frame (fun e => (eventLaunch e).any ids.contains) s
  have hpurge := purgeEvents_sheds (fun e => (eventLaunch e).any ids.contains) s
  constructor
  · refine hpurge.trans (State.Sheds.trans ?_ (modContext_sheds ctx (by intro _; rfl) _))
    refine State.Sheds.trans (t := { purgeEvents (fun e => (eventLaunch e).any ids.contains) s with
      launches := (purgeEvents (fun e => (eventLaunch e).any ids.contains) s).launches.filter
        (fun (l : Nat × Launch) => !ids.contains l.1) }) ?_ ?_
    · exact { State.Sheds.refl _ with launches := fun l hl => List.mem_of_mem_filter hl }
    · exact mapDies_sheds (f := fun d => { d with
        pending := d.pending.filter (fun l => !ids.contains l)
        reservation := d.reservation.filter (fun r => !ids.contains r.2.1) }) rfl (fun _ _ h => h) (fun _ _ h => h)
        (fun _ => rfl) _
  · intro l hl hctx
    have hl' : l ∈ (purgeEvents (fun e => (eventLaunch e).any ids.contains) s).launches.filter
      (fun (l : Nat × Launch) => !ids.contains l.1) := hl
    rw [hf] at hl'
    obtain ⟨hmem, hids⟩ := List.mem_filter.mp hl'
    have hin : l.1 ∈ ids := List.mem_map.mpr ⟨l, List.mem_filter.mpr ⟨hmem, by simpa using hctx⟩, rfl⟩
    simp [hin] at hids

/-- A context's constant lines and resident events are gone. -/
def tracesGone (ctx : Nat) (s : State) : State :=
  { s with
    cores := s.cores.map (fun (k : Nat × Core) => (k.1, { k.2 with const := k.2.const.filter (fun l => l.ctx ≠ ctx) }))
    dies := s.dies.map (fun (d : Nat × Die) => (d.1, { d.2 with resident := d.2.resident.filter (fun x => x.1 ≠ ctx) })) }

/-- The context's last traces go with it, and all that it held. -/
def contextGone (ctx : Nat) (s : State) : State :=
  { s with
    cores := s.cores.map (fun (k : Nat × Core) => (k.1, { k.2 with const := k.2.const.filter (fun l => l.ctx ≠ ctx) }))
    dies := s.dies.map (fun (d : Nat × Die) => (d.1, { d.2 with resident := d.2.resident.filter (fun x => x.1 ≠ ctx) }))
    contexts := s.contexts.modify {} ctx (fun x => { live := false, gen := x.gen, retired := x.gen = 255 }) }

theorem contextGone_eq (ctx : Nat) (s : State) : contextGone ctx s
    = (tracesGone ctx s).modContext ctx (fun x => { live := false, gen := x.gen, retired := x.gen = 255 }) := rfl

theorem contextGone_context (ctx : Nat) (s : State) : (contextGone ctx s).context ctx
    = { live := false, gen := (s.context ctx).gen, retired := decide ((s.context ctx).gen = 255) } :=
  (State.context_modContext ..).trans (if_pos rfl)

theorem tracesGone_sheds (ctx : Nat) (s : State) : s.Sheds (tracesGone ctx s) :=
  (mapCores_sheds (f := fun k => { k with const := k.const.filter (fun l => l.ctx ≠ ctx) }) rfl (fun _ _ h => h) s).trans
    (mapDies_sheds (f := fun d => { d with resident := d.resident.filter (fun x => x.1 ≠ ctx) }) rfl
      (fun _ _ h => h) (fun _ _ h => h) (fun _ => rfl) _)

theorem contextGone_sheds (ctx : Nat) (s : State) : s.Sheds (contextGone ctx s) := by
  rw [contextGone_eq]
  exact (tracesGone_sheds ctx s).trans (modContext_sheds ctx (by intro _; rfl) _)

theorem finishDestroy_eq (ctx : Nat) (s : State) : ∃ p, finishDestroy ctx s
    = contextGone ctx (purgeEvents p (dropLaunches ctx
      (let v := endWalks ctx 0 0 ((teamsOf s ctx).foldl (fun s t => discardTeam t s) s)
       (slotsOf v ctx).foldl (fun s x => leaveSlot x.1 x.2 s) v))) := ⟨_, rfl⟩

theorem mem_slotsOf {x : Nat × Nat} (hx : x ∈ slotList) (hc : (s.queue x.1 x.2).ctx = ctx) (hs : (s.queue x.1 x.2).state ≠ 0) :
    x ∈ slotsOf s ctx := List.mem_filter.mpr ⟨hx, by simp [hc, hs]⟩

/-- A context that is destroyed leaves no team, launch, bound slot or translation. -/
theorem finishDestroy_destroyed (ctx : Nat) (s : State) : s.Sheds (finishDestroy ctx s)
    ∧ (finishDestroy ctx s).context ctx
        = { live := false, gen := (s.context ctx).gen, retired := decide ((s.context ctx).gen = 255) }
    ∧ (∀ l ∈ (finishDestroy ctx s).launches, l.2.ctx ≠ ctx)
    ∧ (∀ n ∈ teamsOf s ctx, (finishDestroy ctx s).team? n = none)
    ∧ (∀ x ∈ slotList, (s.queue x.1 x.2).ctx = ctx → ((finishDestroy ctx s).queue x.1 x.2).state = 0)
    ∧ (finishDestroy ctx s).unshot ctx 0 0 := by
  obtain ⟨p, hp⟩ := finishDestroy_eq ctx s
  obtain ⟨hteams, hgone⟩ := discardTeams_sheds (teamsOf s ctx) s
  obtain ⟨v, hv⟩ : ∃ v, endWalks ctx 0 0 ((teamsOf s ctx).foldl (fun s t => discardTeam t s) s) = v := ⟨_, rfl⟩
  have hwalks : ((teamsOf s ctx).foldl (fun s t => discardTeam t s) s).Sheds v := hv ▸ endWalks_sheds _
  have hunshot : v.unshot ctx 0 0 := hv ▸ endWalks_unshot _
  obtain ⟨hslots, hfree⟩ := leaveSlots_sheds (slotsOf v ctx) v
  obtain ⟨hdrop, hlaunch⟩ := dropLaunches_sheds ctx ((slotsOf v ctx).foldl (fun s x => leaveSlot x.1 x.2 s) v)
  have hpurge := purgeEvents_sheds p (dropLaunches ctx ((slotsOf v ctx).foldl (fun s x => leaveSlot x.1 x.2 s) v))
  have hlast := contextGone_sheds ctx (purgeEvents p (dropLaunches ctx ((slotsOf v ctx).foldl (fun s x => leaveSlot x.1 x.2 s) v)))
  dsimp only at hp
  rw [hv] at hp
  rw [hp]
  have hafter := hdrop.trans (hpurge.trans hlast)
  have hbefore := hteams.trans (hwalks.trans (hslots.trans (hdrop.trans hpurge)))
  refine ⟨hbefore.trans hlast, ?_, fun l hl => hlaunch l ((hpurge.trans hlast).launches l hl),
    fun n hn => (hwalks.trans (hslots.trans hafter)).teams n (hgone n hn), fun x hx hc => ?_, (hslots.trans hafter).unshot hunshot⟩
  · rw [contextGone_context, hbefore.gens ctx]
  · by_cases hs : (v.queue x.1 x.2).state = 0
    · exact (hslots.trans hafter).freed hs
    · have hq := ((hteams.trans hwalks).queues x.1 x.2).resolve_right hs
      exact hafter.freed (hfree x (mem_slotsOf hx (by rw [hq, hc]) hs))

/-! ### The request -/

theorem Tab.lt_fresh {α : Type} {t : Tab α} {x : Nat × α} (h : x ∈ t) : x.1 < t.fresh := by
  have hfold (t : Tab α) (m : Nat) : m ≤ t.foldl (fun m e => max m (e.1 + 1)) m
      ∧ ∀ x ∈ t, x.1 < t.foldl (fun m e => max m (e.1 + 1)) m := by
    induction t generalizing m with
    | nil => exact ⟨Nat.le_refl _, fun _ h => absurd h List.not_mem_nil⟩
    | cons e t ih =>
      obtain ⟨hle, hall⟩ := ih (max m (e.1 + 1))
      rw [List.foldl_cons]
      refine ⟨by omega, fun x hx => ?_⟩
      obtain rfl | hx := List.mem_cons.mp hx
      · omega
      · exact hall x hx
  exact (hfold t 0).2 x h

theorem settlePreempts_frame (s : State) : ∃ a sl tr p, settlePreempts s = { s with
    agenda := a, slices := sl, trips := tr, pins := p
    preempts := s.preempts.filter fun x =>
      !((s.preempts.filter (fun p => preemptOver s p.2)).map (·.1)).contains x.1 } := by
  unfold settlePreempts
  dsimp only
  obtain ⟨a, sl, h⟩ := purgeEvents_frame _ { s with preempts := s.preempts.filter fun x =>
    !((s.preempts.filter (fun p => preemptOver s p.2)).map (·.1)).contains x.1 }
  exact ⟨a, sl, _, _, h⟩

theorem startPreempt_frame (ctx : Nat) (cores : List Nat) (destroy : Option Cmd) (s : State) :
    ∃ a sl tr p ps, startPreempt ctx cores destroy s
      = { s with agenda := a, slices := sl, trips := tr, pins := p, preempts := ps } := by
  obtain ⟨a, sl, tr, p, h⟩ := settlePreempts_frame
    ({ s with preempts := s.preempts.set s.preempts.fresh ⟨ctx, cores, destroy, false⟩ }.push [.preemptDrainDeadline s.preempts.fresh])
  exact ⟨a, sl, tr, p, _, h⟩

/-- The request of a pre-emption that is not over stands. -/
theorem startPreempt_stands {cores : List Nat} {destroy : Option Cmd} (h : preemptOver s ⟨ctx, cores, destroy, false⟩ = false) :
    (s.preempts.fresh, (⟨ctx, cores, destroy, false⟩ : Preempt)) ∈ (startPreempt ctx cores destroy s).preempts := by
  obtain ⟨v, hv⟩ : ∃ v : State, ({ s with preempts := s.preempts.set s.preempts.fresh ⟨ctx, cores, destroy, false⟩ }.push
      [.preemptDrainDeadline s.preempts.fresh]) = v := ⟨_, rfl⟩
  have hps : v.preempts = s.preempts.set s.preempts.fresh ⟨ctx, cores, destroy, false⟩ := by rw [← hv]; rfl
  have hover (p : Preempt) : preemptOver v p = preemptOver s p := by rw [← hv]; rfl
  obtain ⟨a, sl, tr, p, hf⟩ := settlePreempts_frame v
  have heq : (startPreempt ctx cores destroy s).preempts = (settlePreempts v).preempts := by rw [← hv]; rfl
  rw [heq, hf]
  refine List.mem_filter.mpr ⟨hps ▸ Tab.mem_of_find? (Tab.find?_set_self ..), ?_⟩
  simp only [Bool.not_eq_true', List.contains_eq_mem, decide_eq_false_iff_not]
  intro hgone
  obtain ⟨x, hx, hid⟩ := List.mem_map.mp hgone
  obtain ⟨hmem, hx⟩ := List.mem_filter.mp hx
  rw [hps] at hmem
  obtain rfl | hmem := Tab.mem_set hmem
  · rw [hover, h] at hx
    cases hx
  · exact absurd hid (Nat.ne_of_lt (Tab.lt_fresh hmem))

theorem exec_destroy_stays (hw : waitingOf s c 0x11 = none) (hd : destroying s ctx = true) :
    exec (.destroyContext c ctx) s = .next (s.again (.destroyContext c ctx)) := by
  show execDestroyContext c ctx s = _
  unfold execDestroyContext
  rw [hw]
  exact if_pos hd

/-- The wait of a destroy. -/
def State.destroys (s : State) (c : Cmd) (ctx : Nat) : State :=
  { s with waitingCmds := s.waitingCmds ++ [{ cmd := c, opc := 0x11, ctx := ctx }] }

theorem exec_destroy_begins (h : s.mayGive c (.destroyContext c ctx)) (hw : waitingOf s c 0x11 = none)
    (hd : destroying s ctx = false) : exec (.destroyContext c ctx) s
      = .next ((startPreempt ctx (List.range 64) (some c) (s.destroys c ctx)).again (.destroyContext c ctx)) := by
  show execDestroyContext c ctx s = _
  unfold execDestroyContext
  rw [hw]
  dsimp only
  rw [hd]
  exact h.context rfl

theorem exec_destroy_goes_on {w : Waiting} (hw : waitingOf s c 0x11 = some w) :
    exec (.destroyContext c ctx) s = .next (if destroyReady s c ctx then reply c 0x11 0 0 [] (finishDestroy ctx (dropWaiting c 0x11 s))
      else s.again (.destroyContext c ctx)) := by
  show execDestroyContext c ctx s = _
  unfold execDestroyContext
  rw [hw]
  rfl

/-- A team is of a context, and placed on some of its cores: a pre-emption of the context there is not over. -/
theorem preemptOver_eq_false {n k : Nat} {tm : Team} {p : Preempt} (hn : s.team? n = some tm)
    (hl : (s.launches.find? tm.launch).map (·.ctx) = some p.ctx) (hp : tm.placed = true) (hk : k ∈ tm.cores) (hc : k ∈ p.cores) :
    preemptOver s p = false := by
  unfold preemptOver
  rw [Bool.not_eq_false']
  refine List.any_eq_true.mpr ⟨(n, tm), Tab.mem_of_find? hn, ?_⟩
  obtain ⟨l, hl, hctx⟩ := Option.map_eq_some_iff.mp hl
  have hcores : tm.cores.any p.cores.contains = true := List.any_eq_true.mpr ⟨k, hk, by simpa using hc⟩
  unfold Preempt.concerns
  rw [hl, hp, hcores]
  simpa using hctx

theorem mem_teamsOf {n : Nat} {tm : Team} (hn : s.team? n = some tm) (hl : (s.launches.find? tm.launch).map (·.ctx) = some ctx) :
    n ∈ teamsOf s ctx := by
  obtain ⟨l, hl, hctx⟩ := Option.map_eq_some_iff.mp hl
  refine List.mem_map.mpr ⟨(n, tm), List.mem_filter.mpr ⟨Tab.mem_of_find? hn, ?_⟩, rfl⟩
  rw [hl]
  simpa using hctx

end

end Sys2Proof.Machine

namespace Sys2Proof.Machine

/-! ## Operations that end, aside from the fabric and the host (R193) -/

/-- From s to t only operations, their teams and the events of both have changed: memory, the fabric and the host are as they
were. -/
structure State.Aside (s t : State) : Prop where
  frame : ∃ c a tr p f ts sl ds os, t = { s with
    cur := c, agenda := a, trips := tr, pins := p, free := f, teams := ts, slices := sl, dies := ds, ops := os }
  routes : ∀ d, (t.die d).routes = (s.die d).routes

section
variable {s t u : State}

theorem State.Aside.refl (s : State) : s.Aside s := ⟨⟨_, _, _, _, _, _, _, _, _, rfl⟩, fun _ => rfl⟩

theorem State.Aside.trans (h : s.Aside t) (k : t.Aside u) : s.Aside u := by
  obtain ⟨_, _, _, _, _, _, _, _, _, rfl⟩ := h.frame
  obtain ⟨_, _, _, _, _, _, _, _, _, rfl⟩ := k.frame
  exact ⟨⟨_, _, _, _, _, _, _, _, _, rfl⟩, fun d => (k.routes d).trans (h.routes d)⟩

theorem State.Aside.foldl {α : Type} {f : State → α → State} (hf : ∀ (s : State) x, s.Aside (f s x)) (xs : List α)
    (s : State) : s.Aside (xs.foldl f s) :=
  List.foldlRecOn xs f (motive := fun t => s.Aside t) (.refl s) fun t ht x _ => ht.trans (hf t x)

theorem State.Aside.streams (h : s.Aside t) (n : BitVec 16) : t.stream n = s.stream n := by
  obtain ⟨_, _, _, _, _, _, _, _, _, rfl⟩ := h.frame
  rfl

theorem withCur_aside (c : Option SplitRef) (s : State) : s.Aside { s with cur := c } := ⟨⟨_, _, _, _, _, _, _, _, _, rfl⟩, fun _ => rfl⟩
theorem push_aside (es : List Instr) (s : State) : s.Aside (s.push es) := ⟨⟨_, _, _, _, _, _, _, _, _, rfl⟩, fun _ => rfl⟩
theorem modOp_aside (id : Nat) (f : Op → Op) (s : State) : s.Aside (s.modOp id f) := ⟨⟨_, _, _, _, _, _, _, _, _, rfl⟩, fun _ => rfl⟩
theorem dropOp_aside (id : Nat) (s : State) : s.Aside (s.dropOp id) := ⟨⟨_, _, _, _, _, _, _, _, _, rfl⟩, fun _ => rfl⟩
theorem modTeam_aside (n : Nat) (f : Team → Team) (s : State) : s.Aside (s.modTeam n f) :=
  ⟨⟨_, _, _, _, _, _, _, _, _, rfl⟩, fun _ => rfl⟩
theorem unpin_aside (e : Instr) (s : State) : s.Aside (unpin e s) := ⟨⟨_, _, _, _, _, _, _, _, _, rfl⟩, fun _ => rfl⟩
theorem fresh_aside (s : State) : s.Aside s.fresh.2 := ⟨⟨_, _, _, _, _, _, _, _, _, rfl⟩, fun _ => rfl⟩

theorem modWarp_aside (w : WarpRef) (f : Warp → Warp) (s : State) : s.Aside (s.modWarp w f) := modTeam_aside ..
theorem modSplit_aside (r : SplitRef) (f : Split → Split) (s : State) : s.Aside (s.modSplit r f) := modTeam_aside ..

theorem modEngine_aside (e : Nat) (f : Engine → Engine) (s : State) : s.Aside (s.modEngine e f) := by
  refine ⟨⟨_, _, _, _, _, _, _, _, _, rfl⟩, fun d => ?_⟩
  unfold State.modEngine
  rw [State.die_modDie]
  split
  · next h => rw [h]
  · rfl

theorem purgeEvents_aside (p : Instr → Bool) (s : State) : s.Aside (purgeEvents p s) := by
  obtain ⟨a, sl, h⟩ := purgeEvents_frame p s
  rw [h]
  exact ⟨⟨_, _, _, _, _, _, _, _, _, rfl⟩, fun _ => rfl⟩

theorem State.Aside.cond {c : Prop} [Decidable c] (ht : s.Aside t) (hu : s.Aside u) : s.Aside (if c then t else u) := by
  split
  · exact ht
  · exact hu

theorem answerPart_aside (r : Req) (f : Part → Part) (s : State) : s.Aside (answerPart r f s) :=
  ⟨⟨_, _, _, _, _, _, _, _, _, rfl⟩, fun _ => rfl⟩

theorem partDone_aside (id k : Nat) (f : Part → Part) (s : State) : s.Aside (partDone id k f s) := answerPart_aside ..

theorem raiseTrap_aside (r : SplitRef) (x : Trap) (s : State) : s.Aside (raiseTrap r x s) := by
  unfold raiseTrap
  dsimp only
  split
  · exact withCur_aside none s
  · split
    · exact (withCur_aside none s).trans ((modTeam_aside _ _ _).trans ((modSplit_aside _ _ _).trans (push_aside _ _)))
    case h_2 | h_3 | h_4 =>
      exact .cond (withCur_aside none s) ((withCur_aside none s).trans ((modTeam_aside _ _ _).trans (modSplit_aside _ _ _)))
    · exact withCur_aside none s

theorem faultOp_aside (id cls code : Nat) (addr : Dword) (lmask : Mask) (aux : Dword) (s : State) :
    s.Aside (faultOp id cls code addr lmask aux s) := by
  unfold faultOp
  split
  · exact .refl s
  · dsimp only
    have h {f : Op → Op} {r : SplitRef} {x : Trap} : s.Aside { raiseTrap r x (s.modOp id f) with cur := s.cur } :=
      (modOp_aside id f s).trans ((raiseTrap_aside r x _).trans (withCur_aside _ _))
    exact .cond h (h.trans (push_aside _ _))

theorem completeAt_aside (id : Nat) (scopes : List Nat) (code : Nat) (s : State) : s.Aside (completeAt id scopes code s) := by
  unfold completeAt
  split
  · exact .refl s
  · exact .cond (.refl s) (.cond (modWarp_aside _ _ s) ((modOp_aside _ _ s).trans (push_aside _ _)))

theorem finishOp_aside (id : Nat) (s : State) : s.Aside (finishOp id s) := by
  unfold finishOp
  split
  · exact .refl s
  · exact .cond ((modWarp_aside _ _ s).trans ((completeAt_aside _ _ _ _).trans ((modSplit_aside _ _ _).trans (dropOp_aside _ _))))
      ((modOp_aside _ _ s).trans (push_aside _ _))

theorem leaveEngine_aside (id : Nat) (o : Op) (s : State) : s.Aside (leaveEngine id o s) :=
  (modEngine_aside _ _ s).trans ((purgeEvents_aside _ _).trans ((modOp_aside _ _ _).trans (push_aside _ _)))

theorem endCopy_aside (id code : Nat) (s : State) : s.Aside (endCopy id code s) := by
  unfold endCopy endCopyAt
  split
  · exact .refl s
  · exact (leaveEngine_aside _ _ s).trans ((modEngine_aside _ _ _).trans ((modOp_aside _ _ _).trans (finishOp_aside _ _)))

theorem settleCopy_aside (id : Nat) (s : State) : s.Aside (settleCopy id s) := by
  unfold settleCopy
  split
  · exact .refl s
  · exact .cond (.refl s) (.cond (endCopy_aside _ _ s) (leaveEngine_aside _ _ s))

theorem copyFault_aside (id k : Nat) (o : Op) (code addr : Nat) (s : State) : s.Aside (copyFault id k o code addr s) :=
  (unpin_aside _ s).trans ((faultOp_aside _ _ _ _ _ _ _).trans ((modOp_aside _ _ _).trans ((modOp_aside _ _ _).trans
    (settleCopy_aside _ _))))

theorem noteReads_aside (id : Nat) (s : State) : s.Aside (noteReads id s) := by
  unfold noteReads
  split
  · exact .refl s
  · exact .cond (.refl s) ((modOp_aside _ _ s).trans (modWarp_aside _ _ _))

theorem copyAnswered_aside (id seq : Nat) (data : LineData) (code fault : Nat) (s : State) :
    s.Aside (copyAnswered id seq data code fault s) := by
  unfold copyAnswered
  split
  · exact .refl s
  · dsimp only
    split
    · exact .refl s
    · refine (modOp_aside _ _ s).trans (.cond (copyFault_aside _ _ _ _ _ _) (.cond (.refl _) (.cond ?_ ?_)))
      · exact (modOp_aside _ _ _).trans (settleCopy_aside _ _)
      · exact (noteReads_aside _ _).trans (push_aside _ _)

theorem noteBroken_aside (id : Nat) (o : Op) (s : State) : s.Aside (noteBroken id o s) := by
  have h : s.Aside (addIndets o.ref (indetsOf s o) (s.modOp id (fun o => { o with code := 6 }))) :=
    (modOp_aside _ _ s).trans (modWarp_aside _ _ _)
  unfold noteBroken
  exact .cond (.refl s) (.cond h (h.trans (push_aside _ _)))

theorem endBroken_aside (u : Unacked) (s : State) : s.Aside (endBroken u s) := by
  unfold endBroken
  split
  · exact .refl s
  · split
    · exact copyAnswered_aside ..
    · exact dropOp_aside _ s
    · exact .refl s
    · refine State.Aside.trans ?_ (partDone_aside _ _ _ _)
      exact .cond ((noteBroken_aside _ _ s).trans ((fresh_aside _).trans (modOp_aside _ _ _)))
        ((noteBroken_aside _ _ s).trans (fresh_aside _))

/-! ## Streams that break (R193, R363) -/

theorem State.stream_modStream (n m : BitVec 16) (f : Stream → Stream) :
    (s.modStream n f).stream m = if m = n then f (s.stream n) else s.stream m := by
  unfold State.stream State.modStream
  rw [Tab.get_modify]
  refine if_congr ?_ rfl rfl
  rw [BitVec.toNat_inj]

/-- A stream to a node that is broken: its numbering starts again, and only a reset is left unanswered. -/
def Stream.brokenOut (st : Stream) : Stream :=
  { st with nextSeq := 0, epoch := st.epoch + 1, unacked := st.unacked.filter (fun u => u.seq = resetSeq) }

/-- A stream from a node that is broken. -/
def Stream.brokenIn (st : Stream) : Stream := { st with inEpoch := none, seen := [], replies := [] }

theorem breakOut_aside (node : BitVec 16) (s : State) : (s.modStream node Stream.brokenOut).Aside (breakOut node s) := by
  unfold breakOut
  refine State.Aside.trans ?_ (State.Aside.foldl (fun s u => endBroken_aside u s) _ _)
  exact ⟨⟨_, _, _, _, _, _, _, _, _, rfl⟩, fun _ => rfl⟩

theorem breakOut_stream (node m : BitVec 16) (s : State) :
    (breakOut node s).stream m = if m = node then (s.stream node).brokenOut else s.stream m := by
  rw [(breakOut_aside node s).streams, State.stream_modStream]

theorem breakIn_stream (node m : BitVec 16) (s : State) :
    (breakIn node s).stream m = if m = node then (s.stream node).brokenIn else s.stream m :=
  State.stream_modStream (s := s) node m Stream.brokenIn

theorem breakStreams_stream (node m : BitVec 16) (s : State) :
    (breakStreams node s).stream m = if m = node then (s.stream node).brokenOut.brokenIn else s.stream m := by
  unfold breakStreams
  rw [breakIn_stream]
  split
  · rw [breakOut_stream, if_pos rfl]
  · next h => rw [breakOut_stream, if_neg h]

/-- What the breaking of streams leaves as it was. -/
theorem breakStreams_frame (node : BitVec 16) (s : State) : ∃ c a tr p f ts sl ds os st rp, breakStreams node s = { s with
      cur := c, agenda := a, trips := tr, pins := p, free := f, teams := ts, slices := sl, dies := ds, ops := os, streams := st
      replyPacket := rp }
    ∧ ∀ d, ((breakStreams node s).die d).routes = (s.die d).routes := by
  obtain ⟨c, a, tr, p, f, ts, sl, ds, os, hf⟩ := (breakOut_aside node s).frame
  have hroutes := (breakOut_aside node s).routes
  unfold breakStreams breakIn
  rw [hf] at hroutes ⊢
  exact ⟨_, _, _, _, _, _, _, _, _, _, _, rfl, hroutes⟩

end

end Sys2Proof.Machine

namespace Sys2Proof.Machine

/-! ## Commands of the host that are refused, and what the others do (R367, R374) -/

section
variable {s : State} {c : Cmd} {e : Instr}

/-- A command that has begun is not refused any more: the wait of a shootdown, or a destroy under way. -/
def notBegun (s : State) (c : Cmd) (e : Instr) : Prop :=
  waitingOf s c (hostOpcode e) = none ∧ ∀ ctx, e = .destroyContext c ctx → destroying s ctx = false

theorem exec_onContext {ctx : Nat} (hc : cmdOf e = some c) (hx : hostContext e = some ctx) (hb : notBegun s c e) :
    ∃ k, exec e s = withContext c (hostOpcode e) ctx e s k := by
  obtain ⟨hwait, hdes⟩ := hb
  unfold hostContext at hx
  split at hx
  case h_16 => cases hx
  case h_4 =>
    obtain rfl := Option.some.inj hc
    obtain rfl := Option.some.inj hx
    have hex (c : Cmd) (ctx : Nat) (hw : waitingOf s c 0x11 = none) (hd : destroying s ctx = false) :
        ∃ k, execDestroyContext c ctx s = withContext c 0x11 ctx (.destroyContext c ctx) s k := by
      unfold execDestroyContext
      rw [hw]
      dsimp only
      rw [hd]
      exact ⟨_, rfl⟩
    exact hex _ _ hwait (hdes _ rfl)
  case h_8 =>
    obtain rfl := Option.some.inj hc
    obtain rfl := Option.some.inj hx
    have hex (c : Cmd) (ctx : Nat) (base length : Dword) (hw : waitingOf s c 0x15 = none) :
        ∃ k, execShootdown c ctx base length s = withContext c 0x15 ctx (.shootdown c ctx base length) s k := by
      unfold execShootdown
      rw [hw]
      exact ⟨_, rfl⟩
    exact hex _ _ _ _ hwait
  all_goals
    obtain rfl := Option.some.inj hc
    obtain rfl := Option.some.inj hx
    simp only [exec, execMemoryReadVirtual, execMemoryWriteVirtual, execKick, execSetRootTable, execSetEventCount,
      execSetRefinableSet, execGrantContext, execBindUserQueue, execUnbindUserQueue, execResumeQueueRetry, execResumeQueueSkip,
      resumeQueue, execSetHostEventRing, execAdvanceReadIndex]
    exact ⟨_, rfl⟩

theorem exec_onSession (hc : cmdOf e = some c) (hb : notBegun s c e) :
    ∃ k, exec e s = withSession c (hostOpcode e) e s k := by
  cases hx : hostContext e with
  | some ctx =>
    obtain ⟨k, hk⟩ := exec_onContext hc hx hb
    exact ⟨_, hk⟩
  | none =>
    unfold cmdOf at hc
    split at hc
    case h_2 | h_4 | h_6 | h_19 | h_20 | h_21 | h_22 | h_23 =>
      obtain rfl := Option.some.inj hc
      simp only [exec, execMemoryReadPhysical, execMemoryWritePhysical, execCreateContext, execAssignNodeId,
        execWriteRouteTable, execWriteExport, execStreamReset, execReadForeignKickCounters]
      exact ⟨_, rfl⟩
    case h_24 => cases hc
    all_goals exact absurd hx (Option.some_ne_none _)

end

end Sys2Proof.Machine

namespace Sys2Proof.Machine

section
variable {s : State} {c : Cmd} {e : Instr} {ctx : Nat}

/-! ### Refusals -/

theorem withSession_recovering {opc : Nat} {k : State → Out} (hr : s.recovery = true)
    (hw : ∀ c p a d, e ≠ .memoryWritePhysical c p a d) : withSession c opc e s k = .next (reply c opc 3 0 [] s) := by
  unfold withSession
  dsimp only
  rw [if_pos]
  · rfl
  · split
    · exact absurd rfl (hw _ _ _ _)
    · simp [hr]

theorem withSession_unranked {opc : Nat} {k : State → Out} (hp : privileged e = true)
    (hs : (s.sessions.find? c.session).map (·.priv) ≠ some true) : withSession c opc e s k = .next (reply c opc 3 0 [] s) := by
  have hpriv : ((s.sessions.find? c.session).map (·.priv)).getD false = false := by
    cases h : (s.sessions.find? c.session).map (·.priv) with
    | none => rfl
    | some b =>
      cases b with
      | true => exact absurd h hs
      | false => rfl
  unfold withSession
  dsimp only
  rw [if_pos (by simp [hp, hpriv])]
  rfl

theorem withContext_gone {opc : Nat} {k : State → Out} (hr : s.recovery = false)
    (hp : privileged e = true → (s.sessions.find? c.session).map (·.priv) = some true) (hl : (s.context ctx).live = false) :
    withContext c opc ctx e s k = .next (reply c opc 5 0 [] s) := by
  unfold withContext
  rw [withSession_passes hr hp, hl]
  rfl

theorem withContext_foreign {opc : Nat} {k : State → Out} (hr : s.recovery = false) (hp : privileged e = false)
    (hl : (s.context ctx).live = true) (hs : c.session ∉ (s.context ctx).sessions) :
    withContext c opc ctx e s k = .next (reply c opc 3 0 [] s) := by
  have hheld : (!privileged e && !(s.context ctx).sessions.contains c.session) = true := by simp [hp, hs]
  unfold withContext
  rw [withSession_passes hr fun h => absurd (hp.symm.trans h) Bool.false_ne_true]
  simp only [hl, hheld, Bool.not_true, Bool.false_eq_true, if_false, if_true]
  rfl

theorem cmdOf_writePhysical {c' : Cmd} {p : Nat} {a : Dword} {d : List Byte} (hc : cmdOf (.memoryWritePhysical c' p a d) = some c) :
    c' = c := Option.some.inj hc

/-! ### Contexts -/

theorem firstFrom_none {p : Nat → Bool} {fuel n : Nat} (h : ∀ m, n ≤ m → m < n + fuel → p m = false) : firstFrom p fuel n = none := by
  induction fuel generalizing n with
  | zero => rfl
  | succ fuel ih =>
    unfold firstFrom
    rw [h n (by omega) (by omega)]
    exact ih fun m h1 h2 => h m (by omega) (by omega)

theorem firstFrom_some {p : Nat → Bool} {fuel n k : Nat} (hk : n ≤ k) (hf : k < n + fuel) (hp : p k = true)
    (h : ∀ m, n ≤ m → m < k → p m = false) : firstFrom p fuel n = some k := by
  induction fuel generalizing n with
  | zero => omega
  | succ fuel ih =>
    unfold firstFrom
    by_cases hn : n = k
    · rw [hn, hp]
      rfl
    · rw [h n (by omega) (by omega)]
      exact ih (by omega) (by omega) fun m h1 h2 => h m (by omega) h2

/-- A number that a new context may take. -/
def freeContext (s : State) (n : Nat) : Bool := !(s.context n).live && !(s.context n).retired

theorem freeContext_eq_false {n : Nat} (h : (s.context n).live = true ∨ (s.context n).retired = true) : freeContext s n = false := by
  unfold freeContext
  obtain h | h := h
  · simp [h]
  · simp [h]

theorem exec_createContext (hr : s.recovery = false) : exec (.createContext c) s = match firstFrom (freeContext s) 65535 1 with
    | none => .next (reply c 0x10 11 0 [] s)
    | some n => .next (reply c 0x10 0 0 (leBytes 2 n ++ [(s.context n).gen + 1] ++ zeros 5)
        { s with contexts := s.contexts.set n { live := true, gen := (s.context n).gen + 1, sessions := [c.session] } }) := by
  show execCreateContext c s = _
  unfold execCreateContext
  rw [withSession_passes hr fun h => Bool.noConfusion h]
  rfl

theorem context_set (n m : Nat) (x : Context) :
    ({ s with contexts := s.contexts.set n x } : State).context m = if m = n then x else s.context m := Tab.get_set ..

theorem context_modContext_other {n : Nat} (f : Context → Context) (h : n ≠ ctx) :
    (s.modContext ctx f).context n = s.context n := by
  rw [State.context_modContext, if_neg h]

theorem context_modContext_self (f : Context → Context) : (s.modContext ctx f).context ctx = f (s.context ctx) := by
  rw [State.context_modContext, if_pos rfl]

section
variable {addr : Dword} {count : Nat} {backing : Dword}

theorem exec_setRootTable (h : s.mayGive c (.setRootTable c ctx addr)) : exec (.setRootTable c ctx addr) s
    = if addr.toNat % 65536 ≠ 0 then .next (reply c 0x12 1 0 [] s)
      else if isHole addr.toNat then .next (reply c 0x12 4 tHole [] s)
      else .next (reply c 0x12 0 0 [] (s.modContext ctx (fun x => { x with root := some addr.toNat }))) := by
  show execSetRootTable c ctx addr s = _
  unfold execSetRootTable
  rw [h.context rfl]
  rfl

theorem exec_setEventCount (h : s.mayGive c (.setEventCount c ctx count backing)) : exec (.setEventCount c ctx count backing) s
    = if 65536 < count then .next (reply c 0x13 1 0 [] s)
      else .next (reply c 0x13 0 0 [] (s.modContext ctx (fun x => { x with evCount := count, backing := backing }))) := by
  show execSetEventCount c ctx count backing s = _
  unfold execSetEventCount
  rw [h.context rfl]
  rfl

end

/-! ### Refinable events -/

/-- An event as it becomes ordinary or refinable. -/
def Event.refine (value : Nat) (ev : Event) : Event :=
  { ev with refinable := value = 1, count := if value = 1 then ev.count &&& 0xFFFF else ev.count }

/-- Some events of a context changed alike. -/
def eventsRefined (ctx first n value : Nat) (s : State) : State :=
  (List.range n).foldl (fun s i => modEvent ctx (first + i) (Event.refine value) s) s

theorem exec_setRefinableSet {first n value : Nat} (h : s.mayGive c (.setRefinableSet c ctx first n value)) :
    exec (.setRefinableSet c ctx first n value) s
      = if 1 < value || (s.context ctx).evCount < first + n then .next (reply c 0x14 1 0 [] s)
        else .next (reply c 0x14 0 0 [] (eventsRefined ctx first n value s)) := by
  show execSetRefinableSet c ctx first n value s = _
  unfold execSetRefinableSet
  rw [h.context rfl]
  rfl

theorem event_modEvent (ctx i k : Nat) (f : Event → Event) :
    (modEvent ctx i f s).event ctx k = if k = i then f (s.event ctx i) else s.event ctx k := by
  unfold State.event modEvent
  rw [context_modContext_self]
  exact Tab.get_modify ..

theorem eventsRefined_event (ctx first n value k : Nat) (s : State) : (eventsRefined ctx first n value s).event ctx k
    = if first ≤ k ∧ k < first + n then (s.event ctx k).refine value else s.event ctx k := by
  unfold eventsRefined
  induction n with
  | zero => rw [if_neg (by omega)]; rfl
  | succ n ih =>
    rw [List.range_succ, List.foldl_append, List.foldl_cons, List.foldl_nil, event_modEvent]
    by_cases hk : k = first + n
    · subst hk
      rw [if_neg (by omega)] at ih
      rw [if_pos rfl, ih, if_pos (by omega)]
    · rw [if_neg hk, ih]
      exact if_congr (by omega) rfl rfl

theorem eventsRefined_others (ctx first n value : Nat) (s : State) : (eventsRefined ctx first n value s).mem = s.mem
    ∧ ∀ x, x ≠ ctx → (eventsRefined ctx first n value s).context x = s.context x :=
  List.foldlRecOn (List.range n) _ (motive := fun t : State => t.mem = s.mem ∧ ∀ x, x ≠ ctx → t.context x = s.context x)
    ⟨rfl, fun _ _ => rfl⟩ fun _ ht _ _ => ⟨ht.1, fun x hx => (context_modContext_other _ hx).trans (ht.2 x hx)⟩

/-! ### Grants -/

theorem exec_grantContext {session : Nat} (h : s.mayGive c (.grantContext c ctx session)) : exec (.grantContext c ctx session) s
    = if (s.sessions.find? session).isNone then .next (reply c 0x16 1 0 [] s)
      else .next (reply c 0x16 0 0 [] (s.modContext ctx (fun x =>
        { x with sessions := if x.sessions.contains session then x.sessions else x.sessions ++ [session] }))) := by
  show execGrantContext c ctx session s = _
  unfold execGrantContext
  rw [h.context rfl]
  rfl

theorem mem_granted {xs : List Nat} {session k : Nat} :
    k ∈ (if xs.contains session then xs else xs ++ [session]) ↔ k = session ∨ k ∈ xs := by
  by_cases h : xs.contains session = true
  · rw [if_pos h]
    refine ⟨.inr, fun hk => hk.elim (fun hk => hk ▸ by simpa using h) id⟩
  · rw [if_neg h, List.mem_append, List.mem_singleton, or_comm]

/-! ### The fabric -/

theorem exec_assignNodeId {node : BitVec 16} (h : s.mayGive c (.assignNodeId c node)) : exec (.assignNodeId c node) s
    = .next (reply c 0x50 0 0 [] (if s.nodeId.isNone then (s.renamed node).push ((List.range 64).map (fun p => .fraukLinkUp p))
      else s.streams.keys.foldl (fun s n => breakStreams (BitVec.ofNat 16 n) s) (s.renamed node))) := by
  show execAssignNodeId c node s = _
  unfold execAssignNodeId
  rw [h.session]
  rfl

theorem renamed_stream (node n : BitVec 16) (s : State) : (s.renamed node).stream n = { s.stream n with
    unacked := (s.stream n).unacked.map (fun u => { u with pkt := { u.pkt with src := node } }) } := by
  let f : Stream → Stream := fun st => { st with unacked := st.unacked.map (fun u => { u with pkt := { u.pkt with src := node } }) }
  show Tab.get {} (s.streams.map fun e => (e.1, f e.2)) n.toNat = f (Tab.get {} s.streams n.toNat)
  unfold Tab.get
  rw [Tab.find?_mapVal]
  cases s.streams.find? n.toNat with
  | none => rfl
  | some st => rfl

/-- The packets that a stream may still send bear a node's id. -/
def Stream.bears (node : BitVec 16) (st : Stream) : Prop := ∀ x ∈ st.unacked, x.pkt.src = node

theorem renamed_bears (node n : BitVec 16) (s : State) : ((s.renamed node).stream n).bears node := by
  rw [renamed_stream]
  intro x hx
  obtain ⟨u, -, rfl⟩ := List.mem_map.mp hx
  rfl

theorem Stream.bears_broken {node : BitVec 16} {st : Stream} (h : st.bears node) : st.brokenOut.brokenIn.bears node :=
  fun x hx => h x (List.mem_of_mem_filter hx)

/-- Every stream broken: what comes of the packets and of what has been applied. -/
theorem breakAll_streams {node : BitVec 16} (ks : List Nat) (s : State) (hb : ∀ n, (s.stream n).bears node) :
    let t := ks.foldl (fun s n => breakStreams (BitVec.ofNat 16 n) s) s
    t.nodeId = s.nodeId ∧ (∀ n, (t.stream n).bears node)
      ∧ ∀ n, n.toNat ∈ ks ∨ ((s.stream n).seen = [] ∧ (s.stream n).replies = []) → (t.stream n).seen = [] ∧ (t.stream n).replies = [] := by
  induction ks generalizing s with
  | nil => exact ⟨rfl, hb, fun n hn => hn.resolve_left List.not_mem_nil⟩
  | cons k ks ih =>
    have hstream := breakStreams_stream (BitVec.ofNat 16 k) (s := s)
    obtain ⟨hid, hbears, hgone⟩ := ih (breakStreams (BitVec.ofNat 16 k) s) fun n => by
      rw [hstream]
      split
      · exact Stream.bears_broken (hb _)
      · exact hb n
    refine ⟨hid.trans ?_, hbears, fun n hn => hgone n ?_⟩
    · obtain ⟨_, _, _, _, _, _, _, _, _, _, _, hf, -⟩ := breakStreams_frame (BitVec.ofNat 16 k) s
      rw [hf]
    · rw [hstream]
      by_cases hk : n = BitVec.ofNat 16 k
      · rw [if_pos hk]
        exact .inr ⟨rfl, rfl⟩
      · rw [if_neg hk]
        refine hn.imp_left fun hn => (List.mem_cons.mp hn).resolve_left fun h => hk ?_
        rw [← h, BitVec.ofNat_toNat, BitVec.setWidth_eq]

theorem exec_writeRouteTable {die : Nat} {node mask : BitVec 16} (h : s.mayGive c (.writeRouteTable c die node mask)) :
    exec (.writeRouteTable c die node mask) s = if 4 ≤ die then .next (reply c 0x51 1 0 [] s)
      else .next (reply c 0x51 0 0 [] (s.modDie die (fun d => { d with routes := d.routes.set node.toNat mask }))) := by
  show execWriteRouteTable c die node mask s = _
  unfold execWriteRouteTable
  rw [h.session]
  rfl

/-- What a command lets other nodes reach. -/
def exportOf (flags : Byte) (src : BitVec 16) (base size : Dword) : Export :=
  { any := flags.getLsbD 1, src := src, base := base.toNat, size := size.toNat, r := flags.getLsbD 2, w := flags.getLsbD 3
    a := flags.getLsbD 4 }

theorem exec_writeExport {index : Nat} {flags : Byte} {src : BitVec 16} {base size : Dword}
    (h : s.mayGive c (.writeExport c index flags src base size)) : exec (.writeExport c index flags src base size) s
      = if flags.extractLsb' 5 3 ≠ 0 || base.toNat % 65536 ≠ 0 || size.toNat % 65536 ≠ 0 then .next (reply c 0x52 1 0 [] s)
        else .next (reply c 0x52 0 0 [] { s with
          exports := if flags.getLsbD 0 then s.exports.set index (exportOf flags src base size) else s.exports.erase index }) := by
  show execWriteExport c index flags src base size s = _
  unfold execWriteExport
  rw [h.session]
  rfl

theorem reserved_flags (flags : Byte) : flags.extractLsb' 5 3 ≠ 0 ↔ flags.toNat ≥ 32 := by
  have h : (flags.extractLsb' 5 3).toNat = flags.toNat / 32 % 8 := by
    simp [BitVec.extractLsb'_toNat, Nat.shiftRight_eq_div_pow]
  have hlt := flags.isLt
  rw [ne_eq, ← BitVec.toNat_inj, h]
  simp only [BitVec.toNat_zero, BitVec.ofNat_eq_ofNat]
  omega

theorem exec_readForeignKickCounters (h : s.mayGive c (.readForeignKickCounters c)) : exec (.readForeignKickCounters c) s
    = .next (reply c 0x54 0 0 ((List.range 4).flatMap (fun d => leBytes 8 (s.die d).foreignKicks)) s) := by
  show execReadForeignKickCounters c s = _
  unfold execReadForeignKickCounters
  rw [h.session]
  rfl

/-! ### Stream resets -/

theorem exec_streamReset_unused {node : BitVec 16} (h : s.mayGive c (.streamReset c node))
    (hn : s.nodeId = none ∨ (s.stream node).used = false) : exec (.streamReset c node) s = .next (reply c 0x53 0 0 [] s) := by
  show execStreamReset c node s = _
  unfold execStreamReset
  rw [h.session]
  dsimp only
  split
  · rfl
  · next me hme =>
    have hu : (s.stream node).used = false := hn.resolve_left (by rw [hme]; exact Option.some_ne_none me)
    rw [hu]
    rfl

/-- The packet of a stream reset. -/
def resetPacket (me node : BitVec 16) : Packet :=
  { (default : Packet) with kind := .streamReset, src := me, dst := node, seq := resetSeq }

/-- A stream with a reset that waits for its acknowledgement. -/
def Stream.resetAsked (me node : BitVec 16) (st : Stream) : Stream :=
  { st with unacked := st.unacked ++ [⟨resetSeq, 0, resetPacket me node, 0, 0, 0⟩] }

/-- A reset leaves for a node, from die 0, and stands among the requests without an answer. -/
def resetSent (me node : BitVec 16) (s : State) : State :=
  let s := s.modStream node (Stream.resetAsked me node)
  match routePort s 0 ((s.die 0).routes.get 0 node.toNat) 0 with
  | some p => emit p (resetPacket me node) s
  | none => s

theorem exec_streamReset {node me : BitVec 16} (h : s.mayGive c (.streamReset c node)) (hme : s.nodeId = some me)
    (hu : (s.stream node).used = true) : exec (.streamReset c node) s
      = .next (State.push { resetSent me node (breakStreams node s) with
          waitingCmds := (resetSent me node (breakStreams node s)).waitingCmds ++ [{ cmd := c, opc := 0x53, node := node }] }
        [.fabricRetransmitTimeout node resetSeq]) := by
  show execStreamReset c node s = _
  unfold execStreamReset
  rw [h.session]
  dsimp only
  rw [hme]
  dsimp only
  rw [hu]
  rfl

theorem resetSent_stream (me node : BitVec 16) (s : State) : (resetSent me node s).stream node
    = (s.stream node).resetAsked me node := by
  have h : (s.modStream node (Stream.resetAsked me node)).stream node = (s.stream node).resetAsked me node :=
    (State.stream_modStream ..).trans (if_pos rfl)
  unfold resetSent
  dsimp only
  split
  · exact h
  · exact h

theorem resetSent_sends {me node : BitVec 16} {p : Nat} (h : routePort s 0 ((s.die 0).routes.get 0 node.toNat) 0 = some p) :
    (p, resetPacket me node) ∈ (resetSent me node s).txPackets := by
  unfold resetSent
  dsimp only
  split
  · next q hq =>
    obtain rfl : p = q := Option.some.inj (h.symm.trans hq)
    exact List.mem_append_right _ (List.mem_singleton_self _)
  · next hq => exact absurd (h.symm.trans hq) (Option.some_ne_none p)

end

end Sys2Proof.Machine

namespace Sys2Proof.Machine

/-- A stream has an entry, or nothing has come by it. -/
theorem known_or_idle (n : BitVec 16) (s : State) :
    n.toNat ∈ s.streams.keys ∨ ((s.stream n).seen = [] ∧ (s.stream n).replies = []) := by
  unfold State.stream Tab.get
  cases h : s.streams.find? n.toNat with
  | some st => exact .inl (List.mem_map.mpr ⟨_, Tab.mem_of_find? h, rfl⟩)
  | none => exact .inr ⟨rfl, rfl⟩

/-- Settles O50, command by command. -/
theorem hostCommands : Obligations.HostCommands := by
  unfold Obligations.HostCommands
  intro s c hinv
  dsimp only
  refine ⟨fun e hc hw hd => ⟨fun hr hn => ?_, fun hp hs => ?_, fun ctx hx hr hp => ⟨fun hl => ?_, fun hl hu hs => ?_⟩⟩,
    fun hr => ⟨fun hall => ?_, fun n h1 h2 hl hre hlow => ?_⟩,
    fun ctx addr h => ⟨fun ha => ?_, fun ha hh => ?_, fun ha hh => ?_⟩,
    fun ctx count backing h => ⟨fun hc => ?_, fun hc => ?_⟩,
    fun ctx first n value h => ⟨fun hb => ?_, fun hv hn => ?_⟩,
    fun ctx session h => ⟨fun hs => ?_, fun hs => ?_⟩,
    fun ctx base length => ⟨fun hw h => ⟨fun hi ha he => ?_, fun ha => ?_, fun hx => ?_, fun hi => ?_⟩, fun w hw => ⟨fun hd => ?_, fun hd => ?_⟩⟩,
    fun ctx => ⟨fun hw hd => ?_, fun hw hd h => ?_, fun w hw => ⟨fun hr => ?_, fun hr => ?_⟩⟩,
    fun node h => ?_, fun die node mask h => ⟨fun hd => ?_, fun hd => ?_⟩,
    fun index flags src base size h => ⟨fun hb => ?_, fun hb => ?_⟩,
    fun node h => ⟨fun hn => ?_, fun me hme hu => ?_⟩, fun h => ?_⟩
  · obtain ⟨k, hk⟩ := exec_onSession hc ⟨hw, hd⟩
    refine hk.trans (withSession_recovering hr fun c' p a d he => hn p a d ?_)
    subst he
    rw [cmdOf_writePhysical hc]
  · obtain ⟨k, hk⟩ := exec_onSession hc ⟨hw, hd⟩
    exact hk.trans (withSession_unranked hp hs)
  · obtain ⟨k, hk⟩ := exec_onContext hc hx ⟨hw, hd⟩
    exact hk.trans (withContext_gone hr hp hl)
  · obtain ⟨k, hk⟩ := exec_onContext hc hx ⟨hw, hd⟩
    exact hk.trans (withContext_foreign hr hu hl hs)
  · have hnone : firstFrom (freeContext s) 65535 1 = none :=
      firstFrom_none fun m h1 h2 => freeContext_eq_false (hall m h1 (by omega))
    exact ⟨s, (exec_createContext hr).trans (by rw [hnone]; rfl), rfl⟩
  · have hsome : firstFrom (freeContext s) 65535 1 = some n :=
      firstFrom_some h1 (by omega) (by simp [freeContext, hl, hre]) fun m h1 h2 => freeContext_eq_false (hlow m h1 h2)
    have hex := exec_createContext (c := c) hr
    rw [hsome] at hex
    refine ⟨_, hex, ⟨fun _ => rfl, fun x hx => ?_⟩, ?_⟩
    · exact (context_set ..).trans (if_neg hx)
    · exact (context_set ..).trans (if_pos rfl)
  · exact ⟨s, (exec_setRootTable h).trans (if_pos ha), rfl⟩
  · exact ⟨s, (exec_setRootTable h).trans ((if_neg (not_not_intro ha)).trans (if_pos hh)), rfl⟩
  · exact ⟨_, (exec_setRootTable h).trans ((if_neg (not_not_intro ha)).trans (if_neg (by rw [hh]; decide))),
      ⟨fun _ => rfl, fun x hx => context_modContext_other _ hx⟩, context_modContext_self _⟩
  · exact ⟨s, (exec_setEventCount h).trans (if_pos hc), rfl⟩
  · exact ⟨_, (exec_setEventCount h).trans (if_neg (by omega)), ⟨fun _ => rfl, fun x hx => context_modContext_other _ hx⟩,
      context_modContext_self _⟩
  · exact ⟨s, (exec_setRefinableSet h).trans (if_pos (by simpa using hb)), rfl⟩
  · obtain ⟨hmem, hother⟩ := eventsRefined_others ctx first n value s
    refine ⟨_, (exec_setRefinableSet h).trans (if_neg (by simp; omega)), ⟨fun a => congrArg (Memory.byte · a) hmem, hother⟩,
      fun k => ⟨fun hk => ?_, fun hk => ?_⟩⟩
    · rw [eventsRefined_event, if_pos hk]
      exact ⟨rfl, fun hv => if_neg (by omega), fun hv => if_pos hv⟩
    · rw [eventsRefined_event, if_neg (by omega)]
  · exact ⟨s, (exec_grantContext h).trans (if_pos (by rw [hs]; rfl)), rfl⟩
  · refine ⟨_, (exec_grantContext h).trans (if_neg (by simpa using hs)),
      ⟨fun _ => rfl, fun x hx => context_modContext_other _ hx⟩, fun k => ?_⟩
    rw [context_modContext_self]
    exact mem_granted
  · refine ⟨_, (exec_shootdown_begins h hw).trans (if_pos (shotDone_empty hi ha he)), fun a => ?_, shotState_unshot s⟩
    obtain ⟨_, _, _, _, _, _, _, hf⟩ := shotState_frame (ctx := ctx) (base := base.toNat) (length := length.toNat) s
    rw [hf]
  · obtain ⟨_, _, _, _, _, _, _, hf⟩ := shotState_frame (ctx := ctx) (base := base.toNat) (length := length.toNat) s
    obtain ⟨t, ht, hhead, hmem, htx, hun, hwait⟩ := exec_shootdown_waits h hw (shotDone_accs (by rw [hf]) ha)
    exact ⟨t, ht, hhead, hmem, htx, hun, congrArg _ hwait⟩
  · obtain ⟨x, hx, hev, hn⟩ := hx
    obtain ⟨t, ht, hhead, hmem, htx, hun, hwait⟩ := exec_shootdown_waits h hw (shotDone_events (shotState_pins hx hn) hev)
    exact ⟨t, ht, hhead, hmem, htx, hun, congrArg _ hwait⟩
  · cases hd : shotDone (shotState s ctx base.toNat length.toNat) (shootdownWait s c ctx base.toNat length.toNat) with
    | true => exact .inl ⟨_, (exec_shootdown_begins h hw).trans (if_pos hd), opsPerformed_of_shotDone hd⟩
    | false =>
      obtain ⟨t, ht, hhead, hmem, htx, hun, hwait⟩ := exec_shootdown_waits h hw hd
      exact .inr ⟨t, ht, hhead, hmem, hun, congrArg _ hwait⟩
  · exact ⟨_, (exec_shootdown_goes_on hw).trans (congrArg _ (if_pos hd)), fun _ => rfl, waitingOf_dropWaiting c 0x15 s⟩
  · obtain ⟨a, p, ts, cs, ds, hf⟩ := (returnLines_walksOn w.ops s).frame
    refine ⟨_, (exec_shootdown_goes_on hw).trans (congrArg _ (if_neg (by rw [hd]; decide))), rfl, fun a => ?_, ?_, ?_⟩
    · rw [hf]
      rfl
    · rw [hf]
      rfl
    · rw [hf]
      rfl
  · exact exec_destroy_stays hw hd
  · obtain ⟨a, sl, tr, p, ps, hf⟩ := startPreempt_frame ctx (List.range 64) (some c) (s.destroys c ctx)
    refine ⟨_, exec_destroy_begins h hw hd, rfl, fun a => ?_, ?_, ?_, fun n tm k hb hp hk hlt => ?_⟩
    · rw [hf]
      rfl
    · rw [hf]
      rfl
    · rw [hf]
      unfold waitingOf at hw ⊢
      refine (congrArg _ List.find?_append).trans ?_
      rw [hw]
      simp
    · exact ⟨_, startPreempt_stands (s := s.destroys c ctx)
        (preemptOver_eq_false hb.1 hb.2 hp hk (List.mem_range.mpr hlt)), rfl, rfl, rfl⟩
  · obtain ⟨hsheds, hctx, hlaunch, hteams, hslots, hun⟩ := finishDestroy_destroyed ctx (dropWaiting c 0x11 s)
    refine ⟨_, (exec_destroy_goes_on hw).trans (congrArg _ (if_pos hr)), ?_, ?_, hlaunch, fun n tm hb => ?_, hslots, hun⟩
    · unfold waitingOf
      rw [hsheds.waits]
      exact waitingOf_dropWaiting c 0x11 s
    · rw [hctx]
      exact ⟨rfl, rfl, rfl, rfl, rfl, rfl⟩
    · exact hteams n (mem_teamsOf (s := dropWaiting c 0x11 s) hb.1 hb.2)
  · exact ⟨_, (exec_destroy_goes_on hw).trans (congrArg _ (if_neg (by rw [hr]; decide))), rfl⟩
  · refine ⟨_, exec_assignNodeId h, ?_⟩
    cases hn : s.nodeId with
    | none =>
      exact ⟨rfl, fun n => renamed_bears node n s, fun _ => ⟨fun _ => rfl, rfl⟩, fun h => absurd rfl h⟩
    | some me =>
      obtain ⟨hid, hbears, hgone⟩ := breakAll_streams (node := node) s.streams.keys (s.renamed node) fun n => renamed_bears node n s
      refine ⟨hid, hbears, fun h => absurd h (Option.some_ne_none me), fun _ n => hgone n ?_⟩
      rw [renamed_stream]
      exact known_or_idle n s
  · exact ⟨s, (exec_writeRouteTable h).trans (if_pos hd), rfl⟩
  · refine ⟨_, (exec_writeRouteTable h).trans (if_neg (by omega)), fun d n => ?_⟩
    rw [State.die_modDie]
    by_cases hdd : d = die
    · rw [if_pos hdd, hdd, Tab.get_set]
      exact if_congr (by rw [BitVec.toNat_inj]; simp) rfl rfl
    · rw [if_neg hdd, if_neg (fun h => hdd h.1)]
  · exact ⟨s, (exec_writeExport h).trans (if_pos (by simpa [← reserved_flags, or_assoc] using hb)), rfl⟩
  · refine ⟨_, (exec_writeExport h).trans (if_neg (by simpa [← reserved_flags, or_assoc] using hb)), fun _ => rfl, ?_, fun k hk => ?_⟩
    · split
      · exact Tab.find?_set_self _ _ _
      · exact (Tab.find?_erase ..).trans (if_pos rfl)
    · split
      · exact Tab.find?_set_other _ _ hk
      · exact (Tab.find?_erase ..).trans (if_neg hk)
  · exact ⟨s, exec_streamReset_unused h hn, rfl⟩
  · obtain ⟨_, _, _, _, _, _, _, _, _, _, _, hf, hroutes⟩ := breakStreams_frame node s
    have hstream : (resetSent me node (breakStreams node s)).stream node = _ := resetSent_stream ..
    rw [breakStreams_stream, if_pos rfl] at hstream
    refine ⟨_, exec_streamReset h hme hu, congrArg Stream.seen hstream, congrArg Stream.replies hstream, by simp [resetSeq],
      ⟨_, List.mem_append_right _ (List.mem_singleton_self _), rfl, rfl, rfl⟩, fun p hp => ⟨_, resetSent_sends ?_, rfl, rfl, rfl, rfl⟩⟩
    rw [hroutes, hf]
    exact hp
  · exact ⟨s, exec_readForeignKickCounters h, rfl⟩

end Sys2Proof.Machine

namespace Sys2Proof.Machine

/-! ## Links of the fabric (R357, R362) -/

section
variable {s : State} {port flit : Nat}

theorem exec_fraukLinkUp_none (h : s.nodeId = none ∨ 64 ≤ port) : exec (.fraukLinkUp port) s = .next s := by
  show execFraukLinkUp port s = _
  unfold execFraukLinkUp
  rw [if_pos]
  simpa using h

theorem exec_fraukLinkUp (hn : s.nodeId ≠ none) (hp : port < 64) : exec (.fraukLinkUp port) s
    = .next { s with ports := s.ports.modify {} port (fun p => { p with up := true }) } := by
  show execFraukLinkUp port s = _
  unfold execFraukLinkUp
  rw [if_neg]
  simpa using And.intro hn hp

/-- A port that has found a wrong flit, with the times that it has asked for it. -/
def Port.discarded (flit : Nat) (p : Port) : Port :=
  let r := p.received.again flit
  { p with rx := p.rx.takeWhile (fun f => f.num ≠ flit), received := r, asks := if r.over then p.asks else p.asks ++ [flit] }

theorem exec_linkReplayRequest (port flit : Nat) (s : State) : exec (.linkReplayRequest port flit) s
    = .next (if ((s.ports.get {} port).received.again flit).over then
        State.push { s with ports := s.ports.set port ((s.ports.get {} port).discarded flit) } [.linkReset port]
      else { s with ports := s.ports.set port ((s.ports.get {} port).discarded flit) }) := rfl

theorem exec_flitReplay (port flit : Nat) (s : State) : exec (.flitReplay port flit) s
    = .next (let p := s.ports.get {} port
      let t : State := { s with ports := s.ports.set port { p with sent := p.sent.again flit } }
      if (p.sent.again flit).over then t.push [.linkReset port]
      else { t with txPackets := t.txPackets ++ (replayed flit p.buffer).map (fun x => (port, x)) }) := rfl

/-- A packet joins those replayed unless it is the last of them. -/
def joinLast (acc : List Packet) (p : Packet) : List Packet := if acc.getLast? = some p then acc else acc ++ [p]

theorem mem_joinLast {acc : List Packet} {p x : Packet} : x ∈ joinLast acc p ↔ x ∈ acc ∨ x = p := by
  unfold joinLast
  split
  · next h => exact ⟨.inl, fun hx => hx.elim id fun hx => hx ▸ List.mem_of_getLast? h⟩
  · rw [List.mem_append, List.mem_singleton]

theorem mem_replayed {flit : Nat} {buf : List (Nat × Packet)} {x : Packet} :
    x ∈ replayed flit buf ↔ ∃ e ∈ buf, flit ≤ e.1 ∧ e.2 = x := by
  have hfold (ps acc : List Packet) : x ∈ ps.foldl joinLast acc ↔ x ∈ acc ∨ x ∈ ps := by
    induction ps generalizing acc with
    | nil => simp
    | cons p ps ih => rw [List.foldl_cons, ih, mem_joinLast, List.mem_cons, or_assoc]
  refine (hfold _ []).trans ?_
  simp [and_assoc]

theorem exec_linkReset (port : Nat) (s : State) : exec (.linkReset port) s
    = .next (State.push { s with ports := s.ports.modify {} port (fun p => { asks := p.asks }) } [.fraukLinkUp port]) := rfl

theorem Repeats.over_iff {r : Repeats} : r.over = true ↔ 16 < r.times := decide_eq_true_iff

theorem Repeats.over_false {r : Repeats} (h : r.times ≤ 16) : r.over = false := decide_eq_false (Nat.not_lt.mpr h)

theorem Repeats.over_true {r : Repeats} (h : 16 < r.times) : r.over = true := Repeats.over_iff.mpr h

/-- What a port asks for that has found a wrong flit. -/
theorem exec_linkReplayRequest_port (port flit : Nat) (s : State) : ∃ t, exec (.linkReplayRequest port flit) s = .next t
    ∧ (∀ a, t.mem.byte a = s.mem.byte a)
    ∧ (((s.ports.get {} port).received.again flit).times ≤ 16 → t.agenda = s.agenda
      ∧ t.ports.get {} port = { s.ports.get {} port with
          rx := (s.ports.get {} port).rx.takeWhile (fun f => f.num ≠ flit)
          received := (s.ports.get {} port).received.again flit, asks := (s.ports.get {} port).asks ++ [flit] })
    ∧ (16 < ((s.ports.get {} port).received.again flit).times → t.agenda = s.agenda ++ [.linkReset port]
      ∧ t.ports.get {} port = { s.ports.get {} port with
          rx := (s.ports.get {} port).rx.takeWhile (fun f => f.num ≠ flit)
          received := (s.ports.get {} port).received.again flit }) := by
  refine ⟨_, exec_linkReplayRequest .., ?_, fun h => ?_, fun h => ?_⟩
  · intro a
    split <;> rfl
  · rw [Repeats.over_false h]
    refine ⟨rfl, (Tab.get_set_self ..).trans ?_⟩
    unfold Port.discarded
    dsimp only
    rw [Repeats.over_false h]
    rfl
  · rw [Repeats.over_true h]
    refine ⟨rfl, (Tab.get_set_self ..).trans ?_⟩
    unfold Port.discarded
    dsimp only
    rw [Repeats.over_true h]
    rfl

/-- What a port sends again that is asked for a flit. -/
theorem exec_flitReplay_port (port flit : Nat) (s : State) : ∃ t, exec (.flitReplay port flit) s = .next t
    ∧ (∀ a, t.mem.byte a = s.mem.byte a)
    ∧ t.ports.get {} port = { s.ports.get {} port with sent := (s.ports.get {} port).sent.again flit }
    ∧ (16 < ((s.ports.get {} port).sent.again flit).times → t.agenda = s.agenda ++ [.linkReset port] ∧ t.txPackets = s.txPackets)
    ∧ (((s.ports.get {} port).sent.again flit).times ≤ 16 → t.agenda = s.agenda ∧ ∃ ps, t.txPackets = s.txPackets ++ ps
      ∧ ∀ x, x ∈ ps ↔ x.1 = port ∧ ∃ e ∈ (s.ports.get {} port).buffer, flit ≤ e.1 ∧ e.2 = x.2) := by
  refine ⟨_, exec_flitReplay .., ?_, ?_, fun h => ?_, fun h => ?_⟩
  · intro a
    dsimp only
    split <;> rfl
  · dsimp only
    split
    · exact Tab.get_set_self ..
    · exact Tab.get_set_self ..
  · dsimp only
    rw [Repeats.over_true h]
    exact ⟨rfl, rfl⟩
  · dsimp only
    rw [Repeats.over_false h]
    refine ⟨rfl, _, rfl, fun x => ?_⟩
    rw [List.mem_map]
    constructor
    · rintro ⟨y, hy, rfl⟩
      exact ⟨rfl, mem_replayed.mp hy⟩
    · rintro ⟨hx, hy⟩
      exact ⟨x.2, mem_replayed.mpr hy, by rw [← hx]⟩

theorem exec_linkReset_port (port : Nat) (s : State) : ∃ t, exec (.linkReset port) s = .next t
    ∧ t.ports.get {} port = { asks := (s.ports.get {} port).asks } ∧ (∀ a, t.mem.byte a = s.mem.byte a)
    ∧ t.agenda = s.agenda ++ [.fraukLinkUp port] :=
  ⟨_, exec_linkReset .., Tab.get_modify_self (α := Port) {} s.ports port (fun p => { asks := p.asks }), fun _ => rfl, rfl⟩

/-- Flits in the order of their numbers, all sound, are all passed upward. -/
theorem Port.upward_sound (p : Port) (n : Nat) (fs : List Flit) (h : ∀ k g, fs[k]? = some g → g.ok = true ∧ g.num = n + k) :
    p.upward n fs = ((fs.filter (·.last)).map (·.pkt), { p with rx := [], rxNext := n + fs.length }) := by
  induction fs generalizing n with
  | nil => rfl
  | cons f fs ih =>
    obtain ⟨hok, hnum⟩ := h 0 f rfl
    have hrest := ih (n + 1) fun k g hk => by
      obtain ⟨h1, h2⟩ := h (k + 1) g hk
      exact ⟨h1, by omega⟩
    unfold Port.upward
    rw [hok, hnum, hrest, List.filter_cons, List.length_cons, show n + 1 + fs.length = n + (fs.length + 1) by omega]
    cases f.last <;> simp

end

end Sys2Proof.Machine

namespace Sys2Proof.Machine

/-! ## Requests that go out again, and streams that break (R192, R193, R363) -/

section
variable {s : State} {node : BitVec 16} {seq : Nat} {u : Unacked}

theorem exec_retransmit_unknown (h : (s.stream node).unacked.find? (fun u => u.seq = seq) = none) :
    exec (.fabricRetransmitTimeout node seq) s = .next s := by
  show execFabricRetransmitTimeout node seq s = _
  unfold execFabricRetransmitTimeout
  rw [h]

/-- A stream's request once more sent. -/
def Stream.retried (seq : Nat) (st : Stream) : Stream :=
  { st with unacked := st.unacked.map (fun x => if x.seq = seq then { x with retries := x.retries + 1 } else x) }

theorem Stream.find?_retried (seq : Nat) (st : Stream) : (st.retried seq).unacked.find? (fun u => u.seq = seq)
    = (st.unacked.find? (fun u => u.seq = seq)).map (fun u => { u with retries := u.retries + 1 }) := by
  unfold Stream.retried
  induction st.unacked with
  | nil => rfl
  | cons x xs ih =>
    rw [List.map_cons, List.find?_cons, List.find?_cons]
    by_cases h : x.seq = seq
    · simp [h]
    · simp only [h, if_false, decide_false]
      exact ih

/-- A request leaves again by a port of its route, if one is up. -/
def State.resent (s : State) (node : BitVec 16) (u : Unacked) : State :=
  match routePort s u.die ((s.die u.die).routes.get 0 node.toNat) (u.pkt.addr / 128) with
  | some p => emit p u.pkt s
  | none => s

theorem resent_frame (s : State) (node : BitVec 16) (u : Unacked) : ∃ ps, s.resent node u = { s with
    ports := ps
    txPackets := s.txPackets
      ++ (routePort s u.die ((s.die u.die).routes.get 0 node.toNat) (u.pkt.addr / 128)).toList.map (fun p => (p, u.pkt)) } := by
  unfold State.resent
  split
  · next p hp => rw [hp]; exact ⟨_, rfl⟩
  · next hp =>
    rw [hp]
    exact ⟨s.ports, by rw [Option.toList_none, List.map_nil, List.append_nil]⟩

theorem exec_retransmit_again (h : (s.stream node).unacked.find? (fun u => u.seq = seq) = some u) (hr : u.retries < 8) :
    exec (.fabricRetransmitTimeout node seq) s = .next (((s.modStream node (Stream.retried seq)).resent node u).push
      [.fabricRetransmitTimeout node seq]) := by
  show execFabricRetransmitTimeout node seq s = _
  unfold execFabricRetransmitTimeout
  rw [h]
  dsimp only
  rw [if_neg (by omega)]
  rfl

theorem exec_retransmit_over (h : (s.stream node).unacked.find? (fun u => u.seq = seq) = some u) (hr : 8 ≤ u.retries) :
    exec (.fabricRetransmitTimeout node seq) s = .next (if seq = resetSeq then resetDone node s else breakOut node s) := by
  show execFabricRetransmitTimeout node seq s = _
  unfold execFabricRetransmitTimeout
  rw [h]
  exact if_pos hr

/-! ### Resets that are over -/

/-- Replies to some commands leave everything but sessions, what is sent, and the agenda. -/
theorem replies_frame (ws : List Waiting) (s : State) : ∃ ss tx tf a, ws.foldl (fun s w => replyOk w.cmd w.opc [] s) s
    = { s with sessions := ss, txDatagrams := tx, txFrames := tf, agenda := a } := by
  induction ws generalizing s with
  | nil => exact ⟨_, _, _, _, rfl⟩
  | cons w ws ih =>
    obtain ⟨ss, tx, tf, es, h⟩ := reply_frame w.cmd w.opc 0 0 [] s
    obtain ⟨ss', tx', tf', a', h'⟩ := ih (replyOk w.cmd w.opc [] s)
    have hone : replyOk w.cmd w.opc [] s = _ := h
    refine ⟨ss', tx', tf', a', ?_⟩
    rw [List.foldl_cons, h', hone]

/-- The commands that wait for a reset of a node's streams. -/
def resetWaits (node : BitVec 16) (s : State) : List Waiting := s.waitingCmds.filter (fun w => w.opc = 0x53 && w.node = node)

/-- A stream without a reset that waits for its acknowledgement. -/
def Stream.resetOver (st : Stream) : Stream := { st with unacked := st.unacked.filter (fun u => u.seq ≠ resetSeq) }

/-- A reset no longer waits for its acknowledgement. -/
def resetEnded (node : BitVec 16) (s : State) : State :=
  (({ s with waitingCmds := s.waitingCmds.filter (fun w => !(w.opc = 0x53 && w.node = node)) } : State).modStream node
    Stream.resetOver).cancel (.fabricRetransmitTimeout node resetSeq)

theorem resetDone_eq (node : BitVec 16) (s : State) :
    resetDone node s = (resetWaits node s).foldl (fun s w => replyOk w.cmd w.opc [] s) (resetEnded node s) := rfl

theorem resetDone_frame (node : BitVec 16) (s : State) : ∃ ss tx tf a, resetDone node s
    = { resetEnded node s with sessions := ss, txDatagrams := tx, txFrames := tf, agenda := a } := replies_frame _ _

theorem resetDone_waits (node : BitVec 16) (s : State) : ∀ w ∈ (resetDone node s).waitingCmds, ¬ (w.opc = 0x53 ∧ w.node = node) := by
  obtain ⟨_, _, _, _, h⟩ := resetDone_frame node s
  rw [h]
  intro w hw hc
  have := (List.mem_filter.mp hw).2
  simp [hc.1, hc.2] at this

theorem resetDone_stream (node : BitVec 16) (s : State) : (resetDone node s).stream node
    = (s.stream node).resetOver := by
  obtain ⟨_, _, _, _, h⟩ := resetDone_frame node s
  rw [h]
  exact (State.stream_modStream (s := s) node node Stream.resetOver).trans (if_pos rfl)

theorem resetDone_mem (node : BitVec 16) (s : State) : (resetDone node s).mem = s.mem := by
  obtain ⟨_, _, _, _, h⟩ := resetDone_frame node s
  rw [h]
  rfl

theorem resetDone_rx (node : BitVec 16) (s : State) : (resetDone node s).rxPackets = s.rxPackets := by
  obtain ⟨_, _, _, _, h⟩ := resetDone_frame node s
  rw [h]
  rfl

/-- The one command that waits for a reset is answered. -/
theorem resetDone_answers {w : Waiting} {x : Session} (hw : s.waitingCmds = [w]) (ho : w.opc = 0x53) (hn : w.node = node)
    (hx : s.sessions.find? w.cmd.session = some x) :
    (resetDone node s).txDatagrams = s.txDatagrams ++ [replyDatagram w.cmd x 0x53 0 0 []] := by
  have hwaits : resetWaits node s = [w] := by simp [resetWaits, hw, ho, hn]
  rw [resetDone_eq, hwaits, List.foldl_cons, List.foldl_nil, ho]
  exact reply_sends (s := resetEnded node s) hx

/-! ### Requests that end with their stream -/

/-- The state in which the requests of a broken stream end. -/
def brokenStart (node : BitVec 16) (s : State) : State := (stopTimers node s).modStream node Stream.brokenOut

theorem breakOut_single (h : (s.stream node).unacked = [u]) (hs : u.seq ≠ resetSeq) :
    breakOut node s = endBroken u (brokenStart node s) := by
  unfold breakOut
  dsimp only
  rw [h]
  simp only [List.filter_cons, hs, ne_eq, not_false_eq_true, decide_true, if_true, List.filter_nil, List.foldl_cons, List.foldl_nil]
  rfl

variable {o : Op} {p : Part}

theorem noteBroken_op {id : Nat} (h : s.ops.find? id = some o) : (noteBroken id o s).ops.find? id = some { o with code := 6 } := by
  have hmod : (s.modOp id (fun o => { o with code := 6 })).ops.find? id = some { o with code := 6 } := by
    rw [State.find?_modOp, if_pos rfl, h]
    rfl
  unfold noteBroken
  split
  · next hc => rw [h, ← hc]
  · dsimp only
    split
    · exact hmod
    · exact hmod

theorem noteBroken_warp {id : Nat} {w : Warp} (h : s.warp? (warpOf o.ref) = some w) :
    ((noteBroken id o s).warp? (warpOf o.ref)).map (·.indet)
      = some (if o.code = 6 then w.indet else (w.indet ++ indetsOf s o).take 64) := by
  unfold noteBroken
  by_cases hc : o.code = 6
  · rw [if_pos hc, if_pos hc, h]
    rfl
  · rw [if_neg hc, if_neg hc]
    have hw : ((addIndets o.ref (indetsOf s o) (s.modOp id (fun o => { o with code := 6 }))).warp? (warpOf o.ref)).map (·.indet)
        = some ((w.indet ++ indetsOf s o).take 64) := by
      unfold addIndets
      rw [State.warp?_modWarp_self]
      show ((s.warp? (warpOf o.ref)).map _).map _ = _
      rw [h]
      rfl
    dsimp only
    split
    · exact hw
    · exact hw

/-- A status form's request learns the code of the broken stream. -/
def statusBroken (id : Nat) (o : Op) (s : State) : State :=
  if o.kind = .rwr || o.kind = .ksend then s.modOp id (fun o => { o with data := o.data.set 0 6 }) else s

theorem endBroken_eq (ho : s.ops.find? u.op = some o) (hp : o.parts[u.part]? = some p) (hc : o.kind ≠ .copy)
    (hk : o.kind ≠ .kick) : ∃ f, endBroken u s = partDone u.op u.part f (statusBroken u.op o (noteBroken u.op o s).fresh.2) := by
  unfold endBroken
  rw [ho]
  dsimp only
  rw [hp]
  split
  · next hkind => exact absurd hkind hc
  · next hkind => exact absurd hkind hk
  · next hnone _ _ => cases hnone
  · exact ⟨_, rfl⟩

theorem statusBroken_op {id : Nat} (h : s.ops.find? id = some o) (o' : Op) :
    ∃ x, (statusBroken id o' s).ops.find? id = some x ∧ x.code = o.code ∧ x.parts = o.parts := by
  unfold statusBroken
  split
  · refine ⟨{ o with data := o.data.set 0 6 }, ?_, rfl, rfl⟩
    rw [State.find?_modOp, if_pos rfl, h]
    rfl
  · exact ⟨o, h, rfl, rfl⟩

theorem statusBroken_teams (id : Nat) (o : Op) (s : State) : (statusBroken id o s).teams = s.teams := by
  unfold statusBroken
  split
  · rfl
  · rfl

/-- A lane request without a reply ends with its stream: its code is 6, its part is done, and its lanes are in its warp's list. -/
theorem endBroken_ends (ho : s.ops.find? u.op = some o) (hp : o.parts[u.part]? = some p) (hc : o.kind ≠ .copy) (hk : o.kind ≠ .kick) :
    ((endBroken u s).ops.find? u.op).map (·.code) = some 6
      ∧ (((endBroken u s).ops.find? u.op).bind (fun o => o.parts[u.part]?)).map (·.done) = some true
      ∧ ∀ w, s.warp? (warpOf o.ref) = some w → ((endBroken u s).warp? (warpOf o.ref)).map (·.indet)
        = some (if o.code = 6 then w.indet else (w.indet ++ indetsOf s o).take 64) := by
  obtain ⟨f, hf⟩ := endBroken_eq ho hp hc hk
  rw [hf]
  obtain ⟨x, hx, hcode, hparts⟩ := statusBroken_op (s := (noteBroken u.op o s).fresh.2) (noteBroken_op ho) o
  have hreq : (statusBroken u.op o (noteBroken u.op o s).fresh.2).reqPart ⟨u.op, u.part⟩ = some (x, p) :=
    State.reqPart_eq_some.mpr ⟨hx, by rw [hparts]; exact hp⟩
  have hop : (partDone u.op u.part f (statusBroken u.op o (noteBroken u.op o s).fresh.2)).ops.find? u.op
      = some { x with parts := x.parts.modify u.part (fun p => { f p with done := true }) } := answerPart_op hreq
  refine ⟨?_, ?_, fun w hw => ?_⟩
  · rw [hop]
    exact congrArg some hcode
  · rw [hop]
    show ((x.parts.modify u.part _)[u.part]?).map _ = _
    rw [List.getElem?_modify_eq, hparts, hp]
    rfl
  · have hteams : (partDone u.op u.part f (statusBroken u.op o (noteBroken u.op o s).fresh.2)).teams = (noteBroken u.op o s).teams :=
      statusBroken_teams ..
    unfold State.warp? State.team?
    rw [hteams]
    exact noteBroken_warp hw

/-! ### What a timeout does -/

theorem exec_retransmit_resent (hu : (s.stream node).unacked.find? (fun u => u.seq = seq) = some u) (hr : u.retries < 8) :
    ∃ t, exec (.fabricRetransmitTimeout node seq) s = .next t ∧ (∀ a, t.mem.byte a = s.mem.byte a)
      ∧ t.agenda = s.agenda ++ [.fabricRetransmitTimeout node seq]
      ∧ (t.stream node).unacked.find? (fun u => u.seq = seq) = some { u with retries := u.retries + 1 }
      ∧ t.txPackets = s.txPackets
        ++ (routePort s u.die ((s.die u.die).routes.get 0 node.toNat) (u.pkt.addr / 128)).toList.map (fun p => (p, u.pkt)) := by
  obtain ⟨ps, hps⟩ := resent_frame (s.modStream node (Stream.retried seq)) node u
  have hst : (s.modStream node (Stream.retried seq)).stream node = (s.stream node).retried seq :=
    (State.stream_modStream node node (Stream.retried seq)).trans (if_pos rfl)
  refine ⟨_, exec_retransmit_again hu hr, ?_, ?_, ?_, ?_⟩
  · rw [hps]
    exact fun _ => rfl
  · rw [hps]
    rfl
  · rw [hps]
    refine (congrArg (fun st : Stream => st.unacked.find? (fun u => u.seq = seq)) hst).trans ?_
    rw [Stream.find?_retried, hu]
    rfl
  · rw [hps]
    rfl

/-- The one request of a stream that breaks ends with code 6. -/
theorem breakOut_ends {v : Unacked} (hu : (s.stream node).unacked.find? (fun u => u.seq = seq) = some u) (hs : seq ≠ resetSeq)
    (hv : (s.stream node).unacked = [v]) (ho : s.ops.find? v.op = some o) (hp : o.parts[v.part]? = some p)
    (hc : o.kind ≠ .copy) (hk : o.kind ≠ .kick) : ((breakOut node s).ops.find? v.op).map (·.code) = some 6
      ∧ (((breakOut node s).ops.find? v.op).bind (fun o => o.parts[v.part]?)).map (·.done) = some true
      ∧ ∀ w, s.warp? (warpOf o.ref) = some w → ((breakOut node s).warp? (warpOf o.ref)).map (·.indet)
        = some (if o.code = 6 then w.indet else (w.indet ++ indetsOf s o).take 64) := by
  have hvu : u = v := List.mem_singleton.mp (hv ▸ List.mem_of_find?_eq_some hu)
  have hseq : u.seq = seq := by simpa using List.find?_some hu
  rw [breakOut_single hv (by rw [← hvu, hseq]; exact hs)]
  exact endBroken_ends (s := brokenStart node s) ho hp hc hk

end

end Sys2Proof.Machine

namespace Sys2Proof.Machine

/-! ## Requests of other nodes as they come in (R192, R363) -/

section
variable {s : State} {port : Nat} {p : Packet} {k : PacketKind}

theorem headOf_rx {t : State} (h : t.rxPackets = s.rxPackets) (k : PacketKind) : headOf t k = headOf s k := by
  unfold headOf
  rw [h]

theorem received_none {f : Nat → Packet → State → Out} (h : headOf s k = none) : received k s f = .next s := by
  unfold received
  rw [h]

theorem received_eq {f : Nat → Packet → State → Out} (h : headOf s k = some (port, p)) : received k s f
    = if (s.stream p.src).inEpoch.any (fun n => p.epoch < n) then .next (popPacket s)
      else if ((newEpoch p s).stream p.src).seen.contains p.seq then
        match ((newEpoch p s).stream p.src).replies.find? (fun r => r.seq = p.seq) with
        | some r => .next (fabricReply port r (popPacket (newEpoch p s)))
        | none => .next (popPacket (newEpoch p s))
      else f port p (newEpoch p s) := by
  unfold received
  rw [h] <;> rfl

theorem received_old {f : Nat → Packet → State → Out} (h : headOf s k = some (port, p))
    (ho : ∃ n, (s.stream p.src).inEpoch = some n ∧ p.epoch < n) : received k s f = .next (popPacket s) := by
  obtain ⟨n, hn, hlt⟩ := ho
  rw [received_eq h, hn]
  exact if_pos (by simpa using hlt)

theorem newEpoch_same (h : (s.stream p.src).inEpoch = some p.epoch) : newEpoch p s = s := if_pos h

theorem received_current {f : Nat → Packet → State → Out} (h : headOf s k = some (port, p))
    (he : (s.stream p.src).inEpoch = some p.epoch) : received k s f
      = if (s.stream p.src).seen.contains p.seq then
          match (s.stream p.src).replies.find? (fun r => r.seq = p.seq) with
          | some r => .next (fabricReply port r (popPacket s))
          | none => .next (popPacket s)
        else f port p s := by
  rw [received_eq h, newEpoch_same he, he]
  exact if_neg (by simp)

theorem received_fresh {f : Nat → Packet → State → Out} (h : headOf s k = some (port, p))
    (he : (s.stream p.src).inEpoch = some p.epoch) (hs : p.seq ∉ (s.stream p.src).seen) : received k s f = f port p s := by
  rw [received_current h he]
  exact if_neg (by simpa using hs)

theorem received_again {f : Nat → Packet → State → Out} (h : headOf s k = some (port, p))
    (he : (s.stream p.src).inEpoch = some p.epoch) (hs : p.seq ∈ (s.stream p.src).seen) :
    ∃ t, received k s f = .next t ∧ (∀ a, t.mem.byte a = s.mem.byte a) ∧ t.rxPackets = s.rxPackets.drop 1
      ∧ t.txPackets = s.txPackets
        ++ ((s.stream p.src).replies.find? (fun r => r.seq = p.seq)).toList.map (fun r => (port, r))
      ∧ t.ops = s.ops ∧ t.tags = s.tags := by
  rw [received_current h he, if_pos (by simpa using hs)]
  split
  · next r hr => rw [hr]; exact ⟨_, rfl, fun _ => rfl, rfl, rfl, rfl, rfl⟩
  · next hr =>
    rw [hr]
    exact ⟨_, rfl, fun _ => rfl, rfl, (List.append_nil _).symm, rfl, rfl⟩

/-- A stream that takes requests of a numbering. -/
def Stream.inNow (n : Nat) (st : Stream) : Stream := { st with inEpoch := some n }

theorem newEpoch_stream (h : (s.stream p.src).inEpoch ≠ some p.epoch) : (newEpoch p s).stream p.src
    = if (s.stream p.src).inEpoch.isSome then (s.stream p.src).brokenIn.inNow p.epoch else (s.stream p.src).inNow p.epoch := by
  unfold newEpoch
  rw [if_neg h]
  refine (State.stream_modStream _ _ (Stream.inNow p.epoch)).trans ((if_pos rfl).trans ?_)
  split
  · rw [breakIn_stream, if_pos rfl]
  · rfl

theorem newEpoch_frame (p : Packet) (s : State) : ∃ ss rp, newEpoch p s = { s with streams := ss, replyPacket := rp } := by
  unfold newEpoch
  split
  · exact ⟨s.streams, s.replyPacket, rfl⟩
  · split
    · exact ⟨_, _, rfl⟩
    · exact ⟨_, s.replyPacket, rfl⟩

/-- The first request of a numbering that has begun again is dealt with as one of a numbering under way. -/
theorem received_begins {f : Nat → Packet → State → Out} (h : headOf s k = some (port, p))
    (hn : ∀ n, (s.stream p.src).inEpoch = some n → n < p.epoch) : received k s f = received k (newEpoch p s) f := by
  have hne : (s.stream p.src).inEpoch ≠ some p.epoch := fun he => Nat.lt_irrefl _ (hn _ he)
  have hin : ((newEpoch p s).stream p.src).inEpoch = some p.epoch := by
    rw [newEpoch_stream hne]
    split <;> rfl
  have hhead : headOf (newEpoch p s) k = some (port, p) := by
    obtain ⟨ss, rp, hf⟩ := newEpoch_frame p s
    rw [← h]
    exact headOf_rx (by rw [hf]) k
  have hany : (s.stream p.src).inEpoch.any (fun n => p.epoch < n) = false := by
    cases he : (s.stream p.src).inEpoch with
    | none => rfl
    | some n =>
      have := hn n he
      simp only [Option.any_some, decide_eq_false_iff_not]
      omega
  rw [received_current hhead hin, received_eq h, hany]
  rfl

/-- The numbering that has begun again has no request yet, and nothing else has changed. -/
theorem newEpoch_begun (hn : ∀ n, (s.stream p.src).inEpoch = some n → n < p.epoch) :
    (∀ a, (newEpoch p s).mem.byte a = s.mem.byte a) ∧ (newEpoch p s).rxPackets = s.rxPackets ∧ (newEpoch p s).trips = s.trips
      ∧ (newEpoch p s).agenda = s.agenda ∧ ((newEpoch p s).stream p.src).inEpoch = some p.epoch
      ∧ ((s.stream p.src).inEpoch ≠ none → ((newEpoch p s).stream p.src).seen = [] ∧ ((newEpoch p s).stream p.src).replies = []) := by
  obtain ⟨ss, rp, hfr⟩ := newEpoch_frame p s
  have hst := newEpoch_stream fun hc => Nat.lt_irrefl _ (hn _ hc)
  refine ⟨?_, ?_, ?_, ?_, ?_, fun hsome => ?_⟩
  · rw [hfr]
    exact fun _ => rfl
  · rw [hfr]
  · rw [hfr]
  · rw [hfr]
  · rw [hst]
    split <;> rfl
  · rw [hst, if_pos (Option.isSome_iff_ne_none.mpr hsome)]
    exact ⟨rfl, rfl⟩

/-- What is done with a request for one line that is new, as atTarget has it. -/
def targetStep (e : Instr) (spans : Packet → List (Nat × Nat)) (perm : Export → Bool) (whole : Packet → Bool)
    (f : Packet → Nat → State → Packet × State) (port : Nat) (p : Packet) (s : State) : Out :=
  let allowed := (spans p).all (fun x => exported s p.src x.1 x.2 perm)
  match remoteHome p.addr p.home with
  | .error c => .next (refused port p (if allowed then c else tRemote) s)
  | .ok h =>
    let line := p.addr / 128
    if (s.tripsOf e).isEmpty && !allowed then .next (refused port p tRemote s)
    else
      let inScope := fun (s : State) => match scopeCheck s h line 4 0 with
        | .error _ => none
        | .ok s => some s
      fromIngress e port p ⟨h, line, 1⟩ (fun t s =>
        let reply := fun (r : Packet) (s : State) => replyWith t r s
        atSliceWith { home := h, line := line } e s
          (fun s => if p.checked && (inScope s).isNone then some (reply (answer s p .ack 0 tScope) s) else none) (fun s =>
            if poisoned s line && !whole p then .next (reply (answer s p .ack 0 tMemory) s)
            else
              let x := f p h (if p.checked then (inScope s).getD s else s)
              .next (reply x.1 x.2))) s

/-- What is done with a request for a locket that is new, as locketFromFabric has it. -/
def locketStep (e : Instr) (req : Packet → LocketReq) (port : Nat) (p : Packet) (s : State) : Out :=
  let g := p.sig
  if (s.tripsOf e).isEmpty && !exported s p.src (sigAddr g) (4 * widthLanes (sigWidth g % 3)) (·.a) then
    .next (refused port p tRemote s)
  else if isHole (sigAddr g) then .next (refused port p tHole s)
  else
    fromIngress e port p ⟨anchorSlice g, sigBase g / 128, 128⟩ (fun t s =>
      locketTurn e (req p) s (fun code s => .next (replyWith t (answer s p .ack code 0) s))
        (fun _ s => .next (replyWith t (answer s p .ack 0 tMemory) s))) s

/-- What is done with a kick that is new. -/
def kickStep (port : Nat) (p : Packet) (s : State) : Out :=
  let r := replicaOf s (port / 16) (p.die % 4) (p.slot % 64)
  let s := checkedKick (p.die % 4) (p.slot % 64) p.ctx p.tail.toNat r.version (r.bound && r.ctx = p.ctx)
    (fetchReplica (port / 16) (p.die % 4) (p.slot % 64) s)
  .next (answered port p (answer s p .ack 0 0) s)

/-- A read's line, and the reply that brings it. -/
def readStep (p : Packet) (h : Nat) (s : State) : Packet × State :=
  let d := homeData h (p.addr / 128) (s.mem.line (p.addr / 128)) s
  ({ answer d.2 p .readReply 0 0 with data := d.1, count := p.count }, d.2)

/-- A write's line, and the reply with its tag. -/
def writeStep (p : Packet) (h : Nat) (s : State) : Packet × State :=
  let s := writeLine h (p.addr / 128) p.data p.bmask s
  ({ answer s p .ack 0 0 with linetag := s.tags.get 0 (p.addr / 128) }, s)

/-- An atomic's line, and the reply with what its lanes found. -/
def atomicStep (p : Packet) (h : Nat) (s : State) : Packet × State :=
  let r := applyAtomic h (p.addr / 128) p.cas p.fn p.ty (tySize p.ty) (packetLanes p) s
  (if p.red then answer r.2 p .ack 0 0
    else { answer r.2 p .atomicReply 0 0 with
           linetag := r.2.tags.get 0 (p.addr / 128), lanes := p.lanes.map (fun l => ⟨l.lane, l.off, r.1.get 0 (8 * l.lane), 0⟩) },
    r.2)

theorem exec_fabricRead (s : State) : exec .fabricRead s = received .read s
    (targetStep .fabricRead (fun p => [(p.addr, p.count)]) (·.r) (fun _ => false) readStep) := rfl

theorem exec_fabricWrite (s : State) : exec .fabricWrite s = received .write s
    (targetStep .fabricWrite (fun p => maskSpans p.addr p.bmask) (·.w) (fun p => p.bmask = BitVec.allOnes 128) writeStep) := rfl

theorem exec_fabricAtomic (s : State) : exec .fabricAtomic s = received .atomic s
    (targetStep .fabricAtomic (fun p => (packetLanes p).map (fun a => (a.pa, tySize p.ty))) (·.a) (fun _ => false) atomicStep) := rfl

/-- A remote write's request. -/
def rwriteReq (p : Packet) : LocketReq :=
  { sig := p.sig, width := if p.width = 0 then none else some p.width, lmask := p.lmask, values := p.values }

/-- A token's request. -/
def tokenReq (p : Packet) : LocketReq :=
  { sig := p.sig, scope := some p.scope, lmask := bcastMask p.sig, values := (lanesOf (bcastMask p.sig)).map (fun _ => 1) }

theorem exec_fabricRwrite (s : State) : exec .fabricRwrite s = received .rwrite s (locketStep .fabricRwrite rwriteReq) := rfl

theorem exec_fabricToken (s : State) : exec .fabricToken s = received .token s (locketStep .fabricToken tokenReq) := rfl

theorem exec_fabricKick (s : State) : exec .fabricKick s = received .kick s kickStep := rfl

/-- The events by which requests of other nodes are dealt with, each with the kind of its packets. -/
def requestEvents : List (Instr × PacketKind) :=
  [(.fabricRead, .read), (.fabricWrite, .write), (.fabricAtomic, .atomic), (.fabricRwrite, .rwrite), (.fabricToken, .token),
    (.fabricKick, .kick)]

theorem exec_request {x : Instr × PacketKind} (hx : x ∈ requestEvents) : ∃ f, ∀ s, exec x.1 s = received x.2 s f := by
  simp only [requestEvents, List.mem_cons, List.not_mem_nil, or_false] at hx
  obtain rfl | rfl | rfl | rfl | rfl | rfl := hx
  · exact ⟨_, exec_fabricRead⟩
  · exact ⟨_, exec_fabricWrite⟩
  · exact ⟨_, exec_fabricAtomic⟩
  · exact ⟨_, exec_fabricRwrite⟩
  · exact ⟨_, exec_fabricToken⟩
  · exact ⟨_, exec_fabricKick⟩

/-! ### Resets (R363) -/

/-- The events of resets. -/
theorem exec_resets_none {x : Instr × PacketKind}
    (hx : x ∈ [(Instr.targetPackageReset, PacketKind.resetNotice), (.streamResetAck, .streamResetAck),
      (.fabricStreamResetReceived, .streamReset)]) (h : headOf s x.2 = none) : exec x.1 s = .next s := by
  simp only [List.mem_cons, List.not_mem_nil, or_false] at hx
  obtain rfl | rfl | rfl := hx
  · show execTargetPackageReset s = _
    unfold execTargetPackageReset
    dsimp only at h
    rw [h]
  · show execStreamResetAck s = _
    unfold execStreamResetAck
    dsimp only at h
    rw [h]
  · show execFabricStreamResetReceived s = _
    unfold execFabricStreamResetReceived
    dsimp only at h
    rw [h]

theorem exec_targetPackageReset (h : headOf s .resetNotice = some (port, p)) :
    exec .targetPackageReset s = .next (resetDone p.src (breakStreams p.src (popPacket s))) := by
  show execTargetPackageReset s = _
  unfold execTargetPackageReset
  rw [h]

theorem exec_streamResetAck (h : headOf s .streamResetAck = some (port, p)) :
    exec .streamResetAck s = .next (resetDone p.src (popPacket s)) := by
  show execStreamResetAck s = _
  unfold execStreamResetAck
  rw [h]

theorem exec_streamResetReceived (h : headOf s .streamReset = some (port, p)) : exec .fabricStreamResetReceived s
    = .next (fabricReply port (answer (breakStreams p.src (popPacket s)) p .streamResetAck 0 0)
        (breakStreams p.src (popPacket s))) := by
  show execFabricStreamResetReceived s = _
  unfold execFabricStreamResetReceived
  rw [h]

theorem breakStreams_broken (p : Packet) (s : State) : (breakStreams p.src (popPacket s)).rxPackets = s.rxPackets.drop 1
    ∧ (breakStreams p.src (popPacket s)).nodeId = s.nodeId
    ∧ (breakStreams p.src (popPacket s)).stream p.src = (s.stream p.src).brokenOut.brokenIn := by
  obtain ⟨_, _, _, _, _, _, _, _, _, _, _, hf, -⟩ := breakStreams_frame p.src (popPacket s)
  refine ⟨by rw [hf]; rfl, by rw [hf]; rfl, ?_⟩
  rw [breakStreams_stream, if_pos rfl]
  rfl

end

end Sys2Proof.Machine

namespace Sys2Proof.Machine

/-! ## Requests of other nodes for one line (R65, R81, R91, R358, R359) -/

/-- The event that deals with a request for one line, by the request's kind. -/
def targetEvent (k : PacketKind) : Instr := if k = .read then .fabricRead else if k = .write then .fabricWrite else .fabricAtomic

/-- The bytes that the exports must cover for it. -/
def targetSpans (k : PacketKind) (p : Packet) : List (Nat × Nat) :=
  match k with
  | .read => [(p.addr, p.count)]
  | .write => maskSpans p.addr p.bmask
  | _ => (packetLanes p).map (fun a => (a.pa, tySize p.ty))

/-- The permission that it needs. -/
def targetPerm (k : PacketKind) : Export → Bool :=
  match k with
  | .read => (·.r)
  | .write => (·.w)
  | _ => (·.a)

/-- It writes all of its line. -/
def targetWhole (k : PacketKind) (p : Packet) : Bool :=
  match k with
  | .write => p.bmask = BitVec.allOnes 128
  | _ => false

/-- Its effect at its line, with its reply. -/
def targetAct (k : PacketKind) : Packet → Nat → State → Packet × State :=
  match k with
  | .read => readStep
  | .write => writeStep
  | _ => atomicStep

/-- The exports let the request through. -/
def targetAllowed (s : State) (k : PacketKind) (p : Packet) : Bool :=
  (targetSpans k p).all (fun x => exported s p.src x.1 x.2 (targetPerm k))

section
variable {s : State} {port h : Nat} {p : Packet} {k : PacketKind}

theorem exec_target (hk : k = .read ∨ k = .write ∨ k = .atomic) (s : State) : exec (targetEvent k) s
    = received k s (targetStep (targetEvent k) (targetSpans k) (targetPerm k) (targetWhole k) (targetAct k)) := by
  obtain rfl | rfl | rfl := hk
  · exact exec_fabricRead s
  · exact exec_fabricWrite s
  · exact exec_fabricAtomic s

theorem exported_iff {src : BitVec 16} {a n : Nat} {perm : Export → Bool} : exported s src a n perm = true ↔ ∃ e ∈ s.exports,
    (e.2.any = true ∨ e.2.src = src) ∧ e.2.base ≤ a ∧ a + n ≤ e.2.base + e.2.size ∧ perm e.2 = true := by
  simp [exported, and_assoc]

/-- The exports let a request through that they let reach each of its bytes. -/
theorem targetAllowed_iff (hk : k = .read ∨ k = .write ∨ k = .atomic) : targetAllowed s k p = true ↔
    (k = .read → exported s p.src p.addr p.count (·.r) = true)
      ∧ (k = .write → ∀ i ∈ (List.range 128).filter (fun i => p.bmask.getLsbD i),
        exported s p.src (p.addr / 128 * 128 + i) 1 (·.w) = true)
      ∧ (k = .atomic → ∀ a ∈ packetLanes p, exported s p.src a.pa (tySize p.ty) (·.a) = true) := by
  unfold targetAllowed
  rw [List.all_eq_true]
  obtain rfl | rfl | rfl := hk
  · simp [targetSpans, targetPerm]
  · simp only [targetSpans, maskSpans, List.forall_mem_map, reduceCtorEq, false_implies, true_implies, and_true, true_and]
    rfl
  · simp [targetSpans, targetPerm]

/-! ### Requests that are dealt with (R192) -/

/-- A stream that keeps the number and the reply of a request that has been dealt with. -/
def Stream.dealt (p r : Packet) (st : Stream) : Stream :=
  { st with
    used := true
    seen := (st.seen ++ [p.seq]).drop ((st.seen ++ [p.seq]).length - 4096)
    replies := (st.replies ++ [r]).drop ((st.replies ++ [r]).length - 64) }

/-- What has joined a list that keeps its last few. -/
theorem mem_drop_last {α : Type} (xs : List α) (x : α) {n : Nat} (hn : 0 < n) :
    x ∈ (xs ++ [x]).drop ((xs ++ [x]).length - n) := by
  rw [List.drop_append_of_le_length (by simp; omega)]
  exact List.mem_append_right _ (List.mem_singleton_self x)

/-- A request has been dealt with: its reply is sent and kept, and its number too. -/
theorem answered_told (port : Nat) (p r : Packet) (s : State) :
    (answered port p r s).rxPackets = s.rxPackets.drop 1 ∧ (answered port p r s).txPackets = s.txPackets ++ [(port, r)]
      ∧ p.seq ∈ ((answered port p r s).stream p.src).seen ∧ r ∈ ((answered port p r s).stream p.src).replies := by
  have hstream : (answered port p r s).stream p.src = (s.stream p.src).dealt p r := by
    show ((popPacket s).modStream p.src (Stream.dealt p r)).stream p.src = _
    rw [State.stream_modStream, if_pos rfl]
    rfl
  rw [hstream]
  unfold Stream.dealt
  dsimp only
  refine ⟨rfl, rfl, ?_, ?_⟩
  · exact mem_drop_last (s.stream p.src).seen p.seq (n := 4096) (by norm_num)
  · exact mem_drop_last (s.stream p.src).replies r (n := 64) (by norm_num)

/-- The step of a request that is refused before it leaves for its slice. -/
theorem targetStep_hole {e : Instr} {spans : Packet → List (Nat × Nat)} {perm : Export → Bool} {whole : Packet → Bool}
    {f : Packet → Nat → State → Packet × State} {c : Nat} (hh : remoteHome p.addr p.home = .error c) :
    targetStep e spans perm whole f port p s
      = .next (refused port p (if (spans p).all (fun x => exported s p.src x.1 x.2 perm) then c else tRemote) s) := by
  unfold targetStep
  rw [hh]

theorem targetStep_closed {e : Instr} {spans : Packet → List (Nat × Nat)} {perm : Export → Bool} {whole : Packet → Bool}
    {f : Packet → Nat → State → Packet × State} (ha : (spans p).all (fun x => exported s p.src x.1 x.2 perm) = false)
    (ht : s.tripsOf e = []) : targetStep e spans perm whole f port p s = .next (refused port p tRemote s) := by
  unfold targetStep
  rw [ha, ht]
  split
  · rfl
  · rfl

/-! ### Requests at their slices -/

/-- The state with the record of a request that R91 lets pass. -/
def targetScope (p : Packet) (h : Nat) (s : State) : Option State :=
  match scopeCheck s h (p.addr / 128) 4 0 with
  | .error _ => none
  | .ok s => some s

/-- The refusal of a request by its line's record. -/
def targetRefuse (p : Packet) (h : Nat) (t : Trip) (s : State) : Option State :=
  if p.checked && (targetScope p h s).isNone then some (replyWith t (answer s p .ack 0 tScope) s) else none

/-- The state in which a request has its effect. -/
def targetChecked (p : Packet) (h : Nat) (s : State) : State := if p.checked then (targetScope p h s).getD s else s

/-- A request's turn at its line. -/
def targetLook (whole : Bool) (f : State → Packet × State) (p : Packet) (h : Nat) (t : Trip) (s : State) : Out :=
  if poisoned s (p.addr / 128) && !whole then .next (replyWith t (answer s p .ack 0 tMemory) s)
  else .next (replyWith t (f (targetChecked p h s)).1 (f (targetChecked p h s)).2)

/-- What a request of another node needs of its line. -/
def targetAsk (p : Packet) (h : Nat) : Ask := { home := h, line := p.addr / 128 }

theorem targetStep_goes {e : Instr} {spans : Packet → List (Nat × Nat)} {perm : Export → Bool} {whole : Packet → Bool}
    {f : Packet → Nat → State → Packet × State}
    (ha : (spans p).all (fun x => exported s p.src x.1 x.2 perm) = true ∨ s.tripsOf e ≠ [])
    (hh : remoteHome p.addr p.home = .ok h) : targetStep e spans perm whole f port p s
      = fromIngress e port p ⟨h, p.addr / 128, 1⟩ (fun t s => atSliceWith (targetAsk p h) e s (targetRefuse p h t)
        (targetLook (whole p) (f p h) p h t)) s := by
  have hgo : ((s.tripsOf e).isEmpty && !(spans p).all (fun x => exported s p.src x.1 x.2 perm)) = false := by
    obtain ha | ha := ha
    · rw [ha, Bool.not_true, Bool.and_false]
    · rw [List.isEmpty_eq_false_iff.mpr ha, Bool.false_and]
  unfold targetStep
  rw [hh]
  dsimp only
  rw [hgo]
  rfl

/-- The slice has answered a request of another node with a packet: it is on its way back to the ingress. -/
def State.repliesWith (t s : State) (e : Instr) (x : Trip) (r : Packet) : Prop :=
  t.replyPacket = some r ∧ t.rxPackets = s.rxPackets ∧ t.replies e x (fun y => y.bad = x.bad)

variable {e : Instr} {x : Trip} {n : Nat} {u t : State}

theorem replyWith_replies (hx : x ∈ s.trips) (ht : u.trips = (s.there x n).trips) (hr : u.rxPackets = s.rxPackets) (r : Packet)
    (es : List Instr) : (((replyWith x r u).ahead es).push [e]).repliesWith s e x r :=
  ⟨rfl, hr, (returned_replies (f := fun x => x) (u := { u with replyPacket := some r }) hx ht (fun _ => rfl)
    fun _ hy => hy).before rfl (State.mem_again es)⟩

/-- The state in which a request that has come to its line has its effect. -/
structure State.Turning (s : State) (x : Trip) (n home line : Nat) (v : State) : Prop where
  mem : v.mem = s.mem
  tags : v.tags = s.tags
  node : v.nodeId = s.nodeId
  trips : v.trips = (s.there x n).trips
  rx : v.rxPackets = s.rxPackets
  poison : v.poison = s.poison
  single : mixedHome s home line = false → mixedHome v home line = false

theorem taken_turning (s : State) (p : Packet) (h : Nat) (e : Instr) (x : Trip) (n : Nat) :
    s.Turning x n h (p.addr / 128) ((targetAsk p h).taken e (s.there x n)) := by
  obtain ⟨hs, ht⟩ := (targetAsk p h).taken_homes e (s.there x n)
  have hsingle : mixedHome s h (p.addr / 128) = false → mixedHome ((targetAsk p h).taken e (s.there x n)) h (p.addr / 128) = false :=
    fun hm => (targetAsk p h).taken_single e (s.there x n) hm
  rw [ht] at hsingle ⊢
  exact ⟨rfl, rfl, rfl, rfl, rfl, rfl, hsingle⟩

theorem targetChecked_frame (p : Packet) (h : Nat) (s : State) : ∃ sl, targetChecked p h s = { s with slices := sl } := by
  unfold targetChecked targetScope
  split
  · split
    · exact ⟨_, rfl⟩
    · next hok =>
      obtain ⟨xs, hx⟩ := scopeCheck_of_ok hok
      exact ⟨_, hx⟩
  · exact ⟨_, rfl⟩

theorem State.Turning.checked {line : Nat} (hv : s.Turning x n h line u) (p : Packet) (home : Nat) :
    s.Turning x n h line (targetChecked p home u) := by
  obtain ⟨sl, hsl⟩ := targetChecked_frame p home u
  rw [hsl]
  exact ⟨hv.mem, hv.tags, hv.node, hv.trips, hv.rx, hv.poison, fun hm => hv.single hm⟩

theorem targetRefuse_none (hscope : p.checked = true → s.inScope h (p.addr / 128) 4 0) : targetRefuse p h x s = none := by
  unfold targetRefuse targetScope
  cases hc : p.checked with
  | false => rfl
  | true =>
    obtain ⟨xs, hx⟩ := scopeCheck_ok (hscope hc)
    rw [hx]
    rfl

theorem targetRefuse_some {y : SyncRec} (hy : (s.slice h).sync.find? (fun x => x.line = p.addr / 128) = some y)
    (hc : p.checked = true) (hs : contains 4 0 y.scope y.inst = false) :
    targetRefuse p h x s = some (replyWith x (answer s p .ack 0 tScope) s) := by
  unfold targetRefuse targetScope
  rw [hc, scopeCheck_error hy hs]
  rfl

theorem targetLook_poisoned {f : State → Packet × State} (hs : poisoned s (p.addr / 128) = true) :
    targetLook false f p h x s = .next (replyWith x (answer s p .ack 0 tMemory) s) := by
  unfold targetLook
  rw [hs]
  rfl

theorem targetLook_sound {whole : Bool} {f : State → Packet × State} (hs : poisoned s (p.addr / 128) = false) :
    targetLook whole f p h x s = .next (replyWith x (f (targetChecked p h s)).1 (f (targetChecked p h s)).2) := by
  unfold targetLook
  rw [hs]
  rfl

/-- A packet made of the same request by the same node is the same. -/
theorem answer_eq (hn : u.nodeId = s.nodeId) (p : Packet) (kind : PacketKind) (code fault : Nat) :
    answer u p kind code fault = answer s p kind code fault := by
  unfold answer
  rw [hn]

/-- The reply of a request of another node is back at the ingress, and is sent. -/
theorem fromIngress_home {stop : Stop} {look : Trip → State → Out} {r : Packet} (hb : allBack (s.tripsOf e) [stop] = true)
    (hr : s.replyPacket = some r) : ∃ t, fromIngress e port p stop look s = .next t ∧ (∀ a, t.mem.byte a = s.mem.byte a)
      ∧ (t.rxPackets = s.rxPackets.drop 1 ∧ t.txPackets = s.txPackets ++ [(port, r)] ∧ p.seq ∈ (t.stream p.src).seen
        ∧ r ∈ (t.stream p.src).replies) ∧ t.replyPacket = none ∧ s.tags = t.tags := by
  unfold fromIngress
  rw [journey_home hb, show (s.endTrips e).replyPacket = some r from hr]
  exact ⟨_, rfl, fun _ => rfl, answered_told .., rfl, rfl⟩

section
variable (hk : k = .read ∨ k = .write ∨ k = .atomic) (hhead : headOf s k = some (port, p))
  (he : (s.stream p.src).inEpoch = some p.epoch) (hseen : p.seq ∉ (s.stream p.src).seen)
include hk hhead he hseen

theorem exec_target_fresh : exec (targetEvent k) s
    = targetStep (targetEvent k) (targetSpans k) (targetPerm k) (targetWhole k) (targetAct k) port p s :=
  (exec_target hk s).trans (received_fresh hhead he hseen)

theorem exec_target_closed (ha : targetAllowed s k p = false) (ht : s.tripsOf (targetEvent k) = []) :
    exec (targetEvent k) s = .next (refused port p tRemote s) :=
  (exec_target_fresh hk hhead he hseen).trans (targetStep_closed ha ht)

theorem exec_target_hole {c : Nat} (ha : targetAllowed s k p = true) (hh : remoteHome p.addr p.home = .error c) :
    exec (targetEvent k) s = .next (refused port p c s) := by
  rw [exec_target_fresh hk hhead he hseen, targetStep_hole hh]
  exact congrArg (fun c => Host.Outcome.next (refused port p c s)) (if_pos ha)

variable (ha : targetAllowed s k p = true ∨ s.tripsOf (targetEvent k) ≠ []) (hh : remoteHome p.addr p.home = .ok h)
include ha hh

theorem exec_target_goes : exec (targetEvent k) s = fromIngress (targetEvent k) port p ⟨h, p.addr / 128, 1⟩
    (fun t s => atSliceWith (targetAsk p h) (targetEvent k) s (targetRefuse p h t)
      (targetLook (targetWhole k p) (targetAct k p h) p h t)) s :=
  (exec_target_fresh hk hhead he hseen).trans (targetStep_goes ha hh)

theorem exec_target_leaves {x : Stop} (hl : s.leaves (targetEvent k) (.ingress (port / 16)) [⟨h, p.addr / 128, 1⟩] x) :
    ∃ t, exec (targetEvent k) s = .next t ∧ s.left (targetEvent k) (.ingress (port / 16)) x t := by
  rw [exec_target_goes hk hhead he hseen ha hh]
  exact journey_leaves _ _ hl

theorem exec_target_home (hb : allBack (s.tripsOf (targetEvent k)) [⟨h, p.addr / 128, 1⟩] = true) {r : Packet}
    (hr : s.replyPacket = some r) : ∃ t, exec (targetEvent k) s = .next t ∧ (∀ a, t.mem.byte a = s.mem.byte a)
      ∧ (t.rxPackets = s.rxPackets.drop 1 ∧ t.txPackets = s.txPackets ++ [(port, r)] ∧ p.seq ∈ (t.stream p.src).seen
        ∧ r ∈ (t.stream p.src).replies) ∧ t.replyPacket = none ∧ s.tags = t.tags := by
  rw [exec_target_goes hk hhead he hseen ha hh]
  exact fromIngress_home hb hr

variable (hc : s.comes (targetEvent k) (.ingress (port / 16)) [⟨h, p.addr / 128, 1⟩] x)
  (hb : (s.sline h (p.addr / 128)).state ≠ .busy)
  (hw : (s.sline h (p.addr / 128)).waiters = [] ∨ (s.sline h (p.addr / 128)).waiters.head? = some (targetEvent k))
include hc hb hw

/-- A request whose scope the line's record does not let pass is refused, and nothing else happens. -/
theorem exec_target_refused {y : SyncRec} (hy : (s.slice h).sync.find? (fun x => x.line = p.addr / 128) = some y)
    (hch : p.checked = true) (hs : contains 4 0 y.scope y.inst = false) :
    ∃ t, exec (targetEvent k) s = .next t ∧ (∀ a, t.mem.byte a = s.mem.byte a)
      ∧ t.repliesWith s (targetEvent k) x (answer s p .ack 0 tScope) := by
  rw [exec_target_goes hk hhead he hseen ha hh]
  obtain ⟨n, hn⟩ := journey_comes hc
  obtain ⟨es, hes⟩ := afterTurn_ahead h (p.addr / 128)
    ((targetAsk p h).leave (targetEvent k) (replyWith x (answer (s.there x n) p .ack 0 tScope) (s.there x n)))
  have hturn : (targetAsk p h).turn (targetEvent k) (s.there x n) = true := Ask.turn_of (a := targetAsk p h) hb hw
  refine ⟨_, hn _ _ _ ((atSlice_refused hturn (targetRefuse_some (s := s.there x n) hy hch hs)).trans
    (congrArg Host.Outcome.next hes)), fun _ => rfl, rfl, rfl, ?_⟩
  have := replyWith_replies (u := s.there x n) (e := targetEvent k) (n := n) hc.mem rfl rfl (answer s p .ack 0 tScope) es
  exact this.2.2.before rfl fun _ hi => hi

/-- A request that finds its line in its turn has its effect there. -/
theorem exec_target_turn (hi : (s.sline h (p.addr / 128)).state ≠ .inv) (hu : (s.sline h (p.addr / 128)).uo = 0)
    (hscope : p.checked = true → s.inScope h (p.addr / 128) 4 0) :
    ∃ n, ∀ t, targetLook (targetWhole k p) (targetAct k p h) p h x ((targetAsk p h).taken (targetEvent k) (s.there x n)) = .next t →
      ∃ es, exec (targetEvent k) s = .next ((t.ahead es).push [targetEvent k]) := by
  rw [exec_target_goes hk hhead he hseen ha hh]
  obtain ⟨n, hn⟩ := journey_comes hc
  refine ⟨n, fun t ht => ?_⟩
  have hturn : (targetAsk p h).turn (targetEvent k) (s.there x n) = true := Ask.turn_of (a := targetAsk p h) hb hw
  obtain ⟨es, hes⟩ := atSlice_done (a := targetAsk p h) (refuse := targetRefuse p h x) hturn
    (targetRefuse_none (s := s.there x n) hscope) (Ask.calm_of hu) (.inr hi) ht
  exact ⟨es, hn _ _ _ hes⟩

theorem exec_target_poisoned (hi : (s.sline h (p.addr / 128)).state ≠ .inv) (hu : (s.sline h (p.addr / 128)).uo = 0)
    (hch : p.checked = false) (hpois : poisoned s (p.addr / 128) = true) (hwhole : targetWhole k p = false) :
    ∃ t, exec (targetEvent k) s = .next t ∧ (∀ a, t.mem.byte a = s.mem.byte a)
      ∧ t.repliesWith s (targetEvent k) x (answer s p .ack 0 tMemory) := by
  obtain ⟨n, hn⟩ := exec_target_turn hk hhead he hseen ha hh hc hb hw hi hu (by simp [hch])
  have hv := taken_turning s p h (targetEvent k) x n
  rw [hwhole] at hn
  obtain ⟨es, hes⟩ := hn _ (targetLook_poisoned (by unfold poisoned; rw [hv.poison]; exact hpois))
  rw [answer_eq hv.node] at hes
  exact ⟨_, hes, fun a => congrArg (Memory.byte · a) hv.mem, replyWith_replies hc.mem hv.trips hv.rx _ _⟩

/-- A request that is served finds its line sound and with one home. -/
theorem exec_target_served (hv : s.served h (p.addr / 128) true (targetEvent k))
    (hscope : p.checked = true → s.inScope h (p.addr / 128) 4 0) :
    ∃ n v es, s.Turning x n h (p.addr / 128) v ∧ mixedHome v h (p.addr / 128) = false
      ∧ exec (targetEvent k) s
        = .next (((replyWith x (targetAct k p h v).1 (targetAct k p h v).2).ahead es).push [targetEvent k]) := by
  obtain ⟨n, hn⟩ := exec_target_turn hk hhead he hseen ha hh hc hb hw hv.idle.2 (hv.alone rfl) hscope
  have ht := taken_turning s p h (targetEvent k) x n
  obtain ⟨es, hes⟩ := hn _ (targetLook_sound (by unfold poisoned; rw [ht.poison]; exact hv.sound))
  exact ⟨n, _, es, ht.checked p h, (ht.checked p h).single hv.single, hes⟩

end

end

end Sys2Proof.Machine

namespace Sys2Proof.Machine

/-! ### Reads, writes and atomics of other nodes (R65, R158, R185, R192, R360) -/

section
variable {s : State} {port h : Nat} {p : Packet} {k : PacketKind} {x : Trip} {n : Nat} {v : State}

theorem readStep_single (hv : s.Turning x n h (p.addr / 128) v) (hm : mixedHome v h (p.addr / 128) = false) :
    readStep p h v = ({ answer s p .readReply 0 0 with data := s.mem.line (p.addr / 128), count := p.count }, v) := by
  unfold readStep homeData
  rw [if_neg (by rw [hm]; exact Bool.false_ne_true), ← hv.mem, ← answer_eq hv.node]

/-- A line written is nothing that the fabric's packets show. -/
theorem writeLine_fabric (home line : Nat) (d : LineData) (bm : ByteMask) (s : State) :
    (writeLine home line d bm s).rxPackets = s.rxPackets ∧ (writeLine home line d bm s).nodeId = s.nodeId := by
  unfold writeLine homeData
  dsimp only
  split
  · split
    · exact ⟨rfl, rfl⟩
    · exact ⟨rfl, rfl⟩
  · split
    · exact ⟨rfl, rfl⟩
    · exact ⟨rfl, rfl⟩

/-- The bytes that a write's mask names are written, and no others. -/
theorem writeStep_single (hwf : s.mem.wf = true) (hv : s.Turning x n h (p.addr / 128) v)
    (hm : mixedHome v h (p.addr / 128) = false) : ∃ u, writeStep p h v
        = ({ answer s p .ack 0 0 with linetag := s.tags.get 0 (p.addr / 128) + 1 }, u)
      ∧ u.trips = (s.there x n).trips ∧ u.rxPackets = s.rxPackets
      ∧ u.tags.get 0 (p.addr / 128) = s.tags.get 0 (p.addr / 128) + 1
      ∧ ∀ a, u.mem.byte a = if a / 128 = p.addr / 128 ∧ p.bmask.getLsbD (a % 128) = true
          then p.data.extractLsb' (8 * (a % 128)) 8 else s.mem.byte a := by
  obtain ⟨d, hd, hch⟩ := writeLine_changed h (p.addr / 128) p.data p.bmask v
  rw [hd hm] at hch
  obtain ⟨hrx, hnode⟩ := writeLine_fabric h (p.addr / 128) p.data p.bmask v
  have htag : (writeLine h (p.addr / 128) p.data p.bmask v).tags.get 0 (p.addr / 128) = s.tags.get 0 (p.addr / 128) + 1 := by
    rw [hch.tag.1, hv.tags]
  refine ⟨writeLine h (p.addr / 128) p.data p.bmask v, ?_, hch.trips.trans hv.trips, hrx.trans hv.rx, htag, fun a => ?_⟩
  · unfold writeStep
    dsimp only
    rw [htag, answer_eq (hnode.trans hv.node)]
  · rw [hch.mem, hv.mem, Memory.byte_putLine hwf]
    by_cases ha : a / 128 = p.addr / 128
    · rw [show a - 128 * (p.addr / 128) = a % 128 by omega]
      rfl
    · rw [if_neg (fun c => ha c.1), if_neg (fun c => ha c.1)]

/-- An atomic's lanes are combined one after the other, and its reply has what each found, unless it wants none. -/
theorem atomicStep_single (hv : s.Turning x n h (p.addr / 128) v) (hm : mixedHome v h (p.addr / 128) = false) :
    ∃ r u, atomicStep p h v = (r, u) ∧ u.trips = (s.there x n).trips ∧ u.rxPackets = s.rxPackets
      ∧ u.mem = (packetLanes p).foldl (atomLane p.cas (p.fn % 32) p.ty (tySize p.ty)) s.mem
      ∧ u.tags.get 0 (p.addr / 128) = s.tags.get 0 (p.addr / 128) + 1
      ∧ (p.red = true → r = answer s p .ack 0 0)
      ∧ (p.red = false → r = { answer s p .atomicReply 0 0 with
          linetag := s.tags.get 0 (p.addr / 128) + 1
          lanes := p.lanes.map (fun l => ⟨l.lane, l.off,
            (atomLanes p.cas (p.fn % 32) p.ty (tySize p.ty) (packetLanes p) s.mem []).2.get 0 (8 * l.lane), 0⟩) }) := by
  let res := atomLanes p.cas (p.fn % 32) p.ty (tySize p.ty) (packetLanes p) s.mem []
  obtain ⟨u, hu⟩ : ∃ u, lineChanged h (p.addr / 128) { v with mem := res.1 } = u := ⟨_, rfl⟩
  have hch := lineChanged_changed h (p.addr / 128) res.1 v
  rw [hu] at hch
  have htag := hch.tag.1
  rw [hv.tags] at htag
  have hnode : u.nodeId = s.nodeId := by rw [← hu]; exact hv.node
  have hrx : u.rxPackets = s.rxPackets := by rw [← hu]; exact hv.rx
  have hstep : atomicStep p h v = (if p.red then answer u p .ack 0 0
      else { answer u p .atomicReply 0 0 with
        linetag := u.tags.get 0 (p.addr / 128), lanes := p.lanes.map (fun l => ⟨l.lane, l.off, res.2.get 0 (8 * l.lane), 0⟩) },
      u) := by
    unfold atomicStep
    rw [applyAtomic_single hm, hv.mem, hu]
  rw [htag, answer_eq hnode, answer_eq hnode] at hstep
  refine ⟨_, u, hstep, hch.trips.trans hv.trips, hrx, ?_, htag, fun hr => if_pos hr,
    fun hr => if_neg (by rw [hr]; exact Bool.false_ne_true)⟩
  rw [hch.mem, atomLanes_fst]

/-- What a lane of an atomic has found is in its place of the reply. -/
theorem atomicReply_old {before after : List Acc} {a : Acc} (hl : packetLanes p = before ++ a :: after)
    (ha : a.lane ∉ after.map (·.lane)) (m : Memory) :
    (atomLanes p.cas (p.fn % 32) p.ty (tySize p.ty) (packetLanes p) m []).2.get 0 (8 * a.lane)
      = BitVec.ofNat 64 ((before.foldl (atomLane p.cas (p.fn % 32) p.ty (tySize p.ty)) m).nat a.pa (tySize p.ty)) := by
  unfold Tab.get
  rw [hl, atomLanes_old _ _ _ _ _ _ _ _ _ ha]
  rfl

theorem targetWhole_part (h : k ≠ .write ∨ p.bmask ≠ BitVec.allOnes 128) : targetWhole k p = false := by
  unfold targetWhole
  split
  · exact decide_eq_false (h.resolve_left (not_not_intro rfl))
  · rfl

/-- What a request of another node leaves that is served, by its kind. -/
structure Targeted (s : State) (k : PacketKind) (p : Packet) (x : Trip) (t : State) : Prop where
  read : k = .read → (∀ a, t.mem.byte a = s.mem.byte a) ∧ t.repliesWith s (targetEvent k) x
    { answer s p .readReply 0 0 with data := s.mem.line (p.addr / 128), count := p.count }
  write : k = .write →
    t.repliesWith s (targetEvent k) x { answer s p .ack 0 0 with linetag := s.tags.get 0 (p.addr / 128) + 1 }
      ∧ t.tags.get 0 (p.addr / 128) = s.tags.get 0 (p.addr / 128) + 1
      ∧ ∀ a, t.mem.byte a = if a / 128 = p.addr / 128 ∧ p.bmask.getLsbD (a % 128) = true
          then p.data.extractLsb' (8 * (a % 128)) 8 else s.mem.byte a
  atomic : k = .atomic → t.mem = (packetLanes p).foldl (atomLane p.cas (p.fn % 32) p.ty (tySize p.ty)) s.mem
    ∧ t.tags.get 0 (p.addr / 128) = s.tags.get 0 (p.addr / 128) + 1
    ∧ (p.red = true → t.repliesWith s (targetEvent k) x (answer s p .ack 0 0))
    ∧ (p.red = false → t.repliesWith s (targetEvent k) x { answer s p .atomicReply 0 0 with
        linetag := s.tags.get 0 (p.addr / 128) + 1
        lanes := p.lanes.map (fun l => ⟨l.lane, l.off,
          (atomLanes p.cas (p.fn % 32) p.ty (tySize p.ty) (packetLanes p) s.mem []).2.get 0 (8 * l.lane), 0⟩) })

theorem target_served (hk : k = .read ∨ k = .write ∨ k = .atomic) (hwf : s.mem.wf = true) (hx : x ∈ s.trips)
    (hv : s.Turning x n h (p.addr / 128) v) (hm : mixedHome v h (p.addr / 128) = false) (es : List Instr) :
    Targeted s k p x (((replyWith x (targetAct k p h v).1 (targetAct k p h v).2).ahead es).push [targetEvent k]) := by
  obtain rfl | rfl | rfl := hk
  · rw [show targetAct .read p h v = _ from readStep_single hv hm]
    exact ⟨fun _ => ⟨fun a => congrArg (Memory.byte · a) hv.mem, replyWith_replies hx hv.trips hv.rx _ es⟩,
      nofun, nofun⟩
  · obtain ⟨u, hu, htrips, hrx, htag, hmem⟩ := writeStep_single hwf hv hm
    rw [show targetAct .write p h v = _ from hu]
    exact ⟨nofun, fun _ => ⟨replyWith_replies hx htrips hrx _ es, htag, hmem⟩, nofun⟩
  · obtain ⟨r, u, hu, htrips, hrx, hmem, htag, hred, hfull⟩ := atomicStep_single hv hm
    rw [show targetAct .atomic p h v = _ from hu]
    refine ⟨nofun, nofun, fun _ => ⟨hmem, htag, fun hr => ?_, fun hr => ?_⟩⟩
    · rw [← hred hr]
      exact replyWith_replies hx htrips hrx r es
    · rw [← hfull hr]
      exact replyWith_replies hx htrips hrx r es

end

end Sys2Proof.Machine

namespace Sys2Proof.Machine

/-! ## Kicks of other nodes (R342, R376, R377) -/

section
variable {s : State} {port d n value : Nat} {p : Packet}

/-- A kick at its slot's owner: it has moved the kick register, or has been counted as foreign. -/
structure State.Kicked (s : State) (d n value : Nat) (ours : Bool) (t : State) : Prop where
  frame : ∃ a f k ds, t = { s with agenda := a, free := f, tick := k, dies := ds }
  replicas : ∀ i, (t.die i).replicas = (s.die i).replicas
  taken : ours = true → (t.queue d n).kick = max (s.queue d n).kick value ∧ .queueCommandPull d n ∈ t.agenda
  foreign : ours = false → (t.queue d n).kick = (s.queue d n).kick ∧ (t.die d).foreignKicks = (s.die d).foreignKicks + 1

theorem State.replicas_modDie {f : Die → Die} (hf : ∀ x, (f x).replicas = x.replicas) (d i : Nat) :
    ((s.modDie d f).die i).replicas = (s.die i).replicas := by
  rw [State.die_modDie]
  split
  · next h => rw [hf, h]
  · rfl

theorem replicas_modQueue (d n : Nat) (f : QueueRec → QueueRec) (s : State) (i : Nat) :
    ((modQueue d n f s).die i).replicas = (s.die i).replicas := State.replicas_modDie (by intro _; rfl) d i

/-- A die that has counted a foreign kick. -/
def Die.foreignKick (x : Die) : Die := { x with foreignKicks := x.foreignKicks + 1 }

/-- A record that has taken the error of a foreign kick. -/
def QueueRec.foreignKick (c : Nat) (q : QueueRec) : QueueRec := { q with err := errTake q.err 10 c }

theorem kickOwner_foreign (d n value : Nat) (s : State) : kickOwner d n value false s
    = if (s.queue d n).state ≠ 0 then
        modQueue d n (QueueRec.foreignKick (s.modDie d Die.foreignKick).fresh.1) (s.modDie d Die.foreignKick).fresh.2
      else s.modDie d Die.foreignKick := rfl

theorem kickOwner_kicked (d n value : Nat) (ours : Bool) (s : State) : s.Kicked d n value ours (kickOwner d n value ours s) := by
  cases ours with
  | true => exact ⟨⟨_, _, _, _, rfl⟩, fun i => replicas_modQueue d n _ s i, fun _ => ⟨(mergeKick_queue d n value s).1,
      List.mem_append_right _ (List.mem_singleton_self _)⟩, nofun⟩
  | false =>
    have hkick (i j : Nat) : (s.modDie d Die.foreignKick).queue i j = s.queue i j := State.queue_modDie (by intro _; rfl) d i j
    have hcount : ((s.modDie d Die.foreignKick).die d).foreignKicks = (s.die d).foreignKicks + 1 := by
      rw [State.die_modDie, if_pos rfl]
      rfl
    have hrep (i : Nat) : ((s.modDie d Die.foreignKick).die i).replicas = (s.die i).replicas :=
      State.replicas_modDie (by intro _; rfl) d i
    rw [kickOwner_foreign]
    split
    · let u := (s.modDie d Die.foreignKick).fresh
      refine ⟨⟨_, _, _, _, rfl⟩, fun i => (replicas_modQueue d n _ u.2 i).trans (hrep i), nofun, fun _ => ⟨?_, ?_⟩⟩
      · have h := queue_modQueue (s := u.2) d n (QueueRec.foreignKick u.1) d n
        rw [if_pos ⟨rfl, rfl⟩] at h
        have hsame : (u.2.queue d n).kick = (s.queue d n).kick := congrArg QueueRec.kick (hkick d n)
        exact (congrArg QueueRec.kick h).trans hsame
      · unfold modQueue
        rw [State.die_modDie, if_pos rfl]
        exact hcount
    · exact ⟨⟨_, _, _, _, rfl⟩, hrep, nofun, fun _ => ⟨congrArg QueueRec.kick (hkick d n), hcount⟩⟩

/-- A checked kick is one that its owner's record or a replica as new as it calls its own. -/
theorem checkedKick_eq (d n ctx value : Nat) (version : BitVec 16) (ours : Bool) (s : State) :
    checkedKick d n ctx value version ours s = kickOwner d n value
      (if version = (s.queue d n).version then ours else (s.queue d n).state ≠ 0 && (s.queue d n).ctx = ctx) s := by
  unfold checkedKick kickSlot
  split
  · rfl
  · rfl

/-- The die's replica of a queue's record as it is checked against. -/
def replicaNow (s : State) (port d n : Nat) : Replica :=
  ((s.die (port / 16)).replicas.find? (64 * d + n)).getD
    { version := (s.queue d n).version, bound := (s.queue d n).state ≠ 0, ctx := (s.queue d n).ctx }

theorem replicaOf_eq (s : State) (port d n : Nat) : replicaOf s (port / 16) d n = replicaNow s port d n := by
  unfold replicaOf replicaNow replicaIndex
  cases (s.die (port / 16)).replicas.find? (64 * d + n) <;> rfl

/-- A die with a replica of a record. -/
def Die.withReplica (i : Nat) (r : Replica) (x : Die) : Die := { x with replicas := x.replicas.set i r }

theorem fetchReplica_eq (s : State) (port d n : Nat) : fetchReplica (port / 16) d n s
    = s.modDie (port / 16) (Die.withReplica (64 * d + n) (replicaNow s port d n)) := by
  unfold fetchReplica
  rw [replicaOf_eq]
  rfl

/-- A kick is one of the queue's own: so says a replica as new as the record, or else the record. -/
def kickOurs (s : State) (port : Nat) (p : Packet) : Prop :=
  if (replicaNow s port (p.die % 4) (p.slot % 64)).version = (s.queue (p.die % 4) (p.slot % 64)).version then
    (replicaNow s port (p.die % 4) (p.slot % 64)).bound = true ∧ (replicaNow s port (p.die % 4) (p.slot % 64)).ctx = p.ctx
  else (s.queue (p.die % 4) (p.slot % 64)).state ≠ 0 ∧ (s.queue (p.die % 4) (p.slot % 64)).ctx = p.ctx

theorem kickStep_told (port : Nat) (p : Packet) (s : State) : ∃ t, kickStep port p s = .next t
    ∧ (t.rxPackets = s.rxPackets.drop 1 ∧ t.txPackets = s.txPackets ++ [(port, answer s p .ack 0 0)]
      ∧ p.seq ∈ (t.stream p.src).seen ∧ answer s p .ack 0 0 ∈ (t.stream p.src).replies)
    ∧ (∀ a, t.mem.byte a = s.mem.byte a)
    ∧ (t.die (port / 16)).replicas.find? (64 * (p.die % 4) + p.slot % 64) = some (replicaNow s port (p.die % 4) (p.slot % 64))
    ∧ (kickOurs s port p → (t.queue (p.die % 4) (p.slot % 64)).kick = max (s.queue (p.die % 4) (p.slot % 64)).kick p.tail.toNat
      ∧ .queueCommandPull (p.die % 4) (p.slot % 64) ∈ t.agenda)
    ∧ (¬ kickOurs s port p → (t.queue (p.die % 4) (p.slot % 64)).kick = (s.queue (p.die % 4) (p.slot % 64)).kick
      ∧ (t.die (p.die % 4)).foreignKicks = (s.die (p.die % 4)).foreignKicks + 1) := by
  let r := replicaNow s port (p.die % 4) (p.slot % 64)
  let w := s.modDie (port / 16) (Die.withReplica (64 * (p.die % 4) + p.slot % 64) r)
  have hqueue (i j : Nat) : w.queue i j = s.queue i j := State.queue_modDie (by intro _; rfl) (port / 16) i j
  have hforeign : (w.die (p.die % 4)).foreignKicks = (s.die (p.die % 4)).foreignKicks := by
    rw [State.die_modDie]
    split
    · next h => rw [h]; rfl
    · rfl
  have hrep : (w.die (port / 16)).replicas.find? (64 * (p.die % 4) + p.slot % 64) = some r := by
    rw [State.die_modDie, if_pos rfl]
    exact Tab.find?_set_self ..
  obtain ⟨b, hb⟩ : ∃ b : Bool, (if r.version = (w.queue (p.die % 4) (p.slot % 64)).version then r.bound && r.ctx = p.ctx
    else (w.queue (p.die % 4) (p.slot % 64)).state ≠ 0 && (w.queue (p.die % 4) (p.slot % 64)).ctx = p.ctx) = b := ⟨_, rfl⟩
  have hours : b = true ↔ kickOurs s port p := by
    rw [← hb, hqueue]
    unfold kickOurs
    split <;> simp [r]
  obtain ⟨t, ht⟩ : ∃ t, kickOwner (p.die % 4) (p.slot % 64) p.tail.toNat b w = t := ⟨_, rfl⟩
  have hk := kickOwner_kicked (p.die % 4) (p.slot % 64) p.tail.toNat b w
  rw [ht] at hk
  have hstep : kickStep port p s = .next (answered port p (answer t p .ack 0 0) t) := by
    unfold kickStep
    dsimp only
    rw [replicaOf_eq, fetchReplica_eq, checkedKick_eq, hb, ht]
  obtain ⟨a, f, k, ds, hf⟩ := hk.frame
  have hans : answer t p .ack 0 0 = answer s p .ack 0 0 := answer_eq (by rw [hf]; rfl) ..
  have hrx : t.rxPackets = s.rxPackets := by rw [hf]; rfl
  have htx : t.txPackets = s.txPackets := by rw [hf]; rfl
  have hmem : t.mem = s.mem := by rw [hf]; rfl
  clear hf
  rw [hans] at hstep
  have htold := answered_told port p (answer s p .ack 0 0) t
  rw [hrx, htx] at htold
  refine ⟨_, hstep, htold, fun a => congrArg (Memory.byte · a) hmem, ?_, fun ho => ?_, fun ho => ?_⟩
  · exact (congrArg (Tab.find? · _) (hk.replicas (port / 16))).trans hrep
  · obtain ⟨h1, h2⟩ := hk.taken (hours.mpr ho)
    rw [hqueue] at h1
    exact ⟨h1, h2⟩
  · obtain ⟨h1, h2⟩ := hk.foreign (by rw [← Bool.not_eq_true, hours]; exact ho)
    rw [hqueue] at h1
    exact ⟨h1, h2.trans (congrArg (· + 1) hforeign)⟩

end

end Sys2Proof.Machine

namespace Sys2Proof.Machine

/-! ## Replies to this node's requests (R192, R360) -/

section
variable {s t : State} {u : Unacked} {r : Packet} {o : Op} {p : Part}

theorem endWait_aside (q : SplitRef) (s : State) : s.Aside (endWait q s) := modSplit_aside ..

theorem abandon_aside (id : Nat) (s : State) : s.Aside (abandon id s) := ⟨⟨_, _, _, _, _, _, _, _, _, rfl⟩, fun _ => rfl⟩

theorem refuseFetch_aside (id : Nat) (o : Op) (code : Nat) (s : State) : s.Aside (refuseFetch id o code s) := by
  have h (x : Trap) : s.Aside { raiseTrap o.ref x (abandon id (endWait o.ref s)) with cur := s.cur } :=
    ((endWait_aside _ s).trans (abandon_aside _ _)).trans ((raiseTrap_aside ..).trans (withCur_aside _ _))
  unfold refuseFetch
  exact .cond ((modOp_aside _ _ s).trans (push_aside _ _)) (h _)

theorem refusePart_aside (q : Req) (cls code : Nat) (addr : Dword) (lmask : Mask) (aux : Dword) (s : State) :
    s.Aside (refusePart q cls code addr lmask aux s) := by
  unfold refusePart
  split
  · exact .refl s
  · exact .cond (refuseFetch_aside ..) ((modOp_aside _ _ s).trans (faultOp_aside ..))

theorem replyFault_aside (u : Unacked) (o : Op) (p : Part) (fault : Nat) (s : State) : s.Aside (replyFault u o p fault s) := by
  unfold replyFault
  exact .cond (copyAnswered_aside ..) (.cond (dropOp_aside ..) (.cond (partDone_aside ..) (refusePart_aside ..)))

/-- A reply leaves everything but operations, and what they leave as it was. -/
theorem replyTo_aside (u : Unacked) (r : Packet) (s : State) : s.Aside (replyTo u r s) := by
  unfold replyTo
  split
  · exact .refl s
  · split
    · exact .refl s
    · refine .cond (replyFault_aside ..) ?_
      split
      · exact copyAnswered_aside ..
      · exact dropOp_aside ..
      case h_3 | h_4 => exact (modOp_aside _ _ s).trans (partDone_aside ..)
      case h_5 | h_6 => exact (modOp_aside _ _ s).trans (partDone_aside ..)
      · exact partDone_aside ..

/-! ### The operation that asked -/

theorem replyTo_eq (ho : s.ops.find? u.op = some o) (hp : o.parts[u.part]? = some p) : replyTo u r s
    = if r.fault ≠ 0 then replyFault u o p r.fault s
      else match o.kind with
        | .copy => copyAnswered u.op u.seq r.data r.code 0 s
        | .kick => s.dropOp u.op
        | .rwr | .ksend => replyCode u.op r.code s
        | .atomic | .atomc => partDone u.op u.part (fun p => { p with tag := r.linetag }) (s.modOp u.op (fun o' =>
            { o' with data := r.lanes.foldl (fun t l => t.set (8 * l.lane) l.b) o.data }))
        | _ => partDone u.op u.part (fun p => { p with ldata := r.data, tag := r.linetag }) s := by
  unfold replyTo
  rw [ho]
  dsimp only
  rw [hp] <;> rfl

/-- An operation keeps its first fault. -/
theorem faultOp_first {id cls code : Nat} {addr : Dword} {m : Mask} {aux : Dword} (ho : s.ops.find? id = some o) :
    ((faultOp id cls code addr m aux s).ops.find? id).map (·.fault) = some (o.fault <|> some ⟨cls, code, addr, m, aux, o.pc⟩) := by
  obtain ⟨-, hops⟩ := raiseTrap_keeps o.ref ⟨cls, code, addr, m, aux, o.pc⟩
    (s.modOp id (fun o' => { o' with fault := o'.fault <|> some ⟨cls, code, addr, m, aux, o.pc⟩ }))
  have hop : ((s.modOp id (fun o' => { o' with fault := o'.fault <|> some ⟨cls, code, addr, m, aux, o.pc⟩ })).ops.find? id).map (·.fault)
      = some (o.fault <|> some ⟨cls, code, addr, m, aux, o.pc⟩) := by
    rw [State.find?_modOp, if_pos rfl, ho]
    rfl
  rw [← hops] at hop
  unfold faultOp
  rw [ho]
  dsimp only
  split
  · exact hop
  · exact hop

/-- A refused request ends its operation with the fault that the target names. -/
theorem replyTo_fault (ho : s.ops.find? u.op = some o) (hp : o.parts[u.part]? = some p) (hf : r.fault ≠ 0) (hc : o.kind ≠ .copy)
    (hk : o.kind ≠ .kick) (hpref : o.kind ≠ .pref) (hfetch : o.kind ≠ .fetch) :
    ((replyTo u r s).ops.find? u.op).map (·.fault)
      = some (o.fault <|> some ⟨3, r.fault, lineAddr p.line, lineMask o p.key, 0, o.pc⟩) := by
  rw [replyTo_eq ho hp, if_pos hf]
  unfold replyFault refusePart
  rw [if_neg hc, if_neg hk, if_neg hpref]
  dsimp only
  rw [ho]
  dsimp only
  rw [if_neg hfetch]
  refine faultOp_first (o := { o with parts := o.parts.modify u.part (fun p => { p with
    sent := false, fill := false, gather := false, check := false, bad := true, refusal := none }) }) ?_
  unfold State.modPart
  rw [State.find?_modOp, if_pos rfl, ho]
  rfl

theorem replyTo_kick (ho : s.ops.find? u.op = some o) (hp : o.parts[u.part]? = some p) (hk : o.kind = .kick) :
    (replyTo u r s).ops.find? u.op = none := by
  have hdrop : (s.dropOp u.op).ops.find? u.op = none := (State.find?_dropOp ..).trans (if_pos rfl)
  rw [replyTo_eq ho hp]
  split
  · unfold replyFault
    rw [hk]
    exact hdrop
  · rw [hk]
    exact hdrop

/-- The reply of a load or a store reaches its part. -/
theorem replyTo_line (ho : s.ops.find? u.op = some o) (hp : o.parts[u.part]? = some p) (hf : r.fault = 0)
    (hk : o.kind = .load ∨ o.kind = .storeT) :
    (replyTo u r s).answered u.op u.part (fun q => q.ldata = r.data ∧ q.tag = r.linetag) := by
  have hreq : s.reqPart ⟨u.op, u.part⟩ = some (o, p) := State.reqPart_eq_some.mpr ⟨ho, hp⟩
  have hdone := partDone_answered (f := fun p => { p with ldata := r.data, tag := r.linetag })
    (q := fun q => q.ldata = r.data ∧ q.tag = r.linetag) hreq ⟨rfl, rfl⟩
  rw [replyTo_eq ho hp, if_neg (not_not_intro hf)]
  obtain hk | hk := hk
  · rw [hk]
    exact hdone
  · rw [hk]
    exact hdone

theorem replyTo_code (ho : s.ops.find? u.op = some o) (hp : o.parts[u.part]? = some p) (hf : r.fault = 0)
    (hk : o.kind = .rwr ∨ o.kind = .ksend) : ((replyTo u r s).ops.find? u.op).map (fun o => (o.code, o.data.get 0 0))
      = some (r.code, BitVec.ofNat 64 r.code) := by
  obtain ⟨hlt, -⟩ := List.getElem?_eq_some_iff.mp hp
  have hreq : s.reqPart ⟨u.op, 0⟩ = some (o, o.parts[0]) :=
    State.reqPart_eq_some.mpr ⟨ho, List.getElem?_eq_getElem (Nat.zero_lt_of_lt hlt)⟩
  have htells := (replyCode_tells r.code hreq).2
  rw [replyTo_eq ho hp, if_neg (not_not_intro hf)]
  obtain hk | hk := hk
  · rw [hk]
    exact htells
  · rw [hk]
    exact htells

/-- Lanes of an atomic's reply put into the data of the operation: each lane's own, where no two are of one lane. -/
theorem lanesData_get (ls : List AtomLane) (t : Tab Dword) (hn : (ls.map (·.lane)).Nodup) :
    ∀ l ∈ ls, (ls.foldl (fun t l => t.set (8 * l.lane) l.b) t).get 0 (8 * l.lane) = l.b := by
  induction ls using List.reverseRecOn with
  | nil => exact nofun
  | append_singleton ls x ih =>
    rw [List.map_append, List.nodup_append] at hn
    obtain ⟨hls, -, hdisj⟩ := hn
    intro l hl
    rw [List.foldl_append, List.foldl_cons, List.foldl_nil, Tab.get_set]
    obtain hl | hl := List.mem_append.mp hl
    · rw [if_neg, ih hls l hl]
      intro h8
      exact hdisj l.lane (List.mem_map_of_mem hl) x.lane (List.mem_singleton_self _) (by omega)
    · rw [List.mem_singleton.mp hl, if_pos rfl]

theorem replyTo_atomic (ho : s.ops.find? u.op = some o) (hp : o.parts[u.part]? = some p) (hf : r.fault = 0)
    (hk : o.kind = .atomic ∨ o.kind = .atomc) : (replyTo u r s).answered u.op u.part (fun q => q.tag = r.linetag)
      ∧ ((r.lanes.map (·.lane)).Nodup → ∀ l ∈ r.lanes,
        ((replyTo u r s).ops.find? u.op).map (fun o => o.data.get 0 (8 * l.lane)) = some l.b) := by
  let f : Op → Op := fun o' => { o' with data := r.lanes.foldl (fun t l => t.set (8 * l.lane) l.b) o.data }
  have hreq : (s.modOp u.op f).reqPart ⟨u.op, u.part⟩ = some (f o, p) := by
    refine State.reqPart_eq_some.mpr ⟨?_, hp⟩
    rw [State.find?_modOp, if_pos rfl, ho]
    rfl
  have heq : replyTo u r s = partDone u.op u.part (fun p => { p with tag := r.linetag }) (s.modOp u.op f) := by
    rw [replyTo_eq ho hp, if_neg (not_not_intro hf)]
    obtain hk | hk := hk
    · rw [hk]
    · rw [hk]
  rw [heq]
  refine ⟨partDone_answered (f := fun p => { p with tag := r.linetag }) hreq rfl, fun hn l hl => ?_⟩
  have hop : (partDone u.op u.part (fun p => { p with tag := r.linetag }) (s.modOp u.op f)).ops.find? u.op
      = some { f o with parts := o.parts.modify u.part (fun p => { p with tag := r.linetag, done := true }) } := answerPart_op hreq
  rw [hop]
  exact congrArg some (lanesData_get r.lanes o.data hn l hl)

/-! ### Replies as they come in -/

/-- The state in which the reply of a request reaches its operation: no one waits for the reply any more. -/
def replyStart (r : Packet) (s : State) : State :=
  ((popPacket s).modStream r.src (fun st => { st with unacked := st.unacked.filter (fun x => x.seq ≠ r.seq) })).cancel
    (.fabricRetransmitTimeout r.src r.seq)

variable {port : Nat} {rest : List (Nat × Packet)}

theorem exec_replyArrival (hrx : s.rxPackets = (port, r) :: rest) (hk : r.kind = .readReply ∨ r.kind = .atomicReply ∨ r.kind = .ack) :
    exec .fabricReplyArrival s = .next (takeReply r (popPacket s)) := by
  show execFabricReplyArrival s = _
  unfold execFabricReplyArrival
  rw [hrx]
  dsimp only
  obtain hk | hk | hk := hk
  · rw [hk]
  · rw [hk]
  · rw [hk]

theorem exec_replyArrival_other (hrx : s.rxPackets = (port, r) :: rest) (hr : r.kind ≠ .readReply) (ha : r.kind ≠ .atomicReply)
    (hk : r.kind ≠ .ack) : exec .fabricReplyArrival s = .next s := by
  show execFabricReplyArrival s = _
  unfold execFabricReplyArrival
  rw [hrx]
  dsimp only
  split
  · next h => exact absurd h hr
  · next h => exact absurd h ha
  · next h => exact absurd h hk
  · rfl

theorem exec_replyArrival_none (hrx : s.rxPackets = []) : exec .fabricReplyArrival s = .next s := by
  show execFabricReplyArrival s = _
  unfold execFabricReplyArrival
  rw [hrx]

theorem takeReply_none (h : (s.stream r.src).unacked.find? (fun u => u.seq = r.seq) = none) :
    takeReply r (popPacket s) = popPacket s := by
  unfold takeReply
  rw [show (popPacket s).stream r.src = s.stream r.src from rfl, h]

theorem takeReply_some (h : (s.stream r.src).unacked.find? (fun u => u.seq = r.seq) = some u) :
    takeReply r (popPacket s) = replyTo u r (replyStart r s) := by
  unfold takeReply
  rw [show (popPacket s).stream r.src = s.stream r.src from rfl, h]
  rfl

end

end Sys2Proof.Machine

namespace Sys2Proof.Machine

/-! ## Requests of other nodes for lockets (R58, R113, R207, R214, R359) -/

section
variable {s t u v : State} {q : LocketReq} {e : Instr} {done bad : Nat → State → Out} {D : Nat → State → State}

/-! ### A request's turn at its anchor slice -/

theorem locketTurn_eq (e : Instr) (q : LocketReq) (s : State) (done bad : Nat → State → Out) : locketTurn e q s done bad
    = anchorTurn e (anchorSlice q.sig) (sigBase q.sig) [2 * sigLocket q.sig, 2 * sigLocket q.sig + 1] (locketLooks s q) s
      (locketBody q (signetCode s q) (locketLooks s q) done bad) := rfl

/-- The state in which a request that does not look at the saved area has its turn. -/
def unlookedTurn (e : Instr) (g : BitVec 128) (s : State) : State :=
  blindTurn e (anchorSlice g) (sigBase g) [2 * sigLocket g, 2 * sigLocket g + 1] s

theorem locketTurn_unlooks (hlook : locketLooks s q = false)
    (hb : (s.sline (anchorSlice q.sig) (sigBase q.sig / 128 + 64)).state ≠ .busy)
    (hw : (s.sline (anchorSlice q.sig) (sigBase q.sig / 128 + 64)).waiters = []
      ∨ (s.sline (anchorSlice q.sig) (sigBase q.sig / 128 + 64)).waiters.head? = some e)
    (hk : locketBody q (signetCode s q) false done bad (unlookedTurn e q.sig s) = .next t) :
    ∃ es, locketTurn e q s done bad = .next (t.ahead es) := by
  have hj := sigLocket_lt q.sig
  obtain ⟨es, hes⟩ := afterTurn_ahead (anchorSlice q.sig) (sigBase q.sig / 128 + 64) t
  refine ⟨es, ?_⟩
  rw [locketTurn_eq, hlook, ← hes]
  refine anchorTurn_blind ?_ hb hw hk
  simp only [List.mem_cons, List.not_mem_nil, or_false]
  omega

/-- The state in which a request that looks at the saved area has its turn. -/
def lookedTurn (e : Instr) (q : LocketReq) (s : State) : State := turns false e (inOrder (signetLines q)) s

theorem locketTurn_looks (hcode : signetCode s q = 0)
    (hr : resRecord s (anchorSlice q.sig) (sigCtx q.sig) (sigBase q.sig) = none) (hi : ∀ x ∈ signetLines q, s.Idle e x)
    (hk : locketBody q 0 true done bad (lookedTurn e q s) = .next t) : ∃ es, locketTurn e q s done bad = .next (t.ahead es) := by
  have hj := sigLocket_lt q.sig
  rw [locketTurn_eq, locketLooks_true hcode hr, hcode]
  refine anchorTurn_looks ?_ (fun i hi' => hi _ (List.mem_map_of_mem hi')) hk
  simp only [List.nodup_cons, List.mem_cons, List.not_mem_nil, or_false, not_false_eq_true, List.nodup_nil, and_true]
  omega

/-! ### Its code, and its effect -/

/-- What a request leaves that has a code: its effect, or nothing. -/
def signetEffect (q : LocketReq) (code : Nat) (u : State) : State := if code = 0 then applySignet q u else u

theorem verifySignet_refused (h : signetCode s q ≠ 0) : verifySignet s q = signetCode s q := if_pos h

theorem verifySignet_passes (h : signetCode s q = 0) : verifySignet s q
    = if sigLatest q.sig = false ∧ (fullMask s (anchorSlice q.sig) (sigCtx q.sig) (sigBase q.sig)).getLsbD (sigLocket q.sig) = true
      then 3 else 0 := by
  unfold verifySignet
  dsimp only
  rw [if_neg (not_not_intro h), strictlyFull_eq]
  exact if_congr decide_eq_true_iff rfl rfl

theorem effect_of_strict {P : Prop} [Decidable P] (hd : ∀ c u, done c u = .next (D c u)) :
    (if P then done 3 u else done 0 (applySignet q u))
      = .next (D (if P then 3 else 0) (signetEffect q (if P then 3 else 0) u)) := by
  split
  · exact hd 3 u
  · exact hd 0 (applySignet q u)

/-- A request that is refused before it looks at the area, or reaches a resident warp, is answered with its code. -/
theorem locketTurn_unlooked (hd : ∀ c u, done c u = .next (D c u))
    (hlook : signetCode s q ≠ 0 ∨ resRecord s (anchorSlice q.sig) (sigCtx q.sig) (sigBase q.sig) ≠ none)
    (hb : (s.sline (anchorSlice q.sig) (sigBase q.sig / 128 + 64)).state ≠ .busy)
    (hw : (s.sline (anchorSlice q.sig) (sigBase q.sig / 128 + 64)).waiters = []
      ∨ (s.sline (anchorSlice q.sig) (sigBase q.sig / 128 + 64)).waiters.head? = some e) :
    ∃ u es, s.Turned u ∧ locketTurn e q s done bad
      = .next ((D (verifySignet s q) (signetEffect q (verifySignet s q) u)).ahead es) := by
  have hturned : s.Turned (unlookedTurn e q.sig s) := blindTurn_turned ..
  suffices h : locketBody q (signetCode s q) false done bad (unlookedTurn e q.sig s)
      = .next (D (verifySignet s q) (signetEffect q (verifySignet s q) (unlookedTurn e q.sig s))) by
    obtain ⟨es, hes⟩ := locketTurn_unlooks (locketLooks_false hlook) hb hw h
    exact ⟨_, es, hturned, hes⟩
  by_cases hcode : signetCode s q = 0
  · rw [hcode, locketBody_resident, fullMask_congr (hturned.res _) hturned.mem, effect_of_strict hd, ← verifySignet_passes hcode]
  · rw [locketBody_refused hcode, verifySignet_refused hcode, hd, signetEffect, if_neg hcode]

/-- A request for a saved area, in its turn at its lines, is answered with its code. -/
theorem locketTurn_saved (hd : ∀ c u, done c u = .next (D c u)) (hcode : signetCode s q = 0)
    (hr : resRecord s (anchorSlice q.sig) (sigCtx q.sig) (sigBase q.sig) = none) (hv : s.servedAll (signetLines q) e) :
    ∃ u es, s.Turned u ∧ Steady (signetLines q) u ∧ locketTurn e q s done bad
      = .next ((D (verifySignet s q) (signetEffect q (verifySignet s q) u)).ahead es) := by
  have hturned : s.Turned (lookedTurn e q s) := turns_turned ..
  have hsteady : Steady (signetLines q) (lookedTurn e q s) := Steady.turns hv.one (fun x hx => mem_inOrder.mp hx) hv.steady
  have hpoison (x : Nat × Nat) (hx : x ∈ signetLines q) : poisoned (lookedTurn e q s) x.2 = false := by
    unfold poisoned
    rw [hturned.poison]
    exact (hv.each x hx).sound
  have hsaved : savedFulls (anchorSlice q.sig) (sigBase q.sig) (lookedTurn e q s)
      = (fullMask s (anchorSlice q.sig) (sigCtx q.sig) (sigBase q.sig), lookedTurn e q s) := by
    rw [savedFulls_single (hsteady.single (x := (_, _)) (List.mem_map_of_mem (List.mem_cons_self ..))) (sigBase_block _).2,
      ← fullMask_saved ((resRecord_congr (hturned.res _)).trans hr), fullMask_congr (hturned.res _) hturned.mem]
  have hbody := locketBody_saved (done := done) (bad := bad) (editRefused_sound hpoison) hsaved
  rw [effect_of_strict hd, ← verifySignet_passes hcode] at hbody
  obtain ⟨es, hes⟩ := locketTurn_looks hcode hr (fun x hx => (hv.each x hx).idleAt) hbody
  exact ⟨_, es, hturned, hsteady, hes⟩

/-- A poisoned word of saved full bits refuses a request. -/
theorem locketTurn_poisoned {B : Nat → State → State} (hd : ∀ l u, bad l u = .next (B l u)) (hcode : signetCode s q = 0)
    (hr : resRecord s (anchorSlice q.sig) (sigCtx q.sig) (sigBase q.sig) = none) (hi : ∀ x ∈ signetLines q, s.Idle e x)
    (hp : poisoned s (sigBase q.sig / 128 + 64) = true) :
    ∃ u l es, s.Turned u ∧ locketTurn e q s done bad = .next ((B l u).ahead es) := by
  have hturned : s.Turned (lookedTurn e q s) := turns_turned ..
  have hpois : poisoned (lookedTurn e q s) (sigBase q.sig / 128 + 64) = true := by
    unfold poisoned
    rw [hturned.poison]
    exact hp
  obtain ⟨es, hes⟩ := locketTurn_looks (done := done) (bad := bad) hcode hr hi ((locketBody_bad (editRefused_fulls hpois)).trans (hd _ _))
  exact ⟨_, _, es, hturned, hes⟩

/-- A resident warp's locket: its full bit is set, and the delivery is on its way. -/
theorem applySignet_resident {r : ResRec} (hr : resRecord u (anchorSlice q.sig) (sigCtx q.sig) (sigBase q.sig) = some r) :
    (applySignet q u).trips = u.trips ∧ (applySignet q u).nodeId = u.nodeId ∧ (applySignet q u).mem = u.mem
      ∧ fullMask (applySignet q u) (anchorSlice q.sig) (sigCtx q.sig) (sigBase q.sig) = r.mask ||| BitVec.ofNat 32 (2 ^ sigLocket q.sig)
      ∧ Instr.locketDelivery r.warp (sigLocket q.sig) q.lmask q.values ∈ (applySignet q u).agenda := by
  have happly : applySignet q u = (setRecordMask (anchorSlice q.sig) (sigCtx q.sig) (sigBase q.sig)
      (r.mask ||| BitVec.ofNat 32 (2 ^ sigLocket q.sig)) u).push [.locketDelivery r.warp (sigLocket q.sig) q.lmask q.values] := by
    unfold applySignet
    simp only [hr]
  rw [happly]
  exact ⟨rfl, rfl, rfl, fullMask_resident (resRecord_setRecordMask _ hr), List.mem_append_right _ (List.mem_singleton_self _)⟩

/-- A block's writes are nothing that requests on their way show. -/
theorem writeBlock_fabric (home first : Nat) (es : List Edit) (s : State) :
    (writeBlock home first es s).nodeId = s.nodeId ∧ (writeBlock home first es s).trips = s.trips := by
  unfold writeBlock
  refine List.foldlRecOn (motive := fun (t : State) => t.nodeId = s.nodeId ∧ t.trips = s.trips) _ _ ⟨rfl, rfl⟩ fun t ht k _ => ?_
  dsimp only
  split
  · exact ht
  · obtain ⟨d, -, hch⟩ := writeLine_changed home (first + k) (editLine es k).1 (editLine es k).2 t
    exact ⟨(writeLine_fabric ..).2.trans ht.1, hch.trips.trans ht.2⟩

/-- A saved warp's locket: its words and its full bit are written into the area, and nothing else. -/
theorem applySignet_area (hwf : u.mem.wf = true) (hr : resRecord u (anchorSlice q.sig) (sigCtx q.sig) (sigBase q.sig) = none)
    (hsteady : Steady (signetLines q) u) (hsound : ∀ x ∈ signetLines q, x.2 ∉ u.poison) :
    (applySignet q u).trips = u.trips ∧ (applySignet q u).nodeId = u.nodeId
      ∧ fullMask (applySignet q u) (anchorSlice q.sig) (sigCtx q.sig) (sigBase q.sig)
        = fullMask u (anchorSlice q.sig) (sigCtx q.sig) (sigBase q.sig) ||| BitVec.ofNat 32 (2 ^ sigLocket q.sig)
      ∧ (∀ x ∈ (lanesOf q.lmask).zip q.values,
        (applySignet q u).mem.nat (sigBase q.sig + 256 * sigLocket q.sig + 4 * x.1) 4 = x.2.toNat)
      ∧ ∀ a, (a < sigBase q.sig + 256 * sigLocket q.sig ∨ sigBase q.sig + 256 * sigLocket q.sig + 256 ≤ a) →
          (a < sigBase q.sig + 8192 ∨ sigBase q.sig + 8196 ≤ a) → (applySignet q u).mem.byte a = u.mem.byte a := by
  obtain ⟨m, hm⟩ : ∃ m, fullMask u (anchorSlice q.sig) (sigCtx q.sig) (sigBase q.sig) = m := ⟨_, rfl⟩
  have hsaved : savedFulls (anchorSlice q.sig) (sigBase q.sig) u = (m, u) := by
    rw [savedFulls_single (hsteady.single (x := (_, _)) (List.mem_map_of_mem (List.mem_cons_self ..))) (sigBase_block _).2,
      ← fullMask_saved hr, hm]
  obtain ⟨hnode, htrips⟩ := writeBlock_fabric (anchorSlice q.sig) (sigBase q.sig / 128) (locketEdits q m) u
  obtain ⟨v, hv⟩ : ∃ v, writeBlock (anchorSlice q.sig) (sigBase q.sig / 128) (locketEdits q m) u = v := ⟨_, rfl⟩
  obtain ⟨-, hres, hword, hlanes, hout⟩ := signet_written hwf hsteady hsound hv
  rw [hv] at hnode htrips
  obtain ⟨ts, hts⟩ := noteLate_teams q v
  rw [applySignet_saved hr hsaved, hv, hts, hm]
  exact ⟨htrips, hnode, (fullMask_saved ((resRecord_congr (hres _)).trans hr)).trans hword, hlanes, hout⟩

/-! ### Requests for lockets as they come in -/

/-- The event that deals with a request for a locket: a token's, or a remote write's. -/
def locketEvent (token : Bool) : Instr := if token then .fabricToken else .fabricRwrite

/-- The kind of its packet. -/
def locketKind (token : Bool) : PacketKind := if token then .token else .rwrite

/-- What it asks of the anchor slice. -/
def locketAsked (token : Bool) (p : Packet) : LocketReq :=
  if token then
    { sig := p.sig, scope := some p.scope, lmask := bcastMask p.sig, values := (lanesOf (bcastMask p.sig)).map (fun _ => 1) }
  else { sig := p.sig, width := if p.width = 0 then none else some p.width, lmask := p.lmask, values := p.values }

variable {token : Bool} {port n : Nat} {p : Packet} {x : Trip} {r : Packet}

theorem locketAsked_sig (token : Bool) (p : Packet) : (locketAsked token p).sig = p.sig := by
  cases token with
  | false => rfl
  | true => rfl

theorem exec_locket (token : Bool) (s : State) : exec (locketEvent token) s
    = received (locketKind token) s (locketStep (locketEvent token) (locketAsked token)) := by
  cases token with
  | false => exact exec_fabricRwrite s
  | true => exact exec_fabricToken s

/-- The exports let another node reach the lockets that a signet names. -/
def sigOpen (s : State) (p : Packet) : Bool := exported s p.src (sigAddr p.sig) (4 * widthLanes (sigWidth p.sig % 3)) (·.a)

/-- The one stop of a request for a locket. -/
def anchorStops (g : BitVec 128) : List Stop := [⟨anchorSlice g, sigBase g / 128, 128⟩]

/-- A request's turn at the anchor slice, with the packets that answer it. -/
def locketLook (e : Instr) (q : LocketReq) (p : Packet) (x : Trip) (s : State) : Out :=
  locketTurn e q s (fun code s => .next (replyWith x (answer s p .ack code 0) s))
    (fun _ s => .next (replyWith x (answer s p .ack 0 tMemory) s))

theorem locketStep_closed {req : Packet → LocketReq} (ho : sigOpen s p = false) (ht : s.tripsOf e = []) :
    locketStep e req port p s = .next (refused port p tRemote s) := by
  unfold sigOpen at ho
  unfold locketStep
  dsimp only
  rw [ho, ht]
  rfl

theorem locket_judged (ho : sigOpen s p = true ∨ s.tripsOf e ≠ []) : ((s.tripsOf e).isEmpty && !sigOpen s p) = false := by
  obtain ho | ho := ho
  · rw [ho, Bool.not_true, Bool.and_false]
  · rw [List.isEmpty_eq_false_iff.mpr ho, Bool.false_and]

theorem locketStep_hole {req : Packet → LocketReq} (ho : sigOpen s p = true ∨ s.tripsOf e ≠ []) (hh : isHole (sigAddr p.sig) = true) :
    locketStep e req port p s = .next (refused port p tHole s) := by
  have hj := locket_judged ho
  unfold sigOpen at hj
  unfold locketStep
  dsimp only
  rw [hj, hh]
  rfl

theorem locketStep_goes {req : Packet → LocketReq} (ho : sigOpen s p = true ∨ s.tripsOf e ≠ []) (hh : isHole (sigAddr p.sig) = false) :
    locketStep e req port p s
      = fromIngress e port p ⟨anchorSlice p.sig, sigBase p.sig / 128, 128⟩ (locketLook e (req p) p) s := by
  have hj := locket_judged ho
  unfold sigOpen at hj
  unfold locketStep
  dsimp only
  rw [hj, hh]
  rfl

section
variable (hhead : headOf s (locketKind token) = some (port, p)) (he : (s.stream p.src).inEpoch = some p.epoch)
  (hseen : p.seq ∉ (s.stream p.src).seen)
include hhead he hseen

theorem exec_locket_fresh : exec (locketEvent token) s = locketStep (locketEvent token) (locketAsked token) port p s :=
  (exec_locket token s).trans (received_fresh hhead he hseen)

variable (ho : sigOpen s p = true ∨ s.tripsOf (locketEvent token) ≠ []) (hh : isHole (sigAddr p.sig) = false)
include ho hh

theorem exec_locket_goes : exec (locketEvent token) s = fromIngress (locketEvent token) port p
    ⟨anchorSlice p.sig, sigBase p.sig / 128, 128⟩ (locketLook (locketEvent token) (locketAsked token p) p) s :=
  (exec_locket_fresh hhead he hseen).trans (locketStep_goes ho hh)

theorem exec_locket_leaves {x : Stop} (hl : s.leaves (locketEvent token) (.ingress (port / 16)) (anchorStops p.sig) x) :
    ∃ t, exec (locketEvent token) s = .next t ∧ s.left (locketEvent token) (.ingress (port / 16)) x t := by
  rw [exec_locket_goes hhead he hseen ho hh]
  exact journey_leaves _ _ hl

theorem exec_locket_home (hb : allBack (s.tripsOf (locketEvent token)) (anchorStops p.sig) = true) (hr : s.replyPacket = some r) :
    ∃ t, exec (locketEvent token) s = .next t ∧ (∀ a, t.mem.byte a = s.mem.byte a)
      ∧ (t.rxPackets = s.rxPackets.drop 1 ∧ t.txPackets = s.txPackets ++ [(port, r)] ∧ p.seq ∈ (t.stream p.src).seen
        ∧ r ∈ (t.stream p.src).replies) ∧ t.replyPacket = none := by
  rw [exec_locket_goes hhead he hseen ho hh]
  obtain ⟨t, hex, hmem, htold, hnone, -⟩ := fromIngress_home hb hr
  exact ⟨t, hex, hmem, htold, hnone⟩

/-- What becomes of a request that has come to its anchor slice. -/
theorem exec_locket_comes (hc : s.comes (locketEvent token) (.ingress (port / 16)) (anchorStops p.sig) x) :
    ∃ n, ∀ t, locketLook (locketEvent token) (locketAsked token p) p x (s.there x n) = .next t →
      exec (locketEvent token) s = .next (t.push [locketEvent token]) := by
  rw [exec_locket_goes hhead he hseen ho hh]
  obtain ⟨n, hn⟩ := journey_comes hc
  exact ⟨n, hn _ _⟩

end

/-- A request for a locket is answered with a packet, which is on its way back to the ingress. -/
def TellsBack (s : State) (e : Instr) (x : Trip) (p : Packet) (code fault : Nat) (t : State) : Prop :=
  t.replyPacket = some (answer s p .ack code fault) ∧ t.replies e x (fun y => y.bad = x.bad)

/-- The state that a request for a locket leaves once it is answered. -/
def locketDone (e : Instr) (x : Trip) (p : Packet) (code fault : Nat) (u : State) (es : List Instr) : State :=
  ((replyWith x (answer u p .ack code fault) u).ahead es).push [e]

theorem locketDone_tells (hx : x ∈ s.trips) (ht : u.trips = (s.there x n).trips) (hn : u.nodeId = s.nodeId) (p : Packet)
    (code fault : Nat) (es : List Instr) : TellsBack s e x p code fault (locketDone e x p code fault u es) :=
  ⟨congrArg some (answer_eq hn ..), (returned_replies (f := fun x => x)
    (u := { u with replyPacket := some (answer u p .ack code fault) }) hx ht (fun _ => rfl) fun _ hy => hy).before rfl
    (State.mem_again es)⟩

theorem locketDone_fulls (code fault : Nat) (es : List Instr) (home ctx base : Nat) :
    fullMask (locketDone e x p code fault u es) home ctx base = fullMask u home ctx base := rfl

theorem locketDone_agenda {i : Instr} (h : i ∈ u.agenda) (code fault : Nat) (es : List Instr) :
    i ∈ (locketDone e x p code fault u es).agenda := by
  simp [locketDone, replyWith, returned, State.ahead, State.modTrip, h]

/-- A request that does not look at the saved area is answered with its code; a resident warp's locket is full, and its
delivery on its way. -/
theorem unlooked_told {code : Nat} (hx : x ∈ s.trips) (hu : (s.there x n).Turned u) (hcode : code = 0 →
      resRecord s (anchorSlice q.sig) (sigCtx q.sig) (sigBase q.sig) ≠ none) (es : List Instr)
    (ht : t = locketDone e x p code 0 (signetEffect q code u) es) :
    TellsBack s e x p code 0 t ∧ (∀ a, t.mem.byte a = s.mem.byte a)
      ∧ (code ≠ 0 → (t.slice (anchorSlice q.sig)).res = (s.slice (anchorSlice q.sig)).res)
      ∧ (code = 0 → fullMask t (anchorSlice q.sig) (sigCtx q.sig) (sigBase q.sig)
          = fullMask s (anchorSlice q.sig) (sigCtx q.sig) (sigBase q.sig) ||| BitVec.ofNat 32 (2 ^ sigLocket q.sig)
        ∧ ∀ r, resRecord s (anchorSlice q.sig) (sigCtx q.sig) (sigBase q.sig) = some r →
          Instr.locketDelivery r.warp (sigLocket q.sig) q.lmask q.values ∈ t.agenda) := by
  by_cases hz : code = 0
  · subst hz
    obtain ⟨r, hr⟩ := Option.ne_none_iff_exists'.mp (hcode rfl)
    obtain ⟨htrips, hnode, hmem, hfull, hdeliver⟩ := applySignet_resident (u := u) ((resRecord_congr (s := s) (hu.res _)).trans hr)
    rw [signetEffect, if_pos rfl] at ht
    subst ht
    refine ⟨locketDone_tells hx (htrips.trans hu.trips) (hnode.trans hu.node) p 0 0 es,
      fun a => congrArg (Memory.byte · a) (hmem.trans hu.mem), fun h => absurd rfl h, fun _ => ⟨?_, fun r' hr' => ?_⟩⟩
    · rw [fullMask_resident hr]
      exact hfull
    · obtain rfl : r = r' := Option.some.inj (hr.symm.trans hr')
      exact locketDone_agenda hdeliver 0 0 es
  · rw [signetEffect, if_neg hz] at ht
    subst ht
    exact ⟨locketDone_tells hx hu.trips hu.node p code 0 es, fun a => congrArg (Memory.byte · a) hu.mem, fun _ => hu.res _,
      fun h => absurd h hz⟩

/-- A request that looks at the saved area is answered with its code; a locket that it reaches is written into the area. -/
theorem saved_told {code : Nat} (hwf : s.mem.wf = true) (hx : x ∈ s.trips) (hu : (s.there x n).Turned u)
    (hr : resRecord s (anchorSlice q.sig) (sigCtx q.sig) (sigBase q.sig) = none) (hsteady : Steady (signetLines q) u)
    (hsound : ∀ x ∈ signetLines q, x.2 ∉ s.poison) (es : List Instr)
    (ht : t = locketDone e x p code 0 (signetEffect q code u) es) :
    TellsBack s e x p code 0 t ∧ (code ≠ 0 → ∀ a, t.mem.byte a = s.mem.byte a)
      ∧ (code = 0 → fullMask t (anchorSlice q.sig) (sigCtx q.sig) (sigBase q.sig)
          = fullMask s (anchorSlice q.sig) (sigCtx q.sig) (sigBase q.sig) ||| BitVec.ofNat 32 (2 ^ sigLocket q.sig)
        ∧ (∀ x ∈ (lanesOf q.lmask).zip q.values, t.mem.nat (sigBase q.sig + 256 * sigLocket q.sig + 4 * x.1) 4 = x.2.toNat)
        ∧ ∀ a, (a < sigBase q.sig + 256 * sigLocket q.sig ∨ sigBase q.sig + 256 * sigLocket q.sig + 256 ≤ a) →
            (a < sigBase q.sig + 8192 ∨ sigBase q.sig + 8196 ≤ a) → t.mem.byte a = s.mem.byte a) := by
  by_cases hz : code = 0
  · subst hz
    obtain ⟨htrips, hnode, hfull, hlanes, hout⟩ := applySignet_area (u := u) (by rw [hu.mem]; exact hwf)
      ((resRecord_congr (s := s) (hu.res _)).trans hr) hsteady (fun x hx => by rw [hu.poison]; exact hsound x hx)
    rw [signetEffect, if_pos rfl] at ht
    subst ht
    refine ⟨locketDone_tells hx (htrips.trans hu.trips) (hnode.trans hu.node) p 0 0 es, fun h => absurd rfl h,
      fun _ => ⟨?_, hlanes, fun a hl hf => (hout a hl hf).trans (congrArg (Memory.byte · a) hu.mem)⟩⟩
    rw [locketDone_fulls, hfull, fullMask_congr (s := s) (hu.res _) hu.mem]
  · rw [signetEffect, if_neg hz] at ht
    subst ht
    exact ⟨locketDone_tells hx hu.trips hu.node p code 0 es, fun _ a => congrArg (Memory.byte · a) hu.mem, fun h => absurd h hz⟩

end

end Sys2Proof.Machine

namespace Sys2Proof.Machine

/-! ### Requests for lockets at their anchor slice -/

/-- Lines that stand ready for a request do so when it has come. -/
theorem State.servedAll.there {s : State} {ls : List (Nat × Nat)} {e : Instr} (h : s.servedAll ls e) (x : Trip) (n : Nat) :
    (s.there x n).servedAll ls e where
  each y hy :=
    have hy := h.each y hy
    ⟨hy.present, hy.turn, hy.alone, hy.sound, hy.single⟩
  one := h.one
  steady := h.steady

section
variable {s : State} {token : Bool} {port : Nat} {p : Packet} {x : Trip}
  (hhead : headOf s (locketKind token) = some (port, p)) (he : (s.stream p.src).inEpoch = some p.epoch)
  (hseen : p.seq ∉ (s.stream p.src).seen) (ho : sigOpen s p = true ∨ s.tripsOf (locketEvent token) ≠ [])
  (hh : isHole (sigAddr p.sig) = false) (hc : s.comes (locketEvent token) (.ingress (port / 16)) (anchorStops p.sig) x)
include hhead he hseen ho hh hc

theorem exec_locket_unlooked (hlook : signetCode s (locketAsked token p) ≠ 0
      ∨ resRecord s (anchorSlice p.sig) (sigCtx p.sig) (sigBase p.sig) ≠ none)
    (hb : (s.sline (anchorSlice p.sig) (sigBase p.sig / 128 + 64)).state ≠ .busy)
    (hw : (s.sline (anchorSlice p.sig) (sigBase p.sig / 128 + 64)).waiters = []
      ∨ (s.sline (anchorSlice p.sig) (sigBase p.sig / 128 + 64)).waiters.head? = some (locketEvent token)) :
    ∃ t, exec (locketEvent token) s = .next t
      ∧ TellsBack s (locketEvent token) x p (verifySignet s (locketAsked token p)) 0 t ∧ (∀ a, t.mem.byte a = s.mem.byte a)
      ∧ (verifySignet s (locketAsked token p) ≠ 0 → (t.slice (anchorSlice p.sig)).res = (s.slice (anchorSlice p.sig)).res)
      ∧ (verifySignet s (locketAsked token p) = 0 → fullMask t (anchorSlice p.sig) (sigCtx p.sig) (sigBase p.sig)
          = fullMask s (anchorSlice p.sig) (sigCtx p.sig) (sigBase p.sig) ||| BitVec.ofNat 32 (2 ^ sigLocket p.sig)
        ∧ ∀ r, resRecord s (anchorSlice p.sig) (sigCtx p.sig) (sigBase p.sig) = some r →
          Instr.locketDelivery r.warp (sigLocket p.sig) (locketAsked token p).lmask (locketAsked token p).values ∈ t.agenda) := by
  obtain ⟨n, hn⟩ := exec_locket_comes hhead he hseen ho hh hc
  rw [← locketAsked_sig token p] at hlook hb hw ⊢
  obtain ⟨u, es, hu, hes⟩ := locketTurn_unlooked (s := s.there x n)
    (D := fun code u => replyWith x (answer u p .ack code 0) u)
    (bad := fun _ s => .next (replyWith x (answer s p .ack 0 tMemory) s)) (fun _ _ => rfl) hlook hb hw
  refine ⟨_, hn _ hes, unlooked_told hc.mem hu (fun hz => hlook.resolve_left fun hcode => hcode ?_) es rfl⟩
  rw [← verifySignet_refused hcode]
  exact hz

theorem exec_locket_saved (hwf : s.mem.wf = true) (hcode : signetCode s (locketAsked token p) = 0)
    (hr : resRecord s (anchorSlice p.sig) (sigCtx p.sig) (sigBase p.sig) = none)
    (hv : s.servedAll (signetLines (locketAsked token p)) (locketEvent token)) :
    ∃ t, exec (locketEvent token) s = .next t
      ∧ TellsBack s (locketEvent token) x p (verifySignet s (locketAsked token p)) 0 t
      ∧ (verifySignet s (locketAsked token p) ≠ 0 → ∀ a, t.mem.byte a = s.mem.byte a)
      ∧ (verifySignet s (locketAsked token p) = 0 → fullMask t (anchorSlice p.sig) (sigCtx p.sig) (sigBase p.sig)
          = fullMask s (anchorSlice p.sig) (sigCtx p.sig) (sigBase p.sig) ||| BitVec.ofNat 32 (2 ^ sigLocket p.sig)
        ∧ (∀ x ∈ (lanesOf (locketAsked token p).lmask).zip (locketAsked token p).values,
          t.mem.nat (sigBase p.sig + 256 * sigLocket p.sig + 4 * x.1) 4 = x.2.toNat)
        ∧ ∀ a, (a < sigBase p.sig + 256 * sigLocket p.sig ∨ sigBase p.sig + 256 * sigLocket p.sig + 256 ≤ a) →
            (a < sigBase p.sig + 8192 ∨ sigBase p.sig + 8196 ≤ a) → t.mem.byte a = s.mem.byte a) := by
  obtain ⟨n, hn⟩ := exec_locket_comes hhead he hseen ho hh hc
  rw [← locketAsked_sig token p] at hr ⊢
  obtain ⟨u, es, hu, hsteady, hes⟩ := locketTurn_saved (s := s.there x n)
    (D := fun code u => replyWith x (answer u p .ack code 0) u)
    (bad := fun _ s => .next (replyWith x (answer s p .ack 0 tMemory) s)) (fun _ _ => rfl) hcode hr (hv.there x n)
  exact ⟨_, hn _ hes, saved_told hwf hc.mem hu hr hsteady (fun y hy => by simpa [poisoned] using (hv.each y hy).sound) es rfl⟩

theorem exec_locket_poisoned (hcode : signetCode s (locketAsked token p) = 0)
    (hr : resRecord s (anchorSlice p.sig) (sigCtx p.sig) (sigBase p.sig) = none)
    (hi : ∀ x ∈ signetLines (locketAsked token p), s.Idle (locketEvent token) x)
    (hp : poisoned s (sigBase p.sig / 128 + 64) = true) :
    ∃ t, exec (locketEvent token) s = .next t ∧ (∀ a, t.mem.byte a = s.mem.byte a) ∧ t.tags = s.tags
      ∧ TellsBack s (locketEvent token) x p 0 tMemory t := by
  obtain ⟨n, hn⟩ := exec_locket_comes hhead he hseen ho hh hc
  rw [← locketAsked_sig token p] at hr hp
  obtain ⟨u, l, es, hu, hes⟩ := locketTurn_poisoned (s := s.there x n)
    (B := fun _ u => replyWith x (answer u p .ack 0 tMemory) u)
    (done := fun code u => .next (replyWith x (answer u p .ack code 0) u)) (fun _ _ => rfl) hcode hr
    (fun y hy => ⟨(hi y hy).busy, (hi y hy).inv, (hi y hy).uo, (hi y hy).turn⟩) hp
  exact ⟨_, hn _ hes, fun a => congrArg (Memory.byte · a) hu.mem, hu.tags,
    locketDone_tells hc.mem hu.trips hu.node p 0 tMemory es⟩

end

end Sys2Proof.Machine

namespace Sys2Proof.Machine

/-! ## The fabric (O53) -/

theorem remoteHome_mismatch {pa home : Nat} (hh : isHole pa = false) (he : effPolicy pa home = none) :
    remoteHome pa home = .error tHomeMismatch := by
  unfold remoteHome
  rw [hh, he]
  rfl

/-- The lines of a saved area that a request of another node takes together. -/
theorem signetLines_asked (token : Bool) (p : Packet) : signetLines (locketAsked token p)
    = [(anchorSlice p.sig, sigBase p.sig / 128 + 64), (anchorSlice p.sig, sigBase p.sig / 128 + 2 * sigLocket p.sig),
      (anchorSlice p.sig, sigBase p.sig / 128 + (2 * sigLocket p.sig + 1))] := by
  unfold signetLines
  rw [locketAsked_sig]
  rfl

/-- Settles O53: links, streams and replies case by case; a request of another node by its journey from the ingress of its die
to the slice, and a request for a locket by its turn at the anchor slice. -/
theorem fabricSteps : Obligations.FabricSteps := by
  unfold Obligations.FabricSteps
  intro s hinv
  dsimp only
  refine ⟨?_, ?_, ?_, ?_, ?_, ?_, ?_, ?_, ?_, ?_, ?_, ?_, exec_replyArrival_none, ?_⟩
  -- links
  · intro port
    refine ⟨exec_fraukLinkUp_none, fun hn hp => ⟨_, exec_fraukLinkUp hn hp, fun _ => rfl, ?_, fun k hk => ?_⟩⟩
    · dsimp only
      rw [Tab.get_modify_self]
    · dsimp only
      rw [Tab.get_modify_other _ _ _ hk]
  · intro port flit
    exact ⟨exec_linkReplayRequest_port port flit s, exec_flitReplay_port port flit s, exec_linkReset_port port s⟩
  · intro p n f fs
    exact ⟨p.upward_sound n fs, fun hf => if_pos (by simp [hf]), fun hf hn => (if_neg (by simp [hf])).trans (if_pos hn)⟩
  -- streams
  · intro node seq
    refine ⟨exec_retransmit_unknown, fun u hu => ⟨exec_retransmit_resent hu, fun hr hs => ?_, fun hr hs => ?_⟩⟩
    · exact ⟨_, (exec_retransmit_over hu hr).trans (congrArg Host.Outcome.next (if_pos hs)),
        fun a => congrArg (Memory.byte · a) (resetDone_mem ..), resetDone_waits _ _⟩
    · refine ⟨_, (exec_retransmit_over hu hr).trans (congrArg Host.Outcome.next (if_neg hs)), ?_⟩
      rw [breakOut_stream, if_pos rfl]
      refine ⟨rfl, rfl, rfl, rfl, fun x hx => ?_, fun v o p hv ho hp hcopy hkick => breakOut_ends hu hs hv ho hp hcopy hkick⟩
      have hreset : x.seq = resetSeq := of_decide_eq_true (List.mem_filter.mp hx).2
      exact hreset
  · intro port p h
    obtain ⟨hrx, -, hst⟩ := breakStreams_broken p s
    refine ⟨_, exec_targetPackageReset h, (resetDone_rx ..).trans hrx, ?_⟩
    rw [resetDone_stream, hst]
    exact ⟨rfl, rfl, rfl, rfl⟩
  · intro port p h
    exact ⟨_, exec_streamResetAck h, resetDone_rx .., fun a => congrArg (Memory.byte · a) (resetDone_mem ..), resetDone_waits _ _,
      fun w x hw ho hn hx => resetDone_answers (s := popPacket s) hw ho hn hx⟩
  · intro port p h
    obtain ⟨hrx, hnode, hst⟩ := breakStreams_broken p s
    refine ⟨_, exec_streamResetReceived h, hrx, congrArg Stream.seen hst, congrArg Stream.replies hst, congrArg Stream.inEpoch hst,
      congrArg Stream.nextSeq hst, (List.getLast?_concat ..).trans ?_⟩
    rw [answer_eq hnode]
    rfl
  -- requests of other nodes
  · intro x hx h
    have hmem : x ∈ requestEvents ++ [(.targetPackageReset, .resetNotice), (.streamResetAck, .streamResetAck),
        (.fabricStreamResetReceived, .streamReset)] := hx
    obtain hreq | hreset := List.mem_append.mp hmem
    · obtain ⟨f, hf⟩ := exec_request hreq
      rw [hf, received_none h]
    · exact exec_resets_none hreset h
  · intro x hx port p h
    obtain ⟨f, hf⟩ := exec_request hx
    simp only [hf]
    exact ⟨received_old h, received_again h, fun hn => ⟨newEpoch p s, received_begins h hn, newEpoch_begun hn⟩⟩
  · intro port h p k hhead he hseen hk
    have hopen := targetAllowed_iff (s := s) (p := p) hk
    simp only [exported_iff] at hopen
    refine ⟨fun ho ht => ⟨_, exec_target_closed hk hhead he hseen (by rw [← Bool.not_eq_true, hopen]; exact ho) ht, fun _ => rfl,
        answered_told ..⟩,
      fun ho hhole => ⟨_, exec_target_hole hk hhead he hseen (hopen.mpr ho) (if_pos hhole), fun _ => rfl, answered_told ..⟩,
      fun ho hhole heff => ⟨_, exec_target_hole hk hhead he hseen (hopen.mpr ho) (remoteHome_mismatch hhole heff), fun _ => rfl,
        answered_told ..⟩,
      fun ho hh => ?_⟩
    have ha : targetAllowed s k p = true ∨ s.tripsOf (targetEvent k) ≠ [] := ho.imp_left hopen.mpr
    refine ⟨fun x hl => exec_target_leaves hk hhead he hseen ha hh hl, fun x hc hv => ⟨fun y hy hch hs => ?_, fun hscope => ?_⟩,
      fun x hc hch hi hb hu hw hpois hwhole => ?_, fun hb r hr => exec_target_home hk hhead he hseen ha hh hb hr⟩
    · exact exec_target_refused hk hhead he hseen ha hh hc hv.idle.1 hv.turn hy hch hs
    · obtain ⟨n, v, es, ht, hm, hex⟩ := exec_target_served hk hhead he hseen ha hh hc hv.idle.1 hv.turn hv hscope
      have hserved := target_served hk hinv.memory hc.mem ht hm es
      refine ⟨_, hex, hserved.read, hserved.write, fun hka => ?_⟩
      obtain ⟨hmem, htag, hred, hfull⟩ := hserved.atomic hka
      refine ⟨hmem, htag, hred, fun hr => ⟨_, hfull hr, rfl, rfl, rfl, ?_, fun before a after hl hlast l hlr hla => ?_⟩⟩
      · rw [List.map_map]
        rfl
      · obtain ⟨l', -, rfl⟩ := List.mem_map.mp hlr
        rw [← atomicReply_old hl hlast, ← hla]
    · obtain ⟨t, hex, hmem, hrep, -, hback⟩ :=
        exec_target_poisoned hk hhead he hseen ha hh hc hb hw hi hu hch hpois (targetWhole_part hwhole)
      exact ⟨t, hex, hmem, hrep, hback⟩
  · intro port p token hhead he hseen
    refine ⟨fun ho ht => ⟨_, (exec_locket_fresh hhead he hseen).trans (locketStep_closed ho ht), fun _ => rfl, answered_told ..⟩,
      fun ho hh => ⟨_, (exec_locket_fresh hhead he hseen).trans (locketStep_hole (.inl ho) hh), fun _ => rfl, answered_told ..⟩,
      fun ho hh => ⟨fun x hl => exec_locket_leaves hhead he hseen ho hh hl, fun x hc => ⟨fun hlook hturn => ?_,
        fun hcode hr => ⟨fun hv => ?_, fun hi hp => ?_⟩⟩, fun hb r hr => exec_locket_home hhead he hseen ho hh hb hr⟩⟩
    · exact exec_locket_unlooked hhead he hseen ho hh hc hlook hturn.1 hturn.2
    · exact exec_locket_saved hhead he hseen ho hh hc hinv.memory hcode hr (by rw [signetLines_asked]; exact hv)
    · refine exec_locket_poisoned hhead he hseen ho hh hc hcode hr (fun y hy => ?_) hp
      rw [signetLines_asked] at hy
      obtain ⟨⟨hbusy, hw⟩, hpresent, huo⟩ := hi y hy
      exact ⟨hbusy, hpresent, huo, hw⟩
  · intro port p hhead he hseen
    rw [exec_fabricKick, received_fresh hhead he hseen]
    exact kickStep_told port p s
  -- replies
  · intro port r rest hrx
    refine ⟨exec_replyArrival_other hrx, fun hk => ⟨fun hnone => ?_, fun u o p hu ho hp => ?_⟩⟩
    · rw [exec_replyArrival hrx hk, takeReply_none hnone]
      unfold popPacket
      rw [hrx]
      rfl
    · obtain ⟨_, _, _, _, _, _, _, _, _, hframe⟩ := (replyTo_aside u r (replyStart r s)).frame
      have hmem (a : Nat) : (replyTo u r (replyStart r s)).mem.byte a = s.mem.byte a := by
        rw [hframe]
        rfl
      refine ⟨_, (exec_replyArrival hrx hk).trans (congrArg Host.Outcome.next (takeReply_some hu)), ?_,
        fun hf hc hkick hpref hfetch => replyTo_fault (s := replyStart r s) ho hp hf hc hkick hpref hfetch,
        fun hf hl => ⟨?_, hmem⟩, fun hf hl => ⟨?_, hmem⟩, fun hf hl => ?_,
        fun hf hl => replyTo_code (s := replyStart r s) ho hp hf hl, fun hl => replyTo_kick (s := replyStart r s) ho hp hl⟩
      · rw [hframe]
        exact congrArg (List.drop 1) hrx
      · obtain ⟨ha, o', q, ho', hq, hd, -⟩ := replyTo_line (s := replyStart r s) ho hp hf (.inl hl)
        exact ⟨ha, o', q, ho', hq, hd⟩
      · obtain ⟨ha, o', q, ho', hq, -, htag⟩ := replyTo_line (s := replyStart r s) ho hp hf (.inr hl)
        exact ⟨ha, o', q, ho', hq, htag⟩
      · obtain ⟨ha, hlanes⟩ := replyTo_atomic (s := replyStart r s) ho hp hf hl
        exact ⟨ha, hmem, hlanes⟩

end Sys2Proof.Machine
